-- ==== Sys2Proof/Word.lean ====
section
/-! DEFINITION. The word types of the model and their plainest arithmetic. -/
namespace Sys2Proof

/-- One byte (R9). -/
abbrev Byte := BitVec 8

/-- A byte string, lowest address first. -/
abbrev Bytes := List Byte

/-- The bits of an IEEE 754 binary32 value (R10). -/
abbrev F32 := BitVec 32

end Sys2Proof
end

