-- ==== Sys2Proof/Syntax.lean ====
section
/-! DEFINITION. The commands of the block: one constructor per row of spec/opcode_table.json. The table gives the rows no
operand fields; the operands are the model's own (log entry 1), taken from the rule that each row cites. `now` is the
captured Ephemeris value (R438) in whose cclk the event falls (log entry 5). -/
namespace Sys2Proof

/-- A packet (R176, R308, R415): kind 0 CRESOL, 1 FABRIC, 2 CREDIT. For FABRIC, `args` is the 256-bit header of R308 and
`typ` its OP; for CREDIT, `args` is the little-endian integer of the 128 bytes. A row that names a packet type gives
`kind`, `typ` and SUBTYPE; the operand's own are not read. -/
structure Pkt where
  kind : Nat
  vc : Nat
  version : Nat
  typ : Nat
  src : Nat
  dst : Nat
  route : Nat
  memb : Nat
  args : Nat
  payload : Bytes
  deriving DecidableEq, Repr

/-- The path by which a dictionary access comes (R356): the control port with its keeper qualifier, the management bus
with the endpoint id and REQ_ID, in band with the node and REQ_ID. -/
inductive Via where
  | control (keeper : Bool)
  | mgmt (eid reqId : Nat)
  | inBand (src reqId : Nat)
  deriving DecidableEq, Repr

/-- A request on the control port (R435): byte offset, byte enables, data, keeper qualifier. -/
structure CpReq where
  offset : Nat
  be : Nat
  data : Nat
  keeper : Bool
  deriving DecidableEq, Repr

/-- An access message (R443): the path, the 24-byte header's fields and the data. -/
structure AccMsg where
  via : Via
  version : Nat
  index : Nat
  sub : Nat
  final : Bool
  offset : Nat
  length : Nat
  data : Bytes
  deriving DecidableEq, Repr

/-- The reset domains of R433; `power` is a fall of power-good. -/
inductive Domain where
  | k | t | c | m | f | power
  deriving DecidableEq, Repr

/-- Where an SRAM lies: in a tile, a preconditioner column, the control unit or another unit (R403). -/
inductive SramPlace where
  | tile (t : Nat)
  | column (c : Nat)
  | control
  | unit (u : Nat)
  deriving DecidableEq, Repr

/-- What the self-test of INIT finds (R383): what cannot be repaired, and the rows that spare rows repair. -/
structure SelfTest where
  controlSramBad : Bool
  tilesBad : List Nat
  colsBad : List Nat
  rowsFixed : List (SramPlace × Nat)
  deriving DecidableEq, Repr

/-- For whom a memory-side burst moves (R404, R458): a unit of the core, the fabric, the scrubber, or a Plate or restore. -/
inductive Reader where
  | unit (u : Nat)
  | fabric (tag src : Nat)
  | scrub
  deriving DecidableEq, Repr

/-- A read burst that returns (R410, R413): sub-port, tag, window, byte address, and per beat the two outcomes. -/
structure ReadBurst where
  subport : Nat
  tag : Nat
  tier1 : Bool
  addr : Nat
  beats : List (Nat × Nat)
  reader : Reader
  deriving DecidableEq, Repr

/-- A write response (R414): sub-port, tag, window, byte address, beats, status and for whom the burst was written. -/
structure WriteBurst where
  subport : Nat
  tag : Nat
  tier1 : Bool
  addr : Nat
  beats : Nat
  status : Nat
  reader : Reader
  deriving DecidableEq, Repr

/-- A received flit with its sideband (R415). -/
structure Flit where
  vc : Nat
  sop : Bool
  eop : Bool
  len : Nat
  kind : Nat
  pseq : Nat
  err : Bool
  bytes : Bytes
  deriving DecidableEq, Repr

/-- An MCTP packet on the management bus (R442): source and destination endpoint ids, start and end flags, sequence,
tag, whether its PEC is right, and its payload. -/
structure MctpPkt where
  src : Nat
  dst : Nat
  som : Bool
  eom : Bool
  seq : Nat
  tag : Nat
  pecOk : Bool
  payload : Bytes
  deriving DecidableEq, Repr

/-- An operation of the test port (R446). -/
inductive TestOp where
  | bypass | extest (v : Nat) | intest (v : Nat) | scan (v : Nat) | mbist
  | shadowWrite (rows : List (SramPlace × Nat)) (tiles cols : List Nat) | shadowRead | identity
  deriving DecidableEq, Repr

/-- A service command's status and the decimated sample pair of Fenmal (R449): voltage code, current code. -/
structure Sample where
  v : Int
  i : Int
  deriving DecidableEq, Repr

/-- The commands. -/
inductive Instr where
  | resetAssert (d : Domain) (torn : List Nat)
  | tclkResetAssert
  | resetRelease (d : Domain)
  | initSequence (t : SelfTest)
  | calLoad (via : Via)
  | unitArm (via : Via) (mask : Nat)
  | armInitComplete
  | unitDisarm (via : Via) (mask : Nat)
  | unitClear (via : Via) (mask : Nat)
  | jobStop (via : Via) (epoch : Nat)
  | maintEnter (via : Via)
  | unitDrainComplete (u : Nat)
  | tileRetire (via : Via) (tile : Nat)
  | pcColRetire (via : Via) (col : Nat)
  | sramUncorrectableError (p : SramPlace)
  | routeChange (via : Via) (now : Nat)
  | membInstall (via : Via) (now : Nat)
  | restoreStart (via : Via) (now : Nat)
  | plateReturn (via : Via) (now : Nat)
  | plateReturnDiscardsDone
  | tierFlush (via : Via) (tenant : Nat)
  | faSubmit (via : Via) (now : Nat)
  | watchClear (via : Via) (node : Nat)
  | overlaySwitch (via : Via) (arg now : Nat)
  | commenceStart (via : Via) (now : Nat)
  | commenceAbandon (via : Via)
  | scrubStart (via : Via) (now : Nat)
  | scrubPage (now : Nat)
  | evtAck (via : Via) (mask : Nat)
  | dictWrite (r : CpReq) (now : Nat)
  | accDataRead (r : CpReq)
  | mbRead (keeper : Bool)
  | mbWrite (keeper final : Bool) (now : Nat)
  | mbAbort (keeper : Bool)
  | flagClear (via : Via) (key bits : Nat)
  | chronoTailWrite (via : Via) (tail : Nat)
  | overlayImageWrite (via : Via) (slot : Nat) (image : Bytes)
  | regionEntryWrite (via : Via) (value : Bytes)
  | takeoverSetWrite (via : Via) (value : Bytes)
  | thermMarginWrite (via : Via) (value now : Nat)
  | thermStaleTimeout (now : Nat)
  | plateEnableWrite (via : Via) (value now : Nat)
  | tierQuotaWrite (via : Via) (value : Bytes)
  | retireListWrite (via : Via) (value : Bytes)
  | joinSnapshotWrite (via : Via) (value : Bytes)
  | switchOrderWrite (src reqId now : Nat) (value : Bytes)
  | switchCancel (src reqId now : Nat) (value : Bytes)
  | accMsgRead (m : AccMsg)
  | accMsgWrite (m : AccMsg) (now : Nat)
  | accMsgAbort (m : AccMsg)
  | dictResponseRx (now : Nat) (m : Pkt)
  | dictResend (now dst reqId : Nat)
  | dictStoreExpiry (now src reqId : Nat)
  | mctpPacketRx (now : Nat) (p : MctpPkt)
  | setEndpointId (src op eid : Nat)
  | getEndpointId (src : Nat)
  | getMctpVersionSupport (src typ : Nat)
  | getMessageTypeSupport (src : Nat)
  | getVendorDefinedMessageSupport (src selector : Nat)
  | enec (mask : Nat)
  | disec (mask : Nat)
  | rstdaa
  | entdaa (addr : Nat)
  | setdasa (stat addr : Nat)
  | setnewda (addr : Nat)
  | getpid
  | getbcr
  | getdcr
  | getstatus
  | getmwl
  | getmrl
  | setmwl (v : Nat)
  | setmrl (v : Nat)
  | pmVoltageAck
  | pmFrequencyAck
  | timeBecomesValid (count : Nat)
  | timeBecomesInvalid (now : Nat)
  | timeStep (now count : Nat)
  | linkUp (port : Nat)
  | linkDown (port : Nat)
  | linkRetrain (port : Nat)
  | linkCreditReturn (port vc count : Nat)
  | packetTransmit (now port : Nat)
  | creditPacketRx (now : Nat) (m : Pkt)
  | peerCreditWait (now node vc : Nat)
  | peerCreditVoid (now node : Nat)
  | rxPacketGapTimeout (now port vc : Nat)
  | rxPseqLost (now src vc pseq : Nat)
  | creditLeaseExpiry (now node : Nat)
  | mspReadReturn (now : Nat) (b : ReadBurst)
  | mspWriteResponse (b : WriteBurst)
  | pageRetireCopyComplete (page : Nat)
  | contrib (token : Nat)
  | releaseToken (token : Nat)
  | lsePart (token : Nat)
  | cepTokenOut
  | localPartial (now item epoch level index : Nat)
  | bundleSend (bundle epoch dst : Nat)
  | skipMark (gsid : Nat)
  | normPass (now : Nat)
  | pcStatIncrement (entry : Nat)
  | pcRoot (entry : Nat)
  | pcTargetS0 (entry : Nat)
  | updateStart (gsid : Nat)
  | skipUnitComplete (gsid page tile : Nat) (checkOk : Bool)
  | refRecheckComplete (gsid page tile : Nat) (agree : Nat)
  | deltaSend (now gsid page : Nat)
  | deltaRx (now : Nat) (m : Pkt)
  | holdAckRx (now : Nat) (m : Pkt)
  | adoptReportRx (now : Nat) (m : Pkt)
  | commitRx (now : Nat) (m : Pkt)
  | abandonRx (now : Nat) (m : Pkt)
  | parityFoldComplete (src seq : Nat)
  | ownerAckTimeout (now holder seq : Nat)
  | adoptReportResend (now : Nat)
  | partRx (now : Nat) (m : Pkt)
  | headerRootRx (now : Nat) (m : Pkt)
  | normRx (now : Nat) (m : Pkt)
  | normRootRx (now : Nat) (m : Pkt)
  | lseRx (now : Nat) (m : Pkt)
  | lseLocalPartial (now merge qblock epoch level index : Nat)
  | lseMergeComplete (merge qblock epoch : Nat)
  | bundleRx (now : Nat) (m : Pkt)
  | retainRelRx (now : Nat) (m : Pkt)
  | publishBlock (now layer block : Nat)
  | helloArriveRx (now : Nat) (m : Pkt)
  | helloReleaseRx (now : Nat) (m : Pkt)
  | meridianRelease (now : Nat)
  | jobStart (now : Nat)
  | helloBeaconRx (now : Nat) (m : Pkt)
  | beaconPeriod (now : Nat)
  | beaconMissExpiry (now node : Nat)
  | grantMembershipRx (now : Nat) (m : Pkt)
  | membPullRx (now : Nat) (m : Pkt)
  | occultRx (now : Nat) (m : Pkt)
  | occultResend (now node : Nat)
  | leaseRenewRx (now : Nat) (m : Pkt)
  | leaseTakeRx (now : Nat) (m : Pkt)
  | leaseReleaseRx (now : Nat) (m : Pkt)
  | leaseReportRx (now : Nat) (m : Pkt)
  | leaseRenewDue (now kind : Nat)
  | leaseTakeDue (now kind : Nat)
  | leaseActStart (now kind : Nat)
  | leaseReportResend (now : Nat)
  | extBuildRx (now : Nat) (m : Pkt)
  | extActivateRx (now : Nat) (m : Pkt)
  | extWithdrawRx (now : Nat) (m : Pkt)
  | extCancelRx (now : Nat) (m : Pkt)
  | grantAnnounceResend (now : Nat)
  | extSlotCopySend (now entry slot : Nat)
  | basePageSend (now gsid page dst row : Nat)
  | basePageRx (now : Nat) (m : Pkt)
  | restripeReadySend (now : Nat)
  | restripeBuildRx (now : Nat) (m : Pkt)
  | restripeDoneSend (now : Nat)
  | restripeSwitchRx (now : Nat) (m : Pkt)
  | fragReqRx (now : Nat) (m : Pkt)
  | fragDataRx (now : Nat) (m : Pkt)
  | rebuildRequest (now : Nat)
  | fragReqTimeout (now id : Nat)
  | degradedRetry (now id : Nat)
  | retainTakeResend (now gsid : Nat)
  | plateCutAnnounce (now : Nat)
  | plateManifestZeroComplete (now : Nat)
  | cutRx (now : Nat) (m : Pkt)
  | cutAckRx (now : Nat) (m : Pkt)
  | cutResend (now : Nat)
  | plateSpill (slot : Nat)
  | plateDrainExtent (now gsid extent : Nat)
  | plateExtentRetry (now gsid extent : Nat)
  | drainedRx (now : Nat) (m : Pkt)
  | drainedResend (now : Nat)
  | plateManifestWriteComplete (now : Nat)
  | sealedRx (now : Nat) (m : Pkt)
  | plateAbortRx (now : Nat) (m : Pkt)
  | plateAbortResend (now : Nat)
  | fabricLoadRx (now : Nat) (m : Pkt)
  | fabricStoreRx (now : Nat) (m : Pkt)
  | fabricAtomicRx (now : Nat) (m : Pkt)
  | bulkReadRx (now : Nat) (m : Pkt)
  | bulkWriteRx (now : Nat) (m : Pkt)
  | invalRx (now : Nat) (m : Pkt)
  | checkPutRx (now : Nat) (m : Pkt)
  | fabricResponseRx (now : Nat) (m : Pkt)
  | fabricTimeout (now tag : Nat)
  | tagReuseExpiry (now tag : Nat)
  | atomicTableExpiry (now src tag : Nat)
  | migrationComplete (page : Nat)
  | commenceRx (now : Nat) (m : Pkt)
  | commenceAckTreeRx (now : Nat) (m : Pkt)
  | commenceAckGroupRx (now : Nat) (m : Pkt)
  | foreignVersionCommenceRx (now : Nat) (m : Pkt)
  | commenceResend (now : Nat)
  | groupAckResend (now : Nat)
  | treeAckResend (now : Nat)
  | startReleaseResend (now : Nat)
  | commenceTimeout (now : Nat)
  | switchOrderResend (now : Nat)
  | fmSample (x : Sample)
  | fmModStuck (channel : Nat)
  | fmSnapshotClose
  | fmPeriodClose
  | fmAuxFall
  | fmAuxRise
  | fmSealChange (opened : Bool)
  | fmReadSnapshot (word : Nat)
  | fmReadLog (entry : Nat)
  | fmWriteCal (vOffset vGain iOffset iGain : Int)
  | fmClearLog
  | fmWorkReportTake (tenant work : Nat)
  | workReportSend
  | workReportAck
  | fmReadout (now : Nat)
  | fmMirrorStaleTimeout (now : Nat)
  | fabricFlitRx (now port : Nat) (f : Flit)
  | malformedCepToken (token : Nat)
  | testPortAccess (op : TestOp)
  | fmClockFault (departs : Bool)
  deriving DecidableEq, Repr

end Sys2Proof
end

