-- ==== Sys2Proof/Decode.lean ====
section
/-! DEFINITION. Table words: spec/opcode_table.json gives no row any bits, so no word spells a command (log entry 12). -/
namespace Sys2Proof

/-- The command that a table word spells: none. -/
def decodeTableWord (_nbits _w : Nat) : Option Instr := none

end Sys2Proof
end

