-- ==== Sys2Proof/Machine/Bits.lean ====
section
/-! DEFINITION. Bit fields, little-endian integers and small list helpers (R9). -/
namespace Sys2Proof.Machine

/-- Bits `[lo + w - 1 : lo]` of a number. -/
def bf (x lo w : Nat) : Nat := x / 2 ^ lo % 2 ^ w

/-- A number made of fields `(lo, width, value)`; every other bit is zero (R3). -/
def packBits : List (Nat × Nat × Nat) → Nat
  | [] => 0
  | (lo, w, v) :: r => v % 2 ^ w * 2 ^ lo + packBits r

/-- The little-endian integer of a byte string (R9). -/
def leNat : Bytes → Nat
  | [] => 0
  | b :: r => b.toNat + 256 * leNat r

/-- The `n` low bytes of a number, little-endian (R9). -/
def leBytes : Nat → Nat → Bytes
  | 0, _ => []
  | n + 1, x => BitVec.ofNat 8 x :: leBytes n (x / 256)

/-- The big-endian integer of a byte string (the order of FIPS 186-5, R9). -/
def beNat (b : Bytes) : Nat := leNat b.reverse

/-- The `n` low bytes of a number, most significant first. -/
def beBytes (n x : Nat) : Bytes := (leBytes n x).reverse

/-- `n` bytes of a byte string from offset `o`; beyond its end they are zero. -/
def slice (b : Bytes) (o n : Nat) : Bytes :=
  let t := (b.drop o).take n
  t ++ List.replicate (n - t.length) 0

/-- The little-endian field of `n` bytes at offset `o`. -/
def leAt (b : Bytes) (o n : Nat) : Nat := leNat (slice b o n)

/-- A byte string with `v` laid over it from offset `o`. -/
def overlay (b : Bytes) (o : Nat) (v : Bytes) : Bytes :=
  slice b 0 o ++ v ++ b.drop (o + v.length)

/-- The smallest integer not below `a / b`. -/
def ceilDiv (a b : Nat) : Nat := (a + b - 1) / b

/-- `a` rounded up to a multiple of `b`. -/
def roundUp (a b : Nat) : Nat := ceilDiv a b * b

/-- A count that saturates at `2 ^ w - 1`. -/
def satAdd (w a b : Nat) : Nat := min (2 ^ w - 1) (a + b)

/-- A count that wraps at `2 ^ w`. -/
def wrapAdd (w a b : Nat) : Nat := (a + b) % 2 ^ w

/-- The two's-complement reading of `w` bits. -/
def signedOf (w x : Nat) : Int :=
  if x % 2 ^ w < 2 ^ (w - 1) then (x % 2 ^ w : Nat) else ((x % 2 ^ w : Nat) : Int) - (2 ^ w : Nat)

/-- The `w`-bit two's-complement pattern of an integer. -/
def bitsOf (w : Nat) (i : Int) : Nat := (i % (2 ^ w : Nat)).toNat

/-- Replace the element at index `i`; unchanged where there is none. -/
def setAt {α : Type} : List α → Nat → α → List α
  | [], _, _ => []
  | _ :: r, 0, v => v :: r
  | a :: r, n + 1, v => a :: setAt r n v

/-- Change the element at index `i`. -/
def modAt {α : Type} : List α → Nat → (α → α) → List α
  | [], _, _ => []
  | a :: r, 0, f => f a :: r
  | a :: r, n + 1, f => a :: modAt r n f

/-- Change every element that meets a test. -/
def modWhere {α : Type} (p : α → Bool) (f : α → α) (l : List α) : List α :=
  l.map fun a => if p a then f a else a

/-- The value that an association list gives a key. -/
def lookupD {β : Type} (d : β) : List (Nat × β) → Nat → β
  | [], _ => d
  | (k, v) :: r, a => if k = a then v else lookupD d r a

/-- An association list with the key set to a value, each key once. -/
def assign {β : Type} : List (Nat × β) → Nat → β → List (Nat × β)
  | [], k, v => [(k, v)]
  | (k', v') :: r, k, v => if k' = k then (k, v) :: r else (k', v') :: assign r k v

/-- The value that an association list gives a key, if any. -/
def lookup? {β : Type} : List (Nat × β) → Nat → Option β
  | [], _ => none
  | (k, v) :: r, a => if k = a then some v else lookup? r a

/-- Insert into a strictly increasing list, once. -/
def insertNat : List Nat → Nat → List Nat
  | [], n => [n]
  | a :: r, n => if n < a then n :: a :: r else if n = a then a :: r else a :: insertNat r n

/-- A strictly increasing list of the elements of a list. -/
def sortNat (l : List Nat) : List Nat := l.foldl insertNat []

/-- Insert by a key, before the first element of a greater key. -/
def insertBy {α : Type} (key : α → Nat) : List α → α → List α
  | [], x => [x]
  | a :: r, x => if key x < key a then x :: a :: r else a :: insertBy key r x

/-- Stable order by a key. -/
def sortBy {α : Type} (key : α → Nat) (l : List α) : List α := l.foldl (insertBy key) []

/-- The first element of the least key. -/
def minBy? {α : Type} (key : α → Nat) : List α → Option α
  | [] => none
  | a :: r =>
    match minBy? key r with
    | none => some a
    | some b => if key b < key a then some b else some a

/-- The sum of a list. -/
def sumNat (l : List Nat) : Nat := l.foldl (· + ·) 0

/-- Bytewise XOR; the shorter string is extended with zeros. -/
def xorBytes : Bytes → Bytes → Bytes
  | [], b => b
  | a, [] => a
  | x :: a, y :: b => (x ^^^ y) :: xorBytes a b

/-- A list cut into pieces of `n` (fuel bounds the number of pieces). -/
def chunks {α : Type} (n : Nat) : Nat → List α → List (List α)
  | 0, _ => []
  | fuel + 1, l => if l.isEmpty then [] else l.take n :: chunks n fuel (l.drop n)

/-- Whether the keys of a list increase strictly. -/
def increasing : List Nat → Bool
  | [] => true
  | [_] => true
  | a :: b :: r => decide (a < b) && increasing (b :: r)

/-- Whether two runs `[a, a + n)` and `[b, b + m)` share a number. -/
def runsMeet (a n b m : Nat) : Bool := decide (0 < n) && decide (0 < m) && decide (a < b + m) && decide (b < a + n)

/-- The unique number congruent to `lo` modulo `2 ^ w` in the `2 ^ w` numbers from `p - 2 ^ (w - 1)` on (R179, R426);
where that would be negative the number is taken from zero. -/
def restore (w p lo : Nat) : Nat :=
  let h := 2 ^ (w - 1)
  let base := p + 2 ^ w - h
  let r := base + (lo + 2 ^ w * (base / 2 ^ w + 1) - base) % 2 ^ w
  r - 2 ^ w

/-- `a` is newer than `b` among 16-bit sequence values (R51). -/
def newer16 (a b : Nat) : Bool :=
  let d := (a + 65536 - b % 65536) % 65536
  decide (1 ≤ d) && decide (d ≤ 32767)

/-- The offset of `a` from `b` modulo 2^16 (R189). -/
def off16 (a b : Nat) : Nat := (a + 65536 - b % 65536) % 65536

end Sys2Proof.Machine
end

