-- ==== Sys2Proof/Machine/Hash.lean ====
section
/-! DEFINITION. CRC-64 (R46), the mixing hash of stochastic rounding (R75) and SHA-256 (FIPS 180-4, R263, R280). -/
namespace Sys2Proof.Machine

/-! ### CRC-64 (R46) -/

def crcPoly : BitVec 64 := 0x42F0E1EBA9EA3693#64

/-- Eight shifts of the CRC register. -/
def crcShift : Nat → BitVec 64 → BitVec 64
  | 0, c => c
  | n + 1, c => crcShift n (if c.msb then (c <<< 1) ^^^ crcPoly else c <<< 1)

def crcByte (c : BitVec 64) (b : Byte) : BitVec 64 := crcShift 8 (c ^^^ (b.setWidth 64 <<< 56))

/-- CRC-64 over bytes in address order, as an integer (R46). -/
def crc64 (bs : Bytes) : Nat := (bs.foldl crcByte 0).toNat

/-! ### The hash of stochastic rounding (R75) -/

def mix (z : BitVec 64) : BitVec 64 :=
  let z1 := (z ^^^ (z >>> 30)) * 0xBF58476D1CE4E5B9#64
  let z2 := (z1 ^^^ (z1 >>> 27)) * 0x94D049BB133111EB#64
  z2 ^^^ (z2 >>> 31)

def golden : BitVec 64 := 0x9E3779B97F4A7C15#64

/-- The 24-bit value for job seed, step epoch, global element index and node number (R75). -/
def r24 (seed e x k : Nat) : Nat :=
  let a : BitVec 64 := BitVec.ofNat 64 x ^^^ (BitVec.ofNat 64 k <<< 48)
  let h1 := mix (a + golden)
  let h2 := mix (h1 ^^^ BitVec.ofNat 64 seed ^^^ (BitVec.ofNat 64 e * 0xD6E8FEB86659FD93#64))
  bf h2.toNat 40 24

/-! ### SHA-256 (FIPS 180-4) -/

def shaK : List (BitVec 32) :=
  [0x428a2f98#32, 0x71374491#32, 0xb5c0fbcf#32, 0xe9b5dba5#32, 0x3956c25b#32, 0x59f111f1#32, 0x923f82a4#32, 0xab1c5ed5#32,
   0xd807aa98#32, 0x12835b01#32, 0x243185be#32, 0x550c7dc3#32, 0x72be5d74#32, 0x80deb1fe#32, 0x9bdc06a7#32, 0xc19bf174#32,
   0xe49b69c1#32, 0xefbe4786#32, 0x0fc19dc6#32, 0x240ca1cc#32, 0x2de92c6f#32, 0x4a7484aa#32, 0x5cb0a9dc#32, 0x76f988da#32,
   0x983e5152#32, 0xa831c66d#32, 0xb00327c8#32, 0xbf597fc7#32, 0xc6e00bf3#32, 0xd5a79147#32, 0x06ca6351#32, 0x14292967#32,
   0x27b70a85#32, 0x2e1b2138#32, 0x4d2c6dfc#32, 0x53380d13#32, 0x650a7354#32, 0x766a0abb#32, 0x81c2c92e#32, 0x92722c85#32,
   0xa2bfe8a1#32, 0xa81a664b#32, 0xc24b8b70#32, 0xc76c51a3#32, 0xd192e819#32, 0xd6990624#32, 0xf40e3585#32, 0x106aa070#32,
   0x19a4c116#32, 0x1e376c08#32, 0x2748774c#32, 0x34b0bcb5#32, 0x391c0cb3#32, 0x4ed8aa4a#32, 0x5b9cca4f#32, 0x682e6ff3#32,
   0x748f82ee#32, 0x78a5636f#32, 0x84c87814#32, 0x8cc70208#32, 0x90befffa#32, 0xa4506ceb#32, 0xbef9a3f7#32, 0xc67178f2#32]

def shaInit : List (BitVec 32) :=
  [0x6a09e667#32, 0xbb67ae85#32, 0x3c6ef372#32, 0xa54ff53a#32, 0x510e527f#32, 0x9b05688c#32, 0x1f83d9ab#32, 0x5be0cd19#32]

def rotr (x : BitVec 32) (n : Nat) : BitVec 32 := x.rotateRight n

/-- The message schedule, newest word first. -/
def shaSchedule : Nat → List (BitVec 32) → List (BitVec 32)
  | 0, w => w
  | n + 1, w =>
    let w2 := w.getD 1 0
    let w7 := w.getD 6 0
    let w15 := w.getD 14 0
    let w16 := w.getD 15 0
    let s0 := rotr w15 7 ^^^ rotr w15 18 ^^^ (w15 >>> 3)
    let s1 := rotr w2 17 ^^^ rotr w2 19 ^^^ (w2 >>> 10)
    shaSchedule n ((w16 + s0 + w7 + s1) :: w)

/-- One round on the eight working values. -/
def shaRound (v : List (BitVec 32)) (kw : BitVec 32 × BitVec 32) : List (BitVec 32) :=
  match v with
  | [a, b, c, d, e, f, g, h] =>
    let s1 := rotr e 6 ^^^ rotr e 11 ^^^ rotr e 25
    let ch := (e &&& f) ^^^ (~~~e &&& g)
    let t1 := h + s1 + ch + kw.1 + kw.2
    let s0 := rotr a 2 ^^^ rotr a 13 ^^^ rotr a 22
    let maj := (a &&& b) ^^^ (a &&& c) ^^^ (b &&& c)
    [t1 + s0 + maj, a, b, c, d + t1, e, f, g]
  | _ => v

/-- The sixteen big-endian words of a 64-byte block. -/
def shaWords : Nat → Bytes → List (BitVec 32)
  | 0, _ => []
  | n + 1, b => BitVec.ofNat 32 (beNat (b.take 4)) :: shaWords n (b.drop 4)

def shaBlock (h : List (BitVec 32)) (blk : Bytes) : List (BitVec 32) :=
  let w := (shaSchedule 48 (shaWords 16 blk).reverse).reverse
  let v := (shaK.zip w).foldl shaRound h
  List.zipWith (· + ·) h v

/-- The message with its padding. -/
def shaPad (m : Bytes) : Bytes :=
  let z := (55 + 64 - m.length % 64) % 64
  m ++ [0x80#8] ++ List.replicate z 0 ++ beBytes 8 (8 * m.length)

/-- SHA-256, a byte string of 32 bytes (R9). -/
def sha256 (m : Bytes) : Bytes :=
  let p := shaPad m
  let h := (chunks 64 (p.length / 64) p).foldl shaBlock shaInit
  (h.map fun w => beBytes 4 w.toNat).flatten

end Sys2Proof.Machine
end

