-- ==== Sys2Proof/Config.lean ====
section
/-! DEFINITION. What the spec leaves to an implementation, to the plan or to nobody: opaque constants, so that no proof can
lean on a value (log entries 6 to 9). -/
namespace Sys2Proof.Config

/-! ### Free values: applied to the count of values drawn (log entry 6) -/

/-- Bytes that a reset leaves in a page being written (R381), and bytes after a failed write (R414). -/
opaque freeByte : Nat → Byte
/-- Data shifted out of a scan chain, a boundary register or a test instrument (R446). -/
opaque freeScan : Nat → Byte
/-- Words of a tile's or of the array's SRAM that SECDED corrects in a run (R323), and cycles in which the array freezes in a run
(R109): how many there are is the hardware's alone (log entry 65). -/
opaque freeCorrected : Nat → Nat
opaque freeFrozen : Nat → Nat
/-- Edges of cep_clk for which an outbound token waits on cep_out_ready: the host alone sets that input (R427, log entry 104). -/
opaque freeStall : Nat → Nat

/-! ### What the plan fixes and no object of this core holds (log entry 7) -/

/-- The core that is formed as the home of a shard (R33). -/
opaque shardNode : Nat → Nat
/-- The shard that a core other than this one was formed with (R33). -/
opaque nodeShard : Nat → Nat
/-- SHARD_PAGES of a shard that is not this core's (R31). -/
opaque shardPages : Nat → Nat
/-- First global element index of a shard (R32). -/
opaque shardFirst : Nat → Nat
/-- RECORD_BYTES of a shard that is not this core's (R31). -/
opaque shardRecordBytes : Nat → Nat
/-- First job element index of a layer (R66). -/
opaque layerFirst : Nat → Nat
/-- The layer that holds a global element index of the job (R137, R429): of another shard's, this core's layer table says nothing (log
entry 24). -/
opaque layerAt : Nat → Nat
/-- The bytes of the snapshot of the base values that arming takes (R370), whose layout no rule gives (log entry 133). -/
opaque snapshotByte : List (Nat × List (BitVec 8)) → Nat → BitVec 8

/-- The statistic values S0 and S1 that a FACTORED entry delivers to its statistic layers, and every statistic value of a
record that lies in no entry's target: the spec states none (R112). By element index, step epoch and number (log entry 51). -/
opaque freeStat : Nat → Nat → Nat → BitVec 32
/-- The weight value of a published record whose recipe has no weight field (R77, R89), by element index and epoch (log entry
52). -/
opaque freeWeight : Nat → Nat → BitVec 32

/-- The gradient digest of a slice whose reduced gradient this core does not hold, by slice and step epoch: the slice was taken over
after its owner had committed it (R293, log entry 39). A function of these two alone, since no check depends on a takeover (R279). -/
opaque freeGradDigest : Nat → Nat → BitVec 256
/-- The state digest of a slice that the core no longer keeps when its record is written (R293, log entry 39). -/
opaque freeStateDigest : Nat → Nat → BitVec 256
/-- The records that the Chronograph's own buffer holds (R289). -/
opaque chronoBuffer : Nat

/-- The owner, after a restore, of a slice of this core's own shard that the core did not restore (R272). -/
opaque restoredOwner : Nat → Nat

/-- The slices of the job that hold elements of a reduction's domain, by its key (R130). -/
opaque normDomain : Nat → List Nat

/-- The member of a rank of a coding group other than this core's (R155, log entry 18). -/
opaque groupMember : Nat → Nat → Nat

/-- The home of a coherent line that lies at another core of the cluster, by region key and offset; none where the address
is not coherent (R316, log entry 28). -/
opaque cohHome : Nat → Nat → Option Nat

/-! ### Implementation figures that the spec does not state (log entry 8) -/

/-- Samples of the voltage and current product per volt and per ampere, less one (R449). -/
opaque fmVoltUnits : Nat
opaque fmAmpUnits : Nat
/-- FM_VERSION and FM_LEGAL_ID of the macro (R461). -/
opaque fmVersion : Nat
opaque fmLegalId : Nat
/-- The mean `sum / den` as an integer; the rounding is not stated (R455). -/
opaque fmMean : Int → Nat → Int
/-- What READ_SNAPSHOT answers to a word index above 95, and READ_LOG to the number of no entry (R452). -/
opaque fmNoWord : Nat → Nat
opaque fmNoEntry : Nat → Nat
/-- The status word that GETSTATUS answers, by the number of messages pending (R441). -/
opaque i3cStatus : Nat → Nat
/-- The length that SETMWL or SETMRL leaves for an argument outside 69 to 253 (R442). -/
opaque busLength : Nat → Nat

end Sys2Proof.Config
end

