-- ==== Sys2Proof/Machine/Fp32.lean ====
section
/-! DEFINITION. Exact binary32 arithmetic with one rounding (R10, R72, R73, R76, R141): operands are taken as exact
integers in units of 2^-149, the result is computed exactly and narrowed once. -/
namespace Sys2Proof.Machine.Fp

def canonNaN : F32 := 0x7FC00000#32
def posInf : F32 := 0x7F800000#32
def negInf : F32 := 0xFF800000#32
def posZero : F32 := 0x00000000#32
def negZero : F32 := 0x80000000#32
def one : F32 := 0x3F800000#32
def minusOne : F32 := 0xBF800000#32
def two : F32 := 0x40000000#32
def half : F32 := 0x3F000000#32

def expField (x : F32) : Nat := bf x.toNat 23 8
def fracField (x : F32) : Nat := bf x.toNat 0 23
def isNeg (x : F32) : Bool := decide (2 ^ 31 ≤ x.toNat)
def isNaN (x : F32) : Bool := expField x == 255 && fracField x != 0
def isInf (x : F32) : Bool := expField x == 255 && fracField x == 0
def isFinite (x : F32) : Bool := expField x != 255
def isZero (x : F32) : Bool := bf x.toNat 0 31 == 0
/-- A NaN becomes the canonical quiet NaN (R72). -/
def canon (x : F32) : F32 := if isNaN x then canonNaN else x
def signBit (neg : Bool) : Nat := if neg then 2 ^ 31 else 0
def infOf (neg : Bool) : F32 := if neg then negInf else posInf
def zeroOf (neg : Bool) : F32 := if neg then negZero else posZero

/-- The magnitude of a finite value in units of 2^-149. -/
def mag (x : F32) : Nat :=
  if expField x = 0 then fracField x else (fracField x + 2 ^ 23) * 2 ^ (expField x - 1)

/-- The value of a finite binary32 in units of 2^-149. -/
def fx (x : F32) : Int := if isNeg x then -(mag x : Int) else (mag x : Int)

/-- `n / d` to the nearest integer, ties to even. -/
def rne (n d : Nat) : Nat :=
  let q := n / d
  let r := n % d
  if d < 2 * r || (2 * r == d && q % 2 == 1) then q + 1 else q

/-- `n / d`, in units of a format's least subnormal, rounded to `m` fraction bits with ties to even: the exponent and
fraction bits of the result, with an unbounded exponent. -/
def roundBits (m n d : Nat) : Nat :=
  let q := n / d
  if q < 2 ^ (m + 1) then rne n d
  else
    let s := Nat.log2 q - m
    s * 2 ^ m + rne n (d * 2 ^ s)

/-- The binary32 nearest to `n / d` units of 2^-149. -/
def round (neg : Bool) (n d : Nat) : F32 :=
  let b := roundBits 23 n d
  BitVec.ofNat 32 (signBit neg + min b 0x7F800000)

/-- The binary32 nearest to an exact integer in units of 2^-149 / d; an exact zero takes the given sign. -/
def roundInt (zneg : Bool) (i : Int) (d : Nat) : F32 :=
  if i = 0 then zeroOf zneg else round (decide (i < 0)) i.natAbs d

/-- RN of a natural number (R71). -/
def ofNat (n : Nat) : F32 := round false (n * 2 ^ 149) 1

/-- IEEE addition (R72). -/
def add (a b : F32) : F32 :=
  if isNaN a || isNaN b then canonNaN
  else if isInf a then (if isInf b && isNeg a != isNeg b then canonNaN else a)
  else if isInf b then b
  else roundInt (isZero a && isZero b && isNeg a && isNeg b) (fx a + fx b) 1

def neg (a : F32) : F32 := if isNaN a then canonNaN else a ^^^ negZero
def abs (a : F32) : F32 := if isNaN a then canonNaN else a &&& 0x7FFFFFFF#32
def sub (a b : F32) : F32 := if isNaN b then canonNaN else add a (neg b)

def mul (a b : F32) : F32 :=
  let s := isNeg a != isNeg b
  if isNaN a || isNaN b then canonNaN
  else if isInf a || isInf b then (if isZero a || isZero b then canonNaN else infOf s)
  else roundInt s (fx a * fx b) (2 ^ 149)

/-- A × B + C with one rounding (R72). -/
def fma (a b c : F32) : F32 :=
  let s := isNeg a != isNeg b
  if isNaN a || isNaN b || isNaN c then canonNaN
  else if isInf a || isInf b then
    if isZero a || isZero b then canonNaN
    else if isInf c && isNeg c != s then canonNaN
    else infOf s
  else if isInf c then c
  else
    let zeroProd := isZero a || isZero b
    roundInt (if zeroProd && isZero c then s && isNeg c else false) (fx a * fx b + fx c * 2 ^ 149) (2 ^ 149)

def div (a b : F32) : F32 :=
  let s := isNeg a != isNeg b
  if isNaN a || isNaN b then canonNaN
  else if isInf a then (if isInf b then canonNaN else infOf s)
  else if isInf b then zeroOf s
  else if isZero b then (if isZero a then canonNaN else infOf s)
  else if isZero a then zeroOf s
  else round s (mag a * 2 ^ 149) (mag b)

/-- The integer square root, bit by bit from the top. -/
def isqrtGo : Nat → Nat → Nat → Nat
  | 0, _, r => r
  | k + 1, n, r => let t := r + 2 ^ k; isqrtGo k n (if t * t ≤ n then t else r)

def isqrt (n : Nat) : Nat := isqrtGo (Nat.log2 n / 2 + 1) n 0

def sqrt (a : F32) : F32 :=
  if isNaN a then canonNaN
  else if isZero a then a
  else if isNeg a then canonNaN
  else if isInf a then posInf
  else
    let n := mag a * 2 ^ 149 * 4 ^ 8
    let r := isqrt n
    round false (2 * r + (if r * r = n then 0 else 1)) (2 * 2 ^ 8)

/-- 1 / √A, correctly rounded as one operation (R72). -/
def rsqrt (a : F32) : F32 :=
  if isNaN a then canonNaN
  else if isZero a then infOf (isNeg a)
  else if isNeg a then canonNaN
  else if isInf a then posZero
  else
    let n := 2 ^ 447 * 4 ^ 8
    let r := isqrt (n / mag a)
    round false (2 * r + (if r * r * mag a = n then 0 else 1)) (2 * 2 ^ 8)

/-- A > B; false when either is NaN. -/
def gt (a b : F32) : Bool :=
  if isNaN a || isNaN b then false
  else if isInf a then (if isNeg a then false else !(isInf b && !isNeg b))
  else if isInf b then isNeg b
  else decide (fx b < fx a)

def max (a b : F32) : F32 :=
  if isNaN a || isNaN b then canonNaN
  else if isZero a && isZero b then (if isNeg a then b else a)
  else if gt a b then a else b

def min (a b : F32) : F32 :=
  if isNaN a || isNaN b then canonNaN
  else if isZero a && isZero b then (if isNeg a then a else b)
  else if gt a b then b else a

def sign (a : F32) : F32 :=
  if isNaN a then canonNaN else if isZero a then a else if isNeg a then minusOne else one

def selgt (a b c d : F32) : F32 := if gt a b then c else d

/-- A × 2^n with one rounding (R72, LDEXP). -/
def ldexp (a : F32) (n : Int) : F32 :=
  if isNaN a then canonNaN
  else if isInf a || isZero a then a
  else if 0 ≤ n then round (isNeg a) (mag a * 2 ^ n.toNat) 1
  else round (isNeg a) (mag a) (2 ^ (-n).toNat)

/-- One step of the exponentiation rule, from bit `k - 1` down (R72, POWI). -/
def powiGo : Nat → Nat → F32 → F32 → F32
  | 0, _, _, r => r
  | k + 1, n, a, r =>
    let r1 := mul r r
    powiGo k n a (if n / 2 ^ k % 2 = 1 then mul r1 a else r1)

/-- A^n by the exponentiation rule (R72); with n = 0 the result is 1.0. -/
def powi (a : F32) (n : Nat) : F32 := if n = 0 then one else powiGo (Nat.log2 n + 1) n a one

/-- The SPLIT values `(h', lo')` of one set of operands (R72). -/
def splitBoth (hi lo u : F32) : F32 × F32 :=
  let s := add hi u
  let b := sub s hi
  let e := add (sub hi (sub s b)) (sub u b)
  let q := add lo e
  let h := add s q
  (h, sub q (sub h s))

/-! ### Narrow formats -/

/-- BF16 (R73). -/
def widenBF16 (b : Nat) : F32 := canon (BitVec.ofNat 32 (b % 2 ^ 16 * 2 ^ 16))

/-- FP16, exactly, subnormals included (R73). -/
def widenFP16 (b : Nat) : F32 :=
  let s := decide (2 ^ 15 ≤ b % 2 ^ 16)
  let e := bf b 10 5
  let f := bf b 0 10
  if e = 31 then (if f = 0 then infOf s else canonNaN)
  else
    let m := if e = 0 then f else (f + 1024) * 2 ^ (e - 1)
    if m = 0 then zeroOf s else round s (m * 2 ^ 125) 1

/-- Round a finite magnitude `k` (units of 2^-149) to a format of `m` fraction bits whose least subnormal is 2^(u - 149),
to nearest with ties to even; `top` is the format's infinity pattern. -/
def narrowRne (m u top k : Nat) : Nat := Nat.min (roundBits m k (2 ^ u)) top

/-- Round a finite magnitude stochastically with the 24-bit value `r24` (R76). -/
def narrowSr (m u top k r24 : Nat) : Nat :=
  let q := k / 2 ^ u
  let s := if q < 2 ^ (m + 1) then 0 else Nat.log2 q - m
  let d := u + s
  let lo := s * 2 ^ m + k / 2 ^ d
  let f := k % 2 ^ d
  if f = 0 then Nat.min lo top
  else if top ≤ lo then top
  else if lo + 1 = top then top
  else
    let f24 := if d ≤ 24 then f * 2 ^ (24 - d) else f / 2 ^ (d - 24)
    if 2 ^ 24 ≤ f24 + r24 then lo + 1 else lo

/-- The storage formats of a field (R63). -/
inductive Fmt where
  | fp32 | bf16 | fp16
  deriving DecidableEq, Repr

def Fmt.bytes : Fmt → Nat
  | .fp32 => 4
  | .bf16 => 2
  | .fp16 => 2

/-- Narrow to a format by round-to-nearest-even (`none`) or stochastically (`some r24`) (R73, R76). -/
def narrow (f : Fmt) (mode : Option Nat) (x : F32) : Nat :=
  match f with
  | .fp32 => x.toNat
  | .bf16 =>
    if isNaN x then 0x7FC0
    else
      let s := if isNeg x then 2 ^ 15 else 0
      if isInf x then s + 0x7F80
      else s + (match mode with | none => narrowRne 7 16 0x7F80 (mag x) | some r => narrowSr 7 16 0x7F80 (mag x) r)
  | .fp16 =>
    if isNaN x then 0x7E00
    else
      let s := if isNeg x then 2 ^ 15 else 0
      if isInf x then s + 0x7C00
      else s + (match mode with | none => narrowRne 10 125 0x7C00 (mag x) | some r => narrowSr 10 125 0x7C00 (mag x) r)

/-- Widen stored bits to binary32 (R73). -/
def widen (f : Fmt) (b : Nat) : F32 :=
  match f with
  | .fp32 => canon (BitVec.ofNat 32 b)
  | .bf16 => widenBF16 b
  | .fp16 => widenFP16 b

/-- The 4-bit magnitude code of a gradient element (R81). -/
def magCode (x : F32) : Nat :=
  if isZero x then 0 else if expField x = 255 then 15 else Nat.min 14 (1 + expField x / 18)

/-! ### EXP2 (R141) -/

/-- Bounds of 2^(j-th bit weights) for the fraction bits of an exponent, taken from the top: `c` bounds 2^(2^-j) in units
of 2^-200 and `p` the product so far. -/
def exp2Go : Nat → Nat → Nat × Nat → Nat × Nat → Nat × Nat
  | 0, _, _, p => p
  | k + 1, f, c, p =>
    let c' := (isqrt (c.1 * 2 ^ 200), isqrt (c.2 * 2 ^ 200) + 1)
    exp2Go k f c' (if f / 2 ^ k % 2 = 1 then (p.1 * c'.1 / 2 ^ 200, p.2 * c'.2 / 2 ^ 200 + 1) else p)

/-- Whether 2^(f / 2^149), for `f < 2^149`, is at or above `n / d`: exact. -/
def exp2Ge (f n d : Nat) : Bool := decide (n ^ 2 ^ 149 ≤ 2 ^ f * d ^ 2 ^ 149)

/-- The binary32 value nearest to 2^x (R141). The bounds decide every case in which they round alike; otherwise the exact
comparison with the midpoint of the two neighbours decides (no tie exists, as 2^x is then irrational). -/
def exp2 (x : F32) : F32 :=
  if isNaN x then canonNaN
  else if isInf x then (if isNeg x then posZero else posInf)
  else
    let k := fx x
    let i := k / (2 ^ 149 : Nat)
    let f := (k % (2 ^ 149 : Nat)).toNat
    if 128 ≤ i then posInf
    else if i < -160 then posZero
    else
      let e := (i + 149 + 200).toNat
      -- the result is 2^(f / 2^149) × 2^(e - 200) units of 2^-149
      if f = 0 then round false (2 ^ e) (2 ^ 200)
      else
        let b := exp2Go 149 f (2 * 2 ^ 200, 2 * 2 ^ 200) (2 ^ 200, 2 ^ 200)
        let lo := round false (b.1 * 2 ^ e) (2 ^ 400)
        let hi := round false (b.2 * 2 ^ e) (2 ^ 400)
        if lo = hi then lo
        else if exp2Ge f ((mag lo + mag hi) * 2 ^ 200) (2 * 2 ^ e) then hi else lo

end Sys2Proof.Machine.Fp
end

