-- ==== Sys2Proof/Machine/Recipe.lean ====
section
/-! DEFINITION. Recipes (R63 to R85): descriptors and their checks, fields, the evaluation of the graph on one element,
catch-up, the learning rate and the fixed-order reduction tree of a slice. -/
namespace Sys2Proof.Machine

/-- A field descriptor (R63). -/
structure RField where
  ty : Nat
  role : Nat
  scaled : Bool
  nullRule : Nat
  nullConst : Nat
  deriving DecidableEq, Repr

/-- A node word (R63). -/
structure RNode where
  op : Nat
  pre : Bool
  param : Nat
  a : Nat
  b : Nat
  c : Nat
  d : Nat
  deriving DecidableEq, Repr

/-- A decoded descriptor. -/
structure Recipe where
  version : Nat
  nodeCount : Nat
  fieldCount : Nat
  id : Nat
  fields : List RField
  nodes : List RNode
  deriving DecidableEq, Repr

def RField.ofWord (w : Nat) : RField :=
  { ty := bf w 14 2, role := bf w 12 2, scaled := bf w 11 1 == 1, nullRule := bf w 8 2, nullConst := bf w 4 4 }

def RNode.ofWord (w : Nat) : RNode :=
  { op := bf w 58 6, pre := bf w 57 1 == 1, param := bf w 48 8, a := bf w 0 8, b := bf w 8 8, c := bf w 16 8,
    d := bf w 24 8 }

/-- The descriptor's words (R63); nodes at NODE_COUNT and above are ignored. -/
def Recipe.parse (b : Bytes) : Recipe :=
  let h := leAt b 0 8
  let fw := leAt b 8 8
  { version := bf h 60 4, nodeCount := bf h 50 6, fieldCount := bf h 47 3, id := bf h 16 16
    fields := (List.range (min 4 (bf h 47 3))).map fun i => RField.ofWord (bf fw (16 * i) 16)
    nodes := (List.range (min 32 (bf h 50 6))).map fun n => RNode.ofWord (leAt b (16 + 8 * n) 8) }

/-- How many operands an operation reads; none for a reserved encoding (R72). -/
def opArity (op : Nat) : Option Nat :=
  if op = 0x01 ∨ op = 0x02 ∨ op = 0x03 ∨ op = 0x05 ∨ op = 0x08 ∨ op = 0x09 then some 2
  else if op = 0x04 ∨ op = 0x11 ∨ op = 0x12 then some 3
  else if op = 0x0D then some 4
  else if op = 0x06 ∨ op = 0x07 ∨ op = 0x0A ∨ op = 0x0B ∨ op = 0x0C ∨ op = 0x0E ∨ op = 0x0F ∨ op = 0x10 ∨ op = 0x18
    ∨ op = 0x20 ∨ op = 0x21 ∨ op = 0x22 then some 1
  else none

def RNode.isStore (n : RNode) : Bool := n.op == 0x18
def RNode.isReduction (n : RNode) : Bool := n.op == 0x20 || n.op == 0x21 || n.op == 0x22
def RNode.operands (n : RNode) : List Nat := [n.a, n.b, n.c, n.d].take ((opArity n.op).getD 0)
def selClass (s : Nat) : Nat := bf s 5 3
def selIndex (s : Nat) : Nat := bf s 0 5

/-- Which nodes are scalar: every operand they read is scalar (R64). -/
def scalarFlags : List RNode → List Bool → List Bool
  | [], acc => acc
  | n :: r, acc =>
    let sc := n.operands.all fun s =>
      if selClass s = 0 then acc.getD (selIndex s) false else selClass s ≥ 3
    scalarFlags r (acc ++ [sc])

def selScalar (flags : List Bool) (s : Nat) : Bool :=
  if selClass s = 0 then flags.getD (selIndex s) false else decide (selClass s ≥ 3)

/-- A selector names a source that exists for node `n` (R64, R65). -/
def selOk (r : Recipe) (n s : Nat) : Bool :=
  let i := selIndex s
  let at? := r.nodes[i]?
  match selClass s with
  | 0 => decide (i < n) && (at?.map fun x => !x.isStore && !x.isReduction).getD false
  | 1 => decide (i < r.fieldCount)
  | 2 => decide (i ≤ 4)
  | 3 => decide (i ≤ 15)
  | 4 => decide (i ≤ 2)
  | 5 => decide (i < n) && (at?.map RNode.isReduction).getD false
  | 6 => decide (i ≤ 3)
  | _ => false

/-- The checks of R65 that concern one node. A STORE whose PARAM[1:0] names a field at or above FIELD_COUNT is refused too:
the rule does not list it, and the spec gives it no effect (DESIGN CHOICE, log entry 50). -/
def nodeOk (r : Recipe) (flags : List Bool) (n : Nat) (x : RNode) : Bool :=
  let ops := x.operands
  let preOf (s : Nat) : Bool := if selClass s = 0 then (r.nodes[selIndex s]?.map RNode.pre).getD false else true
  (opArity x.op).isSome && ops.all (selOk r n)
  && (!x.isStore || !x.pre) && (!x.isReduction || x.pre)
  && (!x.pre || ops.all fun s => selClass s != 5 && preOf s)
  && (!x.isReduction || ops.all fun s => !selScalar flags s)
  && (x.op != 0x0F || ops.all (selScalar flags))
  && (x.op != 0x0E || x.param != 0x80)
  && (x.op != 0x10 || decide (bf x.param 0 2 < 2))
  && (!x.isStore || decide (bf x.param 0 2 < r.fieldCount))
  && (!(x.op == 0x10 || x.isStore) || bf x.param 2 1 == 0 || ops.all fun s => !selScalar flags s)

/-- How many STORE nodes store field `f`. -/
def storesOf (r : Recipe) (f : Nat) : Nat := (r.nodes.filter fun x => x.isStore && bf x.param 0 2 == f).length

def pairwiseDistinct : List Nat → Bool
  | [] => true
  | a :: r => !(r.contains a) && pairwiseDistinct r

/-- The whole check of R65 on a descriptor's content. -/
def Recipe.ok (r : Recipe) : Bool :=
  let flags := scalarFlags r.nodes []
  let weights := r.fields.filter fun f => f.role == 1
  let comps := r.fields.filter fun f => f.role == 2
  let reds := r.nodes.filter RNode.isReduction
  r.version == 1 && decide (1 ≤ r.nodeCount) && decide (r.nodeCount ≤ 32) && decide (1 ≤ r.fieldCount)
  && decide (r.fieldCount ≤ 4)
  && (r.fields.all fun f => decide (f.ty < 3) && decide (f.role < 3) && decide (f.nullRule < 2)
      && !(f.role == 1 && f.ty == 2) && !(f.role == 2 && f.ty == 0) && !(f.scaled && f.ty == 0))
  && decide (weights.length ≤ 1) && decide (comps.length ≤ weights.length)
  && (comps.all fun c => weights.all fun w => c.nullRule == w.nullRule && c.nullConst == w.nullConst)
  && ((List.range r.fieldCount).all fun i =>
      let k := storesOf r i
      decide (k ≤ 1) && ((r.fields[i]?.map fun f => f.nullRule == 0 || k == 1).getD false))
  && decide ((r.nodes.filter RNode.isStore).length ≤ 4) && decide (reds.length ≤ 4)
  && pairwiseDistinct (reds.map fun x => bf x.param 0 5)
  && ((List.range r.nodes.length).all fun n => (r.nodes[n]?.map (nodeOk r flags n)).getD false)

def fieldFmt (f : RField) : Fp.Fmt := if f.ty = 0 then .fp32 else if f.ty = 1 then .bf16 else .fp16
def RField.width (f : RField) : Nat := (fieldFmt f).bytes
/-- The width of a record of the recipe (R31). -/
def Recipe.recordBytes (r : Recipe) : Nat := sumNat (r.fields.map RField.width)
/-- Whether a recipe reads statistic value `i` (0 for S0). -/
def Recipe.readsStat (r : Recipe) (i : Nat) : Bool :=
  r.nodes.any fun n => n.operands.any fun s => selClass s == 2 && selIndex s == i + 1
/-- Whether a recipe reads any statistic. -/
def Recipe.readsStats (r : Recipe) : Bool := (List.range 4).any r.readsStat
/-- Whether the recipe has a reduction of global scope (R130). -/
def Recipe.usesNorm (r : Recipe) : Bool := r.nodes.any fun n => n.isReduction
def RNode.tag (n : RNode) : Nat := bf n.param 0 4
def RNode.global (n : RNode) : Bool := bf n.param 4 1 == 1

/-- The scalars an element is evaluated with (R64, R75). -/
structure RCtx where
  consts : List F32
  eta : F32
  t : Nat
  layerElems : Nat
  reds : List (Nat × F32)
  seed : Nat
  deriving DecidableEq, Repr

/-- One element's inputs (R63). -/
structure RElem where
  index : Nat
  fields : List F32
  grad : F32
  stats : List F32
  deriving DecidableEq, Repr

def literal (i : Nat) : F32 := if i = 0 then Fp.posZero else if i = 1 then Fp.one else if i = 2 then Fp.minusOne else Fp.two

/-- The value of an operand selector (R64). -/
def selValue (c : RCtx) (e : RElem) (vals : List F32) (s : Nat) : F32 :=
  let i := selIndex s
  match selClass s with
  | 0 => vals.getD i Fp.posZero
  | 1 => e.fields.getD i Fp.posZero
  | 2 => if i = 0 then e.grad else e.stats.getD (i - 1) Fp.posZero
  | 3 => c.consts.getD i Fp.posZero
  | 4 => if i = 0 then c.eta else if i = 1 then Fp.ofNat c.t else Fp.ofNat c.layerElems
  | 5 => lookupD Fp.posZero c.reds i
  | _ => literal i

/-- The value of one node (R72). A STORE has none; a reduction's is its term (R79). -/
def nodeValue (c : RCtx) (e : RElem) (vals : List F32) (n : Nat) (x : RNode) : F32 :=
  let a := selValue c e vals x.a
  let b := selValue c e vals x.b
  let cc := selValue c e vals x.c
  if x.op = 0x01 then Fp.add a b else if x.op = 0x02 then Fp.sub a b else if x.op = 0x03 then Fp.mul a b
  else if x.op = 0x04 then Fp.fma a b cc else if x.op = 0x05 then Fp.div a b else if x.op = 0x06 then Fp.sqrt a
  else if x.op = 0x07 then Fp.rsqrt a else if x.op = 0x08 then Fp.max a b else if x.op = 0x09 then Fp.min a b
  else if x.op = 0x0A then Fp.abs a else if x.op = 0x0B then Fp.neg a else if x.op = 0x0C then Fp.sign a
  else if x.op = 0x0D then Fp.selgt a b cc (selValue c e vals x.d)
  else if x.op = 0x0E then Fp.ldexp a (signedOf 8 x.param)
  else if x.op = 0x0F then Fp.powi a (if x.param = 0 then c.t else x.param)
  else if x.op = 0x10 then
    let f : Fp.Fmt := if bf x.param 0 2 = 0 then .bf16 else .fp16
    let mode := if bf x.param 2 1 = 1 then some (r24 c.seed c.t e.index n) else none
    Fp.widen f (Fp.narrow f mode a)
  else if x.op = 0x11 then (Fp.splitBoth a b cc).1 else if x.op = 0x12 then (Fp.splitBoth a b cc).2
  else if x.op = 0x20 then a else if x.op = 0x21 then Fp.mul a a else if x.op = 0x22 then Fp.abs a
  else Fp.posZero

/-- The values of all nodes, in order. -/
def evalNodes (c : RCtx) (e : RElem) : Nat → List RNode → List F32 → List F32
  | _, [], vals => vals
  | n, x :: r, vals => evalNodes c e (n + 1) r (vals ++ [nodeValue c e vals n x])

/-- The pre-pass: PRE nodes alone (R78); the others stand as zero. -/
def evalPre (c : RCtx) (e : RElem) : Nat → List RNode → List F32 → List F32
  | _, [], vals => vals
  | n, x :: r, vals => evalPre c e (n + 1) r (vals ++ [if x.pre then nodeValue c e vals n x else Fp.posZero])

/-- The terms that an element gives to each reduction node (R78). -/
def reductionTerms (r : Recipe) (c : RCtx) (e : RElem) : List (Nat × F32) :=
  let vals := evalPre c e 0 r.nodes []
  (List.range r.nodes.length).filterMap fun n =>
    match r.nodes[n]? with
    | some x => if x.isReduction then some (n, vals.getD n Fp.posZero) else none
    | none => none

/-- The stored bits that a STORE of `v` leaves in a field (R69). -/
def storeBits (c : RCtx) (e : RElem) (n : Nat) (x : RNode) (f : RField) (xl : Int) (v : F32) : Nat :=
  let v1 := if f.scaled then Fp.ldexp v xl else v
  let mode := if bf x.param 2 1 = 1 then some (r24 c.seed c.t e.index n) else none
  Fp.narrow (fieldFmt f) mode v1

/-- The new bits of every field of an element; a field no STORE writes keeps its bits (R69). -/
def evalRecord (r : Recipe) (c : RCtx) (e : RElem) (xl : Int) (old : List Nat) : List Nat :=
  let vals := evalNodes c e 0 r.nodes []
  (List.range r.fields.length).map fun i =>
    let keep := old.getD i 0
    match r.fields[i]? with
    | none => keep
    | some f =>
      (List.range r.nodes.length).foldl (fun acc n =>
        match r.nodes[n]? with
        | some x => if x.isStore && bf x.param 0 2 == i then storeBits c e n x f xl (selValue c e vals x.a) else acc
        | none => acc) keep

/-- The stored bits of the fields of a record (R31). -/
def splitFields : List RField → Bytes → List Nat
  | [], _ => []
  | f :: r, b => leNat (b.take f.width) :: splitFields r (b.drop f.width)

/-- The record of given field bits. -/
def joinFields : List RField → List Nat → Bytes
  | [], _ => []
  | f :: r, bits => leBytes f.width (bits.headD 0) ++ joinFields r bits.tail

/-- Steps 1 and 2 of R68. -/
def decodeField (f : RField) (xl : Int) (bits : Nat) : F32 :=
  let w := Fp.widen (fieldFmt f) bits
  if f.scaled then Fp.ldexp w (-xl) else w

/-- The catch-up of a field over `k` steps (R84). -/
def catchUp (f : RField) (consts : List F32) (k : Nat) (v : F32) : F32 :=
  if f.nullRule = 1 then Fp.mul v (Fp.powi (consts.getD f.nullConst Fp.posZero) k) else v

/-- The field values of a record whose unit owes `k` steps; a page that is not VALID reads as zero (R68, R84). -/
def fieldValues (r : Recipe) (consts : List F32) (xl : Int) (valid : Bool) (k : Nat) (bits : List Nat) : List F32 :=
  (List.range r.fields.length).map fun i =>
    match r.fields[i]? with
    | some f => if valid then catchUp f consts k (decodeField f xl (bits.getD i 0)) else Fp.posZero
    | none => Fp.posZero

/-- A recipe has a weight field. -/
def Recipe.hasWeight (r : Recipe) : Bool := r.fields.any fun f => f.role == 1
/-- The weight value of a record (R77); it is read of recipes with a weight field alone. -/
def weightValue (r : Recipe) (vals : List F32) : F32 :=
  let idx := fun role => (List.range r.fields.length).filter fun i => (r.fields[i]?.map fun f => f.role == role).getD false
  match idx 1, idx 2 with
  | w :: _, c :: _ => Fp.add (vals.getD w Fp.posZero) (vals.getD c Fp.posZero)
  | w :: _, [] => vals.getD w Fp.posZero
  | [], _ => Fp.posZero

/-- The learning-rate points of LR_TABLE (R71). -/
def lrPoints (n : Nat) (tab : Bytes) : List (Nat × F32) :=
  (List.range n).map fun i => (leAt tab (12 * i) 8, BitVec.ofNat 32 (leAt tab (12 * i + 8) 4))

/-- The schedule from its first point on: the interpolation holds from each point to the next (R71). -/
def lrFrom : List (Nat × F32) → Nat → F32
  | [], _ => Fp.posZero
  | [(_, v)], _ => v
  | (t0, v0) :: (t1, v1) :: r, t =>
    if t < t1 then Fp.add v0 (Fp.div (Fp.mul (Fp.sub v1 v0) (Fp.ofNat (t - t0))) (Fp.ofNat (t1 - t0)))
    else lrFrom ((t1, v1) :: r) t
/-- The learning rate of a step epoch (R71). -/
def learningRate (ps : List (Nat × F32)) (t : Nat) : F32 :=
  match ps with
  | (t0, v0) :: _ => if t ≤ t0 then v0 else lrFrom ps t
  | [] => Fp.posZero

/-- The combining operation of a reduction (R79): maximum for RMAXABS, else RN sum. -/
def redOp (op : Nat) (a b : F32) : F32 := if op = 0x22 then Fp.max a b else Fp.add a b

/-- A node of a binary tree over positions `[lo, lo + 2^d)`; a node with one absent child takes the other child's
value, a node with none is absent (R79). The terms run in increasing position. -/
def treeNode (f : F32 → F32 → F32) : Nat → Nat → List (Nat × F32) → Option F32
  | _, _, [] => none
  | _, _, [(_, v)] => some v
  | 0, _, (_, v) :: _ => some v
  | d + 1, lo, l =>
    let mid := lo + 2 ^ d
    match treeNode f d lo (l.filter fun p => decide (p.1 < mid)), treeNode f d mid (l.filter fun p => decide (mid ≤ p.1)) with
    | some a, some b => some (f a b)
    | some a, none => some a
    | none, b => b

/-- The result of a reduction over the terms of one slice (R79). -/
def sliceReduce (op : Nat) (terms : List (Nat × F32)) : F32 := (treeNode (redOp op) 23 0 terms).getD Fp.posZero

/-- The pages of a skip unit: `u` of R82. -/
def unitPages (recordBytes : Nat) : Nat := recordBytes / Nat.gcd recordBytes 65536

/-- The skip units of a slice as (first page, page count) (R82). -/
def skipUnits (header : Bool) (recordBytes : Nat) : List (Nat × Nat) :=
  let u := max 1 (unitPages recordBytes)
  if header then
    (0, 9) :: (List.range (ceilDiv 247 u)).map fun i => (9 + i * u, min u (247 - i * u))
  else (List.range (ceilDiv 256 u)).map fun i => (i * u, min u (256 - i * u))

end Sys2Proof.Machine
end

