-- ==== Sys2Proof/Machine/Mem.lean ====
section
/-! DEFINITION. Byte-addressed memory in one canonical form: Tier 0 and the tier window (R29, R410). -/
namespace Sys2Proof.Machine

/-- A memory: cells at strictly rising addresses, none of them zero. An unlisted address reads as zero
(DESIGN CHOICE, log entry 2: the spec gives no contents of the stack before it is written). -/
abbrev Memory := List Host.Cell

/-- Cells at strictly rising addresses above a bound, none of them zero. -/
def Memory.wfFrom : Nat → Memory → Bool
  | _, [] => true
  | lo, (k, v) :: r => decide (lo ≤ k) && v != 0 && Memory.wfFrom (k + 1) r

/-- The canonical form. -/
def Memory.wf (m : Memory) : Bool := Memory.wfFrom 0 m

/-- The byte at an address. -/
def Memory.get : Memory → Nat → Byte
  | [], _ => 0
  | (k, v) :: r, a => if k = a then v else Memory.get r a

/-- The cells of a byte run that are not zero. -/
def Memory.cells : Nat → Bytes → Memory
  | _, [] => []
  | a, b :: r => if b = 0 then Memory.cells (a + 1) r else (a, b) :: Memory.cells (a + 1) r

/-- Write a byte run at an address. -/
def Memory.write (m : Memory) (a : Nat) (bs : Bytes) : Memory :=
  m.filter (fun c => decide (c.1 < a)) ++ Memory.cells a bs ++ m.filter (fun c => decide (a + bs.length ≤ c.1))

/-- Read `n` bytes from an address. -/
def Memory.read (m : Memory) (a n : Nat) : Bytes :=
  let near := m.filter fun c => decide (a ≤ c.1) && decide (c.1 < a + n)
  if near.isEmpty then List.replicate n 0 else (List.range n).map fun i => Memory.get near (a + i)

/-- A little-endian integer of `n` bytes (R9). -/
def Memory.readLe (m : Memory) (a n : Nat) : Nat := leNat (m.read a n)

/-- Write a little-endian integer of `n` bytes (R9). -/
def Memory.writeLe (m : Memory) (a n x : Nat) : Memory := m.write a (leBytes n x)

/-- The size of each of the two spaces of the memory-side port (R29, R410). -/
def spaceBytes : Nat := 2 ^ 40

/-- The page size (R30). -/
def pageBytes : Nat := 65536

/-- The slice size (R30). -/
def sliceBytes : Nat := 16777216

end Sys2Proof.Machine
end

