-- ==== Sys2Proof/Machine/Objects.lean ====
section
/-! DEFINITION. The object dictionary's directory (R348, R379): one row per object, from the dictionary tables of the
chapters; the value's type, access class, default and range. -/
namespace Sys2Proof.Machine

/-- The types of R348; `cmd` is a command with an argument of at most 32 bits, `cmd64` one with a U64 argument. -/
inductive ObjTy where
  | u8 | u16 | u32 | u64 | i32 | f32 | dom | cmd | cmd64
  deriving DecidableEq, Repr

/-- The access classes of R350. -/
inductive ObjClass where
  | ro | rw | rwd | rwk | w1c | wo | cmd
  deriving DecidableEq, Repr

/-- The Range column of a dictionary table. -/
inductive ObjRange where
  /-- Any value of the type. -/
  | any
  /-- From `lo` to `hi`. -/
  | span (lo hi : Nat)
  /-- Signed, from `lo` to `hi`. -/
  | ispan (lo hi : Int)
  /-- A multiple of `m` below `below`. -/
  | mult (m below : Nat)
  /-- A multiple of `m` up to `top`. -/
  | multUpTo (m top : Nat)
  /-- Only bits of the mask. -/
  | bits (mask : Nat)
  /-- From the value of another object to `hi`. -/
  | atLeast (key hi : Nat)
  /-- Up to the value of another object. -/
  | upTo (key : Nat)
  /-- A byte string of `lo` to `hi` bytes, a multiple of `step`. -/
  | len (lo hi step : Nat)
  /-- A byte string of `each` bytes per entry, the count being another object's value. -/
  | lenBy (key each : Nat)
  /-- A byte string of `each` bytes per entry, the count being the sum of two objects' values. -/
  | lenBy2 (key key2 each : Nat)
  deriving DecidableEq, Repr

/-- One row: `count` consecutive subindices from `key = index * 256 + subindex`; `dflt` is the default of a number,
or the length of the zero string that a DOMAIN starts as. -/
structure Obj where
  key : Nat
  count : Nat
  ty : ObjTy
  cls : ObjClass
  dflt : Nat
  rng : ObjRange
  deriving DecidableEq, Repr

/-- Rows of the directory (R379), part 0. The directory gives STEPPING, GRADE and VENDOR_PEN the value "Fused" and no number: the
model fuses all three at 0 (DESIGN CHOICE, log entry 4). -/
def objTable0 : List Obj := [
  ⟨0x100100, 1, .u16, .ro, 260, .any⟩,
  ⟨0x100200, 1, .u8, .ro, 1, .span 1 3⟩,
  ⟨0x100300, 1, .u8, .ro, 0, .any⟩,
  ⟨0x100400, 1, .u16, .ro, 0, .any⟩,
  ⟨0x100500, 1, .u32, .ro, 1, .any⟩,
  ⟨0x101000, 1, .dom, .ro, 0, .len 32 32 1⟩,
  ⟨0x102001, 1, .u8, .rw, 0, .span 0 126⟩,
  ⟨0x102002, 1, .u8, .ro, 0, .span 0 126⟩,
  ⟨0x102003, 1, .u8, .ro, 0, .any⟩,
  ⟨0x102004, 1, .u32, .ro, 0, .any⟩,
  ⟨0x102005, 1, .u32, .ro, 0, .any⟩,
  ⟨0x102100, 1, .u32, .ro, 0, .any⟩,
  ⟨0x103001, 1, .u64, .ro, 0, .any⟩,
  ⟨0x103002, 1, .u8, .ro, 0, .span 0 1⟩,
  ⟨0x103003, 1, .u32, .ro, 0, .any⟩,
  ⟨0x103004, 1, .u32, .ro, 0, .any⟩,
  ⟨0x103005, 1, .u32, .ro, 0, .any⟩,
  ⟨0x104001, 1, .u8, .ro, 0, .bits 11⟩,
  ⟨0x104002, 1, .cmd, .cmd, 0, .span 0 11⟩,
  ⟨0x104003, 1, .u8, .rw, 0, .bits 11⟩,
  ⟨0x105001, 1, .u32, .ro, 0, .any⟩,
  ⟨0x106001, 1, .u8, .ro, 0, .span 0 2⟩,
  ⟨0x200100, 1, .u8, .ro, 1, .span 0 7⟩,
  ⟨0x200201, 9, .u8, .ro, 0, .span 0 4⟩,
  ⟨0x200300, 1, .u32, .rwd, 0, .span 0 262143⟩,
  ⟨0x200401, 1, .cmd, .cmd, 0, .span 1 511⟩,
  ⟨0x200402, 1, .cmd, .cmd, 0, .span 1 511⟩,
  ⟨0x200403, 1, .cmd, .cmd, 0, .span 1 511⟩,
  ⟨0x200404, 1, .cmd64, .cmd, 0, .any⟩,
  ⟨0x200405, 1, .cmd, .cmd, 0, .any⟩,
  ⟨0x201000, 1, .u32, .rwd, 0, .span 1 4294967295⟩,
  ⟨0x201100, 1, .u32, .ro, 0, .span 0 4294967295⟩,
  ⟨0x201200, 1, .u64, .ro, 0, .span 0 281474976710655⟩,
  ⟨0x201300, 1, .u32, .ro, 0, .any⟩,
  ⟨0x201400, 1, .u32, .ro, 0, .span 0 262143⟩,
  ⟨0x202001, 1, .u8, .rwd, 0, .span 0 16⟩,
  ⟨0x202002, 1, .u32, .rwd, 0, .span 0 65535⟩,
  ⟨0x202003, 1, .u32, .rwd, 1, .span 1 65536⟩,
  ⟨0x202004, 1, .u32, .rw, 0, .span 0 65535⟩,
  ⟨0x202005, 1, .u32, .rw, 1, .span 1 65536⟩]

/-- Rows of the directory (R379), part 1. -/
def objTable1 : List Obj := [
  ⟨0x202006, 1, .u32, .rw, 0, .any⟩,
  ⟨0x203001, 1, .u64, .rwd, 0, .mult 16777216 (2 ^ 40)⟩,
  ⟨0x203002, 1, .u16, .rwd, 0, .span 0 65534⟩,
  ⟨0x203003, 1, .u32, .rwd, 256, .span 256 16777216⟩,
  ⟨0x203004, 1, .u32, .rwd, 256, .atLeast 0x203003 16777216⟩,
  ⟨0x203005, 1, .u16, .rwd, 0, .span 0 247⟩,
  ⟨0x203006, 1, .u8, .rwd, 12, .span 2 16⟩,
  ⟨0x203007, 1, .u64, .rwd, 0, .mult 65536 (2 ^ 40)⟩,
  ⟨0x203008, 1, .u64, .rwd, 0, .any⟩,
  ⟨0x203009, 1, .u32, .rwd, 0, .span 0 8093696⟩,
  ⟨0x204001, 1, .u64, .rw, 0, .span 0 1099511627775⟩,
  ⟨0x204002, 1, .u32, .rw, 20000, .span 1000 10000000⟩,
  ⟨0x204003, 1, .u64, .ro, 0, .any⟩,
  ⟨0x204004, 1, .u64, .ro, 0, .any⟩,
  ⟨0x204005, 1, .u32, .ro, 0, .any⟩,
  ⟨0x205001, 1, .u32, .ro, 0, .span 0 262144⟩,
  ⟨0x205002, 1, .dom, .ro, 32, .len 32 32 1⟩,
  ⟨0x205003, 1, .dom, .rw, 0, .len 104 3808 1⟩,
  ⟨0x205004, 1, .cmd, .cmd, 0, .any⟩,
  ⟨0x205005, 1, .u32, .ro, 0, .any⟩,
  ⟨0x205006, 1, .u32, .ro, 0, .any⟩,
  ⟨0x205007, 1, .dom, .ro, 0, .len 65536 65536 1⟩,
  ⟨0x205101, 1, .u32, .rw, 100000, .span 10000 100000000⟩,
  ⟨0x205102, 1, .u8, .rw, 5, .span 2 255⟩,
  ⟨0x205103, 1, .dom, .ro, 0, .len 0 256 4⟩,
  ⟨0x205201, 1, .u8, .rwd, 1, .span 0 255⟩,
  ⟨0x205202, 1, .u64, .rwd, 900000000000, .span 1 9223372036854775807⟩,
  ⟨0x205203, 1, .u8, .rwd, 3, .span 3 32⟩,
  ⟨0x205204, 1, .u32, .ro, 0, .any⟩,
  ⟨0x205301, 1, .u32, .rw, 2000000, .span 100000 1000000000⟩,
  ⟨0x205302, 1, .u32, .rw, 10000, .span 1000 1000000⟩,
  ⟨0x205303, 1, .u32, .rw, 100000, .span 10000 10000000⟩,
  ⟨0x205304, 1, .u32, .ro, 0, .any⟩,
  ⟨0x205401, 1, .u64, .rwd, 0, .mult 65536 (2 ^ 40)⟩,
  ⟨0x205402, 1, .u32, .rwd, 0, .span 0 262144⟩,
  ⟨0x206001, 1, .u16, .rwd, 0, .span 0 65535⟩,
  ⟨0x206002, 1, .dom, .rw, 0, .len 0 4194304 1⟩,
  ⟨0x206003, 1, .u32, .ro, 0, .span 0 65535⟩,
  ⟨0x206004, 1, .u32, .ro, 0, .any⟩,
  ⟨0x206005, 1, .u64, .ro, 0, .any⟩]

/-- Rows of the directory (R379), part 2. -/
def objTable2 : List Obj := [
  ⟨0x206006, 1, .u8, .rw, 8, .span 1 64⟩,
  ⟨0x206007, 1, .u32, .rw, 50000, .span 1000 10000000⟩,
  ⟨0x206008, 1, .u8, .ro, 0, .span 0 1⟩,
  ⟨0x206009, 1, .u32, .ro, 0, .any⟩,
  ⟨0x207001, 1, .u8, .ro, 0, .span 0 2⟩,
  ⟨0x207002, 1, .u32, .ro, 0, .any⟩,
  ⟨0x207003, 1, .u8, .ro, 0, .span 0 32⟩,
  ⟨0x208001, 1, .cmd, .cmd, 0, .any⟩,
  ⟨0x208002, 1, .cmd, .cmd, 0, .any⟩,
  ⟨0x208003, 1, .u8, .ro, 0, .span 0 6⟩,
  ⟨0x208004, 1, .u32, .ro, 0, .any⟩,
  ⟨0x208005, 1, .u8, .ro, 0, .span 0 11⟩,
  ⟨0x208006, 1, .u32, .ro, 0, .span 0 262143⟩,
  ⟨0x208007, 1, .dom, .ro, 0, .len 0 128 4⟩,
  ⟨0x208008, 1, .u32, .rwd, 0, .any⟩,
  ⟨0x208009, 1, .u64, .rwd, 0, .any⟩,
  ⟨0x20800A, 1, .u64, .rwd, 0, .any⟩,
  ⟨0x20800B, 1, .u8, .rwd, 8, .span 2 32⟩,
  ⟨0x20800C, 1, .u32, .rw, 50000000, .span 1000000 4000000000⟩,
  ⟨0x20800D, 1, .u32, .rw, 1000000, .span 20000 100000000⟩,
  ⟨0x20800E, 1, .u64, .ro, 0, .any⟩,
  ⟨0x20800F, 1, .u8, .ro, 1, .span 1 1⟩,
  ⟨0x208010, 1, .u32, .ro, 0, .any⟩,
  ⟨0x208101, 1, .dom, .rwd, 0, .len 65584 65584 1⟩,
  ⟨0x301001, 8, .dom, .rwd, 0, .len 288 288 1⟩,
  ⟨0x302001, 1, .u8, .rwd, 1, .span 1 32⟩,
  ⟨0x302002, 1, .dom, .rwd, 12, .len 12 384 12⟩,
  ⟨0x303001, 1, .u16, .rwd, 0, .span 0 1024⟩,
  ⟨0x303002, 1, .dom, .rwd, 0, .lenBy 0x303001 16⟩,
  ⟨0x303003, 1, .u32, .rwd, 589824, .span 589824 16777215⟩,
  ⟨0x304001, 1, .u8, .rwd, 8, .span 2 128⟩,
  ⟨0x304002, 1, .u8, .ro, 0, .any⟩,
  ⟨0x304003, 1, .u32, .ro, 0, .any⟩,
  ⟨0x305001, 1, .u64, .ro, 4294967295, .bits 17179869183⟩,
  ⟨0x305002, 1, .u8, .ro, 32, .span 0 32⟩,
  ⟨0x305003, 1, .cmd, .cmd, 0, .span 0 33⟩,
  ⟨0x305004, 1, .u32, .ro, 0, .any⟩,
  ⟨0x306001, 1, .u16, .rwd, 0, .span 0 1024⟩,
  ⟨0x306002, 1, .dom, .rwd, 0, .lenBy 0x306001 32⟩,
  ⟨0x306003, 1, .u64, .rwd, 0, .mult 256 (2 ^ 40)⟩]

/-- Rows of the directory (R379), part 3. -/
def objTable3 : List Obj := [
  ⟨0x306004, 1, .u32, .rwd, 0, .span 0 4294967294⟩,
  ⟨0x306005, 1, .u32, .ro, 0, .any⟩,
  ⟨0x306006, 1, .u32, .ro, 0, .any⟩,
  ⟨0x306007, 1, .u32, .ro, 0, .any⟩,
  ⟨0x307001, 1, .u16, .rwd, 0, .span 0 256⟩,
  ⟨0x307002, 1, .dom, .rwd, 0, .lenBy 0x307001 32⟩,
  ⟨0x307003, 1, .u8, .ro, 64, .span 0 64⟩,
  ⟨0x307004, 1, .u64, .ro, 18446744073709551615, .any⟩,
  ⟨0x307005, 1, .u8, .ro, 3, .span 0 3⟩,
  ⟨0x307006, 1, .cmd, .cmd, 0, .span 0 65⟩,
  ⟨0x307007, 1, .u64, .ro, 0, .any⟩,
  ⟨0x307008, 1, .u32, .ro, 0, .any⟩,
  ⟨0x307009, 1, .u8, .rwd, 16, .span 8 64⟩,
  ⟨0x310001, 16, .f32, .rwd, 0, .any⟩,
  ⟨0x310101, 16, .f32, .rwd, 0, .any⟩,
  ⟨0x310201, 16, .f32, .rwd, 0, .any⟩,
  ⟨0x310301, 16, .f32, .rwd, 0, .any⟩,
  ⟨0x310401, 16, .f32, .rwd, 0, .any⟩,
  ⟨0x310501, 16, .f32, .rwd, 0, .any⟩,
  ⟨0x310601, 16, .f32, .rwd, 0, .any⟩,
  ⟨0x310701, 16, .f32, .rwd, 0, .any⟩,
  ⟨0x401001, 1, .u16, .rwd, 0, .span 0 65535⟩,
  ⟨0x401002, 1, .u8, .rwd, 14, .span 2 30⟩,
  ⟨0x401003, 1, .u8, .rwd, 2, .span 1 4⟩,
  ⟨0x401004, 1, .u8, .rwd, 0, .span 0 31⟩,
  ⟨0x401005, 1, .dom, .rwd, 0, .lenBy2 0x401002 0x401003 8⟩,
  ⟨0x401006, 1, .u8, .ro, 2, .span 1 4⟩,
  ⟨0x401007, 1, .u32, .ro, 0, .span 0 32768⟩,
  ⟨0x402001, 1, .u64, .rwd, 0, .mult 16777216 (2 ^ 40)⟩,
  ⟨0x402002, 1, .u32, .rwd, 0, .span 0 65536⟩,
  ⟨0x402003, 1, .u64, .rwd, 0, .mult 65536 (2 ^ 40)⟩,
  ⟨0x403001, 1, .u64, .rwd, 0, .mult 65536 (2 ^ 40)⟩,
  ⟨0x403002, 1, .u32, .rwd, 0, .span 0 16777216⟩,
  ⟨0x403003, 1, .u8, .rwd, 2, .span 1 16⟩,
  ⟨0x403004, 1, .u32, .ro, 0, .any⟩,
  ⟨0x403005, 1, .u32, .ro, 0, .any⟩,
  ⟨0x404001, 1, .u8, .rwd, 0, .span 0 128⟩,
  ⟨0x404002, 1, .dom, .rwd, 0, .lenBy 0x404001 16⟩,
  ⟨0x404003, 1, .dom, .ro, 32, .len 32 32 1⟩,
  ⟨0x405001, 1, .u64, .ro, 0, .any⟩]

/-- Rows of the directory (R379), part 4. -/
def objTable4 : List Obj := [
  ⟨0x405002, 1, .u32, .ro, 0, .any⟩,
  ⟨0x406001, 1, .u8, .rwd, 1, .span 0 1⟩,
  ⟨0x406002, 1, .u64, .ro, 0, .any⟩,
  ⟨0x406003, 1, .u64, .ro, 0, .any⟩,
  ⟨0x407001, 1, .dom, .rw, 0, .len 32 6152 8⟩,
  ⟨0x407002, 1, .u8, .ro, 0, .span 0 3⟩,
  ⟨0x407003, 1, .u32, .ro, 0, .any⟩,
  ⟨0x407004, 1, .u64, .rwd, 0, .mult 16777216 (2 ^ 40)⟩,
  ⟨0x407005, 1, .u32, .rwd, 0, .span 0 65536⟩,
  ⟨0x407006, 1, .u64, .rwd, 0, .mult 65536 (2 ^ 40)⟩,
  ⟨0x407007, 1, .u64, .rwd, 0, .mult 65536 (2 ^ 40)⟩,
  ⟨0x407008, 1, .u64, .rwd, 0, .mult 65536 (2 ^ 40)⟩,
  ⟨0x501001, 1, .u64, .rwd, 0, .mult 65536 (2 ^ 40)⟩,
  ⟨0x501002, 1, .u32, .rwd, 0, .span 0 16777216⟩,
  ⟨0x501003, 1, .u8, .rwd, 0, .span 0 1⟩,
  ⟨0x501004, 1, .u32, .rwd, 0, .upTo 0x501002⟩,
  ⟨0x501005, 1, .u64, .ro, 0, .any⟩,
  ⟨0x501006, 1, .u32, .ro, 0, .any⟩,
  ⟨0x501007, 1, .u32, .ro, 0, .any⟩,
  ⟨0x501101, 1, .u64, .rwd, 0, .mult 65536 (2 ^ 40)⟩,
  ⟨0x501102, 1, .u32, .rwd, 0, .span 0 16777216⟩,
  ⟨0x501103, 1, .u32, .ro, 0, .any⟩,
  ⟨0x501104, 1, .u64, .ro, 0, .any⟩,
  ⟨0x502001, 1, .u8, .rwd, 0, .span 0 64⟩,
  ⟨0x502002, 1, .dom, .rwd, 0, .lenBy 0x502001 16⟩,
  ⟨0x502003, 1, .u64, .ro, 0, .any⟩,
  ⟨0x502004, 1, .u32, .ro, 0, .any⟩,
  ⟨0x503001, 1, .u32, .ro, 0, .any⟩,
  ⟨0x503002, 1, .u32, .ro, 0, .any⟩,
  ⟨0x504001, 1, .u32, .ro, 0, .any⟩,
  ⟨0x505001, 1, .u16, .rw, 64, .span 0 256⟩,
  ⟨0x505101, 6, .u8, .ro, 32, .span 1 255⟩,
  ⟨0x505201, 6, .u8, .rw, 1, .span 1 255⟩,
  ⟨0x505301, 6, .u8, .rw, 255, .span 1 255⟩,
  ⟨0x505401, 16, .u64, .ro, 0, .any⟩,
  ⟨0x506001, 1, .u32, .rw, 200000, .span 1000 100000000⟩,
  ⟨0x506002, 1, .u8, .rw, 8, .span 1 255⟩,
  ⟨0x506003, 1, .u16, .ro, 0, .span 0 65535⟩,
  ⟨0x506004, 1, .cmd, .cmd, 0, .any⟩,
  ⟨0x506005, 1, .u32, .ro, 0, .any⟩]

/-- Rows of the directory (R379), part 5. -/
def objTable5 : List Obj := [
  ⟨0x506006, 1, .u32, .ro, 0, .any⟩,
  ⟨0x506007, 1, .u32, .ro, 0, .any⟩,
  ⟨0x506008, 1, .u64, .ro, 0, .any⟩,
  ⟨0x506009, 1, .u32, .ro, 0, .any⟩,
  ⟨0x50600A, 1, .u32, .ro, 0, .any⟩,
  ⟨0x507001, 1, .u64, .ro, 0, .any⟩,
  ⟨0x507002, 1, .u64, .ro, 0, .any⟩,
  ⟨0x507003, 1, .u64, .ro, 0, .any⟩,
  ⟨0x507004, 1, .u32, .ro, 0, .any⟩,
  ⟨0x507005, 1, .u32, .ro, 0, .any⟩,
  ⟨0x507006, 1, .u32, .ro, 0, .any⟩,
  ⟨0x508001, 1, .u8, .ro, 0, .span 0 3⟩,
  ⟨0x508002, 1, .u32, .ro, 0, .any⟩,
  ⟨0x508003, 1, .u32, .ro, 0, .any⟩,
  ⟨0x508101, 8, .u16, .rwd, 64, .span 4 512⟩,
  ⟨0x508201, 1, .u8, .rwd, 8, .span 1 64⟩,
  ⟨0x508202, 1, .u16, .rwd, 1024, .span 64 4096⟩,
  ⟨0x508203, 1, .u32, .rw, 1000000, .span 10000 100000000⟩,
  ⟨0x508204, 1, .u64, .ro, 0, .any⟩,
  ⟨0x509001, 1, .dom, .rwd, 0, .len 64 4194304 1⟩,
  ⟨0x509002, 1, .u32, .ro, 0, .any⟩,
  ⟨0x509003, 1, .u32, .ro, 0, .any⟩,
  ⟨0x509004, 1, .u32, .ro, 0, .any⟩,
  ⟨0x509005, 1, .u64, .ro, 0, .any⟩,
  ⟨0x601001, 1, .u64, .rwd, 0, .multUpTo 65536 (2 ^ 46)⟩,
  ⟨0x601002, 1, .u16, .rwd, 0, .span 0 256⟩,
  ⟨0x601003, 1, .dom, .rwd, 0, .lenBy 0x601002 32⟩,
  ⟨0x601004, 1, .u64, .rwd, 0, .mult 65536 (2 ^ 40)⟩,
  ⟨0x601005, 1, .u32, .rwd, 0, .any⟩,
  ⟨0x601006, 1, .u64, .rwd, 0, .mult 65536 (2 ^ 40)⟩,
  ⟨0x601007, 1, .u32, .rwd, 0, .span 0 16777216⟩,
  ⟨0x601008, 1, .u64, .rwd, 0, .mult 65536 (2 ^ 40)⟩,
  ⟨0x601009, 1, .u32, .rwd, 0, .span 0 16777216⟩,
  ⟨0x60100A, 1, .dom, .rw, 192, .len 192 192 1⟩,
  ⟨0x60100B, 1, .dom, .ro, 192, .len 192 192 1⟩,
  ⟨0x60100C, 1, .cmd, .cmd, 0, .any⟩,
  ⟨0x60100D, 1, .u64, .ro, 0, .any⟩,
  ⟨0x60100E, 1, .u64, .ro, 0, .any⟩,
  ⟨0x60100F, 1, .u64, .ro, 0, .any⟩,
  ⟨0x602001, 1, .u32, .rw, 100000, .span 1000 100000000⟩]

/-- Rows of the directory (R379), part 6. -/
def objTable6 : List Obj := [
  ⟨0x602002, 1, .u32, .rwd, 0, .span 0 262143⟩,
  ⟨0x602003, 1, .dom, .rwd, 32768, .len 32768 32768 1⟩,
  ⟨0x602004, 1, .u32, .ro, 0, .any⟩,
  ⟨0x602005, 1, .dom, .rw, 0, .len 32 4128 1⟩,
  ⟨0x602006, 1, .cmd, .cmd, 0, .any⟩,
  ⟨0x602007, 1, .dom, .ro, 0, .len 32 4128 1⟩,
  ⟨0x602008, 1, .u64, .ro, 0, .any⟩,
  ⟨0x602009, 1, .u32, .ro, 0, .any⟩,
  ⟨0x603001, 1, .dom, .rwk, 8192, .len 8192 8192 1⟩,
  ⟨0x603002, 1, .dom, .rwk, 0, .len 33 33 1⟩,
  ⟨0x603003, 1, .u64, .rwk, 0, .any⟩,
  ⟨0x603004, 1, .u32, .ro, 0, .any⟩,
  ⟨0x604001, 1, .u8, .rwk, 1, .span 1 16⟩,
  ⟨0x604002, 1, .dom, .rwk, 0, .len 0 1552 97⟩,
  ⟨0x604003, 1, .u16, .rwk, 0, .any⟩,
  ⟨0x605001, 1, .dom, .rwk, 0, .len 97 97 1⟩,
  ⟨0x606001, 1, .dom, .rwd, 0, .len 4 32 4⟩,
  ⟨0x606002, 1, .u32, .ro, 0, .span 0 262143⟩,
  ⟨0x606003, 1, .u64, .ro, 0, .any⟩,
  ⟨0x606004, 1, .u8, .ro, 0, .span 0 2⟩,
  ⟨0x606005, 1, .u32, .ro, 0, .any⟩,
  ⟨0x607001, 1, .u64, .rwk, 1, .any⟩,
  ⟨0x701001, 1, .u8, .ro, 0, .span 0 255⟩,
  ⟨0x701002, 1, .u8, .ro, 0, .span 0 255⟩,
  ⟨0x701003, 1, .dom, .ro, 8, .len 8 8 1⟩,
  ⟨0x701004, 1, .u8, .rw, 1, .span 0 255⟩,
  ⟨0x701005, 1, .u8, .rw, 16, .span 0 96⟩,
  ⟨0x701006, 1, .u16, .rw, 16, .span 1 65535⟩,
  ⟨0x701007, 1, .u8, .rw, 8, .span 0 64⟩,
  ⟨0x701008, 1, .u8, .rw, 4, .span 0 48⟩,
  ⟨0x701009, 1, .u8, .rw, 4, .span 0 48⟩,
  ⟨0x70100A, 1, .i32, .rw, 0, .ispan (-128) 127⟩,
  ⟨0x70100B, 1, .u8, .rw, 10, .span 0 127⟩,
  ⟨0x70100C, 1, .u32, .rw, 0, .span 0 4000000000⟩,
  ⟨0x701101, 1, .u64, .rwd, 0, .mult 65536 (2 ^ 40)⟩,
  ⟨0x701102, 1, .u8, .rw, 24, .span 1 64⟩,
  ⟨0x701103, 1, .u8, .rw, 12, .span 0 63⟩,
  ⟨0x701104, 1, .dom, .ro, 0, .len 0 1024 4⟩,
  ⟨0x701105, 1, .dom, .ro, 0, .len 0 3072 12⟩,
  ⟨0x701106, 1, .cmd, .cmd, 0, .span 0 262143⟩]

/-- Rows of the directory (R379), part 7. -/
def objTable7 : List Obj := [
  ⟨0x701201, 1, .u32, .w1c, 0, .bits 8191⟩,
  ⟨0x701202, 1, .u64, .w1c, 0, .bits 1099511627775⟩,
  ⟨0x702001, 1, .u8, .rw, 127, .span 0 127⟩,
  ⟨0x702002, 1, .u8, .rw, 64, .span 1 255⟩,
  ⟨0x702003, 1, .u8, .rw, 128, .span 1 255⟩,
  ⟨0x702004, 1, .u8, .rw, 48, .span 0 254⟩,
  ⟨0x702005, 1, .u8, .rw, 8, .span 1 255⟩,
  ⟨0x702006, 1, .u16, .rw, 64, .span 1 65535⟩,
  ⟨0x702101, 1, .u16, .ro, 600, .span 300 600⟩,
  ⟨0x702102, 1, .u16, .rw, 300, .span 300 600⟩,
  ⟨0x702103, 1, .u32, .rw, 200000, .span 1000 100000000⟩,
  ⟨0x702104, 1, .u32, .rw, 20000, .span 0 100000000⟩,
  ⟨0x702105, 1, .u8, .rw, 16, .span 1 255⟩,
  ⟨0x702201, 1, .u8, .rw, 3, .span 2 16⟩,
  ⟨0x702202, 1, .u8, .rw, 8, .span 1 255⟩,
  ⟨0x702203, 1, .u8, .rw, 2, .span 0 4⟩,
  ⟨0x702204, 1, .u16, .rw, 256, .span 1 65535⟩,
  ⟨0x702205, 1, .dom, .ro, 128, .len 128 128 1⟩,
  ⟨0x703001, 1, .u64, .rwd, 0, .mult 65536 (2 ^ 40)⟩,
  ⟨0x703002, 1, .u8, .rw, 1, .span 0 6⟩,
  ⟨0x703003, 1, .u32, .rw, 1000, .span 0 1000000⟩,
  ⟨0x703004, 1, .u32, .rw, 1000, .span 0 1000000⟩,
  ⟨0x703005, 1, .u16, .ro, 0, .span 0 65535⟩,
  ⟨0x703006, 1, .u8, .rw, 4, .span 0 15⟩,
  ⟨0x703007, 1, .u8, .ro, 0, .span 0 1⟩,
  ⟨0x703008, 1, .u32, .ro, 0, .any⟩,
  ⟨0x703009, 1, .u64, .ro, 0, .any⟩,
  ⟨0x70300A, 1, .u64, .ro, 0, .any⟩,
  ⟨0x70300B, 1, .u16, .rw, 64, .span 1 65535⟩,
  ⟨0x801001, 1, .u8, .rw, 1, .span 0 1⟩,
  ⟨0x801002, 1, .u16, .rw, 512, .span 1 4096⟩,
  ⟨0x801003, 1, .u16, .ro, 512, .span 1 4096⟩,
  ⟨0x801004, 1, .u64, .rwd, 0, .mult 65536 (2 ^ 64)⟩,
  ⟨0x801005, 1, .u8, .rwd, 2, .span 2 8⟩,
  ⟨0x801006, 1, .u64, .rwd, 0, .mult 65536 (2 ^ 64)⟩,
  ⟨0x801007, 1, .u64, .rwd, 0, .mult 4096 (2 ^ 64)⟩,
  ⟨0x801008, 1, .u64, .rwd, 0, .mult 65536 (2 ^ 64)⟩,
  ⟨0x801009, 1, .u16, .rwd, 0, .span 0 65535⟩,
  ⟨0x80100A, 1, .u8, .rw, 4, .span 1 64⟩,
  ⟨0x80100B, 1, .u8, .ro, 0, .span 0 3⟩]

/-- Rows of the directory (R379), part 8. -/
def objTable8 : List Obj := [
  ⟨0x80100C, 1, .u64, .ro, 0, .span 0 281474976710655⟩,
  ⟨0x80100D, 1, .u64, .ro, 0, .span 0 281474976710655⟩,
  ⟨0x80100E, 1, .u8, .ro, 0, .span 0 7⟩,
  ⟨0x80100F, 1, .dom, .ro, 32, .len 32 32 1⟩,
  ⟨0x801010, 1, .u32, .ro, 0, .any⟩,
  ⟨0x801011, 1, .u32, .ro, 0, .any⟩,
  ⟨0x801012, 1, .u32, .ro, 0, .any⟩,
  ⟨0x801013, 1, .u32, .ro, 0, .any⟩,
  ⟨0x801014, 1, .u32, .ro, 0, .any⟩,
  ⟨0x801015, 1, .u32, .rw, 1000000, .span 1000 1000000000⟩,
  ⟨0x802001, 1, .u8, .rwd, 0, .span 0 7⟩,
  ⟨0x802002, 1, .dom, .rwd, 0, .len 0 32768 8⟩,
  ⟨0x802003, 1, .cmd, .cmd, 0, .any⟩,
  ⟨0x802004, 1, .u8, .ro, 0, .span 0 3⟩,
  ⟨0x802005, 1, .u8, .ro, 0, .span 0 8⟩,
  ⟨0x802006, 1, .u32, .ro, 0, .any⟩,
  ⟨0x802007, 1, .u8, .rwd, 0, .span 0 1⟩,
  ⟨0x802008, 1, .cmd, .cmd, 0, .any⟩,
  ⟨0x803001, 1, .u64, .rwd, 0, .mult 65536 (2 ^ 40)⟩,
  ⟨0x803002, 1, .u32, .rwd, 0, .span 0 65536⟩,
  ⟨0x803003, 1, .u32, .ro, 0, .any⟩,
  ⟨0x803004, 1, .u32, .rw, 0, .any⟩,
  ⟨0x803005, 1, .u32, .ro, 1, .any⟩,
  ⟨0x803006, 1, .u8, .rw, 1, .span 0 2⟩,
  ⟨0x803007, 1, .u32, .ro, 0, .any⟩,
  ⟨0x803008, 1, .dom, .rwd, 32, .len 32 32 1⟩,
  ⟨0x803009, 1, .dom, .ro, 32, .len 32 32 1⟩,
  ⟨0x901001, 1, .u32, .w1c, 0, .bits 511⟩,
  ⟨0x901101, 1, .dom, .ro, 256, .len 256 256 1⟩,
  ⟨0x901201, 1, .u32, .ro, 0, .any⟩,
  ⟨0x901202, 1, .u32, .ro, 0, .any⟩,
  ⟨0x901203, 1, .u32, .ro, 0, .any⟩,
  ⟨0x901204, 1, .dom, .ro, 8, .len 8 8 1⟩,
  ⟨0x902001, 1, .u64, .ro, 0, .any⟩,
  ⟨0x902002, 1, .u32, .ro, 0, .any⟩,
  ⟨0x902003, 1, .u32, .ro, 0, .any⟩,
  ⟨0x902004, 1, .dom, .ro, 16, .len 16 16 1⟩,
  ⟨0x902005, 1, .u8, .ro, 0, .span 0 3⟩,
  ⟨0x902101, 1, .u64, .rwd, 0, .mult 65536 (2 ^ 40)⟩,
  ⟨0x902102, 1, .u16, .rwd, 0, .span 0 4096⟩]

/-- Rows of the directory (R379), part 9. -/
def objTable9 : List Obj := [
  ⟨0x902103, 1, .dom, .rwd, 0, .len 0 32768 8⟩,
  ⟨0x902104, 1, .u16, .ro, 0, .span 0 4096⟩,
  ⟨0x902105, 1, .u16, .rw, 4, .span 1 65535⟩,
  ⟨0x902106, 1, .u32, .ro, 0, .any⟩,
  ⟨0x903001, 1, .dom, .rw, 16, .len 16 16 1⟩,
  ⟨0x903002, 1, .cmd, .cmd, 0, .any⟩,
  ⟨0x903003, 1, .u8, .ro, 0, .span 0 2⟩,
  ⟨0x903004, 1, .dom, .ro, 40, .len 40 40 1⟩,
  ⟨0x903005, 1, .u16, .rw, 64, .span 1 65535⟩,
  ⟨0xA01001, 1, .dom, .rw, 0, .len 0 768 768⟩,
  ⟨0xA01002, 1, .cmd, .cmd, 0, .any⟩,
  ⟨0xA01003, 1, .u8, .ro, 0, .span 0 2⟩,
  ⟨0xA01004, 1, .u8, .ro, 255, .any⟩,
  ⟨0xA01005, 1, .u32, .ro, 0, .any⟩,
  ⟨0xA01006, 1, .u32, .ro, 0, .any⟩,
  ⟨0xA01007, 1, .u32, .ro, 4294967295, .any⟩,
  ⟨0xA02001, 1, .dom, .ro, 64, .len 64 64 1⟩,
  ⟨0xA02002, 1, .dom, .ro, 128, .len 128 128 1⟩,
  ⟨0xB01001, 8, .dom, .rwd, 0, .len 0 131072 1⟩,
  ⟨0xB01101, 1, .u64, .rwd, 0, .mult 65536 (2 ^ 40)⟩,
  ⟨0xB01102, 1, .u64, .rw, 0, .mult 65536 (2 ^ 40)⟩,
  ⟨0xB01200, 1, .u8, .ro, 0, .any⟩,
  ⟨0xB02001, 1, .cmd64, .cmd, 0, .any⟩,
  ⟨0xB02002, 1, .u8, .ro, 0, .span 0 3⟩,
  ⟨0xB02003, 1, .dom, .wo, 0, .len 16 16 1⟩,
  ⟨0xB02004, 1, .u8, .ro, 255, .any⟩,
  ⟨0xB02005, 1, .u64, .ro, 0, .span 0 281474976710655⟩,
  ⟨0xF00001, 1, .u64, .ro, 0, .any⟩,
  ⟨0xF00002, 1, .u32, .ro, 0, .any⟩,
  ⟨0xF00003, 1, .u32, .ro, 0, .any⟩,
  ⟨0xF00004, 1, .u16, .ro, 0, .bits 127⟩,
  ⟨0xF00005, 1, .u8, .ro, 1, .span 0 1⟩,
  ⟨0xF01001, 1, .u64, .ro, 0, .any⟩,
  ⟨0xF01002, 1, .u64, .ro, 0, .any⟩,
  ⟨0xF01003, 1, .u32, .ro, 0, .any⟩,
  ⟨0xF01004, 1, .i32, .ro, 0, .any⟩,
  ⟨0xF01005, 1, .i32, .ro, 0, .any⟩,
  ⟨0xF01006, 1, .u32, .ro, 0, .any⟩,
  ⟨0xF01007, 1, .u64, .ro, 0, .any⟩,
  ⟨0xF01008, 1, .u16, .ro, 0, .span 0 1024⟩]

/-- Rows of the directory (R379), part 10. -/
def objTable10 : List Obj := [
  ⟨0xF02001, 16, .u64, .ro, 0, .any⟩,
  ⟨0xF02011, 1, .u64, .ro, 0, .any⟩,
  ⟨0xF02012, 1, .u64, .ro, 0, .any⟩,
  ⟨0xF03001, 1, .dom, .ro, 512, .len 512 512 1⟩,
  ⟨0xF04001, 1, .u64, .ro, 0, .any⟩]

/-- The directory of objects (R379), in increasing order of key. -/
def objTable : List Obj := objTable0 ++ objTable1 ++ objTable2 ++ objTable3 ++ objTable4 ++ objTable5 ++ objTable6 ++ objTable7 ++ objTable8 ++ objTable9 ++ objTable10

end Sys2Proof.Machine

namespace Sys2Proof.Machine.O

/-- 0x2010:00 (spec/02_state_space.md). -/
abbrev JOB_ID : Nat := 0x201000
/-- 0x2011:00 (spec/02_state_space.md). -/
abbrev MEMBERSHIP_EPOCH : Nat := 0x201100
/-- 0x2012:00 (spec/02_state_space.md). -/
abbrev STEP_EPOCH : Nat := 0x201200
/-- 0x2020:01 (spec/02_state_space.md). -/
abbrev VREPLICA_LOG2 : Nat := 0x202001
/-- 0x2020:02 (spec/02_state_space.md). -/
abbrev VREPLICA_FIRST : Nat := 0x202002
/-- 0x2020:03 (spec/02_state_space.md). -/
abbrev VREPLICA_COUNT : Nat := 0x202003
/-- 0x2030:01 (spec/02_state_space.md). -/
abbrev STATE_BASE : Nat := 0x203001
/-- 0x2030:02 (spec/02_state_space.md). -/
abbrev SHARD_NUMBER : Nat := 0x203002
/-- 0x2030:03 (spec/02_state_space.md). -/
abbrev SHARD_PAGES : Nat := 0x203003
/-- 0x2030:04 (spec/02_state_space.md). -/
abbrev PADDED_PAGES : Nat := 0x203004
/-- 0x2030:05 (spec/02_state_space.md). -/
abbrev REPL_PAGES : Nat := 0x203005
/-- 0x2030:06 (spec/02_state_space.md). -/
abbrev RECORD_BYTES : Nat := 0x203006
/-- 0x2030:07 (spec/02_state_space.md). -/
abbrev META_BASE : Nat := 0x203007
/-- 0x2030:08 (spec/02_state_space.md). -/
abbrev DATA_STRIDE : Nat := 0x203008
/-- 0x2030:09 (spec/02_state_space.md). -/
abbrev REPL_RECORDS : Nat := 0x203009
/-- 0x3040:01 (spec/02_state_space.md). -/
abbrev RING_SLOTS : Nat := 0x304001
/-- 0x3040:02 (spec/02_state_space.md). -/
abbrev RING_FREE : Nat := 0x304002
/-- 0x3040:03 (spec/02_state_space.md). -/
abbrev RING_FULL_COUNT : Nat := 0x304003
/-- 0x3050:01 (spec/03_update_tiles.md). -/
abbrev TILE_ACTIVE_MAP : Nat := 0x305001
/-- 0x3050:02 (spec/03_update_tiles.md). -/
abbrev TILE_ACTIVE_COUNT : Nat := 0x305002
/-- 0x3050:03 (spec/03_update_tiles.md). -/
abbrev TILE_RETIRE : Nat := 0x305003
/-- 0x3050:04 (spec/03_update_tiles.md). -/
abbrev TILE_SRAM_CE_COUNT : Nat := 0x305004
/-- 0x3010:01 (spec/03_update_tiles.md). -/
abbrev RECIPE_DESC : Nat := 0x301001
/-- 0x3020:01 (spec/03_update_tiles.md). -/
abbrev LR_POINTS : Nat := 0x302001
/-- 0x3020:02 (spec/03_update_tiles.md). -/
abbrev LR_TABLE : Nat := 0x302002
/-- 0x3030:01 (spec/03_update_tiles.md). -/
abbrev LAYER_COUNT : Nat := 0x303001
/-- 0x3030:02 (spec/03_update_tiles.md). -/
abbrev LAYER_TABLE : Nat := 0x303002
/-- 0x3030:03 (spec/03_update_tiles.md). -/
abbrev LAYER_EXP_BASE : Nat := 0x303003
/-- 0x3100:01 (spec/03_update_tiles.md). -/
abbrev RECIPE_CONST : Nat := 0x310001
/-- 0x3060:01 (spec/04_publishing.md). -/
abbrev PUB_COUNT : Nat := 0x306001
/-- 0x3060:02 (spec/04_publishing.md). -/
abbrev PUB_TABLE : Nat := 0x306002
/-- 0x3060:03 (spec/04_publishing.md). -/
abbrev MASK_BASE : Nat := 0x306003
/-- 0x3060:04 (spec/04_publishing.md). -/
abbrev MASK_WORDS : Nat := 0x306004
/-- 0x3060:05 (spec/04_publishing.md). -/
abbrev PUB_SKIPPED : Nat := 0x306005
/-- 0x3060:06 (spec/04_publishing.md). -/
abbrev PUB_SAT_COUNT : Nat := 0x306006
/-- 0x3060:07 (spec/04_publishing.md). -/
abbrev PUB_NONFINITE_COUNT : Nat := 0x306007
/-- 0x4060:01 (spec/04_publishing.md). -/
abbrev DELTA_COMPRESS : Nat := 0x406001
/-- 0x4060:02 (spec/04_publishing.md). -/
abbrev DELTA_RAW_BYTES : Nat := 0x406002
/-- 0x4060:03 (spec/04_publishing.md). -/
abbrev DELTA_SENT_BYTES : Nat := 0x406003
/-- 0x3070:01 (spec/05_preconditioner.md). -/
abbrev PC_COUNT : Nat := 0x307001
/-- 0x3070:02 (spec/05_preconditioner.md). -/
abbrev PC_TABLE : Nat := 0x307002
/-- 0x3070:03 (spec/05_preconditioner.md). -/
abbrev PC_WIDTH : Nat := 0x307003
/-- 0x3070:04 (spec/05_preconditioner.md). -/
abbrev PC_COL_GOOD : Nat := 0x307004
/-- 0x3070:05 (spec/05_preconditioner.md). -/
abbrev PC_SPARE_GOOD : Nat := 0x307005
/-- 0x3070:06 (spec/05_preconditioner.md). -/
abbrev PC_COL_RETIRE : Nat := 0x307006
/-- 0x3070:07 (spec/05_preconditioner.md). -/
abbrev PC_FREEZE_COUNT : Nat := 0x307007
/-- 0x3070:08 (spec/05_preconditioner.md). -/
abbrev PC_ROOT_FAIL : Nat := 0x307008
/-- 0x3070:09 (spec/05_preconditioner.md). -/
abbrev PC_MIN_WIDTH : Nat := 0x307009
/-- 0x5010:01 (spec/06_canonical_reduction.md). -/
abbrev REDUCE_BASE : Nat := 0x501001
/-- 0x5010:02 (spec/06_canonical_reduction.md). -/
abbrev REDUCE_PAGES : Nat := 0x501002
/-- 0x5010:03 (spec/06_canonical_reduction.md). -/
abbrev CONTRIB_FORMAT : Nat := 0x501003
/-- 0x5010:04 (spec/06_canonical_reduction.md). -/
abbrev REDUCE_OWNER_PAGES : Nat := 0x501004
/-- 0x5010:05 (spec/06_canonical_reduction.md). -/
abbrev REDUCE_POOL_FULL_COUNT : Nat := 0x501005
/-- 0x5010:06 (spec/06_canonical_reduction.md). -/
abbrev PART_DUP_COUNT : Nat := 0x501006
/-- 0x5010:07 (spec/06_canonical_reduction.md). -/
abbrev PART_STALE_COUNT : Nat := 0x501007
/-- 0x5011:01 (spec/06_canonical_reduction.md). -/
abbrev RETAIN_BASE : Nat := 0x501101
/-- 0x5011:02 (spec/06_canonical_reduction.md). -/
abbrev RETAIN_PAGES : Nat := 0x501102
/-- 0x5011:03 (spec/06_canonical_reduction.md). -/
abbrev RETAIN_USED : Nat := 0x501103
/-- 0x5011:04 (spec/06_canonical_reduction.md). -/
abbrev RETAIN_FULL_COUNT : Nat := 0x501104
/-- 0x5020:01 (spec/06_canonical_reduction.md). -/
abbrev SPARSE_COUNT : Nat := 0x502001
/-- 0x5020:02 (spec/06_canonical_reduction.md). -/
abbrev SPARSE_TABLE : Nat := 0x502002
/-- 0x5020:03 (spec/06_canonical_reduction.md). -/
abbrev SPARSE_DROP_COUNT : Nat := 0x502003
/-- 0x5020:04 (spec/06_canonical_reduction.md). -/
abbrev SPARSE_MALFORMED_COUNT : Nat := 0x502004
/-- 0x5030:01 (spec/06_canonical_reduction.md). -/
abbrev LSE_MERGE_COUNT : Nat := 0x503001
/-- 0x5030:02 (spec/06_canonical_reduction.md). -/
abbrev LSE_MALFORMED_COUNT : Nat := 0x503002
/-- 0x5040:01 (spec/06_canonical_reduction.md). -/
abbrev BUNDLE_SMALL_COUNT : Nat := 0x504001
/-- 0x5050:01 (spec/06_canonical_reduction.md). -/
abbrev VC2_CAP : Nat := 0x505001
/-- 0x5051:01 (spec/06_canonical_reduction.md). -/
abbrev VC_WEIGHT : Nat := 0x505101
/-- 0x5052:01 (spec/06_canonical_reduction.md). -/
abbrev VC_WEIGHT_MIN : Nat := 0x505201
/-- 0x5053:01 (spec/06_canonical_reduction.md). -/
abbrev VC_WEIGHT_MAX : Nat := 0x505301
/-- 0x5054:01 (spec/06_canonical_reduction.md). -/
abbrev VC_FLITS : Nat := 0x505401
/-- 0x4010:01 (spec/07_stripes.md). -/
abbrev GROUP_NUMBER : Nat := 0x401001
/-- 0x4010:02 (spec/07_stripes.md). -/
abbrev STRIPE_K : Nat := 0x401002
/-- 0x4010:03 (spec/07_stripes.md). -/
abbrev STRIPE_M : Nat := 0x401003
/-- 0x4010:04 (spec/07_stripes.md). -/
abbrev GROUP_RANK : Nat := 0x401004
/-- 0x4010:05 (spec/07_stripes.md). -/
abbrev GROUP_MEMBERS : Nat := 0x401005
/-- 0x4010:06 (spec/07_stripes.md). -/
abbrev STRIPE_M_ACTIVE : Nat := 0x401006
/-- 0x4010:07 (spec/07_stripes.md). -/
abbrev STRIPE_ROUNDS : Nat := 0x401007
/-- 0x4020:01 (spec/07_stripes.md). -/
abbrev PARITY_BASE : Nat := 0x402001
/-- 0x4020:02 (spec/07_stripes.md). -/
abbrev PARITY_SLOTS : Nat := 0x402002
/-- 0x4020:03 (spec/07_stripes.md). -/
abbrev PARITY_META_BASE : Nat := 0x402003
/-- 0x4030:01 (spec/07_stripes.md). -/
abbrev HOLD_BASE : Nat := 0x403001
/-- 0x4030:02 (spec/07_stripes.md). -/
abbrev HOLD_PAGES : Nat := 0x403002
/-- 0x4030:03 (spec/07_stripes.md). -/
abbrev HOLD_WINDOW : Nat := 0x403003
/-- 0x4030:04 (spec/07_stripes.md). -/
abbrev HOLD_USED : Nat := 0x403004
/-- 0x4030:05 (spec/07_stripes.md). -/
abbrev HOLD_OVERRUN_COUNT : Nat := 0x403005
/-- 0x4040:01 (spec/07_stripes.md). -/
abbrev EXT_COUNT : Nat := 0x404001
/-- 0x4040:02 (spec/07_stripes.md). -/
abbrev EXT_TABLE : Nat := 0x404002
/-- 0x4040:03 (spec/07_stripes.md). -/
abbrev EXT_STATE : Nat := 0x404003
/-- 0x4050:01 (spec/07_stripes.md). -/
abbrev DECODE_PAGES : Nat := 0x405001
/-- 0x4050:02 (spec/07_stripes.md). -/
abbrev DECODE_FAIL_COUNT : Nat := 0x405002
/-- 0x2040:01 (spec/08_meridian_commit.md). -/
abbrev MERIDIAN_PERIOD_NS : Nat := 0x204001
/-- 0x2040:02 (spec/08_meridian_commit.md). -/
abbrev MERIDIAN_LEAD_NS : Nat := 0x204002
/-- 0x2040:03 (spec/08_meridian_commit.md). -/
abbrev MERIDIAN_LAST_RELEASE : Nat := 0x204003
/-- 0x2040:04 (spec/08_meridian_commit.md). -/
abbrev MERIDIAN_SCHEDULED : Nat := 0x204004
/-- 0x2040:05 (spec/08_meridian_commit.md). -/
abbrev MERIDIAN_LATE_COUNT : Nat := 0x204005
/-- 0x5060:01 (spec/08_meridian_commit.md). -/
abbrev ACK_TIMEOUT_NS : Nat := 0x506001
/-- 0x5060:02 (spec/08_meridian_commit.md). -/
abbrev RETRY_LIMIT : Nat := 0x506002
/-- 0x5060:03 (spec/08_meridian_commit.md). -/
abbrev ROUTE_EPOCH : Nat := 0x506003
/-- 0x5060:04 (spec/08_meridian_commit.md). -/
abbrev ROUTE_CHANGE : Nat := 0x506004
/-- 0x5060:05 (spec/08_meridian_commit.md). -/
abbrev CRESOL_MALFORMED_COUNT : Nat := 0x506005
/-- 0x5060:06 (spec/08_meridian_commit.md). -/
abbrev CRESOL_DUP_COUNT : Nat := 0x506006
/-- 0x5060:07 (spec/08_meridian_commit.md). -/
abbrev CRESOL_EPOCH_DROP_COUNT : Nat := 0x506007
/-- 0x5060:08 (spec/08_meridian_commit.md). -/
abbrev RESEND_COUNT : Nat := 0x506008
/-- 0x5060:09 (spec/08_meridian_commit.md). -/
abbrev COMMIT_STALL_COUNT : Nat := 0x506009
/-- 0x5060:0A (spec/08_meridian_commit.md). -/
abbrev COMMIT_ORPHAN_COUNT : Nat := 0x50600A
/-- 0x2020:04 (spec/09_loss_and_takeover.md). -/
abbrev NEXT_VREPLICA_FIRST : Nat := 0x202004
/-- 0x2020:05 (spec/09_loss_and_takeover.md). -/
abbrev NEXT_VREPLICA_COUNT : Nat := 0x202005
/-- 0x2020:06 (spec/09_loss_and_takeover.md). -/
abbrev NEXT_HOSTING_EPOCH : Nat := 0x202006
/-- 0x2050:01 (spec/09_loss_and_takeover.md). -/
abbrev MEMBER_COUNT : Nat := 0x205001
/-- 0x2050:02 (spec/09_loss_and_takeover.md). -/
abbrev MEMBER_DIGEST : Nat := 0x205002
/-- 0x2050:03 (spec/09_loss_and_takeover.md). -/
abbrev CERT_MAILBOX : Nat := 0x205003
/-- 0x2050:04 (spec/09_loss_and_takeover.md). -/
abbrev MEMB_INSTALL : Nat := 0x205004
/-- 0x2050:05 (spec/09_loss_and_takeover.md). -/
abbrev CERT_REJECT_COUNT : Nat := 0x205005
/-- 0x2050:06 (spec/09_loss_and_takeover.md). -/
abbrev CERT_CONFLICT_COUNT : Nat := 0x205006
/-- 0x2050:07 (spec/09_loss_and_takeover.md). -/
abbrev MEMBER_BITMAPS : Nat := 0x205007
/-- 0x2051:01 (spec/09_loss_and_takeover.md). -/
abbrev BEACON_PERIOD_NS : Nat := 0x205101
/-- 0x2051:02 (spec/09_loss_and_takeover.md). -/
abbrev BEACON_MISS : Nat := 0x205102
/-- 0x2051:03 (spec/09_loss_and_takeover.md). -/
abbrev LOSS_SUSPECT : Nat := 0x205103
/-- 0x2052:01 (spec/09_loss_and_takeover.md). -/
abbrev EXPEL_BUDGET : Nat := 0x205201
/-- 0x2052:02 (spec/09_loss_and_takeover.md). -/
abbrev EXPEL_WINDOW_NS : Nat := 0x205202
/-- 0x2052:03 (spec/09_loss_and_takeover.md). -/
abbrev GROUP_FLOOR : Nat := 0x205203
/-- 0x2052:04 (spec/09_loss_and_takeover.md). -/
abbrev EXPEL_DEFERRED_COUNT : Nat := 0x205204
/-- 0x2053:01 (spec/09_loss_and_takeover.md). -/
abbrev LEASE_TERM_NS : Nat := 0x205301
/-- 0x2053:02 (spec/09_loss_and_takeover.md). -/
abbrev LEASE_GUARD_NS : Nat := 0x205302
/-- 0x2053:03 (spec/09_loss_and_takeover.md). -/
abbrev LEASE_STEP_NS : Nat := 0x205303
/-- 0x2053:04 (spec/09_loss_and_takeover.md). -/
abbrev LEASE_TAKE_COUNT : Nat := 0x205304
/-- 0x2054:01 (spec/09_loss_and_takeover.md). -/
abbrev JOB_MAP_BASE : Nat := 0x205401
/-- 0x2054:02 (spec/09_loss_and_takeover.md). -/
abbrev JOB_MAP_ENTRIES : Nat := 0x205402
/-- 0x2060:01 (spec/09_loss_and_takeover.md). -/
abbrev TAKEOVER_SLOTS : Nat := 0x206001
/-- 0x2060:02 (spec/09_loss_and_takeover.md). -/
abbrev TAKEOVER_SET : Nat := 0x206002
/-- 0x2060:03 (spec/09_loss_and_takeover.md). -/
abbrev TAKEN_SLICES : Nat := 0x206003
/-- 0x2060:04 (spec/09_loss_and_takeover.md). -/
abbrev ABSENT_PAGES : Nat := 0x206004
/-- 0x2060:05 (spec/09_loss_and_takeover.md). -/
abbrev DEGRADED_READ_COUNT : Nat := 0x206005
/-- 0x2060:06 (spec/09_loss_and_takeover.md). -/
abbrev REBUILD_DEPTH : Nat := 0x206006
/-- 0x2060:07 (spec/09_loss_and_takeover.md). -/
abbrev DEGRADED_RETRY_NS : Nat := 0x206007
/-- 0x2060:08 (spec/09_loss_and_takeover.md). -/
abbrev TAKEOVER_WAIT : Nat := 0x206008
/-- 0x2060:09 (spec/09_loss_and_takeover.md). -/
abbrev TAKEOVER_REJECT_COUNT : Nat := 0x206009
/-- 0x2070:01 (spec/09_loss_and_takeover.md). -/
abbrev PROTECTION_STATE : Nat := 0x207001
/-- 0x2070:02 (spec/09_loss_and_takeover.md). -/
abbrev WINDOW_OPEN_EPOCH : Nat := 0x207002
/-- 0x2070:03 (spec/09_loss_and_takeover.md). -/
abbrev WINDOW_LOSSES : Nat := 0x207003
/-- 0x4070:01 (spec/09_loss_and_takeover.md). -/
abbrev RESTRIPE_STAGE : Nat := 0x407001
/-- 0x4070:02 (spec/09_loss_and_takeover.md). -/
abbrev RESTRIPE_STATE : Nat := 0x407002
/-- 0x4070:03 (spec/09_loss_and_takeover.md). -/
abbrev LAYOUT_GEN : Nat := 0x407003
/-- 0x4070:04 (spec/09_loss_and_takeover.md). -/
abbrev PARITY_ALT_BASE : Nat := 0x407004
/-- 0x4070:05 (spec/09_loss_and_takeover.md). -/
abbrev PARITY_ALT_SLOTS : Nat := 0x407005
/-- 0x4070:06 (spec/09_loss_and_takeover.md). -/
abbrev PARITY_ALT_META_BASE : Nat := 0x407006
/-- 0x4070:07 (spec/09_loss_and_takeover.md). -/
abbrev EPOCH_TABLE_BASE : Nat := 0x407007
/-- 0x4070:08 (spec/09_loss_and_takeover.md). -/
abbrev EPOCH_TABLE_ALT_BASE : Nat := 0x407008
/-- 0x6040:01 (spec/09_loss_and_takeover.md). -/
abbrev QUORUM_Q : Nat := 0x604001
/-- 0x6040:02 (spec/09_loss_and_takeover.md). -/
abbrev QUORUM_KEYS : Nat := 0x604002
/-- 0x6040:03 (spec/09_loss_and_takeover.md). -/
abbrev QUORUM_KEY_MASK : Nat := 0x604003
/-- 0x6050:01 (spec/10_plates.md). -/
abbrev PLATE_JOB_KEY : Nat := 0x605001
/-- 0x8010:01 (spec/10_plates.md). -/
abbrev PLATE_ENABLE : Nat := 0x801001
/-- 0x8010:02 (spec/10_plates.md). -/
abbrev PLATE_INTERVAL : Nat := 0x801002
/-- 0x8010:03 (spec/10_plates.md). -/
abbrev PLATE_INTERVAL_ACTIVE : Nat := 0x801003
/-- 0x8010:04 (spec/10_plates.md). -/
abbrev PLATE_STORE_BASE : Nat := 0x801004
/-- 0x8010:05 (spec/10_plates.md). -/
abbrev PLATE_PLACES : Nat := 0x801005
/-- 0x8010:06 (spec/10_plates.md). -/
abbrev PLATE_PLACE_BYTES : Nat := 0x801006
/-- 0x8010:07 (spec/10_plates.md). -/
abbrev PLATE_SHARD_STRIDE : Nat := 0x801007
/-- 0x8010:08 (spec/10_plates.md). -/
abbrev PLATE_SPILL_BASE : Nat := 0x801008
/-- 0x8010:09 (spec/10_plates.md). -/
abbrev PLATE_SPILL_SLOTS : Nat := 0x801009
/-- 0x8010:0A (spec/10_plates.md). -/
abbrev PLATE_SPILL_LOW : Nat := 0x80100A
/-- 0x8010:0B (spec/10_plates.md). -/
abbrev PLATE_STATE : Nat := 0x80100B
/-- 0x8010:0C (spec/10_plates.md). -/
abbrev PLATE_EPOCH : Nat := 0x80100C
/-- 0x8010:0D (spec/10_plates.md). -/
abbrev PLATE_LAST_SEALED : Nat := 0x80100D
/-- 0x8010:0E (spec/10_plates.md). -/
abbrev PLATE_LAST_PLACE : Nat := 0x80100E
/-- 0x8010:0F (spec/10_plates.md). -/
abbrev PLATE_LAST_DIGEST : Nat := 0x80100F
/-- 0x8010:10 (spec/10_plates.md). -/
abbrev PLATE_PINNED_SLOTS : Nat := 0x801010
/-- 0x8010:11 (spec/10_plates.md). -/
abbrev PLATE_EXTENTS_LEFT : Nat := 0x801011
/-- 0x8010:12 (spec/10_plates.md). -/
abbrev PLATE_SPILL_COUNT : Nat := 0x801012
/-- 0x8010:13 (spec/10_plates.md). -/
abbrev PLATE_DRAIN_ERROR_COUNT : Nat := 0x801013
/-- 0x8010:14 (spec/10_plates.md). -/
abbrev PLATE_ABORT_COUNT : Nat := 0x801014
/-- 0x8010:15 (spec/10_plates.md). -/
abbrev PLATE_RETRY_NS : Nat := 0x801015
/-- 0x8020:01 (spec/10_plates.md). -/
abbrev RESTORE_PLACE : Nat := 0x802001
/-- 0x8020:02 (spec/10_plates.md). -/
abbrev RESTORE_RANGES : Nat := 0x802002
/-- 0x8020:03 (spec/10_plates.md). -/
abbrev RESTORE_START : Nat := 0x802003
/-- 0x8020:04 (spec/10_plates.md). -/
abbrev RESTORE_STATE : Nat := 0x802004
/-- 0x8020:05 (spec/10_plates.md). -/
abbrev RESTORE_FAIL : Nat := 0x802005
/-- 0x8020:06 (spec/10_plates.md). -/
abbrev RESTORE_FAIL_SLICE : Nat := 0x802006
/-- 0x8020:07 (spec/10_plates.md). -/
abbrev PLATE_SIGN_REQUIRED : Nat := 0x802007
/-- 0x8020:08 (spec/10_plates.md). -/
abbrev PLATE_RETURN : Nat := 0x802008
/-- 0x1001:00 (spec/11_same_bits.md). -/
abbrev BLOCK_VERSION : Nat := 0x100100
/-- 0x1002:00 (spec/11_same_bits.md). -/
abbrev GENERATION : Nat := 0x100200
/-- 0x1003:00 (spec/11_same_bits.md). -/
abbrev STEPPING : Nat := 0x100300
/-- 0x1004:00 (spec/11_same_bits.md). -/
abbrev GRADE : Nat := 0x100400
/-- 0x1005:00 (spec/11_same_bits.md). -/
abbrev NUMERIC_MODE : Nat := 0x100500
/-- 0x1010:00 (spec/11_same_bits.md). -/
abbrev SETTINGS_FINGERPRINT : Nat := 0x101000
/-- 0x8030:01 (spec/11_same_bits.md). -/
abbrev CHRONO_BASE : Nat := 0x803001
/-- 0x8030:02 (spec/11_same_bits.md). -/
abbrev CHRONO_PAGES : Nat := 0x803002
/-- 0x8030:03 (spec/11_same_bits.md). -/
abbrev CHRONO_HEAD : Nat := 0x803003
/-- 0x8030:04 (spec/11_same_bits.md). -/
abbrev CHRONO_TAIL : Nat := 0x803004
/-- 0x8030:05 (spec/11_same_bits.md). -/
abbrev CHRONO_SEQ : Nat := 0x803005
/-- 0x8030:06 (spec/11_same_bits.md). -/
abbrev CHRONO_DETAIL : Nat := 0x803006
/-- 0x8030:07 (spec/11_same_bits.md). -/
abbrev CHRONO_OVERRUN_COUNT : Nat := 0x803007
/-- 0x8030:08 (spec/11_same_bits.md). -/
abbrev PLAN_DIGEST : Nat := 0x803008
/-- 0x8030:09 (spec/11_same_bits.md). -/
abbrev CONFIG_DIGEST : Nat := 0x803009
/-- 0x6010:01 (spec/12_tiers_and_fabric.md). -/
abbrev JOB_RANGE_BYTES : Nat := 0x601001
/-- 0x6010:02 (spec/12_tiers_and_fabric.md). -/
abbrev SEG_COUNT : Nat := 0x601002
/-- 0x6010:03 (spec/12_tiers_and_fabric.md). -/
abbrev SEG_TABLE : Nat := 0x601003
/-- 0x6010:04 (spec/12_tiers_and_fabric.md). -/
abbrev TIER_MAP_BASE : Nat := 0x601004
/-- 0x6010:05 (spec/12_tiers_and_fabric.md). -/
abbrev TIER_MAP_ENTRIES : Nat := 0x601005
/-- 0x6010:06 (spec/12_tiers_and_fabric.md). -/
abbrev TIER0_POOL_BASE : Nat := 0x601006
/-- 0x6010:07 (spec/12_tiers_and_fabric.md). -/
abbrev TIER0_POOL_PAGES : Nat := 0x601007
/-- 0x6010:08 (spec/12_tiers_and_fabric.md). -/
abbrev TIER1_POOL_BASE : Nat := 0x601008
/-- 0x6010:09 (spec/12_tiers_and_fabric.md). -/
abbrev TIER1_POOL_PAGES : Nat := 0x601009
/-- 0x6010:0A (spec/12_tiers_and_fabric.md). -/
abbrev TIER_QUOTA : Nat := 0x60100A
/-- 0x6010:0B (spec/12_tiers_and_fabric.md). -/
abbrev TIER_USED : Nat := 0x60100B
/-- 0x6010:0C (spec/12_tiers_and_fabric.md). -/
abbrev TIER_FLUSH : Nat := 0x60100C
/-- 0x6010:0D (spec/12_tiers_and_fabric.md). -/
abbrev PROMOTE_COUNT : Nat := 0x60100D
/-- 0x6010:0E (spec/12_tiers_and_fabric.md). -/
abbrev EVICT_COUNT : Nat := 0x60100E
/-- 0x6010:0F (spec/12_tiers_and_fabric.md). -/
abbrev WRITEBACK_BYTES : Nat := 0x60100F
/-- 0x6020:01 (spec/12_tiers_and_fabric.md). -/
abbrev FABRIC_TIMEOUT_NS : Nat := 0x602001
/-- 0x6020:02 (spec/12_tiers_and_fabric.md). -/
abbrev GATEWAY_NODE : Nat := 0x602002
/-- 0x6020:03 (spec/12_tiers_and_fabric.md). -/
abbrev FAR_MAP : Nat := 0x602003
/-- 0x6020:04 (spec/12_tiers_and_fabric.md). -/
abbrev FA_MALFORMED_COUNT : Nat := 0x602004
/-- 0x6020:05 (spec/12_tiers_and_fabric.md). -/
abbrev FA_DESC : Nat := 0x602005
/-- 0x6020:06 (spec/12_tiers_and_fabric.md). -/
abbrev FA_SUBMIT : Nat := 0x602006
/-- 0x6020:07 (spec/12_tiers_and_fabric.md). -/
abbrev FA_RESULT : Nat := 0x602007
/-- 0x6020:08 (spec/12_tiers_and_fabric.md). -/
abbrev FA_RESEND_COUNT : Nat := 0x602008
/-- 0x6020:09 (spec/12_tiers_and_fabric.md). -/
abbrev FA_DUP_EVICT_COUNT : Nat := 0x602009
/-- 0x6030:01 (spec/12_tiers_and_fabric.md). -/
abbrev REGION_TABLE : Nat := 0x603001
/-- 0x6030:02 (spec/12_tiers_and_fabric.md). -/
abbrev REGION_ENTRY : Nat := 0x603002
/-- 0x6030:03 (spec/12_tiers_and_fabric.md). -/
abbrev GATEWAY_KEY : Nat := 0x603003
/-- 0x6030:04 (spec/12_tiers_and_fabric.md). -/
abbrev KEY_FAIL_COUNT : Nat := 0x603004
/-- 0x6060:01 (spec/12_tiers_and_fabric.md). -/
abbrev CLUSTER_NODES : Nat := 0x606001
/-- 0x6060:02 (spec/12_tiers_and_fabric.md). -/
abbrev DIRECTORY_HOLDER : Nat := 0x606002
/-- 0x6060:03 (spec/12_tiers_and_fabric.md). -/
abbrev COH_INVAL_COUNT : Nat := 0x606003
/-- 0x6060:04 (spec/12_tiers_and_fabric.md). -/
abbrev HDR_CHECK_STATE : Nat := 0x606004
/-- 0x6060:05 (spec/12_tiers_and_fabric.md). -/
abbrev HDR_CHECK_FAIL_COUNT : Nat := 0x606005
/-- 0x7010:01 (spec/13_seeing_and_numerics.md). -/
abbrev SEEING : Nat := 0x701001
/-- 0x7010:02 (spec/13_seeing_and_numerics.md). -/
abbrev SEEING_RAW : Nat := 0x701002
/-- 0x7010:03 (spec/13_seeing_and_numerics.md). -/
abbrev SEEING_TERMS : Nat := 0x701003
/-- 0x7010:04 (spec/13_seeing_and_numerics.md). -/
abbrev SEEING_DECAY : Nat := 0x701004
/-- 0x7010:05 (spec/13_seeing_and_numerics.md). -/
abbrev W_LATE : Nat := 0x701005
/-- 0x7010:06 (spec/13_seeing_and_numerics.md). -/
abbrev ECC_CE_UNIT : Nat := 0x701006
/-- 0x7010:07 (spec/13_seeing_and_numerics.md). -/
abbrev W_REPAIR : Nat := 0x701007
/-- 0x7010:08 (spec/13_seeing_and_numerics.md). -/
abbrev W_LINK : Nat := 0x701008
/-- 0x7010:09 (spec/13_seeing_and_numerics.md). -/
abbrev W_THERM : Nat := 0x701009
/-- 0x7010:0A (spec/13_seeing_and_numerics.md). -/
abbrev THERM_MARGIN : Nat := 0x70100A
/-- 0x7010:0B (spec/13_seeing_and_numerics.md). -/
abbrev THERM_OK : Nat := 0x70100B
/-- 0x7010:0C (spec/13_seeing_and_numerics.md). -/
abbrev THERM_STALE_NS : Nat := 0x70100C
/-- 0x7011:01 (spec/13_seeing_and_numerics.md). -/
abbrev LATE_BASE : Nat := 0x701101
/-- 0x7011:02 (spec/13_seeing_and_numerics.md). -/
abbrev SUSPECT_COUNT : Nat := 0x701102
/-- 0x7011:03 (spec/13_seeing_and_numerics.md). -/
abbrev SUSPECT_CLEAR : Nat := 0x701103
/-- 0x7011:04 (spec/13_seeing_and_numerics.md). -/
abbrev SUSPECT_LIST : Nat := 0x701104
/-- 0x7011:05 (spec/13_seeing_and_numerics.md). -/
abbrev WATCH_LIST : Nat := 0x701105
/-- 0x7011:06 (spec/13_seeing_and_numerics.md). -/
abbrev WATCH_CLEAR : Nat := 0x701106
/-- 0x7012:01 (spec/13_seeing_and_numerics.md). -/
abbrev HEALTH_FLAGS : Nat := 0x701201
/-- 0x7012:02 (spec/13_seeing_and_numerics.md). -/
abbrev PEER_FLAGS : Nat := 0x701202
/-- 0x7020:01 (spec/13_seeing_and_numerics.md). -/
abbrev HEALTH_ENABLE : Nat := 0x702001
/-- 0x7020:02 (spec/13_seeing_and_numerics.md). -/
abbrev SEE_PLATE_STEP : Nat := 0x702002
/-- 0x7020:03 (spec/13_seeing_and_numerics.md). -/
abbrev SEE_WIDEN_HI : Nat := 0x702003
/-- 0x7020:04 (spec/13_seeing_and_numerics.md). -/
abbrev SEE_WIDEN_LO : Nat := 0x702004
/-- 0x7020:05 (spec/13_seeing_and_numerics.md). -/
abbrev SEE_WIDEN_HOLD : Nat := 0x702005
/-- 0x7020:06 (spec/13_seeing_and_numerics.md). -/
abbrev SEE_WITHDRAW_HOLD : Nat := 0x702006
/-- 0x7021:01 (spec/13_seeing_and_numerics.md). -/
abbrev GOV_MHZ : Nat := 0x702101
/-- 0x7021:02 (spec/13_seeing_and_numerics.md). -/
abbrev GOV_MIN_MHZ : Nat := 0x702102
/-- 0x7021:03 (spec/13_seeing_and_numerics.md). -/
abbrev GOV_LOWER_NS : Nat := 0x702103
/-- 0x7021:04 (spec/13_seeing_and_numerics.md). -/
abbrev GOV_RAISE_NS : Nat := 0x702104
/-- 0x7021:05 (spec/13_seeing_and_numerics.md). -/
abbrev GOV_HOLD : Nat := 0x702105
/-- 0x7022:01 (spec/13_seeing_and_numerics.md). -/
abbrev PLACE_FACTOR : Nat := 0x702201
/-- 0x7022:02 (spec/13_seeing_and_numerics.md). -/
abbrev PLACE_HOLD : Nat := 0x702202
/-- 0x7022:03 (spec/13_seeing_and_numerics.md). -/
abbrev PLACE_MAX : Nat := 0x702203
/-- 0x7022:04 (spec/13_seeing_and_numerics.md). -/
abbrev PLACE_RETURN_HOLD : Nat := 0x702204
/-- 0x7022:05 (spec/13_seeing_and_numerics.md). -/
abbrev HOLD_LAT : Nat := 0x702205
/-- 0x7030:01 (spec/13_seeing_and_numerics.md). -/
abbrev NUM_TABLE_BASE : Nat := 0x703001
/-- 0x7030:02 (spec/13_seeing_and_numerics.md). -/
abbrev GRAD_LARGE_MARGIN : Nat := 0x703002
/-- 0x7030:03 (spec/13_seeing_and_numerics.md). -/
abbrev GRAD_LARGE_SHARE : Nat := 0x703003
/-- 0x7030:04 (spec/13_seeing_and_numerics.md). -/
abbrev PUB_SAT_SHARE : Nat := 0x703004
/-- 0x7030:05 (spec/13_seeing_and_numerics.md). -/
abbrev NUM_ALARM_LAYER : Nat := 0x703005
/-- 0x7030:06 (spec/13_seeing_and_numerics.md). -/
abbrev NUM_SAMPLE_LOG2 : Nat := 0x703006
/-- 0x7030:07 (spec/13_seeing_and_numerics.md). -/
abbrev REF_STATE : Nat := 0x703007
/-- 0x7030:08 (spec/13_seeing_and_numerics.md). -/
abbrev REF_MISMATCH_COUNT : Nat := 0x703008
/-- 0x7030:09 (spec/13_seeing_and_numerics.md). -/
abbrev REF_CHECKED : Nat := 0x703009
/-- 0x7030:0A (spec/13_seeing_and_numerics.md). -/
abbrev VANISH_COUNT : Nat := 0x70300A
/-- 0x7030:0B (spec/13_seeing_and_numerics.md). -/
abbrev TILE_CE_LIMIT : Nat := 0x70300B
/-- 0x2001:00 (spec/14_dictionary.md). -/
abbrev CORE_STATE : Nat := 0x200100
/-- 0x2002:01 (spec/14_dictionary.md). -/
abbrev UNIT_STATE : Nat := 0x200201
/-- 0x2003:00 (spec/14_dictionary.md). -/
abbrev NODE_ID : Nat := 0x200300
/-- 0x2004:01 (spec/14_dictionary.md). -/
abbrev UNIT_ARM : Nat := 0x200401
/-- 0x2004:02 (spec/14_dictionary.md). -/
abbrev UNIT_DISARM : Nat := 0x200402
/-- 0x2004:03 (spec/14_dictionary.md). -/
abbrev UNIT_CLEAR : Nat := 0x200403
/-- 0x2004:04 (spec/14_dictionary.md). -/
abbrev JOB_STOP : Nat := 0x200404
/-- 0x2004:05 (spec/14_dictionary.md). -/
abbrev MAINT_ENTER : Nat := 0x200405
/-- 0x2013:00 (spec/14_dictionary.md). -/
abbrev CONFIG_EPOCH : Nat := 0x201300
/-- 0x2014:00 (spec/14_dictionary.md). -/
abbrev COMBINER_NODE : Nat := 0x201400
/-- 0x6070:01 (spec/14_dictionary.md). -/
abbrev PRIV_MAP : Nat := 0x607001
/-- 0x9010:01 (spec/14_dictionary.md). -/
abbrev CTRL_FLAGS : Nat := 0x901001
/-- 0x9011:01 (spec/14_dictionary.md). -/
abbrev FLAG_OCC : Nat := 0x901101
/-- 0x9012:01 (spec/14_dictionary.md). -/
abbrev STATE_CONFLICT_COUNT : Nat := 0x901201
/-- 0x9012:02 (spec/14_dictionary.md). -/
abbrev CFG_IGNORED_COUNT : Nat := 0x901202
/-- 0x9012:03 (spec/14_dictionary.md). -/
abbrev KEEPER_REFUSED_COUNT : Nat := 0x901203
/-- 0x9012:04 (spec/14_dictionary.md). -/
abbrev LAST_REFUSED : Nat := 0x901204
/-- 0xB010:01 (spec/14_dictionary.md). -/
abbrev OVERLAY_IMAGE : Nat := 0xB01001
/-- 0xB011:01 (spec/14_dictionary.md). -/
abbrev OVERLAY_BASE : Nat := 0xB01101
/-- 0xB011:02 (spec/14_dictionary.md). -/
abbrev STAGE_BASE : Nat := 0xB01102
/-- 0xB012:00 (spec/14_dictionary.md). -/
abbrev OVERLAY_LOADED : Nat := 0xB01200
/-- 0xB020:01 (spec/14_dictionary.md). -/
abbrev OVERLAY_SWITCH : Nat := 0xB02001
/-- 0xB020:02 (spec/14_dictionary.md). -/
abbrev SWITCH_STATE : Nat := 0xB02002
/-- 0xB020:03 (spec/14_dictionary.md). -/
abbrev SWITCH_ORDER : Nat := 0xB02003
/-- 0xB020:04 (spec/14_dictionary.md). -/
abbrev ACTIVE_OVERLAY : Nat := 0xB02004
/-- 0xB020:05 (spec/14_dictionary.md). -/
abbrev SWITCH_EPOCH : Nat := 0xB02005
/-- 0x2080:01 (spec/15_startup_and_faults.md). -/
abbrev COMMENCE_START : Nat := 0x208001
/-- 0x2080:02 (spec/15_startup_and_faults.md). -/
abbrev COMMENCE_ABANDON : Nat := 0x208002
/-- 0x2080:03 (spec/15_startup_and_faults.md). -/
abbrev COMMENCE_STATE : Nat := 0x208003
/-- 0x2080:04 (spec/15_startup_and_faults.md). -/
abbrev COMMENCE_EPOCH : Nat := 0x208004
/-- 0x2080:05 (spec/15_startup_and_faults.md). -/
abbrev COMMENCE_FAIL : Nat := 0x208005
/-- 0x2080:06 (spec/15_startup_and_faults.md). -/
abbrev COMMENCE_FAIL_NODE : Nat := 0x208006
/-- 0x2080:07 (spec/15_startup_and_faults.md). -/
abbrev COMMENCE_PENDING : Nat := 0x208007
/-- 0x2080:08 (spec/15_startup_and_faults.md). -/
abbrev TURKAI_VERSION : Nat := 0x208008
/-- 0x2080:09 (spec/15_startup_and_faults.md). -/
abbrev COMMENCE_JOB_SEED : Nat := 0x208009
/-- 0x2080:0A (spec/15_startup_and_faults.md). -/
abbrev COMMENCE_DATA_SEED : Nat := 0x20800A
/-- 0x2080:0B (spec/15_startup_and_faults.md). -/
abbrev COMMENCE_FANOUT : Nat := 0x20800B
/-- 0x2080:0C (spec/15_startup_and_faults.md). -/
abbrev COMMENCE_TIMEOUT_NS : Nat := 0x20800C
/-- 0x2080:0D (spec/15_startup_and_faults.md). -/
abbrev COMMENCE_LEAD_NS : Nat := 0x20800D
/-- 0x2080:0E (spec/15_startup_and_faults.md). -/
abbrev COMMENCE_TIME : Nat := 0x20800E
/-- 0x2080:0F (spec/15_startup_and_faults.md). -/
abbrev JOB_VERSION : Nat := 0x20800F
/-- 0x2080:10 (spec/15_startup_and_faults.md). -/
abbrev INIT_PAGES_LEFT : Nat := 0x208010
/-- 0x2081:01 (spec/15_startup_and_faults.md). -/
abbrev JOIN_SNAPSHOT : Nat := 0x208101
/-- 0x9020:01 (spec/15_startup_and_faults.md). -/
abbrev CE_COUNT : Nat := 0x902001
/-- 0x9020:02 (spec/15_startup_and_faults.md). -/
abbrev UE_REPAIRED_COUNT : Nat := 0x902002
/-- 0x9020:03 (spec/15_startup_and_faults.md). -/
abbrev BUSERR_COUNT : Nat := 0x902003
/-- 0x9020:04 (spec/15_startup_and_faults.md). -/
abbrev LAST_UE : Nat := 0x902004
/-- 0x9020:05 (spec/15_startup_and_faults.md). -/
abbrev INIT_FAIL : Nat := 0x902005
/-- 0x9021:01 (spec/15_startup_and_faults.md). -/
abbrev SPARE_BASE : Nat := 0x902101
/-- 0x9021:02 (spec/15_startup_and_faults.md). -/
abbrev SPARE_PAGES : Nat := 0x902102
/-- 0x9021:03 (spec/15_startup_and_faults.md). -/
abbrev RETIRE_LIST : Nat := 0x902103
/-- 0x9021:04 (spec/15_startup_and_faults.md). -/
abbrev RETIRED_COUNT : Nat := 0x902104
/-- 0x9021:05 (spec/15_startup_and_faults.md). -/
abbrev RETIRE_CE_LIMIT : Nat := 0x902105
/-- 0x9021:06 (spec/15_startup_and_faults.md). -/
abbrev SPARE_EXHAUSTED_COUNT : Nat := 0x902106
/-- 0x9030:01 (spec/15_startup_and_faults.md). -/
abbrev SCRUB_RANGE : Nat := 0x903001
/-- 0x9030:02 (spec/15_startup_and_faults.md). -/
abbrev SCRUB_START : Nat := 0x903002
/-- 0x9030:03 (spec/15_startup_and_faults.md). -/
abbrev SCRUB_STATE : Nat := 0x903003
/-- 0x9030:04 (spec/15_startup_and_faults.md). -/
abbrev SCRUB_SUMMARY : Nat := 0x903004
/-- 0x9030:05 (spec/15_startup_and_faults.md). -/
abbrev SCRUB_PAGES_PER_MS : Nat := 0x903005
/-- 0xA010:01 (spec/15_startup_and_faults.md). -/
abbrev CAL_IMAGE : Nat := 0xA01001
/-- 0xA010:02 (spec/15_startup_and_faults.md). -/
abbrev CAL_LOAD : Nat := 0xA01002
/-- 0xA010:03 (spec/15_startup_and_faults.md). -/
abbrev CAL_STATE : Nat := 0xA01003
/-- 0xA010:04 (spec/15_startup_and_faults.md). -/
abbrev CAL_ORIGIN : Nat := 0xA01004
/-- 0xA010:05 (spec/15_startup_and_faults.md). -/
abbrev CAL_SERIAL : Nat := 0xA01005
/-- 0xA010:06 (spec/15_startup_and_faults.md). -/
abbrev TURKAI_MIN : Nat := 0xA01006
/-- 0xA010:07 (spec/15_startup_and_faults.md). -/
abbrev TURKAI_MAX : Nat := 0xA01007
/-- 0xA020:01 (spec/15_startup_and_faults.md). -/
abbrev VF_TABLE : Nat := 0xA02001
/-- 0xA020:02 (spec/15_startup_and_faults.md). -/
abbrev LINK_EQ_HINTS : Nat := 0xA02002
/-- 0x5070:01 (spec/16_data_ports.md). -/
abbrev MSP_RD_BYTES : Nat := 0x507001
/-- 0x5070:02 (spec/16_data_ports.md). -/
abbrev MSP_WR_BYTES : Nat := 0x507002
/-- 0x5070:03 (spec/16_data_ports.md). -/
abbrev MSP_SHORT_BURSTS : Nat := 0x507003
/-- 0x5070:04 (spec/16_data_ports.md). -/
abbrev MSP_UE_COUNT : Nat := 0x507004
/-- 0x5070:05 (spec/16_data_ports.md). -/
abbrev MSP_WR_ERR_COUNT : Nat := 0x507005
/-- 0x5070:06 (spec/16_data_ports.md). -/
abbrev MSP_ECC_RESERVED_COUNT : Nat := 0x507006
/-- 0x5080:01 (spec/16_data_ports.md). -/
abbrev FP_LINK_STATE : Nat := 0x508001
/-- 0x5080:02 (spec/16_data_ports.md). -/
abbrev FP_RETRAIN_COUNT : Nat := 0x508002
/-- 0x5080:03 (spec/16_data_ports.md). -/
abbrev FP_RX_DISCARD_COUNT : Nat := 0x508003
/-- 0x5081:01 (spec/16_data_ports.md). -/
abbrev FP_RX_CREDITS : Nat := 0x508101
/-- 0x5082:01 (spec/16_data_ports.md). -/
abbrev PEER_WINDOW : Nat := 0x508201
/-- 0x5082:02 (spec/16_data_ports.md). -/
abbrev RX_CONTEXTS : Nat := 0x508202
/-- 0x5082:03 (spec/16_data_ports.md). -/
abbrev FP_GAP_NS : Nat := 0x508203
/-- 0x5082:04 (spec/16_data_ports.md). -/
abbrev CREDIT_WAIT_COUNT : Nat := 0x508204
/-- 0x5090:01 (spec/16_data_ports.md). -/
abbrev STEP_PLAN : Nat := 0x509001
/-- 0x5090:02 (spec/16_data_ports.md). -/
abbrev CEP_MALFORMED_COUNT : Nat := 0x509002
/-- 0x5090:03 (spec/16_data_ports.md). -/
abbrev CEP_STALE_COUNT : Nat := 0x509003
/-- 0x5090:04 (spec/16_data_ports.md). -/
abbrev CEP_DUP_COUNT : Nat := 0x509004
/-- 0x5090:05 (spec/16_data_ports.md). -/
abbrev CEP_OUT_STALL_COUNT : Nat := 0x509005
/-- 0x1020:01 (spec/17_control_ports.md). -/
abbrev I3C_STATIC_ADDR : Nat := 0x102001
/-- 0x1020:02 (spec/17_control_ports.md). -/
abbrev I3C_DYN_ADDR : Nat := 0x102002
/-- 0x1020:03 (spec/17_control_ports.md). -/
abbrev MCTP_EID : Nat := 0x102003
/-- 0x1020:04 (spec/17_control_ports.md). -/
abbrev MGMT_PEC_ERR_COUNT : Nat := 0x102004
/-- 0x1020:05 (spec/17_control_ports.md). -/
abbrev MGMT_DROP_COUNT : Nat := 0x102005
/-- 0x1021:00 (spec/17_control_ports.md). -/
abbrev VENDOR_PEN : Nat := 0x102100
/-- 0x1030:01 (spec/17_control_ports.md). -/
abbrev EPHEMERIS_NOW : Nat := 0x103001
/-- 0x1030:02 (spec/17_control_ports.md). -/
abbrev TIME_VALID : Nat := 0x103002
/-- 0x1030:03 (spec/17_control_ports.md). -/
abbrev TIME_STEP_COUNT : Nat := 0x103003
/-- 0x1030:04 (spec/17_control_ports.md). -/
abbrev TIME_BACK_COUNT : Nat := 0x103004
/-- 0x1030:05 (spec/17_control_ports.md). -/
abbrev TIME_INVALID_COUNT : Nat := 0x103005
/-- 0x1040:01 (spec/17_control_ports.md). -/
abbrev EVT_PENDING : Nat := 0x104001
/-- 0x1040:02 (spec/17_control_ports.md). -/
abbrev EVT_ACK : Nat := 0x104002
/-- 0x1040:03 (spec/17_control_ports.md). -/
abbrev EVT_MASK : Nat := 0x104003
/-- 0x1050:01 (spec/17_control_ports.md). -/
abbrev DICT_INBAND_COUNT : Nat := 0x105001
/-- 0x1060:01 (spec/17_control_ports.md). -/
abbrev PM_STATE : Nat := 0x106001
/-- 0xF000:01 (spec/18_fenmal_metering.md). -/
abbrev FM_SNAP_SEQ : Nat := 0xF00001
/-- 0xF000:02 (spec/18_fenmal_metering.md). -/
abbrev FM_VERSION : Nat := 0xF00002
/-- 0xF000:03 (spec/18_fenmal_metering.md). -/
abbrev FM_LEGAL_ID : Nat := 0xF00003
/-- 0xF000:04 (spec/18_fenmal_metering.md). -/
abbrev FM_STATUS : Nat := 0xF00004
/-- 0xF000:05 (spec/18_fenmal_metering.md). -/
abbrev FM_MIRROR_STALE : Nat := 0xF00005
/-- 0xF010:01 (spec/18_fenmal_metering.md). -/
abbrev FM_E_IMPORT : Nat := 0xF01001
/-- 0xF010:02 (spec/18_fenmal_metering.md). -/
abbrev FM_E_EXPORT : Nat := 0xF01002
/-- 0xF010:03 (spec/18_fenmal_metering.md). -/
abbrev FM_V_MEAN : Nat := 0xF01003
/-- 0xF010:04 (spec/18_fenmal_metering.md). -/
abbrev FM_I_MEAN : Nat := 0xF01004
/-- 0xF010:05 (spec/18_fenmal_metering.md). -/
abbrev FM_P_MEAN : Nat := 0xF01005
/-- 0xF010:06 (spec/18_fenmal_metering.md). -/
abbrev FM_SEAL_COUNT : Nat := 0xF01006
/-- 0xF010:07 (spec/18_fenmal_metering.md). -/
abbrev FM_OPERATING_S : Nat := 0xF01007
/-- 0xF010:08 (spec/18_fenmal_metering.md). -/
abbrev FM_LOG_COUNT : Nat := 0xF01008
/-- 0xF020:01 (spec/18_fenmal_metering.md). -/
abbrev FM_E_TENANT : Nat := 0xF02001
/-- 0xF020:11 (spec/18_fenmal_metering.md). -/
abbrev FM_E_UNAPPORTIONED : Nat := 0xF02011
/-- 0xF020:12 (spec/18_fenmal_metering.md). -/
abbrev FM_PERIODS : Nat := 0xF02012
/-- 0xF030:01 (spec/18_fenmal_metering.md). -/
abbrev FM_LOG_TAIL : Nat := 0xF03001
/-- 0xF040:01 (spec/18_fenmal_metering.md). -/
abbrev WORK_REPORTED : Nat := 0xF04001

end Sys2Proof.Machine.O
end

