-- ==== Sys2Proof/Machine/Reduce.lean ====
section
/-! DEFINITION. The canonical reduction's arithmetic (R122 to R125, R138 to R144): node values, the cut into aligned
subtrees, the cover, row-sparse contributions and the online-softmax merge. -/
namespace Sys2Proof.Machine

/-- The value of a node: null (R123), dense (R126), rows of a sparse layer (R139), or attention records (R142). -/
inductive NodeVal where
  | null
  | dense (v : List F32)
  | sparse (rows : List (Nat × List F32))
  | lse (recs : Bytes)
  deriving DecidableEq, Repr

/-- ADD element by element (R122). -/
def addLists : List F32 → List F32 → List F32
  | a :: r, b :: t => Fp.add a b :: addLists r t
  | [], b => b.map fun x => Fp.add Fp.posZero x
  | a, [] => a.map fun x => Fp.add x Fp.posZero

/-- Union of rows, an absent row being +0.0 in every record (R139); rows run in increasing index. -/
def addRows : Nat → List (Nat × List F32) → List (Nat × List F32) → List (Nat × List F32)
  | 0, a, b => a ++ b
  | _, [], b => b.map fun p => (p.1, p.2.map fun x => Fp.add Fp.posZero x)
  | _, a, [] => a.map fun p => (p.1, p.2.map fun x => Fp.add x Fp.posZero)
  | n + 1, (i, x) :: a, (j, y) :: b =>
    if i = j then (i, addLists x y) :: addRows n a b
    else if i < j then (i, x.map fun v => Fp.add v Fp.posZero) :: addRows n a ((j, y) :: b)
    else (j, y.map fun v => Fp.add Fp.posZero v) :: addRows n ((i, x) :: a) b

/-- One attention record (R142). -/
structure LseRec where
  pos : Nat
  head : Nat
  m : F32
  l : F32
  o : List F32
  deriving DecidableEq, Repr

def LseRec.parse (d : Nat) (b : Bytes) : LseRec :=
  { pos := leAt b 0 4, head := leAt b 4 2, m := BitVec.ofNat 32 (leAt b 8 4), l := BitVec.ofNat 32 (leAt b 12 4)
    o := (List.range d).map fun i => BitVec.ofNat 32 (leAt b (16 + 4 * i) 4) }
def LseRec.emit (r : LseRec) : Bytes :=
  leBytes 4 r.pos ++ leBytes 2 r.head ++ leBytes 2 0 ++ leBytes 4 r.m.toNat ++ leBytes 4 r.l.toNat
    ++ r.o.flatMap fun v => leBytes 4 v.toNat

def lseParse (d : Nat) (b : Bytes) : List LseRec := (chunks (16 + 4 * d) b.length b).map (LseRec.parse d)
def lseEmit (l : List LseRec) : Bytes := l.flatMap LseRec.emit

def zipWithF (f : F32 → F32 → F32) : List F32 → List F32 → List F32
  | a :: r, b :: t => f a b :: zipWithF f r t
  | _, _ => []

/-- The merge of two records of one position and head (R143). -/
def lseMerge (a b : LseRec) : LseRec :=
  let m := Fp.max a.m b.m
  if m = Fp.negInf then { a with m := Fp.negInf, l := Fp.posZero, o := a.o.map fun _ => Fp.posZero }
  else
    let wa := Fp.exp2 (Fp.sub a.m m)
    let wb := Fp.exp2 (Fp.sub b.m m)
    { a with m := m, l := Fp.fma a.l wa (Fp.mul b.l wb)
             o := zipWithF (fun x y => Fp.fma x wa (Fp.mul y wb)) a.o b.o }

/-- The (position, head) list of a partial. -/
def lseKeys (l : List LseRec) : List (Nat × Nat) := l.map fun r => (r.pos, r.head)

def lseMergeList : List LseRec → List LseRec → List LseRec
  | a :: r, b :: t => lseMerge a b :: lseMergeList r t
  | _, _ => []

/-- A record of a malformed operation (R143). -/
def LseRec.poison (r : LseRec) : LseRec := { r with m := Fp.canonNaN, l := Fp.canonNaN, o := r.o.map fun _ => Fp.canonNaN }

/-- NORMALISE (R144). -/
def LseRec.normalise (r : LseRec) : LseRec := { r with o := r.o.map fun v => Fp.div v r.l }

/-- The value of a parent from its children's (R122, R123, R139, R143); `d` is the head dimension of an LSE node. Nodes
whose lists differ in (position, head) give a poisoned one, so that the destination's result is (log entry 25). -/
def nodeAdd (d : Nat) : NodeVal → NodeVal → NodeVal
  | .null, .null => .null
  | .null, .dense v => .dense (v.map fun x => Fp.add Fp.posZero x)
  | .dense v, .null => .dense (v.map fun x => Fp.add x Fp.posZero)
  | .dense a, .dense b => .dense (addLists a b)
  | .null, .sparse r => .sparse (addRows (r.length + 1) [] r)
  | .sparse r, .null => .sparse (addRows (r.length + 1) r [])
  | .sparse a, .sparse b => .sparse (addRows (a.length + b.length + 1) a b)
  | .lse a, .lse b =>
    let x := lseParse d a
    let y := lseParse d b
    .lse (lseEmit (if lseKeys x = lseKeys y then lseMergeList x y else x.map LseRec.poison))
  | a, _ => a

/-- The maximal aligned subtrees of `[a, b]`, as (level, index) (R124); fuel bounds the number of nodes. -/
def largestLevel (a b : Nat) : Nat → Nat
  | 0 => 0
  | l + 1 => if a % 2 ^ (l + 1) = 0 ∧ a + 2 ^ (l + 1) - 1 ≤ b then l + 1 else largestLevel a b l

def alignedCut : Nat → Nat → Nat → List (Nat × Nat)
  | 0, _, _ => []
  | fuel + 1, a, b =>
    if b < a then []
    else
      let l := largestLevel a b 16
      (l, a / 2 ^ l) :: alignedCut fuel (a + 2 ^ l) b

/-- Node (ℓ, i) lies inside node (ℓ', i'), or is it. -/
def nodeInside (l i l' i' : Nat) : Bool := decide (l ≤ l') && i / 2 ^ (l' - l) == i'

/-- The value of node (ℓ, i) from the values held, where they cover it (R125). -/
def combineNode (d : Nat) (held : List ((Nat × Nat) × NodeVal)) : Nat → Nat → Option NodeVal
  | 0, i => (held.find? fun p => p.1 == (0, i)).map (·.2)
  | l + 1, i =>
    match held.find? fun p => p.1 == (l + 1, i) with
    | some p => some p.2
    | none =>
      match combineNode d held l (2 * i), combineNode d held l (2 * i + 1) with
      | some a, some b => some (nodeAdd d a b)
      | _, _ => none

/-- Kept rows of one sparse contribution, with the counts dropped and malformed (R138). `idx` are the listed indices. Where a
contribution both exceeds CAPACITY and has an index that does not increase, the rows from that index on count as malformed alone,
and the drop is among the rows before it (DESIGN CHOICE, log entry 57). -/
def keptRows (capacity : Nat) (idx : List Nat) : List Nat × Nat × Nat :=
  let rec go : List Nat → Option Nat → List Nat
    | [], _ => []
    | i :: r, none => i :: go r (some i)
    | i :: r, some p => if p < i then i :: go r (some i) else []
  let good := go idx none
  (good.take capacity, good.length - capacity, idx.length - good.length)

/-- The values of a gradient slice as bytes, padded to whole pages (R126). -/
def sliceBytesOf (v : List F32) : Bytes :=
  let b := v.flatMap fun x => leBytes 4 x.toNat
  b ++ List.replicate (roundUp b.length 65536 - b.length) 0

/-- `e` binary32 values from a gradient slice's bytes (R126). -/
def sliceValues (e : Nat) (b : Bytes) : List F32 := (chunks 4 e b).map fun q => BitVec.ofNat 32 (leNat q)

/-- The pages of a gradient slice of `e` values (R126). -/
def gradPages (e : Nat) : Nat := ceilDiv (4 * e) 65536

/-- The SPARSE layout at a fixed number `n` of row entries (R138, R140): the entries beyond the rows carry the index 0xFFFF_FFFF and
zero values, which fill the payload to `len` bytes of values. -/
def sparseBytes (n len : Nat) (rows : List (Nat × List F32)) : Bytes :=
  let idx := (rows.map fun r => leBytes 4 r.1).flatten ++ (List.replicate (n - rows.length) (leBytes 4 0xFFFFFFFF)).flatten
  let vals := rows.flatMap fun r => r.2.flatMap fun x => leBytes 4 x.toNat
  leBytes 4 n ++ leBytes 4 0 ++ idx ++ List.replicate (roundUp idx.length 8 - idx.length) 0
    ++ vals ++ List.replicate (len - vals.length) 0
/-- The length of a payload of `n` row entries with `len` bytes of values. -/
def sparseLength (n len : Nat) : Nat := 8 + roundUp (4 * n) 8 + len

end Sys2Proof.Machine
end

