-- ==== Sys2Proof/Machine/State.lean ====
section
/-! DEFINITION. The state of the block: plain data, one structure per part of the core, Fenmal beside it, and the queue of
waiting commands. -/
namespace Sys2Proof.Machine

/-- The core states of R361. -/
inductive CoreState where
  | reset | init | idle | joined | running | degraded | occulted | maint
  deriving DecidableEq, Repr

/-- The unit states of R364. -/
inductive UState where
  | disabled | armed | running | draining | faulted
  deriving DecidableEq, Repr

/-- Core and unit states, resets and the control unit's own progress (R361 to R367, R380 to R383, R387). -/
structure Ctl where
  core : CoreState
  /-- The nine units of R363, in order. -/
  units : List UState
  /-- Reset inputs now asserted (R433). -/
  rstK : Bool
  rstT : Bool
  rstC : Bool
  rstM : Bool
  rstF : Bool
  pwr : Bool
  /-- Domains that have left reset (R380); mclk and fclk follow INIT and IDLE. -/
  upK : Bool
  upT : Bool
  upC : Bool
  upM : Bool
  upF : Bool
  /-- Steps of the INIT table completed (R383). -/
  initStep : Nat
  /-- The step epoch named by JOB_STOP (R367). -/
  jobStop : Option Nat
  /-- PLATE_RETURN's discards are still to be done (R276, R364). -/
  discarding : Bool
  /-- Pages still to be initialised for JOB and for CODING (R387). -/
  initJob : Nat
  initCoding : Nat
  /-- Spare tiles still good (R59, R62). -/
  spares : List Nat
  /-- The valid bits of SRAM (R384): the places that hold a word written since INIT cleared every valid bit (log entry 64). -/
  sramValid : List SramPlace
  /-- The model's own: how many free values have been drawn. -/
  draws : Nat
  deriving DecidableEq, Repr

/-- The dictionary's stored values (R348 to R379). A key that is absent has its default. -/
structure Dict where
  /-- Base values of the numeric objects, as written or as the core sets them (R370, log entry 133). -/
  nums : List (Nat × Nat)
  /-- Base values of the DOMAIN objects. -/
  doms : List (Nat × Bytes)
  /-- Values in force that are not the base values: the active overlay's and the merged tables (R370, R373). -/
  forced : List (Nat × Nat)
  forcedDoms : List (Nat × Bytes)
  /-- Overlay slots that hold an image, with its length and CRC-64; the image lies in Tier 0 (R371). -/
  images : List (Nat × Nat × Nat)
  /-- Takeover blocks merged into the tables in force (R234, R373), in the order they were merged. -/
  merged : List Bytes
  deriving DecidableEq, Repr

/-- The register window (R357 to R359). -/
structure Window where
  accAddr : Nat
  accDone : Bool
  accResult : Nat
  mbAddr : Nat
  mbOffset : Nat
  mbLen : Nat
  mbValid : Bool
  mbBusy : Bool
  mbResult : Nat
  mbTotal : Nat
  mbBuf : Memory
  /-- Data of the last control-port response (R436). -/
  rdata : Nat
  deriving DecidableEq, Repr

/-- The staged write that is open, if any (R360): path 0 control port, 1 management bus, 2 in band. -/
structure Staged where
  path : Nat
  key : Nat
  len : Nat
  deriving DecidableEq, Repr

/-- Event outputs and occurrence counters (R368, R439, R440). -/
structure Evts where
  pending : Nat
  meridian : Bool
  occ : List (Nat × Nat)
  deriving DecidableEq, Repr

/-- The captured Ephemeris value (R438). -/
structure Clock where
  captured : Nat
  /-- The port count last captured; below the captured value after a backward step (R438). -/
  port : Nat
  valid : Bool
  deriving DecidableEq, Repr

/-- Slots and the slice map (R36 to R41). A slot in none of the lists is free. -/
structure Slots where
  /-- Live slots: global slice id to slot (R37). -/
  map : List (Nat × Nat)
  /-- Pending slots (R38). -/
  pend : List (Nat × Nat)
  releasing : List Nat
  /-- Slots pinned by a Plate (R258). -/
  pins : List Nat
  /-- Takeover slots that have held a taken slice: the ring may claim them once they are free (log entry 15). -/
  opened : List Nat
  deriving DecidableEq, Repr

/-- An update in progress (R17, R60, R61). -/
structure Upd where
  epoch : Nat
  slot : Nat
  /-- The slot that was live when the update started (R163). -/
  old : Nat
  /-- First pages of the units not yet complete. -/
  todo : List Nat
  /-- Units whose sampled check failed once, with the tile that computed them first (R345). -/
  recheck : List (Nat × Nat)
  /-- Those of them that another retirement has dealt again: their check starts anew (R345). -/
  redeal : List Nat
  /-- Pages whose DELTA has gone to every holder. -/
  sent : List Nat
  deriving DecidableEq, Repr

/-- The progress of one owned slice (R16, R39). -/
structure Prog where
  gsid : Nat
  /-- Last step epoch at which the slice committed or counted as committed (R18). -/
  last : Nat
  /-- Last step epoch whose fence is complete (R192). -/
  fence : Nat
  /-- Reduced gradients held, by step epoch (R125, R401). -/
  grads : List (Nat × List F32)
  /-- The pages of the reduction pool that hold them in Tier 0, by step epoch: number in the pool and CRC-64 (R16, R131). -/
  gradPages : List (Nat × List (Nat × Nat))
  /-- Skip marks by step epoch: the first pages of the null units (R83). -/
  marks : List (Nat × List Nat)
  upd : Option Upd
  /-- Adopted and not yet decided (R205). -/
  undecided : Bool
  deriving DecidableEq, Repr

/-- A contribution taken (R426). -/
structure Contrib where
  replica : Nat
  item : Nat
  epoch : Nat
  slot : Nat
  null : Bool
  /-- Its last read is done (R127). -/
  read : Bool
  deriving DecidableEq, Repr

/-- An attention partial taken (R426). -/
structure LsePart where
  merge : Nat
  chunk : Nat
  qblock : Nat
  epoch : Nat
  slot : Nat
  read : Bool
  deriving DecidableEq, Repr

/-- A node of the reduction: held for a combine, retained, waiting or formed for a bundle (R125, R133, R136, R146). -/
structure Part where
  kind : Nat
  epoch : Nat
  /-- Global slice id; for LSE, merge × 65,536 + query block. -/
  gsid : Nat
  level : Nat
  index : Nat
  val : NodeVal
  /-- Sender of a held partial; destination of one retained or formed here. -/
  peer : Nat
  deriving DecidableEq, Repr

/-- A NORM entry (R130). -/
structure NormEnt where
  epoch : Nat
  gsid : Nat
  key : Nat
  op : Nat
  val : F32
  deriving DecidableEq, Repr

/-- The reduction engine (R122 to R147). -/
structure Red where
  contribs : List Contrib
  lse : List LsePart
  /-- Nodes formed here inside a subtree of the hosting range that is not yet whole (R127). -/
  inner : List Part
  /-- Nodes formed here and not yet sent: they wait for room or for a bundle. -/
  waiting : List Part
  held : List Part
  retained : List Part
  norms : List NormEnt
  roots : List NormEnt
  /-- Step epoch for which NORM entries of every owned slice have been sent. -/
  normSent : Nat
  /-- Merges completed: (epoch, merge, query block). -/
  merged : List (Nat × Nat × Nat)
  /-- NORM entries that this core has sent for the epoch (R129). -/
  ownNorms : List NormEnt
  /-- Cores from which a partial of an owned slice was taken: slice, epoch, node (R134). -/
  sources : List (Nat × Nat × Nat)
  /-- Unreserved pages in use when a request for more was refused: consumption stops until some are freed (R131). -/
  stall : Option Nat
  deriving DecidableEq, Repr

/-- The preconditioner's deliveries for a step epoch (R113 to R118): `which` 0 and 1 are the increments of STAT_L and
STAT_R, 2 and 3 S0 and S1 of STAT_L, 4 and 5 those of STAT_R, 6 the target's S0, 7 and 8 the roots held at the epoch before. -/
structure PcOut where
  entry : Nat
  epoch : Nat
  which : Nat
  vals : List F32
  deriving DecidableEq, Repr

/-- Publishing progress (R99, R100) and release tokens (R22). -/
structure Pub where
  /-- Release tokens present: (layer, epoch). -/
  tokens : List (Nat × Nat)
  /-- Blocks written for the epoch: (layer, block, epoch). -/
  written : List (Nat × Nat × Nat)
  /-- Blocks written under the present configuration epoch and ownership (R100): (layer, block). -/
  standing : List (Nat × Nat)
  /-- Layers whose publish-ready token has been posted: (layer, epoch). -/
  ready : List (Nat × Nat)
  pc : List PcOut
  /-- Preconditioner phases completed: (entry, epoch, phase). -/
  phases : List (Nat × Nat × Nat)
  deriving DecidableEq, Repr

/-- States of an owner's transaction (R194). -/
inductive OwnState where
  | sending | awaitHeld | held | awaitFolded | done
  deriving DecidableEq, Repr

/-- An owner's transaction with one holder (R189 to R194, R206). -/
structure OwnTx where
  holder : Nat
  seq : Nat
  gsid : Nat
  band : Nat
  col : Nat
  row : Nat
  epoch : Nat
  state : OwnState
  count : Nat
  /-- The coded DELTA payloads sent so far, by page. -/
  pages : List (Nat × Bytes)
  due : Nat
  tries : Nat
  stalled : Bool
  /-- Bring-up transaction of an adopted slice (R206). -/
  adopt : Bool
  /-- Sent to a BUILDING holder: no fence counts it (R170). -/
  extra : Bool
  /-- When its last DELTA left (R334). -/
  lastAt : Nat
  /-- Under the staged layout (R246). -/
  alt : Bool
  deriving DecidableEq, Repr

/-- States of a holder's transaction (R195). -/
inductive HoldState where
  | receiving | held | foldWait | folded | discarded
  deriving DecidableEq, Repr

/-- A holder's transaction (R190, R195). -/
structure HoldTx where
  src : Nat
  seq : Nat
  band : Nat
  col : Nat
  row : Nat
  epoch : Nat
  state : HoldState
  count : Nat
  pages : List (Nat × Bytes)
  adopt : Bool
  /-- A COMMIT has arrived. -/
  commit : Bool
  /-- The COMMIT or ABANDON carried ADOPT = 1: the answer goes to the column's owner (R207). -/
  adopted : Bool
  /-- Pending pages with an uncorrectable error (R402). -/
  bad : List Nat
  /-- Under the staged layout (R246). -/
  alt : Bool
  /-- Under the layout before the last switch: its slots are free already (R247). -/
  old : Bool
  deriving DecidableEq, Repr

/-- A standing adoption report (R204). -/
structure Report where
  dst : Nat
  /-- The coding group of the column. -/
  group : Nat
  seq : Nat
  band : Nat
  col : Nat
  row : Nat
  /-- Step epoch that the report is about, and the one that its EPOCH_LO shows: the column epoch for NONE (R183). -/
  epoch : Nat
  shown : Nat
  status : Nat
  due : Nat
  deriving DecidableEq, Repr

/-- A report that a new owner holds for an adopted slice (R205). -/
structure Answer where
  gsid : Nat
  holder : Nat
  row : Nat
  epoch : Nat
  status : Nat
  seq : Nat
  deriving DecidableEq, Repr

/-- The coding unit (R151 to R175, R189 to R210). -/
structure Coding where
  own : List OwnTx
  hold : List HoldTx
  /-- Next send sequence per destination (R189). -/
  nextSeq : List (Nat × Nat)
  /-- Window base per source (R190). -/
  base : List (Nat × Nat)
  /-- Sequences above the base already retired. -/
  retired : List (Nat × Nat)
  reports : List Report
  answers : List Answer
  /-- External entries: entry, state 0 IDLE 1 BUILDING 2 ACTIVE 3 RELEASING (R169). -/
  ext : List (Nat × Nat)
  /-- The last coordinator heard of each group whose row this core may hold: group, node. -/
  extCoord : List (Nat × Nat)
  /-- Announced changes: entry, subtype, Meridian. -/
  extPlan : List (Nat × Nat × Nat)
  /-- Meridian of the build, per entry (e_b). -/
  extBuilt : List (Nat × Nat)
  /-- Meridian at which an entry last became ACTIVE or RELEASING (e_a, e_w). -/
  extAt : List (Nat × Nat)
  /-- Columns copied or based: slot × 32 + column (R170). -/
  based : List Nat
  /-- Base pages received: slot × 32 + column, page, committed step epoch of the base. -/
  basePages : List (Nat × Nat × Nat)
  /-- Base pages sent after a restore: slice, page, holder, row (R275). -/
  basesOut : List (Nat × Nat × Nat × Nat)
  /-- Parity slots that fold nothing above an epoch until a copy leaves: slot, epoch (R170). -/
  frozen : List (Nat × Nat)
  /-- Parity slots whose row has come back and that wait for its copy (R172). -/
  awaiting : List Nat
  /-- The job began from a Plate and this core's own parity slots are not yet complete (R275). -/
  restoring : Bool
  /-- Rows lost with an ACTIVE entry's holder, until the next layout: rotation × 4 + row (R169). -/
  gone : List Nat
  /-- Parity pages damaged: slot × 256 + page (R400); those of the staged layout come 2^24 above. -/
  damaged : List Nat
  /-- Slots whose column record or page epoch table is lost (R400); those of the staged layout come 2^16 above. -/
  lost : List Nat
  /-- ACTIVE RELOCATE entries whose default member is being rebuilt: entry, e_b (R172). -/
  returns : List (Nat × Nat)
  /-- Restripings announced of other groups whose entries this core hosts: group, whether it is the switch, Meridian (R169). -/
  restripes : List (Nat × Bool × Nat)
  deriving DecidableEq, Repr

/-- One direction of peer credit towards a destination and channel (R420). -/
structure PeerTx where
  node : Nat
  vc : Nat
  next : Nat
  limit : Nat
  /-- The LIMIT before the last one adopted, and the captured value of that adoption: a start in its cclk is tested against it (R423). -/
  oldLimit : Nat
  since : Nat
  /-- Void until a CREDIT answers a REQUEST (R228). -/
  void : Bool
  asked : Bool
  due : Nat
  /-- When the last flit left for the node. -/
  last : Nat
  deriving DecidableEq, Repr

/-- The receiving side for a source and channel (R421). -/
structure PeerRx where
  node : Nat
  vc : Nat
  base : Nat
  /-- Sequences at or above the base already completed. -/
  done : List Nat
  deriving DecidableEq, Repr

/-- A packet being received (R416, R421, R422). -/
structure OpenRx where
  port : Nat
  vc : Nat
  kind : Nat
  len : Nat
  pseq : Nat
  bytes : Bytes
  flits : Nat
  since : Nat
  /-- A flit of it came with no link credit outstanding: it is discarded at its eop. -/
  bad : Bool
  deriving DecidableEq, Repr

/-- A packet being sent: its first flit has left on the port (R419). `next` is the number of its next flit. -/
structure Sending where
  port : Nat
  vc : Nat
  pkt : Pkt
  pseq : Nat
  next : Nat
  deriving DecidableEq, Repr

/-- What a port drives at a flit slot in which it sends: the signals fpn_tx_* of R415. -/
structure TxFlit where
  bytes : Bytes
  vc : Nat
  sop : Bool
  eop : Bool
  len : Nat
  kind : Nat
  dst : Nat
  pseq : Nat
  deriving DecidableEq, Repr

/-- The fabric ports (R415 to R423). -/
structure Ports where
  up0 : Bool
  up1 : Bool
  /-- Link credit to send, by port × 8 + channel (R417). -/
  txCredit : List (Nat × Nat)
  /-- Link credit granted and not used, by port × 8 + channel. -/
  rxCredit : List (Nat × Nat)
  /-- Flits taken from the receive buffer whose credit is withheld, by port × 8 + channel (R131, R417, R422). -/
  kept : List (Nat × Nat)
  /-- Credits given out on fpn_rx_cr_* since the link came up, by port × 8 + channel. -/
  crOut : List (Nat × Nat)
  /-- Packets waiting to be sent, oldest first. -/
  queue : List Pkt
  /-- Packets begun and not yet whole, at most one of a port and channel (R149). -/
  sending : List Sending
  /-- Packets that the core sends to itself. -/
  loop : List Pkt
  /-- The packet whose last flit left last, with its port and PSEQ. -/
  sent : Option (Pkt × Nat × Nat)
  /-- The flit that each port sends at its last flit slot, if any. -/
  out0 : Option TxFlit
  out1 : Option TxFlit
  tx : List PeerTx
  rx : List PeerRx
  /-- When a flit other than a REQUEST last came from a node, or the pair became co-members (R228, R421). -/
  heardAt : List (Nat × Nat)
  opened : List OpenRx
  /-- Channels of the last 256 flits of each port, newest first; 8 marks an idle slot. -/
  recent0 : List Nat
  recent1 : List Nat
  /-- Deficits by port × 8 + channel, and the round-robin pointers (R149). -/
  deficit : List (Nat × Int)
  ptr0 : Nat
  ptr1 : Nat
  deriving DecidableEq, Repr

/-- A stored in-band response (R445). -/
structure Stored where
  src : Nat
  reqId : Nat
  response : Bytes
  due : Nat
  deriving DecidableEq, Repr

/-- An in-band request that awaits its response (R375, R376, R445). -/
structure Asked where
  dst : Nat
  reqId : Nat
  body : Bytes
  due : Nat
  tries : Nat
  deriving DecidableEq, Repr

/-- The management bus and the in-band path (R441 to R445). -/
structure Mgmt where
  /-- Target events enabled (ENEC, DISEC). -/
  events : Bool
  mwl : Nat
  mrl : Nat
  /-- The static address in effect: I3C_STATIC_ADDR as of the last RSTDAA. -/
  staticAddr : Nat
  /-- Provisional id, bus and device characteristics: inputs and fused values. -/
  pid : Nat
  bcr : Nat
  dcr : Nat
  /-- The last I3C read data, and whether the last command code was acknowledged. -/
  i3cOut : Bytes
  i3cAck : Bool
  /-- The message being assembled: source, tag and bytes so far. -/
  asm : Option (Nat × Nat × Nat × Bytes)
  /-- Responses pending on the bus: destination endpoint and message. -/
  out : List (Nat × Bytes)
  stored : List Stored
  asked : List Asked
  nextReq : Nat
  deriving DecidableEq, Repr

/-- The power-management interface (R434). -/
structure Pm where
  vReq : Bool
  vMv : Nat
  fReq : Bool
  fMhz : Nat
  vAck : Bool
  fAck : Bool
  /-- Target point of the move in progress: MHz, mV. -/
  target : Option (Nat × Nat)
  raising : Bool
  deriving DecidableEq, Repr

/-- A repair that a scan has asked for (R400, R401): of a live page, a pending page, a parity page, or a parity slot. -/
inductive Repair where
  | live (gsid page : Nat)
  | pending (gsid page : Nat)
  | parity (slot page : Nat)
  | slot (slot : Nat)
  deriving DecidableEq, Repr

/-- A scan (R406, R407). -/
structure Scan where
  addr : Nat
  stop : Nat
  start : Nat
  pages : Nat
  sectors : Nat
  fixed : Nat
  buserr : Nat
  retired : Nat
  firstBad : Option Nat
  /-- Repairs that the scan waits for, with the page of Tier 0 that has the error. -/
  waits : List (Repair × Nat)
  deriving DecidableEq, Repr

/-- Memory errors, retirement and the scrubber (R400 to R407, R414). -/
structure Errs where
  /-- Pages that corrected most recently with their counts, newest first, at most 1,024 (R405). -/
  recent : List (Nat × Nat)
  /-- Retired pages: page number, spare index. -/
  retired : List (Nat × Nat)
  /-- Copies in progress: page number, spare index. -/
  copying : List (Nat × Nat)
  /-- Pages of Tier 0 with an uncorrectable error not yet handled. -/
  bad : List Nat
  /-- The same of Tier 1. -/
  bad1 : List Nat
  scan : Option Scan
  deriving DecidableEq, Repr

/-- Membership (R211 to R225). -/
structure Memb where
  /-- Member and draining node ids, in increasing order: the set bits of the two bitmaps (R211). -/
  members : List Nat
  draining : List Nat
  /-- Certificates adopted, oldest first, at most 16 (R216). -/
  history : List Bytes
  /-- A LEAVE or JOIN adopted and not yet in effect. -/
  pending : Option Bytes
  /-- Certificates held for a later epoch, at most four; `installed` ones are forwarded when adopted (R218). -/
  held : List (Bytes × Bool)
  /-- Suspected members (R220). -/
  suspects : List Nat
  /-- Deadline of each watched peer's silence (R220): node, time. -/
  heard : List (Nat × Nat)
  beaconDue : Nat
  /-- Last MEMB_PULL sent per source (R218). -/
  pulled : List (Nat × Nat)
  /-- OCCULTs being resent: node, ARGS, payload, resends done, due (R224). -/
  occults : List (Nat × Nat × Bytes × Nat × Nat)
  /-- The certificate held until the time is valid (R397). -/
  waitTime : Option (Bytes × Bool)
  /-- The path on which the result of the MEMB_INSTALL that brought it is awaited, and whether a mailbox carries it (R367). -/
  waitVia : Option (Via × Bool)
  /-- Nodes removed by an adopted LOSS or EXPEL (R180, R219). -/
  removed : List Nat
  /-- Nodes added by a JOIN, which were formed with no shard of the job (R250). -/
  joined : List Nat
  deriving DecidableEq, Repr

/-- A timed lease as this core sees it (R226, R227): kind 0 COORD, 1 DIRECTORY. -/
structure Lease where
  kind : Nat
  id : Nat
  gen : Nat
  holder : Nat
  /-- The holder before, whose successor order ranks two takers of one generation. -/
  prev : Nat
  expiry : Nat
  /-- The value from which this core may act, when it is the holder. -/
  actFrom : Nat
  acting : Bool
  deriving DecidableEq, Repr

/-- A page being rebuilt (R241): its fragments held, and the indices skipped or asked. -/
structure Rebuild where
  gsid : Nat
  page : Nat
  band : Nat
  col : Nat
  /-- REQ_ID of each outstanding request: id, parity, index, node, due, resends. -/
  asked : List (Nat × Bool × Nat × Nat × Nat × Nat)
  /-- Fragments held: parity, index, head and bytes. -/
  frags : List (Bool × Nat × Bytes)
  skipped : List (Bool × Nat)
  /-- When lagging parity fragments are asked for again. -/
  retry : Option Nat
  /-- Asked for by a reader, not by the background order (R243). -/
  urgent : Bool
  /-- Direct copy from a draining owner (R249). -/
  direct : Bool
  /-- Repair of an own live page (0), an absent page (1), a parity page (2) (R400), or the old bits of a page for a holder
  brought up (3) (R206). -/
  why : Nat
  deriving DecidableEq, Repr

/-- Takeover, rebuild and restriping (R231 to R252). -/
structure Take where
  /-- This core's coded sequence, as global slice ids (R231, R245). -/
  owned : List Nat
  /-- Coded sequences of the members at the last layout switch: node, global slice ids (R245); none before the first. -/
  seqs : List (Nat × List Nat)
  /-- Owners recorded for slices of other shards after a takeover: global slice id, node. -/
  owners : List (Nat × Nat)
  /-- The departed core from which this core took a slice (R166). -/
  takenFrom : List (Nat × Nat)
  /-- Slices taken with no free takeover slot (R232). -/
  unmapped : List Nat
  /-- SHARD_PAGES and FIRST_INDEX of taken shards (R233): shard, pages, first index. -/
  shards : List (Nat × Nat × Nat)
  /-- Taken slices whose shard's block of the epoch of their adoption is not merged (R233). -/
  unmerged : List Nat
  /-- Pages ABSENT: gsid × 256 + page (R232). -/
  absent : List Nat
  rebuilds : List Rebuild
  /-- Pages that a path of the core waits for: gsid × 256 + page, and the unit (R48, R243, R404). -/
  wanted : List (Nat × Nat)
  nextReq : Nat
  /-- Slices received from a draining core: global slice id, that core (R249). -/
  given : List (Nat × Nat)
  /-- Slices given up by a draining core, still answered from their slots (R249): gsid, slot. -/
  frozen : List (Nat × Nat)
  /-- Pages that were ABSENT in a slice given up, as it was given up (R48, R240): gsid × 256 + page. -/
  frozenAbsent : List Nat
  /-- RETAIN TAKEs being resent: gsid, generation, epoch, due (R236). -/
  retainTakes : List (Nat × Nat × Nat × Nat)
  /-- Generations of RETAIN leases: gsid, generation. -/
  retainGen : List (Nat × Nat)
  /-- Reports standing at this core: group, word, due (R230). -/
  reports : List (Nat × Nat × Nat)
  /-- Reports held as coordinator: node, word. -/
  got : List (Nat × Nat)
  /-- Announcements resent as coordinator: GRANT ARGS, epoch named, destinations, due (R188). -/
  announces : List (Nat × Nat × List Nat × Nat)
  /-- Restriping: TAG, e_r announced, e_s announced. -/
  buildAt : Option (Nat × Nat)
  switchAt : Option (Nat × Nat)
  building : Bool
  /-- Columns of the new layout based: slot × 32 + column, and pages received. -/
  altBased : List Nat
  altPages : List (Nat × Nat × Nat)
  /-- Parity count in force when the window opened (R251). -/
  windowM : Nat
  deriving DecidableEq, Repr

/-- An extent of a Plate (R259, R264): a slice of the cut, and the slot or spill slot that holds it. -/
structure Extent where
  gsid : Nat
  slot : Nat
  spilled : Bool
  /-- Its writes have been issued; one of them has been answered with an error. -/
  started : Bool
  failed : Bool
  done : Bool
  /-- Consecutive errors. -/
  errors : Nat
  retry : Option Nat
  /-- Slice root (R263), formed as the pages leave. -/
  root : Bytes
  deriving DecidableEq, Repr

/-- A restore in progress (R272 to R274). -/
structure Restore where
  place : Nat
  /-- Global slice ids in list order, and those still to be read. -/
  slices : List Nat
  left : List Nat
  /-- 0 manifest header, 1 manifest, 2 root blocks, 3 tag block of a slice, 4 its pages. -/
  phase : Nat
  manifest : Bytes
  /-- Root blocks by shard. -/
  roots : List (Nat × Bytes)
  /-- Tag block of the slice being read. -/
  tags : Bytes
  /-- Bulk reads outstanding: place offset, length, retries. -/
  reads : List (Nat × Nat × Nat)
  /-- Data read: place offset, bytes. -/
  data : List (Nat × Bytes)
  deriving DecidableEq, Repr

/-- Plates (R254 to R276). -/
structure Plate where
  /-- The cut kept by a member: epoch, place, coordinator (R256). -/
  cut : Option (Nat × Nat × Nat)
  frozen : Bool
  extents : List Extent
  /-- Next DRAINED resend. -/
  drainedDue : Option Nat
  /-- As coordinator: the cut and its place, waiting for the manifest's zeroing. -/
  zeroing : Option (Nat × Nat)
  announced : Option (Nat × Nat)
  acks : List Nat
  cutDue : Nat
  /-- Members at the release of e_p, with configuration and digests of that release (R267, R268). -/
  membersAt : List Nat
  headerAt : Bytes
  drained : List (Nat × Nat × Nat × Bytes)
  manifest : Option Bytes
  /-- ABORTs being resent: epoch, place, resends, due. -/
  aborts : List (Nat × Nat × Nat × Nat)
  /-- Step epoch at which the job commenced (R254). -/
  start : Nat
  /-- Spill slots in use. -/
  spills : List Nat
  /-- Cuts already decided by SEALED or ABORT: epoch. -/
  decided : List Nat
  /-- A Plate has been sealed since the job commenced (R254). -/
  sealed_ : Bool
  /-- This core became combiner by an adoption that removed a member: a cut that it takes over is aborted (R271). -/
  inherited : Bool
  /-- The cut that this core leads was frozen before it was a member: it has no part of its own in it (R256, R267). -/
  foreign : Bool
  restore : Option Restore
  deriving DecidableEq, Repr

/-- An audit-log entry of Fenmal (R453). -/
structure FmEntry where
  seq : Nat
  sealCount : Nat
  event : Nat
  count : Nat
  imported : Nat
  seconds : Nat
  deriving DecidableEq, Repr

/-- Fenmal's non-volatile registers (R449, R452, R460). -/
structure FmRegs where
  vOffset : Int
  vGain : Int
  iOffset : Int
  iGain : Int
  imported : Nat
  exported : Nat
  /-- Residues below 1 µJ of each direction, in units of the sample product. -/
  restImport : Nat
  restExport : Nat
  sealCount : Nat
  seconds : Nat
  snapSeq : Nat
  tenants : List Nat
  unapportioned : Nat
  periods : Nat
  /-- E_IMPORT at the close of the last period. -/
  periodStart : Nat
  deriving DecidableEq, Repr

/-- Fenmal (R448 to R462): its legally relevant part, and the separated part's inputs. -/
structure Fenmal where
  powered : Bool
  regs : FmRegs
  /-- Registers saved in the non-volatile store. -/
  saved : FmRegs
  log : List FmEntry
  nextSeq : Nat
  /-- Highest entry read since the last clear: entries read. -/
  readEntries : List Nat
  status : Nat
  sealOpen : Bool
  /-- Sample pairs since the last snapshot, with sums for the means. -/
  pairs : Nat
  sumV : Int
  sumI : Int
  sumP : Int
  snaps : Nat
  snapshot : List Nat
  /-- Work units reported in the period, per tenant (R460). -/
  work : List Nat
  /-- The codes of the last sample pair, and the bitstreams held at one level (R451). -/
  lastV : Int
  lastI : Int
  stuckV : Bool
  stuckI : Bool
  /-- Sample pairs of the present operating second. -/
  subPairs : Nat
  /-- Response of the last service command. -/
  response : Bytes
  ack : Bool
  deriving DecidableEq, Repr

/-- Why the core has a fabric request outstanding (R311, R321). -/
inductive FaWhy where
  /-- Bulk write of an extent of a cut (R264): step epoch of the cut, slice. -/
  | extent (epoch gsid : Nat)
  /-- Zeroing of a manifest header (R255). -/
  | manifestZero
  /-- The manifest itself (R267). -/
  | manifest
  /-- Bulk read of a restore at a place offset (R273). -/
  | restore (offset : Nat)
  /-- FA_SUBMIT (R321). -/
  | submit
  /-- CHECK_PUT (R322). -/
  | check
  /-- The directory's forward of a line operation, by its number (R316). -/
  | forward (op : Nat)
  /-- INVAL of a sharer for a line operation, or for an entry that is replaced (R316). -/
  | inval (op : Option Nat)
  /-- Page moves of the tier manager: the page-map entry (R303, R304). -/
  | tier (entry : Nat)
  /-- The next run in Tier 2 of a request being performed, by its number (R303). -/
  | job (id : Nat)
  deriving DecidableEq, Repr

/-- An outstanding fabric request (R311). -/
structure FaReq where
  tag : Nat
  dst : Nat
  vc : Nat
  header : Nat
  payload : Bytes
  why : FaWhy
  due : Nat
  tries : Nat
  lastSend : Nat
  /-- The fill may not enter the line cache (R316, R317). -/
  noCache : Bool
  deriving DecidableEq, Repr

/-- A page of a migratable segment that is away from its home or busy (R302 to R305). -/
structure TierPage where
  /-- Page-map entry number. -/
  entry : Nat
  seg : Nat
  page : Nat
  tier : Nat
  frame : Nat
  dirty : Bool
  busy : Bool
  ref : Bool
  /-- What ends when BUSY clears: 0 promotion, 1 eviction, 2 write-back, 3 in-place access. -/
  move : Nat
  /-- Target tier of a promotion, and its frame once one is free. -/
  toTier : Nat
  toFrame : Option Nat
  /-- Requests that wait, by number, in arrival order (R305). -/
  waiting : List Nat
  deriving DecidableEq, Repr

/-- A request that the target has accepted and not yet performed whole: runs still to do, data read or old value, and the
line operation for which it is done where this core is directory and home. -/
structure FaJob where
  id : Nat
  req : Pkt
  left : List (Nat × Nat)
  data : Bytes
  forOp : Option Nat
  deriving DecidableEq, Repr

/-- A line operation at the directory holder (R316). -/
structure LineOp where
  num : Nat
  home : Nat
  line : Nat
  req : Pkt
  /-- Sharers whose INVAL response is awaited. -/
  acks : List Nat
  started : Bool
  /-- The line has been forwarded to its home. -/
  sent : Bool
  data : Bytes
  deriving DecidableEq, Repr

/-- Tiers, fabric access and coherence (R299 to R322). -/
structure Fabric where
  reqs : List FaReq
  /-- The descriptor of the submission outstanding, as FA_SUBMIT took it from FA_DESC, and whether it is coherent (R316, R321). -/
  desc : Bytes
  descCoh : Bool
  /-- Tags given up and their last send (R311). -/
  restTags : List (Nat × Nat)
  nextTag : Nat
  /-- Completed atomics: ORIGIN, TAG, response header, due (R312). -/
  atomics : List (Nat × Nat × Nat × Nat)
  pages : List TierPage
  jobs : List FaJob
  nextJob : Nat
  /-- Eviction clock: tenant × 4 + tier to the frame where it last stopped (R304). -/
  hands : List (Nat × Nat)
  flushing : Bool
  /-- Line cache: home × 2^46 + offset to the 64 bytes (R316). -/
  lines : List (Nat × Bytes)
  /-- Directory, oldest registration first: line key and sharers. -/
  directory : List (Nat × List Nat)
  ops : List LineOp
  nextOp : Nat
  /-- Header-check entries held: epoch, node, H (R322). -/
  checks : List (Nat × Nat × Bytes)
  /-- Header check in MINORITY: the core sends no further ARRIVE. -/
  minority : Bool
  /-- DIRECTORY holder this core sends coherent requests to. -/
  holder : Nat
  deriving DecidableEq, Repr

/-- The Meridian (R198 to R200) and the overlay switch (R374 to R378). -/
structure Merid where
  /-- RELEASE kept: step epoch and value. -/
  release : Option (Nat × Nat)
  /-- ARRIVE sent: step epoch and membership epoch. -/
  arrived : Option (Nat × Nat)
  /-- As combiner: ARRIVEs held (node, epoch). -/
  arrivals : List (Nat × Nat)
  /-- The captured value at which the last of them was accepted, and how many were accepted in that cclk (R325). -/
  tied : Option (Nat × Nat)
  /-- As combiner: last RELEASE sent, its epoch and value. -/
  sent : Nat × Nat
  /-- The membership has changed since, within that step: its ARRIVEs are counted anew, and RELEASE goes out again (R198). -/
  again : Bool
  /-- R of the last release at this core. -/
  last : Nat
  /-- Pending order: OVERLAY, e_s, the combiner from which it came, and whether a new combiner has answered. -/
  order : Option (Nat × Nat × Nat)
  orderHolder : List Nat
  /-- As combiner: order ACTION, OVERLAY, e_s; members that answered OK; due. -/
  switching : Option (Nat × Nat × Nat)
  /-- The orders have been sent. -/
  ordersOut : Bool
  answered : List Nat
  refused : Bool
  orderDue : Nat
  deriving DecidableEq, Repr

/-- Commencement (R388 to R398). -/
structure Comm where
  cert : Bytes
  block : Bytes
  /-- SRC of the COMMENCE (a core outside the tree acks to it). -/
  sender : Nat
  placed : Bool
  /-- Children's acks: node, status, count, fail count, fail node. -/
  acks : List (Nat × Nat × Nat × Nat × Nat)
  groupAsked : List Nat
  /-- GROUP acks held: NEW_EPOCH, source and digest; one of a later epoch waits for its COMMENCE. -/
  groupAcks : List (Nat × Nat × Bytes)
  /-- Sources already answered after the TREE ack. -/
  groupAnswered : List Nat
  outcome : Option Nat
  sentTree : Bool
  resendDue : Nat
  groupDue : Nat
  treeDue : Nat
  timeoutAt : Option Nat
  /-- Start RELEASE kept: START_STEP and C. -/
  start : Option (Nat × Nat)
  /-- As root: C sent, resend due, and members whose ARRIVE for START_STEP + 1 is held. -/
  rootC : Option Nat
  startDue : Nat
  arrived : List Nat
  /-- COMMENCE_ABANDON has closed this epoch and those below (R396). -/
  closed : Nat
  deriving DecidableEq, Repr

/-- Fenmal's work interface and mirror, core side (R456 to R459). -/
structure Work where
  /-- Accumulators per tenant (R458). -/
  acc : List Nat
  /-- Report in flight: tenant, units. -/
  flight : Option (Nat × Nat)
  nextTenant : Nat
  req : Bool
  /-- Time of the last installation of a new FM_SNAP_SEQ. -/
  installed : Nat
  /-- Words read so far in a readout. -/
  reading : List Nat
  deriving DecidableEq, Repr

/-- A record of the Chronograph that the core's own buffer holds until Tier 0 can take it (R289): its digests of the slices named
in `holes` are still to be formed, each to be laid over the body at an offset, in a number of bytes. -/
structure ChronoRec where
  typ : Nat
  step : Nat
  seq : Nat
  body : Bytes
  /-- Slice, offset in the body, length. -/
  holes : List (Nat × Nat × Nat)
  deriving DecidableEq, Repr

/-- The Chronograph's inputs beside its objects (R288 to R297). -/
structure Chrono where
  /-- Origin of the job: e_p and BODY_DIGEST of the Plate restored, if any. -/
  origin : Option (Nat × Bytes)
  /-- XOR of contribution terms: epoch, replica, value (R293). -/
  terms : List (Nat × Nat × Nat)
  /-- Rows dropped under R138: epoch, replica, count. -/
  drops : List (Nat × Nat × Nat)
  /-- FLAGS of the slices of the epoch in progress (R295). -/
  flags : List (Nat × Nat)
  /-- Records that wait to be written, oldest first. -/
  buffer : List ChronoRec
  deriving DecidableEq, Repr

/-- One entry of the health ring (R323, R347). -/
structure HealthRow where
  ce : Nat
  rp : Nat
  lk : Nat
  /-- Corrected SRAM errors per tile. -/
  tiles : List (Nat × Nat)
  deriving DecidableEq, Repr

/-- Published values of a layer at the step epoch in progress (R341). -/
structure PubCount where
  values : Nat
  zero : Nat
  sat : Nat
  nonfinite : Nat
  deriving DecidableEq, Repr

/-- The health unit (R323 to R347). -/
structure Health where
  /-- The last 64 releases, newest first, and the counts since the last. -/
  ring : List HealthRow
  now : HealthRow
  /-- SUSPECT members at the combiner (R326). -/
  suspects : List Nat
  /-- WATCH markings, oldest first: node and step epoch (R327). -/
  watch : List (Nat × Nat)
  /-- When THERM_MARGIN was last written, and whether the margin is stale (R324). -/
  thermAt : Nat
  thermStale : Bool
  /-- Consecutive releases at or above SEE_WIDEN_HI, at or below SEE_WIDEN_LO (R332, R333). -/
  high : Nat
  low : Nat
  /-- HOLD_LAT of the ranks with samples (R334). -/
  lat : List (Nat × Nat)
  /-- Samples of the step: rank and latency. -/
  samples : List (Nat × Nat)
  /-- Consecutive releases congested, and at or below the median, by rank (R334, R335). -/
  congested : List (Nat × Nat)
  calm : List (Nat × Nat)
  /-- The combiner shifts no history at the next release: it has adopted an epoch in the step, or is new (R325). -/
  skipLate : Bool
  govCount : Nat
  /-- HEALTH_FLAGS bits whose condition held in the step (R339). -/
  seen : Nat
  /-- Eligible flit slots by channel, D_c (R337). -/
  slots : List (Nat × Nat)
  /-- A(e): the step epoch and captured value of its first ARRIVE (R338). -/
  arriveAt : Option (Nat × Nat)
  /-- LARGE_CODE by layer (R342). -/
  large : List (Nat × Nat)
  pubs : List (Nat × PubCount)
  /-- R_SAMPLED and R_VANISHED of the step by layer (R341, R346). -/
  sampled : List (Nat × Nat × Nat)
  /-- NUM_SAMPLE_LOG2 as the last release took it, where HEALTH_ENABLE let the reference path sample (R344). -/
  sampling : Option Nat
  deriving DecidableEq, Repr

/-- Compute event port, outbound side (R424, R427). -/
structure Cep where
  /-- The queue of 256 tokens that go to the host, oldest first. -/
  out : List Nat
  /-- Tokens of units that wait for room in it: unit (9 the control unit), token. -/
  held : List (Nat × Nat)
  deriving DecidableEq, Repr

/-- Test access (R446, R447): the repair shadow (the rows that spare rows replace, failed tiles, failed columns) and the last data
shifted out. -/
structure Test where
  rows : List (SramPlace × Nat)
  tiles : List Nat
  cols : List Nat
  out : Bytes
  deriving DecidableEq, Repr

/-- The core. -/
structure Alesh where
  ctl : Ctl
  dict : Dict
  win : Window
  staged : Option Staged
  evts : Evts
  clock : Clock
  slots : Slots
  progs : List Prog
  red : Red
  pub : Pub
  coding : Coding
  ports : Ports
  mgmt : Mgmt
  pm : Pm
  errs : Errs
  memb : Memb
  leases : List Lease
  take : Take
  plate : Plate
  fabric : Fabric
  merid : Merid
  comm : Comm
  work : Work
  chrono : Chrono
  health : Health
  cep : Cep
  test : Test
  /-- Tier 0 (R29). -/
  mem0 : Memory
  /-- The tier window (R410). -/
  mem1 : Memory
  deriving DecidableEq, Repr

/-- The whole block: a core, its module's Fenmal, and the queue of waiting commands, first in first out. -/
structure State where
  alesh : Alesh
  fenmal : Fenmal
  pending : List Instr
  deriving DecidableEq, Repr

/-- Why a command ends the run. There is no such reason: the spec gives every command an effect in every state. -/
inductive Fault where
  deriving DecidableEq, Repr

/-- Why a command is refused. -/
inductive Refusal where
  /-- The command has no meaning in this model yet. Raised by Dispatch alone; safe. -/
  | notModelled (mnemonic : String)
  deriving DecidableEq, Repr

/-- Reset values of the parts. -/
def FmRegs.zero : FmRegs :=
  { vOffset := 0, vGain := 0, iOffset := 0, iGain := 0, imported := 0, exported := 0, restImport := 0, restExport := 0
    sealCount := 0, seconds := 0, snapSeq := 0, tenants := List.replicate 16 0, unapportioned := 0, periods := 0
    periodStart := 0 }

def Fenmal.reset : Fenmal :=
  { powered := true, regs := FmRegs.zero, saved := FmRegs.zero, log := [], nextSeq := 0, readEntries := [], status := 0
    sealOpen := false, pairs := 0, sumV := 0, sumI := 0, sumP := 0, snaps := 0, snapshot := List.replicate 96 0
    work := List.replicate 16 0, lastV := 0, lastI := 0, stuckV := false, stuckI := false
    subPairs := 0, response := [], ack := false }

def Ctl.reset : Ctl :=
  { core := .init, units := List.replicate 9 .disabled, rstK := false, rstT := false, rstC := false, rstM := false
    rstF := false, pwr := true, upK := true, upT := true, upC := true, upM := false, upF := false, initStep := 0
    jobStop := none, discarding := false, initJob := 0, initCoding := 0, spares := [32, 33], sramValid := [], draws := 0 }

def Dict.reset : Dict := { nums := [], doms := [], forced := [], forcedDoms := [], images := [], merged := [] }

def Window.reset : Window :=
  { accAddr := 0, accDone := true, accResult := 0, mbAddr := 0, mbOffset := 0, mbLen := 0, mbValid := false
    mbBusy := false, mbResult := 0, mbTotal := 0, mbBuf := [], rdata := 0 }

def Red.reset : Red :=
  { contribs := [], lse := [], inner := [], waiting := [], held := [], retained := [], norms := [], roots := [], normSent := 0
    merged := [], ownNorms := [], sources := [], stall := none }

def Pub.reset : Pub := { tokens := [], written := [], standing := [], ready := [], pc := [], phases := [] }

def Coding.reset : Coding :=
  { own := [], hold := [], nextSeq := [], base := [], retired := [], reports := [], answers := [], ext := [], extCoord := []
    extPlan := [], extBuilt := [], extAt := [], based := [], basePages := [], basesOut := [], frozen := [], awaiting := [], restoring := false, gone := [], damaged := [], lost := []
    returns := [], restripes := [] }

def Ports.reset : Ports :=
  { up0 := false, up1 := false, txCredit := [], rxCredit := [], kept := [], crOut := [], queue := [], sending := [], loop := [], sent := none, out0 := none
    out1 := none, tx := [], rx := [], heardAt := [], opened := [], recent0 := [], recent1 := [], deficit := [], ptr0 := 0, ptr1 := 0 }

def Mgmt.reset : Mgmt :=
  { events := true, mwl := 253, mrl := 253, staticAddr := 0, pid := 0, bcr := 0, dcr := 0, i3cOut := [], i3cAck := false, asm := none
    out := [], stored := [], asked := [], nextReq := 0 }

def Pm.reset : Pm :=
  { vReq := false, vMv := 0, fReq := false, fMhz := 0, vAck := false, fAck := false, target := none, raising := false }

def Errs.reset : Errs := { recent := [], retired := [], copying := [], bad := [], bad1 := [], scan := none }

def Memb.reset : Memb :=
  { members := [], draining := [], history := [], pending := none, held := [], suspects := [], heard := []
    beaconDue := 0, pulled := [], occults := [], waitTime := none, waitVia := none, removed := [], joined := [] }

def Take.reset : Take :=
  { owned := [], seqs := [], owners := [], takenFrom := [], unmapped := [], shards := [], unmerged := [], absent := [], rebuilds := [], wanted := [], nextReq := 0, given := []
    frozen := [], frozenAbsent := []
    retainTakes := [], retainGen := [], reports := [], got := [], announces := [], buildAt := none, switchAt := none
    building := false, altBased := [], altPages := [], windowM := 0 }

def Plate.reset : Plate :=
  { cut := none, frozen := false, extents := [], drainedDue := none, zeroing := none, announced := none, acks := []
    cutDue := 0, membersAt := [], headerAt := [], drained := [], manifest := none, aborts := [], start := 0
    spills := [], decided := [], sealed_ := false, inherited := false, foreign := false, restore := none }

def Fabric.reset : Fabric :=
  { reqs := [], desc := [], descCoh := false, restTags := [], nextTag := 0, atomics := [], pages := [], jobs := [], nextJob := 0, hands := [], flushing := false, lines := []
    directory := [], ops := [], nextOp := 0, checks := [], minority := false, holder := 0 }

def Merid.reset : Merid :=
  { release := none, arrived := none, arrivals := [], tied := none, sent := (0, 0), again := false, last := 0, order := none, orderHolder := []
    switching := none, ordersOut := false, answered := [], refused := false, orderDue := 0 }

def Comm.reset : Comm :=
  { cert := [], block := [], sender := 0, placed := false, acks := [], groupAsked := [], groupAcks := []
    groupAnswered := [], outcome := none, sentTree := false, resendDue := 0, groupDue := 0, treeDue := 0
    timeoutAt := none, start := none, rootC := none, startDue := 0, arrived := [], closed := 0 }

def Work.reset : Work :=
  { acc := List.replicate 16 0, flight := none, nextTenant := 0, req := false, installed := 0, reading := [] }

def HealthRow.zero : HealthRow := { ce := 0, rp := 0, lk := 0, tiles := [] }

def Health.reset : Health :=
  { ring := [], now := HealthRow.zero, suspects := [], watch := [], thermAt := 0, thermStale := false, high := 0, low := 0, lat := []
    samples := [], congested := [], calm := [], skipLate := false, govCount := 0, seen := 0, slots := []
    arriveAt := none, large := [], pubs := [], sampled := [], sampling := none }

/-- A core whose resets have just been released (R380, R381): INIT, no step of R383 done, every object at its default. -/
def Alesh.reset : Alesh :=
  { ctl := Ctl.reset, dict := Dict.reset, win := Window.reset, staged := none
    evts := { pending := 0, meridian := false, occ := [] }, clock := { captured := 0, port := 0, valid := false }
    slots := { map := [], pend := [], releasing := [], pins := [], opened := [] }, progs := [], red := Red.reset, pub := Pub.reset
    coding := Coding.reset, ports := Ports.reset, mgmt := Mgmt.reset, pm := Pm.reset, errs := Errs.reset
    memb := Memb.reset, leases := [], take := Take.reset, plate := Plate.reset, fabric := Fabric.reset
    merid := Merid.reset, comm := Comm.reset, work := Work.reset
    chrono := { origin := none, terms := [], drops := [], flags := [], buffer := [] }, health := Health.reset, cep := { out := [], held := [] }
    test := { rows := [], tiles := [], cols := [], out := [] }, mem0 := [], mem1 := [] }

/-- The machine right after reset: nothing listed in memory, no command waiting. -/
def State.reset : State := { alesh := Alesh.reset, fenmal := Fenmal.reset, pending := [] }

end Sys2Proof.Machine
end

