-- ==== Sys2Proof/Machine/Flags.lean ====
section
/-! DEFINITION. Dictionary values, counters, sticky flags and events (R348, R368 to R370, R439). -/
namespace Sys2Proof.Machine

/-! ### Values of objects -/

/-- The directory row of a key (R379). -/
def objOf? (k : Nat) : Option Obj := objTable.find? fun o => decide (o.key ≤ k) && decide (k < o.key + o.count)

/-- The width in bits of an object's numeric type (R348). -/
def ObjTy.bits : ObjTy → Nat
  | .u8 => 8 | .u16 => 16 | .u32 => 32 | .u64 => 64 | .i32 => 32 | .f32 => 32 | .dom => 0 | .cmd => 32 | .cmd64 => 64

/-- The default of a numeric object. -/
def defaultNum (k : Nat) : Nat := ((objOf? k).map fun o => if o.ty = .dom then 0 else o.dflt).getD 0
/-- The VF_TABLE of one point, 600 MHz at 0 mV (R385). -/
def builtinVf : Bytes := leBytes 2 600 ++ List.replicate 62 0
/-- The default of a DOMAIN object: zeros of its default length, but for the one frequency point of VF_TABLE, and quotas that bound
nothing (R306). -/
def defaultDom (k : Nat) : Bytes :=
  if k = O.VF_TABLE then builtinVf
  else if k = O.TIER_QUOTA then List.replicate 192 0xFF#8
  else ((objOf? k).map fun o => if o.ty = .dom then List.replicate o.dflt 0 else []).getD []

/-- The value in force of a numeric object (R370). -/
def Alesh.num (a : Alesh) (k : Nat) : Nat :=
  match lookup? a.dict.forced k with
  | some v => v
  | none =>
    match lookup? a.dict.nums k with
    | some v => v
    | none => defaultNum k

/-- The value in force of a DOMAIN object (R370). -/
def Alesh.dom (a : Alesh) (k : Nat) : Bytes :=
  match lookup? a.dict.forcedDoms k with
  | some v => v
  | none =>
    match lookup? a.dict.doms k with
    | some v => v
    | none => defaultDom k

/-- A direct write: base value and value in force (R370). -/
def Alesh.setNum (a : Alesh) (k v : Nat) : Alesh :=
  { a with dict := { a.dict with nums := assign a.dict.nums k v, forced := a.dict.forced.filter fun p => p.1 != k } }

def Alesh.setDom (a : Alesh) (k : Nat) (v : Bytes) : Alesh :=
  { a with dict := { a.dict with doms := assign a.dict.doms k v, forcedDoms := a.dict.forcedDoms.filter fun p => p.1 != k } }

/-! ### Reserved bits of DOMAIN values (R3) -/

/-- The number whose bits are one in each run `[hi : lo]` of a layout. -/
def bitRuns (l : List (Nat × Nat)) : Nat := l.foldl (fun m p => m ||| (2 ^ (p.1 + 1 - p.2) - 1) <<< p.2) 0
/-- Entries of `w` bytes with the bits of `m` alone. -/
def maskEntries (w m : Nat) : Nat → Bytes → Bytes
  | 0, v => v
  | f + 1, v => if v.isEmpty then [] else leBytes (min w v.length) (leNat (v.take w) &&& m) ++ maskEntries w m f (v.drop w)
def maskTable (w m : Nat) (v : Bytes) : Bytes := if w = 0 then v else maskEntries w m (v.length / w + 1) v

def layerBits : Nat := bitRuns [(127, 61), (47, 0)]
def pubBits : Nat := bitRuns [(255, 36)]
def pcBits : Nat := bitRuns [(255, 120), (87, 36), (31, 0)]
def memberBits : Nat := bitRuns [(47, 32), (17, 0)]
def extBits : Nat := bitRuns [(127, 112), (95, 51), (49, 16)]
def regionBits : Nat := bitRuns [(255, 73)]
def segBits : Nat := bitRuns [(255, 161), (159, 156), (151, 68)]
def sparseBits : Nat := bitRuns [(127, 112), (95, 44)]
def itemBits : Nat := bitRuns [(127, 88), (79, 32)]
def mergeBits : Nat := bitRuns [(255, 106)]
def blockBits : Nat := bitRuns [(255, 88), (55, 52)]
def nodeBits : Nat := bitRuns [(63, 57), (55, 48)]
def fieldBits : Nat := bitRuns [(15, 11), (9, 4)]

/-- The bits of a node word that are not reserved: of its selectors, those that its operation uses (R64). A word with a reserved
operation is refused whole (R65), so its selectors are nobody's. -/
def keptNode (w : Nat) : Nat :=
  w &&& (nodeBits ||| match opArity (bf w 58 6) with
    | some n => 2 ^ (8 * n) - 1
    | none => 2 ^ 32 - 1)
/-- RECIPE_DESC (R63, R64): the words of nodes at NODE_COUNT and above, the descriptors of unused fields and the selectors that an
operation does not use are reserved too. -/
def keptRecipe (v : Bytes) : Bytes :=
  if v.isEmpty then v
  else
    let h := leAt v 0 8
    leBytes 8 (h &&& bitRuns [(63, 60), (55, 47), (31, 16)])
      ++ (List.range 4).flatMap (fun i => leBytes 2 (if i < bf h 47 3 then leAt v (8 + 2 * i) 2 &&& fieldBits else 0))
      ++ (List.range 32).flatMap (fun n => leBytes 8 (if n < bf h 50 6 then keptNode (leAt v (16 + 8 * n) 8) else 0))
      ++ List.replicate 16 0
/-- TAKEOVER_SET (R233): headers, then layer, publish and preconditioner entries. -/
def keptBlocks : Nat → Bytes → Bytes
  | 0, v => v
  | f + 1, v =>
    if v.isEmpty then []
    else
      let h := leAt v 0 32
      let l := 16 * bf h 112 16
      let p := 32 * bf h 96 16
      let c := 32 * bf h 88 8
      maskTable 32 blockBits (v.take 32) ++ maskTable 16 layerBits ((v.drop 32).take l) ++ maskTable 32 pubBits ((v.drop (32 + l)).take p)
        ++ maskTable 32 pcBits ((v.drop (32 + l + p)).take c) ++ keptBlocks f (v.drop (32 + l + p + c))
/-- A certificate (R213, R215): its body, over which the signatures are taken, whole, and signature entries without their bytes 1
to 7, which no digest covers. -/
def keptCert (v : Bytes) : Bytes :=
  let body := 96 + 8 * leAt v 2 2
  v.take body ++ maskTable 104 (bitRuns [(831, 64), (7, 0)]) (v.drop body)
/-- A DOMAIN value as its object holds it: reserved bits are ignored on receipt and read zero (R3). The body of a certificate,
CAL_IMAGE and OVERLAY_IMAGE are held whole: their own signature, CRC-64 or digest is taken over those bytes (log entry 47). -/
def keptBytes (key : Nat) (v : Bytes) : Bytes :=
  if O.RECIPE_DESC ≤ key ∧ key < O.RECIPE_DESC + 8 then keptRecipe v
  else if key = O.LAYER_TABLE then maskTable 16 layerBits v
  else if key = O.PUB_TABLE then maskTable 32 pubBits v
  else if key = O.PC_TABLE then maskTable 32 pcBits v
  else if key = O.SPARSE_TABLE then maskTable 16 sparseBits v
  else if key = O.GROUP_MEMBERS then maskTable 8 memberBits v
  else if key = O.EXT_TABLE then maskTable 16 extBits v
  else if key = O.SEG_TABLE then maskTable 32 segBits v
  else if key = O.REGION_TABLE then maskTable 32 regionBits v
  else if key = O.REGION_ENTRY then v.take 1 ++ maskTable 32 regionBits (v.drop 1)
  else if key = O.RETIRE_LIST then maskTable 8 (bitRuns [(35, 0)]) v
  else if key = O.RESTORE_RANGES then maskTable 8 (bitRuns [(63, 16)]) v
  else if key = O.JOIN_SNAPSHOT then v.take 9 ++ List.replicate (min 7 (v.length - 9)) 0 ++ v.drop 16
  else if key = O.RESTRIPE_STAGE then
    v.take 12 ++ List.replicate (min 20 (v.length - 12)) 0 ++ maskTable 8 memberBits ((v.drop 32).take (8 * leAt v 6 1))
      ++ maskTable 16 extBits (v.drop (32 + 8 * leAt v 6 1))
  else if key = O.STEP_PLAN then
    leBytes 1 (leAt v 0 1) ++ leBytes 1 0 ++ slice v 2 6 ++ leBytes 8 (leAt v 8 8 % 2 ^ 40) ++ slice v 16 6 ++ List.replicate 42 0
      ++ maskTable 16 itemBits ((v.drop 64).take (16 * leAt v 4 4)) ++ maskTable 32 mergeBits (v.drop (64 + 16 * leAt v 4 4))
  else if key = O.TAKEOVER_SET then keptBlocks (v.length / 32 + 1) v
  else if key = O.CERT_MAILBOX then keptCert v
  else v

/-- A value in force that leaves the base as it is (R370, R373). -/
def Alesh.forceNum (a : Alesh) (k v : Nat) : Alesh := { a with dict := { a.dict with forced := assign a.dict.forced k v } }
def Alesh.forceDom (a : Alesh) (k : Nat) (v : Bytes) : Alesh :=
  { a with dict := { a.dict with forcedDoms := assign a.dict.forcedDoms k v } }

/-- The width of a numeric object as its counters use it. -/
def widthOf (k : Nat) : Nat := ((objOf? k).map fun o => o.ty.bits).getD 32
/-- A saturating counter of the object's width. -/
def Alesh.countN (a : Alesh) (k n : Nat) : Alesh :=
  a.setNum k (satAdd (widthOf k) (a.num k) n)
def Alesh.count (a : Alesh) (k : Nat) : Alesh := a.countN k 1
/-- A wrapping counter of the object's width. -/
def Alesh.wrapN (a : Alesh) (k n : Nat) : Alesh :=
  a.setNum k (wrapAdd (widthOf k) (a.num k) n)
def Alesh.wrap (a : Alesh) (k : Nat) : Alesh := a.wrapN k 1

/-! ### Events (R439, R440) -/

/-- Raise an event: its bit in EVT_PENDING. Bits: 0 evt_fault, 1 evt_attention, 3 evt_keeper. -/
def Alesh.raise (a : Alesh) (bit : Nat) : Alesh :=
  { a with evts := { a.evts with pending := a.evts.pending ||| 2 ^ bit } }
def Alesh.raiseFault (a : Alesh) : Alesh := a.raise 0
def Alesh.raiseAttention (a : Alesh) : Alesh := a.raise 1

/-- One toggle of evt_meridian (R440). -/
def Alesh.toggleMeridian (a : Alesh) : Alesh := { a with evts := { a.evts with meridian := !a.evts.meridian } }

/-! ### Sticky flags (R340, R368, R369) -/

/-- FLAG_OCC's first entry of a flag word (R368). -/
def occBase (k : Nat) : Nat := if k = O.CTRL_FLAGS then 0 else if k = O.HEALTH_FLAGS then 32 else 64

/-- Hardware sets a flag bit: the bit, and one advance of its occurrence counter (R368). -/
def Alesh.flag (a : Alesh) (k bit : Nat) : Alesh :=
  let b := a.setNum k (a.num k ||| 2 ^ bit)
  let n := occBase k + bit
  { b with evts := { b.evts with occ := assign b.evts.occ n (wrapAdd 16 (lookupD 0 b.evts.occ n) 1) } }

/-- A W1C write: each 1 bit clears the matching flag (R350, R368). -/
def Alesh.clearFlags (a : Alesh) (k v : Nat) : Alesh :=
  a.setNum k (a.num k - (a.num k &&& v))

/-- CTRL_FLAGS bits (R369). -/
def fCfgIgnored : Nat := 0
def fStateConflict : Nat := 1
def fKeeperRefused : Nat := 2
def fUnitFault : Nat := 3
def fSwitchDone : Nat := 4
def fSwitchCancelled : Nat := 5
def fMbAbort : Nat := 6
def fOcculted : Nat := 7
def fProtectionChange : Nat := 8

def Alesh.ctrl (a : Alesh) (bit : Nat) : Alesh := a.flag O.CTRL_FLAGS bit

/-- HEALTH_FLAGS bits (R340). -/
def hSuspectSet : Nat := 0
def hWatchSet : Nat := 1
def hRingFull : Nat := 2
def hHoldLimit : Nat := 3
def hPoolFull : Nat := 4
def hRetainFull : Nat := 5
def hNumGrad : Nat := 6
def hNumPub : Nat := 7
def hRefMismatch : Nat := 8
def hRefFail : Nat := 9
def hThermStale : Nat := 10
def hLinkEvent : Nat := 11
def hCommitStall : Nat := 12

def Alesh.healthFlag (a : Alesh) (bit : Nat) : Alesh := a.flag O.HEALTH_FLAGS bit

/-- A condition of R339 holds in this step. -/
def Alesh.condition (a : Alesh) (bit : Nat) : Alesh :=
  { a with health := { a.health with seen := a.health.seen ||| 2 ^ bit } }

/-- A link event (R323, R340): class LK and its flag. -/
def Alesh.linkEvent (a : Alesh) : Alesh :=
  let b := a.healthFlag hLinkEvent
  { b with health := { b.health with now := { b.health.now with lk := b.health.now.lk + 1 } } }
/-- A repair (class RP) and corrected errors (class CE) of R323. -/
def Alesh.repairEvent (a : Alesh) : Alesh :=
  { a with health := { a.health with now := { a.health.now with rp := a.health.now.rp + 1 } } }
def Alesh.corrected (a : Alesh) (n : Nat) : Alesh :=
  let b := a.wrapN O.CE_COUNT n
  { b with health := { b.health with now := { b.health.now with ce := b.health.now.ce + n } } }

/-- The event outputs as driven: evt_fault, evt_attention, evt_keeper at bits 0, 1, 3 (R439); none in RESET. -/
def Alesh.evtLevels (a : Alesh) : Nat :=
  let f := a.num O.CTRL_FLAGS
  let src := a.evts.pending ||| (if f.testBit fUnitFault || f.testBit fOcculted then 1 else 0)
    ||| (if f.testBit fSwitchCancelled || f.testBit fMbAbort then 2 else 0)
    ||| (if f.testBit fKeeperRefused || f.testBit fProtectionChange then 8 else 0)
  let masked := src - (src &&& a.num O.EVT_MASK)
  match a.ctl.core with
  | .reset => 0
  | .occulted => masked ||| 1
  | _ => masked

end Sys2Proof.Machine
end

