-- ==== Sys2Proof/Machine/Ops.lean ====
section
/-! DEFINITION. The named operations that the meanings share: units, results and replies, memory, packets, tokens, time. -/
namespace Sys2Proof.Machine

/-! ### Results of accesses (R352) -/

inductive Res where
  | ok | noObject | access | type | range | stateConflict | unitEnabled | keeperOnly | busy | version
  /-- No result yet: a MEMB_INSTALL whose certificate waits for a valid time (R367, R397). It never goes out on a path. -/
  | awaited
  deriving DecidableEq, Repr

def Res.code : Res → Nat
  | .ok => 0 | .noObject => 1 | .access => 2 | .type => 3 | .range => 4 | .stateConflict => 5 | .unitEnabled => 6
  | .keeperOnly => 7 | .busy => 8 | .version => 9 | .awaited => 0

/-- The path number of R353. -/
def viaPath : Via → Nat
  | .control _ => 0
  | .mgmt _ _ => 1
  | .inBand _ _ => 2

/-- An access carries keeper authority (R354). -/
def Alesh.isKeeper (a : Alesh) (via : Via) : Bool :=
  let p := a.num O.PRIV_MAP
  match via with
  | .control k => k && p.testBit 0
  | .mgmt eid _ => p.testBit 1 && eid == bf p 16 8
  | .inBand src _ => p.testBit 2 && src == bf p 32 18

/-- The accounting of a refused access (R350, R352, R353). -/
def Alesh.refuse (a : Alesh) (via : Via) (key : Nat) (r : Res) : Alesh :=
  let note (b : Alesh) (bit cnt : Nat) : Alesh :=
    ((b.ctrl bit).count cnt).setDom O.LAST_REFUSED
      (leBytes 2 (key / 256) ++ leBytes 1 key ++ leBytes 1 (viaPath via) ++ leBytes 2 r.code ++ leBytes 2 0)
  match r with
  | .stateConflict => note a fStateConflict O.STATE_CONFLICT_COUNT
  | .unitEnabled => note a fCfgIgnored O.CFG_IGNORED_COUNT
  | .keeperOnly => note a fKeeperRefused O.KEEPER_REFUSED_COUNT
  | _ => a

/-! ### Ranges (R351 tests 4 and 8) -/

/-- A number lies in an object's range; `a` gives the objects that a range names. -/
def Alesh.inRange (a : Alesh) (o : Obj) (v : Nat) : Bool :=
  decide (v < 2 ^ o.ty.bits) &&
  match o.rng with
  | .any => true
  | .span lo hi => decide (lo ≤ v) && decide (v ≤ hi)
  | .ispan lo hi => decide (lo ≤ signedOf 32 v) && decide (signedOf 32 v ≤ hi)
  | .mult m below => v % m == 0 && decide (v < below)
  | .multUpTo m top => v % m == 0 && decide (v ≤ top)
  | .bits _ => true
  | .atLeast key hi => decide (a.num key ≤ v) && decide (v ≤ hi)
  | .upTo key => decide (v ≤ a.num key)
  | .len _ _ _ => true
  | .lenBy _ _ => true
  | .lenBy2 _ _ _ => true

/-- A DOMAIN's length is one that its Range column allows: a table holds whole entries, at most as many as its count
(R351 test 4). -/
def Alesh.lengthOk (a : Alesh) (o : Obj) (n : Nat) : Bool :=
  match o.rng with
  | .len lo hi step => decide (lo ≤ n) && decide (n ≤ hi) && n % step == 0
  | .lenBy key each => decide (n ≤ a.num key * each) && n % each == 0
  | .lenBy2 key key2 each => decide (n ≤ (a.num key + a.num key2) * each) && n % each == 0
  | _ => true

/-! ### Core and units (R361 to R365) -/

def uJob : Nat := 0
def uUpdate : Nat := 1
def uPublish : Nat := 2
def uPrecond : Nat := 3
def uCoding : Nat := 4
def uReduce : Nat := 5
def uTier : Nat := 6
def uHealth : Nat := 7
def uRecord : Nat := 8

def CoreState.code : CoreState → Nat
  | .reset => 0 | .init => 1 | .idle => 2 | .joined => 3 | .running => 4 | .degraded => 5 | .occulted => 6 | .maint => 7
def UState.code : UState → Nat
  | .disabled => 0 | .armed => 1 | .running => 2 | .draining => 3 | .faulted => 4

def Alesh.setCore (a : Alesh) (c : CoreState) : Alesh := { a with ctl := { a.ctl with core := c } }
def Alesh.unit (a : Alesh) (u : Nat) : UState := a.ctl.units.getD u .disabled
def Alesh.setUnit (a : Alesh) (u : Nat) (s : UState) : Alesh :=
  { a with ctl := { a.ctl with units := setAt a.ctl.units u s } }
/-- The core takes part in a running job. -/
def Alesh.inJob (a : Alesh) : Bool := a.ctl.core == .running || a.ctl.core == .degraded
/-- The states in which the core may act for a job that it has joined. -/
def Alesh.joinedOrJob (a : Alesh) : Bool := a.ctl.core == .joined || a.inJob
/-- The states in which most commands are accepted (R366). -/
def Alesh.idleToJob (a : Alesh) : Bool := a.ctl.core == .idle || a.joinedOrJob

/-- A unit works in a job, and while it drains after one (R364). -/
def Alesh.works (a : Alesh) (u : Nat) : Bool := a.inJob || (a.ctl.core == .idle && a.unit u == .draining)

/-- Units of a mask. -/
def unitsOf (mask : Nat) : List Nat := (List.range 9).filter fun u => mask.testBit u

/-- Units enter FAULTED: on any entry UNIT_FAULT and evt_fault (R365). -/
def Alesh.faultUnits (a : Alesh) (us : List Nat) : Alesh :=
  if us.any fun u => a.unit u != .faulted then
    ((us.foldl (fun b u => b.setUnit u .faulted) a).ctrl fUnitFault).raiseFault
  else a
/-- The core becomes FAULTED: every unit does (R364). -/
def Alesh.faultAll (a : Alesh) : Alesh := a.faultUnits (List.range 9)

/-- PUB_COUNT or PC_COUNT is not zero in the base or in a loaded overlay (R362); `inImages` gives the overlays' values. -/
def Alesh.unitsUsed (a : Alesh) (imageNums : List (Nat × Nat)) : List Nat :=
  let nz (k : Nat) : Bool := a.num k != 0 || lookupD 0 a.dict.nums k != 0 || imageNums.any fun p => p.1 == k && p.2 != 0
  [uJob, uUpdate] ++ (if nz O.PUB_COUNT then [uPublish] else []) ++ (if nz O.PC_COUNT then [uPrecond] else [])
    ++ [uCoding, uReduce, uTier, uHealth, uRecord]

/-! ### Time (R437, R438) -/

/-- The cclk of an event: the captured value follows the operand while it is valid, and never decreases (log entry 5). An operand at
or below the captured value says nothing of the port count: that value may be held (R438; DESIGN CHOICE, log entry 153). -/
def Alesh.at (a : Alesh) (now : Nat) : Alesh :=
  if a.clock.valid && decide (a.clock.captured < now) then { a with clock := { a.clock with captured := now, port := now } } else a
def Alesh.now (a : Alesh) : Nat := a.clock.captured
/-- A deadline has passed: only a valid captured value lets a timer expire (R438). -/
def Alesh.due (a : Alesh) (deadline : Nat) : Bool := a.clock.valid && decide (deadline ≤ a.clock.captured)
/-- The epoch in progress P of R179; of a JOINED core, START_STEP + 1 (R426), its block holding START_STEP at bytes 8 to 13. -/
def Alesh.inProgress (a : Alesh) : Nat :=
  if a.ctl.core == .joined then leAt a.comm.block 8 6 + 1 else a.num O.STEP_EPOCH + 1
/-- The scheduled value of the epoch in progress has been reached: the release is the last event of this cclk (R25). -/
def Alesh.releaseDue (a : Alesh) : Bool :=
  match a.merid.release with
  | some (e, r) => a.inJob && e == a.inProgress && a.due r
  | none => false
/-- The epoch in progress against which a packet or token is restored and classified: at the edge of a release, the one that
the release makes (R25, R197). -/
def Alesh.classEpoch (a : Alesh) : Nat := a.inProgress + if a.releaseDue then 1 else 0
def Alesh.node (a : Alesh) : Nat := a.num O.NODE_ID
def Alesh.ackDue (a : Alesh) : Nat := a.now + a.num O.ACK_TIMEOUT_NS

/-! ### Memory (R29, R405, R410) -/

/-- A list of runs of an access, none crossing a page. -/
def pageRuns : Nat → Nat → Nat → List (Nat × Nat)
  | 0, _, _ => []
  | fuel + 1, addr, n =>
    if n = 0 then []
    else
      let k := Nat.min n (pageBytes - addr % pageBytes)
      (addr, k) :: pageRuns fuel (addr + k) (n - k)

/-- Where an access to Tier 0 goes once its page is retired (R405). -/
def Alesh.place (a : Alesh) (addr : Nat) : Nat :=
  match lookup? a.errs.retired (addr / pageBytes) with
  | some spare => a.num O.SPARE_BASE + spare * pageBytes + addr % pageBytes
  | none => addr

/-- Read Tier 0 through the retirement map. -/
def Alesh.rd (a : Alesh) (addr n : Nat) : Bytes :=
  if a.errs.retired.isEmpty then a.mem0.read addr n
  else (pageRuns (n / pageBytes + 2) addr n).flatMap fun r => a.mem0.read (a.place r.1) r.2

/-- The state ranges, the parity areas and the hold area, which an occulted core no longer writes (R28, R160, R166, R225). -/
def Alesh.fencedAreas (a : Alesh) : List (Nat × Nat) :=
  let slots := ceilDiv (a.num O.SHARD_PAGES) 256 + a.num O.RING_SLOTS + a.num O.TAKEOVER_SLOTS
  let n := a.num O.PARITY_SLOTS
  let m := a.num O.PARITY_ALT_SLOTS
  [(a.num O.STATE_BASE, slots * sliceBytes), (a.num O.META_BASE, slots * 16384), (a.num O.PARITY_BASE, n * sliceBytes),
   (a.num O.PARITY_ALT_BASE, m * sliceBytes), (a.num O.PARITY_META_BASE, n * 16640), (a.num O.PARITY_ALT_META_BASE, m * 16640),
   (a.num O.EPOCH_TABLE_BASE, n * pageBytes), (a.num O.EPOCH_TABLE_ALT_BASE, m * pageBytes),
   (a.num O.HOLD_BASE, a.num O.HOLD_PAGES * pageBytes)]
/-- The core is occulted and the run meets an area that it no longer writes (R225). -/
def Alesh.fenced (a : Alesh) (addr n : Nat) : Bool :=
  a.ctl.core == .occulted && a.fencedAreas.any fun x => runsMeet addr n x.1 x.2
/-- Write Tier 0 through the retirement map; an occulted core writes none of its state, parity and hold areas (R225). -/
def Alesh.wr (a : Alesh) (addr : Nat) (b : Bytes) : Alesh :=
  if a.fenced addr b.length then a
  else if a.errs.retired.isEmpty then { a with mem0 := a.mem0.write addr b }
  else
    (pageRuns (b.length / pageBytes + 2) addr b.length).foldl
      (fun c r => { c with mem0 := c.mem0.write (a.place r.1) ((b.drop (r.1 - addr)).take r.2) }) a

def Alesh.rdLe (a : Alesh) (addr n : Nat) : Nat := leNat (a.rd addr n)
def Alesh.wrLe (a : Alesh) (addr n x : Nat) : Alesh := a.wr addr (leBytes n x)

/-! ### Link credit (R380, R417) -/

/-- A port and channel as one number. -/
def lane (port vc : Nat) : Nat := port * 8 + vc
/-- FP_LINK_STATE shows a port's pin (R418). -/
def Ports.isUp (q : Ports) (port : Nat) : Bool := if port = 0 then q.up0 else if port = 1 then q.up1 else false
/-- The credits that a link grants when it comes up, on every channel, where fclk has left reset (R380, R417). -/
def Alesh.grantCredits (a : Alesh) (port : Nat) : Alesh :=
  if !a.ctl.upF || !a.ports.isUp port then a
  else
    let put (l : List (Nat × Nat)) (f : Nat → Nat) : List (Nat × Nat) :=
      (List.range 8).foldl (fun (l : List (Nat × Nat)) (v : Nat) => assign l (lane port v) (f v)) l
    let given (v : Nat) : Nat := a.num (O.FP_RX_CREDITS + v)
    { a with ports := { a.ports with
        rxCredit := put a.ports.rxCredit given, crOut := put a.ports.crOut given, kept := put a.ports.kept fun _ => 0 } }

/-! ### Packets (R176, R181, R415) -/

/-- Packet types of R177, at `typ` of a packet of kind 0. -/
def tHello : Nat := 0
def tDelta : Nat := 1
def tHoldAck : Nat := 2
def tCommit : Nat := 3
def tFragReq : Nat := 4
def tFragData : Nat := 5
def tPart : Nat := 6
def tRetainRel : Nat := 7
def tLease : Nat := 8
def tOccult : Nat := 9
def tPlateMark : Nat := 10
def tGrant : Nat := 11
def tDict : Nat := 12

/-- The channel of each type (R177). -/
def typeVc (t : Nat) : Nat :=
  if t = tDelta then 3 else if t = tHoldAck ∨ t = tCommit ∨ t = tRetainRel then 1
  else if t = tFragReq ∨ t = tFragData then 4 else if t = tPart then 2 else 0

/-- A core that has been occulted, or is in reset or maintenance, sends nothing (R225, R361, R408). -/
def Alesh.maySend (a : Alesh) : Bool :=
  !(a.ctl.core == .reset || a.ctl.core == .init || a.ctl.core == .occulted || a.ctl.core == .maint)

/-- A Cresol packet of this core: route epoch and membership epoch as they stand (R176). -/
def Alesh.cresol (a : Alesh) (typ dst args : Nat) (payload : Bytes) : Pkt :=
  { kind := 0, vc := typeVc typ, version := 1, typ := typ, src := a.node, dst := dst, route := a.num O.ROUTE_EPOCH
    memb := a.num O.MEMBERSHIP_EPOCH % 16, args := args, payload := payload }

/-- The core has adopted a JOIN that names it and that has not yet taken effect (R398). -/
def Alesh.joining (a : Alesh) : Bool :=
  a.ctl.core == .joined && match a.memb.pending with
    | some c => leAt c 1 1 == 5 && (List.range (leAt c 2 2)).any fun i => bf (leAt c (96 + 8 * i) 8) 0 18 == a.node
    | none => false
/-- The one packet that a joining core sends: MEMB_PULL. -/
def isPull (p : Pkt) : Bool := p.kind == 0 && p.typ == tGrant && bf p.args 60 4 == 5
/-- The channels that need peer credit (R420). -/
def isPeerVc (vc : Nat) : Bool := decide (2 ≤ vc) && decide (vc ≤ 4)
/-- The packet needs peer credit. -/
def needsPeer (p : Pkt) : Bool := p.kind == 0 && isPeerVc p.vc
/-- The next packet of the channel may start under a LIMIT (R420). -/
def PeerTx.under (t : PeerTx) (limit : Nat) : Bool :=
  let d := off16 limit t.next
  !t.void && decide (1 ≤ d) && decide (d ≤ 32767)
/-- The next packet of the channel may start under the LIMIT held (R420). -/
def PeerTx.mayStart (t : PeerTx) : Bool := t.under t.limit
/-- Queue a packet; the first of its destination and channel to find no peer credit starts its wait, which ends at `due` (R420). -/
def Ports.enqueue (q : Ports) (due : Nat) (p : Pkt) : Ports :=
  let first := needsPeer p && !q.queue.any fun x => needsPeer x && x.dst == p.dst && x.vc == p.vc
  { q with
    queue := q.queue ++ [p]
    tx := q.tx.map fun t => if first && t.node == p.dst && t.vc == p.vc && !t.mayStart then { t with due := due } else t }
/-- Give a packet to the fabric ports; one for the core itself loops back (log entry 10). -/
def Alesh.emit (a : Alesh) (p : Pkt) : Alesh :=
  if !a.maySend || (a.joining && p.kind == 0 && !isPull p) then a
  else if p.dst = a.node then { a with ports := { a.ports with loop := a.ports.loop ++ [p] } }
  else { a with ports := a.ports.enqueue (a.now + a.num O.FP_GAP_NS) p }

def Alesh.send (a : Alesh) (typ dst args : Nat) (payload : Bytes) : Alesh := a.emit (a.cresol typ dst args payload)
def Alesh.sendAll (a : Alesh) (typ : Nat) (dsts : List Nat) (args : Nat) (payload : Bytes) : Alesh :=
  dsts.foldl (fun b d => b.send typ d args payload) a

/-! ### Tokens of the compute event port (R424, R427) -/

/-- A unit posts an outbound token; an occulted core posts none (R225). While the queue of 256 is full the unit waits with its
token, behind those that wait already (R427). The control unit's number here is 9. -/
def Alesh.post (a : Alesh) (u t : Nat) : Alesh :=
  if a.ctl.core == .occulted then a
  else if a.cep.held.isEmpty && decide (a.cep.out.length < 256) then { a with cep := { a.cep with out := a.cep.out ++ [t] } }
  else { a with cep := { a.cep with held := a.cep.held ++ [(u, t)] } }
def uControl : Nat := 9
/-- A unit waits to post its next token (R427). -/
def Alesh.cepWaits (a : Alesh) (u : Nat) : Bool := a.cep.held.any fun x => x.1 == u
/-- A token has transferred to the host: the oldest that waits takes the room (R427). -/
def Cep.taken (c : Cep) : Cep :=
  let o := c.out.drop 1
  match c.held with
  | (_, t) :: r => if decide (o.length < 256) then { out := o ++ [t], held := r } else { c with out := o }
  | [] => { c with out := o }

/-! ### Free values (log entry 6) -/

/-- `n` free bytes. -/
def Alesh.drawBytes (a : Alesh) (n : Nat) : Bytes × Alesh :=
  ((List.range n).map fun i => Config.freeByte (a.ctl.draws + i), { a with ctl := { a.ctl with draws := a.ctl.draws + n } })

/-! ### Replies (R357 to R359, R443 to R445) -/

/-- The body of an access message (R443). -/
def accBody (op reqId key : Nat) (final : Bool) (offset len result total : Nat) (data : Bytes) : Bytes :=
  leBytes 1 1 ++ leBytes 1 op ++ leBytes 2 reqId ++ leBytes 2 (key / 256) ++ leBytes 1 key
    ++ leBytes 1 (if final then 1 else 0) ++ leBytes 4 offset ++ leBytes 2 len ++ leBytes 2 result ++ leBytes 4 total
    ++ leBytes 4 0 ++ data

/-- ARGS bit 63 of a DICT response (R445). -/
def dictResponseArgs : Nat := 2 ^ 63

/-- Keep an in-band response: the last 32, keyed by source and REQ_ID (R445). -/
def Alesh.storeResponse (a : Alesh) (src reqId : Nat) (body : Bytes) : Alesh :=
  let rest := a.mgmt.stored.filter fun s => !(s.src == src && s.reqId == reqId)
  let all := rest ++ [{ src := src, reqId := reqId, response := body, due := a.now + 4 * a.num O.ACK_TIMEOUT_NS }]
  { a with mgmt := { a.mgmt with stored := all.drop (all.length - 32) } }

/-- A response message on the path of its request. -/
def Alesh.respond (a : Alesh) (via : Via) (body : Bytes) : Alesh :=
  match via with
  | .control _ => a
  | .mgmt eid _ => { a with mgmt := { a.mgmt with out := a.mgmt.out ++ [(eid, 0x7F#8 :: (beBytes 4 (a.num O.VENDOR_PEN) ++ body))] } }
  | .inBand src reqId => (a.storeResponse src reqId body).send tDict src dictResponseArgs body

/-- The result of a write or command, on its path: ACC_STATUS or the mailbox on the control port (R358, R359), a WRITE
response elsewhere (R443). `wide` marks a value that only a mailbox carries. -/
def Alesh.reply (a : Alesh) (via : Via) (key : Nat) (wide : Bool) (r : Res) : Alesh :=
  match via with
  | .control _ =>
    if wide then { a with win := { a.win with mbResult := r.code, mbValid := true, mbBusy := false, rdata := 0 } }
    else { a with win := { a.win with accResult := r.code, accDone := true, rdata := 0 } }
  | .mgmt _ reqId => a.respond via (accBody 0x82 reqId key true 0 0 r.code 0 [])
  | .inBand _ reqId => a.respond via (accBody 0x82 reqId key true 0 0 r.code 0 [])

/-- The result of a command stays awaited on its path (R367): the register window shows it under way; elsewhere no response goes. -/
def Alesh.await (a : Alesh) (via : Via) (wide : Bool) : Alesh :=
  let w := match via with
    | .control _ => if wide then { a.win with mbValid := false, mbBusy := true, rdata := 0 } else { a.win with accDone := false, rdata := 0 }
    | _ => a.win
  { a with win := w, memb := { a.memb with waitVia := some (via, wide) } }
/-- Conclude a command: refusals are counted and recorded, and the result goes back on the path. -/
def conclude (via : Via) (key : Nat) (wide : Bool) (p : Res × Alesh) : Alesh :=
  if p.1 = .awaited then p.2.await via wide else (p.2.refuse via key p.1).reply via key wide p.1

/-- A staged write holds a write of its object back, and any staged write one of STAGE_BASE (R360). -/
def Alesh.stageHolds (a : Alesh) (key : Nat) : Bool :=
  match a.staged with
  | some s => s.key == key || key == O.STAGE_BASE
  | none => false
/-- Test 9 of R351: an access that passes every other test is BUSY where a staged write of its object is open. -/
def Alesh.unlessStaged (a : Alesh) (key : Nat) (r : Res × Alesh) : Res × Alesh :=
  if a.stageHolds key && (r.1 == .ok || r.1 == .awaited) then (.busy, a) else r

/-- A command refused unless a test holds. -/
def require (t : Bool) (r : Res) (a : Alesh) (k : Res × Alesh) : Res × Alesh := if t then k else (r, a)

/-- The response kept for a source and REQ_ID (R445). -/
def Alesh.stored? (a : Alesh) (src reqId : Nat) : Option Stored :=
  a.mgmt.stored.find? fun s => s.src == src && s.reqId == reqId && !a.due s.due
/-- A kept request that writes SWITCH_ORDER. -/
def Asked.isOrder (q : Asked) : Bool := leAt q.body 4 2 * 256 + leAt q.body 6 1 == O.SWITCH_ORDER
/-- A node whose in-band requests are taken: a member, or the keeper's node (R180, R445). -/
def Alesh.takesFrom (a : Alesh) (src : Nat) : Bool := a.memb.members.contains src || a.isKeeper (.inBand src 0)
/-- An access comes by its path: no path answers in RESET (R361), the management bus answers once kclk has left reset
(R380), and in band a request is taken once, a repeated one being answered from the store (R445). -/
def Alesh.serve (a : Alesh) (via : Via) (f : Alesh → Alesh) : Alesh :=
  if a.ctl.core == .reset then a
  else
    match via with
    | .control _ => f a
    | .mgmt _ _ => if a.ctl.upK then f a else a
    | .inBand src reqId =>
      if !a.idleToJob then a
      else if !a.takesFrom src then a.count O.CRESOL_EPOCH_DROP_COUNT
      else
        match a.stored? src reqId with
        | some r => a.send tDict src dictResponseArgs r.response
        | none => f (a.wrap O.DICT_INBAND_COUNT)
/-- A command's outcome on its path. -/
def command (via : Via) (key : Nat) (wide : Bool) (f : Alesh → Res × Alesh) (s : State) :
    Host.Outcome State Fault Refusal :=
  .next { s with alesh := s.alesh.serve via fun a => conclude via key wide (a.unlessStaged key (f a)) }

/-- A step on the core alone. -/
def onCore (f : Alesh → Alesh) (s : State) : Host.Outcome State Fault Refusal := .next { s with alesh := f s.alesh }
/-- A step on Fenmal alone (R461). -/
def onFenmal (f : Fenmal → Fenmal) (s : State) : Host.Outcome State Fault Refusal := .next { s with fenmal := f s.fenmal }

end Sys2Proof.Machine
end

