-- ==== Sys2Proof/Machine/HostPorts.lean ====
section
/-! DEFINITION. Time port, event acknowledgement, power management, I3C common commands, MCTP control messages and test
access (R432 to R434, R437 to R442, R446, R447). -/
namespace Sys2Proof.Machine

/-! ### Time (R437, R438) -/

/-- A loss of validity: counted, with evt_attention. -/
def Alesh.loseTime (a : Alesh) : Alesh :=
  if a.clock.valid then
    ({ a with clock := { a.clock with valid := false } }.count O.TIME_INVALID_COUNT).raiseAttention
  else a

def execTimeBecomesInvalid (now : Nat) (s : State) : Host.Outcome State Fault Refusal := onCore (fun a => (a.at now).loseTime) s

/-- Assertion of the tclk reset alone (R381). -/
def execTclkResetAssert (s : State) : Host.Outcome State Fault Refusal :=
  onCore (fun a => { a.loseTime with ctl := { a.ctl with rstT := true, upT := false } }) s

/-- An edge with tp_step (R438): a step forward of the port count takes effect at once, one back holds the captured value. `now` is
the captured value of the edge before. Until the port count passes it, a held value stands also over a step forward. -/
def Alesh.timeStep (now count : Nat) (a0 : Alesh) : Alesh :=
  let a := a0.at now
  if !a.ctl.upT then a
  else
    { a with clock := { a.clock with captured := Nat.max a.clock.captured count, port := count } }.count
      (if a.clock.port ≤ count then O.TIME_STEP_COUNT else O.TIME_BACK_COUNT)

def execTimeStep (now count : Nat) (s : State) : Host.Outcome State Fault Refusal := onCore (Alesh.timeStep now count) s

/-- The captured value becomes valid (R438); the deadlines that it has passed expire in Timers.lean. -/
def Alesh.timeValid (count : Nat) (a : Alesh) : Alesh :=
  if !a.ctl.upT then a else { a with clock := { captured := Nat.max a.clock.captured count, port := count, valid := true } }

/-! ### Events (R439) -/

/-- EVT_ACK: accepted from INIT to DEGRADED. -/
def evtAck (mask : Nat) (a : Alesh) : Res × Alesh :=
  require (a.ctl.core == .init || a.idleToJob) .stateConflict a
    (require (decide (mask ≤ 0x0B)) .range a
      (.ok, { a with evts := { a.evts with pending := a.evts.pending - (a.evts.pending &&& mask) } }))

def execEvtAck (via : Via) (mask : Nat) (s : State) : Host.Outcome State Fault Refusal :=
  command via O.EVT_ACK false (evtAck mask) s

/-! ### Power management (R434) -/

def Alesh.requestVoltage (a : Alesh) (mv : Nat) : Alesh :=
  { a with pm := { a.pm with vReq := !a.pm.vReq, vMv := mv } }.setNum O.PM_STATE 1
def Alesh.requestFrequency (a : Alesh) (mhz : Nat) : Alesh :=
  { a with pm := { a.pm with fReq := !a.pm.fReq, fMhz := mhz } }.setNum O.PM_STATE 2
def Alesh.moveDone (a : Alesh) : Alesh := { a with pm := { a.pm with target := none } }.setNum O.PM_STATE 0

/-- Begin a move to a frequency point; none while one is incomplete. -/
def Alesh.startMove (a : Alesh) (mhz mv : Nat) (raising : Bool) : Alesh :=
  if a.pm.target.isSome then a
  else
    let b := { a with pm := { a.pm with target := some (mhz, mv), raising := raising } }
    if raising && mv != 0 then b.requestVoltage mv else b.requestFrequency mhz

/-- pm_v_ack: a raise goes on to its frequency, a lowering is done. -/
def Alesh.voltageAck (a : Alesh) : Alesh :=
  match a.pm.target with
  | none => a
  | some (mhz, _) =>
    if a.num O.PM_STATE = 1 then
      let b := { a with pm := { a.pm with vAck := !a.pm.vAck } }
      if b.pm.raising then b.requestFrequency mhz else b.moveDone
    else a

def execPmVoltageAck (s : State) : Host.Outcome State Fault Refusal := onCore Alesh.voltageAck s

/-- pm_f_ack: GOV_MHZ takes the value; a lowering goes on to its voltage. -/
def Alesh.frequencyAck (a : Alesh) : Alesh :=
  match a.pm.target with
  | none => a
  | some (mhz, mv) =>
    if a.num O.PM_STATE = 2 then
      let b := { a with pm := { a.pm with fAck := !a.pm.fAck } }.setNum O.GOV_MHZ mhz
      if b.pm.raising || mv == 0 then b.moveDone else b.requestVoltage mv
    else a

def execPmFrequencyAck (s : State) : Host.Outcome State Fault Refusal := onCore Alesh.frequencyAck s

/-! ### I3C common command codes (R441) -/

/-- The target answers once kclk has left reset (R380). -/
def i3c (f : Mgmt → Mgmt) (a : Alesh) : Alesh :=
  if a.ctl.upK then { a with mgmt := f { a.mgmt with i3cAck := true, i3cOut := [] } }
  else { a with mgmt := { a.mgmt with i3cAck := false, i3cOut := [] } }

def execEnec (mask : Nat) (s : State) : Host.Outcome State Fault Refusal :=
  onCore (i3c fun m => if mask.testBit 0 then { m with events := true } else m) s
def execDisec (mask : Nat) (s : State) : Host.Outcome State Fault Refusal :=
  onCore (i3c fun m => if mask.testBit 0 then { m with events := false } else m) s

/-- RSTDAA: no dynamic address; the static address in I3C_STATIC_ADDR takes effect. -/
def Alesh.rstdaa (a : Alesh) : Alesh :=
  let b := i3c (fun m => { m with staticAddr := a.num O.I3C_STATIC_ADDR }) a
  if a.ctl.upK then b.setNum O.I3C_DYN_ADDR 0 else b
def execRstdaa (s : State) : Host.Outcome State Fault Refusal := onCore Alesh.rstdaa s

/-- Take a dynamic address where a test holds; otherwise the command is not acknowledged. -/
def Alesh.takeAddr (a : Alesh) (t : Bool) (addr : Nat) : Alesh :=
  if a.ctl.upK && t then (i3c id a).setNum O.I3C_DYN_ADDR addr
  else { a with mgmt := { a.mgmt with i3cAck := false, i3cOut := [] } }

/-- ENTDAA: a target without a dynamic address answers with its 48-bit id, BCR and DCR and takes the address. -/
def Alesh.entdaa (addr : Nat) (a : Alesh) : Alesh :=
  let free := a.num O.I3C_DYN_ADDR == 0
  let b := a.takeAddr free addr
  if a.ctl.upK && free then
    { b with mgmt := { b.mgmt with i3cOut := beBytes 6 a.mgmt.pid ++ leBytes 1 a.mgmt.bcr ++ leBytes 1 a.mgmt.dcr } }
  else b
def execEntdaa (addr : Nat) (s : State) : Host.Outcome State Fault Refusal := onCore (Alesh.entdaa addr) s

/-- SETDASA: to the static address, of a target without a dynamic one. -/
def execSetdasa (stat addr : Nat) (s : State) : Host.Outcome State Fault Refusal :=
  onCore (fun a => a.takeAddr (a.num O.I3C_DYN_ADDR == 0 && a.mgmt.staticAddr != 0 && stat == a.mgmt.staticAddr) addr) s
/-- SETNEWDA: to a target with a dynamic address. -/
def execSetnewda (addr : Nat) (s : State) : Host.Outcome State Fault Refusal :=
  onCore (fun a => a.takeAddr (a.num O.I3C_DYN_ADDR != 0) addr) s

def execGetpid (s : State) : Host.Outcome State Fault Refusal := onCore (i3c fun m => { m with i3cOut := beBytes 6 m.pid }) s
def execGetbcr (s : State) : Host.Outcome State Fault Refusal := onCore (i3c fun m => { m with i3cOut := leBytes 1 m.bcr }) s
def execGetdcr (s : State) : Host.Outcome State Fault Refusal := onCore (i3c fun m => { m with i3cOut := leBytes 1 m.dcr }) s
def execGetstatus (s : State) : Host.Outcome State Fault Refusal :=
  onCore (i3c fun m => { m with i3cOut := beBytes 2 (Config.i3cStatus m.out.length) }) s
def execGetmwl (s : State) : Host.Outcome State Fault Refusal := onCore (i3c fun m => { m with i3cOut := beBytes 2 m.mwl }) s
def execGetmrl (s : State) : Host.Outcome State Fault Refusal := onCore (i3c fun m => { m with i3cOut := beBytes 2 m.mrl }) s

/-- A write or read length: 69 to 253 bytes (R442). -/
def busLen (v : Nat) : Nat := if 69 ≤ v ∧ v ≤ 253 then v else Config.busLength v

def execSetmwl (v : Nat) (s : State) : Host.Outcome State Fault Refusal := onCore (i3c fun m => { m with mwl := busLen v }) s
def execSetmrl (v : Nat) (s : State) : Host.Outcome State Fault Refusal := onCore (i3c fun m => { m with mrl := busLen v }) s

/-! ### MCTP control messages (R442; formats of DSP0236, log entry 14) -/

/-- Answer a control message: type 0x00, the command code and the data after a completion code. -/
def Alesh.mctpAnswer (a : Alesh) (dst code : Nat) (data : Bytes) : Alesh :=
  { a with mgmt := { a.mgmt with out := a.mgmt.out ++ [(dst, [0, 0] ++ leBytes 1 code ++ data)] } }

/-- Set Endpoint ID: operations 0 and 1 set it; an id of 0 or 0xFF is refused with completion code 0x02. -/
def Alesh.setEid (src op eid : Nat) (a : Alesh) : Alesh :=
  if !a.ctl.upK then a
  else if op ≤ 1 ∧ eid ≠ 0 ∧ eid < 255 then
    (a.setNum O.MCTP_EID eid).mctpAnswer src 1 ([0, 0] ++ leBytes 1 eid ++ [0])
  else a.mctpAnswer src 1 ([2, 0] ++ leBytes 1 (a.num O.MCTP_EID) ++ [0])
def execSetEndpointId (src op eid : Nat) (s : State) : Host.Outcome State Fault Refusal := onCore (Alesh.setEid src op eid) s

def Alesh.getEid (src : Nat) (a : Alesh) : Alesh :=
  if !a.ctl.upK then a else a.mctpAnswer src 2 ([0] ++ leBytes 1 (a.num O.MCTP_EID) ++ [0, 0])
def execGetEndpointId (src : Nat) (s : State) : Host.Outcome State Fault Refusal := onCore (Alesh.getEid src) s

/-- Get MCTP Version Support: one version entry, 1.3.1, for the supported types. -/
def Alesh.getMctpVersion (src typ : Nat) (a : Alesh) : Alesh :=
  if !a.ctl.upK then a
  else if typ = 0xFF ∨ typ = 0x00 ∨ typ = 0x7F then a.mctpAnswer src 4 ([0, 1] ++ [0xF1, 0xF3, 0xF1, 0x00])
  else a.mctpAnswer src 4 [0x80]
def execGetMctpVersionSupport (src typ : Nat) (s : State) : Host.Outcome State Fault Refusal :=
  onCore (Alesh.getMctpVersion src typ) s

/-- Get Message Type Support: types 0x00 and 0x7F. -/
def Alesh.getTypes (src : Nat) (a : Alesh) : Alesh :=
  if !a.ctl.upK then a else a.mctpAnswer src 5 [0, 2, 0x00, 0x7F]
def execGetMessageTypeSupport (src : Nat) (s : State) : Host.Outcome State Fault Refusal := onCore (Alesh.getTypes src) s

/-- Get Vendor Defined Message Support: the IANA enterprise number VENDOR_PEN, as the only set. -/
def Alesh.getVendor (src selector : Nat) (a : Alesh) : Alesh :=
  if !a.ctl.upK then a
  else if selector = 0 then a.mctpAnswer src 6 ([0, 0xFF, 1] ++ beBytes 4 (a.num O.VENDOR_PEN) ++ [0, 0])
  else a.mctpAnswer src 6 [2]
def execGetVendorDefinedMessageSupport (src selector : Nat) (s : State) : Host.Outcome State Fault Refusal :=
  onCore (Alesh.getVendor src selector) s

/-! ### Test access (R446, R447) -/

/-- WIN_INFO (R357) and the fingerprint input (R280). -/
def Alesh.winInfo (a : Alesh) : Nat := packBits [(0, 16, a.num O.BLOCK_VERSION), (16, 8, a.num O.GENERATION)]
def Alesh.fingerprintInput (a : Alesh) : Bytes :=
  leBytes 32 (packBits [(0, 16, a.num O.BLOCK_VERSION), (16, 8, a.num O.GENERATION), (24, 8, a.num O.STEPPING),
    (32, 32, a.num O.NUMERIC_MODE), (64, 16, a.num O.GRADE)])
/-- SETTINGS_FINGERPRINT (R280). -/
def Alesh.fingerprint (a : Alesh) : Bytes := sha256 ([0x02] ++ a.fingerprintInput)

/-- How the place of a spare row reads in the repair shadow (log entry 75). -/
def placeCode : SramPlace → Nat
  | .tile t => t
  | .column c => 256 + c
  | .control => 512
  | .unit u => 768 + u
/-- The repair shadow's content: failed tiles, failed columns, spare-row assignments (log entry 75). -/
def Alesh.shadowBytes (a : Alesh) : Bytes :=
  a.test.tiles.flatMap (leBytes 1) ++ [0xFF] ++ a.test.cols.flatMap (leBytes 1) ++ [0xFF]
    ++ a.test.rows.flatMap fun x => leBytes 2 (placeCode x.1) ++ leBytes 4 x.2

/-- Intrusive operations take effect in RESET and MAINT alone (R408). -/
def Alesh.testOpen (a : Alesh) : Bool := a.ctl.core == .reset || a.ctl.core == .maint

/-- What an intrusive operation shifts out is not stated: eight free bytes (log entry 6). -/
def Alesh.shiftOut (a : Alesh) : Alesh :=
  { a with test := { a.test with out := (List.range 8).map fun i => Config.freeScan (a.ctl.draws + i) }
           ctl := { a.ctl with draws := a.ctl.draws + 8 } }

def Alesh.testAccess (op : TestOp) (a : Alesh) : Alesh :=
  match op with
  | .bypass => { a with test := { a.test with out := [] } }
  | .extest _ => if a.testOpen then a.shiftOut else a
  | .intest _ => if a.testOpen then a.shiftOut else a
  | .scan _ => if a.testOpen then a.shiftOut else a
  | .mbist => if a.testOpen then a.shiftOut else a
  | .shadowWrite r t c => if a.testOpen then { a with test := { a.test with rows := r, tiles := sortNat t, cols := sortNat c } } else a
  | .shadowRead => { a with test := { a.test with out := a.shadowBytes } }
  | .identity => { a with test := { a.test with out := leBytes 4 a.winInfo ++ a.fingerprintInput } }

def execTestPortAccess (op : TestOp) (s : State) : Host.Outcome State Fault Refusal := onCore (Alesh.testAccess op) s

end Sys2Proof.Machine
end

