-- ==== Sys2Proof/Machine/P384.lean ====
section
/-! DEFINITION. ECDSA signature verification on P-384 (FIPS 186-5, which R215 and R270 name). The curve's constants are
PRESUMED from that standard (log entry 3). -/
namespace Sys2Proof.Machine.P384

def p : Nat := 2 ^ 384 - 2 ^ 128 - 2 ^ 96 + 2 ^ 32 - 1
def n : Nat := 0xffffffffffffffffffffffffffffffffffffffffffffffffc7634d81f4372ddf581a0db248b0a77aecec196accc52973
def b : Nat := 0xb3312fa7e23ee7e4988e056be3f82d19181d9c6efe8141120314088f5013875ac656398d8a2ed19d2a85c8edd3ec2aef
def gx : Nat := 0xaa87ca22be8b05378eb1c71ef320ad746e1d3b628ba79b9859f741e082542a385502f25dbf55296c3a545e3872760ab7
def gy : Nat := 0x3617de4a96262c6f5d9e98bf9292dc29f8f41dbd289a147ce9da3113b5f0b8c00a60b1ce1d7e819d7a431d7c90ea0e5f

/-- `a ^ e mod m`, `e` below `2 ^ bits`. -/
def powModGo (m a e : Nat) : Nat → Nat
  | 0 => 1 % m
  | k + 1 =>
    let r := powModGo m a (e / 2) k
    let s := r * r % m
    if e % 2 = 1 then s * a % m else s

def powMod (m a e : Nat) : Nat := powModGo m (a % m) e 384

/-- The inverse modulo a prime. -/
def inv (m a : Nat) : Nat := powMod m a (m - 2)

def subP (a c : Nat) : Nat := (a + p - c % p) % p

/-- A point in Jacobian coordinates; z = 0 is the point at infinity. -/
structure Pt where
  x : Nat
  y : Nat
  z : Nat
  deriving DecidableEq, Repr

def infinity : Pt := { x := 1, y := 1, z := 0 }

def dbl (q : Pt) : Pt :=
  if q.z = 0 || q.y = 0 then infinity
  else
    let zz := q.z * q.z % p
    let m := 3 * (subP q.x zz) * ((q.x + zz) % p) % p
    let yy := q.y * q.y % p
    let s := 4 * q.x * yy % p
    let x' := subP (m * m) (2 * s)
    { x := x', y := subP (m * subP s x') (8 * yy * yy), z := 2 * q.y * q.z % p }

def addPt (a c : Pt) : Pt :=
  if a.z = 0 then c
  else if c.z = 0 then a
  else
    let z1 := a.z * a.z % p
    let z2 := c.z * c.z % p
    let u1 := a.x * z2 % p
    let u2 := c.x * z1 % p
    let s1 := a.y * z2 * c.z % p
    let s2 := c.y * z1 * a.z % p
    if u1 = u2 then (if s1 = s2 then dbl a else infinity)
    else
      let h := subP u2 u1
      let r := subP s2 s1
      let hh := h * h % p
      let h3 := hh * h % p
      let v := u1 * hh % p
      let x' := subP (subP (r * r) h3) (2 * v)
      { x := x', y := subP (r * subP v x') (s1 * h3), z := a.z * c.z * h % p }

/-- Scalar multiple, bits from the top. -/
def smulGo (k : Nat) (q : Pt) : Nat → Pt → Pt
  | 0, r => r
  | i + 1, r =>
    let d := dbl r
    smulGo k q i (if k / 2 ^ i % 2 = 1 then addPt d q else d)

def smul (k : Nat) (q : Pt) : Pt := smulGo k q 384 infinity

/-- An uncompressed point of 97 bytes on the curve. -/
def point? (key : Bytes) : Option Pt :=
  if key.length = 97 && key.head? = some 4 then
    let x := beNat (slice key 1 48)
    let y := beNat (slice key 49 48)
    if x < p && y < p && y * y % p == (x * x % p * x + (p - 3) * x + b) % p then some { x := x, y := y, z := 1 } else none
  else none

/-- ECDSA verification of `(r, s)` over a 32-byte digest with an uncompressed public key. -/
def verify (key digest : Bytes) (r s : Nat) : Bool :=
  match point? key with
  | none => false
  | some q =>
    if r = 0 || n ≤ r || s = 0 || n ≤ s then false
    else
      let w := inv n s
      let u1 := beNat digest * w % n
      let u2 := r * w % n
      let pt := addPt (smul u1 { x := gx, y := gy, z := 1 }) (smul u2 q)
      if pt.z = 0 then false
      else
        let zi := inv p pt.z
        decide (pt.x * (zi * zi % p) % p % n = r)

end Sys2Proof.Machine.P384
end

