-- ==== Sys2Proof/Machine/Delta.lean ====
section
/-! DEFINITION. The delta compressor (R103 to R106): the page header, the three modes, coding and decoding. -/
namespace Sys2Proof.Machine

/-- The occupancy word of a 64-byte block: bit i set where byte i is not zero. -/
def occupancy : Nat → Bytes → Nat
  | _, [] => 0
  | i, b :: r => (if b = 0 then 0 else 2 ^ i) + occupancy (i + 1) r

/-- The 64-byte blocks of a page. -/
def pageBlocks (d : Bytes) : List Bytes := chunks 64 1024 d

def nonZeroBytes (b : Bytes) : Bytes := b.filter (· != 0)

/-- The SPARSE payload of a page (R103). -/
def sparsePayload (d : Bytes) : Bytes :=
  let bl := pageBlocks d
  let map := occupancy 0 (bl.map fun b => if (nonZeroBytes b).isEmpty then 0 else 1)
  leBytes 128 map ++ bl.flatMap fun b =>
    if (nonZeroBytes b).isEmpty then [] else leBytes 8 (occupancy 0 b) ++ nonZeroBytes b

/-- A page header of MODE and PAYLOAD_BYTES (R103). -/
def deltaHeader (mode n : Nat) : Bytes := leBytes 4 (packBits [(30, 2, mode), (0, 17, n)])

/-- A coded delta page (R103, R104). -/
def deltaEncode (compress : Bool) (d : Bytes) : Bytes :=
  if !compress then deltaHeader 2 d.length ++ d
  else if (nonZeroBytes d).isEmpty then deltaHeader 0 0
  else
    let p := sparsePayload d
    if p.length < 65536 then deltaHeader 1 p.length ++ p else deltaHeader 2 d.length ++ d

/-- Spread a block's non-zero bytes to the places that its occupancy word marks. -/
def spread (occ : Nat) : Nat → Nat → Bytes → Bytes
  | 0, _, _ => []
  | n + 1, i, b => if occ.testBit i then b.headD 0 :: spread occ n (i + 1) b.tail else 0 :: spread occ n (i + 1) b

/-- Read the blocks of a SPARSE payload that a block map marks (R106). -/
def sparseBlocks (map : Nat) : Nat → Nat → Bytes → Option Bytes
  | 0, _, rest => if rest.isEmpty then some [] else none
  | n + 1, i, rest =>
    if map.testBit i then
      if rest.length < 8 then none
      else
        let occ := leAt rest 0 8
        let k := (List.range 64).countP fun j => occ.testBit j
        if occ = 0 ∨ rest.length < 8 + k then none
        else (sparseBlocks map n (i + 1) (rest.drop (8 + k))).map fun t => spread occ 64 0 ((rest.drop 8).take k) ++ t
    else (sparseBlocks map n (i + 1) rest).map fun t => List.replicate 64 0 ++ t

/-- The 65,536 bytes of a coded page; none where it is malformed (R106). -/
def deltaDecode (b : Bytes) : Option Bytes :=
  if b.length < 4 then none
  else
    let h := leAt b 0 4
    let n := bf h 0 17
    let p := b.drop 4
    if p.length ≠ n then none
    else match bf h 30 2 with
      | 0 => if n = 0 then some (List.replicate 65536 0) else none
      | 1 => if n < 128 then none else sparseBlocks (leAt p 0 128) 1024 0 (p.drop 128)
      | 2 => if n = 65536 then some p else none
      | _ => none

end Sys2Proof.Machine
end

