-- ==== Sys2Proof/Machine/Galois.lean ====
section
/-! DEFINITION. The code over GF(2^8): field, coefficients, encoding, decoding (R151 to R153, R164). -/
namespace Sys2Proof.Machine

/-- Multiplication by x modulo 0x11D (R151). -/
def gfX (a : Byte) : Byte := if a.msb then (a <<< 1) ^^^ 0x1D#8 else a <<< 1

def gfMulGo : Nat → Byte → Byte → Byte → Byte
  | 0, _, _, r => r
  | n + 1, a, b, r => gfMulGo n (gfX a) (b >>> 1) (if b.getLsbD 0 then r ^^^ a else r)

/-- Multiplication in the field (R151). -/
def gfMul (a b : Byte) : Byte := gfMulGo 8 a b 0

def gfPow : Nat → Byte → Byte
  | 0, _ => 1
  | n + 1, a => gfMul a (gfPow n a)

/-- The inverse; the inverse of zero is never used. -/
def gfInv (a : Byte) : Byte := gfPow 254 a

/-- The coefficient c(i, j) = 1 / (x_i ⊕ y_j), x_i = i, y_j = 4 + j (R152). -/
def coef (i j : Nat) : Byte := gfInv (BitVec.ofNat 8 i ^^^ BitVec.ofNat 8 (4 + j))

/-- A byte string scaled by a field element (R105, R164). -/
def gfScale (c : Byte) (b : Bytes) : Bytes := b.map (gfMul c)

/-- The generator row of a fragment: a unit row for a data column, coefficients for a parity row (R152). -/
def genRow (k : Nat) (parity : Bool) (index : Nat) : List Byte :=
  (List.range k).map fun j => if parity then coef index j else if j = index then 1 else 0

/-- Row `r` minus `f` times row `p`, with the right-hand side carried along. -/
def rowSub (f : Byte) (p r : List Byte × Bytes) : List Byte × Bytes :=
  (List.zipWith (fun a b => a ^^^ gfMul f b) r.1 p.1, xorBytes r.2 (gfScale f p.2))

/-- Eliminate column `c`: a row with a non-zero entry there becomes the pivot of `done`. -/
def eliminate : Nat → Nat → List (List Byte × Bytes) → List (List Byte × Bytes) → Option (List (List Byte × Bytes))
  | 0, _, done, _ => some done
  | n + 1, c, done, rest =>
    match rest.findIdx? (fun r => r.1.getD c 0 != 0) with
    | none => none
    | some q =>
      let p := rest.getD q ([], [])
      let iv := gfInv (p.1.getD c 0)
      let p' := (p.1.map (gfMul iv), gfScale iv p.2)
      let clear := fun r : List Byte × Bytes => rowSub (r.1.getD c 0) p' r
      eliminate n (c + 1) ((done.map clear) ++ [p']) ((rest.eraseIdx q).map clear)

/-- The k data fragments that k fragments determine (R153); `none` where the rows are singular. -/
def decodeData (k : Nat) (frags : List (Bool × Nat × Bytes)) : Option (List Bytes) :=
  (eliminate k 0 [] ((frags.take k).map fun f => (genRow k f.1 f.2.1, f.2.2))).map fun rows => rows.map (·.2)

/-- Parity fragment `i` of data fragments (R152). -/
def encodeParity (i : Nat) (data : List Bytes) : Bytes :=
  (data.zipIdx.map fun d => gfScale (coef i d.2) d.1).foldl xorBytes []

/-- The fragment asked for, from k fragments of its stripe (R153, R165). -/
def decodeFragment (k : Nat) (frags : List (Bool × Nat × Bytes)) (parity : Bool) (index : Nat) : Option Bytes :=
  (decodeData k frags).map fun d => if parity then encodeParity index d else d.getD index []

end Sys2Proof.Machine
end

