-- ==== Sys2Proof/Machine/Layout.lean ====
section
/-! DEFINITION. The state address space (R27 to R58): slices, slots, page records, the slice map, the layer table. -/
namespace Sys2Proof.Machine

/-! ### Slices and pages (R29 to R34) -/

def gsidOf (shard slice : Nat) : Nat := shard * 65536 + slice
def gsidShard (g : Nat) : Nat := g / 65536
def gsidSlice (g : Nat) : Nat := g % 65536
/-- Slice 0 of every shard is its header slice (R34). -/
def isHeader (g : Nat) : Bool := gsidSlice g == 0

def Alesh.ownShard (a : Alesh) : Nat := a.num O.SHARD_NUMBER
/-- SHARD_PAGES of a shard: this core's, a taken one's (R233), or the plan's (log entry 7). -/
def Alesh.shardPages (a : Alesh) (shard : Nat) : Nat :=
  if shard = a.ownShard then a.num O.SHARD_PAGES
  else
    match a.take.shards.find? fun t => t.1 == shard with
    | some t => t.2.1
    | none => Config.shardPages shard
/-- The slices of a shard. -/
def Alesh.shardSlices (a : Alesh) (shard : Nat) : Nat := ceilDiv (a.shardPages shard) 256
/-- The own shard's slices N (R36). -/
def Alesh.ownSlices (a : Alesh) : Nat := ceilDiv (a.num O.SHARD_PAGES) 256
/-- Pages of a slice that lie below SHARD_PAGES of its shard. -/
def Alesh.slicePages (a : Alesh) (g : Nat) : Nat := min 256 (a.shardPages (gsidShard g) - 256 * gsidSlice g)

def Alesh.recBytes (a : Alesh) : Nat := a.num O.RECORD_BYTES
/-- E of R31. -/
def Alesh.perSlice (a : Alesh) : Nat := sliceBytes / a.recBytes
/-- Records of a slice: the replicated ones of a header slice (R56); of an element slice those that lie wholly below
SHARD_PAGES (R31, log entry 16). -/
def Alesh.records (a : Alesh) (g : Nat) : Nat :=
  if isHeader g then a.num O.REPL_RECORDS else min a.perSlice (a.slicePages g * pageBytes / a.recBytes)
/-- RECORD_BYTES of a shard: this core's for its own and for taken shards, whose blocks state none; else the plan's. -/
def Alesh.recBytesOf (a : Alesh) (shard : Nat) : Nat :=
  if shard = a.ownShard || a.take.shards.any (fun t => t.1 == shard) then a.recBytes else Config.shardRecordBytes shard
/-- Values of the gradient slice of a slice of the job (R126). -/
def Alesh.gradCount (a : Alesh) (g : Nat) : Nat :=
  if isHeader g then a.num O.REPL_RECORDS
  else
    let r := a.recBytesOf (gsidShard g)
    min (sliceBytes / r) (a.slicePages g * pageBytes / r)
/-- Where a record starts in its slice (R31, R56). -/
def Alesh.recordByte (a : Alesh) (g j : Nat) : Nat := (if isHeader g then 0x90000 else 0) + j * a.recBytes

/-! ### The layer table (R66) -/

structure LayerEntry where
  base : Nat
  layer : Nat
  slot : Nat
  elems : Nat
  deriving DecidableEq, Repr

def LayerEntry.ofWord (w : Nat) : LayerEntry :=
  { base := bf w 80 48, layer := bf w 64 16, slot := bf w 61 3, elems := bf w 0 48 }
def LayerEntry.word (e : LayerEntry) : Nat := packBits [(80, 48, e.base), (64, 16, e.layer), (61, 3, e.slot), (0, 48, e.elems)]

def layerEntries (n : Nat) (tab : Bytes) : List LayerEntry := (List.range n).map fun i => LayerEntry.ofWord (leAt tab (16 * i) 16)
def Alesh.layers (a : Alesh) : List LayerEntry := layerEntries (a.num O.LAYER_COUNT) (a.dom O.LAYER_TABLE)

/-- The entry of an element: the largest BASE_INDEX not above its index. -/
def entryOf (ls : List LayerEntry) (x : Nat) : Option LayerEntry := (ls.filter fun e => decide (e.base ≤ x)).getLast?

/-- The distinct LAYER_IDs, increasing. -/
def Alesh.layerIds (a : Alesh) : List Nat := sortNat (a.layers.map (·.layer))

/-- The layer table as configured, without the blocks of taken shards. -/
def Alesh.ownLayers (a : Alesh) : List LayerEntry :=
  layerEntries (lookupD 0 a.dict.nums O.LAYER_COUNT) ((lookup? a.dict.doms O.LAYER_TABLE).getD [])
/-- First global element index of slice 1 of a shard (R32): a taken shard's from its block, the own one's from the layer
table as configured, which no merged block changes (log entry 17), another's from the plan. -/
def Alesh.shardFirst (a : Alesh) (shard : Nat) : Nat :=
  if shard = a.ownShard then
    (((a.ownLayers.map (·.base)).filter fun b => decide (a.num O.REPL_RECORDS ≤ b)).head?).getD (a.num O.REPL_RECORDS)
  else
    match a.take.shards.find? fun t => t.1 == shard with
    | some t => t.2.2
    | none => Config.shardFirst shard

/-- Global element index of a slice's first record; zero for a header slice (R43). -/
def Alesh.elementBase (a : Alesh) (g : Nat) : Nat :=
  if isHeader g then 0 else a.shardFirst (gsidShard g) + (gsidSlice g - 1) * a.perSlice

/-! ### Recipes of a slice (R63, R66) -/

def Alesh.recipe (a : Alesh) (slot : Nat) : Recipe := Recipe.parse (a.dom (O.RECIPE_DESC + slot))
def Alesh.recipeConsts (a : Alesh) (slot : Nat) : List F32 :=
  (List.range 16).map fun i => BitVec.ofNat 32 (a.num (O.RECIPE_CONST + 256 * slot + i))
/-- A slot holds a descriptor (R67). -/
def Alesh.recipeLoaded (a : Alesh) (slot : Nat) : Bool := !(a.dom (O.RECIPE_DESC + slot)).isEmpty
/-- The layer entries that records of a slice belong to. -/
def Alesh.sliceEntries (a : Alesh) (g : Nat) : List LayerEntry :=
  let lo := a.elementBase g
  let hi := lo + a.records g
  let ls := a.layers
  (ls.zip ((ls.drop 1).map (·.base) ++ [2 ^ 48])).filterMap fun p => if decide (p.1.base < hi) && decide (lo < p.2) then some p.1 else none
/-- The recipe of an element. -/
def Alesh.elemRecipe (a : Alesh) (x : Nat) : Option (LayerEntry × Recipe) :=
  (entryOf a.layers x).map fun e => (e, a.recipe e.slot)

/-! ### Slots and the slice map (R36 to R39) -/

/-- State slots without takeover slots, and with them (R36, R232). -/
def Alesh.ringEnd (a : Alesh) : Nat := a.ownSlices + a.num O.RING_SLOTS
def Alesh.slotCount (a : Alesh) : Nat := a.ringEnd + a.num O.TAKEOVER_SLOTS
def Alesh.slotFree (a : Alesh) (j : Nat) : Bool :=
  !(a.slots.map.any fun p => p.2 == j) && !(a.slots.pend.any fun p => p.2 == j) && !a.slots.releasing.contains j
    && !(a.take.frozen.any fun p => p.2 == j)
/-- Slots that an update may claim, lowest first (R38). -/
def Alesh.claimable (a : Alesh) : List Nat :=
  (List.range a.slotCount).filter fun j => a.slotFree j && (decide (j < a.ringEnd) || a.slots.opened.contains j)
/-- RING_FREE. -/
def Alesh.ringFree (a : Alesh) : Nat := a.claimable.length
def Alesh.liveSlot (a : Alesh) (g : Nat) : Option Nat := lookup? a.slots.map g
def Alesh.pendSlot (a : Alesh) (g : Nat) : Option Nat := lookup? a.slots.pend g
/-- The slices that this core owns: those of its coded sequence that are mapped or await a slot (R231). -/
def Alesh.ownedSlices (a : Alesh) : List Nat := a.take.owned
def Alesh.owns (a : Alesh) (g : Nat) : Bool := a.take.owned.contains g

def Alesh.pageAddr (a : Alesh) (slot page : Nat) : Nat := a.num O.STATE_BASE + slot * sliceBytes + page * pageBytes
def Alesh.metaAddr (a : Alesh) (slot page : Nat) : Nat := a.num O.META_BASE + (256 * slot + page) * 64

/-- A slot leaves use: it is free at once unless a Plate pins it, COMMIT having been sent in the same cclk (R38). -/
def Alesh.releaseSlot (a : Alesh) (j : Nat) : Alesh :=
  if a.slots.pins.contains j then { a with slots := { a.slots with releasing := insertNat a.slots.releasing j } } else a
def Alesh.mapSlice (a : Alesh) (g j : Nat) : Alesh := { a with slots := { a.slots with map := assign a.slots.map g j } }
def Alesh.unmapSlice (a : Alesh) (g : Nat) : Alesh :=
  { a with slots := { a.slots with map := a.slots.map.filter fun p => p.1 != g } }
/-- A pending slot returns to free (R38). -/
def Alesh.dropPending (a : Alesh) (g : Nat) : Alesh :=
  { a with slots := { a.slots with pend := a.slots.pend.filter fun p => p.1 != g } }

/-! ### Page records (R42 to R45) -/

structure PageRec where
  frag : Nat
  job : Nat
  memb : Nat
  page : Nat
  slice : Nat
  shard : Nat
  owner : Nat
  crc : Nat
  base : Nat
  step : Nat
  version : Nat
  flags : Nat
  kind : Nat
  deriving DecidableEq, Repr

def PageRec.ofWord (w : Nat) : PageRec :=
  { frag := bf w 336 5, job := bf w 304 32, memb := bf w 272 32, page := bf w 256 8, slice := bf w 240 16
    shard := bf w 224 16, owner := bf w 192 18, crc := bf w 128 64, base := bf w 80 48, step := bf w 32 48
    version := bf w 24 4, flags := bf w 8 16, kind := bf w 0 4 }
def PageRec.bytes (r : PageRec) : Bytes :=
  leBytes 64 (packBits [(336, 5, r.frag), (304, 32, r.job), (272, 32, r.memb), (256, 8, r.page), (240, 16, r.slice),
    (224, 16, r.shard), (192, 18, r.owner), (128, 64, r.crc), (80, 48, r.base), (32, 48, r.step), (24, 4, r.version),
    (8, 16, r.flags), (0, 4, r.kind)])

def kState : Nat := 1
def kParity : Nat := 2
def kHeader : Nat := 3
def kReplicated : Nat := 4

/-- FLAGS bits (R44). -/
def flValid : Nat := 0
def flRetired : Nat := 1
def flTaken : Nat := 2
def flPinned : Nat := 3
def flGroups : Nat := 4
def flAbsent : Nat := 5

def PageRec.has (r : PageRec) (bit : Nat) : Bool := r.flags.testBit bit
def PageRec.valid (r : PageRec) : Bool := r.has flValid
def PageRec.absent (r : PageRec) : Bool := r.has flAbsent
def PageRec.setFlag (r : PageRec) (bit : Nat) (on : Bool) : PageRec :=
  { r with flags := if on then r.flags ||| 2 ^ bit else r.flags - (r.flags &&& 2 ^ bit) }

/-- An initial record (R387). -/
def PageRec.blank (kind : Nat) : PageRec :=
  { frag := 0, job := 0, memb := 0, page := 0, slice := 0, shard := 0, owner := 0, crc := 0, base := 0, step := 0
    version := 1, flags := 0, kind := kind }

def Alesh.pageRec (a : Alesh) (slot page : Nat) : PageRec := PageRec.ofWord (a.rdLe (a.metaAddr slot page) 64)
def Alesh.setRec (a : Alesh) (slot page : Nat) (r : PageRec) : Alesh := a.wr (a.metaAddr slot page) r.bytes

/-- KIND of a page (R45). -/
def Alesh.pageKind (g page : Nat) : Nat := if !isHeader g then kState else if page ≤ 8 then kHeader else kReplicated

/-- The slice is of this core's shard, or it was taken and its shard's block for the epoch of that adoption is merged (R233). -/
def Alesh.hasBlock (a : Alesh) (g : Nat) : Bool :=
  gsidShard g == a.ownShard || ((a.take.shards.any fun t => t.1 == gsidShard g) && !a.take.unmerged.contains g)
/-- A page is ABSENT (R232): it is listed, or its slice has been taken and its shard's block, which gives the pages that the
shard has, is not merged yet. -/
def Alesh.isAbsent (a : Alesh) (g page : Nat) : Bool :=
  a.take.absent.contains (g * 256 + page) || ((lookup? a.slots.map g).isSome && !a.hasBlock g)

/-- Mapped slices that wait for their shard's block: every page of them is ABSENT (R232, R233). -/
def Alesh.waitsBlock (a : Alesh) : List Nat :=
  a.take.owned.filter fun g => (lookup? a.slots.map g).isSome && !a.hasBlock g
/-- The core owns an ABSENT page (R237, R246). -/
def Alesh.ownsAbsent (a : Alesh) : Bool := !a.take.absent.isEmpty || !a.waitsBlock.isEmpty

/-- An error stands against a page or the page that holds its record, or its repair is under way (R400, R414). -/
def Alesh.errorAt (a : Alesh) (g slot page : Nat) : Bool :=
  a.errs.bad.contains (a.pageAddr slot page / pageBytes) || a.errs.bad.contains (a.metaAddr slot page / pageBytes)
    || a.take.rebuilds.any fun r => r.gsid == g && r.page == page && r.why == 0
/-- What a reader checks of every record, VALID or not (R45, R387): VERSION 0x1, and a KIND that is no reserved encoding. -/
def PageRec.wellFormed (r : PageRec) : Bool := r.version == 1 && decide (1 ≤ r.kind) && decide (r.kind ≤ 4)
/-- A VALID page's record can be read: it names the page, and no error stands against the page that holds it. -/
def Alesh.recordGood (a : Alesh) (g slot page : Nat) : Bool :=
  let r := a.pageRec slot page
  r.valid && r.version == 1 && r.kind == Alesh.pageKind g page && r.job == a.num O.JOB_ID && r.shard == gsidShard g
    && r.slice == gsidSlice g && r.page == page && !a.errs.bad.contains (a.metaAddr slot page / pageBytes)
/-- The check of R47 on a page with VALID = 1, and of a page known bad (R15, R400); of a page with VALID = 0, that of R387. -/
def Alesh.pageGood (a : Alesh) (g slot page : Nat) : Bool :=
  let r := a.pageRec slot page
  r.wellFormed && (!r.valid
    || (r.version == 1 && r.kind == Alesh.pageKind g page && r.job == a.num O.JOB_ID && r.shard == gsidShard g
        && r.slice == gsidSlice g && r.page == page && !a.errorAt g slot page
        && r.crc == crc64 (a.rd (a.pageAddr slot page) pageBytes)))
/-- A page of a live slice may be read: it is not ABSENT (R48), and its check holds; a page that the slice does not have reads
as zero. -/
def Alesh.pageReady (a : Alesh) (g page : Nat) : Bool :=
  decide (a.slicePages g ≤ page) || match a.liveSlot g with
    | some j => !a.isAbsent g page && a.pageGood g j page
    | none => false
/-- A page of Tier 0 lies on a spare (R405). -/
def Alesh.onSpare (a : Alesh) (addr : Nat) : Bool := (lookup? a.errs.retired (addr / pageBytes)).isSome

/-- The bytes of a logical page in a slot: zero where it is not VALID or lies at or above SHARD_PAGES (R48). -/
def Alesh.slotPage (a : Alesh) (g slot page : Nat) : Bytes :=
  if decide (a.slicePages g ≤ page) || !(a.pageRec slot page).valid then List.replicate pageBytes 0
  else a.rd (a.pageAddr slot page) pageBytes

/-- The bytes of a logical page of a live slice; zero where it is unmapped or ABSENT (R48). -/
def Alesh.livePage (a : Alesh) (g page : Nat) : Bytes :=
  match a.liveSlot g with
  | some j => if a.isAbsent g page then List.replicate pageBytes 0 else a.slotPage g j page
  | none => List.replicate pageBytes 0

/-- A run of bytes of a live slice, from the pages it touches. -/
def Alesh.liveBytes (a : Alesh) (g off n : Nat) : Bytes :=
  (pageRuns (n / pageBytes + 2) off n).flatMap fun r => slice (a.livePage g (r.1 / pageBytes)) (r.1 % pageBytes) r.2

/-- STEP_EPOCH of a live page. -/
def Alesh.liveStep (a : Alesh) (g page : Nat) : Nat :=
  match a.liveSlot g with
  | some j => (a.pageRec j page).step
  | none => 0
def Alesh.liveValid (a : Alesh) (g page : Nat) : Bool :=
  match a.liveSlot g with
  | some j => decide (page < a.slicePages g) && (a.pageRec j page).valid && !a.isAbsent g page
  | none => false

/-- A slice is owned by a core other than the one that formed its shard (R44). -/
def Alesh.takenSlice (a : Alesh) (g : Nat) : Bool := gsidShard g != a.ownShard

/-- PLATE_INTERVAL_ACTIVE never exceeds PLATE_INTERVAL (R254). -/
def Alesh.capInterval (a : Alesh) : Alesh :=
  a.setNum O.PLATE_INTERVAL_ACTIVE (min (a.num O.PLATE_INTERVAL_ACTIVE) (a.num O.PLATE_INTERVAL))

/-! ### Scalars of the job -/

def scalarPage : Nat := 8
/-- The scalar page's fields (R34): of the own header slice where it is VALID, else the commencement block's seeds (R395). -/
def Alesh.jobSeed (a : Alesh) : Nat :=
  let h := gsidOf a.ownShard 0
  if a.liveValid h scalarPage then leAt (a.livePage h scalarPage) 8 8 else a.num O.COMMENCE_JOB_SEED
def Alesh.dataSeed (a : Alesh) : Nat :=
  let h := gsidOf a.ownShard 0
  if a.liveValid h scalarPage then leAt (a.livePage h scalarPage) 16 8 else a.num O.COMMENCE_DATA_SEED

/-- The page that the scalars of the job are read from, where it is VALID. -/
def Alesh.seedPages (a : Alesh) : List (Nat × Nat) :=
  let h := gsidOf a.ownShard 0
  if a.liveValid h scalarPage then [(h, scalarPage)] else []

/-- The header slice from which this core reads. -/
def Alesh.headerSlice (a : Alesh) : Nat := match a.take.owned.find? isHeader with | some g => g | none => gsidOf a.ownShard 0
/-- The header page that holds a layer's exponent (R70). -/
def Alesh.expPage (a : Alesh) (layer : Nat) : Nat := (a.num O.LAYER_EXP_BASE + layer) / pageBytes
/-- A layer's exponent X_L (R70), from the header slice of this core. -/
def Alesh.layerExp (a : Alesh) (layer : Nat) : Int :=
  let h := a.headerSlice
  signedOf 8 (leNat (a.liveBytes h (a.num O.LAYER_EXP_BASE + layer) 1))

/-- The header pages whose exponents the records of a slice use. -/
def Alesh.expPages (a : Alesh) (g : Nat) : List (Nat × Nat) :=
  (sortNat ((a.sliceEntries g).map fun e => a.expPage e.layer)).map fun p => (a.headerSlice, p)
/-- Header pages that hold an exponent of the slice outside −126 to 126: they are damaged (R70). -/
def Alesh.badExps (a : Alesh) (g : Nat) : List Nat :=
  sortNat (((a.sliceEntries g).filter fun e => !(decide (-126 ≤ a.layerExp e.layer) && decide (a.layerExp e.layer ≤ 126))).map
    fun e => a.expPage e.layer)

/-- The learning rate of a step epoch (R71). -/
def Alesh.eta (a : Alesh) (t : Nat) : F32 := learningRate (lrPoints (a.num O.LR_POINTS) (a.dom O.LR_TABLE)) t

/-! ### Skip units (R82) -/

/-- The units of a slice: (first page, page count). -/
def Alesh.units (a : Alesh) (g : Nat) : List (Nat × Nat) := skipUnits (isHeader g) a.recBytes
def Alesh.unitOf (a : Alesh) (g page : Nat) : Nat × Nat :=
  ((a.units g).find? fun u => decide (u.1 ≤ page) && decide (page < u.1 + u.2)).getD (page, 1)
/-- The record positions of a unit: those that lie in its pages (no record straddles two units). -/
def Alesh.unitRecords (a : Alesh) (g : Nat) (u : Nat × Nat) : List Nat :=
  let start := if isHeader g then 0x90000 else 0
  let r := a.recBytes
  let lo := ceilDiv (u.1 * pageBytes - start) r
  let hi := ((u.1 + u.2) * pageBytes - start) / r
  if isHeader g && u.1 == 0 then []
  else ((List.range (min hi (a.records g) - lo)).map (lo + ·))

end Sys2Proof.Machine
end

