-- ==== Sys2Proof/Machine/PcMath.lean ====
section
/-! DEFINITION. The preconditioner's arithmetic (R108, R111 to R117): entries, fixed-order products and sums, block
statistics, inverse roots and the target's S0. -/
namespace Sys2Proof.Machine

/-- A preconditioner-table entry (R111). -/
structure PcEntry where
  target : Nat
  base : Nat
  rows : Nat
  cols : Nat
  statL : Nat
  statR : Nat
  mode : Nat
  dim : Nat
  rootP : Nat
  iters : Nat
  refresh : Nat
  version : Nat
  phase : Nat
  eps : F32
  deriving DecidableEq, Repr

def PcEntry.ofWord (w : Nat) : PcEntry :=
  { target := bf w 240 16, base := bf w 192 48, rows := bf w 172 20, cols := bf w 152 20, statL := bf w 136 16
    statR := bf w 120 16, mode := bf w 84 4, dim := bf w 82 2, rootP := bf w 80 2, iters := bf w 72 8
    refresh := bf w 56 16, version := bf w 52 4, phase := bf w 36 16, eps := BitVec.ofNat 32 (bf w 0 32) }

def pcEntries (n : Nat) (tab : Bytes) : List PcEntry := (List.range n).map fun i => PcEntry.ofWord (leAt tab (32 * i) 32)

/-- Block dimension D. -/
def PcEntry.d (e : PcEntry) : Nat := 64 * 2 ^ e.dim
/-- A refresh epoch of the entry (R116). -/
def PcEntry.isRefresh (e : PcEntry) (epoch : Nat) : Bool := (epoch - 1) % e.refresh == e.phase
/-- The number of blocks (R115). -/
def PcEntry.blocks (e : PcEntry) : Nat := if e.mode = 1 then (e.rows / e.d) * (e.cols / e.d) else if e.mode = 2 then e.rows / e.d else 0

/-- Records that the entry asks of STAT_L and of STAT_R (R112). -/
def PcEntry.statCounts (e : PcEntry) : Nat × Nat :=
  match e.mode with
  | 0 => (e.rows, e.cols)
  | 1 => (e.rows * e.cols, e.rows * e.cols)
  | _ => (e.rows * e.d, 0)

abbrev Mat := List (List F32)

def Mat.at (m : Mat) (r c : Nat) : F32 := (m.getD r []).getD c Fp.posZero
def Mat.build (r c : Nat) (f : Nat → Nat → F32) : Mat := (List.range r).map fun i => (List.range c).map fun j => f i j
/-- A sum from +0.0 in increasing index order (R108). -/
def seqSum (l : List F32) : F32 := l.foldl Fp.add Fp.posZero
/-- One element of a product (R108). -/
def dot (n : Nat) (f g : Nat → F32) : F32 := (List.range n).foldl (fun acc k => Fp.fma (f k) (g k) acc) Fp.posZero
/-- A product of an `r × n` and an `n × c` matrix (R108). -/
def matMul (r n c : Nat) (a b : Mat) : Mat := Mat.build r c fun i j => dot n (fun k => a.at i k) (fun k => b.at k j)
def Mat.transpose (r c : Nat) (m : Mat) : Mat := Mat.build c r fun i j => m.at j i

/-- One value −0.5, and 1.5, of R116. -/
def minusHalf : F32 := 0xBF000000#32
def oneAndHalf : F32 := 0x3FC00000#32

/-- The Newton–Schulz iterations of R116, from `(y, z)`. -/
def nsLoop (d : Nat) : Nat → Mat → Mat → Mat × Mat
  | 0, y, z => (y, z)
  | n + 1, y, z =>
    let m := matMul d d d z y
    let t := Mat.build d d fun i j => Fp.fma minusHalf (m.at i j) (if i = j then oneAndHalf else Fp.posZero)
    nsLoop d n (matMul d d d y t) (matMul d d d t z)

/-- `run` of R116; none where it fails. -/
def nsRun (d iters : Nat) (a : Mat) : Option (Mat × Mat × F32) :=
  let s := seqSum ((List.range d).map fun i => a.at i i)
  if !Fp.isFinite s || Fp.isNeg s || Fp.isZero s then none
  else
    let y := Mat.build d d fun i j => Fp.div (a.at i j) s
    let z := Mat.build d d fun i j => if i = j then Fp.one else Fp.posZero
    let (y1, z1) := nsLoop d iters y z
    some (y1, z1, s)

/-- The root of a block's statistic matrix (R116). -/
def blockRoot (e : PcEntry) (l : Mat) : Option Mat :=
  let d := e.d
  let a := Mat.build d d fun i j => Fp.add (l.at i j) (if i = j then e.eps else Fp.posZero)
  match nsRun d e.iters a with
  | none => none
  | some (y1, z1, s1) =>
    if e.rootP = 0 then
      let f := Fp.rsqrt s1
      some (Mat.build d d fun i j => Fp.mul (z1.at i j) f)
    else match nsRun d e.iters y1 with
      | none => none
      | some (_, z2, s2) =>
        let f := Fp.mul (Fp.rsqrt s2) (Fp.rsqrt (Fp.sqrt s1))
        some (Mat.build d d fun i j => Fp.mul (z2.at i j) f)

/-- Block `b` of a target with gradient `g (i, j)` (R115): a matrix under BLOCK, a column under VECTOR. -/
def pcBlock (e : PcEntry) (g : Nat → F32) (b : Nat) : Mat :=
  if e.mode = 1 then
    let per := e.cols / e.d
    Mat.build e.d e.d fun r c => g ((b / per * e.d + r) * e.cols + (b % per * e.d + c))
  else Mat.build e.d 1 fun r _ => g (b * e.d + r)

/-- The statistic increments of STAT_L and STAT_R, in statistic element order (R113, R115). -/
def pcIncrements (e : PcEntry) (g : Nat → F32) : List F32 × List F32 :=
  if e.mode = 0 then
    let t := fun i j => let x := g (i * e.cols + j); Fp.fma x x e.eps
    ((List.range e.rows).map fun i => Fp.div (seqSum ((List.range e.cols).map fun j => t i j)) (Fp.ofNat e.cols),
     (List.range e.cols).map fun j => Fp.div (seqSum ((List.range e.rows).map fun i => t i j)) (Fp.ofNat e.rows))
  else
    let d := e.d
    let w := if e.mode = 1 then d else 1
    let per := (List.range e.blocks).map fun b =>
      let gb := pcBlock e g b
      let gt := Mat.transpose d w gb
      (matMul d w d gb gt, if e.mode = 1 then matMul w d w gt gb else [])
    (per.flatMap fun p => p.1.flatten, per.flatMap fun p => p.2.flatten)

/-- A block's matrix read from statistic values in element order. -/
def statBlock (e : PcEntry) (vals : Nat → F32) (b : Nat) : Mat := Mat.build e.d e.d fun r c => vals (b * e.d * e.d + r * e.d + c)

/-- S0 of every target element (R114, R117), in row-major order. -/
def pcTarget (e : PcEntry) (g l r : Nat → F32) : List F32 :=
  if e.mode = 0 then
    let s := seqSum ((List.range e.rows).map l)
    (List.range (e.rows * e.cols)).map fun q => Fp.div (Fp.mul (l (q / e.cols)) (r (q % e.cols))) s
  else if e.mode = 1 then
    let d := e.d
    let per := e.cols / d
    let blocks := (List.range e.blocks).map fun b =>
      matMul d d d (matMul d d d (statBlock e l b) (pcBlock e g b)) (statBlock e r b)
    (List.range (e.rows * e.cols)).map fun q =>
      let i := q / e.cols
      let j := q % e.cols
      Mat.at (blocks.getD (i / d * per + j / d) []) (i % d) (j % d)
  else
    let d := e.d
    (List.range e.blocks).flatMap fun b => (matMul d d 1 (statBlock e l b) (pcBlock e g b)).map fun row => row.headD Fp.posZero

end Sys2Proof.Machine
end

