-- ==== Sys2Proof/Machine/Precond.lean ====
section
/-! DEFINITION. Records of a layer on this core, their values, and the preconditioner array's phases (R84, R107 to R121). -/
namespace Sys2Proof.Machine

/-! ### Progress of a slice -/

def Alesh.prog? (a : Alesh) (g : Nat) : Option Prog := a.progs.find? fun p => p.gsid == g
def Alesh.modProg (a : Alesh) (g : Nat) (f : Prog → Prog) : Alesh := { a with progs := modWhere (fun p => p.gsid == g) f a.progs }
def Prog.fresh (g last : Nat) : Prog :=
  { gsid := g, last := last, fence := last, grads := [], gradPages := [], marks := [], upd := none, undecided := false }
/-- The reduced gradient of a slice at an epoch, once owner combine is complete (R125). -/
def Alesh.grad? (a : Alesh) (g e : Nat) : Option (List F32) := (a.prog? g).bind fun p => lookup? p.grads e
/-- First pages of the null units at an epoch, once marked (R83). -/
def Alesh.marks? (a : Alesh) (g e : Nat) : Option (List Nat) :=
  (a.prog? g).bind fun p => lookup? p.marks e
/-- The slice has committed at an epoch or counts as committed (R18). -/
def Alesh.committed (a : Alesh) (g e : Nat) : Bool := ((a.prog? g).map fun p => decide (e ≤ p.last)).getD false

/-! ### Records of a layer on this core (R86, R111) -/

/-- A run of consecutive records: first index, count, slice, first position. -/
structure RecRun where
  first : Nat
  count : Nat
  gsid : Nat
  pos : Nat
  deriving DecidableEq, Repr

/-- The slices whose records stand for this core's: of the header slices, which are all alike (R35), one. -/
def Alesh.recordSlices (a : Alesh) : List Nat :=
  let gs := a.take.owned.filter a.hasBlock
  (gs.filter isHeader).take 1 ++ gs.filter fun g => !isHeader g

/-- The runs of a layer, in global element index order. -/
def Alesh.layerRuns (a : Alesh) (layer : Nat) : List RecRun :=
  let ls := a.layers
  let spans := (ls.zip ((ls.drop 1).map (·.base) ++ [2 ^ 48])).filterMap fun p =>
    if p.1.layer = layer then some (p.1.base, p.2) else none
  let runs := a.recordSlices.flatMap fun g =>
    let b := a.elementBase g
    let n := a.records g
    spans.filterMap fun s =>
      let lo := Nat.max b s.1
      let hi := min (b + n) s.2
      if lo < hi then some { first := lo, count := hi - lo, gsid := g, pos := lo - b : RecRun } else none
  sortBy (·.first) runs

/-- The number of a layer's records on this core. -/
def Alesh.layerRecords (a : Alesh) (layer : Nat) : Nat := sumNat ((a.layerRuns layer).map (·.count))

/-- Slice and position of the q-th record of runs. -/
def runAt : List RecRun → Nat → Option (Nat × Nat)
  | [], _ => none
  | r :: rs, q => if q < r.count then some (r.gsid, r.pos + q) else runAt rs (q - r.count)
/-- The rank of an element index in runs. -/
def rankIn : List RecRun → Nat → Nat → Option Nat
  | [], _, _ => none
  | r :: rs, x, n => if r.first ≤ x ∧ x < r.first + r.count then some (n + (x - r.first)) else rankIn rs x (n + r.count)

/-- Slice and position of an element index that this core holds. -/
def Alesh.locate (a : Alesh) (x : Nat) : Option (Nat × Nat) :=
  (a.recordSlices.find? fun g => decide (a.elementBase g ≤ x) && decide (x < a.elementBase g + a.records g)).map fun g =>
    (g, x - a.elementBase g)

/-! ### Values of a record (R68, R84) -/

/-- The page whose STEP_EPOCH and VALID a record's unit carries. -/
def Alesh.recPage (a : Alesh) (g j : Nat) : Nat := (a.unitOf g (a.recordByte g j / pageBytes)).1

/-- Field values of a record in a slot at epoch `e`: catch-up over the steps since its unit was written. -/
def Alesh.slotVals (a : Alesh) (g slot j e : Nat) : List F32 :=
  match a.elemRecipe (a.elementBase g + j) with
  | none => []
  | some (le, r) =>
    let p := a.pageRec slot (a.recPage g j)
    let off := a.recordByte g j
    let raw := (pageRuns 3 off a.recBytes).flatMap fun q =>
      slice (a.slotPage g slot (q.1 / pageBytes)) (q.1 % pageBytes) q.2
    fieldValues r (a.recipeConsts le.slot) (a.layerExp le.layer) (p.valid && !a.isAbsent g (a.recPage g j)) (e - p.step)
      (splitFields r.fields raw)

/-- Logical field values of a live record at epoch `e`. -/
def Alesh.liveVals (a : Alesh) (g j e : Nat) : List F32 :=
  match a.liveSlot g with
  | some s => a.slotVals g s j e
  | none => []

/-- Field values of step epoch `e` while the slice may still be pending: the pending slot's where the unit was written at
`e`, else the live ones caught up to `base` (R114). -/
def Alesh.stepVals (a : Alesh) (g j e base : Nat) : List F32 :=
  match a.pendSlot g, (a.marks? g e).map fun m => m.contains (a.recPage g j) with
  | some s, some false => a.slotVals g s j e
  | _, _ =>
    match a.liveSlot g with
    | some s => a.slotVals g s j (Nat.max base (a.pageRec s (a.recPage g j)).step)
    | none => []

/-! ### Entries and deliveries -/

def Alesh.pcTable (a : Alesh) : List PcEntry := pcEntries (a.num O.PC_COUNT) (a.dom O.PC_TABLE)

/-- The entry and side (0 left, 1 right) that name a layer as a statistic. -/
def statOf (t : List PcEntry) (layer : Nat) : Option (Nat × PcEntry × Nat) :=
  (t.zipIdx.find? fun p => p.1.statL == layer || (p.1.mode != 2 && p.1.statR == layer)).map fun p =>
    (p.2, p.1, if p.1.statL = layer then 0 else 1)
/-- The entry whose target holds an element; of two whose targets share it, the first in the table (R112 refuses neither; DESIGN
CHOICE, log entry 149). -/
def targetOf (t : List PcEntry) (layer x : Nat) : Option (Nat × PcEntry) :=
  (t.zipIdx.find? fun p => p.1.target == layer && decide (p.1.base ≤ x) && decide (x < p.1.base + p.1.rows * p.1.cols)).map
    fun p => (p.2, p.1)

def Alesh.pcOut? (a : Alesh) (entry e which : Nat) : Option (List F32) :=
  (a.pub.pc.find? fun o => o.entry == entry && o.epoch == e && o.which == which).map (·.vals)
def Alesh.addPc (a : Alesh) (entry e which : Nat) (vals : List F32) : Alesh :=
  { a with pub := { a.pub with pc := a.pub.pc.filter (fun o => !(o.entry == entry && o.epoch == e && o.which == which))
                                      ++ [{ entry := entry, epoch := e, which := which, vals := vals }] } }

/-- The gradient of a record at epoch `e`: a statistic record takes the preconditioner's increment (R113, R115), every other
the reduced gradient; none while it is not complete. -/
def Alesh.gradAt (a : Alesh) (g j e : Nat) : Option F32 :=
  let x := a.elementBase g + j
  match entryOf a.layers x with
  | none => none
  | some le =>
    match statOf a.pcTable le.layer with
    | some (k, _, side) => (a.pcOut? k e side).bind fun v => (rankIn (a.layerRuns le.layer) x 0).map fun q => v.getD q Fp.posZero
    | none => (a.grad? g e).map fun v => v.getD j Fp.posZero

/-- Statistic values S0 to S3 of a record (R112, R114, R116, R117); none while a value it reads is not delivered. Those that no
rule states are free (log entry 51). -/
def Alesh.statsAt (a : Alesh) (g j e : Nat) (r : Recipe) : Option (List F32) :=
  let x := a.elementBase g + j
  let free : List F32 := (List.range 4).map (Config.freeStat x e)
  if !r.readsStats then some []
  else
    match entryOf a.layers x with
    | none => none
    | some le =>
      match statOf a.pcTable le.layer with
      | some (k, en, side) =>
        if en.mode = 0 then some free
        else if !en.isRefresh e then some [Fp.posZero, Fp.posZero, Config.freeStat x e 2, Config.freeStat x e 3]
        else
          match a.pcOut? k e (2 + 2 * side), a.pcOut? k e (3 + 2 * side), rankIn (a.layerRuns le.layer) x 0 with
          | some s0, some s1, some q => some [s0.getD q Fp.posZero, s1.getD q Fp.posZero, Config.freeStat x e 2, Config.freeStat x e 3]
          | _, _, _ => none
      | none =>
        match targetOf a.pcTable le.layer x with
        | some (k, en) => (a.pcOut? k e 6).map fun v => v.getD (x - en.base) Fp.posZero :: free.tail
        | none => some free

def Alesh.pcRunning (a : Alesh) : Bool := a.inJob && a.unit uPrecond == .running
def Alesh.phaseDone (a : Alesh) (k e ph : Nat) : Bool := a.pub.phases.contains (k, e, ph)
def Alesh.setPhase (a : Alesh) (k e ph : Nat) : Alesh := { a with pub := { a.pub with phases := (k, e, ph) :: a.pub.phases } }

/-! ### Arming checks (R112) -/

/-- The layer's recipe, if an entry of the layer table names it. Where a layer's entries name different slots, the first decides
(DESIGN CHOICE, log entry 150). -/
def Alesh.layerRecipe (a : Alesh) (layer : Nat) : Option Recipe :=
  (a.layers.find? fun e => e.layer == layer).map fun e => a.recipe e.slot

/-- The checks of R112 on one entry, with those of its table's ranges that the rule's list does not name (NS_ITERS to 32, ROWS
and COLS from 1) and that its two statistic layers differ (DESIGN CHOICE, log entry 54). -/
def Alesh.pcEntryOk (a : Alesh) (t : List PcEntry) (k : Nat) (en : PcEntry) : Bool :=
  let c := en.statCounts
  let others := t.zipIdx.filter fun p => p.2 != k
  let stats := if en.mode = 2 then [en.statL] else [en.statL, en.statR]
  let last := en.base + en.rows * en.cols
  en.version == 1 && decide (en.mode ≤ 2) && decide (en.dim ≤ 2) && decide (en.rootP ≤ 1)
  && decide (1 ≤ en.iters) && decide (en.iters ≤ 32) && en.refresh != 0 && decide (en.phase < en.refresh)
  && Fp.isFinite en.eps && (!Fp.isNeg en.eps || Fp.isZero en.eps && en.eps == Fp.posZero)
  && decide (1 ≤ en.rows) && decide (1 ≤ en.cols)
  && sumNat ((a.layerRuns en.target).map fun r => min (r.first + r.count) last - Nat.max r.first en.base) == en.rows * en.cols
  && (en.mode != 1 || (en.rows % en.d == 0 && en.cols % en.d == 0))
  && (en.mode != 2 || (en.cols == 1 && en.rows % en.d == 0 && en.statR == 0xFFFF))
  && a.layerRecords en.statL == c.1 && (en.mode == 2 || a.layerRecords en.statR == c.2)
  && (stats.all fun s => !(others.any fun p => p.1.statL == s || (p.1.mode != 2 && p.1.statR == s)) && !(t.any fun p => p.target == s))
  && (en.mode == 2 || en.statL != en.statR)
  && ((a.layerRecipe en.target).map fun r => r.readsStat 0).getD false
  && (en.mode == 0 || stats.all fun s => ((a.layerRecipe s).map fun r => r.fields.length == 2).getD false)

/-- The check of the preconditioner table at arming. -/
def Alesh.pcArmOk (a : Alesh) : Bool :=
  let t := a.pcTable
  t.zipIdx.all fun p => a.pcEntryOk t p.2 p.1

end Sys2Proof.Machine
end

