-- ==== Sys2Proof/Machine/Coding.lean ====
section
/-! DEFINITION. Coding groups, bands and the parity area (R151 to R175, R231, R238, R245): who owns a column, who holds a row,
where a parity page lies, and the fold. -/
namespace Sys2Proof.Machine

/-! ### Members, packages, owners -/

def Alesh.isMember (a : Alesh) (n : Nat) : Bool := a.memb.members.contains n
def Alesh.isDraining (a : Alesh) (n : Nat) : Bool := a.memb.draining.contains n
def Alesh.activeMembers (a : Alesh) : List Nat := a.memb.members.filter fun n => !a.isDraining n
/-- The combiner: the non-draining member with the lowest node id (R129). -/
def Alesh.combiner (a : Alesh) : Nat := (a.activeMembers.head?).getD a.node

/-- A change entry or job-map entry (R213). -/
structure MapEntry where
  node : Nat
  group : Nat
  package : Nat
  deriving DecidableEq, Repr

def MapEntry.ofWord (w : Nat) : MapEntry := { node := bf w 0 18, group := bf w 18 16, package := bf w 34 16 }
def MapEntry.word (e : MapEntry) : Nat := packBits [(34, 16, e.package), (18, 16, e.group), (0, 18, e.node)]

/-- The job map (R212). -/
def Alesh.jobMap (a : Alesh) : List MapEntry :=
  (List.range (a.num O.JOB_MAP_ENTRIES)).map fun i => MapEntry.ofWord (a.rdLe (a.num O.JOB_MAP_BASE + 8 * i) 8)
def Alesh.mapEntry? (a : Alesh) (n : Nat) : Option MapEntry := a.jobMap.find? fun e => e.node == n
def Alesh.groupOf (a : Alesh) (n : Nat) : Option Nat := (a.mapEntry? n).map (·.group)
def Alesh.packageOf (a : Alesh) (n : Nat) : Option Nat := (a.mapEntry? n).map (·.package)

/-- The core formed with a shard, and the shard of a core (log entry 7). -/
def Alesh.homeOf (a : Alesh) (shard : Nat) : Nat :=
  if shard = a.ownShard && !a.memb.joined.contains a.node then a.node else Config.shardNode shard
def Alesh.nodeShard (a : Alesh) (n : Nat) : Nat := if n = a.node then a.ownShard else Config.nodeShard n
/-- The owner of a slice (R33, R231). -/
def Alesh.ownerOf (a : Alesh) (g : Nat) : Nat := (lookup? a.take.owners g).getD (a.homeOf (gsidShard g))
/-- The coded sequence of a core: its own shard's slices in order, then those it has taken, in increasing id (R231). -/
def Alesh.codedSeq (a : Alesh) (n : Nat) : List Nat :=
  let sh := a.nodeShard n
  let own := if a.memb.joined.contains n then []
    else ((List.range (a.shardSlices sh)).map (gsidOf sh)).filter fun g => a.ownerOf g == n
  own ++ sortNat ((a.take.owners.filter fun p => p.2 == n && !own.contains p.1).map (·.1))

/-! ### The group (R154 to R157, R167, R245) -/

/-- An external-row entry (R167). -/
structure ExtEntry where
  group : Nat
  first : Nat
  version : Nat
  kind : Nat
  row : Nat
  rotation : Nat
  node : Nat
  package : Nat
  deriving DecidableEq, Repr

def ExtEntry.ofWord (w : Nat) : ExtEntry :=
  { group := bf w 112 16, first := bf w 64 32, version := bf w 60 4, kind := bf w 58 2, row := bf w 56 2
    rotation := bf w 51 5, node := bf w 32 18, package := bf w 16 16 }
def extEntries (n : Nat) (tab : Bytes) : List ExtEntry := (List.range n).map fun i => ExtEntry.ofWord (leAt tab (16 * i) 16)
def Alesh.exts (a : Alesh) : List ExtEntry := extEntries (a.num O.EXT_COUNT) (a.dom O.EXT_TABLE)
/-- Announcements of the stripe coordinator (R188, R217). -/
def gBuild : Nat := 0
def gActivate : Nat := 1
def gWithdraw : Nat := 2
def gCancel : Nat := 3
def gRestripeBuild : Nat := 6
def gRestripeSwitch : Nat := 7
def extArgs (sub : Nat) (x : ExtEntry) (e : Nat) : Nat :=
  packBits [(60, 4, sub), (44, 16, x.group), (39, 5, x.rotation), (37, 2, x.row), (21, 16, x.package), (13, 8, e)]
def restripeArgs (sub group tag e : Nat) : Nat := packBits [(60, 4, sub), (44, 16, group), (28, 16, tag), (13, 8, e)]
/-- The report word of EXT_DONE (R230). -/
def extDoneWord (x : ExtEntry) : Nat := packBits [(23, 5, x.rotation), (21, 2, x.row), (5, 16, x.package)]
/-- States of R169: 0 IDLE, 1 BUILDING, 2 ACTIVE, 3 RELEASING. -/
def Alesh.extState (a : Alesh) (e : Nat) : Nat := lookupD 0 a.coding.ext e
def Alesh.setExt (a : Alesh) (e st : Nat) : Alesh := { a with coding := { a.coding with ext := assign a.coding.ext e st } }
/-- Entries with their numbers that are in a state. -/
def Alesh.extsIn (a : Alesh) (st : Nat) : List (Nat × ExtEntry) :=
  (a.exts.zipIdx.filter fun p => a.extState p.2 == st).map fun p => (p.2, p.1)

/-- A layout: the one in force, or the staged one (R245). -/
structure Geo where
  alt : Bool
  group : Nat
  k : Nat
  m : Nat
  rank : Nat
  members : List (Nat × Nat)
  padded : Nat
  deriving DecidableEq, Repr

def Geo.n (g : Geo) : Nat := g.k + g.m
def Geo.nodeAt (g : Geo) (r : Nat) : Nat := ((g.members[r % g.members.length]?).map (·.2)).getD (2 ^ 18)
/-- T of R157. -/
def Geo.rounds (g : Geo) : Nat := ceilDiv (ceilDiv g.padded 256) g.k
/-- Members as (package, node), in rank order (R155). -/
def groupMembers (n : Nat) (tab : Bytes) : List (Nat × Nat) :=
  (List.range n).map fun i => let w := leAt tab (8 * i) 8; (bf w 32 16, bf w 0 18)

def Alesh.geo (a : Alesh) : Geo :=
  let n := a.num O.STRIPE_K + a.num O.STRIPE_M
  { alt := false, group := a.num O.GROUP_NUMBER, k := a.num O.STRIPE_K, m := a.num O.STRIPE_M, rank := a.num O.GROUP_RANK
    members := groupMembers n (a.dom O.GROUP_MEMBERS), padded := a.num O.PADDED_PAGES }
/-- The staged layout (R245). -/
def Alesh.stagedGeo (a : Alesh) : Geo :=
  let b := a.dom O.RESTRIPE_STAGE
  { alt := true, group := a.num O.GROUP_NUMBER, k := leAt b 3 1, m := leAt b 4 1, rank := leAt b 5 1, members := groupMembers (leAt b 6 1) (b.drop 32)
    padded := leAt b 8 4 }
def Alesh.geoOf (a : Alesh) (alt : Bool) : Geo := if alt then a.stagedGeo else a.geo
/-- The layout of a group: this core's own; of another group, whose rows this core may hold, the same figures with that
group's members (log entry 18). -/
def Alesh.geoFor (a : Alesh) (alt : Bool) (group : Nat) : Geo :=
  if group = a.num O.GROUP_NUMBER then a.geoOf alt
  else { a.geo with group := group, members := (List.range a.geo.n).map fun r => (0, Config.groupMember group r) }

/-- The slice at position `p` of a member's coded sequence under a layout (R157, R245); none where it is a zero column. -/
def Alesh.seqSlice (a : Alesh) (alt : Bool) (n p : Nat) : Option Nat :=
  if alt then (a.codedSeq n)[p]?
  else
    match lookup? a.take.seqs n with
    | some l => l[p]?
    | none =>
      let sh := a.nodeShard n
      if (a.take.seqs.isEmpty || !a.geo.members.any fun q => q.2 == n) && decide (p < a.shardSlices sh) then some (gsidOf sh p) else none

/-- Band and column arithmetic (R157). -/
def Geo.bandOf (g : Geo) (rank pos : Nat) : Nat :=
  let j := pos % g.k
  (pos / g.k) * g.n + (rank + 2 * g.n - g.m - j) % g.n
def Geo.colNode (g : Geo) (band col : Nat) : Nat := g.nodeAt ((band % g.n + g.m + col) % g.n)
/-- The slice of a column of a band; none where it is a zero column (R159). -/
def Alesh.colSlice (a : Alesh) (g : Geo) (band col : Nat) : Option Nat :=
  a.seqSlice g.alt (g.colNode band col) (band / g.n * g.k + col)

/-- Where a slice stands in a layout: rank and position. -/
def Alesh.placeOf (a : Alesh) (g : Geo) (s : Nat) : Option (Nat × Nat) :=
  if g.group != a.num O.GROUP_NUMBER || (!g.alt && a.take.seqs.isEmpty) then
    let home := a.homeOf (gsidShard s)
    (g.members.zipIdx.find? fun p => p.1.2 == home).map fun p => (p.2, gsidSlice s)
  else
    (g.members.zipIdx.filterMap fun p =>
      let q := if g.alt then a.codedSeq p.1.2 else lookupD [] a.take.seqs p.1.2
      (q.zipIdx.find? fun x => x.1 == s).map fun x => (p.2, x.2)).head?
/-- Band and column of a slice (R157). -/
def Alesh.bandCol (a : Alesh) (g : Geo) (s : Nat) : Option (Nat × Nat) :=
  (a.placeOf g s).map fun p => (g.bandOf p.1 p.2, p.2 % g.k)

/-- The ACTIVE entry that keeps a row of a rotation; of two, the one that became ACTIVE last (DESIGN CHOICE, log entry 141). -/
def Alesh.activeEntry (a : Alesh) (group rot row : Nat) : Option (Nat × ExtEntry) :=
  let since (e : Nat × ExtEntry) : Nat := lookupD 0 a.coding.extAt e.1
  ((a.extsIn 2).filter fun e => e.2.group == group && e.2.rotation == rot && e.2.row == row).foldl
    (fun (b : Option (Nat × ExtEntry)) (e : Nat × ExtEntry) => match b with
      | some x => if since x < since e then some e else b
      | none => some e) none
/-- The node that keeps a row of a band in force (R157, R158, R171); none where a WIDEN row has no ACTIVE entry. -/
def Alesh.rowNode (a : Alesh) (g : Geo) (band row : Nat) : Option Nat :=
  let rot := band % g.n
  match if g.alt then none else a.activeEntry g.group rot row with
  | some e => some e.2.node
  | none => if !g.alt && g.group == a.num O.GROUP_NUMBER && a.coding.gone.contains (rot * 4 + row) then none else if row < g.m then some (g.nodeAt ((rot + row) % g.n)) else none
/-- Rows in force; of another group, whose count this core does not hold, every row that an entry may add. -/
def Alesh.rows (a : Alesh) (g : Geo) : List Nat :=
  List.range (if g.alt then g.m else if g.group = a.num O.GROUP_NUMBER then a.num O.STRIPE_M_ACTIVE else 4)
/-- Holders in force of a band that are still members: (row, node) (R158, R192). -/
def Alesh.bandHolders (a : Alesh) (g : Geo) (band : Nat) : List (Nat × Nat) :=
  (a.rows g).filterMap fun i => (a.rowNode g band i).bind fun n => if a.isMember n then some (i, n) else none
/-- An ACTIVE RELOCATE entry whose default member is being rebuilt before the withdrawal (R172), as EXT_BUILD on it has announced
(DESIGN CHOICE, log entry 55). -/
def Alesh.returning (a : Alesh) (i : Nat) (x : ExtEntry) : Bool :=
  x.kind == 0 && a.extState i == 2 && (lookup? a.coding.returns i).isSome
/-- The default member of an entry's row. -/
def Geo.defaultNode (g : Geo) (x : ExtEntry) : Nat := g.nodeAt ((x.rotation + x.row) % g.n)
/-- Holders that a row is being built at, of a band: those of BUILDING entries, and default members that a row returns to
(R170, R172). -/
def Alesh.buildingHolders (a : Alesh) (band : Nat) : List (Nat × Nat) :=
  let mine (x : ExtEntry) : Bool := x.group == a.num O.GROUP_NUMBER && x.rotation == band % a.geo.n
  ((a.extsIn 1).filter fun e => mine e.2).map (fun e => (e.2.row, e.2.node))
    ++ ((a.extsIn 2).filter fun e => mine e.2 && a.returning e.1 e.2).map fun e => (e.2.row, a.geo.defaultNode e.2)

/-! ### The parity area (R160 to R162, R238) -/

def paritySlotMeta : Nat := 16640
def Alesh.parityBase (a : Alesh) (alt : Bool) : Nat := a.num (if alt then O.PARITY_ALT_BASE else O.PARITY_BASE)
def Alesh.parityMeta (a : Alesh) (alt : Bool) : Nat := a.num (if alt then O.PARITY_ALT_META_BASE else O.PARITY_META_BASE)
def Alesh.epochTable (a : Alesh) (alt : Bool) : Nat := a.num (if alt then O.EPOCH_TABLE_ALT_BASE else O.EPOCH_TABLE_BASE)
def Alesh.parityAddr (a : Alesh) (alt : Bool) (s page : Nat) : Nat := a.parityBase alt + s * sliceBytes + page * pageBytes
def Alesh.parityRecAddr (a : Alesh) (alt : Bool) (s page : Nat) : Nat := a.parityMeta alt + s * paritySlotMeta + page * 64
def Alesh.columnAddr (a : Alesh) (alt : Bool) (s : Nat) : Nat := a.parityMeta alt + s * paritySlotMeta + 16384
def Alesh.tableAddr (a : Alesh) (alt : Bool) (s : Nat) : Nat := a.epochTable alt + s * pageBytes

def Alesh.parityRec (a : Alesh) (alt : Bool) (s page : Nat) : PageRec := PageRec.ofWord (a.rdLe (a.parityRecAddr alt s page) 64)
/-- The bytes of a parity page; zero where it is not VALID (R161). -/
def Alesh.parityPage (a : Alesh) (alt : Bool) (s page : Nat) : Bytes :=
  if (a.parityRec alt s page).valid then a.rd (a.parityAddr alt s page) pageBytes else List.replicate pageBytes 0
/-- Column epoch j of a slot (R162). -/
def Alesh.colEpoch (a : Alesh) (alt : Bool) (s col : Nat) : Nat := bf (a.rdLe (a.columnAddr alt s + 8 * col) 8) 0 48
def Alesh.setColEpoch (a : Alesh) (alt : Bool) (s col e : Nat) : Alesh := a.wrLe (a.columnAddr alt s + 8 * col) 8 e
/-- Entry (page, column) of a slot's page epoch table (R238). -/
def Alesh.pageEpoch (a : Alesh) (alt : Bool) (s col page : Nat) : Nat :=
  if col = 31 ∧ page = 255 then 0 else bf (a.rdLe (a.tableAddr alt s + (256 * col + page) * 8) 8) 0 48
/-- Rewrite a table page's CRC (R238). -/
def Alesh.sealTable (a : Alesh) (alt : Bool) (s : Nat) : Alesh :=
  a.wrLe (a.tableAddr alt s + 65528) 8 (crc64 (a.rd (a.tableAddr alt s) 65528))
def Alesh.tableGood (a : Alesh) (alt : Bool) (s : Nat) : Bool :=
  a.rdLe (a.tableAddr alt s + 65528) 8 == crc64 (a.rd (a.tableAddr alt s) 65528)
def Alesh.setPageEpoch (a : Alesh) (alt : Bool) (s col page e : Nat) : Alesh :=
  a.wrLe (a.tableAddr alt s + (256 * col + page) * 8) 8 e

/-- The group whose row a parity slot of this core holds: a hosted entry's (R167), else this core's own. -/
def Alesh.slotGroup (a : Alesh) (alt : Bool) (s : Nat) : Nat :=
  if alt then a.num O.GROUP_NUMBER
  else ((a.exts.zipIdx.find? fun p => p.1.node == a.node && a.extState p.2 != 0 && decide (p.1.first ≤ s)
    && decide (s < p.1.first + a.geo.rounds)).map fun p => p.1.group).getD (a.num O.GROUP_NUMBER)
/-- A column has no slice behind it (R159). -/
def Alesh.zeroCol (a : Alesh) (alt : Bool) (group band col : Nat) : Bool :=
  (a.colSlice (a.geoFor alt group) band col).isNone
/-- The band and row of a slot of a layout at its member of rank RANK (R160). -/
def Geo.slotBand (g : Geo) (s : Nat) : Nat := s / g.m * g.n + (g.rank + g.n - s % g.m) % g.n
/-- Every column of a slot has been copied or based. -/
def Alesh.slotComplete (a : Alesh) (alt : Bool) (group band s : Nat) : Bool :=
  (List.range (a.geoOf alt).k).all fun j =>
    a.zeroCol alt group band j || (if alt then a.take.altBased else a.coding.based).contains (s * 32 + j)
/-- The name of a parity page in the list of damaged ones: those of the staged layout come above those in force. -/
def parityKey (alt : Bool) (s page : Nat) : Nat := (if alt then 2 ^ 24 else 0) + s * 256 + page
/-- The name of a slot in the list of lost ones. -/
def lostKey (alt : Bool) (s : Nat) : Nat := (if alt then 2 ^ 16 else 0) + s
/-- The check of R47 on a parity page. -/
def Alesh.parityGood (a : Alesh) (alt : Bool) (s band page : Nat) : Bool :=
  let r := a.parityRec alt s page
  r.wellFormed && (!r.valid || (r.version == 1 && r.kind == kParity && r.job == a.num O.JOB_ID && r.shard == a.slotGroup alt s
    && r.slice == band && r.page == page
    && !a.errs.bad.contains (a.parityAddr alt s page / pageBytes) && !a.coding.damaged.contains (parityKey alt s page)
    && r.crc == crc64 (a.parityPage alt s page)))

/-- Write a parity page with its record (R161). -/
def Alesh.putParity (a : Alesh) (alt : Bool) (s band row page step group : Nat) (b : Bytes) : Alesh :=
  let old := a.parityRec alt s page
  let r : PageRec := { PageRec.blank kParity with
    frag := row, job := a.num O.JOB_ID, memb := a.num O.MEMBERSHIP_EPOCH, page := page, slice := band, shard := group
    owner := a.node, crc := crc64 b, step := step
    flags := (old.flags % 64 ||| 1) ||| (if a.onSpare (a.parityAddr alt s page) then 2 else 0) }
  (a.wr (a.parityAddr alt s page) b).wr (a.parityRecAddr alt s page) r.bytes

/-- Fold one page's scaled delta of column `col` at epoch `e` (R164, R238). -/
def Alesh.foldPage (a : Alesh) (alt : Bool) (s band row col page e group : Nat) (d : Bytes) : Alesh :=
  let step := Nat.max e (a.parityRec alt s page).step
  (a.putParity alt s band row page step group (xorBytes (a.parityPage alt s page) d)).setPageEpoch alt s col page e

/-- The parity slot at this core of a row of a band in force, or of a row being built: (slot, group). A row is this core's as
the default member (R160), or by an entry that names it (R167), whose group's geometry is taken from this core's own figures
(log entry 18). -/
def Alesh.rowSlot (a : Alesh) (g : Geo) (group band row : Nat) : Option Nat :=
  let rot := band % g.n
  let q := band / g.n
  let hosted := (a.exts.zipIdx.filter fun p =>
    !g.alt && p.1.node == a.node && p.1.group == group && p.1.rotation == rot && p.1.row == row && a.extState p.2 != 0).head?
  match hosted with
  | some p => some (p.1.first + q)
  | none =>
    if group = a.num O.GROUP_NUMBER ∧ row < g.m ∧ g.nodeAt ((rot + row) % g.n) = a.node then some (q * g.m + row) else none

/-- The band and row of a parity slot of this core: its own group's, or a hosted entry's; of the staged layout while it is built. -/
def Alesh.slotRow (a : Alesh) (alt : Bool) (s : Nat) : Option (Nat × Nat) :=
  let g := a.geoOf alt
  if alt then
    if a.take.building && decide (s < g.rounds * g.m) then some (g.slotBand s, s % g.m) else none
  else
    let own := (List.range (g.n * g.rounds)).flatMap fun b => (a.rows g).map fun i => (b, i)
    match own.find? fun x => a.rowSlot g (a.num O.GROUP_NUMBER) x.1 x.2 == some s with
    | some x => some x
    | none =>
      (a.exts.zipIdx.find? fun p => p.1.node == a.node && a.extState p.2 != 0 && decide (p.1.first ≤ s) && decide (s < p.1.first + g.rounds)).map
        fun p => ((s - p.1.first) * g.n + p.1.rotation, p.1.row)

/-- The group whose column a node owns: this core's own, or that of an entry that this core hosts (R166, R191). -/
def Alesh.groupFor (a : Alesh) (band row src : Nat) : Option Nat :=
  let own := a.num O.GROUP_NUMBER
  let mine := a.groupOf src == some own || a.geo.members.any fun p => p.2 == src
  if mine then some own
  else ((a.exts.zipIdx.find? fun p => p.1.node == a.node && p.1.row == row && p.1.rotation == band % a.geo.n
    && a.extState p.2 != 0 && a.groupOf src == some p.1.group).map fun p => p.1.group)

/-- A node owns a column of a band of a group at this core's membership epoch (R191). -/
def Alesh.ownsColumn (a : Alesh) (alt : Bool) (group band col src : Nat) : Bool :=
  ((a.colSlice (a.geoFor alt group) band col).map fun s => a.ownerOf s == src).getD false

/-- The parity areas and page epoch tables of one layout. -/
def Alesh.initParity (alt : Bool) (slots : Nat) (a : Alesh) : Alesh :=
  let table : Bytes := List.replicate 65528 0
  let page := table ++ leBytes 8 (crc64 table)
  let one := (List.replicate 256 (PageRec.blank kParity).bytes).flatMap id ++ List.replicate 256 (0 : Byte)
  (List.range slots).foldl (fun (b : Alesh) (s : Nat) => (b.wr (b.parityRecAddr alt s 0) one).wr (b.tableAddr alt s) page) a
/-- Every parity slot empty, in both areas. -/
def Alesh.emptyParity (a : Alesh) : Alesh :=
  (a.initParity false (a.num O.PARITY_SLOTS)).initParity true (a.num O.PARITY_ALT_SLOTS)

end Sys2Proof.Machine
end

