-- ==== Sys2Proof/Machine/Damage.lean ====
section
/-! DEFINITION. Overlay images, the units that a job uses, protection states and damaged pages (R251, R252, R362, R365,
R371, R400 to R405). -/
namespace Sys2Proof.Machine

/-! ### Overlay images (R371) -/

/-- Items of an image body: key and value bytes; fuel bounds the number of items. -/
def overlayItems : Nat → Bytes → List (Nat × Bytes)
  | 0, _ => []
  | n + 1, b =>
    if b.length < 8 then []
    else
      let len := leAt b 4 4
      (leAt b 0 2 * 256 + leAt b 2 1, slice b 8 len) :: overlayItems n (b.drop (8 + roundUp len 8))

def overlaySlotBytes : Nat := 131072
/-- The image of an overlay slot, where one is loaded. -/
def Alesh.image? (a : Alesh) (s : Nat) : Option Bytes :=
  (lookup? a.dict.images s).map fun p => a.rd (a.num O.OVERLAY_BASE + s * overlaySlotBytes) p.1
/-- The CRC-64 of a loaded image agrees (R375). -/
def Alesh.imageGood (a : Alesh) (s : Nat) : Bool :=
  match lookup? a.dict.images s with
  | some p => crc64 (a.rd (a.num O.OVERLAY_BASE + s * overlaySlotBytes) p.1) == p.2
  | none => false
def imageItems (b : Bytes) : List (Nat × Bytes) := overlayItems (leAt b 2 2) (b.drop 16)
/-- The numeric items of every loaded image. -/
def Alesh.imageNums (a : Alesh) : List (Nat × Nat) :=
  a.dict.images.flatMap fun p => ((a.image? p.1).map fun b => (imageItems b).map fun q => (q.1, leNat q.2)).getD []

/-- The units that the job uses (R362). -/
def Alesh.usedUnits (a : Alesh) : List Nat := a.unitsUsed a.imageNums

/-! ### Protection (R251, R252) -/

/-- BEYOND_G0: evt_fault, no further ARRIVE, no further commit. -/
def Alesh.beyondG0 (a : Alesh) : Alesh :=
  if a.num O.PROTECTION_STATE = 2 then a else (a.setNum O.PROTECTION_STATE 2).raiseFault
/-- The core may commit and arrive: it takes part, no unit that its job uses is FAULTED, and it is not BEYOND_G0
(R252, R365). -/
def Alesh.sound (a : Alesh) : Bool :=
  a.inJob && a.num O.PROTECTION_STATE != 2 && a.usedUnits.all fun u => a.unit u != .faulted

/-! ### Damage (R15, R400) -/

/-- LAST_UE: an uncorrectable error and its outcome. Outcomes: 0 repaired, 1 recomputed, 2 bus error, 3 held delta. -/
def Alesh.setUe (a : Alesh) (addr outcome : Nat) : Alesh :=
  a.setDom O.LAST_UE (leBytes 8 addr ++ leBytes 1 outcome ++ List.replicate 7 0)
/-- An uncorrectable error and its outcome: class RP and LAST_UE. -/
def Alesh.noteUe (a : Alesh) (addr outcome : Nat) : Alesh := a.repairEvent.setUe addr outcome

/-- Ask for a page to be rebuilt, once; a page that a reader needs goes ahead (R241, R243). -/
def Alesh.addRebuild (a : Alesh) (r : Rebuild) : Alesh :=
  let same (q : Rebuild) : Bool := q.gsid == r.gsid && q.page == r.page && q.why == r.why
  if a.take.rebuilds.any same then
    { a with take := { a.take with rebuilds := modWhere same (fun q => { q with urgent := q.urgent || r.urgent }) a.take.rebuilds } }
  else { a with take := { a.take with rebuilds := a.take.rebuilds ++ [r] } }

def Rebuild.fresh (g page band col why : Nat) : Rebuild :=
  { gsid := g, page := page, band := band, col := col, asked := [], frags := [], skipped := [], retry := none
    urgent := false, direct := false, why := why }

def Alesh.markBad1 (a : Alesh) (page : Nat) : Alesh := { a with errs := { a.errs with bad1 := insertNat a.errs.bad1 page } }
def Alesh.clearBad1 (a : Alesh) (page : Nat) : Alesh :=
  { a with errs := { a.errs with bad1 := a.errs.bad1.filter (· != page) } }
def Alesh.markBad (a : Alesh) (page : Nat) : Alesh := { a with errs := { a.errs with bad := insertNat a.errs.bad page } }
def Alesh.clearBad (a : Alesh) (page : Nat) : Alesh :=
  { a with errs := { a.errs with bad := a.errs.bad.filter (· != page) } }

/-- Retire a page: a copy to the lowest free spare begins; without one the page stays in use (R405). -/
def Alesh.retirePage (a : Alesh) (page : Nat) : Alesh :=
  if (lookup? a.errs.retired page).isSome || (lookup? a.errs.copying page).isSome then a
  else
    let used := a.errs.retired.map (·.2) ++ a.errs.copying.map (·.2)
    match (List.range (a.num O.SPARE_PAGES)).find? fun s => !used.contains s with
    | some s => { a with errs := { a.errs with copying := a.errs.copying ++ [(page, s)] } }
    | none => a.count O.SPARE_EXHAUSTED_COUNT

/-- A page with VALID = 1 of a live slot is damaged: it is repaired from the code (R400). -/
def Alesh.damageLive (a : Alesh) (g page : Nat) : Alesh :=
  match a.liveSlot g, a.bandCol a.geo g with
  | some s, some bc =>
    if a.take.rebuilds.any fun r => r.gsid == g && r.page == page && r.why == 0 then a
    else (a.noteUe (a.pageAddr s page) 0).addRebuild { Rebuild.fresh g page bc.1 bc.2 0 with urgent := true }
  | _, _ => a
/-- A path of a unit waits for a page, which then goes ahead of the background order (R48, R243). -/
def Alesh.want (a : Alesh) (u g page : Nat) : Alesh :=
  if a.take.wanted.contains (g * 256 + page, u) then a else { a with take := { a.take with wanted := a.take.wanted ++ [(g * 256 + page, u)] } }
def Alesh.unwant (a : Alesh) (g page : Nat) : Alesh :=
  { a with take := { a.take with wanted := a.take.wanted.filter fun (w : Nat × Nat) => w.1 != g * 256 + page } }
/-- A reader needs a page: one that is ABSENT is rebuilt first, and one whose check fails is repaired (R15, R47, R48). -/
def Alesh.needPage (a : Alesh) (u g page : Nat) : Alesh :=
  if a.pageReady g page then a
  else if a.isAbsent g page then a.want u g page
  else (a.want u g page).damageLive g page
/-- The first page of a list of (slice, page) that a reader cannot read yet. -/
def Alesh.unready (a : Alesh) (ps : List (Nat × Nat)) : Option (Nat × Nat) := ps.find? fun p => !a.pageReady p.1 p.2
/-- Go on once every page of a list can be read; until then those that cannot are asked for. -/
def Alesh.withPages (a : Alesh) (u : Nat) (ps : List (Nat × Nat)) (k : Alesh) : Alesh :=
  if (a.unready ps).isNone then k else ps.foldl (fun (b : Alesh) (p : Nat × Nat) => b.needPage u p.1 p.2) a
/-- The units that a bus error makes FAULTED, where the data was for the update, coding, publish or reduction path (R404). -/
def busUnits (us : List Nat) : List Nat := us.filter fun u => u == uUpdate || u == uCoding || u == uPublish || u == uReduce

/-- An error in a page or in the page that holds its record has been repaired or recomputed: that page is retired (R405). -/
def Alesh.healed (a : Alesh) (page meta_ : Nat) : Alesh :=
  let b := if a.errs.bad.contains meta_ && !a.errs.bad.contains page then a else (a.clearBad page).retirePage page
  if a.errs.bad.contains meta_ then (b.clearBad meta_).retirePage meta_ else b

/-- A page that an error stands against has been rewritten: it is retired (R405). -/
def Alesh.healBad (a : Alesh) (page : Nat) : Alesh := if a.errs.bad.contains page then (a.clearBad page).retirePage page else a

/-- A parity page is damaged: the holder decodes its row again. The rebuild is named by slot and page (R400). A page of the
staged layout is decoded once that layout is in force (DEDUCED, log entry 71). -/
def Alesh.damageParity (a : Alesh) (alt : Bool) (slot band row page : Nat) : Alesh :=
  if a.coding.damaged.contains (parityKey alt slot page) then a
  else
    let b : Alesh := { a with coding := { a.coding with damaged := insertNat a.coding.damaged (parityKey alt slot page) } }
    if alt then b else b.addRebuild (Rebuild.fresh slot page band row 2)
/-- A parity page, or its record, has an error that lies in a page of Tier 0, or fails its check (R161, R400). -/
def Alesh.failParity (a : Alesh) (alt : Bool) (slot band row page bad : Nat) : Alesh :=
  if a.coding.damaged.contains (parityKey alt slot page) then a
  else ((a.markBad bad).noteUe (a.parityAddr alt slot page) 0).damageParity alt slot band row page
/-- A parity page fails its check. -/
def Alesh.badParity (a : Alesh) (alt : Bool) (slot band row page : Nat) : Alesh :=
  a.failParity alt slot band row page (a.parityAddr alt slot page / pageBytes)
/-- The slot is damaged, by an error at an address of its column record or page epoch table: every page of it is rebuilt as a parity
page (R238, R400). -/
def Alesh.damageSlot (a : Alesh) (alt : Bool) (slot band row addr : Nat) : Alesh :=
  if a.coding.lost.contains (lostKey alt slot) then a
  else
    let b := (a.markBad (addr / pageBytes)).noteUe addr 0
    let c : Alesh := { b with coding := { b.coding with lost := insertNat b.coding.lost (lostKey alt slot) } }
    (List.range 256).foldl (fun (d : Alesh) (p : Nat) => d.damageParity alt slot band row p) c
/-- A slot whose page epoch table fails its check is damaged (R238). -/
def Alesh.checkTable (a : Alesh) (alt : Bool) (slot band row : Nat) : Alesh :=
  if a.tableGood alt slot then a else a.damageSlot alt slot band row (a.tableAddr alt slot)

/-! ### What a scan found (R407) -/

/-- The summary of a scan. -/
def Scan.summary (s : Scan) : Bytes :=
  leBytes 8 s.pages ++ leBytes 8 s.sectors ++ leBytes 4 s.fixed ++ leBytes 4 s.buserr ++ leBytes 4 s.retired ++ leBytes 4 0
    ++ leBytes 8 (s.firstBad.getD (2 ^ 64 - 1))
/-- The scan ends once its range is read and, in a job, once the repairs that it asked for have ended. -/
def Alesh.scanEnd (a : Alesh) : Alesh :=
  match a.errs.scan with
  | some s => if decide (s.stop ≤ s.addr) && (s.waits.isEmpty || !a.inJob) then
      (({ a with errs := { a.errs with scan := none } }).setNum O.SCRUB_STATE 2).setDom O.SCRUB_SUMMARY s.summary else a
  | none => a
/-- Note an error of the running scan: repaired or recomputed, or returned as a bus error with its page. -/
def Scan.note (s : Scan) (fixed : Bool) (page : Nat) : Scan :=
  if fixed then { s with fixed := s.fixed + 1 }
  else { s with buserr := s.buserr + 1, firstBad := some (min (page * pageBytes) (s.firstBad.getD (page * pageBytes))) }
def Alesh.scanNote (a : Alesh) (fixed : Bool) (page : Nat) : Alesh :=
  { a with errs := { a.errs with scan := a.errs.scan.map fun (s : Scan) => s.note fixed page } }
/-- The scan waits for a repair: its name, and the page of Tier 0 that has the error. -/
def Scan.wait (s : Scan) (key : Repair) (page : Nat) : Scan :=
  if s.waits.any fun w => w.1 == key then s else { s with waits := s.waits ++ [(key, page)] }
def Alesh.scanWait (a : Alesh) (key : Repair) (page : Nat) : Alesh :=
  { a with errs := { a.errs with scan := a.errs.scan.map fun (s : Scan) => s.wait key page } }
/-- A repair has ended, or failed: a scan that waits for it counts it. -/
def Scan.settle (s : Scan) (key : Repair) (fixed : Bool) : Scan :=
  match s.waits.find? fun w => w.1 == key with
  | some w => { (s.note fixed w.2) with waits := s.waits.filter fun (x : Repair × Nat) => x.1 != key }
  | none => s
def Alesh.scanSettle (a : Alesh) (key : Repair) (fixed : Bool) : Alesh :=
  Alesh.scanEnd { a with errs := { a.errs with scan := a.errs.scan.map fun (s : Scan) => s.settle key fixed } }

/-- A bus error (R404): counted; the outcome is recorded where it comes from an uncorrectable error. -/
def Alesh.busError (a : Alesh) (addr : Nat) : Alesh := (a.noteUe addr 2).count O.BUSERR_COUNT

end Sys2Proof.Machine
end

