-- ==== Sys2Proof/Machine/Net.lean ====
section
/-! DEFINITION. Taking a Cresol packet (R176 to R181, R189, R193, R218, R220) and an owner's resends. -/
namespace Sys2Proof.Machine

/-! ### Acknowledgement fields (R182 to R184) -/

/-- ARGS of DELTA, HOLD_ACK and COMMIT, by their shared fields. -/
structure TxArgs where
  seq : Nat
  band : Nat
  col : Nat
  row : Nat
  adopt : Bool
  /-- Bits [23:16]: PAGE of a DELTA, ACTION of a COMMIT, STATUS and reserved bits of a HOLD_ACK. -/
  mid : Nat
  epochLo : Nat
  low : Nat
  deriving DecidableEq, Repr

def TxArgs.ofNat (w : Nat) : TxArgs :=
  { seq := bf w 48 16, band := bf w 32 16, col := bf w 27 5, row := bf w 25 2, adopt := bf w 24 1 == 1, mid := bf w 16 8
    epochLo := bf w 8 8, low := bf w 0 8 }
def txArgs (seq band col row : Nat) (adopt : Bool) (mid epoch low : Nat) : Nat :=
  packBits [(48, 16, seq), (32, 16, band), (27, 5, col), (25, 2, row), (24, 1, if adopt then 1 else 0), (16, 8, mid),
    (8, 8, epoch), (0, 8, low)]

def sHeld : Nat := 0
def sFolded : Nat := 1
def sDiscarded : Nat := 2
def sPartial : Nat := 3
def sNone : Nat := 4

/-- Restore a step epoch (R179) and a membership epoch. -/
def Alesh.epochOf (a : Alesh) (lo : Nat) : Nat := restore 8 a.classEpoch lo
def Alesh.membOf (a : Alesh) (lo : Nat) : Nat := restore 4 (a.num O.MEMBERSHIP_EPOCH) lo

/-! ### An owner's packets -/

def OwnTx.deltaArgs (t : OwnTx) (page : Nat) : Nat := txArgs t.seq t.band t.col t.row t.adopt page t.epoch (t.count - 1)
/-- The COMMIT of a transaction. One that closes a former owner's transaction names no page of its own and carries
ADOPT = 1; a bring-up's carries ADOPT = 0 (R206, R207). -/
def OwnTx.commitArgs (t : OwnTx) (action : Nat) : Nat :=
  txArgs t.seq t.band t.col t.row (t.adopt && t.count == 0) action t.epoch 0

/-- Transactions that this core opened itself; one with no page closes a former owner's (R206). -/
def OwnTx.real (t : OwnTx) : Bool := t.count != 0
def Alesh.sendCommit (a : Alesh) (t : OwnTx) : Alesh := a.send tCommit t.holder (t.commitArgs 0) []
def Alesh.modOwn (a : Alesh) (p : OwnTx → Bool) (f : OwnTx → OwnTx) : Alesh :=
  { a with coding := { a.coding with own := modWhere p f a.coding.own } }
def Alesh.dropOwn (a : Alesh) (p : OwnTx → Bool) : Alesh :=
  { a with coding := { a.coding with own := a.coding.own.filter fun t => !p t } }

/-- The packets that a resend of a transaction repeats (R181, R193); RESEND_COUNT counts packets (log entry 21). -/
def Alesh.resendTx (a : Alesh) (t : OwnTx) : Alesh :=
  let b :=
    match t.state with
    | .sending | .awaitHeld =>
      (t.pages.foldl (fun (c : Alesh) (p : Nat × Bytes) => c.send tDelta t.holder (t.deltaArgs p.1) p.2) a).wrapN O.RESEND_COUNT t.pages.length
    | .awaitFolded => (a.sendCommit t).wrap O.RESEND_COUNT
    | _ => a
  b.modOwn (fun x => x.holder == t.holder && x.seq == t.seq && x.gsid == t.gsid && x.real == t.real) fun x => { x with due := a.ackDue }

/-- Resend everything that awaits an acknowledgement: the route epoch or the membership epoch has advanced (R181). -/
def Alesh.resendAll (a : Alesh) : Alesh := a.coding.own.foldl (fun b t => b.resendTx t) a

/-- The route epoch takes a value (R181). -/
def Alesh.setRoute (a : Alesh) (r : Nat) : Alesh := (a.setNum O.ROUTE_EPOCH (r % 65536)).resendAll

/-! ### Receipt -/

/-- The core takes packets in these states. -/
def Alesh.listens (a : Alesh) : Bool := a.idleToJob

/-- Rewrite LOSS_SUSPECT from the list of suspects (R220). -/
def Alesh.setSuspects (a : Alesh) (l : List Nat) : Alesh :=
  ({ a with memb := { a.memb with suspects := l } }).setDom O.LOSS_SUSPECT ((l.take 64).flatMap (leBytes 4))

/-- A flit other than a REQUEST from a peer renews the credit that this core has granted to it (R228, R421). -/
def Alesh.flitFrom (a : Alesh) (src : Nat) : Alesh :=
  { a with ports := { a.ports with heardAt := assign a.ports.heardAt src a.now } }
/-- A packet from a peer counts as a beacon (R220). -/
def Alesh.beaconFrom (a : Alesh) (src : Nat) : Alesh :=
  let b := if a.memb.suspects.contains src then a.setSuspects (a.memb.suspects.filter (· != src)) else a
  if (lookup? b.memb.heard src).isSome then
    { b with memb := { b.memb with
        heard := assign b.memb.heard src (b.now + b.num O.BEACON_PERIOD_NS * b.num O.BEACON_MISS) } }
  else b

/-- A packet from a peer is a beacon of it, and its flits renew the peer's credit (R220, R228). -/
def Alesh.hear (a : Alesh) (src : Nat) : Alesh := (a.flitFrom src).beaconFrom src

/-- Types of R180, which need the receiver's membership epoch and a member as source. -/
def needsEpoch (t : Nat) : Bool :=
  t == tHello || t == tGrant || t == tLease || t == tPlateMark || t == tDelta || t == tHoldAck || t == tCommit
    || t == tFragReq || t == tFragData

/-- MEMB_PULL to the source of a packet of a newer membership epoch, once per ACK_TIMEOUT_NS per source (R218). -/
def Alesh.pull (a : Alesh) (src : Nat) : Alesh :=
  let last := lookup? a.memb.pulled src
  if (match last with | some t => decide (t + a.num O.ACK_TIMEOUT_NS ≤ a.now) | none => true) then
    ({ a with memb := { a.memb with pulled := assign a.memb.pulled src a.now } }).send tGrant src
      (packBits [(60, 4, 5), (28, 32, a.num O.MEMBERSHIP_EPOCH)]) []
  else a

def Alesh.malformed (a : Alesh) : Alesh := a.count O.CRESOL_MALFORMED_COUNT

/-- A packet that passes R178 has its route epoch adopted where it is newer, unless its source has been removed (R181). -/
def Alesh.learnRoute (a : Alesh) (m : Pkt) : Alesh :=
  if newer16 m.route (a.num O.ROUTE_EPOCH) && !a.memb.removed.contains m.src then a.setRoute m.route else a

/-- Take a packet of a type: the tests of R178, the route epoch, the tests of R180, then its effect. `ok` says that the
ARGS and payload are well-formed; `open_` admits a packet that R180 does not test, `any` one of a removed source. -/
def Alesh.receiveFrom (any : Bool) (a0 : Alesh) (now typ : Nat) (m : Pkt) (ok open_ : Bool) (f : Alesh → Alesh) : Alesh :=
  let a := a0.at now
  if !a.listens then a
  else if m.version != 1 || m.dst != a.node || m.vc != typeVc typ || !ok then a.malformed
  else
    let b := (a.learnRoute m).hear m.src
    if needsEpoch typ && !open_ then
      let me := b.membOf m.memb
      if me != b.num O.MEMBERSHIP_EPOCH || !b.isMember m.src then
        let c := b.count O.CRESOL_EPOCH_DROP_COUNT
        if decide (b.num O.MEMBERSHIP_EPOCH < me) then c.pull m.src else c
      else f b
    else if b.memb.removed.contains m.src && !any then b
    else f b

/-- A packet that a removed source may not send (R219). -/
def Alesh.receive : Alesh → Nat → Nat → Pkt → Bool → Bool → (Alesh → Alesh) → Alesh := Alesh.receiveFrom false
/-- A packet from any source that is not OCCULTED, at any membership epoch (R218, R225, R389). -/
def Alesh.receiveAny (a : Alesh) (now typ : Nat) (m : Pkt) (ok : Bool) (f : Alesh → Alesh) : Alesh :=
  a.receiveFrom true now typ m ok true f

/-- ROUTE_CHANGE (R181, R366). -/
def routeChange (now : Nat) (a0 : Alesh) : Res × Alesh :=
  let a := a0.at now
  require a.joinedOrJob .stateConflict a (.ok, (a.setRoute (a.num O.ROUTE_EPOCH + 1)).linkEvent)

def execRouteChange (via : Via) (now : Nat) (s : State) : Host.Outcome State Fault Refusal :=
  command via O.ROUTE_CHANGE false (routeChange now) s

end Sys2Proof.Machine
end

