-- ==== Sys2Proof/Machine/Arrival.lean ====
section
/-! DEFINITION. HELLO, the fields of a certificate, in-band orders, and when the combiner sends RELEASE (R187, R199, R213, R256,
R373 to R377, R445). -/
namespace Sys2Proof.Machine

/-! ### The fields of a certificate (R213) -/

def certKind (c : Bytes) : Nat := leAt c 1 1
def certChanges (c : Bytes) : List MapEntry := (List.range (leAt c 2 2)).map fun i => MapEntry.ofWord (leAt c (96 + 8 * i) 8)
def certJob (c : Bytes) : Nat := leAt c 4 4
def certEpoch (c : Bytes) : Nat := leAt c 8 4
def certSigs (c : Bytes) : Nat := leAt c 12 1
def certStep (c : Bytes) : Nat := leAt c 16 6
def certIssued (c : Bytes) : Nat := leAt c 24 8
def certPrev (c : Bytes) : Bytes := slice c 32 32
def certNew (c : Bytes) : Bytes := slice c 64 32

/-! ### What a certificate changes (R213, R214) -/

def cLoss : Nat := 1
def cExpel : Nat := 2
def cLeave : Nat := 3
def cRetire : Nat := 4
def cJoin : Nat := 5
def certNodes (c : Bytes) : List Nat := (certChanges c).map (·.node)
def certPackages (c : Bytes) : List Nat := sortNat ((certChanges c).map (·.package))
def certRemoves (c : Bytes) : Bool := certKind c == cLoss || certKind c == cExpel
def minus (l m : List Nat) : List Nat := l.filter fun n => !m.contains n
/-- The bitmaps after the change. -/
def applyChange (c : Bytes) (b : List Nat × List Nat) : List Nat × List Nat :=
  let ns := certNodes c
  if certRemoves c then (minus b.1 ns, minus b.2 ns)
  else if certKind c = cLeave then (b.1, ns.foldl insertNat b.2)
  else if certKind c = cRetire then
    let g := ns.filter b.2.contains
    (minus b.1 g, minus b.2 g)
  else if certKind c = cJoin then (ns.foldl insertNat b.1, b.2)
  else b
/-- The members before a change, from those after it (R267). -/
def undoChange (c : Bytes) (ms : List Nat) : List Nat :=
  let ns := certNodes c
  if certRemoves c || certKind c == cRetire then ns.foldl insertNat ms
  else if certKind c = cJoin then minus ms ns else ms
/-- The draining members before a change, from those after it. What a LOSS, EXPEL or RETIRE removed was draining only as far as a
RETIRE says so. -/
def undoDraining (c : Bytes) (ds : List Nat) : List Nat :=
  let ns := certNodes c
  if certKind c = cRetire then ns.foldl insertNat ds
  else if certKind c = cLeave then minus ds ns else ds

/-! ### HELLO (R187) -/

def hBeacon : Nat := 0
def hArrive : Nat := 1
def hRelease : Nat := 2
def hCommence : Nat := 3
def hCommAck : Nat := 4
def helloArgs (sub step : Nat) : Nat := packBits [(60, 4, sub), (0, 48, step)]
def Alesh.sendHello (a : Alesh) (sub step dst : Nat) (payload : Bytes) : Alesh := a.send tHello dst (helloArgs sub step) payload

/-! ### In-band requests and orders (R374, R375, R443, R445) -/

/-- Write an object of another core in band, and keep the request until its response. -/
def Alesh.askInBand (a : Alesh) (dst key : Nat) (data : Bytes) : Alesh :=
  let id := a.mgmt.nextReq
  let body := accBody 2 id key true 0 data.length 0 0 data
  let b : Alesh := { a with mgmt := { a.mgmt with
    nextReq := (id + 1) % 65536
    asked := a.mgmt.asked ++ [{ dst := dst, reqId := id, body := body, due := a.ackDue, tries := 0 }] } }
  b.send tDict dst 0 body
def orderBytes (action ov e : Nat) : Bytes := leBytes 1 action ++ leBytes 1 ov ++ List.replicate 6 0 ++ leBytes 8 e
def Asked.data (q : Asked) : Bytes := q.body.drop 24

/-- The lowest step epoch for which this combiner has not sent RELEASE. -/
def Alesh.nextRelease (a : Alesh) : Nat := a.merid.sent.1 + 1
/-- The step epoch whose ARRIVEs the combiner gathers: that of P, or again the last one sent (R198). -/
def Alesh.openRelease (a : Alesh) : Nat := if a.merid.again then a.num O.STEP_EPOCH + 1 else a.nextRelease
/-- Write the order in force to nodes. -/
def Alesh.writeOrder (a : Alesh) (dsts : List Nat) : Alesh :=
  match a.merid.switching with
  | some (act, ov, e) => dsts.foldl (fun (b : Alesh) (d : Nat) => b.askInBand d O.SWITCH_ORDER (orderBytes act ov e)) a
  | none => a
/-- The orders leave once P reaches e_s − 1. -/
def Alesh.startOrders (a : Alesh) : Alesh :=
  match a.merid.switching with
  | some (0, _, e) =>
    if !a.merid.ordersOut && decide (e ≤ a.nextRelease + 1) then
      ({ a with merid := { a.merid with ordersOut := true, orderDue := a.ackDue } }).writeOrder a.memb.members
    else a
  | _ => a
/-- Every member has answered the order in force. -/
def Alesh.orderAnswered (a : Alesh) : Bool := a.merid.ordersOut && a.memb.members.all fun n => a.merid.answered.contains n
/-- A CANCEL of a switch at `e` + 1 still waits for a member's answer (R377). -/
def Alesh.cancelOut (a : Alesh) (e : Nat) : Bool := a.mgmt.asked.any fun q =>
  q.isOrder && leAt q.data 0 1 == 1 && bf (leAt q.data 8 8) 0 48 == e + 1
/-- The combiner withholds RELEASE for `e` (R375, R377). -/
def Alesh.orderHolds (a : Alesh) (e : Nat) : Bool :=
  a.cancelOut e || match a.merid.switching with
  | some (_, _, x) => x == e + 1 && !a.orderAnswered
  | none => false

/-! ### RELEASE (R198, R199, R256, R398) -/

/-- RELEASE of `e` waits for a cut of `e` (R256). -/
def Alesh.cutReady (a : Alesh) (e : Nat) : Bool :=
  (match a.plate.zeroing with | some (x, _) => decide (e < x) | none => true)
    && match a.plate.announced with
       | some (x, _) => x != e || a.memb.members.all fun n => a.plate.acks.contains n
       | none => true

/-- The members, and the nodes that a JOIN adds at or before the Meridian of `e` (R398). -/
def Alesh.releaseTo (a : Alesh) (e : Nat) : List Nat :=
  match a.memb.pending with
  | some c =>
    if certKind c = 5 ∧ certStep c ≤ e then a.memb.members ++ ((certChanges c).map (·.node)).filter fun n => !a.isMember n
    else a.memb.members
  | none => a.memb.members
/-- The combiner holds every ARRIVE of the lowest epoch not yet released: RELEASE, and the orders that this lets go. -/
def Alesh.tryRelease (a : Alesh) : Alesh :=
  let e := a.openRelease
  if a.inJob && a.combiner == a.node && a.cutReady e && !a.orderHolds e && decide (a.num O.STEP_EPOCH < e)
      && a.activeMembers.all fun n => a.merid.arrivals.any fun x => x.1 == n && decide (e ≤ x.2) then
    let before := if a.merid.again then a.merid.last else a.merid.sent.2
    let r := max (before + a.num O.MERIDIAN_PERIOD_NS) (a.now + a.num O.MERIDIAN_LEAD_NS)
    let b : Alesh := { a with merid := { a.merid with sent := (e, r), again := false } }
    ((b.releaseTo e).foldl (fun (c : Alesh) (n : Nat) => c.sendHello hRelease e n (leBytes 8 r ++ leBytes 8 0)) b).startOrders
  else a
/-- The ARRIVEs held with one more: those accepted in one cclk, that is at one captured value, stand in increasing node id (R325, log entry 132). -/
def Alesh.arriveIn (a : Alesh) (n e : Nat) : Merid :=
  let k := match a.merid.tied with
    | some (t, k) => if a.clock.valid && t == a.now then k else 0
    | none => 0
  let l := a.merid.arrivals
  { a.merid with
    arrivals := l.take (l.length - k) ++ sortBy (fun (x : Nat × Nat) => x.1) (l.drop (l.length - k) ++ [(n, e)])
    tied := some (a.now, k + 1) }
/-- An ARRIVE at the combiner, kept in its order of arrival; at the root, one for START_STEP + 1 ends a resend (R394). -/
def Alesh.noteArrive (a : Alesh) (n e : Nat) : Alesh :=
  let start := leAt a.comm.block 8 6
  let b : Alesh := if e = start + 1 then { a with comm := { a.comm with arrived := insertNat a.comm.arrived n } } else a
  if b.combiner != b.node || !b.inJob || b.merid.arrivals.contains (n, e) || decide (e < b.openRelease) then b
  else ({ b with merid := b.arriveIn n e }).tryRelease

end Sys2Proof.Machine
end

