-- ==== Sys2Proof/Machine/Combine.lean ====
section
/-! DEFINITION. Nodes of the reduction: their payloads, the pages they take, and owner combine (R16, R122 to R131, R137 to R140, R147,
R185). -/
namespace Sys2Proof.Machine

/-! ### PART packets (R147, R185) -/

def kDense : Nat := 0
def kSparse : Nat := 1
def kHdr : Nat := 2
def kHdrRoot : Nat := 3
def kNorm : Nat := 4
def kNormRoot : Nat := 5
def kLse : Nat := 6
def kBundle : Nat := 7

def partArgs (kind epoch node gsid : Nat) : Nat :=
  packBits [(60, 4, kind), (52, 8, epoch), (35, 17, node), (16, 16, gsid / 65536), (0, 16, gsid)]
/-- The number of tree node (ℓ, i) of a tree of 2^L leaves (R185). -/
def treeNumber (l level index : Nat) : Nat := 2 ^ (l - level) + index

def Alesh.sendPart (a : Alesh) (kind epoch node gsid dst : Nat) (payload : Bytes) : Alesh :=
  a.send tPart dst (partArgs kind epoch node gsid) payload

/-- The global slice id that marks the header gradient. -/
def headerGsid : Nat := 0xFFFF0000

/-! ### Row-sparse layers (R137 to R140) -/

structure SparseEntry where
  layer : Nat
  rowElems : Nat
  capacity : Nat
  version : Nat
  deriving DecidableEq, Repr

def SparseEntry.ofWord (w : Nat) : SparseEntry :=
  { layer := bf w 112 16, rowElems := bf w 64 32, capacity := bf w 48 16, version := bf w 44 4 }
def sparseEntries (n : Nat) (tab : Bytes) : List SparseEntry :=
  (List.range n).map fun i => SparseEntry.ofWord (leAt tab (16 * i) 16)
def Alesh.sparseTable (a : Alesh) : List SparseEntry := sparseEntries (a.num O.SPARSE_COUNT) (a.dom O.SPARSE_TABLE)

/-- The sparse entry of a slice: that of its first element's layer, by this core's layer table for a slice that the table covers, and
for a slice of another shard by the layers of the job (log entry 24). -/
def Alesh.sparseOf (a : Alesh) (g : Nat) : Option SparseEntry :=
  let x := a.elementBase g
  if gsidShard g = a.ownShard then (entryOf a.layers x).bind fun e => a.sparseTable.find? fun s => s.layer == e.layer
  else match a.sparseTable with
    | [s] => some s
    | t => t.find? fun s => s.layer == Config.layerAt x

/-- Rows that meet a slice: the first, and their number. -/
def Alesh.rowSpan (a : Alesh) (g : Nat) (s : SparseEntry) : Nat × Nat :=
  let lo := a.elementBase g - Config.layerFirst s.layer
  let n := a.gradCount g
  if n = 0 then (0, 0) else (lo / s.rowElems, (lo + n - 1) / s.rowElems - lo / s.rowElems + 1)
/-- First record position of a row in a slice, and its records there. -/
def Alesh.rowIn (a : Alesh) (g : Nat) (s : SparseEntry) (r : Nat) : Nat × Nat :=
  let lo := a.elementBase g - Config.layerFirst s.layer
  let n := a.gradCount g
  let st := Nat.max (r * s.rowElems) lo
  let en := min ((r + 1) * s.rowElems) (lo + n)
  (st - lo, en - st)
def Alesh.sparseRows (a : Alesh) (g level : Nat) (s : SparseEntry) : Nat := min (2 ^ level * s.capacity) (a.rowSpan g s).2
/-- The bytes of values in a SPARSE partial of `n` row entries: the most that so many rows of the slice can have, which the plan
alone fixes (R140, log entry 58). -/
def Alesh.sparseVals (a : Alesh) (g n : Nat) (s : SparseEntry) : Nat := 4 * min (n * s.rowElems) (a.gradCount g)

/-- The payload of a node (R126, R140, R147). A null node of a sparse layer too has none: R123 says so of every null node, and R147's
table makes no exception for SPARSE (DESIGN CHOICE, log entry 59). -/
def Alesh.nodePayload (a : Alesh) (g level : Nat) (v : NodeVal) : Bytes :=
  match v with
  | .null => []
  | .dense l => sliceBytesOf l
  | .lse b => b
  | .sparse rows =>
    match a.sparseOf g with
    | none => []
    | some s =>
      let n := a.sparseRows g level s
      sparseBytes n (a.sparseVals g n s) rows

/-- Rows listed in SPARSE bytes with their values, `width` bytes each (R138); the fill of a partial is passed over (R140). -/
def Alesh.parseRows (a : Alesh) (g : Nat) (s : SparseEntry) (width : Nat) (partial_ : Bool) (b : Bytes) : List (Nat × List F32) :=
  let fill (i : Nat) : Bool := partial_ && i == 0xFFFFFFFF
  let n := leAt b 0 4
  let idx := (List.range n).map fun i => leAt b (8 + 4 * i) 4
  let start := 8 + roundUp (4 * n) 8
  let go := idx.foldl (fun (acc : List (Nat × List F32) × Nat) i =>
    let w := if fill i then 0 else (a.rowIn g s i).2
    let vs := (List.range w).map fun k =>
      let bits := leAt b (acc.2 + width * k) width
      if width = 2 then Fp.widen .bf16 bits else Fp.widen .fp32 bits
    (if fill i then acc.1 else acc.1 ++ [(i, vs)], acc.2 + width * w)) ([], start)
  go.1

/-- A dense slice from rows (R139). -/
def Alesh.expandRows (a : Alesh) (g : Nat) (s : SparseEntry) (rows : List (Nat × List F32)) : List F32 :=
  rows.foldl (fun acc r =>
    let p := (a.rowIn g s r.1).1
    acc.take p ++ r.2 ++ acc.drop (p + r.2.length)) (List.replicate (a.gradCount g) Fp.posZero)

/-! ### Room (R131, R136) -/

def Alesh.partPages (a : Alesh) (p : Part) : Nat := ceilDiv (a.nodePayload p.gsid p.level p.val).length pageBytes
/-- The epoch in progress for a slice (R132). -/
def Prog.epoch (p : Prog) : Nat := p.last + 1
/-- The epoch in progress against which a partial is judged (R132): at the edge of a release every owned slice stands where that
release leaves it, one carried to its epoch too (R25). -/
def Alesh.partEpoch (a : Alesh) (kind g : Nat) : Nat :=
  if (kind == kDense || kind == kSparse) && a.ownerOf g == a.node then
    ((a.prog? g).map fun p => if a.releaseDue then max p.epoch a.classEpoch else p.epoch).getD a.classEpoch
  else a.classEpoch
/-- A partial held takes pages of the reserve: one of a slice of this core's for its epoch in progress. HEADER partials at the
combiner, the header root, and LSE partials at the destination of their merge, of which no rule says, are taken like an owner's
(DESIGN CHOICE, log entry 56). -/
def Alesh.inReserve (a : Alesh) (p : Part) : Bool :=
  p.epoch == a.partEpoch p.kind p.gsid
    && (if p.kind = kHdr then a.combiner == a.node else if p.kind = kLse || p.kind = kHdrRoot then true else a.ownerOf p.gsid == a.node)
/-- Pages outside the reserve in use: nodes that wait for a sibling or to be sent, and partials held ahead or for another owner. -/
def Alesh.poolUsed (a : Alesh) : Nat :=
  sumNat (((a.red.inner ++ a.red.waiting).map a.partPages) ++ ((a.red.held.filter fun p => !a.inReserve p).map a.partPages))
def Alesh.poolRoom (a : Alesh) (n : Nat) : Bool :=
  decide (a.poolUsed + n ≤ a.num O.REDUCE_PAGES - a.num O.REDUCE_OWNER_PAGES)
/-- Consumption stands still since a request for pages was refused, and none has been freed (R131). -/
def Alesh.poolStopped (a : Alesh) : Bool := (a.red.stall.map fun u => decide (u ≤ a.poolUsed)).getD false
/-- A request for unreserved pages is refused: consumption of contributions stops. -/
def Alesh.stopPool (a : Alesh) : Alesh :=
  (({ a with red := { a.red with stall := some (min a.poolUsed (a.red.stall.getD a.poolUsed)) } }).wrap O.REDUCE_POOL_FULL_COUNT).condition hPoolFull
/-- The reserve is exhausted: the engine withholds VC2 link credit (R131). -/
def Alesh.reserveFull (a : Alesh) : Bool :=
  let held := sumNat ((a.red.held.filter a.inReserve).map a.partPages)
  let grads := sumNat (a.progs.map fun p => sumNat (p.gradPages.map fun q => q.2.length))
  decide (a.num O.REDUCE_OWNER_PAGES ≤ held + grads)
def Alesh.retainUsed (a : Alesh) : Nat := sumNat (a.red.retained.map a.partPages)
def Alesh.setRetainUsed (a : Alesh) : Alesh := a.setNum O.RETAIN_USED a.retainUsed
def Alesh.retainRoom (a : Alesh) (n : Nat) : Bool := decide (a.retainUsed + n ≤ a.num O.RETAIN_PAGES)

/-! ### Owner combine (R16, R125) -/

def Alesh.depth (a : Alesh) : Nat := a.num O.VREPLICA_LOG2
/-- The value of the root from the partials held of a kind, slice and epoch. -/
def Alesh.rootOf (a : Alesh) (ok : Nat → Bool) (g e depth d : Nat) : Option NodeVal :=
  combineNode d ((a.red.held.filter fun p => ok p.kind && p.gsid == g && p.epoch == e).map fun p => ((p.level, p.index), p.val)) depth 0

def Alesh.denseOf (a : Alesh) (g : Nat) : NodeVal → List F32
  | .null => List.replicate (a.gradCount g) Fp.posZero
  | .dense v => v
  | .sparse rows => match a.sparseOf g with
    | some s => a.expandRows g s rows
    | none => List.replicate (a.gradCount g) Fp.posZero
  | .lse _ => List.replicate (a.gradCount g) Fp.posZero

/-- Where a page of the reduction pool lies (R131). -/
def Alesh.poolPage (a : Alesh) (i : Nat) : Nat := a.num O.REDUCE_BASE + i * pageBytes
/-- The lowest pages of the pool that hold no other reduced gradient, as many as there are (log entry 60). -/
def Alesh.freePool (a : Alesh) (g e n : Nat) : List Nat :=
  let used := a.progs.flatMap fun p => p.gradPages.flatMap fun x => if p.gsid == g && x.1 == e then [] else x.2.map (·.1)
  (((List.range (used.length + n)).filter fun i => !used.contains i).take n).filter fun i => decide (i < a.num O.REDUCE_PAGES)
/-- The pool has room for a slice's reduced gradient (R16, R131). -/
def Alesh.gradRoom (a : Alesh) (g e n : Nat) : Bool := (a.freePool g e n).length == n
/-- A slice's reduced gradient stands: its pages lie in Tier 0, each with CRC-64 in its metadata (R16). -/
def Alesh.setGrad (a : Alesh) (g e : Nat) (v : List F32) : Alesh :=
  if (a.prog? g).isNone then a
  else
    let b := sliceBytesOf v
    let cut (i : Nat) : Bytes := slice b (i * pageBytes) pageBytes
    let ps := (a.freePool g e (gradPages v.length)).zipIdx
    let c := ps.foldl (fun (c : Alesh) (q : Nat × Nat) => c.wr (c.poolPage q.1) (cut q.2)) a
    c.modProg g fun p => { p with grads := assign p.grads e v
                                  gradPages := assign p.gradPages e (ps.map fun q => (q.1, crc64 (cut q.2))) }

/-- Owner combine of a slice, where the partials held cover every replica; it waits for room in the pool (R16, R131). -/
def Alesh.ownerCombine (a : Alesh) (g e : Nat) : Alesh :=
  if a.ownerOf g = a.node && (a.grad? g e).isNone && a.gradRoom g e (gradPages (a.gradCount g)) then
    match a.rootOf (fun k => k == kDense || k == kSparse) g e a.depth 0 with
    | some v =>
      let b := a.setGrad g e (a.denseOf g v)
      { b with take := { b.take with retainTakes := b.take.retainTakes.filter fun r => !(r.1 == g && r.2.2.1 == e) } }
    | none => a
  else a

/-- Every header slice that this core owns takes the header gradient, where the pool has room for it. -/
def Alesh.setHeaderGrad (a : Alesh) (e : Nat) (v : List F32) : Alesh :=
  (a.take.owned.filter isHeader).foldl (fun (b : Alesh) (g : Nat) =>
    if (b.grad? g e).isNone && b.gradRoom g e (gradPages v.length) then b.setGrad g e v else b) a
/-- What waited for room in the pool completes: owner combines whose partials are all held, and the header gradient that has come. -/
def Alesh.combineWaiting (a : Alesh) : Alesh :=
  let b := a.red.held.foldl (fun (b : Alesh) (p : Part) =>
    if p.kind = kDense || p.kind = kSparse then b.ownerCombine p.gsid p.epoch else b) a
  a.red.held.foldl (fun (b : Alesh) (p : Part) => match p.val with
    | .dense v => if p.kind = kHdrRoot then b.setHeaderGrad p.epoch v else b
    | _ => b) b
/-- A slice has committed: the pool pages of its reduced gradient are free (R131, R401). -/
def Alesh.freeGrad (a : Alesh) (g e : Nat) : Alesh :=
  (a.modProg g fun p => { p with gradPages := p.gradPages.filter fun (x : Nat × List (Nat × Nat)) => x.1 != e }).combineWaiting

end Sys2Proof.Machine
end

