-- ==== Sys2Proof/Machine/Mx.lean ====
section
/-! DEFINITION. Publishing arithmetic and byte layouts (R90 to R98): the publish entry, block scales, element encodings,
packing, N:M pruning and the group stream. -/
namespace Sys2Proof.Machine

/-- A publish-table entry (R90). -/
structure PubEntry where
  dataBase : Nat
  scaleBase : Nat
  auxBase : Nat
  maskWord : Nat
  positions : Nat
  layer : Nat
  format : Nat
  block : Nat
  sparse : Nat
  nm : Nat
  fit : Bool
  version : Nat
  deriving DecidableEq, Repr

def PubEntry.ofWord (w : Nat) : PubEntry :=
  { dataBase := bf w 216 40, scaleBase := bf w 176 40, auxBase := bf w 136 40, maskWord := bf w 104 32
    positions := bf w 68 36, layer := bf w 52 16, format := bf w 48 4, block := bf w 46 2, sparse := bf w 44 2
    nm := bf w 41 3, fit := bf w 40 1 == 1, version := bf w 36 4 }

/-- The entries of a publish table. -/
def pubEntries (n : Nat) (tab : Bytes) : List PubEntry :=
  (List.range n).map fun i => PubEntry.ofWord (leAt tab (32 * i) 32)

def PubEntry.masked (e : PubEntry) : Bool := e.maskWord != 0xFFFFFFFF
/-- Block size B (R90). -/
def PubEntry.blockLen (e : PubEntry) : Nat := 16 * 2 ^ e.block
/-- N and M of an N:M layout (R90). -/
def PubEntry.nmOf (e : PubEntry) : Nat × Nat :=
  match e.nm with
  | 0 => (1, 4) | 1 => (2, 4) | 2 => (2, 8) | _ => (4, 8)

/-- An element format (R92): width, mantissa bits, least normal exponent, greatest exponent E, greatest code. -/
structure MxFmt where
  bits : Nat
  mant : Nat
  emin : Int
  emax : Int
  topSig : Nat
  topCode : Nat
  deriving DecidableEq, Repr

/-- The formats of R92; the sixth is MXINT8, whose elements are integers in units of 2^-6. -/
def mxFmt (f : Nat) : MxFmt :=
  match f with
  | 0 => ⟨8, 3, -6, 8, 14, 0x7E⟩
  | 1 => ⟨8, 2, -14, 15, 7, 0x7B⟩
  | 2 => ⟨6, 3, 0, 2, 15, 0x1F⟩
  | 3 => ⟨6, 2, -2, 4, 7, 0x1F⟩
  | 4 => ⟨4, 1, 0, 2, 3, 0x7⟩
  | _ => ⟨8, 6, 0, 0, 127, 127⟩

/-- The block scale byte (R93). -/
def blockScale (f : Nat) (fit : Bool) (vs : List F32) : Nat :=
  if vs.any fun v => !Fp.isFinite v then 0xFF
  else
    let a := vs.foldl (fun m v => Nat.max m (Fp.mag v)) 0
    if a = 0 then 0
    else
      let fm := mxFmt f
      let l := Nat.log2 a
      let x : Int := (l : Int) - 149 - fm.emax
      let x1 := if fit && decide (fm.topSig < Fp.rne (a * 2 ^ fm.mant) (2 ^ l)) then x + 1 else x
      ((if x1 < -127 then -127 else if 127 < x1 then 127 else x1) + 127).toNat

/-- One element under scale `s`, and whether it saturated (R94). -/
def encodeElem (f s : Nat) (v : F32) : Nat × Bool :=
  if s = 0xFF then (0, false)
  else
    let fm := mxFmt f
    let sh : Int := 149 + ((s : Int) - 127)
    let m := Fp.mag v
    if f = 5 then
      let n := Fp.rne (m * 64) (2 ^ sh.toNat)
      let sat := decide (127 < n)
      let c := if sat then 127 else n
      (bitsOf 8 (if Fp.isNeg v then -(c : Int) else c), sat)
    else
      let sgn := if Fp.isNeg v then 2 ^ (fm.bits - 1) else 0
      if m = 0 then (sgn, false)
      else
        let ex : Int := (Nat.log2 m : Int) - sh
        let e1 := if ex < fm.emin then fm.emin else ex
        let n := Fp.rne m (2 ^ (sh + e1 - fm.mant).toNat)
        let c := if n < 2 ^ fm.mant then n else (e1 - fm.emin + 1).toNat * 2 ^ fm.mant + (n - 2 ^ fm.mant)
        if fm.topCode < c then (sgn + fm.topCode, true) else (sgn + c, false)

/-- Elements packed as R95 states. -/
def packElems (bits : Nat) (codes : List Nat) : Bytes :=
  let all := codes.foldl (fun (acc : Nat × Nat) c => (acc.1 + c * 2 ^ acc.2, acc.2 + bits)) (0, 0)
  leBytes (ceilDiv all.2 8) all.1

/-- A block: its scale, its codes, the number that saturated (R93, R94). -/
def encodeBlock (f : Nat) (fit : Bool) (vs : List F32) : Nat × List Nat × Nat :=
  let s := blockScale f fit vs
  let es := vs.map (encodeElem f s)
  (s, es.map (·.1), (es.filter (·.2)).length)

/-- The rank key of a value in its N:M group (R97): non-finite values rank first, then by magnitude. -/
def nmKey (v : F32) : Nat := if Fp.isFinite v then Fp.mag v else 2 ^ 300

/-- How many values of a group rank above position `i`: greater ones, and equal ones at lower positions. -/
def nmRank (g : List F32) (i : Nat) : Nat :=
  let ki := nmKey (g.getD i 0)
  ((List.range g.length).filter fun j =>
    let kj := nmKey (g.getD j 0)
    decide (ki < kj) || (kj == ki && decide (j < i))).length

/-- The kept positions of a group, in increasing order (R97). -/
def nmKept (n : Nat) (g : List F32) : List Nat := (List.range g.length).filter fun i => decide (nmRank g i < n)

/-- An unstructured group: occupancy word, then scale and elements, padded to 8 bytes (R98). -/
def groupBytes (f : Nat) (fit : Bool) (occ : Nat) (present : List F32) : Bytes × Nat :=
  if present.isEmpty then (leBytes 8 occ, 0)
  else
    let (s, codes, sat) := encodeBlock f fit present
    let body := leBytes 8 occ ++ [BitVec.ofNat 8 s] ++ packElems (mxFmt f).bits codes
    (body ++ List.replicate (roundUp body.length 8 - body.length) 0, sat)

/-- The length of an unstructured group with `p` present values (R98). The codes take the least whole bytes that hold them, also
where the last 24-bit word of 6-bit codes is not full: then it takes 1 or 2 bytes (DESIGN CHOICE, log entry 66). -/
def groupLen (f p : Nat) : Nat := if p = 0 then 8 else roundUp (9 + ceilDiv (p * (mxFmt f).bits) 8) 8

/-- The number of set bits of a word of `w` bits. -/
def popcount (w x : Nat) : Nat := ((List.range w).filter fun i => x.testBit i).length

/-- The padded number of stream positions and the number of values K (R96). -/
def PubEntry.padded (e : PubEntry) : Nat :=
  if e.sparse = 1 then roundUp e.positions (e.blockLen * e.nmOf.2 / e.nmOf.1) else roundUp e.positions e.blockLen
def PubEntry.valueCount (e : PubEntry) : Nat :=
  if e.sparse = 1 then e.padded * e.nmOf.1 / e.nmOf.2 else e.padded

/-- The sizes of the element array, scale array and code stream (R96). -/
def PubEntry.sizes (e : PubEntry) : Nat × Nat × Nat :=
  let k := e.valueCount
  let c := if e.nmOf.2 = 4 then 2 else 3
  (k * (mxFmt e.format).bits / 8, k / e.blockLen, if e.sparse = 1 then k * c / 8 else 0)

end Sys2Proof.Machine
end

