-- ==== Sys2Proof/Machine/Reset.lean ====
section
/-! DEFINITION. Reset, INIT, calibration, tiles and columns, and the unit commands that need no chapter's checks
(R62, R120, R121, R361 to R367, R380 to R387, R403, R408, R433). -/
namespace Sys2Proof.Machine

/-! ### Tiles and columns (R59, R62, R120, R121) -/

def tileGood (a : Alesh) (t : Nat) : Bool := (a.num O.TILE_ACTIVE_MAP).testBit t

/-- Set the active tiles. -/
def Alesh.setTiles (a : Alesh) (map : Nat) : Alesh :=
  (a.setNum O.TILE_ACTIVE_MAP map).setNum O.TILE_ACTIVE_COUNT ((List.range 34).filter fun t => map.testBit t).length

/-- The reference checks of an update after a tile's retirement: one that it began starts again, and the unit of one under way is
dealt again, so that its check starts again too (R62, R345). -/
def Upd.tileGone (u : Upd) (t : Nat) : Upd :=
  let left := u.recheck.filter fun (q : Nat × Nat) => q.2 != t
  { u with recheck := left, redeal := left.map (·.1) }
/-- Retire a tile: the lowest spare takes its place, and the reference checks under way start again (R62, R345). -/
def Alesh.retireTile (a : Alesh) (t : Nat) : Alesh :=
  if tileGood a t then
    let map := a.num O.TILE_ACTIVE_MAP - 2 ^ t
    let b :=
      match a.ctl.spares with
      | [] => a.setTiles map
      | sp :: r => { a with ctl := { a.ctl with spares := r } }.setTiles (map + 2 ^ sp)
    let c : Alesh := { b with progs := b.progs.map fun p => { p with upd := p.upd.map fun u => u.tileGone t } }
    if c.num O.TILE_ACTIVE_COUNT < 16 then c.faultUnits [uUpdate] else c
  else { a with ctl := { a.ctl with spares := a.ctl.spares.filter (· != t) } }

/-- SECDED corrected `n` words in a tile's SRAM: they count over all tiles, in class CE, and for the tile (R323, R347, R403). -/
def Alesh.tileCorrected (a : Alesh) (t n : Nat) : Alesh :=
  if n = 0 then a
  else
    let b := a.countN O.TILE_SRAM_CE_COUNT n
    let w := b.health.now
    { b with health := { b.health with now := { w with ce := w.ce + n, tiles := assign w.tiles t (lookupD 0 w.tiles t + n) } } }
/-- A tile has worked: how many words of its SRAM were corrected meanwhile is a free value (log entry 65). -/
def Alesh.tileRan (a : Alesh) (t : Nat) : Alesh :=
  ({ a with ctl := { a.ctl with draws := a.ctl.draws + 1 } }).tileCorrected t (Config.freeCorrected a.ctl.draws)

/-- TILE_RETIRE: STATE_CONFLICT outside its states or where fewer than 16 tiles would stay active, RANGE for a tile that
is not active. -/
def tileRetire (tile : Nat) (a : Alesh) : Res × Alesh :=
  require (a.idleToJob && !(tileGood a tile && a.ctl.spares.isEmpty && decide (a.num O.TILE_ACTIVE_COUNT ≤ 16)))
    .stateConflict a (require (decide (tile ≤ 33) && tileGood a tile) .range a (.ok, a.retireTile tile))

def execTileRetire (via : Via) (tile : Nat) (s : State) : Host.Outcome State Fault Refusal :=
  command via O.TILE_RETIRE false (tileRetire tile) s

/-- Whether a physical column is good: 0 to 63, and spares 64 and 65. -/
def colGood (a : Alesh) (c : Nat) : Bool :=
  if c < 64 then (a.num O.PC_COL_GOOD).testBit c else if c < 66 then (a.num O.PC_SPARE_GOOD).testBit (c - 64) else false

/-- The presented width: at most 64 of the good columns (R120). -/
def widthWithout (a : Alesh) (cs : List Nat) : Nat :=
  min 64 ((List.range 66).filter fun i => colGood a i && !cs.contains i).length

/-- A column fails (R121). -/
def Alesh.failColumn (a : Alesh) (c : Nat) : Alesh :=
  if colGood a c then
    let w := widthWithout a [c]
    let b := (if c < 64 then a.setNum O.PC_COL_GOOD (a.num O.PC_COL_GOOD - 2 ^ c)
      else a.setNum O.PC_SPARE_GOOD (a.num O.PC_SPARE_GOOD - 2 ^ (c - 64))).setNum O.PC_WIDTH w
    if w < b.num O.PC_MIN_WIDTH then b.faultUnits [uPrecond] else b
  else a

def pcColRetire (col : Nat) (a : Alesh) : Res × Alesh :=
  require (a.idleToJob && !(colGood a col && decide (widthWithout a [col] < a.num O.PC_MIN_WIDTH))) .stateConflict a
    (require (colGood a col) .range a (.ok, a.failColumn col))

def execPcColRetire (via : Via) (col : Nat) (s : State) : Host.Outcome State Fault Refusal :=
  command via O.PC_COL_RETIRE false (pcColRetire col) s

/-- Words of a place are written: their valid bits are set (R384). -/
def Alesh.sramWrite (a : Alesh) (ps : List SramPlace) : Alesh :=
  { a with ctl := { a.ctl with sramValid := a.ctl.sramValid ++ ps.filter fun p => !a.ctl.sramValid.contains p } }
/-- The places that the tests of INIT write: every tile and column, and the control unit's SRAM (R383, log entry 64). -/
def testedSram : List SramPlace :=
  (List.range 34).map SramPlace.tile ++ (List.range 66).map SramPlace.column ++ [.control]

/-- An uncorrectable SRAM error, by where it lies (R403). Where no word of the place has its valid bit, a read returns zero and
makes no ECC check (R384): nothing happens. -/
def Alesh.sramError (p : SramPlace) (a : Alesh) : Alesh :=
  if a.ctl.core == .reset || !a.ctl.sramValid.contains p then a
  else
    match p with
    | .tile t => a.retireTile t
    | .column c => a.failColumn c
    | .control => a.faultAll
    | .unit u => a.faultUnits [u]

def execSramUncorrectableError (p : SramPlace) (s : State) : Host.Outcome State Fault Refusal := onCore (Alesh.sramError p) s

/-! ### Reset (R380 to R382, R433) -/

/-- Fused values, and FP_LINK_STATE, which shows the link pins (R418): no reset changes them. -/
def fusedKeys : List Nat := [O.STEPPING, O.GRADE, O.VENDOR_PEN, O.FP_LINK_STATE]

/-- Note a reset input, or power-good, as asserted or released. -/
def Ctl.input (c : Ctl) (d : Domain) (asserted : Bool) : Ctl :=
  match d with
  | .k => { c with rstK := asserted }
  | .t => { c with rstT := asserted }
  | .c => { c with rstC := asserted }
  | .m => { c with rstM := asserted }
  | .f => { c with rstF := asserted }
  | .power => { c with pwr := !asserted }

/-- The domains that are out of reset, by the table of R380. -/
def Ctl.domains (c : Ctl) : Ctl :=
  let k := !c.rstK && c.pwr
  { c with upK := k, upT := !c.rstT, upC := !c.rstC && c.pwr && k
           upM := !c.rstM && decide (2 ≤ c.initStep)
           upF := !c.rstF && !(c.core == .reset || c.core == .init) }

/-- The domains that can now leave reset do; with fclk the links that are up are granted their credits (R380, R417). -/
def Alesh.leaveDomains (a : Alesh) : Alesh :=
  let b : Alesh := { a with ctl := a.ctl.domains }
  if !a.ctl.upF && b.ctl.upF then (b.grantCredits 0).grantCredits 1 else b

/-- The whole core enters RESET: all SRAM is lost, Tier 0 stays but for pages being written, whose bytes are free
(R381, R382). The fabric link pins, the fused values, the repair shadow and the reset inputs are not the core's to clear. -/
def Alesh.enterReset (d : Domain) (torn : List Nat) (a : Alesh) : Alesh :=
  let z := Alesh.reset
  let ctl := { (z.ctl) with
    core := .reset, draws := a.ctl.draws, rstK := a.ctl.rstK, rstT := a.ctl.rstT, rstC := a.ctl.rstC, rstM := a.ctl.rstM
    rstF := a.ctl.rstF, pwr := a.ctl.pwr }
  let b := { z with
    ctl := { (ctl.input d true).domains with upC := false, upM := false, upF := false }
    dict := { z.dict with nums := a.dict.nums.filter fun p => fusedKeys.contains p.1 }
    mgmt := { z.mgmt with pid := a.mgmt.pid, bcr := a.mgmt.bcr, dcr := a.mgmt.dcr }
    ports := { z.ports with up0 := a.ports.up0, up1 := a.ports.up1 }
    test := { a.test with out := [] }, mem0 := a.mem0, mem1 := a.mem1 }
  torn.foldl (fun c p =>
    let w := c.drawBytes pageBytes
    { w.2 with mem0 := w.2.mem0.write (p * pageBytes) w.1 }) b

/-- Assertion of a reset input or a fall of power-good; rst_t_n alone has its own row. -/
def Alesh.resetAssert (d : Domain) (torn : List Nat) (a : Alesh) : Alesh :=
  match d with
  | .t => { a.loseTime with ctl := (a.ctl.input .t true).domains }
  | d => a.enterReset d torn

def execResetAssert (d : Domain) (torn : List Nat) (s : State) : Host.Outcome State Fault Refusal :=
  onCore (Alesh.resetAssert d torn) s

/-- A release: the domains whose conditions hold leave reset; with cclk the core enters INIT (R362, R380). -/
def Alesh.resetRelease (d : Domain) (a : Alesh) : Alesh :=
  let c := a.ctl.input d false
  let c1 := if c.core == .reset && c.domains.upC then { c with core := .init } else c
  ({ a with ctl := c1 }).leaveDomains

def execResetRelease (d : Domain) (s : State) : Host.Outcome State Fault Refusal := onCore (Alesh.resetRelease d) s

/-! ### INIT (R383) -/

/-- Enter IDLE once INIT waits and CAL_STATE is LOADED. -/
def Alesh.initDone (a : Alesh) : Alesh :=
  if a.ctl.core == .init && a.ctl.initStep == 4 && a.num O.CAL_STATE == 1 then
    ({ a with ctl := { a.ctl with core := CoreState.idle } }).leaveDomains
  else a

/-- INIT halts: the cause and evt_fault. -/
def Alesh.initHalt (a : Alesh) (cause step : Nat) : Alesh :=
  ({ a with ctl := { a.ctl with initStep := step }.domains }.setNum O.INIT_FAIL cause).raiseFault

/-- A tile that a test finds bad is retired without any unit entering FAULTED: INIT halts instead. -/
def Alesh.initTile (a : Alesh) (t : Nat) : Alesh :=
  if tileGood a t then
    match a.ctl.spares with
    | [] => a.setTiles (a.num O.TILE_ACTIVE_MAP - 2 ^ t)
    | sp :: r => { a with ctl := { a.ctl with spares := r } }.setTiles (a.num O.TILE_ACTIVE_MAP - 2 ^ t + 2 ^ sp)
  else { a with ctl := { a.ctl with spares := a.ctl.spares.filter (· != t) } }
def Alesh.initColumn (a : Alesh) (c : Nat) : Alesh :=
  if colGood a c then
    let w := widthWithout a [c]
    (if c < 64 then a.setNum O.PC_COL_GOOD (a.num O.PC_COL_GOOD - 2 ^ c)
      else a.setNum O.PC_SPARE_GOOD (a.num O.PC_SPARE_GOOD - 2 ^ (c - 64))).setNum O.PC_WIDTH w
  else a

/-- Steps 1 to 4 of INIT: the repair shadow, the self-test, clear valid bits, the tile and column tests and the fingerprint;
then it waits for a calibration (R383, R384, R447). -/
def Alesh.initSequence (t : SelfTest) (a : Alesh) : Alesh :=
  if a.ctl.core != .init || decide (4 ≤ a.ctl.initStep) || a.num O.INIT_FAIL != 0 then a
  else if t.controlSramBad then a.initHalt 1 0
  else
    let b := (a.test.tiles ++ t.tilesBad).foldl Alesh.initTile a
    let c := (a.test.cols ++ t.colsBad).foldl Alesh.initColumn b
    let d := { c with test := { c.test with rows := c.test.rows ++ t.rowsFixed.filter fun x => !c.test.rows.contains x
                                            tiles := sortNat (c.test.tiles ++ t.tilesBad)
                                            cols := sortNat (c.test.cols ++ t.colsBad) } }.sramWrite testedSram
    if d.num O.TILE_ACTIVE_COUNT < 16 then d.initHalt 2 3
    else if d.num O.PC_WIDTH < 16 then d.initHalt 3 3
    else
      let e := d.setDom O.SETTINGS_FINGERPRINT d.fingerprint
      { e with ctl := { e.ctl with initStep := 4 }.domains }.initDone

def execInitSequence (t : SelfTest) (s : State) : Host.Outcome State Fault Refusal := onCore (Alesh.initSequence t) s

/-! ### Calibration (R385) -/

/-- The points of a VF table: frequency and voltage. -/
def vfPoints (n : Nat) (tab : Bytes) : List (Nat × Nat) := (List.range n).map fun i => (leAt tab (4 * i) 2, leAt tab (4 * i + 2) 2)

/-- The items of a calibration image: key and value. -/
def calItems (img : Bytes) : List (Nat × Nat) :=
  (List.range (leAt img 7 1)).map fun i =>
    (leAt img (256 + 8 * i) 2 * 256 + leAt img (258 + 8 * i) 1, leAt img (260 + 8 * i) 4)

/-- An item names an RW object of 0x7010 to 0x7030 of at most 32 bits and gives it a value in its range. -/
def Alesh.calItemOk (a : Alesh) (it : Nat × Nat) : Bool :=
  match objOf? it.1 with
  | none => false
  | some o =>
    decide (0x701000 ≤ it.1) && decide (it.1 ≤ 0x7030FF) && o.cls == .rw && o.ty != .dom && decide (o.ty.bits ≤ 32)
      && a.inRange o it.2

/-- The checks of an image of 768 bytes. -/
def Alesh.calOk (a : Alesh) (img : Bytes) : Bool :=
  let n := leAt img 6 1
  let pts := vfPoints n (img.drop 64)
  img.length == 768 && leAt img 0 4 == 0x4C414343 && leAt img 4 1 == 1 && decide (leAt img 5 1 ≤ 1)
  && decide (1 ≤ n) && decide (n ≤ 16) && decide (leAt img 7 1 ≤ 64)
  && leAt img 56 8 == crc64 (img.take 56 ++ img.drop 64)
  && increasing (pts.map (·.1)) && (pts.all fun p => decide (300 ≤ p.1) && decide (p.1 ≤ 600))
  && (pts.map (·.1)).getLast? == some 600 && (pts.all fun p => decide (400 ≤ p.2) && decide (p.2 ≤ 1200))
  && decide (leAt img 12 4 ≤ leAt img 16 4)
  && increasing ((calItems img).map (·.1)) && (calItems img).all a.calItemOk

/-- Install an image, whole; an empty one stands for the built-in image. -/
def Alesh.calInstall (a : Alesh) (img : Bytes) : Alesh :=
  if img.isEmpty then
    ((((((a.setDom O.VF_TABLE builtinVf).setDom O.LINK_EQ_HINTS (List.replicate 128 0)).setNum O.TURKAI_MIN 0).setNum
      O.TURKAI_MAX 0xFFFFFFFF).setNum O.CAL_ORIGIN 0xFF).setNum O.CAL_SERIAL 0).setNum O.CAL_STATE 1
  else
    let b := (calItems img).foldl (fun x it => x.setNum it.1 it.2) a
    ((((((b.setDom O.VF_TABLE (slice img 64 64)).setDom O.LINK_EQ_HINTS (slice img 128 128)).setNum O.TURKAI_MIN
      (leAt img 12 4)).setNum O.TURKAI_MAX (leAt img 16 4)).setNum O.CAL_ORIGIN (leAt img 5 1)).setNum O.CAL_SERIAL
      (leAt img 8 4)).setNum O.CAL_STATE 1

/-- CAL_LOAD, in INIT and MAINT; a load ends INIT's wait. -/
def calLoad (a : Alesh) : Res × Alesh :=
  require (a.ctl.core == .init || a.ctl.core == .maint) .stateConflict a
    (let img := a.dom O.CAL_IMAGE
     if img.isEmpty || a.calOk img then (.ok, (a.calInstall img).initDone) else (.range, a.setNum O.CAL_STATE 2))

def execCalLoad (via : Via) (s : State) : Host.Outcome State Fault Refusal := command via O.CAL_LOAD false calLoad s

/-! ### Unit commands (R364, R366, R367) -/

/-- UNIT_DISARM and UNIT_CLEAR: in IDLE, every named unit in the one state; then RANGE for an empty or wide mask. -/
def unitCommand (from_ : UState) (mask : Nat) (a : Alesh) : Res × Alesh :=
  require (a.ctl.core == .idle && (unitsOf mask).all fun u => a.unit u == from_) .stateConflict a
    (require (decide (1 ≤ mask) && decide (mask ≤ 0x1FF)) .range a
      (.ok, (unitsOf mask).foldl (fun b u => b.setUnit u .disabled) a))

def execUnitDisarm (via : Via) (mask : Nat) (s : State) : Host.Outcome State Fault Refusal :=
  command via O.UNIT_DISARM false (unitCommand .armed mask) s
def execUnitClear (via : Via) (mask : Nat) (s : State) : Host.Outcome State Fault Refusal :=
  command via O.UNIT_CLEAR false (unitCommand .faulted mask) s

def Alesh.dropOrders (a : Alesh) : Alesh := { a with mgmt := { a.mgmt with asked := a.mgmt.asked.filter fun q => !q.isOrder } }
/-- Any pending overlay order is dropped without a switch (R377). -/
def Alesh.dropOrder (a : Alesh) : Alesh :=
  if a.merid.order.isSome || a.merid.switching.isSome then
    let m : Merid := { a.merid with order := none, orderHolder := [], switching := none, ordersOut := false, answered := [], refused := false }
    let b := a.dropOrders
    ({ b with merid := m }).setNum O.SWITCH_STATE 0
  else a

/-- JOB_STOP: a step epoch above the one in progress (R367). -/
def jobStop (epoch : Nat) (a : Alesh) : Res × Alesh :=
  require a.inJob .stateConflict a
    (require (decide (a.inProgress < epoch)) .range a
      (.ok, { a.dropOrder with ctl := { a.ctl with jobStop := some epoch } }))

def execJobStop (via : Via) (epoch : Nat) (s : State) : Host.Outcome State Fault Refusal :=
  command via O.JOB_STOP true (jobStop epoch) s

/-- MAINT_ENTER: from IDLE with every unit DISABLED or FAULTED; in MAINT every unit is DISABLED (R408). -/
def maintEnter (a : Alesh) : Res × Alesh :=
  require (a.ctl.core == .idle && a.ctl.units.all fun u => u == .disabled || u == .faulted) .stateConflict a
    (.ok, { a with ctl := { a.ctl with core := .maint, units := List.replicate 9 .disabled } })

def execMaintEnter (via : Via) (s : State) : Host.Outcome State Fault Refusal := command via O.MAINT_ENTER false maintEnter s

/-- What a unit had accepted and has not finished is discarded (R364). -/
def Alesh.discardWork (a : Alesh) (u : Nat) : Alesh :=
  if u = uUpdate then
    { a with progs := a.progs.map fun p => { p with upd := none }, slots := { a.slots with pend := [] } }
  else if u = uPublish then { a with pub := { a.pub with tokens := [], written := [] } }
  else if u = uPrecond then { a with pub := { a.pub with pc := [], phases := [] } }
  else if u = uCoding then { a with coding := { a.coding with own := [], hold := [], reports := [], answers := [] } }
  else if u = uReduce then { a with red := { Red.reset with retained := a.red.retained } }
  else if u = uTier then
    -- the tags of the requests that it gives up rest before they are used again (R311)
    let out := a.fabric.reqs.filter fun r => decide (r.tag < 1024)
    { a with fabric := { a.fabric with reqs := [], ops := [], jobs := [], restTags := a.fabric.restTags ++ out.map fun r => (r.tag, r.lastSend) } }
  else a

/-- A DRAINING unit has finished or discarded all work (R364). -/
def Alesh.unitDrained (u : Nat) (a : Alesh) : Alesh :=
  if a.unit u == .draining then (a.discardWork u).setUnit u .disabled else a

def execUnitDrainComplete (u : Nat) (s : State) : Host.Outcome State Fault Refusal := onCore (Alesh.unitDrained u) s

/-- The discards of PLATE_RETURN are done: running or draining units return to ARMED (R276, R364). -/
def Alesh.discardsDone (a : Alesh) : Alesh :=
  if a.ctl.discarding then
    { a with ctl := { a.ctl with
      discarding := false
      units := a.ctl.units.map fun u => if u == .running || u == .draining then .armed else u } }
  else a

def execPlateReturnDiscardsDone (s : State) : Host.Outcome State Fault Refusal := onCore Alesh.discardsDone s

end Sys2Proof.Machine
end

