-- ==== Sys2Proof/Machine/Update.lean ====
section
/-! DEFINITION. Skip marks, the norm pass and the update by the tiles (R16 to R18, R35, R50, R60 to R62, R68 to R85, R88,
R344 to R346). -/
namespace Sys2Proof.Machine

/-! ### Releasing retained partials (R134) -/

/-- RETAIN_REL of a slice to every core from which a partial of it was taken (R134, R186). -/
def Alesh.retainRel (a : Alesh) (g e : Nat) : Alesh :=
  let froms := sortNat ((a.red.sources.filter fun x => x.1 == g && x.2.1 == e).map (·.2.2))
  let b := a.sendAll tRetainRel froms (packBits [(56, 8, e), (0, 32, g)]) []
  { b with red := { b.red with
      held := b.red.held.filter fun p => !(p.gsid == g && p.epoch == e && (p.kind == kDense || p.kind == kSparse))
      sources := b.red.sources.filter fun x => !(x.1 == g && x.2.1 == e) } }

/-! ### Arrival (R16, R198, R199, R249, R365, R376) -/

def Alesh.pubTable (a : Alesh) : List PubEntry := pubEntries (a.num O.PUB_COUNT) (a.dom O.PUB_TABLE)
/-- Every owned slice is committed at `e` and every layer published. -/
def Alesh.stepDone (a : Alesh) (e : Nat) : Bool :=
  (a.take.owned.all fun g => ((a.prog? g).map fun p => decide (e ≤ p.last) && !p.undecided).getD false)
    && a.pubTable.all fun p => a.pub.ready.contains (p.layer, e)
/-- A member sends ARRIVE for `e` only to a combiner known to hold the order of e + 1 (R376). -/
def Alesh.orderKnown (a : Alesh) (e : Nat) : Bool :=
  match a.merid.order with
  | some (_, x, _) => x != e + 1 || a.merid.orderHolder.contains a.combiner
  | none => true
/-- The combiner's own arrival counts in the cclk in which it arrives (R325). -/
def Alesh.noteOwn (a : Alesh) (e : Nat) : Alesh := if a.combiner = a.node then a.noteArrive a.node e else a
/-- Send ARRIVE for the epoch in progress, once under each membership epoch, when the core has arrived. -/
def Alesh.tryArrive (a : Alesh) : Alesh :=
  let e := a.inProgress
  -- no step epoch lies above 2^48 − 1: the core becomes FAULTED and the job stays as it last committed (R51)
  if a.inJob && decide (2 ^ 48 ≤ e) then a.faultAll else
  let key := (e, a.num O.MEMBERSHIP_EPOCH)
  if a.sound && a.isMember a.node && !a.isDraining a.node && !a.fabric.minority && a.stepDone e && a.orderKnown e && a.merid.arrived != some key then
    let first := match a.health.arriveAt with
      | some (x, t) => if x = e then (x, t) else (e, a.now)
      | none => (e, a.now)
    let b : Alesh := { a with merid := { a.merid with arrived := some key }, health := { a.health with arriveAt := some first } }
    (b.sendHello hArrive e b.combiner []).noteOwn e
  else a

/-! ### Skip marks (R18, R81 to R83) -/

/-- Pages that the update of a unit writes: all of it that lies below SHARD_PAGES, since a unit is written whole (R84, log
entry 19); pages past the replicated ones of a header slice stay unwritten (R34). -/
def Alesh.unitPages (a : Alesh) (g : Nat) (u : Nat × Nat) : List Nat :=
  let top := if isHeader g then 9 + a.num O.REPL_PAGES else a.slicePages g
  ((List.range u.2).map (u.1 + ·)).filter fun p => decide (p < top)

/-- A unit is null when every gradient element of its records has code 0 (R83); none while a gradient is missing. -/
def Alesh.unitNull (a : Alesh) (g e : Nat) (u : Nat × Nat) : Option Bool :=
  if isHeader g && u.1 == 0 then some false
  else
    (a.unitRecords g u).foldl (fun acc j =>
      match acc, a.gradAt g j e with
      | some n, some v => some (n && Fp.magCode v == 0)
      | _, _ => none) (some true)

/-- Set the marks of a slice. -/
def Alesh.setMarks (a : Alesh) (g e : Nat) (nulls : List Nat) : Alesh := a.modProg g fun p => { p with marks := assign p.marks e nulls }

/-- A slice whose units are all null counts as committed at the epoch in progress (R18). -/
def Alesh.settleNull (a : Alesh) (g : Nat) : Alesh :=
  let e := a.inProgress
  match a.prog? g, a.marks? g e with
  | some p, some nulls =>
    if a.sound && p.epoch == e && p.upd.isNone && !p.undecided && (a.units g).all fun u => nulls.contains u.1 then
      (((a.retainRel g e).modProg g fun q => { q with last := e, fence := e }).freeGrad g e).tryArrive
    else a
  | _, _ => a

/-- Mark a slice at its epoch in progress once every gradient of its records is complete. -/
def Alesh.skipMark (g : Nat) (a : Alesh) : Alesh :=
  match a.prog? g with
  | none => a
  | some p =>
    let e := p.epoch
    let ready := a.inJob && a.unit uUpdate == .running && a.owns g && !p.undecided && (a.marks? g e).isNone
      && decide (e ≤ a.inProgress + 1) && (!isHeader g || (a.grad? g e).isSome)
    let ms := (a.units g).map fun u => (u.1, a.unitNull g e u)
    if ready && ms.all fun m => m.2.isSome then
      (a.setMarks g e ((ms.filter fun m => m.2 == some true).map (·.1))).settleNull g
    else a

def execSkipMark (gsid : Nat) (s : State) : Host.Outcome State Fault Refusal := onCore (Alesh.skipMark gsid) s

/-- The pages that a slice's update at `e` writes, in increasing order (R19). -/
def Alesh.writtenPages (a : Alesh) (g e : Nat) : List Nat :=
  let nulls := (a.marks? g e).getD []
  ((a.units g).filter fun u => !nulls.contains u.1).flatMap (a.unitPages g)

/-! ### Evaluating a record (R63 to R79) -/

/-- The key of a reduction node in a layer (R130). -/
def normKey (x : RNode) (layer : Nat) : Nat :=
  if x.global then 2 ^ 31 + x.tag else packBits [(16, 4, x.tag), (0, 16, layer)]

/-- Nodes of a recipe that reduce, with their keys and opcodes. -/
def normNodes (r : Recipe) (layer : Nat) : List (Nat × Nat × Nat) :=
  (r.nodes.zipIdx.filter fun p => p.1.isReduction).map fun p => (p.2, normKey p.1 layer, p.1.op)

/-- The scalars for an element of a layer entry at epoch `e`. -/
def Alesh.context (a : Alesh) (le : LayerEntry) (r : Recipe) (e : Nat) : RCtx :=
  { consts := a.recipeConsts le.slot, eta := a.eta e, t := e, layerElems := le.elems, seed := a.jobSeed
    reds := (normNodes r le.layer).filterMap fun n =>
      (a.red.roots.find? fun x => x.epoch == e && x.key == n.2.1).map fun x => (n.1, x.val) }

/-- The element at a record position with the field values of the committed epoch (R68, R78); none while an input is
missing. -/
def Alesh.element (a : Alesh) (g j e : Nat) (r : Recipe) : Option RElem :=
  match a.gradAt g j e, a.statsAt g j e r with
  | some v, some st => some { index := a.elementBase g + j, fields := a.liveVals g j (e - 1), grad := v, stats := st }
  | _, _ => none

/-- The stored bits of a record's fields in the live slot. -/
def Alesh.storedBits (a : Alesh) (g j : Nat) (r : Recipe) : List Nat :=
  splitFields r.fields (a.liveBytes g (a.recordByte g j) a.recBytes)

/-- The new bytes of a record (R69). -/
def Alesh.newRecord (a : Alesh) (g j e : Nat) : Bytes :=
  match a.elemRecipe (a.elementBase g + j) with
  | none => []
  | some (le, r) =>
    match a.element g j e r with
    | none => []
    | some el => joinFields r.fields (evalRecord r (a.context le r e) el (a.layerExp le.layer) (a.storedBits g j r))

/-! ### The norm pass (R78, R79, R130) -/

/-- A slice is ready for the pre-pass: marked at `e`, with every value that its non-null reducing records read. -/
def Alesh.normReady (a : Alesh) (g e : Nat) : Bool :=
  match a.marks? g e with
  | none => false
  | some nulls =>
    (a.units g).all fun u => nulls.contains u.1 || (a.unitRecords g u).all fun j =>
      match a.elemRecipe (a.elementBase g + j) with
      | some (_, r) => !r.usesNorm || (a.element g j e r).isSome
      | none => false

/-- The terms of a slice: key, opcode, position, term. A record of a null unit gives +0.0 (R78). -/
def Alesh.normTerms (a : Alesh) (g e : Nat) : List (Nat × Nat × Nat × F32) :=
  let nulls := (a.marks? g e).getD []
  (a.units g).flatMap fun u => (a.unitRecords g u).flatMap fun j =>
    match a.elemRecipe (a.elementBase g + j) with
    | none => []
    | some (le, r) =>
      if !r.usesNorm then []
      else if nulls.contains u.1 then (normNodes r le.layer).map fun n => (n.2.1, n.2.2, j, Fp.posZero)
      else
        match a.element g j e r with
        | none => []
        | some el =>
          let ts := reductionTerms r (a.context le r e) el
          (normNodes r le.layer).map fun n => (n.2.1, n.2.2, j, lookupD Fp.posZero ts n.1)

/-- The NORM entries of a slice: one per reduction whose domain it meets. -/
def Alesh.sliceNorms (a : Alesh) (g e : Nat) : List NormEnt :=
  let ts := a.normTerms g e
  (sortNat (ts.map (·.1))).filterMap fun k =>
    let mine := ts.filter fun t => t.1 == k
    mine.head?.map fun t =>
      { epoch := e, gsid := g, key := k, op := t.2.1, val := sliceReduce t.2.1 (mine.map fun q => (q.2.2.1, q.2.2.2)) }

/-- The 16 bytes of an entry; NORM_ROOT entries name no slice. -/
def NormEnt.bytes (n : NormEnt) (root : Bool) : Bytes :=
  leBytes 4 (if root then 0xFFFFFFFF else n.gsid) ++ leBytes 4 n.key ++ leBytes 4 n.val.toNat ++ leBytes 1 n.op ++ [0, 0, 0]

/-- The live pages that the pre-pass reads: those of the units that are not null in slices with a reduction, and the header
pages that hold their exponents and JOB_SEED (R34, R47, R48). -/
def Alesh.normPages (a : Alesh) (e : Nat) : List (Nat × Nat) :=
  (a.take.owned.filter fun g => (a.sliceEntries g).any fun x => (a.recipe x.slot).usesNorm).flatMap fun g =>
    let nulls := (a.marks? g e).getD []
    (((a.units g).filter fun u => !nulls.contains u.1).flatMap fun u => ((a.unitPages g u).map fun p => (g, p))) ++ a.expPages g ++ a.seedPages
/-- A header page with an exponent outside its range is damaged (R70). -/
def Alesh.damageExps (a : Alesh) (u : Nat) (ps : List Nat) : Alesh :=
  ps.foldl (fun (b : Alesh) (p : Nat) => (b.want u a.headerSlice p).damageLive a.headerSlice p) a
/-- The exponents that the pre-pass uses lie in range, or else their pages. -/
def Alesh.normBadExps (a : Alesh) : List Nat :=
  (a.take.owned.filter fun g => (a.sliceEntries g).any fun x => (a.recipe x.slot).usesNorm).flatMap a.badExps
/-- The pre-pass of the epoch in progress: the results of every owned slice go to the combiner. -/
def Alesh.normPass (now : Nat) (a0 : Alesh) : Alesh :=
  let a := a0.at now
  let e := a.inProgress
  if a.inJob && a.unit uUpdate == .running && a.red.normSent != e && a.take.owned.all fun g => a.normReady g e then
    a.withPages uUpdate (a.normPages e) <|
    if !a.normBadExps.isEmpty then a.damageExps uUpdate a.normBadExps
    else
    let es := a.take.owned.flatMap fun g => a.sliceNorms g e
    let b := { a with red := { a.red with normSent := e, ownNorms := es } }
    if es.isEmpty then b else b.sendPart kNorm e 0 0 b.combiner (es.flatMap fun n => n.bytes false)
  else a

def execNormPass (now : Nat) (s : State) : Host.Outcome State Fault Refusal := onCore (Alesh.normPass now) s

/-- The reductions of the recipe slots that the layer table names (R130). -/
def Alesh.normKeys (a : Alesh) : List Nat :=
  sortNat (a.layers.flatMap fun e => (normNodes (a.recipe e.slot) e.layer).map (·.2.1))
/-- The norm pass is complete at this core. -/
def Alesh.normDone (a : Alesh) (e : Nat) : Bool := a.normKeys.all fun k => a.red.roots.any fun x => x.epoch == e && x.key == k
def Alesh.sliceUsesNorm (a : Alesh) (g : Nat) : Bool := (a.sliceEntries g).any fun e => (a.recipe e.slot).usesNorm

/-! ### Starting an update (R17, R38, R39, R50, R118, R201) -/

/-- The pages that an update reads: the slice's own and the header pages that hold its exponents (R47). -/
def Alesh.updatePages (a : Alesh) (g : Nat) : List (Nat × Nat) :=
  ((List.range (a.slicePages g)).map fun p => (g, p)) ++ a.expPages g ++ a.seedPages
/-- A slice of statistic layers is updated after phases 1 and 2 of their entries (R118). -/
def Alesh.phasesFirst (a : Alesh) (g e : Nat) : Bool :=
  (a.sliceEntries g).all fun le => match statOf a.pcTable le.layer with
    | some (k, en, _) => a.phaseDone k e 1 && (en.mode == 0 || !en.isRefresh e || a.phaseDone k e 2)
    | none => true

/-- Every condition of an update but the free slot and the soundness of the live pages. -/
def Alesh.updatable (a : Alesh) (g : Nat) : Bool :=
  let e := a.inProgress
  match a.prog? g, a.marks? g e with
  | some p, some nulls =>
    a.inJob && a.unit uUpdate == .running && a.owns g && !p.undecided && p.upd.isNone && p.epoch == e
      && a.hasBlock g
      && !(a.take.absent.any fun x => x / 256 == g)
      && !((a.units g).all fun u => nulls.contains u.1)
      && (!a.sliceUsesNorm g || a.normDone e) && a.phasesFirst g e
      && ((a.units g).all fun u => nulls.contains u.1 || (a.unitRecords g u).all fun j =>
        match a.elemRecipe (a.elementBase g + j) with
        | some (_, r) => (a.element g j e r).isSome
        | none => false)
  | _, _ => false

/-- Copy a page and its record to the pending slot; RETIRED belongs to the physical page, a pin does not move (R50). -/
def Alesh.copyPage (a : Alesh) (old slot page : Nat) : Alesh :=
  let r := a.pageRec old page
  let b := a.setRec slot page ((r.setFlag flRetired (a.onSpare (a.pageAddr slot page))).setFlag flPinned false)
  if r.valid then b.wr (b.pageAddr slot page) (a.rd (a.pageAddr old page) pageBytes) else b

/-- RING_FULL of R339: no slot is free. -/
def Alesh.noteRing (a : Alesh) : Alesh := if a.claimable.isEmpty then a.condition hRingFull else a
/-- Claim the lowest free slot and copy what the update does not write. -/
def Alesh.updateStart (g : Nat) (a : Alesh) : Alesh :=
  if a.updatable g then
    match a.liveSlot g with
    | none => a
    | some old =>
      a.withPages uUpdate (a.updatePages g) <|
      if !(a.badExps g).isEmpty then a.damageExps uUpdate (a.badExps g)
      else
        match a.claimable.head? with
        | none => (a.countN O.RING_FULL_COUNT 1).condition hRingFull
        | some slot =>
          let e := a.inProgress
          let nulls := (a.marks? g e).getD []
          let w := a.writtenPages g e
          let kept := (List.range 256).filter fun p => !w.contains p
          let b := kept.foldl (fun b p => b.copyPage old slot p) a
          let c := { b with slots := { b.slots with pend := assign b.slots.pend g slot } }
          let todo := ((a.units g).filter fun u => !nulls.contains u.1).map (·.1)
          let up : Upd := { epoch := e, slot := slot, old := old, todo := todo, recheck := [], redeal := [], sent := [] }
          (c.modProg g fun p => { p with upd := some up }).noteRing
  else a

def execUpdateStart (gsid : Nat) (s : State) : Host.Outcome State Fault Refusal := onCore (Alesh.updateStart gsid) s

/-! ### Completing a skip unit (R35, R43, R61, R83, R88) -/

/-- The cursor table and scalar page that the update at `e` leaves (R34, R35). -/
def Alesh.headerBytes (a : Alesh) (g e : Nat) : Bytes :=
  let old := a.liveBytes g 0 (9 * pageBytes)
  let v := 2 ^ a.num O.VREPLICA_LOG2
  let cur := (List.range v).flatMap fun i => leBytes 8 (leAt old (8 * i) 8 + a.num O.DATA_STRIDE)
  let scal := leBytes 6 e ++ leBytes 2 0 ++ leBytes 8 a.jobSeed ++ leBytes 8 a.dataSeed ++ leBytes 4 (a.num O.JOB_ID)
    ++ leBytes 4 (a.num O.CONFIG_EPOCH)
  overlay (overlay old 0 cur) (8 * pageBytes) scal

/-- The new bytes of a unit's pages. -/
def Alesh.unitBytes (a : Alesh) (g e : Nat) (u : Nat × Nat) : Bytes :=
  if isHeader g && u.1 == 0 then a.headerBytes g e
  else
    let old := a.liveBytes g (u.1 * pageBytes) (u.2 * pageBytes)
    match (a.unitRecords g u).head? with
    | none => old
    | some j => overlay old (a.recordByte g j - u.1 * pageBytes) ((a.unitRecords g u).flatMap fun i => a.newRecord g i e)

/-- A layer has a mask (R90). -/
def Alesh.masked (a : Alesh) (layer : Nat) : Bool := a.pubTable.any fun p => p.layer == layer && p.masked
/-- A page holds a record of a masked layer (R88). -/
def Alesh.holdsMasked (a : Alesh) (g page : Nat) : Bool :=
  let lo := page * pageBytes
  ((List.range (a.records g)).filter fun j =>
    decide (a.recordByte g j < lo + pageBytes) && decide (lo < a.recordByte g j + a.recBytes)).any fun j =>
      ((entryOf a.layers (a.elementBase g + j)).map fun e => a.masked e.layer).getD false

/-- GROUPS at a page's first write (R88). -/
def Alesh.groupsAt (a : Alesh) (g page : Nat) : Bool := Alesh.pageKind g page == kState && a.holdsMasked g page

/-- GROUPS of a page: that of the live page where it is VALID and its record can be read, since the bit never changes, else that of its
first write (R88). -/
def Alesh.pageGroups (a : Alesh) (g page : Nat) : Bool :=
  match a.liveSlot g with
  | some s => if a.recordGood g s page then (a.pageRec s page).has flGroups else a.groupsAt g page
  | none => a.groupsAt g page
/-- FLAGS of a page of a slot as the core writes its record (R44): RETIRED belongs to the physical page, PINNED to the slot. -/
def Alesh.pageFlags (a : Alesh) (g slot page : Nat) (valid absent : Bool) : Nat :=
  packBits [(flValid, 1, if valid then 1 else 0), (flRetired, 1, if a.onSpare (a.pageAddr slot page) then 1 else 0),
    (flTaken, 1, if a.takenSlice g && !absent then 1 else 0), (flPinned, 1, if a.slots.pins.contains slot then 1 else 0),
    (flGroups, 1, if a.pageGroups g page && !absent then 1 else 0), (flAbsent, 1, if absent then 1 else 0)]

/-- Write a page of a slot whole, with its record (R43, R44, R50). -/
def Alesh.writePage (a : Alesh) (g slot page e : Nat) (b : Bytes) : Alesh :=
  let new : PageRec := { PageRec.blank (Alesh.pageKind g page) with
    frag := ((a.bandCol a.geo g).map (·.2)).getD 0, job := a.num O.JOB_ID, memb := a.num O.MEMBERSHIP_EPOCH, page := page
    slice := gsidSlice g, shard := gsidShard g, owner := a.node, crc := crc64 b, base := a.elementBase g, step := e
    flags := a.pageFlags g slot page true false }
  (a.wr (a.pageAddr slot page) b).setRec slot page new

/-- Write the pages of a completed unit. -/
def Alesh.writeUnit (a : Alesh) (g slot e : Nat) (u : Nat × Nat) : Alesh :=
  let b := a.unitBytes g e u
  (a.unitPages g u).foldl (fun c p => c.writePage g slot p e (slice b ((p - u.1) * pageBytes) pageBytes)) a

/-- The sampled unit of a slice at `e` (R344), by the settings that the last release took. -/
def Alesh.sampledUnit (a : Alesh) (g e : Nat) : Option Nat :=
  let h := (mix (BitVec.ofNat 64 (g + e * 0x9E3779B97F4A7C15))).toNat
  match a.health.sampling with
  | none => none
  | some log2 =>
    if a.num O.REF_STATE == 0 && bf h 0 log2 == 0 then
      let us := (a.units g).filter fun u => !(isHeader g && u.1 == 0)
      let n := us.length
      let start := bf h 32 32 % n
      let nulls := (a.marks? g e).getD []
      (((us.drop start ++ us.take start).filter fun u => !nulls.contains u.1).head?).map (·.1)
    else none

/-- An update has vanished (R346): the STORE's operand differs from the decoded weight, and the weight value stays. -/
def Alesh.vanished (a : Alesh) (g j e : Nat) : Bool :=
  match a.elemRecipe (a.elementBase g + j) with
  | none => false
  | some (le, r) =>
    match a.element g j e r, r.fields.zipIdx.find? fun p => p.1.role == 1 with
    | some el, some (_, w) =>
      let c := a.context le r e
      let vals := evalNodes c el 0 r.nodes []
      match r.nodes.find? fun x => x.isStore && bf x.param 0 2 == w with
      | none => false
      | some st =>
        let xl := a.layerExp le.layer
        let new := fieldValues r c.consts xl true 0 (evalRecord r c el xl (a.storedBits g j r))
        selValue c el vals st.a != el.fields.getD w Fp.posZero && weightValue r new == weightValue r el.fields
    | _, _ => false

def Alesh.addSample (a : Alesh) (layer n v : Nat) : Alesh :=
  let old := lookupD (0, 0) a.health.sampled layer
  let b := { a with health := { a.health with sampled := assign a.health.sampled layer (old.1 + n, old.2 + v) } }
  b.wrapN O.VANISH_COUNT v

/-- The reference path has compared the elements of a unit (R341, R344, R346). -/
def Alesh.sampleUnit (a : Alesh) (g e : Nat) (u : Nat × Nat) : Alesh :=
  (a.unitRecords g u).foldl (fun b j =>
    match entryOf a.layers (a.elementBase g + j) with
    | some le => b.addSample le.layer 1 (if a.vanished g j e then 1 else 0)
    | none => b) a

/-- The live pages that a unit is computed from: its own, the header pages of its exponents, and the scalar page (R47). -/
def Alesh.unitReads (a : Alesh) (g : Nat) (u : Nat × Nat) : List (Nat × Nat) :=
  ((a.unitPages g u).map fun p => (g, p)) ++ a.expPages g ++ a.seedPages
/-- A unit is complete: its pages are written (R61). -/
def Alesh.completeUnit (a : Alesh) (g : Nat) (up : Upd) (u : Nat × Nat) : Alesh :=
  (a.writeUnit g up.slot up.epoch u).modProg g fun p =>
    { p with upd := p.upd.map fun x => { x with
        todo := x.todo.filter (· != u.1), recheck := x.recheck.filter (·.1 != u.1), redeal := x.redeal.filter (· != u.1) } }
/-- A unit goes to another tile for its check, or its check starts anew (R345). -/
def Alesh.recheckUnit (a : Alesh) (g page tile : Nat) : Alesh :=
  a.modProg g fun p => { p with upd := p.upd.map fun x => { x with
    recheck := (x.recheck.filter fun (q : Nat × Nat) => q.1 != page) ++ [(page, tile)], redeal := x.redeal.filter (· != page) } }

/-- A tile finishes a skip unit; `checkOk` is the outcome of the reference comparison where the unit is sampled. The words of the
tile's SRAM that SECDED corrected since its last unit are counted (R323, R347, log entry 65). A unit in its second check is open to
a first tile again where a retirement has dealt it anew (R345). The live pages that it is computed from are sound (R15, R47, R400). -/
def Alesh.skipUnit (g page tile : Nat) (checkOk : Bool) (a0 : Alesh) : Alesh :=
  match (a0.prog? g).bind (·.upd) with
  | none => a0
  | some up =>
    let u := a0.unitOf g page
    if up.todo.contains page && u.1 == page && (a0.num O.TILE_ACTIVE_MAP).testBit tile && a0.unit uUpdate == .running
        && (!(up.recheck.any fun r => r.1 == page) || up.redeal.contains page) then
      a0.withPages uUpdate (a0.unitReads g u) <|
      let a := a0.tileRan tile
      if a.sampledUnit g up.epoch == some page then
        let b := a.wrapN O.REF_CHECKED (a.unitRecords g u).length
        if checkOk then (b.sampleUnit g up.epoch u).completeUnit g up u
        else ((b.healthFlag hRefMismatch).count O.REF_MISMATCH_COUNT).recheckUnit g page tile
      else a.completeUnit g up u
    else a0

def execSkipUnitComplete (gsid page tile : Nat) (checkOk : Bool) (s : State) : Host.Outcome State Fault Refusal :=
  onCore (Alesh.skipUnit gsid page tile checkOk) s

/-- The second tile's outcome (R345): 0 equal to the reference, 1 equal to the first tile, else different from both. -/
def Alesh.refRecheck (g page tile agree : Nat) (a : Alesh) : Alesh :=
  match (a.prog? g).bind (·.upd) with
  | none => a
  | some up =>
    match up.recheck.find? fun r => r.1 == page with
    | none => a
    | some r =>
      let u := a.unitOf g page
      if tile = r.2 || !(a.num O.TILE_ACTIVE_MAP).testBit tile || a.unit uUpdate != .running then a
      else
        a.withPages uUpdate (a.unitReads g u) <|
        let b := a.wrapN O.REF_CHECKED (a.unitRecords g u).length
        match agree with
        | 0 => ((b.sampleUnit g up.epoch u).completeUnit g up u).retireTile r.2
        | 1 => ((((b.setNum O.REF_STATE 1).healthFlag hRefFail).raiseAttention).sampleUnit g up.epoch u).completeUnit g up u
        | _ => b.faultUnits [uUpdate]

def execRefRecheckComplete (gsid page tile agree : Nat) (s : State) : Host.Outcome State Fault Refusal :=
  onCore (Alesh.refRecheck gsid page tile agree) s

/-! ### An error in a pending page (R401) -/

/-- The skip unit that holds the page is recomputed, or the page copied again where the update does not write it; a live page that
this reads and that is damaged itself is repaired first. -/
def Alesh.recomputePending (a : Alesh) (g page : Nat) : Alesh :=
  match (a.prog? g).bind (·.upd) with
  | none => a
  | some up =>
    let u := a.unitOf g page
    let written := (a.writtenPages g up.epoch).contains page
    a.withPages uUpdate (if written then a.unitReads g u else [(g, page)]) <|
    let b := if !written then a.copyPage up.old up.slot page
      else if up.todo.contains u.1 then a else a.writeUnit g up.slot up.epoch u
    let at_ := a.pageAddr up.slot page
    (((b.noteUe at_ 1).count O.UE_REPAIRED_COUNT).healed (at_ / pageBytes) (a.metaAddr up.slot page / pageBytes)).scanSettle
      (.pending g page) true
/-- A pending page is recomputed before it is read where its check fails or an error stands against it (R47, R401, R414). -/
def Alesh.freshPending (a : Alesh) (g slot page : Nat) : Alesh := if a.pageGood g slot page then a else a.recomputePending g page

end Sys2Proof.Machine
end

