-- ==== Sys2Proof/Machine/Commit.lean ====
section
/-! DEFINITION. Transactions, the fence, the remap and the fold; what survivors do with a lost owner's slices
(R163 to R166, R170, R189 to R210). -/
namespace Sys2Proof.Machine

/-! ### The owner (R189, R192 to R194) -/

def OwnState.pending : OwnState → Bool
  | .sending => true | .awaitHeld => true | .held => true | _ => false
/-- The fence bit of a transaction's holder is set. -/
def OwnState.fenced : OwnState → Bool
  | .held => true | .awaitFolded => true | .done => true | _ => false

/-- A slice may be begun at a holder: fewer than HOLD_WINDOW other slices are pending there (R166). -/
def Alesh.holdRoom (a : Alesh) (g h : Nat) : Bool :=
  let mine := a.coding.own.filter fun t => t.holder == h && t.real && t.state.pending && t.gsid != g
  decide ((sortNat (mine.map (·.gsid))).length < a.num O.HOLD_WINDOW)
/-- `n` transactions may be opened to a holder: the SEQ of the last lies less than 64 above the oldest not DONE (R189). -/
def Alesh.seqRoom (a : Alesh) (h n : Nat) : Bool :=
  let s := lookupD 0 a.coding.nextSeq h + (n - 1)
  a.coding.own.all fun t => t.holder != h || !t.real || decide (off16 s t.seq < 64)

/-- A holder to which a page goes: row, node, and whether it is being built or lies in the staged layout. -/
structure Target where
  row : Nat
  node : Nat
  band : Nat
  col : Nat
  extra : Bool
  alt : Bool
  deriving DecidableEq, Repr

/-- Holders in force of a slice, the holders of BUILDING entries (R170), and those of a layout being built (R246). -/
def Alesh.targets (a : Alesh) (g : Nat) : List Target :=
  let now := match a.bandCol a.geo g with
    | some (b, j) =>
      (a.bandHolders a.geo b).map (fun h => ({ row := h.1, node := h.2, band := b, col := j, extra := false, alt := false } : Target))
        ++ (a.buildingHolders b).map fun h => { row := h.1, node := h.2, band := b, col := j, extra := true, alt := false }
    | none => []
  let next := if !a.take.building then [] else
    match a.bandCol a.stagedGeo g with
    | some (b, j) => (a.bandHolders a.stagedGeo b).map fun h =>
        { row := h.1, node := h.2, band := b, col := j, extra := true, alt := true }
    | none => []
  now ++ next

def OwnTx.matches (t : OwnTx) (g e : Nat) (x : Target) : Bool :=
  t.gsid == g && t.epoch == e && t.holder == x.node && t.row == x.row && t.alt == x.alt && t.extra == x.extra && t.real

/-- Open the transaction of a target, with `n` pages (R189). -/
def Alesh.openTx (a : Alesh) (g e n : Nat) (x : Target) (adopt : Bool) : Alesh :=
  let s := lookupD 0 a.coding.nextSeq x.node
  let t : OwnTx := { holder := x.node, seq := s, gsid := g, band := x.band, col := x.col, row := x.row, epoch := e
                     state := .sending, count := n, pages := [], due := a.ackDue, tries := 0, stalled := false
                     adopt := adopt, extra := x.extra, lastAt := a.now, alt := x.alt }
  { a with coding := { a.coding with own := a.coding.own ++ [t]
                                     nextSeq := assign a.coding.nextSeq x.node ((s + 1) % 65536) } }

/-- Send one page of a transaction (R105, R194). -/
def Alesh.sendPage (a : Alesh) (t : OwnTx) (page : Nat) (d : Bytes) : Alesh :=
  let p := deltaEncode (a.num O.DELTA_COMPRESS == 1) (gfScale (coef t.row t.col) d)
  let last := t.pages.length + 1 == t.count
  (a.modOwn (fun x => x.holder == t.holder && x.seq == t.seq && x.real) fun x =>
    { x with pages := x.pages ++ [(page, p)], due := a.ackDue, lastAt := a.now
             state := if last && x.state == .sending then .awaitHeld else x.state }).send tDelta t.holder (t.deltaArgs page) p

/-- The remap and what leaves in its cclk (R21, R38, R134, R194). -/
def Alesh.commitSlice (a : Alesh) (g : Nat) (up : Upd) : Alesh :=
  let takeover := decide (a.ringEnd ≤ up.old)
  let b := ((a.mapSlice g up.slot).dropPending g).releaseSlot up.old
  let c := { b with slots := { b.slots with opened := if takeover then insertNat b.slots.opened up.old else b.slots.opened } }
  let d := c.modProg g fun p => { p with last := up.epoch, fence := up.epoch, upd := none }
  let e := (d.retainRel g up.epoch).freeGrad g up.epoch
  let go (t : OwnTx) : Bool := t.gsid == g && t.epoch == up.epoch && t.real && t.state == .held
  let f := (e.coding.own.filter go).foldl (fun (c : Alesh) (t : OwnTx) => c.sendCommit t) e
  (f.modOwn go fun t => { t with state := .awaitFolded, due := f.ackDue }).tryArrive

/-- Every page that the update writes has gone to every holder. -/
def Alesh.allSent (a : Alesh) (g : Nat) (up : Upd) : Bool :=
  up.todo.isEmpty && (a.writtenPages g up.epoch).all fun p => up.sent.contains p

/-- The fence of a slice, evaluated over the holders in force that are members; a complete fence leads to the remap
(R192, R194). -/
def Alesh.evalFence (a : Alesh) (g : Nat) : Alesh :=
  match (a.prog? g).bind (·.upd) with
  | none => a
  | some up =>
    let ok := a.sound && a.allSent g up && ((a.targets g).filter fun x => !x.extra).all fun x =>
      a.coding.own.any fun t => t.matches g up.epoch x && t.state.fenced
    if ok then a.commitSlice g up else a
/-- Evaluate every fence, as an adoption of a membership epoch requires (R192). -/
def Alesh.evalFences (a : Alesh) : Alesh := (a.progs.map (·.gsid)).foldl Alesh.evalFence a

/-- The data delta of a page of a pending slice (R163). -/
def Alesh.dataDelta (a : Alesh) (g page : Nat) (up : Upd) : Bytes :=
  xorBytes (a.rd (a.pageAddr up.slot page) pageBytes) (a.slotPage g up.old page)

/-- A completed page's DELTA to each holder; it waits while a window is full (R19, R61, R166, R189). -/
def Alesh.deltaSend (now g page : Nat) (a0 : Alesh) : Alesh :=
  let a := a0.at now
  match (a.prog? g).bind (·.upd) with
  | none => a
  | some up =>
    let w := a.writtenPages g up.epoch
    let ready := a.inJob && a.unit uCoding == .running && w.contains page && !up.sent.contains page
      && !up.todo.contains (a.unitOf g page).1
    let xs := a.targets g
    let fresh := xs.filter fun x => !a.coding.own.any fun t => t.matches g up.epoch x
    if !ready then a
    else if fresh.any fun x => !a.holdRoom g x.node then a.condition hHoldLimit
    else if fresh.any fun x => !a.seqRoom x.node (fresh.filter fun y => y.node == x.node).length then a
    else
      a.withPages uCoding [(g, page)] <|
      let f := a.freshPending g up.slot page
      if !f.pageGood g up.slot page then f else
      let b := fresh.foldl (fun c x => c.openTx g up.epoch w.length x false) f
      let d := b.dataDelta g page up
      let b := if fresh.any fun x => !b.holdRoom (2 ^ 32) x.node then b.condition hHoldLimit else b
      let c := b.coding.own.foldl (fun (c : Alesh) (t : OwnTx) =>
        if xs.any fun x => t.matches g up.epoch x then c.sendPage t page d else c) b
      let sent := (deltaEncode (a.num O.DELTA_COMPRESS == 1) d).length
      ((((c.wrapN O.DELTA_RAW_BYTES pageBytes).wrapN O.DELTA_SENT_BYTES sent).modProg g fun p =>
        { p with upd := p.upd.map fun u => { u with sent := u.sent ++ [page] } })).evalFence g

def execDeltaSend (now gsid page : Nat) (s : State) : Host.Outcome State Fault Refusal := onCore (Alesh.deltaSend now gsid page) s

/-- A transaction whose acknowledgement is late: sent again, counted as a stall once after RETRY_LIMIT timeouts (R193). -/
def Alesh.lateAck (a : Alesh) (t : OwnTx) : Alesh :=
  let b := a.resendTx t
  let n := t.tries + 1
  let stall := decide (a.num O.RETRY_LIMIT ≤ n) && !t.stalled
  let c := b.modOwn (fun x => x.holder == t.holder && x.seq == t.seq && x.gsid == t.gsid && x.real == t.real) fun x =>
    { x with tries := n, stalled := x.stalled || stall }
  if stall then ((c.count O.COMMIT_STALL_COUNT).healthFlag hCommitStall).linkEvent else c
/-- ACK_TIMEOUT_NS without the acknowledgement awaited (R193). A COMMIT that closes a former owner's transaction carries that
owner's SEQ, which one of this core's own may equal: each has its timer. -/
def Alesh.ackTimeout (now holder seq : Nat) (a0 : Alesh) : Alesh :=
  let a := a0.at now
  (a.coding.own.filter fun t => t.holder == holder && t.seq == seq && (t.state == .sending || t.state == .awaitHeld
    || t.state == .awaitFolded) && a.due t.due).foldl (fun (b : Alesh) (t : OwnTx) => b.lateAck t) a

def execOwnerAckTimeout (now holder seq : Nat) (s : State) : Host.Outcome State Fault Refusal :=
  onCore (Alesh.ackTimeout now holder seq) s

/-! ### The holder (R166, R190, R191, R195, R196) -/

def HoldState.open_ : HoldState → Bool
  | .receiving => true | .held => true | .foldWait => true | _ => false

/-- Pages of the hold area that a transaction takes (R166). -/
def HoldTx.room (t : HoldTx) : Nat := ceilDiv (sumNat (t.pages.map fun p => p.2.length)) pageBytes
def Alesh.holdUsed (a : Alesh) : Nat := sumNat (a.coding.hold.map HoldTx.room)
def Alesh.setHoldUsed (a : Alesh) : Alesh := a.setNum O.HOLD_USED a.holdUsed
/-- The source whose reservation a delta takes (R166): its own, and for a delta that the core keeps for itself that of the
departed member from which it took the slice. -/
def Alesh.reservation (a : Alesh) (t : HoldTx) : Nat :=
  if t.src = a.node then ((a.colSlice (a.geoOf t.alt) t.band t.col).bind fun g => lookup? a.take.takenFrom g).getD t.src else t.src
/-- A reservation would be exceeded by one more page of payload. -/
def Alesh.overrun (a : Alesh) (t : HoldTx) (p : Bytes) : Bool :=
  let others := a.coding.hold.filter fun x => a.reservation x == a.reservation t && !(x.src == t.src && x.seq == t.seq)
  decide ((a.num O.HOLD_WINDOW + 1) * 257 <
    sumNat (others.map HoldTx.room) + { t with pages := t.pages ++ [(0, p)] }.room)

def Alesh.modHold (a : Alesh) (p : HoldTx → Bool) (f : HoldTx → HoldTx) : Alesh :=
  ({ a with coding := { a.coding with hold := modWhere p f a.coding.hold } }).setHoldUsed

/-- The group of a transaction's column. -/
def Alesh.txGroup (a : Alesh) (t : HoldTx) : Nat := (a.groupFor t.band t.row t.src).getD (a.num O.GROUP_NUMBER)
/-- The owner of a transaction's column at this core's membership epoch (R183); under the layout before the last switch its
source. -/
def Alesh.ownerOfColumn (a : Alesh) (t : HoldTx) : Nat :=
  if t.old then t.src else ((a.colSlice (a.geoFor t.alt (a.txGroup t)) t.band t.col).map a.ownerOf).getD t.src

/-- A HOLD_ACK for a transaction (R183). -/
def Alesh.holdAck (a : Alesh) (dst seq band col row status epoch : Nat) (adopt : Bool) : Alesh :=
  a.send tHoldAck dst (txArgs seq band col row adopt (status * 16) epoch 0) []
def Alesh.ackTx (a : Alesh) (t : HoldTx) (status : Nat) : Alesh :=
  a.holdAck (a.ownerOfColumn t) t.seq t.band t.col t.row status t.epoch t.adopted

/-- Advance a source's window base over retired sequences (R190); fuel bounds the window. -/
def advanceBase (retired : List (Nat × Nat)) (src : Nat) : Nat → Nat → Nat
  | 0, b => b
  | n + 1, b => if retired.contains (src, b) then advanceBase retired src n ((b + 1) % 65536) else b

/-- A sequence is retired: the base moves over it, and ended transactions below the base are forgotten, but for those of the epoch
in progress, whose SEQ a report may still carry (R204). A departed core has no window any more: its transactions stay for matching
(R207). -/
def Alesh.retire (a : Alesh) (src seq : Nat) : Alesh :=
  if !a.isMember src then a else
  let r := (src, seq) :: a.coding.retired.filter (· != (src, seq))
  let b := advanceBase r src 64 (lookupD 0 a.coding.base src)
  { a with coding := { a.coding with
      base := assign a.coding.base src b
      retired := r.filter fun p => p.1 != src || decide (off16 p.2 b < 64)
      hold := a.coding.hold.filter fun t => t.src != src || t.state.open_ || decide (off16 t.seq b < 64)
        || decide (a.inProgress ≤ t.epoch) } }

def Alesh.holdTx? (a : Alesh) (src seq : Nat) : Option HoldTx := a.coding.hold.find? fun t => t.src == src && t.seq == seq

/-- Discard a transaction and answer (R195). -/
def Alesh.discardTx (a : Alesh) (t : HoldTx) : Alesh :=
  let b := a.modHold (fun x => x.src == t.src && x.seq == t.seq) fun x => { x with state := .discarded, pages := [] }
  (b.ackTx t sDiscarded).retire t.src t.seq

/-- Transactions end without an answer: they stand DISCARDED, and the window passes their SEQ (R190). -/
def Alesh.endTxs (a : Alesh) (p : HoldTx → Bool) : Alesh :=
  let b := a.modHold p fun x => { x with state := if x.state.open_ then .discarded else x.state, pages := [] }
  (a.coding.hold.filter p).foldl (fun (c : Alesh) (t : HoldTx) => c.retire t.src t.seq) b

/-- The parity slot of a transaction, and whether its column may be folded there (R170). -/
def Alesh.txSlot (a : Alesh) (t : HoldTx) : Option (Nat × Nat) :=
  let gr := a.txGroup t
  (a.rowSlot (a.geoOf t.alt) gr t.band t.row).map fun s => (s, gr)
/-- A row of an entry being built at this core. -/
def Alesh.buildingRow (a : Alesh) (gr band row : Nat) : Bool :=
  a.exts.zipIdx.any fun p => p.1.node == a.node && p.1.group == gr && p.1.row == row && p.1.rotation == band % a.geo.n
    && a.extState p.2 == 1
def Alesh.baseReady (a : Alesh) (t : HoldTx) (s gr : Nat) : Bool :=
  if t.old then true
  else if a.coding.awaiting.contains s then false
  else if t.alt then a.take.altBased.contains (s * 32 + t.col)
  else !(a.buildingRow gr t.band t.row || a.coding.restoring) || a.coding.based.contains (s * 32 + t.col)

/-- A transaction of the same column at a lower epoch is unfinished (R195, R196). -/
def Alesh.lowerOpen (a : Alesh) (t : HoldTx) : Bool :=
  a.coding.hold.any fun x => x.band == t.band && x.col == t.col && x.row == t.row && x.alt == t.alt && x.old == t.old
    && decide (x.epoch < t.epoch) && x.state.open_ && a.txGroup x == a.txGroup t

/-- The epoch of the base page of a column being built, where it has one; zero else (R170, R246). -/
def Alesh.baseEpoch (a : Alesh) (alt : Bool) (s col page : Nat) : Nat :=
  (((if alt then a.take.altPages else a.coding.basePages).find? fun b => b.1 == s * 32 + col && b.2.1 == page).map (·.2.2)).getD 0

/-- Fold a committed transaction into parity (R164, R195, R402). A parity page whose check fails (R161) is damaged like one whose
delta is lost: the column epoch advances, and the page is decoded again (R400). A delta at or below a base's epoch is already in it
(log entry 20), and one of a layout that is no longer in force has no slot left to change (R247). -/
def Alesh.foldTx (a0 : Alesh) (t : HoldTx) (s gr : Nat) : Alesh :=
  let a := if t.old then a0 else a0.checkTable t.alt s t.band t.row
  let old := a.colEpoch t.alt s t.col
  let b :=
    if t.old || decide (t.epoch ≤ old) then a
    else
      let failed := (t.pages.map (·.1)).filter fun p => !t.bad.contains p && !a.parityGood t.alt s t.band p
      let bad := t.bad ++ failed
      let good := t.pages.filter fun p => !bad.contains p.1 && decide (a.baseEpoch t.alt s t.col p.1 < t.epoch)
      let c := good.foldl (fun (c : Alesh) (p : Nat × Bytes) =>
        match deltaDecode p.2 with
        | some d => c.foldPage t.alt s t.band t.row t.col p.1 t.epoch gr d
        | none => c) a
      let d := ((bad.foldl (fun (c : Alesh) (p : Nat) => c.setPageEpoch t.alt s t.col p t.epoch) c).sealTable t.alt s).setColEpoch
        t.alt s t.col t.epoch
      failed.foldl (fun (c : Alesh) (p : Nat) => c.badParity t.alt s t.band t.row p)
        (t.bad.foldl (fun (c : Alesh) (p : Nat) => c.damageParity t.alt s t.band t.row p) d)
  let c := b.modHold (fun x => x.src == t.src && x.seq == t.seq) fun x => { x with state := .folded, pages := [] }
  (c.ackTx t sFolded).retire t.src t.seq

/-- A fold completes: COMMIT has arrived, no lower epoch of the column is unfinished, and the slot takes folds. -/
def Alesh.foldComplete (src seq : Nat) (a : Alesh) : Alesh :=
  match a.holdTx? src seq with
  | none => a
  | some t =>
    match (if t.old then some (0, 0) else a.txSlot t) with
    | none => a
    | some (s, gr) =>
      if a.works uCoding && t.commit && (t.state == .held || t.state == .foldWait) && !a.lowerOpen t && !(a.coding.frozen.any fun f => f.1 == s && decide (f.2 < t.epoch))
          && a.baseReady t s gr then a.foldTx t s gr
      else a

def execParityFoldComplete (src seq : Nat) (s : State) : Host.Outcome State Fault Refusal := onCore (Alesh.foldComplete src seq) s

/-- COMMIT at a transaction of this holder (R195). -/
def Alesh.commitTx (a : Alesh) (t : HoldTx) (adopted : Bool) : Alesh :=
  match t.state with
  | .receiving => a.count O.COMMIT_ORPHAN_COUNT
  | .held | .foldWait =>
    a.modHold (fun x => x.src == t.src && x.seq == t.seq) fun x =>
      { x with commit := true, adopted := x.adopted || adopted, state := if a.lowerOpen t then .foldWait else x.state }
  | .folded => a.ackTx { t with adopted := adopted } sFolded
  | .discarded => a.ackTx { t with adopted := adopted } sDiscarded

/-- ABANDON at a transaction (R195). -/
def Alesh.abandonTx (a : Alesh) (t : HoldTx) (adopted : Bool) : Alesh :=
  match t.state with
  | .folded => a.ackTx { t with adopted := adopted } sFolded
  | .discarded => a.ackTx { t with adopted := adopted } sDiscarded
  | _ => a.discardTx { t with adopted := adopted }

/-- The acknowledgement of a transaction's state. -/
def HoldState.status : HoldState → Nat
  | .folded => sFolded | .discarded => sDiscarded | _ => sHeld

/-- Where the bring-up DELTA of a column's owner arrives, the report stops (R204). -/
def Alesh.endReport (a : Alesh) (p : Report → Bool) : Alesh :=
  { a with coding := { a.coding with reports := a.coding.reports.filter fun r => !p r } }

/-- This core keeps a row in force for a step epoch (R171, R191): one that it hosts up to the Meridian of its withdrawal, and one of
which it is the default member up to the Meridian at which a RELOCATE entry became ACTIVE, or once the row returns to it (R172). -/
def Alesh.keepsRow (a : Alesh) (group band row e : Nat) : Bool :=
  let here (x : ExtEntry) : Bool := x.group == group && x.rotation == band % a.geo.n && x.row == row
  match a.exts.zipIdx.find? fun p => here p.1 && p.1.node == a.node && a.extState p.2 != 0 with
  | some p => a.extState p.2 != 3 || decide (e ≤ lookupD 0 a.coding.extAt p.2)
  | none =>
    match a.exts.zipIdx.find? fun p => here p.1 && p.1.kind == 0 && a.extState p.2 == 2 with
    | some p => decide (e ≤ lookupD 0 a.coding.extAt p.2) || a.returning p.2 p.1
    | none => true

/-- Take a page into its transaction, or open the transaction (R191, R195). `alt` says that the band lies in the staged
layout: a band that both layouts give this column and row goes to the one with no transaction of that epoch yet (log
entry 22). -/
def Alesh.takeDelta (a : Alesh) (src : Nat) (x : TxArgs) (p : Bytes) : Alesh :=
  let e := a.epochOf x.epochLo
  match a.holdTx? src x.seq with
  | some t =>
    if t.pages.any (fun q => q.1 == x.mid) || !(t.state == .receiving) then
      let b := a.count O.CRESOL_DUP_COUNT
      if t.state == .receiving then b else b.ackTx t t.state.status
    else if t.count != x.low + 1 || (deltaDecode p).isNone || t.band != x.band || t.col != x.col || t.row != x.row
        || t.epoch != e || (!t.old && !(a.ownsColumn t.alt (a.txGroup t) t.band t.col src && (a.txSlot t).isSome
          && (t.alt || a.keepsRow (a.txGroup t) t.band t.row e))) then a.malformed
    else if a.overrun t p then a.count O.HOLD_OVERRUN_COUNT
    else
      let t1 := { t with pages := t.pages ++ [(x.mid, p)] }
      let full := t1.pages.length == t1.count
      let b := a.modHold (fun y => y.src == src && y.seq == x.seq) fun _ => { t1 with state := if full then .held else .receiving }
      if full then b.ackTx t1 sHeld else b
  | none =>
    let gr := a.groupFor x.band x.row src
    let fits (alt : Bool) : Bool := match gr with
      | some n => a.ownsColumn alt n x.band x.col src && (a.rowSlot (a.geoOf alt) n x.band x.row).isSome
          && (alt || a.keepsRow n x.band x.row e)
      | none => false
    let taken := a.coding.hold.any fun t => t.src == src && t.band == x.band && t.col == x.col && t.row == x.row
      && t.epoch == e && !t.alt && t.state.open_
    let alt := a.take.building && fits true && (!fits false || taken)
    if (!fits false && !alt) || (deltaDecode p).isNone then a.malformed
    else
      let t : HoldTx := { src := src, seq := x.seq, band := x.band, col := x.col, row := x.row, epoch := e
                          state := .receiving, count := x.low + 1, pages := [(x.mid, p)], adopt := x.adopt
                          commit := false, adopted := false, bad := [], alt := alt, old := false }
      if a.overrun { t with pages := [] } p then a.count O.HOLD_OVERRUN_COUNT
      else
        let full := t.count == 1
        let b := ({ a with coding := { a.coding with
          hold := a.coding.hold ++ [{ t with state := if full then .held else .receiving }] } }).setHoldUsed
        let c := if x.adopt then b.endReport fun r => r.group == a.txGroup t && r.band == x.band && r.col == x.col && r.row == x.row else b
        if full then c.ackTx t sHeld else c

/-- DELTA by its place in the window (R190). -/
def Alesh.deltaIn (a : Alesh) (src : Nat) (x : TxArgs) (p : Bytes) : Alesh :=
  let o := off16 x.seq (lookupD 0 a.coding.base src)
  if 32768 ≤ o then a.count O.CRESOL_DUP_COUNT
  else if 64 ≤ o then a.malformed
  else a.takeDelta src x p

/-- Whether the receiver takes part in coding: fabric packets of the commit path need a running coding unit. -/
def Alesh.codes (a : Alesh) : Bool := (a.joinedOrJob || a.works uCoding) && (a.unit uCoding == .running || a.unit uCoding == .armed
  || a.unit uCoding == .draining)

def Alesh.deltaRx (now : Nat) (m : Pkt) (a : Alesh) : Alesh :=
  let x := TxArgs.ofNat m.args
  a.receive now tDelta m (deltaDecode m.payload).isSome false fun b =>
    if b.codes then b.deltaIn m.src x m.payload else b

def execDeltaRx (now : Nat) (m : Pkt) (s : State) : Host.Outcome State Fault Refusal := onCore (Alesh.deltaRx now m) s

/-- The column epoch that answers an adopted COMMIT or ABANDON with no matching transaction. -/
def Alesh.columnNow (a : Alesh) (group band col row : Nat) : Nat :=
  match a.rowSlot a.geo group band row with
  | some s => a.colEpoch false s col
  | none => 0

/-- The order in which the transactions of several former owners of one column and epoch answer for it (DESIGN CHOICE, log entry 135). -/
def HoldState.rank : HoldState → Nat
  | .held => 0 | .foldWait => 0 | .folded => 1 | .receiving => 2 | .discarded => 3
/-- COMMIT or ABANDON of an adopted transaction (R207): it names one that a former owner of the column opened. -/
def Alesh.adoptedCommit (a : Alesh) (src : Nat) (x : TxArgs) (abandon : Bool) : Alesh :=
  let e := a.epochOf x.epochLo
  let gr := (a.groupFor x.band x.row src).getD (a.num O.GROUP_NUMBER)
  if !a.ownsColumn false gr x.band x.col src then a.malformed
  else
    -- of several former owners' transactions the one that still has the delta counts
    let found := minBy? (fun t => t.state.rank) (a.coding.hold.filter fun t => a.txGroup t == gr && t.band == x.band && t.col == x.col
      && t.row == x.row && t.epoch == e && !t.alt && t.src != src)
    let answer (st : Nat) (b : Alesh) : Alesh := b.holdAck src x.seq x.band x.col x.row st e true
    let done (b : Alesh) : Alesh := b.endReport fun r => r.group == gr && r.band == x.band && r.col == x.col && r.row == x.row && r.epoch == e
    if abandon then
      match found with
      | some t => (done a).abandonTx t true
      | none => answer sDiscarded (done a)
    else
      match found with
      | some t => if t.state == .receiving then a.count O.COMMIT_ORPHAN_COUNT else (done a).commitTx t true
      | none => if e ≤ a.columnNow gr x.band x.col x.row then answer sFolded (done a) else a.count O.COMMIT_ORPHAN_COUNT

/-- COMMIT or ABANDON by its place in the window (R190, R195). -/
def Alesh.commitIn (a : Alesh) (src : Nat) (x : TxArgs) (abandon : Bool) : Alesh :=
  if x.adopt then a.adoptedCommit src x abandon
  else
    let o := off16 x.seq (lookupD 0 a.coding.base src)
    let e := a.epochOf x.epochLo
    let answer (st : Nat) (b : Alesh) : Alesh := b.holdAck src x.seq x.band x.col x.row st e false
    if 32768 ≤ o then answer (if abandon then sDiscarded else sFolded) a
    else if 64 ≤ o then a.malformed
    else
      match a.holdTx? src x.seq with
      | some t => if abandon then a.abandonTx t false else a.commitTx t false
      | none =>
        if abandon then
          -- no DELTA was ever taken: the transaction stands as DISCARDED
          let t : HoldTx := { src := src, seq := x.seq, band := x.band, col := x.col, row := x.row, epoch := e, state := .discarded
                              count := 0, pages := [], adopt := false, commit := false, adopted := false, bad := [], alt := false, old := false }
          let b := answer sDiscarded a
          ({ b with coding := { b.coding with hold := b.coding.hold ++ [t] } }).retire src x.seq
        else a.count O.COMMIT_ORPHAN_COUNT

def Alesh.commitRx (now : Nat) (m : Pkt) (abandon : Bool) (a : Alesh) : Alesh :=
  let x := TxArgs.ofNat m.args
  a.receive now tCommit m (m.payload.isEmpty && x.mid == (if abandon then 1 else 0)) false fun b =>
    if b.codes then b.commitIn m.src x abandon else b

def execCommitRx (now : Nat) (m : Pkt) (s : State) : Host.Outcome State Fault Refusal := onCore (Alesh.commitRx now m false) s
def execAbandonRx (now : Nat) (m : Pkt) (s : State) : Host.Outcome State Fault Refusal := onCore (Alesh.commitRx now m true) s

/-! ### Adoption reports (R203 to R208) -/

/-- The report of a holder's state for a column at the epoch in progress, with those of lower epochs (R204). -/
def Alesh.reportsFor (a : Alesh) (dst group band col row : Nat) : List Report :=
  let e := a.inProgress
  let mine := a.coding.hold.filter fun t => a.txGroup t == group && t.band == band && t.col == col && t.row == row && !t.alt && t.src != dst
  let c := a.columnNow group band col row
  let mk (seq ep st : Nat) : Report :=
    { dst := dst, group := group, seq := seq, band := band, col := col, row := row, epoch := ep, shown := if st = sNone then c else ep
      status := st, due := a.ackDue }
  let main := match mine.find? fun t => t.epoch == e && t.state.open_ with
    | some t => mk t.seq e (if t.state == .receiving || !t.bad.isEmpty then sPartial else sHeld)
    | none =>
      if c == e then mk (((mine.find? fun t => t.epoch == e && t.state == .folded).map (·.seq)).getD 0) e sFolded else mk 0 e sNone
  main :: ((mine.filter fun t => decide (t.epoch < e) && (t.state == .held || t.state == .foldWait)).map fun t =>
    mk t.seq t.epoch sHeld)

def Alesh.sendReport (a : Alesh) (r : Report) : Alesh :=
  a.holdAck r.dst r.seq r.band r.col r.row r.status r.shown true

/-- The groups whose rows this core keeps: its own, and those of the entries in force that it hosts. -/
def Alesh.heldGroups (a : Alesh) : List Nat :=
  sortNat (a.num O.GROUP_NUMBER :: ((a.extsIn 2).filter fun p => p.2.node == a.node).map fun p => p.2.group)
/-- Reports to the new owners of columns whose owner has changed (R204): `changed` lists the slices. -/
def Alesh.reportAdopted (a : Alesh) (changed : List Nat) : Alesh :=
  let rs := a.heldGroups.flatMap fun gr =>
    let geo := a.geoFor false gr
    changed.flatMap fun g =>
      match a.bandCol geo g with
      | none => []
      | some (b, j) => ((a.rows geo).filter fun i => a.rowNode geo b i == some a.node).flatMap fun i =>
          a.reportsFor (a.ownerOf g) gr b j i
  let c := { a with coding := { a.coding with
    reports := (a.coding.reports.filter fun r =>
      !rs.any fun n => n.group == r.group && n.band == r.band && n.col == r.col && n.row == r.row) ++ rs } }
  rs.foldl (fun (d : Alesh) (r : Report) => d.sendReport r) c

/-- Resend the reports whose time has come. -/
def Alesh.reportResend (now : Nat) (a0 : Alesh) : Alesh :=
  let a := a0.at now
  let go := a.coding.reports.filter fun r => a.due r.due
  let b := go.foldl (fun (d : Alesh) (r : Report) => d.sendReport r) a
  { b with coding := { b.coding with reports := modWhere (fun r => a.due r.due) (fun r => { r with due := a.ackDue }) b.coding.reports } }

def execAdoptReportResend (now : Nat) (s : State) : Host.Outcome State Fault Refusal := onCore (Alesh.reportResend now) s

/-- The answers held for a slice from the holders in force that survive. -/
def Alesh.answersOf (a : Alesh) (g : Nat) : List Answer := a.coding.answers.filter fun x => x.gsid == g
def Alesh.heldFor (a : Alesh) (g : Nat) : List (Nat × Nat) :=
  match a.bandCol a.geo g with
  | some (b, _) => a.bandHolders a.geo b
  | none => []
/-- The decision of R205: some true for roll forward, some false for roll back, none while reports are missing. -/
def Alesh.decision (a : Alesh) (g : Nat) : Option Bool :=
  let hs := a.heldFor g
  let as_ := a.answersOf g
  if hs.isEmpty then none
  else if hs.all fun h => as_.any fun x => x.row == h.1 && x.holder == h.2 then
    some (as_.any fun x => (x.status == sHeld || x.status == sFolded) && hs.any fun h => x.row == h.1 && x.holder == h.2)
  else none

/-- COMMIT with ADOPT = 1 to a holder of a former owner's transaction, resent like any COMMIT (R193, R205). -/
def Alesh.adoptCommit (a : Alesh) (g holder seq band col row e : Nat) : Alesh :=
  -- a core that commits nothing more sends no COMMIT (R252, R365)
  if !a.sound then a else
  let t : OwnTx := { holder := holder, seq := seq, gsid := g, band := band, col := col, row := row, epoch := e
                     state := .awaitFolded, count := 0, pages := [], due := a.ackDue, tries := 0, stalled := false
                     adopt := true, extra := false, lastAt := a.now, alt := false }
  let same (x : OwnTx) : Bool := x.gsid == g && x.holder == holder && x.row == row && x.epoch == e && !x.real
  (({ a with coding := { a.coding with own := a.coding.own.filter (fun x => !same x) ++ [t] } }).sendCommit t)
def Alesh.adoptAbandon (a : Alesh) (holder seq band col row e : Nat) : Alesh :=
  a.send tCommit holder (txArgs seq band col row true 1 e 0) []

/-- The RETAIN lease's TAKE to every member of the job (R226, R236). -/
def Alesh.sendRetainTake (a : Alesh) (g gen : Nat) : Alesh :=
  a.sendAll tLease a.memb.members (packBits [(60, 4, 3), (28, 32, g), (24, 4, 1), (8, 16, gen)]) (leBytes 8 0 ++ leBytes 8 0)
def Alesh.startRetain (a : Alesh) (g e : Nat) : Alesh :=
  let gen := lookupD 0 a.take.retainGen g + 1
  let b := { a with take := { a.take with retainGen := assign a.take.retainGen g gen
                                          retainTakes := (a.take.retainTakes.filter fun (r : Nat × Nat × Nat × Nat) => r.1 != g) ++ [(g, gen, e, a.ackDue)] } }
  b.sendRetainTake g gen

/-- Under roll forward the slice counts as committed at `e` once every surviving holder is FOLDED (R206). -/
def Alesh.settleForward (a : Alesh) (g : Nat) : Alesh :=
  let hs := a.heldFor g
  let all := hs.all fun h => (a.answersOf g).any fun x => x.row == h.1 && x.holder == h.2 && x.status == sFolded
  if a.sound && all && !hs.isEmpty && ((a.prog? g).map (·.undecided)).getD false then
    let e := a.inProgress
    ((({ a with coding := { a.coding with answers := a.coding.answers.filter fun x => x.gsid != g } }).modProg g
      fun p => { p with last := e, fence := e, undecided := false, upd := none }).freeGrad g e).tryArrive
  else a
/-- Under roll forward the last COMMIT of a slice has left: every holder that lacked the delta has a bring-up transaction that is
committed. RETAIN_REL leaves with it (R134). -/
def Alesh.relForward (a : Alesh) (g : Nat) : Alesh :=
  let e := a.inProgress
  let sent := (a.answersOf g).all fun x => x.status == sHeld || x.status == sFolded || a.coding.own.any fun t =>
    t.gsid == g && t.epoch == e && t.adopt && t.real && t.holder == x.holder && t.row == x.row && t.state == .awaitFolded
  if sent then a.retainRel g e else a

/-- Act on a decision (R205, R206, R208). A PARTIAL or NONE holder under roll forward is brought up once the slice's pages
have been rebuilt; its partial transaction is abandoned first. -/
def Alesh.decide_ (a : Alesh) (g : Nat) : Alesh :=
  match a.decision g, a.bandCol a.geo g, a.prog? g with
  | some fwd, some (b, j), some p =>
    let e := a.inProgress
    let hs := a.heldFor g
    let mine := (a.answersOf g).filter fun x => hs.any fun h => x.row == h.1 && x.holder == h.2
    let a1 : Alesh := { a with chrono := { a.chrono with flags := assign a.chrono.flags g (if fwd then 4 else 8) } }
    if !p.undecided then a
    else if fwd then
      -- a core that commits nothing more sends no COMMIT (R252, R365)
      if !a.sound then a1 else
      ((mine.foldl (fun (c : Alesh) (x : Answer) =>
        if x.status == sHeld || x.status == sFolded then c.adoptCommit g x.holder x.seq b j x.row e
        else c.adoptAbandon x.holder x.seq b j x.row e) a1).relForward g).settleForward g
    else
      let c := mine.foldl (fun (c : Alesh) (x : Answer) => c.adoptAbandon x.holder x.seq b j x.row e) a1
      (c.modProg g fun p => { p with undecided := false }).startRetain g e
  | _, _, _ => a

/-- A report arrives at the new owner (R203, R205), or an answer to its COMMIT or ABANDON (R207). -/
def Alesh.adoptIn (a : Alesh) (src : Nat) (x : TxArgs) : Alesh :=
  let st := x.mid / 16
  let e := a.epochOf x.epochLo
  match a.colSlice a.geo x.band x.col with
  | none => a.malformed
  | some g =>
    if a.ownerOf g != a.node || !((a.heldFor g).any fun h => h.1 == x.row && h.2 == src) then a.malformed
    else if st == sDiscarded then a
    else
      let closing := a.coding.own.any fun t => t.gsid == g && t.holder == src && t.row == x.row && t.epoch == e && !t.real
      let b := if st == sFolded then a.dropOwn fun t => t.gsid == g && t.holder == src && t.row == x.row && t.epoch == e && !t.real
        else a
      if st == sHeld && decide (e < a.inProgress) then b.adoptCommit g src x.seq x.band x.col x.row e
      else if e != a.inProgress && st != sNone then b
      else
        match b.prog? g with
        | none => b
        | some p =>
          if !p.undecided then
            -- decided already: a repeated report is answered again
            if st == sPartial || st == sNone then b.adoptAbandon src x.seq x.band x.col x.row b.inProgress
            else if closing then b else b.adoptCommit g src x.seq x.band x.col x.row e
          else
            let known := (b.decision g).isSome
            let ans : Answer := { gsid := g, holder := src, row := x.row, epoch := e, status := st, seq := x.seq }
            let same (y : Answer) : Bool := y.gsid == g && y.holder == src && y.row == x.row
            let was := (b.coding.answers.find? same).map (·.status)
            if known && was != some sFolded && st == sFolded then
              ({ b with coding := { b.coding with answers := b.coding.answers.filter (fun y => !same y) ++ [ans] } }).settleForward g
            else if known then
              if st == sHeld then b.adoptCommit g src x.seq x.band x.col x.row e
              else if st == sFolded then b else b.adoptAbandon src x.seq x.band x.col x.row b.inProgress
            else
              ({ b with coding := { b.coding with answers := b.coding.answers.filter (fun y => !same y) ++ [ans] } }).decide_ g

/-! ### HOLD_ACK at the owner (R192, R194, R206) -/

/-- The coordinator's own HOLD_LAT sample of a holder: from a transaction's last DELTA to its HELD (R334). -/
def Alesh.sampleHold (a : Alesh) (h lat : Nat) : Alesh :=
  match a.geo.members.zipIdx.find? fun p => p.1.2 == h with
  | some p =>
    if a.leases.any fun l => l.kind == 0 && l.holder == a.node then
      { a with health := { a.health with samples := a.health.samples ++ [(p.2, lat)] } }
    else a
  | none => a

/-- An acknowledgement of one of this core's own transactions. -/
def Alesh.ackIn (a : Alesh) (src : Nat) (x : TxArgs) : Alesh :=
  let st := x.mid / 16
  match a.coding.own.find? fun t => t.holder == src && t.seq == x.seq && t.real with
  | none =>
    -- the acknowledgement of a transaction that is DONE already is ignored, wherever its row lies now
    let issued := let d := off16 (lookupD 0 a.coding.nextSeq src) x.seq
      decide (1 ≤ d) && decide (d ≤ 32768)
    let known (alt : Bool) : Bool := ((a.colSlice (a.geoOf alt) x.band x.col).map fun g =>
      (a.targets g).any fun h => h.node == src && h.row == x.row && h.alt == alt).getD false
    if issued || known false || (a.take.building && known true) then a else a.malformed
  | some t =>
    let me (y : OwnTx) : Bool := y.holder == src && y.seq == x.seq && y.real
    if st == sHeld && (t.state == .sending || t.state == .awaitHeld) then
      let b := (a.modOwn me fun y => { y with state := .held, tries := 0 }).sampleHold src (a.now - t.lastAt)
      if t.adopt || ((a.prog? t.gsid).map fun p => decide (t.epoch ≤ p.last)).getD false then
        -- a bring-up transaction has a fence of its own; a holder being built follows a slice already committed
        if t.adopt && !b.sound then b
        else
          let c := (b.modOwn me fun y => { y with state := .awaitFolded, due := b.ackDue }).sendCommit { t with state := .held }
          if t.adopt then c.relForward t.gsid else c
      else b.evalFence t.gsid
    else if st == sFolded && t.state == .awaitFolded then
      let b := a.dropOwn me
      if t.adopt then
        let hit (y : Answer) : Bool := y.gsid == t.gsid && y.holder == src && y.row == t.row
        let as_ := modWhere hit (fun y => { y with status := sFolded }) b.coding.answers
        ({ b with coding := { b.coding with answers := as_ } }).settleForward t.gsid
      else b
    else if st == sDiscarded then a.dropOwn fun y => me y && y.state == .done
    else a

/-- HOLD_ACK (R183): STATUS above 4 is reserved, and PARTIAL and NONE need ADOPT = 1. -/
def Alesh.holdAckRx (now : Nat) (m : Pkt) (a : Alesh) : Alesh :=
  let x := TxArgs.ofNat m.args
  let st := x.mid / 16
  a.receive now tHoldAck m (m.payload.isEmpty && decide (st ≤ 4) && (x.adopt || decide (st ≤ 2))) false fun b =>
    if !b.codes then b else if x.adopt then b.adoptIn m.src x else b.ackIn m.src x

def execHoldAckRx (now : Nat) (m : Pkt) (s : State) : Host.Outcome State Fault Refusal := onCore (Alesh.holdAckRx now m) s
def execAdoptReportRx (now : Nat) (m : Pkt) (s : State) : Host.Outcome State Fault Refusal := onCore (Alesh.holdAckRx now m) s

end Sys2Proof.Machine
end

