-- ==== Sys2Proof/Machine/Reduction.lean ====
section
/-! DEFINITION. The compute event port, the step plan and the reduction engine (R122 to R147, R185, R186, R424 to R431). -/
namespace Sys2Proof.Machine

/-! ### The step plan (R428) -/

structure PlanItem where
  shard : Nat
  slice : Nat
  kind : Nat
  version : Nat
  bundle : Nat
  maxBytes : Nat
  deriving DecidableEq, Repr

structure PlanMerge where
  out : Nat
  dest : Nat
  first : Nat
  count : Nat
  qblocks : Nat
  records : Nat
  d : Nat
  log2 : Nat
  normalise : Bool
  version : Nat
  deriving DecidableEq, Repr

structure Plan where
  version : Nat
  mergeCount : Nat
  itemCount : Nat
  base : Nat
  slotBytes : Nat
  slots : Nat
  items : List PlanItem
  merges : List PlanMerge
  deriving DecidableEq, Repr

def PlanItem.ofWord (w : Nat) : PlanItem :=
  { shard := bf w 112 16, slice := bf w 96 16, kind := bf w 92 4, version := bf w 88 4, bundle := bf w 64 16
    maxBytes := bf w 32 32 }
def PlanMerge.ofWord (w : Nat) : PlanMerge :=
  { out := bf w 216 40, dest := bf w 198 18, first := bf w 182 16, count := bf w 165 17, qblocks := bf w 149 16
    records := bf w 125 24, d := bf w 116 9, log2 := bf w 111 5, normalise := bf w 110 1 == 1, version := bf w 106 4 }

def Plan.parse (b : Bytes) : Plan :=
  let nm := leAt b 2 2
  let ni := leAt b 4 4
  { version := leAt b 0 1, mergeCount := nm, itemCount := ni, base := bf (leAt b 8 8) 0 40, slotBytes := leAt b 16 4
    slots := leAt b 20 2, items := (List.range ni).map fun i => PlanItem.ofWord (leAt b (64 + 16 * i) 16)
    merges := (List.range nm).map fun i => PlanMerge.ofWord (leAt b (64 + 16 * ni + 32 * i) 32) }

def Alesh.plan (a : Alesh) : Plan := Plan.parse (a.dom O.STEP_PLAN)
def PlanItem.gsid (i : PlanItem) : Nat := i.shard * 65536 + i.slice
def PlanMerge.recBytes (m : PlanMerge) : Nat := 16 + 4 * m.d
def PlanMerge.blockBytes (m : PlanMerge) : Nat := m.records * m.recBytes

/-! ### Outbound tokens (R425) -/

def tokConsumed (slot : Nat) : Nat := packBits [(60, 4, 8), (0, 16, slot)]
def tokPublishReady (e layer : Nat) : Nat := packBits [(60, 4, 9), (56, 4, e), (0, 16, layer)]
def tokReplay (replica e : Nat) : Nat := packBits [(60, 4, 0xA), (44, 16, replica), (0, 44, e)]
def tokMergeDone (e merge q : Nat) : Nat := packBits [(60, 4, 0xB), (56, 4, e), (48, 8, merge), (16, 16, q)]
def tokStepReleased (e : Nat) : Nat := packBits [(60, 4, 0xC), (0, 48, e)]
def tokHalt (e : Nat) : Nat := packBits [(60, 4, 0xD), (0, 48, e)]

/-- The oldest outbound token transfers (R427). The edges for which it waited on cep_out_ready are a free value, and a unit that
waits for room posts its token. -/
def Alesh.tokenOut (a : Alesh) : Alesh :=
  if a.cep.out.isEmpty then a
  else
    ({ a with cep := a.cep.taken, ctl := { a.ctl with draws := a.ctl.draws + 1 } }).wrapN O.CEP_OUT_STALL_COUNT
      (Config.freeStall a.ctl.draws)
def execCepTokenOut (s : State) : Host.Outcome State Fault Refusal := onCore Alesh.tokenOut s

/-! ### Inbound tokens (R426) -/

/-- The first replica hosted and their number (R54). -/
def Alesh.hosts (a : Alesh) (v : Nat) : Bool :=
  decide (a.num O.VREPLICA_FIRST ≤ v) && decide (v < a.num O.VREPLICA_FIRST + a.num O.VREPLICA_COUNT)

/-- A dropped token's slot goes back at once where it is one of the plan's (R426). -/
def Alesh.bounce (a : Alesh) (hasSlot : Bool) (slot : Nat) : Alesh :=
  if hasSlot && decide (slot < a.plan.slots) then a.post uReduce (tokConsumed slot) else a
def Alesh.cepMalformed (a : Alesh) : Alesh := (a.count O.CEP_MALFORMED_COUNT).raiseAttention

/-- cep_in_ready (R424, R426): the core takes inbound tokens in JOINED, RUNNING and DEGRADED; each is treated as it comes, so the
queue of 256 never fills (log entry 104). -/
def Alesh.cepInReady (a : Alesh) : Bool := a.joinedOrJob
/-- Take a token: malformed, stale, duplicate or taken, in this order (R426). -/
def Alesh.token (a : Alesh) (w : Nat) (hasSlot bad stale dup : Bool) (f : Alesh → Alesh) : Alesh :=
  let slot := bf w 0 16
  if !a.cepInReady then a
  else if bad then a.cepMalformed.bounce hasSlot slot
  else if stale then (a.count O.CEP_STALE_COUNT).bounce hasSlot slot
  else if dup then (a.count O.CEP_DUP_COUNT).bounce hasSlot slot
  else f a

def Alesh.tokenEpoch (a : Alesh) (w : Nat) : Nat := restore 4 a.classEpoch (bf w 56 4)
def Alesh.epochStale (a : Alesh) (e : Nat) : Bool := e != a.classEpoch && e != a.classEpoch + 1

def Alesh.contribToken (w : Nat) (a : Alesh) : Alesh :=
  let p := a.plan
  let e := a.tokenEpoch w
  let null := bf w 55 1 == 1
  let v := bf w 36 16
  let item := bf w 18 18
  let slot := bf w 0 16
  a.token w (!null) (decide (p.itemCount ≤ item) || !null && decide (p.slots ≤ slot)) (a.epochStale e || !a.hosts v)
    (a.red.contribs.any fun c => c.replica == v && c.item == item && c.epoch == e) fun b =>
    { b with red := { b.red with contribs := b.red.contribs ++
      [{ replica := v, item := item, epoch := e, slot := slot, null := null, read := false }] } }

def execContrib (token : Nat) (s : State) : Host.Outcome State Fault Refusal := onCore (Alesh.contribToken token) s

def Alesh.releaseToken (w : Nat) (a : Alesh) : Alesh :=
  let e := a.tokenEpoch w
  a.token w false false (a.epochStale e) false fun b =>
    if b.pub.tokens.contains (bf w 0 16, e) then b
    else { b with pub := { b.pub with tokens := b.pub.tokens ++ [(bf w 0 16, e)] } }

def execReleaseToken (token : Nat) (s : State) : Host.Outcome State Fault Refusal := onCore (Alesh.releaseToken token) s

def Alesh.lseToken (w : Nat) (a : Alesh) : Alesh :=
  let p := a.plan
  let e := a.tokenEpoch w
  let mg := bf w 48 8
  let ch := bf w 32 16
  let q := bf w 16 16
  let slot := bf w 0 16
  let bad := match p.merges[mg]? with
    | none => true
    | some m => decide (p.slots ≤ slot) || decide (ch < m.first) || decide (m.first + m.count ≤ ch) || decide (m.qblocks ≤ q)
  a.token w true bad (a.epochStale e)
    (a.red.lse.any fun c => c.merge == mg && c.chunk == ch && c.qblock == q && c.epoch == e) fun b =>
    { b with red := { b.red with lse := b.red.lse ++
      [{ merge := mg, chunk := ch, qblock := q, epoch := e, slot := slot, read := false }] } }

def execLsePart (token : Nat) (s : State) : Host.Outcome State Fault Refusal := onCore (Alesh.lseToken token) s

/-- A token of a reserved or outbound TYPE; of these, CONSUMED has a SLOT field (log entry 23). -/
def Alesh.badToken (w : Nat) (a : Alesh) : Alesh :=
  let ty := bf w 60 4
  if ty = 1 ∨ ty = 2 ∨ ty = 3 then a else a.token w (ty == 8) true false false id

def execMalformedCepToken (token : Nat) (s : State) : Host.Outcome State Fault Refusal := onCore (Alesh.badToken token) s

/-! ### Contributions (R122, R123, R126 to R128, R138, R430) -/

def Alesh.contribWidth (a : Alesh) : Nat := if a.num O.CONTRIB_FORMAT = 1 then 2 else 4
/-- The bytes of a contribution as read: whole pages of a dense one, the parts that its row count gives of a sparse one. -/
def Alesh.contribBytes (a : Alesh) (it : PlanItem) (slot : Nat) : Bytes :=
  let p := a.plan
  let addr := p.base + slot * p.slotBytes
  if it.kind = kSparse then
    match a.sparseOf it.gsid with
    | none => []
    | some s =>
      let n := min (a.rdLe addr 4) p.slotBytes
      let idx := (List.range n).map fun i => a.rdLe (addr + 8 + 4 * i) 4
      let vals := sumNat (idx.map fun i => (a.rowIn it.gsid s i).2)
      a.rd addr (min p.slotBytes (8 + roundUp (4 * n) 8 + a.contribWidth * vals))
  else a.rd addr (roundUp (a.contribWidth * a.gradCount it.gsid) pageBytes)

/-- The leaf of a contribution, and its rows dropped and malformed. -/
def Alesh.leaf (a : Alesh) (it : PlanItem) (c : Contrib) : NodeVal × Nat × Nat :=
  if c.null then (.null, 0, 0)
  else
    let b := a.contribBytes it c.slot
    let w := a.contribWidth
    if it.kind = kSparse then
      match a.sparseOf it.gsid with
      | none => (.null, 0, 0)
      | some s =>
        let rows := a.parseRows it.gsid s w false b
        let k := keptRows s.capacity (rows.map (·.1))
        (.sparse (rows.take k.1.length), k.2.1, k.2.2)
    else
      (.dense ((List.range (a.gradCount it.gsid)).map fun j =>
        let bits := leAt b (w * j) w
        if w = 2 then Fp.widen .bf16 bits else Fp.widen .fp32 bits), 0, 0)

/-- The term of a contribution in its replica's check (R293). -/
def Alesh.contribTerm (a : Alesh) (it : PlanItem) (c : Contrib) : Nat :=
  let crc := if c.null then 0 else crc64 (a.contribBytes it c.slot)
  (mix (BitVec.ofNat 64 (crc + (it.gsid + 1) * 0x9E3779B97F4A7C15))).toNat

/-! ### Owner combine and the header root (R125, R128, R129) -/

/-- A member owns slices of the job: its shard's, unless it has joined or is draining, or slices that it has taken (R231, R249,
R250). -/
def Alesh.isOwner (a : Alesh) (n : Nat) : Bool :=
  (!a.memb.joined.contains n && !a.isDraining n) || a.take.owners.any fun p => p.2 == n
/-- A HEADER_ROOT that has been formed here, or has come. -/
def Alesh.rootMark (a : Alesh) (e peer : Nat) (v : List F32) : Part :=
  { kind := kHdrRoot, epoch := e, gsid := headerGsid, level := a.depth, index := 0, val := .dense v, peer := peer }
/-- The combiner forms HEADER_ROOT, once per epoch and membership, and sends it to every other owner. -/
def Alesh.headerCombine (a : Alesh) (e : Nat) : Alesh :=
  let done := a.red.held.any fun p => p.kind == kHdrRoot && p.epoch == e && p.peer == a.node
  if a.combiner = a.node && !done then
    match a.rootOf (· == kHdr) headerGsid e a.depth 0 with
    | some v =>
      let l := a.denseOf 0 v
      let b := { a with red := { a.red with held := a.red.held ++ [a.rootMark e a.node l] } }
      let c := (b.memb.members.filter fun n => n != a.node && b.isOwner n).foldl (fun (c : Alesh) (n : Nat) =>
        c.sendPart kHdrRoot e 1 headerGsid n (sliceBytesOf l)) b
      c.setHeaderGrad e l
    | none => a
  else a

/-! ### Taking a partial (R132) -/

/-- Hold a partial, or drop it, by the table of R132; a node held inside it is discarded (R125). Then try to combine. One that is held
ahead takes unreserved pages: where there is none, that request stops the consumption of contributions, and the partial waits where
it has arrived (R131, R132, log entry 56). -/
def Alesh.takePart (a : Alesh) (p : Part) : Alesh :=
  let ep := a.partEpoch p.kind p.gsid
  let dup := a.red.held.any fun q => q.kind == p.kind && q.gsid == p.gsid && q.epoch == p.epoch
    && nodeInside p.level p.index q.level q.index
  if p.epoch < ep ∨ ep + 1 < p.epoch then a.count O.PART_STALE_COUNT
  else if dup then a.count O.PART_DUP_COUNT
  else
    let inside (q : Part) : Bool := q.kind == p.kind && q.gsid == p.gsid && q.epoch == p.epoch && nodeInside q.level q.index p.level p.index
    let src := (p.gsid, p.epoch, p.peer)
    let new := (p.kind == kDense || p.kind == kSparse) && p.peer != a.node && !a.red.sources.contains src
    let a := if !a.inReserve p && !a.poolRoom (a.partPages p) then a.stopPool else a
    let b := { a with red := { a.red with held := a.red.held.filter (fun q => !inside q) ++ [p]
                                          sources := if new then a.red.sources ++ [src] else a.red.sources } }
    if p.kind = kHdr then b.headerCombine p.epoch
    else if p.kind = kLse then b
    else b.ownerCombine p.gsid p.epoch

/-- The fields of a PART's ARGS (R185). -/
structure PartArgs where
  kind : Nat
  epochLo : Nat
  node : Nat
  shard : Nat
  slice : Nat
  deriving DecidableEq, Repr

def PartArgs.ofNat (w : Nat) : PartArgs :=
  { kind := bf w 60 4, epochLo := bf w 52 8, node := bf w 35 17, shard := bf w 16 16, slice := bf w 0 16 }
def PartArgs.gsid (x : PartArgs) : Nat := x.shard * 65536 + x.slice

/-- NODE names a node of a tree of 2^L leaves. -/
def treeNodeOk (l n : Nat) : Bool := decide (1 ≤ n) && decide (n < 2 ^ (l + 1))
def treeLevel (l n : Nat) : Nat × Nat := (l - Nat.log2 n, n - 2 ^ Nat.log2 n)

/-- NORM entries of a payload (R130). -/
def normEntries (e : Nat) (b : Bytes) : List NormEnt :=
  (chunks 16 (b.length / 16 + 1) b).map fun c =>
    { epoch := e, gsid := leAt c 0 4, key := leAt c 4 4, op := leAt c 12 1, val := BitVec.ofNat 32 (leAt c 8 4) }
def normOpOk (o : Nat) : Bool := o == 0x20 || o == 0x21 || o == 0x22

/-- A PART's ARGS and payload are well-formed, but for the members of a BUNDLE (R146, R178, R185). A NORM or NORM_ROOT without an
entry is malformed: R130 gives such a packet no meaning (DESIGN CHOICE, log entry 137). -/
def Alesh.partOk (a : Alesh) (x : PartArgs) (b : Bytes) : Bool :=
  let whole (g : Nat) : Bool := b.isEmpty || b.length == gradPages (a.gradCount g) * pageBytes
  if x.kind = kDense then treeNodeOk a.depth x.node && x.shard != 0xFFFF && whole x.gsid
  else if x.kind = kSparse then
    treeNodeOk a.depth x.node && x.shard != 0xFFFF && (b.isEmpty ||
      match a.sparseOf x.gsid with
      | none => false
      | some s =>
        let n := a.sparseRows x.gsid (treeLevel a.depth x.node).1 s
        leAt b 0 4 == n && b.length == sparseLength n (a.sparseVals x.gsid n s))
  else if x.kind = kHdr then treeNodeOk a.depth x.node && x.shard == 0xFFFF && x.slice == 0 && whole 0
  else if x.kind = kHdrRoot then x.node == 1 && x.shard == 0xFFFF && x.slice == 0
    && b.length == gradPages (a.gradCount 0) * pageBytes
  else if x.kind = kNorm || x.kind = kNormRoot then
    let es := normEntries 0 b
    x.node == 0 && x.shard == 0 && x.slice == 0 && b.length % 16 == 0 && !b.isEmpty && es.all fun n => normOpOk n.op
  else if x.kind = kLse then
    match a.plan.merges[x.shard]? with
    | none => false
    | some m => decide (x.slice < m.qblocks) && treeNodeOk m.log2 x.node && b.length == m.blockBytes
  else x.kind == kBundle && x.node == 0 && x.shard == 0 && x.slice == 0

/-- NORM entries at the combiner (R130). An OPCODE that differs from a held entry's, or from another entry's of the same
packet (log entry 45), makes the packet malformed; a new entry that completes its reduction leads to NORM_ROOT. -/
def Alesh.takeNorms (a : Alesh) (e : Nat) (es : List NormEnt) : Alesh :=
  if a.epochStale e then a.count O.PART_STALE_COUNT
  else if es.any fun n => ((es.map fun m => ({ m with epoch := e } : NormEnt)) ++ a.red.norms).any fun q => q.epoch == e && q.key == n.key && q.op != n.op then a.malformed
  else
    let b := es.foldl (fun (c : Alesh) (n : NormEnt) =>
      if c.red.norms.any fun q => q.epoch == e && q.key == n.key && q.gsid == n.gsid then c
      else { c with red := { c.red with norms := c.red.norms ++ [{ n with epoch := e }] } }) a
    let fresh := sortNat ((es.filter fun n => !a.red.norms.any fun q => q.epoch == e && q.key == n.key && q.gsid == n.gsid).map (·.key))
    if b.combiner != b.node then b
    else
      fresh.foldl (fun (c : Alesh) (k : Nat) =>
        let mine := b.red.norms.filter fun q => q.epoch == e && q.key == k
        if (Config.normDomain k).all fun g => mine.any fun q => q.gsid == g then
          match mine.head? with
          | some h =>
            let v := (treeNode (redOp h.op) 32 0 (sortBy (·.1) (mine.map fun q => (q.gsid, q.val)))).getD Fp.posZero
            c.memb.members.foldl (fun (d : Alesh) (n : Nat) => d.sendPart kNormRoot e 0 0 n ({ h with val := v }.bytes true)) c
          | none => c
        else c) b

/-- NORM_ROOT entries at a member; an OPCODE that differs from a held entry's, or from another's of the packet, makes it malformed. -/
def Alesh.takeRoots (a : Alesh) (e : Nat) (es : List NormEnt) : Alesh :=
  if a.epochStale e then a.count O.PART_STALE_COUNT
  else if es.any fun n => ((es.map fun m => ({ m with epoch := e } : NormEnt)) ++ a.red.roots).any fun q =>
    q.epoch == e && q.key == n.key && q.op != n.op then a.malformed
  else es.foldl (fun (c : Alesh) (n : NormEnt) =>
    if c.red.roots.any fun q => q.epoch == e && q.key == n.key then c
    else { c with red := { c.red with roots := c.red.roots ++ [{ n with epoch := e }] } }) a

/-- HEADER_ROOT, judged by the job's epoch in progress: it names no slice of its own, and it serves every header slice that this core
owns (DESIGN CHOICE, log entry 138). -/
def Alesh.takeHeaderRoot (a : Alesh) (e : Nat) (b : Bytes) : Alesh :=
  let hs := a.take.owned.filter isHeader
  let held := a.red.held.any fun p => p.kind == kHdrRoot && p.epoch == e
  if a.epochStale e then a.count O.PART_STALE_COUNT
  else if (hs.all fun g => (a.grad? g e).isSome) && (!hs.isEmpty || held) then a.count O.PART_DUP_COUNT
  else
    let v := sliceValues (a.gradCount 0) (b.take (4 * a.gradCount 0))
    let c : Alesh := if held then a else { a with red := { a.red with held := a.red.held ++ [a.rootMark e (2 ^ 18) v] } }
    c.setHeaderGrad e v

/-- A well-formed PART that is no BUNDLE takes effect. -/
def Alesh.partIn (a : Alesh) (src : Nat) (x : PartArgs) (b : Bytes) : Alesh :=
  let e := a.epochOf x.epochLo
  if x.kind = kNorm then a.takeNorms e (normEntries e b)
  else if x.kind = kNormRoot then a.takeRoots e (normEntries e b)
  else if x.kind = kHdrRoot then a.takeHeaderRoot e b
  else if x.kind = kLse then
    let l := ((a.plan.merges[x.shard]?).map (·.log2)).getD 0
    let n := treeLevel l x.node
    a.takePart { kind := kLse, epoch := e, gsid := x.gsid, level := n.1, index := n.2, val := .lse b, peer := src }
  else
    let n := treeLevel a.depth x.node
    let v := if b.isEmpty then NodeVal.null
      else if x.kind = kSparse then
        match a.sparseOf x.gsid with
        | some s => .sparse (a.parseRows x.gsid s 4 true b)
        | none => .null
      else .dense (sliceValues (a.gradCount (if x.kind = kHdr then 0 else x.gsid)) (b.take (4 * a.gradCount (if x.kind = kHdr then 0 else x.gsid))))
    a.takePart { kind := x.kind, epoch := e, gsid := x.gsid, level := n.1, index := n.2, val := v, peer := src }

/-! ### Bundles (R145, R146, R431) -/

/-- A directory entry: ARGS of the member, OFFSET, LENGTH and the member's header. -/
structure DirEntry where
  header : Nat
  offset : Nat
  length : Nat
  deriving DecidableEq, Repr

/-- The directory: entries run until the first member's payload, or until one whose header is zero (log entry 26). -/
def bundleDir (b : Bytes) : Nat → Nat → Nat → List DirEntry
  | 0, _, _ => []
  | n + 1, i, top =>
    if top < 32 * (i + 1) ∨ leAt b (32 * i) 16 = 0 then []
    else
      let d : DirEntry := { header := leAt b (32 * i) 16, offset := leAt b (32 * i + 16) 4, length := leAt b (32 * i + 20) 4 }
      d :: bundleDir b n (i + 1) (if d.length = 0 then top else min top d.offset)

def bundleOf (b : Bytes) : List DirEntry := bundleDir b 64 0 b.length

/-- A bundle is well-formed as a whole (R146). -/
def bundleOk (b : Bytes) : Bool :=
  let d := bundleOf b
  !d.isEmpty && decide (b.length ≤ 4194304)
  && (d.all fun x => x.offset % 256 == 0 && decide (x.offset + x.length ≤ b.length) && bf x.header 60 4 != kBundle
      && decide (32 * d.length ≤ x.offset || x.length = 0))
  && (d.zipIdx.all fun x => d.zipIdx.all fun y => x.2 == y.2 || !runsMeet x.1.offset x.1.length y.1.offset y.1.length)

/-- A member of a bundle as the packet that its header makes it (R145, R176). -/
def memberPkt (b : Bytes) (d : DirEntry) : Pkt :=
  { kind := 0, vc := 2, version := bf d.header 124 4, typ := bf d.header 120 4, src := bf d.header 102 18, dst := bf d.header 84 18
    route := bf d.header 68 16, memb := bf d.header 64 4, args := bf d.header 0 64, payload := slice b d.offset d.length }
/-- A PART that is no BUNDLE comes. -/
def Alesh.partOne (now : Nat) (m : Pkt) (a : Alesh) : Alesh :=
  let x := PartArgs.ofNat m.args
  a.receive now tPart m (m.typ == tPart && a.partOk x m.payload && x.kind != kBundle) true fun b =>
    if b.joinedOrJob then b.partIn m.src x m.payload else b
/-- The members of a bundle are handled as if each had come alone, in directory order (R146). -/
def Alesh.bundleIn (a : Alesh) (b : Bytes) : Alesh :=
  (bundleOf b).foldl (fun (c : Alesh) (d : DirEntry) => c.partOne c.now (memberPkt b d)) a

/-- A PART arrives. -/
def Alesh.partRx (now : Nat) (m : Pkt) (a : Alesh) : Alesh :=
  let x := PartArgs.ofNat m.args
  a.receive now tPart m (a.partOk x m.payload && (x.kind != kBundle || bundleOk m.payload)) true fun b =>
    if !b.joinedOrJob then b
    else if x.kind = kBundle then b.bundleIn m.payload
    else b.partIn m.src x m.payload

/-- A row that names a PART kind reads it from the row. -/
def asKind (kind : Nat) (m : Pkt) : Pkt := { m with args := m.args % 2 ^ 60 + kind * 2 ^ 60 }

def execPartRx (now : Nat) (m : Pkt) (s : State) : Host.Outcome State Fault Refusal := onCore (Alesh.partRx now m) s
def execHeaderRootRx (now : Nat) (m : Pkt) (s : State) : Host.Outcome State Fault Refusal :=
  onCore (Alesh.partRx now (asKind kHdrRoot m)) s
def execNormRx (now : Nat) (m : Pkt) (s : State) : Host.Outcome State Fault Refusal := onCore (Alesh.partRx now (asKind kNorm m)) s
def execNormRootRx (now : Nat) (m : Pkt) (s : State) : Host.Outcome State Fault Refusal :=
  onCore (Alesh.partRx now (asKind kNormRoot m)) s
def execLseRx (now : Nat) (m : Pkt) (s : State) : Host.Outcome State Fault Refusal := onCore (Alesh.partRx now (asKind kLse m)) s
def execBundleRx (now : Nat) (m : Pkt) (s : State) : Host.Outcome State Fault Refusal := onCore (Alesh.partRx now (asKind kBundle m)) s

/-! ### Forming and sending (R124, R127, R131, R133, R136, R144) -/

def Alesh.partArgsOf (a : Alesh) (p : Part) : Nat :=
  let l := if p.kind = kLse then ((a.plan.merges[p.gsid / 65536]?).map (·.log2)).getD 0 else a.depth
  partArgs p.kind p.epoch (treeNumber l p.level p.index) p.gsid

/-- Send a formed node, retaining it; where retention is full it waits (R133, R136). -/
def Alesh.sendNode (a : Alesh) (p : Part) : Alesh :=
  let b := a.nodePayload p.gsid p.level p.val
  if p.kind != kLse && !a.retainRoom (a.partPages p) then
    (({ a with red := { a.red with waiting := a.red.waiting ++ [p] } }).wrap O.RETAIN_FULL_COUNT).condition hRetainFull
  else
    let c := if p.kind = kLse then a else ({ a with red := { a.red with retained := a.red.retained ++ [p] } }).setRetainUsed
    let d := if b.length < 262144 then c.count O.BUNDLE_SMALL_COUNT else c
    d.send tPart p.peer (a.partArgsOf p) b

/-- The bundle that a node formed here leaves in. -/
def Alesh.bundleOf (a : Alesh) (p : Part) : Option Nat :=
  (a.plan.items.find? fun i => (if i.kind = kHdr then headerGsid else i.gsid) == p.gsid && i.kind == p.kind && i.bundle != 0xFFFF).map
    (·.bundle)
/-- Send the nodes that waited for retention and now fit; members of a bundle wait for their bundle. -/
def Alesh.sendWaiting (a : Alesh) : Alesh :=
  let w := a.red.waiting
  let bundled (p : Part) : Bool := (a.bundleOf p).isSome
  let loose := w.filter fun p => !bundled p
  loose.foldl (fun (c : Alesh) (p : Part) => c.sendNode p) { a with red := { a.red with waiting := w.filter bundled } }

/-- Nodes of one kind, slice and epoch that this core has formed and still holds. -/
def Alesh.ownNodes (a : Alesh) (kind e g : Nat) : List Part :=
  (a.red.inner ++ a.red.waiting ++ a.red.retained ++ a.red.held.filter fun p => p.peer == a.node).filter fun p =>
    p.kind == kind && p.epoch == e && p.gsid == g
/-- The value of a node from unread leaves and the nodes held (R124, R127); none where they do not cover it, or where the
core has formed it already. -/
def Alesh.formNode (a : Alesh) (kind e g d level index : Nat) (leaves : List (Nat × NodeVal)) : Option NodeVal :=
  let own := (a.ownNodes kind e g).map fun p => ((p.level, p.index), p.val)
  if own.any fun p => p.1 == (level, index) then none
  else combineNode d (own ++ leaves.map fun l => ((0, l.1), l.2)) level index
/-- The nodes inside a new one give way to it. -/
def Alesh.clearInner (a : Alesh) (p : Part) : Alesh :=
  { a with red := { a.red with inner := a.red.inner.filter fun q =>
      !(q.kind == p.kind && q.epoch == p.epoch && q.gsid == p.gsid && nodeInside q.level q.index p.level p.index) } }

/-- A core whose unit is running forms nodes for the epoch in progress and the one above it (R201), unless it waits to post a token
(R427). -/
def Alesh.reducing (a : Alesh) : Bool := a.inJob && a.unit uReduce == .running && !a.cepWaits uReduce

/-- Form a node of the hosting range (R124, R127): one that stands for a maximal aligned subtree is sent or kept for owner
combine; one inside such a subtree waits in the pool for its sibling. Rows over CAPACITY are the drops that the Chronograph records
beside SPARSE_DROP_COUNT; rows with an index that does not increase count as malformed alone (R138, R294; DESIGN CHOICE, log entry 57). -/
def Alesh.localPartial (now item e level index : Nat) (a0 : Alesh) : Alesh :=
  let a := a0.at now
  let first := a.num O.VREPLICA_FIRST
  let cut := alignedCut (2 ^ 17) first (first + a.num O.VREPLICA_COUNT - 1)
  match a.plan.items[item]? with
  | none => a
  | some it =>
    let mine (c : Contrib) : Bool := c.item == item && c.epoch == e && c.replica / 2 ^ level == index && !c.read
    let cs := a.red.contribs.filter mine
    let leaves := cs.map fun c => (c, a.leaf it c)
    let g := if it.kind = kHdr then headerGsid else it.gsid
    match a.formNode it.kind e g 0 level index (leaves.map fun (l : Contrib × NodeVal × Nat × Nat) => (l.1.replica, l.2.1)) with
    | none => a
    | some v =>
      if a.reducing && cut.any fun n => nodeInside level index n.1 n.2 then
        let whole := cut.contains (level, index)
        let dst := if !whole then a.node else if it.kind = kHdr then a.combiner else a.ownerOf g
        let p : Part := { kind := it.kind, epoch := e, gsid := g, level := level, index := index, val := v, peer := dst }
        let a1 := a.clearInner p
        if (a.poolStopped && !cs.isEmpty) || ((!whole || dst != a.node || !a.inReserve p) && !a1.poolRoom (a.partPages p)) then a.stopPool
        else
          let b := { a1 with
            red := { a1.red with stall := none, contribs := modWhere mine (fun c => { c with read := true }) a1.red.contribs }
            chrono := { a.chrono with
              terms := a.chrono.terms ++ cs.map fun (c : Contrib) => (e, c.replica, a.contribTerm it c)
              drops := a.chrono.drops ++ (leaves.filter fun (q : Contrib × NodeVal × Nat × Nat) => q.2.2.1 != 0).map
                fun (q : Contrib × NodeVal × Nat × Nat) => (e, q.1.replica, q.2.2.1) } }
          let b1 := (b.wrapN O.SPARSE_DROP_COUNT (sumNat (leaves.map fun (l : Contrib × NodeVal × Nat × Nat) => l.2.2.1))).countN
            O.SPARSE_MALFORMED_COUNT (sumNat (leaves.map fun (l : Contrib × NodeVal × Nat × Nat) => l.2.2.2))
          let c := (cs.filter fun c => !c.null).foldl (fun (d : Alesh) (c : Contrib) => d.post uReduce (tokConsumed c.slot)) b1
          if !whole then { c with red := { c.red with inner := c.red.inner ++ [p] } }
          else if dst = a.node then c.takePart { p with peer := a.node }
          else if it.bundle != 0xFFFF then { c with red := { c.red with waiting := c.red.waiting ++ [p] } }
          else c.sendNode p
      else a

def execLocalPartial (now item epoch level index : Nat) (s : State) : Host.Outcome State Fault Refusal :=
  onCore (Alesh.localPartial now item epoch level index) s

/-- The members of a bundle for one destination and epoch, in item order and emission order (R431). -/
def Alesh.bundleMembers (a : Alesh) (bundle e dst : Nat) : List (Option Part) :=
  let first := a.num O.VREPLICA_FIRST
  let cut := alignedCut (2 ^ 17) first (first + a.num O.VREPLICA_COUNT - 1)
  (a.plan.items.filter fun i => i.bundle == bundle).flatMap fun i =>
    let g := if i.kind = kHdr then headerGsid else i.gsid
    let target := if i.kind = kHdr then a.combiner else a.ownerOf g
    if target != dst then [] else cut.map fun n =>
      a.red.waiting.find? fun p => p.gsid == g && p.kind == i.kind && p.epoch == e && p.level == n.1 && p.index == n.2

/-- A node formed here, or a bundle of them that is complete, waits for room in retention (R136). -/
def Alesh.heldBack (a : Alesh) : Bool := a.red.waiting.any fun p =>
  match a.bundleOf p with
  | some k =>
    let ms := a.bundleMembers k p.epoch p.peer
    ms.all Option.isSome && !a.retainRoom (sumNat ((ms.filterMap id).map a.partPages))
  | none => !a.retainRoom (a.partPages p)

/-- The payload of a bundle (R145). -/
def Alesh.bundlePayload (a : Alesh) (dst : Nat) (ps : List Part) : Bytes :=
  let start := roundUp (32 * ps.length) 256
  let laid := ps.foldl (fun (acc : Bytes × Bytes) (p : Part) =>
    let b := a.nodePayload p.gsid p.level p.val
    let off := start + acc.2.length
    let head := packBits [(124, 4, 1), (120, 4, tPart), (102, 18, a.node), (84, 18, dst), (68, 16, a.num O.ROUTE_EPOCH),
      (64, 4, a.num O.MEMBERSHIP_EPOCH), (0, 64, a.partArgsOf p)]
    (acc.1 ++ leBytes 16 head ++ leBytes 4 off ++ leBytes 4 b.length ++ leBytes 8 0,
     acc.2 ++ b ++ List.replicate (roundUp b.length 256 - b.length) 0)) ([], [])
  laid.1 ++ List.replicate (start - laid.1.length) 0 ++ laid.2

/-- Cut members into bundles of at most 64 members and 4 MiB; a member that no bundle can hold stands alone, and goes as a packet of
its own. Fuel bounds their number. -/
def Alesh.cutBundles (a : Alesh) : Nat → List Part → List (List Part)
  | 0, _ => []
  | n + 1, ps =>
    if ps.isEmpty then []
    else
      let fits := (List.range (min 64 ps.length)).filter fun k => decide ((a.bundlePayload 0 (ps.take (k + 1))).length ≤ 4194304)
      let k := max 1 fits.length
      ps.take k :: a.cutBundles n (ps.drop k)

def Alesh.bundleSend (bundle e dst : Nat) (a : Alesh) : Alesh :=
  let ms := a.bundleMembers bundle e dst
  let ps := ms.filterMap id
  if a.reducing && bundle != 0xFFFF && !ms.isEmpty && ms.all Option.isSome then
    if !a.retainRoom (sumNat (ps.map a.partPages)) then (a.wrap O.RETAIN_FULL_COUNT).condition hRetainFull
    else
      let b := ({ a with red := { a.red with waiting := a.red.waiting.filter (fun p => !ps.contains p)
                                             retained := a.red.retained ++ ps } }).setRetainUsed
      (b.cutBundles ps.length ps).foldl (fun (c : Alesh) (l : List Part) =>
        let body := c.bundlePayload dst l
        if body.length ≤ 4194304 then c.sendPart kBundle e 0 0 dst body
        else l.foldl (fun (d : Alesh) (p : Part) => d.send tPart dst (d.partArgsOf p) (d.nodePayload p.gsid p.level p.val)) c) b
  else a

def execBundleSend (bundle epoch dst : Nat) (s : State) : Host.Outcome State Fault Refusal :=
  onCore (Alesh.bundleSend bundle epoch dst) s

/-- RETAIN_REL from the slice's owner (R133, R186). -/
def Alesh.retainRelRx (now : Nat) (m : Pkt) (a : Alesh) : Alesh :=
  let g := bf m.args 0 32
  a.receive now tRetainRel m (m.payload.isEmpty && bf m.args 16 16 != 0xFFFF) true fun b =>
    let e := b.epochOf (bf m.args 56 8)
    if b.ownerOf g = m.src then
      ({ b with red := { b.red with retained := b.red.retained.filter fun p =>
        !(p.gsid == g && p.epoch == e && p.kind != kHdr) } }).setRetainUsed.sendWaiting
    else b

def execRetainRelRx (now : Nat) (m : Pkt) (s : State) : Host.Outcome State Fault Refusal := onCore (Alesh.retainRelRx now m) s

/-! ### Attention merges (R142 to R144) -/

/-- Nodes and attention partials whose record lists differ do not merge: they go to the destination one by one, which finds them
malformed (R143; DESIGN CHOICE, log entry 136). -/
def Alesh.sendUnlike (a : Alesh) (dst : Nat) (ps : List Part) : Alesh :=
  ps.foldl (fun (b : Alesh) (p : Part) =>
    let q : Part := { p with peer := dst }
    let c : Alesh := { b with red := { b.red with inner := b.red.inner.filter (· != p) } }
    if dst = a.node then c.takePart q else c.sendNode q) a
/-- The record lists of nodes agree in (position, head). -/
def alike (d : Nat) (ps : List Part) : Bool :=
  let keys (p : Part) : List (Nat × Nat) := match p.val with | .lse b => lseKeys (lseParse d b) | _ => []
  ps.all fun p => some (keys p) == ps.head?.map keys
/-- Form a node of the hosted chunks (R124, R144, R431), as `localPartial` forms one of the hosted replicas. -/
def Alesh.lseLocal (now mg q e level index : Nat) (a0 : Alesh) : Alesh :=
  let a := a0.at now
  match a.plan.merges[mg]? with
  | none => a
  | some m =>
    let g := mg * 65536 + q
    let cut := alignedCut (2 ^ 17) m.first (m.first + m.count - 1)
    let mine (c : LsePart) : Bool := c.merge == mg && c.qblock == q && c.epoch == e && c.chunk / 2 ^ level == index && !c.read
    let cs := a.red.lse.filter mine
    let leaf (c : LsePart) : NodeVal := .lse (a.rd (a.plan.base + c.slot * a.plan.slotBytes) m.blockBytes)
    let pieces : List Part := ((a.red.inner.filter fun p =>
        p.kind == kLse && p.epoch == e && p.gsid == g && nodeInside p.level p.index level index)
      ++ cs.map fun (c : LsePart) => { kind := kLse, epoch := e, gsid := g, level := 0, index := c.chunk, val := leaf c, peer := a.node })
    match a.formNode kLse e g m.d level index (cs.map fun (c : LsePart) => (c.chunk, leaf c)) with
    | none => a
    | some v =>
      if a.reducing && cut.any fun n => nodeInside level index n.1 n.2 then
        let whole := cut.contains (level, index)
        let p : Part := { kind := kLse, epoch := e, gsid := g, level := level, index := index, val := v, peer := if whole then m.dest else a.node }
        let a1 := a.clearInner p
        if (a.poolStopped && !cs.isEmpty) || ((!whole || m.dest != a.node || !a.inReserve p) && !a1.poolRoom (a.partPages p)) then a.stopPool
        else if !alike m.d pieces && !whole then a
        else
        let b := { a1 with red := { a1.red with stall := none, lse := modWhere mine (fun c => { c with read := true }) a1.red.lse } }
        let c := cs.foldl (fun (d : Alesh) (c : LsePart) => d.post uReduce (tokConsumed c.slot)) b
        if !alike m.d pieces then c.sendUnlike m.dest pieces
        else if !whole then { c with red := { c.red with inner := c.red.inner ++ [p] } }
        else if m.dest = a.node then c.takePart { p with peer := a.node } else c.sendNode p
      else a

def execLseLocalPartial (now merge qblock epoch level index : Nat) (s : State) : Host.Outcome State Fault Refusal :=
  onCore (Alesh.lseLocal now merge qblock epoch level index) s

/-- The destination completes a merge (R143, R144). -/
def Alesh.lseComplete (mg q e : Nat) (a : Alesh) : Alesh :=
  match a.plan.merges[mg]? with
  | none => a
  | some m =>
    let g := mg * 65536 + q
    let ps := a.red.held.filter fun p => p.kind == kLse && p.gsid == g && p.epoch == e
    let recs (p : Part) : List LseRec := match p.val with | .lse b => lseParse m.d b | _ => []
    match a.rootOf (· == kLse) g e m.log2 m.d, ps.head? with
    | some (.lse b), some h =>
      if a.reducing && m.dest == a.node then
        let bad := ps.any fun p => lseKeys (recs p) != lseKeys (recs h)
        let root := if bad then (recs h).map LseRec.poison else lseParse m.d b
        let out := if m.normalise && !bad then root.map LseRec.normalise else root
        let c := a.wr (m.out + q * m.blockBytes) (lseEmit out)
        let d := (if bad then c.count O.LSE_MALFORMED_COUNT else c).wrap O.LSE_MERGE_COUNT
        ({ d with red := { d.red with
            held := d.red.held.filter fun p => !(p.kind == kLse && p.gsid == g && p.epoch == e)
            merged := (e, mg, q) :: d.red.merged } }).post uReduce (tokMergeDone e mg q)
      else a
    | _, _ => a

def execLseMergeComplete (merge qblock epoch : Nat) (s : State) : Host.Outcome State Fault Refusal :=
  onCore (Alesh.lseComplete merge qblock epoch) s

end Sys2Proof.Machine
end

