-- ==== Sys2Proof/Machine/Publish.lean ====
section
/-! DEFINITION. Publishing narrow weights (R86 to R102), and the checks of the publish table at arming. -/
namespace Sys2Proof.Machine

/-! ### Positions and masks (R86, R87) -/

/-- The records of a layer on this core, in global element index order; the replicated elements are those of its own
header slice. -/
def Alesh.layerRecs (a : Alesh) (layer : Nat) : List (Nat × Nat) :=
  let gs := a.take.owned.filter fun g => a.hasBlock g && (!isHeader g || gsidShard g == a.ownShard)
  (sortBy a.elementBase gs).flatMap fun g => (List.range (a.records g)).filterMap fun j =>
    match entryOf a.layers (a.elementBase g + j) with
    | some le => if le.layer = layer then some (g, j) else none
    | none => none

/-- An occupancy word of a masked layer. -/
def Alesh.occWord (a : Alesh) (p : PubEntry) (w : Nat) : Nat := a.rdLe (a.num O.MASK_BASE + 8 * (p.maskWord + w)) 8

/-- The number of occupancy words of a layer. -/
def PubEntry.words (p : PubEntry) : Nat := ceilDiv p.positions 64

/-- The number of present positions below a word. -/
def Alesh.presentBelow (a : Alesh) (p : PubEntry) (w : Nat) : Nat :=
  sumNat ((List.range w).map fun i => popcount 64 (a.occWord p i))

/-- The record at a publish position; none where it is masked or padding. -/
def Alesh.posRec (a : Alesh) (p : PubEntry) (recs : List (Nat × Nat)) (i : Nat) : Option (Nat × Nat) :=
  if p.positions ≤ i then none
  else if !p.masked then recs[i]?
  else
    let w := a.occWord p (i / 64)
    if w.testBit (i % 64) then recs[a.presentBelow p (i / 64) + popcount 64 (bf w 0 (i % 64))]? else none

/-- The weight value of a record as the publish stage reads it at `e` (R77, R89); of a recipe without a weight field the spec
states none, and it is free (log entry 52). -/
def Alesh.weightAt (a : Alesh) (g j e : Nat) : F32 :=
  match a.elemRecipe (a.elementBase g + j) with
  | some (_, r) => if r.hasWeight then weightValue r (a.liveVals g j e) else Config.freeWeight (a.elementBase g + j) e
  | none => Fp.posZero

/-! ### Blocks (R92 to R98) -/

/-- Positions that one block or group covers. -/
def PubEntry.span (p : PubEntry) : Nat :=
  if p.sparse = 2 then 64 else if p.sparse = 1 then p.blockLen * p.nmOf.2 / p.nmOf.1 else p.blockLen
/-- The number of blocks or groups of a layer. -/
def PubEntry.blockCount (p : PubEntry) : Nat := if p.sparse = 2 then p.words else p.valueCount / p.blockLen

/-- What a block writes: runs of bytes, and its counts of values, zeros, saturated and non-finite values. -/
structure BlockOut where
  writes : List (Nat × Bytes)
  values : Nat
  zeros : Nat
  sat : Nat
  bad : Nat
  deriving DecidableEq, Repr

/-- The zero fill from the end of an array to the next multiple of 256 bytes (R95). -/
def zeroFill (base len : Nat) : Nat × Bytes := (base + len, List.replicate (roundUp len 256 - len) 0)

/-- The number of codes of zero magnitude. -/
def zeroCodes (f : Nat) (codes : List Nat) : Nat :=
  let m := if f = 5 then 255 else 2 ^ ((mxFmt f).bits - 1) - 1
  (codes.filter fun c => c &&& m == 0).length

/-- A block of DENSE or NM: `vals` are the values of its positions. -/
def denseOut (p : PubEntry) (b : Nat) (last : Bool) (vals : List F32) : BlockOut :=
  let groups := chunks p.nmOf.2 (vals.length / p.nmOf.2) vals
  let kept : List (Nat × F32) := if p.sparse = 1 then
    groups.flatMap fun g => (nmKept p.nmOf.1 g).map fun i => (i, g.getD i Fp.posZero) else vals.map fun v => (0, v)
  let enc := encodeBlock p.format p.fit (kept.map (·.2))
  let bits := (mxFmt p.format).bits
  let c := if p.nmOf.2 = 4 then 2 else 3
  let sz := p.sizes
  let main := [(p.dataBase + b * (p.blockLen * bits / 8), packElems bits enc.2.1), (p.scaleBase + b, [BitVec.ofNat 8 enc.1])]
  let aux := if p.sparse = 1 then [(p.auxBase + b * (p.blockLen * c / 8), packElems c (kept.map (·.1)))] else []
  let fill := if last then [zeroFill p.dataBase sz.1, zeroFill p.scaleBase sz.2.1]
      ++ (if p.sparse = 1 then [zeroFill p.auxBase sz.2.2] else []) else []
  { writes := main ++ aux ++ fill, values := kept.length, zeros := zeroCodes p.format enc.2.1, sat := enc.2.2
    bad := if enc.1 = 0xFF then kept.length else 0 }

/-- An unstructured group at byte `off` of its stream (R98). -/
def groupOut (p : PubEntry) (off occ : Nat) (last : Bool) (present : List F32) : BlockOut :=
  let b := groupBytes p.format p.fit occ present
  let enc := encodeBlock p.format p.fit present
  { writes := (p.dataBase + off, b.1) :: (if last then [zeroFill p.dataBase (off + b.1.length)] else [])
    values := present.length, zeros := zeroCodes p.format enc.2.1, sat := b.2
    bad := if !present.isEmpty && enc.1 == 0xFF then present.length else 0 }

/-- The byte offset of a group in its stream. -/
def Alesh.groupOffset (a : Alesh) (p : PubEntry) (w : Nat) : Nat :=
  sumNat ((List.range w).map fun i => groupLen p.format (popcount 64 (a.occWord p i)))

/-- The records of a block. -/
def Alesh.blockRecs (a : Alesh) (p : PubEntry) (recs : List (Nat × Nat)) (b : Nat) : List (Option (Nat × Nat)) :=
  (List.range p.span).map fun i => a.posRec p recs (b * p.span + i)

/-- The bytes of a block at step epoch `e`. -/
def Alesh.blockOut (a : Alesh) (p : PubEntry) (ps : List (Option (Nat × Nat))) (b e : Nat) : BlockOut :=
  let last := b + 1 == p.blockCount
  let val (x : Option (Nat × Nat)) : F32 := match x with
    | some (g, j) => a.weightAt g j e
    | none => Fp.posZero
  if p.sparse = 2 then groupOut p (a.groupOffset p b) (a.occWord p b) last ((ps.filterMap id).map fun x => a.weightAt x.1 x.2 e)
  else denseOut p b last (ps.map val)

/-! ### When a block is written (R99, R100) -/

/-- The weight and compensation fields of a record's recipe have NULL_RULE HOLD. -/
def Alesh.holdsWeight (a : Alesh) (g j : Nat) : Bool :=
  match a.elemRecipe (a.elementBase g + j) with
  | some (_, r) => r.fields.all fun f => !(f.role == 1 || f.role == 2) || f.nullRule == 0
  | none => false

/-- A block need not be written again at `e`. -/
def Alesh.blockStands (a : Alesh) (layer b e : Nat) (recs : List (Nat × Nat)) : Bool :=
  a.pub.standing.contains (layer, b) && recs.all fun x =>
    ((a.marks? x.1 e).map fun m => m.contains (a.unitOf x.1 (a.recPage x.1 x.2)).1).getD false && a.holdsWeight x.1 x.2

/-- Add a block's counts to its layer's (R341). -/
def Alesh.countBlock (a : Alesh) (layer : Nat) (o : BlockOut) : Alesh :=
  let c := lookupD { values := 0, zero := 0, sat := 0, nonfinite := 0 } a.health.pubs layer
  let d : PubCount := { values := c.values + o.values, zero := c.zero + o.zeros, sat := c.sat + o.sat, nonfinite := c.nonfinite + o.bad }
  { a with health := { a.health with pubs := assign a.health.pubs layer d } }

/-- The publish-ready token follows the last write of the layer's bytes at `e`. -/
def Alesh.publishDone (a : Alesh) (p : PubEntry) (e : Nat) : Alesh :=
  if (List.range p.blockCount).all fun b => a.pub.written.contains (p.layer, b, e) then
    ({ a with pub := { a.pub with ready := (p.layer, e) :: a.pub.ready } }.post uPublish (tokPublishReady (e % 16) p.layer)).tryArrive
  else a

/-- The pages that hold bytes of a record. -/
def Alesh.recPages (a : Alesh) (g j : Nat) : List Nat :=
  let lo := a.recordByte g j / pageBytes
  (List.range ((a.recordByte g j + a.recBytes - 1) / pageBytes + 1 - lo)).map (lo + ·)

/-- The live pages that a block's records lie in, and the header pages that hold their exponents (R47, R48). -/
def Alesh.blockPages (a : Alesh) (recs : List (Nat × Nat)) : List (Nat × Nat) :=
  (recs.flatMap fun x => (a.recPages x.1 x.2).map fun q => (x.1, q)) ++ (sortNat (recs.map (·.1))).flatMap a.expPages
/-- Header pages with an exponent of the block's slices outside its range (R70). -/
def Alesh.blockExps (a : Alesh) (recs : List (Nat × Nat)) : List Nat := (sortNat (recs.map (·.1))).flatMap a.badExps

/-- Write one block, N:M block or unstructured group of a layer at the epoch in progress. -/
def Alesh.publishBlock (now layer b : Nat) (a0 : Alesh) : Alesh :=
  let a := a0.at now
  let e := a.inProgress
  match a.pubTable.find? fun p => p.layer == layer with
  | none => a
  | some p =>
    let ps := a.blockRecs p (a.layerRecs layer) b
    let recs := ps.filterMap id
    let fenced := recs.all fun x => ((a.prog? x.1).map fun q => decide (e ≤ q.fence)).getD false
    if a.inJob && a.unit uPublish == .running && !a.cepWaits uPublish && decide (b < p.blockCount) && a.pub.tokens.contains (layer, e)
        && !a.pub.written.contains (layer, b, e) && fenced then
      a.withPages uPublish (a.blockPages recs) <|
      if !(a.blockExps recs).isEmpty then a.damageExps uPublish (a.blockExps recs)
      else
        let o := a.blockOut p ps b e
        let c := (if a.blockStands layer b e recs then a.count O.PUB_SKIPPED
          else ((o.writes.foldl (fun (d : Alesh) (w : Nat × Bytes) => d.wr w.1 w.2) a).countN O.PUB_SAT_COUNT o.sat).countN
            O.PUB_NONFINITE_COUNT (if o.bad = 0 then 0 else 1)).countBlock layer o
        let d := { c with pub := { c.pub with
          written := (layer, b, e) :: c.pub.written
          standing := if c.pub.standing.contains (layer, b) then c.pub.standing else (layer, b) :: c.pub.standing } }
        d.publishDone p e
    else a

def execPublishBlock (now layer block : Nat) (s : State) : Host.Outcome State Fault Refusal :=
  onCore (Alesh.publishBlock now layer block) s

/-- The blocks of a layer's entry that a change of owner leaves as they were: their records are the same ones, and none lies in
a slice that changed its owner. -/
def blocksKept (old new : Alesh) (changed : List Nat) (p : PubEntry) : List Nat :=
  let r0 := old.layerRecs p.layer
  let r1 := new.layerRecs p.layer
  let clean (recs : List (Nat × Nat)) : Bool := recs.all fun x => !changed.contains x.1
  if !new.pubTable.contains p then []
  else if r0 == r1 && clean r0 then List.range p.blockCount
  else (List.range p.blockCount).filter fun b =>
    let ps := new.blockRecs p r1 b
    ps == old.blockRecs p r0 b && clean (ps.filterMap id)
/-- After a change of owner of slices, every block that holds one of their records is written again, at the epoch in progress
too (R100). `old` is the core before the change. -/
def Alesh.affectBlocks (new old : Alesh) (changed : List Nat) : Alesh :=
  let used := old.pub.standing ++ old.pub.written.map fun w => (w.1, w.2.1)
  let stay := (old.pubTable.filter fun p => used.any fun x => x.1 == p.layer).flatMap fun p =>
    (blocksKept old new changed p).map fun b => (p.layer, b)
  let written := new.pub.written.filter fun w => stay.contains (w.1, w.2.1)
  let whole (layer e : Nat) : Bool := match new.pubTable.find? fun p => p.layer == layer with
    | some p => (List.range p.blockCount).all fun b => written.contains (layer, b, e)
    | none => false
  { new with pub := { new.pub with
      standing := new.pub.standing.filter fun x => stay.contains x
      written := written
      ready := new.pub.ready.filter fun r => whole r.1 r.2 } }
/-- After a change of configuration epoch every block is (R100). -/
def Alesh.unstandAll (a : Alesh) : Alesh := { a with pub := { a.pub with standing := [] } }

/-! ### Arming (R87, R91) -/

/-- The arrays that an entry uses, as runs. -/
def Alesh.pubArrays (a : Alesh) (p : PubEntry) : List (Nat × Nat) :=
  if p.sparse = 2 then [(p.dataBase, a.groupOffset p p.words)]
  else [(p.dataBase, p.sizes.1), (p.scaleBase, p.sizes.2.1)] ++ (if p.sparse = 1 then [(p.auxBase, p.sizes.2.2)] else [])

/-- No two runs of a list meet. -/
def runsApart : List (Nat × Nat) → Bool
  | [] => true
  | r :: rs => (rs.all fun q => !runsMeet r.1 r.2 q.1 q.2) && runsApart rs

/-- A masked layer's occupancy words agree with its records, and no bit stands at or above POSITIONS (R87). -/
def Alesh.maskOk (a : Alesh) (p : PubEntry) : Bool :=
  a.presentBelow p p.words == (a.layerRecs p.layer).length
    && ((List.range p.words).all fun w => a.occWord p w / 2 ^ (p.positions - 64 * w) == 0)

/-- One entry's checks at arming: R91's, and what its table states and R91's list of refusals does not name: POSITIONS from 1, bases
that are multiples of 256, a mask within MASK_WORDS (DESIGN CHOICE, log entry 148: refused with RANGE). -/
def Alesh.pubEntryOk (a : Alesh) (p : PubEntry) : Bool :=
  p.version == 1 && decide (p.format ≤ 5) && decide (p.sparse ≤ 2) && (p.sparse != 1 || decide (p.nm ≤ 3))
    && a.layers.any (fun e => e.layer == p.layer) && decide (1 ≤ p.positions)
    && (p.sparse != 2 || p.block == 2) && (p.sparse != 1 || !p.masked) && (p.sparse != 2 || p.masked)
    && p.dataBase % 256 == 0 && (p.sparse == 2 || p.scaleBase % 256 == 0) && (p.sparse != 1 || p.auxBase % 256 == 0)
    && (!p.masked || (decide (p.maskWord + p.words ≤ a.num O.MASK_WORDS) && a.maskOk p))

/-- The publish table's checks at arming (R91). An array that ends exactly at 2^40 extends to it and is refused (DEDUCED, log entry
49). LAYER_IDs that do not strictly increase, which R91's list does not name, are refused too (DESIGN CHOICE, log entry 148). -/
def Alesh.pubArmOk (a : Alesh) : Bool :=
  let t := a.pubTable
  let arrays := t.flatMap a.pubArrays
  increasing (t.map (·.layer)) && t.all a.pubEntryOk
    && arrays.all (fun r => decide (r.1 + r.2 < spaceBytes))
    && (arrays.all fun r => ([(a.num O.STATE_BASE, a.slotCount * sliceBytes), (a.num O.META_BASE, a.slotCount * 256 * 64),
      (a.num O.MASK_BASE, 8 * a.num O.MASK_WORDS)].all fun q => !runsMeet r.1 r.2 q.1 q.2))
    && runsApart arrays

/-- An overlay's entry for a layer carries the base entry's MASK_WORD and POSITIONS (R102). -/
def pubSame (base merged : List PubEntry) : Bool :=
  merged.all fun p => base.all fun q => q.layer != p.layer || (q.maskWord == p.maskWord && q.positions == p.positions)

end Sys2Proof.Machine
end

