-- ==== Sys2Proof/Machine/Fabric.lean ====
section
/-! DEFINITION. The job range, pages across tiers, fabric requests, region keys and the coherence domain (R299 to R322). -/
namespace Sys2Proof.Machine

/-! ### Headers (R308) -/

structure FaHdr where
  version : Nat
  op : Nat
  status : Nat
  aop : Nat
  src : Nat
  dst : Nat
  origin : Nat
  tag : Nat
  size : Nat
  offset : Nat
  key : Nat
  operand : Nat
  deriving DecidableEq, Repr

def FaHdr.ofNat (w : Nat) : FaHdr :=
  { version := bf w 252 4, op := bf w 248 4, status := bf w 244 4, aop := bf w 240 4, src := bf w 222 18, dst := bf w 204 18
    origin := bf w 186 18, tag := bf w 176 10, size := bf w 174 2, offset := bf w 128 46, key := bf w 64 64
    operand := bf w 0 64 }
def FaHdr.word (h : FaHdr) : Nat :=
  packBits [(252, 4, h.version), (248, 4, h.op), (244, 4, h.status), (240, 4, h.aop), (222, 18, h.src), (204, 18, h.dst),
    (186, 18, h.origin), (176, 10, h.tag), (174, 2, h.size), (128, 46, h.offset), (64, 64, h.key), (0, 64, h.operand)]

def opLoad : Nat := 0
def opStore : Nat := 1
def opAtomic : Nat := 2
def opBulkRead : Nat := 3
def opBulkWrite : Nat := 4
def opInval : Nat := 5
def opCheckPut : Nat := 6

def stOk : Nat := 0
def stKey : Nat := 1
def stRange : Nat := 2
def stBusErr : Nat := 3
def stRemoved : Nat := 4
def stDomain : Nat := 5
def stFar : Nat := 6

/-- The header of a request of this core; SRC, ORIGIN and TAG are filled when it is sent. -/
def FaHdr.request (op dst offset key operand : Nat) : FaHdr :=
  { version := 1, op := op, status := 0, aop := 0, src := 0, dst := dst, origin := 0, tag := 0, size := 0, offset := offset
    key := key, operand := operand }

/-- The bytes of an atomic. -/
def FaHdr.width (h : FaHdr) : Nat := if h.size = 0 then 4 else 8
/-- The length of the access that a request makes. -/
def FaHdr.length (h : FaHdr) (payload : Bytes) : Nat :=
  if h.op = opLoad then bf h.operand 0 13 else if h.op = opStore then payload.length else if h.op = opAtomic then h.width
  else if h.op = opBulkRead then bf h.operand 0 23 else payload.length

/-- A request is well-formed (R309). -/
def FaHdr.requestOk (h : FaHdr) (vc : Nat) (payload : Bytes) : Bool :=
  let n := h.length payload
  let bulk := h.op == opBulkRead || h.op == opBulkWrite
  h.version == 1 && decide (h.op ≤ 6) && decide (h.status ≤ 6)
    && (if bulk then vc == 5 || vc == 7 else vc == 6)
    && (!(h.op == opLoad || h.op == opStore)
        || (decide (1 ≤ n) && decide (n ≤ 4096) && h.offset / 4096 == (h.offset + n - 1) / 4096))
    && decide (h.size ≤ 1) && decide (h.aop ≤ 8)
    && (h.op != opAtomic || ((h.aop != 8 || h.size == 0)
        && h.offset % h.width == 0 && (h.aop != 2 || payload.length == h.width)))
    && (!bulk || (h.offset % 32 == 0 && n % 32 == 0 && decide (32 ≤ n) && decide (n ≤ 4194304)))
    && (h.op != opCheckPut || payload.length == 64)

/-- The response to a request; OFFSET, AOP and SIZE are echoed (log entry 30). -/
def FaHdr.response (h : FaHdr) (me status operand : Nat) : FaHdr :=
  { h with op := h.op + 8, status := status, src := me, dst := h.src, key := 0, operand := operand }

/-- Send a fabric packet. -/
def Alesh.faSend (a : Alesh) (vc : Nat) (h : FaHdr) (payload : Bytes) : Alesh :=
  a.emit { kind := 1, vc := vc, version := 1, typ := h.op, src := a.node, dst := h.dst, route := 0, memb := 0
           args := h.word, payload := payload }

/-! ### The requester (R311, R321) -/

def Alesh.setReqs (a : Alesh) (l : List FaReq) : Alesh := { a with fabric := { a.fabric with reqs := l } }

/-- The requests that hold one of the 64 contexts of the fabric access unit: those of the Plate, tier, gateway and check paths and
of FA_SUBMIT that have gone out (R321). The directory's own are none of them. -/
def FaReq.inContext (r : FaReq) : Bool :=
  match r.why with
  | .forward _ | .inval _ => false
  | _ => true
def Alesh.contextFree (a : Alesh) : Bool := decide ((a.fabric.reqs.filter fun r => r.inContext && decide (r.tag < 1024)).length < 64)
/-- The lowest free tag at or above the last one used, wrapping; none while all 1,024 are outstanding or resting. -/
def Alesh.freeTag (a : Alesh) : Option Nat :=
  let busy (t : Nat) : Bool := a.fabric.reqs.any (fun r => r.tag == t) || a.fabric.restTags.any (fun r => r.1 == t)
  ((List.range 1024).map fun i => (a.fabric.nextTag + i) % 1024).find? fun t => !busy t

/-- Give a request its tag and send it; one that finds no tag or context free waits under the tag 1,024. -/
def Alesh.faIssueTagged (a : Alesh) (vc : Nat) (h : FaHdr) (payload : Bytes) (why : FaWhy) (tag : Option Nat) : Alesh :=
  let t := tag.getD 1024
  let g : FaHdr := { h with src := a.node, tag := t }
  let r : FaReq := { tag := t, dst := g.dst, vc := vc, header := g.word, payload := payload, why := why
                     due := a.now + a.num O.FABRIC_TIMEOUT_NS, tries := 0, lastSend := a.now, noCache := false }
  let b := a.setReqs (a.fabric.reqs ++ [r])
  if t < 1024 then { b with fabric := { b.fabric with nextTag := (t + 1) % 1024 } }.faSend vc g payload else b
/-- A request of this core's own: it waits for a context and a tag. -/
def Alesh.faIssue (a : Alesh) (vc : Nat) (h : FaHdr) (payload : Bytes) (why : FaWhy) : Alesh :=
  let free := match why with
    | .inval _ => true
    | _ => a.contextFree
  a.faIssueTagged vc { h with origin := a.node } payload why (if free then a.freeTag else none)
/-- A forwarded request keeps the requester's tag, by which the home knows a repeat (R312, R317). -/
def Alesh.faForward (a : Alesh) (h : FaHdr) (payload : Bytes) (why : FaWhy) : Alesh :=
  a.faIssueTagged 6 h payload why (some h.tag)

/-- A request that waited for a context or a tag goes out once both are free. -/
def Alesh.faAdmit (a : Alesh) : Alesh :=
  match a.fabric.reqs.find? (fun r => r.tag == 1024 && (!r.inContext || a.contextFree)), a.freeTag with
  | some r, some t =>
    let h : FaHdr := { FaHdr.ofNat r.header with tag := t }
    let q : FaReq := { r with tag := t, header := h.word, due := a.now + a.num O.FABRIC_TIMEOUT_NS, lastSend := a.now }
    let b := a.setReqs ((a.fabric.reqs.erase r) ++ [q])
    { b with fabric := { b.fabric with nextTag := (t + 1) % 1024 } }.faSend r.vc h r.payload
  | _, _ => a

/-- The outstanding request that a response answers (R311); a forwarded one is told apart by its ORIGIN. -/
def Alesh.faMatch (a : Alesh) (h : FaHdr) : Option FaReq :=
  a.fabric.reqs.find? fun r =>
    let q := FaHdr.ofNat r.header
    r.dst == h.src && r.tag == h.tag && q.origin == h.origin && q.op + 8 == h.op

/-- Resend requests of a kind to a new destination, with their tags (R317). -/
def Alesh.faRedirect (a : Alesh) (p : FaReq → Bool) (dst : Nat) : Alesh :=
  let moved := (a.fabric.reqs.filter p).map fun r =>
    ({ r with dst := dst, header := { FaHdr.ofNat r.header with dst := dst }.word, lastSend := a.now
              due := a.now + a.num O.FABRIC_TIMEOUT_NS } : FaReq)
  (moved.filter fun r => decide (r.tag < 1024)).foldl (fun (b : Alesh) (r : FaReq) => (b.faSend r.vc (FaHdr.ofNat r.header) r.payload).wrap O.FA_RESEND_COUNT)
    (a.setReqs ((a.fabric.reqs.filter fun r => !p r) ++ moved))

/-! ### Segments and regions (R299 to R301, R313) -/

structure Segment where
  base : Nat
  length : Nat
  homeTier : Nat
  migrate : Bool
  tenant : Nat
  homeBase : Nat
  mapIndex : Nat
  version : Nat
  deriving DecidableEq, Repr

def Segment.ofWord (w : Nat) : Segment :=
  { base := bf w 210 46, length := bf w 164 46, homeTier := bf w 162 2, migrate := bf w 161 1 == 1, tenant := bf w 156 4
    homeBase := bf w 104 48, mapIndex := bf w 72 32, version := bf w 68 4 }
def Alesh.segs (a : Alesh) : List Segment :=
  (List.range (a.num O.SEG_COUNT)).map fun i => Segment.ofWord (leAt (a.dom O.SEG_TABLE) (32 * i) 32)
/-- The segment of a job-range byte. -/
def Alesh.segOf (a : Alesh) (off : Nat) : Option (Nat × Segment) :=
  (a.segs.zipIdx.find? fun p => decide (p.1.base ≤ off) && decide (off < p.1.base + p.1.length)).map fun p => (p.2, p.1)
/-! ### Work units (R458) -/

/-- The job tenant: TENANT of SEG_TABLE entry 0, or tenant 0. -/
def Alesh.jobTenant (a : Alesh) : Nat := (a.segs.head?.map fun s => s.tenant).getD 0
/-- Units of work for a tenant, in RUNNING and DEGRADED; the accumulator saturates. -/
def Alesh.addWork (a : Alesh) (tenant n : Nat) : Alesh :=
  if a.inJob then { a with work := { a.work with acc := modAt a.work.acc tenant fun x => satAdd 32 x n } } else a
/-- The tenant of a job-range byte that a fabric request of another core targets. -/
def Alesh.tenantOf (a : Alesh) (off : Nat) : Nat := ((a.segOf off).map fun s => s.2.tenant).getD a.jobTenant
/-- The tenant of a packet's flits, sent or received: they serve a fabric request where this core is its target. -/
def Alesh.flitTenant (a : Alesh) (kind args : Nat) (sent : Bool) : Nat :=
  let h := FaHdr.ofNat args
  if kind = 1 ∧ (h.op.testBit 3 = sent) then a.tenantOf h.offset else a.jobTenant

/-- Every byte of a run lies in a segment; fuel bounds the number of segments crossed. -/
def Alesh.mapped (a : Alesh) : Nat → Nat → Nat → Bool
  | 0, _, _ => false
  | f + 1, off, n =>
    if n = 0 then true
    else match a.segOf off with
      | none => false
      | some (_, s) => let k := min n (s.base + s.length - off); a.mapped f (off + k) (n - k)

structure Region where
  base : Nat
  length : Nat
  key : Nat
  coh : Bool
  atomic : Bool
  write : Bool
  read : Bool
  version : Nat
  srcNode : Nat
  anySrc : Bool
  deriving DecidableEq, Repr

def Region.ofWord (w : Nat) : Region :=
  { base := bf w 210 46, length := bf w 164 46, key := bf w 100 64, coh := bf w 99 1 == 1, atomic := bf w 98 1 == 1
    write := bf w 97 1 == 1, read := bf w 96 1 == 1, version := bf w 92 4, srcNode := bf w 74 18, anySrc := bf w 73 1 == 1 }
def regionsOf (tab : Bytes) : List Region := (List.range 256).map fun i => Region.ofWord (leAt tab (32 * i) 32)
def Alesh.regions (a : Alesh) : List Region := regionsOf (a.dom O.REGION_TABLE)
/-- The enabled region that wholly contains an access. -/
def Alesh.regionOf (a : Alesh) (off n : Nat) : Option Region :=
  a.regions.find? fun r => r.key != 0 && decide (r.base ≤ off) && decide (off + n ≤ r.base + r.length)

/-- No two enabled regions overlap, and no enabled region holds a reserved encoding (R315). -/
def regionsApart : List Region → Bool
  | [] => true
  | r :: rs => (r.key == 0 || rs.all fun q => q.key == 0 || !runsMeet r.base r.length q.base q.length) && regionsApart rs
def regionsOk (l : List Region) : Bool :=
  regionsApart l && l.all fun r => r.key == 0 || (r.version == 1 && r.base % 4096 == 0 && r.length % 4096 == 0)

/-- REGION_ENTRY (R315): entry number in byte 0, then the entry. -/
def regionEntry (via : Via) (v : Bytes) (a : Alesh) : Res × Alesh :=
  require (a.isKeeper via) .keeperOnly a (require (v.length == 33) .type a
    (let t := overlay (a.dom O.REGION_TABLE) (32 * leAt v 0 1) ((keptBytes O.REGION_ENTRY v).drop 1)
     require (regionsOk (regionsOf t)) .range a
       (.ok, ((a.setDom O.REGION_TABLE t).setDom O.REGION_ENTRY (keptBytes O.REGION_ENTRY v)).ctrl fProtectionChange)))

def execRegionEntryWrite (via : Via) (value : Bytes) (s : State) : Host.Outcome State Fault Refusal :=
  command via O.REGION_ENTRY true (regionEntry via value) s

/-! ### The cluster (R12, R316) -/

def Alesh.cluster (a : Alesh) : List Nat :=
  let b := a.dom O.CLUSTER_NODES
  (List.range (b.length / 4)).map fun i => leAt b (4 * i) 4
def Alesh.inCluster (a : Alesh) (n : Nat) : Bool := a.cluster.contains n
/-- The home of a coherent address (log entry 28). -/
def Alesh.cohHome (a : Alesh) (key off : Nat) : Option Nat :=
  match a.regionOf off 1 with
  | some r => if r.coh && r.key == key then some a.node else (Config.cohHome key off).filter a.inCluster
  | none => (Config.cohHome key off).filter a.inCluster

/-- The tests of R314, in order; 0 where all pass. -/
def Alesh.faTest (a : Alesh) (h : FaHdr) (n : Nat) : Nat :=
  let gone (x : Nat) : Bool := (a.mapEntry? x).isSome && !a.isMember x
  if gone h.src || gone h.origin then stRemoved
  else if h.op = opInval ∨ h.op = opCheckPut then (if a.inCluster h.src then stOk else stDomain)
  else if decide (a.num O.JOB_RANGE_BYTES < h.offset + n) || !a.mapped 257 h.offset n then stRange
  else match a.regionOf h.offset n with
    | none => stKey
    | some r =>
      let allowed := if h.op = opLoad ∨ h.op = opBulkRead then r.read else if h.op = opAtomic then r.atomic else r.write
      if r.key != h.key || !(r.anySrc || r.srcNode == h.src) || !allowed then stKey
      else if r.coh && !(h.src == a.fabric.holder && a.inCluster h.origin) then stDomain
      else stOk

/-- A refused key is counted by the core that refuses it (R314). -/
def Alesh.noteKey (a : Alesh) (status : Nat) : Alesh := if status = stKey then a.count O.KEY_FAIL_COUNT else a
/-- Answer a request. -/
def Alesh.faAnswer (a : Alesh) (req : Pkt) (status operand : Nat) (payload : Bytes) : Alesh :=
  a.faSend req.vc ((FaHdr.ofNat req.args).response a.node status operand) payload

/-! ### Pages across the tiers (R302 to R306) -/

/-- The key of a page in the tier manager's list: its page-map entry, or a number above all of them where the segment
does not migrate. -/
def Segment.pageKey (s : Segment) (p : Nat) : Nat := if s.migrate then s.mapIndex + p else 2 ^ 48 + s.base / pageBytes + p

def Alesh.tierPage? (a : Alesh) (key : Nat) : Option TierPage := a.fabric.pages.find? fun t => t.entry == key
/-- The little-endian entry of R302. -/
def TierPage.word (t : TierPage) : Nat :=
  packBits [(62, 2, t.tier), (61, 1, if t.dirty then 1 else 0), (60, 1, if t.busy then 1 else 0),
    (59, 1, if t.ref then 1 else 0), (0, 48, t.frame)]
/-- Write a page-map entry where the page has one. -/
def Alesh.putMap (a : Alesh) (key w : Nat) : Alesh :=
  if key < 2 ^ 48 then a.wrLe (a.num O.TIER_MAP_BASE + 8 * key) 8 w else a
def Alesh.setTier (a : Alesh) (t : TierPage) : Alesh :=
  { a with fabric := { a.fabric with pages := (a.fabric.pages.filter fun (x : TierPage) => x.entry != t.entry) ++ [t] } }.putMap t.entry t.word
/-- The entry of a page at its home. -/
def Segment.homeWord (s : Segment) (p : Nat) : Nat := packBits [(62, 2, s.homeTier), (0, 48, s.homeBase + p * pageBytes)]
def Alesh.segAt (a : Alesh) (t : TierPage) : Segment := (a.segs[t.seg]?).getD (Segment.ofWord 0)
/-- REF of a page that is served at its home (R302). -/
def Alesh.touchHome (a : Alesh) (s : Segment) (p : Nat) : Alesh :=
  if s.migrate then a.putMap (s.pageKey p) (s.homeWord p + 2 ^ 59) else a
/-- A page goes back to its home: it leaves the tier manager's list. -/
def Alesh.sendHome (a : Alesh) (t : TierPage) : Alesh :=
  { a with fabric := { a.fabric with pages := a.fabric.pages.filter fun (x : TierPage) => x.entry != t.entry } }.putMap t.entry
    ((a.segAt t).homeWord t.page)

/-- Every entry at its home (arming). -/
def Alesh.homeMap (a : Alesh) : Alesh :=
  (a.segs.filter (·.migrate)).foldl (fun (b : Alesh) (s : Segment) =>
    (List.range (s.length / pageBytes)).foldl (fun (c : Alesh) (p : Nat) => c.putMap (s.mapIndex + p) (s.homeWord p)) b)
    { a with fabric := { a.fabric with pages := [], jobs := [], flushing := false } }

def Alesh.poolBase (a : Alesh) (tier : Nat) : Nat := a.num (if tier = 0 then O.TIER0_POOL_BASE else O.TIER1_POOL_BASE)
def Alesh.poolPages (a : Alesh) (tier : Nat) : Nat := a.num (if tier = 0 then O.TIER0_POOL_PAGES else O.TIER1_POOL_PAGES)
/-- The frames in use in a pool: address and page. -/
def TierPage.frameIn (t : TierPage) (seg : Segment) (tier : Nat) : Option Nat :=
  if t.busy && t.move == 0 then (if t.toTier = tier then t.toFrame else none)
  else if t.tier = tier && t.tier != seg.homeTier then some t.frame else none
def Alesh.framesIn (a : Alesh) (tier : Nat) : List (Nat × TierPage) :=
  a.fabric.pages.filterMap fun t => (t.frameIn (a.segAt t) tier).map fun f => (f, t)
def Alesh.freeFrame (a : Alesh) (tier : Nat) : Option Nat :=
  ((List.range (a.poolPages tier)).map fun i => a.poolBase tier + i * pageBytes).find? fun f =>
    !(a.framesIn tier).any fun x => x.1 == f
/-- Frames that a tenant holds in a tier, promotions that still wait for one included. -/
def Alesh.tenantFrames (a : Alesh) (tenant tier : Nat) : List (Nat × TierPage) :=
  (a.framesIn tier).filter fun x => (a.segAt x.2).tenant == tenant
def Alesh.tenantHeld (a : Alesh) (tenant tier : Nat) : Nat :=
  (a.tenantFrames tenant tier).length
    + (a.fabric.pages.filter fun t => (a.segAt t).tenant == tenant && t.busy && t.move == 0 && t.toTier == tier && t.toFrame.isNone).length
def Alesh.quota (a : Alesh) (tenant tier : Nat) : Nat := leAt (a.dom O.TIER_QUOTA) (12 * tenant + 4 * tier) 4

/-- The victim that the eviction clock finds, with the frames whose REF it clears on the way (R304). -/
def clockScan : List (Nat × TierPage) → List (Nat × TierPage) × Option (Nat × TierPage)
  | [] => ([], none)
  | x :: xs =>
    if x.2.busy then clockScan xs
    else if x.2.ref then let r := clockScan xs; (x :: r.1, r.2)
    else ([], some x)

/-- A local run touches a page with an uncorrectable error. -/
def Alesh.tierBad (a : Alesh) (tier addr : Nat) : Bool :=
  (if tier = 0 then a.errs.bad else a.errs.bad1).contains (addr / pageBytes)
/-- Write a page back to its home in Tier 2, where it is dirty; a frame with an uncorrectable error is not read (R314, R414). -/
def Alesh.writeBack (a : Alesh) (t : TierPage) : Alesh :=
  let s := a.segAt t
  if s.homeTier = 2 && !a.tierBad t.tier t.frame then
    a.faIssue 7 (FaHdr.request opBulkWrite (a.num O.GATEWAY_NODE) (s.homeBase + t.page * pageBytes) (a.num O.GATEWAY_KEY) 0)
      (if t.tier = 0 then a.rd t.frame pageBytes else a.mem1.read t.frame pageBytes) (.tier t.entry)
  else a

/-- Evict one page of a tenant in a tier: at once where it is clean, else after its write-back. -/
def Alesh.evictOne (a : Alesh) (tenant tier : Nat) : Alesh × Bool :=
  let fs := sortBy (·.1) (a.tenantFrames tenant tier)
  let hand := lookupD 0 a.fabric.hands (tenant * 4 + tier)
  let ring : List (Nat × TierPage) := (fs.filter fun x => decide (hand ≤ x.1)) ++ fs.filter fun x => decide (x.1 < hand)
  let first := clockScan ring
  let cleared : List TierPage := first.1.map fun (x : Nat × TierPage) => { x.2 with ref := false }
  let found := match first.2 with
    | some x => some x
    | none => ((ring.filter fun (x : Nat × TierPage) => !x.2.busy).head?).map fun (x : Nat × TierPage) => (x.1, ({ x.2 with ref := false } : TierPage))
  let b := cleared.foldl (fun (c : Alesh) (t : TierPage) => c.setTier t) a
  match found with
  | none => (a, false)
  | some (f, t) =>
    let c := { b with fabric := { b.fabric with hands := assign b.fabric.hands (tenant * 4 + tier) f } }
    if t.dirty then
      let u : TierPage := { t with busy := true, move := 1 }
      ((c.setTier u).writeBack u, true)
    else (((c.sendHome t).wrap O.EVICT_COUNT), true)

/-- The target tiers of a promotion, in order (R303). -/
def promoteTo (home : Nat) : List Nat := if home = 2 then [0, 1] else if home = 1 then [0] else []

/-- A promotion whose frame is known starts to copy. -/
def Alesh.startCopy (a : Alesh) (t : TierPage) : Alesh :=
  let s := a.segAt t
  if s.homeTier = 2 then
    a.faIssue 7 (FaHdr.request opBulkRead (a.num O.GATEWAY_NODE) (s.homeBase + t.page * pageBytes) (a.num O.GATEWAY_KEY) pageBytes)
      [] (.tier t.entry)
  else a

/-- A promotion into a tier may start: below quota with a free frame, or after an eviction of the tenant's own. A page that is
written back first frees its frame only then, and the promotion waits for it (R304). -/
def Alesh.tryPromote (a : Alesh) (s : Segment) (si p tier : Nat) : Option Alesh :=
  let under := decide (a.tenantHeld s.tenant tier < a.quota s.tenant tier)
  let t : TierPage := { entry := s.pageKey p, seg := si, page := p, tier := s.homeTier, frame := s.homeBase + p * pageBytes
                        dirty := false, busy := true, ref := true, move := 0, toTier := tier, toFrame := none, waiting := [] }
  let go (b : Alesh) : Alesh :=
    match (if decide (b.tenantHeld s.tenant tier < b.quota s.tenant tier) then b.freeFrame tier else none) with
    | some f => let u : TierPage := { t with toFrame := some f }; (b.setTier u).startCopy u
    | none => b.setTier t
  if a.quota s.tenant tier = 0 then none
  else if under && (a.freeFrame tier).isSome then some (go a)
  else if (a.tenantFrames s.tenant tier).isEmpty then none
  else
    let r := a.evictOne s.tenant tier
    if r.2 then some (go r.1) else none

/-- Start a promotion of a page at its home, to the first tier that takes it. -/
def Alesh.promote (a : Alesh) (s : Segment) (si p : Nat) : Option Alesh :=
  if !s.migrate then none else (promoteTo s.homeTier).findSome? fun x => a.tryPromote s si p x

/-! ### Performing a request (R303, R310, R314) -/

/-- The new value of an atomic (R310). -/
def atomicNew (aop bytes old x cmp : Nat) : Nat :=
  let m := 2 ^ (8 * bytes)
  match aop with
  | 0 => (old + x) % m
  | 1 => x
  | 2 => if old = cmp then x else old
  | 3 => old &&& x
  | 4 => old ||| x
  | 5 => old ^^^ x
  | 6 => max old x
  | 7 => min old x
  | _ => (Fp.add (BitVec.ofNat 32 old) (BitVec.ofNat 32 x)).toNat

/-- The bytes that a request leaves in place of `old` at one run, and the data that it returns. -/
def faApply (h : FaHdr) (payload : Bytes) (off : Nat) (old : Bytes) : Bytes × Bytes :=
  if h.op = opStore ∨ h.op = opBulkWrite then (slice payload (off - h.offset) old.length, [])
  else if h.op = opAtomic then
    (leBytes h.width (atomicNew h.aop h.width (leNat old) (bf h.operand 0 (8 * h.width)) (leNat payload)), old)
  else (old, old)
def FaHdr.writes (h : FaHdr) : Bool := h.op == opStore || h.op == opBulkWrite || h.op == opAtomic
/-- A run that rewrites a page whole reads nothing of it, and leaves no error in it. -/
def FaHdr.rewrites (h : FaHdr) (n : Nat) : Bool := h.op == opBulkWrite && n == pageBytes
def Alesh.healedBy (a : Alesh) (n addr : Nat) : Alesh := if n = pageBytes then a.clearBad (addr / pageBytes) else a
/-- Write a run in a tier. -/
def Alesh.putRun (a : Alesh) (tier addr : Nat) (b : Bytes) : Alesh :=
  if tier = 0 then (a.healedBy b.length addr).wr addr b
  else
    let c := if b.length = pageBytes then a.clearBad1 (addr / pageBytes) else a
    { c with mem1 := c.mem1.write addr b }

/-- Runs of an access by page of 64 KiB. -/
def faRuns (off n : Nat) : List (Nat × Nat) := pageRuns (n / pageBytes + 2) off n

def Alesh.job? (a : Alesh) (id : Nat) : Option FaJob := a.fabric.jobs.find? fun j => j.id == id
def Alesh.setJob (a : Alesh) (j : FaJob) : Alesh :=
  { a with fabric := { a.fabric with jobs := modWhere (fun x => x.id == j.id) (fun _ => j) a.fabric.jobs } }
def Alesh.dropJob (a : Alesh) (id : Nat) : Alesh :=
  { a with fabric := { a.fabric with jobs := a.fabric.jobs.filter fun x => x.id != id } }

/-- Keep the response to an atomic for repeats; a full table gives up its oldest entry (R312). -/
def Alesh.keepAtomic (a : Alesh) (h : FaHdr) (resp : Nat) : Alesh :=
  let full := decide (1024 ≤ a.fabric.atomics.length)
  let b := if full then a.count O.FA_DUP_EVICT_COUNT else a
  let l := if full then a.fabric.atomics.drop 1 else a.fabric.atomics
  { b with fabric := { b.fabric with atomics := l ++ [(h.origin, h.tag, resp, a.now + 4 * a.num O.FABRIC_TIMEOUT_NS)] } }

/-- What the end of a job means: its answer, or the end of one line of a directory operation. -/
inductive FaEnd where
  | none
  | line (op status : Nat) (operand : Nat) (data : Bytes)
  deriving DecidableEq, Repr

/-- Finish a job. -/
def Alesh.faFinish (a : Alesh) (j : FaJob) (status : Nat) : Alesh × FaEnd :=
  let h := FaHdr.ofNat j.req.args
  let b := a.dropJob j.id
  let operand := if h.op = opAtomic && status == stOk then leNat j.data else 0
  let data := if (h.op = opLoad ∨ h.op = opBulkRead) ∧ status = stOk then j.data else []
  let c := if h.op = opAtomic && status == stOk then b.keepAtomic h (h.response a.node status operand).word else b
  match j.forOp with
  | some o => (c, .line o status operand data)
  | none => (c.faAnswer j.req status operand data, .none)

/-- Perform the runs of a job until it waits or ends; fuel bounds the runs. -/
def Alesh.runJob (id : Nat) : Nat → Alesh → Alesh × FaEnd
  | 0, a => (a, .none)
  | fuel + 1, a =>
    match a.job? id with
    | none => (a, .none)
    | some j =>
      match j.left with
      | [] => a.faFinish j stOk
      | (off, n) :: rest =>
        match a.segOf off with
        | none => a.faFinish j stRange
        | some (si, s) =>
          let h := FaHdr.ofNat j.req.args
          let p := (off - s.base) / pageBytes
          let within := (off - s.base) % pageBytes
          let key := s.pageKey p
          let page := a.tierPage? key
          let wait (b : Alesh) : Alesh :=
            match b.tierPage? key with
            | some t =>
              let u : TierPage := { t with waiting := t.waiting ++ [id] }
              { b with fabric := { b.fabric with pages := modWhere (fun (x : TierPage) => x.entry == key) (fun _ => u) b.fabric.pages } }
            | none => b
          match page with
          | some t =>
            if t.busy then (wait a, .none)
            else
              let addr := t.frame + within
              if a.tierBad t.tier addr && !h.rewrites n then (a.busError addr).faFinish j stBusErr
              else
                let old := if t.tier = 0 then a.rd addr n else a.mem1.read addr n
                let r := faApply h j.req.payload off old
                let b := if h.writes then a.putRun t.tier addr r.1 else a
                let c := b.setTier { t with ref := true, dirty := t.dirty || h.writes }
                (c.setJob { j with left := rest, data := j.data ++ r.2 }).runJob id fuel
          | none =>
            let addr := s.homeBase + (off - s.base)
            -- a home page with an uncorrectable error is not promoted (R314, R414)
            let bad := s.homeTier != 2 && a.tierBad s.homeTier addr
            match if bad then none else a.promote s si p with
            | some b => (wait b, .none)
            | none =>
              if s.homeTier = 2 then
                -- in place through the enclosing 32-byte granules
                let lo := addr / 32 * 32
                let len := roundUp (addr + n) 32 - lo
                let gw := a.num O.GATEWAY_NODE
                if h.op = opBulkWrite then
                  ((a.touchHome s p).faIssue 7 (FaHdr.request opBulkWrite gw lo (a.num O.GATEWAY_KEY) 0) (slice j.req.payload (off - h.offset) n)
                    (.job id), .none)
                else
                  let hold (b : Alesh) : Alesh :=
                    if h.writes then b.setTier { entry := key, seg := si, page := p, tier := 2, frame := s.homeBase + p * pageBytes
                                                 dirty := false, busy := true, ref := true, move := 3, toTier := 2
                                                 toFrame := none, waiting := [] } else b.touchHome s p
                  ((hold a).faIssue 7 (FaHdr.request opBulkRead gw lo (a.num O.GATEWAY_KEY) len) [] (.job id), .none)
              else if bad && !h.rewrites n then (a.busError addr).faFinish j stBusErr
              else
                let old := if s.homeTier = 0 then a.rd addr n else a.mem1.read addr n
                let r := faApply h j.req.payload off old
                let b := (if h.writes then a.putRun s.homeTier addr r.1 else a).touchHome s p
                (b.setJob { j with left := rest, data := j.data ++ r.2 }).runJob id fuel

/-- Open a job for an accepted request. -/
def Alesh.openJob (a : Alesh) (req : Pkt) (n : Nat) (forOp : Option Nat) : Alesh × FaEnd :=
  let h := FaHdr.ofNat req.args
  let id := a.fabric.nextJob
  let j : FaJob := { id := id, req := req, left := faRuns h.offset n, data := [], forOp := forOp }
  let b := { a with fabric := { a.fabric with jobs := a.fabric.jobs ++ [j], nextJob := id + 1 } }
  b.runJob id (j.left.length + 1)

/-- The gateway's answer for the next run of a job (R303): the read of its granules, or their write. -/
def Alesh.jobResponse (a : Alesh) (id : Nat) (r : FaReq) (status : Nat) (payload : Bytes) : Alesh × FaEnd :=
  match a.job? id with
  | none => (a, .none)
  | some j =>
    match j.left with
    | [] => a.faFinish j stOk
    | (off, n) :: rest =>
      let h := FaHdr.ofNat j.req.args
      let key := ((a.segOf off).map fun x => x.2.pageKey ((off - x.2.base) / pageBytes)).getD 0
      if status != stOk then
        a.faFinish j stBusErr
      else
        let q := FaHdr.ofNat r.header
        let home := ((a.segOf off).map fun x => x.2.homeBase + (off - x.2.base)).getD 0
        if q.op = opBulkRead then
          let old := slice payload (home - q.offset) n
          let x := faApply h j.req.payload off old
          if h.writes then
            ((a.setJob { j with data := j.data ++ x.2 }).faIssue 7
              (FaHdr.request opBulkWrite (a.num O.GATEWAY_NODE) q.offset (a.num O.GATEWAY_KEY) 0)
              (overlay payload (home - q.offset) x.1) (.job id), .none)
          else (a.setJob { j with left := rest, data := j.data ++ x.2 }).runJob id (rest.length + 1)
        else
          let b := if h.op = opBulkWrite then a else
            { a with fabric := { a.fabric with pages := modWhere (fun t => t.entry == key) (fun t => { t with dirty := true }) a.fabric.pages } }
          (b.setJob { j with left := rest }).runJob id (rest.length + 1)

/-! ### The directory (R316) -/

def lineKey (home line : Nat) : Nat := home * 2 ^ 46 + line
def Alesh.setOp (a : Alesh) (o : LineOp) : Alesh :=
  { a with fabric := { a.fabric with ops := modWhere (fun x => x.num == o.num) (fun _ => o) a.fabric.ops } }
def Alesh.op? (a : Alesh) (n : Nat) : Option LineOp := a.fabric.ops.find? fun o => o.num == n

/-- A line leaves this core's cache, and a fill of it that is pending is not cached (R316). -/
def Alesh.dropLine (a : Alesh) (key : Nat) : Alesh :=
  let off := key % 2 ^ 46
  let meets (r : FaReq) : Bool := let q := FaHdr.ofNat r.header
    r.why == FaWhy.submit && q.op == opLoad && decide (q.offset ≤ off) && decide (off < q.offset + bf q.operand 0 13)
  let b := a.setReqs (modWhere meets (fun r => { r with noCache := true }) a.fabric.reqs)
  { b with fabric := { b.fabric with lines := b.fabric.lines.filter fun l => l.1 != key } }
/-- INVAL to a sharer; the core's own copy goes at once. -/
def Alesh.sendInval (a : Alesh) (key node : Nat) (op : Option Nat) : Alesh :=
  if node = a.node then a.dropLine key
  else (a.wrap O.COH_INVAL_COUNT).faIssue 6 (FaHdr.request opInval node (key % 2 ^ 46) 0 (key / 2 ^ 46)) [] (.inval op)

/-- Register a sharer of a line; a full directory first invalidates the line registered longest ago. -/
def Alesh.share (a : Alesh) (key node : Nat) (op : Nat) : Alesh × List Nat :=
  match lookup? a.fabric.directory key with
  | some l => ({ a with fabric := { a.fabric with directory := assign a.fabric.directory key (insertNat l node) } }, [])
  | none =>
    if a.fabric.directory.length < 65536 then
      ({ a with fabric := { a.fabric with directory := a.fabric.directory ++ [(key, [node])] } }, [])
    else match a.fabric.directory with
      | [] => (a, [])
      | old :: rest =>
        let b := old.2.foldl (fun (c : Alesh) (n : Nat) => c.sendInval old.1 n (some op)) a
        ({ b with fabric := { b.fabric with directory := rest ++ [(key, [node])] } }, old.2.filter (· != a.node))

/-- The part of a request that falls in one line. -/
def linePart (h : FaHdr) (payload : Bytes) (line : Nat) : FaHdr × Bytes :=
  if h.op = opLoad then ({ h with offset := line, operand := 64 }, [])
  else if h.op = opStore then
    let lo := max line h.offset
    let hi := min (line + 64) (h.offset + payload.length)
    ({ h with offset := lo }, slice payload (lo - h.offset) (hi - lo))
  else (h, payload)

/-- Forward the line of an operation to its home, which may be this core. -/
def Alesh.forwardLine (a : Alesh) (o : LineOp) : Alesh × FaEnd :=
  let part := linePart (FaHdr.ofNat o.req.args) o.req.payload o.line
  let h : FaHdr := { part.1 with src := a.node, dst := o.home }
  let b := a.setOp { o with sent := true }
  if o.home = a.node then
    let n := h.length part.2
    let st := b.faTest h n
    if st != stOk then (b.noteKey st, .line o.num st 0 [])
    else
      match b.fabric.atomics.find? fun x => h.op == opAtomic && x.1 == h.origin && x.2.1 == h.tag with
      | some x => (b, .line o.num stOk (FaHdr.ofNat x.2.2.1).operand [])
      | none => b.openJob { o.req with args := h.word, payload := part.2 } n (some o.num)
  else (b.faForward h part.2 (.forward o.num), .none)

/-- Start an operation whose line no earlier operation holds. -/
def Alesh.startOp (a : Alesh) (o : LineOp) : Alesh × FaEnd :=
  let h := FaHdr.ofNat o.req.args
  let key := lineKey o.home o.line
  if o.started || a.fabric.ops.any fun x => decide (x.num < o.num) && x.home == o.home && x.line == o.line then (a, .none)
  else if h.op = opLoad then
    let r := a.share key h.origin o.num
    let p : LineOp := { o with started := true, acks := r.2 }
    if r.2.isEmpty then (r.1.setOp p).forwardLine p else (r.1.setOp p, .none)
  else
    let sharers := lookupD [] a.fabric.directory key
    let b := sharers.foldl (fun (c : Alesh) (n : Nat) => c.sendInval key n (some o.num)) a
    let p : LineOp := { o with started := true, acks := sharers.filter (· != a.node) }
    let c := b.setOp p
    if p.acks.isEmpty then
      ({ c with fabric := { c.fabric with directory := c.fabric.directory.filter fun x => x.1 != key } }).forwardLine p
    else (c, .none)

/-- A line of an operation is done: the next line, or the answer to the requester. -/
def Alesh.lineDone (a : Alesh) (num status operand : Nat) (data : Bytes) : Alesh :=
  match a.op? num with
  | none => a
  | some o =>
    let h := FaHdr.ofNat o.req.args
    let stop := h.offset + (h.length o.req.payload)
    let all := o.data ++ data
    if status == stOk && decide (o.line + 64 < stop) && h.op != opAtomic then
      a.setOp { o with line := o.line + 64, data := all, started := false, sent := false }
    else
      let b := { a with fabric := { a.fabric with ops := a.fabric.ops.filter fun x => x.num != num } }
      b.faAnswer o.req status operand (if status = stOk && h.op == opLoad then slice all (h.offset % 64) (h.length []) else [])

/-- Start what can start, until nothing changes; fuel bounds the lines done. -/
def Alesh.settleOps : Nat → Alesh × FaEnd → Alesh
  | 0, x => x.1
  | f + 1, x =>
    match x.2 with
    | .line n st v d => settleOps f (x.1.lineDone n st v d, .none)
    | .none =>
      match x.1.fabric.ops.find? fun o => !o.started &&
          !(x.1.fabric.ops.any fun y => decide (y.num < o.num) && y.home == o.home && y.line == o.line) with
      | some o => settleOps f (x.1.startOp o)
      | none => x.1
/-- Twice the lines that the operations may still have, and more. -/
def Alesh.settleFuel (a : Alesh) : Nat :=
  a.fabric.ops.foldl (fun n (o : LineOp) => n + 2 * ((FaHdr.ofNat o.req.args).length o.req.payload / 64 + 3)) 2
def Alesh.settle (x : Alesh × FaEnd) : Alesh := Alesh.settleOps x.1.settleFuel x

/-- The directory takes a request. -/
def Alesh.openOp (a : Alesh) (req : Pkt) (home : Nat) : Alesh :=
  let h := FaHdr.ofNat req.args
  let repeated := a.fabric.ops.any fun o => let q := FaHdr.ofNat o.req.args; q.origin == h.origin && q.tag == h.tag && q.op == h.op
  if repeated then a
  else
    let o : LineOp := { num := a.fabric.nextOp, home := home, line := h.offset / 64 * 64, req := req, acks := [], started := false
                        sent := false, data := [] }
    Alesh.settle ({ a with fabric := { a.fabric with ops := a.fabric.ops ++ [o], nextOp := o.num + 1 } }, .none)

/-- An INVAL of an operation, or of an entry that is replaced, has been answered or has failed. -/
def Alesh.invalDone (a : Alesh) (op : Option Nat) (node : Nat) : Alesh :=
  match op.bind a.op? with
  | none => a
  | some o =>
    if !o.acks.contains node then a
    else
      let p : LineOp := { o with acks := o.acks.erase node }
      let b := a.setOp p
      if p.acks.isEmpty && !p.sent then
        let c := if (FaHdr.ofNat p.req.args).op = opLoad then b
          else { b with fabric := { b.fabric with directory := b.fabric.directory.filter fun x => x.1 != lineKey p.home p.line } }
        Alesh.settle (c.forwardLine p)
      else b

/-- This core adopts a directory holder (R317). -/
def Alesh.newDirectory (a : Alesh) (holder : Nat) : Alesh :=
  let old := a.fabric.holder
  let coh (r : FaReq) : Bool :=
    let h := FaHdr.ofNat r.header
    r.dst == old && r.why == FaWhy.submit && (a.cohHome h.key h.offset).isSome && decide (h.op ≤ 2)
  let b := (a.setReqs (a.fabric.reqs.map fun r => { r with noCache := true })).setNum O.DIRECTORY_HOLDER holder
  { b with fabric := { b.fabric with lines := [], directory := [], ops := [], holder := holder } }.faRedirect coh holder

/-! ### The target's commands (R309, R312, R314 to R316) -/

/-- A fabric packet reaches this core in a state in which it answers. -/
def Alesh.faTarget (now op : Nat) (m : Pkt) (a0 : Alesh) : Alesh :=
  let a := a0.at now
  let h : FaHdr := { FaHdr.ofNat m.args with op := op }
  let req : Pkt := { m with args := h.word }
  if !a.idleToJob then a
  else if !h.requestOk m.vc m.payload || h.dst != a.node then a.count O.FA_MALFORMED_COUNT
  else
    let a := a.hear h.src
    let n := h.length m.payload
    let atDirectory := decide (op ≤ 2) && a.fabric.holder == a.node && h.src == h.origin && a.inCluster h.src && !a.memb.removed.contains h.src
    match (if atDirectory then a.cohHome h.key h.offset else none) with
    | some home => a.openOp req home
    | none =>
      let known := a.fabric.atomics.find? fun x => op == opAtomic && x.1 == h.origin && x.2.1 == h.tag
      let running := a.fabric.jobs.any fun j => let q := FaHdr.ofNat j.req.args
        op == opAtomic && q.op == opAtomic && q.origin == h.origin && q.tag == h.tag
      let st := a.faTest h n
      if st != stOk then (a.noteKey st).faAnswer req st 0 []
      else match known with
        | some x => a.faSend m.vc { FaHdr.ofNat x.2.2.1 with dst := h.src } []
        | none => if running then a else Alesh.settle (a.openJob req n none)

def execFabricLoadRx (now : Nat) (m : Pkt) (s : State) : Host.Outcome State Fault Refusal := onCore (Alesh.faTarget now opLoad m) s
def execFabricStoreRx (now : Nat) (m : Pkt) (s : State) : Host.Outcome State Fault Refusal := onCore (Alesh.faTarget now opStore m) s
def execFabricAtomicRx (now : Nat) (m : Pkt) (s : State) : Host.Outcome State Fault Refusal :=
  onCore (Alesh.faTarget now opAtomic m) s
def execBulkReadRx (now : Nat) (m : Pkt) (s : State) : Host.Outcome State Fault Refusal := onCore (Alesh.faTarget now opBulkRead m) s
def execBulkWriteRx (now : Nat) (m : Pkt) (s : State) : Host.Outcome State Fault Refusal :=
  onCore (Alesh.faTarget now opBulkWrite m) s

/-- INVAL: the line leaves the cache, and a fill of it that is pending is not cached. -/
def Alesh.invalRx (now : Nat) (m : Pkt) (a0 : Alesh) : Alesh :=
  let a := a0.at now
  let h : FaHdr := { FaHdr.ofNat m.args with op := opInval }
  let req : Pkt := { m with args := h.word }
  if !a.idleToJob then a
  else if !h.requestOk m.vc m.payload || h.dst != a.node then a.count O.FA_MALFORMED_COUNT
  else
    let a := a.hear h.src
    let st := a.faTest h 0
    if st != stOk then a.faAnswer req st 0 []
    else
      (a.dropLine (lineKey (bf h.operand 0 18) h.offset)).faAnswer req stOk 0 []
def execInvalRx (now : Nat) (m : Pkt) (s : State) : Host.Outcome State Fault Refusal := onCore (Alesh.invalRx now m) s

/-! ### The header check (R322) -/

/-- The header check of this core at its committed header slice. -/
def Alesh.headerH (a : Alesh) : Bytes :=
  let g := gsidOf a.ownShard 0
  let slot := (a.liveSlot g).getD 0
  sha256 ([0x06#8] ++ (List.range (9 + a.num O.REPL_PAGES)).flatMap fun p =>
    let r := a.pageRec slot p
    let crc := if p = scalarPage then crc64 (overlay (a.livePage g p) 24 (List.replicate 8 0)) else r.crc
    leBytes 8 (packBits [(63, 1, if r.valid then 1 else 0), (0, 48, r.step)]) ++ leBytes 8 crc)

/-- Compare the entries held for `e` and drop them. -/
def Alesh.compareChecks (a : Alesh) (e : Nat) : Alesh :=
  let here := a.fabric.checks.filter fun c => c.1 == e
  let own := (here.find? fun c => c.2.1 == a.node).map (·.2.2)
  let most := here.find? fun c => decide (here.length < 2 * (here.filter fun d => d.2.2 == c.2.2).length)
  let b := { a with fabric := { a.fabric with checks := a.fabric.checks.filter fun c => c.1 != e } }
  match own with
  | none => b
  | some h =>
    if here.all fun c => c.2.2 == h then b.setNum O.HDR_CHECK_STATE 0
    else match most with
      | none => ((b.setNum O.HDR_CHECK_STATE 2).count O.HDR_CHECK_FAIL_COUNT).raiseFault
      | some c => if c.2.2 == h then b
        else (({ b with fabric := { b.fabric with minority := true } }.setNum O.HDR_CHECK_STATE 1).count O.HDR_CHECK_FAIL_COUNT).raiseFault

/-- Compare once every member of the cluster has its entry. -/
def Alesh.checkReady (a : Alesh) (e : Nat) : Alesh :=
  let want := a.cluster.filter a.isMember
  if want.all fun n => a.fabric.checks.any fun c => c.1 == e && c.2.1 == n then a.compareChecks e else a

/-- At the release of `e`: entries of e − 1 are compared, and this core's own goes out. -/
def Alesh.headerCheck (a : Alesh) (e : Nat) : Alesh :=
  if a.cluster.length < 2 then a
  else
    let b := if a.fabric.checks.any fun c => decide (c.1 < e) then a.compareChecks (e - 1) else a
    let h := b.headerH
    let entry := leBytes 8 e ++ leBytes 4 a.node ++ List.replicate 20 0 ++ h
    let c := { b with fabric := { b.fabric with checks := (b.fabric.checks.filter fun (x : Nat × Nat × Bytes) => decide (e ≤ x.1)) ++ [(e, a.node, h)] } }
    ((c.cluster.filter fun n => n != c.node && c.isMember n).foldl (fun (d : Alesh) (n : Nat) =>
      d.faIssue 6 (FaHdr.request opCheckPut n 0 0 0) entry .check) c).checkReady e

def Alesh.checkPutRx (now : Nat) (m : Pkt) (a0 : Alesh) : Alesh :=
  let a := a0.at now
  let h : FaHdr := { FaHdr.ofNat m.args with op := opCheckPut }
  let req : Pkt := { m with args := h.word }
  if !a.idleToJob then a
  else if !h.requestOk m.vc m.payload || h.dst != a.node then a.count O.FA_MALFORMED_COUNT
  else
    let a := a.hear h.src
    let st := a.faTest h 0
    if st != stOk then a.faAnswer req st 0 []
    else
      let e := bf (leAt m.payload 0 8) 0 48
      let n := leAt m.payload 8 4
      let b := a.faAnswer req stOk 0 []
      if e < a.num O.STEP_EPOCH || b.fabric.checks.any fun c => c.1 == e && c.2.1 == n then b
      else ({ b with fabric := { b.fabric with checks := b.fabric.checks ++ [(e, n, slice m.payload 32 32)] } }).checkReady e
def execCheckPutRx (now : Nat) (m : Pkt) (s : State) : Host.Outcome State Fault Refusal := onCore (Alesh.checkPutRx now m) s

/-! ### Migration (R304 to R307) -/

/-- Wake the requests that wait for a page, in arrival order. -/
def Alesh.wake (a : Alesh) (ids : List Nat) : Alesh :=
  ids.foldl (fun (b : Alesh) (id : Nat) =>
    Alesh.settle (b.runJob id (((b.job? id).map fun j => j.left.length).getD 0 + 1))) a

/-- Requests that wait for a page whose move has failed get a bus error. -/
def Alesh.failJobs (a : Alesh) (ids : List Nat) : Alesh :=
  ids.foldl (fun (b : Alesh) (id : Nat) =>
    match b.job? id with
    | some j => Alesh.settle (b.faFinish j stBusErr)
    | none => b) a

/-- A promotion that waits takes the lowest free frame once its tenant is below quota; at a quota that a write has lowered it
evicts again, and at quota 0 it is not made (R303, R304, R306). -/
def Alesh.assignFrame (a : Alesh) (t : TierPage) : Alesh :=
  let tenant := (a.segAt t).tenant
  let q := a.quota tenant t.toTier
  let give (b : Alesh) : Option Alesh :=
    if decide ((b.tenantFrames tenant t.toTier).length < q) then
      (b.freeFrame t.toTier).map fun f => let u : TierPage := { t with toFrame := some f }; (b.setTier u).startCopy u
    else none
  if q = 0 then (a.sendHome t).wake t.waiting
  else match give a with
    | some b => b
    | none =>
      if (a.tenantFrames tenant t.toTier).any fun x => x.2.busy && x.2.move == 1 then a
      else let c := (a.evictOne tenant t.toTier).1; (give c).getD c
/-- Promotions that wait for a frame, oldest first. -/
def Alesh.assignFrames (a : Alesh) : Alesh :=
  (a.fabric.pages.filter fun t => t.busy && t.move == 0 && t.toFrame.isNone).foldl (fun (b : Alesh) (t : TierPage) => b.assignFrame t) a
/-- Write a frame whole, which leaves no error in it. -/
def Alesh.putFrame (a : Alesh) (tier f : Nat) (b : Bytes) : Alesh :=
  if tier = 0 then (a.clearBad (f / pageBytes)).wr f b
  else let c := a.clearBad1 (f / pageBytes); { c with mem1 := c.mem1.write f b }
/-- Whether a write-back of TIER_FLUSH is under way. -/
def Alesh.noteFlush (a : Alesh) : Alesh :=
  { a with fabric := { a.fabric with flushing := a.fabric.pages.any fun x => x.busy && x.move == 2 } }

/-- A write-back fails: the page stays where it is, and promotions that waited for its frame fail. -/
def Alesh.failBack (a : Alesh) (t : TierPage) : Alesh :=
  let b := a.setTier { t with busy := false, waiting := [] }
  let lost := b.fabric.pages.filter fun x => x.busy && x.move == 0 && x.toFrame.isNone && x.toTier == t.tier
    && (b.segAt x).tenant == (b.segAt t).tenant
  ((lost.foldl (fun (c : Alesh) (x : TierPage) => (c.sendHome x).failJobs x.waiting) b).noteFlush).wake t.waiting
/-- The gateway's answer to a page move: the data of a promotion, or the end of a write-back. -/
def Alesh.tierResponse (a : Alesh) (entry status : Nat) (payload : Bytes) : Alesh :=
  match a.tierPage? entry with
  | none => a
  | some t =>
    if status = stOk then
      match t.move, t.toFrame with
      | 0, some f => a.putFrame t.toTier f (payload.take pageBytes)
      | _, _ => a
    else if t.move = 0 then (a.sendHome t).failJobs t.waiting
    else a.failBack t

/-- While a tenant holds more than its quota, its pages are evicted by the clock (R306). -/
def Alesh.shrinkTo (a : Alesh) (tenant tier : Nat) : Nat → Alesh
  | 0 => a
  | f + 1 =>
    let going := (a.tenantFrames tenant tier).filter fun x => x.2.busy && x.2.move == 1
    if (a.tenantFrames tenant tier).length ≤ a.quota tenant tier + going.length then a
    else let r := a.evictOne tenant tier; if r.2 then r.1.shrinkTo tenant tier f else a

/-- TIER_QUOTA (R306). -/
def Alesh.withinQuota (a : Alesh) : Alesh :=
  ((List.range 32).foldl (fun (c : Alesh) (i : Nat) =>
    c.shrinkTo (i / 2) (i % 2) ((c.tenantFrames (i / 2) (i % 2)).length + 1)) a).assignFrames
def tierQuota (v : Bytes) (a : Alesh) : Res × Alesh :=
  require (v.length == 192) .type a (.ok, (a.setDom O.TIER_QUOTA v).withinQuota)
def execTierQuotaWrite (via : Via) (value : Bytes) (s : State) : Host.Outcome State Fault Refusal :=
  command via O.TIER_QUOTA true (tierQuota value) s

/-- A move of a page ends (R305): BUSY clears and waiting requests proceed; a tenant above a quota lowered meanwhile evicts what
was BUSY then (R306). -/
def Alesh.migrationDone (entry : Nat) (a : Alesh) : Alesh :=
  match a.tierPage? entry with
  | none => a
  | some t =>
    let out := a.fabric.reqs.any fun r => r.why == FaWhy.tier entry
    let s := a.segAt t
    let home := s.homeBase + t.page * pageBytes
    -- a move whose source has an uncorrectable error copies nothing (R314, R414)
    let bad := if t.move = 0 then s.homeTier == 1 && a.tierBad 1 home else (t.move == 1 || t.move == 2) && a.tierBad t.tier t.frame
    if !t.busy || out then a
    else if bad && t.move = 0 then ((a.busError home).sendHome t).failJobs t.waiting
    else if bad then (a.busError t.frame).failBack t
    else match t.move, t.toFrame with
      | 0, none => a
      | 0, some f =>
        let b := if s.homeTier = 1 then a.putFrame 0 f (a.mem1.read home pageBytes) else a
        (((b.wrap O.PROMOTE_COUNT).setTier { t with tier := t.toTier, frame := f, busy := false, ref := true, waiting := [] }).wake
          t.waiting).withinQuota
      | 1, _ =>
        let b := if s.homeTier = 1 then a.putFrame 1 home (a.rd t.frame pageBytes) else a
        (((((b.wrapN O.WRITEBACK_BYTES pageBytes).wrap O.EVICT_COUNT).sendHome t).assignFrames).wake t.waiting).withinQuota
      | 2, _ =>
        let b := if s.homeTier = 1 then a.putFrame 1 home (a.rd t.frame pageBytes) else a
        let c := ((b.wrapN O.WRITEBACK_BYTES pageBytes).setTier { t with busy := false, dirty := false, waiting := [] })
        (c.noteFlush.wake t.waiting).withinQuota
      | _, _ => if t.dirty then (((a.sendHome t).touchHome s t.page).wake t.waiting) else a
def execMigrationComplete (page : Nat) (s : State) : Host.Outcome State Fault Refusal := onCore (Alesh.migrationDone page) s
/-- The gateway's answer for a run of a job. The page of an in-place store or atomic is BUSY no more once the job has failed, and,
where it has no page-map entry that MIGRATION_COMPLETE could name, once its write is answered (R303, R305). -/
def Alesh.jobAnswer (a : Alesh) (id : Nat) (r : FaReq) (status : Nat) (payload : Bytes) : Alesh :=
  let held := (a.job? id).bind fun j => (j.left.head?).bind fun x => (a.segOf x.1).bind fun y =>
    let op := (FaHdr.ofNat j.req.args).op
    if op == opStore || op == opAtomic then a.tierPage? (y.2.pageKey ((x.1 - y.2.base) / pageBytes)) else none
  let b := Alesh.settle (a.jobResponse id r status payload)
  let over_ := held.filter fun t => status != stOk || ((FaHdr.ofNat r.header).op == opBulkWrite && decide (2 ^ 48 ≤ t.entry))
  match over_ with
  | some t => if t.busy && t.move == 3 then ((b.sendHome t).touchHome (b.segAt t) t.page).wake t.waiting else b
  | none => b

/-- TIER_FLUSH (R307, R366). -/
def tierFlush (tenant : Nat) (a : Alesh) : Res × Alesh :=
  require a.idleToJob .stateConflict a (require (decide (tenant < 16) || tenant == 0xFF) .range a
    (require (!a.fabric.flushing) .busy a
      (let go := a.fabric.pages.filter fun t => t.dirty && !t.busy && (tenant == 0xFF || (a.segAt t).tenant == tenant)
       let b := go.foldl (fun (c : Alesh) (t : TierPage) =>
         let u : TierPage := { t with busy := true, move := 2 }
         (c.setTier u).writeBack u) a
       (.ok, { b with fabric := { b.fabric with flushing := !go.isEmpty } }))))
def execTierFlush (via : Via) (tenant : Nat) (s : State) : Host.Outcome State Fault Refusal :=
  command via O.TIER_FLUSH false (tierFlush tenant) s

/-! ### FA_SUBMIT (R316, R319, R321) -/

/-- A far node; node 0 is none (R319). -/
def Alesh.isFar (a : Alesh) (n : Nat) : Bool := n != 0 && (leAt (a.dom O.FAR_MAP) (n / 8) 1).testBit (n % 8)
def Alesh.setResult (a : Alesh) (h : FaHdr) (payload : Bytes) : Alesh := a.setDom O.FA_RESULT (leBytes 32 h.word ++ payload)
/-- A descriptor (R321). -/
def Alesh.faDesc (a : Alesh) (d : Bytes) : FaHdr × Bytes :=
  ({ FaHdr.ofNat (leAt d 0 32) with src := a.node, origin := a.node }, d.drop 32)

/-- The bytes of a cached load; none on a miss. -/
def Alesh.cached (a : Alesh) (home off n : Nat) : Option Bytes :=
  let first := off / 64 * 64
  let ls := (List.range ((off + n - first + 63) / 64)).map fun i => lookup? a.fabric.lines (lineKey home (first + 64 * i))
  if ls.all Option.isSome then some (slice ((ls.filterMap id).flatten) (off - first) n) else none

/-- The header of a descriptor can be sent: a request, with no reserved encoding (R4, R308, R309; DESIGN CHOICE, log entry 144). -/
def FaHdr.submitOk (h : FaHdr) : Bool :=
  h.version == 1 && decide (h.op ≤ 6) && decide (h.status ≤ 6) && decide (h.aop ≤ 8) && decide (h.size ≤ 1)
def faSubmit (now : Nat) (a0 : Alesh) : Res × Alesh :=
  let a1 := a0.at now
  require a1.idleToJob .stateConflict a1 (require (!a1.fabric.reqs.any fun r => r.why == FaWhy.submit) .busy a1
    (require (decide (32 ≤ (a1.dom O.FA_DESC).length) && (a1.faDesc (a1.dom O.FA_DESC)).1.submitOk) .range a1
      (let desc := a1.dom O.FA_DESC
       let d := a1.faDesc desc
       let h := d.1
       let n := h.length d.2
       let gw := a1.num O.GATEWAY_NODE
       let coh := decide (h.op ≤ 2) && a1.inCluster h.dst && a1.cohHome h.key h.offset == some h.dst
       let a : Alesh := { a1 with fabric := { a1.fabric with desc := desc, descCoh := coh } }
       let far : Alesh := a.setResult (h.response h.dst stFar 0) []
       if a.isFar h.dst then
         -- the gateway carries it, FAR_NODE naming the target (R319)
         if h.op = opLoad ∧ !coh then
           let lo := h.offset / 32 * 32
           let len := roundUp (h.offset + n) 32 - lo
           (.ok, a.faIssue 7 (FaHdr.request opBulkRead gw lo h.key (packBits [(46, 18, h.dst), (0, 23, len)])) [] .submit)
         else if h.op = opStore ∧ h.offset % 32 = 0 ∧ n % 32 = 0 ∧ !coh then
           (.ok, a.faIssue 7 (FaHdr.request opBulkWrite gw h.offset h.key (packBits [(46, 18, h.dst)])) d.2 .submit)
         else if h.op = opBulkRead then
           (.ok, a.faIssue 7 { h with dst := gw, operand := packBits [(46, 18, h.dst), (0, 23, n)] } [] .submit)
         else if h.op = opBulkWrite then
           (.ok, a.faIssue 7 { h with dst := gw, operand := packBits [(46, 18, h.dst)] } d.2 .submit)
         else (.ok, far)
       else if coh then
         let lo := h.offset / 64 * 64
         let len := roundUp (h.offset + n) 64 - lo
         match (if h.op = opLoad then a.cached h.dst h.offset n else none) with
         | some b => (.ok, a.setResult (h.response h.dst stOk 0) b)
         | none =>
           if h.op = opLoad then (.ok, a.faIssue 6 { h with dst := a.fabric.holder, offset := lo, operand := len } [] .submit)
           else (.ok, a.faIssue 6 { h with dst := a.fabric.holder } d.2 .submit)
       else (.ok, a.faIssue (if h.op = opBulkRead ∨ h.op = opBulkWrite then 7 else 6) h d.2 .submit))))
def execFaSubmit (via : Via) (now : Nat) (s : State) : Host.Outcome State Fault Refusal :=
  command via O.FA_SUBMIT false (faSubmit now) s

/-- Fill the line cache from a coherent load; the oldest lines leave a full cache (log entry 31). -/
def Alesh.fillLines (a : Alesh) (home off : Nat) (b : Bytes) : Alesh :=
  let new := (List.range (b.length / 64)).map fun i => (lineKey home (off + 64 * i), slice b (64 * i) 64)
  let kept := a.fabric.lines.filter fun l => !new.any fun x => x.1 == l.1
  let all := kept ++ new
  { a with fabric := { a.fabric with lines := all.drop (all.length - 8192) } }

/-- The answer to FA_SUBMIT's request, in terms of the descriptor that it took: a coherent load and one through the gateway have
asked for more than the bytes wanted, and a coherent one fills the cache with lines of another core's. -/
def Alesh.submitResponse (a : Alesh) (r : FaReq) (h : FaHdr) (payload : Bytes) : Alesh :=
  let d := a.faDesc a.fabric.desc
  let q := FaHdr.ofNat r.header
  let n := d.1.length d.2
  if !a.fabric.descCoh && q.dst == d.1.dst then a.setResult h payload
  else
    let g : FaHdr := { d.1.response d.1.dst h.status h.operand with tag := h.tag }
    let fill := a.fabric.descCoh && q.op == opLoad && h.status == stOk && !r.noCache && d.1.dst != a.node
    let b := if fill then a.fillLines d.1.dst q.offset payload else a
    if h.status = stOk ∧ (d.1.op = opLoad ∨ d.1.op = opBulkRead) then b.setResult g (slice payload (d.1.offset - q.offset) n)
    else b.setResult g []

/-! ### Timers of the requester and the target (R311, R312) -/

def Alesh.tagExpiry (now tag : Nat) (a0 : Alesh) : Alesh :=
  let a := a0.at now
  if a.fabric.restTags.any fun (r : Nat × Nat) => r.1 == tag && a.due (r.2 + 4 * a.num O.FABRIC_TIMEOUT_NS) then
    { a with fabric := { a.fabric with restTags := a.fabric.restTags.filter (fun (r : Nat × Nat) => r.1 != tag) } }.faAdmit
  else a
def execTagReuseExpiry (now tag : Nat) (s : State) : Host.Outcome State Fault Refusal := onCore (Alesh.tagExpiry now tag) s

def Alesh.atomicExpiry (now src tag : Nat) (a0 : Alesh) : Alesh :=
  let a := a0.at now
  { a with fabric := { a.fabric with
      atomics := a.fabric.atomics.filter fun (x : Nat × Nat × Nat × Nat) => !(x.1 == src && x.2.1 == tag && a.due x.2.2.2) } }
def execAtomicTableExpiry (now src tag : Nat) (s : State) : Host.Outcome State Fault Refusal :=
  onCore (Alesh.atomicExpiry now src tag) s

end Sys2Proof.Machine
end

