-- ==== Sys2Proof/Machine/Leases.lean ====
section
/-! DEFINITION. Leases: COORD, DIRECTORY, and the TAKE of a RETAIN lease (R226 to R230, R236, R336). -/
namespace Sys2Proof.Machine

structure LeaseArgs where
  kind : Nat
  id : Nat
  action : Nat
  gen : Nat
  deriving DecidableEq, Repr

def LeaseArgs.ofNat (w : Nat) : LeaseArgs := { kind := bf w 60 4, id := bf w 28 32, action := bf w 24 4, gen := bf w 8 16 }
def leaseArgs (kind id action gen : Nat) : Nat := packBits [(60, 4, kind), (28, 32, id), (24, 4, action), (8, 16, gen)]
/-- Well-formed: known kind and action, and the payload that the action carries. -/
def LeaseArgs.ok (x : LeaseArgs) (payload : Bytes) : Bool :=
  decide (x.kind ≤ 3) && decide (x.action ≤ 3) && (if x.action = 2 then payload.isEmpty else payload.length == 16)

def lCoord : Nat := 0
def lDirectory : Nat := 1

def Alesh.lease? (a : Alesh) (k : Nat) : Option Lease := a.leases.find? fun l => l.kind == k
def Alesh.setLease (a : Alesh) (l : Lease) : Alesh := { a with leases := modWhere (fun x => x.kind == l.kind) (fun _ => l) a.leases }

/-- The nodes of a lease's resource in its order: group members by rank, or the cluster by node id. -/
def Alesh.leaseNodes (a : Alesh) (k : Nat) : List Nat := if k = lCoord then a.geo.members.map (·.2) else sortNat a.cluster
/-- The successor order behind a holder, over the members: a draining core is one until it is retired (R226, R249). -/
def Alesh.successors (a : Alesh) (k holder : Nat) : List Nat :=
  let l := a.leaseNodes k
  let after := match l.findIdx? (· == holder) with
    | some i => l.drop (i + 1) ++ l.take i
    | none => (l.filter fun n => decide (holder < n)) ++ l.filter fun n => decide (n < holder)
  after.filter fun n => n != holder && a.isMember n
/-- The other cores that hear of a lease. -/
def Alesh.leasePeers (a : Alesh) (k : Nat) : List Nat := (a.leaseNodes k).filter fun n => n != a.node && a.isMember n

/-- The holder acts while its time stands below EXPIRY − LEASE_GUARD_NS (R227). -/
def Alesh.acts (a : Alesh) (k : Nat) : Bool :=
  match a.lease? k with
  | some l => a.clock.valid && l.holder == a.node && l.acting && decide (a.now + a.num O.LEASE_GUARD_NS < l.expiry)
  | none => false
/-- The stripe coordinator of this core's group. -/
def Alesh.coordinator (a : Alesh) : Nat := ((a.lease? lCoord).map (·.holder)).getD a.node

def Alesh.sendLease (a : Alesh) (l : Lease) (action : Nat) : Alesh :=
  a.sendAll tLease (a.leasePeers l.kind) (leaseArgs l.kind l.id action l.gen)
    (if action = 2 then [] else leBytes 8 l.expiry ++ leBytes 8 0)

/-- The leases at the start of a job: first holders, generation 0, a whole term from `c` (log entry 32). -/
def Alesh.startLeases (a : Alesh) (c : Nat) : Alesh :=
  let mk (k id holder : Nat) : Lease :=
    { kind := k, id := id, gen := 0, holder := holder, prev := holder, expiry := c + a.num O.LEASE_TERM_NS, actFrom := c
      acting := holder == a.node }
  let first (l : List Nat) : Nat := ((l.filter a.isMember).head?).getD a.node
  let d := first (sortNat a.cluster)
  ({ a with leases := [mk lCoord (a.num O.GROUP_NUMBER) (first (a.leaseNodes lCoord)),
      mk lDirectory ((sortNat a.cluster).headD a.node) d] }).newDirectory d

/-- The announcements of its predecessor that a new coordinator repeats: the changes of its group that stand (R336, R188). -/
def Alesh.standingAnnounces (a : Alesh) : List (Nat × Nat × List Nat × Nat) :=
  let own := a.num O.GROUP_NUMBER
  a.coding.extPlan.filterMap fun p => (a.exts[p.1]?).bind fun x =>
    if x.group = own then some (extArgs p.2.1 x p.2.2, p.2.2, a.geo.members.map (·.2) ++ [x.node], a.ackDue) else none
/-- Everything a new coordinator starts afresh (R336). -/
def Alesh.freshCoordinator (a : Alesh) : Alesh :=
  { (a.setDom O.HOLD_LAT (List.replicate 128 0)) with
    take := { a.take with got := [], announces := a.standingAnnounces }
    health := { a.health with lat := [], samples := [], congested := [], calm := [], high := 0, low := 0 } }

/-- Send a report to its group's coordinator (R230); an external holder knows another group's by its last announcement. -/
def Alesh.sendReportWord (a : Alesh) (group word : Nat) : Alesh :=
  let own := group == a.num O.GROUP_NUMBER
  let gen := if own then ((a.lease? lCoord).map (·.gen)).getD 0 else 0
  let dst := if own then some a.coordinator else lookup? a.coding.extCoord group
  match dst with
  | some d => a.send tLease d (leaseArgs lCoord group 3 gen) (leBytes 8 word ++ leBytes 8 0)
  | none => a
/-- A report begins to stand. -/
def Alesh.addReport (a : Alesh) (group word : Nat) : Alesh :=
  if a.take.reports.any fun r => r.1 == group && r.2.1 == word then a
  else ({ a with take := { a.take with reports := a.take.reports ++ [(group, word, a.ackDue)] } }).sendReportWord group word
/-- Reports that an announcement answers end. -/
def Alesh.endReports (a : Alesh) (p : Nat → Nat → Bool) : Alesh :=
  { a with take := { a.take with reports := a.take.reports.filter fun (r : Nat × Nat × Nat) => !p r.1 r.2.1 } }
def Alesh.resendReports (a : Alesh) (p : Nat × Nat × Nat → Bool) : Alesh :=
  let go := a.take.reports.filter p
  go.foldl (fun (b : Alesh) (r : Nat × Nat × Nat) => b.sendReportWord r.1 r.2.1)
    { a with take := { a.take with reports := modWhere p (fun r => (r.1, r.2.1, a.ackDue)) a.take.reports } }

/-- Take a lease: TAKE with the next generation; the taker acts LEASE_STEP_NS later (R227). Reports that stand go out again at every
TAKE of the COORD lease (R230), and a draining core releases at once what comes to it (R249). -/
def Alesh.takeLease (a : Alesh) (l : Lease) : Alesh :=
  let n : Lease := { l with gen := (l.gen + 1) % 65536, holder := a.node, prev := l.holder, expiry := a.now + a.num O.LEASE_TERM_NS
                            actFrom := a.now + a.num O.LEASE_STEP_NS, acting := false }
  let b := ((a.setLease n).sendLease n 1).count O.LEASE_TAKE_COUNT
  let c := if a.isDraining a.node then b.sendLease n 2 else b
  if l.kind = lCoord then c.freshCoordinator.resendReports fun r => r.1 == a.num O.GROUP_NUMBER else c.newDirectory a.node

/-- Another core holds a lease. -/
def Alesh.noteHolder (a : Alesh) (l : Lease) (holder gen expiry : Nat) : Alesh :=
  let n : Lease := { l with gen := gen, holder := holder, prev := if l.gen = gen then l.prev else l.holder, expiry := expiry, acting := false }
  let b := a.setLease n
  if l.kind = lCoord || l.holder = holder then b else b.newDirectory holder
/-- Another core holds a lease now; reports go to it. -/
def Alesh.yieldLease (a : Alesh) (l : Lease) (holder gen expiry : Nat) : Alesh :=
  let b := a.noteHolder l holder gen expiry
  if l.kind = lCoord then b.resendReports fun r => r.1 == a.num O.GROUP_NUMBER else b

/-- At an adoption a lease whose holder has left passes to the first successor in that cclk (R219, R227). -/
def Alesh.adoptLeases (a : Alesh) : Alesh :=
  a.leases.foldl (fun (b : Alesh) (l : Lease) =>
    if b.isMember l.holder then b
    else match b.successors l.kind l.holder with
      | [] => b
      | s :: _ => if s = b.node then (if b.clock.valid then b.takeLease l else b) else b.yieldLease l s ((l.gen + 1) % 65536) (b.now + b.num O.LEASE_TERM_NS)) a

/-- A draining core gives up every lease it holds (R249). -/
def Alesh.releaseLeases (a : Alesh) : Alesh :=
  (a.leases.filter fun l => l.holder == a.node).foldl (fun (b : Alesh) (l : Lease) =>
    (b.sendLease l 2).setLease { l with acting := false }) a

/-! ### LEASE packets -/

/-- RENEW of the holder's own generation extends the expiry; one of a later generation names a new holder. -/
def Alesh.leaseRenewIn (a : Alesh) (src : Nat) (x : LeaseArgs) (p : Bytes) : Alesh :=
  match a.lease? x.kind with
  | some l =>
    if l.id != x.id then a
    else if x.gen == l.gen && src == l.holder then a.setLease { l with expiry := max l.expiry (leAt p 0 8) }
    else if newer16 x.gen l.gen then a.yieldLease l src x.gen (leAt p 0 8)
    else a
  | none => a

/-- TAKE of a COORD or DIRECTORY lease; of two takers of one generation the earlier successor has it (R227). -/
def Alesh.leaseTakeIn (a : Alesh) (src : Nat) (x : LeaseArgs) (p : Bytes) : Alesh :=
  match a.lease? x.kind with
  | some l =>
    let order := a.successors x.kind l.prev
    let rank (n : Nat) : Nat := (order.findIdx? (· == n)).getD order.length
    if l.id != x.id then a
    else
      let b := if newer16 x.gen l.gen then a.noteHolder l src x.gen (leAt p 0 8)
        else if x.gen == l.gen && src == l.holder then a.setLease { l with expiry := max l.expiry (leAt p 0 8) }
        else if x.gen == l.gen && decide (rank src < rank l.holder) && !(l.holder == a.node && l.acting) then
          a.noteHolder l src x.gen (leAt p 0 8)
        else a
      -- any TAKE of the COORD lease, one that changes nothing too (R230)
      if x.kind = lCoord then b.resendReports fun r => r.1 == a.num O.GROUP_NUMBER else b
  | none => a

/-- TAKE of a RETAIN lease: every retained partial of the slice goes to its new owner (R135, R236). -/
def Alesh.retainTakeIn (a : Alesh) (src : Nat) (x : LeaseArgs) : Alesh :=
  if a.ownerOf x.id != src then a
  else
    let mine (p : Part) : Bool := p.gsid == x.id && (p.kind == kDense || p.kind == kSparse)
    let b := { a with red := { a.red with retained := modWhere mine (fun p => { p with peer := src }) a.red.retained } }
    (b.red.retained.filter mine).foldl (fun (c : Alesh) (p : Part) =>
      c.send tPart src (c.partArgsOf p) (c.nodePayload p.gsid p.level p.val)) b

/-- A LEASE packet of an action. -/
def Alesh.leaseRx (now action : Nat) (m : Pkt) (f : Alesh → LeaseArgs → Alesh) (a : Alesh) : Alesh :=
  let x : LeaseArgs := { LeaseArgs.ofNat m.args with action := action }
  a.receive now tLease m (x.ok m.payload) false fun b => if b.inJob then f b x else b

def execLeaseRenewRx (now : Nat) (m : Pkt) (s : State) : Host.Outcome State Fault Refusal :=
  onCore (Alesh.leaseRx now 0 m fun b x => b.leaseRenewIn m.src x m.payload) s
def execLeaseTakeRx (now : Nat) (m : Pkt) (s : State) : Host.Outcome State Fault Refusal :=
  onCore (Alesh.leaseRx now 1 m fun b x => if x.kind = 3 then b.retainTakeIn m.src x else b.leaseTakeIn m.src x m.payload) s

/-- RELEASE by the holder: the first successor takes the lease at once. -/
def Alesh.leaseReleaseIn (a : Alesh) (src : Nat) (x : LeaseArgs) : Alesh :=
  match a.lease? x.kind with
  | some l =>
    if l.id == x.id && l.gen == x.gen && l.holder == src && (a.successors x.kind src).head? == some a.node then
      if a.clock.valid then a.takeLease l else a.setLease { l with expiry := 0 }
    else a
  | none => a
def execLeaseReleaseRx (now : Nat) (m : Pkt) (s : State) : Host.Outcome State Fault Refusal :=
  onCore (Alesh.leaseRx now 2 m fun b x => b.leaseReleaseIn m.src x) s

/-! ### Lease timers -/

/-- The holder renews once less than half a term remains. -/
def Alesh.leaseRenewDue (now k : Nat) (a0 : Alesh) : Alesh :=
  let a := a0.at now
  match a.lease? k with
  | some l =>
    if a.inJob && a.acts k && decide (l.expiry < a.now + a.num O.LEASE_TERM_NS / 2) then
      let n : Lease := { l with expiry := a.now + a.num O.LEASE_TERM_NS }
      (a.setLease n).sendLease n 0
    else a
  | none => a
def execLeaseRenewDue (now kind : Nat) (s : State) : Host.Outcome State Fault Refusal := onCore (Alesh.leaseRenewDue now kind) s

/-- Successor i takes the lease at EXPIRY + LEASE_GUARD_NS + (i − 1) × LEASE_STEP_NS. -/
def Alesh.leaseTakeDue (now k : Nat) (a0 : Alesh) : Alesh :=
  let a := a0.at now
  match a.lease? k with
  | some l =>
    match (a.successors k l.holder).findIdx? (· == a.node) with
    | some i =>
      if a.inJob && a.due (l.expiry + a.num O.LEASE_GUARD_NS + i * a.num O.LEASE_STEP_NS) then a.takeLease l else a
    | none => a
  | none => a
def execLeaseTakeDue (now kind : Nat) (s : State) : Host.Outcome State Fault Refusal := onCore (Alesh.leaseTakeDue now kind) s

/-- The taker starts to act. -/
def Alesh.leaseActStart (now k : Nat) (a0 : Alesh) : Alesh :=
  let a := a0.at now
  match a.lease? k with
  | some l => if a.inJob && l.holder == a.node && !l.acting && !a.isDraining a.node && a.due l.actFrom then a.setLease { l with acting := true } else a
  | none => a
def execLeaseActStart (now kind : Nat) (s : State) : Host.Outcome State Fault Refusal := onCore (Alesh.leaseActStart now kind) s

/-- Standing reports whose time has come. -/
def Alesh.leaseReportResend (now : Nat) (a0 : Alesh) : Alesh :=
  let a := a0.at now
  a.resendReports fun r => a.due r.2.2
def execLeaseReportResend (now : Nat) (s : State) : Host.Outcome State Fault Refusal := onCore (Alesh.leaseReportResend now) s

end Sys2Proof.Machine
end

