-- ==== Sys2Proof/Machine/Ring.lean ====
section
/-! DEFINITION. The ring of the Chronograph, its own buffer, and the slice state digest that a record may wait for (R288 to R290,
R293). -/
namespace Sys2Proof.Machine

/-! ### The ring (R288 to R290) -/

def Alesh.chronoSize (a : Alesh) : Nat := a.num O.CHRONO_PAGES * pageBytes
/-- A record's header. -/
def chronoHeader (typ units seq step : Nat) : Bytes :=
  leBytes 16 (packBits [(80, 48, step), (48, 32, seq), (40, 8, units), (36, 4, 1), (0, 8, typ)])
/-- The length in bytes of the record at an offset of the ring. -/
def Alesh.chronoLength (a : Alesh) (off : Nat) : Nat := 64 * max 1 (a.rdLe (a.num O.CHRONO_BASE + off + 5) 1)
/-- Bytes between the tail and the head, in ring order. -/
def Alesh.chronoUsed (a : Alesh) : Nat :=
  let n := a.chronoSize
  (a.num O.CHRONO_HEAD + n - a.num O.CHRONO_TAIL) % n
/-- Advance the tail past whole records, oldest first, until `need` bytes fit below it; each is counted (R289). -/
def Alesh.chronoRoom (need : Nat) : Nat → Alesh → Alesh
  | 0, a => a
  | fuel + 1, a =>
    if a.chronoUsed + need < a.chronoSize || a.chronoUsed == 0 then a
    else
      let t := a.num O.CHRONO_TAIL
      ((a.setNum O.CHRONO_TAIL ((t + a.chronoLength t) % a.chronoSize)).count O.CHRONO_OVERRUN_COUNT).chronoRoom need fuel
/-- Lay bytes at the head, which then advances past them. -/
def Alesh.chronoPut (a : Alesh) (b : Bytes) : Alesh :=
  let h := a.num O.CHRONO_HEAD
  (a.wr (a.num O.CHRONO_BASE + h) b).setNum O.CHRONO_HEAD ((h + b.length) % a.chronoSize)
/-- A ring made smaller than its head or tail starts anew at its base, and its records are lost; one moved or made larger keeps both as
they are (DESIGN CHOICE, log entry 61). -/
def Alesh.chronoFit (a : Alesh) : Alesh :=
  if a.num O.CHRONO_HEAD < a.chronoSize && a.num O.CHRONO_TAIL < a.chronoSize then a
  else (a.setNum O.CHRONO_HEAD 0).setNum O.CHRONO_TAIL 0
/-- Write one record that is fixed: its bytes from 16 on, in a length that is a multiple of 64 (R288, R290). -/
def Alesh.chronoWrite (a : Alesh) (r : ChronoRec) : Alesh :=
  let len := roundUp (16 + r.body.length) 64
  if a.num O.CHRONO_PAGES = 0 then a
  else
    let b := a.chronoFit
    let rest := b.chronoSize - b.num O.CHRONO_HEAD
    let pad := if rest < len then rest else 0
    let c := b.chronoRoom (pad + len) (b.chronoSize / 64)
    let d := if pad = 0 then c else c.chronoPut (chronoHeader 0 (pad / 64) 0 0 ++ List.replicate (pad - 16) 0)
    d.chronoPut (chronoHeader r.typ (len / 64) r.seq r.step ++ r.body ++ List.replicate (len - 16 - r.body.length) 0)

/-! ### The slice state digest (R293) -/

/-- The slice state digest D(g). -/
def Alesh.stateDigest (a : Alesh) (g : Nat) : Bytes :=
  match a.liveSlot g with
  | none => sha256 (0x03#8 :: leBytes 4 g ++ List.replicate 4096 0)
  | some j =>
    sha256 (0x03#8 :: leBytes 4 g ++ (List.range 256).flatMap fun p =>
      let r := a.pageRec j p
      let crc := if !r.valid then 0
        else if isHeader g && p == scalarPage then
          crc64 (Sys2Proof.Machine.overlay (a.rd (a.pageAddr j p) pageBytes) 24 (List.replicate 8 0))
        else r.crc
      leBytes 8 (packBits [(0, 48, r.step), (63, 1, if r.valid then 1 else 0)]) ++ leBytes 8 crc)
/-- The scalar page of a header slice, whose bytes D(g) takes, is VALID and fails its check (R47). -/
def Alesh.scalarBad (a : Alesh) (g : Nat) : Bool := isHeader g && a.liveValid g scalarPage && !a.pageReady g scalarPage
/-- Some pages of a slice cannot be read yet: it has no slot, ABSENT pages (R232), or a damaged scalar page. -/
def Alesh.incomplete (a : Alesh) (g : Nat) : Bool :=
  a.take.unmapped.contains g || ((List.range (a.slicePages g)).any fun p => a.isAbsent g p) || a.scalarBad g
/-- D(g) for a record of `e`, once it can be formed: a slice that waits for its pages is not updated before it has them (R240), so
its D(g) of then is that of `e`. A slice that this core has given up meanwhile takes a free digest (log entry 39). -/
def Alesh.lateDigest (a : Alesh) (g e : Nat) : Option Bytes :=
  if !a.take.owned.contains g then some (leBytes 32 (Config.freeStateDigest g e).toNat)
  else if a.incomplete g then none
  else some (a.stateDigest g)

/-! ### The buffer (R289) -/

/-- Lay a digest over a record's body by XOR. -/
def xorAt (b : Bytes) (off n : Nat) (d : Bytes) : Bytes :=
  b.take off ++ xorBytes (slice b off n) (d.take n) ++ b.drop (off + n)
/-- Fill what can be filled of a record that waits. -/
def ChronoRec.fill (digest : Nat → Nat → Option Bytes) (r : ChronoRec) : ChronoRec :=
  r.holes.foldl (fun (q : ChronoRec) (h : Nat × Nat × Nat) =>
    match digest h.1 r.step with
    | some d => { q with body := xorAt q.body h.2.1 h.2.2 d }
    | none => { q with holes := q.holes ++ [h] }) { r with holes := [] }
/-- Write the records that wait for nothing more, oldest first, `digest` giving what is known of the slices they wait for. -/
def Alesh.chronoDrain (a : Alesh) (digest : Nat → Nat → Option Bytes) : Alesh :=
  if a.chrono.buffer.isEmpty then a
  else
    let rs := a.chrono.buffer.map (ChronoRec.fill digest)
    let now_ := rs.takeWhile fun r => r.holes.isEmpty
    now_.foldl (fun (b : Alesh) (r : ChronoRec) => b.chronoWrite r)
      { a with chrono := { a.chrono with buffer := rs.drop now_.length } }
def Alesh.chronoFlush (a : Alesh) : Alesh := a.chronoDrain a.lateDigest
/-- The core stops rebuilding: what records still wait for takes free digests (log entry 39). -/
def Alesh.chronoSettle (a : Alesh) : Alesh :=
  (a.chronoFlush).chronoDrain fun g e => some (leBytes 32 (Config.freeStateDigest g e).toNat)
/-- Fix a record under the next SEQ. It is written at once where it waits for no digest and no record waits before it; else the
core's own buffer holds it, and where that has no room it is dropped and counted (R289). -/
def Alesh.chronoFix (a : Alesh) (typ step : Nat) (body : Bytes) (holes : List (Nat × Nat × Nat)) : Alesh :=
  if a.num O.CHRONO_PAGES = 0 then a
  else
    let r : ChronoRec := { typ := typ, step := step, seq := a.num O.CHRONO_SEQ, body := body, holes := holes }
    let b := a.wrap O.CHRONO_SEQ
    if holes.isEmpty && a.chrono.buffer.isEmpty then b.chronoWrite r
    else if a.chrono.buffer.length < Config.chronoBuffer then
      { b with chrono := { b.chrono with buffer := b.chrono.buffer ++ [r] } }
    else b.count O.CHRONO_OVERRUN_COUNT
def Alesh.chronoRecord (a : Alesh) (typ step : Nat) (body : Bytes) : Alesh := a.chronoFix typ step body []

end Sys2Proof.Machine
end

