-- ==== Sys2Proof/Machine/Rebuild.lean ====
section
/-! DEFINITION. Fragments, degraded reads, rebuild and repair (R153, R206, R236 to R243, R249, R400). -/
namespace Sys2Proof.Machine

/-! ### FRAG_REQ and FRAG_DATA (R239) -/

structure FragArgs where
  id : Nat
  layout : Nat
  band : Nat
  parity : Bool
  index : Nat
  page : Nat
  first : Nat
  countM1 : Nat
  status : Nat
  deriving DecidableEq, Repr

def FragArgs.ofNat (w : Nat) : FragArgs :=
  { id := bf w 54 10, layout := bf w 52 2, band := bf w 36 16, parity := bf w 35 1 == 1, index := bf w 30 5, page := bf w 22 8
    first := bf w 12 10, countM1 := bf w 2 10, status := bf w 0 2 }
def FragArgs.word (x : FragArgs) : Nat :=
  packBits [(54, 10, x.id), (52, 2, x.layout), (36, 16, x.band), (35, 1, if x.parity then 1 else 0), (30, 5, x.index),
    (22, 8, x.page), (12, 10, x.first), (2, 10, x.countM1), (0, 2, x.status)]
def fOk : Nat := 0
def fAbsent : Nat := 1
def fDamaged : Nat := 2
def headBytes : Nat := 832

/-- 32 entries of 8 bytes. -/
def entries32 (f : Nat → Nat) : Bytes := (List.range 32).flatMap fun j => leBytes 8 (f j)

/-- V of a column: the largest STEP_EPOCH among the VALID pages of its slot (R210). -/
def Alesh.slotEpoch (a : Alesh) (g slot : Nat) : Nat :=
  (List.range (a.slicePages g)).foldl (fun m p => let r := a.pageRec slot p; if r.valid then max m r.step else m) 0
/-- The lowest epoch of a HELD or FOLD_WAIT delta of a column of a group's row in force (R210, R239). -/
def Alesh.pendingEpoch (a : Alesh) (group band row col : Nat) : Nat :=
  let es := (a.coding.hold.filter fun t => t.band == band && t.row == row && t.col == col && !t.alt && !t.old
    && (a.groupFor t.band t.row t.src).getD (a.num O.GROUP_NUMBER) == group && (t.state == .held || t.state == .foldWait)).map (·.epoch)
  (es.foldl (fun (m : Option Nat) e => some (match m with | some x => min x e | none => e)) none).getD 0

/-- The head of a data fragment from a slot. -/
def Alesh.dataHead (a : Alesh) (g slot col page : Nat) : Bytes :=
  let r := if page < a.slicePages g then a.pageRec slot page else PageRec.blank (Alesh.pageKind g page)
  r.bytes ++ entries32 (fun j => if j = col then a.slotEpoch g slot else 0) ++ List.replicate 512 0
/-- The head of a parity fragment. -/
def Alesh.parityHead (a : Alesh) (slot band row page : Nat) : Bytes :=
  let k := a.geo.k
  (a.parityRec false slot page).bytes ++ entries32 (fun j => if j < k then a.colEpoch false slot j else 0)
    ++ entries32 (fun j => if j < k then a.pendingEpoch (a.slotGroup false slot) band row j else 0)
    ++ entries32 (fun j => if j < k then a.pageEpoch false slot j page else 0)

/-- The slot of a data fragment that this core keeps: a live slice it owns, or one it has given up (R240, R249). -/
def Alesh.keptData (a : Alesh) (band col : Nat) : Option (Nat × Nat) :=
  (a.colSlice a.geo band col).bind fun g =>
    if a.ownerOf g = a.node then (a.liveSlot g).map fun s => (g, s) else (lookup? a.take.frozen g).map fun s => (g, s)
/-- The parity slot of a row in force that this core keeps (R240). -/
def Alesh.keptParity (a : Alesh) (band row src : Nat) : Option Nat :=
  (a.groupFor band row src).bind fun gr =>
    let here := if gr = a.num O.GROUP_NUMBER then a.rowNode a.geo band row == some a.node
      else a.exts.zipIdx.any fun p => p.1.node == a.node && p.1.group == gr && p.1.rotation == band % a.geo.n && p.1.row == row
        && a.extState p.2 == 2
    if here then a.rowSlot a.geo gr band row else none

/-- Answer a fragment request (R240): its status, the head and the bytes, and what the read finds. The header slice of a core that the
header check has found in the minority is damaged (R322). -/
def Alesh.fragment (a : Alesh) (x : FragArgs) (src : Nat) : Nat × Bytes × Alesh :=
  let cut (b : Bytes) : Bytes := slice b (64 * x.first) (64 * (x.countM1 + 1))
  if x.layout != a.num O.LAYOUT_GEN % 4 then (fAbsent, [], a)
  else if !x.parity then
    match a.keptData x.band x.index with
    | none => (fAbsent, [], a)
    | some (g, s) =>
      if isHeader g && a.fabric.minority then (fDamaged, [], a)
      else if a.isAbsent g x.page || a.take.frozenAbsent.contains (g * 256 + x.page) then (fAbsent, [], a)
      else if decide (x.page < a.slicePages g) && !a.pageGood g s x.page then (fDamaged, [], a.damageLive g x.page)
      else (fOk, a.dataHead g s x.index x.page ++ cut (a.slotPage g s x.page), a)
  else
    match a.keptParity x.band x.index src with
    | none => (fAbsent, [], a)
    | some s =>
      if a.coding.lost.contains s || !a.tableGood false s then (fDamaged, [], a.checkTable false s x.band x.index)
      else if !a.parityGood false s x.band x.page then (fDamaged, [], a.badParity false s x.band x.index x.page)
      else (fOk, a.parityHead s x.band x.index x.page ++ cut (a.parityPage false s x.page), a)

def Alesh.fragReqRx (now : Nat) (m : Pkt) (a : Alesh) : Alesh :=
  let x := FragArgs.ofNat m.args
  a.receive now tFragReq m (m.payload.isEmpty && decide (x.first + x.countM1 ≤ 1023)) false fun b =>
    if !b.joinedOrJob then b
    else
      let r := b.fragment x m.src
      r.2.2.send tFragData m.src ({ x with status := r.1 } : FragArgs).word r.2.1
def execFragReqRx (now : Nat) (m : Pkt) (s : State) : Host.Outcome State Fault Refusal := onCore (Alesh.fragReqRx now m) s

/-! ### Asking for fragments (R241) -/

/-- RUNNING or DEGRADED (R237): an ABSENT page, or an open exposure window. -/
def Alesh.setDegraded (a0 : Alesh) : Alesh :=
  let a := a0.setNum O.ABSENT_PAGES (a0.take.absent.length + sumNat (a0.waitsBlock.map a0.slicePages))
  if a.inJob then a.setCore (if !a.ownsAbsent && a.num O.WINDOW_OPEN_EPOCH == 0 then .running else .degraded) else a

/-- The layout of the group whose stripe a rebuild reads: of a parity slot, its group's. -/
def Alesh.rebuildGeo (a : Alesh) (r : Rebuild) : Geo :=
  a.geoFor false (if r.why = 2 then a.slotGroup false r.gsid else a.num O.GROUP_NUMBER)

/-- The parity rows that may serve a rebuild: those in force, and for an adopted slice those that hold the version wanted
(R206). -/
def Alesh.rebuildRows (a : Alesh) (r : Rebuild) : List Nat :=
  let st (i : Nat) : Option Nat := ((a.answersOf r.gsid).find? fun x => x.row == i).map (·.status)
  let und := ((a.prog? r.gsid).map (·.undecided)).getD false
  (a.rows a.geo).filter fun i =>
    if r.why = 2 then i != r.col
    else if r.why = 3 then st i == some sPartial || st i == some sNone
    else if r.why = 1 && und then st i == some sFolded
    else true

/-- The fragments of a stripe other than the one wanted, in the order of R241: parity flag, index, node. -/
def Alesh.fragOrder (a : Alesh) (r : Rebuild) : List (Bool × Nat × Nat) :=
  let g := a.rebuildGeo r
  let cols := ((List.range g.k).filter fun j => r.why == 2 || j != r.col).filterMap fun j =>
    (a.colSlice g r.band j).map fun s => (false, j, a.ownerOf s)
  cols ++ (a.rebuildRows r).filterMap fun i => (a.rowNode g r.band i).bind fun n => if a.isMember n then some (true, i, n) else none
/-- Zero columns count as held zeros (R159). -/
def Alesh.zeroCols (a : Alesh) (r : Rebuild) : List Nat :=
  (List.range a.geo.k).filter fun j => (r.why == 2 || j != r.col) && (a.colSlice (a.rebuildGeo r) r.band j).isNone

/-- A REQ_ID not in use at this core. -/
def Alesh.freeReq (a : Alesh) : Nat :=
  let used := a.take.rebuilds.flatMap fun r => r.asked.map (·.1)
  (((List.range 1024).map fun i => (a.take.nextReq + i) % 1024).find? fun i => !used.contains i).getD (a.take.nextReq % 1024)

def Alesh.setRebuild (a : Alesh) (old new : Rebuild) : Alesh :=
  let l := modWhere (fun (q : Rebuild) => q.gsid == old.gsid && q.page == old.page && q.why == old.why) (fun _ => new) a.take.rebuilds
  { a with take := { a.take with rebuilds := l } }
def Alesh.dropRebuild (a : Alesh) (r : Rebuild) : Alesh :=
  { a with take := { a.take with rebuilds := a.take.rebuilds.filter fun (q : Rebuild) => !(q.gsid == r.gsid && q.page == r.page && q.why == r.why) } }
def Alesh.rebuild? (a : Alesh) (r : Rebuild) : Option Rebuild :=
  a.take.rebuilds.find? fun q => q.gsid == r.gsid && q.page == r.page && q.why == r.why

def Alesh.fragWord (a : Alesh) (r : Rebuild) (id : Nat) (parity : Bool) (index : Nat) : Nat :=
  ({ id := id, layout := a.num O.LAYOUT_GEN % 4, band := r.band, parity := parity, index := index, page := r.page, first := 0
     countM1 := 1023, status := 0 } : FragArgs).word

/-- Ask one fragment. -/
def Alesh.askOne (a : Alesh) (r0 : Rebuild) (x : Bool × Nat × Nat) : Alesh :=
  match a.rebuild? r0 with
  | none => a
  | some r =>
    let id := a.freeReq
    let b := a.setRebuild r { r with asked := r.asked ++ [(id, x.1, x.2.1, x.2.2, a.ackDue, 0)] }
    { b with take := { b.take with nextReq := (id + 1) % 1024 } }.send tFragReq x.2.2 (a.fragWord r id x.1 x.2.1) []

/-- Ask for as many fragments as are still wanted, in order; a slice from a draining core asks it alone (R249). -/
def Alesh.askMore (a : Alesh) (r0 : Rebuild) : Alesh :=
  match a.rebuild? r0 with
  | none => a
  | some r =>
    if r.direct then
      match lookup? a.take.given r.gsid with
      | some n => if r.asked.isEmpty then a.askOne r (false, r.col, n) else a
      | none => a
    else
      let have_ := (a.zeroCols r).length + r.frags.length + r.asked.length
      let open_ := (a.fragOrder r).filter fun x =>
        !(r.frags.any fun f => f.1 == x.1 && f.2.1 == x.2.1) && !(r.asked.any fun q => q.2.1 == x.1 && q.2.2.1 == x.2.1)
          && !(r.skipped.any fun q => q.1 == x.1 && q.2 == x.2.1)
      (open_.take (a.geo.k - have_)).foldl (fun (b : Alesh) (x : Bool × Nat × Nat) => b.askOne r x) a

/-! ### Agreement and decoding (R153, R210) -/

/-- Entry j of the column, pending and page-epoch records of a fragment's head. -/
def headCol (b : Bytes) (j : Nat) : Nat := bf (leAt b (64 + 8 * j) 8) 0 48
def headPend (b : Bytes) (j : Nat) : Nat := leAt b (320 + 8 * j) 8
def headPage (b : Bytes) (j : Nat) : Nat := bf (leAt b (576 + 8 * j) 8) 0 48
def headRec (b : Bytes) : PageRec := PageRec.ofWord (leAt b 0 64)

/-- Two fragments agree (R210). -/
def fragsAgree (k : Nat) (x y : Bool × Nat × Bytes) : Bool :=
  let dp (d p : Bool × Nat × Bytes) : Bool := decide (headCol d.2.2 d.2.1 ≤ headCol p.2.2 d.2.1)
  if !x.1 && !y.1 then true
  else if !x.1 then dp x y
  else if !y.1 then dp y x
  else (List.range k).all fun j =>
    let clash (p q : Bool × Nat × Bytes) : Bool := headPend p.2.2 j != 0 && decide (headPend p.2.2 j ≤ headCol q.2.2 j)
    !clash x y && !clash y x
def allAgree (k : Nat) : List (Bool × Nat × Bytes) → Bool
  | [] => true
  | x :: xs => xs.all (fragsAgree k x) && allAgree k xs
/-- A parity fragment lags: it holds a pending delta, or stands below a data column held (R241). -/
def lags (k : Nat) (frags : List (Bool × Nat × Bytes)) (x : Bool × Nat × Bytes) : Bool :=
  x.1 && ((List.range k).any (fun j => headPend x.2.2 j != 0) || frags.any fun d => !d.1 && decide (headCol x.2.2 d.2.1 < headCol d.2.2 d.2.1))

/-- The identity and the CRC of a fragment received (R47, R241). -/
def Alesh.fragGood (a : Alesh) (r : Rebuild) (parity : Bool) (index : Nat) (b : Bytes) : Bool :=
  let h := headRec b
  let data := b.drop headBytes
  if !h.valid then h.wellFormed && data.all (· == 0)
  else
    h.version == 1 && h.job == a.num O.JOB_ID && h.page == r.page && h.crc == crc64 data &&
    (if parity then h.kind == kParity && h.shard == (a.rebuildGeo r).group && h.slice == r.band && h.frag == index
     else match a.colSlice (a.rebuildGeo r) r.band index with
       | some g => h.kind == Alesh.pageKind g r.page && h.shard == gsidShard g && h.slice == gsidSlice g
       | none => false)

/-- The record of a page that has been rebuilt (R242); a page that is repaired keeps OWNER and TAKEN where its record can be
read (R400). -/
def Alesh.rebuiltRec (a : Alesh) (g slot col page step : Nat) (repair valid : Bool) (b : Bytes) : PageRec :=
  let old := a.pageRec slot page
  let keep := repair && a.recordGood g slot page
  let r : PageRec := { PageRec.blank (Alesh.pageKind g page) with
    frag := col, job := a.num O.JOB_ID, memb := a.num O.MEMBERSHIP_EPOCH, page := page, slice := gsidSlice g, shard := gsidShard g
    owner := if keep then old.owner else a.node, crc := crc64 b, base := a.elementBase g, step := step
    flags := a.pageFlags g slot page valid false }
  if keep then r.setFlag flTaken (old.has flTaken) else r

/-- Write a rebuilt page of a data column: STEP_EPOCH as the agreed version has it. VALID = 0 where the page-epoch entry is 0
(R242), but a page that was VALID stays so (R50): the two rules meet where a page stands at step epoch 0, and R50 is taken
(DESIGN CHOICE, log entry 48). -/
def Alesh.writeRebuilt (a : Alesh) (r : Rebuild) (step : Nat) (stood : Bool) (b : Bytes) : Alesh :=
  match a.liveSlot r.gsid with
  | none => a
  | some s =>
    let valid := step != 0 || stood || (r.why == 0 && (a.pageRec s r.page).valid)
    let c := ((a.wr (a.pageAddr s r.page) b).setRec s r.page (a.rebuiltRec r.gsid s r.col r.page step (r.why == 0) valid b)).unwant
      r.gsid r.page
    if r.why = 1 then
      ({ c with take := { c.take with absent := c.take.absent.filter (· != r.gsid * 256 + r.page) } }).wrap O.DEGRADED_READ_COUNT
        |>.setDegraded.chronoFlush
    else
      ((c.healed (c.pageAddr s r.page / pageBytes) (c.metaAddr s r.page / pageBytes)).count O.UE_REPAIRED_COUNT).scanSettle
        (.live r.gsid r.page) true

/-- Write a rebuilt parity page; the column record and table of a lost slot come back from the fragments (R400). -/
def Alesh.writeParityBack (a : Alesh) (r : Rebuild) (frags : List (Bool × Nat × Bytes)) (b : Bytes) : Alesh :=
  let k := a.geo.k
  let slot := r.gsid
  let first := (frags.find? fun f => f.1).map (·.2.2)
  let col (j : Nat) : Nat := match frags.find? fun f => !f.1 && f.2.1 == j, first with
    | some d, none => headCol d.2.2 j
    | _, some h => headCol h j
    | none, none => 0
  let page (j : Nat) : Nat := match first with
    | some h => headPage h j
    | none => match frags.find? fun f => !f.1 && f.2.1 == j with
      | some d => if (headRec d.2.2).valid then (headRec d.2.2).step else 0
      | none => 0
  let lost := a.coding.lost.contains slot
  let b1 := if lost then (List.range k).foldl (fun (c : Alesh) (j : Nat) => (c.setColEpoch false slot j (col j)).setPageEpoch false slot j r.page (page j)) a
    else a
  let step := (List.range k).foldl (fun m j => max m (b1.pageEpoch false slot j r.page)) 0
  let any_ := step != 0 || b.any (· != 0)
  let b2 := if any_ then b1.putParity false slot r.band r.col r.page step (a.slotGroup false slot) b else b1
  let rest := b2.coding.damaged.filter (· != slot * 256 + r.page)
  let done := lost && !rest.any fun x => x / 256 == slot
  let b3 := { b2 with coding := { b2.coding with damaged := rest, lost := if done then b2.coding.lost.erase slot else b2.coding.lost } }
  let b4 := ((((if lost then b3.sealTable false slot else b3).healBad (a.parityAddr false slot r.page / pageBytes)).healBad
    (a.parityRecAddr false slot r.page / pageBytes)).scanSettle (.parity slot r.page) true)
  if done then ((b4.healBad (a.columnAddr false slot / pageBytes)).healBad (a.tableAddr false slot / pageBytes)).scanSettle (.slot slot) true
  else b4

/-! ### Bringing a holder up (R206) -/

/-- Holders of an adopted slice that lack its delta, under roll forward. -/
def Alesh.lacking (a : Alesh) (g : Nat) : List Answer :=
  if a.decision g == some true && ((a.prog? g).map (·.undecided)).getD false then
    (a.answersOf g).filter fun x => x.status == sPartial || x.status == sNone
  else []
/-- Pages that the transaction at `e` names: those whose record stands at `e`. -/
def Alesh.namedPages (a : Alesh) (g e : Nat) : List Nat :=
  match a.liveSlot g with
  | some s => (List.range (a.slicePages g)).filter fun p => let r := a.pageRec s p; r.valid && r.step == e
  | none => []
/-- Once a slice has no ABSENT page, ask for the old bits of each named page that has not been sent. -/
def Alesh.bringUp (a : Alesh) (g : Nat) : Alesh :=
  if (a.lacking g).isEmpty || a.take.absent.any (fun x => x / 256 == g) || !a.hasBlock g then a
  else match a.bandCol a.geo g with
    | none => a
    | some (b, j) =>
      let e := a.inProgress
      let sent (p : Nat) : Bool := (a.lacking g).all fun x => a.coding.own.any fun t =>
        t.gsid == g && t.epoch == e && t.adopt && t.real && t.holder == x.holder && t.row == x.row && t.pages.any fun q => q.1 == p
      ((a.namedPages g e).filter fun p => !sent p).foldl (fun (c : Alesh) (p : Nat) =>
        c.addRebuild { Rebuild.fresh g p b j 3 with urgent := true }) a
/-- The old bits of a page are known: its delta goes to every holder that lacks it. -/
def Alesh.sendBringUp (a : Alesh) (r : Rebuild) (old : Bytes) : Alesh :=
  let e := a.inProgress
  let d := xorBytes old (a.livePage r.gsid r.page)
  let n := (a.namedPages r.gsid e).length
  (a.lacking r.gsid).foldl (fun (c : Alesh) (x : Answer) =>
    let x1 : Target := { row := x.row, node := x.holder, band := r.band, col := r.col, extra := false, alt := false }
    let mine (t : OwnTx) : Bool := t.gsid == r.gsid && t.epoch == e && t.adopt && t.real && t.holder == x.holder && t.row == x.row
    let c1 := if c.coding.own.any mine then c else c.openTx r.gsid e n x1 true
    match c1.coding.own.find? mine with
    | some t => if t.pages.any fun q => q.1 == r.page then c1 else c1.sendPage t r.page d
    | none => c1) a

/-! ### Progress of a rebuild -/

/-- The decode has failed: no k fragments can be had (R153, R243). Each reader that waits for the page gets a bus error, which
makes its unit FAULTED (R404); of a repair, LAST_UE takes the bus error as its outcome (R400). -/
def Alesh.decodeFailed (a : Alesh) (r : Rebuild) : Alesh :=
  let readers := if r.why = 0 ∨ r.why = 1 then (a.take.wanted.filter fun w => w.1 == r.gsid * 256 + r.page).map (·.2) else []
  let b := ((((a.dropRebuild r).count O.DECODE_FAIL_COUNT).count O.BUSERR_COUNT).beyondG0).faultUnits (busUnits readers)
  let c := if readers.isEmpty then b else b.unwant r.gsid r.page
  if r.why = 0 then
    (c.setUe (((a.liveSlot r.gsid).map fun s => a.pageAddr s r.page).getD 0) 2).scanSettle (.live r.gsid r.page) false
  else if r.why = 2 then
    ((c.setUe (a.parityAddr false r.gsid r.page) 2).scanSettle (.parity r.gsid r.page) false).scanSettle (.slot r.gsid) false
  else c

/-- A parity fragment lags behind the committed version of a live page that is repaired: the folds up to it have yet to come (R210,
R401). -/
def Alesh.behind (a : Alesh) (r : Rebuild) (x : Bool × Nat × Bytes) : Bool :=
  match r.why, a.liveSlot r.gsid with
  | 0, some s =>
    let v := ((List.range (a.slicePages r.gsid)).filter fun p => a.recordGood r.gsid s p).foldl (fun m p => max m (a.pageRec s p).step) 0
    x.1 && (decide (headCol x.2.2 r.col < v) || (headPend x.2.2 r.col != 0 && decide (headPend x.2.2 r.col ≤ v)))
  | _, _ => false
/-- The delta of a page that a roll-forward brings up may leave: the page can be read, and each holder that lacks it has room for its
transaction (R47, R189). -/
def Alesh.bringUpReady (a : Alesh) (r : Rebuild) : Bool :=
  let new (x : Answer) : Bool := !(a.coding.own.any fun t => t.gsid == r.gsid && t.epoch == a.inProgress && t.adopt && t.real
    && t.holder == x.holder && t.row == x.row)
  let l := (a.lacking r.gsid).filter new
  a.pageReady r.gsid r.page && l.all fun x => a.seqRoom x.holder (l.filter fun y => y.holder == x.holder).length

/-- With k agreeing fragments: decode and finish; with fewer: ask; with none left: fail; with lagging ones: wait. -/
def Alesh.advance (a : Alesh) (r0 : Rebuild) : Alesh :=
  match a.rebuild? r0 with
  | none => a
  | some r =>
    let k := a.geo.k
    let zeros : List (Bool × Nat × Bytes) := (a.zeroCols r).map fun j => (false, j, List.replicate pageBytes 0)
    if r.direct then a
    else if decide (k ≤ zeros.length + r.frags.length) then
      let own : List (Bool × Nat × Bytes) :=
        if r.why = 2 && !a.coding.lost.contains r.gsid then [(true, r.col, a.parityHead r.gsid r.band r.col r.page)] else []
      let late := r.frags.filter fun f => lags k r.frags f || a.behind r f
      if allAgree k (r.frags ++ own) && !r.frags.any (a.behind r) then
        let set := zeros ++ r.frags.map fun f => (f.1, f.2.1, f.2.2.drop headBytes)
        match decodeFragment k set (r.why == 2) r.col with
        | none => a.decodeFailed r
        | some b =>
          let c := (a.wrap O.DECODE_PAGES).dropRebuild r
          let step := ((r.frags.find? fun f => f.1).map fun f => headPage f.2.2 r.col).getD 0
          if r.why = 2 then c.writeParityBack r r.frags b
          else if r.why = 3 then
            if a.bringUpReady r then c.sendBringUp r b
            else (a.needPage uCoding r.gsid r.page).setRebuild r { r with retry := some (a.now + a.num O.DEGRADED_RETRY_NS) }
          else (c.writeRebuilt r step false b).bringUp r.gsid
      else
        a.setRebuild r { r with frags := r.frags.filter (fun f => !late.contains f), retry := some (a.now + a.num O.DEGRADED_RETRY_NS) }
    else
      let b := a.askMore r
      let left := (b.rebuild? r).map fun q => q.asked.length + q.frags.length + zeros.length
      if (left.map fun n => decide (n < k)).getD false && r.retry.isNone then b.decodeFailed r else b

/-- A fragment arrives. -/
def Alesh.fragDataIn (a : Alesh) (src : Nat) (x : FragArgs) (p : Bytes) : Alesh :=
  let hit (q : Nat × Bool × Nat × Nat × Nat × Nat) : Bool := q.1 == x.id && q.2.1 == x.parity && q.2.2.1 == x.index && q.2.2.2.1 == src
  match a.take.rebuilds.find? fun r => r.band == x.band && r.page == x.page && r.asked.any hit with
  | none => a
  | some r =>
    let r1 : Rebuild := { r with asked := r.asked.filter fun q => !hit q }
    let good := x.status == fOk && x.first == 0 && x.countM1 == 1023 && a.fragGood r x.parity x.index p
    if r.direct then
      if good then
        let h := headRec p
        let b := (a.dropRebuild r).writeRebuilt r (if h.valid then h.step else 0) h.valid (p.drop headBytes)
        b.bringUp r.gsid
      else
        let r2 : Rebuild := { r1 with direct := false }
        ((a.setRebuild r r2).askMore r2).advance r2
    else if good then (a.setRebuild r { r1 with frags := r1.frags ++ [(x.parity, x.index, p)] }).advance r1
    else (a.setRebuild r { r1 with skipped := r1.skipped ++ [(x.parity, x.index)] }).advance r1

def Alesh.fragDataRx (now : Nat) (m : Pkt) (a : Alesh) : Alesh :=
  let x := FragArgs.ofNat m.args
  let ok := decide (x.first + x.countM1 ≤ 1023) && decide (x.status ≤ 2)
    && (if x.status = fOk then m.payload.length == headBytes + 64 * (x.countM1 + 1) else m.payload.isEmpty)
  a.receive now tFragData m ok false fun b => if b.joinedOrJob then b.fragDataIn m.src x m.payload else b
def execFragDataRx (now : Nat) (m : Pkt) (s : State) : Host.Outcome State Fault Refusal := onCore (Alesh.fragDataRx now m) s

/-- A slice's pages may be rebuilt: its shard's block is merged, and an adopted slice has been decided and, under roll
forward, every HELD holder has folded (R205, R206). -/
def Alesh.rebuildable (a : Alesh) (g : Nat) : Bool :=
  match a.prog? g with
  | none => false
  | some p => !p.undecided || (a.decision g == some true && !(a.answersOf g).any fun x => x.status == sHeld)

/-- ABSENT pages in increasing slot and page order that no rebuild covers yet, those that a reader waits for ahead of the
others (R243). -/
def Alesh.nextAbsent (a : Alesh) : Option (Nat × Nat) :=
  let ps := a.take.absent.filter fun x => a.rebuildable (x / 256) && !(a.take.rebuilds.any fun r => r.why == 1 && r.gsid * 256 + r.page == x)
  let first := ps.filter fun x => a.take.wanted.any fun w => w.1 == x
  (minBy? (fun x => ((a.liveSlot (x / 256)).getD 0) * 256 + x % 256) (if first.isEmpty then ps else first)).map fun x => (x / 256, x % 256)

/-- A parity slot that is being filled is decoded once each of its columns has its base. -/
def Alesh.filling (a : Alesh) (r : Rebuild) : Bool :=
  let gr := a.slotGroup false r.gsid
  r.why == 2 && (a.coding.awaiting.contains r.gsid
    || ((a.buildingRow gr r.band r.col || a.coding.restoring) && !a.slotComplete false gr r.band r.gsid))
def Rebuild.waits (r : Rebuild) : Bool := r.asked.isEmpty && r.frags.isEmpty && r.retry.isNone && r.skipped.isEmpty

/-- Start a rebuild that waits, those that a reader needs first; else the background order's next page (R243). -/
def Alesh.rebuildRequest (now : Nat) (a0 : Alesh) : Alesh :=
  let a := a0.at now
  if !a.inJob then a
  else
    let idle := a.take.rebuilds.filter fun r => r.waits && !a.filling r
    match (idle.filter (·.urgent)).head?, idle.head? with
    | some r, _ => (a.askMore r).advance r
    | none, some r => (a.askMore r).advance r
    | none, none =>
      let flying := a.take.rebuilds.filter fun r => r.why == 1 && !r.urgent
      match a.nextAbsent with
      | none => a
      | some (g, p) =>
        let urgent := a.take.wanted.any fun w => w.1 == g * 256 + p
        if urgent || decide (flying.length < a.num O.REBUILD_DEPTH) then
          match a.bandCol a.geo g with
          | none => a
          | some (b, j) =>
            let und := ((a.prog? g).map (·.undecided)).getD false
            let direct := ((lookup? a.take.given g).map a.isMember).getD false && !und
            let r : Rebuild := { Rebuild.fresh g p b j 1 with direct := direct, urgent := urgent }
            ((a.addRebuild r).askMore r).advance r
        else a
def execRebuildRequest (now : Nat) (s : State) : Host.Outcome State Fault Refusal := onCore (Alesh.rebuildRequest now) s

/-- A request without an answer is sent again, and skipped after RETRY_LIMIT resends. -/
def Alesh.fragTimeout (now id : Nat) (a0 : Alesh) : Alesh :=
  let a := a0.at now
  let hit (q : Nat × Bool × Nat × Nat × Nat × Nat) : Bool := q.1 == id && a.due q.2.2.2.2.1
  match a.take.rebuilds.find? fun r => r.asked.any hit with
  | none => a
  | some r =>
    match r.asked.find? hit with
    | none => a
    | some q =>
      if q.2.2.2.2.2 < a.num O.RETRY_LIMIT then
        (a.setRebuild r { r with asked := modWhere hit (fun q => (q.1, q.2.1, q.2.2.1, q.2.2.2.1, a.ackDue, q.2.2.2.2.2 + 1)) r.asked }).send
          tFragReq q.2.2.2.1 (a.fragWord r id q.2.1 q.2.2.1) []
      else
        let r1 : Rebuild := { r with asked := r.asked.filter (fun x => !hit x)
                                     skipped := if r.direct then r.skipped else r.skipped ++ [(q.2.1, q.2.2.1)], direct := false }
        (a.setRebuild r r1).advance r1
def execFragReqTimeout (now id : Nat) (s : State) : Host.Outcome State Fault Refusal := onCore (Alesh.fragTimeout now id) s

/-- After DEGRADED_RETRY_NS the dropped parity fragments of a rebuild, named by its place in the list, are asked again. -/
def Alesh.degradedRetry (now id : Nat) (a0 : Alesh) : Alesh :=
  let a := a0.at now
  match a.take.rebuilds[id]? with
  | some r =>
    if (r.retry.map a.due).getD false then
      let r1 : Rebuild := { r with retry := none }
      (a.setRebuild r r1).advance r1
    else a
  | none => a
def execDegradedRetry (now id : Nat) (s : State) : Host.Outcome State Fault Refusal := onCore (Alesh.degradedRetry now id) s

/-- The RETAIN TAKE is repeated, with its generation, until the slice's owner combine is complete (R236). -/
def Alesh.retainTakeResend (now g : Nat) (a0 : Alesh) : Alesh :=
  let a := a0.at now
  match a.take.retainTakes.find? fun r => r.1 == g with
  | none => a
  | some (_, gen, e, due) =>
    let keep := a.take.retainTakes.filter fun (r : Nat × Nat × Nat × Nat) => r.1 != g
    if (a.grad? g e).isSome || !a.owns g || decide (e ≤ a.num O.STEP_EPOCH) then { a with take := { a.take with retainTakes := keep } }
    else if a.due due then
      ({ a with take := { a.take with retainTakes := keep ++ [(g, gen, e, a.ackDue)] } }).sendRetainTake g gen
    else a
def execRetainTakeResend (now gsid : Nat) (s : State) : Host.Outcome State Fault Refusal := onCore (Alesh.retainTakeResend now gsid) s

end Sys2Proof.Machine
end

