-- ==== Sys2Proof/Machine/Stripes.lean ====
section
/-! DEFINITION. External rows, base pages and restriping (R167 to R175, R188, R217, R230, R244 to R248). -/
namespace Sys2Proof.Machine

/-! ### GRANT announcements (R188, R217) -/

structure GrantArgs where
  sub : Nat
  group : Nat
  rotation : Nat
  row : Nat
  package : Nat
  epochLo : Nat
  tag : Nat
  deriving DecidableEq, Repr

def GrantArgs.ofNat (w : Nat) : GrantArgs :=
  { sub := bf w 60 4, group := bf w 44 16, rotation := bf w 39 5, row := bf w 37 2, package := bf w 21 16, epochLo := bf w 13 8
    tag := bf w 28 16 }

/-- Send an announcement and keep it until the named Meridian releases. -/
def Alesh.announce (a : Alesh) (args e : Nat) (dsts : List Nat) : Alesh :=
  ({ a with take := { a.take with announces := a.take.announces ++ [(args, e, dsts, a.ackDue)] } }).sendAll tGrant dsts args []
/-- A build begins anew: what was reported of an earlier one is forgotten (R332). -/
def Alesh.forgetReports (a : Alesh) (w : Nat) : Alesh :=
  { a with take := { a.take with got := a.take.got.filter fun (g : Nat × Nat) => g.2 != w } }
/-- Announce for an external entry: to the group's members and the holder (R188). A build forgets earlier reports. -/
def Alesh.announceExt (a0 : Alesh) (sub e : Nat) (x : ExtEntry) : Alesh :=
  let a := if sub = gBuild then a0.forgetReports (extDoneWord x) else a0
  a.announce (extArgs sub x (if sub = gCancel then 0 else e)) e (a.geo.members.map (·.2) ++ [x.node])

def Alesh.announceResend (now : Nat) (a0 : Alesh) : Alesh :=
  let a := a0.at now
  let go := if a.acts lCoord then a.take.announces.filter fun (x : Nat × Nat × List Nat × Nat) => a.due x.2.2.2 else []
  let kept := modWhere (fun (x : Nat × Nat × List Nat × Nat) => go.contains x) (fun x => (x.1, x.2.1, x.2.2.1, a.ackDue)) a.take.announces
  go.foldl (fun (b : Alesh) (x : Nat × Nat × List Nat × Nat) => b.sendAll tGrant x.2.2.1 x.1 [])
    { a with take := { a.take with announces := kept } }
def execGrantAnnounceResend (now : Nat) (s : State) : Host.Outcome State Fault Refusal := onCore (Alesh.announceResend now) s

/-! ### Checks of a layout (R154, R155, R168, R175) -/

structure LayoutCheck where
  k : Nat
  m : Nat
  rank : Nat
  padded : Nat
  slots : Nat
  members : List (Nat × Nat)
  exts : List ExtEntry
  deriving DecidableEq, Repr

def LayoutCheck.n (c : LayoutCheck) : Nat := c.k + c.m
def LayoutCheck.rounds (c : LayoutCheck) : Nat := ceilDiv (ceilDiv c.padded 256) c.k

/-- The packages in which a group has members: this core's from the list, another's from the job map. -/
def Alesh.groupPackages (a : Alesh) (c : LayoutCheck) (group : Nat) : List Nat :=
  if group = a.num O.GROUP_NUMBER then c.members.map (·.1) else (a.jobMap.filter fun e => e.group == group).map (·.package)
/-- Two entries that can be ACTIVE together: of one group and rotation, and of different rows (R168, log entry 35). -/
def ExtEntry.together (x y : ExtEntry) : Bool := x.group == y.group && x.rotation == y.rotation && x.row != y.row

def Alesh.extOk (a : Alesh) (c : LayoutCheck) (x : ExtEntry) : Bool :=
  x.version == 1 && decide (x.kind ≤ 1) && (if x.kind = 0 then decide (x.row < c.m) else decide (c.m ≤ x.row))
    && decide (x.rotation < c.n) && !(a.groupPackages c x.group).contains x.package
    && (a.jobMap.any fun e => e.node == x.node && e.package == x.package)
    && c.exts.all fun y => !x.together y || x.package != y.package

/-- The checks of R175 on a layout; the placing of the areas is checked at arming. -/
def Alesh.layoutOk (a : Alesh) (c : LayoutCheck) : Bool :=
  let t := c.rounds
  let hosted := (c.exts.filter fun x => x.node == a.node).map (·.first)
  let pk := c.members.map (·.1)
  decide (2 ≤ c.k) && decide (c.k ≤ 30) && decide (1 ≤ c.m) && decide (c.m ≤ 4) && decide (c.n ≤ 32) && decide (c.rank < c.n)
    && c.members.length == c.n && (c.members[c.rank]?).map (·.2) == some a.node && (sortNat pk).length == pk.length
    && decide (t * c.n ≤ 65536) && decide (t * c.m + t * hosted.length ≤ c.slots)
    && (hosted.zipIdx.all fun p => decide (t * c.m ≤ p.1) && decide (p.1 + t ≤ c.slots)
        && hosted.zipIdx.all fun q => p.2 == q.2 || !runsMeet p.1 t q.1 t)
    && c.exts.all (a.extOk c)

/-! ### The staged layout (R245) -/

def Alesh.stageTag (a : Alesh) : Nat := leAt (a.dom O.RESTRIPE_STAGE) 0 2
def Alesh.stagedExts (a : Alesh) : List ExtEntry :=
  let b := a.dom O.RESTRIPE_STAGE
  extEntries (leAt b 7 1) (b.drop (32 + 8 * leAt b 6 1))
def Alesh.stageValid (a : Alesh) : Bool :=
  let b := a.dom O.RESTRIPE_STAGE
  let g := a.stagedGeo
  let longest := g.members.foldl (fun n p => max n (a.codedSeq p.2).length) 0
  b.length == 32 + 8 * leAt b 6 1 + 16 * leAt b 7 1 && leAt b 2 1 == 1 && g.padded == 256 * longest
    && a.layoutOk { k := g.k, m := g.m, rank := g.rank, padded := g.padded, slots := a.num O.PARITY_ALT_SLOTS, members := g.members
                    exts := a.stagedExts }

/-- The report words of R230. -/
def restripeWord (what tag : Nat) : Nat := packBits [(60, 4, what), (28, 16, tag)]
def reportWhat (w : Nat) : Nat := bf w 60 4

/-! ### Slots being built (R170, R246) -/

/-- A parity slot starts empty: records not VALID, column epochs and page epochs zero. -/
def Alesh.blankSlot (a : Alesh) (alt : Bool) (s : Nat) : Alesh :=
  let b := (List.range 256).foldl (fun (c : Alesh) (p : Nat) => c.wr (c.parityRecAddr alt s p) (PageRec.blank kParity).bytes) a
  ((b.wr (b.columnAddr alt s) (List.replicate 256 0)).wr (b.tableAddr alt s) (List.replicate 65528 0)).sealTable alt s

/-- Every slot of an entry hosted here is complete. -/
def Alesh.entryComplete (a : Alesh) (x : ExtEntry) : Bool :=
  let g := a.geo
  (List.range g.rounds).all fun q => a.slotComplete false x.group (q * g.n + x.rotation) (x.first + q)
/-- Every slot of the staged layout at this core is complete. -/
def Alesh.altComplete (a : Alesh) : Bool :=
  let g := a.stagedGeo
  (List.range g.m).all fun i => (List.range g.rounds).all fun q =>
    a.slotComplete true (a.num O.GROUP_NUMBER) (q * g.n + (g.rank + g.n - i) % g.n) (q * g.m + i)

/-- After a restore: this core has sent every base page of its slices to every holder in force (R275). -/
def Alesh.basesSent (a : Alesh) : Bool :=
  a.take.owned.all fun g => ((a.targets g).filter fun t => !t.alt && !t.extra).all fun t =>
    (List.range (a.slicePages g)).all fun p => a.coding.basesOut.contains (g, p, t.node, t.row)
/-- After a restore: every parity slot of a row in force at this core is complete, and so are, by what it knows, those elsewhere: its
base pages are all out (R275, log entry 62). -/
def Alesh.restoredSlots (a : Alesh) : Alesh :=
  let g := a.geo
  let mine := (List.range (g.rounds * g.n)).all fun b => (a.rows g).all fun i =>
    a.rowNode g b i != some a.node || match a.rowSlot g (a.num O.GROUP_NUMBER) b i with
      | some s => a.slotComplete false (a.num O.GROUP_NUMBER) b s
      | none => true
  if a.coding.restoring && mine && a.basesSent then { a with coding := { a.coding with restoring := false } } else a

/-- The slots of an entry at its holder. -/
def Alesh.extSlots (a : Alesh) (x : ExtEntry) : List Nat := (List.range a.geo.rounds).map (x.first + ·)
/-- The slots of the default member of a row. -/
def Alesh.defaultSlots (a : Alesh) (x : ExtEntry) : List Nat := (List.range a.geo.rounds).map fun q => q * a.geo.m + x.row
/-- This core is the default member of an entry's row. -/
def Alesh.isDefault (a : Alesh) (x : ExtEntry) : Bool :=
  x.group == a.num O.GROUP_NUMBER && decide (x.row < a.geo.m) && a.geo.nodeAt ((x.rotation + x.row) % a.geo.n) == a.node
/-- The slots in which this core, as the current holder of the row, keeps what a RELOCATE entry copies, with their rounds (R170). -/
def Alesh.sourceSlots (a : Alesh) (x : ExtEntry) : List (Nat × Nat) :=
  let g := a.geoFor false x.group
  if x.kind != 0 || a.rowNode g x.rotation x.row != some a.node then []
  else (List.range a.geo.rounds).filterMap fun q => (a.rowSlot g x.group (q * g.n + x.rotation) x.row).map fun s => (s, q)

/-- EXT_DONE of every hosted entry whose slots are all complete (R230), and of every row of which this core is the default member and
that has been copied back to it (R172, log entry 55). -/
def Alesh.reportBuilt (a : Alesh) : Alesh :=
  let built (p : Nat × ExtEntry) : Bool := p.2.node == a.node && a.entryComplete p.2
  let back (p : Nat × ExtEntry) : Bool :=
    a.returning p.1 p.2 && a.isDefault p.2 && !(a.coding.awaiting.any fun s => (a.defaultSlots p.2).contains s)
  (((a.extsIn 1).filter built) ++ (a.extsIn 2).filter back).foldl
    (fun (b : Alesh) (p : Nat × ExtEntry) => b.addReport p.2.group (extDoneWord p.2)) a.restoredSlots

/-- Fold what now may be folded, in epoch order. -/
def Alesh.foldReady (a : Alesh) : Alesh :=
  (sortBy (·.epoch) (a.coding.hold.filter fun t => t.commit)).foldl (fun (b : Alesh) (t : HoldTx) => b.foldComplete t.src t.seq) a

/-! ### External entries (R169 to R172) -/

/-- Transactions at this holder for an entry's row. -/
def Alesh.entryTx (a : Alesh) (x : ExtEntry) (t : HoldTx) : Bool :=
  !t.alt && !t.old && t.row == x.row && t.band % a.geo.n == x.rotation && x.node == a.node && a.groupFor t.band t.row t.src == some x.group
/-- An owner's transactions with an entry's holder. -/
def Alesh.entryOwn (a : Alesh) (x : ExtEntry) (t : OwnTx) : Bool :=
  !t.alt && t.holder == x.node && t.row == x.row && t.band % a.geo.n == x.rotation && x.group == a.num O.GROUP_NUMBER

/-- The entry's partial slots are discarded (R172); what is open of them ends, at both sides. -/
def Alesh.dropEntry (a : Alesh) (i : Nat) (x : ExtEntry) : Alesh :=
  let slots := if x.node = a.node then a.extSlots x else []
  let mine (s : Nat) : Bool := slots.contains s
  let copied := if a.extState i == 1 then (a.sourceSlots x).map (·.1) else []
  let b := (((a.dropOwn fun t => a.entryOwn x t && t.extra).endTxs (a.entryTx x)).setExt i 0)
  let c := (b.endReports fun g w => g == x.group && reportWhat w == 0 && w == extDoneWord x)
  { c with
    coding := { c.coding with
      extPlan := c.coding.extPlan.filter fun (p : Nat × Nat × Nat) => p.1 != i
      returns := c.coding.returns.filter fun (p : Nat × Nat) => p.1 != i
      based := c.coding.based.filter fun (k : Nat) => !mine (k / 32)
      basePages := c.coding.basePages.filter fun (p : Nat × Nat × Nat) => !mine (p.1 / 32)
      damaged := c.coding.damaged.filter fun (k : Nat) => !mine (k / 256)
      lost := c.coding.lost.filter fun (s : Nat) => !mine s
      frozen := c.coding.frozen.filter fun (p : Nat × Nat) => !mine p.1 && !copied.contains p.1 }
    take := { c.take with rebuilds := c.take.rebuilds.filter fun (r : Rebuild) => !(r.why == 2 && mine r.gsid) } }

/-- The default member's part of an entry whose row returns to it (R172): its transactions at this core, and the owner's. -/
def Alesh.returnTx (a : Alesh) (x : ExtEntry) (t : HoldTx) : Bool :=
  a.isDefault x && !t.alt && !t.old && t.row == x.row && t.band % a.geo.n == x.rotation
/-- The row of an entry begins to return from the Meridian of e_b: the holder's slots are copied, and the default member's wait for
them (R170, R172). -/
def Alesh.startReturn (a0 : Alesh) (i : Nat) (x : ExtEntry) (e : Nat) : Alesh :=
  let a : Alesh := { a0 with coding := { a0.coding with returns := assign a0.coding.returns i e } }
  let b := if x.node != a.node then a
    else { a with coding := { a.coding with frozen := a.coding.frozen ++ (a.extSlots x).map fun s => (s, e) } }
  if a.isDefault x then { b with coding := { b.coding with awaiting := b.coding.awaiting ++ a.defaultSlots x } } else b
/-- A return is called off: what the default member was sent is discarded, and the entry stays ACTIVE. -/
def Alesh.endReturn (a : Alesh) (i : Nat) (x : ExtEntry) : Alesh :=
  if !a.returning i x then a
  else
    let g := a.geo
    let b := (a.dropOwn fun t => t.extra && !t.alt && t.holder == g.defaultNode x && t.row == x.row && t.band % g.n == x.rotation
      && x.group == a.num O.GROUP_NUMBER).endTxs (a.returnTx x)
    let slots := if x.node = a.node then a.extSlots x else []
    let back := if a.isDefault x then a.defaultSlots x else []
    Alesh.endReports { b with coding := { b.coding with
      returns := b.coding.returns.filter fun (p : Nat × Nat) => p.1 != i
      frozen := b.coding.frozen.filter fun (p : Nat × Nat) => !slots.contains p.1
      awaiting := b.coding.awaiting.filter fun (s : Nat) => !back.contains s } } fun g w => g == x.group && w == extDoneWord x

/-- An entry becomes ACTIVE or RELEASING at the Meridian of `e`. -/
def Alesh.setExtAt (a : Alesh) (i st e : Nat) : Alesh :=
  let b := a.setExt i st
  { b with coding := { b.coding with extAt := assign b.coding.extAt i e } }
/-- A transition announced for the Meridian of `e` (R169). -/
def Alesh.extApply (a : Alesh) (i sub e : Nat) : Alesh :=
  match a.exts[i]? with
  | none => a
  | some x =>
    let here := x.node == a.node
    let own := x.group == a.num O.GROUP_NUMBER
    if sub = gBuild && x.kind = 0 && a.extState i == 2 then a.startReturn i x e
    else if sub = gBuild && a.extState i == 0 then
      let b := a.setExt i 1
      let c := { b with coding := { b.coding with extBuilt := assign b.coding.extBuilt i e } }
      let d := if here then (a.extSlots x).foldl (fun (c : Alesh) (s : Nat) => c.blankSlot false s) c else c
      { d with coding := { d.coding with frozen := d.coding.frozen ++ (a.sourceSlots x).map fun p => (p.1, e) } }
    else if sub = gActivate && a.extState i == 1 then
      let b := a.setExtAt i 2 e
      if own && x.kind = 1 then b.setNum O.STRIPE_M_ACTIVE (x.row + 1) else b
    else if sub = gWithdraw && a.extState i == 2 then
      let c := a.setExtAt i 3 e
      let b : Alesh := { c with coding := { c.coding with returns := c.coding.returns.filter fun (p : Nat × Nat) => p.1 != i } }
      if x.kind = 1 && own then b.setNum O.STRIPE_M_ACTIVE x.row else b
    else a

/-- A RELEASING entry ends here once nothing of it is left (R169). -/
def Alesh.settleReleasing (a : Alesh) : Alesh :=
  (a.extsIn 3).foldl (fun (b : Alesh) (p : Nat × ExtEntry) =>
    let x := p.2
    let slots := if x.node = b.node then b.extSlots x else []
    let open_ := (b.coding.hold.any fun t => b.entryTx x t && t.state.open_) || (b.coding.frozen.any fun f => slots.contains f.1)
      || (b.coding.own.any fun t => b.entryOwn x t) || (b.isDefault x && b.coding.awaiting.any fun s => (b.defaultSlots x).contains s)
    if open_ then b else b.dropEntry p.1 x) a

/-- An entry's build ends; an announced change of it is called off. -/
def Alesh.cancelEntry (a : Alesh) (i : Nat) (x : ExtEntry) : Alesh :=
  if a.extState i == 1 then a.dropEntry i x
  else
    let b := a.endReturn i x
    { b with coding := { b.coding with extPlan := b.coding.extPlan.filter fun (p : Nat × Nat × Nat) => p.1 != i } }
/-- Another group restripes (R169): its entries that are being built here end; with the switch those in force end too, and the deltas
up to it complete without a slot, as at a member (R247). -/
def Alesh.switchEntry (a : Alesh) (i : Nat) (x : ExtEntry) : Alesh :=
  let b := a.endReturn i x
  let later (t : HoldTx) : HoldTx := if b.entryTx x t then { t with old := true } else t
  Alesh.dropEntry { b with coding := { b.coding with hold := b.coding.hold.map later } } i x
def Alesh.foreignRestripe (a : Alesh) (group : Nat) (switch : Bool) : Alesh :=
  let one (b : Alesh) (p : ExtEntry × Nat) : Alesh := if switch then b.switchEntry p.2 p.1 else b.cancelEntry p.2 p.1
  (a.exts.zipIdx.filter fun p => p.1.group == group).foldl one a
/-- The restripings of other groups that the Meridian of `e` starts or ends. -/
def Alesh.foreignRelease (a : Alesh) (e : Nat) : Alesh :=
  let go := a.coding.restripes.filter fun (p : Nat × Bool × Nat) => decide (p.2.2 ≤ e)
  go.foldl (fun (b : Alesh) (p : Nat × Bool × Nat) => b.foreignRestripe p.1 p.2.1)
    { a with coding := { a.coding with restripes := a.coding.restripes.filter fun (p : Nat × Bool × Nat) => decide (e < p.2.2) } }

/-- The announced changes of the Meridian of `e` take effect, and announcements that it ends stop (R169, R188). -/
def Alesh.extRelease (a : Alesh) (e : Nat) : Alesh :=
  let go := a.coding.extPlan.filter fun (p : Nat × Nat × Nat) => decide (p.2.2 ≤ e)
  let b : Alesh := { a with
    coding := { a.coding with extPlan := a.coding.extPlan.filter fun (p : Nat × Nat × Nat) => decide (e < p.2.2) }
    take := { a.take with announces := a.take.announces.filter fun (x : Nat × Nat × List Nat × Nat) => decide (e < x.2.1) } }
  ((go.foldl (fun (c : Alesh) (p : Nat × Nat × Nat) => c.extApply p.1 p.2.1 p.2.2) b).settleReleasing).foreignRelease e

/-- The entry that an announcement names (R188). -/
def Alesh.findExt (a : Alesh) (x : GrantArgs) : Option (Nat × ExtEntry) :=
  (a.exts.zipIdx.find? fun p => p.1.group == x.group && p.1.rotation == x.rotation && p.1.row == x.row
    && p.1.package == x.package).map fun p => (p.2, p.1)

/-- An announcement for an external entry; one whose Meridian has released already takes effect at once. -/
def Alesh.extIn (a : Alesh) (src sub : Nat) (x : GrantArgs) : Alesh :=
  match a.findExt x with
  | none => a.malformed
  | some (i, y) =>
    let e := a.epochOf x.epochLo
    let b := { a with coding := { a.coding with extCoord := assign a.coding.extCoord y.group src } }
    let word := extDoneWord y
    if sub = gCancel then b.cancelEntry i y
    else
      let from_ := if sub = gBuild then 0 else if sub = gActivate then 1 else 2
      let c := if sub = gActivate || sub = gWithdraw then b.endReports fun g w => g == y.group && w == word else b
      let pre := c.extState i == from_ || (sub = gBuild && y.kind = 0 && c.extState i == 2 && !c.returning i y)
        || (sub = gActivate && c.coding.extPlan.any fun p => p.1 == i && p.2.1 == gBuild)
      let was := c.coding.extPlan.any fun p => p.1 == i && p.2.1 == sub && p.2.2 == e
      if !pre || was then c
      else
        let d : Alesh := { c with coding := { c.coding with extPlan := c.coding.extPlan ++ [(i, sub, e)] } }
        if e ≤ c.num O.STEP_EPOCH then c.extApply i sub e else d

def Alesh.extRx (now sub : Nat) (m : Pkt) (a : Alesh) : Alesh :=
  a.receive now tGrant m m.payload.isEmpty false fun b => if b.inJob then b.extIn m.src sub (GrantArgs.ofNat m.args) else b

def execExtBuildRx (now : Nat) (m : Pkt) (s : State) : Host.Outcome State Fault Refusal := onCore (Alesh.extRx now gBuild m) s
def execExtActivateRx (now : Nat) (m : Pkt) (s : State) : Host.Outcome State Fault Refusal := onCore (Alesh.extRx now gActivate m) s
def execExtWithdrawRx (now : Nat) (m : Pkt) (s : State) : Host.Outcome State Fault Refusal := onCore (Alesh.extRx now gWithdraw m) s
def execExtCancelRx (now : Nat) (m : Pkt) (s : State) : Host.Outcome State Fault Refusal := onCore (Alesh.extRx now gCancel m) s

/-- Cancel the builds of the entries that a test names: loss, an opening, or the start of a restriping (R169). -/
def Alesh.cancelBuilds (a : Alesh) (p : ExtEntry → Bool) : Alesh :=
  (a.exts.zipIdx).foldl (fun (b : Alesh) (q : ExtEntry × Nat) =>
    if p q.1 then b.cancelEntry q.2 q.1 else b) a

/-- Departed cores and the entries (R169, R172): builds of their groups and holders are cancelled, a withdrawal that falls
together with a loss in the group is cancelled, and an ACTIVE entry of a departed holder is a lost fragment. Answers whether
such a row of this core's group was lost. -/
def Alesh.extLoss (a : Alesh) (gone : List Nat) : Bool × Alesh :=
  let groups := gone.filterMap a.groupOf
  let hit (x : ExtEntry) : Bool := gone.contains x.node || groups.contains x.group
  let own (x : ExtEntry) : Bool := x.group == a.num O.GROUP_NUMBER
  let lost := (a.exts.zipIdx).filter fun q => gone.contains q.1.node && a.extState q.2 == 2
  let stuck := (a.exts.zipIdx).filter fun q => gone.contains q.1.node && a.extState q.2 == 3
  let b := a.cancelBuilds hit
  let c := lost.foldl (fun (c : Alesh) (q : ExtEntry × Nat) =>
    let d := c.dropEntry q.2 q.1
    if own q.1 then { d with coding := { d.coding with gone := insertNat d.coding.gone (q.1.rotation * 4 + q.1.row) } } else d) b
  let d := stuck.foldl (fun (c : Alesh) (q : ExtEntry × Nat) => c.dropEntry q.2 q.1) c
  let f : Alesh := { d with coding := { d.coding with
    restripes := d.coding.restripes.filter fun (p : Nat × Bool × Nat) => !groups.contains p.1 } }
  (lost.any fun q => own q.1, f)

/-! ### Copies and base pages (R170, R172, R246; the packet's form is the model's own, log entry 33) -/

def copyArgs (copy alt : Bool) (band row col page nM1 : Nat) : Nat :=
  packBits [(63, 1, if copy then 1 else 0), (62, 1, if alt then 1 else 0), (32, 16, band), (27, 5, col), (25, 2, row), (16, 8, page),
    (0, 8, nM1)]
/-- A base page or a slot travels as a DELTA packet: no other type uses VC3 (R177). Its payload is longer than any delta's. -/
def Alesh.sendBase (a : Alesh) (dst args : Nat) (payload : Bytes) : Alesh := a.emit { a.cresol tDelta dst args payload with vc := 3 }

/-- A slot's column record, page epoch table, records and pages. -/
def Alesh.slotCopy (a : Alesh) (s : Nat) : Bytes :=
  a.rd (a.columnAddr false s) 256 ++ a.rd (a.tableAddr false s) pageBytes
    ++ (List.range 256).flatMap fun p => (a.parityRec false s p).bytes ++ a.parityPage false s p
def copyBytes : Nat := 256 + 65536 + 256 * (64 + 65536)

/-- The holder of a row sends a slot whole, once it holds no delta up to the named epoch (R170), and folds again. -/
def Alesh.slotCopySend (now entry s : Nat) (a0 : Alesh) : Alesh :=
  let a := a0.at now
  match a.exts[entry]?, lookup? a.coding.frozen s with
  | some x, some e =>
    let st := a.extState entry
    let out := if st == 1 then (a.sourceSlots x).find? fun p => p.1 == s else none
    let back := a.returning entry x && x.node == a.node && (a.extSlots x).contains s
    let q := match out with | some p => p.2 | none => s - x.first
    let band := q * a.geo.n + x.rotation
    let waits := a.coding.hold.any fun t => t.row == x.row && t.band == band && !t.alt && !t.old && decide (t.epoch ≤ e) && t.state.open_
    let bad := (List.range 256).find? fun p => !a.parityGood false s band p
    if !a.inJob || !(out.isSome || back) || waits || a.coding.lost.contains s then a
    else if !a.tableGood false s then a.checkTable false s band x.row
    else match bad with
      | some p => a.badParity false s band x.row p
      | none =>
        let dst := if out.isSome then x.node else a.geo.defaultNode x
        let b := a.sendBase dst (copyArgs true false band x.row 0 0 0) (a.slotCopy s)
        { b with coding := { b.coding with frozen := b.coding.frozen.filter fun (f : Nat × Nat) => f.1 != s } }
  | _, _ => a
def execExtSlotCopySend (now entry slot : Nat) (s : State) : Host.Outcome State Fault Refusal :=
  onCore (Alesh.slotCopySend now entry slot) s

/-- The job began from a Plate: every owner bases its holders in force (R275). -/
def Alesh.restored (a : Alesh) : Bool := a.num O.RESTORE_STATE == 2

/-- A data owner sends a base page: STEP_EPOCH and VALID of the page, the slice's last committed epoch, the page's bits
scaled. An ABSENT page is rebuilt first (R241). -/
def Alesh.basePageSend (now g page dst row : Nat) (a0 : Alesh) : Alesh :=
  let a := a0.at now
  let widen (t : Target) : Bool := t.alt || (!t.extra && a.restored) || (a.extsIn 1).any fun e =>
    e.2.node == dst && e.2.row == row && e.2.kind == 1 && e.2.rotation == t.band % a.geo.n
  match (a.targets g).find? fun t => t.node == dst && t.row == row && widen t, a.liveSlot g, a.prog? g with
  | some t, some s, some p =>
    if !a.inJob || !a.owns g || decide (a.slicePages g ≤ page) then a
    else
      a.withPages uCoding [(g, page)] <|
      let r := a.pageRec s page
      let b := a.sendBase dst (copyArgs false t.alt t.band t.row t.col page (a.slicePages g - 1))
        (leBytes 8 p.last ++ leBytes 8 (if r.valid then r.step else 0) ++ gfScale (coef t.row t.col) (a.livePage g page))
      let key := (g, page, dst, row)
      if !b.coding.restoring || b.coding.basesOut.contains key then b
      else ({ b with coding := { b.coding with basesOut := b.coding.basesOut ++ [key] } }).restoredSlots
  | _, _, _ => a
def execBasePageSend (now gsid page dst row : Nat) (s : State) : Host.Outcome State Fault Refusal :=
  onCore (Alesh.basePageSend now gsid page dst row) s

/-- A slot's copy arrives: pages, records and epochs are taken whole, under this core's node id. -/
def Alesh.copyIn (a : Alesh) (s : Nat) (p : Bytes) : Alesh :=
  let b := ((a.wr (a.columnAddr false s) (slice p 0 256)).wr (a.tableAddr false s) (slice p 256 65536))
  let c := (List.range 256).foldl (fun (c : Alesh) (i : Nat) =>
    let at_ := 256 + 65536 + i * 65600
    let r := PageRec.ofWord (leAt p at_ 64)
    (c.wr (c.parityAddr false s i) (slice p (at_ + 64) 65536)).wr (c.parityRecAddr false s i) ({ r with owner := c.node } : PageRec).bytes) b
  let based := (List.range 32).foldl (fun l j => insertNat l (s * 32 + j)) c.coding.based
  ({ c with
    coding := { c.coding with
      based := based, awaiting := c.coding.awaiting.filter fun (x : Nat) => x != s
      damaged := c.coding.damaged.filter fun (k : Nat) => k / 256 != s
      lost := c.coding.lost.filter fun (x : Nat) => x != s }
    take := { c.take with rebuilds := c.take.rebuilds.filter fun (r : Rebuild) => !(r.why == 2 && r.gsid == s) } }).foldReady.reportBuilt

/-- A base page arrives: XOR into the slot, its epoch into the table; with the column's last page the column epoch is set
and the deltas that waited are folded. Where the page that it meets fails its check (R161), that page is decoded again once its
slot is complete (R400). -/
def Alesh.baseIn (a0 : Alesh) (alt : Bool) (s gr band row col page n : Nat) (p : Bytes) : Alesh :=
  let a := a0.checkTable alt s band row
  let key := s * 32 + col
  let have_ := (if alt then a.take.altPages else a.coding.basePages).filter fun b => b.1 == key
  if have_.any fun b => b.2.1 == page then a.count O.CRESOL_DUP_COUNT
  else
    let e := leAt p 0 8
    let st := leAt p 8 8
    let b := if !a.parityGood alt s band page then a.badParity alt s band row page
      else if st = 0 then a
      else a.putParity alt s band row page (max st (a.parityRec alt s page).step) gr (xorBytes (a.parityPage alt s page) (slice p 16 65536))
    let c := b.setPageEpoch alt s col page st
    let got := have_ ++ [(key, page, e)]
    let d : Alesh := if alt then { c with take := { c.take with altPages := c.take.altPages ++ [(key, page, e)] } }
      else { c with coding := { c.coding with basePages := c.coding.basePages ++ [(key, page, e)] } }
    if got.length < n then d
    else
      let low := got.foldl (fun m x => min m x.2.2) e
      let f := (d.setColEpoch alt s col low).sealTable alt s
      let g : Alesh := if alt then { f with take := { f.take with altBased := insertNat f.take.altBased key } }
        else { f with coding := { f.coding with based := insertNat f.coding.based key } }
      g.foldReady.reportBuilt

def Alesh.basePageIn (a : Alesh) (src w : Nat) (p : Bytes) : Alesh :=
  let alt := w.testBit 62
  let band := bf w 32 16
  let col := bf w 27 5
  let row := bf w 25 2
  let own := a.num O.GROUP_NUMBER
  let gr := (a.groupFor band row src).getD own
  if w.testBit 63 then
    match a.rowSlot a.geo own band row, a.rowSlot a.geo gr band row with
    | some s, some s2 =>
      if a.coding.awaiting.contains s then a.copyIn s p
      else if a.buildingRow gr band row && a.rowNode a.geo band row == some src then a.copyIn s2 p else a
    | none, some s2 => if a.buildingRow gr band row && (gr != own || a.rowNode a.geo band row == some src) then a.copyIn s2 p else a
    | some s, none => if a.coding.awaiting.contains s then a.copyIn s p else a
    | none, none => a.malformed
  else
    match a.rowSlot (a.geoOf alt) gr band row with
    | some s =>
      let building := if alt then a.take.building else a.buildingRow gr band row || a.coding.restoring
      if !building || (alt && gr != own) then a
      else if !a.ownsColumn alt gr band col src then a.malformed
      else a.baseIn alt s gr band row col (bf w 16 8) (bf w 0 8 + 1) p
    | none => a.malformed

/-- A base page or copy travels on VC3 under the tests of a DELTA (log entry 33). -/
def Alesh.basePageRx (now : Nat) (m : Pkt) (a : Alesh) : Alesh :=
  a.receive now tDelta m (m.payload.length == (if m.args.testBit 63 then copyBytes else 16 + pageBytes)) false fun b =>
    if b.codes then b.basePageIn m.src m.args m.payload else b
def execBasePageRx (now : Nat) (m : Pkt) (s : State) : Host.Outcome State Fault Refusal := onCore (Alesh.basePageRx now m) s

/-! ### Restriping (R244 to R248) -/

/-- The driver's stage is replaced: what was staged is gone. -/
def Alesh.unstage (a : Alesh) : Alesh := (a.setNum O.RESTRIPE_STATE 0).endReports fun _ w => reportWhat w != 0

/-- Cancel a build: the new slots are discarded and the member returns to staging (R248). -/
def Alesh.cancelRestripe (a : Alesh) : Alesh :=
  let b := ((a.dropOwn fun t => t.alt).endTxs fun t => t.alt).unstage
  { b with
    coding := { b.coding with damaged := b.coding.damaged.filter fun (k : Nat) => decide (k < 2 ^ 24)
                              lost := b.coding.lost.filter fun (k : Nat) => decide (k < 2 ^ 16) }
    take := { b.take with building := false, altBased := [], altPages := [], buildAt := none, switchAt := none
                          got := b.take.got.filter fun (g : Nat × Nat) => reportWhat g.2 == 0
                          announces := b.take.announces.filter fun (x : Nat × Nat × List Nat × Nat) => decide (bf x.1 60 4 ≤ 3) } }

/-- With a valid stage and every taken slice mapped: RESTRIPE_READY. -/
def Alesh.restripeReady (now : Nat) (a0 : Alesh) : Alesh :=
  let a := a0.at now
  if a.inJob && a.num O.RESTRIPE_STATE == 0 && a.stageValid && a.take.unmapped.isEmpty then
    (a.setNum O.RESTRIPE_STATE 1).addReport (a.num O.GROUP_NUMBER) (restripeWord 1 a.stageTag)
  else a
def execRestripeReadySend (now : Nat) (s : State) : Host.Outcome State Fault Refusal := onCore (Alesh.restripeReady now) s

/-- With every new slot complete and no ABSENT page: RESTRIPE_DONE. -/
def Alesh.restripeDone (now : Nat) (a0 : Alesh) : Alesh :=
  let a := a0.at now
  if a.inJob && a.take.building && a.num O.RESTRIPE_STATE == 2 && !a.ownsAbsent && a.altComplete then
    (a.setNum O.RESTRIPE_STATE 3).addReport (a.num O.GROUP_NUMBER) (restripeWord 2 a.stageTag)
  else a
def execRestripeDoneSend (now : Nat) (s : State) : Host.Outcome State Fault Refusal := onCore (Alesh.restripeDone now) s

/-- The build begins at the release of e_r (R246); builds of external rows end (R169). -/
def Alesh.startRestripe (a : Alesh) : Alesh :=
  let own := a.num O.GROUP_NUMBER
  let b := (a.cancelBuilds fun x => x.group == own).setNum O.RESTRIPE_STATE 2
  let g := a.stagedGeo
  let c := (List.range (g.rounds * g.m)).foldl (fun (c : Alesh) (s : Nat) => c.blankSlot true s) b
  { c with take := { c.take with building := true, altBased := [], altPages := [], buildAt := none } }

/-- Exchange the values of two objects. -/
def Alesh.exchange (a : Alesh) (x y : Nat) : Alesh := (a.setNum x (a.num y)).setNum y (a.num x)

/-- The window closes (R244, R252). -/
def Alesh.closeWindow (a : Alesh) : Alesh :=
  let b := (a.setNum O.WINDOW_OPEN_EPOCH 0).setNum O.WINDOW_LOSSES 0
  let c := { b with take := { b.take with windowM := 0 } }
  if a.num O.PROTECTION_STATE == 1 then c.setNum O.PROTECTION_STATE 0 else c

/-- Entries of other groups that the installed table names too: number before and after. A restriping ends the entries of its own
group alone (R169). -/
def Alesh.keptExts (a : Alesh) (new : List ExtEntry) : List (Nat × Nat) :=
  (a.exts.zipIdx.filter fun p => p.1.group != a.num O.GROUP_NUMBER).filterMap fun p =>
    (new.zipIdx.find? fun q => q.1 == p.1).map fun q => (p.2, q.2)
/-- A table keyed by entry numbers, under the new numbers. -/
def renumber {α : Type} (m : List (Nat × Nat)) (l : List (Nat × α)) : List (Nat × α) :=
  l.filterMap fun x => (lookup? m x.1).map fun i => (i, x.2)

/-- The release of e_s: the new layout is installed in one cclk (R247). -/
def Alesh.switchLayout (a : Alesh) : Alesh :=
  let g := a.stagedGeo
  let b := a.dom O.RESTRIPE_STAGE
  let kept := a.keptExts a.stagedExts
  let old := a.exts
  let slots := (kept.filterMap fun p => old[p.1]?).flatMap fun x => if x.node = a.node then (List.range a.geo.rounds).map (x.first + ·) else []
  let mine (s : Nat) : Bool := slots.contains s
  let seqs := g.members.map fun p => (p.2, a.codedSeq p.2)
  let c := ((((((((a.setNum O.STRIPE_K g.k).setNum O.STRIPE_M g.m).setNum O.GROUP_RANK g.rank).setDom O.GROUP_MEMBERS
    (slice b 32 (8 * g.members.length))).setNum O.PADDED_PAGES g.padded).setNum O.EXT_COUNT (leAt b 7 1)).setDom O.EXT_TABLE
    (slice b (32 + 8 * g.members.length) (16 * leAt b 7 1))).setNum O.STRIPE_M_ACTIVE g.m).setNum O.STRIPE_ROUNDS g.rounds
  let d := ((c.exchange O.PARITY_BASE O.PARITY_ALT_BASE).exchange O.PARITY_META_BASE O.PARITY_ALT_META_BASE).exchange
    O.EPOCH_TABLE_BASE O.EPOCH_TABLE_ALT_BASE
  let e := ((d.setNum O.LAYOUT_GEN (d.num O.LAYOUT_GEN + 1)).setNum O.RESTRIPE_STATE 0).closeWindow.endReports fun _ _ => true
  let f : Alesh := { e with
    coding := { e.coding with
      ext := renumber kept e.coding.ext, extPlan := renumber kept e.coding.extPlan, extBuilt := renumber kept e.coding.extBuilt
      based := e.coding.based.filter fun (k : Nat) => mine (k / 32)
      basePages := (e.coding.basePages.filter fun (p : Nat × Nat × Nat) => mine (p.1 / 32)) ++ a.take.altPages
      frozen := e.coding.frozen.filter fun (p : Nat × Nat) => mine p.1
      awaiting := [], gone := []
      damaged := e.coding.damaged.filter fun (k : Nat) => decide (k < 2 ^ 24) && mine (k / 256)
      lost := (e.coding.lost.filter mine) ++ (e.coding.lost.filter fun (k : Nat) => decide (2 ^ 16 ≤ k)).map fun (k : Nat) => k - 2 ^ 16
      returns := renumber kept e.coding.returns, extAt := renumber kept e.coding.extAt
      own := e.coding.own.map fun (t : OwnTx) => ({ t with alt := false } : OwnTx)
      hold := e.coding.hold.map fun (t : HoldTx) =>
        let foreign := a.txGroup t != a.num O.GROUP_NUMBER
        ({ t with alt := false, old := t.old || (!t.alt && !foreign) || t.state == .discarded } : HoldTx) }
    take := { e.take with
      seqs := seqs, building := false, altBased := [], altPages := [], buildAt := none, switchAt := none, got := [], announces := []
      rebuilds := e.take.rebuilds.filter fun (r : Rebuild) => r.why != 2 || mine r.gsid }
    health := { e.health with lat := [], samples := [], congested := [], calm := [] } }
  let again := f.take.rebuilds.filterMap fun (r : Rebuild) =>
    if r.why = 2 then some r else (f.bandCol f.geo r.gsid).map fun bc =>
      ({ Rebuild.fresh r.gsid r.page bc.1 bc.2 r.why with urgent := r.urgent } : Rebuild)
  let bad := (e.coding.damaged.filter fun (k : Nat) => decide (2 ^ 24 ≤ k)).map (· - 2 ^ 24)
  (bad.foldl (fun (c : Alesh) (k : Nat) => c.damageParity false (k / 256) (g.slotBand (k / 256)) (k / 256 % g.m) (k % 256))
    { f with take := { f.take with rebuilds := again } }).setHoldUsed.setDegraded

/-- The restriping's part of the release of `e`. -/
def Alesh.restripeRelease (a : Alesh) (e : Nat) : Alesh :=
  let b := match a.take.buildAt with
    | some x => if x.2 ≤ e then a.startRestripe else a
    | none => a
  match b.take.switchAt with
  | some x => if x.2 ≤ e then b.switchLayout else b
  | none => b

/-- RESTRIPE_BUILD and RESTRIPE_SWITCH of a group whose entries this core hosts (R169, DESIGN CHOICE, log entry 143); of a group that
it has nothing to do with, the packet is malformed. -/
def Alesh.foreignIn (a : Alesh) (switch : Bool) (x : GrantArgs) : Alesh :=
  let e := a.epochOf x.epochLo
  if !(a.exts.any fun y => y.node == a.node && y.group == x.group) then a.malformed
  else if e ≤ a.num O.STEP_EPOCH then a.foreignRestripe x.group switch
  else { a with coding := { a.coding with
    restripes := (a.coding.restripes.filter fun (p : Nat × Bool × Nat) => p.1 != x.group) ++ [(x.group, switch, e)] } }

/-- RESTRIPE_BUILD and RESTRIPE_SWITCH: another TAG than the staged one cancels (R248). -/
def Alesh.restripeIn (a : Alesh) (sub : Nat) (x : GrantArgs) : Alesh :=
  let e := a.epochOf x.epochLo
  let st := a.num O.RESTRIPE_STATE
  if x.group != a.num O.GROUP_NUMBER then a.foreignIn (sub == gRestripeSwitch) x
  else if x.tag != a.stageTag then a.cancelRestripe
  else if sub = gRestripeBuild then
    let b := a.endReports fun _ w => w == restripeWord 1 x.tag
    if st == 1 && b.take.buildAt.isNone then
      let c := { b with take := { b.take with buildAt := some (x.tag, e) } }
      if e ≤ a.num O.STEP_EPOCH then c.startRestripe else c
    else b
  else
    let b := a.endReports fun _ w => w == restripeWord 2 x.tag
    if st == 3 && b.take.switchAt.isNone then
      if e ≤ a.num O.STEP_EPOCH then b.switchLayout else { b with take := { b.take with switchAt := some (x.tag, e) } }
    else b

def Alesh.restripeRx (now sub : Nat) (m : Pkt) (a : Alesh) : Alesh :=
  a.receive now tGrant m m.payload.isEmpty false fun b => if b.inJob then b.restripeIn sub (GrantArgs.ofNat m.args) else b
def execRestripeBuildRx (now : Nat) (m : Pkt) (s : State) : Host.Outcome State Fault Refusal :=
  onCore (Alesh.restripeRx now gRestripeBuild m) s
def execRestripeSwitchRx (now : Nat) (m : Pkt) (s : State) : Host.Outcome State Fault Refusal :=
  onCore (Alesh.restripeRx now gRestripeSwitch m) s

/-! ### The coordinator's reports (R230, R246, R332) -/

/-- Whether every staged member has reported a word. -/
def Alesh.allReported (a : Alesh) (w : Nat) : Bool := a.stagedGeo.members.all fun p => a.take.got.contains (p.2, w)
/-- Who hears of a restriping: the members before and after, and the holders of the group's entries (R169, log entry 143). -/
def Alesh.restripeDsts (a : Alesh) : List Nat :=
  sortNat ((a.geo.members ++ a.stagedGeo.members).map (·.2)
    ++ (a.exts.filter fun x => x.group == a.num O.GROUP_NUMBER).map fun x => x.node)
/-- With all reports of a step held, the coordinator announces the next one, two epochs above its epoch in progress. -/
def Alesh.coordinate (a : Alesh) : Alesh :=
  let e := a.inProgress + 2
  let own := a.num O.GROUP_NUMBER
  let dsts := a.restripeDsts
  let said (args : Nat) : Bool := a.take.announces.any fun x => bf x.1 28 36 == bf args 28 36
  let ready := restripeArgs gRestripeBuild own a.stageTag e
  let done := restripeArgs gRestripeSwitch own a.stageTag e
  let st := a.num O.RESTRIPE_STATE
  let built := (a.extsIn 1).filter fun p => p.2.group == own
  let held (p : Nat × ExtEntry) : Bool := a.take.got.contains (p.2.node, extDoneWord p.2)
  let about (p : Nat × ExtEntry) (sub : Nat) : Bool := a.coding.extPlan.any fun q => q.1 == p.1 && q.2.1 == sub
  let sent (sub : Nat) (p : Nat × ExtEntry) : Bool :=
    a.take.announces.any fun x => bf x.1 60 4 == sub && bf x.1 21 39 == bf (extArgs sub p.2 0) 21 39
  let home := (a.extsIn 2).filter fun p => p.2.group == own && a.returning p.1 p.2
    && a.take.got.contains (a.geo.defaultNode p.2, extDoneWord p.2) && !about p gWithdraw && !sent gWithdraw p
  if st == 1 && a.allReported (restripeWord 1 a.stageTag) && !said ready then a.announce ready e dsts
  else if st == 3 && a.allReported (restripeWord 2 a.stageTag) && !said done then a.announce done e dsts
  else if !built.isEmpty && built.all held && !(built.any fun p => about p gActivate || sent gActivate p || sent gCancel p) then
    built.foldl (fun (b : Alesh) (p : Nat × ExtEntry) => b.announceExt gActivate e p.2) a
  else if st == 0 && a.num O.WINDOW_OPEN_EPOCH == 0 then
    home.foldl (fun (b : Alesh) (p : Nat × ExtEntry) => b.announceExt gWithdraw e p.2) a
  else a

/-- A report arrives; duplicates are ignored. One that reaches a holder which does not act yet is dropped and comes again with the next
resend (DESIGN CHOICE, log entry 151). -/
def Alesh.reportIn (a : Alesh) (src : Nat) (x : LeaseArgs) (p : Bytes) : Alesh :=
  let w := leAt p 0 8
  if x.kind != lCoord || decide (2 < reportWhat w) then a.malformed
  else if x.id != a.num O.GROUP_NUMBER || !a.acts lCoord || a.take.got.contains (src, w) then a
  else ({ a with take := { a.take with got := a.take.got ++ [(src, w)] } }).coordinate
def execLeaseReportRx (now : Nat) (m : Pkt) (s : State) : Host.Outcome State Fault Refusal :=
  onCore (Alesh.leaseRx now 3 m fun b x => b.reportIn m.src x m.payload) s

end Sys2Proof.Machine
end

