-- ==== Sys2Proof/Machine/Takeover.lean ====
section
/-! DEFINITION. Takeover of slices: who takes which, takeover blocks, hosting, windows (R67, R231 to R235, R244, R249). -/
namespace Sys2Proof.Machine

/-! ### The layer table's checks (R67, R80) -/

/-- The statistics that the step plan supplies to a layer: those of the valid entries that name it (R112). -/
def Alesh.supplied (a : Alesh) (layer i : Nat) : Bool :=
  let t := a.pcTable
  let stat := ((statOf t layer).map fun p => a.pcEntryOk t p.1 p.2.1).getD false
  if i = 0 then stat || t.zipIdx.any (fun p => p.1.target == layer && a.pcEntryOk t p.2 p.1) else if i = 1 then stat else false

/-- The lowest global element index of the records that the core holds. -/
def Alesh.lowestIndex (a : Alesh) : Option Nat :=
  minBy? id ((a.take.owned.filter fun g => a.hasBlock g && decide (0 < a.records g)).map a.elementBase)

/-- The checks of R67 on the layer table in force. -/
def Alesh.layersOk (a : Alesh) : Bool :=
  let ls := a.layers
  let exps (l : Nat) : Bool :=
    let at_ := a.num O.LAYER_EXP_BASE + l
    decide (0x90000 + a.num O.REPL_RECORDS * a.recBytes ≤ at_) && decide (at_ < (9 + a.num O.REPL_PAGES) * pageBytes)
  increasing (ls.map (·.base))
    && (match a.lowestIndex, ls.head? with
        | some x, some e => decide (e.base ≤ x)
        | some _, none => false
        | none, _ => true)
    && ls.all fun e => a.recipeLoaded e.slot && (a.recipe e.slot).recordBytes == a.recBytes && exps e.layer
        && (List.range 4).all fun i => !(a.recipe e.slot).readsStat i || a.supplied e.layer i

/-- Global reductions that share a tag use one opcode in every loaded slot (R80). -/
def Alesh.tagsOk (a : Alesh) : Bool :=
  let ns := ((List.range 8).filter a.recipeLoaded).flatMap fun s => (a.recipe s).nodes.filter fun n => n.isReduction && n.global
  ns.all fun x => ns.all fun y => x.tag != y.tag || x.op == y.op

/-! ### Takeover blocks (R233, R234) -/

structure TakeBlock where
  epoch : Nat
  shard : Nat
  pages : Nat
  first : Nat
  layers : Nat
  pubs : Nat
  pcs : Nat
  version : Nat
  raw : Bytes
  deriving DecidableEq, Repr

/-- The blocks of a takeover set; fuel bounds their number. -/
def takeBlocks : Nat → Bytes → List TakeBlock
  | 0, _ => []
  | n + 1, b =>
    if b.length < 32 then []
    else
      let w := leAt b 0 32
      let nl := bf w 112 16
      let np := bf w 96 16
      let nc := bf w 88 8
      let len := 32 + 16 * nl + 32 * np + 32 * nc
      { epoch := bf w 224 32, shard := bf w 208 16, pages := bf w 176 32, first := bf w 128 48, layers := nl, pubs := np, pcs := nc
        version := bf w 52 4, raw := slice b 0 len } :: takeBlocks n (b.drop len)

/-- Cut a table into entries of a width. -/
def entriesOf (width n : Nat) (b : Bytes) : List Bytes := (List.range n).map fun i => slice b (width * i) width

def TakeBlock.layerBytes (t : TakeBlock) : List Bytes := entriesOf 16 t.layers (t.raw.drop 32)
def TakeBlock.pubBytes (t : TakeBlock) : List Bytes := entriesOf 32 t.pubs (t.raw.drop (32 + 16 * t.layers))
def TakeBlock.pcBytes (t : TakeBlock) : List Bytes := entriesOf 32 t.pcs (t.raw.drop (32 + 16 * t.layers + 32 * t.pubs))

/-- The blocks merged for a shard so far. -/
def Alesh.mergedOf (a : Alesh) (shard : Nat) : List TakeBlock :=
  (takeBlocks (a.dict.merged.length + 1) (a.dict.merged.flatMap id)).filter fun t => t.shard == shard
/-- The tables with a block merged in: layer entries in BASE_INDEX order, publish entries by LAYER_ID, preconditioner entries
behind. Where a shard's slices are taken at two adoptions, the later block repeats what the earlier one brought: a layer or
preconditioner entry that an earlier block of the shard holds in the same words is not entered again (DESIGN CHOICE, log entry
140). -/
def Alesh.withBlock (a : Alesh) (t : TakeBlock) : Alesh :=
  let before := a.mergedOf t.shard
  let newLayers := t.layerBytes.filter fun b => !before.any fun x => x.layerBytes.contains b
  let newPcs := t.pcBytes.filter fun b => !before.any fun x => x.pcBytes.contains b
  let layerBase (b : Bytes) : Nat := (LayerEntry.ofWord (leNat b)).base
  let pubLayer (b : Bytes) : Nat := (PubEntry.ofWord (leNat b)).layer
  let ls := newLayers.foldl (insertBy layerBase) (entriesOf 16 (a.num O.LAYER_COUNT) (a.dom O.LAYER_TABLE))
  let old := (entriesOf 32 (a.num O.PUB_COUNT) (a.dom O.PUB_TABLE)).filter fun b => !(t.pubBytes.any fun c => pubLayer c == pubLayer b)
  let ps := t.pubBytes.foldl (insertBy pubLayer) old
  let cs := entriesOf 32 (a.num O.PC_COUNT) (a.dom O.PC_TABLE) ++ newPcs
  (((((a.forceDom O.LAYER_TABLE (ls.flatMap id)).forceNum O.LAYER_COUNT ls.length).forceDom O.PUB_TABLE (ps.flatMap id)).forceNum
    O.PUB_COUNT ps.length).forceDom O.PC_TABLE (cs.flatMap id)).forceNum O.PC_COUNT cs.length

/-- Every taken slice of a shard takes its records: ABSENT below SHARD_PAGES, not VALID (R232). -/
def Alesh.writeAbsent (a : Alesh) (g : Nat) : Alesh :=
  match a.liveSlot g with
  | none => a
  | some s =>
    let n := a.slicePages g
    let b := (List.range 256).foldl (fun (c : Alesh) (p : Nat) =>
      c.setRec s p { PageRec.blank (Alesh.pageKind g p) with
        slice := gsidSlice g, shard := gsidShard g, page := p, flags := c.pageFlags g s p false (decide (p < n)) }) a
    let more := (List.range n).map fun p => g * 256 + p
    ({ b with take := { b.take with absent := more.foldl insertNat b.take.absent } }).setDegraded

/-- Taken slices of a shard. -/
def Alesh.takenOf (a : Alesh) (shard : Nat) : List Nat := a.take.owned.filter fun g => gsidShard g == shard && a.takenSlice g
/-- Shards of taken slices that wait for a block. -/
def Alesh.unmergedShards (a : Alesh) : List Nat :=
  sortNat ((a.take.owned.filter fun g => a.takenSlice g && !a.hasBlock g).map gsidShard)

/-- TAKEOVER_WAIT, with evt_attention where it is set anew, and for slices newly taken whose shard has no block (R232, R233). -/
def Alesh.setWait (a : Alesh) (new : List Nat) : Alesh :=
  let wait := !a.take.unmapped.isEmpty || !a.unmergedShards.isEmpty
  let b := a.setNum O.TAKEOVER_WAIT (if wait then 1 else 0)
  if wait && (a.num O.TAKEOVER_WAIT == 0 || new.any fun g => !a.hasBlock g) then b.raiseAttention else b

/-- The tables with a block, if every check passes (R234). -/
def Alesh.joinBlock (a : Alesh) (t : TakeBlock) : Option Alesh :=
  let c := a.withBlock t
  let fits := t.version == 1 && decide (c.num O.LAYER_COUNT ≤ 1024) && decide (c.num O.PUB_COUNT ≤ 1024) && decide (c.num O.PC_COUNT ≤ 256)
  if fits && c.layersOk && c.pubArmOk && c.pcArmOk then some { c with dict := { c.dict with merged := c.dict.merged ++ [t.raw] } }
  else none
/-- Merge one block: its shard's figures, its tables, and the records of the slices that waited for it. -/
def Alesh.mergeBlock (a : Alesh) (t : TakeBlock) : Alesh :=
  let wait := (a.takenOf t.shard).filter fun g => !a.hasBlock g
  let fresh := wait.filter fun g => a.take.unmerged.contains g
  let b : Alesh := { a with take := { a.take with
    shards := (a.take.shards.filter fun (x : Nat × Nat × Nat) => x.1 != t.shard) ++ [(t.shard, t.pages, t.first)]
    unmerged := a.take.unmerged.filter fun (g : Nat) => !fresh.contains g } }
  match b.joinBlock t with
  | some c => fresh.foldl (fun (d : Alesh) (g : Nat) => d.writeAbsent g) (c.affectBlocks a wait)
  | none => a.count O.TAKEOVER_REJECT_COUNT

/-- Merge the loaded blocks of the present membership epoch for taken shards that have none yet; `new` are slices just taken. -/
def Alesh.mergeBlocks (a : Alesh) (new : List Nat) : Alesh :=
  let e := a.num O.MEMBERSHIP_EPOCH
  let b := a.dom O.TAKEOVER_SET
  let ts := (takeBlocks (b.length / 32 + 1) b).filter fun t => t.epoch == e
  (ts.foldl (fun (c : Alesh) (t : TakeBlock) => if c.unmergedShards.contains t.shard then c.mergeBlock t else c) a).setWait new

/-- The driver writes TAKEOVER_SET (R233): a whole number of blocks. -/
def takeoverSet (v : Bytes) (a : Alesh) : Res × Alesh :=
  let whole := sumNat ((takeBlocks (v.length / 32 + 1) v).map fun t => t.raw.length) == v.length
  require (decide (v.length ≤ 4194304)) .type a <| require whole .range a <|
    let b := a.setDom O.TAKEOVER_SET (keptBytes O.TAKEOVER_SET v)
    (.ok, if b.inJob then b.mergeBlocks [] else b)
def execTakeoverSetWrite (via : Via) (value : Bytes) (s : State) : Host.Outcome State Fault Refusal :=
  command via O.TAKEOVER_SET true (takeoverSet value) s

/-! ### Who takes a departing core's slices (R231) -/

/-- The members of a coding group by the job map, in increasing node id. -/
def Alesh.groupNodes (a : Alesh) (group : Nat) : List Nat := sortNat ((a.jobMap.filter fun e => e.group == group).map (·.node))
/-- The survivors in a departing core's group, from its node id on, wrapping. The bitmaps are those after the change. -/
def Alesh.survivors (a : Alesh) (n : Nat) : List Nat :=
  match a.groupOf n with
  | none => []
  | some gr =>
    let l := (a.groupNodes gr).filter fun x => x != n && a.isMember x && !a.isDraining x
    (l.filter fun x => decide (n < x)) ++ l.filter fun x => decide (x < n)

/-- Contiguous runs: the first `r` takers get `q + 1` slices, the rest `q`. -/
def runsOut (q : Nat) : Nat → List Nat → List Nat → List (Nat × Nat)
  | _, [], _ => []
  | r, n :: ns, l =>
    let k := if r = 0 then q else q + 1
    (l.take k).map (fun g => (g, n)) ++ runsOut q (r - 1) ns (l.drop k)

/-- The new owners of one departing core's slices: (slice, node). -/
def Alesh.assignment (a : Alesh) (n : Nat) : List (Nat × Nat) :=
  let l := a.codedSeq n
  let s := a.survivors n
  if s.isEmpty then [] else runsOut (l.length / s.length) (l.length % s.length) s l

/-- Owners after several departures, in increasing node id. -/
def Alesh.reassign (a : Alesh) (gone : List Nat) : Alesh :=
  (sortNat gone).foldl (fun (b : Alesh) (n : Nat) =>
    let l := b.assignment n
    let bare := (b.survivors n).isEmpty && !(b.codedSeq n).isEmpty && b.groupOf n == some (b.num O.GROUP_NUMBER)
    let owners := l.foldl (fun (o : List (Nat × Nat)) (p : Nat × Nat) => assign o p.1 p.2) b.take.owners
    let c := { b with take := { b.take with owners := owners } }
    if bare then c.beyondG0 else c) a

/-- Slices that come to this core: each is mapped to the lowest free takeover slot and awaits its decision (R205, R232).
`from_` names the draining core that gives a slice up, where there is one. -/
def Alesh.takeSlice (a : Alesh) (g : Nat) (from_ : Option Nat) : Alesh :=
  let p : Prog := { Prog.fresh g (a.num O.STEP_EPOCH) with undecided := true }
  let b : Alesh := { a with
    progs := a.progs ++ [p]
    take := { a.take with given := (a.take.given.filter fun (x : Nat × Nat) => x.1 != g) ++ (from_.map fun n => (g, n)).toList } }
  match (List.range (a.slotCount - a.ringEnd)).find? fun j => b.slotFree (b.ringEnd + j) with
  | some j =>
    let c := b.mapSlice g (b.ringEnd + j)
    if gsidShard g = a.ownShard then c.writeAbsent g
    else { c with take := { c.take with unmerged := insertNat c.take.unmerged g } }
  | none =>
    (({ b with take := { b.take with unmapped := b.take.unmapped ++ [g] } }).count O.TAKEOVER_REJECT_COUNT).raiseAttention

/-- This core's share after a change of owners: it takes what is newly its own, in coded order. -/
def Alesh.takeShare (a : Alesh) (before : List (Nat × Nat)) (leaving : List Nat) : Alesh :=
  let new := (a.take.owners.filter fun p => p.2 == a.node && !before.contains p && !a.take.owned.contains p.1).map (·.1)
  let home (g : Nat) : Nat := (lookup? before g).getD (a.homeOf (gsidShard g))
  let from_ := new.foldl (fun (l : List (Nat × Nat)) (g : Nat) => assign l g (home g)) a.take.takenFrom
  let b := { a with take := { a.take with owned := a.codedSeq a.node, takenFrom := from_ } }
  let c := (sortNat new).foldl (fun (c : Alesh) (g : Nat) =>
    c.takeSlice g (if leaving.contains (home g) then some (home g) else none)) b
  (c.setNum O.TAKEN_SLICES (c.take.owned.filter c.takenSlice).length).affectBlocks a new

/-- A draining core gives its slices up: live slots stay frozen, updates and transactions end (R249). -/
def Alesh.giveUp (a : Alesh) : Alesh :=
  let b := (a.dropOwn fun _ => true).setNum O.TAKEN_SLICES 0
  let gone := a.slots.map.flatMap fun p => ((List.range 256).filter fun i => a.isAbsent p.1 i).map fun i => p.1 * 256 + i
  let c : Alesh := { b with
    slots := { b.slots with map := [], pend := [] }
    progs := []
    take := { b.take with owned := [], unmapped := [], unmerged := [], absent := [], frozenAbsent := gone, rebuilds := b.take.rebuilds.filter (fun (r : Rebuild) => r.why == 2)
                          frozen := b.take.frozen ++ b.slots.map }
    coding := { b.coding with answers := [] } }
  c.chronoFlush

/-! ### Windows (R244, R248, R251, R252) -/

/-- An opening with its departures: the window opens or is extended, and a build in progress is cancelled. -/
def Alesh.openWindow (a : Alesh) (departures : Nat) : Alesh :=
  let fresh := a.num O.WINDOW_OPEN_EPOCH == 0
  let b := if fresh then (a.setNum O.WINDOW_OPEN_EPOCH (a.num O.MEMBERSHIP_EPOCH)).setNum O.WINDOW_LOSSES 0 else a
  let c := b.setNum O.WINDOW_LOSSES (min 255 (b.num O.WINDOW_LOSSES + departures))
  let d := if fresh then { c with take := { c.take with windowM := c.num O.STRIPE_M_ACTIVE } } else c
  let e := if d.num O.PROTECTION_STATE == 0 then d.setNum O.PROTECTION_STATE 1 else d
  (if e.num O.RESTRIPE_STATE == 0 && e.take.buildAt.isNone then e else e.cancelRestripe).setDegraded

/-! ### Hosting (R235, R54) -/

/-- Install the next hosting range where it is for this membership epoch, and ask the host to replay what is new. -/
def Alesh.installHosting (a : Alesh) : Alesh :=
  if a.num O.NEXT_HOSTING_EPOCH != a.num O.MEMBERSHIP_EPOCH then a
  else
    let f := a.num O.NEXT_VREPLICA_FIRST
    let n := a.num O.NEXT_VREPLICA_COUNT
    let new := ((List.range n).map (f + ·)).filter fun v => !a.hosts v
    let b := (a.setNum O.VREPLICA_FIRST f).setNum O.VREPLICA_COUNT n
    new.foldl (fun (c : Alesh) (v : Nat) => c.post uControl (tokReplay v c.inProgress)) b
/-- Hosting at an adoption that changes it: without a matching epoch the core keeps its range and calls for attention. -/
def Alesh.adoptHosting (a : Alesh) : Alesh :=
  if a.isDraining a.node then a.setNum O.VREPLICA_COUNT 0
  else if a.num O.NEXT_HOSTING_EPOCH == a.num O.MEMBERSHIP_EPOCH then a.installHosting
  else a.raiseAttention

end Sys2Proof.Machine
end

