-- ==== Sys2Proof/Machine/Plates.lean ====
section
/-! DEFINITION. Plates and restore (R254 to R276), and the responses that fabric requests of this core get (R311). -/
namespace Sys2Proof.Machine

/-! ### The membership's digest (R211) -/

/-- A bitmap of 262,144 bits with the bits of some nodes set. -/
def bitmapOf (ns : List Nat) : Bytes :=
  (List.range 32768).map fun i => BitVec.ofNat 8 (packBits ((List.range 8).map fun b => (b, 1, if ns.contains (8 * i + b) then 1 else 0)))
def bitmapsOf (members draining : List Nat) : Bytes := bitmapOf members ++ bitmapOf draining
def memberDigest (members draining : List Nat) : Bytes := sha256 (bitmapsOf members draining)

/-! ### The store (R261 to R263) -/

def manifestBytes : Nat := 16777216
def extentBytes : Nat := 16781312
def spillBytes : Nat := 16793600

/-- A run of the job range cut at the segments' ends: the address in each home, and the bytes from the run's start. Fuel bounds the
segments crossed. -/
def Alesh.homeRuns (a : Alesh) : Nat → Nat → Nat → Nat → List (Nat × Nat × Nat)
  | 0, _, _, _ => []
  | f + 1, x, done, n =>
    if n = 0 then []
    else match a.segOf x with
      | none => [(x, done, n)]
      | some (_, s) =>
        let k := min n (s.base + s.length - x)
        (s.homeBase + (x - s.base), done, k) :: a.homeRuns f (x + k) (done + k) (n - k)
/-- The transfers of a run of a place: gateway offset, bytes from the run's start, length (R320). -/
def Alesh.plateRuns (a : Alesh) (place off n : Nat) : List (Nat × Nat × Nat) :=
  a.homeRuns (a.num O.SEG_COUNT + 1) (a.num O.PLATE_STORE_BASE + place * a.num O.PLATE_PLACE_BYTES + off) 0 n
def Alesh.shardArea (a : Alesh) (shard : Nat) : Nat := manifestBytes + shard * a.num O.PLATE_SHARD_STRIDE
def Alesh.tagArea (a : Alesh) (g : Nat) : Nat := a.shardArea (gsidShard g) + 2097152 + gsidSlice g * extentBytes
def Alesh.rootArea (a : Alesh) (g : Nat) : Nat := a.shardArea (gsidShard g) + 32 * gsidSlice g
/-- Write to and read from a place (R320); a run that crosses segments goes as one transfer for each. -/
def Alesh.plateWrite (a : Alesh) (place off : Nat) (b : Bytes) (why : FaWhy) : Alesh :=
  (a.plateRuns place off b.length).foldl (fun (c : Alesh) (r : Nat × Nat × Nat) =>
    c.faIssue 5 (FaHdr.request opBulkWrite (a.num O.GATEWAY_NODE) r.1 (a.num O.GATEWAY_KEY) 0) (slice b r.2.1 r.2.2) why) a
def Alesh.plateRead (a : Alesh) (place off n : Nat) : Alesh :=
  (a.plateRuns place off n).foldl (fun (c : Alesh) (r : Nat × Nat × Nat) =>
    c.faIssue 5 (FaHdr.request opBulkRead (a.num O.GATEWAY_NODE) r.1 (a.num O.GATEWAY_KEY) r.2.2) [] (.restore (off + r.2.1))) a
/-- A transfer once more. -/
def Alesh.plateAgain (a : Alesh) (r : FaReq) : Alesh := a.faIssue r.vc (FaHdr.ofNat r.header) r.payload r.why

/-- Page tags (R262). -/
def pageTag (g page step : Nat) (valid : Bool) : Bytes :=
  leBytes 16 (packBits [(0, 48, step), (63, 1, if valid then 1 else 0), (64, 16, gsidShard g), (80, 16, gsidSlice g), (96, 8, page)])
/-- Leaf and inner node of a shard tree (R263). -/
def plateLeaf (tag page : Bytes) : Bytes := sha256 (0#8 :: (tag ++ page))
def plateNode (l r : Option Bytes) : Option Bytes :=
  match l, r with
  | some x, some y => some (sha256 (1#8 :: (x ++ y)))
  | some x, none => some x
  | none, y => y
/-- Node (level, i) over leaves present below a count. -/
def plateTree (leaf : Nat → Option Bytes) : Nat → Nat → Option Bytes
  | 0, i => leaf i
  | l + 1, i => plateNode (plateTree leaf l (2 * i)) (plateTree leaf l (2 * i + 1))
/-- The root of a slice from its leaves. -/
def sliceRoot (leaves : List Bytes) : Bytes := (plateTree (fun i => leaves[i]?) 8 0).getD []
/-- The root of a shard from its slice roots. -/
def shardRoot (roots : List Bytes) : Bytes := (plateTree (fun i => roots[i]?) 16 0).getD []

/-! ### PLATE_MARK (R257) -/

structure MarkArgs where
  sub : Nat
  place : Nat
  index : Nat
  last : Nat
  epoch : Nat
  deriving DecidableEq, Repr

def MarkArgs.ofNat (w : Nat) : MarkArgs := { sub := bf w 60 4, place := bf w 57 3, index := bf w 53 4, last := bf w 49 4, epoch := bf w 0 48 }
def markArgs (sub place index last epoch : Nat) : Nat :=
  packBits [(60, 4, sub), (57, 3, place), (53, 4, index), (49, 4, last), (0, 48, epoch)]
def pCut : Nat := 0
def pCutAck : Nat := 1
def pDrained : Nat := 2
def pSealed : Nat := 3
def pAbort : Nat := 4

def Alesh.setPlate (a : Alesh) (p : Plate) : Alesh := { a with plate := p }

/-- The counts that the core reports of its cut. -/
def Alesh.plateCounts (a : Alesh) : Alesh :=
  (a.setNum O.PLATE_PINNED_SLOTS (a.slots.pins.length + a.plate.spills.length)).setNum O.PLATE_EXTENTS_LEFT
    (a.plate.extents.filter fun x => !x.done).length

/-- A pin ends: a releasing slot becomes free (R38, R258). -/
def Alesh.unpin (a : Alesh) (x : Extent) : Alesh :=
  if x.spilled then { a with plate := { a.plate with spills := a.plate.spills.filter fun (s : Nat) => s != x.slot } }
  else { a with slots := { a.slots with pins := a.slots.pins.filter fun (s : Nat) => s != x.slot
                                        releasing := a.slots.releasing.filter fun (s : Nat) => s != x.slot } }

/-- The cut of this member is over. -/
def Alesh.closeCut (a : Alesh) (e : Nat) : Alesh :=
  let b := a.plate.extents.foldl (fun (c : Alesh) (x : Extent) => if x.done then c else c.unpin x) a
  let c := b.setPlate { b.plate with cut := none, frozen := false, extents := [], drainedDue := none
                                     decided := (e :: b.plate.decided).take 16 }
  ((c.setNum O.PLATE_STATE 0).setNum O.PLATE_EPOCH 0).plateCounts
/-- The member drops every pin and spill slot of the cut (R271). -/
def Alesh.abortCut (a : Alesh) : Alesh :=
  match a.plate.cut with
  | some c => (a.closeCut c.1).count O.PLATE_ABORT_COUNT
  | none => a

/-- The cut that the coordinator leads, announced or awaiting its zeroing. -/
def Alesh.leading (a : Alesh) : Option (Nat × Nat) :=
  match a.plate.announced with
  | some x => some x
  | none => a.plate.zeroing
/-- The coordinator aborts its Plate (R271). -/
def Alesh.coordAbort (a : Alesh) : Alesh :=
  match a.leading with
  | none => a
  | some (e, p) =>
    let b := a.setPlate { a.plate with announced := none, zeroing := none, acks := [], drained := [], manifest := none
                                       aborts := a.plate.aborts ++ [(e, p, 0, a.ackDue)]
                                       decided := (e :: a.plate.decided).take 16 }
    let c := b.sendAll tPlateMark (b.memb.members.filter (· != b.node)) (markArgs pAbort p 0 0 e) []
    (if (c.plate.cut.map fun (x : Nat × Nat × Nat) => x.1) == some e then c.abortCut else c).tryRelease
/-- A member finds that its cut cannot be drained (R260): the Plate is aborted; the coordinator is told (log entry 37). -/
def Alesh.failCut (a : Alesh) : Alesh :=
  match a.plate.cut with
  | none => a
  | some (e, p, _) =>
    if a.leading.isSome then a.coordAbort
    else a.abortCut.send tPlateMark a.combiner (markArgs pAbort p 0 0 e) []

/-! ### Announcing (R254 to R256) -/

/-- S of R254. A combiner that joined after commencement, and has seen no SEALED, takes the step epoch at which it entered: the one at
which the job commenced has not reached it (DESIGN CHOICE, log entry 145). -/
def Alesh.plateBase (a : Alesh) : Nat := if a.plate.sealed_ then a.num O.PLATE_LAST_SEALED else a.plate.start

/-- A cut is due: the coordinator zeroes the place's manifest header. -/
def Alesh.cutAnnounce (now : Nat) (a0 : Alesh) : Alesh :=
  let a := a0.at now
  let e := a.inProgress + 2
  if a.inJob && a.unit uRecord == .running && a.combiner == a.node && a.num O.PLATE_ENABLE == 1 && a.leading.isNone && a.plate.cut.isNone
      && decide (a.plateBase + min (a.num O.PLATE_INTERVAL_ACTIVE) (a.num O.PLATE_INTERVAL) ≤ e) then
    let p := (a.num O.PLATE_LAST_PLACE + 1) % a.num O.PLATE_PLACES
    (a.setPlate { a.plate with zeroing := some (e, p), inherited := false, foreign := false
                               aborts := a.plate.aborts.filter fun (x : Nat × Nat × Nat × Nat) => x.1 != e }).plateWrite p 0 (List.replicate 256 0) .manifestZero
  else a
def execPlateCutAnnounce (now : Nat) (s : State) : Host.Outcome State Fault Refusal := onCore (Alesh.cutAnnounce now) s

/-- The zeroing is complete: CUT to every member. -/
def Alesh.zeroComplete (now : Nat) (a0 : Alesh) : Alesh :=
  let a := a0.at now
  match a.plate.zeroing with
  | some (e, p) =>
    if a.fabric.reqs.any fun r => r.why == FaWhy.manifestZero then a
    else (a.setPlate { a.plate with zeroing := none, announced := some (e, p), acks := [], drained := [], cutDue := a.ackDue }).sendAll
      tPlateMark a.memb.members (markArgs pCut p 0 0 e) []
  | none => a
def execPlateManifestZeroComplete (now : Nat) (s : State) : Host.Outcome State Fault Refusal := onCore (Alesh.zeroComplete now) s

/-- The group entry of this member (R257, R268). -/
def Alesh.groupEntry (a : Alesh) : Bytes :=
  leBytes 2 (a.num O.GROUP_NUMBER) ++ leBytes 1 (a.num O.STRIPE_K) ++ leBytes 1 (a.num O.STRIPE_M) ++ leBytes 1 (a.num O.STRIPE_M_ACTIVE)
    ++ leBytes 1 (a.num O.STRIPE_K + a.num O.STRIPE_M) ++ leBytes 2 0 ++ leBytes 4 (a.num O.LAYOUT_GEN) ++ leBytes 4 0

/-- A CUT arrives. One that was aborted may be announced anew for the same epoch, as long as that has not released. -/
def Alesh.cutIn (a : Alesh) (src : Nat) (x : MarkArgs) : Alesh :=
  if src != a.combiner then a
  else
    let keep (b : Alesh) : Alesh :=
      (((b.setPlate { b.plate with cut := some (x.epoch, x.place, src), frozen := false, extents := []
                                   decided := b.plate.decided.filter fun (e : Nat) => e != x.epoch }).setNum O.PLATE_STATE 1).setNum
        O.PLATE_EPOCH x.epoch).send tPlateMark src (markArgs pCutAck x.place 0 0 x.epoch) []
    match a.plate.cut with
    | some (e, _, _) =>
      if e = x.epoch then a.send tPlateMark src (markArgs pCutAck x.place 0 0 x.epoch) []
      else if e < x.epoch then keep a.abortCut else a
    | none => if x.epoch ≤ a.num O.STEP_EPOCH then a else keep a

/-- A PLATE_MARK of a subtype, in a job. -/
def Alesh.markRx (now sub : Nat) (m : Pkt) (ok : Bool) (f : Alesh → MarkArgs → Alesh) (a : Alesh) : Alesh :=
  let x : MarkArgs := { MarkArgs.ofNat m.args with sub := sub }
  a.receive now tPlateMark m (ok && decide (x.place < a.num O.PLATE_PLACES)) false fun b => if b.works uRecord then f b x else b
def execCutRx (now : Nat) (m : Pkt) (s : State) : Host.Outcome State Fault Refusal :=
  onCore (Alesh.markRx now pCut m m.payload.isEmpty fun b x => b.cutIn m.src x) s

/-- The membership at the release of `e`, as far as the certificates held tell (R267, log entry 63). -/
def Alesh.membersBack (a : Alesh) (e : Nat) : List Nat :=
  a.memb.history.reverse.foldl (fun (ms : List Nat) (c : Bytes) => if e < certStep c then undoChange c ms else ms) a.memb.members
def Alesh.membEpochAt (a : Alesh) (e : Nat) : Nat :=
  match a.memb.history.find? fun c => decide (e < certStep c) with
  | some c => certEpoch c - 1
  | none => a.num O.MEMBERSHIP_EPOCH
/-- The draining members at the release of `e`, as far as the certificates held tell. -/
def Alesh.drainingBack (a : Alesh) (e : Nat) : List Nat :=
  a.memb.history.reverse.foldl (fun (ds : List Nat) (c : Bytes) => if e < certStep c then undoDraining c ds else ds) a.memb.draining
/-- A combiner that joined after the release of e_p takes a cut over: it takes the membership of then from its certificates, and what
never reached it, the configuration epoch of then, as a free value (log entry 63). -/
def Alesh.takeForeign (a : Alesh) (e : Nat) : Alesh :=
  if a.num O.STEP_EPOCH < e || (a.plate.cut.map (·.1)) == some e then a.setPlate { a.plate with foreign := false }
  else
    let d := a.drawBytes 4
    d.2.setPlate { d.2.plate with
      foreign := true, membersAt := a.membersBack e
      headerAt := leBytes 4 (a.membEpochAt e) ++ d.1 ++ memberDigest (a.membersBack e) (a.drainingBack e) }
/-- CUT_ACK: recorded, or the cut of an earlier combiner is taken over (R256); one that a removal broke is aborted (R271). -/
def Alesh.cutAckIn (a : Alesh) (src : Nat) (x : MarkArgs) : Alesh :=
  match a.plate.announced with
  | some (e, _) => if e = x.epoch then (a.setPlate { a.plate with acks := insertNat a.plate.acks src }).tryRelease else a
  | none =>
    if a.combiner != a.node || a.plate.zeroing.isSome || a.plate.decided.contains x.epoch then a
    else
      let b := (a.setPlate { a.plate with announced := some (x.epoch, x.place), acks := [src], drained := [], cutDue := a.ackDue }).takeForeign
        x.epoch
      if b.plate.inherited then b.coordAbort else b
def execCutAckRx (now : Nat) (m : Pkt) (s : State) : Host.Outcome State Fault Refusal :=
  onCore (Alesh.markRx now pCutAck m m.payload.isEmpty fun b x => b.cutAckIn m.src x) s

/-- CUT again, to the members that have not acknowledged. -/
def Alesh.cutResend (now : Nat) (a0 : Alesh) : Alesh :=
  let a := a0.at now
  match a.plate.announced with
  | some (e, p) =>
    let late := a.memb.members.filter fun n => !a.plate.acks.contains n
    if a.due a.plate.cutDue && decide (a.num O.STEP_EPOCH < e) then
      (a.setPlate { a.plate with cutDue := a.ackDue }).sendAll tPlateMark late (markArgs pCut p 0 0 e) []
    else a
  | none => a
def execCutResend (now : Nat) (s : State) : Host.Outcome State Fault Refusal := onCore (Alesh.cutResend now) s

/-! ### DRAINED (R266) -/

/-- A node entry of 64 bytes. -/
def Alesh.nodeEntry (a : Alesh) (shard level index : Nat) (d : Bytes) : Bytes :=
  leBytes 2 shard ++ leBytes 1 level ++ leBytes 1 (a.recBytesOf shard) ++ leBytes 4 index ++ leBytes 4 (a.shardPages shard)
    ++ leBytes 2 (a.num O.GROUP_NUMBER) ++ leBytes 2 0 ++ leBytes 8 (a.shardFirst shard) ++ leBytes 8 0 ++ d

/-- Maximal runs of consecutive numbers of an increasing list: (first, last). -/
def runsIn : List Nat → List (Nat × Nat)
  | [] => []
  | x :: r =>
    match runsIn r with
    | (a, b) :: t => if a = x + 1 then (x, b) :: t else (x, x) :: (a, b) :: t
    | [] => [(x, x)]

/-- The node entries of this member's cut. -/
def Alesh.cutEntries (a : Alesh) : List Bytes :=
  let gs := sortNat (a.plate.extents.map (·.gsid))
  let root (g : Nat) : Option Bytes := (a.plate.extents.find? fun x => x.gsid == g).map (·.root)
  (sortNat (gs.map gsidShard)).flatMap fun sh =>
    let runs := runsIn ((gs.filter fun g => gsidShard g == sh).map gsidSlice)
    runs.flatMap fun r => (alignedCut (r.2 + 1) r.1 r.2).map fun n =>
      a.nodeEntry sh (8 + n.1) n.2 ((plateTree (fun i => if r.1 ≤ i ∧ i ≤ r.2 then root (gsidOf sh i) else none) n.1 n.2).getD [])

/-- All DRAINED packets, to the coordinator. -/
def Alesh.sendDrained (a : Alesh) (dst : Nat) : Alesh :=
  match a.plate.cut with
  | none => a
  | some (e, p, _) =>
    let parts := match chunks 64 16 a.cutEntries with
      | [] => [[]]
      | l => l
    let go := parts.zipIdx.foldl (fun (b : Alesh) (q : List Bytes × Nat) =>
      b.send tPlateMark dst (markArgs pDrained p q.2 (parts.length - 1) e) (a.groupEntry ++ q.1.flatMap id)) a
    go.setPlate { go.plate with drainedDue := some a.ackDue }

/-- Every extent is complete: the member is drained. -/
def Alesh.checkDrained (a : Alesh) : Alesh :=
  if a.plate.frozen && a.plate.cut.isSome && a.plate.extents.all (·.done) && a.num O.PLATE_STATE == 2 then
    (a.setNum O.PLATE_STATE 3).sendDrained a.combiner
  else a

def Alesh.drainedResend (now : Nat) (a0 : Alesh) : Alesh :=
  let a := a0.at now
  if (a.plate.drainedDue.map a.due).getD false then a.sendDrained a.combiner else a
def execDrainedResend (now : Nat) (s : State) : Host.Outcome State Fault Refusal := onCore (Alesh.drainedResend now) s

/-! ### Freezing and draining (R258 to R265) -/

/-- The release of e_p at a member: its slots are pinned, and what the manifest says of this release is kept. CONFIG_EPOCH is the one
before an overlay switch at this release, MEMBERSHIP_EPOCH the one after a change that takes effect at it (R268; DESIGN CHOICE, log
entry 152). -/
def Alesh.plateFreeze (a : Alesh) (e : Nat) : Alesh :=
  match a.plate.cut with
  | some (x, _, _) =>
    if x != e then a
    else
      let ext := a.take.owned.filterMap fun g => (a.liveSlot g).map fun s =>
        ({ gsid := g, slot := s, spilled := false, started := false, failed := false, done := false, errors := 0, retry := none
           root := [] } : Extent)
      let b := a.setPlate { a.plate with
        frozen := true, extents := ext, membersAt := a.memb.members
        headerAt := leBytes 4 (a.num O.MEMBERSHIP_EPOCH) ++ leBytes 4 (a.num O.CONFIG_EPOCH) ++ memberDigest a.memb.members a.memb.draining }
      let c := { b with slots := { b.slots with pins := (ext.map fun (x : Extent) => x.slot).foldl insertNat b.slots.pins } }
      (c.setNum O.PLATE_STATE 2).plateCounts.checkDrained
  | none => a

/-- The runs of Tier 1 that bytes of a spill slot lie in: address, bytes from the run's start, length (R259, R301). -/
def Alesh.spillRuns (a : Alesh) (s off n : Nat) : List (Nat × Nat × Nat) :=
  a.homeRuns (a.num O.SEG_COUNT + 1) (a.num O.PLATE_SPILL_BASE + s * spillBytes + off) 0 n
/-- The tier-window address of a byte of a spill slot. -/
def Alesh.spillAddr (a : Alesh) (s off : Nat) : Nat := ((a.spillRuns s off 1).head?.map fun r => r.1).getD 0
def Alesh.spillRead (a : Alesh) (s off n : Nat) : Bytes := (a.spillRuns s off n).flatMap fun r => a.mem1.read r.1 r.2.2
/-- Write bytes of a spill slot. -/
def Alesh.spillWrite (a : Alesh) (s off : Nat) (b : Bytes) : Alesh :=
  (a.spillRuns s off b.length).foldl (fun (c : Alesh) (r : Nat × Nat × Nat) =>
    let whole (p : Nat) : Bool := decide (r.1 ≤ p * pageBytes) && decide ((p + 1) * pageBytes ≤ r.1 + r.2.2)
    { c with mem1 := c.mem1.write r.1 (slice b r.2.1 r.2.2)
             errs := { c.errs with bad1 := c.errs.bad1.filter fun (p : Nat) => !whole p } }) a
/-- Bytes of a spill slot touch a page of Tier 1 with an uncorrectable error. -/
def Alesh.spillBad (a : Alesh) (s off n : Nat) : Bool :=
  (a.spillRuns s off n).any fun r => a.errs.bad1.any fun p => decide (p * pageBytes < r.1 + r.2.2) && decide (r.1 < (p + 1) * pageBytes)
/-- Record and bytes of a page of an extent, and whether it passes R47. -/
def Alesh.extentPage (a : Alesh) (x : Extent) (p : Nat) : PageRec × Bytes × Bool :=
  if x.spilled then
    let r := PageRec.ofWord (leNat (a.spillRead x.slot (sliceBytes + 64 * p) 64))
    let b := a.spillRead x.slot (p * pageBytes) pageBytes
    let whole := r.version == 1 && r.kind == Alesh.pageKind x.gsid p && r.job == a.num O.JOB_ID && r.shard == gsidShard x.gsid
      && r.slice == gsidSlice x.gsid && r.page == p && r.crc == crc64 b
    (r, b, !a.spillBad x.slot (p * pageBytes) pageBytes && !a.spillBad x.slot (sliceBytes + 64 * p) 64 && r.wellFormed && (!r.valid || whole))
  else
    -- a slot given up with an ABSENT page keeps no bits of it (R260)
    let r := a.pageRec x.slot p
    let gone := (r.has flAbsent || a.take.frozenAbsent.contains (x.gsid * 256 + p)) && a.liveSlot x.gsid != some x.slot
    (r, a.rd (a.pageAddr x.slot p) pageBytes, !gone && a.pageGood x.gsid x.slot p)

def Alesh.modExtent (a : Alesh) (g : Nat) (f : Extent → Extent) : Alesh :=
  a.setPlate { a.plate with extents := modWhere (fun x => x.gsid == g) f a.plate.extents }

/-- Issue an extent's writes (R264, R320). -/
def Alesh.issueExtent (a : Alesh) (e place : Nat) (x : Extent) : Alesh :=
  let n := a.slicePages x.gsid
  let pages := (List.range n).map fun p => (p, a.extentPage x p)
  let tag (p : Nat) (r : PageRec) : Bytes := pageTag x.gsid p r.step r.valid
  let tags := pages.flatMap fun q => tag q.1 q.2.1
  let leaves := pages.map fun q => plateLeaf (tag q.1 q.2.1) (if q.2.1.valid then q.2.2.1 else List.replicate pageBytes 0)
  let root := sliceRoot leaves
  let valid := (pages.filter fun q => q.2.1.valid).map (·.1)
  let pieces := (runsIn valid).flatMap fun r => chunks 64 4 ((List.range (r.2 + 1 - r.1)).map (r.1 + ·))
  let data (ps : List Nat) : Bytes := ps.flatMap fun p => (a.extentPage x p).2.1
  let b := a.plateWrite place (a.tagArea x.gsid) (slice tags 0 4096) (.extent e x.gsid)
  let c := pieces.foldl (fun (c : Alesh) (ps : List Nat) =>
    c.plateWrite place (a.tagArea x.gsid + 4096 + (ps.headD 0) * pageBytes) (data ps) (.extent e x.gsid)) b
  (c.plateWrite place (a.rootArea x.gsid) (slice root 0 32) (.extent e x.gsid)).modExtent x.gsid fun y =>
    { y with started := true, failed := false, retry := none, root := root }

/-- Drain one extent: an ABSENT page is rebuilt first, a damaged page of a live slot is repaired first, and a damaged page of
a releasing or spill slot ends the Plate (R260). -/
def Alesh.drainExtent (a : Alesh) (x : Extent) : Alesh :=
  match a.plate.cut with
  | none => a
  | some (e, place, _) =>
    let n := a.slicePages x.gsid
    let live := !x.spilled && a.liveSlot x.gsid == some x.slot
    let absent := if live then (List.range n).filter fun p => a.isAbsent x.gsid p else []
    match absent, a.bandCol a.geo x.gsid with
    | p :: _, some bc => a.addRebuild { Rebuild.fresh x.gsid p bc.1 bc.2 1 with urgent := true }
    | p :: _, none => a.addRebuild { Rebuild.fresh x.gsid p 0 0 1 with urgent := true }
    | [], _ =>
      match (List.range n).find? fun p => !(a.extentPage x p).2.2 with
      | some p =>
        if live then a.damageLive x.gsid p
        else (a.noteUe (if x.spilled then a.spillAddr x.slot (p * pageBytes) else a.pageAddr x.slot p) 2).failCut
      | none => a.issueExtent e place x

/-- The extent whose turn it is: spilled slots, then releasing ones, then live ones, each by slot number (R264). -/
def Alesh.drainTurn (a : Alesh) : Option Extent :=
  let rank (x : Extent) : Nat := if x.spilled then 0 else if a.slots.releasing.contains x.slot then 1 else 2
  let open_ := a.plate.extents.filter fun x => !x.started && !x.done && x.retry.isNone
  (sortBy (fun (x : Extent) => rank x * 2 ^ 32 + x.slot) open_).head?
def Alesh.plateDrain (now g i : Nat) (a0 : Alesh) : Alesh :=
  let a := a0.at now
  match a.plate.extents[i]? with
  | some x => if a.works uRecord && x.gsid == g && a.drainTurn == some x then a.drainExtent x else a
  | none => a
def execPlateDrainExtent (now gsid extent : Nat) (s : State) : Host.Outcome State Fault Refusal :=
  onCore (Alesh.plateDrain now gsid extent) s

/-- An extent that failed is written again, whole. -/
def Alesh.plateRetry (now g i : Nat) (a0 : Alesh) : Alesh :=
  let a := a0.at now
  match a.plate.extents[i]? with
  | some x => if a.works uRecord && x.gsid == g && !x.done && (x.retry.map a.due).getD false then a.drainExtent { x with retry := none } else a
  | none => a
def execPlateExtentRetry (now gsid extent : Nat) (s : State) : Host.Outcome State Fault Refusal :=
  onCore (Alesh.plateRetry now gsid extent) s

/-- A write of an extent has been answered; with the last one the extent is complete, or it is written again later. -/
def Alesh.extentAnswer (a : Alesh) (e g : Nat) (ok : Bool) : Alesh :=
  if (a.plate.cut.map (·.1)) != some e then a
  else
    let b := if ok then a else (a.modExtent g fun x => { x with failed := true }).count O.PLATE_DRAIN_ERROR_COUNT
    if b.fabric.reqs.any fun r => r.why == FaWhy.extent e g then b
    else match b.plate.extents.find? fun x => x.gsid == g with
      | none => b
      | some x =>
        if x.failed then
          let c := b.modExtent g fun y => { y with started := false, errors := y.errors + 1, retry := some (b.now + b.num O.PLATE_RETRY_NS) }
          if x.errors + 1 == b.num O.RETRY_LIMIT then c.linkEvent else c
        else ((b.modExtent g fun y => { y with done := true, errors := 0 }).unpin x).plateCounts.checkDrained

/-- Spill a pinned releasing slot (R259). -/
def Alesh.plateSpill (j : Nat) (a : Alesh) : Alesh :=
  match a.plate.extents.find? fun x => !x.spilled && !x.done && x.slot == j,
      (List.range (a.num O.PLATE_SPILL_SLOTS)).find? fun s => !a.plate.spills.contains s with
  | some x, some s =>
    if !a.slots.pins.contains j || !a.slots.releasing.contains j || decide (a.num O.PLATE_SPILL_LOW ≤ a.ringFree) then a
    else
      match (List.range (a.slicePages x.gsid)).find? fun p => !a.pageGood x.gsid j p with
      | some p => (a.noteUe (a.pageAddr j p) 2).failCut
      | none =>
        let recs := (List.range 256).flatMap fun p => (a.pageRec j p).bytes
        let b := (a.spillWrite s 0 (a.rd (a.pageAddr j 0) sliceBytes)).spillWrite s sliceBytes recs
        let c := (b.unpin x).modExtent x.gsid fun y => { y with slot := s, spilled := true }
        ((c.setPlate { c.plate with spills := insertNat c.plate.spills s }).count O.PLATE_SPILL_COUNT).plateCounts
  | _, _ => a
def execPlateSpill (slot : Nat) (s : State) : Host.Outcome State Fault Refusal := onCore (Alesh.plateSpill slot) s

/-! ### Sealing (R267 to R269) -/

/-- Node entries held by the coordinator. -/
def entriesIn (p : Bytes) : List Bytes := (List.range ((p.length - 16) / 64)).map fun i => slice p (16 + 64 * i) 64
def Alesh.heldEntries (a : Alesh) : List Bytes := a.plate.drained.flatMap fun d => entriesIn d.2.2.2
/-- All DRAINED packets of every member at the release of e_p are held. -/
def Alesh.allDrained (a : Alesh) : Bool :=
  a.plate.membersAt.all fun n =>
    match a.plate.drained.find? fun d => d.1 == n with
    | some d => (List.range (d.2.2.1 + 1)).all fun i => a.plate.drained.any fun q => q.1 == n && q.2.1 == i
    | none => false

/-- The node (level, i) of a shard from the entries held: none where it is not covered, absent beyond the last slice. -/
def coverNode (es : List (Nat × Nat × Bytes)) (slices : Nat) : Nat → Nat → Option (Option Bytes)
  | 0, i =>
    if slices ≤ i then some none
    else (es.find? fun e => e.1 == 8 && e.2.1 == i).map fun e => some e.2.2
  | l + 1, i =>
    if slices ≤ i * 2 ^ (l + 1) then some none
    else match es.find? fun e => e.1 == l + 1 + 8 && e.2.1 == i with
      | some e => some (some e.2.2)
      | none =>
        match coverNode es slices l (2 * i), coverNode es slices l (2 * i + 1) with
        | some x, some y => some (plateNode x y)
        | _, _ => none

/-- The shard entries of the manifest; none while a shard is not covered. -/
def Alesh.shardEntries (a : Alesh) : Option (List Bytes) :=
  let es := a.heldEntries
  let shards := sortNat (es.map fun e => leAt e 0 2)
  let one (sh : Nat) : Option Bytes :=
    let mine := es.filter fun e => leAt e 0 2 == sh
    let first := mine.headD []
    let pages := leAt first 8 4
    match coverNode (mine.map fun e => (leAt e 2 1, leAt e 4 4, slice e 32 32)) (ceilDiv pages 256) 16 0 with
    | some (some r) => some (leBytes 2 sh ++ slice first 12 2 ++ slice first 3 1 ++ List.replicate 3 0 ++ leBytes 4 pages
        ++ List.replicate 4 0 ++ leBytes 8 (leAt first 16 6) ++ List.replicate 8 0 ++ r)
    | _ => none
  if (shards.map one).all Option.isSome then some (shards.filterMap one) else none
/-- The bits of a group entry that are not reserved (R268). -/
def groupBits : Nat := bitRuns [(95, 64), (47, 0)]
/-- The group entries, in increasing GROUP order, as the members' DRAINED gave them but for their reserved bytes (R3). -/
def Alesh.groupEntries (a : Alesh) : List Bytes :=
  let gs := a.plate.drained.map fun d => maskTable 16 groupBits (slice d.2.2.2 0 16)
  (sortNat (gs.map fun g => leAt g 0 2)).filterMap fun n => gs.find? fun g => leAt g 0 2 == n

/-- BODY_DIGEST of a manifest: bytes 0 to SIG_OFFSET − 1, with its own 32 bytes zero. -/
def bodyDigest (m : Bytes) : Bytes := sha256 (slice (overlay m 128 (List.replicate 32 0)) 0 (leAt m 120 4))
/-- The manifest of a cut (R268). -/
def Alesh.manifestOf (a : Alesh) (e place : Nat) (groups shards : List Bytes) : Bytes :=
  let sig := 256 + 16 * groups.length + 64 * shards.length
  let h := leBytes 4 0x45544C50 ++ leBytes 1 1 ++ leBytes 1 place ++ leBytes 2 0 ++ leBytes 8 e ++ leBytes 4 (a.num O.JOB_ID)
    ++ slice a.plate.headerAt 0 8 ++ leBytes 4 shards.length ++ leBytes 4 groups.length ++ leBytes 4 0 ++ leBytes 8 a.now
    ++ slice (a.dom O.SETTINGS_FINGERPRINT) 0 32 ++ slice a.plate.headerAt 8 32 ++ leBytes 8 (sig + 104) ++ leBytes 4 sig
    ++ List.replicate 132 0
  let m := h ++ groups.flatMap id ++ shards.flatMap id ++ List.replicate 104 0
  overlay m 128 (bodyDigest m)

/-- With every DRAINED packet held, the coordinator writes the manifest in one write, filled up to whole granules. -/
def Alesh.trySeal (a : Alesh) : Alesh :=
  match a.plate.announced, a.shardEntries with
  | some (e, p), some shards =>
    if ((a.plate.frozen && (a.plate.cut.map (·.1)) == some e) || a.plate.foreign) && a.plate.manifest.isNone && a.allDrained then
      let m := a.manifestOf e p a.groupEntries shards
      (a.setPlate { a.plate with manifest := some m }).plateWrite p 0 (slice m 0 (roundUp m.length 32)) .manifest
    else a
  | _, _ => a

/-- DRAINED at the coordinator. -/
def Alesh.drainedIn (a : Alesh) (src : Nat) (x : MarkArgs) (p : Bytes) : Alesh :=
  if (a.plate.announced.map (·.1)) != some x.epoch then a
  else
    let rest := a.plate.drained.filter fun (d : Nat × Nat × Nat × Bytes) => !(d.1 == src && d.2.1 == x.index)
    (a.setPlate { a.plate with drained := rest ++ [(src, x.index, x.last, p)] }).trySeal
/-- A DRAINED payload: a group entry, then up to 64 node entries at levels 8 to 24. -/
def drainedOk (x : MarkArgs) (p : Bytes) : Bool :=
  decide (16 ≤ p.length) && (p.length - 16) % 64 == 0 && decide (p.length ≤ 16 + 64 * 64) && decide (x.index ≤ x.last)
    && (entriesIn p).all fun e => decide (8 ≤ leAt e 2 1) && decide (leAt e 2 1 ≤ 24)
def execDrainedRx (now : Nat) (m : Pkt) (s : State) : Host.Outcome State Fault Refusal :=
  onCore (Alesh.markRx now pDrained m (drainedOk (MarkArgs.ofNat m.args) m.payload) fun b x => b.drainedIn m.src x m.payload) s

/-- The three settings of a sealed Plate. -/
def Alesh.sealSettings (a : Alesh) (e place : Nat) (digest : Bytes) : Alesh :=
  let b := ((a.setNum O.PLATE_LAST_SEALED e).setNum O.PLATE_LAST_PLACE place).setDom O.PLATE_LAST_DIGEST digest
  (b.setPlate { b.plate with sealed_ := true }).closeCut e

/-- The manifest write is complete: the Plate is sealed. -/
def Alesh.manifestComplete (now : Nat) (a0 : Alesh) : Alesh :=
  let a := a0.at now
  match a.plate.announced, a.plate.manifest with
  | some (e, p), some m =>
    if a.fabric.reqs.any fun r => r.why == FaWhy.manifest then a
    else
      let b := a.setPlate { a.plate with announced := none, acks := [], drained := [], manifest := none }
      (b.sendAll tPlateMark (b.memb.members.filter (· != b.node)) (markArgs pSealed p 0 0 e) []).sealSettings e p (slice m 128 32)
  | _, _ => a
def execPlateManifestWriteComplete (now : Nat) (s : State) : Host.Outcome State Fault Refusal := onCore (Alesh.manifestComplete now) s

/-- SEALED at a member. Its packet carries no digest: what PLATE_LAST_DIGEST takes is a free value (log entry 38). -/
def Alesh.sealedIn (a : Alesh) (x : MarkArgs) : Alesh :=
  match a.plate.cut with
  | some (e, p, _) =>
    if e = x.epoch ∧ p = x.place then
      let d := a.drawBytes 32
      d.2.sealSettings e p d.1
    else a
  | none => a
def execSealedRx (now : Nat) (m : Pkt) (s : State) : Host.Outcome State Fault Refusal :=
  onCore (Alesh.markRx now pSealed m m.payload.isEmpty fun b x => b.sealedIn x) s

/-- ABORT at a member; from a member at the coordinator, the Plate is aborted everywhere (log entry 37). -/
def Alesh.abortIn (a : Alesh) (x : MarkArgs) : Alesh :=
  if (a.leading.map (·.1)) == some x.epoch then a.coordAbort
  else if (a.plate.cut.map (·.1)) == some x.epoch then a.abortCut else a
def execPlateAbortRx (now : Nat) (m : Pkt) (s : State) : Host.Outcome State Fault Refusal :=
  onCore (Alesh.markRx now pAbort m m.payload.isEmpty fun b x => b.abortIn x) s

/-- Each ABORT that is due goes out again, up to RETRY_LIMIT times. -/
def Alesh.abortResend (now : Nat) (a0 : Alesh) : Alesh :=
  let a := a0.at now
  let go := a.plate.aborts.filter fun x => a.due x.2.2.2 && decide (x.2.2.1 < a.num O.RETRY_LIMIT)
  let kept := a.plate.aborts.filterMap fun x =>
    if !a.due x.2.2.2 then some x
    else if x.2.2.1 < a.num O.RETRY_LIMIT then some (x.1, x.2.1, x.2.2.1 + 1, a.ackDue) else none
  go.foldl (fun (b : Alesh) (x : Nat × Nat × Nat × Nat) =>
    b.sendAll tPlateMark (a.memb.members.filter (· != a.node)) (markArgs pAbort x.2.1 0 0 x.1) []) (a.setPlate { a.plate with aborts := kept })
def execPlateAbortResend (now : Nat) (s : State) : Host.Outcome State Fault Refusal := onCore (Alesh.abortResend now) s

/-- PLATE_ENABLE: a 0 at the coordinator aborts (R271). -/
def plateEnable (value now : Nat) (a0 : Alesh) : Res × Alesh :=
  let a := a0.at now
  require (decide (value ≤ 1)) .range a
    (let b := a.setNum O.PLATE_ENABLE value
     (.ok, if value = 0 then b.coordAbort else b))
def execPlateEnableWrite (via : Via) (value now : Nat) (s : State) : Host.Outcome State Fault Refusal :=
  command via O.PLATE_ENABLE false (plateEnable value now) s

/-- Adoption (R256, R266, R271): a removed member whose DRAINED packets are missing ends the Plate, and a new combiner hears
of every cut still open. `was` is the combiner before, `gone` the members removed. -/
def Alesh.plateAdopt (a : Alesh) (was : Nat) (gone : List Nat) : Alesh :=
  let whole (n : Nat) : Bool := match a.plate.drained.find? fun d => d.1 == n with
    | some d => (List.range (d.2.2.1 + 1)).all fun i => a.plate.drained.any fun q => q.1 == n && q.2.1 == i
    | none => false
  let new := was != a.combiner
  let mine := a.combiner == a.node
  let b := if new && mine then a.setPlate { a.plate with inherited := !gone.isEmpty } else a
  if b.leading.isSome && !mine then
    -- a draining combiner hands its cut on
    let c := b.setPlate { b.plate with announced := none, zeroing := none, acks := [], drained := [], manifest := none }
    match c.plate.cut with
    | some (e, p, _) =>
      let d := c.send tPlateMark c.combiner (markArgs pCutAck p 0 0 e) []
      if d.num O.PLATE_STATE == 3 then d.sendDrained d.combiner else d
    | none => c
  else if b.leading.isSome && gone.any fun n => !whole n then b.coordAbort
  else if new then
    match b.plate.cut with
    | some (e, p, _) =>
      let c := b.send tPlateMark b.combiner (markArgs pCutAck p 0 0 e) []
      if c.num O.PLATE_STATE == 3 then c.sendDrained c.combiner else c
    | none => b
  else b

/-! ### Return (R276) -/

/-- What a job leaves behind in a core that enters IDLE. -/
def Alesh.leaveJob (a0 : Alesh) : Alesh :=
  let a := a0.chronoSettle
  let b : Alesh := { a with
    leases := [], red := Red.reset, merid := { Merid.reset with last := a.merid.last }
    coding := { a.coding with own := [], hold := [], reports := [], answers := [], ext := [], extPlan := [] }
    take := { a.take with rebuilds := [], retainTakes := [], reports := [], got := [], announces := [], buildAt := none, switchAt := none
                          building := false, altBased := [], altPages := [] }
    slots := { a.slots with pend := [] }
    progs := a.progs.map fun (p : Prog) => ({ p with upd := none, grads := [], gradPages := [], marks := [], undecided := false } : Prog)
    pub := { a.pub with tokens := [], written := [], ready := [], pc := [], phases := [] }
    memb := { a.memb with suspects := [], heard := [], pulled := [] } }
  (((b.setHoldUsed).setRetainUsed).setNum O.MERIDIAN_SCHEDULED 0).setDom O.LOSS_SUSPECT []

/-- PLATE_RETURN: ABANDON for every open transaction, discards, abort, IDLE. -/
def plateReturn (now : Nat) (a0 : Alesh) : Res × Alesh :=
  let a := a0.at now
  require a.inJob .stateConflict a
    (let b := (a.coding.own.filter fun t => t.state != .done).foldl (fun (c : Alesh) (t : OwnTx) =>
        c.send tCommit t.holder (t.commitArgs 1) []) a
     let c := (if b.leading.isSome then b.coordAbort else b).abortCut
     let d := c.dropOrder.leaveJob
     (.ok, (({ d with ctl := { d.ctl with discarding := true } }).setCore .idle).post uControl (tokHalt (d.num O.STEP_EPOCH))))
def execPlateReturn (via : Via) (now : Nat) (s : State) : Host.Outcome State Fault Refusal :=
  command via O.PLATE_RETURN false (plateReturn now) s

/-! ### Restore (R272 to R275) -/

def Alesh.setRestore (a : Alesh) (r : Option Restore) : Alesh := a.setPlate { a.plate with restore := r }
/-- RESTORE_RANGES, in list order. -/
def restoreSlices (b : Bytes) : List Nat :=
  (List.range (b.length / 8)).flatMap fun i =>
    let w := leAt b (8 * i) 8
    (List.range (bf w 16 16)).map fun k => gsidOf (bf w 48 16) (bf w 32 16 + k)

/-- Ask for runs of a place, cut at the segments' ends. -/
def Alesh.restoreAsk (a : Alesh) (r : Restore) (whole : List (Nat × Nat)) : Alesh :=
  let runs := whole.flatMap fun x => (a.plateRuns r.place x.1 x.2).map fun q => (x.1 + q.2.1, q.2.2)
  runs.foldl (fun (b : Alesh) (x : Nat × Nat) => b.plateRead r.place x.1 x.2)
    (a.setRestore (some { r with reads := runs.map (fun x => (x.1, x.2, 0)), data := [] }))
/-- Cut a run into bulk reads of at most 4 MiB. -/
def bulkRuns (off n : Nat) : List (Nat × Nat) :=
  (List.range (ceilDiv n 4194304)).map fun i => (off + i * 4194304, min 4194304 (roundUp n 32 - i * 4194304))

def Alesh.restoreFail (a : Alesh) (code g : Nat) : Alesh :=
  ((((a.setRestore none).setNum O.RESTORE_STATE 3).setNum O.RESTORE_FAIL code).setNum O.RESTORE_FAIL_SLICE g).raiseFault

/-- RESTORE_START. The rule names STATE_CONFLICT alone; while a restore runs, or the initialisation of arming goes on, the answer is
BUSY (DESIGN CHOICE, log entry 146). -/
def restoreStart (now : Nat) (a0 : Alesh) : Res × Alesh :=
  let a := a0.at now
  require (a.ctl.core == .idle && a.unit uUpdate == .armed && a.unit uCoding == .armed) .stateConflict a
    (require (a.ctl.initJob + a.ctl.initCoding == 0 && a.plate.restore.isNone) .busy a
      (let l := restoreSlices (a.dom O.RESTORE_RANGES)
       let r : Restore := { place := a.num O.RESTORE_PLACE, slices := l, left := l, phase := 0, manifest := [], roots := [], tags := []
                            reads := [], data := [] }
       let b := ((a.setNum O.RESTORE_STATE 1).setNum O.RESTORE_FAIL 0).setNum O.RESTORE_FAIL_SLICE 0
       (.ok, b.restoreAsk r [(0, 256)])))
def execRestoreStart (via : Via) (now : Nat) (s : State) : Host.Outcome State Fault Refusal :=
  command via O.RESTORE_START false (restoreStart now) s

/-- The shard entry of a manifest. -/
def shardEntry (m : Bytes) (shard : Nat) : Option Bytes :=
  let g := leAt m 32 4
  ((List.range (min (leAt m 28 4) 262144)).map fun i => slice m (256 + 16 * g + 64 * i) 64).find? fun e => leAt e 0 2 == shard
/-- `n` bytes from a place offset, of what was read. -/
def Restore.bytes (r : Restore) (off n : Nat) : Bytes :=
  (sortBy (·.1) r.data).flatMap fun d =>
    let lo := max off d.1
    let hi := min (off + n) (d.1 + d.2.length)
    slice d.2 (lo - d.1) (hi - lo)
/-- All the bytes read, in order of offset. -/
def Restore.all (r : Restore) : Bytes := (sortBy (·.1) r.data).flatMap (·.2)

/-- The manifest's checks (R269, R270, R273): none where it passes, else the code and slice. -/
def Alesh.manifestBad (a : Alesh) (r : Restore) (m : Bytes) : Option (Nat × Nat) :=
  let sig := leAt m 120 4
  let block := slice m sig 104
  let wanted := a.num O.PLATE_SIGN_REQUIRED == 1 || leAt block 0 1 == 1
  let signed := leAt block 0 1 == 1
    && P384.verify (a.dom O.PLATE_JOB_KEY) (slice m 128 32) (beNat (slice block 8 48)) (beNat (slice block 56 48))
  if bodyDigest m != slice m 128 32 then some (1, 0)
  else if wanted && !signed then some (2, 0)
  else if leAt m 16 4 != a.num O.JOB_ID then some (3, 0)
  else if slice m 48 32 != slice (a.dom O.SETTINGS_FINGERPRINT) 0 32 then some (4, 0)
  else
    (r.slices.find? fun g => match shardEntry m (gsidShard g) with
      | some e => leAt e 4 1 != a.recBytes
      | none => true).map fun g => (5, g)

/-- The taken shards of a restore, as the manifest gives them. -/
def Alesh.restoreShards (a : Alesh) (r : Restore) : List (Nat × Nat × Nat) :=
  ((sortNat (r.slices.map gsidShard)).filter (· != a.ownShard)).filterMap fun sh =>
    (shardEntry r.manifest sh).map fun x => (sh, leAt x 8 4, leAt x 16 6)
/-- Where a restored slice goes: its own slot, or the takeover slots in list order (R272). -/
def Alesh.restoreSlot (a : Alesh) (r : Restore) (g : Nat) : Nat :=
  if gsidShard g = a.ownShard then gsidSlice g
  else
    let others := r.slices.filter fun x => gsidShard x != a.ownShard
    a.ringEnd + (others.findIdx? (· == g)).getD 0

/-- The restore has read and checked everything: the slices are this core's coded sequence (R245, R272, R273). -/
def Alesh.restoreDone (a : Alesh) (r : Restore) : Alesh :=
  let e := leAt r.manifest 8 6
  let shards := a.restoreShards r
  let lost := ((List.range a.ownSlices).map (gsidOf a.ownShard)).filter fun g => !r.slices.contains g
  let owners := (r.slices.filter fun g => gsidShard g != a.ownShard).map (fun g => (g, a.node)) ++ lost.map fun g => (g, Config.restoredOwner g)
  let b : Alesh := { a with
    slots := { a.slots with map := r.slices.map (fun g => (g, a.restoreSlot r g)), pend := [], releasing := [], pins := [], opened := [] }
    take := { a.take with owned := r.slices, owners := owners, shards := shards, unmapped := [], absent := [] }
    chrono := { a.chrono with origin := some (e, slice r.manifest 128 32) } }
  let c : Alesh := { b with take := { b.take with seqs := b.geo.members.map fun (p : Nat × Nat) =>
    (p.2, if p.2 = b.node then r.slices else b.codedSeq p.2) } }
  (((c.setRestore none).setNum O.RESTORE_STATE 2).setNum O.STEP_EPOCH e).setNum O.TAKEN_SLICES (c.take.owned.filter c.takenSlice).length

/-- Go on with the next slice, or end. -/
def Alesh.restoreSlice (a : Alesh) (r : Restore) : Alesh :=
  match r.left with
  | [] => a.restoreDone r
  | g :: _ => a.restoreAsk { r with phase := 3 } [(a.tagArea g, 4096)]

/-- Write a verified slice (R274): FRAG is its column in the coded sequence restored (R43, R157), GROUPS as at a page's first write
(R88), RETIRED as the page lies (R44). -/
def Alesh.restoreWrite (a : Alesh) (r : Restore) (g : Nat) (page : Nat → Bytes) : Alesh :=
  let j := a.restoreSlot r g
  let view : Alesh := { a with take := { a.take with shards := a.restoreShards r } }
  let col := ((r.slices.findIdx? (· == g)).getD 0) % max 1 (a.num O.STRIPE_K)
  let e := shardEntry r.manifest (gsidShard g)
  let n := min 256 (((e.map fun x => leAt x 8 4).getD 0) - 256 * gsidSlice g)
  let first := (e.map fun x => leAt x 16 6).getD 0
  let base := if isHeader g then 0 else first + (gsidSlice g - 1) * (sliceBytes / a.recBytes)
  (List.range n).foldl (fun (c : Alesh) (p : Nat) =>
    let t := leAt r.tags (16 * p) 8
    let valid := t.testBit 63
    let b := if valid then page p else List.replicate pageBytes 0
    let rec_ : PageRec := { PageRec.blank (Alesh.pageKind g p) with
      frag := col, job := a.num O.JOB_ID, memb := a.num O.MEMBERSHIP_EPOCH, page := p, slice := gsidSlice g, shard := gsidShard g
      owner := a.node, crc := crc64 b, base := base, step := bf t 0 48
      flags := packBits [(flValid, 1, if valid then 1 else 0), (flRetired, 1, if a.onSpare (a.pageAddr j p) then 1 else 0),
        (flTaken, 1, if a.takenSlice g then 1 else 0), (flGroups, 1, if view.groupsAt g p then 1 else 0)] }
    (if valid then c.wr (c.pageAddr j p) b else c).setRec j p rec_) a

/-- Everything that was asked for has been read: the next check (R273). A failure that names no slice leaves in RESTORE_FAIL_SLICE 0
for codes 1 to 4, and the shard's slice 0 for code 6; a read error, code 8, the first slice that remains (DESIGN CHOICE, log entry
147). -/
def Alesh.restoreNext (a : Alesh) (r : Restore) : Alesh :=
  if r.phase = 0 then
    -- MAGIC and VERSION first; then the body, up to SIG_OFFSET, the entries and the signature block, inside the manifest area (R269)
    let h := r.all
    let n := max (leAt h 120 4 + 104) (256 + 16 * leAt h 32 4 + 64 * leAt h 28 4)
    if leAt h 0 4 != 0x45544C50 || leAt h 4 1 != 1 || decide (manifestBytes < leAt h 120 4) then a.restoreFail 1 0
    else a.restoreAsk { r with phase := 1 } (bulkRuns 0 (min n manifestBytes))
  else if r.phase = 1 then
    let m := r.all
    match a.manifestBad r m with
    | some (code, g) => a.restoreFail code g
    | none =>
      let shards := sortNat (r.slices.map gsidShard)
      let q : Restore := { r with phase := 2, manifest := m }
      if shards.isEmpty then a.restoreDone q else a.restoreAsk q (shards.map fun sh => (a.shardArea sh, 2097152))
  else if r.phase = 2 then
    let shards := sortNat (r.slices.map gsidShard)
    let bad := shards.find? fun sh =>
      let e := (shardEntry r.manifest sh).getD []
      let b := r.bytes (a.shardArea sh) 2097152
      shardRoot ((List.range (ceilDiv (leAt e 8 4) 256)).map fun s => slice b (32 * s) 32) != slice e 32 32
    match bad with
    | some sh => a.restoreFail 6 (gsidOf sh 0)
    | none => a.restoreSlice { r with roots := shards.map fun sh => (sh, r.bytes (a.shardArea sh) 2097152) }
  else
    match r.left with
    | [] => a
    | g :: rest =>
      let e := (shardEntry r.manifest (gsidShard g)).getD []
      let n := min 256 (leAt e 8 4 - 256 * gsidSlice g)
      let page (p : Nat) : Bytes :=
        let b := r.bytes (a.tagArea g + 4096 + p * pageBytes) pageBytes
        if b.isEmpty then List.replicate pageBytes 0 else b
      let finish (q : Restore) : Alesh :=
        let leaves := (List.range n).map fun p => plateLeaf (slice q.tags (16 * p) 16) (page p)
        if sliceRoot leaves != slice ((lookupD [] q.roots (gsidShard g))) (32 * gsidSlice g) 32 then a.restoreFail 7 g
        else (a.restoreWrite q g page).restoreSlice { q with left := rest, tags := [], data := [] }
      if r.phase = 3 then
        let t := r.all
        let ep := leAt r.manifest 8 6
        let ok := (List.range n).all fun p =>
          leAt t (16 * p + 8) 2 == gsidShard g && leAt t (16 * p + 10) 2 == gsidSlice g && leAt t (16 * p + 12) 1 == p
            && decide (leAt t (16 * p) 6 ≤ ep)
        let valid := (List.range n).filter fun p => (leAt t (16 * p) 8).testBit 63
        let q : Restore := { r with phase := 4, tags := t, data := [] }
        if !ok then a.restoreFail 7 g
        else if valid.isEmpty then finish q
        else a.restoreAsk q ((runsIn valid).flatMap fun x => bulkRuns (a.tagArea g + 4096 + x.1 * pageBytes) ((x.2 + 1 - x.1) * pageBytes))
      else finish r

/-- A read of the restore has been answered. -/
def Alesh.restoreAnswer (a : Alesh) (off status : Nat) (b : Bytes) (gaveUp : Bool) : Alesh :=
  match a.plate.restore with
  | none => a
  | some r =>
    match r.reads.find? fun x => x.1 == off with
    | none => a
    | some (_, n, tries) =>
      if status = stOk then
        let q : Restore := { r with reads := r.reads.filter (fun x => x.1 != off), data := r.data ++ [(off, slice b 0 n)] }
        let c := a.setRestore (some q)
        if q.reads.isEmpty then c.restoreNext q else c
      else if gaveUp || decide (a.num O.RETRY_LIMIT ≤ tries) then a.restoreFail 8 ((r.left.head?).getD 0)
      else (a.setRestore (some { r with reads := modWhere (fun x => x.1 == off) (fun x => (x.1, x.2.1, x.2.2 + 1)) r.reads })).plateRead
        r.place off n

/-! ### Fabric responses (R311) -/

/-- A request of this core is answered, or has been given up with BUSERR. An error that the gateway reports for a page or an
in-place access is a bus error of the requests that it serves, counted here; one given up has been counted (R404). -/
def Alesh.faComplete (a : Alesh) (r : FaReq) (h : FaHdr) (payload : Bytes) (gaveUp : Bool) : Alesh :=
  let ok := h.status == stOk
  let noted := if ok || gaveUp then a else a.count O.BUSERR_COUNT
  match r.why with
  | .extent e g => a.extentAnswer e g ok
  | .manifestZero =>
    match a.plate.zeroing with
    | some _ => if ok then a else a.plateAgain r
    | none => a
  | .manifest =>
    match a.plate.announced with
    | some _ => if ok then a else a.plateAgain r
    | none => a
  | .restore off => a.restoreAnswer off h.status payload gaveUp
  | .submit => a.submitResponse r h payload
  | .check => a
  | .forward op => Alesh.settle (a.lineDone op h.status h.operand payload, .none)
  | .inval op => a.invalDone op r.dst
  | .tier entry => noted.tierResponse entry h.status payload
  | .job id => noted.jobAnswer id r h.status payload

/-- A fabric response: matched by its source and tag, else malformed. -/
def Alesh.faResponse (now : Nat) (m : Pkt) (a0 : Alesh) : Alesh :=
  let a := a0.at now
  let h := FaHdr.ofNat m.args
  if !a.idleToJob then a
  else if h.version != 1 || decide (6 < h.status) || decide (1 < h.size) || decide (8 < h.aop) || h.dst != a.node then
    a.count O.FA_MALFORMED_COUNT
  else match (a.faMatch h).filter fun r => r.vc == m.vc with
    | none => a.count O.FA_MALFORMED_COUNT
    | some r =>
      let a := a.hear h.src
      ((a.setReqs (a.fabric.reqs.erase r)).faComplete r h m.payload false).faAdmit
def execFabricResponseRx (now : Nat) (m : Pkt) (s : State) : Host.Outcome State Fault Refusal := onCore (Alesh.faResponse now m) s

/-- No response in time: the request again with its tag, and after RETRY_LIMIT resends a bus error to the issuing unit. -/
def Alesh.faTimeout (now tag : Nat) (a0 : Alesh) : Alesh :=
  let a := a0.at now
  match a.fabric.reqs.find? fun r => r.tag == tag && decide (tag < 1024) && a.due r.due with
  | none => a
  | some r =>
    let h := FaHdr.ofNat r.header
    if r.tries < a.num O.RETRY_LIMIT then
      let q : FaReq := { r with tries := r.tries + 1, due := a.now + a.num O.FABRIC_TIMEOUT_NS, lastSend := a.now }
      ((a.setReqs (modWhere (fun x => x == r) (fun _ => q) a.fabric.reqs)).faSend r.vc h r.payload).wrap O.FA_RESEND_COUNT
    else
      let b := a.setReqs (a.fabric.reqs.erase r)
      let c := { b with fabric := { b.fabric with restTags := b.fabric.restTags ++ [(tag, r.lastSend)] } }
      ((c.count O.BUSERR_COUNT).linkEvent.faComplete r (h.response a.node stBusErr 0) [] true).faAdmit
def execFabricTimeout (now tag : Nat) (s : State) : Host.Outcome State Fault Refusal := onCore (Alesh.faTimeout now tag) s

end Sys2Proof.Machine
end

