-- ==== Sys2Proof/Machine/Chrono.lean ====
section
/-! DEFINITION. The Chronograph: its ring, its records and their checks; the configuration digest (R283, R288 to R297). -/
namespace Sys2Proof.Machine

/-! ### CONFIG_DIGEST (R283) -/

/-- One item of the digest: index, subindex, length, value. -/
def digestItem (key : Nat) (v : Bytes) : Bytes := leBytes 2 (key / 256) ++ leBytes 1 key ++ leBytes 4 v.length ++ v
/-- The value in force of an object as bytes. -/
def Alesh.objBytes (a : Alesh) (key : Nat) : Bytes :=
  match objOf? key with
  | some o => if o.ty = .dom then a.dom key else leBytes (o.ty.bits / 8) (a.num key)
  | none => []
/-- The bit-bearing job objects, in the order of R283. -/
def bitBearing : List Nat :=
  [O.VREPLICA_LOG2, O.DATA_STRIDE] ++ (List.range 8).map (O.RECIPE_DESC + ·) ++ [O.LR_POINTS, O.LR_TABLE, O.LAYER_EXP_BASE]
    ++ ((List.range 8).flatMap fun s => (List.range 16).map fun i => O.RECIPE_CONST + 256 * s + i) ++ [O.CONTRIB_FORMAT]
def Alesh.configDigest (a : Alesh) : Bytes := sha256 (0x05#8 :: bitBearing.flatMap fun k => digestItem k (a.objBytes k))
/-- Form CONFIG_DIGEST: at arming and at every configuration epoch change. -/
def Alesh.formConfigDigest (a : Alesh) : Alesh := a.setDom O.CONFIG_DIGEST a.configDigest

/-! ### The tail (R289) -/

/-- The offsets at which a tail may stand: the record boundaries from the tail to the head. -/
def Alesh.chronoBounds (a : Alesh) : Nat → Nat → List Nat
  | 0, _ => []
  | fuel + 1, t => if t = a.num O.CHRONO_HEAD then [t] else t :: a.chronoBounds fuel ((t + a.chronoLength t) % a.chronoSize)
/-- The driver moves the tail forward (R289). -/
def chronoTail (tail : Nat) (a : Alesh) : Res × Alesh :=
  require ((a.chronoBounds (a.chronoSize / 64 + 1) (a.num O.CHRONO_TAIL)).contains tail) .range a (.ok, a.setNum O.CHRONO_TAIL tail)
def execChronoTailWrite (via : Via) (tail : Nat) (s : State) : Host.Outcome State Fault Refusal :=
  command via O.CHRONO_TAIL false (chronoTail tail) s

/-! ### Checks (R293) -/

/-- The slice gradient digest G(g), from the reduced gradient of `e`. -/
def gradDigest (g : Nat) (v : List F32) : Bytes :=
  let b := sliceBytesOf v
  sha256 (0x04#8 :: leBytes 4 g ++ (List.range (b.length / pageBytes)).flatMap fun p => leBytes 8 (crc64 (slice b (p * pageBytes) pageBytes)))
def Alesh.normCheck (a : Alesh) (e : Nat) : Nat :=
  let es := sortBy (·.key) (a.red.roots.filter fun x => x.epoch == e)
  if es.isEmpty then 0 else crc64 (es.flatMap fun x => x.bytes true)

/-- What a record of `e` takes of a slice: D(g), or `none` where it waits for the slice's pages, and G(g); a slice whose reduced
gradient is not held here takes a free one, a function of the slice and the step epoch (log entry 39). -/
structure SliceCheck where
  gsid : Nat
  state : Option Bytes
  grad : Bytes
  deriving DecidableEq, Repr
def Alesh.sliceCheck (a : Alesh) (e g : Nat) : SliceCheck :=
  { gsid := g
    state := a.lateDigest g e
    grad := match a.grad? g e with
      | some v => gradDigest g v
      | none => leBytes 32 (Config.freeGradDigest g e).toNat }
/-- D(g) as far as it is known: zero, over which the digest is laid once it is. -/
def SliceCheck.known (d : SliceCheck) : Bytes := d.state.getD (List.replicate 32 0)

/-! ### The records of a release (R291 to R296) -/

def tSeeds : Nat := 1
def tConfig : Nat := 2
def tMembership : Nat := 3
def tStep : Nat := 4
def tSlice : Nat := 5
def tReplica : Nat := 6

/-- FLAGS of a slice at `e` (R295). -/
def Alesh.sliceFlags (a : Alesh) (g e : Nat) : Nat :=
  let null := match a.marks? g e with | some m => (a.units g).all fun u => m.contains u.1 | none => false
  (if null then 1 else 0) + (if a.takenSlice g then 2 else 0) + lookupD 0 a.chrono.flags g
/-- Rows dropped from the contributions of one replica at `e`. -/
def Alesh.replicaDrops (a : Alesh) (e v : Nat) : Nat :=
  sumNat ((a.chrono.drops.filter fun (d : Nat × Nat × Nat) => d.1 == e && d.2.1 == v).map fun (d : Nat × Nat × Nat) => d.2.2)
def Alesh.replicaCheck (a : Alesh) (e v : Nat) : Nat :=
  (a.chrono.terms.filter fun (t : Nat × Nat × Nat) => t.1 == e && t.2.1 == v).foldl (fun x (t : Nat × Nat × Nat) => x ^^^ t.2.2) 0
/-- The replicas in this core's hosting range. -/
def Alesh.hosted (a : Alesh) : List Nat := (List.range (a.num O.VREPLICA_COUNT)).map (a.num O.VREPLICA_FIRST + ·)
/-- The slices of the records: those owned that are committed at `e`. -/
def Alesh.recorded (a : Alesh) (e : Nat) : List Nat := sortNat ((a.progs.filter fun p => decide (e ≤ p.last)).map (·.gsid))

/-- The body of a STEP record (R294). -/
def Alesh.stepBody (a : Alesh) (e : Nat) (ds : List SliceCheck) : Bytes :=
  let zero : Bytes := List.replicate 32 0
  leBytes 4 (a.num O.MEMBERSHIP_EPOCH) ++ leBytes 4 (a.num O.CONFIG_EPOCH) ++ leBytes 4 a.node ++ leBytes 4 ds.length
    ++ leBytes 4 (ds.filter fun d => (a.sliceFlags d.gsid e).testBit 0).length
    ++ leBytes 4 (satAdd 32 0 (sumNat (a.hosted.map (a.replicaDrops e)))) ++ leBytes 8 (a.normCheck e)
    ++ ds.foldl (fun x d => xorBytes x d.known) zero ++ ds.foldl (fun x d => xorBytes x d.grad) zero ++ List.replicate 16 0
/-- The body of a SLICE record (R295). -/
def Alesh.sliceBody (a : Alesh) (e : Nat) (d : SliceCheck) : Bytes :=
  leBytes 4 d.gsid ++ leBytes 4 (a.sliceFlags d.gsid e) ++ d.known.take 16 ++ d.grad.take 16 ++ List.replicate 8 0
/-- The body of a REPLICA record (R296). -/
def Alesh.replicaBody (a : Alesh) (e : Nat) (vs : List Nat) : Bytes :=
  leBytes 4 vs.length ++ List.replicate 12 0
    ++ vs.flatMap fun v => leBytes 4 v ++ leBytes 4 (satAdd 32 0 (a.replicaDrops e v)) ++ leBytes 8 (a.replicaCheck e v)

/-- The SLICE, REPLICA and STEP records of the release of `e` (R292). D(g) lies at bytes 24 of a SLICE record and 48 of a STEP
record. A scalar page that fails its check is damaged, and D(g) waits for it (R47). -/
def Alesh.chronoRelease (a0 : Alesh) (e : Nat) : Alesh :=
  let a := ((a0.recorded e).filter a0.scalarBad).foldl (fun (b : Alesh) (g : Nat) => b.damageLive g scalarPage) a0
  let detail := a.num O.CHRONO_DETAIL
  let ds := (a.recorded e).map (a.sliceCheck e)
  let late := ds.filter fun d => d.state.isNone
  let slices := if detail = 0 then [] else ds.map fun d =>
    (tSlice, a.sliceBody e d, if d.state.isNone then [(d.gsid, 8, 16)] else [])
  let reps := if detail = 2 then (chunks 124 a.hosted.length a.hosted).map fun vs => (tReplica, a.replicaBody e vs, []) else []
  let all := slices ++ reps ++ [(tStep, a.stepBody e ds, late.map fun d => (d.gsid, 32, 32))]
  let c := all.foldl (fun (c : Alesh) (r : Nat × Bytes × List (Nat × Nat × Nat)) => c.chronoFix r.1 e r.2.1 r.2.2) a
  { c with chrono := { c.chrono with
      terms := c.chrono.terms.filter fun (t : Nat × Nat × Nat) => decide (e < t.1)
      drops := c.chrono.drops.filter fun (d : Nat × Nat × Nat) => decide (e < d.1)
      flags := [] } }

/-! ### SEEDS, CONFIG and MEMBERSHIP (R297) -/

/-- The CONFIG record, `last` being the last committed step epoch. -/
def Alesh.chronoConfig (a : Alesh) (last : Nat) : Alesh :=
  a.chronoRecord tConfig last (leBytes 4 (a.num O.CONFIG_EPOCH) ++ leBytes 1 (a.num O.ACTIVE_OVERLAY) ++ List.replicate 3 0
    ++ leBytes 8 (last + 1) ++ a.dom O.PLAN_DIGEST ++ a.dom O.CONFIG_DIGEST ++ List.replicate 16 0)
/-- SEEDS and CONFIG at commencement; a restore with e_p = 0 is a fresh commencement (R389). -/
def Alesh.chronoStart (a : Alesh) : Alesh :=
  let last := a.num O.STEP_EPOCH
  let o := a.chrono.origin.filter fun (x : Nat × Bytes) => x.1 != 0
  -- a scalar page that is damaged is not read (R15): the commencement's seeds are those that it holds (R391)
  let good := a.seedPages.all fun p => a.pageReady p.1 p.2
  let body := leBytes 4 (a.num O.JOB_ID) ++ leBytes 1 (if o.isSome then 1 else 0) ++ List.replicate 3 0
    ++ leBytes 8 (if good then a.jobSeed else a.num O.COMMENCE_JOB_SEED)
    ++ leBytes 8 (if good then a.dataSeed else a.num O.COMMENCE_DATA_SEED) ++ leBytes 8 ((o.map (·.1)).getD 0) ++ a.fingerprint ++ (o.map (·.2)).getD (List.replicate 32 0)
    ++ List.replicate 16 0
  (a.chronoRecord tSeeds last body).chronoConfig last
/-- The MEMBERSHIP record of a certificate adopted. -/
def Alesh.chronoMembership (a : Alesh) (cert : Bytes) : Alesh :=
  a.chronoRecord tMembership a.inProgress (slice cert 8 4 ++ slice cert 1 1 ++ List.replicate 3 0 ++ slice cert 16 6 ++ [0, 0]
    ++ sha256 (cert.take (96 + 8 * leAt cert 2 2)))

end Sys2Proof.Machine
end

