-- ==== Sys2Proof/Machine/Health.lean ====
section
/-! DEFINITION. The health unit: lateness, suspicion, Seeing, the adaptive loops and the monitor table (R323 to R347). -/
namespace Sys2Proof.Machine

/-! ### Margin and WATCH (R324, R327) -/

/-- The margin is stale: no write within THERM_STALE_NS (R324). -/
def Alesh.thermDue (a : Alesh) : Bool := a.num O.THERM_STALE_NS != 0 && a.due (a.health.thermAt + a.num O.THERM_STALE_NS)
def Alesh.thermCheck (a : Alesh) : Alesh :=
  let b : Alesh := if a.clock.valid then { a with health := { a.health with thermStale := a.thermDue } } else a
  if a.thermDue && !a.health.thermStale then b.healthFlag hThermStale else b
def execThermStaleTimeout (now : Nat) (s : State) : Host.Outcome State Fault Refusal := onCore (fun a => (a.at now).thermCheck) s

/-- THERM_MARGIN: a signed number of degrees from −128 to 127; the write restarts the timer. -/
def thermWrite (value now : Nat) (a0 : Alesh) : Res × Alesh :=
  let a := a0.at now
  require (decide (value < 2 ^ 32) && decide (-128 ≤ signedOf 32 value) && decide (signedOf 32 value ≤ 127)) .range a <|
    (.ok, { (a.setNum O.THERM_MARGIN value) with health := { a.health with thermAt := a.now, thermStale := false } })
def execThermMarginWrite (via : Via) (value now : Nat) (s : State) : Host.Outcome State Fault Refusal :=
  command via O.THERM_MARGIN false (thermWrite value now) s

/-- WATCH_LIST as it reads. -/
def Alesh.setWatch (a : Alesh) (l : List (Nat × Nat)) : Alesh :=
  ({ a with health := { a.health with watch := l } }).setDom O.WATCH_LIST (l.flatMap fun (w : Nat × Nat) => leBytes 4 w.1 ++ leBytes 8 w.2)
/-- A WATCH marking ends when its node leaves the membership (R327). -/
def Alesh.watchMembers (a : Alesh) : Alesh := a.setWatch (a.health.watch.filter fun (w : Nat × Nat) => a.isMember w.1)
/-- Mark a node WATCH; a full list loses its oldest entry. -/
def Alesh.markWatch (a : Alesh) (n : Nat) : Alesh :=
  let l := a.health.watch
  let kept := if l.any fun w => w.1 == n then l else (l ++ [(n, a.inProgress)]).drop (l.length + 1 - 256)
  (a.setWatch kept).healthFlag hWatchSet
/-- WATCH_CLEAR: RANGE for a node not listed. -/
def watchClear (n : Nat) (a : Alesh) : Res × Alesh :=
  require a.joinedOrJob .stateConflict a <|
    require (a.health.watch.any fun w => w.1 == n) .range a (.ok, a.setWatch (a.health.watch.filter fun w => w.1 != n))
def execWatchClear (via : Via) (node : Nat) (s : State) : Host.Outcome State Fault Refusal :=
  command via O.WATCH_CLEAR false (watchClear node) s
/-- A package holds a WATCH member. -/
def Alesh.watchPackage (a : Alesh) (pkg : Nat) : Bool := a.health.watch.any fun w => a.packageOf w.1 == some pkg

/-! ### Inputs and lateness (R323, R325, R326) -/

/-- Close the ring entry. -/
def Alesh.closeRing (a : Alesh) : Alesh :=
  { a with health := { a.health with ring := (a.health.now :: a.health.ring).take 64, now := HealthRow.zero } }
def Alesh.windowSum (a : Alesh) (f : HealthRow → Nat) : Nat := sumNat (a.health.ring.map f)
/-- Tiles with more corrected errors over the window than TILE_CE_LIMIT (R347). -/
def Alesh.tileLimit (a : Alesh) : Alesh :=
  ((List.range 34).filter fun t => decide (a.num O.TILE_CE_LIMIT < a.windowSum fun r => lookupD 0 r.tiles t) && tileGood a t).foldl
    Alesh.retireTile a

def Alesh.lateAddr (a : Alesh) (i : Nat) : Nat := a.num O.LATE_BASE + 8 * i
/-- A new combiner starts with every history at zero. -/
def Alesh.clearLate (a : Alesh) : Alesh := a.wr (a.num O.LATE_BASE) (List.replicate (8 * a.num O.JOB_MAP_ENTRIES) 0)
/-- Shift the histories of the members counted at the release of `e`, in the order of their ARRIVEs. -/
def Alesh.shiftLate (a : Alesh) (e : Nat) : Alesh :=
  let order := (a.merid.arrivals.filter fun x => x.2 == e && a.activeMembers.contains x.1).map (·.1)
  let late := order.drop (order.length - ceilDiv order.length 100)
  (a.jobMap.zipIdx.filter fun p => order.contains p.1.node).foldl (fun (b : Alesh) (p : MapEntry × Nat) =>
    let h := b.rdLe (b.lateAddr p.2) 8
    b.wrLe (b.lateAddr p.2) 8 ((2 * h + if late.contains p.1.node then 1 else 0) % 2 ^ 64)) a
/-- SUSPECT_LIST as it reads. -/
def Alesh.setSuspectList (a : Alesh) (l : List Nat) : Alesh :=
  ({ a with health := { a.health with suspects := l } }).setDom O.SUSPECT_LIST ((l.take 256).flatMap (leBytes 4))
/-- Entries to SUSPECT and ends of it. -/
def Alesh.judgeLate (a : Alesh) : Alesh :=
  let bits (i : Nat) : Nat := popcount 64 (a.rdLe (a.lateAddr i) 8)
  let ms := a.jobMap.zipIdx.filter fun p => a.isMember p.1.node
  let kept := a.health.suspects.filter fun n => ms.any fun p => p.1.node == n && decide (a.num O.SUSPECT_CLEAR ≤ bits p.2)
  let new := (ms.filter fun p => decide (a.num O.SUSPECT_COUNT ≤ bits p.2) && !kept.contains p.1.node).map (·.1.node)
  let b := a.setSuspectList (kept ++ new)
  new.foldl (fun (c : Alesh) (_ : Nat) => (c.healthFlag hSuspectSet).raiseAttention) b
/-- Lateness at a release, at the combiner only. -/
def Alesh.lateness (a : Alesh) (e : Nat) : Alesh :=
  if a.combiner != a.node then a
  else (if a.health.skipLate then a else a.shiftLate e).judgeLate

/-! ### Seeing (R328) -/

/-- The five terms L, E, K, H, X. -/
def Alesh.seeingTerms (a : Alesh) : List Nat :=
  let ns := if a.combiner = a.node then a.health.suspects.length else 0
  let margin := signedOf 32 (a.num O.THERM_MARGIN)
  let ok : Int := a.num O.THERM_OK
  let wl := if a.num O.WINDOW_OPEN_EPOCH = 0 then 0 else a.num O.WINDOW_LOSSES
  let h := if a.num O.THERM_STALE_NS = 0 || decide (ok ≤ margin) then 0 else if a.thermDue then 48
    else min 48 (a.num O.W_THERM * (ok - margin).toNat)
  [min 96 (a.num O.W_LATE * (2 * ns + a.health.watch.length) / 2),
    min 64 (a.windowSum (·.ce) / a.num O.ECC_CE_UNIT + a.num O.W_REPAIR * a.windowSum (·.rp)),
    min 48 (a.num O.W_LINK * a.windowSum (·.lk)), h, min 96 (48 * wl + 16 * a.memb.suspects.length)]
def Alesh.formSeeing (a : Alesh) : Alesh :=
  let ts := a.seeingTerms
  let raw := min 255 (sumNat ts)
  ((a.setDom O.SEEING_TERMS (ts.flatMap (leBytes 1) ++ [0, 0, 0])).setNum O.SEEING_RAW raw).setNum O.SEEING
    (max raw (a.num O.SEEING - a.num O.SEEING_DECAY))

/-! ### The loops (R330 to R338) -/

def Alesh.loopOn (a : Alesh) (bit : Nat) : Bool := (a.num O.HEALTH_ENABLE).testBit bit

/-- Plate cadence (R331). -/
def Alesh.plateCadence (a : Alesh) : Alesh :=
  let i := a.num O.PLATE_INTERVAL
  a.setNum O.PLATE_INTERVAL_ACTIVE
    (if a.loopOn 4 then max 1 (i / 2 ^ min 3 (a.num O.SEEING / a.num O.SEE_PLATE_STEP)) else i)

/-- The entries of this core's group in a state. -/
def Alesh.groupExts (a : Alesh) (st kind : Nat) : List (Nat × ExtEntry) :=
  (a.extsIn st).filter fun p => p.2.group == a.num O.GROUP_NUMBER && p.2.kind == kind
/-- A change of the group's external entries is under way: announced, BUILDING or RELEASING (log entry 131). -/
def Alesh.extBusy (a : Alesh) : Bool :=
  !(((a.extsIn 1) ++ a.extsIn 3).all fun p => p.2.group != a.num O.GROUP_NUMBER)
    || (a.coding.extPlan.any fun x => (a.exts[x.1]?.map fun y => y.group == a.num O.GROUP_NUMBER).getD false)
    || a.take.announces.any fun x => decide (bf x.1 60 4 ≤ gCancel)
/-- A withdrawal of an entry, or the return before it, is announced already or under way. -/
def Alesh.leaving (a : Alesh) (i : Nat) : Bool :=
  (lookup? a.coding.returns i).isSome || a.coding.extPlan.any fun x => x.1 == i && (x.2.1 == gWithdraw || x.2.1 == gBuild)
/-- Announce the withdrawal of entries for the epoch two above the one in progress (R172, R333, R335); of a RELOCATE entry, first the
return of its row to the default member, which EXT_BUILD on the ACTIVE entry announces (DESIGN CHOICE, log entry 55). -/
def Alesh.withdraw (a : Alesh) (l : List (Nat × ExtEntry)) : Alesh :=
  (l.filter fun p => !a.leaving p.1).foldl (fun (c : Alesh) (p : Nat × ExtEntry) =>
    c.announceExt (if p.2.kind = 0 then gBuild else gWithdraw) (a.inProgress + 2) p.2) a
/-- No window and no restriping. -/
def Alesh.quiet (a : Alesh) : Bool := a.num O.WINDOW_OPEN_EPOCH == 0 && a.num O.RESTRIPE_STATE == 0

/-- Parity widening at the coordinator (R332, R333). -/
def Alesh.widen (a : Alesh) : Alesh :=
  let s := a.num O.SEEING
  let hi := if a.num O.SEE_WIDEN_HI ≤ s then a.health.high + 1 else 0
  let lo := if s ≤ a.num O.SEE_WIDEN_LO then a.health.low + 1 else 0
  let b : Alesh := { a with health := { a.health with high := hi, low := lo } }
  let m := b.num O.STRIPE_M_ACTIVE
  let e := b.inProgress + 2
  let pick (r : Nat) : Option (Nat × ExtEntry) :=
    (b.groupExts 0 1).find? fun p => p.2.row == m && p.2.rotation == r && !b.watchPackage p.2.package
  let picks := (List.range b.geo.n).map pick
  let cancelled := b.take.announces.any fun x => bf x.1 60 4 == gCancel
  if !b.loopOn 3 then b
  else
    let c := if !(b.groupExts 1 1).isEmpty && s ≤ b.num O.SEE_WIDEN_LO && !cancelled then
        (b.groupExts 1 1).foldl (fun (c : Alesh) (p : Nat × ExtEntry) => c.announceExt gCancel b.inProgress p.2) b
      else if b.num O.SEE_WIDEN_HOLD ≤ hi && m < 4 && b.quiet && !b.extBusy && picks.all fun p => p.isSome then
        (picks.filterMap id).foldl (fun (c : Alesh) (p : Nat × ExtEntry) => c.announceExt gBuild e p.2) b
      else b
    if b.num O.SEE_WITHDRAW_HOLD ≤ lo && b.num O.STRIPE_M < m && b.quiet then
      c.withdraw ((b.groupExts 2 1).filter fun p => p.2.row + 1 == m)
    else c

/-- HOLD_LAT after the step's samples; a mean that is no integer enters the floor as it is (R334). -/
def Alesh.updateLat (a : Alesh) : Alesh :=
  let h := a.health
  let lat := (sortNat (h.samples.map (·.1))).foldl (fun (l : List (Nat × Nat)) (r : Nat) =>
    let ms := (h.samples.filter fun x => x.1 == r).map (·.2)
    let old := lookupD 0 l r
    let d : Int := ((sumNat ms : Int) - old * ms.length) / (8 * ms.length : Nat)
    assign l r ((old : Int) + d).toNat) h.lat
  ({ a with health := { h with lat := lat, samples := [] } }).setDom O.HOLD_LAT
    ((List.range 32).flatMap fun r => leBytes 4 (lookupD 0 lat r))
/-- The median of the other ranks with samples: the lower middle value of an even count. -/
def Alesh.medianBut (a : Alesh) (r : Nat) : Option Nat :=
  let l := sortBy id ((a.health.lat.filter fun x => x.1 != r).map (·.2))
  if l.isEmpty then none else l[(l.length - 1) / 2]?
/-- Consecutive releases at which a rank is congested, and at or below the median. -/
def Alesh.countPlace (a : Alesh) : Alesh :=
  let f (old : List (Nat × Nat)) (p : Nat → Nat → Bool) : List (Nat × Nat) :=
    a.health.lat.map fun x => (x.1, if ((a.medianBut x.1).map (p x.2)).getD false then lookupD 0 old x.1 + 1 else 0)
  { a with health := { a.health with
      congested := f a.health.congested fun v m => decide (a.num O.PLACE_FACTOR * m < v)
      calm := f a.health.calm fun v m => decide (v ≤ m) } }
/-- The entry that a congested rank moves to (R335). -/
def Alesh.placeEntry (a : Alesh) (h : Nat) : Option (Nat × ExtEntry) :=
  let n := a.geo.n
  ((List.range (a.num O.STRIPE_M)).filterMap fun i =>
    (a.groupExts 0 0).find? fun p => p.2.row == i && p.2.rotation == (h + n - i % n) % n && !a.watchPackage p.2.package).head?
/-- Placement at the coordinator (R334, R335). -/
def Alesh.place_ (a : Alesh) : Alesh :=
  let b := a.updateLat.countPlace
  let n := b.geo.n
  let e := b.inProgress + 2
  let hot := (List.range n).filter fun h => decide (b.num O.PLACE_HOLD ≤ lookupD 0 b.health.congested h)
  let back := (b.groupExts 2 0).filter fun p =>
    decide (b.num O.PLACE_RETURN_HOLD ≤ lookupD 0 b.health.calm ((p.2.rotation + p.2.row) % n))
  if !b.loopOn 2 then b
  else if !b.quiet then b
  else
    let c := match (hot.filterMap b.placeEntry).head? with
      | some p => if !b.extBusy && decide ((b.groupExts 2 0).length < b.num O.PLACE_MAX) then b.announceExt gBuild e p.2 else b
      | none => b
    c.withdraw back

/-- Link share (R337): weights of VC2 to VC7 by the slots in which each was eligible. -/
def Alesh.linkShare (a : Alesh) : Alesh :=
  let d (c : Nat) : Nat := lookupD 0 a.health.slots c
  let cs := [2, 3, 4, 5, 6, 7]
  let top := cs.foldl (fun m c => max m (d c)) 0
  let b := if !a.loopOn 0 || top = 0 then a
    else cs.foldl (fun (b : Alesh) (c : Nat) =>
      let t := if c = 3 && a.health.seen.testBit hRingFull then 255 else max 1 (ceilDiv (255 * d c) top)
      let w := min (a.num (O.VC_WEIGHT_MAX + (c - 2))) (max (a.num (O.VC_WEIGHT_MIN + (c - 2)))
        (ceilDiv (a.num (O.VC_WEIGHT + (c - 2)) + t) 2))
      b.setNum (O.VC_WEIGHT + (c - 2)) w) a
  { b with health := { b.health with slots := [] } }

/-- The governor's points: those of the table from GOV_MIN_MHZ to 600 MHz. -/
def Alesh.govPoints (a : Alesh) : List (Nat × Nat) :=
  (vfPoints 16 (a.dom O.VF_TABLE)).filter fun p => p.1 != 0 && decide (a.num O.GOV_MIN_MHZ ≤ p.1) && decide (p.1 ≤ 600)
/-- Move one point up or down, or to 600 MHz. -/
def Alesh.govMove (a : Alesh) (p : Option (Nat × Nat)) (raising : Bool) : Alesh :=
  match p with
  | some q => ({ a with health := { a.health with govCount := 0 } }).startMove q.1 q.2 raising
  | none => a
/-- The deadline governor (R338); `slack` is s. -/
def Alesh.governor (a : Alesh) (slack : Nat) : Alesh :=
  let f := a.num O.GOV_MHZ
  let ps := a.govPoints
  let up := ps.find? fun p => decide (f < p.1)
  let down := (ps.filter fun p => decide (p.1 < f)).getLast?
  let lead := a.num O.MERIDIAN_LEAD_NS
  let calm := decide (lead + a.num O.GOV_LOWER_NS ≤ slack)
  let b : Alesh := { a with health := { a.health with govCount := if calm then a.health.govCount + 1 else 0 } }
  if !a.loopOn 1 then
    if f < 600 then b.govMove (ps.find? fun p => p.1 == 600) true else b
  else if decide (signedOf 32 (a.num O.THERM_MARGIN) < 0) && !a.thermDue then b.govMove down false
  else if slack < lead + a.num O.GOV_RAISE_NS then (if a.seeingTerms.getD 3 0 = 0 then b.govMove up true else b)
  else if a.num O.GOV_HOLD ≤ b.health.govCount then b.govMove down false
  else b

/-! ### The monitor table (R341 to R343) -/

/-- The magnitude codes of a layer's reduced gradient elements in the slices committed at `e`; a slice without its gradient
here takes free values (log entry 39). -/
def Alesh.layerCodes (a : Alesh) (e : Nat) : List (Nat × Nat) × Alesh :=
  (a.recorded e).foldl (fun (p : List (Nat × Nat) × Alesh) (g : Nat) =>
    let n := p.2.records g
    let q : List F32 × Alesh := match p.2.grad? g e with
      | some v => (v, p.2)
      | none => let d := p.2.drawBytes (4 * n); (sliceValues n d.1, d.2)
    let base := a.elementBase g
    let nulls := ((a.marks? g e).getD []).flatMap fun u => a.unitRecords g (a.unitOf g u)
    let new := (List.range n).filterMap fun j => (entryOf a.layers (base + j)).map fun le =>
      (le.layer, if nulls.contains j then 0 else Fp.magCode (q.1.getD j Fp.posZero))
    (p.1 ++ new, q.2)) ([], a)

/-- LARGE_CODE of a layer in force. -/
def Alesh.largeCode (a : Alesh) (layer : Nat) : Nat := lookupD 14 a.health.large layer
/-- The threshold for the next step (R342). -/
def nextLarge (margin old : Nat) (codes : List Nat) : Nat :=
  let from_ (c : Nat) : Nat := (codes.filter fun x => decide (c ≤ x) && decide (x ≤ 14)).length
  let q := ((List.range 14).map (· + 1)).foldl (fun q c => if from_ 1 ≤ 1000 * from_ c then c else q) 0
  min 14 (max 8 (max (if from_ 1 = 0 then margin else q + margin) (old - 1)))

/-- One entry of the table (R341), with the alarms of R343. -/
def Alesh.monitorEntry (a : Alesh) (e i layer : Nat) (codes : List Nat) : Alesh :=
  let large := a.largeCode layer
  let count (p : Nat → Bool) : Nat := (codes.filter p).length
  let gn := codes.length
  let gl := count fun c => decide (large ≤ c) && decide (c ≤ 14)
  let gx := count fun c => c == 15
  let pc := lookupD { values := 0, zero := 0, sat := 0, nonfinite := 0 } a.health.pubs layer
  let rs := lookupD (0, 0) a.health.sampled layer
  let galarm := decide (0 < gx) || decide (a.num O.GRAD_LARGE_SHARE * gn < 1000000 * gl)
  let palarm := decide (0 < pc.nonfinite) || decide (a.num O.PUB_SAT_SHARE * pc.values < 1000000 * pc.sat)
  let w := packBits [(464, 48, e), (448, 16, layer), (444, 4, 1), (432, 8, large), (392, 40, gn), (352, 40, count fun c => c == 0),
    (312, 40, gl), (272, 40, gx), (232, 40, pc.values), (192, 40, pc.zero), (152, 40, pc.sat), (112, 40, pc.nonfinite),
    (80, 32, rs.1), (48, 32, rs.2), (1, 1, if palarm then 1 else 0), (0, 1, if galarm then 1 else 0)]
  let b := a.wr (a.num O.NUM_TABLE_BASE + 64 * i) (leBytes 64 w)
  let c := if galarm then ((b.healthFlag hNumGrad).setNum O.NUM_ALARM_LAYER layer).raiseAttention else b
  let d := if palarm then ((c.healthFlag hNumPub).setNum O.NUM_ALARM_LAYER layer).raiseAttention else c
  if a.loopOn 5 then
    let h := { d.health with large := assign d.health.large layer (nextLarge (a.num O.GRAD_LARGE_MARGIN) large codes) }
    { d with health := h }
  else d
/-- The threshold loop and the table. -/
def Alesh.monitor (a : Alesh) (e : Nat) : Alesh :=
  let x := a.layerCodes e
  x.2.layerIds.zipIdx.foldl (fun (b : Alesh) (p : Nat × Nat) =>
    b.monitorEntry e p.2 p.1 ((x.1.filter fun c => c.1 == p.1).map (·.2))) x.2

/-! ### A release (R329, R339) -/

/-- The levels of R339 that stand saturated as a step begins: a holder's window, the pool, retention. -/
def Alesh.noteLevels (a : Alesh) : Alesh :=
  let b := if a.coding.own.any fun t => t.real && t.state.pending && !a.holdRoom (2 ^ 32) t.holder then a.condition hHoldLimit else a
  let c := if b.poolStopped then b.condition hPoolFull else b
  if c.heldBack then c.condition hRetainFull else c
/-- The conditions of a saturated level that held in the step. -/
def Alesh.saturated (a : Alesh) : Alesh :=
  let b := ([hRingFull, hHoldLimit, hPoolFull, hRetainFull].filter fun k => a.health.seen.testBit k).foldl
    (fun (c : Alesh) (k : Nat) => (c.healthFlag k).raiseAttention) a
  { b with health := { b.health with seen := 0 } }
/-- A step begins: the levels that stand saturated, once what the step before used has been freed (R339). -/
def Alesh.startLevels (a : Alesh) : Alesh := if a.unit uHealth == .running then a.noteRing.noteLevels else a
/-- Words of other SRAM than the tiles' and the array's that SECDED corrected since the last release, in class CE (R323, R403): a free
value (log entry 65). -/
def Alesh.sramCorrected (a : Alesh) : Alesh :=
  let w := a.health.now
  { a with ctl := { a.ctl with draws := a.ctl.draws + 1 }
           health := { a.health with now := { w with ce := w.ce + Config.freeCorrected a.ctl.draws } } }
/-- The sampling of the reference path for the steps up to the next release: RW objects take effect at a release, and for the first
step at the start of the job (R344). -/
def Alesh.takeSampling (a : Alesh) : Alesh :=
  { a with health := { a.health with sampling := if a.loopOn 6 then some (a.num O.NUM_SAMPLE_LOG2) else none } }
/-- The health unit's work at the release of `e`, in the order of R329; `r` is R(e), and `late` that the release was. -/
def Alesh.healthRelease (a0 : Alesh) (e r : Nat) (late : Bool) : Alesh :=
  let a := a0.takeSampling
  if a.unit uHealth != .running then a
  else
    let slack := match a.health.arriveAt with
      | some (x, t) => if x = e && !late then r - t else 0
      | none => 0
    let b := ((a.sramCorrected.thermCheck.closeRing.tileLimit.lateness e).formSeeing).plateCadence
    let c := if b.acts lCoord then b.widen.place_.coordinate else b
    let d := (((c.linkShare).governor slack).monitor e).saturated
    { d with health := { d.health with samples := [], skipLate := false, pubs := [], sampled := [], arriveAt := none } }

end Sys2Proof.Machine
end

