-- ==== Sys2Proof/Machine/Commence.lean ====
section
/-! DEFINITION. Certificates and their verification, commencement and the start of a job (R213, R215, R388 to R396, R399). -/
namespace Sys2Proof.Machine

/-! ### Certificates (R213, R215) -/

/-- The bytes before the first signature entry. -/
def certBody (c : Bytes) : Bytes := c.take (96 + 8 * leAt c 2 2)
/-- The form of a certificate: counts in their ranges and the length that they give. -/
def certShape (c : Bytes) : Bool :=
  let n := leAt c 2 2
  let k := certSigs c
  decide (96 ≤ c.length) && decide (1 ≤ n) && decide (n ≤ 256) && decide (1 ≤ k) && decide (k ≤ 16)
    && c.length == 96 + 8 * n + 104 * k && decide (c.length ≤ 3808)

/-- A manager has signed: some entry of its index holds a signature that is valid under its key. -/
def Alesh.signedBy (a : Alesh) (c : Bytes) (m : Nat) : Bool :=
  let at_ := (certBody c).length
  (List.range (certSigs c)).any fun i =>
    let e := slice c (at_ + 104 * i) 104
    leAt e 0 1 == m && P384.verify (slice (a.dom O.QUORUM_KEYS) (97 * m) 97) (sha256 (certBody c)) (beNat (slice e 8 48)) (beNat (slice e 56 48))
/-- At least QUORUM_Q managers of the mask have signed, each counted once. -/
def Alesh.certVerified (a : Alesh) (c : Bytes) : Bool :=
  certShape c && decide (a.num O.QUORUM_Q ≤
    ((List.range 16).filter fun m => (a.num O.QUORUM_KEY_MASK).testBit m && a.signedBy c m).length)

/-! ### The tree (R388, R390) -/

/-- The members under a commencement certificate, formed from this core's job map. -/
def Alesh.commMembers (a : Alesh) (c : Bytes) : List Nat :=
  let out := ((certChanges c).drop 1).map (·.package)
  sortNat ((a.jobMap.filter fun e => !out.contains e.package).map (·.node))
/-- The children and the parent of a tree index. -/
def treeChildren (f : Nat) (ms : List Nat) (i : Nat) : List Nat := (ms.drop (f * i + 1)).take f
def treeParent (f : Nat) (ms : List Nat) (i : Nat) : Option Nat := if i = 0 then none else ms[(i - 1) / f]?

def Alesh.commTree (a : Alesh) : List Nat := a.commMembers a.comm.cert
def Alesh.commFanout (a : Alesh) : Nat := leAt a.comm.block 5 1
def Alesh.commIndex (a : Alesh) : Option Nat := a.commTree.findIdx? (· == a.node)
def Alesh.commChildren (a : Alesh) : List Nat :=
  match a.commIndex with
  | some i => treeChildren a.commFanout a.commTree i
  | none => []
/-- Where the TREE ack goes: the parent, or the COMMENCE's source for a core that is not in the tree. -/
def Alesh.commParent (a : Alesh) : Option Nat :=
  match a.commIndex with
  | some i => treeParent a.commFanout a.commTree i
  | none => some a.comm.sender
/-- This core leads the commencement. -/
def Alesh.commRoot (a : Alesh) : Bool := !a.comm.cert.isEmpty && a.commIndex == some 0
/-- Children from which no TREE ack is held: COMMENCE_PENDING. -/
def Alesh.commPending (a : Alesh) : List Nat := a.commChildren.filter fun n => !a.comm.acks.any fun k => k.1 == n
def Alesh.commStep (a : Alesh) : Nat := leAt a.comm.block 8 6
def Alesh.commEpoch (a : Alesh) : Nat := a.num O.COMMENCE_EPOCH

def Alesh.setComm (a : Alesh) (c : Comm) : Alesh := { a with comm := c }
def Alesh.sendCommence (a : Alesh) (dsts : List Nat) : Alesh :=
  dsts.foldl (fun (b : Alesh) (d : Nat) => b.sendHello hCommence b.commStep d (b.comm.block ++ b.comm.cert)) a
/-- A COMMENCE_ACK's payload (R389). -/
def commAck (epoch phase status count failCount failNode : Nat) (digest : Bytes) : Bytes :=
  leBytes 4 epoch ++ leBytes 1 phase ++ leBytes 1 status ++ [0, 0] ++ leBytes 4 count ++ leBytes 4 failCount ++ leBytes 4 failNode
    ++ leBytes 1 1 ++ leBytes 1 1 ++ List.replicate 10 0 ++ digest

/-! ### Adoption and reasons (R388, R391, R392) -/

/-- The commencement certificate's conditions but for the core's state. -/
def Alesh.commAdoptable (a : Alesh) (c : Bytes) : Bool :=
  let ms := a.commMembers c
  leAt c 0 1 == 1 && certKind c == 0 && certJob c == a.num O.JOB_ID && decide (a.num O.MEMBERSHIP_EPOCH < certEpoch c)
    && memberDigest ms [] == certNew c && ms.contains a.node && ((certChanges c).head?).map (·.node) == ms.head?
/-- Adopt it: epoch, bitmaps, history; the route epoch is 0 at commencement (R51); everything of an earlier commencement goes, the JOINED state too. -/
def Alesh.commAdopt (a0 : Alesh) (c : Bytes) : Alesh :=
  let a := a0.dropOrder
  let b : Alesh := { a with memb := { Memb.reset with members := a.commMembers c, history := [c] }
                            ports := { a.ports with tx := [], rx := [] } }
  ((((b.setNum O.MEMBERSHIP_EPOCH (certEpoch c)).setNum O.ROUTE_EPOCH 0).setDom O.LOSS_SUSPECT []).watchMembers).setCore .idle

/-- The group digest (R392). -/
def Alesh.groupDigest (a : Alesh) : Bytes :=
  sha256 (0x07#8 :: leBytes 2 (a.num O.GROUP_NUMBER) ++ leBytes 1 (a.num O.STRIPE_K) ++ leBytes 1 (a.num O.STRIPE_M)
    ++ leBytes 4 (a.num O.PADDED_PAGES) ++ a.dom O.GROUP_MEMBERS ++ a.dom O.EXT_TABLE)
/-- The seeds agree with the driver's and with a VALID scalar page. -/
def Alesh.seedsAgree (a : Alesh) (block : Bytes) : Bool :=
  let j := leAt block 16 8
  let d := leAt block 24 8
  let g := gsidOf a.ownShard 0
  j == a.num O.COMMENCE_JOB_SEED && d == a.num O.COMMENCE_DATA_SEED
    && (!a.liveValid g scalarPage || (leAt (a.livePage g scalarPage) 8 8 == j && leAt (a.livePage g scalarPage) 16 8 == d))
/-- The first reason that applies, 0 where none does; `members` and `state` say whether adoption failed and why. -/
def Alesh.commReason (a : Alesh) (block : Bytes) (members state : Bool) : Nat :=
  let tv := leAt block 32 4
  let rs := a.num O.RESTORE_STATE
  let ep := a.num O.STEP_EPOCH
  if members then 1
  else if state then 2
  else if leAt block 4 1 != 1 then 3
  else if slice block 64 32 != a.fingerprint then 4
  else if tv != a.num O.TURKAI_VERSION || decide (tv < a.num O.TURKAI_MIN) || decide (a.num O.TURKAI_MAX < tv) then 5
  else if slice block 96 32 != a.dom O.PLAN_DIGEST then 6
  else if slice block 128 32 != a.dom O.CONFIG_DIGEST then 7
  else if a.usedUnits.any fun u => a.unit u != .armed then 8
  else if (if leAt block 6 1 = 1 then rs != 2 || ep != leAt block 8 6 else rs == 1 || rs == 3 || (rs == 2 && ep != 0)) then 9
  else if !a.seedsAgree block then 10
  else 0

/-! ### The start (R394, R395) -/

/-- The peers whose silence this core watches: its group's and its cluster's members (R220). -/
def Alesh.watched (a : Alesh) : List Nat :=
  sortNat (((a.geo.members.map (·.2)) ++ a.cluster).filter fun n => n != a.node && a.isMember n)
def Alesh.watchPeers (a : Alesh) : Alesh :=
  let d := a.now + a.num O.BEACON_PERIOD_NS * a.num O.BEACON_MISS
  { a with memb := { a.memb with heard := a.watched.map fun n => (n, (lookup? a.memb.heard n).getD d) } }

/-- Everything that a core starts with in the job, at step epoch `start` and value `c`; `built` says that it was restored, and its
parity slots start empty (R275). What it took for the epoch in progress and the
one above while JOINED stays (R426). -/
def Alesh.enterJob (a : Alesh) (built : Bool) (start c : Nat) : Alesh :=
  let owned := a.take.owned
  let later (e : Nat) : Bool := decide (start < e) && decide (e ≤ start + 2)
  let red : Red := { Red.reset with
    contribs := a.red.contribs.filter fun (c : Contrib) => later c.epoch
    lse := a.red.lse.filter fun (c : LsePart) => later c.epoch
    held := a.red.held.filter fun (p : Part) => later p.epoch
    norms := a.red.norms.filter fun (n : NormEnt) => later n.epoch }
  let tokens := a.pub.tokens.filter fun (t : Nat × Nat) => later t.2
  let b : Alesh := { a with
    ctl := { a.ctl with core := .running, jobStop := none, discarding := false
                        units := a.ctl.units.map fun u => if u == .armed then .running else u }
    dict := { a.dict with forced := [], forcedDoms := [], merged := [] }
    progs := owned.map fun g => Prog.fresh g start
    red := red
    pub := { Pub.reset with tokens := tokens }
    coding := { Coding.reset with restoring := built }
    -- an order taken while JOINED stands (R375)
    merid := { Merid.reset with sent := (start, c), last := c, order := a.merid.order, orderHolder := a.merid.orderHolder }
    take := { Take.reset with owned := owned, seqs := a.take.seqs, owners := a.take.owners, shards := a.take.shards }
    plate := { Plate.reset with start := start }
    chrono := { a.chrono with origin := if built then a.chrono.origin else none, terms := [], drops := [], flags := [] }
    fabric := { a.fabric with checks := [], minority := false }
    memb := { a.memb with beaconDue := a.now } }
  let nums := [(O.STEP_EPOCH, start), (O.CONFIG_EPOCH, 1), (O.ACTIVE_OVERLAY, 0xFF), (O.MERIDIAN_LAST_RELEASE, c), (O.COMMENCE_TIME, c),
    (O.COMMENCE_STATE, 6), (O.WINDOW_OPEN_EPOCH, 0), (O.WINDOW_LOSSES, 0), (O.PROTECTION_STATE, 0), (O.RESTRIPE_STATE, 0),
    (O.MERIDIAN_SCHEDULED, 0), (O.HOLD_USED, 0), (O.RETAIN_USED, 0)]
  let d := (nums.foldl (fun (x : Alesh) (p : Nat × Nat) => x.setNum p.1 p.2) b).capInterval
  let e := ((d.formConfigDigest.watchPeers).startLeases c).plateCounts
  let f := if e.combiner = e.node then e.clearLate else e
  ((if built then f.emptyParity else f).toggleMeridian.noteRing).takeSampling
/-- The effect of commencement (R395). -/
def Alesh.startJob (a : Alesh) (start c : Nat) : Alesh := (a.enterJob (a.num O.RESTORE_STATE == 2) start c).chronoStart.tryArrive
/-- A JOINED core that holds the start RELEASE starts once its value has passed. -/
def Alesh.tryJobStart (a : Alesh) : Alesh :=
  match a.comm.start with
  | some (s, c) => if a.ctl.core == .joined && a.due c then a.startJob s c else a
  | none => a
def execJobStart (now : Nat) (s : State) : Host.Outcome State Fault Refusal := onCore (fun a => (a.at now).tryJobStart) s

/-- Send the start RELEASE to nodes. -/
def Alesh.sendStart (a : Alesh) (c : Nat) (dsts : List Nat) : Alesh :=
  dsts.foldl (fun (b : Alesh) (d : Nat) => b.sendHello hRelease b.commStep d (leBytes 8 c ++ leBytes 8 0)) a
/-- The root holds the full acknowledgement (R394). -/
def Alesh.commFull (a : Alesh) : Bool :=
  a.commRoot && a.commPending.isEmpty && a.comm.outcome == some 0
    && sumNat (a.comm.acks.map fun k => k.2.2.1) + 1 == a.commTree.length && sumNat (a.comm.acks.map fun k => k.2.2.2.1) == 0
/-- With a valid time the root starts the job at T + COMMENCE_LEAD_NS. -/
def Alesh.commLaunch (a : Alesh) : Alesh :=
  if a.commFull && a.comm.sentTree && a.clock.valid && a.comm.rootC.isNone && (a.num O.COMMENCE_STATE == 1 || a.num O.COMMENCE_STATE == 2) then
    let c := a.now + a.num O.COMMENCE_LEAD_NS
    ((a.setComm { a.comm with rootC := some c, startDue := a.ackDue }).setNum O.COMMENCE_STATE 3).sendStart c a.commTree
  else a
/-- The failures that the root knows: status and node of the failing member of lowest node id. -/
def Alesh.commFailed (a : Alesh) : Option (Nat × Nat) :=
  let own := match a.comm.outcome with
    | some o => if o = 0 then [] else [(a.node, o)]
    | none => []
  let kids := (a.comm.acks.filter fun k => k.2.1 != 0 || k.2.2.2.1 != 0).map fun k => (k.2.2.2.2, k.2.1)
  (minBy? (·.1) (own ++ kids)).map fun p => (p.2, p.1)
/-- The root judges what it holds. -/
def Alesh.commJudge (a : Alesh) : Alesh :=
  match a.commFailed with
  | some (st, n) =>
    let live := a.num O.COMMENCE_STATE == 1 || a.num O.COMMENCE_STATE == 2
    if a.commRoot && a.comm.rootC.isNone && (live || a.num O.COMMENCE_STATE == 4) then
      let b := (((a.setNum O.COMMENCE_STATE 4).setNum O.COMMENCE_FAIL st).setNum O.COMMENCE_FAIL_NODE n)
      if live then b.raiseAttention else b
    else a
  | none => a.commLaunch

/-- The TREE ack of this core's subtree (R393). -/
def Alesh.treeAck (a : Alesh) : Bytes :=
  let own := a.comm.outcome.getD 0
  let f := (a.commFailed).getD (0, 0)
  commAck a.commEpoch 0 f.1 (sumNat (a.comm.acks.map fun k => k.2.2.1) + if own = 0 then 1 else 0)
    (sumNat (a.comm.acks.map fun k => k.2.2.2.1) + if own = 0 then 0 else 1) f.2 (List.replicate 32 0)
def Alesh.sendTree (a : Alesh) : Alesh :=
  match a.commParent with
  | some p => (a.setComm { a.comm with treeDue := a.ackDue }).sendHello hCommAck a.commStep p a.treeAck
  | none => a
/-- Send the GROUP ack to nodes. -/
def Alesh.sendGroup (a : Alesh) (dsts : List Nat) : Alesh :=
  dsts.foldl (fun (b : Alesh) (d : Nat) => b.sendHello hCommAck b.commStep d (commAck b.commEpoch 1 0 0 0 0 b.groupDigest)) a

/-- The GROUP acks held for the current commencement epoch: source and digest. -/
def Alesh.groupHeld (a : Alesh) : List (Nat × Bytes) := (a.comm.groupAcks.filter fun k => k.1 == a.commEpoch).map (·.2)
/-- Go on: the outcome from the group's digests, then the TREE ack, then the root's judgement. The ack waits while areas
are being initialised (R387). -/
def Alesh.commProgress (a : Alesh) : Alesh :=
  let c := a.comm
  let known := c.outcome.isNone && c.groupAsked.all fun n => a.groupHeld.any fun k => k.1 == n
  let b := if known && !c.cert.isEmpty then
      let o := if a.groupHeld.all fun k => !c.groupAsked.contains k.1 || k.2 == a.groupDigest then 0 else 11
      (a.setComm { c with outcome := some o }).setNum O.COMMENCE_FAIL o
    else a
  let ready := b.comm.outcome.isSome && b.commPending.isEmpty && !b.comm.sentTree && b.ctl.initJob + b.ctl.initCoding == 0
  let d := if ready then
      let x := (b.setComm { b.comm with sentTree := true }).sendTree
      let y := if x.comm.outcome == some 0 && x.ctl.core == .idle then x.setCore .joined else x
      if y.num O.COMMENCE_STATE == 1 then y.setNum O.COMMENCE_STATE 2 else y
    else b
  d.commJudge

/-- A commencement reaches this core: forward, adopt, evaluate (R391). -/
def Alesh.commOpen (a : Alesh) (src : Nat) (block cert : Bytes) : Alesh :=
  let held := a.comm.groupAcks.filter fun k => decide (certEpoch cert ≤ k.1)
  let fresh := { Comm.reset with closed := a.comm.closed, cert := cert, block := block, sender := src, groupAcks := held }
  let b := ((((a.setComm fresh).setNum O.COMMENCE_EPOCH
    (certEpoch cert)).setNum O.COMMENCE_STATE 1).setNum O.COMMENCE_FAIL 0).setNum O.COMMENCE_FAIL_NODE 0
  let c := (b.setComm { b.comm with placed := b.commIndex.isSome, resendDue := b.ackDue }).sendCommence b.commChildren
  let able := c.commAdoptable cert
  let idle := a.ctl.core == .idle || a.ctl.core == .joined
  let d := if able && idle then c.commAdopt cert else c
  let r := d.commReason block (!able) (!idle)
  let e := if r = 0 then
      let asked := (d.geo.members.map (·.2)).filter fun n => n != d.node && d.isMember n
      (d.setComm { d.comm with groupAsked := asked, groupDue := d.ackDue }).sendGroup asked
    else (d.setComm { d.comm with outcome := some r }).setNum O.COMMENCE_FAIL r
  e.commProgress

/-- COMMENCE_START at the root (R390): ACCESS unless the certificate is adopted; a certificate that names another root is
not started here (log entry 40). -/
def commenceStart (now : Nat) (a0 : Alesh) : Res × Alesh :=
  let a := a0.at now
  let cert := a.dom O.CERT_MAILBOX
  let root := a.num O.RESTORE_STATE == 2
  let step := if root then a.num O.STEP_EPOCH else 0
  let block := leBytes 4 (certEpoch cert) ++ leBytes 1 1 ++ leBytes 1 (a.num O.COMMENCE_FANOUT) ++ leBytes 1 (if step = 0 then 0 else 1)
    ++ [0] ++ leBytes 8 step ++ leBytes 8 (a.num O.COMMENCE_JOB_SEED) ++ leBytes 8 (a.num O.COMMENCE_DATA_SEED)
    ++ leBytes 4 (a.num O.TURKAI_VERSION) ++ List.replicate 28 0 ++ a.fingerprint ++ a.dom O.PLAN_DIGEST ++ a.dom O.CONFIG_DIGEST
  require (a.ctl.core == .idle || a.ctl.core == .joined) .stateConflict a <|
    require (a.certVerified cert && a.commAdoptable cert && (a.commMembers cert).head? == some a.node
        && decide (a.comm.closed < certEpoch cert)) .access a <|
      (.ok, let b := a.commOpen a.node block cert
            b.setComm { b.comm with timeoutAt := some (b.now + b.num O.COMMENCE_TIMEOUT_NS) })
def execCommenceStart (via : Via) (now : Nat) (s : State) : Host.Outcome State Fault Refusal :=
  command via O.COMMENCE_START false (commenceStart now) s

/-- COMMENCE_ABANDON (R396): the epoch stays and is closed. -/
def commenceAbandon (a : Alesh) : Res × Alesh :=
  require (a.ctl.core == .idle || a.ctl.core == .joined) .stateConflict a <|
    let later := a.comm.groupAcks.filter fun k => decide (a.commEpoch < k.1)
    (.ok, ((a.setComm { Comm.reset with closed := a.commEpoch, groupAcks := later }).setNum O.COMMENCE_STATE 0).setCore .idle)
def execCommenceAbandon (via : Via) (s : State) : Host.Outcome State Fault Refusal :=
  command via O.COMMENCE_ABANDON false commenceAbandon s

/-- The answer to a COMMENCE of another header version (R399). -/
def Alesh.foreignVersion (now : Nat) (m : Pkt) (a0 : Alesh) : Alesh :=
  let a := a0.at now
  if !a.listens then a
  else if m.dst != a.node || m.vc != 0 then a.malformed
  else a.sendHello hCommAck 0 m.src (commAck 0 0 3 0 1 a.node (List.replicate 32 0))

/-- A COMMENCE's form (R389). -/
def commenceOk (m : Pkt) : Bool :=
  let cert := m.payload.drop 160
  let block := m.payload.take 160
  decide (160 < m.payload.length) && certShape cert && leAt block 0 4 == certEpoch cert && leAt block 8 6 == bf m.args 0 48
    && decide (2 ≤ leAt block 5 1) && decide (leAt block 5 1 ≤ 32) && decide (leAt block 6 1 ≤ 1)
def Alesh.commenceIn (a : Alesh) (m : Pkt) : Alesh :=
  let cert := m.payload.drop 160
  let e := certEpoch cert
  if e ≤ a.comm.closed then a
  else if !a.comm.cert.isEmpty && e == a.commEpoch then (if a.comm.sentTree then a.sendTree else a)
  else if e < a.commEpoch then a
  else if decide (a.num O.MEMBERSHIP_EPOCH < e) && a.certVerified cert then a.commOpen m.src (m.payload.take 160) cert
  else a
def Alesh.commenceRx (now : Nat) (m : Pkt) (a : Alesh) : Alesh :=
  if m.version = 1 then a.receiveAny now tHello m (commenceOk m) fun b => b.commenceIn m else a.foreignVersion now m
def execCommenceRx (now : Nat) (m : Pkt) (s : State) : Host.Outcome State Fault Refusal := onCore (Alesh.commenceRx now m) s
def execForeignVersionCommenceRx (now : Nat) (m : Pkt) (s : State) : Host.Outcome State Fault Refusal :=
  onCore (Alesh.commenceRx now m) s

/-- A TREE ack from a child; a repeat is answered with the start RELEASE where this core has started (R393). -/
def Alesh.treeIn (a : Alesh) (src : Nat) (p : Bytes) : Alesh :=
  if leAt p 0 4 != a.commEpoch || a.comm.cert.isEmpty || !a.commChildren.contains src then a
  else if a.comm.acks.any fun k => k.1 == src then
    (if a.inJob && a.num O.COMMENCE_STATE == 6 then a.sendStart (a.num O.COMMENCE_TIME) [src] else a)
  else (a.setComm { a.comm with acks := a.comm.acks ++ [(src, leAt p 5 1, leAt p 8 4, leAt p 12 4, bf (leAt p 16 4) 0 18)] }).commProgress
/-- A GROUP ack (R392): the first of each source and commencement epoch is held, one of a later epoch until its COMMENCE
comes (log entry 44); after the TREE ack a core to which no reason below GROUP applies answers each source once. -/
def Alesh.groupIn (a : Alesh) (src : Nat) (p : Bytes) : Alesh :=
  let e := leAt p 0 4
  let live := e == a.commEpoch && !a.comm.cert.isEmpty
  if e < a.commEpoch then a
  else if live && a.comm.sentTree then
    (if a.comm.groupAnswered.contains src || !(a.comm.outcome == some 0 || a.comm.outcome == some 11) then a
     else (a.setComm { a.comm with groupAnswered := a.comm.groupAnswered ++ [src] }).sendGroup [src])
  else if a.comm.groupAcks.any fun k => k.1 == e && k.2.1 == src then a
  else
    let b := a.setComm { a.comm with groupAcks := a.comm.groupAcks ++ [(e, src, slice p 32 32)] }
    if live then b.commProgress else b
def Alesh.commAckRx (now phase : Nat) (m : Pkt) (f : Alesh → Alesh) (a : Alesh) : Alesh :=
  a.receiveAny now tHello m (m.payload.length == 64 && leAt m.payload 4 1 == phase && decide (leAt m.payload 5 1 ≤ 11)) fun b =>
    if leAt m.payload 0 4 ≤ b.comm.closed then b else f b
def execCommenceAckTreeRx (now : Nat) (m : Pkt) (s : State) : Host.Outcome State Fault Refusal :=
  onCore (Alesh.commAckRx now 0 m fun b => b.treeIn m.src m.payload) s
def execCommenceAckGroupRx (now : Nat) (m : Pkt) (s : State) : Host.Outcome State Fault Refusal :=
  onCore (Alesh.commAckRx now 1 m fun b => b.groupIn m.src m.payload) s

/-! ### Resends and the time limit (R391 to R394) -/

def Alesh.commenceAgain (a : Alesh) : Alesh :=
  if !a.comm.cert.isEmpty && !a.comm.sentTree && a.due a.comm.resendDue then
    (a.setComm { a.comm with resendDue := a.ackDue }).sendCommence a.commPending
  else a
def execCommenceResend (now : Nat) (s : State) : Host.Outcome State Fault Refusal := onCore (fun a => (a.at now).commenceAgain) s

def Alesh.groupAgain (a : Alesh) : Alesh :=
  let lack := a.comm.groupAsked.filter fun n => !a.groupHeld.any fun k => k.1 == n
  if !lack.isEmpty && a.due a.comm.groupDue then (a.setComm { a.comm with groupDue := a.ackDue }).sendGroup lack else a
def execGroupAckResend (now : Nat) (s : State) : Host.Outcome State Fault Refusal := onCore (fun a => (a.at now).groupAgain) s

def Alesh.treeAgain (a : Alesh) : Alesh :=
  if a.comm.sentTree && a.comm.start.isNone && a.due a.comm.treeDue then a.sendTree else a
def execTreeAckResend (now : Nat) (s : State) : Host.Outcome State Fault Refusal := onCore (fun a => (a.at now).treeAgain) s

def Alesh.startAgain (a : Alesh) : Alesh :=
  match a.comm.rootC with
  | some c =>
    let lack := a.commTree.filter fun n => a.isMember n && !a.comm.arrived.contains n
    if !lack.isEmpty && a.due a.comm.startDue then (a.setComm { a.comm with startDue := a.ackDue }).sendStart c lack else a
  | none => a
def execStartReleaseResend (now : Nat) (s : State) : Host.Outcome State Fault Refusal := onCore (fun a => (a.at now).startAgain) s

/-- COMMENCE_TIMEOUT_NS without the full acknowledgement (R394). -/
def Alesh.commTimeout (a : Alesh) : Alesh :=
  match a.comm.timeoutAt with
  | some t =>
    if a.due t && a.comm.rootC.isNone && (a.num O.COMMENCE_STATE == 1 || a.num O.COMMENCE_STATE == 2) && !a.commFull then
      (a.setNum O.COMMENCE_STATE 5).raiseAttention
    else a
  | none => a
def execCommenceTimeout (now : Nat) (s : State) : Host.Outcome State Fault Refusal := onCore (fun a => (a.at now).commTimeout) s

end Sys2Proof.Machine
end

