-- ==== Sys2Proof/Machine/Values.lean ====
section
/-! DEFINITION. What an object's value must satisfy: the tests on length and range of R351, the owning units of R363, the
overlayable objects of R372. -/
namespace Sys2Proof.Machine

/-- The units that own an object's index (R363); objects outside the table belong to every unit together. -/
def unitsFor (key : Nat) : List Nat :=
  let i := key / 256
  if 0x2000 ≤ i ∧ i < 0x3000 then [uJob]
  else if (0x3010 ≤ i ∧ i ≤ 0x3050) ∨ (0x3100 ≤ i ∧ i ≤ 0x3107) then [uUpdate]
  else if i = 0x3060 then [uPublish]
  else if i = 0x3070 then [uPrecond]
  else if 0x4000 ≤ i ∧ i < 0x5000 then [uCoding]
  else if 0x5000 ≤ i ∧ i < 0x6000 then [uReduce]
  else if i = 0x6010 ∨ i = 0x6020 ∨ i = 0x6060 then [uTier]
  else if 0x7000 ≤ i ∧ i < 0x8000 then [uHealth]
  else if 0x8000 ≤ i ∧ i < 0x9000 then [uRecord]
  else List.range 9
/-- An RWD object may be written: its units are DISABLED. -/
def Alesh.rwdOpen (a : Alesh) (key : Nat) : Bool := (unitsFor key).all fun u => a.unit u == .disabled

/-- Test 4 of R351: the length fits the type. -/
def Alesh.typeOk (a : Alesh) (o : Obj) (v : Bytes) : Bool :=
  if o.ty = .dom then a.lengthOk o v.length
  else if o.ty = .cmd64 then v.length == 8
  else v.length == o.ty.bits / 8

/-- The checks that chapters make on a number beside its own range: bounds that two objects give each other (R150, R347,
R354). -/
def Alesh.pairOk (a : Alesh) (key n : Nat) : Bool :=
  if O.VC_WEIGHT_MIN ≤ key ∧ key < O.VC_WEIGHT_MIN + 6 then decide (n ≤ a.num (O.VC_WEIGHT_MAX + (key - O.VC_WEIGHT_MIN)))
  else if O.VC_WEIGHT_MAX ≤ key ∧ key < O.VC_WEIGHT_MAX + 6 then decide (a.num (O.VC_WEIGHT_MIN + (key - O.VC_WEIGHT_MAX)) ≤ n)
  else if key = O.SUSPECT_CLEAR then decide (n < a.num O.SUSPECT_COUNT)
  else if key = O.SUSPECT_COUNT then decide (a.num O.SUSPECT_CLEAR < n)
  else if key = O.SEE_WIDEN_LO then decide (n < a.num O.SEE_WIDEN_HI)
  else if key = O.SEE_WIDEN_HI then decide (a.num O.SEE_WIDEN_LO < n)
  else if key = O.PRIV_MAP then bf n 0 3 != 0
  else true
/-- The checks that chapters make on a byte string when it is written (R65, R315, R428). -/
def contentOk (key : Nat) (v : Bytes) : Bool :=
  if O.RECIPE_DESC ≤ key ∧ key < O.RECIPE_DESC + 8 then v.isEmpty || (Recipe.parse v).ok
  else if key = O.STEP_PLAN then v.length == 64 + 16 * leAt v 4 4 + 32 * leAt v 2 2
  else if key = O.REGION_TABLE then regionsOk (regionsOf v)
  else if key = O.RESTRIPE_STAGE then v.length == 32 + 8 * leAt v 6 1 + 16 * leAt v 7 1
  else true
/-- Test 8 of R351. -/
def Alesh.valueOk (a : Alesh) (o : Obj) (key : Nat) (v : Bytes) : Bool :=
  if o.ty = .dom then contentOk key v else a.inRange o (leNat v) && a.pairOk key (leNat v)

/-- The RWD objects that an overlay may hold (R372). -/
def overlayRwd (key : Nat) : Bool :=
  let i := key / 256
  let s := key % 256
  key == O.DATA_STRIDE || i == 0x3010 || i == 0x3020 || (i == 0x3030 && decide (s ≤ 2)) || (decide (0x3100 ≤ i) && decide (i ≤ 0x3107))
    || (i == 0x3060 && decide (s ≤ 2)) || (i == 0x3070 && (decide (s ≤ 2) || s == 9)) || key == O.HOLD_WINDOW || key == O.DELTA_COMPRESS
    || (i == 0x5010 && decide (s ≤ 4)) || (i == 0x5011 && decide (s ≤ 2)) || (i == 0x5020 && decide (s ≤ 2)) || key == O.PLAN_DIGEST
def overlayable (key : Nat) : Bool :=
  match objOf? key with
  | some o => o.cls == .rw || (o.cls == .rwd && overlayRwd key)
  | none => false

/-- The bits that a value keeps: reserved bits are ignored on receipt and read zero (R3, R354). -/
def keptBits (o : Obj) (key n : Nat) : Nat :=
  match o.rng with
  | .bits m => n &&& m
  | _ => if key = O.PRIV_MAP then packBits [(32, 18, bf n 32 18), (16, 8, bf n 16 8), (0, 3, bf n 0 3)] else n
/-- Store a value of an object: base value and value in force. -/
def Alesh.setValue (a : Alesh) (o : Obj) (key : Nat) (v : Bytes) : Alesh :=
  if o.ty = .dom then a.setDom key (keptBytes key v)
  else
    let b := a.setNum key (keptBits o key (leNat v))
    if key = O.PLATE_INTERVAL then b.capInterval else b
/-- Put a value in force only. -/
def Alesh.forceValue (a : Alesh) (key : Nat) (v : Bytes) : Alesh :=
  match objOf? key with
  | some o => if o.ty = .dom then a.forceDom key (keptBytes key v) else a.forceNum key (keptBits o key (leNat v))
  | none => a

end Sys2Proof.Machine
end

