-- ==== Sys2Proof/Machine/Overlay.lean ====
section
/-! DEFINITION. Overlay images, in-band requests, the switch at a Meridian (R370 to R378, R445). -/
namespace Sys2Proof.Machine

/-! ### Images (R371) -/

/-- The items of an image fill its length exactly. -/
def imageLength (items : List (Nat × Bytes)) : Nat := 16 + sumNat (items.map fun q => 8 + roundUp q.2.length 8)
/-- The checks of its own that a direct write of an RW object makes (R289, R324): CHRONO_TAIL stands at a record, THERM_MARGIN is a
number of degrees. -/
def Alesh.writeOk (a : Alesh) (key : Nat) (v : Bytes) : Bool :=
  if key = O.CHRONO_TAIL then (chronoTail (leNat v) a).1 == .ok
  else if key = O.THERM_MARGIN then (thermWrite (leNat v) a.now a).1 == .ok
  else if key = O.TAKEOVER_SET then (takeoverSet v a).1 == .ok
  else true
/-- An item would pass the tests of a direct write. -/
def Alesh.itemOk (a : Alesh) (q : Nat × Bytes) : Bool :=
  match objOf? q.1 with
  | some o => overlayable q.1 && a.typeOk o q.2 && a.valueOk o q.1 q.2 && a.writeOk q.1 q.2
  | none => false
/-- The counts that an image holds are in force for the lengths of its tables. -/
def Alesh.withItems (a : Alesh) (items : List (Nat × Bytes)) : Alesh :=
  items.foldl (fun (b : Alesh) (q : Nat × Bytes) => b.forceValue q.1 q.2) a
/-- Write or empty a slot. An image is refused where the overlay area would pass 2^40, which arming tests later (R7, R379; DESIGN
CHOICE, log entry 139), and is BUSY while the memory-side port issues no request (R380; DESIGN CHOICE, log entry 154). -/
def overlayImage (slot : Nat) (v : Bytes) (a : Alesh) : Res × Alesh :=
  let items := imageItems v
  let ok := leAt v 1 1 == slot && decide (leAt v 2 2 ≤ 4096) && items.length == leAt v 2 2 && leAt v 4 4 == v.length
    && imageLength items == v.length && increasing (items.map (·.1)) && items.all (a.withItems items).itemOk
  let loaded (b : Alesh) : Alesh := b.setNum O.OVERLAY_LOADED (packBits (b.dict.images.map fun p => (p.1, 1, 1)))
  require (decide (slot < 8)) .noObject a <|
    require (decide (v.length ≤ overlaySlotBytes)) .type a <|
      require (v.isEmpty || leAt v 0 1 == 1) .version a <|
        require (a.rwdOpen O.OVERLAY_IMAGE) .unitEnabled a <|
          if v.isEmpty then (.ok, loaded { a with dict := { a.dict with images := a.dict.images.filter fun p => p.1 != slot } })
          else require (ok && decide (a.num O.OVERLAY_BASE + 9 * overlaySlotBytes ≤ spaceBytes)) .range a <|
            require a.ctl.upM .busy a
            (.ok, loaded { (a.wr (a.num O.OVERLAY_BASE + slot * overlaySlotBytes) v) with
              dict := { a.dict with images := assign a.dict.images slot (v.length, crc64 v) } })
def execOverlayImageWrite (via : Via) (slot : Nat) (image : Bytes) (s : State) : Host.Outcome State Fault Refusal :=
  command via (O.OVERLAY_IMAGE + slot) true (overlayImage slot image) s

/-! ### Installing values (R370, R373, R378) -/

/-- Merge again the takeover blocks into the tables just installed; a block that fails is rejected. -/
def Alesh.remerge (a : Alesh) : Alesh :=
  let b := (takeBlocks (a.dict.merged.length + 1) (a.dict.merged.flatMap id)).foldl (fun (b : Alesh) (t : TakeBlock) =>
    match b.joinBlock t with
    | some c => c
    | none =>
      let d : Alesh := { b with take := { b.take with shards := b.take.shards.filter fun (x : Nat × Nat × Nat) => x.1 != t.shard } }
      d.count O.TAKEOVER_REJECT_COUNT) { a with dict := { a.dict with merged := [] } }
  b.setWait []
/-- The values in force become those of an overlay, 0xFF for the base alone. -/
def Alesh.installOverlay (a : Alesh) (ov : Nat) : Alesh :=
  let b : Alesh := { a with dict := { a.dict with forced := [], forcedDoms := [] } }
  let c := match b.image? ov with
    | some img => b.withItems (imageItems img)
    | none => b
  (c.setNum O.ACTIVE_OVERLAY ov).capInterval.remerge
/-- Advance the configuration epoch; past its maximum the core becomes FAULTED (R51). -/
def Alesh.nextConfig (a : Alesh) : Alesh :=
  if a.num O.CONFIG_EPOCH + 1 < 2 ^ 32 then a.setNum O.CONFIG_EPOCH (a.num O.CONFIG_EPOCH + 1) else a.faultAll

/-! ### In-band requests (R443, R445) -/

/-- Send a kept request again; after RETRY_LIMIT resends, a link event. -/
def Alesh.askAgain (a : Alesh) (q : Asked) : Alesh :=
  let hit (x : Asked) : Bool := x.dst == q.dst && x.reqId == q.reqId
  let b : Alesh := { a with mgmt := { a.mgmt with
    asked := modWhere hit (fun x => { x with due := a.ackDue, tries := x.tries + 1 }) a.mgmt.asked } }
  let c := b.send tDict q.dst 0 q.body
  if q.tries + 1 = a.num O.RETRY_LIMIT then c.linkEvent else c
def Alesh.dictResend (a : Alesh) (dst reqId : Nat) : Alesh :=
  match a.mgmt.asked.find? fun q => q.dst == dst && q.reqId == reqId with
  | some q => if a.due q.due then a.askAgain q else a
  | none => a
def execDictResend (now dst reqId : Nat) (s : State) : Host.Outcome State Fault Refusal :=
  onCore (fun a => (a.at now).dictResend dst reqId) s

/-! ### Orders (R373 to R377) -/

/-- Accept a switch at the combiner. -/
def Alesh.acceptSwitch (a : Alesh) (ov e : Nat) : Alesh :=
  let b : Alesh := { a with merid := { a.merid with switching := some (0, ov, e), ordersOut := false, answered := [], refused := false } }
  ((b.setNum O.SWITCH_STATE 1).setNum O.SWITCH_EPOCH e).startOrders

/-- OVERLAY_SWITCH (R374). -/
def overlaySwitch (arg now : Nat) (a0 : Alesh) : Res × Alesh :=
  let a := a0.at now
  let ov := bf arg 0 8
  let at_ := bf arg 8 48
  let p := a.nextRelease
  require (a.inJob && a.combiner == a.node) .stateConflict a <|
    require ((at_ == 0 || decide (p < at_)) && (ov == 0xFF || (decide (ov < 8) && (lookup? a.dict.images ov).isSome))) .range a <|
      require (a.num O.SWITCH_STATE != 1) .busy a
        (.ok, a.acceptSwitch ov (if at_ = 0 then p + 1 else at_))
def execOverlaySwitch (via : Via) (arg now : Nat) (s : State) : Host.Outcome State Fault Refusal :=
  command via O.OVERLAY_SWITCH true (overlaySwitch arg now) s

/-- Answers decide: a refusal turns the order into CANCEL, and a CANCEL answered by all ends it. -/
def Alesh.settleOrder (a : Alesh) : Alesh :=
  match a.merid.switching with
  | some (0, ov, e) =>
    if a.merid.refused then
      (({ a.dropOrders with merid := { a.merid with switching := some (1, ov, e), answered := [], refused := false
                                                    orderDue := a.ackDue } })).writeOrder a.memb.members
    else a
  | some (_, _, _) => if a.orderAnswered then { a with merid := { a.merid with switching := none, ordersOut := false, answered := [] } } else a
  | none => a
/-- A response to an order: at the combiner an answer, of which RANGE alone refuses the order (R377), at a member the news that a combiner holds the order (R376). -/
def Alesh.orderResponse (a : Alesh) (q : Asked) (result : Nat) : Alesh :=
  let b := if result = 0 then ({ a with merid := { a.merid with orderHolder := insertNat a.merid.orderHolder q.dst } }).tryArrive else a
  match b.merid.switching with
  | some (act, ov, e) =>
    if q.data != orderBytes act ov e || b.merid.answered.contains q.dst then b.tryRelease
    else if result = 0 then (({ b with merid := { b.merid with answered := b.merid.answered ++ [q.dst] } }).settleOrder).tryRelease
    else if act = 0 && result == Res.range.code then ({ b with merid := { b.merid with refused := true } }).settleOrder
    else b
  | none => b.tryRelease

/-- A write of SWITCH_ORDER is taken in band alone: from the combiner, or at the combiner from a member that hands an order on
(R373, R376). -/
def Alesh.takesOrder (a : Alesh) (via : Via) : Bool :=
  match via with
  | .inBand src _ => a.joinedOrJob && a.isMember src && (src == a.combiner || a.combiner == a.node)
  | _ => false
/-- SWITCH_ORDER at a core: from the combiner, or at the combiner from a member that holds the order (R375, R376). -/
def switchOrder (src : Nat) (v : Bytes) (a : Alesh) : Res × Alesh :=
  let act := leAt v 0 1
  let ov := leAt v 1 1
  let e := bf (leAt v 8 8) 0 48
  require (a.takesOrder (.inBand src 0)) .access a <|
    require (v.length == 16) .type a <|
      require (decide (act ≤ 1)) .range a <|
        if src != a.combiner then
          -- a member hands on the order of a combiner that has left
          (.ok, if act = 1 || a.merid.switching.isSome || decide (e ≤ a.nextRelease) then a else a.acceptSwitch ov e)
        else if act = 1 then
          -- an order of another step epoch is not the one cancelled
          (.ok, if a.merid.order.isSome && (a.merid.order.map fun o => o.2.1) != some e then a
            else ({ (a.setNum O.SWITCH_STATE 3) with merid := { a.merid with order := none, orderHolder := [] } }).ctrl fSwitchCancelled)
        else
          require (ov == 0xFF || a.imageGood ov) .range a
            (.ok, if e < a.inProgress then a
              else ({ a with merid := { a.merid with order := some (ov, e, src), orderHolder := insertNat a.merid.orderHolder src } }.setNum
                O.SWITCH_STATE 1).setNum O.SWITCH_EPOCH e)
def execSwitchOrderWrite (src reqId now : Nat) (value : Bytes) (s : State) : Host.Outcome State Fault Refusal :=
  command (.inBand src reqId) O.SWITCH_ORDER true (fun a => switchOrder src value (a.at now)) s
def execSwitchCancel (src reqId now : Nat) (value : Bytes) (s : State) : Host.Outcome State Fault Refusal :=
  command (.inBand src reqId) O.SWITCH_ORDER true (fun a => switchOrder src value (a.at now)) s

/-- The combiner writes its order again to every member that has not answered (R375). -/
def Alesh.orderAgain (a : Alesh) : Alesh :=
  if a.merid.ordersOut && a.due a.merid.orderDue then
    let b : Alesh := { a with merid := { a.merid with orderDue := a.ackDue } }
    let open_ := b.mgmt.asked.filter fun q => q.isOrder && !b.merid.answered.contains q.dst
    -- a member whose answer was neither OK nor RANGE is asked afresh
    (open_.foldl Alesh.askAgain b).writeOrder (b.memb.members.filter fun n =>
      !b.merid.answered.contains n && !open_.any fun q => q.dst == n)
  else a
def execSwitchOrderResend (now : Nat) (s : State) : Host.Outcome State Fault Refusal := onCore (fun a => (a.at now).orderAgain) s

/-- Adoption (R375, R376): the order goes to new members, answers count over the new membership, and a holder of an order
writes it to a new combiner. `was` is the combiner before, `new` the members added. -/
def Alesh.overlayAdopt (a : Alesh) (was : Nat) (new : List Nat) : Alesh :=
  let b : Alesh := { a with mgmt := { a.mgmt with asked := a.mgmt.asked.filter fun q => !q.isOrder || a.isMember q.dst } }
  let c := if b.merid.ordersOut then (b.writeOrder new).settleOrder else b
  if c.combiner == was then c
  else
    match c.merid.order with
    | some (ov, e, _) =>
      if c.combiner == c.node then
        let d : Alesh := { c with merid := { c.merid with orderHolder := insertNat c.merid.orderHolder c.node } }
        if d.merid.switching.isSome || decide (e ≤ d.nextRelease) then d else d.acceptSwitch ov e
      else c.askInBand c.combiner O.SWITCH_ORDER (orderBytes 0 ov e)
    | none => c

/-! ### The switch (R378) -/

/-- The switch at the release of `e`: the values in force, the epoch, the flags, the digest and the CONFIG record. -/
def Alesh.switchOverlay (a : Alesh) (e : Nat) : Alesh :=
  match a.merid.order with
  | some (ov, x, _) =>
    if x != e then a
    else
      let b := ((a.installOverlay ov).nextConfig).unstandAll
      let c := ((b.setNum O.SWITCH_STATE 2).ctrl fSwitchDone).formConfigDigest
      let d := c.dropOrders
      ({ d with merid := { d.merid with order := none, orderHolder := [], switching := none, ordersOut := false, answered := []
                                        refused := false } }).chronoConfig e
  | none => a

end Sys2Proof.Machine
end

