-- ==== Sys2Proof/Machine/Errors.lean ====
section
/-! DEFINITION. Memory errors by the place where they lie, page retirement and the scrubber (R400 to R407, R413, R414). -/
namespace Sys2Proof.Machine

/-! ### Where an address lies (R400) -/

/-- Places of Tier 0 that the table of R400 tells apart. -/
inductive Place where
  | live (g page : Nat)
  | pending (g page : Nat)
  /-- A parity page or its record: of the staged layout or not, slot, band, row, page. -/
  | parity (alt : Bool) (slot band row page : Nat)
  /-- A slot's column record or page epoch table. -/
  | column (alt : Bool) (slot band row : Nat)
  /-- A pending delta: source, sequence, page. -/
  | held (src seq page : Nat)
  | other
  deriving DecidableEq, Repr

/-- The logical address that an address of the port serves (R405). -/
def Alesh.unplace (a : Alesh) (addr : Nat) : Nat :=
  match a.errs.retired.find? fun r => decide (a.num O.SPARE_BASE + r.2 * pageBytes = addr / pageBytes * pageBytes) with
  | some r => r.1 * pageBytes + addr % pageBytes
  | none => addr
/-- A page of a slot: live with VALID = 1, or pending. -/
def Alesh.slotPlace (a : Alesh) (slot page : Nat) : Place :=
  match a.slots.map.find? (fun p => p.2 == slot), a.slots.pend.find? (fun p => p.2 == slot) with
  | some p, _ => if (a.pageRec slot page).valid then .live p.1 page else .other
  | none, some p => .pending p.1 page
  | none, none => .other
/-- The pending pages of a source, in the order in which its transactions and their pages came (log entry 41). -/
def Alesh.heldPages (a : Alesh) (source : Nat) : List (Nat × Nat × Nat) :=
  (a.coding.hold.filter fun t => a.reservation t == source).flatMap fun t => t.pages.map fun p => (t.src, t.seq, p.1)
/-- The pending delta at a page of the hold area: one reservation for each source, in increasing node id (R166, log entry 29). -/
def Alesh.holdPlace (a : Alesh) (page : Nat) : Place :=
  let room := (a.num O.HOLD_WINDOW + 1) * 257
  let sources := sortNat (a.coding.hold.map a.reservation)
  match sources[page / room]? with
  | none => .other
  | some source =>
    match (a.heldPages source)[page % room]? with
    | some p => .held p.1 p.2.1 p.2.2
    | none => .other
/-- An address lies in an area of `n` bytes. -/
def inArea (base n addr : Nat) : Bool := decide (base ≤ addr) && decide (addr < base + n)
/-- The state slot and page at an address of the state or the metadata area. -/
def Alesh.slotAt (a : Alesh) (addr : Nat) : Option (Nat × Nat) :=
  let sb := a.num O.STATE_BASE
  let mb := a.num O.META_BASE
  if inArea sb (a.slotCount * sliceBytes) addr then some ((addr - sb) / sliceBytes, (addr - sb) % sliceBytes / pageBytes)
  else if inArea mb (a.slotCount * 16384) addr then some ((addr - mb) / 16384, (addr - mb) % 16384 / 64)
  else none
/-- The parity slot and page at an address of a parity area of a layout, its records or its epoch tables; no page for a column
record or a table. -/
def Alesh.parityAt (a : Alesh) (alt : Bool) (addr : Nat) : Option (Nat × Option Nat) :=
  let n := a.num (if alt then O.PARITY_ALT_SLOTS else O.PARITY_SLOTS)
  if inArea (a.parityBase alt) (n * sliceBytes) addr then
    let o := addr - a.parityBase alt
    some (o / sliceBytes, some (o % sliceBytes / pageBytes))
  else if inArea (a.parityMeta alt) (n * paritySlotMeta) addr then
    let o := addr - a.parityMeta alt
    some (o / paritySlotMeta, if o % paritySlotMeta < 16384 then some (o % paritySlotMeta / 64) else none)
  else if inArea (a.epochTable alt) (n * pageBytes) addr then some ((addr - a.epochTable alt) / pageBytes, none)
  else none
/-- A parity slot's place, where the slot is in use. -/
def Alesh.parityPlace (a : Alesh) (alt : Bool) (x : Nat × Option Nat) : Place :=
  match a.slotRow alt x.1, x.2 with
  | some r, some p => .parity alt x.1 r.1 r.2 p
  | some r, none => .column alt x.1 r.1 r.2
  | none, _ => .other
/-- Where an address of Tier 0 lies. -/
def Alesh.whereIs (a : Alesh) (addr : Nat) : Place :=
  if a.slots.map.isEmpty then .other
  else match a.slotAt addr, a.parityAt false addr, a.parityAt true addr with
    | some x, _, _ => a.slotPlace x.1 x.2
    | none, some x, _ => a.parityPlace false x
    | none, none, some x => a.parityPlace true x
    | none, none, none =>
      if inArea (a.num O.HOLD_BASE) (a.num O.HOLD_PAGES * pageBytes) addr then a.holdPlace ((addr - a.num O.HOLD_BASE) / pageBytes)
      else .other

/-! ### Handling an uncorrectable error (R400 to R404) -/

/-- A pending delta has an error: its transaction keeps the page as bad (R402). -/
def Alesh.damageHeld (a : Alesh) (src seq page addr : Nat) : Alesh :=
  match a.holdTx? src seq with
  | some t =>
    if t.bad.contains page then a
    else (a.noteUe addr 3).modHold (fun x => x.src == src && x.seq == seq) fun x => { x with bad := x.bad ++ [page] }
  | none => a
/-- A unit whose path needs the data enters FAULTED (R404). -/
def readerUnits : Reader → List Nat
  | .unit u => if u = uUpdate ∨ u = uCoding ∨ u = uPublish ∨ u = uReduce then [u] else []
  | _ => []
/-- The requester's answer to a bus error: a fabric request that is being performed ends with STATUS BUSERR (R314, R404). -/
def Alesh.busAnswer (a : Alesh) (r : Reader) : Alesh :=
  match r with
  | .fabric tag src =>
    match a.fabric.jobs.find? fun j => let h := FaHdr.ofNat j.req.args; h.tag == tag && j.req.src == src with
    | some j => Alesh.settle (a.faFinish j stBusErr)
    | none => a
  | r => a.faultUnits (readerUnits r)

/-- One uncorrectable error of Tier 0 at an address (R400). A scan counts it once its repair has ended; a held delta, which is
neither repaired nor a bus error, it does not count (DEDUCED, log entry 142). -/
def Alesh.ueAt (a : Alesh) (r : Reader) (addr : Nat) : Alesh :=
  let page := addr / pageBytes
  let wait (k : Repair) (b : Alesh) : Alesh := if r = .scrub then b.scanWait k page else b
  let note (fixed : Bool) (b : Alesh) : Alesh := if r = .scrub then b.scanNote fixed page else b
  match a.whereIs addr with
  | .live g p => wait (.live g p) ((a.markBad page).damageLive g p)
  | .pending g p => ((wait (.pending g p) a).markBad page).recomputePending g p
  | .parity alt s b i p => (if alt then note true else wait (.parity s p)) (a.failParity alt s b i p page)
  | .column alt s b i => (if alt then note true else wait (.slot s)) (a.damageSlot alt s b i addr)
  | .held src seq p => a.damageHeld src seq p addr
  | .other => note false (((a.busError addr).markBad page).busAnswer r)

/-! ### Read and write bursts (R405, R410, R413, R414) -/

inductive BeatOutcome where
  | none | corrected | uncorrectable
  deriving DecidableEq, Repr
/-- The outcome of a beat from its two fields. -/
def beatOutcome (b : Nat × Nat) : BeatOutcome :=
  if b.1 = 3 ∨ b.2 = 3 ∨ b.2 = 2 then .uncorrectable else if b.2 = 1 ∨ b.1 = 1 ∨ b.1 = 2 then .corrected else .none
def beatReserved (b : Nat × Nat) : Bool := b.1 == 3 || b.2 == 3

/-- A page reports corrected errors: counts of the 1,024 that corrected most recently, and retirement at the limit (R405). -/
def Alesh.pageCorrected (a : Alesh) (page n : Nat) : Alesh :=
  if n = 0 then a
  else
    let c := lookupD 0 a.errs.recent page + n
    let rest := a.errs.recent.filter fun (p : Nat × Nat) => p.1 != page
    let b : Alesh := { a with errs := { a.errs with recent := ((page, c) :: rest).take 1024 } }
    if decide (a.num O.RETIRE_CE_LIMIT ≤ c) then b.retirePage page else b

/-- Bytes of a burst on the port, and the bursts below 2 KiB. -/
def Alesh.burst (a : Alesh) (key beats tenant : Nat) : Alesh :=
  let b := (a.wrapN key (64 * beats)).addWork tenant beats
  if beats < 32 then b.wrap O.MSP_SHORT_BURSTS else b

/-- The tenant to whom a burst counts (R458): one for a fabric request, to that of the segment at the address. -/
def Alesh.burstTenant (a : Alesh) (r : Reader) (tier addr : Nat) : Nat :=
  match r with
  | .fabric _ _ =>
    match a.fabric.pages.find? fun t => t.tier == tier && t.frame == addr / pageBytes * pageBytes with
    | some t => (a.segAt t).tenant
    | none => ((a.segs.find? fun s => s.homeTier == tier && decide (s.homeBase ≤ addr) && decide (addr < s.homeBase + s.length)).map
        fun s => s.tenant).getD a.jobTenant
  | _ => a.jobTenant

/-- The first address of each page and place: a page holds one error however many beats of it are bad (R413). -/
def Alesh.firstOfEach (a : Alesh) (l : List Nat) : List Nat :=
  let at_ := l.map fun x => (x, a.whereIs x)
  (at_.zipIdx.filter fun p => !(at_.take p.2).any fun q => q.2 == p.1.2 && q.1 / pageBytes == p.1.1 / pageBytes).map (·.1.1)
/-- A read burst returns (R413). -/
def Alesh.mspRead (now : Nat) (r : ReadBurst) (a0 : Alesh) : Alesh :=
  let a := a0.at now
  if a.ctl.core == .reset || !a.ctl.upM then a
  else
    let beats := r.beats.zipIdx.map fun p => (beatOutcome p.1, r.addr + 64 * p.2)
    let reserved := (r.beats.filter beatReserved).length
    let fixed := (beats.filter fun p => p.1 == .corrected).map (·.2)
    let bad := (beats.filter fun p => p.1 == .uncorrectable).map (·.2)
    let b := ((a.burst O.MSP_RD_BYTES r.beats.length (a.burstTenant r.reader (if r.tier1 then 1 else 0) r.addr)).countN O.MSP_ECC_RESERVED_COUNT reserved).corrected fixed.length
    let c := if bad.isEmpty then b else b.count O.MSP_UE_COUNT
    if r.tier1 then
      if bad.isEmpty then c
      else (bad.foldl (fun (x : Alesh) (y : Nat) => x.markBad1 (y / pageBytes)) (c.busError r.addr)).busAnswer r.reader
    else
      let at_ := fixed.map a.unplace
      let d := (sortNat (at_.map (· / pageBytes))).foldl
        (fun (x : Alesh) (p : Nat) => x.pageCorrected p (at_.filter fun y => y / pageBytes == p).length) c
      let e : Alesh := if r.reader = .scrub then
          { d with errs := { d.errs with scan := d.errs.scan.map fun s => { s with sectors := s.sectors + fixed.length } } } else d
      (e.firstOfEach (bad.map a.unplace)).foldl (fun (x : Alesh) (y : Nat) => x.ueAt r.reader y) e
def execMspReadReturn (now : Nat) (b : ReadBurst) (s : State) : Host.Outcome State Fault Refusal := onCore (Alesh.mspRead now b) s

/-- A write response: an error leaves the burst's bytes free and its pages to be handled when they are next read (R414). -/
def Alesh.mspWrite (w : WriteBurst) (a : Alesh) : Alesh :=
  if a.ctl.core == .reset || !a.ctl.upM then a
  else
    let b := a.burst O.MSP_WR_BYTES w.beats (a.burstTenant w.reader (if w.tier1 then 1 else 0) w.addr)
    if w.status = 0 then b
    else
      let c := b.count O.MSP_WR_ERR_COUNT
      let d := c.drawBytes (64 * w.beats)
      if w.tier1 then
        (List.range w.beats).foldl (fun (x : Alesh) (i : Nat) => x.markBad1 ((w.addr + 64 * i) / pageBytes))
          { d.2 with mem1 := d.2.mem1.write w.addr d.1 }
      else
        (List.range w.beats).foldl (fun (x : Alesh) (i : Nat) => x.markBad (a.unplace (w.addr + 64 * i) / pageBytes))
          { d.2 with mem0 := d.2.mem0.write w.addr d.1 }
def execMspWriteResponse (b : WriteBurst) (s : State) : Host.Outcome State Fault Refusal := onCore (Alesh.mspWrite b) s

/-! ### Retirement (R405) -/

/-- Set RETIRED in the page's record, where the page has one; PINNED shows the pin in force as the record is written (R258). -/
def Alesh.flagRetired (a : Alesh) (page : Nat) : Alesh :=
  let addr := page * pageBytes
  let sb := a.num O.STATE_BASE
  if inArea sb (a.slotCount * sliceBytes) addr then
    let s := (addr - sb) / sliceBytes
    let p := (addr - sb) % sliceBytes / pageBytes
    a.setRec s p (((a.pageRec s p).setFlag flRetired true).setFlag flPinned (a.slots.pins.contains s))
  else
    match [false, true].find? fun alt => inArea (a.parityBase alt)
        (a.num (if alt then O.PARITY_ALT_SLOTS else O.PARITY_SLOTS) * sliceBytes) addr with
    | some alt =>
      let o := addr - a.parityBase alt
      let s := o / sliceBytes
      let p := o % sliceBytes / pageBytes
      a.wr (a.parityRecAddr alt s p) ((a.parityRec alt s p).setFlag flRetired true).bytes
    | none => a

/-- The copy of a page to its spare is complete. -/
def Alesh.copyComplete (page : Nat) (a : Alesh) : Alesh :=
  match lookup? a.errs.copying page with
  | none => a
  | some spare =>
    let b : Alesh := { a with mem0 := a.mem0.write (a.num O.SPARE_BASE + spare * pageBytes) (a.mem0.read (page * pageBytes) pageBytes) }
    let c : Alesh := { b with errs := { b.errs with
      copying := b.errs.copying.filter fun (p : Nat × Nat) => p.1 != page
      retired := b.errs.retired ++ [(page, spare)]
      scan := b.errs.scan.map fun s => { s with retired := s.retired + 1 } } }
    (c.setNum O.RETIRED_COUNT c.errs.retired.length).flagRetired page
def execPageRetireCopyComplete (page : Nat) (s : State) : Host.Outcome State Fault Refusal := onCore (Alesh.copyComplete page) s

/-- RETIRE_LIST, written in INIT from a saved list: the entries are applied without a copy. -/
def retireList (v : Bytes) (a : Alesh) : Res × Alesh :=
  let es := (List.range (v.length / 8)).map fun i => (leAt v (8 * i) 8 % 2 ^ 24, bf (leAt v (8 * i) 8) 24 12)
  require (v.length % 8 == 0 && decide (v.length ≤ 32768)) .type a <|
    require (a.rwdOpen O.RETIRE_LIST) .unitEnabled a
      (.ok, ({ (a.setDom O.RETIRE_LIST (keptBytes O.RETIRE_LIST v)) with errs := { a.errs with retired := es } }).setNum O.RETIRED_COUNT es.length)
def execRetireListWrite (via : Via) (value : Bytes) (s : State) : Host.Outcome State Fault Refusal :=
  command via O.RETIRE_LIST true (retireList value) s

/-! ### The scrubber (R406, R407) -/

def scrubStart (now : Nat) (a0 : Alesh) : Res × Alesh :=
  let a := a0.at now
  let r := a.dom O.SCRUB_RANGE
  let at_ := leAt r 0 8
  let n := leAt r 8 8
  require (a.idleToJob || a.ctl.core == .maint) .stateConflict a <|
    require (at_ % pageBytes == 0 && n % pageBytes == 0 && decide (at_ < spaceBytes) && decide (at_ + n ≤ spaceBytes)) .range a <|
      require a.errs.scan.isNone .busy a
        (let s : Scan := { addr := at_, stop := at_ + n, start := a.now, pages := 0, sectors := 0, fixed := 0, buserr := 0, retired := 0
                           firstBad := none, waits := [] }
         (.ok, (({ a with errs := { a.errs with scan := some s } }).setNum O.SCRUB_STATE 1).scanEnd))
def execScrubStart (via : Via) (now : Nat) (s : State) : Host.Outcome State Fault Refusal :=
  command via O.SCRUB_START false (scrubStart now) s

/-- A page of a slot outside use fails its check (R47): it expects what its own record says. -/
def Alesh.strayBad (a : Alesh) (r : PageRec) (addr : Nat) : Bool :=
  r.valid && !(r.version == 1 && r.job == a.num O.JOB_ID && !a.errs.bad.contains (addr / pageBytes)
    && r.crc == crc64 (a.rd addr pageBytes))
/-- The check of R47 that a scan makes of the page of Tier 0 that an address of the state, metadata or parity areas names, where its
record is VALID (R406). A page of a pending slot that its update has yet to write is no page of it. -/
def Alesh.scrubAt (a : Alesh) (addr : Nat) : Alesh :=
  let here := addr / pageBytes
  let stray (r : PageRec) (at_ : Nat) : Alesh := if a.strayBad r at_ then (a.busError at_).scanNote false (at_ / pageBytes) else a
  match a.whereIs addr, a.slotAt addr, (a.parityAt false addr).map fun x => (false, x), (a.parityAt true addr).map fun x => (true, x) with
  | .live g p, some x, _, _ => if a.pageGood g x.1 p then a else (a.damageLive g p).scanWait (.live g p) here
  | .pending g p, some x, _, _ =>
    let todo := (((a.prog? g).bind (·.upd)).map fun u => u.todo.contains (a.unitOf g p).1).getD true
    if todo || a.pageGood g x.1 p then a else ((a.markBad here).scanWait (.pending g p) here).recomputePending g p
  | .parity alt s b i p, _, _, _ =>
    if a.parityGood alt s b p then a
    else if alt then (a.badParity alt s b i p).scanNote true here else (a.badParity alt s b i p).scanWait (.parity s p) here
  | .column alt s b i, _, _, _ =>
    if a.tableGood alt s then a
    else if alt then (a.checkTable alt s b i).scanNote true here else (a.checkTable alt s b i).scanWait (.slot s) here
  | _, some x, _, _ => stray (a.pageRec x.1 x.2) (a.pageAddr x.1 x.2)
  | _, none, some (alt, s, some p), _ => stray (a.parityRec alt s p) (a.parityAddr alt s p)
  | _, none, none, some (alt, s, some p) => stray (a.parityRec alt s p) (a.parityAddr alt s p)
  | _, _, _, _ => a
/-- The pages that a page of Tier 0 holds or holds the records of. -/
def Alesh.scrubCheck (a : Alesh) (addr : Nat) : Alesh :=
  let areas := [(a.num O.META_BASE, a.slotCount * 16384), (a.parityMeta false, a.num O.PARITY_SLOTS * paritySlotMeta),
    (a.parityMeta true, a.num O.PARITY_ALT_SLOTS * paritySlotMeta)]
  if areas.any fun r => decide (r.1 < addr + pageBytes) && decide (addr < r.1 + r.2) then
    (List.range 1024).foldl (fun (b : Alesh) (i : Nat) => b.scrubAt (addr + 64 * i)) a
  else a.scrubAt addr
/-- One page read. -/
def Scan.next (s : Scan) : Scan := { s with addr := s.addr + pageBytes, pages := s.pages + 1 }
/-- The next page of a scan, at most SCRUB_PAGES_PER_MS in each millisecond since its start; a page with an error left by a
failed write is handled now (R414). -/
def Alesh.scrubPage (now : Nat) (a0 : Alesh) : Alesh :=
  let a := a0.at now
  match a.errs.scan with
  | none => a
  | some s =>
    if decide (s.stop ≤ s.addr) then a.scanEnd
    else if decide (((a.now - s.start) / 1000000 + 1) * a.num O.SCRUB_PAGES_PER_MS ≤ s.pages) then a
    else
      let b := if a.errs.bad.contains (s.addr / pageBytes) then a.ueAt .scrub s.addr else a.scrubCheck s.addr
      ({ b with errs := { b.errs with scan := b.errs.scan.map Scan.next } }).scanEnd
def execScrubPage (now : Nat) (s : State) : Host.Outcome State Fault Refusal := onCore (Alesh.scrubPage now) s

end Sys2Proof.Machine
end

