-- ==== Sys2Proof/Machine/Ports.lean ====
section
/-! DEFINITION. The fabric ports: link credit, arbitration, peer credit (R148 to R150, R228, R416 to R423). -/
namespace Sys2Proof.Machine

/-! ### Links and link credit (R417, R418) -/

def Alesh.linkIsUp (a : Alesh) (port : Nat) : Bool := a.ports.isUp port
def Alesh.txCredit (a : Alesh) (port vc : Nat) : Nat := lookupD 0 a.ports.txCredit (lane port vc)
def Alesh.rxCredit (a : Alesh) (port vc : Nat) : Nat := lookupD 0 a.ports.rxCredit (lane port vc)
def Alesh.sendingOn (a : Alesh) (port vc : Nat) : Option Sending := a.ports.sending.find? fun x => x.port == port && x.vc == vc
/-- The core withholds a channel's credit: no receive context is free (R422), or the reduction reserve is full (R131). -/
def Alesh.withheld (a : Alesh) (vc : Nat) : Bool :=
  (vc == 2 && a.reserveFull)
    || (decide (2 ≤ vc) && decide (vc ≤ 4) && decide (a.num O.RX_CONTEXTS ≤ (a.ports.opened.filter fun o => o.vc == vc).length))
/-- One credit goes back for each flit taken from the receive buffer, and flits are taken as they come (log entry 134), but for a
channel whose credit is withheld: what has gathered goes back once it is not (R131, R417, R422). -/
def Alesh.returnCredits (a : Alesh) : Alesh :=
  let lanes := ([0, 1].flatMap fun p => (List.range 8).map fun v => (p, v)).filter fun x =>
    a.linkIsUp x.1 && !a.withheld x.2 && lookupD 0 a.ports.kept (lane x.1 x.2) != 0
  { a with ports := lanes.foldl (fun (q : Ports) (x : Nat × Nat) =>
      let l := lane x.1 x.2
      let n := lookupD 0 q.kept l
      { q with rxCredit := assign q.rxCredit l (lookupD 0 q.rxCredit l + n), crOut := assign q.crOut l (lookupD 0 q.crOut l + n)
               kept := assign q.kept l 0 }) a.ports }
def Alesh.setLink (a : Alesh) (port : Nat) (on : Bool) : Alesh :=
  let p : Ports := if port = 0 then { a.ports with up0 := on } else if port = 1 then { a.ports with up1 := on } else a.ports
  ({ a with ports := p }).setNum O.FP_LINK_STATE ((if p.up0 then 1 else 0) + (if p.up1 then 2 else 0))
def notOnPort {β : Type} (port : Nat) (l : List (Nat × β)) : List (Nat × β) := l.filter fun x => x.1 / 8 != port

def Alesh.linkUp (port : Nat) (a : Alesh) : Alesh :=
  if decide (1 < port) || a.linkIsUp port then a
  else
    let b := a.setLink port true
    ({ b with ports := { b.ports with txCredit := notOnPort port b.ports.txCredit } }).grantCredits port
def execLinkUp (port : Nat) (s : State) : Host.Outcome State Fault Refusal := onCore (Alesh.linkUp port) s

/-- A retrain or a fall is a link event. -/
def Alesh.retrain (a : Alesh) : Alesh := (a.count O.FP_RETRAIN_COUNT).linkEvent
def execLinkRetrain (port : Nat) (s : State) : Host.Outcome State Fault Refusal :=
  onCore (fun a => if a.ctl.core == .reset || decide (1 < port) then a else a.retrain) s

/-! ### Peer credit, receiving side (R421) -/

/-- The entry of a source and channel; one not yet kept is as at commencement, or when the pair became co-members (R420, R421). -/
def Alesh.peerRx (a : Alesh) (node vc : Nat) : PeerRx :=
  (a.ports.rx.find? fun r => r.node == node && r.vc == vc).getD { node := node, vc := vc, base := 0, done := [] }
def Alesh.setPeerRx (a : Alesh) (r : PeerRx) : Alesh :=
  { a with ports := { a.ports with rx := (a.ports.rx.filter fun x => !(x.node == r.node && x.vc == r.vc)) ++ [r] } }
def Alesh.rxLimit (a : Alesh) (node vc : Nat) : Nat := ((a.peerRx node vc).base + a.num O.PEER_WINDOW) % 65536
/-- A CREDIT packet to a node. -/
def Alesh.sendCredit (a : Alesh) (dst : Nat) (request : Bool) : Alesh :=
  let w := packBits [(0, 18, a.node), (32, 18, dst), (64, 8, 1), (72, 1, if request then 1 else 0), (128, 16, a.rxLimit dst 2),
    (144, 16, a.rxLimit dst 3), (160, 16, a.rxLimit dst 4)]
  a.emit { kind := 2, vc := 0, version := 1, typ := 0, src := a.node, dst := dst, route := 0, memb := 0, args := w, payload := [] }
/-- The base moves past every sequence completed. -/
def rxAdvance : Nat → Nat → List Nat → Nat × List Nat
  | 0, b, d => (b, d)
  | n + 1, b, d => if d.contains b then rxAdvance n ((b + 1) % 65536) (d.filter (· != b)) else (b, d)
/-- Sequences of a source are completed; where a LIMIT advances a CREDIT tells the source. -/
def Alesh.complete (a : Alesh) (src vc : Nat) (pseqs : List Nat) : Alesh :=
  if !isPeerVc vc then a
  else
    let r := a.peerRx src vc
    let new := pseqs.filter fun q => decide (off16 q r.base < 32768) && !r.done.contains q
    let x := rxAdvance (r.done.length + new.length + 1) r.base (r.done ++ new)
    let b := a.setPeerRx { r with base := x.1, done := x.2 }
    if x.1 != r.base then b.sendCredit src false else b
/-- Reclaim the credits granted to a peer: the base becomes the LIMIT (R228). -/
def Alesh.reclaim (a : Alesh) (node : Nat) : Alesh :=
  [2, 3, 4].foldl (fun (b : Alesh) (v : Nat) => b.setPeerRx { (b.peerRx node v) with base := b.rxLimit node v, done := [] }) a
/-- A flit other than a REQUEST has come from a peer within LEASE_TERM_NS; before any has, the time runs from commencement. -/
def Alesh.heardOf (a : Alesh) (node : Nat) : Bool :=
  !a.due (max (a.num O.COMMENCE_TIME) (lookupD 0 a.ports.heardAt node) + a.num O.LEASE_TERM_NS)

/-- LEASE_TERM_NS without a flit from a peer. -/
def Alesh.creditLease (now node : Nat) (a0 : Alesh) : Alesh :=
  let a := a0.at now
  if !a.joinedOrJob || !a.isMember node || a.heardOf node then a
  else
    ((a.reclaim node).flitFrom node).sendCredit node false
def execCreditLeaseExpiry (now node : Nat) (s : State) : Host.Outcome State Fault Refusal := onCore (Alesh.creditLease now node) s

/-- The source of an open packet, from the header of R176 or R308 in its first flit. -/
def OpenRx.src (o : OpenRx) : Nat := if o.kind = 0 then bf (leAt o.bytes 0 16) 102 18 else 0

/-! ### Peer credit, sending side (R420) -/

def Alesh.peerTx (a : Alesh) (node vc : Nat) : PeerTx :=
  (a.ports.tx.find? fun t => t.node == node && t.vc == vc).getD
    { node := node, vc := vc, next := 0, limit := a.num O.PEER_WINDOW, oldLimit := a.num O.PEER_WINDOW, since := 0, void := false, asked := false, due := 0, last := a.num O.COMMENCE_TIME }
def Alesh.setPeerTx (a : Alesh) (t : PeerTx) : Alesh :=
  { a with ports := { a.ports with tx := (a.ports.tx.filter fun x => !(x.node == t.node && x.vc == t.vc)) ++ [t] } }
/-- A packet has the peer credit to start; in the cclk in which a LIMIT was adopted, by the LIMIT before it (R420, R423). -/
def Alesh.peerOk (a : Alesh) (p : Pkt) : Bool :=
  let t := a.peerTx p.dst p.vc
  !needsPeer p || t.under (if a.clock.valid && t.since == a.now then t.oldLimit else t.limit)

/-- A flit has left for a node: the peer's lease of this core is renewed (R228). -/
def Alesh.flitTo (a : Alesh) (node : Nat) : Alesh :=
  [2, 3, 4].foldl (fun (b : Alesh) (v : Nat) => b.setPeerTx { (b.peerTx node v) with last := b.now }) a
/-- No flit has gone to a peer for LEASE_TERM_NS − LEASE_GUARD_NS: its credit is void; where credit was held, a wait starts here. -/
def Alesh.peerVoid (now node : Nat) (a0 : Alesh) : Alesh :=
  let a := a0.at now
  let last := [2, 3, 4].foldl (fun m v => max m (a.peerTx node v).last) 0
  if a.joinedOrJob && a.isMember node && a.due (last + (a.num O.LEASE_TERM_NS - a.num O.LEASE_GUARD_NS)) then
    [2, 3, 4].foldl (fun (b : Alesh) (v : Nat) => let t := b.peerTx node v
      b.setPeerTx { t with void := true, due := if t.mayStart then b.now + b.num O.FP_GAP_NS else t.due }) a
  else a
def execPeerCreditVoid (now node : Nat) (s : State) : Host.Outcome State Fault Refusal := onCore (Alesh.peerVoid now node) s

/-- A packet to a node waits for peer credit: a CREDIT REQUEST, every FP_GAP_NS. -/
def Alesh.peerWait (now node vc : Nat) (a0 : Alesh) : Alesh :=
  let a := a0.at now
  let t := a.peerTx node vc
  if (a.ports.queue.any fun p => needsPeer p && p.dst == node && p.vc == vc) && !t.mayStart && a.due t.due then
    ([2, 3, 4].foldl (fun (b : Alesh) (v : Nat) =>
      b.setPeerTx { (b.peerTx node v) with asked := true, due := a.now + a.num O.FP_GAP_NS }) a).sendCredit node true
  else a
def execPeerCreditWait (now node vc : Nat) (s : State) : Host.Outcome State Fault Refusal := onCore (Alesh.peerWait now node vc) s

/-- A LIMIT arrives: a newer one is adopted, another only as the answer to a REQUEST, which ends a void. -/
def PeerTx.limitIn (t : PeerTx) (limit window now : Nat) (answer : Bool) : PeerTx :=
  let reply := answer && t.asked
  let u : PeerTx := if newer16 limit t.limit || reply then
    { t with limit := limit, oldLimit := if t.since = now then t.oldLimit else t.limit, since := now } else t
  if reply then { u with asked := false, void := false, next := if t.void then (u.limit + 65536 - window) % 65536 else u.next } else u
/-- A CREDIT packet (R420, R421). -/
def Alesh.creditIn (m : Pkt) (a : Alesh) : Alesh :=
  let src := bf m.args 0 18
  let request := bf m.args 72 1 == 1
  if bf m.args 32 18 != a.node || bf m.args 64 8 != 1 || !a.isMember src then a.count O.FP_RX_DISCARD_COUNT
  else
    let b := [2, 3, 4].foldl (fun (b : Alesh) (v : Nat) =>
      b.setPeerTx ((b.peerTx src v).limitIn (bf m.args (128 + 16 * (v - 2)) 16) (b.num O.PEER_WINDOW) b.now (!request))) a
    if request then ((if b.heardOf src then b else b.reclaim src).sendCredit src false).beaconFrom src else b.hear src
def Alesh.creditRx (now : Nat) (m : Pkt) (a0 : Alesh) : Alesh :=
  let a := a0.at now
  if a.listens then a.creditIn m else a
def execCreditPacketRx (now : Nat) (m : Pkt) (s : State) : Host.Outcome State Fault Refusal := onCore (Alesh.creditRx now m) s

/-! ### Arbitration and sending (R149, R150, R419) -/

/-- Length of a packet and its flits (R416). -/
def pktLength (p : Pkt) : Nat := if p.kind = 0 then 16 + p.payload.length else if p.kind = 1 then 32 + p.payload.length else 128
def pktFlits (p : Pkt) : Nat := ceilDiv (pktLength p) 128
/-- The bytes of a packet (R176, R308, R416, R420). -/
def pktBytes (p : Pkt) : Bytes :=
  if p.kind = 0 then
    leBytes 16 (packBits [(124, 4, p.version), (120, 4, p.typ), (102, 18, p.src), (84, 18, p.dst), (68, 16, p.route), (64, 4, p.memb),
      (0, 64, p.args)]) ++ p.payload
  else if p.kind = 1 then leBytes 32 p.args ++ p.payload
  else leBytes 128 p.args
/-- Flit `i` of a packet: its bytes, zero beyond the length; the sideband only with sop, a PSEQ only under peer credit (R415, R416). -/
def flitOf (p : Pkt) (pseq i : Nat) : TxFlit :=
  { bytes := slice (pktBytes p) (128 * i) 128, vc := p.vc, sop := i == 0, eop := i + 1 == pktFlits p
    len := if i = 0 then pktLength p else 0, kind := if i = 0 then p.kind else 0, dst := if i = 0 then p.dst else 0
    pseq := if i = 0 && needsPeer p then pseq else 0 }
/-- The packet of which a channel has a flit ready for a port, with credit for it: the one begun there, else the first that may
start (R149, R419, R420). -/
def Alesh.readyOn (a : Alesh) (q : List Pkt) (port vc : Nat) : Option Pkt :=
  if a.linkIsUp port && decide (0 < a.txCredit port vc) then
    match a.sendingOn port vc with
    | some x => some x.pkt
    | none => q.find? fun p => p.vc == vc && a.peerOk p
  else none
def Alesh.recent (a : Alesh) (port : Nat) : List Nat := if port = 0 then a.ports.recent0 else a.ports.recent1
def Alesh.pointer (a : Alesh) (port : Nat) : Nat := if port = 0 then a.ports.ptr0 else a.ports.ptr1
def Alesh.deficit (a : Alesh) (port vc : Nat) : Int := lookupD 0 a.ports.deficit (lane port vc)
/-- Deficit round robin from the pointer: the channel chosen and the deficits; `p` counts from VC2. -/
def robin (ok : Nat → Bool) (weight : Nat → Nat) : Nat → Nat → List (Nat × Int) → Option Nat × Nat × List (Nat × Int)
  | 0, p, d => (none, p, d)
  | n + 1, p, d =>
    let c := p % 6 + 2
    if ok c && decide (0 < lookupD (0 : Int) d c) then (some c, p % 6, d)
    else
      let q := (p + 1) % 6
      robin ok weight n q (if ok (q + 2) then assign d (q + 2) (lookupD (0 : Int) d (q + 2) + weight (q + 2)) else d)
/-- The channel whose flit a port sends at a slot: VC0, VC1, VC2 under its cap, else the round robin, which charges the flit to
the channel's deficit; the pointer and deficits left (R149). -/
def Alesh.arbitrate (a : Alesh) (q : List Pkt) (port : Nat) : Option (Nat × Nat × List (Nat × Int)) :=
  let ok (v : Nat) : Bool := (a.readyOn q port v).isSome
  let d : List (Nat × Int) := [2, 3, 4, 5, 6, 7].map fun v => (v, a.deficit port v)
  let ptr := a.pointer port
  if ok 0 then some (0, ptr, d)
  else if ok 1 then some (1, ptr, d)
  else if ok 2 && decide (((a.recent port).filter (· == 2)).length < a.num O.VC2_CAP) then some (2, ptr, d)
  else
    let low := d.foldl (fun (m : Nat) (x : Nat × Int) => max m x.2.natAbs) 0
    match robin ok (fun v => a.num (O.VC_WEIGHT + (v - 2))) (6 * (low + 2)) ptr d with
    | (some c, p, e) => some (c, p, assign e c (lookupD (0 : Int) e c - 1))
    | _ => none
/-- A flit slot of a port has passed with a channel's flit, 8 where it sent none: the window of R149 goes on, the eligible channels
count it in D_c (R337), and every packet that waits for peer credit in CREDIT_WAIT_COUNT (R420). -/
def Alesh.slotPassed (a : Alesh) (port vc : Nat) (out : Option TxFlit) : Alesh :=
  let elig := [2, 3, 4, 5, 6, 7].filter fun v => (a.readyOn a.ports.queue port v).isSome
  let waiting := (a.ports.queue.filter fun x => !a.peerOk x).length
  let past := (vc :: a.recent port).take 256
  let h : Health := { a.health with
    slots := elig.foldl (fun (l : List (Nat × Nat)) (v : Nat) => assign l v (lookupD 0 l v + 1)) a.health.slots }
  ({ a with health := h, ports := { a.ports with
      recent0 := if port = 0 then past else a.ports.recent0
      recent1 := if port = 0 then a.ports.recent1 else past
      out0 := if port = 0 then out else a.ports.out0
      out1 := if port = 0 then a.ports.out1 else out } }).wrapN O.CREDIT_WAIT_COUNT waiting
/-- A packet has left the queue for a port: its PSEQ, and the wait of the next packet of its destination and channel (R420). -/
def Alesh.startOn (a : Alesh) (port : Nat) (p : Pkt) : Alesh :=
  let t := a.peerTx p.dst p.vc
  let x : Sending := { port := port, vc := p.vc, pkt := p, pseq := if needsPeer p then t.next else 0, next := 0 }
  let b : Alesh := { a with ports := { a.ports with queue := a.ports.queue.erase p, sending := a.ports.sending ++ [x] } }
  if needsPeer p then b.setPeerTx { t with next := (t.next + 1) % 65536, due := b.now + b.num O.FP_GAP_NS } else b
/-- The next flit of a packet begun leaves: its credit is spent, it is counted and metered, and it is a flit to its node (R149,
R228, R417, R458). -/
def Alesh.sendFlit (a : Alesh) (x : Sending) : Alesh :=
  let rest := a.ports.sending.filter fun y => !(y.port == x.port && y.vc == x.vc)
  let whole := decide (pktFlits x.pkt ≤ x.next + 1)
  let q : Ports := { a.ports with
    sending := if whole then rest else rest ++ [{ x with next := x.next + 1 }]
    sent := if whole then some (x.pkt, x.port, x.pseq) else a.ports.sent
    txCredit := assign a.ports.txCredit (lane x.port x.vc) (a.txCredit x.port x.vc - 1) }
  ((({ a with ports := q }).wrap (O.VC_FLITS + lane x.port x.vc)).flitTo x.pkt.dst).addWork (a.flitTenant x.pkt.kind x.pkt.args true) 1
/-- A port sends a flit of a packet, which it begins where it has not begun it. -/
def Alesh.transmit (a : Alesh) (port : Nat) (p : Pkt) (ptr : Nat) (d : List (Nat × Int)) : Alesh :=
  let b := if (a.sendingOn port p.vc).isSome then a else a.startOn port p
  let x := (b.sendingOn port p.vc).getD { port := port, vc := p.vc, pkt := p, pseq := 0, next := 0 }
  let c := a.slotPassed port p.vc (some (flitOf x.pkt x.pseq x.next))
  let q : Ports := { c.ports with
    queue := b.ports.queue, sending := b.ports.sending, tx := b.ports.tx
    deficit := d.foldl (fun (l : List (Nat × Int)) (y : Nat × Int) => assign l (lane port y.1) y.2) c.ports.deficit
    ptr0 := if port = 0 then ptr else c.ports.ptr0
    ptr1 := if port = 0 then c.ports.ptr1 else ptr }
  ({ c with ports := q }).sendFlit x
/-- A slot of a port in which it sends nothing. -/
def Alesh.idleSlot (a : Alesh) (port : Nat) : Alesh := a.slotPassed port 8 none
/-- PACKET_TRANSMIT: one flit slot of a port (log entry 134). It sends the flit that it chooses; a packet is sent whole on the port
that its first flit takes, by as many slots as it has flits, and FP0 chooses first (R149, R419). A port sends nothing before fclk
leaves reset (R380). -/
def Alesh.packetTransmit (now port : Nat) (a0 : Alesh) : Alesh :=
  let a := a0.at now
  let pick (q : List Pkt) (p : Nat) : Option (Pkt × Nat × List (Nat × Int)) :=
    (a.arbitrate q p).bind fun x => (a.readyOn q p x.1).map fun k => (k, x.2)
  let q := if port = 1 then match pick a.ports.queue 0 with
      | some x => if (a.sendingOn 0 x.1.vc).isSome then a.ports.queue else a.ports.queue.erase x.1
      | none => a.ports.queue
    else a.ports.queue
  if decide (1 < port) || !a.maySend || !a.ctl.upF then a
  else
    match pick q port with
    | some (p, ptr, d) => a.transmit port p ptr d
    | none => a.idleSlot port
def execPacketTransmit (now port : Nat) (s : State) : Host.Outcome State Fault Refusal := onCore (Alesh.packetTransmit now port) s

/-- The fabric returns `count` + 1 credits of a channel, which can be used from the next flit slot on (R417, R423). -/
def Alesh.creditReturn (port vc count : Nat) (a : Alesh) : Alesh :=
  if !a.ctl.upF || !a.linkIsUp port || decide (7 < vc) then a
  else { a with ports := { a.ports with
      txCredit := assign a.ports.txCredit (lane port vc) (a.txCredit port vc + (count % 16 + 1)) } }
def execLinkCreditReturn (port vc count : Nat) (s : State) : Host.Outcome State Fault Refusal := onCore (Alesh.creditReturn port vc count) s

/-! ### Packets being received (R416, R418, R421) -/

/-- An open packet is discarded, and its sequence completed. -/
def Alesh.discardOpen (a : Alesh) (o : OpenRx) (more : List Nat) : Alesh :=
  let b : Alesh := { a with ports := { a.ports with opened := a.ports.opened.filter fun x => !(x.port == o.port && x.vc == o.vc) } }
  let c := b.count O.FP_RX_DISCARD_COUNT
  if o.kind = 0 then c.complete o.src o.vc (more ++ [o.pseq]) else c
/-- Sequences below one that have neither arrived nor are open. -/
def Alesh.missing (a : Alesh) (src vc pseq : Nat) : List Nat :=
  let b := (a.peerRx src vc).base
  let d := off16 pseq b
  if d < 32768 then
    (List.range d).filterMap fun i =>
      let q := (b + i) % 65536
      if a.ports.opened.any fun o => o.kind == 0 && o.vc == vc && o.src == src && o.pseq == q then none else some q
  else []
/-- A packet on VC2 to VC4, where a receiver keeps sequences, has been open for FP_GAP_NS (R421). -/
def Alesh.gapOver (a : Alesh) (o : OpenRx) : Bool := isPeerVc o.vc && a.due (o.since + a.num O.FP_GAP_NS)
/-- A packet has been open for FP_GAP_NS: it is discarded, and earlier sequences that never arrived count as lost. -/
def Alesh.gapTimeout (now port vc : Nat) (a0 : Alesh) : Alesh :=
  let a := a0.at now
  match a.ports.opened.find? fun o => o.port == port && o.vc == vc with
  | some o => if a.gapOver o then a.discardOpen o (a.missing o.src vc o.pseq) else a
  | none => a
def execRxPacketGapTimeout (now port vc : Nat) (s : State) : Host.Outcome State Fault Refusal := onCore (Alesh.gapTimeout now port vc) s
/-- A sequence without a first flit, while a later packet of its source has been open for FP_GAP_NS. -/
def Alesh.pseqLost (now src vc pseq : Nat) (a0 : Alesh) : Alesh :=
  let a := a0.at now
  let late := a.ports.opened.any fun o => o.kind == 0 && o.vc == vc && o.src == src && newer16 o.pseq pseq
    && a.gapOver o && (a.missing src vc o.pseq).contains pseq
  if late then a.complete src vc [pseq] else a
def execRxPseqLost (now src vc pseq : Nat) (s : State) : Host.Outcome State Fault Refusal := onCore (Alesh.pseqLost now src vc pseq) s

/-- A fall of a link: credits, the packet being sent and the packets being received on it are gone. -/
def Alesh.linkDown (port : Nat) (a : Alesh) : Alesh :=
  if !a.linkIsUp port then a
  else
    let b := (a.ports.opened.filter fun o => o.port == port).foldl (fun (b : Alesh) (o : OpenRx) => b.discardOpen o []) a
    let c := b.setLink port false
    ({ c with ports := { c.ports with
      txCredit := notOnPort port c.ports.txCredit, rxCredit := notOnPort port c.ports.rxCredit, kept := notOnPort port c.ports.kept
      crOut := notOnPort port c.ports.crOut, sending := c.ports.sending.filter fun x => x.port != port } }).retrain
def execLinkDown (port : Nat) (s : State) : Host.Outcome State Fault Refusal := onCore (Alesh.linkDown port) s

end Sys2Proof.Machine
end

