-- ==== Sys2Proof/Machine/Membership.lean ====
section
/-! DEFINITION. Membership certificates: their adoption and effect, beacons, MEMB_PULL, OCCULT and the joining core (R202,
R211 to R225, R231 to R237, R244, R249 to R252, R397, R398). -/
namespace Sys2Proof.Machine

/-! ### Bitmaps of now (R216) -/

/-- The bitmaps and the membership epoch, a pending certificate counted as adopted (R216). -/
def Alesh.bitmapsNow (a : Alesh) : List Nat × List Nat :=
  let b := (a.memb.members, a.memb.draining)
  match a.memb.pending with
  | some c => applyChange c b
  | none => b
def Alesh.lastEpoch (a : Alesh) : Nat := ((a.memb.pending).map certEpoch).getD (a.num O.MEMBERSHIP_EPOCH)

/-! ### The conditions of adoption (R213, R216, R222) -/

/-- The job map with the entries that a pending JOIN brings, which counts as adopted (R212, R216). -/
def Alesh.mapNow (a : Alesh) : List MapEntry :=
  a.jobMap ++ match a.memb.pending with
    | some c => if certKind c = cJoin then (certChanges c).filter fun e => (a.mapEntry? e.node).isNone else []
    | none => []

def Alesh.certFormOk (a : Alesh) (c : Bytes) : Bool :=
  leAt c 0 1 == 1 && decide (1 ≤ certKind c) && decide (certKind c ≤ 5) && certJob c == a.num O.JOB_ID
/-- Every change entry agrees with the job map where that knows its node. -/
def Alesh.certMapOk (a : Alesh) (c : Bytes) : Bool :=
  (certChanges c).all fun e => match a.mapNow.find? fun m => m.node == e.node with
    | some m => m.package == e.package && m.group == e.group
    | none => true
/-- Packages are named whole. -/
def Alesh.certWhole (a : Alesh) (c : Bytes) : Bool :=
  let ns := certNodes c
  let ms := a.bitmapsNow.1
  (certPackages c).all fun p => (a.mapNow.filter fun m => m.package == p && (certKind c == cJoin || ms.contains m.node)).all fun m =>
    ns.contains m.node
def Alesh.certIssuedOk (a : Alesh) (c : Bytes) : Bool :=
  match a.memb.history.getLast? with
  | some h => decide (certIssued h ≤ certIssued c)
  | none => true
def Alesh.certDigestOk (a : Alesh) (c : Bytes) : Bool :=
  let b := a.bitmapsNow
  let n := applyChange c b
  memberDigest b.1 b.2 == certPrev c && memberDigest n.1 n.2 == certNew c
/-- The budget and the floor of an EXPEL. -/
def Alesh.expelOk (a : Alesh) (c : Bytes) : Bool :=
  let ms := a.bitmapsNow.1
  let left := (applyChange c a.bitmapsNow).1
  let of (n : Nat) : Option MapEntry := a.mapNow.find? fun m => m.node == n
  let p := (sortNat (ms.filterMap fun n => (of n).map (·.package))).length
  let recent := a.memb.history.filter fun h => certKind h == cExpel && decide (certIssued c < certIssued h + a.num O.EXPEL_WINDOW_NS)
  let used := sumNat (recent.map fun h => (certPackages h).length)
  let groups := sortNat (ms.filterMap fun n => (of n).map (·.group))
  decide ((certPackages c).length + used ≤ a.num O.EXPEL_BUDGET * ceilDiv p 256)
    && groups.all fun g => decide (a.num O.GROUP_FLOOR ≤ (left.filter fun n => (of n).map (·.group) == some g).length)

inductive Verdict where
  | unverified | same | stale | conflict | reject | refuseExpel | hold | adopt
  deriving DecidableEq, Repr
/-- How a certificate is handled, in the order of R216; one more than one epoch ahead is judged by what does not depend on
the epochs between. -/
def Alesh.judge (a : Alesh) (c : Bytes) : Verdict :=
  let e := certEpoch c
  let last := a.lastEpoch
  if !a.certVerified c then .unverified
  else if a.memb.history.contains c then .same
  else if e ≤ last then
    (if certJob c == a.num O.JOB_ID && a.memb.history.any fun h => certEpoch h == e && certBody h != certBody c then .conflict else .stale)
  else if !(a.certFormOk c && a.certMapOk c && a.certIssuedOk c) then .reject
  else if last + 1 < e || a.memb.waitTime.isSome then .hold
  else if !(a.certWhole c && a.certDigestOk c) then .reject
  else if certKind c == cExpel && !a.expelOk c then .refuseExpel
  else .adopt

/-! ### The effect of a change (R202, R219, R231 to R237, R244, R249) -/

/-- Rewrite the job map with the entries of a JOIN, and the lateness histories with it (R212, R326). -/
def Alesh.joinMap (a : Alesh) (c : Bytes) : Alesh :=
  let old := a.jobMap.zipIdx.map fun p => (p.1, a.rdLe (a.lateAddr p.2) 8)
  let new := ((certChanges c).filter fun e => (a.mapEntry? e.node).isNone).map fun e => (e, 0)
  if new.isEmpty then a
  else
    let all := sortBy (fun p => p.1.node) (old ++ new)
    let b := (a.setNum O.JOB_MAP_ENTRIES all.length).wr (a.num O.JOB_MAP_BASE) (all.flatMap fun p => leBytes 8 p.1.word)
    if a.combiner = a.node then b.wr (a.num O.LATE_BASE) (all.flatMap fun p => leBytes 8 p.2) else b

/-- A departed core's SEQ windows close (R207). The send sequence to it stays where it is: no change of membership resets it
(R189). -/
def Alesh.closeWindows (a : Alesh) (gone : List Nat) : Alesh :=
  let keep (p : Nat × Nat) : Bool := !gone.contains p.1
  let b : Alesh := { a with coding := { a.coding with base := a.coding.base.filter keep, retired := a.coding.retired.filter keep } }
  b.dropOwn fun t => gone.contains t.holder
/-- Of a departed core's transactions those stay that are neither FOLDED nor DISCARDED (R207), once the reports have taken their
SEQs (R204). -/
def Alesh.dropEnded (a : Alesh) (gone : List Nat) : Alesh :=
  ({ a with coding := { a.coding with hold := a.coding.hold.filter fun (t : HoldTx) =>
      !(gone.contains t.src && (t.state == HoldState.folded || t.state == HoldState.discarded)) } }).setHoldUsed
/-- Partials formed here that wait go to the owner or combiner of now; those that are now this core's own are held (R236). -/
def Alesh.redirect (a : Alesh) : Alesh :=
  let whither (p : Part) : Nat := if p.kind = kHdr then a.combiner else if p.kind = kLse then p.peer else a.ownerOf p.gsid
  let w := a.red.waiting.map fun p => { p with peer := whither p }
  let b : Alesh := { a with red := { a.red with waiting := w.filter fun p => p.peer != a.node || p.kind == kLse } }
  (w.filter fun p => p.peer == a.node && p.kind != kLse).foldl (fun (c : Alesh) (p : Part) => c.takePart p) b
/-- The membership has changed within a step: every member sends its HEADER partials and NORM results to the combiner of now, those
that it formed and kept as the combiner before too; the combiner forms both roots again, and counts ARRIVEs anew (R129, R198,
R199). -/
def Alesh.newCombiner (was : Nat) (a : Alesh) : Alesh :=
  let e := a.inProgress
  let c := a.combiner
  let mine (p : Part) : Bool := p.kind == kHdr && decide (e ≤ p.epoch)
  let sent := a.red.retained.filter mine
  let kept := a.red.held.filter fun p => mine p && p.peer == a.node
    && !sent.any fun (q : Part) => q.epoch == p.epoch && q.level == p.level && q.index == p.index
  let norms := if a.red.normSent = e then a.red.ownNorms else []
  if c = a.node then
    let marks (p : Part) : Bool := p.kind == kHdrRoot && p.peer == a.node
    let old := a.red.norms
    let known (p : Part) : Bool := a.red.held.any fun (q : Part) =>
      q.kind == kHdr && q.epoch == p.epoch && nodeInside p.level p.index q.level q.index
    let own : List Part := (sent.filter fun p => !known p).map fun (p : Part) => ({ p with peer := a.node } : Part)
    let b : Alesh := ({ a with red := { a.red with
      held := a.red.held.filter (fun (p : Part) => !marks p) ++ own
      norms := [] } })
    let d := [e, e + 1].foldl (fun (x : Alesh) (t : Nat) =>
      (x.headerCombine t).takeNorms t ((old.filter fun n => n.epoch == t) ++ (norms.filter fun n => n.epoch == t))) b
    -- P is the lowest step epoch whose RELEASE this combiner has not sent; one that it has sent goes out again (R198, R374)
    if was = a.node then { d with merid := { d.merid with again := decide (d.num O.STEP_EPOCH < d.merid.sent.1) } }
    else { d with merid := { d.merid with sent := (d.num O.STEP_EPOCH, d.merid.last), again := false } }
  else
    let b : Alesh := { a with red := { a.red with
      retained := modWhere mine (fun p => { p with peer := c }) a.red.retained
      held := a.red.held.filter fun p => !(p.kind == kHdr) && !(p.kind == kHdrRoot && p.peer == a.node) } }
    let d := sent.foldl (fun (x : Alesh) (p : Part) => x.send tPart c (x.partArgsOf p) (x.nodePayload p.gsid p.level p.val)) b
    let f := kept.foldl (fun (x : Alesh) (p : Part) => x.sendNode { p with peer := c }) d
    if norms.isEmpty then f else f.sendPart kNorm e 0 0 c (norms.flatMap fun n => n.bytes false)
/-- What this core newly owns: its header gradient, and what it has already been sent for it. -/
def Alesh.adoptGrads (a : Alesh) (new : List Nat) : Alesh :=
  [a.inProgress, a.inProgress + 1].foldl (fun (b : Alesh) (e : Nat) =>
    let root := (b.red.held.filter fun p => p.kind == kHdrRoot && p.epoch == e).findSome? fun p => match p.val with
      | .dense v => some v
      | _ => none
    let c := match (b.take.owned.filter isHeader).findSome? (fun g => b.grad? g e) <|> root with
      | some v => b.setHeaderGrad e v
      | none => b
    (new.filter fun g => !isHeader g).foldl (fun (c : Alesh) (g : Nat) => c.ownerCombine g e) c) a
/-- Decide again the adopted slices over the holders that are left; without any the job is beyond G0 (R205, R252). -/
def Alesh.decideAll (a : Alesh) : Alesh :=
  (a.progs.filter (·.undecided)).foldl (fun (b : Alesh) (p : Prog) =>
    if (b.heldFor p.gsid).isEmpty then b.beyondG0 else b.decide_ p.gsid) a
/-- The core itself is made draining: its slices, leases and the four units (R249, R364). -/
def Alesh.startDraining (a : Alesh) : Alesh :=
  -- a slice of the cut that still has ABSENT pages is rebuilt by its new owner: the drain cannot read it any more (R260)
  let cut := a.plate.extents.any fun x => !x.done && !x.spilled && a.incomplete x.gsid
  let b := (if cut then a.failCut else a).giveUp.releaseLeases
  [uUpdate, uPublish, uPrecond, uReduce].foldl (fun (c : Alesh) (u : Nat) => if c.unit u == .running then c.setUnit u .draining else c) b
/-- The core leaves the job: the other units drain, and it is IDLE (R362, R364). -/
def Alesh.retireSelf (a : Alesh) : Alesh :=
  let b := a.dropOrder.leaveJob
  let us := b.ctl.units.map fun (u : UState) => if u == UState.running then UState.draining else u
  ({ b with ctl := { b.ctl with units := us } }).setCore .idle

/-- The part of a change that a running job feels; `was` is the combiner and `before` the owners recorded before it. -/
def Alesh.jobChange (a : Alesh) (c : Bytes) (gone leaving new : List Nat) (was : Nat) (before : List (Nat × Nat)) : Alesh :=
  let loss := certRemoves c
  let own := a.num O.GROUP_NUMBER
  let a1 := ((a.closeWindows gone).reassign (if loss then gone else [])).reassign leaving
  let moved := (a1.take.owners.filter fun p => !before.contains p).map (·.1)
  let had := a1.take.owned
  let a2 := a1.takeShare before leaving
  let fresh := minus a2.take.owned had
  let a3 := if fresh.isEmpty then a2 else { a2 with red := { a2.red with normSent := 0 } }
  let a4 := (if leaving.contains a.node then a3.startDraining else a3.mergeBlocks fresh)
  let a5 := (a4.adoptGrads fresh).redirect
  let a6 : Alesh := { a5 with coding := { a5.coding with answers := a5.coding.answers.filter fun x => !gone.contains x.holder } }
  let a7 := (a6.reportAdopted moved).dropEnded gone
  let lost := if loss then a7.extLoss gone else (false, a7)
  let n := if loss then (gone.filter fun x => a.groupOf x == some own).length + (if lost.1 then 1 else 0) else 0
  let a8 := if n = 0 then lost.2 else lost.2.openWindow n
  let a9 := (a8.evalFences.decideAll).adoptLeases
  let a10 := if a9.coding.restoring && (gone ++ leaving).any fun x => a.groupOf x == some own then a9.beyondG0 else a9
  let a11 := (a10.plateAdopt was gone).overlayAdopt was new
  let a12 : Alesh := { a11 with merid := { a11.merid with arrived := none, arrivals := [], tied := none } }
  let a13 := a12.newCombiner was
  let a14 := if a13.combiner != a13.node then a13
    else
      let x : Alesh := { a13 with health := { a13.health with skipLate := true } }
      if was = a13.node then x else x.clearLate
  let a15 := a14.setSuspectList (a14.health.suspects.filter a14.isMember)
  let a16 := ((((a15.chronoMembership c).adoptHosting).setDegraded).watchPeers).resendAll
  (if certKind c = cRetire && gone.contains a.node then a16.retireSelf else a16).tryArrive

/-- A joining core enters the job (R250, R398): the step epoch of the RELEASE that it keeps, without one EFFECTIVE_STEP; no
slice; the configuration epoch and overlay of its snapshot, with their CONFIG_DIGEST and CONFIG record (R283, R291). It is no
commencement, and writes no SEEDS. -/
def Alesh.joinJob (a : Alesh) (c : Bytes) : Alesh :=
  let r := a.merid.release.getD (certStep c, a.now)
  let ce := a.num O.CONFIG_EPOCH
  let ov := a.num O.ACTIVE_OVERLAY
  let st := a.num O.COMMENCE_STATE
  let b := ({ a with take := { a.take with owned := [] } }).enterJob false r.1 r.2
  let d := (((b.setNum O.COMMENCE_STATE st).setNum O.CONFIG_EPOCH ce).installOverlay ov).formConfigDigest
  ((d.adoptHosting.chronoMembership c).chronoConfig (d.num O.STEP_EPOCH)).tryArrive

/-- A change takes effect, in one cclk (R214, R219). -/
def Alesh.effect (a : Alesh) (c : Bytes) : Alesh :=
  let ns := certNodes c
  let k := certKind c
  let gone := if certRemoves c then ns.filter a.isMember else if k = cRetire then ns.filter fun n => a.isMember n && a.isDraining n else []
  let leaving := if k = cLeave then ns.filter fun n => a.isMember n && !a.isDraining n else []
  let new := if k = cJoin then ns.filter fun n => !a.isMember n else []
  let was := a.combiner
  let before := a.take.owners
  let mine := if k = cJoin then a.joinMap c else a
  let b := applyChange c (a.memb.members, a.memb.draining)
  let m : Memb := { mine.memb with
    members := b.1, draining := b.2, pending := none
    removed := if certRemoves c then ns.foldl insertNat mine.memb.removed else minus mine.memb.removed new
    joined := new.foldl insertNat mine.memb.joined }
  -- the lease on a new member's credits runs from its entry, as that of every member does at the new one (R228)
  let heard := (if new.contains a.node then b.1 else new).foldl (fun (l : List (Nat × Nat)) (n : Nat) => assign l n a.now) mine.ports.heardAt
  let p : Ports := { mine.ports with tx := mine.ports.tx.filter fun (t : PeerTx) => !new.contains t.node && !gone.contains t.node
                                     rx := mine.ports.rx.filter fun (r : PeerRx) => !new.contains r.node
                                     heardAt := heard }
  let d := (({ mine with memb := m, ports := p }).setNum O.MEMBERSHIP_EPOCH (certEpoch c)).watchMembers
  let x := (gone.foldl (fun (x : Alesh) (n : Nat) => x.reclaim n) d).setSuspects (d.memb.suspects.filter fun n => b.1.contains n)
  if k = cJoin && new.contains a.node && x.ctl.core == .joined then x.joinJob c
  else if x.inJob then x.jobChange c gone leaving new was before
  else (x.reassign (if certRemoves c then gone else leaving)).chronoMembership c

/-! ### Adoption (R216, R218, R224, R397) -/

def grantArgs (sub epoch : Nat) : Nat := packBits [(60, 4, sub), (28, 32, epoch)]
/-- GRANT MEMBERSHIP to the old and the new membership, and OCCULT to the nodes that a LOSS or EXPEL removes. -/
def Alesh.forwardCert (a : Alesh) (c : Bytes) (before : List Nat) : Alesh :=
  let ns := certNodes c
  let all := (a.bitmapsNow.1).foldl insertNat before
  let dsts := (if certRemoves c then minus all ns else all).filter fun n => n != a.node
  let b := a.sendAll tGrant dsts (grantArgs 4 (certEpoch c)) c
  if certRemoves c then
    let args := packBits [(60, 4, if certKind c = cExpel then 1 else 0), (28, 32, certEpoch c)]
    ns.foldl (fun (x : Alesh) (n : Nat) =>
      ({ x with memb := { x.memb with occults := x.memb.occults ++ [(n, args, c, 0, x.ackDue)] } }).send tOccult n args c) b
  else b
/-- Adopt a certificate: the pending one takes effect first; a LEAVE or JOIN waits for its Meridian. -/
def Alesh.adoptNow (a0 : Alesh) (c : Bytes) (installed : Bool) : Alesh :=
  let a := match a0.memb.pending with
    | some p => a0.effect p
    | none => a0
  let h := a.memb.history ++ [c]
  let b : Alesh := { a with memb := { a.memb with history := h.drop (h.length - 16) } }
  let waits := (certKind c == cLeave || certKind c == cJoin) && (!b.inJob || decide (b.num O.STEP_EPOCH < certStep c))
  let d := if waits then { b with memb := { b.memb with pending := some c } } else b.effect c
  let e := if certKind c = cJoin && (certNodes c).contains d.node && d.ctl.core == .idle && waits then d.setCore .joined else d
  if installed then e.forwardCert c a0.bitmapsNow.1 else e
/-- A JOINED core starts before it applies a LOSS or EXPEL; without a start RELEASE and a valid time it waits (R397). -/
def Alesh.adopt (a : Alesh) (c : Bytes) (installed : Bool) : Alesh :=
  if a.ctl.core == .joined && certRemoves c && !a.joining then
    match a.comm.start with
    | some (s, v) => (a.startJob s v).adoptNow c installed
    | none =>
      if a.clock.valid then (a.startJob a.commStep a.now).adoptNow c installed
      else { a with memb := { a.memb with waitTime := some (c, installed) } }
  else a.adoptNow c installed
/-- Counts and events of a certificate that is dropped (R216, R223). -/
def Alesh.dropCert (a : Alesh) (c : Bytes) (v : Verdict) : Alesh :=
  match v with
  | .conflict => (a.count O.CERT_CONFLICT_COUNT).raiseFault
  | .reject => (a.count O.CERT_REJECT_COUNT).raiseAttention
  | .refuseExpel =>
    (certNodes c).foldl (fun (b : Alesh) (n : Nat) => b.markWatch n)
      (((a.count O.CERT_REJECT_COUNT).raiseAttention).count O.EXPEL_DEFERRED_COUNT)
  | _ => a
/-- The fingerprint of the snapshot under which a JOIN names this core (R398): the JOIN is refused, and one held is dropped. -/
def Alesh.joinRefused (a : Alesh) (c : Bytes) : Bool :=
  certKind c == cJoin && (certNodes c).contains a.node && slice (a.dom O.JOIN_SNAPSHOT) 16 32 != a.fingerprint
/-- Held certificates whose epoch has come are judged, and adopted or dropped: one whose epoch has been taken by another body is a
conflict (R216). -/
def Alesh.drainHeld : Nat → Alesh → Alesh
  | 0, a => a
  | n + 1, a =>
    match a.memb.held.find? fun h => decide (certEpoch h.1 ≤ a.lastEpoch)
      || (certEpoch h.1 == a.lastEpoch + 1 && a.memb.waitTime.isNone) with
    | none => a
    | some h =>
      let b : Alesh := { a with memb := { a.memb with held := a.memb.held.filter fun x => x != h } }
      let v := b.judge h.1
      (if v = .adopt then (if b.joinRefused h.1 then b else b.adopt h.1 h.2) else b.dropCert h.1 v).drainHeld n
/-- Hold a certificate, at most four. -/
def Alesh.holdCert (a : Alesh) (c : Bytes) (installed : Bool) : Res × Alesh :=
  if a.memb.waitTime.any fun w => w.1 == c then
    -- the certificate came in a packet before: its driver's install waits for the same adoption
    (if installed then .awaited else .ok, { a with memb := { a.memb with waitTime := some (c, installed || a.memb.waitTime.any fun w => w.2) } })
  else if a.memb.held.any fun h => h.1 == c then
    (.ok, { a with memb := { a.memb with held := modWhere (fun (h : Bytes × Bool) => h.1 == c) (fun h => (h.1, h.2 || installed)) a.memb.held } })
  else if a.memb.held.length < 4 then (.ok, { a with memb := { a.memb with held := a.memb.held ++ [(c, installed)] } })
  else (.access, a)
/-- A certificate comes in, by its driver or by GRANT MEMBERSHIP. -/
def Alesh.takeCert (a : Alesh) (c : Bytes) (installed : Bool) : Res × Alesh :=
  match a.judge c with
  | .adopt =>
    if a.joinRefused c then (.access, a)
    else
      let b := a.adopt c installed
      if b.memb.waitTime.isSome then (if installed then .awaited else .ok, b) else (.ok, b.drainHeld 5)
  | .hold => if a.joinRefused c then (.access, a) else a.holdCert c installed
  | .same => (.ok, a)
  | v => (.access, a.dropCert c v)

/-- MEMB_INSTALL: its result includes the adoption; while one has none yet, a second is BUSY (R367). -/
def membInstall (now : Nat) (a0 : Alesh) : Res × Alesh :=
  let a := a0.at now
  require a.idleToJob .stateConflict a (require a.memb.waitVia.isNone .busy a (a.takeCert (a.dom O.CERT_MAILBOX) true))
def execMembInstall (via : Via) (now : Nat) (s : State) : Host.Outcome State Fault Refusal :=
  command via O.MEMB_INSTALL false (membInstall now) s

/-- GRANT MEMBERSHIP, from any source and at any epoch. -/
def Alesh.grantMembership (now : Nat) (m : Pkt) (a : Alesh) : Alesh :=
  a.receiveAny now tGrant m (certShape m.payload && bf m.args 28 32 == certEpoch m.payload) fun b => (b.takeCert m.payload false).2
def execGrantMembershipRx (now : Nat) (m : Pkt) (s : State) : Host.Outcome State Fault Refusal := onCore (Alesh.grantMembership now m) s
/-- MEMB_PULL: one MEMBERSHIP for each certificate of the history above the puller's epoch. -/
def Alesh.membPull (now : Nat) (m : Pkt) (a : Alesh) : Alesh :=
  a.receiveAny now tGrant m m.payload.isEmpty fun b =>
    (b.memb.history.filter fun c => decide (bf m.args 28 32 < certEpoch c)).foldl (fun (x : Alesh) (c : Bytes) =>
      x.send tGrant m.src (grantArgs 4 (certEpoch c)) c) b
def execMembPullRx (now : Nat) (m : Pkt) (s : State) : Host.Outcome State Fault Refusal := onCore (Alesh.membPull now m) s

/-! ### OCCULT (R224, R225) -/

/-- The conditions of R225. -/
def Alesh.occultOk (a : Alesh) (m : Pkt) : Bool :=
  let c := m.payload
  a.certVerified c && (certNodes c).contains a.node && certJob c == a.num O.JOB_ID && bf m.args 28 32 == certEpoch c
    && ((certKind c == cLoss && bf m.args 60 4 == 0) || (certKind c == cExpel && bf m.args 60 4 == 1))
/-- A valid OCCULT fences the core. -/
def Alesh.occult (now : Nat) (m : Pkt) (a : Alesh) : Alesh :=
  a.receiveAny now tOccult m (a.occultOk m) fun b =>
    let q : Ports := { b.ports with queue := [], sending := [], loop := [] }
    (({ b with ports := q, cep := { out := [], held := [] } }).setCore .occulted).ctrl fOcculted
def execOccultRx (now : Nat) (m : Pkt) (s : State) : Host.Outcome State Fault Refusal := onCore (Alesh.occult now m) s
/-- OCCULT again, up to RETRY_LIMIT times. -/
def Alesh.occultResend (now node : Nat) (a0 : Alesh) : Alesh :=
  let a := a0.at now
  match a.memb.occults.find? fun o => o.1 == node with
  | some (n, args, c, tries, due) =>
    if !a.due due then a
    else
      let rest := a.memb.occults.filter fun o => o.1 != node
      let more := if tries + 1 < a.num O.RETRY_LIMIT then [(n, args, c, tries + 1, a.ackDue)] else []
      let b : Alesh := { a with memb := { a.memb with occults := rest ++ more } }
      if tries < a.num O.RETRY_LIMIT then b.send tOccult n args c else b
  | none => a
def execOccultResend (now node : Nat) (s : State) : Host.Outcome State Fault Refusal := onCore (Alesh.occultResend now node) s

/-! ### Beacons (R220) -/

/-- A HELLO of a subtype with no payload takes effect. -/
def Alesh.helloRx (now : Nat) (m : Pkt) (ok : Bool) (f : Alesh → Alesh) (a : Alesh) : Alesh :=
  a.receive now tHello m ok false f
def execHelloBeaconRx (now : Nat) (m : Pkt) (s : State) : Host.Outcome State Fault Refusal :=
  onCore (Alesh.helloRx now m m.payload.isEmpty id) s
/-- Beacons to the group and the cluster, carrying the last committed step epoch. -/
def Alesh.beacons (now : Nat) (a0 : Alesh) : Alesh :=
  let a := a0.at now
  if a.inJob && a.due a.memb.beaconDue then
    a.watched.foldl (fun (b : Alesh) (n : Nat) => b.sendHello hBeacon (b.num O.STEP_EPOCH) n [])
      { a with memb := { a.memb with beaconDue := a.now + a.num O.BEACON_PERIOD_NS } }
  else a
def execBeaconPeriod (now : Nat) (s : State) : Host.Outcome State Fault Refusal := onCore (Alesh.beacons now) s
/-- A watched member has been silent: an entry in LOSS_SUSPECT, the flag and evt_attention. -/
def Alesh.beaconMiss (now node : Nat) (a0 : Alesh) : Alesh :=
  let a := a0.at now
  match lookup? a.memb.heard node with
  | some t =>
    if a.inJob && a.due t && !a.memb.suspects.contains node then
      let b := a.setSuspects (a.memb.suspects ++ [node])
      let c := match a.geo.members.findIdx? fun p => p.2 == node with
        | some r => b.flag O.PEER_FLAGS r
        | none => b
      let d := match a.cluster.findIdx? (· == node) with
        | some i => c.flag O.PEER_FLAGS (32 + i)
        | none => c
      d.raiseAttention
    else a
  | none => a
def execBeaconMissExpiry (now node : Nat) (s : State) : Host.Outcome State Fault Refusal := onCore (Alesh.beaconMiss now node) s

/-! ### The joining core (R398) -/

/-- The nodes of a bitmap of 32,768 bytes. -/
def bitmapNodes (b : Bytes) : List Nat :=
  b.zipIdx.flatMap fun p => (List.range 8).filterMap fun k => if p.1.toNat.testBit k then some (8 * p.2 + k) else none
/-- JOIN_SNAPSHOT: its membership epoch, bitmaps, configuration epoch and overlay become the core's. -/
def joinSnapshot (v : Bytes) (a : Alesh) : Res × Alesh :=
  require (v.length == 65584) .type a <|
    require (a.rwdOpen O.JOIN_SNAPSHOT) .unitEnabled a
      (let m : Memb := { Memb.reset with members := bitmapNodes (slice v 48 32768), draining := bitmapNodes (slice v 32816 32768) }
       (.ok, (((({ (a.setDom O.JOIN_SNAPSHOT (keptBytes O.JOIN_SNAPSHOT v)) with memb := m }).setNum O.MEMBERSHIP_EPOCH (leAt v 0 4)).setNum
         O.CONFIG_EPOCH (leAt v 4 4)).setNum O.ACTIVE_OVERLAY (leAt v 8 1)).watchMembers))
def execJoinSnapshotWrite (via : Via) (value : Bytes) (s : State) : Host.Outcome State Fault Refusal :=
  command via O.JOIN_SNAPSHOT true (joinSnapshot value) s

end Sys2Proof.Machine
end

