-- ==== Sys2Proof/Machine/Release.lean ====
section
/-! DEFINITION. ARRIVE, RELEASE and the release of a Meridian (R25, R132, R133, R136, R198 to R201, R214, R292, R322, R329, R338,
R362, R364, R367, R378, R394, R395, R398, R425, R440). -/
namespace Sys2Proof.Machine

/-! ### What a release ends -/

/-- Work of `e` and below that nothing can need again: partials, norms, contributions, tokens, gradients (R132, R133, R136). -/
def Alesh.endStep (a : Alesh) (e : Nat) : Alesh :=
  let later (x : Nat) : Bool := decide (e < x)
  let stale := (a.red.held.filter fun p => !later p.epoch && (p.kind == kDense || p.kind == kSparse) && a.ownerOf p.gsid != a.node).length
  let red : Red := { a.red with
    contribs := a.red.contribs.filter fun (c : Contrib) => later c.epoch
    lse := a.red.lse.filter fun (c : LsePart) => later c.epoch
    inner := a.red.inner.filter fun (p : Part) => later p.epoch
    waiting := a.red.waiting.filter fun (p : Part) => later p.epoch
    held := a.red.held.filter fun (p : Part) => later p.epoch
    retained := a.red.retained.filter fun (p : Part) => later p.epoch
    norms := a.red.norms.filter fun (n : NormEnt) => later n.epoch
    roots := a.red.roots.filter fun (n : NormEnt) => later n.epoch
    merged := a.red.merged.filter fun (m : Nat × Nat × Nat) => later m.1
    ownNorms := a.red.ownNorms.filter fun (n : NormEnt) => later n.epoch
    sources := a.red.sources.filter fun (x : Nat × Nat × Nat) => later x.2.1 }
  let pub : Pub := { a.pub with
    tokens := a.pub.tokens.filter fun (t : Nat × Nat) => later t.2
    written := a.pub.written.filter fun (w : Nat × Nat × Nat) => later w.2.2
    ready := a.pub.ready.filter fun (r : Nat × Nat) => later r.2
    pc := a.pub.pc.filter fun (p : PcOut) => later p.epoch
    phases := a.pub.phases.filter fun (p : Nat × Nat × Nat) => later p.2.1 }
  let progs := a.progs.map fun (p : Prog) =>
    ({ p with grads := p.grads.filter (fun (x : Nat × List F32) => later x.1)
              gradPages := p.gradPages.filter (fun (x : Nat × List (Nat × Nat)) => later x.1), marks := p.marks.filter fun (x : Nat × List Nat) => later x.1 } : Prog)
  let b : Alesh := { a with red := red, pub := pub, progs := progs }
  ((b.countN O.PART_STALE_COUNT stale).setRetainUsed).sendWaiting

/-- A slice taken over that stands below `e` when the Meridian of `e` releases is committed at `e`: every member, its former owner
too, had arrived. One that is decided was null (R18); for one that is not, the holders known to have its delta are sent COMMIT, and
a holder that has not reported reports no more (R204; log entry 46). RETAIN_REL goes with it (R134). -/
def Alesh.carrySlice (e : Nat) (a : Alesh) (p : Prog) : Alesh :=
  let g := p.gsid
  let b := if p.upd.isSome then (a.dropPending g).dropOwn fun t => t.gsid == g && t.real else a
  let have_ := (b.answersOf g).filter fun x => x.epoch == e && (x.status == sHeld || x.status == sFolded)
  let c := match b.bandCol b.geo g with
    | some (bd, j) => if p.undecided && b.sound then
        have_.foldl (fun (c : Alesh) (x : Answer) => c.adoptCommit g x.holder x.seq bd j x.row e) b else b
    | none => b
  -- a slice that counts as committed is null: so are its units (R294, R295)
  let nulls := (a.units g).map (·.1)
  ((c.retainRel g e).modProg g fun q => { q with last := e, fence := e, upd := none, undecided := false
                                                 marks := if p.undecided then q.marks else assign q.marks e nulls }).freeGrad g e
def Alesh.carryTaken (a : Alesh) (e : Nat) : Alesh :=
  let below := a.progs.filter fun p => decide (p.last < e)
  let gs := below.map (·.gsid)
  let b := below.foldl (Alesh.carrySlice e) a
  { b with coding := { b.coding with answers := b.coding.answers.filter fun (x : Answer) => !gs.contains x.gsid }
           take := { b.take with retainTakes := b.take.retainTakes.filter fun (r : Nat × Nat × Nat × Nat) => !gs.contains r.1 } }
/-- The adoption reports of epochs up to the one released end (R204). -/
def Alesh.endAdoptReports (a : Alesh) (e : Nat) : Alesh := a.endReport fun r => decide (r.epoch ≤ e)

/-- The job ends at this release: its units drain, the core is IDLE; transactions and a Plate being drained go on (R362,
R364, R367). -/
def Alesh.stopJob (a : Alesh) (e : Nat) : Alesh :=
  let b := a.dropOrder.leaveJob
  let us := b.ctl.units.map fun (u : UState) => if u == UState.running then UState.draining else u
  let c : Alesh := { b with ctl := { b.ctl with units := us, jobStop := none }
                            coding := { a.coding with reports := [], answers := [], extPlan := [] } }
  (c.setHoldUsed.post uControl (tokHalt e)).setCore .idle

/-! ### The release (R200) -/

/-- Everything that the release of `e`, scheduled at `r`, does; `late` that its RELEASE was accepted after `r`. A Plate's freeze falls
after a membership change at this release and before an overlay switch at it (DESIGN CHOICE, log entry 152). -/
def Alesh.releaseStep (a : Alesh) (e r : Nat) (late : Bool) : Alesh :=
  let sent := if a.merid.sent.1 < e then (e, r) else a.merid.sent
  let m : Merid := { a.merid with release := none, last := r, again := false, sent := sent }
  let b := ((({ a with merid := m }).setNum O.STEP_EPOCH e).setNum O.MERIDIAN_LAST_RELEASE a.now).setNum O.MERIDIAN_SCHEDULED 0
  -- the reports of epochs up to `e` end before a change at this release can bring new ones (R204)
  let c := (((if late then b.count O.MERIDIAN_LATE_COUNT else b).carryTaken e).endAdoptReports e).chronoRelease e
  -- the records are those of the owners that committed `e` (R279, R292); then a change that waits takes effect
  let d := match c.memb.pending with
    | some p => if certStep p ≤ e then c.effect p else c
    | none => c
  let f := ((d.extRelease e).restripeRelease e).plateFreeze e
  let g := ((f.switchOverlay e).headerCheck e).healthRelease e r late
  let h := g.endStep e
  let i := (h.progs.map (·.gsid)).foldl Alesh.settleNull h
  let j := { i with merid := { i.merid with arrivals := i.merid.arrivals.filter fun (x : Nat × Nat) => decide (e < x.2), tied := none } }
  let k := (j.startLevels.post uControl (tokStepReleased e)).toggleMeridian
  if k.ctl.jobStop == some e then k.stopJob e else (if k.combiner = k.node then k.startOrders else k).tryArrive

/-- A joining core enters the job at the release of EFFECTIVE_STEP (R398). -/
def Alesh.joinStep (a : Alesh) (e : Nat) : Alesh :=
  match a.memb.pending with
  | some c => if a.joining && decide (certStep c ≤ e) then a.effect c else a
  | none => a
/-- MERIDIAN_RELEASE: the scheduled value is reached, and the time is valid. -/
def Alesh.meridianRelease (a : Alesh) : Alesh :=
  match a.merid.release with
  | some (e, r) =>
    if !a.due r then a
    else if a.inJob && e == a.inProgress then a.releaseStep e r false
    else a.joinStep e
  | none => a
def execMeridianRelease (now : Nat) (s : State) : Host.Outcome State Fault Refusal := onCore (fun a => (a.at now).meridianRelease) s

/-! ### ARRIVE and RELEASE arrive (R198, R199, R394, R395, R398) -/

def execHelloArriveRx (now : Nat) (m : Pkt) (s : State) : Host.Outcome State Fault Refusal :=
  onCore (Alesh.helloRx now m m.payload.isEmpty fun b => b.noteArrive m.src (bf m.args 0 48)) s

/-- A RELEASE: the first for the epoch in progress is kept, or that for START_STEP by a JOINED core; one that comes after its
value releases or starts at once. -/
def Alesh.releaseIn (a : Alesh) (e r : Nat) : Alesh :=
  let passed := a.clock.valid && decide (r < a.now)
  if a.joining then
    let b : Alesh := { a with merid := { a.merid with release := some (e, r) } }
    if passed then (b.count O.MERIDIAN_LATE_COUNT).joinStep e else b
  else if a.ctl.core == .joined then
    if e != a.commStep || a.comm.start.isSome then a
    else
      let b := a.setComm { a.comm with start := some (e, r) }
      (if passed then b.count O.MERIDIAN_LATE_COUNT else b).tryJobStart
  else if !a.inJob || e != a.inProgress || a.merid.release.isSome then a
  else if passed then a.releaseStep e r true
  else ({ a with merid := { a.merid with release := some (e, r) } }).setNum O.MERIDIAN_SCHEDULED r
def Alesh.releaseRx (now : Nat) (m : Pkt) (a : Alesh) : Alesh :=
  Alesh.helloRx now m (m.payload.length == 16) (fun b => b.releaseIn (bf m.args 0 48) (leAt m.payload 0 8)) a
def execHelloReleaseRx (now : Nat) (m : Pkt) (s : State) : Host.Outcome State Fault Refusal := onCore (Alesh.releaseRx now m) s

end Sys2Proof.Machine
end

