-- ==== Sys2Proof/Machine/Arming.lean ====
section
/-! DEFINITION. Arming: the checks of UNIT_ARM and what it initialises (R36, R37, R54, R58, R67, R71, R80, R87, R91, R102, R112,
R131, R137, R154, R166, R168, R175, R283, R301, R302, R306, R316, R342, R347, R364, R366, R373, R379, R387, R429). -/
namespace Sys2Proof.Machine

/-! ### Areas of Tier 0 -/

/-- A run of Tier 0: base and length. -/
structure Area where
  /-- Which area it is, so that an area is not tested against itself. -/
  name : Nat
  base : Nat
  len : Nat
  deriving DecidableEq, Repr

/-- An area lies wholly below 2^40 (R7, R58). -/
def Area.inSpace (x : Area) : Bool := decide (x.base + x.len ≤ spaceBytes)
/-- An area does not extend to or beyond 2^40 (R91, R175, R301, R379, R429; log entry 49). -/
def Area.short (x : Area) : Bool := decide (x.base + x.len < spaceBytes)
def Area.meets (x y : Area) : Bool := x.name != y.name && runsMeet x.base x.len y.base y.len

def Alesh.stateAreas (a : Alesh) : List Area :=
  [⟨0, a.num O.STATE_BASE, a.slotCount * sliceBytes⟩, ⟨1, a.num O.META_BASE, a.slotCount * 256 * 64⟩]
def Alesh.parityAreas (a : Alesh) : List Area :=
  let n := a.num O.PARITY_SLOTS
  let m := a.num O.PARITY_ALT_SLOTS
  [⟨2, a.num O.PARITY_BASE, n * sliceBytes⟩, ⟨3, a.num O.PARITY_ALT_BASE, m * sliceBytes⟩,
   ⟨4, a.num O.PARITY_META_BASE, n * paritySlotMeta⟩, ⟨5, a.num O.PARITY_ALT_META_BASE, m * paritySlotMeta⟩,
   ⟨6, a.num O.EPOCH_TABLE_BASE, n * pageBytes⟩, ⟨7, a.num O.EPOCH_TABLE_ALT_BASE, m * pageBytes⟩,
   ⟨8, a.num O.HOLD_BASE, a.num O.HOLD_PAGES * pageBytes⟩]
def Alesh.mapArea (a : Alesh) : Area := ⟨9, a.num O.TIER_MAP_BASE, 8 * a.num O.TIER_MAP_ENTRIES⟩
def Alesh.poolArea (a : Alesh) : Area := ⟨10, a.num O.TIER0_POOL_BASE, a.num O.TIER0_POOL_PAGES * pageBytes⟩
def Alesh.slotArea (a : Alesh) : Area := ⟨11, a.plan.base, a.plan.slots * a.plan.slotBytes⟩
def Alesh.healthAreas (a : Alesh) : List Area := [⟨12, a.num O.LATE_BASE, 2097152⟩, ⟨13, a.num O.NUM_TABLE_BASE, 65536⟩]
def Alesh.overlayAreas (a : Alesh) : List Area := [⟨14, a.num O.OVERLAY_BASE, 9 * overlaySlotBytes⟩, ⟨15, a.num O.STAGE_BASE, 4194304⟩]
def Alesh.otherAreas (a : Alesh) : List Area :=
  [⟨16, a.num O.JOB_MAP_BASE, 8 * a.num O.JOB_MAP_ENTRIES⟩, ⟨17, a.num O.MASK_BASE, 8 * a.num O.MASK_WORDS⟩,
   ⟨18, a.num O.REDUCE_BASE, a.num O.REDUCE_PAGES * pageBytes⟩, ⟨19, a.num O.RETAIN_BASE, a.num O.RETAIN_PAGES * pageBytes⟩,
   ⟨20, a.num O.CHRONO_BASE, a.num O.CHRONO_PAGES * pageBytes⟩, ⟨21, a.num O.SPARE_BASE, a.num O.SPARE_PAGES * pageBytes⟩]
    ++ (a.plan.merges.map fun m => (⟨24, m.out, m.qblocks * m.blockBytes⟩ : Area))
    ++ (a.pubTable.flatMap a.pubArrays).map fun r => (⟨22, r.1, r.2⟩ : Area)
/-- Every area that a chapter places in Tier 0, the overlay and staging areas apart. -/
def Alesh.areas (a : Alesh) : List Area :=
  a.stateAreas ++ a.parityAreas ++ [a.mapArea, a.poolArea, a.slotArea] ++ a.healthAreas ++ a.otherAreas
/-- An area does not extend to 2^40 and meets no other. -/
def Alesh.placed (a : Alesh) (x : Area) : Bool := x.short && (a.areas ++ a.overlayAreas).all fun y => !x.meets y

/-! ### The checks of each unit -/

/-- JOB: the hosting range (R54), the state range and metadata region with the takeover slots (R58, R232). -/
def Alesh.jobArmOk (a : Alesh) : Bool :=
  decide (a.num O.VREPLICA_FIRST + a.num O.VREPLICA_COUNT ≤ 2 ^ a.num O.VREPLICA_LOG2)
    && a.stateAreas.all Area.inSpace && runsApart (a.stateAreas.map fun x => (x.base, x.len))
    && decide (a.num O.SHARD_PAGES ≤ a.num O.PADDED_PAGES) && decide (a.num O.REPL_PAGES ≤ 247)
    && decide (0x90000 + a.num O.REPL_RECORDS * a.recBytes ≤ (9 + a.num O.REPL_PAGES) * pageBytes)
/-- UPDATE: the layer table, the schedule and the tags (R67, R71, R80). -/
def Alesh.updateArmOk (a : Alesh) : Bool :=
  a.layersOk && a.tagsOk && increasing ((lrPoints (a.num O.LR_POINTS) (a.dom O.LR_TABLE)).map (·.1))

/-- HOLD_SOURCES (R166, R175): the other members, and `k` for each rotation hosted here. -/
def Alesh.holdSources (a : Alesh) : Nat :=
  let mine := a.exts.filter fun x => x.node == a.node
  a.geo.n - 1 + a.geo.k * (sortNat (mine.map fun x => x.group * 32 + x.rotation)).length
/-- CODING (R175). -/
def Alesh.codingArmOk (a : Alesh) : Bool :=
  let g := a.geo
  a.layoutOk { k := g.k, m := g.m, rank := g.rank, padded := g.padded, slots := a.num O.PARITY_SLOTS, members := g.members, exts := a.exts }
    && (a.dom O.GROUP_MEMBERS).length == 8 * g.n && a.parityAreas.all a.placed
    && decide (a.holdSources * (a.num O.HOLD_WINDOW + 1) * 257 ≤ a.num O.HOLD_PAGES)

/-- The sparse table (R137). -/
def Alesh.sparseArmOk (a : Alesh) : Bool :=
  let t := a.sparseTable
  t.zipIdx.all fun p => p.1.version == 1 && decide (1 ≤ p.1.rowElems) && decide (p.1.rowElems ≤ 65536) && decide (1 ≤ p.1.capacity)
    && a.layers.any (fun e => e.layer == p.1.layer) && !a.masked p.1.layer && t.zipIdx.all fun q => q.2 == p.2 || q.1.layer != p.1.layer
/-- A slice's elements lie all inside, or all outside, the layers of the sparse table. A slice of another shard lies outside this
core's layer table: its elements' layers are those of the job (log entry 24). -/
def Alesh.sparseSplit (a : Alesh) (it : PlanItem) : Bool :=
  let g := it.gsid
  let inside (l : Nat) : Bool := a.sparseTable.any fun s => s.layer == l
  it.kind == kHdr ||
    (if gsidShard g = a.ownShard then (a.sliceEntries g).all fun e => inside e.layer == (it.kind == kSparse)
     else (List.range (a.gradCount g)).all fun j => inside (Config.layerAt (a.elementBase g + j)) == (it.kind == kSparse))
/-- The Tier 0 homes of segments. -/
def Alesh.homes (a : Alesh) : List Area :=
  (a.segs.filter fun s => s.homeTier == 0).map fun s => (⟨23, s.homeBase, s.length⟩ : Area)
/-- The step plan (R429). -/
def Alesh.planArmOk (a : Alesh) : Bool :=
  let p := a.plan
  let item (i : PlanItem) : Bool :=
    i.version == 1 && decide (i.kind ≤ 2) && decide (i.maxBytes ≤ p.slotBytes)
      && (if i.kind = kHdr then i.shard == 0xFFFF && i.slice == 0 else i.shard != 0xFFFF)
      && (i.kind == kSparse || decide (roundUp (a.contribWidth * a.gradCount (if i.kind = kHdr then 0 else i.gsid)) pageBytes ≤ i.maxBytes))
      && a.sparseSplit i
  let merge (m : PlanMerge) : Bool :=
    m.version == 1 && decide (m.log2 ≤ 16) && decide (1 ≤ m.qblocks) && decide (1 ≤ m.records) && decide (1 ≤ m.d) && decide (m.d ≤ 256)
      && m.out % 256 == 0 && decide (m.count ≤ 65536) && decide (m.first + m.count ≤ 2 ^ m.log2)
      && decide (m.qblocks * m.blockBytes ≤ p.slotBytes) && decide (m.qblocks * m.blockBytes ≤ spaceBytes)
  p.version == 1 && decide (p.mergeCount ≤ 256) && decide (p.itemCount ≤ 262140) && p.base % pageBytes == 0
    && p.slotBytes % pageBytes == 0 && decide (1 ≤ p.slots) && increasing (p.items.map PlanItem.gsid) && p.items.all item
    && p.merges.all merge && a.placed a.slotArea && a.homes.all fun h => !h.meets a.slotArea
/-- REDUCE (R131, R137, R417, R429). -/
def Alesh.reduceArmOk (a : Alesh) : Bool :=
  let largest := ((List.range a.ownSlices).map fun s => gradPages (a.gradCount (gsidOf a.ownShard s))).foldl max 0
  decide (4 * largest ≤ a.num O.REDUCE_OWNER_PAGES) && decide (a.num O.REDUCE_OWNER_PAGES ≤ a.num O.REDUCE_PAGES)
    && a.sparseArmOk && a.planArmOk
    && decide (sumNat ((List.range 8).map fun v => a.num (O.FP_RX_CREDITS + v)) ≤ 1024)

/-- A run of the job range lies wholly in segments that pass a test; fuel bounds the segments crossed. -/
def Alesh.coveredBy (a : Alesh) (p : Segment → Bool) : Nat → Nat → Nat → Bool
  | 0, _, n => n == 0
  | f + 1, off, n =>
    if n = 0 then true
    else match a.segOf off with
      | none => false
      | some (_, s) => p s && (let k := s.base + s.length - off; if n ≤ k then true else a.coveredBy p f (off + k) (n - k))
/-- The segment table (R300, R301). -/
def Alesh.segArmOk (a : Alesh) : Bool :=
  let ss := a.segs
  let tier1 := (ss.filter fun s => s.homeTier == 1).map fun s => (s.homeBase, s.length)
  let one (s : Segment) : Bool :=
    s.version == 1 && decide (s.homeTier ≤ 2) && s.base % pageBytes == 0 && s.length % pageBytes == 0 && decide (pageBytes ≤ s.length)
      && s.homeBase % pageBytes == 0 && decide (s.base + s.length ≤ a.num O.JOB_RANGE_BYTES) && !(s.migrate && s.homeTier == 0)
      && (s.homeTier == 2 || decide (s.homeBase + s.length < spaceBytes))
  let runs := (ss.filter (·.migrate)).map fun s => (s.mapIndex, s.length / pageBytes)
  let store (tier : Nat) (s : Segment) : Bool := s.homeTier == tier && !s.migrate
  ss.all one && increasing (ss.map (·.base)) && runsApart (ss.map fun s => (s.base, s.length))
    && (a.homes.all fun h => (a.stateAreas ++ a.parityAreas ++ [a.mapArea, a.poolArea]).all fun y => !h.meets y)
    && runsApart runs && (runs.all fun r => decide (r.1 + r.2 ≤ a.num O.TIER_MAP_ENTRIES))
    && a.placed a.poolArea && (tier1.all fun r => !runsMeet r.1 r.2 (a.poolBase 1) (a.poolPages 1 * pageBytes))
    && a.coveredBy (store 2) 257 (a.num O.PLATE_STORE_BASE) (a.num O.PLATE_PLACES * a.num O.PLATE_PLACE_BYTES)
    && a.coveredBy (store 1) 257 (a.num O.PLATE_SPILL_BASE) (a.num O.PLATE_SPILL_SLOTS * spillBytes)
    && ((List.range 16).all fun t => decide (sumNat ((ss.filter fun s => s.homeTier == 2 && s.tenant == t).map fun s => s.length / pageBytes)
      ≤ a.quota t 2))
/-- CLUSTER_NODES (R316). -/
def Alesh.clusterArmOk (a : Alesh) : Bool :=
  let c := a.cluster
  decide (c.length ≤ 8) && c.contains a.node && c.all fun n => (a.packageOf n).isSome && a.packageOf n == a.packageOf a.node
def Alesh.tierArmOk (a : Alesh) : Bool := a.segArmOk && a.clusterArmOk

/-- The areas of a unit for which its own chapter states no check: Tier 0 ends at 2^40 (R7). -/
def Alesh.bareAreas (a : Alesh) (u : Nat) : List Area :=
  let of (names : List Nat) : List Area := a.otherAreas.filter fun x => names.contains x.name
  if u = uJob then of [16, 21] else if u = uPublish then of [17] else if u = uReduce then of [18, 19, 24]
    else if u = uTier then [a.mapArea] else if u = uRecord then of [20] else []
/-- Every check of arming of a unit, on the values in force. -/
def Alesh.unitArmOk (a : Alesh) (u : Nat) : Bool :=
  (a.bareAreas u).all Area.inSpace &&
  if u = uJob then a.jobArmOk else if u = uUpdate then a.updateArmOk else if u = uPublish then a.pubArmOk
  else if u = uPrecond then a.pcArmOk else if u = uCoding then a.codingArmOk else if u = uReduce then a.reduceArmOk
  else if u = uTier then a.tierArmOk else if u = uHealth then a.healthAreas.all a.placed else true

/-! ### UNIT_ARM (R364, R366, R373) -/

/-- The base configuration: nothing of an overlay in force, the core's slices those that it was formed with unless JOB is
armed already. -/
def Alesh.baseView (a : Alesh) (mask : Nat) : Alesh :=
  let own := if a.unit uJob == .armed && !mask.testBit uJob then a.take.owned else (List.range a.ownSlices).map (gsidOf a.ownShard)
  { a with dict := { a.dict with forced := [], forcedDoms := [], merged := [] }, take := { a.take with owned := own } }
/-- The base, and the base with each loaded overlay's values in place. -/
def Alesh.views (a : Alesh) (mask : Nat) : List Alesh :=
  let b := a.baseView mask
  b :: (a.dict.images.filterMap fun p => (b.image? p.1).map fun img => b.withItems (imageItems img))
/-- No unit is ARMED yet: the overlay and staging areas are checked (R379). -/
def Alesh.overlayArmOk (a : Alesh) : Bool := a.overlayAreas.all fun x => x.short && a.areas.all fun y => !x.meets y
def Alesh.armOk (a : Alesh) (mask : Nat) : Bool :=
  let first := a.ctl.units.all fun u => u != .armed
  (a.views mask).all (fun v => (unitsOf mask).all v.unitArmOk && (!first || v.overlayArmOk)
    && (!mask.testBit uPublish || pubSame (a.baseView mask).pubTable v.pubTable))

/-- Pages of the areas that a unit initialises (R387). -/
def Alesh.jobPages (a : Alesh) : Nat := ceilDiv (a.slotCount * 256 * 64) pageBytes
def Alesh.codingPages (a : Alesh) : Nat :=
  let n := a.num O.PARITY_SLOTS
  let m := a.num O.PARITY_ALT_SLOTS
  ceilDiv (n * paritySlotMeta) pageBytes + ceilDiv (m * paritySlotMeta) pageBytes + n + m

/-- What becomes of a unit that is armed: the slice map and an empty state for JOB, a coding unit with no transaction, every
page at its home for TIER, LARGE_CODE 14 for HEALTH. -/
def Alesh.armUnit (a : Alesh) (u : Nat) : Alesh :=
  let b := (a.setUnit u .armed).sramWrite [.unit u]
  if u = uJob then
    let own := (List.range b.ownSlices).map (gsidOf b.ownShard)
    let c : Alesh := { b with
      slots := { map := own.map fun g => (g, gsidSlice g), pend := [], releasing := [], pins := [], opened := [] }
      take := { Take.reset with owned := own }, progs := [], plate := Plate.reset
      chrono := { b.chrono with origin := none }, ctl := { b.ctl with initJob := b.jobPages } }
    (((c.setNum O.RESTORE_STATE 0).setNum O.TAKEN_SLICES 0).setNum O.TAKEOVER_WAIT 0).plateCounts
  else if u = uCoding then
    let c : Alesh := { b with coding := Coding.reset, ctl := { b.ctl with initCoding := b.codingPages } }
    ((c.setNum O.STRIPE_M_ACTIVE (c.num O.STRIPE_M)).setNum O.STRIPE_ROUNDS c.geo.rounds).setNum O.HOLD_USED 0
  else if u = uTier then b.homeMap
  else if u = uHealth then { b with health := { b.health with large := [] } }
  else b
/-- The base values of the overlayable RWD objects, as the snapshot holds them (R370). -/
def Alesh.baseItems (a : Alesh) : List (Nat × Bytes) :=
  ((objTable.flatMap fun o => (List.range o.count).map fun i => (o, o.key + i)).filter fun (p : Obj × Nat) =>
    p.1.cls == .rwd && overlayRwd p.2).map fun (p : Obj × Nat) => (p.2, a.objBytes p.2)
/-- The snapshot that arming takes behind the images (R370); no rule gives its layout: its bytes are free values (log entry 133). -/
def Alesh.snapshot (a : Alesh) : Alesh :=
  let items := a.baseItems
  a.wr (a.num O.OVERLAY_BASE + 8 * overlaySlotBytes) ((List.range overlaySlotBytes).map (Config.snapshotByte items))
def unitArm (mask : Nat) (a : Alesh) : Res × Alesh :=
  require (a.ctl.core == .idle && (unitsOf mask).all fun u => a.unit u == .disabled) .stateConflict a
    (require (decide (1 ≤ mask) && decide (mask ≤ 0x1FF) && a.armOk mask) .range a
      (let b : Alesh := { a with dict := { a.dict with forced := [], forcedDoms := [], merged := [] } }
       (.ok, (((unitsOf mask).foldl Alesh.armUnit b).formConfigDigest).snapshot)))
def execUnitArm (via : Via) (mask : Nat) (s : State) : Host.Outcome State Fault Refusal :=
  command via O.UNIT_ARM false (unitArm mask) s

/-! ### Initialisation (R387) -/

/-- The metadata region: every record VERSION 0x1, KIND STATE, all else zero. -/
def Alesh.initMeta (a : Alesh) : Alesh :=
  a.wr (a.num O.META_BASE) ((List.replicate (a.slotCount * 256) (PageRec.blank kState).bytes).flatMap id)
/-- The areas of the units being armed are initialised; a commencement that waited goes on. -/
def Alesh.armInit (a : Alesh) : Alesh :=
  let b := if a.ctl.initJob = 0 then a else a.initMeta
  let c := if a.ctl.initCoding = 0 then b
    else b.emptyParity
  ({ c with ctl := { c.ctl with initJob := 0, initCoding := 0 } }).commProgress
def execArmInitComplete (s : State) : Host.Outcome State Fault Refusal :=
  onCore (fun a => if a.ctl.initJob + a.ctl.initCoding = 0 || !a.ctl.upM then a else a.armInit) s

end Sys2Proof.Machine
end

