-- ==== Sys2Proof/Machine/Access.lean ====
section
/-! DEFINITION. The dictionary's three ways in: reads and writes of objects (R349 to R355), the register window (R357, R358),
the mailboxes and staged writes (R359, R360), access messages (R442 to R445). -/
namespace Sys2Proof.Machine

/-! ### Reads (R350, R355) -/

/-- A region entry with its KEY hidden. -/
def hideKey (b : Bytes) : Bytes := let w := leNat b; leBytes b.length (w - bf w 100 64 * 2 ^ 100)
/-- What a non-keeper sees of a value. -/
def hideKeys (key : Nat) (v : Bytes) : Bytes :=
  if key = O.REGION_TABLE then (List.range 256).flatMap fun i => hideKey (slice v (32 * i) 32)
  else if key = O.REGION_ENTRY then v.take 1 ++ hideKey (v.drop 1)
  else if key = O.GATEWAY_KEY then List.replicate v.length 0
  else v
/-- TIER_USED, in the layout of TIER_QUOTA (R306). -/
def Alesh.tierUsed (a : Alesh) : Bytes :=
  (List.range 16).flatMap fun t => leBytes 4 (a.tenantFrames t 0).length ++ leBytes 4 (a.tenantFrames t 1).length ++ leBytes 4 0
/-- EXT_STATE: two bits per entry (R169). -/
def Alesh.extBytes (a : Alesh) : Bytes := leBytes 32 (packBits ((List.range 128).map fun e => (2 * e, 2, a.extState e)))
/-- FLAG_OCC: 128 counters (R368). -/
def Alesh.flagOcc (a : Alesh) : Bytes := (List.range 128).flatMap fun n => leBytes 2 (lookupD 0 a.evts.occ n)
/-- The value of an object as it reads now: some are not stored but follow from the state. -/
def Alesh.readObj (a : Alesh) (o : Obj) (key : Nat) : Bytes :=
  let n (v : Nat) : Bytes := leBytes (o.ty.bits / 8) v
  if key = O.CORE_STATE then n a.ctl.core.code
  else if O.UNIT_STATE ≤ key ∧ key < O.UNIT_STATE + 9 then n (a.unit (key - O.UNIT_STATE)).code
  else if key = O.COMBINER_NODE then n (a.activeMembers.head?.getD 0)
  else if key = O.MEMBER_COUNT then n a.memb.members.length
  else if key = O.MEMBER_BITMAPS then bitmapsOf a.memb.members a.memb.draining
  else if key = O.MEMBER_DIGEST then memberDigest a.memb.members a.memb.draining
  else if key = O.EPHEMERIS_NOW then n (if a.clock.valid then a.clock.captured else 0)
  else if key = O.TIME_VALID then n (if a.clock.valid then 1 else 0)
  else if key = O.EVT_PENDING then n a.evts.pending
  else if key = O.FLAG_OCC then a.flagOcc
  else if key = O.RING_FREE then n a.ringFree
  else if key = O.TIER_USED then a.tierUsed
  else if key = O.EXT_STATE then a.extBytes
  else if key = O.COMMENCE_PENDING then a.commPending.flatMap (leBytes 4)
  else if key = O.RETIRE_LIST then a.errs.retired.flatMap fun r => leBytes 8 (r.1 + 2 ^ 24 * r.2)
  else if O.OVERLAY_IMAGE ≤ key ∧ key < O.OVERLAY_IMAGE + 8 then (a.image? (key - O.OVERLAY_IMAGE)).getD []
  else if key = O.INIT_PAGES_LEFT then n (a.ctl.initJob + a.ctl.initCoding)
  else if o.ty = .dom then a.dom key
  else n (a.num key)
/-- A read of an object: its result and its value. -/
def Alesh.readValue (a : Alesh) (via : Via) (key : Nat) : Res × Bytes :=
  match objOf? key with
  | none => (.noObject, [])
  | some o =>
    if o.cls = .cmd ∨ o.cls = .wo then (.access, [])
    else (.ok, if a.isKeeper via then a.readObj o key else hideKeys key (a.readObj o key))

/-! ### Writes and commands (R350, R351) -/

/-- Issue a command with its argument. -/
def Alesh.issue (a : Alesh) (key arg now : Nat) : Res × Alesh :=
  if key = O.EVT_ACK then evtAck arg a
  else if key = O.UNIT_ARM then unitArm arg a
  else if key = O.UNIT_DISARM then unitCommand .armed arg a
  else if key = O.UNIT_CLEAR then unitCommand .faulted arg a
  else if key = O.JOB_STOP then jobStop arg a
  else if key = O.MAINT_ENTER then maintEnter a
  else if key = O.MEMB_INSTALL then membInstall now a
  else if key = O.COMMENCE_START then commenceStart now a
  else if key = O.COMMENCE_ABANDON then commenceAbandon a
  else if key = O.TILE_RETIRE then tileRetire arg a
  else if key = O.PC_COL_RETIRE then pcColRetire arg a
  else if key = O.ROUTE_CHANGE then routeChange now a
  else if key = O.TIER_FLUSH then tierFlush arg a
  else if key = O.FA_SUBMIT then faSubmit now a
  else if key = O.WATCH_CLEAR then watchClear arg a
  else if key = O.RESTORE_START then restoreStart now a
  else if key = O.PLATE_RETURN then plateReturn now a
  else if key = O.SCRUB_START then scrubStart now a
  else if key = O.CAL_LOAD then calLoad a
  else overlaySwitch arg now a

/-- What else follows an accepted write of an object that has no row of its own: a new hosting range for the present
membership epoch takes effect (R235), a new stage replaces the old one (R245), an RWK write is flagged (R355). -/
def Alesh.afterWrite (a : Alesh) (o : Obj) (key was : Nat) : Alesh :=
  let b := if o.cls = .rwk then a.ctrl fProtectionChange else a
  if key = O.NEXT_HOSTING_EPOCH then
    if b.inJob && !b.isDraining b.node && was != b.num O.MEMBERSHIP_EPOCH then b.installHosting else b
  else if key = O.RESTRIPE_STAGE then b.unstage
  else b
/-- Tests 5 to 8 and the effect of a write whose object, class, keeper and length have passed. -/
def Alesh.put (a : Alesh) (via : Via) (o : Obj) (key : Nat) (v : Bytes) (now : Nat) : Res × Alesh :=
  if o.cls = .cmd then a.issue key (leNat v) now
  else if o.cls = .w1c then (.ok, a.clearFlags key (leNat v))
  else if O.OVERLAY_IMAGE ≤ key ∧ key < O.OVERLAY_IMAGE + 8 then overlayImage (key - O.OVERLAY_IMAGE) v a
  else if key = O.SWITCH_ORDER then
    match via with
    | .inBand src _ => switchOrder src v a
    | _ => (.access, a)
  else if key = O.REGION_ENTRY then regionEntry via v a
  else if key = O.CHRONO_TAIL then chronoTail (leNat v) a
  else if key = O.TAKEOVER_SET then takeoverSet v a
  else if key = O.THERM_MARGIN then thermWrite (leNat v) now a
  else if key = O.PLATE_ENABLE then plateEnable (leNat v) now a
  else if key = O.TIER_QUOTA then tierQuota v a
  else if key = O.RETIRE_LIST then retireList v a
  else if key = O.JOIN_SNAPSHOT then joinSnapshot v a
  else require (o.cls != .rwd || a.rwdOpen key) .unitEnabled a
    (require (a.valueOk o key v) .range a (.ok, (a.setValue o key v).afterWrite o key (a.num key)))
/-- A write of a whole value, tested in the order of R351; `none` is a value whose width fits no object reached so. -/
def Alesh.writeValue (a : Alesh) (via : Via) (key : Nat) (v : Option Bytes) (now : Nat) : Res × Alesh :=
  match objOf? key with
  | none => (.noObject, a)
  | some o =>
    if o.cls = .ro ∨ key = O.SWITCH_ORDER ∧ a.takesOrder via = false then (.access, a)
    else if o.cls = .rwk ∧ ¬a.isKeeper via then (.keeperOnly, a)
    else
      match v with
      | none => (.type, a)
      | some b =>
        if a.typeOk o b then a.unlessStaged key (a.put via o key b now) else (.type, a)

/-! ### Staged writes (R360) -/

def stageBytes : Nat := 4194304
/-- The longest value that an object's Range allows. -/
def Alesh.longest (a : Alesh) (key : Nat) : Nat :=
  match objOf? key with
  | none => stageBytes
  | some o =>
    if o.ty = .dom then
      match o.rng with
      | .len _ hi _ => min stageBytes hi
      | .lenBy c each => min stageBytes (a.num c * each)
      | .lenBy2 c d each => min stageBytes ((a.num c + a.num d) * each)
      | _ => stageBytes
    else o.ty.bits / 8
/-- Put a chunk into the staging area, and at FINAL apply the whole value. STAGE_BASE is RW, and may be written so that the area would
pass 2^40: then no chunk is taken (R7; DESIGN CHOICE, log entry 139). -/
def Alesh.stageChunk (a : Alesh) (via : Via) (key off : Nat) (final : Bool) (data : Bytes) (now : Nat) : Res × Alesh :=
  let base := a.num O.STAGE_BASE
  let len := off + data.length
  let closed : Alesh := { a with staged := none }
  if a.longest key < len then (.type, closed)
  else if spaceBytes < base + stageBytes then (.range, closed)
  else if !a.ctl.upM then (.busy, a)
  else if final then
    let b := closed.wr (base + off) data
    b.writeValue via key (some (b.rd base len)) now
  else
    let s : Staged := { path := viaPath via, key := key, len := len }
    (.ok, { (a.wr (base + off) data) with staged := some s })
/-- A mailbox WRITE: a whole value, which an open write of another object does not hold back (R360), or a chunk of a staged one. -/
def Alesh.mailWrite (a : Alesh) (via : Via) (key off : Nat) (final : Bool) (data : Bytes) (now : Nat) : Res × Alesh :=
  match a.staged with
  | some s =>
    if s.path = viaPath via then
      if s.key = key ∧ s.len = off then a.stageChunk via key off final data now
      else if off = 0 && final then a.writeValue via key (some data) now
      else (.range, { a with staged := none })
    else if off ≠ 0 then (.range, a)
    else if final then a.writeValue via key (some data) now
    else (.busy, a)
  | none =>
    if off ≠ 0 then (.range, a)
    else if final then a.writeValue via key (some data) now
    else a.stageChunk via key 0 false data now
/-- A mailbox ABORT: the path's open write is discarded, with the flag MB_ABORT (R359). -/
def Alesh.mailAbort (a : Alesh) (via : Via) : Alesh :=
  match a.staged with
  | some s => if s.path = viaPath via then ({ a with staged := none }).ctrl fMbAbort else a
  | none => a
/-- A mailbox READ: the result, the bytes asked for, and the value's length. -/
def Alesh.mailRead (a : Alesh) (via : Via) (key off len : Nat) : Res × Bytes × Nat :=
  let r := a.readValue via key
  (r.1, slice r.2 off len, r.2.length)
/-- MB_LEN and LENGTH of a READ lie from 1 to 4,096. -/
def mailLength (n : Nat) : Bool := decide (1 ≤ n) && decide (n ≤ 4096)

/-! ### The register window (R357 to R359) -/

/-- ACC_DATA written: the bytes of the word for a type of at most 32 bits, whose unused high bits are zero. -/
def wordBytes (key w : Nat) : Option Bytes :=
  match objOf? key with
  | some o =>
    if o.ty = .dom ∨ 32 < o.ty.bits ∨ 2 ^ o.ty.bits ≤ w then none else some (leBytes (o.ty.bits / 8) w)
  | none => none
def Alesh.setAcc (a : Alesh) (r : Res) : Alesh := { a with win := { a.win with accDone := true, accResult := r.code } }
/-- The response of a write on the control port carries no data (R435). -/
def Alesh.portWrite (a : Alesh) : Alesh := { a with win := { a.win with rdata := 0 } }
def Alesh.accWrite (a : Alesh) (keeper : Bool) (w now : Nat) : Alesh :=
  if !a.win.accDone then { a with win := { a.win with accResult := Res.busy.code } }
  else
    let key := a.win.accAddr
    let via := Via.control keeper
    let r := a.writeValue via key (wordBytes key w) now
    if r.1 = .awaited then r.2.await via false else (r.2.refuse via key r.1).setAcc r.1
/-- ACC_DATA read: the value and the window that results. -/
def Alesh.accRead (a : Alesh) (keeper : Bool) : Nat × Alesh :=
  let key := a.win.accAddr
  let r := a.readValue (.control keeper) key
  let wide := match objOf? key with
    | some o => o.ty == .dom || decide (32 < o.ty.bits)
    | none => false
  if !a.win.accDone then (0, { a with win := { a.win with accResult := Res.busy.code } })
  else if r.1 == .ok && wide then (0, a.setAcc .type)
  else (leNat r.2, a.setAcc r.1)

def Alesh.mailDone (a : Alesh) (r : Res) : Alesh :=
  { a with win := { a.win with mbValid := true, mbBusy := false, mbResult := r.code } }
def Alesh.mbRead (keeper : Bool) (a : Alesh) : Alesh :=
  if a.win.mbBusy then a
  else if !mailLength a.win.mbLen then a.mailDone .range
  else
    let r := a.mailRead (.control keeper) a.win.mbAddr a.win.mbOffset a.win.mbLen
    if r.1 = .access then a.mailDone .access
    else ({ a with win := { a.win with mbBuf := a.win.mbBuf.write 0 r.2.1, mbTotal := r.2.2 } }).mailDone r.1
def Alesh.mbWrite (keeper final : Bool) (now : Nat) (a : Alesh) : Alesh :=
  if a.win.mbBusy then a
  else if !mailLength a.win.mbLen then a.mailDone .range
  else
    let via := Via.control keeper
    let r := a.mailWrite via a.win.mbAddr a.win.mbOffset final (a.win.mbBuf.read 0 a.win.mbLen) now
    if r.1 = .awaited then r.2.await via true else (r.2.refuse via a.win.mbAddr r.1).mailDone r.1
def Alesh.mbAbort (keeper : Bool) (a : Alesh) : Alesh :=
  if a.win.mbBusy then a else (a.mailAbort (.control keeper)).mailDone .ok
/-- A write of MB_CMD; ABORT goes before OP. -/
def Alesh.mbCommand (keeper : Bool) (w now : Nat) (a : Alesh) : Alesh :=
  if w.testBit 3 then a.mbAbort keeper
  else if w % 4 = 1 then a.mbRead keeper
  else if w % 4 = 2 then a.mbWrite keeper (w.testBit 2) now
  else a

def Alesh.setWin (a : Alesh) (w : Window) : Alesh := { a with win := w }
/-- A control-port request that the window takes: all four byte enables, an aligned offset. -/
def wholeWord (r : CpReq) : Bool := r.be == 15 && r.offset % 4 == 0
/-- Write a register of the window. -/
def Alesh.windowWrite (r : CpReq) (now : Nat) (a0 : Alesh) : Alesh :=
  let a := (a0.at now).portWrite
  let d := r.data % 2 ^ 32
  if !wholeWord r then a
  else if r.offset = 0x0010 then a.setWin { a.win with accAddr := d % 2 ^ 24 }
  else if r.offset = 0x0014 then a.accWrite r.keeper d now
  else if r.offset = 0x0020 then a.setWin { a.win with mbAddr := d % 2 ^ 24 }
  else if r.offset = 0x0024 then a.setWin { a.win with mbOffset := d }
  else if r.offset = 0x0028 then a.setWin { a.win with mbLen := d }
  else if r.offset = 0x002C then a.mbCommand r.keeper d now
  else if 0x1000 ≤ r.offset ∧ r.offset < 0x2000 then a.setWin { a.win with mbBuf := a.win.mbBuf.writeLe (r.offset - 0x1000) 4 d }
  else a
def execDictWrite (r : CpReq) (now : Nat) (s : State) : Host.Outcome State Fault Refusal :=
  onCore (fun a => a.serve (.control r.keeper) (Alesh.windowWrite r now)) s

/-- WIN_STATE: the core state and the units that are FAULTED. -/
def Alesh.winState (a : Alesh) : Nat :=
  packBits ((0, 4, a.ctl.core.code) :: (List.range 9).map fun u => (u + 4, 1, if a.unit u = .faulted then 1 else 0))
/-- WIN_EVENTS: the event outputs as driven now. -/
def Alesh.winEvents (a : Alesh) : Nat := a.evtLevels + if a.evts.meridian then 4 else 0
/-- The registers of the window but ACC_DATA. -/
def Alesh.windowReg (a : Alesh) (off : Nat) : Nat :=
  if off = 0x0000 then 0x48534C41
  else if off = 0x0004 then a.winInfo
  else if off = 0x0008 then a.winState
  else if off = 0x000C then a.winEvents
  else if off = 0x0010 then a.win.accAddr
  else if off = 0x0018 then packBits [(0, 1, if a.win.accDone then 1 else 0), (16, 16, a.win.accResult)]
  else if off = 0x0020 then a.win.mbAddr
  else if off = 0x0024 then a.win.mbOffset
  else if off = 0x0028 then a.win.mbLen
  else if off = 0x0030 then
    packBits [(0, 1, if a.win.mbValid then 1 else 0), (1, 1, if a.win.mbBusy then 1 else 0),
      (2, 1, if (a.staged.map (·.path)) == some 0 then 1 else 0), (16, 16, a.win.mbResult)]
  else if off = 0x0034 then a.win.mbTotal
  else if 0x1000 ≤ off ∧ off < 0x2000 then a.win.mbBuf.readLe (off - 0x1000) 4
  else 0
/-- Read a register of the window: the response's data stands in `rdata`. -/
def Alesh.windowRead (r : CpReq) (a : Alesh) : Alesh :=
  if !wholeWord r then a.setWin { a.win with rdata := 0 }
  else if r.offset = 0x0014 then
    let q := a.accRead r.keeper
    q.2.setWin { q.2.win with rdata := q.1 }
  else a.setWin { a.win with rdata := a.windowReg r.offset }
def execAccDataRead (r : CpReq) (s : State) : Host.Outcome State Fault Refusal :=
  onCore (fun a => a.serve (.control r.keeper) (Alesh.windowRead r)) s

def execMbRead (keeper : Bool) (s : State) : Host.Outcome State Fault Refusal :=
  onCore (fun a => a.serve (.control keeper) fun b => b.portWrite.mbRead keeper) s
def execMbWrite (keeper final : Bool) (now : Nat) (s : State) : Host.Outcome State Fault Refusal :=
  onCore (fun a => (a.at now).serve (.control keeper) fun b => b.portWrite.mbWrite keeper final now) s
def execMbAbort (keeper : Bool) (s : State) : Host.Outcome State Fault Refusal :=
  onCore (fun a => a.serve (.control keeper) fun b => b.portWrite.mbAbort keeper) s

/-- A W1C write of an object (R368). -/
def flagClear (key bits : Nat) (a : Alesh) : Res × Alesh :=
  match objOf? key with
  | none => (.noObject, a)
  | some o =>
    require (o.cls == .w1c) .access a (require (decide (bits < 2 ^ o.ty.bits)) .type a (.ok, a.clearFlags key bits))
def execFlagClear (via : Via) (key bits : Nat) (s : State) : Host.Outcome State Fault Refusal :=
  command via key (key == O.PEER_FLAGS) (flagClear key bits) s

/-! ### Access messages (R443, R444) -/

def viaReq : Via → Nat
  | .control _ => 0
  | .mgmt _ q => q
  | .inBand _ q => q
def accKey (m : AccMsg) : Nat := m.index * 256 + m.sub
/-- Answer a message: the request's header echoed, with OP + 0x80, the result, the value's length and the data. -/
def Alesh.answer (a : Alesh) (m : AccMsg) (op : Nat) (r : Res) (total : Nat) (data : Bytes) : Alesh :=
  a.respond m.via (accBody (op + 0x80) (viaReq m.via) (accKey m) m.final m.offset data.length r.code total data)
def Alesh.msgRead (m : AccMsg) (a : Alesh) : Alesh :=
  if m.version ≠ 1 then a.answer m 1 .version 0 []
  else if !mailLength m.length then a.answer m 1 .range 0 []
  else
    let r := a.mailRead m.via (accKey m) m.offset m.length
    if r.1 = .access then a.answer m 1 .access 0 [] else a.answer m 1 r.1 r.2.2 r.2.1
/-- The LENGTH of a WRITE is that of the data it carries. -/
def Alesh.msgWrite (m : AccMsg) (now : Nat) (a : Alesh) : Alesh :=
  if m.version ≠ 1 then a.answer m 2 .version 0 []
  else if 4096 < m.length then a.answer m 2 .range 0 []
  else if m.length ≠ m.data.length then a.answer m 2 .type 0 []
  else
    let r := a.mailWrite m.via (accKey m) m.offset m.final m.data now
    if r.1 = .awaited then r.2.await m.via false else (r.2.refuse m.via (accKey m) r.1).answer m 2 r.1 0 []
def Alesh.msgAbort (m : AccMsg) (a : Alesh) : Alesh :=
  if m.version ≠ 1 then a.answer m 3 .version 0 [] else (a.mailAbort m.via).answer m 3 .ok 0 []
/-- The message paths are the management bus and in band: the control port has the window. -/
def onMessage (m : AccMsg) (f : Alesh → Alesh) (s : State) : Host.Outcome State Fault Refusal :=
  onCore (fun a => match m.via with | .control _ => a | via => a.serve via f) s
def execAccMsgRead (m : AccMsg) (s : State) : Host.Outcome State Fault Refusal := onMessage m (Alesh.msgRead m) s
def execAccMsgWrite (m : AccMsg) (now : Nat) (s : State) : Host.Outcome State Fault Refusal :=
  onMessage m (fun a => (a.at now).msgWrite m now) s
def execAccMsgAbort (m : AccMsg) (s : State) : Host.Outcome State Fault Refusal := onMessage m (Alesh.msgAbort m) s

/-- The message that a body spells, on a path. -/
def accMsgOf (via : Via) (b : Bytes) : AccMsg :=
  { via := via, version := leAt b 0 1, index := leAt b 4 2, sub := leAt b 6 1, final := (leAt b 7 1).testBit 0
    offset := leAt b 8 4, length := leAt b 12 2, data := b.drop 24 }
/-- An access body of at least its header: READ, WRITE, ABORT; a reserved OP is answered RANGE. -/
def Alesh.accBodyIn (a : Alesh) (via : Via) (b : Bytes) (now : Nat) : Alesh :=
  let m := accMsgOf via b
  let op := leAt b 1 1
  a.serve via fun a =>
    if op = 1 then a.msgRead m
    else if op = 2 then a.msgWrite m now
    else if op = 3 then a.msgAbort m
    else a.answer m (op % 128) (if m.version = 1 then .range else .version) 0 []

/-! ### In band (R445) -/

/-- A DICT request: R180 but for the keeper's node. -/
def Alesh.dictRequest (now : Nat) (m : Pkt) (a : Alesh) : Alesh :=
  a.receive now tDict m (decide (24 ≤ m.payload.length) && decide (m.payload.length ≤ 4120)) true fun b =>
    if b.membOf m.memb != b.num O.MEMBERSHIP_EPOCH && !b.isKeeper (.inBand m.src 0) then
      let c := b.count O.CRESOL_EPOCH_DROP_COUNT
      if decide (b.num O.MEMBERSHIP_EPOCH < b.membOf m.memb) then c.pull m.src else c
    else b.accBodyIn (.inBand m.src (leAt m.payload 2 2)) m.payload now
/-- A DICT response ends the resends of its request; one with a reserved OP or RESULT is malformed (R4, R443). -/
def Alesh.dictResponse (now : Nat) (m : Pkt) (a : Alesh) : Alesh :=
  a.receive now tDict m (decide (24 ≤ m.payload.length) && decide (m.payload.length ≤ 4120)
      && decide (0x81 ≤ leAt m.payload 1 1) && decide (leAt m.payload 1 1 ≤ 0x83) && decide (leAt m.payload 14 2 ≤ 9)) true fun b =>
    let id := leAt m.payload 2 2
    match b.mgmt.asked.find? fun q => q.dst == m.src && q.reqId == id with
    | some q =>
      let c : Alesh := { b with mgmt := { b.mgmt with asked := b.mgmt.asked.filter fun x => !(x.dst == m.src && x.reqId == id) } }
      if q.isOrder then c.orderResponse q (leAt m.payload 14 2) else c
    | none => b
def execDictResponseRx (now : Nat) (m : Pkt) (s : State) : Host.Outcome State Fault Refusal := onCore (Alesh.dictResponse now m) s

/-- A stored response leaves the store once its time is over. -/
def Alesh.storeExpiry (now src reqId : Nat) (a0 : Alesh) : Alesh :=
  let a := a0.at now
  { a with mgmt := { a.mgmt with stored := a.mgmt.stored.filter fun s => !(s.src == src && s.reqId == reqId && a.due s.due) } }
def execDictStoreExpiry (now src reqId : Nat) (s : State) : Host.Outcome State Fault Refusal := onCore (Alesh.storeExpiry now src reqId) s

/-! ### The management bus (R442; formats of DSP0236, log entry 14) -/

/-- The messages that a control request has brought carry its instance id. -/
def echoIid (iid n : Nat) (a : Alesh) : Alesh :=
  { a with mgmt := { a.mgmt with out := a.mgmt.out.zipIdx.map fun (x : (Nat × Bytes) × Nat) =>
      if x.2 < n then x.1 else (x.1.1, setAt x.1.2 1 (BitVec.ofNat 8 iid)) } }
/-- A control request: its command, or completion code 0x05 for one not supported; responses are not answered. -/
def Alesh.mctpControl (a : Alesh) (src : Nat) (b : Bytes) : Alesh :=
  let h := leAt b 1 1
  let c := leAt b 2 1
  if !h.testBit 7 then a
  else
    echoIid (h % 32) a.mgmt.out.length (
      if c = 1 then a.setEid src (leAt b 3 1 % 4) (leAt b 4 1)
      else if c = 2 then a.getEid src
      else if c = 4 then a.getMctpVersion src (leAt b 3 1)
      else if c = 5 then a.getTypes src
      else if c = 6 then a.getVendor src (leAt b 3 1)
      else a.mctpAnswer src c [5])
/-- A whole message, its type byte first. -/
def Alesh.mctpMessage (a : Alesh) (src now : Nat) (b : Bytes) : Alesh :=
  let drop := a.count O.MGMT_DROP_COUNT
  let t := leAt b 0 1
  if 4125 < b.length then drop
  else if t = 0 then if 3 ≤ b.length then a.mctpControl src b else drop
  else if t = 0x7F ∧ beNat (slice b 1 4) = a.num O.VENDOR_PEN ∧ 29 ≤ b.length then
    a.accBodyIn (.mgmt src (leAt b 7 2)) (b.drop 5) now
  else drop
def Alesh.setAsm (a : Alesh) (x : Option (Nat × Nat × Nat × Bytes)) : Alesh := { a with mgmt := { a.mgmt with asm := x } }
/-- A packet: its PEC, then its place in a message; one that continues no message is dropped. -/
def Alesh.mctpPacket (now : Nat) (p : MctpPkt) (a0 : Alesh) : Alesh :=
  let a := a0.at now
  let mine := p.dst == 0 || p.dst == a.num O.MCTP_EID
  if !a.ctl.upK || a.ctl.core == .reset then a
  else if !p.pecOk then (a.setAsm none).count O.MGMT_PEC_ERR_COUNT
  else if !mine then a
  else
    let sofar := if p.som then some [] else
      match a.mgmt.asm with
      | some (src, tag, seq, b) => if src = p.src ∧ tag = p.tag ∧ (seq + 1) % 4 = p.seq % 4 then some b else none
      | none => none
    match sofar with
    | none => a.setAsm none
    | some b =>
      let all := b ++ p.payload
      if p.eom then (a.setAsm none).mctpMessage p.src now all
      else a.setAsm (some (p.src, p.tag, p.seq, all.take 4126))
def execMctpPacketRx (now : Nat) (p : MctpPkt) (s : State) : Host.Outcome State Fault Refusal := onCore (Alesh.mctpPacket now p) s

end Sys2Proof.Machine
end

