-- ==== Sys2Proof/Machine/Metering.lean ====
section
/-! DEFINITION. Fenmal sealed metering (R448 to R462) and the core's side of it. -/
namespace Sys2Proof.Machine

/-! ### The audit log (R453, R454) -/

def evPowerUp : Nat := 1
def evPowerDown : Nat := 2
def evSealOpened : Nat := 3
def evSealClosed : Nat := 4
def evCalChanged : Nat := 5
def evVRange : Nat := 6
def evIRange : Nat := 7
def evModFault : Nat := 8
def evClockFault : Nat := 9
def evLogCleared : Nat := 10

/-- Advance COUNT of the latest entry of an event; none where there is no such entry. The list runs newest first. -/
def mergeLog (ev : Nat) : List FmEntry → Option (List FmEntry)
  | [] => none
  | e :: r => if e.event = ev then some ({ e with count := e.count + 1 } :: r) else (mergeLog ev r).map (e :: ·)

def Fenmal.merge (f : Fenmal) (ev : Nat) : Option (List FmEntry) := (mergeLog ev f.log.reverse).map List.reverse

/-- The entries still free. -/
def Fenmal.free (f : Fenmal) : Nat := 1024 - f.log.length

/-- The entry for an event now. -/
def Fenmal.entry (f : Fenmal) (ev : Nat) : FmEntry :=
  { seq := f.nextSeq, sealCount := f.regs.sealCount, event := ev, count := 1, imported := f.regs.imported
    seconds := f.regs.seconds }

def Fenmal.append (f : Fenmal) (ev : Nat) : Fenmal :=
  { f with log := f.log ++ [f.entry ev], nextSeq := wrapAdd 32 f.nextSeq 1 }

/-- Log an event (R454). -/
def Fenmal.logEvent (f : Fenmal) (ev : Nat) : Fenmal :=
  if f.free = 0 then
    match f.merge ev with
    | some l => { f with log := l }
    | none => { f with status := f.status ||| 2 ^ 6 }
  else if f.free < 32 ∧ evVRange ≤ ev ∧ ev ≤ evClockFault then
    match f.merge ev with
    | some l => { f with log := l }
    | none => f.append ev
  else f.append ev

/-- A condition of R451 holds or not: its bit, and a log entry at its start. -/
def Fenmal.setCondition (f : Fenmal) (bit ev : Nat) (on : Bool) : Fenmal :=
  if on then
    if f.status.testBit bit then f else { f with status := f.status ||| 2 ^ bit }.logEvent ev
  else { f with status := f.status - (f.status &&& 2 ^ bit) }

/-- FM_STATUS (the objects of R455). -/
def Fenmal.statusWord (f : Fenmal) : Nat :=
  bf f.status 0 4 + (if f.sealOpen then 16 else 0) + (if f.free < 32 then 32 else 0) + 64 * bf f.status 6 1

/-! ### Measurement (R449 to R451) -/

/-- Codes per volt and per ampere. -/
def voltUnits : Nat := Config.fmVoltUnits + 1
def ampUnits : Nat := Config.fmAmpUnits + 1
/-- One microjoule in units of v × i × 25: the sample interval is 25 / 2 µs. -/
def jouleUnits : Nat := 2 * voltUnits * ampUnits

/-- Add the energy of a sample product to its register, carrying the residue (R449). -/
def FmRegs.integrate (r : FmRegs) (p : Int) : FmRegs :=
  let n := 25 * p.natAbs
  if 0 ≤ p then
    { r with imported := satAdd 64 r.imported ((r.restImport + n) / jouleUnits), restImport := (r.restImport + n) % jouleUnits }
  else
    { r with exported := satAdd 64 r.exported ((r.restExport + n) / jouleUnits), restExport := (r.restExport + n) % jouleUnits }

/-- A bitstream that was held at one level moves again when its code changes (log entry 13). -/
def Fenmal.unstick (f : Fenmal) (s : Sample) : Fenmal :=
  let g := { f with stuckV := f.stuckV && s.v == f.lastV, stuckI := f.stuckI && s.i == f.lastI, lastV := s.v, lastI := s.i }
  g.setCondition 2 evModFault (g.stuckV || g.stuckI)

/-- The converted voltage and current of a pair (R449). -/
def Fenmal.convert (f : Fenmal) (s : Sample) : Int × Int :=
  ((s.v - f.regs.vOffset) * f.regs.vGain, (s.i - f.regs.iOffset) * f.regs.iGain)

/-- One decimated sample pair (R449, R451). -/
def Fenmal.sample (s : Sample) (f : Fenmal) : Fenmal :=
  if !f.powered then f
  else
    let v := (f.convert s).1
    let i := (f.convert s).2
    let g := (((f.unstick s).setCondition 0 evVRange (decide (v < 40 * voltUnits) || decide (60 * voltUnits < v))).setCondition
      1 evIRange (decide (150 * ampUnits < i.natAbs)))
    let regs := if g.status.testBit 2 || g.status.testBit 3 then g.regs else g.regs.integrate (v * i)
    let wrap := decide (80000 ≤ g.subPairs + 1)
    { g with
      regs := { regs with seconds := if wrap then regs.seconds + 1 else regs.seconds }
      subPairs := if wrap then 0 else g.subPairs + 1
      pairs := g.pairs + 1, sumV := g.sumV + v, sumI := g.sumI + i, sumP := g.sumP + v * i }

def execFmSample (s : Sample) (st : State) : Host.Outcome State Fault Refusal := onFenmal (Fenmal.sample s) st

/-- A bitstream held at one level: 0 voltage, else current (R451). -/
def Fenmal.modStuck (channel : Nat) (f : Fenmal) : Fenmal :=
  if !f.powered then f
  else (if channel = 0 then { f with stuckV := true } else { f with stuckI := true }).setCondition 2 evModFault true

def execFmModStuck (channel : Nat) (s : State) : Host.Outcome State Fault Refusal := onFenmal (Fenmal.modStuck channel) s

def Fenmal.clockFault (departs : Bool) (f : Fenmal) : Fenmal := if !f.powered then f else f.setCondition 3 evClockFault departs

def execFmClockFault (departs : Bool) (s : State) : Host.Outcome State Fault Refusal := onFenmal (Fenmal.clockFault departs) s

/-! ### Snapshots (R455) -/

/-- A log entry's 32 bytes (R453). -/
def FmEntry.bytes (e : FmEntry) : Bytes :=
  leBytes 4 e.seq ++ leBytes 4 e.sealCount ++ leBytes 1 e.event ++ leBytes 7 e.count ++ leBytes 8 e.imported
    ++ leBytes 8 e.seconds

/-- The words of the latest sixteen entries, oldest first. -/
def Fenmal.tailWords (f : Fenmal) : List Nat :=
  let b := (f.log.drop (f.log.length - 16)).flatMap FmEntry.bytes
  (List.range 64).map fun i => leAt b (8 * i) 8

/-- The 96 words of a snapshot numbered `seq` (R455). -/
def Fenmal.words (f : Fenmal) (seq : Nat) : List Nat :=
  let r := f.regs
  [seq, r.imported, r.exported,
   bitsOf 32 (Config.fmMean (1000 * f.sumV) (voltUnits * f.pairs))
     + 2 ^ 32 * bitsOf 32 (Config.fmMean (1000 * f.sumI) (ampUnits * f.pairs)),
   bitsOf 32 (Config.fmMean (1000 * f.sumP) (voltUnits * ampUnits * f.pairs)) + 2 ^ 32 * f.statusWord,
   r.sealCount + 2 ^ 32 * (Config.fmVersion % 2 ^ 32), Config.fmLegalId % 2 ^ 32 + 2 ^ 32 * f.log.length, r.seconds]
  ++ (List.range 16).map (fun t => r.tenants.getD t 0) ++ [r.unapportioned, r.periods] ++ List.replicate 6 0 ++ f.tailWords

/-- Close a snapshot: numbered, formed and saved (R452, R455). -/
def Fenmal.closeSnapshot (f : Fenmal) : Fenmal :=
  if !f.powered || decide (f.pairs < 8000) then f
  else
    let seq := wrapAdd 64 f.regs.snapSeq 1
    let regs := { f.regs with snapSeq := seq }
    { f with regs := regs, saved := regs, snapshot := f.words seq, snaps := f.snaps + 1, pairs := 0, sumV := 0, sumI := 0
             sumP := 0 }

def execFmSnapshotClose (s : State) : Host.Outcome State Fault Refusal := onFenmal Fenmal.closeSnapshot s

/-! ### Apportionment (R460) -/

/-- Tenant `t`'s share of `e` for `u` of `total` units. -/
def apportion (e total : Nat) : List Nat → List Nat → List Nat
  | t :: ts, u :: us => (t + e * u / total) :: apportion e total ts us
  | ts, _ => ts

/-- Close an apportionment period. -/
def Fenmal.closePeriod (f : Fenmal) : Fenmal :=
  if !f.powered || decide (f.snaps < 10) then f
  else
    let e := f.regs.imported - f.regs.periodStart
    let total := sumNat f.work
    let tenants := apportion e total f.regs.tenants f.work
    let given := sumNat tenants - sumNat f.regs.tenants
    { f with
      regs := { f.regs with tenants := tenants, unapportioned := f.regs.unapportioned + (e - given)
                            periods := wrapAdd 64 f.regs.periods 1, periodStart := f.regs.imported }
      work := List.replicate 16 0, snaps := 0 }

def execFmPeriodClose (s : State) : Host.Outcome State Fault Refusal := onFenmal Fenmal.closePeriod s

/-- A work report is taken and fw_ack toggles (R459). -/
def Fenmal.takeReport (tenant units : Nat) (f : Fenmal) : Fenmal :=
  if !f.powered then f else { f with work := modAt f.work (tenant % 16) (· + units % 65536), ack := !f.ack }

def execFmWorkReportTake (tenant work : Nat) (s : State) : Host.Outcome State Fault Refusal :=
  onFenmal (Fenmal.takeReport tenant work) s

/-! ### Power (R452, R461) -/

/-- A fall of fm_aux_good. -/
def Fenmal.auxFall (f : Fenmal) : Fenmal :=
  if !f.powered then f else { f.logEvent evPowerDown with saved := f.regs, powered := false }

def execFmAuxFall (s : State) : Host.Outcome State Fault Refusal := onFenmal Fenmal.auxFall s

/-- A rise of fm_aux_good: the saved registers, everything volatile reset, and POWER_UP. -/
def Fenmal.auxRise (f : Fenmal) : Fenmal :=
  if f.powered then f
  else
    { f with powered := true, regs := f.saved, status := f.status &&& 2 ^ 6, pairs := 0, sumV := 0, sumI := 0, sumP := 0
             snaps := 0, work := List.replicate 16 0, lastV := 0, lastI := 0, stuckV := false, stuckI := false, subPairs := 0
             response := [], ack := false }.logEvent evPowerUp

def execFmAuxRise (s : State) : Host.Outcome State Fault Refusal := onFenmal Fenmal.auxRise s

/-! ### Seal and service port (R452, R454) -/

/-- A change of fm_seal_n. -/
def Fenmal.sealChange (opened : Bool) (f : Fenmal) : Fenmal :=
  if !f.powered || f.sealOpen == opened then f
  else { f with sealOpen := opened }.logEvent (if opened then evSealOpened else evSealClosed)

def execFmSealChange (opened : Bool) (s : State) : Host.Outcome State Fault Refusal := onFenmal (Fenmal.sealChange opened) s

/-- READ_SNAPSHOT: the word, most significant byte first. -/
def Fenmal.readSnapshot (word : Nat) (f : Fenmal) : Fenmal :=
  if !f.powered then f
  else { f with response := beBytes 8 ((f.snapshot[word]?).getD (Config.fmNoWord word)) }

def execFmReadSnapshot (word : Nat) (s : State) : Host.Outcome State Fault Refusal := onFenmal (Fenmal.readSnapshot word) s

/-- READ_LOG: the entry of that number, and note that it has been read. -/
def Fenmal.readLog (entry : Nat) (f : Fenmal) : Fenmal :=
  if !f.powered then f
  else
    match f.log[entry]? with
    | some e => { f with response := e.bytes, readEntries := insertNat f.readEntries entry }
    | none => { f with response := leBytes 32 (Config.fmNoEntry entry) }

def execFmReadLog (entry : Nat) (s : State) : Host.Outcome State Fault Refusal := onFenmal (Fenmal.readLog entry) s

/-- WRITE_CAL is accepted (R452, R454). -/
def Fenmal.calAllowed (f : Fenmal) : Bool :=
  f.sealOpen && decide (8 ≤ f.free) && decide (f.regs.sealCount < 0xFFFFFFFF)

/-- A signed 32-bit argument. -/
def signed32 (i : Int) : Int := signedOf 32 (bitsOf 32 i)

def Fenmal.writeCal (vo vg io ig : Int) (f : Fenmal) : Fenmal :=
  if !f.powered then f
  else if f.calAllowed then
    { ({ f with regs := { f.regs with vOffset := signed32 vo, vGain := signed32 vg, iOffset := signed32 io
                                      iGain := signed32 ig, sealCount := f.regs.sealCount + 1 } }.logEvent evCalChanged)
      with response := [0] }
  else { f with response := [1] }

def execFmWriteCal (vOffset vGain iOffset iGain : Int) (s : State) : Host.Outcome State Fault Refusal :=
  onFenmal (Fenmal.writeCal vOffset vGain iOffset iGain) s

/-- CLEAR_LOG is accepted: seal open and every entry read since the last clear. -/
def Fenmal.clearAllowed (f : Fenmal) : Bool :=
  f.sealOpen && ((List.range f.log.length).all fun i => f.readEntries.contains i) && decide (f.regs.sealCount < 0xFFFFFFFF)

def Fenmal.clearLog (f : Fenmal) : Fenmal :=
  if !f.powered then f
  else if f.clearAllowed then
    { ({ f with log := [], readEntries := [], status := f.status - (f.status &&& 2 ^ 6)
                regs := { f.regs with sealCount := f.regs.sealCount + 1 } }.append evLogCleared) with response := [0] }
  else { f with response := [1] }

def execFmClearLog (s : State) : Host.Outcome State Fault Refusal := onFenmal Fenmal.clearLog s

/-! ### The core's side (R456 to R459) -/

/-- The tenants from `t` on, in round-robin order. -/
def roundRobin (t : Nat) : List Nat := (List.range 16).map fun i => (t + i) % 16

/-- The report to send next: the first tenant in turn with units, and at most 65,535 of them. -/
def Work.next (w : Work) : Option (Nat × Nat) :=
  ((roundRobin w.nextTenant).find? fun t => w.acc.getD t 0 != 0).map fun t => (t, min (w.acc.getD t 0) 65535)

/-- Send a work report: one at a time (R459). -/
def Alesh.sendWork (a : Alesh) : Alesh :=
  if a.ctl.core == .reset || a.work.flight.isSome then a
  else
    match a.work.next with
    | none => a
    | some (t, u) =>
      { a with work := { a.work with flight := some (t, u), req := !a.work.req, nextTenant := (t + 1) % 16 } }.wrapN
        O.WORK_REPORTED u

def execWorkReportSend (s : State) : Host.Outcome State Fault Refusal := onCore Alesh.sendWork s

/-- fw_ack: the reported units leave the accumulator. -/
def Alesh.reportAcked (a : Alesh) : Alesh :=
  match a.work.flight with
  | none => a
  | some (t, u) => { a with work := { a.work with flight := none, acc := modAt a.work.acc t (· - u) } }

def execWorkReportAck (s : State) : Host.Outcome State Fault Refusal := onCore Alesh.reportAcked s

/-- Install a snapshot in the mirror (R456). -/
def Alesh.install (a : Alesh) (w : List Nat) : Alesh :=
  let g (i : Nat) : Nat := w.getD i 0
  let b := ((((a.setNum O.FM_SNAP_SEQ (g 0)).setNum O.FM_E_IMPORT (g 1)).setNum O.FM_E_EXPORT (g 2)).setNum O.FM_V_MEAN
    (bf (g 3) 0 32)).setNum O.FM_I_MEAN (bf (g 3) 32 32)
  let c := ((((b.setNum O.FM_P_MEAN (bf (g 4) 0 32)).setNum O.FM_STATUS (bf (g 4) 32 16)).setNum O.FM_SEAL_COUNT
    (bf (g 5) 0 32)).setNum O.FM_VERSION (bf (g 5) 32 32)).setNum O.FM_LEGAL_ID (bf (g 6) 0 32)
  let d := (c.setNum O.FM_LOG_COUNT (bf (g 6) 32 16)).setNum O.FM_OPERATING_S (g 7)
  let e := (List.range 16).foldl (fun x t => x.setNum (O.FM_E_TENANT + t) (g (8 + t))) d
  ((e.setNum O.FM_E_UNAPPORTIONED (g 24)).setNum O.FM_PERIODS (g 25)).setDom O.FM_LOG_TAIL
    ((w.drop 32).flatMap fun x => leBytes 8 x)

/-- A readout: the whole snapshot, installed in one cclk; a new number ends staleness (R456, R457). -/
def Alesh.readout (now : Nat) (w : List Nat) (a0 : Alesh) : Alesh :=
  let a := a0.at now
  if a.ctl.core == .reset then a
  else if a.num O.FM_SNAP_SEQ = w.getD 0 0 then a.install w
  else
    let b := (a.install w).setNum O.FM_MIRROR_STALE 0
    { b with work := { b.work with installed := b.now } }

def execFmReadout (now : Nat) (s : State) : Host.Outcome State Fault Refusal :=
  .next (if s.fenmal.powered then { s with alesh := s.alesh.readout now s.fenmal.snapshot } else s)

/-- One second without a new snapshot (R457). -/
def Alesh.mirrorStale (now : Nat) (a0 : Alesh) : Alesh :=
  let a := a0.at now
  if a.ctl.core != .reset && a.due (a.work.installed + 1000000000) then a.setNum O.FM_MIRROR_STALE 1 else a

def execFmMirrorStaleTimeout (now : Nat) (s : State) : Host.Outcome State Fault Refusal := onCore (Alesh.mirrorStale now) s

end Sys2Proof.Machine
end

