-- ==== Sys2Proof/Machine/Timers.lean ====
section
/-! DEFINITION. The first valid capture: every deadline that the captured value has passed expires, in the order of R197
(R438, R397). -/
namespace Sys2Proof.Machine

/-- The result of the MEMB_INSTALL that waited goes back on its path (R367). -/
def Alesh.answerWait (a : Alesh) : Alesh :=
  match a.memb.waitVia with
  | some (via, wide) => conclude via O.MEMB_INSTALL wide (.ok, { a with memb := { a.memb with waitVia := none } })
  | none => a
/-- The certificate that waited for a valid time is adopted, and those held behind it (R397). -/
def Alesh.adoptWaiting (a : Alesh) : Alesh :=
  match a.memb.waitTime with
  | some (c, installed) => ((({ a with memb := { a.memb with waitTime := none } }).adopt c installed).answerWait).drainHeld 5
  | none => a

/-- The timers of the ports, the links and the peers that run in a state, each with what its expiry does. -/
def Alesh.portTimers (a : Alesh) : List (Alesh → Alesh) :=
  let t := a.now
  (a.ports.opened.map fun o => Alesh.gapTimeout t o.port o.vc)
    ++ (a.ports.opened.flatMap fun o => if o.kind = 0 then (a.missing o.src o.vc o.pseq).map fun q => Alesh.pseqLost t o.src o.vc q else [])
    ++ (a.memb.members.map fun n => Alesh.creditLease t n) ++ (a.memb.members.map fun n => Alesh.peerVoid t n)
    ++ ((a.ports.queue.filter needsPeer).map fun p => Alesh.peerWait t p.dst p.vc)
/-- The timers of the commit protocol, reduction, takeover and striping. -/
def Alesh.stateTimers (a : Alesh) : List (Alesh → Alesh) :=
  let t := a.now
  (a.coding.own.map fun x => Alesh.ackTimeout t x.holder x.seq) ++ [Alesh.reportResend t]
    ++ (a.take.rebuilds.flatMap fun r => r.asked.map fun q => Alesh.fragTimeout t q.1)
    ++ ((List.range a.take.rebuilds.length).map fun i => Alesh.degradedRetry t i)
    ++ (a.take.retainTakes.map fun r => Alesh.retainTakeResend t r.1) ++ [Alesh.announceResend t]
/-- The timers of membership, leases, commencement and in-band requests. -/
def Alesh.controlTimers (a : Alesh) : List (Alesh → Alesh) :=
  let t := a.now
  (a.memb.occults.map fun o => Alesh.occultResend t o.1) ++ [Alesh.beacons t] ++ (a.memb.heard.map fun h => Alesh.beaconMiss t h.1)
    ++ (a.leases.flatMap fun l => [Alesh.leaseRenewDue t l.kind, Alesh.leaseTakeDue t l.kind, Alesh.leaseActStart t l.kind])
    ++ [Alesh.leaseReportResend t, Alesh.commenceAgain, Alesh.groupAgain, Alesh.treeAgain, Alesh.startAgain, Alesh.commTimeout]
    ++ (a.mgmt.asked.map fun q b => b.dictResend q.dst q.reqId) ++ [Alesh.orderAgain]
    ++ (a.mgmt.stored.map fun s => Alesh.storeExpiry t s.src s.reqId)
/-- The timers of Plates, the fabric, health and the metering mirror. -/
def Alesh.otherTimers (a : Alesh) : List (Alesh → Alesh) :=
  let t := a.now
  [Alesh.cutResend t, Alesh.drainedResend t, Alesh.abortResend t]
    ++ (a.plate.extents.zipIdx.map fun x => Alesh.plateRetry t x.1.gsid x.2)
    ++ (a.fabric.reqs.map fun r => Alesh.faTimeout t r.tag) ++ (a.fabric.restTags.map fun r => Alesh.tagExpiry t r.1)
    ++ (a.fabric.atomics.map fun x => Alesh.atomicExpiry t x.1 x.2.1) ++ [Alesh.thermCheck, Alesh.mirrorStale t]
/-- Every timer, started as the state stands; each expires only where its deadline has passed. -/
def Alesh.expireTimers (a : Alesh) : Alesh :=
  (a.portTimers ++ a.stateTimers ++ a.controlTimers ++ a.otherTimers).foldl (fun (b : Alesh) (f : Alesh → Alesh) => f b) a

/-- The leases whose holder left while no lease could be taken (R227, R438). -/
def Alesh.leasesAgain (a : Alesh) : Alesh := if a.inJob then a.adoptLeases else a
/-- Adoption, the leases that no member holds, the timers, then the start of the job and the release of a Meridian; the root may now set the start. -/
def Alesh.expireAll (a : Alesh) : Alesh := (((((a.adoptWaiting).leasesAgain).expireTimers).commLaunch).tryJobStart).meridianRelease
/-- TIME_BECOMES_VALID. -/
def Alesh.becomesValid (count : Nat) (a : Alesh) : Alesh :=
  let b := a.timeValid count
  if a.clock.valid || !b.clock.valid || b.ctl.core == .reset then b else b.expireAll
def execTimeBecomesValid (count : Nat) (s : State) : Host.Outcome State Fault Refusal := onCore (Alesh.becomesValid count) s

end Sys2Proof.Machine
end

