-- ==== Sys2Proof/Machine/Flit.lean ====
section
/-! DEFINITION. A flit arrives on a fabric port: framing, link credit, and the packet that its eop completes (R415 to R418,
R421 to R423). -/
namespace Sys2Proof.Machine

/-! ### What a whole packet is (R176, R308, R416, R420) -/

/-- The packet that the bytes of a kind spell. -/
def packetOf (kind vc : Nat) (b : Bytes) : Pkt :=
  if kind = 0 then
    let w := leAt b 0 16
    { kind := 0, vc := vc, version := bf w 124 4, typ := bf w 120 4, src := bf w 102 18, dst := bf w 84 18, route := bf w 68 16
      memb := bf w 64 4, args := bf w 0 64, payload := b.drop 16 }
  else if kind = 1 then
    let w := leAt b 0 32
    { kind := 1, vc := vc, version := bf w 252 4, typ := bf w 248 4, src := bf w 222 18, dst := bf w 204 18, route := 0, memb := 0
      args := w, payload := b.drop 32 }
  else
    { kind := 2, vc := vc, version := 1, typ := 0, src := bf (leAt b 0 4) 0 18, dst := bf (leAt b 4 4) 0 18, route := 0, memb := 0
      args := leAt b 0 128, payload := [] }
/-- The kind is known, and fits the channel and the length. -/
def OpenRx.fits (o : OpenRx) : Bool :=
  if o.kind = 0 then decide (o.vc ≤ 4) && decide (16 ≤ o.len)
  else if o.kind = 1 then decide (5 ≤ o.vc) && decide (o.vc ≤ 7) && decide (32 ≤ o.len)
  else o.kind == 2 && o.vc == 0 && o.len == 128
/-- A packet survives the checks at its eop: whole, unbroken, and not at the end of its time (R416, R423). -/
def Alesh.survives (a : Alesh) (o : OpenRx) (err : Bool) : Bool :=
  !err && !o.bad && o.flits == ceilDiv o.len 128 && o.fits && !a.gapOver o

/-! ### What a packet does: the commands of its type and subtype (R177, R182 to R188, R217, R230, R257, R308) -/

/-- A reserved type or subtype, or an ARGS field outside its range (R178). -/
def malformedPkt (now : Nat) (s : State) : Host.Outcome State Fault Refusal :=
  onCore (fun a0 => let a := a0.at now; if a.listens then a.malformed else a) s
def deliverHello (now : Nat) (m : Pkt) (s : State) : Host.Outcome State Fault Refusal :=
  let sub := bf m.args 60 4
  if sub = hBeacon then execHelloBeaconRx now m s
  else if sub = hArrive then execHelloArriveRx now m s
  else if sub = hRelease then execHelloReleaseRx now m s
  else if sub = hCommence then execCommenceRx now m s
  else if sub = hCommAck then
    if leAt m.payload 4 1 = 0 then execCommenceAckTreeRx now m s else execCommenceAckGroupRx now m s
  else malformedPkt now s
def deliverGrant (now : Nat) (m : Pkt) (s : State) : Host.Outcome State Fault Refusal :=
  let sub := bf m.args 60 4
  if sub = gBuild then execExtBuildRx now m s
  else if sub = gActivate then execExtActivateRx now m s
  else if sub = gWithdraw then execExtWithdrawRx now m s
  else if sub = gCancel then execExtCancelRx now m s
  else if sub = 4 then execGrantMembershipRx now m s
  else if sub = 5 then execMembPullRx now m s
  else if sub = gRestripeBuild then execRestripeBuildRx now m s
  else if sub = gRestripeSwitch then execRestripeSwitchRx now m s
  else malformedPkt now s
def deliverLease (now : Nat) (m : Pkt) (s : State) : Host.Outcome State Fault Refusal :=
  let x := LeaseArgs.ofNat m.args
  if x.action = 0 then execLeaseRenewRx now m s
  else if x.action = 1 then execLeaseTakeRx now m s
  else if x.action = 2 then execLeaseReleaseRx now m s
  else if x.action = 3 then execLeaseReportRx now m s
  else malformedPkt now s
def deliverMark (now : Nat) (m : Pkt) (s : State) : Host.Outcome State Fault Refusal :=
  let sub := bf m.args 60 4
  if sub = pCut then execCutRx now m s
  else if sub = pCutAck then execCutAckRx now m s
  else if sub = pDrained then execDrainedRx now m s
  else if sub = pSealed then execSealedRx now m s
  else if sub = pAbort then execPlateAbortRx now m s
  else malformedPkt now s
def deliverCommit (now : Nat) (m : Pkt) (s : State) : Host.Outcome State Fault Refusal :=
  if bf m.args 16 8 = 0 then execCommitRx now m s
  else if bf m.args 16 8 = 1 then execAbandonRx now m s
  else malformedPkt now s
/-- A DICT request performs its access; a response ends its request's resends (R445). -/
def deliverDict (now : Nat) (m : Pkt) (s : State) : Host.Outcome State Fault Refusal :=
  if m.args.testBit 63 then execDictResponseRx now m s else onCore (Alesh.dictRequest now m) s
/-- TYPE DELTA carries a base page or a slot's copy where its length is that of one, which no delta has (log entry 33). -/
def deliverDelta (now : Nat) (m : Pkt) (s : State) : Host.Outcome State Fault Refusal :=
  if m.payload.length = 16 + pageBytes ∨ m.payload.length = copyBytes then execBasePageRx now m s else execDeltaRx now m s
def deliverCresol (now : Nat) (m : Pkt) (s : State) : Host.Outcome State Fault Refusal :=
  if m.typ = tHello then deliverHello now m s
  else if m.typ = tDelta then deliverDelta now m s
  else if m.typ = tHoldAck then execHoldAckRx now m s
  else if m.typ = tCommit then deliverCommit now m s
  else if m.typ = tFragReq then execFragReqRx now m s
  else if m.typ = tFragData then execFragDataRx now m s
  else if m.typ = tPart then execPartRx now m s
  else if m.typ = tRetainRel then execRetainRelRx now m s
  else if m.typ = tLease then deliverLease now m s
  else if m.typ = tOccult then execOccultRx now m s
  else if m.typ = tPlateMark then deliverMark now m s
  else if m.typ = tGrant then deliverGrant now m s
  else if m.typ = tDict then deliverDict now m s
  else malformedPkt now s
/-- A reserved OP is malformed (R309). -/
def malformedFabric (now : Nat) (s : State) : Host.Outcome State Fault Refusal :=
  onCore (fun a0 => let a := a0.at now; if a.listens then a.count O.FA_MALFORMED_COUNT else a) s
def deliverFabric (now : Nat) (m : Pkt) (s : State) : Host.Outcome State Fault Refusal :=
  if m.typ = 7 ∨ m.typ = 15 then malformedFabric now s
  else if 8 ≤ m.typ then execFabricResponseRx now m s
  else if m.typ = opLoad then execFabricLoadRx now m s
  else if m.typ = opStore then execFabricStoreRx now m s
  else if m.typ = opAtomic then execFabricAtomicRx now m s
  else if m.typ = opBulkRead then execBulkReadRx now m s
  else if m.typ = opBulkWrite then execBulkWriteRx now m s
  else if m.typ = opInval then execInvalRx now m s
  else execCheckPutRx now m s
/-- A whole packet takes effect. -/
def deliver (now : Nat) (m : Pkt) (s : State) : Host.Outcome State Fault Refusal :=
  if m.kind = 0 then deliverCresol now m s
  else if m.kind = 1 then deliverFabric now m s
  else execCreditPacketRx now m s

/-! ### Flits -/

/-- The node that sent the packet being received, where its first flit says so. -/
def OpenRx.from? (o : OpenRx) : Option Nat :=
  if o.kind = 0 then some o.src else if o.kind = 1 then some (bf (leAt o.bytes 0 32) 222 18) else none
/-- The packet that a flit opens or continues; none where it belongs to no packet. -/
def Alesh.flitPacket (a : Alesh) (port : Nat) (f : Flit) (credit : Bool) : Option OpenRx :=
  let b := slice f.bytes 0 128
  if f.sop then
    some { port := port, vc := f.vc, kind := f.kind, len := f.len, pseq := f.pseq, bytes := b, flits := 1, since := a.now, bad := !credit }
  else
    (a.ports.opened.find? fun o => o.port == port && o.vc == f.vc).map fun o =>
      ({ o with bytes := o.bytes ++ b, flits := o.flits + 1, bad := o.bad || !credit } : OpenRx)
/-- Take a flit: the state after it, and the packet that it completes. -/
def Alesh.flitIn (now port : Nat) (f : Flit) (a0 : Alesh) : Alesh × Option Pkt :=
  let a := (a0.at now).returnCredits
  if !a.ctl.upF || !a.linkIsUp port || decide (7 < f.vc) then (a, none)
  else
    let c := lookupD 0 a.ports.rxCredit (lane port f.vc)
    -- a sop while a packet is open: that packet is broken
    let b := match (if f.sop then a.ports.opened.find? fun o => o.port == port && o.vc == f.vc else none) with
      | some o => a.discardOpen o []
      | none => a
    -- a flit with credit takes a place of the buffer and leaves it at once: its credit is due back
    let d : Alesh := { b with ports := { b.ports with
      rxCredit := assign b.ports.rxCredit (lane port f.vc) (c - 1)
      kept := assign b.ports.kept (lane port f.vc) (lookupD 0 b.ports.kept (lane port f.vc) + if c = 0 then 0 else 1) } }
    match d.flitPacket port f (decide (0 < c)) with
    | none => (d.count O.FP_RX_DISCARD_COUNT, none)
    | some o =>
      let d1 := d.addWork (d.flitTenant o.kind (leAt o.bytes 0 32) false) 1
      let e := match o.from? with
        | some n => d1.flitFrom n
        | none => d1
      let rest := e.ports.opened.filter fun x => !(x.port == port && x.vc == f.vc)
      if !f.eop then ({ e with ports := { e.ports with opened := rest ++ [o] } }, none)
      else if e.survives o f.err then
        let g : Alesh := { e with ports := { e.ports with opened := rest } }
        (if o.kind = 0 then g.complete o.src o.vc [o.pseq] else g, some (packetOf o.kind o.vc (slice o.bytes 0 o.len)))
      else (e.discardOpen o (if e.gapOver o then e.missing o.src o.vc o.pseq else []), none)
/-- The outcome of a delivery, with the link credit that it lets return. -/
def thenCredits (o : Host.Outcome State Fault Refusal) : Host.Outcome State Fault Refusal :=
  match o with
  | .next t => .next { t with alesh := t.alesh.returnCredits }
  | x => x
/-- FABRIC_FLIT_RX. -/
def execFabricFlitRx (now port : Nat) (f : Flit) (s : State) : Host.Outcome State Fault Refusal :=
  let r := s.alesh.flitIn now port f
  let t : State := { s with alesh := r.1 }
  match r.2 with
  | some m => thenCredits (deliver now m t)
  | none => thenCredits (.next t)

end Sys2Proof.Machine
end

