-- ==== Sys2Proof/Machine/Phases.lean ====
section
/-! DEFINITION. The phases of the preconditioner array (R113 to R118). -/
namespace Sys2Proof.Machine

/-- The reduced gradients of every target slice of an entry are complete. -/
def Alesh.targetReady (a : Alesh) (en : PcEntry) (e : Nat) : Bool :=
  (a.layerRuns en.target).all fun r =>
    decide (r.first + r.count ≤ en.base) || decide (en.base + en.rows * en.cols ≤ r.first) || (a.grad? r.gsid e).isSome

def Alesh.targetGrad (a : Alesh) (en : PcEntry) (e q : Nat) : F32 :=
  match a.locate (en.base + q) with
  | some (g, j) => ((a.grad? g e).getD []).getD j Fp.posZero
  | none => Fp.posZero

/-- Field `f` of the q-th record of a layer, at epoch `e` or the epoch before. -/
def Alesh.layerVal (a : Alesh) (layer f e q : Nat) : F32 :=
  match runAt (a.layerRuns layer) q with
  | some (g, j) => (a.liveVals g j e).getD f Fp.posZero
  | none => Fp.posZero

/-- The live pages that hold a layer's records, and the header pages that hold their exponents. -/
def Alesh.layerPages (a : Alesh) (layer : Nat) : List (Nat × Nat) :=
  (a.layerRuns layer).flatMap fun r =>
    let lo := a.recordByte r.gsid r.pos / pageBytes
    let hi := (a.recordByte r.gsid (r.pos + r.count - 1) + a.recBytes - 1) / pageBytes
    ((List.range (hi + 1 - lo)).map fun i => (r.gsid, lo + i)) ++ a.expPages r.gsid
/-- The pages of an entry's statistic layers. -/
def Alesh.statPages (a : Alesh) (en : PcEntry) : List (Nat × Nat) :=
  a.layerPages en.statL ++ if en.mode = 2 then [] else a.layerPages en.statR
/-- The pages of the statistic layers that phase 4 reads in pending slots: checked, and recomputed where they fail (R401). -/
def Alesh.freshStats (a : Alesh) (en : PcEntry) : Alesh :=
  (a.statPages en).foldl (fun (b : Alesh) (p : Nat × Nat) => match (b.prog? p.1).bind (·.upd) with
    | some up => if (b.writtenPages p.1 up.epoch).contains p.2 then b.freshPending p.1 up.slot p.2 else b
    | none => b) a
/-- Those pending pages can be read: a recomputation may itself wait for a live page. -/
def Alesh.freshReady (a : Alesh) (en : PcEntry) : Bool :=
  (a.statPages en).all fun p => match (a.prog? p.1).bind (·.upd) with
    | some up => !(a.writtenPages p.1 up.epoch).contains p.2 || a.pageGood p.1 up.slot p.2
    | none => true

/-- Header pages with an exponent of the entry's statistic layers outside its range (R70). -/
def Alesh.statBadExps (a : Alesh) (en : PcEntry) : List Nat :=
  ((a.layerRuns en.statL ++ if en.mode = 2 then [] else a.layerRuns en.statR).flatMap fun r => a.badExps r.gsid).eraseDups
/-- Go on once the pages of the statistic layers can be read and their exponents lie in range (R47, R70). -/
def Alesh.withStats (a : Alesh) (en : PcEntry) (k : Alesh) : Alesh :=
  a.withPages uPrecond (a.statPages en) (if (a.statBadExps en).isEmpty then k else a.damageExps uPrecond (a.statBadExps en))
/-- What a run of the array counts beside its values: the cycles in which it froze (R109), and the SRAM words that SECDED
corrected, in class CE (R323). Both are free values (log entry 65). -/
def Alesh.arrayRan (a : Alesh) : Alesh :=
  let ce := Config.freeCorrected a.ctl.draws
  let b := ({ a with ctl := { a.ctl with draws := a.ctl.draws + 1 } }).wrapN O.PC_FREEZE_COUNT (Config.freeFrozen a.ctl.draws)
  { b with health := { b.health with now := { b.health.now with ce := b.health.now.ce + ce } } }

/-- Phase 1: the statistic increments; the roots held are noted, since the statistics may now be updated (R113, R115, R118). -/
def Alesh.statIncrement (k : Nat) (a : Alesh) : Alesh :=
  let e := a.inProgress
  match a.pcTable[k]? with
  | none => a
  | some en =>
    if a.pcRunning && a.targetReady en e && !a.phaseDone k e 1 then
      let inc := pcIncrements en (a.targetGrad en e)
      let c := en.statCounts
      let b := ((a.arrayRan).addPc k e 0 inc.1).addPc k e 1 inc.2
      if en.mode = 0 then b.setPhase k e 1
      else a.withStats en <|
        ((b.addPc k e 7 ((List.range c.1).map (a.layerVal en.statL 1 (e - 1)))).addPc k e 8
          ((List.range c.2).map (a.layerVal en.statR 1 (e - 1)))).setPhase k e 1
    else a

def execPcStatIncrement (entry : Nat) (s : State) : Host.Outcome State Fault Refusal := onCore (Alesh.statIncrement entry) s

/-- S0 and S1 of a statistic layer on a refresh epoch, and how many blocks failed (R116). -/
def Alesh.rootsOf (a : Alesh) (en : PcEntry) (layer e : Nat) : List F32 × List F32 × Nat :=
  let n := en.d * en.d
  let rs := (List.range en.blocks).map fun b => blockRoot en (statBlock en (a.layerVal layer 0 (e - 1)) b)
  (rs.flatMap fun r => match r with | some m => m.flatten | none => List.replicate n Fp.posZero,
   rs.flatMap fun r => List.replicate n (if r.isSome then Fp.one else Fp.posZero), (rs.filter Option.isNone).length)

/-- Phase 2: the inverse roots, on a refresh epoch of a BLOCK or VECTOR entry (R116). PC_ROOT_FAIL counts the runs that fail:
under BLOCK the left and the right matrix of a block have one each, so a block that fails on both sides counts two (DEDUCED,
log entry 53). -/
def Alesh.root (k : Nat) (a : Alesh) : Alesh :=
  let e := a.inProgress
  match a.pcTable[k]? with
  | none => a
  | some en =>
    if a.pcRunning && en.mode != 0 && en.isRefresh e && a.phaseDone k e 1 && !a.phaseDone k e 2 then
      a.withStats en <|
      let l := a.rootsOf en en.statL e
      let b := ((a.arrayRan).addPc k e 2 l.1).addPc k e 3 l.2.1
      let c :=
        if en.mode = 1 then
          let r := a.rootsOf en en.statR e
          ((b.addPc k e 4 r.1).addPc k e 5 r.2.1).countN O.PC_ROOT_FAIL (l.2.2 + r.2.2)
        else b.countN O.PC_ROOT_FAIL l.2.2
      c.setPhase k e 2
    else a

def execPcRoot (entry : Nat) (s : State) : Host.Outcome State Fault Refusal := onCore (Alesh.root entry) s

/-- The slices of a statistic layer have been updated at `e`, or count as committed (R118, phase 3). -/
def Alesh.layerUpdated (a : Alesh) (layer e : Nat) : Bool :=
  (a.layerRuns layer).all fun r =>
    a.committed r.gsid e || (((a.prog? r.gsid).bind fun p => p.upd).map fun u => u.epoch == e && u.todo.isEmpty).getD false

/-- The root of the q-th statistic record at `e`: the one that the refresh produced, or the root held (R117). -/
def Alesh.rootAt (a : Alesh) (k : Nat) (en : PcEntry) (side e q : Nat) : F32 :=
  let held := ((a.pcOut? k e (7 + side)).getD []).getD q Fp.posZero
  let layer := if side = 0 then en.statL else en.statR
  if en.isRefresh e && ((a.pcOut? k e (3 + 2 * side)).getD []).getD q Fp.posZero == Fp.one then
    match runAt (a.layerRuns layer) q with
    | some (g, j) =>
      if ((a.marks? g e).getD []).contains (a.recPage g j) then held
      else ((a.pcOut? k e (2 + 2 * side)).getD []).getD q Fp.posZero
    | none => held
  else held

/-- Phase 4: the target's S0 (R114, R117), after phases 1 to 3 (R118). -/
def Alesh.targetS0 (k : Nat) (a : Alesh) : Alesh :=
  let e := a.inProgress
  match a.pcTable[k]? with
  | none => a
  | some en =>
    if a.pcRunning && a.phaseDone k e 1 && (en.mode == 0 || !en.isRefresh e || a.phaseDone k e 2) && !a.phaseDone k e 4 && a.layerUpdated en.statL e
        && (en.mode == 2 || a.layerUpdated en.statR e) then
      let a := a.freshStats en
      a.withStats en <|
      if !a.freshReady en then a else
      let g := a.targetGrad en e
      let stat (layer q : Nat) : F32 :=
        match runAt (a.layerRuns layer) q with
        | some (s, j) => (a.stepVals s j e (e - 1)).getD 0 Fp.posZero
        | none => Fp.posZero
      let v := if en.mode = 0 then pcTarget en g (stat en.statL) (stat en.statR)
        else pcTarget en g (a.rootAt k en 0 e) (a.rootAt k en 1 e)
      ((a.arrayRan).addPc k e 6 v).setPhase k e 4
    else a

def execPcTargetS0 (entry : Nat) (s : State) : Host.Outcome State Fault Refusal := onCore (Alesh.targetS0 entry) s

end Sys2Proof.Machine
end

