-- ==== Sys2Proof/Machine/Dispatch.lean ====
section
/-! DEFINITION. One arm per command: each calls its meaning. -/
namespace Sys2Proof.Machine

/-- The effect of a command on everything but the queue. -/
def exec (i : Instr) (s : State) : Host.Outcome State Fault Refusal :=
  match i with
  | .resetAssert d torn => Sys2Proof.Machine.execResetAssert d torn s
  | .tclkResetAssert => Sys2Proof.Machine.execTclkResetAssert s
  | .resetRelease d => Sys2Proof.Machine.execResetRelease d s
  | .initSequence t => Sys2Proof.Machine.execInitSequence t s
  | .calLoad via => Sys2Proof.Machine.execCalLoad via s
  | .unitArm via mask => Sys2Proof.Machine.execUnitArm via mask s
  | .armInitComplete => Sys2Proof.Machine.execArmInitComplete s
  | .unitDisarm via mask => Sys2Proof.Machine.execUnitDisarm via mask s
  | .unitClear via mask => Sys2Proof.Machine.execUnitClear via mask s
  | .jobStop via epoch => Sys2Proof.Machine.execJobStop via epoch s
  | .maintEnter via => Sys2Proof.Machine.execMaintEnter via s
  | .unitDrainComplete u => Sys2Proof.Machine.execUnitDrainComplete u s
  | .tileRetire via tile => Sys2Proof.Machine.execTileRetire via tile s
  | .pcColRetire via col => Sys2Proof.Machine.execPcColRetire via col s
  | .sramUncorrectableError p => Sys2Proof.Machine.execSramUncorrectableError p s
  | .routeChange via now => Sys2Proof.Machine.execRouteChange via now s
  | .membInstall via now => Sys2Proof.Machine.execMembInstall via now s
  | .restoreStart via now => Sys2Proof.Machine.execRestoreStart via now s
  | .plateReturn via now => Sys2Proof.Machine.execPlateReturn via now s
  | .plateReturnDiscardsDone => Sys2Proof.Machine.execPlateReturnDiscardsDone s
  | .tierFlush via tenant => Sys2Proof.Machine.execTierFlush via tenant s
  | .faSubmit via now => Sys2Proof.Machine.execFaSubmit via now s
  | .watchClear via node => Sys2Proof.Machine.execWatchClear via node s
  | .overlaySwitch via arg now => Sys2Proof.Machine.execOverlaySwitch via arg now s
  | .commenceStart via now => Sys2Proof.Machine.execCommenceStart via now s
  | .commenceAbandon via => Sys2Proof.Machine.execCommenceAbandon via s
  | .scrubStart via now => Sys2Proof.Machine.execScrubStart via now s
  | .scrubPage now => Sys2Proof.Machine.execScrubPage now s
  | .evtAck via mask => Sys2Proof.Machine.execEvtAck via mask s
  | .dictWrite r now => Sys2Proof.Machine.execDictWrite r now s
  | .accDataRead r => Sys2Proof.Machine.execAccDataRead r s
  | .mbRead keeper => Sys2Proof.Machine.execMbRead keeper s
  | .mbWrite keeper final now => Sys2Proof.Machine.execMbWrite keeper final now s
  | .mbAbort keeper => Sys2Proof.Machine.execMbAbort keeper s
  | .flagClear via key bits => Sys2Proof.Machine.execFlagClear via key bits s
  | .chronoTailWrite via tail => Sys2Proof.Machine.execChronoTailWrite via tail s
  | .overlayImageWrite via slot image => Sys2Proof.Machine.execOverlayImageWrite via slot image s
  | .regionEntryWrite via value => Sys2Proof.Machine.execRegionEntryWrite via value s
  | .takeoverSetWrite via value => Sys2Proof.Machine.execTakeoverSetWrite via value s
  | .thermMarginWrite via value now => Sys2Proof.Machine.execThermMarginWrite via value now s
  | .thermStaleTimeout now => Sys2Proof.Machine.execThermStaleTimeout now s
  | .plateEnableWrite via value now => Sys2Proof.Machine.execPlateEnableWrite via value now s
  | .tierQuotaWrite via value => Sys2Proof.Machine.execTierQuotaWrite via value s
  | .retireListWrite via value => Sys2Proof.Machine.execRetireListWrite via value s
  | .joinSnapshotWrite via value => Sys2Proof.Machine.execJoinSnapshotWrite via value s
  | .switchOrderWrite src reqId now value => Sys2Proof.Machine.execSwitchOrderWrite src reqId now value s
  | .switchCancel src reqId now value => Sys2Proof.Machine.execSwitchCancel src reqId now value s
  | .accMsgRead m => Sys2Proof.Machine.execAccMsgRead m s
  | .accMsgWrite m now => Sys2Proof.Machine.execAccMsgWrite m now s
  | .accMsgAbort m => Sys2Proof.Machine.execAccMsgAbort m s
  | .dictResponseRx now m => Sys2Proof.Machine.execDictResponseRx now m s
  | .dictResend now dst reqId => Sys2Proof.Machine.execDictResend now dst reqId s
  | .dictStoreExpiry now src reqId => Sys2Proof.Machine.execDictStoreExpiry now src reqId s
  | .mctpPacketRx now p => Sys2Proof.Machine.execMctpPacketRx now p s
  | .setEndpointId src op eid => Sys2Proof.Machine.execSetEndpointId src op eid s
  | .getEndpointId src => Sys2Proof.Machine.execGetEndpointId src s
  | .getMctpVersionSupport src typ => Sys2Proof.Machine.execGetMctpVersionSupport src typ s
  | .getMessageTypeSupport src => Sys2Proof.Machine.execGetMessageTypeSupport src s
  | .getVendorDefinedMessageSupport src selector => Sys2Proof.Machine.execGetVendorDefinedMessageSupport src selector s
  | .enec mask => Sys2Proof.Machine.execEnec mask s
  | .disec mask => Sys2Proof.Machine.execDisec mask s
  | .rstdaa => Sys2Proof.Machine.execRstdaa s
  | .entdaa addr => Sys2Proof.Machine.execEntdaa addr s
  | .setdasa stat addr => Sys2Proof.Machine.execSetdasa stat addr s
  | .setnewda addr => Sys2Proof.Machine.execSetnewda addr s
  | .getpid => Sys2Proof.Machine.execGetpid s
  | .getbcr => Sys2Proof.Machine.execGetbcr s
  | .getdcr => Sys2Proof.Machine.execGetdcr s
  | .getstatus => Sys2Proof.Machine.execGetstatus s
  | .getmwl => Sys2Proof.Machine.execGetmwl s
  | .getmrl => Sys2Proof.Machine.execGetmrl s
  | .setmwl v => Sys2Proof.Machine.execSetmwl v s
  | .setmrl v => Sys2Proof.Machine.execSetmrl v s
  | .pmVoltageAck => Sys2Proof.Machine.execPmVoltageAck s
  | .pmFrequencyAck => Sys2Proof.Machine.execPmFrequencyAck s
  | .timeBecomesValid count => Sys2Proof.Machine.execTimeBecomesValid count s
  | .timeBecomesInvalid now => Sys2Proof.Machine.execTimeBecomesInvalid now s
  | .timeStep now count => Sys2Proof.Machine.execTimeStep now count s
  | .linkUp port => Sys2Proof.Machine.execLinkUp port s
  | .linkDown port => Sys2Proof.Machine.execLinkDown port s
  | .linkRetrain port => Sys2Proof.Machine.execLinkRetrain port s
  | .linkCreditReturn port vc count => Sys2Proof.Machine.execLinkCreditReturn port vc count s
  | .packetTransmit now port => Sys2Proof.Machine.execPacketTransmit now port s
  | .creditPacketRx now m => Sys2Proof.Machine.execCreditPacketRx now m s
  | .peerCreditWait now node vc => Sys2Proof.Machine.execPeerCreditWait now node vc s
  | .peerCreditVoid now node => Sys2Proof.Machine.execPeerCreditVoid now node s
  | .rxPacketGapTimeout now port vc => Sys2Proof.Machine.execRxPacketGapTimeout now port vc s
  | .rxPseqLost now src vc pseq => Sys2Proof.Machine.execRxPseqLost now src vc pseq s
  | .creditLeaseExpiry now node => Sys2Proof.Machine.execCreditLeaseExpiry now node s
  | .mspReadReturn now b => Sys2Proof.Machine.execMspReadReturn now b s
  | .mspWriteResponse b => Sys2Proof.Machine.execMspWriteResponse b s
  | .pageRetireCopyComplete page => Sys2Proof.Machine.execPageRetireCopyComplete page s
  | .contrib token => Sys2Proof.Machine.execContrib token s
  | .releaseToken token => Sys2Proof.Machine.execReleaseToken token s
  | .lsePart token => Sys2Proof.Machine.execLsePart token s
  | .cepTokenOut => Sys2Proof.Machine.execCepTokenOut s
  | .localPartial now item epoch level index => Sys2Proof.Machine.execLocalPartial now item epoch level index s
  | .bundleSend bundle epoch dst => Sys2Proof.Machine.execBundleSend bundle epoch dst s
  | .skipMark gsid => Sys2Proof.Machine.execSkipMark gsid s
  | .normPass now => Sys2Proof.Machine.execNormPass now s
  | .pcStatIncrement entry => Sys2Proof.Machine.execPcStatIncrement entry s
  | .pcRoot entry => Sys2Proof.Machine.execPcRoot entry s
  | .pcTargetS0 entry => Sys2Proof.Machine.execPcTargetS0 entry s
  | .updateStart gsid => Sys2Proof.Machine.execUpdateStart gsid s
  | .skipUnitComplete gsid page tile checkOk => Sys2Proof.Machine.execSkipUnitComplete gsid page tile checkOk s
  | .refRecheckComplete gsid page tile agree => Sys2Proof.Machine.execRefRecheckComplete gsid page tile agree s
  | .deltaSend now gsid page => Sys2Proof.Machine.execDeltaSend now gsid page s
  | .deltaRx now m => Sys2Proof.Machine.execDeltaRx now m s
  | .holdAckRx now m => Sys2Proof.Machine.execHoldAckRx now m s
  | .adoptReportRx now m => Sys2Proof.Machine.execAdoptReportRx now m s
  | .commitRx now m => Sys2Proof.Machine.execCommitRx now m s
  | .abandonRx now m => Sys2Proof.Machine.execAbandonRx now m s
  | .parityFoldComplete src seq => Sys2Proof.Machine.execParityFoldComplete src seq s
  | .ownerAckTimeout now holder seq => Sys2Proof.Machine.execOwnerAckTimeout now holder seq s
  | .adoptReportResend now => Sys2Proof.Machine.execAdoptReportResend now s
  | .partRx now m => Sys2Proof.Machine.execPartRx now m s
  | .headerRootRx now m => Sys2Proof.Machine.execHeaderRootRx now m s
  | .normRx now m => Sys2Proof.Machine.execNormRx now m s
  | .normRootRx now m => Sys2Proof.Machine.execNormRootRx now m s
  | .lseRx now m => Sys2Proof.Machine.execLseRx now m s
  | .lseLocalPartial now merge qblock epoch level index => Sys2Proof.Machine.execLseLocalPartial now merge qblock epoch level index s
  | .lseMergeComplete merge qblock epoch => Sys2Proof.Machine.execLseMergeComplete merge qblock epoch s
  | .bundleRx now m => Sys2Proof.Machine.execBundleRx now m s
  | .retainRelRx now m => Sys2Proof.Machine.execRetainRelRx now m s
  | .publishBlock now layer block => Sys2Proof.Machine.execPublishBlock now layer block s
  | .helloArriveRx now m => Sys2Proof.Machine.execHelloArriveRx now m s
  | .helloReleaseRx now m => Sys2Proof.Machine.execHelloReleaseRx now m s
  | .meridianRelease now => Sys2Proof.Machine.execMeridianRelease now s
  | .jobStart now => Sys2Proof.Machine.execJobStart now s
  | .helloBeaconRx now m => Sys2Proof.Machine.execHelloBeaconRx now m s
  | .beaconPeriod now => Sys2Proof.Machine.execBeaconPeriod now s
  | .beaconMissExpiry now node => Sys2Proof.Machine.execBeaconMissExpiry now node s
  | .grantMembershipRx now m => Sys2Proof.Machine.execGrantMembershipRx now m s
  | .membPullRx now m => Sys2Proof.Machine.execMembPullRx now m s
  | .occultRx now m => Sys2Proof.Machine.execOccultRx now m s
  | .occultResend now node => Sys2Proof.Machine.execOccultResend now node s
  | .leaseRenewRx now m => Sys2Proof.Machine.execLeaseRenewRx now m s
  | .leaseTakeRx now m => Sys2Proof.Machine.execLeaseTakeRx now m s
  | .leaseReleaseRx now m => Sys2Proof.Machine.execLeaseReleaseRx now m s
  | .leaseReportRx now m => Sys2Proof.Machine.execLeaseReportRx now m s
  | .leaseRenewDue now kind => Sys2Proof.Machine.execLeaseRenewDue now kind s
  | .leaseTakeDue now kind => Sys2Proof.Machine.execLeaseTakeDue now kind s
  | .leaseActStart now kind => Sys2Proof.Machine.execLeaseActStart now kind s
  | .leaseReportResend now => Sys2Proof.Machine.execLeaseReportResend now s
  | .extBuildRx now m => Sys2Proof.Machine.execExtBuildRx now m s
  | .extActivateRx now m => Sys2Proof.Machine.execExtActivateRx now m s
  | .extWithdrawRx now m => Sys2Proof.Machine.execExtWithdrawRx now m s
  | .extCancelRx now m => Sys2Proof.Machine.execExtCancelRx now m s
  | .grantAnnounceResend now => Sys2Proof.Machine.execGrantAnnounceResend now s
  | .extSlotCopySend now entry slot => Sys2Proof.Machine.execExtSlotCopySend now entry slot s
  | .basePageSend now gsid page dst row => Sys2Proof.Machine.execBasePageSend now gsid page dst row s
  | .basePageRx now m => Sys2Proof.Machine.execBasePageRx now m s
  | .restripeReadySend now => Sys2Proof.Machine.execRestripeReadySend now s
  | .restripeBuildRx now m => Sys2Proof.Machine.execRestripeBuildRx now m s
  | .restripeDoneSend now => Sys2Proof.Machine.execRestripeDoneSend now s
  | .restripeSwitchRx now m => Sys2Proof.Machine.execRestripeSwitchRx now m s
  | .fragReqRx now m => Sys2Proof.Machine.execFragReqRx now m s
  | .fragDataRx now m => Sys2Proof.Machine.execFragDataRx now m s
  | .rebuildRequest now => Sys2Proof.Machine.execRebuildRequest now s
  | .fragReqTimeout now id => Sys2Proof.Machine.execFragReqTimeout now id s
  | .degradedRetry now id => Sys2Proof.Machine.execDegradedRetry now id s
  | .retainTakeResend now gsid => Sys2Proof.Machine.execRetainTakeResend now gsid s
  | .plateCutAnnounce now => Sys2Proof.Machine.execPlateCutAnnounce now s
  | .plateManifestZeroComplete now => Sys2Proof.Machine.execPlateManifestZeroComplete now s
  | .cutRx now m => Sys2Proof.Machine.execCutRx now m s
  | .cutAckRx now m => Sys2Proof.Machine.execCutAckRx now m s
  | .cutResend now => Sys2Proof.Machine.execCutResend now s
  | .plateSpill slot => Sys2Proof.Machine.execPlateSpill slot s
  | .plateDrainExtent now gsid extent => Sys2Proof.Machine.execPlateDrainExtent now gsid extent s
  | .plateExtentRetry now gsid extent => Sys2Proof.Machine.execPlateExtentRetry now gsid extent s
  | .drainedRx now m => Sys2Proof.Machine.execDrainedRx now m s
  | .drainedResend now => Sys2Proof.Machine.execDrainedResend now s
  | .plateManifestWriteComplete now => Sys2Proof.Machine.execPlateManifestWriteComplete now s
  | .sealedRx now m => Sys2Proof.Machine.execSealedRx now m s
  | .plateAbortRx now m => Sys2Proof.Machine.execPlateAbortRx now m s
  | .plateAbortResend now => Sys2Proof.Machine.execPlateAbortResend now s
  | .fabricLoadRx now m => Sys2Proof.Machine.execFabricLoadRx now m s
  | .fabricStoreRx now m => Sys2Proof.Machine.execFabricStoreRx now m s
  | .fabricAtomicRx now m => Sys2Proof.Machine.execFabricAtomicRx now m s
  | .bulkReadRx now m => Sys2Proof.Machine.execBulkReadRx now m s
  | .bulkWriteRx now m => Sys2Proof.Machine.execBulkWriteRx now m s
  | .invalRx now m => Sys2Proof.Machine.execInvalRx now m s
  | .checkPutRx now m => Sys2Proof.Machine.execCheckPutRx now m s
  | .fabricResponseRx now m => Sys2Proof.Machine.execFabricResponseRx now m s
  | .fabricTimeout now tag => Sys2Proof.Machine.execFabricTimeout now tag s
  | .tagReuseExpiry now tag => Sys2Proof.Machine.execTagReuseExpiry now tag s
  | .atomicTableExpiry now src tag => Sys2Proof.Machine.execAtomicTableExpiry now src tag s
  | .migrationComplete page => Sys2Proof.Machine.execMigrationComplete page s
  | .commenceRx now m => Sys2Proof.Machine.execCommenceRx now m s
  | .commenceAckTreeRx now m => Sys2Proof.Machine.execCommenceAckTreeRx now m s
  | .commenceAckGroupRx now m => Sys2Proof.Machine.execCommenceAckGroupRx now m s
  | .foreignVersionCommenceRx now m => Sys2Proof.Machine.execForeignVersionCommenceRx now m s
  | .commenceResend now => Sys2Proof.Machine.execCommenceResend now s
  | .groupAckResend now => Sys2Proof.Machine.execGroupAckResend now s
  | .treeAckResend now => Sys2Proof.Machine.execTreeAckResend now s
  | .startReleaseResend now => Sys2Proof.Machine.execStartReleaseResend now s
  | .commenceTimeout now => Sys2Proof.Machine.execCommenceTimeout now s
  | .switchOrderResend now => Sys2Proof.Machine.execSwitchOrderResend now s
  | .fmSample x => Sys2Proof.Machine.execFmSample x s
  | .fmModStuck channel => Sys2Proof.Machine.execFmModStuck channel s
  | .fmSnapshotClose => Sys2Proof.Machine.execFmSnapshotClose s
  | .fmPeriodClose => Sys2Proof.Machine.execFmPeriodClose s
  | .fmAuxFall => Sys2Proof.Machine.execFmAuxFall s
  | .fmAuxRise => Sys2Proof.Machine.execFmAuxRise s
  | .fmSealChange opened => Sys2Proof.Machine.execFmSealChange opened s
  | .fmReadSnapshot word => Sys2Proof.Machine.execFmReadSnapshot word s
  | .fmReadLog entry => Sys2Proof.Machine.execFmReadLog entry s
  | .fmWriteCal vOffset vGain iOffset iGain => Sys2Proof.Machine.execFmWriteCal vOffset vGain iOffset iGain s
  | .fmClearLog => Sys2Proof.Machine.execFmClearLog s
  | .fmWorkReportTake tenant work => Sys2Proof.Machine.execFmWorkReportTake tenant work s
  | .workReportSend => Sys2Proof.Machine.execWorkReportSend s
  | .workReportAck => Sys2Proof.Machine.execWorkReportAck s
  | .fmReadout now => Sys2Proof.Machine.execFmReadout now s
  | .fmMirrorStaleTimeout now => Sys2Proof.Machine.execFmMirrorStaleTimeout now s
  | .fabricFlitRx now port f => Sys2Proof.Machine.execFabricFlitRx now port f s
  | .malformedCepToken token => Sys2Proof.Machine.execMalformedCepToken token s
  | .testPortAccess op => Sys2Proof.Machine.execTestPortAccess op s
  | .fmClockFault departs => Sys2Proof.Machine.execFmClockFault departs s

end Sys2Proof.Machine
end

