-- ==== Sys2Proof/Safety.lean ====
section
/-! DEFINITION. What a safe run is, and the terms in which the statements say what a command gives. -/
namespace Sys2Proof.Machine

/-- A step that leads on. -/
def Steps (s t : State) : Prop := step s = .next t

/-- `t` is reached from `s` by steps that all lead on. -/
inductive Reaches : State → State → Prop where
  | refl (s : State) : Reaches s s
  | step (s t u : State) : Steps s t → Reaches t u → Reaches s u

/-- The machine is safe at a state if its step leads on. -/
def Safe (s : State) : Prop := ∃ t, Steps s t

/-- The command answers a next state in which Fenmal and the queue are as before, and of whose core `p` holds. -/
def Gives (c : Instr) (s : State) (p : Alesh → Prop) : Prop := ∃ b, exec c s = .next { s with alesh := b } ∧ p b
/-- The command answers a next state in which the core and the queue are as before, and of whose Fenmal `p` holds. -/
def GivesFm (c : Instr) (s : State) (p : Fenmal → Prop) : Prop := ∃ f, exec c s = .next { s with fenmal := f } ∧ p f

/-- Every number but those listed, and every DOMAIN value but those listed, reads alike. -/
def SameBut (nums doms : List Nat) (a b : Alesh) : Prop :=
  (∀ k, k ∉ nums → b.num k = a.num k) ∧ ∀ k, k ∉ doms → b.dom k = a.dom k

/-- A path serves an access (R361, R380, R445): the core is not in RESET; the management bus is up; in band the core takes
the source's requests and has answered this one not yet. -/
def Admits (a : Alesh) : Via → Prop
  | .control _ => a.ctl.core ≠ .reset
  | .mgmt _ _ => a.ctl.core ≠ .reset ∧ a.ctl.upK = true
  | .inBand src q => a.idleToJob = true ∧ a.takesFrom src = true ∧ a.stored? src q = none

/-- The result has gone back on the path of the access: ACC_STATUS, or MB_STATUS where `wide`, on the control port
(R358, R359); a WRITE response on the management bus, and one kept and sent in band (R443 to R445). -/
def Reports (b : Alesh) (via : Via) (key : Nat) (wide : Bool) (r : Res) : Prop :=
  match via with
  | .control _ =>
    if wide then b.win.mbResult = r.code ∧ b.win.mbValid = true ∧ b.win.mbBusy = false
    else b.win.accResult = r.code ∧ b.win.accDone = true
  | .mgmt eid q =>
    b.mgmt.out.getLast? = some (eid, 0x7F#8 :: (beBytes 4 (b.num O.VENDOR_PEN) ++ accBody 0x82 q key true 0 0 r.code 0 []))
  | .inBand src q => ∃ x ∈ b.mgmt.stored, x.src = src ∧ x.reqId = q ∧ x.response = accBody 0x82 q key true 0 0 r.code 0 []

/-- An access message is answered with a body on its path: over the management bus behind type 0x7F and VENDOR_PEN, in band kept
and sent (R443 to R445). -/
def Responds (b : Alesh) (via : Via) (body : Bytes) : Prop :=
  match via with
  | .control _ => False
  | .mgmt eid _ => b.mgmt.out.getLast? = some (eid, 0x7F#8 :: (beBytes 4 (b.num O.VENDOR_PEN) ++ body))
  | .inBand src q => ∃ x ∈ b.mgmt.stored, x.src = src ∧ x.reqId = q ∧ x.response = body

/-- A packet of a Cresol type that a core takes under R178 to R181: the core listens; version, destination and channel are
right; the source is a member that has not been removed; membership and route epoch are the core's own. -/
def Arrives (a : Alesh) (typ : Nat) (m : Pkt) : Prop :=
  a.idleToJob = true ∧ m.version = 1 ∧ m.dst = a.node ∧ m.vc = typeVc typ ∧ a.isMember m.src = true ∧
    a.memb.removed.contains m.src = false ∧ m.memb = a.num O.MEMBERSHIP_EPOCH % 16 ∧ m.route = a.num O.ROUTE_EPOCH

/-- The core once it has heard the source of a packet, at a captured value: the packet counts as a beacon and renews the
credit granted to its source (R220, R228). -/
def Alesh.heard (a : Alesh) (now src : Nat) : Alesh := (a.at now).hear src

/-- A packet has been given to the fabric ports, or loops back to the core itself. -/
def Sends (b : Alesh) (p : Pkt) : Prop := p ∈ b.ports.queue ∨ p ∈ b.ports.loop

/-- A request of the core's own waits for its response on the fabric (R311): its header is the one given, with the core as source and
origin and its tag; unless no tag was free, its packet has been sent. -/
def Asks (b : Alesh) (vc : Nat) (h : FaHdr) (payload : Bytes) (why : FaWhy) : Prop :=
  ∃ r ∈ b.fabric.reqs, r.dst = h.dst ∧ r.vc = vc ∧ r.payload = payload ∧ r.why = why ∧ r.tries = 0 ∧
    r.header = ({ h with src := b.node, origin := b.node, tag := r.tag } : FaHdr).word ∧
    (r.tag < 1024 → Sends b { kind := 1, vc := vc, version := 1, typ := h.op, src := b.node, dst := h.dst, route := 0, memb := 0
                              args := r.header, payload := payload })

/-- Bytes are on their way to a place of the Plate store: one bulk write for each segment that they lie in (R320). -/
def Lays (a b : Alesh) (place off : Nat) (d : Bytes) (why : FaWhy) : Prop :=
  ∀ r ∈ a.plateRuns place off d.length,
    Asks b 5 (FaHdr.request opBulkWrite (a.num O.GATEWAY_NODE) r.1 (a.num O.GATEWAY_KEY) 0) (slice d r.2.1 r.2.2) why

/-- A dense partial that a well-formed PART brings, with its fields `x`, from a core (R132, R185). -/
def Alesh.densePart (a : Alesh) (src : Nat) (x : PartArgs) (payload : Bytes) : Part :=
  let n := treeLevel a.depth x.node
  { kind := kDense, epoch := a.epochOf x.epochLo, gsid := x.gsid, level := n.1, index := n.2, peer := src
    val := if payload.isEmpty then .null else .dense (sliceValues (a.gradCount x.gsid) (payload.take (4 * a.gradCount x.gsid))) }
/-- The epoch of a partial is its slice's epoch in progress or the one above, and no node held stands for it (R132). -/
def Alesh.takes (a : Alesh) (p : Part) : Prop :=
  (p.epoch = a.partEpoch p.kind p.gsid ∨ p.epoch = a.partEpoch p.kind p.gsid + 1) ∧
    ∀ q ∈ a.red.held, ¬(q.kind = p.kind ∧ q.gsid = p.gsid ∧ q.epoch = p.epoch ∧ nodeInside p.level p.index q.level q.index = true)
/-- The core once a partial has asked for its pages: one outside the reserve that finds none stops the consumption of contributions
(R131, R132). -/
def Alesh.pooled (a : Alesh) (p : Part) : Alesh := if a.inReserve p || a.poolRoom (a.partPages p) then a else a.stopPool
/-- A dense partial has been held in place of the nodes inside it, its source is known for the slice's RETAIN_REL, and owner combine
has formed the reduced gradient where the partials held give the root and the reduction pool has pages for it (R16, R125, R131, R132,
R134). -/
def Alesh.tookDense (a0 : Alesh) (p : Part) (b : Alesh) : Prop :=
  let a := a0.pooled p
  b.red = { a.red with
    held := a.red.held.filter (fun q => !(q.kind == p.kind && q.gsid == p.gsid && q.epoch == p.epoch && nodeInside q.level q.index p.level p.index)) ++ [p]
    sources := if p.peer = a.node ∨ (p.gsid, p.epoch, p.peer) ∈ a.red.sources then a.red.sources
      else a.red.sources ++ [(p.gsid, p.epoch, p.peer)] } ∧
  (∀ r, a.ownerOf p.gsid = a.node → a.grad? p.gsid p.epoch = none → (a.prog? p.gsid).isSome = true →
    a.gradRoom p.gsid p.epoch (gradPages (a.gradCount p.gsid)) = true → b.rootOf (fun k => k == kDense || k == kSparse) p.gsid p.epoch a.depth 0 = some r →
      b.grad? p.gsid p.epoch = some (a.denseOf p.gsid r)) ∧
  (a.errs.retired = [] → ∀ x, ¬(a.num O.REDUCE_BASE ≤ x ∧ x < a.num O.REDUCE_BASE + a.num O.REDUCE_PAGES * 65536) → b.mem0.get x = a.mem0.get x) ∧
  b = { a with red := b.red, progs := b.progs, take := b.take, mem0 := b.mem0 }

/-- The core as an access finds it: a request in band is counted first (R445). -/
def Alesh.taken (a : Alesh) : Via → Alesh
  | .inBand _ _ => a.wrap O.DICT_INBAND_COUNT
  | _ => a

/-- What answering an access changes beside its effect: the window, the message stores and the ports. -/
def Answered (a b : Alesh) : Prop := b = { a with win := b.win, mgmt := b.mgmt, ports := b.ports }

/-- The command ends with result `r` on its path and leaves a core of which `p` holds. While a staged write of its object is open, one
that would end OK is BUSY and does nothing more (R351 test 9, R360). -/
def Ends (c : Instr) (s : State) (via : Via) (key : Nat) (wide : Bool) (r : Res) (p : Alesh → Prop) : Prop :=
  if s.alesh.stageHolds key = true ∧ r = .ok then Gives c s fun b => Reports b via key wide .busy ∧ Answered (s.alesh.taken via) b
  else Gives c s fun b => Reports b via key wide r ∧ p b

/-- The canonical value of node (ℓ, i) over the leaves of a tree (R122, R123). -/
def canonNode (d : Nat) (leaf : Nat → NodeVal) : Nat → Nat → NodeVal
  | 0, i => leaf i
  | l + 1, i => nodeAdd d (canonNode d leaf l (2 * i)) (canonNode d leaf l (2 * i + 1))

/-- The commands of Fenmal; every other command is the core's (R461). -/
def isFenmal : Instr → Bool
  | .fmSample _ | .fmModStuck _ | .fmSnapshotClose | .fmPeriodClose | .fmAuxFall | .fmAuxRise | .fmSealChange _ | .fmReadSnapshot _
  | .fmReadLog _ | .fmWriteCal _ _ _ _ | .fmClearLog | .fmWorkReportTake _ _ | .fmClockFault _ => true
  | _ => false

/-- Fenmal's registers are sound: what the tenants and the unapportioned register hold is what E_IMPORT was when the last period
closed (R460); every residue lies below 1 µJ; no register has passed its width. -/
def FmRegs.Sound (r : FmRegs) : Prop :=
  r.tenants.length = 16 ∧ sumNat r.tenants + r.unapportioned = r.periodStart ∧ r.periodStart ≤ r.imported ∧ r.imported < 2 ^ 64 ∧
    r.exported < 2 ^ 64 ∧ r.restImport < jouleUnits ∧ r.restExport < jouleUnits ∧ r.sealCount < 2 ^ 32
/-- Fenmal is sound: its registers, live and saved, are; its log has at most 1,024 entries, each of at least one occurrence
(R453, R454); its snapshot has 96 words (R455). -/
def Fenmal.Sound (f : Fenmal) : Prop :=
  f.regs.Sound ∧ f.saved.Sound ∧ f.log.length ≤ 1024 ∧ (∀ e ∈ f.log, 1 ≤ e.count) ∧ f.work.length = 16 ∧ f.snapshot.length = 96

/-- Objects whose writes have a row of their own in the table, or a further effect (R235, R245). -/
def ownRow (key : Nat) : Bool :=
  decide (O.OVERLAY_IMAGE ≤ key) && decide (key < O.OVERLAY_IMAGE + 8) ||
    [O.SWITCH_ORDER, O.REGION_ENTRY, O.CHRONO_TAIL, O.TAKEOVER_SET, O.THERM_MARGIN, O.PLATE_ENABLE, O.TIER_QUOTA, O.RETIRE_LIST,
      O.JOIN_SNAPSHOT, O.NEXT_HOSTING_EPOCH, O.RESTRIPE_STAGE].contains key

end Sys2Proof.Machine
end

