-- ==== Sys2Proof/Certificates/Slice0/Obligations.lean ====
section
/-! DEFINITION. The statements for the provers: what each command does, what it leaves, and what holds over every step. -/

open Sys2Proof Sys2Proof.Machine

/-! ### The queue and reset -/

/-- Step takes the command at the front of the queue and is exec of it on the state with the queue's rest; on an empty queue
the block idles (log entry 11). -/
def Obligations.StepTakesFrontOfQueue : Prop :=
  (∀ (s : State) (c : Instr) (rest : List Instr), s.pending = c :: rest → step s = exec c { s with pending := rest }) ∧
    ∀ s : State, s.pending = [] → step s = .next s

/-- The state right after reset: INIT, every unit DISABLED, every object at its default, no valid time, no event, no command
waiting; Fenmal sound, its counters zero and its log empty. Memory with nothing listed is the model's choice (log entry 2). -/
def Obligations.ResetHoldsTheDefaults : Prop :=
  let s := State.reset
  s.pending = [] ∧ s.alesh.ctl.core = .init ∧ (∀ u, u < 9 → s.alesh.unit u = .disabled) ∧
    (∀ k, s.alesh.num k = defaultNum k) ∧ (∀ k, s.alesh.dom k = defaultDom k) ∧
    s.alesh.clock.valid = false ∧ s.alesh.evtLevels = 0 ∧ s.alesh.leases = [] ∧ s.alesh.memb.members = [] ∧
    s.alesh.slots.map = [] ∧ s.alesh.mem0 = [] ∧ s.alesh.mem1 = [] ∧
    s.fenmal.regs = FmRegs.zero ∧ s.fenmal.log = [] ∧ s.fenmal.sealOpen = false ∧ s.fenmal.Sound

/-- RESET_ASSERT: every reset input but rst_t_n, and the fall of power-good, put the whole core into RESET: every object at
its default but the fused ones and FP_LINK_STATE, no SRAM state; Tier 0 and the tier window stay, but for the pages being written. rst_t_n alone
makes the captured value not valid and resets nothing else (TCLK_RESET_ASSERT). Fenmal is not reached.
RESET_RELEASE: kclk leaves reset with power-good, tclk by its input alone, cclk with kclk and power-good, fclk by its input once
the core is past INIT; with cclk a core in RESET enters INIT, and with fclk the links that are up are granted their credits (R380,
R417). Nothing else changes. -/
def Obligations.CoreEntersAndLeavesReset : Prop :=
  ((∀ (s : State) (d : Domain) (torn : List Nat), d ≠ .t → Gives (.resetAssert d torn) s fun b =>
    b.ctl.core = .reset ∧ (∀ u, u < 9 → b.unit u = .disabled) ∧
    (∀ k, b.num k = if fusedKeys.contains k then (lookup? s.alesh.dict.nums k).getD (defaultNum k) else defaultNum k) ∧
    (∀ k, b.dom k = defaultDom k) ∧ b.clock.valid = false ∧ b.memb = Memb.reset ∧ b.leases = [] ∧ b.slots.map = [] ∧
    b.errs.retired = [] ∧ b.ports.queue = [] ∧ b.cep.out = [] ∧ b.mem1 = s.alesh.mem1 ∧
    ∀ x, (∀ p ∈ torn, ¬(p * 65536 ≤ x ∧ x < (p + 1) * 65536)) → b.mem0.get x = s.alesh.mem0.get x) ∧
  ∀ (s : State) (c : Instr), c = .tclkResetAssert ∨ (∃ torn, c = .resetAssert .t torn) → Gives c s fun b =>
    b.clock = { s.alesh.clock with valid := false } ∧ b.ctl.rstT = true ∧ b.ctl.upT = false ∧ b.ctl.core = s.alesh.ctl.core ∧
    b.num O.TIME_INVALID_COUNT =
      (if s.alesh.clock.valid then satAdd 32 (s.alesh.num O.TIME_INVALID_COUNT) 1 else s.alesh.num O.TIME_INVALID_COUNT) ∧
    SameBut [O.TIME_INVALID_COUNT] [] s.alesh b ∧ (s.alesh.clock.valid = true → b.evts.pending.testBit 1 = true) ∧
    b = { s.alesh with clock := b.clock, ctl := b.ctl, dict := b.dict, evts := b.evts }) ∧
  (∀ (s : State) (d : Domain), Gives (.resetRelease d) s fun b =>
    let c := s.alesh.ctl.input d false
    b.ctl.upK = (!c.rstK && c.pwr) ∧ b.ctl.upT = !c.rstT ∧ b.ctl.upC = (!c.rstC && c.pwr && (!c.rstK && c.pwr)) ∧
    b.ctl.core = (if s.alesh.ctl.core = .reset ∧ c.rstC = false ∧ c.pwr = true ∧ c.rstK = false then .init else s.alesh.ctl.core) ∧
    b.ctl.upF = (!c.rstF && !(b.ctl.core == .reset || b.ctl.core == .init)) ∧ b.ctl.units = s.alesh.ctl.units ∧
    (¬(s.alesh.ctl.upF = false ∧ b.ctl.upF = true) → b.ports = s.alesh.ports) ∧
    (s.alesh.ctl.upF = false → b.ctl.upF = true → ∀ p v, p < 2 → v < 8 → s.alesh.ports.isUp p = true →
      lookupD 0 b.ports.rxCredit (lane p v) = s.alesh.num (O.FP_RX_CREDITS + v) ∧
      lookupD 0 b.ports.crOut (lane p v) = s.alesh.num (O.FP_RX_CREDITS + v) ∧ lookupD 0 b.ports.kept (lane p v) = 0) ∧
    b.ports = { s.alesh.ports with rxCredit := b.ports.rxCredit, crOut := b.ports.crOut, kept := b.ports.kept } ∧
    b = { s.alesh with ctl := b.ctl, ports := b.ports })

/-- INIT_SEQUENCE: with no failure INIT forms SETTINGS_FINGERPRINT and waits for a calibration, or enters IDLE where one is
LOADED; a control-unit SRAM that cannot be repaired halts it: CORE_STATE stays INIT, INIT_FAIL holds the cause and evt_fault
rises.
CAL_LOAD, in INIT and MAINT: an empty image installs the built-in one; one that passes every check is installed whole; any
other is REJECTED with RANGE and the image held before stays. A load that succeeds in a core that waits in INIT ends the wait. -/
def Obligations.InitRunsAndCalibrationLoads : Prop :=
  (∀ (s : State) (t : SelfTest), s.alesh.ctl.core = .init → s.alesh.ctl.initStep < 4 → s.alesh.num O.INIT_FAIL = 0 →
    Gives (.initSequence t) s fun b =>
      (t.controlSramBad = true → b.ctl.core = .init ∧ b.num O.INIT_FAIL = 1 ∧ b.evts.pending.testBit 0 = true ∧
        SameBut [O.INIT_FAIL] [] s.alesh b) ∧
      (t.controlSramBad = false → t.tilesBad = [] → t.colsBad = [] → s.alesh.test.tiles = [] → s.alesh.test.cols = [] →
        16 ≤ s.alesh.num O.TILE_ACTIVE_COUNT → 16 ≤ s.alesh.num O.PC_WIDTH →
        b.dom O.SETTINGS_FINGERPRINT = s.alesh.fingerprint ∧ b.ctl.initStep = 4 ∧
        b.ctl.core = (if s.alesh.num O.CAL_STATE = 1 then .idle else .init) ∧ SameBut [] [O.SETTINGS_FINGERPRINT] s.alesh b) ∧
      b.mem0 = s.alesh.mem0 ∧ b.mem1 = s.alesh.mem1) ∧
  (∀ (s : State) (via : Via), Admits s.alesh via → s.alesh.ctl.core = .init ∨ s.alesh.ctl.core = .maint →
    let img := s.alesh.dom O.CAL_IMAGE
    let frame (b : Alesh) : Prop := b = { s.alesh with ctl := b.ctl, dict := b.dict, win := b.win, mgmt := b.mgmt, ports := b.ports }
    let done (b : Alesh) : Prop := b.num O.CAL_STATE = 1 ∧ b.ctl.units = s.alesh.ctl.units ∧
      b.ctl.core = (if s.alesh.ctl.core = .init ∧ s.alesh.ctl.initStep = 4 then .idle else s.alesh.ctl.core) ∧ frame b
    (img = [] → Ends (.calLoad via) s via O.CAL_LOAD false .ok fun b =>
      done b ∧ b.num O.CAL_ORIGIN = 255 ∧ b.num O.TURKAI_MIN = 0 ∧ b.num O.TURKAI_MAX = 4294967295 ∧ b.dom O.VF_TABLE = builtinVf ∧
      b.dom O.LINK_EQ_HINTS = List.replicate 128 0 ∧
      SameBut [O.CAL_STATE, O.CAL_ORIGIN, O.CAL_SERIAL, O.TURKAI_MIN, O.TURKAI_MAX, O.DICT_INBAND_COUNT]
        [O.VF_TABLE, O.LINK_EQ_HINTS] s.alesh b) ∧
    (img ≠ [] → s.alesh.calOk img = true → Ends (.calLoad via) s via O.CAL_LOAD false .ok fun b =>
      done b ∧ b.num O.CAL_ORIGIN = leAt img 5 1 ∧ b.num O.CAL_SERIAL = leAt img 8 4 ∧ b.num O.TURKAI_MIN = leAt img 12 4 ∧
      b.num O.TURKAI_MAX = leAt img 16 4 ∧ b.dom O.VF_TABLE = slice img 64 64 ∧ b.dom O.LINK_EQ_HINTS = slice img 128 128) ∧
    (img ≠ [] → s.alesh.calOk img = false → Ends (.calLoad via) s via O.CAL_LOAD false .range fun b =>
      b.num O.CAL_STATE = 2 ∧ b.ctl = s.alesh.ctl ∧ SameBut [O.CAL_STATE, O.DICT_INBAND_COUNT] [] s.alesh b ∧ frame b))

/-! ### Units, maintenance, retirement (R62, R121, R362 to R367, R387, R403, R408) -/

/-- UNIT_ARM, UNIT_DISARM and UNIT_CLEAR in IDLE, with a mask of 0x001 to 0x1FF whose units are all in the From state of R364:
every named unit moves and no other does. Arming asks besides that every check of arming passes; it forms CONFIG_DIGEST, gives
JOB an empty state with the core's own slices in its slots, and leaves alone what belongs to units that the mask does not name; the
snapshot of the base values goes behind the overlay images (R370) and, but for the page map of TIER, nothing else of Tier 0 changes.
A named unit that is not in the From state stops the command with STATE_CONFLICT, and no unit changes. -/
def Obligations.UnitCommandsMoveTheNamedUnits : Prop :=
  ∀ (s : State) (via : Via) (mask : Nat), Admits s.alesh via → s.alesh.ctl.core = .idle → 1 ≤ mask → mask ≤ 0x1FF →
    s.alesh.ctl.units.length = 9 →
    let all (st : UState) : Prop := ∀ u, u < 9 → mask.testBit u = true → s.alesh.unit u = st
    let moved (st : UState) (b : Alesh) : Prop := ∀ u, u < 9 → b.unit u = if mask.testBit u then st else s.alesh.unit u
    let stays (b : Alesh) : Prop := b.ctl = s.alesh.ctl ∧ b = { s.alesh with dict := b.dict, evts := b.evts, win := b.win, mgmt := b.mgmt, ports := b.ports } ∧
      SameBut [O.CTRL_FLAGS, O.STATE_CONFLICT_COUNT, O.DICT_INBAND_COUNT] [O.LAST_REFUSED] s.alesh b
    (all .disabled → s.alesh.armOk mask = true → Ends (.unitArm via mask) s via O.UNIT_ARM false .ok fun b =>
      moved .armed b ∧ b.dom O.CONFIG_DIGEST = b.configDigest ∧
      (mask.testBit 0 = true → b.slots.pend = [] ∧ b.progs = [] ∧ b.num O.TAKEN_SLICES = 0 ∧
        b.slots.map = (List.range b.ownSlices).map fun i => (gsidOf b.ownShard i, i)) ∧
      (mask.testBit 0 = false → b.slots = s.alesh.slots ∧ b.progs = s.alesh.progs ∧ b.take = s.alesh.take) ∧
      (mask.testBit 4 = false → b.coding = s.alesh.coding) ∧
      (mask.testBit 6 = false → s.alesh.errs.retired = [] →
        ∀ x, ¬(b.num O.OVERLAY_BASE + 8 * 131072 ≤ x ∧ x < b.num O.OVERLAY_BASE + 9 * 131072) → b.mem0.get x = s.alesh.mem0.get x) ∧
      b = { s.alesh with ctl := b.ctl, dict := b.dict, slots := b.slots, progs := b.progs, plate := b.plate, take := b.take,
                         chrono := b.chrono, coding := b.coding, fabric := b.fabric, health := b.health, mem0 := b.mem0,
                         win := b.win, mgmt := b.mgmt, ports := b.ports }) ∧
    (all .armed → Ends (.unitDisarm via mask) s via O.UNIT_DISARM false .ok fun b =>
      moved .disabled b ∧ b.ctl = { s.alesh.ctl with units := b.ctl.units } ∧ SameBut [O.DICT_INBAND_COUNT] [] s.alesh b ∧
      b = { s.alesh with ctl := b.ctl, dict := b.dict, win := b.win, mgmt := b.mgmt, ports := b.ports }) ∧
    (all .faulted → Ends (.unitClear via mask) s via O.UNIT_CLEAR false .ok fun b =>
      moved .disabled b ∧ b.ctl = { s.alesh.ctl with units := b.ctl.units } ∧ SameBut [O.DICT_INBAND_COUNT] [] s.alesh b ∧
      b = { s.alesh with ctl := b.ctl, dict := b.dict, win := b.win, mgmt := b.mgmt, ports := b.ports }) ∧
    (¬ all .disabled → Ends (.unitArm via mask) s via O.UNIT_ARM false .stateConflict stays) ∧
    (¬ all .armed → Ends (.unitDisarm via mask) s via O.UNIT_DISARM false .stateConflict stays) ∧
    (¬ all .faulted → Ends (.unitClear via mask) s via O.UNIT_CLEAR false .stateConflict stays)

/-- Initialisation at arming (R387), once the memory side is out of reset (R380): the metadata region of a JOB unit being armed comes to hold, in every record, VERSION 0x1
and KIND STATE with all else zero. Nothing else of Tier 0 changes where no coding area waits. An occulted core is outside the
statement: it writes no metadata (R225). -/
def Obligations.ArmingInitialisesTheMetadata : Prop :=
  ∀ s : State, s.alesh.ctl.core ≠ .occulted → s.alesh.ctl.initJob ≠ 0 → s.alesh.ctl.initCoding = 0 → s.alesh.ctl.upM = true → s.alesh.errs.retired = [] → s.alesh.comm = Comm.reset →
    Gives .armInitComplete s fun b =>
      let base := s.alesh.num O.META_BASE
      let n := s.alesh.slotCount * 256 * 64
      b.ctl = { s.alesh.ctl with initJob := 0 } ∧
      (∀ i, i < s.alesh.slotCount * 256 → b.mem0.read (base + 64 * i) 64 = [0x01, 0x00, 0x00, 0x01] ++ List.replicate 60 0) ∧
      (∀ x, ¬(base ≤ x ∧ x < base + n) → b.mem0.get x = s.alesh.mem0.get x) ∧
      b = { s.alesh with ctl := b.ctl, mem0 := b.mem0 }

/-- JOB_STOP with a step epoch above the one in progress notes it and drops a pending overlay order; MAINT_ENTER from IDLE with
every unit DISABLED or FAULTED enters MAINT with every unit DISABLED; a DRAINING unit that is done becomes DISABLED; once the
discards of PLATE_RETURN are done, running and draining units return to ARMED. -/
def Obligations.UnitsAndTheCoreLeaveTheirJob : Prop :=
  (∀ (s : State) (via : Via) (e : Nat), Admits s.alesh via → s.alesh.inJob = true → s.alesh.inProgress < e →
    Ends (.jobStop via e) s via O.JOB_STOP true .ok fun b =>
      b.ctl = { s.alesh.ctl with jobStop := some e } ∧ b.merid.order = none ∧ b.merid.switching = none ∧
      (s.alesh.merid.order = none → s.alesh.merid.switching = none → b.merid = s.alesh.merid) ∧
      SameBut [O.SWITCH_STATE, O.DICT_INBAND_COUNT] [] s.alesh b ∧
      b = { s.alesh with ctl := b.ctl, merid := b.merid, dict := b.dict, win := b.win, mgmt := b.mgmt, ports := b.ports }) ∧
  (∀ (s : State) (via : Via), Admits s.alesh via → s.alesh.ctl.core = .idle →
    (∀ u ∈ s.alesh.ctl.units, u = .disabled ∨ u = .faulted) → Ends (.maintEnter via) s via O.MAINT_ENTER false .ok fun b =>
      b.ctl = { s.alesh.ctl with core := .maint, units := List.replicate 9 .disabled } ∧
      SameBut [O.DICT_INBAND_COUNT] [] s.alesh b ∧
      b = { s.alesh with ctl := b.ctl, dict := b.dict, win := b.win, mgmt := b.mgmt, ports := b.ports }) ∧
  (∀ (s : State) (u : Nat), s.alesh.unit u = .draining → Gives (.unitDrainComplete u) s fun b =>
      b.unit u = .disabled ∧ (∀ v, v ≠ u → b.unit v = s.alesh.unit v) ∧ b.ctl = { s.alesh.ctl with units := b.ctl.units } ∧
      (u = 4 → b.coding.own = [] ∧ b.coding.hold = []) ∧ (u = 6 → b.fabric.reqs = [] ∧ b.fabric.jobs = []) ∧
      b = { s.alesh with ctl := b.ctl, progs := b.progs, slots := b.slots, pub := b.pub, coding := b.coding, red := b.red, fabric := b.fabric }) ∧
  ∀ s : State, s.alesh.ctl.discarding = true → Gives .plateReturnDiscardsDone s fun b =>
    b.ctl.discarding = false ∧ (∀ u, b.unit u =
      if s.alesh.unit u = .running ∨ s.alesh.unit u = .draining then .armed else s.alesh.unit u) ∧
    b.ctl = { s.alesh.ctl with discarding := false, units := b.ctl.units } ∧ b = { s.alesh with ctl := b.ctl }

/-- TILE_RETIRE of an active tile and PC_COL_RETIRE of a good column: the tile leaves TILE_ACTIVE_MAP and the lowest spare, where
there is one, takes its place; the column leaves the good columns and PC_WIDTH becomes the lower of 64 and the good columns left.
Neither is accepted where it would leave fewer than 16 tiles, or a width below PC_MIN_WIDTH.
An uncorrectable SRAM error (R403): of a control memory, every unit becomes FAULTED; of a unit's own memory, that unit; each
sets CTRL_FLAGS bit UNIT_FAULT and raises evt_fault (R365). Of a tile, the tile is retired; of a column, the column fails. A place
whose words all have a clear valid bit makes no ECC check, and nothing happens (R384). -/
def Obligations.SparesAndSramErrors : Prop :=
  ((∀ (s : State) (via : Via) (t : Nat), Admits s.alesh via → s.alesh.idleToJob = true → t ≤ 33 →
    (s.alesh.num O.TILE_ACTIVE_MAP).testBit t = true →
    (∀ sp r, s.alesh.ctl.spares = sp :: r → sp ≤ 33 → (s.alesh.num O.TILE_ACTIVE_MAP).testBit sp = false → 16 ≤ s.alesh.num O.TILE_ACTIVE_COUNT →
      16 ≤ ((List.range 34).filter fun i => (s.alesh.num O.TILE_ACTIVE_MAP - 2 ^ t + 2 ^ sp).testBit i).length →
      Ends (.tileRetire via t) s via O.TILE_RETIRE false .ok fun b =>
        b.num O.TILE_ACTIVE_MAP = s.alesh.num O.TILE_ACTIVE_MAP - 2 ^ t + 2 ^ sp ∧ b.ctl = { s.alesh.ctl with spares := r } ∧
        SameBut [O.TILE_ACTIVE_MAP, O.TILE_ACTIVE_COUNT, O.DICT_INBAND_COUNT] [] s.alesh b ∧
        b = { s.alesh with ctl := b.ctl, progs := b.progs, dict := b.dict, win := b.win, mgmt := b.mgmt, ports := b.ports }) ∧
    (s.alesh.ctl.spares = [] → s.alesh.num O.TILE_ACTIVE_COUNT ≤ 16 →
      Ends (.tileRetire via t) s via O.TILE_RETIRE false .stateConflict fun b =>
        b.num O.TILE_ACTIVE_MAP = s.alesh.num O.TILE_ACTIVE_MAP ∧ b.ctl = s.alesh.ctl)) ∧
  (∀ (s : State) (via : Via) (c : Nat), Admits s.alesh via → s.alesh.idleToJob = true → colGood s.alesh c = true →
    let w := min 64 ((List.range 66).filter fun i => colGood s.alesh i && i != c).length
    (s.alesh.num O.PC_MIN_WIDTH ≤ w → Ends (.pcColRetire via c) s via O.PC_COL_RETIRE false .ok fun b =>
      b.num O.PC_WIDTH = w ∧ colGood b c = false ∧ b.ctl = s.alesh.ctl ∧
      SameBut [O.PC_COL_GOOD, O.PC_SPARE_GOOD, O.PC_WIDTH, O.DICT_INBAND_COUNT] [] s.alesh b ∧
      b = { s.alesh with dict := b.dict, win := b.win, mgmt := b.mgmt, ports := b.ports }) ∧
    (w < s.alesh.num O.PC_MIN_WIDTH → Ends (.pcColRetire via c) s via O.PC_COL_RETIRE false .stateConflict fun b =>
      colGood b c = true ∧ b.num O.PC_WIDTH = s.alesh.num O.PC_WIDTH))) ∧
  ((∀ (s : State) (p : SramPlace), s.alesh.ctl.sramValid.contains p = false → Gives (.sramUncorrectableError p) s fun b => b = s.alesh) ∧
  ∀ (s : State) (p : SramPlace), s.alesh.ctl.core ≠ .reset → s.alesh.ctl.units.length = 9 → s.alesh.ctl.sramValid.contains p = true →
    Gives (.sramUncorrectableError p) s fun b =>
      let faults (us : List Nat) : Prop :=
        (∀ u, u < 9 → b.unit u = if u ∈ us then .faulted else s.alesh.unit u) ∧
        (b.num O.CTRL_FLAGS).testBit 3 = true ∧ b.evts.pending.testBit 0 = true ∧ b.ctl = { s.alesh.ctl with units := b.ctl.units } ∧
        SameBut [O.CTRL_FLAGS] [] s.alesh b ∧ b = { s.alesh with ctl := b.ctl, dict := b.dict, evts := b.evts }
      (p = .control → (∃ u, u < 9 ∧ s.alesh.unit u ≠ .faulted) → faults (List.range 9)) ∧
      (∀ u, p = .unit u → u < 9 → s.alesh.unit u ≠ .faulted → faults [u]) ∧
      (∀ t, p = .tile t → (s.alesh.num O.TILE_ACTIVE_MAP).testBit t = true → t ≤ 33 → s.alesh.ctl.spares = [] →
        b.num O.TILE_ACTIVE_MAP = s.alesh.num O.TILE_ACTIVE_MAP - 2 ^ t) ∧
      (∀ c, p = .column c → colGood s.alesh c = true → colGood b c = false) ∧ b.mem0 = s.alesh.mem0 ∧ b.mem1 = s.alesh.mem1)

/-! ### The dictionary's window, mailbox and staged writes (R349 to R360, R368) -/

/-- A write of ACC_DATA, all four byte enables set and no access in progress, to the object at ACC_ADDR: an RW object of at most 32
bits, or an RWD one whose units are DISABLED, takes a value in its range, reserved bits left out, with OK (PLATE_INTERVAL takes PLATE_INTERVAL_ACTIVE down with it, R254); a value out of range returns RANGE, an RO object ACCESS, a
reserved index NO_OBJECT, and nothing changes; an RWD object whose units are not all DISABLED UNIT_ENABLED, and an RWK one KEEPER_ONLY to
another writer than the keeper, each flagged, counted and recorded (R350, R353); with DONE = 0 it is ignored and leaves BUSY.
A read of ACC_DATA gives the value of an object of at most 32 bits in the same access with OK; a wider object reads zero with
TYPE, a command or WO object zero with ACCESS. A read changes nothing but the window. -/
def Obligations.WindowWritesAndReads : Prop :=
  (∀ (s : State) (r : CpReq) (now : Nat), s.alesh.ctl.core ≠ .reset → r.be = 15 → r.offset = 0x14 →
    let key := s.alesh.win.accAddr
    let frame (b : Alesh) : Prop := b = { s.alesh with clock := b.clock, dict := b.dict, win := b.win }
    let refused (code : Nat) : Prop := Gives (.dictWrite r now) s fun b =>
      b.win.accResult = code ∧ b.win.accDone = true ∧ SameBut [] [] s.alesh b ∧ frame b
    let noted (code bit cnt : Nat) : Prop := Gives (.dictWrite r now) s fun b =>
      b.win.accResult = code ∧ b.win.accDone = true ∧ (b.num O.CTRL_FLAGS).testBit bit = true ∧ b.num cnt = satAdd (widthOf cnt) (s.alesh.num cnt) 1 ∧
      b.dom O.LAST_REFUSED = leBytes 2 (key / 256) ++ leBytes 1 key ++ leBytes 1 0 ++ leBytes 2 code ++ leBytes 2 0 ∧
      SameBut [O.CTRL_FLAGS, cnt] [O.LAST_REFUSED] s.alesh b ∧ b = { s.alesh with clock := b.clock, dict := b.dict, evts := b.evts, win := b.win }
    (s.alesh.win.accDone = false → Gives (.dictWrite r now) s fun b =>
      b.win = { s.alesh.win with rdata := 0, accResult := 8 } ∧ SameBut [] [] s.alesh b ∧ frame b) ∧
    (s.alesh.win.accDone = true → objOf? key = none → refused 1) ∧
    ∀ o, s.alesh.win.accDone = true → objOf? key = some o →
      (o.cls = .ro → refused 2) ∧
      (o.cls = .rwk → r.keeper = false → noted 7 fKeeperRefused O.KEEPER_REFUSED_COUNT) ∧
      (o.cls = .rwd → s.alesh.rwdOpen key = false → ownRow key = false → o.ty ≠ .dom → o.ty.bits ≤ 32 → r.data < 2 ^ o.ty.bits →
        noted 6 fCfgIgnored O.CFG_IGNORED_COUNT) ∧
      (o.cls = .rw ∨ o.cls = .rwd ∧ s.alesh.rwdOpen key = true → ownRow key = false → o.ty ≠ .dom → o.ty.bits ≤ 32 → r.data < 2 ^ o.ty.bits →
        s.alesh.stageHolds key = false →
        (s.alesh.inRange o r.data = true → s.alesh.pairOk key r.data = true → Gives (.dictWrite r now) s fun b =>
          b.num key = keptBits o key r.data ∧ b.win.accResult = 0 ∧ b.win.accDone = true ∧
          (key ≠ O.PLATE_INTERVAL → SameBut [key] [] s.alesh b) ∧
          (key = O.PLATE_INTERVAL → SameBut [key, O.PLATE_INTERVAL_ACTIVE] [] s.alesh b ∧
            b.num O.PLATE_INTERVAL_ACTIVE = min (s.alesh.num O.PLATE_INTERVAL_ACTIVE) (b.num key)) ∧ frame b) ∧
        ((s.alesh.inRange o r.data && s.alesh.pairOk key r.data) = false → refused 4))) ∧
  (∀ (s : State) (r : CpReq) (o : Obj), s.alesh.ctl.core ≠ .reset → r.be = 15 → r.offset = 0x14 → s.alesh.win.accDone = true →
    objOf? s.alesh.win.accAddr = some o →
    let reads (v code : Nat) : Prop := Gives (.accDataRead r) s fun b =>
      b.win = { s.alesh.win with rdata := v, accResult := code, accDone := true } ∧ b = { s.alesh with win := b.win }
    (o.cls ≠ .cmd → o.cls ≠ .wo → o.ty ≠ .dom → o.ty.bits ≤ 32 → reads (leNat (s.alesh.readObj o s.alesh.win.accAddr)) 0) ∧
    (o.cls ≠ .cmd → o.cls ≠ .wo → (o.ty = .dom ∨ 32 < o.ty.bits) → reads 0 3) ∧
    (o.cls = .cmd ∨ o.cls = .wo → reads 0 2))

/-- A mailbox READ of 1 to 4,096 bytes copies the value's bytes from MB_OFFSET, zeros beyond its end, writes MB_TOTAL and leaves
VALID with OK. A mailbox WRITE with FINAL at offset 0 and no open write applies the whole value to a DOMAIN object; a first chunk
without FINAL opens the staged write and puts the chunk at STAGE_BASE (in an occulted core, only where that lies outside the areas
that it no longer writes, R225), in reach of Tier 0 whole and with the memory side out of reset (else the chunk is not taken: RANGE
and BUSY, the model's choice, log entries 139 and 154). An ABORT discards the control port's open write and sets
MB_ABORT; with none open it changes nothing but the mailbox's status. MB_LEN outside 1 to 4,096 transfers nothing and leaves RANGE. -/
def Obligations.MailboxMovesWholeValues : Prop :=
  ∀ (s : State) (keeper : Bool), s.alesh.ctl.core ≠ .reset → s.alesh.win.mbBusy = false →
    let w := s.alesh.win
    let key := w.mbAddr
    let frame (b : Alesh) : Prop := b = { s.alesh with clock := b.clock, dict := b.dict, win := b.win }
    let status (b : Alesh) (code : Nat) : Prop := b.win.mbValid = true ∧ b.win.mbBusy = false ∧ b.win.mbResult = code
    (∀ o, objOf? key = some o → o.cls ≠ .cmd → o.cls ≠ .wo → 1 ≤ w.mbLen → w.mbLen ≤ 4096 → Gives (.mbRead keeper) s fun b =>
      let v := (s.alesh.readValue (.control keeper) key).2
      b.win.mbBuf.read 0 w.mbLen = slice v w.mbOffset w.mbLen ∧ b.win.mbTotal = v.length ∧ status b 0 ∧ b = { s.alesh with win := b.win }) ∧
    (¬(1 ≤ w.mbLen ∧ w.mbLen ≤ 4096) → ∀ final now, Gives (.mbWrite keeper final now) s fun b => status b 4 ∧ SameBut [] [] s.alesh b ∧ frame b) ∧
    (∀ o now, objOf? key = some o → o.cls = .rw ∨ o.cls = .rwd ∧ s.alesh.rwdOpen key = true → o.ty = .dom → ownRow key = false → 1 ≤ w.mbLen → w.mbLen ≤ 4096 → w.mbOffset = 0 →
      s.alesh.staged = none →
      (let v := w.mbBuf.read 0 w.mbLen
       s.alesh.typeOk o v = true → contentOk key v = true → Gives (.mbWrite keeper true now) s fun b =>
         b.dom key = keptBytes key v ∧ status b 0 ∧ SameBut [] [key] s.alesh b ∧ frame b) ∧
      (w.mbLen ≤ s.alesh.longest key → 2 ^ 40 < s.alesh.num O.STAGE_BASE + 4194304 → Gives (.mbWrite keeper false now) s fun b =>
         status b 4 ∧ SameBut [] [] s.alesh b ∧ frame b) ∧
      (w.mbLen ≤ s.alesh.longest key → s.alesh.num O.STAGE_BASE + 4194304 ≤ 2 ^ 40 → s.alesh.ctl.upM = false →
       Gives (.mbWrite keeper false now) s fun b => status b 8 ∧ SameBut [] [] s.alesh b ∧ frame b) ∧
      (w.mbLen ≤ s.alesh.longest key → s.alesh.num O.STAGE_BASE + 4194304 ≤ 2 ^ 40 → s.alesh.ctl.upM = true →
       s.alesh.errs.retired = [] → s.alesh.fenced (s.alesh.num O.STAGE_BASE) w.mbLen = false → Gives (.mbWrite keeper false now) s fun b =>
         b.staged = some { path := 0, key := key, len := w.mbLen } ∧ status b 0 ∧ SameBut [] [] s.alesh b ∧
         b.mem0.read (s.alesh.num O.STAGE_BASE) w.mbLen = w.mbBuf.read 0 w.mbLen ∧
         (∀ x, ¬(s.alesh.num O.STAGE_BASE ≤ x ∧ x < s.alesh.num O.STAGE_BASE + w.mbLen) → b.mem0.get x = s.alesh.mem0.get x) ∧
         b = { s.alesh with clock := b.clock, staged := b.staged, mem0 := b.mem0, win := b.win })) ∧
    (∀ x, s.alesh.staged = some x → x.path = 0 → Gives (.mbAbort keeper) s fun b =>
      b.staged = none ∧ (b.num O.CTRL_FLAGS).testBit 6 = true ∧ status b 0 ∧ SameBut [O.CTRL_FLAGS] [] s.alesh b ∧
      b = { s.alesh with staged := none, dict := b.dict, evts := b.evts, win := b.win }) ∧
    ((∀ x, s.alesh.staged = some x → x.path ≠ 0) → Gives (.mbAbort keeper) s fun b => status b 0 ∧ b = { s.alesh with win := b.win })

/-- A W1C write clears the flag bits that it names and no other (R368); EVT_ACK clears the pending events that it names, in the
states from INIT to DEGRADED (R439); WATCH_CLEAR takes a watched node off the list (R366), with RANGE for one that is not listed. -/
def Obligations.FlagsAndEventsClearAsNamed : Prop :=
  (∀ (s : State) (via : Via) (key bits : Nat) (o : Obj), Admits s.alesh via → objOf? key = some o → o.cls = .w1c →
    bits < 2 ^ o.ty.bits → key ≠ O.DICT_INBAND_COUNT → Ends (.flagClear via key bits) s via key (key == O.PEER_FLAGS) .ok fun b =>
      (∀ i, (b.num key).testBit i = ((s.alesh.num key).testBit i && !bits.testBit i)) ∧
      SameBut [key, O.DICT_INBAND_COUNT] [] s.alesh b ∧ b = { s.alesh with dict := b.dict, win := b.win, mgmt := b.mgmt, ports := b.ports }) ∧
  (∀ (s : State) (via : Via) (mask : Nat), Admits s.alesh via → s.alesh.ctl.core = .init ∨ s.alesh.idleToJob = true → mask ≤ 0x0B →
    Ends (.evtAck via mask) s via O.EVT_ACK false .ok fun b =>
      (∀ i, b.evts.pending.testBit i = (s.alesh.evts.pending.testBit i && !mask.testBit i)) ∧
      b.evts = { s.alesh.evts with pending := b.evts.pending } ∧ SameBut [O.DICT_INBAND_COUNT] [] s.alesh b ∧
      b = { s.alesh with evts := b.evts, dict := b.dict, win := b.win, mgmt := b.mgmt, ports := b.ports }) ∧
  ∀ (s : State) (via : Via) (n : Nat), Admits s.alesh via → s.alesh.joinedOrJob = true →
    let listed := s.alesh.health.watch.any fun w => w.1 == n
    (listed = true → Ends (.watchClear via n) s via O.WATCH_CLEAR false .ok fun b =>
      b.health.watch = s.alesh.health.watch.filter (fun w => w.1 != n) ∧
      b = { s.alesh with health := b.health, dict := b.dict, win := b.win, mgmt := b.mgmt, ports := b.ports }) ∧
    (listed = false → Ends (.watchClear via n) s via O.WATCH_CLEAR false .range fun b => b.health = s.alesh.health)

/-! ### Writes with a row of their own -/

/-- CHRONO_TAIL moves to a record boundary between the tail and the head and to no other place (R289). OVERLAY_IMAGE with
an empty value empties its slot while all nine units are DISABLED. REGION_ENTRY, by the keeper, puts an entry into REGION_TABLE
where the table stays legal, and flags a protection change (R355); no other writer does.
TAKEOVER_SET stores whole blocks; outside a job that is all. THERM_MARGIN from −128 to 127 is stored and restarts its timer,
which, with a valid time, raises THERM_STALE after THERM_STALE_NS (R324). PLATE_ENABLE 1 is stored. TIER_QUOTA of 192 bytes is stored. RETIRE_LIST
applies its entries; JOIN_SNAPSHOT makes its membership, configuration epoch and overlay the core's, and a node marked WATCH that is
not of that membership loses its mark (R327); both only while the owning units are DISABLED. -/
def Obligations.WritesWithRowsOfTheirOwn : Prop :=
  ((∀ (s : State) (via : Via) (t : Nat), Admits s.alesh via →
    let stop := (s.alesh.chronoBounds (s.alesh.chronoSize / 64 + 1) (s.alesh.num O.CHRONO_TAIL)).contains t
    (stop = true → Ends (.chronoTailWrite via t) s via O.CHRONO_TAIL false .ok fun b =>
      b.num O.CHRONO_TAIL = t ∧ SameBut [O.CHRONO_TAIL, O.DICT_INBAND_COUNT] [] s.alesh b ∧
      b = { s.alesh with dict := b.dict, win := b.win, mgmt := b.mgmt, ports := b.ports }) ∧
    (stop = false → Ends (.chronoTailWrite via t) s via O.CHRONO_TAIL false .range fun b => b.num O.CHRONO_TAIL = s.alesh.num O.CHRONO_TAIL)) ∧
  (∀ (s : State) (via : Via) (slot : Nat), Admits s.alesh via → slot < 8 → (∀ u, u < 9 → s.alesh.unit u = .disabled) →
    Ends (.overlayImageWrite via slot []) s via (O.OVERLAY_IMAGE + slot) true .ok fun b =>
      b.dict.images = s.alesh.dict.images.filter (fun p => p.1 != slot) ∧ SameBut [O.OVERLAY_LOADED, O.DICT_INBAND_COUNT] [] s.alesh b ∧
      b = { s.alesh with dict := b.dict, win := b.win, mgmt := b.mgmt, ports := b.ports }) ∧
  ∀ (s : State) (via : Via) (v : Bytes), Admits s.alesh via →
    (s.alesh.isKeeper via = true → v.length = 33 →
      let t := overlay (s.alesh.dom O.REGION_TABLE) (32 * leAt v 0 1) ((keptBytes O.REGION_ENTRY v).drop 1)
      regionsOk (regionsOf t) = true → Ends (.regionEntryWrite via v) s via O.REGION_ENTRY true .ok fun b =>
        b.dom O.REGION_TABLE = t ∧ (b.num O.CTRL_FLAGS).testBit 8 = true ∧
        SameBut [O.CTRL_FLAGS, O.DICT_INBAND_COUNT] [O.REGION_TABLE, O.REGION_ENTRY] s.alesh b ∧
        b = { s.alesh with dict := b.dict, evts := b.evts, win := b.win, mgmt := b.mgmt, ports := b.ports }) ∧
    (s.alesh.isKeeper via = false → Ends (.regionEntryWrite via v) s via O.REGION_ENTRY true .keeperOnly fun b =>
      b.dom O.REGION_TABLE = s.alesh.dom O.REGION_TABLE ∧ (b.num O.CTRL_FLAGS).testBit 2 = true)) ∧
  ((∀ (s : State) (via : Via) (v : Bytes), Admits s.alesh via → s.alesh.inJob = false → v.length ≤ 4194304 →
    sumNat ((takeBlocks (v.length / 32 + 1) v).map fun t => t.raw.length) = v.length →
    Ends (.takeoverSetWrite via v) s via O.TAKEOVER_SET true .ok fun b =>
      b.dom O.TAKEOVER_SET = keptBytes O.TAKEOVER_SET v ∧ SameBut [O.DICT_INBAND_COUNT] [O.TAKEOVER_SET] s.alesh b ∧
      b = { s.alesh with dict := b.dict, win := b.win, mgmt := b.mgmt, ports := b.ports }) ∧
  (∀ (s : State) (via : Via) (v now : Nat), Admits s.alesh via → v ≤ 127 ∨ (2 ^ 32 - 128 ≤ v ∧ v < 2 ^ 32) →
    Ends (.thermMarginWrite via v now) s via O.THERM_MARGIN false .ok fun b =>
      b.num O.THERM_MARGIN = v ∧ b.health.thermAt = b.clock.captured ∧ b.health.thermStale = false ∧
      SameBut [O.THERM_MARGIN, O.DICT_INBAND_COUNT] [] s.alesh b ∧
      b = { s.alesh with clock := b.clock, health := b.health, dict := b.dict, win := b.win, mgmt := b.mgmt, ports := b.ports }) ∧
  (∀ (s : State) (now : Nat), s.alesh.clock.valid = true → s.alesh.num O.THERM_STALE_NS ≠ 0 → s.alesh.health.thermStale = false →
    s.alesh.health.thermAt + s.alesh.num O.THERM_STALE_NS ≤ max s.alesh.clock.captured now → Gives (.thermStaleTimeout now) s fun b =>
      b.health = { s.alesh.health with thermStale := true } ∧ (b.num O.HEALTH_FLAGS).testBit 10 = true ∧
      SameBut [O.HEALTH_FLAGS] [] s.alesh b ∧ b = { s.alesh with clock := b.clock, health := b.health, dict := b.dict, evts := b.evts }) ∧
  (∀ (s : State) (via : Via) (now : Nat), Admits s.alesh via → Ends (.plateEnableWrite via 1 now) s via O.PLATE_ENABLE false .ok fun b =>
      b.num O.PLATE_ENABLE = 1 ∧ SameBut [O.PLATE_ENABLE, O.DICT_INBAND_COUNT] [] s.alesh b ∧
      b = { s.alesh with clock := b.clock, dict := b.dict, win := b.win, mgmt := b.mgmt, ports := b.ports }) ∧
  (∀ (s : State) (via : Via) (v : Bytes), Admits s.alesh via → v.length = 192 → s.alesh.fabric.pages = [] →
    Ends (.tierQuotaWrite via v) s via O.TIER_QUOTA true .ok fun b => b.dom O.TIER_QUOTA = v) ∧
  (∀ (s : State) (via : Via) (v : Bytes), Admits s.alesh via → s.alesh.rwdOpen O.RETIRE_LIST = true → v.length % 8 = 0 → v.length ≤ 32768 →
    Ends (.retireListWrite via v) s via O.RETIRE_LIST true .ok fun b =>
      b.errs.retired = ((List.range (v.length / 8)).map fun i => (leAt v (8 * i) 8 % 2 ^ 24, bf (leAt v (8 * i) 8) 24 12)) ∧
      b.num O.RETIRED_COUNT = v.length / 8 ∧ SameBut [O.RETIRED_COUNT, O.DICT_INBAND_COUNT] [O.RETIRE_LIST] s.alesh b ∧
      b = { s.alesh with errs := b.errs, dict := b.dict, win := b.win, mgmt := b.mgmt, ports := b.ports }) ∧
  ∀ (s : State) (via : Via) (v : Bytes), Admits s.alesh via → s.alesh.rwdOpen O.JOIN_SNAPSHOT = true →
    v.length = 65584 → Ends (.joinSnapshotWrite via v) s via O.JOIN_SNAPSHOT true .ok fun b =>
      b.num O.MEMBERSHIP_EPOCH = leAt v 0 4 ∧ b.num O.CONFIG_EPOCH = leAt v 4 4 ∧ b.num O.ACTIVE_OVERLAY = leAt v 8 1 ∧
      b.memb.members = bitmapNodes (slice v 48 32768) ∧
      b.health.watch = s.alesh.health.watch.filter (fun w => b.memb.members.contains w.1) ∧
      b.health = { s.alesh.health with watch := b.health.watch } ∧
      SameBut [O.MEMBERSHIP_EPOCH, O.CONFIG_EPOCH, O.ACTIVE_OVERLAY, O.DICT_INBAND_COUNT] [O.JOIN_SNAPSHOT, O.WATCH_LIST] s.alesh b ∧
      b = { s.alesh with memb := b.memb, health := b.health, dict := b.dict, win := b.win, mgmt := b.mgmt, ports := b.ports })

/-! ### Access messages, the management bus and in-band requests (R441 to R445) -/

/-- An access message of version 0x1 on the management bus or in band: a READ of 1 to 4,096 bytes is answered with the value's bytes
from OFFSET, its length and OK; a WRITE of a whole value to an RW DOMAIN object stores it; an ABORT ends the path's open write. -/
def Obligations.AccessMessagesReadWriteAbort : Prop :=
  ∀ (s : State) (m : AccMsg), Admits s.alesh m.via → (∀ k, m.via ≠ .control k) → m.version = 1 →
    let key := m.index * 256 + m.sub
    let body (op len total : Nat) (data : Bytes) : Bytes := accBody (op + 0x80) (viaReq m.via) key m.final m.offset len 0 total data
    (∀ o, objOf? key = some o → o.cls ≠ .cmd → o.cls ≠ .wo → key ≠ O.DICT_INBAND_COUNT → 1 ≤ m.length → m.length ≤ 4096 →
      Gives (.accMsgRead m) s fun b =>
        let v := (s.alesh.readValue m.via key).2
        Responds b m.via (body 1 m.length v.length (slice v m.offset m.length)) ∧ SameBut [O.DICT_INBAND_COUNT] [] s.alesh b ∧
        b = { s.alesh with dict := b.dict, mgmt := b.mgmt, ports := b.ports }) ∧
    (∀ o now, objOf? key = some o → o.cls = .rw ∨ o.cls = .rwd ∧ s.alesh.rwdOpen key = true → o.ty = .dom → ownRow key = false → m.final = true → m.offset = 0 → m.length = m.data.length →
      m.length ≤ 4096 → s.alesh.staged = none → s.alesh.typeOk o m.data = true → contentOk key m.data = true →
      Gives (.accMsgWrite m now) s fun b =>
        b.dom key = keptBytes key m.data ∧ Responds b m.via (body 2 0 0 []) ∧ SameBut [O.DICT_INBAND_COUNT] [key] s.alesh b ∧
        b = { s.alesh with clock := b.clock, dict := b.dict, mgmt := b.mgmt, ports := b.ports }) ∧
    (∀ x, s.alesh.staged = some x → x.path = viaPath m.via → Gives (.accMsgAbort m) s fun b =>
      b.staged = none ∧ (b.num O.CTRL_FLAGS).testBit 6 = true ∧ Responds b m.via (body 3 0 0 []) ∧
      SameBut [O.CTRL_FLAGS, O.DICT_INBAND_COUNT] [] s.alesh b ∧
      b = { s.alesh with staged := none, dict := b.dict, evts := b.evts, mgmt := b.mgmt, ports := b.ports })

/-- A DICT response with an OP and a RESULT of the spec's ends the request that it answers; a request unanswered for its time is sent again, the same bytes, its resends
counted; a stored response leaves the store when its time is over. -/
def Obligations.InBandRequestsAreKept : Prop :=
  (∀ (s : State) (now : Nat) (m : Pkt) (q : Asked), Arrives s.alesh tDict m → 24 ≤ m.payload.length → m.payload.length ≤ 4120 →
    0x81 ≤ leAt m.payload 1 1 → leAt m.payload 1 1 ≤ 0x83 → leAt m.payload 14 2 ≤ 9 →
    (s.alesh.mgmt.asked.find? fun x => x.dst == m.src && x.reqId == leAt m.payload 2 2) = some q → q.isOrder = false →
    Gives (.dictResponseRx now m) s fun b =>
      let a := s.alesh.heard now m.src
      b = { a with mgmt := { a.mgmt with asked := s.alesh.mgmt.asked.filter fun x => !(x.dst == m.src && x.reqId == leAt m.payload 2 2) } }) ∧
  (∀ (s : State) (now dst id : Nat) (q : Asked), s.alesh.clock.valid = true →
    (s.alesh.mgmt.asked.find? fun x => x.dst == dst && x.reqId == id) = some q → q.due ≤ max s.alesh.clock.captured now →
    q.tries + 1 ≠ s.alesh.num O.RETRY_LIMIT → Gives (.dictResend now dst id) s fun b =>
      b.ports = (s.alesh.emit (s.alesh.cresol tDict dst 0 q.body)).ports ∧
      b.mgmt = { s.alesh.mgmt with asked := b.mgmt.asked } ∧ b.mgmt.asked.length = s.alesh.mgmt.asked.length ∧
      (∃ x ∈ b.mgmt.asked, x.dst = dst ∧ x.reqId = id ∧ x.body = q.body ∧ x.tries = q.tries + 1 ∧ x.due = b.ackDue) ∧
      b = { s.alesh with clock := b.clock, mgmt := b.mgmt, ports := b.ports }) ∧
  ∀ (s : State) (now src id : Nat) (x : Stored), s.alesh.clock.valid = true → x ∈ s.alesh.mgmt.stored → x.src = src → x.reqId = id →
    x.due ≤ max s.alesh.clock.captured now → Gives (.dictStoreExpiry now src id) s fun b =>
      x ∉ b.mgmt.stored ∧ (∀ y ∈ s.alesh.mgmt.stored, (y.src ≠ src ∨ y.reqId ≠ id) → y ∈ b.mgmt.stored) ∧
      b.mgmt = { s.alesh.mgmt with stored := b.mgmt.stored } ∧ b = { s.alesh with clock := b.clock, mgmt := b.mgmt }

/-- MCTP: a packet with a bad PEC is dropped and counted; a start packet that is not the end is kept; a Get Endpoint ID request in one
packet is answered. The control commands, once kclk has left reset, are answered on the bus; Set Endpoint ID sets MCTP_EID. The
formats are those of DSP0236, which the spec names and does not give (log entry 14).
I3C common command codes, once kclk has left reset (R380, R441): each is acknowledged; the events are enabled and disabled; the
dynamic address is assigned by ENTDAA and SETDASA to a target without one, changed by SETNEWDA in one that has it, and given up by
RSTDAA, with which a static address takes effect; the reads shift out their values; lengths of 69 to 253 are taken. Before kclk has
left reset none is acknowledged. -/
def Obligations.ManagementBusAnswers : Prop :=
  ((∀ (s : State) (now : Nat) (p : MctpPkt), s.alesh.ctl.upK = true → s.alesh.ctl.core ≠ .reset →
    (p.pecOk = false → Gives (.mctpPacketRx now p) s fun b =>
      b.num O.MGMT_PEC_ERR_COUNT = satAdd (widthOf O.MGMT_PEC_ERR_COUNT) (s.alesh.num O.MGMT_PEC_ERR_COUNT) 1 ∧
      SameBut [O.MGMT_PEC_ERR_COUNT] [] s.alesh b ∧ b = { s.alesh with clock := b.clock, dict := b.dict, mgmt := { s.alesh.mgmt with asm := none } }) ∧
    (p.pecOk = true → p.dst = s.alesh.num O.MCTP_EID → p.som = true → p.eom = false → Gives (.mctpPacketRx now p) s fun b =>
      b = { s.alesh with clock := b.clock, mgmt := { s.alesh.mgmt with asm := some (p.src, p.tag, p.seq, p.payload.take 4126) } }) ∧
    (∀ iid : Nat, iid < 32 → p.pecOk = true → p.dst = s.alesh.num O.MCTP_EID → p.som = true → p.eom = true →
      p.payload = [0x00, BitVec.ofNat 8 (0x80 + iid), 0x02] → Gives (.mctpPacketRx now p) s fun b =>
      b.mgmt = { s.alesh.mgmt with asm := none, out := s.alesh.mgmt.out ++ [(p.src, [0x00, BitVec.ofNat 8 iid, 0x02, 0x00] ++
        leBytes 1 (s.alesh.num O.MCTP_EID) ++ [0x00, 0x00])] } ∧ b = { s.alesh with clock := b.clock, mgmt := b.mgmt })) ∧
  ∀ (s : State) (src : Nat), s.alesh.ctl.upK = true →
    let answered (c : Instr) (body : Bytes) : Prop := Gives c s fun b =>
      b = { s.alesh with mgmt := { s.alesh.mgmt with out := s.alesh.mgmt.out ++ [(src, body)] } }
    (∀ op eid, op ≤ 1 → eid ≠ 0 → eid < 255 → Gives (.setEndpointId src op eid) s fun b =>
      b.num O.MCTP_EID = eid ∧ SameBut [O.MCTP_EID] [] s.alesh b ∧
      b = { s.alesh with dict := b.dict
                         mgmt := { s.alesh.mgmt with out := s.alesh.mgmt.out ++ [(src, [0, 0, 1, 0, 0] ++ leBytes 1 eid ++ [0])] } }) ∧
    (∀ op eid, op ≤ 1 → eid = 0 ∨ eid = 255 → answered (.setEndpointId src op eid) ([0, 0, 1, 2, 0] ++ leBytes 1 (s.alesh.num O.MCTP_EID) ++ [0])) ∧
    answered (.getEndpointId src) ([0, 0, 2, 0] ++ leBytes 1 (s.alesh.num O.MCTP_EID) ++ [0, 0]) ∧
    (∀ t, t = 0xFF ∨ t = 0x00 ∨ t = 0x7F → answered (.getMctpVersionSupport src t) [0, 0, 4, 0, 1, 0xF1, 0xF3, 0xF1, 0]) ∧
    answered (.getMessageTypeSupport src) [0, 0, 5, 0, 2, 0x00, 0x7F] ∧
    answered (.getVendorDefinedMessageSupport src 0) ([0, 0, 6, 0, 0xFF, 1] ++ beBytes 4 (s.alesh.num O.VENDOR_PEN) ++ [0, 0])) ∧
  (∀ s : State,
    let m := s.alesh.mgmt
    let gives (c : Instr) (f : Mgmt → Mgmt) : Prop := Gives c s fun b => b = { s.alesh with mgmt := f { m with i3cAck := true, i3cOut := [] } }
    let address (c : Instr) (v : Nat) (f : Mgmt → Mgmt) : Prop := Gives c s fun b =>
      b.num O.I3C_DYN_ADDR = v ∧ SameBut [O.I3C_DYN_ADDR] [] s.alesh b ∧
      b = { s.alesh with dict := b.dict, mgmt := f { m with i3cAck := true, i3cOut := [] } }
    (s.alesh.ctl.upK = true →
      (∀ k, k.testBit 0 = true → gives (.enec k) (fun x => { x with events := true }) ∧ gives (.disec k) (fun x => { x with events := false })) ∧
      address .rstdaa 0 (fun x => { x with staticAddr := s.alesh.num O.I3C_STATIC_ADDR }) ∧
      (∀ v, s.alesh.num O.I3C_DYN_ADDR = 0 → address (.entdaa v) v (fun x => { x with i3cOut := beBytes 6 m.pid ++ leBytes 1 m.bcr ++ leBytes 1 m.dcr })) ∧
      (∀ st v, s.alesh.num O.I3C_DYN_ADDR = 0 → st ≠ 0 → m.staticAddr = st → address (.setdasa st v) v id) ∧
      (∀ v, s.alesh.num O.I3C_DYN_ADDR ≠ 0 → address (.setnewda v) v id) ∧
      gives .getpid (fun x => { x with i3cOut := beBytes 6 m.pid }) ∧ gives .getbcr (fun x => { x with i3cOut := leBytes 1 m.bcr }) ∧
      gives .getdcr (fun x => { x with i3cOut := leBytes 1 m.dcr }) ∧
      gives .getstatus (fun x => { x with i3cOut := beBytes 2 (Config.i3cStatus m.out.length) }) ∧
      gives .getmwl (fun x => { x with i3cOut := beBytes 2 m.mwl }) ∧ gives .getmrl (fun x => { x with i3cOut := beBytes 2 m.mrl }) ∧
      ∀ v, 69 ≤ v → v ≤ 253 → gives (.setmwl v) (fun x => { x with mwl := v }) ∧ gives (.setmrl v) (fun x => { x with mrl := v })) ∧
    (s.alesh.ctl.upK = false → ∀ c ∈ [Instr.getpid, .getbcr, .getdcr, .getstatus, .getmwl, .getmrl, .entdaa 8, .setnewda 8],
      Gives c s fun b => b = { s.alesh with mgmt := { m with i3cAck := false, i3cOut := [] } }))

/-! ### Time and power (R434, R437, R438) -/

/-- Time. A count that comes while the captured value is not valid makes it valid, at the higher of the two, and the value never
decreases; a loss of validity is counted and raises evt_attention; a step forward of the port count is taken and counted, one
backward is held and counted; while a backward step is held, the next step's direction is judged by the port count that it set (log
entry 153). Nothing else changes where no timer of the core runs.
A move of the frequency point (R434): the voltage's acknowledgement lets a raise request its frequency and ends a lowering; the
frequency's acknowledgement sets GOV_MHZ, ends a raise, and lets a lowering request its voltage, where the table gives one. -/
def Obligations.TimeAndPowerMove : Prop :=
  ((∀ (s : State) (count : Nat), s.alesh.ctl.upT = true → s.alesh.clock.valid = true ∨ s.alesh.ctl.core = .reset →
    Gives (.timeBecomesValid count) s fun b => b = { s.alesh with clock := { captured := max s.alesh.clock.captured count, port := count, valid := true } }) ∧
  (∀ (s : State) (count : Nat), s.alesh.ctl.upT = true → s.alesh.clock.valid = false → s.alesh.ctl.core = .init ∨ s.alesh.ctl.core = .idle →
    s.alesh.memb = Memb.reset → s.alesh.leases = [] → s.alesh.ports.opened = [] → s.alesh.ports.queue = [] →
    s.alesh.coding = Coding.reset → s.alesh.take = Take.reset → s.alesh.plate = Plate.reset → s.alesh.comm = Comm.reset →
    s.alesh.merid = Merid.reset → s.alesh.mgmt.asked = [] → s.alesh.mgmt.stored = [] → s.alesh.fabric.reqs = [] →
    s.alesh.fabric.restTags = [] → s.alesh.fabric.atomics = [] → Gives (.timeBecomesValid count) s fun b =>
      b.clock = { captured := max s.alesh.clock.captured count, port := count, valid := true } ∧
      SameBut [O.HEALTH_FLAGS, O.FM_MIRROR_STALE] [] s.alesh b ∧
      b = { s.alesh with clock := b.clock, dict := b.dict, evts := b.evts, health := b.health }) ∧
  (∀ (s : State) (now : Nat), s.alesh.clock.valid = true → Gives (.timeBecomesInvalid now) s fun b =>
    b.clock.captured = max s.alesh.clock.captured now ∧ b.clock.valid = false ∧
    b.clock.port = (if s.alesh.clock.captured < now then now else s.alesh.clock.port) ∧ b.evts = { s.alesh.evts with pending := b.evts.pending } ∧
    b.evts.pending.testBit 1 = true ∧ b.num O.TIME_INVALID_COUNT = satAdd 32 (s.alesh.num O.TIME_INVALID_COUNT) 1 ∧
    SameBut [O.TIME_INVALID_COUNT] [] s.alesh b ∧ b = { s.alesh with clock := b.clock, dict := b.dict, evts := b.evts }) ∧
  ∀ (s : State) (now count : Nat), s.alesh.ctl.upT = true → s.alesh.clock.valid = true → Gives (.timeStep now count) s fun b =>
    let t := max s.alesh.clock.captured now
    let p := if s.alesh.clock.captured < now then now else s.alesh.clock.port
    b.clock = { captured := max t count, port := count, valid := true } ∧
    b.num O.TIME_STEP_COUNT = (if p ≤ count then satAdd 32 (s.alesh.num O.TIME_STEP_COUNT) 1 else s.alesh.num O.TIME_STEP_COUNT) ∧
    b.num O.TIME_BACK_COUNT = (if p ≤ count then s.alesh.num O.TIME_BACK_COUNT else satAdd 32 (s.alesh.num O.TIME_BACK_COUNT) 1) ∧
    SameBut [O.TIME_STEP_COUNT, O.TIME_BACK_COUNT] [] s.alesh b ∧ b = { s.alesh with clock := b.clock, dict := b.dict }) ∧
  (∀ (s : State) (mhz mv : Nat), s.alesh.pm.target = some (mhz, mv) →
    let p := s.alesh.pm
    let frame (b : Alesh) : Prop := SameBut [O.PM_STATE, O.GOV_MHZ] [] s.alesh b ∧ b = { s.alesh with pm := b.pm, dict := b.dict }
    (s.alesh.num O.PM_STATE = 1 → Gives .pmVoltageAck s fun b =>
      (p.raising = true → b.num O.PM_STATE = 2 ∧ b.pm = { p with vAck := !p.vAck, fReq := !p.fReq, fMhz := mhz }) ∧
      (p.raising = false → b.num O.PM_STATE = 0 ∧ b.pm = { p with vAck := !p.vAck, target := none }) ∧
      b.num O.GOV_MHZ = s.alesh.num O.GOV_MHZ ∧ frame b) ∧
    (s.alesh.num O.PM_STATE = 2 → Gives .pmFrequencyAck s fun b =>
      b.num O.GOV_MHZ = mhz ∧
      (p.raising = true ∨ mv = 0 → b.num O.PM_STATE = 0 ∧ b.pm = { p with fAck := !p.fAck, target := none }) ∧
      (p.raising = false → mv ≠ 0 → b.num O.PM_STATE = 1 ∧ b.pm = { p with fAck := !p.fAck, vReq := !p.vReq, vMv := mv }) ∧ frame b))

/-! ### Fabric ports: links, credit, packets (R148 to R150, R228, R415 to R423) -/

/-- A link that comes up starts without link credit to send with and, once fclk has left reset, grants FP_RX_CREDITS on every channel
(R380, R417); one that falls loses its credits, the packets being sent and those being received on it, and counts in FP_RETRAIN_COUNT
and class LK, as a retrain does; a credit return adds to its channel's count alone.
PACKET_TRANSMIT on FP0, one flit slot with the link up and fclk out of reset (log entry 134): where VC0 has credit, a flit of VC0
leaves before any other. A packet of VC0 that has begun there sends its next flit; else the first packet waiting on VC0 begins, and
its first flit leaves. The flit is counted and its credit spent; with its last flit the packet is sent whole, and every packet that
waits for peer credit counts in CREDIT_WAIT_COUNT (R149, R416, R417, R419, R420). A slot without a flit to send leaves none. -/
def Obligations.LinksCarryPackets : Prop :=
  ((∀ (s : State) (port : Nat), port ≤ 1 → s.alesh.linkIsUp port = false → Gives (.linkUp port) s fun b =>
    b.linkIsUp port = true ∧ b.linkIsUp (1 - port) = s.alesh.linkIsUp (1 - port) ∧
    b.num O.FP_LINK_STATE = (if b.ports.up0 then 1 else 0) + (if b.ports.up1 then 2 else 0) ∧
    (∀ v, v < 8 → b.txCredit port v = 0 ∧ (s.alesh.ctl.upF = true → b.rxCredit port v = s.alesh.num (O.FP_RX_CREDITS + v))) ∧
    SameBut [O.FP_LINK_STATE] [] s.alesh b ∧ b = { s.alesh with ports := b.ports, dict := b.dict }) ∧
  (∀ (s : State) (port : Nat), port ≤ 1 → s.alesh.linkIsUp port = true → Gives (.linkDown port) s fun b =>
    b.linkIsUp port = false ∧ (∀ v, v < 8 → b.txCredit port v = 0 ∧ b.rxCredit port v = 0) ∧ (∀ o ∈ b.ports.opened, o.port ≠ port) ∧
    (∀ o ∈ s.alesh.ports.opened, o.port ≠ port → o ∈ b.ports.opened) ∧
    b.ports.sending = s.alesh.ports.sending.filter (fun x => x.port != port) ∧
    b.num O.FP_RETRAIN_COUNT = satAdd (widthOf O.FP_RETRAIN_COUNT) (s.alesh.num O.FP_RETRAIN_COUNT) 1 ∧ b.health.now.lk = s.alesh.health.now.lk + 1 ∧
    SameBut [O.FP_LINK_STATE, O.FP_RETRAIN_COUNT, O.FP_RX_DISCARD_COUNT, O.HEALTH_FLAGS] [] s.alesh b ∧
    b = { s.alesh with ports := b.ports, dict := b.dict, evts := b.evts, health := b.health }) ∧
  (∀ (s : State) (port : Nat), port ≤ 1 → s.alesh.ctl.core ≠ .reset → Gives (.linkRetrain port) s fun b =>
    b.num O.FP_RETRAIN_COUNT = satAdd (widthOf O.FP_RETRAIN_COUNT) (s.alesh.num O.FP_RETRAIN_COUNT) 1 ∧
    b.health = { s.alesh.health with now := { s.alesh.health.now with lk := s.alesh.health.now.lk + 1 } } ∧
    (b.num O.HEALTH_FLAGS).testBit 11 = true ∧ SameBut [O.FP_RETRAIN_COUNT, O.HEALTH_FLAGS] [] s.alesh b ∧
    b = { s.alesh with dict := b.dict, evts := b.evts, health := b.health }) ∧
  ∀ (s : State) (port v c : Nat), s.alesh.ctl.upF = true → s.alesh.linkIsUp port = true → v ≤ 7 → Gives (.linkCreditReturn port v c) s fun b =>
    b.txCredit port v = s.alesh.txCredit port v + (c % 16 + 1) ∧
    (∀ q u, u ≤ 7 → (q, u) ≠ (port, v) → b.txCredit q u = s.alesh.txCredit q u) ∧
    b = { s.alesh with ports := { s.alesh.ports with txCredit := b.ports.txCredit } }) ∧
  (∀ (s : State) (now : Nat), s.alesh.maySend = true → s.alesh.ctl.upF = true → s.alesh.ports.up0 = true →
    let a := s.alesh.at now
    let wait := wrapAdd (widthOf O.CREDIT_WAIT_COUNT) (s.alesh.num O.CREDIT_WAIT_COUNT)
      (s.alesh.ports.queue.filter fun x => !a.peerOk x).length
    let frame (b : Alesh) : Prop := b.num O.CREDIT_WAIT_COUNT = wait ∧
      b = { s.alesh with clock := b.clock, ports := b.ports, dict := b.dict, health := b.health, work := b.work }
    let flit (b : Alesh) (x : Sending) : Prop :=
      b.ports.out0 = some (flitOf x.pkt x.pseq x.next) ∧ b.txCredit 0 0 = s.alesh.txCredit 0 0 - 1 ∧
      (pktFlits x.pkt ≤ x.next + 1 → b.ports.sent = some (x.pkt, 0, x.pseq) ∧ b.sendingOn 0 0 = none) ∧
      (x.next + 1 < pktFlits x.pkt → b.ports.sent = s.alesh.ports.sent ∧ b.sendingOn 0 0 = some { x with next := x.next + 1 }) ∧
      b.num O.VC_FLITS = wrapAdd (widthOf O.VC_FLITS) (s.alesh.num O.VC_FLITS) 1 ∧
      SameBut [O.VC_FLITS, O.CREDIT_WAIT_COUNT] [] s.alesh b ∧ frame b
    (∀ x, 0 < s.alesh.txCredit 0 0 → s.alesh.sendingOn 0 0 = some x → x.pkt.vc = 0 →
      (∀ y ∈ s.alesh.ports.sending, y.port = 0 → y.vc = 0 → y = x) → Gives (.packetTransmit now 0) s fun b =>
        b.ports.queue = s.alesh.ports.queue ∧ flit b x) ∧
    (∀ p, 0 < s.alesh.txCredit 0 0 → s.alesh.sendingOn 0 0 = none → (s.alesh.ports.queue.find? fun x => x.vc == 0) = some p →
      Gives (.packetTransmit now 0) s fun b =>
        b.ports.queue = s.alesh.ports.queue.erase p ∧ flit b { port := 0, vc := 0, pkt := p, pseq := 0, next := 0 }) ∧
    ((∀ v, v < 8 → a.readyOn s.alesh.ports.queue 0 v = none) → Gives (.packetTransmit now 0) s fun b =>
      b.ports.out0 = none ∧ b.ports.queue = s.alesh.ports.queue ∧ b.ports.sending = s.alesh.ports.sending ∧
      b.ports.sent = s.alesh.ports.sent ∧ b.ports.txCredit = s.alesh.ports.txCredit ∧ b.health = s.alesh.health ∧
      SameBut [O.CREDIT_WAIT_COUNT] [] s.alesh b ∧ frame b))

/-- Peer credit, sending side (R420): a CREDIT without REQUEST from a member, in each of its three limits, is adopted where it is
newer, and as the answer to this core's own REQUEST in any case, and the packet counts as a beacon (R220); the answer ends a void and
sets the next PSEQ back to LIMIT − PEER_WINDOW; the LIMIT before it is kept for a start in the same cclk (R423). A sender that has sent a peer no flit for LEASE_TERM_NS − LEASE_GUARD_NS holds its credit void; one whose next packet
waits sends a REQUEST.
Peer credit, receiving side (R421): LEASE_TERM_NS without a flit from a member, the base of each channel becomes its LIMIT and a
CREDIT says so; a packet of VC2 to VC4 that has been open for FP_GAP_NS is discarded and counted, and one of another channel stays; a
sequence below a packet that has been open
so long, and that never arrived, is completed. -/
def Obligations.PeerCreditPacesAndReturns : Prop :=
  ((∀ (s : State) (now src : Nat) (m : Pkt), s.alesh.idleToJob = true → bf m.args 0 18 = src → bf m.args 32 18 = s.alesh.node →
    bf m.args 64 8 = 1 → bf m.args 72 1 = 0 → s.alesh.isMember src = true → Gives (.creditPacketRx now m) s fun b =>
      (∀ v, v = 2 ∨ v = 3 ∨ v = 4 →
        let t := s.alesh.peerTx src v
        let l := bf m.args (128 + 16 * (v - 2)) 16
        let u := b.peerTx src v
        let at_ := (s.alesh.at now).now
        let old := if t.since = at_ then t.oldLimit else t.limit
        (t.asked = false → u = if newer16 l t.limit then { t with limit := l, oldLimit := old, since := at_ } else t) ∧
        (t.asked = true → u = { t with limit := l, oldLimit := old, since := at_, asked := false, void := false
                                       next := if t.void then (l + 65536 - s.alesh.num O.PEER_WINDOW) % 65536 else t.next })) ∧
      (∀ n v, n ≠ src → b.peerTx n v = s.alesh.peerTx n v) ∧ b = { s.alesh.heard now src with ports := b.ports }) ∧
  (∀ (s : State) (now node : Nat), s.alesh.joinedOrJob = true → s.alesh.isMember node = true → s.alesh.clock.valid = true →
    (∀ v, v = 2 ∨ v = 3 ∨ v = 4 →
      (s.alesh.peerTx node v).last + (s.alesh.num O.LEASE_TERM_NS - s.alesh.num O.LEASE_GUARD_NS) ≤ max s.alesh.clock.captured now) →
    Gives (.peerCreditVoid now node) s fun b =>
      (∀ v, v = 2 ∨ v = 3 ∨ v = 4 →
        let t := s.alesh.peerTx node v
        b.peerTx node v = { t with void := true, due := if t.mayStart then b.now + s.alesh.num O.FP_GAP_NS else t.due }) ∧
      (∀ n v, n ≠ node → b.peerTx n v = s.alesh.peerTx n v) ∧ b = { s.alesh with clock := b.clock, ports := b.ports }) ∧
  ∀ (s : State) (now : Nat) (p : Pkt), p ∈ s.alesh.ports.queue → p.kind = 0 → p.vc = 2 ∨ p.vc = 3 ∨ p.vc = 4 →
    (s.alesh.peerTx p.dst p.vc).mayStart = false → s.alesh.clock.valid = true → p.dst ≠ s.alesh.node → s.alesh.maySend = true →
    (s.alesh.peerTx p.dst p.vc).due ≤ max s.alesh.clock.captured now → Gives (.peerCreditWait now p.dst p.vc) s fun b =>
      (∃ c, b.ports.queue = s.alesh.ports.queue ++ [c] ∧ c.kind = 2 ∧ c.vc = 0 ∧ c.dst = p.dst ∧ bf c.args 72 1 = 1) ∧
      (b.peerTx p.dst p.vc).asked = true ∧ (b.peerTx p.dst p.vc).due = b.now + s.alesh.num O.FP_GAP_NS ∧
      b = { s.alesh with clock := b.clock, ports := b.ports }) ∧
  ((∀ (s : State) (now node : Nat), s.alesh.joinedOrJob = true → s.alesh.isMember node = true → s.alesh.clock.valid = true →
    max (s.alesh.num O.COMMENCE_TIME) (lookupD 0 s.alesh.ports.heardAt node) + s.alesh.num O.LEASE_TERM_NS ≤ max s.alesh.clock.captured now →
    Gives (.creditLeaseExpiry now node) s fun b =>
      (∀ v, v = 2 ∨ v = 3 ∨ v = 4 → (b.peerRx node v).base = s.alesh.rxLimit node v ∧ (b.peerRx node v).done = []) ∧
      (∀ n v, n ≠ node → b.peerRx n v = s.alesh.peerRx n v) ∧ b = { s.alesh with clock := b.clock, ports := b.ports }) ∧
  (∀ (s : State) (now port v : Nat) (o : OpenRx), s.alesh.clock.valid = true →
    v = 2 ∨ v = 3 ∨ v = 4 → (s.alesh.ports.opened.find? fun x => x.port == port && x.vc == v) = some o →
    o.since + s.alesh.num O.FP_GAP_NS ≤ max s.alesh.clock.captured now → Gives (.rxPacketGapTimeout now port v) s fun b =>
      b.ports.opened = s.alesh.ports.opened.filter (fun x => !(x.port == port && x.vc == v)) ∧
      b.num O.FP_RX_DISCARD_COUNT = satAdd (widthOf O.FP_RX_DISCARD_COUNT) (s.alesh.num O.FP_RX_DISCARD_COUNT) 1 ∧
      SameBut [O.FP_RX_DISCARD_COUNT] [] s.alesh b ∧ b = { s.alesh with clock := b.clock, ports := b.ports, dict := b.dict }) ∧
  (∀ (s : State) (now port v : Nat), v ≠ 2 → v ≠ 3 → v ≠ 4 → Gives (.rxPacketGapTimeout now port v) s fun b => b = s.alesh.at now) ∧
  ∀ (s : State) (now src v : Nat) (o : OpenRx), s.alesh.clock.valid = true → v = 2 ∨ v = 3 ∨ v = 4 → o ∈ s.alesh.ports.opened →
    o.kind = 0 → o.vc = v → o.src = src → o.since + s.alesh.num O.FP_GAP_NS ≤ max s.alesh.clock.captured now →
    let r := s.alesh.peerRx src v
    r.base < 65536 → off16 o.pseq r.base < 32768 → newer16 o.pseq r.base = true → r.done = [] →
    (∀ x ∈ s.alesh.ports.opened, x.kind = 0 → x.vc = v → x.src = src → x.pseq ≠ r.base) → Gives (.rxPseqLost now src v r.base) s fun b =>
      (b.peerRx src v).base = (r.base + 1) % 65536 ∧ (b.peerRx src v).done = [] ∧
      b = { s.alesh with clock := b.clock, ports := b.ports })

/-- A flit on a port whose link is up (R415, R416): one with sop, where its channel has no packet open, opens a packet; with the eop
too, and whole, the packet has the effect of the command of its kind, type and subtype, on the core as the flit leaves it; a packet
with a flit that had no credit is bad; one without sop where none is open is discarded and counted.
A whole packet has the effect of the row of its type and subtype (R177, R182 to R188, R217, R230, R257, R308); one of type DELTA with
the length of a base page or of a slot's copy is such a one (log entry 33). -/
def Obligations.FlitsMakePacketsThatAct : Prop :=
  (∀ (s : State) (now port : Nat) (f : Flit), s.alesh.ctl.upF = true → s.alesh.linkIsUp port = true → f.vc ≤ 7 →
    (s.alesh.ports.opened.find? fun o => o.port == port && o.vc == f.vc) = none →
    let frame (b : Alesh) : Prop := b = { s.alesh with clock := b.clock, ports := b.ports, dict := b.dict, work := b.work }
    (f.sop = true → f.eop = false → Gives (.fabricFlitRx now port f) s fun b =>
      (∃ o ∈ b.ports.opened, o.port = port ∧ o.vc = f.vc ∧ o.kind = f.kind ∧ o.len = f.len ∧ o.pseq = f.pseq ∧ o.bytes = slice f.bytes 0 128 ∧
        o.flits = 1 ∧ (0 < s.alesh.rxCredit port f.vc → o.bad = false) ∧
        (s.alesh.rxCredit port f.vc = 0 → lookupD 0 s.alesh.ports.kept (lane port f.vc) = 0 → o.bad = true)) ∧
      (∀ x ∈ s.alesh.ports.opened, x ∈ b.ports.opened) ∧ SameBut [] [] s.alesh b ∧ frame b) ∧
    (f.sop = false → Gives (.fabricFlitRx now port f) s fun b =>
      b.num O.FP_RX_DISCARD_COUNT = satAdd (widthOf O.FP_RX_DISCARD_COUNT) (s.alesh.num O.FP_RX_DISCARD_COUNT) 1 ∧
      b.ports.opened = s.alesh.ports.opened ∧ SameBut [O.FP_RX_DISCARD_COUNT] [] s.alesh b ∧ frame b) ∧
    (0 < s.alesh.rxCredit port f.vc → f.sop = true → f.eop = true → f.err = false → f.kind = 0 → f.vc ≤ 4 → 16 ≤ f.len → f.len ≤ 128 → 0 < s.alesh.num O.FP_GAP_NS →
      ∃ a, exec (.fabricFlitRx now port f) s = thenCredits (deliver now (packetOf 0 f.vc (slice (slice f.bytes 0 128) 0 f.len)) { s with alesh := a }) ∧
        a.ports.opened = s.alesh.ports.opened ∧ frame a)) ∧
  (∀ (s : State) (now : Nat) (m : Pkt),
    let sub := bf m.args 60 4
    let act := bf m.args 16 8
    let does (typ : Nat) (p : Prop) (c : Instr) : Prop := m.kind = 0 → m.typ = typ → p → deliver now m s = exec c s
    let fabric (op : Nat) (c : Instr) : Prop := m.kind = 1 → m.typ = op → deliver now m s = exec c s
    does 0 (sub = 0) (.helloBeaconRx now m) ∧ does 0 (sub = 1) (.helloArriveRx now m) ∧ does 0 (sub = 2) (.helloReleaseRx now m) ∧
    does 0 (sub = 3) (.commenceRx now m) ∧ does 0 (sub = 4 ∧ leAt m.payload 4 1 = 0) (.commenceAckTreeRx now m) ∧
    does 0 (sub = 4 ∧ leAt m.payload 4 1 ≠ 0) (.commenceAckGroupRx now m) ∧
    does 1 (m.payload.length ≠ 16 + pageBytes ∧ m.payload.length ≠ copyBytes) (.deltaRx now m) ∧
    does 1 (m.payload.length = 16 + pageBytes ∨ m.payload.length = copyBytes) (.basePageRx now m) ∧ does 2 True (.holdAckRx now m) ∧ does 3 (act = 0) (.commitRx now m) ∧ does 3 (act = 1) (.abandonRx now m) ∧
    does 4 True (.fragReqRx now m) ∧ does 5 True (.fragDataRx now m) ∧ does 6 True (.partRx now m) ∧ does 7 True (.retainRelRx now m) ∧
    does 9 True (.occultRx now m) ∧
    does 10 (sub = 0) (.cutRx now m) ∧ does 10 (sub = 1) (.cutAckRx now m) ∧ does 10 (sub = 2) (.drainedRx now m) ∧
    does 10 (sub = 3) (.sealedRx now m) ∧ does 10 (sub = 4) (.plateAbortRx now m) ∧
    does 11 (sub = 0) (.extBuildRx now m) ∧ does 11 (sub = 1) (.extActivateRx now m) ∧ does 11 (sub = 2) (.extWithdrawRx now m) ∧
    does 11 (sub = 3) (.extCancelRx now m) ∧ does 11 (sub = 4) (.grantMembershipRx now m) ∧ does 11 (sub = 5) (.membPullRx now m) ∧
    does 11 (sub = 6) (.restripeBuildRx now m) ∧ does 11 (sub = 7) (.restripeSwitchRx now m) ∧
    does 12 (m.args.testBit 63 = true) (.dictResponseRx now m) ∧
    fabric 0 (.fabricLoadRx now m) ∧ fabric 1 (.fabricStoreRx now m) ∧ fabric 2 (.fabricAtomicRx now m) ∧ fabric 3 (.bulkReadRx now m) ∧
    fabric 4 (.bulkWriteRx now m) ∧ fabric 5 (.invalRx now m) ∧ fabric 6 (.checkPutRx now m) ∧ fabric 8 (.fabricResponseRx now m) ∧
    (m.kind = 2 → deliver now m s = exec (.creditPacketRx now m) s))

/-! ### Memory side, retirement, scrubbing (R400 to R407, R410 to R414) -/

/-- A read burst whose beats are all without error counts its bytes and nothing else; an uncorrectable beat of the tier window counts
the burst in MSP_UE_COUNT, is a bus error, and makes the reading unit FAULTED where its path needs the data. A write response without
error counts its bytes; with one, Tier 0 changes in the burst's bytes alone, and the pages that it touched are kept as bad. -/
def Obligations.MemorySideOutcomes : Prop :=
  (∀ (s : State) (now : Nat) (x : ReadBurst), s.alesh.ctl.core ≠ .reset → s.alesh.ctl.upM = true → (∀ p ∈ x.beats, p = (0, 0)) →
    Gives (.mspReadReturn now x) s fun b =>
      b.num O.MSP_RD_BYTES = wrapAdd (widthOf O.MSP_RD_BYTES) (s.alesh.num O.MSP_RD_BYTES) (64 * x.beats.length) ∧
      SameBut [O.MSP_RD_BYTES, O.MSP_SHORT_BURSTS, O.MSP_ECC_RESERVED_COUNT, O.CE_COUNT] [] s.alesh b ∧ b.health = s.alesh.health ∧
      b = { s.alesh with clock := b.clock, dict := b.dict, health := b.health, work := b.work }) ∧
  (∀ (s : State) (now : Nat) (x : ReadBurst) (u : Nat), s.alesh.ctl.core ≠ .reset → s.alesh.ctl.upM = true → x.tier1 = true →
    (∃ p ∈ x.beats, p.1 = 3 ∨ p.2 = 2 ∨ p.2 = 3) → x.reader = .unit u → u = 1 ∨ u = 2 ∨ u = 4 ∨ u = 5 → s.alesh.ctl.units.length = 9 →
    Gives (.mspReadReturn now x) s fun b =>
      b.num O.MSP_UE_COUNT = satAdd (widthOf O.MSP_UE_COUNT) (s.alesh.num O.MSP_UE_COUNT) 1 ∧
      b.num O.BUSERR_COUNT = satAdd (widthOf O.BUSERR_COUNT) (s.alesh.num O.BUSERR_COUNT) 1 ∧ b.unit u = .faulted ∧
      (∀ v, v ≠ u → b.unit v = s.alesh.unit v) ∧ b.mem1 = s.alesh.mem1 ∧ b.mem0 = s.alesh.mem0) ∧
  (∀ (s : State) (w : WriteBurst), s.alesh.ctl.core ≠ .reset → s.alesh.ctl.upM = true → w.status = 0 → Gives (.mspWriteResponse w) s fun b =>
      b.num O.MSP_WR_BYTES = wrapAdd (widthOf O.MSP_WR_BYTES) (s.alesh.num O.MSP_WR_BYTES) (64 * w.beats) ∧
      SameBut [O.MSP_WR_BYTES, O.MSP_SHORT_BURSTS] [] s.alesh b ∧ b = { s.alesh with dict := b.dict, work := b.work }) ∧
  ∀ (s : State) (w : WriteBurst), s.alesh.ctl.core ≠ .reset → s.alesh.ctl.upM = true → w.status ≠ 0 → w.tier1 = false → s.alesh.errs.retired = [] →
    Gives (.mspWriteResponse w) s fun b =>
      b.num O.MSP_WR_ERR_COUNT = satAdd (widthOf O.MSP_WR_ERR_COUNT) (s.alesh.num O.MSP_WR_ERR_COUNT) 1 ∧
      (∀ i, i < w.beats → (w.addr + 64 * i) / 65536 ∈ b.errs.bad) ∧ (∀ p ∈ s.alesh.errs.bad, p ∈ b.errs.bad) ∧
      (∀ x, ¬(w.addr ≤ x ∧ x < w.addr + 64 * w.beats) → b.mem0.get x = s.alesh.mem0.get x) ∧
      b = { s.alesh with ctl := { s.alesh.ctl with draws := b.ctl.draws }, dict := b.dict, work := b.work, mem0 := b.mem0
                         errs := { s.alesh.errs with bad := b.errs.bad } }

/-- Retirement (R405): once a page's copy is complete the spare holds the page's bytes and every access to the page goes to the spare.
The page here has no record of its own.
The scrubber (R406, R407): SCRUB_START with a legal range of at least one page begins a scan, and is BUSY while one runs; each page
read moves the scan on by one page, in increasing address order and no faster than SCRUB_PAGES_PER_MS; after the last the state is
DONE, in a job once the repairs that the scan waits for have ended (log entry 142). Over pages without error that lie in none of the
areas with records nothing but the scan changes. -/
def Obligations.RetiredPagesAndScrubs : Prop :=
  (∀ (s : State) (page spare : Nat), lookup? s.alesh.errs.copying page = some spare → lookup? s.alesh.errs.retired page = none →
    inArea (s.alesh.num O.STATE_BASE) (s.alesh.slotCount * 16777216) (page * 65536) = false →
    inArea (s.alesh.parityBase false) (s.alesh.num O.PARITY_SLOTS * 16777216) (page * 65536) = false →
    inArea (s.alesh.parityBase true) (s.alesh.num O.PARITY_ALT_SLOTS * 16777216) (page * 65536) = false →
    Gives (.pageRetireCopyComplete page) s fun b =>
      let at_ := s.alesh.num O.SPARE_BASE + spare * 65536
      (∀ x, x < 65536 → b.place (page * 65536 + x) = at_ + x) ∧
      (∀ x, x < 65536 → b.mem0.get (at_ + x) = s.alesh.mem0.get (page * 65536 + x)) ∧
      (∀ x, ¬(at_ ≤ x ∧ x < at_ + 65536) → b.mem0.get x = s.alesh.mem0.get x) ∧
      (∀ q, q / 65536 ≠ page → b.place q = s.alesh.place q) ∧
      b.num O.RETIRED_COUNT = s.alesh.errs.retired.length + 1 ∧ SameBut [O.RETIRED_COUNT] [] s.alesh b ∧
      b = { s.alesh with errs := b.errs, mem0 := b.mem0, dict := b.dict }) ∧
  ((∀ (s : State) (via : Via) (now : Nat), Admits s.alesh via → s.alesh.idleToJob = true ∨ s.alesh.ctl.core = .maint →
    let r := s.alesh.dom O.SCRUB_RANGE
    let at_ := leAt r 0 8
    let n := leAt r 8 8
    at_ % 65536 = 0 → n % 65536 = 0 → at_ < 2 ^ 40 → at_ + n ≤ 2 ^ 40 →
    (0 < n → s.alesh.errs.scan = none → Ends (.scrubStart via now) s via O.SCRUB_START false .ok fun b =>
      (∃ x, b.errs = { s.alesh.errs with scan := some x } ∧ x.addr = at_ ∧ x.stop = at_ + n ∧ x.pages = 0) ∧ b.num O.SCRUB_STATE = 1 ∧
      SameBut [O.SCRUB_STATE, O.DICT_INBAND_COUNT] [] s.alesh b ∧
      b = { s.alesh with clock := b.clock, errs := b.errs, dict := b.dict, win := b.win, mgmt := b.mgmt, ports := b.ports }) ∧
    (∀ x, s.alesh.errs.scan = some x → Ends (.scrubStart via now) s via O.SCRUB_START false .busy fun b => b.errs = s.alesh.errs)) ∧
  ∀ (s : State) (now : Nat) (x : Scan), s.alesh.errs.scan = some x → (s.alesh.errs.bad.contains (x.addr / 65536)) = false →
    (∀ y, x.addr ≤ y → y < x.addr + 65536 → s.alesh.slotAt y = none ∧ s.alesh.parityAt false y = none ∧ s.alesh.parityAt true y = none) →
    let t := if s.alesh.clock.valid then max s.alesh.clock.captured now else s.alesh.clock.captured
    let room := ((t - x.start) / 1000000 + 1) * s.alesh.num O.SCRUB_PAGES_PER_MS
    let ends (y : Scan) (b : Alesh) : Prop :=
      (x.waits = [] ∨ s.alesh.inJob = false → b.errs.scan = none ∧ b.num O.SCRUB_STATE = 2 ∧ b.dom O.SCRUB_SUMMARY = y.summary ∧
        SameBut [O.SCRUB_STATE] [O.SCRUB_SUMMARY] s.alesh b) ∧
      (x.waits ≠ [] → s.alesh.inJob = true → b.errs.scan = some y ∧ SameBut [] [] s.alesh b)
    let frame (b : Alesh) : Prop := b = { s.alesh with clock := b.clock, errs := { s.alesh.errs with scan := b.errs.scan }, dict := b.dict }
    (x.addr < x.stop → x.pages < room → Gives (.scrubPage now) s fun b =>
      (x.addr + 65536 < x.stop → b.errs.scan = some { x with addr := x.addr + 65536, pages := x.pages + 1 } ∧ SameBut [] [] s.alesh b) ∧
      (x.stop ≤ x.addr + 65536 → ends { x with addr := x.addr + 65536, pages := x.pages + 1 } b) ∧ frame b) ∧
    (x.addr < x.stop → room ≤ x.pages → Gives (.scrubPage now) s fun b => b = s.alesh.at now) ∧
    (x.stop ≤ x.addr → Gives (.scrubPage now) s fun b => ends x b ∧ frame b))

/-! ### The compute event port and the reduction engine (R16, R122 to R147, R185, R186, R424 to R431) -/

/-- Inbound tokens in a core that has joined (R426): a CONTRIB, RELEASE or LSE token that is well-formed, of the epoch in progress (at the
edge of a release, the one that the release makes: R25) or the one above, and not yet held is held and does nothing else; a stale one is counted, its slot given back; a token of a reserved or
outbound TYPE is counted as malformed and raises evt_attention. The oldest outbound token leaves when it is taken, and the oldest that
waits for room in the queue of 256 takes its place; the edges that it waited count in CEP_OUT_STALL_COUNT, their number a free value
(R427, log entry 104). -/
def Obligations.TokensAreTakenOnce : Prop :=
  ∀ (s : State) (w : Nat), s.alesh.joinedOrJob = true →
    let a := s.alesh
    let e := restore 4 a.classEpoch (bf w 56 4)
    let slot := bf w 0 16
    let live : Prop := e = a.classEpoch ∨ e = a.classEpoch + 1
    let frame (b : Alesh) : Prop := b = { a with dict := b.dict, evts := b.evts, cep := b.cep }
    (let item := bf w 18 18
     let v := bf w 36 16
     let null := bf w 55 1 == 1
     item < a.plan.itemCount → (null = true ∨ slot < a.plan.slots) →
      (live → a.hosts v = true → (∀ c ∈ a.red.contribs, ¬(c.replica = v ∧ c.item = item ∧ c.epoch = e)) → Gives (.contrib w) s fun b =>
        b = { a with red := { a.red with contribs := a.red.contribs ++
          [{ replica := v, item := item, epoch := e, slot := slot, null := null, read := false }] } }) ∧
      (¬ live → null = false → Gives (.contrib w) s fun b =>
        b.num O.CEP_STALE_COUNT = satAdd (widthOf O.CEP_STALE_COUNT) (a.num O.CEP_STALE_COUNT) 1 ∧
        b.cep = (if a.cep.held = [] ∧ a.cep.out.length < 256 then { a.cep with out := a.cep.out ++ [tokConsumed slot] }
          else { a.cep with held := a.cep.held ++ [(uReduce, tokConsumed slot)] }) ∧
        SameBut [O.CEP_STALE_COUNT] [] a b ∧ frame b)) ∧
    (live → (slot, e) ∉ a.pub.tokens → Gives (.releaseToken w) s fun b =>
      b = { a with pub := { a.pub with tokens := a.pub.tokens ++ [(slot, e)] } }) ∧
    (∀ m, a.plan.merges[bf w 48 8]? = some m → slot < a.plan.slots → m.first ≤ bf w 32 16 → bf w 32 16 < m.first + m.count →
      bf w 16 16 < m.qblocks → live →
      (∀ c ∈ a.red.lse, ¬(c.merge = bf w 48 8 ∧ c.chunk = bf w 32 16 ∧ c.qblock = bf w 16 16 ∧ c.epoch = e)) → Gives (.lsePart w) s fun b =>
        b = { a with red := { a.red with lse := a.red.lse ++
          [{ merge := bf w 48 8, chunk := bf w 32 16, qblock := bf w 16 16, epoch := e, slot := slot, read := false }] } }) ∧
    (bf w 60 4 ≠ 1 → bf w 60 4 ≠ 2 → bf w 60 4 ≠ 3 → Gives (.malformedCepToken w) s fun b =>
      b.num O.CEP_MALFORMED_COUNT = satAdd (widthOf O.CEP_MALFORMED_COUNT) (a.num O.CEP_MALFORMED_COUNT) 1 ∧ b.evts.pending.testBit 1 = true ∧
      SameBut [O.CEP_MALFORMED_COUNT] [] a b ∧ frame b) ∧
    (a.cep.out = [] → Gives .cepTokenOut s fun b => b = a) ∧
    ∀ t r, a.cep.out = t :: r → Gives .cepTokenOut s fun b =>
      (a.cep.held = [] → b.cep = { a.cep with out := r }) ∧
      (∀ u x h, a.cep.held = (u, x) :: h → b.cep = (if r.length < 256 then { a.cep with out := r ++ [x], held := h } else { a.cep with out := r })) ∧
      SameBut [O.CEP_OUT_STALL_COUNT] [] a b ∧ b = { a with cep := b.cep, dict := b.dict, ctl := { a.ctl with draws := a.ctl.draws + 1 } }

/-- A maximal aligned subtree of the hosting range whose leaves and inner nodes are present, of an epoch that a running unit reduces
(R124, R127, R133): its node goes as a PART to the slice's owner, and is retained; its contributions count as read and their slots are
given back. A node that its bundle takes waits for the bundle, which goes once every member is there (R431). -/
def Obligations.LocalPartialsAreSentAndRetained : Prop :=
  (∀ (s : State) (now item e level index : Nat) (it : PlanItem) (v : NodeVal), s.alesh.reducing = true →
    let a := s.alesh.at now
    let g := if it.kind = kHdr then headerGsid else it.gsid
    let mine (c : Contrib) : Bool := c.item == item && c.epoch == e && c.replica / 2 ^ level == index && !c.read
    let first := a.num O.VREPLICA_FIRST
    let dst := if it.kind = kHdr then a.combiner else a.ownerOf g
    let p : Part := { kind := it.kind, epoch := e, gsid := g, level := level, index := index, val := v, peer := dst }
    a.plan.items[item]? = some it → it.kind ≠ kLse → dst ≠ a.node →
    (level, index) ∈ alignedCut (2 ^ 17) first (first + a.num O.VREPLICA_COUNT - 1) →
    a.formNode it.kind e g 0 level index ((a.red.contribs.filter mine).map fun c => (c.replica, (a.leaf it c).1)) = some v →
    a.poolStopped = false → a.poolUsed + a.partPages p ≤ a.num O.REDUCE_PAGES - a.num O.REDUCE_OWNER_PAGES → a.retainUsed + a.partPages p ≤ a.num O.RETAIN_PAGES →
    let toks := ((a.red.contribs.filter mine).filter fun c => !c.null).map fun c => tokConsumed c.slot
    Gives (.localPartial now item e level index) s fun b =>
      (∀ c ∈ b.red.contribs, c.item = item → c.epoch = e → c.replica / 2 ^ level = index → c.read = true) ∧
      b.cep = (toks.foldl (fun (d : Alesh) (t : Nat) => d.post uReduce t) a).cep ∧
      (a.cep.held = [] → a.cep.out.length + toks.length ≤ 256 → b.cep = { a.cep with out := a.cep.out ++ toks }) ∧
      (it.bundle = 0xFFFF → b.red.retained = a.red.retained ++ [p] ∧ b.red.waiting = a.red.waiting ∧
        b.ports = (a.emit (a.cresol tPart dst (a.partArgsOf p) (a.nodePayload g level v))).ports) ∧
      (it.bundle ≠ 0xFFFF → b.red.waiting = a.red.waiting ++ [p] ∧ b.red.retained = a.red.retained ∧ b.ports = a.ports) ∧
      SameBut [O.SPARSE_DROP_COUNT, O.SPARSE_MALFORMED_COUNT, O.RETAIN_USED, O.BUNDLE_SMALL_COUNT] [] a b ∧
      b = { a with red := b.red, chrono := b.chrono, dict := b.dict, cep := b.cep, ports := b.ports }) ∧
  ∀ (s : State) (bundle e dst : Nat), s.alesh.reducing = true → bundle ≠ 0xFFFF →
    let a := s.alesh
    let ms := a.bundleMembers bundle e dst
    let ps := ms.filterMap id
    ms ≠ [] → (∀ x ∈ ms, x.isSome = true) → a.retainUsed + sumNat (ps.map a.partPages) ≤ a.num O.RETAIN_PAGES →
    Gives (.bundleSend bundle e dst) s fun b =>
      b.red = { a.red with waiting := a.red.waiting.filter (fun p => !ps.contains p), retained := a.red.retained ++ ps } ∧
      b.num O.RETAIN_USED = sumNat ((a.red.retained ++ ps).map a.partPages) ∧ SameBut [O.RETAIN_USED] [] a b ∧
      b = { a with red := b.red, dict := b.dict, ports := b.ports }

/-- Owner combine does not depend on the cover (R122, R125): whichever nodes of the canonical tree are held, with their canonical
values, the value formed for a node is its canonical value; and it is formed whenever the nodes held cover every leaf below it.
The cut of R124 covers the hosting range and nothing else, each replica once, by aligned nodes. -/
def Obligations.CoversAndCutsAreCanonical : Prop :=
  (∀ (d : Nat) (leaf : Nat → NodeVal) (held : List ((Nat × Nat) × NodeVal)),
    (∀ p ∈ held, p.2 = canonNode d leaf p.1.1 p.1.2) → ∀ l i : Nat,
      (∀ v, combineNode d held l i = some v → v = canonNode d leaf l i) ∧
      ((∀ r, r / 2 ^ l = i → ∃ p ∈ held, p.1.1 ≤ l ∧ r / 2 ^ p.1.1 = p.1.2) → combineNode d held l i = some (canonNode d leaf l i))) ∧
  (∀ a b : Nat, a ≤ b → b < 65536 →
    let cut := alignedCut (2 ^ 17) a b
    (∀ n ∈ cut, n.1 ≤ 16 ∧ a ≤ n.2 * 2 ^ n.1 ∧ (n.2 + 1) * 2 ^ n.1 ≤ b + 1) ∧
    (∀ r, a ≤ r → r ≤ b → (cut.filter fun n => decide (r / 2 ^ n.1 = n.2)).length = 1))

/-- PART packets of the epoch in progress or the one above, well-formed and not yet held, are held (R132, R185): a dense partial for
owner combine, in place of the nodes inside it, and owner combine completes when the partials held cover every replica and the pool has
room; a HEADER_ROOT becomes the reduced gradient of every header slice owned that has none, where the pool has room for all; NORM entries and roots are held one by one; an attention partial is held at its destination. -/
def Obligations.PartsAreHeldByTheirEpoch : Prop :=
  ∀ (s : State) (now : Nat) (m : Pkt), Arrives s.alesh tPart m → s.alesh.joinedOrJob = true →
    let a := s.alesh.heard now m.src
    let args (k : Nat) : PartArgs := PartArgs.ofNat (m.args % 2 ^ 60 + k * 2 ^ 60)
    let x := PartArgs.ofNat m.args
    let e := a.epochOf x.epochLo
    let live : Prop := e = a.classEpoch ∨ e = a.classEpoch + 1
    let heads := a.take.owned.filter isHeader
    let used := a.progs.flatMap fun p => p.gradPages.flatMap fun q => q.2.map (·.1)
    let room : Prop := heads.length * gradPages (a.gradCount 0) ≤ ((List.range (a.num O.REDUCE_PAGES)).filter fun i => !used.contains i).length
    (x.kind = kDense → s.alesh.partOk x m.payload = true → a.takes (a.densePart m.src x m.payload) →
      Gives (.partRx now m) s (a.tookDense (a.densePart m.src x m.payload))) ∧
    (let y := args kHdrRoot
     s.alesh.partOk y m.payload = true → live → room → (∃ g ∈ heads, a.grad? g e = none) → Gives (.headerRootRx now m) s fun b =>
      (∀ g ∈ heads, (a.prog? g).isSome = true → a.grad? g e = none →
        b.grad? g e = some (sliceValues (a.gradCount 0) (m.payload.take (4 * a.gradCount 0)))) ∧
      (∀ q ∈ a.red.held, q ∈ b.red.held) ∧
      b = { a with progs := b.progs, red := { a.red with held := b.red.held }, mem0 := b.mem0 }) ∧
    (s.alesh.partOk (args kNorm) m.payload = true → live →
      (∀ n ∈ normEntries e m.payload, ∀ q, (q ∈ a.red.norms ∧ q.epoch = e ∨ q ∈ normEntries e m.payload) → q.key = n.key → q.op = n.op) →
      Gives (.normRx now m) s fun b =>
        (∀ n ∈ normEntries e m.payload, ∃ q ∈ b.red.norms, q.epoch = e ∧ q.key = n.key ∧ q.gsid = n.gsid) ∧
        (∀ q ∈ a.red.norms, q ∈ b.red.norms) ∧ b = { a with red := { a.red with norms := b.red.norms }, ports := b.ports }) ∧
    (s.alesh.partOk (args kNormRoot) m.payload = true → live →
      (∀ n ∈ normEntries e m.payload, ∀ q, (q ∈ a.red.roots ∧ q.epoch = e ∨ q ∈ normEntries e m.payload) → q.key = n.key → q.op = n.op) →
      Gives (.normRootRx now m) s fun b =>
      (∀ n ∈ normEntries e m.payload, ∃ q ∈ b.red.roots, q.epoch = e ∧ q.key = n.key) ∧ (∀ q ∈ a.red.roots, q ∈ b.red.roots) ∧
      b = { a with red := { a.red with roots := b.red.roots } }) ∧
    (∀ mg, a.plan.merges[x.shard]? = some mg → s.alesh.partOk (args kLse) m.payload = true → live →
      let n := treeLevel mg.log2 x.node
      let p : Part := { kind := kLse, epoch := e, gsid := x.gsid, level := n.1, index := n.2, val := .lse m.payload, peer := m.src }
      let c := a.pooled p
      a.takes p → Gives (.lseRx now m) s fun b => b = { c with red := { c.red with
        held := a.red.held.filter (fun q => !(q.kind == kLse && q.gsid == x.gsid && q.epoch == e && nodeInside q.level q.index n.1 n.2)) ++ [p] } })

/-- A member of a bundle has the effect of the PART that it carries, as its own header makes it (R145, R146); so a bundle with one
dense partial that is live and not yet held has that partial held. RETAIN_REL from the owner of a slice ends the retention of its
partials of that epoch, all but the header's (R133, R186). -/
def Obligations.BundlesAndRetentionRelease : Prop :=
  (∀ (s : State) (now : Nat) (m : Pkt) (d : DirEntry), Arrives s.alesh tPart m → s.alesh.joinedOrJob = true → bundleOf m.payload = [d] →
    bundleOk m.payload = true → bf m.args 0 52 = 0 →
    let p := memberPkt m.payload d
    let t : State := { s with alesh := s.alesh.heard now m.src }
    p.typ = tPart →
    exec (.bundleRx now m) s = exec (.partRx now p) t ∧
    (let a := t.alesh.heard now p.src
     let x := PartArgs.ofNat p.args
     Arrives t.alesh tPart p → x.kind = kDense → t.alesh.partOk x p.payload = true → a.takes (a.densePart p.src x p.payload) →
      Gives (.bundleRx now m) s (a.tookDense (a.densePart p.src x p.payload)))) ∧
  ∀ (s : State) (now : Nat) (m : Pkt), Arrives s.alesh tRetainRel m → m.payload = [] → bf m.args 16 16 ≠ 0xFFFF →
    let a := s.alesh.heard now m.src
    let g := bf m.args 0 32
    let e := a.epochOf (bf m.args 56 8)
    a.ownerOf g = m.src → a.red.waiting = [] → Gives (.retainRelRx now m) s fun b =>
      b.red = { a.red with retained := a.red.retained.filter fun p => !(p.gsid == g && p.epoch == e && p.kind != kHdr) } ∧
      b.num O.RETAIN_USED = sumNat (b.red.retained.map a.partPages) ∧ SameBut [O.RETAIN_USED] [] a b ∧ b = { a with red := b.red, dict := b.dict }

/-- Attention merges (R142 to R144): a maximal aligned subtree of the chunks hosted goes as a partial to the merge's destination, its
slots given back; where the lists of its parts differ in (position, head), each part goes there by itself. At the destination, once the
partials cover every chunk, the merged records are written at OUT and MERGE_DONE is posted; where their lists differ the merge is
malformed, its result the first list with every value the canonical NaN. -/
def Obligations.AttentionMergesComplete : Prop :=
  (∀ (s : State) (now mg q e level index : Nat) (mr : PlanMerge) (v : NodeVal), s.alesh.reducing = true →
    let a := s.alesh.at now
    let g := mg * 65536 + q
    let mine (c : LsePart) : Bool := c.merge == mg && c.qblock == q && c.epoch == e && c.chunk / 2 ^ level == index && !c.read
    let leaf (c : LsePart) : NodeVal := .lse (a.rd (a.plan.base + c.slot * a.plan.slotBytes) mr.blockBytes)
    let inner := a.red.inner.filter fun p => p.kind == kLse && p.epoch == e && p.gsid == g && nodeInside p.level p.index level index
    let pieces : List Part := inner ++ (a.red.lse.filter mine).map fun c =>
      { kind := kLse, epoch := e, gsid := g, level := 0, index := c.chunk, val := leaf c, peer := a.node }
    let p : Part := { kind := kLse, epoch := e, gsid := g, level := level, index := index, val := v, peer := mr.dest }
    let toks := (a.red.lse.filter mine).map fun c => tokConsumed c.slot
    a.plan.merges[mg]? = some mr → (level, index) ∈ alignedCut (2 ^ 17) mr.first (mr.first + mr.count - 1) → mr.dest ≠ a.node →
    a.poolStopped = false → a.poolUsed + a.partPages p ≤ a.num O.REDUCE_PAGES - a.num O.REDUCE_OWNER_PAGES →
    a.formNode kLse e g mr.d level index ((a.red.lse.filter mine).map fun c => (c.chunk, leaf c)) = some v →
    Gives (.lseLocalPartial now mg q e level index) s fun b =>
      (∀ c ∈ b.red.lse, c.merge = mg → c.qblock = q → c.epoch = e → c.chunk / 2 ^ level = index → c.read = true) ∧
      b.cep = (toks.foldl (fun (d : Alesh) (t : Nat) => d.post uReduce t) a).cep ∧
      (a.cep.held = [] → a.cep.out.length + toks.length ≤ 256 → b.cep = { a.cep with out := a.cep.out ++ toks }) ∧
      (alike mr.d pieces = true →
        b.ports = (a.emit (a.cresol tPart mr.dest (a.partArgsOf p) (a.nodePayload g level v))).ports) ∧
      (alike mr.d pieces = false →
        ∀ x ∈ pieces, Sends b (a.cresol tPart mr.dest (a.partArgsOf x) (a.nodePayload g x.level x.val))) ∧
      SameBut [O.BUNDLE_SMALL_COUNT] [] a b ∧ b = { a with red := b.red, dict := b.dict, cep := b.cep, ports := b.ports }) ∧
  ∀ (s : State) (mg q e : Nat) (mr : PlanMerge) (raw : Bytes) (h : Part), s.alesh.reducing = true → s.alesh.plan.merges[mg]? = some mr →
    let a := s.alesh
    let g := mg * 65536 + q
    let ps := a.red.held.filter fun p => p.kind == kLse && p.gsid == g && p.epoch == e
    let recs (p : Part) : List LseRec := match p.val with | .lse b => lseParse mr.d b | _ => []
    let bad : Prop := ∃ p ∈ ps, lseKeys (recs p) ≠ lseKeys (recs h)
    let at_ := mr.out + q * mr.blockBytes
    let done (out : Bytes) (more : List Nat) (b : Alesh) : Prop :=
      b.mem0.read at_ out.length = out ∧ (∀ x, ¬(at_ ≤ x ∧ x < at_ + out.length) → b.mem0.get x = a.mem0.get x) ∧
      b.cep = (a.post uReduce (tokMergeDone e mg q)).cep ∧
      b.red = { a.red with held := a.red.held.filter (fun p => !(p.kind == kLse && p.gsid == g && p.epoch == e)), merged := (e, mg, q) :: a.red.merged } ∧
      b.num O.LSE_MERGE_COUNT = wrapAdd (widthOf O.LSE_MERGE_COUNT) (a.num O.LSE_MERGE_COUNT) 1 ∧ SameBut (O.LSE_MERGE_COUNT :: more) [] a b ∧
      b = { a with mem0 := b.mem0, cep := b.cep, red := b.red, dict := b.dict }
    mr.dest = a.node → a.errs.retired = [] → a.rootOf (· == kLse) g e mr.log2 mr.d = some (.lse raw) → ps.head? = some h →
    (¬bad →
      let root := lseParse mr.d raw
      let out := lseEmit (if mr.normalise then root.map LseRec.normalise else root)
      a.fenced at_ out.length = false → Gives (.lseMergeComplete mg q e) s (done out [])) ∧
    (bad →
      let out := lseEmit ((recs h).map LseRec.poison)
      a.fenced at_ out.length = false → Gives (.lseMergeComplete mg q e) s fun b => done out [O.LSE_MALFORMED_COUNT] b ∧
        b.num O.LSE_MALFORMED_COUNT = satAdd (widthOf O.LSE_MALFORMED_COUNT) (a.num O.LSE_MALFORMED_COUNT) 1)

/-! ### Skip marks, norms, preconditioner, update (R16 to R18, R38, R60 to R62, R78 to R84, R107 to R121, R344, R345) -/

/-- A slice whose gradients are complete is marked, once, at its epoch in progress (R81 to R83): the marks name its null units; one whose
units are all null counts as committed at the epoch in progress of the job, in a core that may commit (R18, R252). The norm pass of an epoch sends the results of every
owned slice to the combiner, once, when every page that it reads can be read (R48, R130). -/
def Obligations.MarksAndNormsOncePerEpoch : Prop :=
  (∀ (s : State) (g : Nat) (p : Prog), s.alesh.inJob = true → s.alesh.unit uUpdate = .running → s.alesh.owns g = true → s.alesh.prog? g = some p →
    p.undecided = false →
    let a := s.alesh
    let e := p.last + 1
    let nulls := ((a.units g).filter fun u => a.unitNull g e u == some true).map (·.1)
    a.marks? g e = none → a.inProgress < 2 ^ 48 → e ≤ a.inProgress + 1 → (isHeader g = true → (a.grad? g e).isSome = true) →
    (∀ u ∈ a.units g, (a.unitNull g e u).isSome = true) → Gives (.skipMark g) s fun b =>
      b.marks? g e = some nulls ∧
      (e = a.inProgress → a.sound = true → p.upd = none → (∀ u ∈ a.units g, a.unitNull g e u = some true) → b.committed g e = true) ∧
      ((∃ u ∈ a.units g, u.1 ∉ nulls) → b = { a with progs := b.progs }) ∧
      b = { a with progs := b.progs, red := b.red, take := b.take, mem0 := b.mem0, ports := b.ports, merid := b.merid, health := b.health
                   comm := b.comm, mgmt := b.mgmt }) ∧
  ∀ (s : State) (now : Nat), s.alesh.inJob = true → s.alesh.unit uUpdate = .running →
    let a := s.alesh.at now
    let e := a.inProgress
    a.red.normSent ≠ e → (∀ g ∈ a.take.owned, a.normReady g e = true) → (∀ q ∈ a.normPages e, a.pageReady q.1 q.2 = true) →
    a.normBadExps = [] → Gives (.normPass now) s fun b =>
      let es := a.take.owned.flatMap fun g => a.sliceNorms g e
      b.red = { a.red with normSent := e, ownNorms := es } ∧
      b.ports = (if es = [] then a.ports else (a.emit (a.cresol tPart a.combiner (partArgs kNorm e 0 0) (es.flatMap fun n => n.bytes false))).ports) ∧
      b = { a with red := b.red, ports := b.ports }

/-- The preconditioner's phases (R113 to R118), each once in a step and in order, when the statistic pages that it reads can be read and
hold exponents in range: the
statistic increments once the target's gradients are complete; on a refresh epoch the inverse roots, failures counted; the target's
S0 once the roots that it needs are there and the statistic layers are updated. Each counts its frozen cycles (R109) and the SRAM
words that SECDED corrected (R323). -/
def Obligations.PreconditionerPhases : Prop :=
  ∀ (s : State) (k : Nat) (en : PcEntry), s.alesh.pcRunning = true → s.alesh.pcTable[k]? = some en →
    let a := s.alesh
    let e := a.inProgress
    let ran (more : List Nat) (b : Alesh) : Prop :=
      b.num O.PC_FREEZE_COUNT = wrapAdd (widthOf O.PC_FREEZE_COUNT) (a.num O.PC_FREEZE_COUNT) (Config.freeFrozen a.ctl.draws) ∧
      b.health = { a.health with now := { a.health.now with ce := a.health.now.ce + Config.freeCorrected a.ctl.draws } } ∧
      SameBut (O.PC_FREEZE_COUNT :: more) [] a b ∧
      b = { a with ctl := { a.ctl with draws := a.ctl.draws + 1 }, pub := b.pub, dict := b.dict, health := b.health }
    let readable : Prop := (∀ q ∈ a.statPages en, a.pageReady q.1 q.2 = true) ∧ a.statBadExps en = []
    (a.targetReady en e = true → a.phaseDone k e 1 = false → (en.mode ≠ 0 → readable) → Gives (.pcStatIncrement k) s fun b =>
      b.pcOut? k e 0 = some (pcIncrements en (a.targetGrad en e)).1 ∧ b.pcOut? k e 1 = some (pcIncrements en (a.targetGrad en e)).2 ∧
      b.phaseDone k e 1 = true ∧ ran [] b) ∧
    (en.mode ≠ 0 → en.isRefresh e = true → a.phaseDone k e 1 = true → a.phaseDone k e 2 = false → readable → Gives (.pcRoot k) s fun b =>
      b.pcOut? k e 2 = some (a.rootsOf en en.statL e).1 ∧ b.pcOut? k e 3 = some (a.rootsOf en en.statL e).2.1 ∧
      (en.mode = 1 → b.pcOut? k e 4 = some (a.rootsOf en en.statR e).1 ∧
        b.num O.PC_ROOT_FAIL = satAdd (widthOf O.PC_ROOT_FAIL) (a.num O.PC_ROOT_FAIL) ((a.rootsOf en en.statL e).2.2 + (a.rootsOf en en.statR e).2.2)) ∧
      b.phaseDone k e 2 = true ∧ ran [O.PC_ROOT_FAIL] b) ∧
    (a.phaseDone k e 1 = true → (en.mode ≠ 0 → en.isRefresh e = true → a.phaseDone k e 2 = true) → a.phaseDone k e 4 = false →
      a.layerUpdated en.statL e = true → (en.mode = 2 ∨ a.layerUpdated en.statR e = true) → readable →
      (∀ q ∈ a.statPages en, ∀ u, (a.prog? q.1).bind (·.upd) = some u → q.2 ∈ a.writtenPages q.1 u.epoch → a.pageGood q.1 u.slot q.2 = true) →
      Gives (.pcTargetS0 k) s fun b => (b.pcOut? k e 6).isSome = true ∧ b.phaseDone k e 4 = true ∧
        (∀ w, w ≠ 6 → b.pcOut? k e w = a.pcOut? k e w) ∧ ran [] b)

/-- An update whose slice is ready claims the lowest free slot (R38, R39): the slot is pending with every unit that is not null still to
do, and nothing of Tier 0 changes outside that slot's pages and records; the live slot stays. A tile that finishes a unit that is not
sampled, its live pages sound, takes it off the list, and writes inside the pending slot alone; the words of its SRAM that SECDED corrected are counted
(R323, R347).
The second tile's outcome of a sampled unit (R345): equal to neither, the UPDATE unit becomes FAULTED; equal to the first tile, the
reference path is switched off and evt_attention rises; equal to the reference, the first tile is retired. The unit is complete in
the last two. -/
def Obligations.UpdatesAndTheirChecks : Prop :=
  ((∀ (s : State) (g old slot : Nat), s.alesh.updatable g = true → s.alesh.liveSlot g = some old →
    let a := s.alesh
    (∀ q ∈ a.updatePages g, a.pageReady q.1 q.2 = true) → a.badExps g = [] → a.claimable.head? = some slot → a.errs.retired = [] → Gives (.updateStart g) s fun b =>
      b.slots = { a.slots with pend := assign a.slots.pend g slot } ∧ b.liveSlot g = some old ∧
      (∃ u, (b.prog? g).bind (·.upd) = some u ∧ u.epoch = a.inProgress ∧ u.slot = slot ∧ u.old = old ∧ u.sent = [] ∧
        ∀ p, p ∈ u.todo ↔ ∃ x ∈ a.units g, x.1 = p ∧ p ∉ (a.marks? g a.inProgress).getD []) ∧
      (∀ x, ¬(a.pageAddr slot 0 ≤ x ∧ x < a.pageAddr slot 0 + 16777216) → ¬(a.metaAddr slot 0 ≤ x ∧ x < a.metaAddr slot 0 + 16384) →
        b.mem0.get x = a.mem0.get x) ∧
      SameBut [] [] a b ∧ b = { a with slots := b.slots, progs := b.progs, mem0 := b.mem0, health := b.health }) ∧
  ∀ (s : State) (g page tile : Nat) (ok : Bool) (up : Upd), (s.alesh.prog? g).bind (·.upd) = some up → page ∈ up.todo →
    let a := s.alesh
    (a.unitOf g page).1 = page → (a.num O.TILE_ACTIVE_MAP).testBit tile = true → a.unit uUpdate = .running →
    ((∀ r ∈ up.recheck, r.1 ≠ page) ∨ page ∈ up.redeal) → (∀ q ∈ a.unitReads g (a.unitOf g page), a.pageReady q.1 q.2 = true) →
    a.sampledUnit g up.epoch ≠ some page → a.errs.retired = [] →
    (∀ p ∈ a.unitPages g (a.unitOf g page), p < 256) → Gives (.skipUnitComplete g page tile ok) s fun b =>
      let ce := Config.freeCorrected a.ctl.draws
      (∃ u, (b.prog? g).bind (·.upd) = some u ∧ u.todo = up.todo.filter (· != page) ∧ u.slot = up.slot ∧ u.epoch = up.epoch) ∧
      (∀ x, ¬(a.pageAddr up.slot 0 ≤ x ∧ x < a.pageAddr up.slot 0 + 16777216) →
        ¬(a.metaAddr up.slot 0 ≤ x ∧ x < a.metaAddr up.slot 0 + 16384) → b.mem0.get x = a.mem0.get x) ∧
      b.num O.TILE_SRAM_CE_COUNT = satAdd (widthOf O.TILE_SRAM_CE_COUNT) (a.num O.TILE_SRAM_CE_COUNT) ce ∧
      b.health.now.ce = a.health.now.ce + ce ∧ lookupD 0 b.health.now.tiles tile = lookupD 0 a.health.now.tiles tile + ce ∧
      SameBut [O.TILE_SRAM_CE_COUNT] [] a b ∧ b.ctl = { a.ctl with draws := a.ctl.draws + 1 } ∧
      b = { a with ctl := b.ctl, progs := b.progs, mem0 := b.mem0, dict := b.dict, health := b.health }) ∧
  (∀ (s : State) (g page tile agree : Nat) (up : Upd) (r : Nat × Nat), (s.alesh.prog? g).bind (·.upd) = some up →
    (up.recheck.find? fun x => x.1 == page) = some r → tile ≠ r.2 → (s.alesh.num O.TILE_ACTIVE_MAP).testBit tile = true →
    s.alesh.unit uUpdate = .running → (∀ q ∈ s.alesh.unitReads g (s.alesh.unitOf g page), s.alesh.pageReady q.1 q.2 = true) →
    s.alesh.ctl.units.length = 9 → Gives (.refRecheckComplete g page tile agree) s fun b =>
      let a := s.alesh
      let done : Prop := ∃ u, (b.prog? g).bind (·.upd) = some u ∧ (a.unitOf g page).1 ∉ u.todo
      (2 ≤ agree → b.unit uUpdate = .faulted ∧ b.mem0 = a.mem0 ∧ b.progs = a.progs ∧ (b.num O.CTRL_FLAGS).testBit 3 = true) ∧
      (agree = 1 → b.num O.REF_STATE = 1 ∧ b.evts.pending.testBit 1 = true ∧ done) ∧
      (agree = 0 → done ∧ (∀ sp rest, a.ctl.spares = sp :: rest → (a.num O.TILE_ACTIVE_MAP).testBit r.2 = true →
        b.num O.TILE_ACTIVE_MAP = a.num O.TILE_ACTIVE_MAP - 2 ^ r.2 + 2 ^ sp)) ∧
      b.mem1 = a.mem1 ∧ b.slots = a.slots)

/-! ### The commit protocol (R163 to R166, R189 to R196, R203 to R207) -/

/-- DELTA_SEND: a completed page that the update writes, sound in its pending slot, whose committed page can be read (R47, R48), goes to every holder in force and being built as one DELTA of that holder's
transaction, scaled by its coefficient (R164, R189); then the fence is evaluated. An acknowledgement sets the holder's fence bit, or,
FOLDED, ends the transaction. A fence over every holder in force leads to the remap in the same cclk, whose COMMITs go to every
transaction that is HELD (R192, R194). ACK_TIMEOUT_NS without an answer, what awaits it is resent (R193). -/
def Obligations.OwnersSendAndCommit : Prop :=
  (∀ (s : State) (now g page : Nat) (up : Upd), s.alesh.inJob = true → s.alesh.unit uCoding = .running →
    (s.alesh.prog? g).bind (·.upd) = some up →
    let a := s.alesh.at now
    let a1 := a.freshPending g up.slot page
    let d := a1.dataDelta g page up
    let code (x : Bytes) : Bytes := deltaEncode (a.num O.DELTA_COMPRESS == 1) x
    let fresh := (a.targets g).filter fun x => !a.coding.own.any fun t => t.matches g up.epoch x
    page ∈ a.writtenPages g up.epoch → page ∉ up.sent → (a.unitOf g page).1 ∉ up.todo → a.pageReady g page = true →
    a1.pageGood g up.slot page = true → a1.coding = a.coding →
    (∀ x ∈ fresh, a.holdRoom g x.node = true ∧ a.seqRoom x.node (fresh.filter fun y => y.node == x.node).length = true) →
    Gives (.deltaSend now g page) s fun b => ∃ c : Alesh, b = c.evalFence g ∧
      (∀ x ∈ a.targets g, ∃ t ∈ c.coding.own, t.matches g up.epoch x = true ∧ (page, code (gfScale (coef t.row t.col) d)) ∈ t.pages ∧
        Sends c (a1.cresol tDelta x.node (t.deltaArgs page) (code (gfScale (coef t.row t.col) d)))) ∧
      c.progs = modWhere (fun (p : Prog) => p.gsid == g) (fun p => { p with upd := p.upd.map fun u => { u with sent := u.sent ++ [page] } }) a1.progs ∧
      c.num O.DELTA_RAW_BYTES = wrapAdd (widthOf O.DELTA_RAW_BYTES) (a1.num O.DELTA_RAW_BYTES) 65536 ∧
      c.num O.DELTA_SENT_BYTES = wrapAdd (widthOf O.DELTA_SENT_BYTES) (a1.num O.DELTA_SENT_BYTES) (code d).length ∧
      SameBut [O.DELTA_RAW_BYTES, O.DELTA_SENT_BYTES] [] a1 c ∧
      c = { a1 with coding := c.coding, ports := c.ports, dict := c.dict, progs := c.progs, health := c.health }) ∧
  (∀ (s : State) (now : Nat) (m : Pkt), Arrives s.alesh tHoldAck m → m.payload = [] → s.alesh.codes = true →
    let a := s.alesh.heard now m.src
    let x := TxArgs.ofNat m.args
    let mine (y : OwnTx) : Bool := y.holder == m.src && y.seq == x.seq && y.real
    ∀ t : OwnTx, x.adopt = false → a.inProgress < 2 ^ 48 → a.coding.own.find? mine = some t → t.adopt = false →
      (x.mid / 16 = sFolded → t.state = .awaitFolded → Gives (.holdAckRx now m) s fun b =>
        b = { a with coding := { a.coding with own := a.coding.own.filter fun y => !mine y } }) ∧
      (x.mid / 16 = sHeld → t.state = .sending ∨ t.state = .awaitHeld → (∀ p, a.prog? t.gsid = some p → p.last < t.epoch) →
        Gives (.holdAckRx now m) s fun b => ∃ c : Alesh, b = c.evalFence t.gsid ∧
          c.coding = { a.coding with own := modWhere mine (fun y => { y with state := .held, tries := 0 }) a.coding.own } ∧
          c = { a with coding := c.coding, health := { a.health with samples := c.health.samples } } ∧
          ∀ up : Upd, (c.prog? t.gsid).bind (·.upd) = some up → c.sound = true → c.allSent t.gsid up = true →
            (∀ y ∈ c.targets t.gsid, y.extra = false → ∃ u ∈ c.coding.own, u.matches t.gsid up.epoch y = true ∧ u.state.fenced = true) →
            b.liveSlot t.gsid = some up.slot ∧ b.pendSlot t.gsid = none ∧
            (∃ p, b.prog? t.gsid = some p ∧ p.last = up.epoch ∧ p.fence = up.epoch ∧ p.upd = none) ∧
            (∀ u ∈ c.coding.own, u.gsid = t.gsid → u.epoch = up.epoch → u.count ≠ 0 → u.state = .held →
              Sends b (a.cresol tCommit u.holder (u.commitArgs 0) []) ∧
              ∃ v ∈ b.coding.own, v = { u with state := .awaitFolded, due := a.ackDue }) ∧
            (a.errs.retired = [] → ∀ x, ¬(a.num O.REDUCE_BASE ≤ x ∧ x < a.num O.REDUCE_BASE + a.num O.REDUCE_PAGES * 65536) →
              b.mem0.get x = a.mem0.get x) ∧ SameBut [] [] a b)) ∧
  ∀ (s : State) (now holder seq : Nat) (t : OwnTx), s.alesh.inJob = true → s.alesh.clock.valid = true →
    let a := s.alesh.at now
    (a.coding.own.filter fun y => y.holder == holder && y.seq == seq &&
      (y.state == .sending || y.state == .awaitHeld || y.state == .awaitFolded)) = [t] → t.due ≤ a.now →
    Gives (.ownerAckTimeout now holder seq) s fun b =>
      let stall : Prop := a.num O.RETRY_LIMIT ≤ t.tries + 1 ∧ t.stalled = false
      (t.state = .awaitFolded → Sends b (a.cresol tCommit holder (t.commitArgs 0) []) ∧
        b.num O.RESEND_COUNT = wrapAdd (widthOf O.RESEND_COUNT) (a.num O.RESEND_COUNT) 1) ∧
      (t.state ≠ .awaitFolded → (∀ p ∈ t.pages, Sends b (a.cresol tDelta holder (t.deltaArgs p.1) p.2)) ∧
        b.num O.RESEND_COUNT = wrapAdd (widthOf O.RESEND_COUNT) (a.num O.RESEND_COUNT) t.pages.length) ∧
      (∃ y ∈ b.coding.own, y.holder = holder ∧ y.seq = seq ∧ y.state = t.state ∧ y.tries = t.tries + 1 ∧ y.due = a.ackDue) ∧
      (stall → b.num O.COMMIT_STALL_COUNT = satAdd (widthOf O.COMMIT_STALL_COUNT) (a.num O.COMMIT_STALL_COUNT) 1 ∧
        (b.num O.HEALTH_FLAGS).testBit 12 = true ∧ b.health.now.lk = a.health.now.lk + 1) ∧
      (¬stall → b.num O.COMMIT_STALL_COUNT = a.num O.COMMIT_STALL_COUNT ∧ b.health = a.health) ∧
      SameBut [O.RESEND_COUNT, O.COMMIT_STALL_COUNT, O.HEALTH_FLAGS] [] a b ∧
      b = { a with coding := { a.coding with own := b.coding.own }, ports := b.ports, dict := b.dict, evts := b.evts, health := b.health }

/-- The holder (R190, R191, R195): a DELTA whose payload decodes is counted as a duplicate below the window base; the first of a transaction opens it, each
further page is kept, and the last makes it HELD, acknowledged; a page held already is counted and not kept. COMMIT marks a transaction
that holds every page, to be folded once no lower epoch of its column is open; one for a transaction that is RECEIVING or that no
DELTA opened is an orphan; below the base it is answered FOLDED. ABANDON drops the pages and is answered DISCARDED. -/
def Obligations.HoldersHoldAndAnswer : Prop :=
  ∀ (s : State) (now : Nat) (m : Pkt), s.alesh.codes = true →
    let a := s.alesh.heard now m.src
    let x := TxArgs.ofNat m.args
    let e := a.epochOf x.epochLo
    let o := off16 x.seq (lookupD 0 a.coding.base m.src)
    let answer (dst st : Nat) (adopted : Bool) : Ports :=
      (a.emit (a.cresol tHoldAck dst (txArgs x.seq x.band x.col x.row adopted (st * 16) e 0) [])).ports
    let counts (k : Nat) (b : Alesh) : Prop :=
      b.num k = satAdd (widthOf k) (a.num k) 1 ∧ SameBut [k] [] a b
    let held (b : Alesh) : Prop := b.num O.HOLD_USED = b.holdUsed ∧ SameBut [O.HOLD_USED] [] a b ∧
      (∀ y ∈ a.coding.hold, ¬(y.src = m.src ∧ y.seq = x.seq) → y ∈ b.coding.hold)
    let sameTx (t : HoldTx) : Prop := t.band = x.band ∧ t.col = x.col ∧ t.row = x.row ∧ t.epoch = e
    (Arrives s.alesh tDelta m → (deltaDecode m.payload).isSome = true →
      (32768 ≤ o → Gives (.deltaRx now m) s fun b => counts O.CRESOL_DUP_COUNT b ∧ b = { a with dict := b.dict }) ∧
      (o < 64 → a.holdTx? m.src x.seq = none → a.take.building = false →
        ∀ n, a.groupFor x.band x.row m.src = some n → a.ownsColumn false n x.band x.col m.src = true → (a.rowSlot a.geo n x.band x.row).isSome = true →
        a.keepsRow n x.band x.row e = true →
        let t : HoldTx := { src := m.src, seq := x.seq, band := x.band, col := x.col, row := x.row, epoch := e, state := .receiving, count := x.low + 1
                            pages := [], adopt := x.adopt, commit := false, adopted := false, bad := [], alt := false, old := false }
        a.overrun t m.payload = false → Gives (.deltaRx now m) s fun b =>
          b.holdTx? m.src x.seq = some { t with pages := [(x.mid, m.payload)], state := if x.low = 0 then .held else .receiving } ∧
          b.ports = (if x.low = 0 then answer (a.ownerOfColumn t) sHeld false else a.ports) ∧ held b ∧
          b = { a with coding := { a.coding with hold := b.coding.hold, reports := b.coding.reports }, dict := b.dict, ports := b.ports } ∧
          (x.adopt = true → ∀ r ∈ b.coding.reports, ¬(r.group = n ∧ r.band = x.band ∧ r.col = x.col ∧ r.row = x.row)) ∧
          (x.adopt = false → b.coding.reports = a.coding.reports)) ∧
      (∀ t : HoldTx, o < 64 → a.holdTx? m.src x.seq = some t →
        (t.state = .receiving → (∀ q ∈ t.pages, q.1 ≠ x.mid) → t.count = x.low + 1 → sameTx t →
          t.old = true ∨ (a.ownsColumn t.alt (a.txGroup t) t.band t.col m.src = true ∧ (a.txSlot t).isSome = true ∧
            (t.alt = true ∨ a.keepsRow (a.txGroup t) t.band t.row e = true)) →
          a.overrun t m.payload = false → Gives (.deltaRx now m) s fun b =>
            let full : Prop := t.pages.length + 1 = t.count
            (full → b.holdTx? m.src x.seq = some { t with pages := t.pages ++ [(x.mid, m.payload)], state := .held } ∧
              b.ports = answer (a.ownerOfColumn t) sHeld t.adopted) ∧
            (¬full → b.holdTx? m.src x.seq = some { t with pages := t.pages ++ [(x.mid, m.payload)] } ∧ b.ports = a.ports) ∧ held b ∧
            b = { a with coding := { a.coding with hold := b.coding.hold }, dict := b.dict, ports := b.ports }) ∧
        (t.state ≠ .receiving ∨ (∃ q ∈ t.pages, q.1 = x.mid) → Gives (.deltaRx now m) s fun b =>
            counts O.CRESOL_DUP_COUNT b ∧ (t.state = .receiving → b.ports = a.ports) ∧ b = { a with dict := b.dict, ports := b.ports }))) ∧
    (Arrives s.alesh tCommit m → m.payload = [] → x.adopt = false → x.mid = 0 →
      (32768 ≤ o → Gives (.commitRx now m) s fun b => b = { a with ports := answer m.src sFolded false }) ∧
      (o < 64 → a.holdTx? m.src x.seq = none → Gives (.commitRx now m) s fun b => counts O.COMMIT_ORPHAN_COUNT b ∧ b = { a with dict := b.dict }) ∧
      (∀ t : HoldTx, o < 64 → a.holdTx? m.src x.seq = some t →
        (t.state = .receiving → Gives (.commitRx now m) s fun b => counts O.COMMIT_ORPHAN_COUNT b ∧ b = { a with dict := b.dict }) ∧
        (t.state = .held ∨ t.state = .foldWait → Gives (.commitRx now m) s fun b =>
          b.holdTx? m.src x.seq = some { t with commit := true, state := if a.lowerOpen t then .foldWait else t.state } ∧ held b ∧
          b = { a with coding := { a.coding with hold := b.coding.hold }, dict := b.dict }) ∧
        (t.state = .folded → Gives (.commitRx now m) s fun b => b = a.ackTx { t with adopted := false } sFolded) ∧
        (t.state = .discarded → Gives (.commitRx now m) s fun b => b = a.ackTx { t with adopted := false } sDiscarded))) ∧
    (Arrives s.alesh tCommit m → m.payload = [] → x.adopt = false → x.mid = 1 →
      let retired (b : Alesh) : Prop := b.coding.base = (a.retire m.src x.seq).coding.base ∧ b.coding.retired = (a.retire m.src x.seq).coding.retired
      (32768 ≤ o → Gives (.abandonRx now m) s fun b => b = { a with ports := answer m.src sDiscarded false }) ∧
      (o < 64 → a.holdTx? m.src x.seq = none → Gives (.abandonRx now m) s fun b =>
        b.ports = answer m.src sDiscarded false ∧ retired b ∧ (∀ y ∈ a.coding.hold, y.src ≠ m.src ∨ y.state.open_ = true → y ∈ b.coding.hold) ∧
        b = { a with coding := { a.coding with hold := b.coding.hold, base := b.coding.base, retired := b.coding.retired }, ports := b.ports }) ∧
      (∀ t : HoldTx, o < 64 → a.holdTx? m.src x.seq = some t → t.state.open_ = true → Gives (.abandonRx now m) s fun b =>
        (∀ y ∈ b.coding.hold, y.src = m.src → y.seq = x.seq → y.state = .discarded ∧ y.pages = []) ∧ retired b ∧
        (a.joining = false → Sends b (a.cresol tHoldAck (a.ownerOfColumn t) (txArgs x.seq t.band t.col t.row false (sDiscarded * 16) t.epoch 0) [])) ∧
        SameBut [O.HOLD_USED] [] a b ∧ b = { a with coding := { a.coding with hold := b.coding.hold, base := b.coding.base, retired := b.coding.retired }
                                                    dict := b.dict, ports := b.ports }) ∧
      (∀ t : HoldTx, o < 64 → a.holdTx? m.src x.seq = some t → t.state = .folded → Gives (.abandonRx now m) s fun b =>
        b = a.ackTx { t with adopted := false } sFolded))

/-- The fold (R164, R195, R196, R238, R402): a committed transaction of a row in force, with no lower epoch of its column open and every
page, of the delta, of the parity and of the slot's epoch table, good, is folded: each page's decoded delta is added to the parity page, the column epoch becomes the transaction's epoch, the room is
given back and HOLD_ACK FOLDED goes to the column's owner. Nothing of Tier 0 changes outside the parity slot. -/
def Obligations.CommittedDeltasFoldIntoParity : Prop :=
  ∀ (s : State) (src seq : Nat) (t : HoldTx) (slot gr : Nat),
    let a := s.alesh
    a.inJob = true → a.holdTx? src seq = some t → t.old = false → a.txSlot t = some (slot, gr) → t.commit = true →
    t.state = .held ∨ t.state = .foldWait → a.lowerOpen t = false → (∀ f ∈ a.coding.frozen, ¬(f.1 = slot ∧ f.2 < t.epoch)) →
    a.baseReady t slot gr = true → a.tableGood t.alt slot = true → a.colEpoch t.alt slot t.col < t.epoch → t.bad = [] → (∀ p ∈ t.pages, a.parityGood t.alt slot t.band p.1 = true) →
    a.errs.retired = [] →
    let page := a.parityBase t.alt + slot * 16777216
    let meta_ := a.parityMeta t.alt + slot * 16640
    let table := a.epochTable t.alt + slot * 65536
    Gives (.parityFoldComplete src seq) s fun b =>
      (∀ y ∈ b.coding.hold, y.src = src → y.seq = seq → y.state = .folded ∧ y.pages = []) ∧
      Sends b (a.cresol tHoldAck (b.ownerOfColumn t) (txArgs t.seq t.band t.col t.row t.adopted (sFolded * 16) t.epoch 0) []) ∧
      ((∀ p ∈ t.pages, p.1 < 256) → t.col < 32 → ∀ x, ¬(page ≤ x ∧ x < page + 16777216) → ¬(meta_ ≤ x ∧ x < meta_ + 16640) →
        ¬(table ≤ x ∧ x < table + 65536) → b.mem0.get x = a.mem0.get x) ∧
      (t.epoch < 2 ^ 48 → b.colEpoch t.alt slot t.col = t.epoch) ∧
      (∀ p y d, t.pages = [(p, y)] → deltaDecode y = some d → d.length = 65536 → a.baseEpoch t.alt slot t.col p < t.epoch → p < 256 → t.col < 32 →
        meta_ + 16640 ≤ page ∨ page + 16777216 ≤ meta_ → table + 65536 ≤ page ∨ page + 16777216 ≤ table →
        meta_ + 16640 ≤ table ∨ table + 65536 ≤ meta_ →
        b.parityPage t.alt slot p = xorBytes (a.parityPage t.alt slot p) d ∧ (b.parityRec t.alt slot p).valid = true) ∧
      SameBut [O.HOLD_USED] [] a b ∧
      b = { a with mem0 := b.mem0, coding := { a.coding with hold := b.coding.hold, base := b.coding.base, retired := b.coding.retired }
                   dict := b.dict, ports := b.ports }

/-- Adoption (R204 to R207): the new owner of a slice keeps each report of a holder in force; with the last one missing it decides:
COMMIT with ADOPT = 1 to each holder that is HELD or FOLDED where any is (and the core may commit, R252, R365), ABANDON to every
other, or to all where none is; and rolled
back, the slice asks for its retained partials again. A report whose time has come is sent again. -/
def Obligations.AdoptionsAreDecidedOnce : Prop :=
  (∀ (s : State) (now : Nat) (m : Pkt) (g : Nat) (p : Prog), Arrives s.alesh tHoldAck m → m.payload = [] → s.alesh.codes = true → s.alesh.inJob = true →
    let a := s.alesh.heard now m.src
    let x := TxArgs.ofNat m.args
    let st := x.mid / 16
    let e := a.inProgress
    let ans : Answer := { gsid := g, holder := m.src, row := x.row, epoch := a.epochOf x.epochLo, status := st, seq := x.seq }
    let c : Alesh := { a with coding := { a.coding with
      answers := a.coding.answers.filter (fun y => !(y.gsid == g && y.holder == m.src && y.row == x.row)) ++ [ans] } }
    let inForce (y : Answer) : Prop := y.gsid = g ∧ (y.row, y.holder) ∈ a.heldFor g
    x.adopt = true → st ≤ 4 → st ≠ sDiscarded → a.inProgress < 2 ^ 48 → a.epochOf x.epochLo = e ∨ st = sNone → a.colSlice a.geo x.band x.col = some g → a.ownerOf g = a.node →
    (x.row, m.src) ∈ a.heldFor g → a.prog? g = some p → p.undecided = true → a.decision g = none →
    (∀ y ∈ a.coding.own, ¬(y.gsid = g ∧ y.real = false)) → a.bandCol a.geo g = some (x.band, x.col) →
    Gives (.adoptReportRx now m) s fun b =>
      (c.decision g = none → b = c) ∧
      (c.decision g = some false → (∃ q, b.prog? g = some q ∧ q = { p with undecided := false }) ∧
        (∃ r ∈ b.take.retainTakes, r.1 = g ∧ r.2.2.1 = e) ∧
        ∀ y ∈ c.coding.answers, inForce y → Sends b (a.cresol tCommit y.holder (txArgs y.seq x.band x.col y.row true 1 e 0) [])) ∧
      (c.decision g = some true → a.sound = true → ∀ y ∈ c.coding.answers, inForce y → Sends b (a.cresol tCommit y.holder
        (txArgs y.seq x.band x.col y.row true (if y.status = sHeld ∨ y.status = sFolded then 0 else 1) e 0) [])) ∧
      (c.decision g = some true → a.sound = false → b = { c with chrono := b.chrono }) ∧
      (a.errs.retired = [] → ∀ x, ¬(a.num O.REDUCE_BASE ≤ x ∧ x < a.num O.REDUCE_BASE + a.num O.REDUCE_PAGES * 65536) →
        b.mem0.get x = a.mem0.get x) ∧ b.slots = a.slots ∧ SameBut [] [] a b) ∧
  ∀ (s : State) (now : Nat), s.alesh.inJob = true → s.alesh.clock.valid = true → Gives (.adoptReportResend now) s fun b =>
    let a := s.alesh.at now
    (∀ r ∈ a.coding.reports, r.due ≤ a.now →
      Sends b (a.cresol tHoldAck r.dst (txArgs r.seq r.band r.col r.row true (r.status * 16) r.shown 0) []) ∧
      { r with due := a.ackDue } ∈ b.coding.reports) ∧
    (∀ r ∈ a.coding.reports, a.now < r.due → r ∈ b.coding.reports) ∧
    b = { a with coding := { a.coding with reports := b.coding.reports }, ports := b.ports }

/-! ### Publishing, the Meridian, overlays (R86, R89, R99 to R101, R181, R198 to R201, R366 to R378, R394, R395, R440) -/

/-- A block whose layer has its release token for the epoch in progress, and whose slices are fenced, is written once for that epoch,
when the live pages that it reads can be read (R47, R48, R99, R100): its runs hold the block's bytes, nothing else of Tier 0 changes, saturated and non-finite values are counted (R96, R341);
after the layer's last block the layer is ready and the publish-ready token is posted (R101). -/
def Obligations.PublishWritesABlockOnce : Prop :=
  ∀ (s : State) (now layer blk : Nat) (p : PubEntry), s.alesh.inJob = true → s.alesh.unit uPublish = .running →
    let a := s.alesh.at now
    let e := a.inProgress
    (a.pubTable.find? fun p => p.layer == layer) = some p → blk < p.blockCount → (layer, e) ∈ a.pub.tokens → (layer, blk, e) ∉ a.pub.written →
    p.layer = layer → e < 2 ^ 48 → a.cepWaits uPublish = false →
    let ps := a.blockRecs p (a.layerRecs layer) blk
    let recs := ps.filterMap id
    let o := a.blockOut p ps blk e
    (∀ x ∈ recs, ∃ q, a.prog? x.1 = some q ∧ e ≤ q.fence) →
    (∀ q ∈ a.blockPages recs, a.pageReady q.1 q.2 = true) → a.blockExps recs = [] → a.errs.retired = [] →
    Gives (.publishBlock now layer blk) s fun b =>
      (a.blockStands layer blk e recs = true → b.mem0 = a.mem0 ∧ b.num O.PUB_SKIPPED = satAdd (widthOf O.PUB_SKIPPED) (a.num O.PUB_SKIPPED) 1 ∧
        SameBut [O.PUB_SKIPPED] [] a b) ∧
      (a.blockStands layer blk e recs = false →
        (runsApart (o.writes.map fun w => (w.1, w.2.length)) = true → ∀ w ∈ o.writes, b.mem0.read w.1 w.2.length = w.2) ∧
        (∀ x, (∀ w ∈ o.writes, ¬(w.1 ≤ x ∧ x < w.1 + w.2.length)) → b.mem0.get x = a.mem0.get x) ∧
        b.num O.PUB_SAT_COUNT = satAdd (widthOf O.PUB_SAT_COUNT) (a.num O.PUB_SAT_COUNT) o.sat ∧
        b.num O.PUB_NONFINITE_COUNT = satAdd (widthOf O.PUB_NONFINITE_COUNT) (a.num O.PUB_NONFINITE_COUNT) (if o.bad = 0 then 0 else 1) ∧
        SameBut [O.PUB_SAT_COUNT, O.PUB_NONFINITE_COUNT] [] a b) ∧
      b.pub.written = (layer, blk, e) :: a.pub.written ∧ (layer, blk) ∈ b.pub.standing ∧
      ((∀ i, i < p.blockCount → (layer, i, e) ∈ b.pub.written) → (layer, e) ∈ b.pub.ready ∧
        b.cep = (a.post uPublish (tokPublishReady (e % 16) layer)).cep) ∧
      ((∃ i, i < p.blockCount ∧ (layer, i, e) ∉ b.pub.written) → b.pub.ready = a.pub.ready ∧ b.cep = a.cep ∧ b.ports = a.ports ∧ b.merid = a.merid) ∧
      b = { a with mem0 := b.mem0, dict := b.dict, pub := b.pub, cep := b.cep, health := b.health, merid := b.merid, comm := b.comm
                   mgmt := b.mgmt, ports := b.ports }

/-- The Meridian (R198 to R200, R395): at the combiner an ARRIVE is kept, and the last one that the epoch lacks sends RELEASE to every
member, at the later of one period after the last value and one lead after now; a RELEASE for the epoch in progress is kept until its
value; then the step epoch advances, evt_meridian toggles and the step-released token is posted, nothing of the epoch stays in the
reduction engine. A JOINED core starts the job at the start RELEASE's value. -/
def Obligations.MeridianReleasesOnce : Prop :=
  (∀ (s : State) (now : Nat) (m : Pkt), Arrives s.alesh tHello m → m.payload = [] → s.alesh.inJob = true →
    let a := s.alesh.heard now m.src
    let e := bf m.args 0 48
    let x := a.openRelease
    let came (n : Nat) : Prop := n = m.src ∧ x ≤ e ∨ ∃ y ∈ a.merid.arrivals, y.1 = n ∧ x ≤ y.2
    a.combiner = a.node → x ≤ e → (m.src, e) ∉ a.merid.arrivals →
      ((∃ n ∈ a.activeMembers, ¬came n) → Gives (.helloArriveRx now m) s fun b =>
        b = { a with merid := a.arriveIn m.src e, comm := { a.comm with arrived := b.comm.arrived } }) ∧
      ((∀ n ∈ a.activeMembers, came n) → a.cutReady x = true → a.orderHolds x = false → a.num O.STEP_EPOCH < x →
        Gives (.helloArriveRx now m) s fun b =>
          let r := max ((if a.merid.again then a.merid.last else a.merid.sent.2) + a.num O.MERIDIAN_PERIOD_NS) (a.now + a.num O.MERIDIAN_LEAD_NS)
          b.merid.sent = (x, r) ∧ (∀ n ∈ a.releaseTo x, Sends b (a.cresol tHello n (helloArgs hRelease x) (leBytes 8 r ++ leBytes 8 0))) ∧
          b = { a with merid := b.merid, comm := { a.comm with arrived := b.comm.arrived }, mgmt := b.mgmt, ports := b.ports })) ∧
  (∀ (s : State) (now : Nat) (m : Pkt), Arrives s.alesh tHello m → m.payload.length = 16 → s.alesh.inJob = true →
    let a := s.alesh.heard now m.src
    let e := bf m.args 0 48
    let r := leAt m.payload 0 8
    e = a.inProgress → a.merid.release = none → (a.clock.valid = true → a.now ≤ r) → Gives (.helloReleaseRx now m) s fun b =>
      b.merid = { a.merid with release := some (e, r) } ∧ b.num O.MERIDIAN_SCHEDULED = r ∧ SameBut [O.MERIDIAN_SCHEDULED] [] a b ∧
      b = { a with merid := b.merid, dict := b.dict }) ∧
  (∀ (s : State) (now e r : Nat), s.alesh.inJob = true → s.alesh.clock.valid = true → s.alesh.merid.release = some (e, r) →
    let a := s.alesh.at now
    e = a.inProgress → r ≤ a.now → a.memb.pending = none → a.merid.order = none → a.ctl.jobStop = none → a.coding.extPlan = [] →
    a.take.buildAt = none → a.take.switchAt = none → a.plate.cut = none → a.cluster.length < 2 → Gives (.meridianRelease now) s fun b =>
      b.num O.STEP_EPOCH = e ∧ b.num O.MERIDIAN_LAST_RELEASE = a.now ∧ b.num O.MERIDIAN_SCHEDULED = 0 ∧ b.merid.release = none ∧ b.merid.last = r ∧
      b.evts.meridian = !a.evts.meridian ∧ b.cep = (a.post uControl (tokStepReleased e)).cep ∧ (∀ c ∈ b.red.contribs, e < c.epoch) ∧
      (∀ q ∈ b.red.held, e < q.epoch) ∧ (∀ t ∈ b.pub.tokens, e < t.2) ∧ (∀ y ∈ b.merid.arrivals, e < y.2) ∧ b.mem1 = a.mem1) ∧
  ∀ (s : State) (now st c : Nat), s.alesh.ctl.core = .joined → s.alesh.clock.valid = true → s.alesh.comm.start = some (st, c) →
    let a := s.alesh.at now
    c ≤ a.now → st + 1 < 2 ^ 48 → Gives (.jobStart now) s fun b =>
      b.ctl.core = .running ∧ b.num O.STEP_EPOCH = st ∧ b.num O.CONFIG_EPOCH = 1 ∧ b.num O.ACTIVE_OVERLAY = 0xFF ∧
      b.num O.MERIDIAN_LAST_RELEASE = c ∧ b.num O.COMMENCE_TIME = c ∧ b.num O.COMMENCE_STATE = 6 ∧ b.num O.PROTECTION_STATE = 0 ∧
      b.ctl.units = a.ctl.units.map (fun u => if u == .armed then .running else u) ∧ b.evts.meridian = !a.evts.meridian ∧
      b.progs = a.take.owned.map (fun g => Prog.fresh g st) ∧ b.take.owned = a.take.owned ∧ b.slots = a.slots ∧ b.memb.members = a.memb.members ∧
      b.mem1 = a.mem1 ∧ b.errs = a.errs ∧ b.take.rebuilds = []

/-- Overlay switches (R374 to R377): the combiner accepts one switch at a time, to the base or a loaded overlay, at an epoch not yet
released, its own next but one where none is named. A member keeps the order of its combiner for an epoch above its own, and drops
it at a CANCEL of that epoch, with the flag, which one without an order sets too. An order that has not been answered is written again,
the same request where it is still open. -/
def Obligations.OverlaysSwitchByOrder : Prop :=
  (∀ (s : State) (via : Via) (arg now : Nat), Admits s.alesh via → s.alesh.inJob = true → s.alesh.combiner = s.alesh.node →
    let a := s.alesh
    let ov := bf arg 0 8
    let e := bf arg 8 48
    let p := a.nextRelease
    let sound : Prop := (e = 0 ∨ p < e) ∧ (ov = 0xFF ∨ ov < 8 ∧ (lookup? a.dict.images ov).isSome = true)
    let at_ := if e = 0 then p + 1 else e
    (¬sound → Ends (.overlaySwitch via arg now) s via O.OVERLAY_SWITCH true .range fun b => b.merid = a.merid ∧ SameBut [O.DICT_INBAND_COUNT] [] a b) ∧
    (sound → a.num O.SWITCH_STATE = 1 → Ends (.overlaySwitch via arg now) s via O.OVERLAY_SWITCH true .busy fun b =>
      b.merid = a.merid ∧ SameBut [O.DICT_INBAND_COUNT] [] a b) ∧
    (sound → a.num O.SWITCH_STATE ≠ 1 → Ends (.overlaySwitch via arg now) s via O.OVERLAY_SWITCH true .ok fun b =>
      b.num O.SWITCH_STATE = 1 ∧ b.num O.SWITCH_EPOCH = at_ ∧ b.merid.switching = some (0, ov, at_) ∧ b.merid.order = a.merid.order ∧
      SameBut [O.SWITCH_STATE, O.SWITCH_EPOCH, O.DICT_INBAND_COUNT] [] a b ∧
      b = { a with clock := b.clock, dict := b.dict, merid := b.merid, win := b.win, mgmt := b.mgmt, ports := b.ports })) ∧
  (∀ (s : State) (src q now : Nat) (v : Bytes), Admits s.alesh (.inBand src q) → s.alesh.inJob = true → v.length = 16 →
    s.alesh.isMember src = true → src = s.alesh.combiner →
    let a := s.alesh
    let ov := leAt v 1 1
    let e := bf (leAt v 8 8) 0 48
    let frame (b : Alesh) : Prop := SameBut [O.SWITCH_STATE, O.SWITCH_EPOCH, O.CTRL_FLAGS, O.DICT_INBAND_COUNT] [] a b ∧
      b = { a with clock := b.clock, dict := b.dict, merid := b.merid, evts := b.evts, win := b.win, mgmt := b.mgmt, ports := b.ports }
    (leAt v 0 1 = 0 → ov = 0xFF ∨ a.imageGood ov = true → a.num O.STEP_EPOCH < e →
      Ends (.switchOrderWrite src q now v) s (.inBand src q) O.SWITCH_ORDER true .ok fun b =>
        b.merid = { a.merid with order := some (ov, e, src), orderHolder := insertNat a.merid.orderHolder src } ∧
        b.num O.SWITCH_STATE = 1 ∧ b.num O.SWITCH_EPOCH = e ∧ frame b) ∧
    (leAt v 0 1 = 0 → ov ≠ 0xFF → a.imageGood ov = false →
      Ends (.switchOrderWrite src q now v) s (.inBand src q) O.SWITCH_ORDER true .range fun b => b.merid = a.merid ∧ frame b) ∧
    (∀ o, leAt v 0 1 = 1 → a.merid.order = some o → o.2.1 = e →
      Ends (.switchCancel src q now v) s (.inBand src q) O.SWITCH_ORDER true .ok fun b =>
        b.merid = { a.merid with order := none, orderHolder := [] } ∧ b.num O.SWITCH_STATE = 3 ∧ (b.num O.CTRL_FLAGS).testBit 5 = true ∧ frame b) ∧
    (leAt v 0 1 = 1 → a.merid.order = none → Ends (.switchCancel src q now v) s (.inBand src q) O.SWITCH_ORDER true .ok fun b =>
      b.num O.SWITCH_STATE = 3 ∧ (b.num O.CTRL_FLAGS).testBit 5 = true ∧ frame b) ∧
    (∀ o, leAt v 0 1 = 1 → a.merid.order = some o → o.2.1 ≠ e →
      Ends (.switchCancel src q now v) s (.inBand src q) O.SWITCH_ORDER true .ok fun b => b.merid = a.merid ∧ frame b)) ∧
  ∀ (s : State) (now : Nat), s.alesh.inJob = true → s.alesh.clock.valid = true → s.alesh.merid.ordersOut = true →
    let a := s.alesh.at now
    a.merid.orderDue ≤ a.now → (∀ x ∈ a.mgmt.asked, ∀ y ∈ a.mgmt.asked, x.dst = y.dst → x.reqId = y.reqId → x = y) →
    Gives (.switchOrderResend now) s fun b =>
      b.merid = { a.merid with orderDue := a.ackDue } ∧
      (∀ x ∈ a.mgmt.asked, x.isOrder = true → x.dst ∉ a.merid.answered → Sends b (a.cresol tDict x.dst 0 x.body) ∧
        { x with due := a.ackDue, tries := x.tries + 1 } ∈ b.mgmt.asked) ∧
      (∀ x ∈ a.mgmt.asked, x.isOrder = false → x ∈ b.mgmt.asked) ∧
      (∀ act ov e, a.merid.switching = some (act, ov, e) → ∀ n ∈ a.memb.members, n ∉ a.merid.answered →
        (∀ x ∈ a.mgmt.asked, x.isOrder = true → x.dst ≠ n) →
        ∃ x ∈ b.mgmt.asked, x.dst = n ∧ x.data = orderBytes act ov e ∧ Sends b (a.cresol tDict n 0 x.body)) ∧ SameBut [O.HEALTH_FLAGS] [] a b ∧
      b = { a with merid := b.merid, mgmt := b.mgmt, ports := b.ports, dict := b.dict, evts := b.evts, health := b.health }

/-! ### Routes, beacons, fencing, membership (R181, R211 to R225, R366, R397) -/

/-- ROUTE_CHANGE advances the route epoch by one, modulo 2^16, and is a link event (R181, R323). A beacon from a member counts for its source (R220); each period a
running core sends one, carrying its step epoch, to every peer that it watches; one that stays silent is entered in LOSS_SUSPECT, with
evt_attention. A valid OCCULT fences the core: it sends nothing more and shows OCCULTED (R225); OCCULT is resent up to RETRY_LIMIT
times (R224). -/
def Obligations.RoutesBeaconsAndOccults : Prop :=
  (∀ (s : State) (via : Via) (now : Nat), Admits s.alesh via → s.alesh.joinedOrJob = true → s.alesh.coding.own = [] →
    Ends (.routeChange via now) s via O.ROUTE_CHANGE false .ok fun b =>
      b.num O.ROUTE_EPOCH = (s.alesh.num O.ROUTE_EPOCH + 1) % 65536 ∧ (b.num O.HEALTH_FLAGS).testBit 11 = true ∧
      b.health.now.lk = s.alesh.health.now.lk + 1 ∧ SameBut [O.ROUTE_EPOCH, O.HEALTH_FLAGS, O.DICT_INBAND_COUNT] [] s.alesh b ∧
      b = { s.alesh with clock := b.clock, dict := b.dict, win := b.win, mgmt := b.mgmt, ports := b.ports, evts := b.evts, health := b.health }) ∧
  (∀ (s : State) (now : Nat) (m : Pkt), Arrives s.alesh tHello m → m.payload = [] → Gives (.helloBeaconRx now m) s fun b =>
      b = s.alesh.heard now m.src ∧ m.src ∉ b.memb.suspects ∧
      (∀ t, lookup? s.alesh.memb.heard m.src = some t →
        lookup? b.memb.heard m.src = some (b.now + b.num O.BEACON_PERIOD_NS * b.num O.BEACON_MISS)) ∧
      (∀ n, n ≠ m.src → lookup? b.memb.heard n = lookup? s.alesh.memb.heard n) ∧ SameBut [] [O.LOSS_SUSPECT] s.alesh b) ∧
  (∀ (s : State) (now : Nat), s.alesh.inJob = true → s.alesh.clock.valid = true →
    let a := s.alesh.at now
    a.memb.beaconDue ≤ a.now → Gives (.beaconPeriod now) s fun b =>
      (∀ n ∈ a.watched, Sends b (a.cresol tHello n (helloArgs hBeacon (a.num O.STEP_EPOCH)) [])) ∧
      b.memb = { a.memb with beaconDue := a.now + a.num O.BEACON_PERIOD_NS } ∧ b = { a with memb := b.memb, ports := b.ports }) ∧
  (∀ (s : State) (now n t : Nat), s.alesh.inJob = true → s.alesh.clock.valid = true → lookup? s.alesh.memb.heard n = some t →
    let a := s.alesh.at now
    t ≤ a.now → n ∉ a.memb.suspects → Gives (.beaconMissExpiry now n) s fun b =>
      b.memb = { a.memb with suspects := a.memb.suspects ++ [n] } ∧ b.dom O.LOSS_SUSPECT = (b.memb.suspects.take 64).flatMap (leBytes 4) ∧
      b.evts.pending.testBit 1 = true ∧ (∀ i, (a.geo.members.findIdx? fun p => p.2 == n) = some i → (b.num O.PEER_FLAGS).testBit i = true) ∧
      SameBut [O.PEER_FLAGS] [O.LOSS_SUSPECT] a b ∧ b = { a with memb := b.memb, dict := b.dict, evts := b.evts }) ∧
  (∀ (s : State) (now : Nat) (m : Pkt), s.alesh.idleToJob = true → m.version = 1 → m.dst = s.alesh.node → m.vc = 0 →
    (s.alesh.at now).occultOk m = true → Gives (.occultRx now m) s fun b =>
      b.ctl.core = .occulted ∧ (b.num O.CTRL_FLAGS).testBit 7 = true ∧ b.ports.queue = [] ∧ b.ports.sending = [] ∧ b.ports.loop = [] ∧
      b.cep = { out := [], held := [] } ∧ b.maySend = false ∧ b.mem0 = s.alesh.mem0 ∧ b.mem1 = s.alesh.mem1 ∧ b.slots = s.alesh.slots) ∧
  ∀ (s : State) (now n args tries due : Nat) (c : Bytes), s.alesh.clock.valid = true → s.alesh.inJob = true →
    let a := s.alesh.at now
    (a.memb.occults.find? fun o => o.1 == n) = some (n, args, c, tries, due) → due ≤ a.now → Gives (.occultResend now n) s fun b =>
      (tries < a.num O.RETRY_LIMIT → b.ports = (a.emit (a.cresol tOccult n args c)).ports) ∧ (a.num O.RETRY_LIMIT ≤ tries → b.ports = a.ports) ∧
      b.memb = { a.memb with occults := a.memb.occults.filter (fun o => o.1 != n) ++
        (if tries + 1 < a.num O.RETRY_LIMIT then [(n, args, c, tries + 1, a.ackDue)] else []) } ∧
      b = { a with memb := b.memb, ports := b.ports }

/-- Membership (R211 to R219): a certificate of the next epoch that passes every condition is adopted, from its driver or in a packet; one
that removes cores takes effect at once where no job runs: epoch, bitmaps and removed sources; a LEAVE or JOIN waits for its Meridian.
One of the history is answered OK again; one whose signatures do not verify changes nothing; one more than one epoch ahead is held; a
JOIN of this core under another fingerprint is refused (R398). While one waits for the time at a JOINED core, its result is not there
yet, and another install is BUSY (R367, R397). A
pull is answered with every certificate above the puller's epoch (R218). -/
def Obligations.CertificatesChangeMembership : Prop :=
  (∀ (s : State) (via : Via) (now : Nat) (m : Pkt) (r : Bool), s.alesh.idleToJob = true →
    let c := if r then m.payload else s.alesh.dom O.CERT_MAILBOX
    let a := if r then s.alesh.heard now m.src else s.alesh.at now
    let before := (a.memb.members, a.memb.draining)
    let run (res : Res) (p : Alesh → Prop) : Prop :=
      if r then (m.version = 1 → m.dst = s.alesh.node → m.vc = 0 → m.route = a.num O.ROUTE_EPOCH → certShape c = true → bf m.args 28 32 = certEpoch c →
        Gives (.grantMembershipRx now m) s p)
      else (Admits s.alesh via → a.memb.waitVia = none → Ends (.membInstall via now) s via O.MEMB_INSTALL false res p)
    (a.judge c = .adopt → a.memb.pending = none → a.memb.held = [] → a.ctl.core = .idle → certKind c = cLoss ∨ certKind c = cExpel → run .ok fun b =>
      b.num O.MEMBERSHIP_EPOCH = certEpoch c ∧ (b.memb.members, b.memb.draining) = applyChange c before ∧ b.memb.pending = none ∧
      (∀ n ∈ certNodes c, n ∈ b.memb.removed ∧ n ∉ b.memb.members) ∧ c ∈ b.memb.history ∧ b.memb.history.length ≤ 16 ∧
      (a.num O.CHRONO_PAGES = 0 → b.mem0 = a.mem0) ∧ (a.num O.CHRONO_PAGES ≠ 0 → b.num O.CHRONO_SEQ = wrapAdd (widthOf O.CHRONO_SEQ) (a.num O.CHRONO_SEQ) 1) ∧
      b.mem1 = a.mem1 ∧ b.slots = a.slots ∧ b.ctl = a.ctl) ∧
    (a.judge c = .adopt → a.memb.pending = none → a.memb.held = [] → a.ctl.core = .idle ∨ a.inJob = true ∧ a.num O.STEP_EPOCH < certStep c → certKind c = cLeave → run .ok fun b =>
      b.memb.pending = some c ∧ b.memb.members = a.memb.members ∧ b.num O.MEMBERSHIP_EPOCH = a.num O.MEMBERSHIP_EPOCH ∧ c ∈ b.memb.history ∧
      SameBut [O.DICT_INBAND_COUNT] [] a b) ∧
    (a.judge c = .same → run .ok fun b => b.memb = a.memb ∧ SameBut [O.DICT_INBAND_COUNT] [] a b) ∧
    (a.judge c = .unverified → run .access fun b => b.memb = a.memb ∧ SameBut [O.DICT_INBAND_COUNT] [] a b) ∧
    (a.judge c = .adopt ∨ a.judge c = .hold → a.joinRefused c = true → run .access fun b => b.memb = a.memb ∧ SameBut [O.DICT_INBAND_COUNT] [] a b) ∧
    (a.judge c = .adopt → a.ctl.core = .joined → a.joining = false → certRemoves c = true → a.comm.start = none → a.clock.valid = false →
      if r then run .ok fun b => b.memb = { a.memb with waitTime := some (c, false) } ∧ SameBut [] [] a b
      else Admits s.alesh via → a.memb.waitVia = none → s.alesh.stageHolds O.MEMB_INSTALL = false → Gives (.membInstall via now) s fun b =>
        b.memb = { a.memb with waitTime := some (c, true), waitVia := some (via, false) } ∧ SameBut [O.DICT_INBAND_COUNT] [] a b) ∧
    (r = false → Admits s.alesh via → a.memb.waitVia ≠ none → Ends (.membInstall via now) s via O.MEMB_INSTALL false .busy fun b =>
      b.memb = a.memb ∧ SameBut [O.DICT_INBAND_COUNT] [] a b) ∧
    (a.judge c = .hold → a.joinRefused c = false → a.memb.waitTime = none → a.memb.held.length < 4 → (∀ h ∈ a.memb.held, h.1 ≠ c) → run .ok fun b =>
      b.memb = { a.memb with held := a.memb.held ++ [(c, !r)] } ∧ SameBut [O.DICT_INBAND_COUNT] [] a b)) ∧
  ∀ (s : State) (now : Nat) (m : Pkt), s.alesh.inJob = true → m.version = 1 → m.dst = s.alesh.node → m.vc = 0 → m.payload = [] →
    m.route = s.alesh.num O.ROUTE_EPOCH →
    let a := s.alesh.heard now m.src
    Gives (.membPullRx now m) s fun b => (∀ c ∈ a.memb.history, bf m.args 28 32 < certEpoch c →
        Sends b (a.cresol tGrant m.src (grantArgs 4 (certEpoch c)) c)) ∧
      b = { a with ports := b.ports }

/-! ### Leases (R226 to R230, R236) -/

/-- Timed leases: RENEW of the holder's own generation extends the expiry, and TAKE or RENEW of a later generation names the new holder; the
holder renews with less than half a term left; a successor takes the lease when its time comes, or at once on a RELEASE (while its time
is not valid, once it is), with the next generation, and acts LEASE_STEP_NS later. TAKE of a RETAIN lease by a slice's owner moves the retained partials to it. A report is
kept once by the acting coordinator, and a standing report is sent again. -/
def Obligations.LeasesPassInOrder : Prop :=
  let taken (a b : Alesh) (l : Lease) : Prop :=
    let e := a.now + a.num O.LEASE_TERM_NS
    let gen := (l.gen + 1) % 65536
    b.lease? l.kind = some { l with gen := gen, holder := a.node, prev := l.holder, expiry := e, actFrom := a.now + a.num O.LEASE_STEP_NS
                                    acting := false } ∧
    b.num O.LEASE_TAKE_COUNT = satAdd (widthOf O.LEASE_TAKE_COUNT) (a.num O.LEASE_TAKE_COUNT) 1 ∧
    (∀ n ∈ a.leasePeers l.kind, Sends b (a.cresol tLease n (leaseArgs l.kind l.id 1 gen) (leBytes 8 e ++ leBytes 8 0))) ∧
    (∀ k, k ≠ l.kind → b.lease? k = a.lease? k) ∧ b.mem0 = a.mem0 ∧ b.red = a.red ∧ b.slots = a.slots
  (∀ (s : State) (now : Nat) (m : Pkt) (l : Lease), Arrives s.alesh tLease m → m.payload.length = 16 → s.alesh.inJob = true →
    let a := s.alesh.heard now m.src
    let x := LeaseArgs.ofNat m.args
    let e := leAt m.payload 0 8
    let passes (b : Alesh) : Prop :=
      (∃ n, b.lease? x.kind = some n ∧ n.holder = m.src ∧ n.gen = x.gen ∧ n.expiry = e ∧ n.acting = false) ∧
      (∀ k, k ≠ x.kind → b.lease? k = a.lease? k) ∧ b.mem0 = a.mem0 ∧ b.red = a.red ∧ b.slots = a.slots
    x.kind ≤ 1 → a.lease? x.kind = some l → l.id = x.id →
    (x.gen = l.gen → m.src = l.holder → Gives (.leaseRenewRx now m) s fun b =>
      b.lease? x.kind = some { l with expiry := max l.expiry e } ∧ b = { a with leases := b.leases }) ∧
    (newer16 x.gen l.gen = true → Gives (.leaseRenewRx now m) s passes ∧ Gives (.leaseTakeRx now m) s passes) ∧
    (x.gen = l.gen → m.src ≠ l.holder → (l.holder = a.node → l.acting = false) →
      (∀ i, (a.successors x.kind l.prev).findIdx? (· == m.src) = some i →
        ∀ j, (a.successors x.kind l.prev).findIdx? (· == l.holder) = some j → i < j → Gives (.leaseTakeRx now m) s passes))) ∧
  (∀ (s : State) (now : Nat) (m : Pkt), Arrives s.alesh tLease m → m.payload.length = 16 → s.alesh.inJob = true →
    let a := s.alesh.heard now m.src
    let g := (LeaseArgs.ofNat m.args).id
    let mine (p : Part) : Bool := p.gsid == g && (p.kind == kDense || p.kind == kSparse)
    (LeaseArgs.ofNat m.args).kind = 3 → a.ownerOf g = m.src → Gives (.leaseTakeRx now m) s fun b =>
      b.red = { a.red with retained := modWhere mine (fun p => { p with peer := m.src }) a.red.retained } ∧
      (∀ p ∈ a.red.retained, mine p = true →
        Sends b (a.cresol tPart m.src (a.partArgsOf { p with peer := m.src }) (a.nodePayload p.gsid p.level p.val))) ∧
      b = { a with red := b.red, ports := b.ports }) ∧
  (∀ (s : State) (now : Nat) (m : Pkt) (l : Lease), Arrives s.alesh tLease m → m.payload = [] → s.alesh.inJob = true →
    let a := s.alesh.heard now m.src
    let x := LeaseArgs.ofNat m.args
    x.kind ≤ 1 → a.lease? x.kind = some l → l.id = x.id → l.gen = x.gen → l.holder = m.src →
    (a.successors x.kind m.src).head? = some a.node →
      (a.clock.valid = true → Gives (.leaseReleaseRx now m) s fun b => taken a b l) ∧
      (a.clock.valid = false → Gives (.leaseReleaseRx now m) s fun b =>
        b.lease? x.kind = some { l with expiry := 0 } ∧ b = { a with leases := b.leases })) ∧
  (∀ (s : State) (now : Nat) (m : Pkt), Arrives s.alesh tLease m → m.payload.length = 16 → s.alesh.inJob = true →
    let a := s.alesh.heard now m.src
    let x := LeaseArgs.ofNat m.args
    let w := leAt m.payload 0 8
    x.kind = 0 → reportWhat w ≤ 2 → x.id = a.num O.GROUP_NUMBER → a.acts lCoord = true →
    ((m.src, w) ∈ a.take.got → Gives (.leaseReportRx now m) s fun b => b = a) ∧
    ((m.src, w) ∉ a.take.got → Gives (.leaseReportRx now m) s fun b => b.take.got = a.take.got ++ [(m.src, w)] ∧
      b = { a with take := { a.take with got := b.take.got, announces := b.take.announces }, ports := b.ports })) ∧
  ∀ (s : State) (now k : Nat), s.alesh.inJob = true → s.alesh.clock.valid = true →
    let a := s.alesh.at now
    (∀ l, a.lease? k = some l →
      (a.acts k = true → l.expiry < a.now + a.num O.LEASE_TERM_NS / 2 → Gives (.leaseRenewDue now k) s fun b =>
        let e := a.now + a.num O.LEASE_TERM_NS
        b.lease? k = some { l with expiry := e } ∧
        (∀ n ∈ a.leasePeers k, Sends b (a.cresol tLease n (leaseArgs k l.id 0 l.gen) (leBytes 8 e ++ leBytes 8 0))) ∧
        b = { a with leases := b.leases, ports := b.ports }) ∧
      (∀ i, (a.successors k l.holder).findIdx? (· == a.node) = some i →
        l.expiry + a.num O.LEASE_GUARD_NS + i * a.num O.LEASE_STEP_NS ≤ a.now → Gives (.leaseTakeDue now k) s fun b => taken a b l) ∧
      (l.holder = a.node → l.acting = false → a.isDraining a.node = false → l.actFrom ≤ a.now → Gives (.leaseActStart now k) s fun b =>
        b.lease? k = some { l with acting := true } ∧ b = { a with leases := b.leases })) ∧
    Gives (.leaseReportResend now) s fun b =>
      (∀ r ∈ a.take.reports, (r.2.2 ≤ a.now → (r.1, r.2.1, a.ackDue) ∈ b.take.reports) ∧ (a.now < r.2.2 → r ∈ b.take.reports)) ∧
      (∀ r ∈ a.take.reports, r.2.2 ≤ a.now → r.1 = a.num O.GROUP_NUMBER → ∃ gen,
        Sends b (a.cresol tLease a.coordinator (leaseArgs lCoord r.1 3 gen) (leBytes 8 r.2.1 ++ leBytes 8 0))) ∧
      b = { a with take := { a.take with reports := b.take.reports }, ports := b.ports }

/-! ### External rows, base pages, restriping (R169 to R172, R244 to R248) -/

/-- External entries (R169, R170, R172): an announcement that names an entry is kept until its Meridian; one whose Meridian has released
acts at once: a build blanks the entry's slots here and freezes those that the row's present holder copies, one of an ACTIVE RELOCATE
entry starts the row's return to its default member (the model's choice, log entry 55), an activation puts the row in force, a
withdrawal takes it out; a cancellation ends a build or a return.
What the acting coordinator has announced is sent again while it stands. -/
def Obligations.ExternalEntriesMoveAsAnnounced : Prop :=
  (∀ (s : State) (now : Nat) (m : Pkt) (i : Nat) (y : ExtEntry), Arrives s.alesh tGrant m → m.payload = [] → s.alesh.inJob = true →
    let a := s.alesh.heard now m.src
    let x := GrantArgs.ofNat m.args
    let e := a.epochOf x.epochLo
    let known (b : Alesh) : Prop := lookup? b.coding.extCoord y.group = some m.src
    let waits (c : Instr) (sub : Nat) : Prop := a.num O.STEP_EPOCH < e → Gives c s fun b =>
      b.coding.extPlan = a.coding.extPlan ++ [(i, sub, e)] ∧ b.coding.ext = a.coding.ext ∧ known b ∧ SameBut [] [] a b ∧
      b = { a with coding := b.coding, take := { a.take with reports := b.take.reports } }
    let acts (c : Instr) (st : Nat) (p : Alesh → Prop) : Prop := e ≤ a.num O.STEP_EPOCH → Gives c s fun b =>
      b.extState i = st ∧ (∀ j, j ≠ i → b.extState j = a.extState j) ∧ known b ∧ p b ∧ SameBut [O.STRIPE_M_ACTIVE] [] a b ∧
      b = { a with coding := b.coding, take := { a.take with reports := b.take.reports }, dict := b.dict, mem0 := b.mem0 }
    a.findExt x = some (i, y) → (∀ p ∈ a.coding.extPlan, p.1 ≠ i) → a.exts[i]? = some y →
    (a.extState i = 0 → waits (.extBuildRx now m) gBuild ∧ acts (.extBuildRx now m) 1 fun b =>
      (y.node ≠ a.node → b.mem0 = a.mem0) ∧ b.num O.STRIPE_M_ACTIVE = a.num O.STRIPE_M_ACTIVE ∧
      b.coding.frozen = a.coding.frozen ++ (a.sourceSlots y).map fun q => (q.1, e)) ∧
    (a.extState i = 2 → y.kind = 0 → a.returning i y = false → waits (.extBuildRx now m) gBuild ∧ acts (.extBuildRx now m) 2 fun b =>
      b.mem0 = a.mem0 ∧ b.num O.STRIPE_M_ACTIVE = a.num O.STRIPE_M_ACTIVE ∧ lookup? b.coding.returns i = some e ∧
      (y.node = a.node → ∀ q ∈ a.extSlots y, (q, e) ∈ b.coding.frozen) ∧ (a.isDefault y = true → ∀ q ∈ a.defaultSlots y, q ∈ b.coding.awaiting)) ∧
    (a.extState i = 1 → waits (.extActivateRx now m) gActivate ∧ acts (.extActivateRx now m) 2 fun b => b.mem0 = a.mem0 ∧
      b.num O.STRIPE_M_ACTIVE = (if y.group = a.num O.GROUP_NUMBER ∧ y.kind = 1 then y.row + 1 else a.num O.STRIPE_M_ACTIVE)) ∧
    (a.extState i = 2 → waits (.extWithdrawRx now m) gWithdraw ∧ acts (.extWithdrawRx now m) 3 fun b => b.mem0 = a.mem0 ∧
      b.num O.STRIPE_M_ACTIVE = (if y.group = a.num O.GROUP_NUMBER ∧ y.kind = 1 then y.row else a.num O.STRIPE_M_ACTIVE)) ∧
    (a.extState i = 2 → a.returning i y = true → Gives (.extCancelRx now m) s fun b => (∀ j, b.extState j = a.extState j) ∧
      b.returning i y = false ∧ known b ∧ b.mem0 = a.mem0 ∧ SameBut [O.HOLD_USED] [] a b) ∧
    (a.extState i = 1 → Gives (.extCancelRx now m) s fun b => b.extState i = 0 ∧ (∀ j, j ≠ i → b.extState j = a.extState j) ∧ known b ∧
      b.mem0 = a.mem0 ∧ (∀ t ∈ b.coding.own, ¬(a.entryOwn y t = true ∧ t.extra = true)) ∧ SameBut [O.HOLD_USED] [] a b)) ∧
  ∀ (s : State) (now : Nat), s.alesh.inJob = true → (s.alesh.at now).acts lCoord = true → Gives (.grantAnnounceResend now) s fun b =>
    let a := s.alesh.at now
    (∀ x ∈ a.take.announces, x.2.2.2 ≤ a.now → (∀ n ∈ x.2.2.1, Sends b (a.cresol tGrant n x.1 [])) ∧
      (x.1, x.2.1, x.2.2.1, a.ackDue) ∈ b.take.announces) ∧
    (∀ x ∈ a.take.announces, a.now < x.2.2.2 → x ∈ b.take.announces) ∧
    b = { a with take := { a.take with announces := b.take.announces }, ports := b.ports }

/-- Copies and base pages (R170, R172, R246; the packet's form is log entry 33): the holder that a row leaves, on its way to an entry's
holder or back to the default member, sends a frozen slot whole and folds into it again; an owner sends a live page scaled, with its
epochs; a base page is added into its slot once and enters the page epoch table, a second one is a duplicate. -/
def Obligations.BasePagesFillNewSlots : Prop :=
  (∀ (s : State) (now entry slot e : Nat) (x : ExtEntry), s.alesh.inJob = true →
    let a := s.alesh.at now
    let out := if a.extState entry = 1 then (a.sourceSlots x).find? fun p => p.1 == slot else none
    let back : Prop := a.returning entry x = true ∧ x.node = a.node ∧ slot ∈ a.extSlots x
    let band := (match out with | some p => p.2 | none => slot - x.first) * a.geo.n + x.rotation
    a.exts[entry]? = some x → lookup? a.coding.frozen slot = some e → out.isSome = true ∨ back →
    slot ∉ a.coding.lost → (∀ t ∈ a.coding.hold, t.row = x.row → t.band = band → t.alt = false → t.old = false → t.epoch ≤ e → t.state.open_ = false) →
    a.tableGood false slot = true → (∀ p, p < 256 → a.parityGood false slot band p = true) → Gives (.extSlotCopySend now entry slot) s fun b =>
      b.coding = { a.coding with frozen := a.coding.frozen.filter fun f => f.1 != slot } ∧
      Sends b { a.cresol tDelta (if out.isSome then x.node else a.geo.defaultNode x) (copyArgs true false band x.row 0 0 0) (a.slotCopy slot) with vc := 3 } ∧
      b = { a with coding := b.coding, ports := b.ports }) ∧
  (∀ (s : State) (now g page dst row sl : Nat) (t : Target) (p : Prog), s.alesh.inJob = true → s.alesh.owns g = true →
    let a := s.alesh.at now
    let r := a.pageRec sl page
    let widen (t : Target) : Bool := t.alt || (!t.extra && a.num O.RESTORE_STATE == 2) || (a.extsIn 1).any fun e =>
      e.2.node == dst && e.2.row == row && e.2.kind == 1 && e.2.rotation == t.band % a.geo.n
    ((a.targets g).find? fun t => t.node == dst && t.row == row && widen t) = some t → a.liveSlot g = some sl →
    a.prog? g = some p → page < a.slicePages g → a.pageReady g page = true → Gives (.basePageSend now g page dst row) s fun b =>
      Sends b { a.cresol tDelta dst (copyArgs false t.alt t.band row t.col page (a.slicePages g - 1))
        (leBytes 8 p.last ++ leBytes 8 (if r.valid then r.step else 0) ++ gfScale (coef row t.col) (a.livePage g page)) with vc := 3 } ∧
      (a.coding.restoring = true → (g, page, dst, row) ∈ b.coding.basesOut) ∧ (a.coding.restoring = false → b.coding = a.coding) ∧
      b = { a with coding := b.coding, ports := b.ports }) ∧
  ∀ (s : State) (now : Nat) (m : Pkt) (slot gr : Nat), Arrives s.alesh tDelta m → s.alesh.codes = true → m.payload.length = 65552 →
    let a := s.alesh.heard now m.src
    let w := m.args
    let band := bf w 32 16
    let col := bf w 27 5
    let row := bf w 25 2
    let page := bf w 16 8
    let key := slot * 32 + col
    let step := leAt m.payload 8 8
    let had := a.coding.basePages.filter fun b => b.1 == key
    w.testBit 62 = false → w.testBit 63 = false → (a.groupFor band row m.src).getD (a.num O.GROUP_NUMBER) = gr →
    a.rowSlot a.geo gr band row = some slot → a.buildingRow gr band row = true ∨ a.coding.restoring = true → a.ownsColumn false gr band col m.src = true →
    a.tableGood false slot = true → a.parityGood false slot band page = true → a.errs.retired = [] →
    ((∃ b ∈ had, b.2.1 = page) → Gives (.basePageRx now m) s fun b =>
      b.num O.CRESOL_DUP_COUNT = satAdd (widthOf O.CRESOL_DUP_COUNT) (a.num O.CRESOL_DUP_COUNT) 1 ∧ b = { a with dict := b.dict }) ∧
    ((∀ b ∈ had, b.2.1 ≠ page) → had.length + 1 < bf w 0 8 + 1 → step < 2 ^ 48 → (col, page) ≠ (31, 255) →
      let apart (x n y k : Nat) : Prop := x + n ≤ y ∨ y + k ≤ x
      apart (a.parityAddr false slot page) 65536 (a.tableAddr false slot) 65536 →
      apart (a.parityRecAddr false slot page) 64 (a.tableAddr false slot) 65536 →
      apart (a.parityRecAddr false slot page) 64 (a.parityAddr false slot page) 65536 → Gives (.basePageRx now m) s fun b =>
        b.coding = { a.coding with basePages := a.coding.basePages ++ [(key, page, leAt m.payload 0 8)] } ∧
        b.pageEpoch false slot col page = step ∧
        (step ≠ 0 → b.parityPage false slot page = xorBytes (a.parityPage false slot page) (slice m.payload 16 65536)) ∧
        (step = 0 → b.parityPage false slot page = a.parityPage false slot page) ∧ SameBut [] [] a b ∧ b = { a with coding := b.coding, mem0 := b.mem0 })

/-- Restriping (R245 to R248): a member with a valid stage and no slice without a slot reports READY; the build announced for a Meridian is
kept, or begins at once where that has released; with every new slot complete and no ABSENT page DONE is reported; the switch waits for its Meridian; an
announcement under another TAG cancels. One of another group is kept by a core that hosts an entry of it, and malformed elsewhere
(R169; the model's choice, log entry 143). -/
def Obligations.RestripingRunsInFourSteps : Prop :=
  let reported (a b : Alesh) (w : Nat) : Prop := (∃ r ∈ b.take.reports, r.1 = a.num O.GROUP_NUMBER ∧ r.2.1 = w) ∧ (∀ r ∈ a.take.reports, r ∈ b.take.reports) ∧
    SameBut [O.RESTRIPE_STATE] [] a b ∧ b = { a with dict := b.dict, take := { a.take with reports := b.take.reports }, ports := b.ports }
  (∀ (s : State) (now : Nat), s.alesh.inJob = true →
    let a := s.alesh.at now
    (a.num O.RESTRIPE_STATE = 0 → a.stageValid = true → a.take.unmapped = [] → Gives (.restripeReadySend now) s fun b =>
      b.num O.RESTRIPE_STATE = 1 ∧ reported a b (restripeWord 1 a.stageTag)) ∧
    (a.num O.RESTRIPE_STATE = 2 → a.take.building = true → a.ownsAbsent = false → a.altComplete = true → Gives (.restripeDoneSend now) s fun b =>
      b.num O.RESTRIPE_STATE = 3 ∧ reported a b (restripeWord 2 a.stageTag))) ∧
  ∀ (s : State) (now : Nat) (m : Pkt), Arrives s.alesh tGrant m → m.payload = [] → s.alesh.inJob = true →
    let a := s.alesh.heard now m.src
    let x := GrantArgs.ofNat m.args
    let e := a.epochOf x.epochLo
    let ended (w : Nat) : List (Nat × Nat × Nat) := a.take.reports.filter fun r => !(r.2.1 == w)
    let hosts : Prop := ∃ y ∈ a.exts, y.node = a.node ∧ y.group = x.group
    (x.group ≠ a.num O.GROUP_NUMBER → ¬hosts → Gives (.restripeBuildRx now m) s fun b =>
      b.num O.CRESOL_MALFORMED_COUNT = satAdd (widthOf O.CRESOL_MALFORMED_COUNT) (a.num O.CRESOL_MALFORMED_COUNT) 1 ∧ b = { a with dict := b.dict }) ∧
    (x.group ≠ a.num O.GROUP_NUMBER → hosts → a.num O.STEP_EPOCH < e → Gives (.restripeBuildRx now m) s fun b =>
      b = { a with coding := { a.coding with restripes := (a.coding.restripes.filter fun p => p.1 != x.group) ++ [(x.group, false, e)] } }) ∧
    (x.group = a.num O.GROUP_NUMBER →
    (x.tag = a.stageTag →
      (a.num O.RESTRIPE_STATE = 1 → a.take.buildAt = none →
        (a.num O.STEP_EPOCH < e → Gives (.restripeBuildRx now m) s fun b =>
          b = { a with take := { a.take with buildAt := some (x.tag, e), reports := ended (restripeWord 1 x.tag) } }) ∧
        (e ≤ a.num O.STEP_EPOCH → Gives (.restripeBuildRx now m) s fun b =>
          b.num O.RESTRIPE_STATE = 2 ∧ b.take.building = true ∧ b.take.altBased = [] ∧ b.take.buildAt = none ∧
          SameBut [O.RESTRIPE_STATE, O.HOLD_USED] [] a b ∧ b = { a with coding := b.coding, dict := b.dict, mem0 := b.mem0, take := b.take })) ∧
      (a.num O.RESTRIPE_STATE = 3 → a.take.switchAt = none →
        (a.num O.STEP_EPOCH < e → Gives (.restripeSwitchRx now m) s fun b =>
          b = { a with take := { a.take with switchAt := some (x.tag, e), reports := ended (restripeWord 2 x.tag) } }) ∧
        (e ≤ a.num O.STEP_EPOCH → Gives (.restripeSwitchRx now m) s fun b =>
          b.num O.STRIPE_K = a.stagedGeo.k ∧ b.num O.STRIPE_M = a.stagedGeo.m ∧ b.num O.GROUP_RANK = a.stagedGeo.rank ∧
          b.num O.STRIPE_M_ACTIVE = a.stagedGeo.m ∧ b.num O.PARITY_BASE = a.num O.PARITY_ALT_BASE ∧ b.num O.PARITY_ALT_BASE = a.num O.PARITY_BASE ∧
          b.num O.LAYOUT_GEN = a.num O.LAYOUT_GEN + 1 ∧ b.num O.RESTRIPE_STATE = 0 ∧ b.num O.WINDOW_OPEN_EPOCH = 0 ∧
          b.take.building = false ∧ b.take.switchAt = none ∧
          (∀ i y, a.stagedExts[i]? = some y → y.group = a.num O.GROUP_NUMBER → b.extState i = 0) ∧ b.mem0 = a.mem0 ∧ b.slots = a.slots))) ∧
    (x.tag ≠ a.stageTag → Gives (.restripeBuildRx now m) s fun b =>
      b.num O.RESTRIPE_STATE = 0 ∧ b.take.building = false ∧ b.take.buildAt = none ∧ b.take.switchAt = none ∧ (∀ t ∈ b.coding.own, t.alt = false) ∧
      (∀ t ∈ b.coding.hold, t.alt = true → t.state.open_ = false) ∧ b.mem0 = a.mem0 ∧ SameBut [O.RESTRIPE_STATE, O.HOLD_USED] [] a b))

/-! ### Fragments and rebuilding (R153, R236, R239 to R243) -/

/-- A fragment is answered from what the core keeps (R240): OK with its head and the sectors asked, ABSENT where the layout differs, the
fragment is not kept, or its page is or was ABSENT when the slice was given up, DAMAGED for the header slice of a core in the minority
(R322). The background asks for the next ABSENT page's fragments in order, no more than REBUILD_DEPTH pages in flight
(R241, R243); with k agreeing fragments the page is decoded and written with its record, and nothing else of Tier 0 changes (R242). A
request unanswered is sent again; after DEGRADED_RETRY_NS dropped fragments are asked again; a RETAIN TAKE is repeated until the
slice's combine is complete. -/
def Obligations.FragmentsRebuildPages : Prop :=
  (∀ (s : State) (now : Nat) (m : Pkt), Arrives s.alesh tFragReq m → m.payload = [] → s.alesh.joinedOrJob = true →
    let a := s.alesh.heard now m.src
    let x := FragArgs.ofNat m.args
    let answer (st : Nat) (p : Bytes) (b : Alesh) : Prop := b = { a with ports := (a.emit (a.cresol tFragData m.src ({ x with status := st }).word p)).ports }
    let cut (p : Bytes) : Bytes := slice p (64 * x.first) (64 * (x.countM1 + 1))
    x.first + x.countM1 ≤ 1023 →
    (x.layout ≠ a.num O.LAYOUT_GEN % 4 → Gives (.fragReqRx now m) s (answer fAbsent [])) ∧
    (x.layout = a.num O.LAYOUT_GEN % 4 → x.parity = false →
      (a.keptData x.band x.index = none → Gives (.fragReqRx now m) s (answer fAbsent [])) ∧
      ∀ g sl, a.keptData x.band x.index = some (g, sl) →
        let minor : Prop := isHeader g = true ∧ a.fabric.minority = true
        let lost : Prop := a.isAbsent g x.page = true ∨ g * 256 + x.page ∈ a.take.frozenAbsent
        (minor → Gives (.fragReqRx now m) s (answer fDamaged [])) ∧
        (¬minor → lost → Gives (.fragReqRx now m) s (answer fAbsent [])) ∧
        (¬minor → ¬lost → a.slicePages g ≤ x.page ∨ a.pageGood g sl x.page = true →
          Gives (.fragReqRx now m) s (answer fOk (a.dataHead g sl x.index x.page ++ cut (a.slotPage g sl x.page))))) ∧
    (x.layout = a.num O.LAYOUT_GEN % 4 → x.parity = true →
      (a.keptParity x.band x.index m.src = none → Gives (.fragReqRx now m) s (answer fAbsent [])) ∧
      ∀ sl, a.keptParity x.band x.index m.src = some sl → sl ∉ a.coding.lost → a.tableGood false sl = true →
        a.parityGood false sl x.band x.page = true →
          Gives (.fragReqRx now m) s (answer fOk (a.parityHead sl x.band x.index x.page ++ cut (a.parityPage false sl x.page))))) ∧
  (∀ (s : State) (now : Nat) (m : Pkt) (r : Rebuild) (sl : Nat) (q : Nat × Bool × Nat × Nat × Nat × Nat) (bytes : Bytes),
    Arrives s.alesh tFragData m → s.alesh.joinedOrJob = true → m.payload.length = 66368 →
    let a := s.alesh.heard now m.src
    let x := FragArgs.ofNat m.args
    let k := a.geo.k
    let hit (q : Nat × Bool × Nat × Nat × Nat × Nat) : Bool := q.1 == x.id && q.2.1 == x.parity && q.2.2.1 == x.index && q.2.2.2.1 == m.src
    let frags := r.frags ++ [(x.parity, x.index, m.payload)]
    let zeros := (a.zeroCols r).map fun j => (false, j, List.replicate 65536 (0 : Byte))
    let step := ((frags.find? fun f => f.1).map fun f => headPage f.2.2 r.col).getD 0
    let at_ := a.pageAddr sl r.page
    let rec_ := a.metaAddr sl r.page
    let valid := step != 0 || (r.why == 0 && (a.pageRec sl r.page).valid)
    x.status = fOk → x.first = 0 → x.countM1 = 1023 → (a.take.rebuilds.find? fun r => r.band == x.band && r.page == x.page && r.asked.any hit) = some r →
    q ∈ r.asked → r.direct = false → r.why ≤ 1 → a.fragGood r x.parity x.index m.payload = true → k ≤ zeros.length + frags.length →
    allAgree k frags = true → (∀ f ∈ frags, a.behind r f = false) → decodeFragment k (zeros ++ frags.map fun f => (f.1, f.2.1, f.2.2.drop headBytes)) false r.col = some bytes →
    bytes.length = 65536 → a.liveSlot r.gsid = some sl → (∀ p, a.prog? r.gsid = some p → p.undecided = false) → a.errs.retired = [] → a.chrono.buffer = [] →
    at_ + 65536 ≤ rec_ ∨ rec_ + 64 ≤ at_ → Gives (.fragDataRx now m) s fun b =>
      b.mem0.read at_ 65536 = bytes ∧ b.mem0.read rec_ 64 = (a.rebuiltRec r.gsid sl r.col r.page step (r.why == 0) valid bytes).bytes ∧
      (∀ y, ¬(at_ ≤ y ∧ y < at_ + 65536) → ¬(rec_ ≤ y ∧ y < rec_ + 64) → b.mem0.get y = a.mem0.get y) ∧
      (∀ y ∈ b.take.rebuilds, ¬(y.gsid = r.gsid ∧ y.page = r.page ∧ y.why = r.why)) ∧ (r.why = 1 → r.gsid * 256 + r.page ∉ b.take.absent) ∧
      b.num O.DECODE_PAGES = wrapAdd (widthOf O.DECODE_PAGES) (a.num O.DECODE_PAGES) 1 ∧ b.slots = a.slots ∧ b.red = a.red) ∧
  (∀ (s : State) (now g page bnd col : Nat), s.alesh.inJob = true →
    let a := s.alesh.at now
    let r := Rebuild.fresh g page bnd col 1
    let zeros := (a.zeroCols r).length
    (∀ x ∈ a.take.rebuilds, x.waits = false) → (a.take.rebuilds.filter fun x => x.why == 1 && !x.urgent).length < a.num O.REBUILD_DEPTH →
    a.nextAbsent = some (g, page) → a.bandCol a.geo g = some (bnd, col) → lookup? a.take.given g = none →
    zeros < a.geo.k → a.geo.k ≤ zeros + (a.fragOrder r).length → Gives (.rebuildRequest now) s fun b =>
      (∃ x ∈ b.take.rebuilds, x.gsid = g ∧ x.page = page ∧ x.why = 1 ∧ x.asked.length = a.geo.k - zeros ∧
        ∀ y ∈ x.asked, Sends b (a.cresol tFragReq y.2.2.2.1 (a.fragWord r y.1 y.2.1 y.2.2.1) [])) ∧
      (∀ x ∈ a.take.rebuilds, x ∈ b.take.rebuilds) ∧
      b = { a with take := { a.take with rebuilds := b.take.rebuilds, nextReq := b.take.nextReq }, ports := b.ports }) ∧
  (∀ (s : State) (now id : Nat) (r : Rebuild) (q : Nat × Bool × Nat × Nat × Nat × Nat), s.alesh.inJob = true → s.alesh.clock.valid = true →
    let a := s.alesh.at now
    let hit (q : Nat × Bool × Nat × Nat × Nat × Nat) : Bool := q.1 == id && a.due q.2.2.2.2.1
    (a.take.rebuilds.find? fun r => r.asked.any hit) = some r → r.asked.find? hit = some q → q.2.2.2.2.2 < a.num O.RETRY_LIMIT →
    Gives (.fragReqTimeout now id) s fun b =>
      Sends b (a.cresol tFragReq q.2.2.2.1 (a.fragWord r id q.2.1 q.2.2.1) []) ∧
      (∃ x ∈ b.take.rebuilds, (q.1, q.2.1, q.2.2.1, q.2.2.2.1, a.ackDue, q.2.2.2.2.2 + 1) ∈ x.asked ∧ x.gsid = r.gsid ∧ x.page = r.page ∧ x.frags = r.frags) ∧
      b = { a with take := { a.take with rebuilds := b.take.rebuilds }, ports := b.ports }) ∧
  (∀ (s : State) (now id : Nat) (r : Rebuild) (t : Nat), s.alesh.inJob = true → s.alesh.clock.valid = true →
    let a := s.alesh.at now
    let have_ := (a.zeroCols r).length + r.frags.length
    let open_ := (a.fragOrder r).filter fun x => !(r.frags.any fun f => f.1 == x.1 && f.2.1 == x.2.1) &&
      !(r.asked.any fun q => q.2.1 == x.1 && q.2.2.1 == x.2.1) && !(r.skipped.any fun q => q.1 == x.1 && q.2 == x.2.1)
    a.take.rebuilds[id]? = some r → r.retry = some t → t ≤ a.now → r.direct = false → have_ < a.geo.k →
    a.geo.k ≤ have_ + r.asked.length + open_.length → Gives (.degradedRetry now id) s fun b =>
      (∃ x ∈ b.take.rebuilds, x.gsid = r.gsid ∧ x.page = r.page ∧ x.why = r.why ∧ x.retry = none ∧ x.frags = r.frags ∧
        a.geo.k ≤ have_ + x.asked.length ∧ ∀ y ∈ x.asked, y ∈ r.asked ∨ Sends b (a.cresol tFragReq y.2.2.2.1 (a.fragWord r y.1 y.2.1 y.2.2.1) [])) ∧
      b = { a with take := { a.take with rebuilds := b.take.rebuilds, nextReq := b.take.nextReq }, ports := b.ports }) ∧
  ∀ (s : State) (now g gen e due : Nat), s.alesh.inJob = true → s.alesh.clock.valid = true →
    let a := s.alesh.at now
    (a.take.retainTakes.find? fun r => r.1 == g) = some (g, gen, e, due) → Gives (.retainTakeResend now g) s fun b =>
      let go : Prop := (a.grad? g e).isSome = true ∨ a.owns g = false ∨ e ≤ a.num O.STEP_EPOCH
      (go → (∀ r ∈ b.take.retainTakes, r.1 ≠ g) ∧ b.ports = a.ports) ∧
      (¬go → due ≤ a.now → (g, gen, e, a.ackDue) ∈ b.take.retainTakes ∧ ∀ n ∈ a.memb.members,
        Sends b (a.cresol tLease n (leaseArgs 3 g 1 gen) (leBytes 8 0 ++ leBytes 8 0))) ∧
      (¬go → a.now < due → b = a) ∧ b = { a with take := { a.take with retainTakes := b.take.retainTakes }, ports := b.ports }

/-! ### Plates (R254 to R276) -/

/-- A cut and its drain: the coordinator zeroes the header of the next place once a cut is due, and sends CUT when that is written (R254,
R255); a member keeps a CUT and answers CUT_ACK, a later CUT ending an earlier one (R256, R271). An extent whose pages are good is
written as its tag block, its valid pages and its root (R264); an ABSENT page is rebuilt first, and a damaged page of a slot no longer
live ends the Plate (R260). A pinned releasing slot moves to the lowest free spill slot while the ring is low (R259). -/
def Obligations.PlatesAreCutAndDrained : Prop :=
  let onlyFabric (a b : Alesh) : Prop :=
    b = { a with plate := b.plate, fabric := { a.fabric with reqs := b.fabric.reqs, nextTag := b.fabric.nextTag }, ports := b.ports }
  let written (a b : Alesh) (e place : Nat) (x : Extent) : Prop :=
    let n := a.slicePages x.gsid
    let tag (p : Nat) : Bytes := pageTag x.gsid p (a.extentPage x p).1.step (a.extentPage x p).1.valid
    let stored (p : Nat) : Bytes := if (a.extentPage x p).1.valid then (a.extentPage x p).2.1 else List.replicate 65536 0
    let root := sliceRoot ((List.range n).map fun p => plateLeaf (tag p) (stored p))
    Lays a b place (a.tagArea x.gsid) (slice ((List.range n).flatMap tag) 0 4096) (.extent e x.gsid) ∧
    Lays a b place (a.rootArea x.gsid) (slice root 0 32) (.extent e x.gsid) ∧
    (∀ p, p < n → (a.extentPage x p).1.valid = true → ∃ q d, q ≤ p ∧ slice d ((p - q) * 65536) 65536 = slice (stored p) 0 65536 ∧
      Lays a b place (a.tagArea x.gsid + 4096 + q * 65536) d (.extent e x.gsid)) ∧
    (let issued (y : Extent) : Extent := { y with started := true, failed := false, retry := none, root := root }
     b.plate = { a.plate with extents := modWhere (fun y => y.gsid == x.gsid) issued a.plate.extents }) ∧ onlyFabric a b
  (∀ (s : State) (now : Nat), s.alesh.inJob = true → s.alesh.unit uRecord = .running → s.alesh.combiner = s.alesh.node →
    let a := s.alesh.at now
    let e := a.inProgress + 2
    let p := (a.num O.PLATE_LAST_PLACE + 1) % a.num O.PLATE_PLACES
    let due := (if a.plate.sealed_ then a.num O.PLATE_LAST_SEALED else a.plate.start) + min (a.num O.PLATE_INTERVAL_ACTIVE) (a.num O.PLATE_INTERVAL)
    (a.num O.PLATE_ENABLE = 1 → a.plate.announced = none → a.plate.zeroing = none → a.plate.cut = none → due ≤ e →
      Gives (.plateCutAnnounce now) s fun b => b.plate = { a.plate with
        zeroing := some (e, p), inherited := false, foreign := false, aborts := a.plate.aborts.filter fun (x : Nat × Nat × Nat × Nat) => x.1 != e } ∧
        Lays a b p 0 (List.replicate 256 0) .manifestZero ∧ onlyFabric a b) ∧
    (a.num O.PLATE_ENABLE = 0 ∨ e < due → Gives (.plateCutAnnounce now) s fun b => b = a)) ∧
  (∀ (s : State) (now e p : Nat), s.alesh.inJob = true → s.alesh.plate.zeroing = some (e, p) →
    let a := s.alesh.at now
    let cuts (b : Alesh) (ns : List Nat) : Prop := ∀ n ∈ ns, Sends b (a.cresol tPlateMark n (markArgs pCut p 0 0 e) [])
    ((∀ r ∈ a.fabric.reqs, r.why ≠ .manifestZero) → Gives (.plateManifestZeroComplete now) s fun b => cuts b a.memb.members ∧
      b = { a with plate := { a.plate with zeroing := none, announced := some (e, p), acks := [], drained := [], cutDue := a.ackDue }, ports := b.ports }) ∧
    ((∃ r ∈ a.fabric.reqs, r.why = .manifestZero) → Gives (.plateManifestZeroComplete now) s fun b => b = a)) ∧
  (∀ (s : State) (now e p : Nat), s.alesh.inJob = true → s.alesh.clock.valid = true → s.alesh.plate.announced = some (e, p) →
    let a := s.alesh.at now
    a.plate.cutDue ≤ a.now → a.num O.STEP_EPOCH < e → Gives (.cutResend now) s fun b =>
      (∀ n ∈ a.memb.members, n ∉ a.plate.acks → Sends b (a.cresol tPlateMark n (markArgs pCut p 0 0 e) [])) ∧
      b = { a with plate := { a.plate with cutDue := a.ackDue }, ports := b.ports }) ∧
  (∀ (s : State) (now : Nat) (m : Pkt), Arrives s.alesh tPlateMark m → m.payload = [] → s.alesh.inJob = true → s.alesh.combiner = m.src →
    let a := s.alesh.heard now m.src
    let x := MarkArgs.ofNat m.args
    let answered (b : Alesh) : Prop := Sends b (a.cresol tPlateMark m.src (markArgs pCutAck x.place 0 0 x.epoch) [])
    let kept (b : Alesh) : Prop := b.plate.cut = some (x.epoch, x.place, m.src) ∧ b.plate.frozen = false ∧ b.plate.extents = [] ∧
      x.epoch ∉ b.plate.decided ∧ b.num O.PLATE_STATE = 1 ∧ b.num O.PLATE_EPOCH = x.epoch ∧ answered b
    x.place < a.num O.PLATE_PLACES →
    (a.plate.cut = none → a.num O.STEP_EPOCH < x.epoch → Gives (.cutRx now m) s fun b => kept b ∧ SameBut [O.PLATE_STATE, O.PLATE_EPOCH] [] a b ∧
      b = { a with dict := b.dict, ports := b.ports, plate := { a.plate with
          cut := b.plate.cut, frozen := false, extents := [], decided := a.plate.decided.filter fun (y : Nat) => y != x.epoch } }) ∧
    (a.plate.cut = none → x.epoch ≤ a.num O.STEP_EPOCH → Gives (.cutRx now m) s fun b => b = a) ∧
    ∀ e p c, a.plate.cut = some (e, p, c) →
      (e = x.epoch → Gives (.cutRx now m) s fun b => answered b ∧ b = { a with ports := b.ports }) ∧
      (e < x.epoch → Gives (.cutRx now m) s fun b => kept b ∧
        b.num O.PLATE_ABORT_COUNT = satAdd (widthOf O.PLATE_ABORT_COUNT) (a.num O.PLATE_ABORT_COUNT) 1 ∧ e ∈ b.plate.decided ∧
        (∀ y ∈ a.plate.extents, y.done = false → if y.spilled then y.slot ∉ b.plate.spills else y.slot ∉ b.slots.pins ∧ y.slot ∉ b.slots.releasing) ∧
        SameBut [O.PLATE_STATE, O.PLATE_EPOCH, O.PLATE_PINNED_SLOTS, O.PLATE_EXTENTS_LEFT, O.PLATE_ABORT_COUNT] [] a b ∧
        b = { a with dict := b.dict, plate := b.plate, slots := { a.slots with pins := b.slots.pins, releasing := b.slots.releasing }, ports := b.ports }) ∧
      (x.epoch < e → Gives (.cutRx now m) s fun b => b = a)) ∧
  (∀ (s : State) (now g i e place c : Nat) (x : Extent), s.alesh.inJob = true →
    let a := s.alesh.at now
    let live : Prop := x.spilled = false ∧ a.liveSlot g = some x.slot
    let sound : Prop := (∀ p, p < a.slicePages g → (a.extentPage x p).2.2 = true) ∧ (live → ∀ p, p < a.slicePages g → a.isAbsent g p = false)
    a.plate.extents[i]? = some x → x.gsid = g → x.done = false → a.plate.cut = some (e, place, c) →
    (x.started = false → x.retry = none → a.drainTurn = some x →
      (sound → Gives (.plateDrainExtent now g i) s fun b => written a b e place x) ∧
      (live → ∀ p, p < a.slicePages g → a.isAbsent g p = true → (∀ q, q < p → a.isAbsent g q = false) → Gives (.plateDrainExtent now g i) s fun b =>
        (∃ r ∈ b.take.rebuilds, r.gsid = g ∧ r.page = p ∧ r.urgent = true) ∧ b = { a with take := { a.take with rebuilds := b.take.rebuilds } }) ∧
      (live → (∀ q, q < a.slicePages g → a.isAbsent g q = false) → ∀ p, p < a.slicePages g → (a.extentPage x p).2.2 = false →
        (∀ q, q < p → (a.extentPage x q).2.2 = true) → Gives (.plateDrainExtent now g i) s fun b => b = a.damageLive g p) ∧
      (¬ live → a.plate.announced = none → a.plate.zeroing = none → ∀ p, p < a.slicePages g → (a.extentPage x p).2.2 = false →
        Gives (.plateDrainExtent now g i) s fun b => b.plate.cut = none ∧ b.plate.extents = [] ∧
          b.num O.PLATE_ABORT_COUNT = satAdd (widthOf O.PLATE_ABORT_COUNT) (a.num O.PLATE_ABORT_COUNT) 1 ∧ e ∈ b.plate.decided ∧
          Sends b (a.cresol tPlateMark a.combiner (markArgs pAbort place 0 0 e) []) ∧ b.mem0 = a.mem0 ∧ b.mem1 = a.mem1)) ∧
    (∀ d, x.retry = some d → a.clock.valid = true → d ≤ a.now → sound → Gives (.plateExtentRetry now g i) s fun b => written a b e place x)) ∧
  (∀ (s : State) (j sp : Nat) (x : Extent),
    let a := s.alesh
    (a.plate.extents.find? fun y => !y.spilled && !y.done && y.slot == j) = some x →
    (sp < a.num O.PLATE_SPILL_SLOTS ∧ sp ∉ a.plate.spills ∧ ∀ t, t < sp → t ∈ a.plate.spills) → j ∈ a.slots.pins → j ∈ a.slots.releasing →
    (a.num O.PLATE_SPILL_LOW ≤ a.ringFree → Gives (.plateSpill j) s fun b => b = a) ∧
    (a.ringFree < a.num O.PLATE_SPILL_LOW → (∀ p, p < a.slicePages x.gsid → a.pageGood x.gsid j p = true) → Gives (.plateSpill j) s fun b =>
      (let data := a.rd (a.pageAddr j 0) sliceBytes
       let recs := (List.range 256).flatMap fun p => (a.pageRec j p).bytes
       let lay (m : Memory) (off : Nat) (d : Bytes) : Memory :=
         (a.spillRuns sp off d.length).foldl (fun m r => m.write r.1 (slice d r.2.1 r.2.2)) m
       b.mem1 = lay (lay a.mem1 0 data) sliceBytes recs ∧ (∀ q ∈ b.errs.bad1, q ∈ a.errs.bad1) ∧
       ∀ q ∈ a.errs.bad1, (∀ r ∈ a.spillRuns sp 0 data.length ++ a.spillRuns sp sliceBytes recs.length, r.1 + r.2.2 ≤ q * 65536 ∨ (q + 1) * 65536 ≤ r.1) → q ∈ b.errs.bad1) ∧
      j ∉ b.slots.pins ∧ j ∉ b.slots.releasing ∧ sp ∈ b.plate.spills ∧
      b.plate.extents = modWhere (fun (y : Extent) => y.gsid == x.gsid) (fun y => { y with slot := sp, spilled := true }) a.plate.extents ∧
      b.num O.PLATE_SPILL_COUNT = satAdd (widthOf O.PLATE_SPILL_COUNT) (a.num O.PLATE_SPILL_COUNT) 1 ∧
      SameBut [O.PLATE_SPILL_COUNT, O.PLATE_PINNED_SLOTS, O.PLATE_EXTENTS_LEFT] [] a b ∧
      b = { a with mem1 := b.mem1, slots := { a.slots with pins := b.slots.pins, releasing := b.slots.releasing }, dict := b.dict
                   errs := { a.errs with bad1 := b.errs.bad1 }, plate := { a.plate with extents := b.plate.extents, spills := b.plate.spills } })) ∧
  ∀ (s : State) (now d e p c : Nat), s.alesh.inJob = true → s.alesh.clock.valid = true →
    let a := s.alesh.at now
    let parts := if a.cutEntries = [] then [[]] else chunks 64 16 a.cutEntries
    a.plate.drainedDue = some d → a.plate.cut = some (e, p, c) → d ≤ a.now → Gives (.drainedResend now) s fun b =>
      (∀ k part, parts[k]? = some part →
        Sends b (a.cresol tPlateMark a.combiner (markArgs pDrained p k (parts.length - 1) e) (a.groupEntry ++ part.flatMap id))) ∧
      b = { a with plate := { a.plate with drainedDue := some a.ackDue }, ports := b.ports }

/-- Sealing, aborting and returning: CUT_ACKs and DRAINED packets are held by the coordinator, which withholds RELEASE of e_p until every
member has acknowledged (R256) and writes the manifest once every packet is held (R267); with that written it sends SEALED and takes
the three settings, and a member takes them on SEALED (its digest is a free value, log entry 38); ABORT ends a cut and is resent
(R271). PLATE_RETURN abandons every open transaction and enters IDLE (R276); RESTORE_START reads the manifest's header (R272, R273). -/
def Obligations.PlatesAreSealedOrAborted : Prop :=
  let sealed_ (a b : Alesh) (e p : Nat) : Prop :=
    b.num O.PLATE_LAST_SEALED = e ∧ b.num O.PLATE_LAST_PLACE = p ∧ b.plate.sealed_ = true ∧ b.plate.cut = none ∧ b.plate.extents = [] ∧
    e ∈ b.plate.decided ∧ b.num O.PLATE_STATE = 0 ∧ b.num O.PLATE_EPOCH = 0 ∧ b.num O.PLATE_ABORT_COUNT = a.num O.PLATE_ABORT_COUNT ∧
    SameBut [O.PLATE_LAST_SEALED, O.PLATE_LAST_PLACE, O.PLATE_STATE, O.PLATE_EPOCH, O.PLATE_PINNED_SLOTS, O.PLATE_EXTENTS_LEFT]
      [O.PLATE_LAST_DIGEST] a b ∧
    b = { a with dict := b.dict, plate := b.plate, slots := { a.slots with pins := b.slots.pins, releasing := b.slots.releasing }, ctl := { a.ctl with draws := b.ctl.draws }, ports := b.ports }
  (∀ (s : State) (now : Nat) (m : Pkt), Arrives s.alesh tPlateMark m → s.alesh.inJob = true →
    let a := s.alesh.heard now m.src
    let x := MarkArgs.ofNat m.args
    x.place < a.num O.PLATE_PLACES →
    (m.payload = [] →
      (∀ e p, a.plate.announced = some (e, p) → e = x.epoch → Gives (.cutAckRx now m) s fun b =>
        ∃ c : Alesh, c = { a with plate := { a.plate with acks := insertNat a.plate.acks m.src } } ∧ b = c.tryRelease ∧
          (a.openRelease = e → (∃ n ∈ a.memb.members, n ∉ c.plate.acks) → b = c)) ∧
      (∀ e p, a.plate.announced = some (e, p) → e ≠ x.epoch → Gives (.cutAckRx now m) s fun b => b = a) ∧
      (a.plate.announced = none → a.combiner = a.node → a.plate.zeroing = none → x.epoch ∉ a.plate.decided → a.plate.inherited = false →
        let took : Plate := { a.plate with announced := some (x.epoch, x.place), acks := [m.src], drained := [], cutDue := a.ackDue }
        let knows : Prop := a.num O.STEP_EPOCH < x.epoch ∨ a.plate.cut.map (·.1) = some x.epoch
        (knows → Gives (.cutAckRx now m) s fun b => b = { a with plate := { took with foreign := false } }) ∧
        (¬ knows → Gives (.cutAckRx now m) s fun b => b = { a with ctl := { a.ctl with draws := b.ctl.draws }, plate := { took with
          foreign := true, membersAt := a.membersBack x.epoch, headerAt := b.plate.headerAt } } ∧
          slice b.plate.headerAt 0 4 = leBytes 4 (a.membEpochAt x.epoch) ∧
          slice b.plate.headerAt 8 32 = memberDigest (a.membersBack x.epoch) (a.drainingBack x.epoch))) ∧
      (∀ e p c, a.plate.cut = some (e, p, c) →
        (e = x.epoch → p = x.place → Gives (.sealedRx now m) s fun b => sealed_ a b e p ∧ (b.dom O.PLATE_LAST_DIGEST).length = 32) ∧
        (e ≠ x.epoch → Gives (.sealedRx now m) s fun b => b = a) ∧
        (a.plate.announced = none → a.plate.zeroing = none → e = x.epoch → Gives (.plateAbortRx now m) s fun b =>
          b.plate.cut = none ∧ b.plate.extents = [] ∧ e ∈ b.plate.decided ∧ b.num O.PLATE_STATE = 0 ∧ b.num O.PLATE_EPOCH = 0 ∧
          b.num O.PLATE_ABORT_COUNT = satAdd (widthOf O.PLATE_ABORT_COUNT) (a.num O.PLATE_ABORT_COUNT) 1 ∧
          (∀ y ∈ a.plate.extents, y.done = false → if y.spilled then y.slot ∉ b.plate.spills else y.slot ∉ b.slots.pins) ∧
          SameBut [O.PLATE_STATE, O.PLATE_EPOCH, O.PLATE_PINNED_SLOTS, O.PLATE_EXTENTS_LEFT, O.PLATE_ABORT_COUNT] [] a b ∧
          b = { a with dict := b.dict, plate := b.plate, slots := { a.slots with pins := b.slots.pins, releasing := b.slots.releasing } }) ∧
        (a.plate.announced = none → a.plate.zeroing = none → e ≠ x.epoch → Gives (.plateAbortRx now m) s fun b => b = a))) ∧
    (∀ e p, a.plate.announced = some (e, p) → e = x.epoch → drainedOk x m.payload = true →
      let c : Alesh := { a with plate := { a.plate with drained :=
        (a.plate.drained.filter fun d => !(d.1 == m.src && d.2.1 == x.index)) ++ [(m.src, x.index, x.last, m.payload)] } }
      (c.allDrained = false → Gives (.drainedRx now m) s fun b => b = c) ∧
      ∀ shards, c.allDrained = true → c.shardEntries = some shards → a.plate.frozen = true → a.plate.cut.map (·.1) = some e → a.plate.manifest = none →
        Gives (.drainedRx now m) s fun b =>
          let man := a.manifestOf e p c.groupEntries shards
          b.plate = { c.plate with manifest := some man } ∧
          Lays a b p 0 (slice man 0 (roundUp man.length 32)) .manifest ∧
          b = { c with plate := b.plate, fabric := { a.fabric with reqs := b.fabric.reqs, nextTag := b.fabric.nextTag }, ports := b.ports })) ∧
  (∀ (s : State) (now e p : Nat) (man : Bytes), s.alesh.inJob = true → s.alesh.plate.announced = some (e, p) → s.alesh.plate.manifest = some man →
    let a := s.alesh.at now
    ((∀ r ∈ a.fabric.reqs, r.why ≠ .manifest) → Gives (.plateManifestWriteComplete now) s fun b =>
      sealed_ a b e p ∧ b.dom O.PLATE_LAST_DIGEST = slice man 128 32 ∧ b.plate.announced = none ∧ b.plate.manifest = none ∧
      ∀ n ∈ a.memb.members, n ≠ a.node → Sends b (a.cresol tPlateMark n (markArgs pSealed p 0 0 e) [])) ∧
    ((∃ r ∈ a.fabric.reqs, r.why = .manifest) → Gives (.plateManifestWriteComplete now) s fun b => b = a)) ∧
  (∀ (s : State) (now : Nat), s.alesh.inJob = true → s.alesh.clock.valid = true →
    let a := s.alesh.at now
    let next (e p n d : Nat) : List (Nat × Nat × Nat × Nat) :=
      if a.now < d then [(e, p, n, d)] else if n < a.num O.RETRY_LIMIT then [(e, p, n + 1, a.ackDue)] else []
    Gives (.plateAbortResend now) s fun b =>
      b.plate.aborts = a.plate.aborts.flatMap (fun x => next x.1 x.2.1 x.2.2.1 x.2.2.2) ∧
      (∀ e p n d, (e, p, n, d) ∈ a.plate.aborts → d ≤ a.now → n < a.num O.RETRY_LIMIT →
        ∀ y ∈ a.memb.members, y ≠ a.node → Sends b (a.cresol tPlateMark y (markArgs pAbort p 0 0 e) [])) ∧
      b = { a with plate := { a.plate with aborts := b.plate.aborts }, ports := b.ports }) ∧
  (∀ (s : State) (via : Via) (now : Nat), Admits s.alesh via → s.alesh.inJob = true → Ends (.plateReturn via now) s via O.PLATE_RETURN false .ok fun b =>
    let a := s.alesh.at now
    (∀ t ∈ a.coding.own, t.state ≠ .done → Sends b (a.cresol tCommit t.holder (t.commitArgs 1) [])) ∧
    b.ctl = { a.ctl with core := .idle, discarding := true } ∧ b.coding.own = [] ∧ b.coding.hold = [] ∧ b.red = Red.reset ∧ b.slots.pend = [] ∧
    b.cep = (a.post uControl (tokHalt (a.num O.STEP_EPOCH))).cep ∧ b.slots.map = a.slots.map ∧ b.plate.cut = none ∧ b.plate.announced = none ∧ b.leases = [] ∧
    (∀ e p, a.plate.announced = some (e, p) → (∃ d, (e, p, 0, d) ∈ b.plate.aborts) ∧
      ∀ n ∈ a.memb.members, n ≠ a.node → Sends b (a.cresol tPlateMark n (markArgs pAbort p 0 0 e) [])) ∧
    (a.plate.cut ≠ none → a.plate.announced = none → a.plate.zeroing = none →
      b.num O.PLATE_ABORT_COUNT = satAdd (widthOf O.PLATE_ABORT_COUNT) (a.num O.PLATE_ABORT_COUNT) 1) ∧
    b.mem1 = a.mem1 ∧ b.fabric = a.fabric ∧ b.evts = a.evts ∧ b.chrono.buffer = [] ∧ (a.chrono.buffer = [] → b.mem0 = a.mem0) ∧
    SameBut [O.CHRONO_HEAD, O.CHRONO_TAIL, O.CHRONO_OVERRUN_COUNT, O.PLATE_STATE, O.PLATE_EPOCH, O.PLATE_PINNED_SLOTS, O.PLATE_EXTENTS_LEFT,
      O.PLATE_ABORT_COUNT, O.SWITCH_STATE, O.HOLD_USED, O.RETAIN_USED, O.MERIDIAN_SCHEDULED, O.DICT_INBAND_COUNT] [O.LOSS_SUSPECT] a b) ∧
  ∀ (s : State) (via : Via) (now : Nat), Admits s.alesh via →
    let a := s.alesh.at now
    let ready : Prop := a.ctl.core = .idle ∧ a.unit uUpdate = .armed ∧ a.unit uCoding = .armed
    let free : Prop := a.ctl.initJob = 0 ∧ a.ctl.initCoding = 0 ∧ a.plate.restore = none
    (¬ ready → Ends (.restoreStart via now) s via O.RESTORE_START false .stateConflict fun b => b.plate = a.plate ∧ b.fabric = a.fabric) ∧
    (ready → ¬ free → Ends (.restoreStart via now) s via O.RESTORE_START false .busy fun b => b.plate = a.plate ∧ b.fabric = a.fabric) ∧
    (ready → free → Ends (.restoreStart via now) s via O.RESTORE_START false .ok fun b =>
      let l := restoreSlices (a.dom O.RESTORE_RANGES)
      let runs := a.plateRuns (a.num O.RESTORE_PLACE) 0 256
      b.num O.RESTORE_STATE = 1 ∧ b.num O.RESTORE_FAIL = 0 ∧ b.num O.RESTORE_FAIL_SLICE = 0 ∧
      b.plate = { a.plate with restore := some { place := a.num O.RESTORE_PLACE, slices := l, left := l, phase := 0, manifest := [], roots := [], tags := []
                                                 reads := runs.map (fun r => (r.2.1, r.2.2, 0)), data := [] } } ∧
      (∀ r ∈ runs, Asks b 5 (FaHdr.request opBulkRead (a.num O.GATEWAY_NODE) r.1 (a.num O.GATEWAY_KEY) r.2.2) [] (.restore r.2.1)) ∧
      SameBut [O.RESTORE_STATE, O.RESTORE_FAIL, O.RESTORE_FAIL_SLICE, O.DICT_INBAND_COUNT] [] a b ∧
      b = { a with dict := b.dict, plate := b.plate, fabric := { a.fabric with reqs := b.fabric.reqs, nextTag := b.fabric.nextTag }
                   win := b.win, mgmt := b.mgmt, ports := b.ports })

/-! ### Fabric requests (R302 to R322) -/

/-- The target of fabric requests: a malformed one is counted and dropped (R309); one that fails a test is answered with its STATUS, a refused
key being counted (R314); outside the directory's own work, at a target that performs no other request, a segment that does not migrate answers loads with its bytes, takes
stores and performs atomics indivisibly, whose answers it keeps (R303, R310, R312); a byte with an uncorrectable error gives BUSERR; Tier
2 is read through the gateway. INVAL empties the line (R316); CHECK_PUT is kept, and compared once every member's is held (R322). -/
def Obligations.TargetsPerformRequests : Prop :=
  ∀ (s : State) (now : Nat) (m : Pkt), s.alesh.idleToJob = true →
    let a0 := s.alesh.at now
    let a := s.alesh.heard now (FaHdr.ofNat m.args).src
    let hd (op : Nat) : FaHdr := { FaHdr.ofNat m.args with op := op }
    let counts (k : Nat) (b : Alesh) : Prop := b.num k = satAdd (widthOf k) (a.num k) 1 ∧ SameBut [k] [] a b
    let answers (h : FaHdr) (b : Alesh) (st operand : Nat) (data : Bytes) : Prop :=
      Sends b { kind := 1, vc := m.vc, version := 1, typ := h.op + 8, src := a.node, dst := h.src, route := 0, memb := 0
                args := (h.response a.node st operand).word, payload := data }
    let five : List (Nat × Instr) := [(opLoad, .fabricLoadRx now m), (opStore, .fabricStoreRx now m), (opAtomic, .fabricAtomicRx now m),
      (opBulkRead, .bulkReadRx now m), (opBulkWrite, .bulkWriteRx now m)]
    let quiet : Prop := a.fabric.jobs = [] ∧ a.fabric.ops = []
    let done (b : Alesh) : Prop :=
      b = { a with mem0 := b.mem0, mem1 := b.mem1, dict := b.dict, ports := b.ports
                   fabric := { a.fabric with nextJob := a.fabric.nextJob + 1, atomics := b.fabric.atomics } }
    (∀ p ∈ five ++ [(opInval, .invalRx now m), (opCheckPut, .checkPutRx now m)],
      (hd p.1).requestOk m.vc m.payload = false ∨ (hd p.1).dst ≠ a0.node → Gives p.2 s fun b =>
        b.num O.FA_MALFORMED_COUNT = satAdd (widthOf O.FA_MALFORMED_COUNT) (a0.num O.FA_MALFORMED_COUNT) 1 ∧
        SameBut [O.FA_MALFORMED_COUNT] [] a0 b ∧ b = { a0 with dict := b.dict }) ∧
    (∀ p ∈ five,
      let h := hd p.1
      let n := h.length m.payload
      let st := a.faTest h n
      h.requestOk m.vc m.payload = true → h.dst = a.node →
      ¬(p.1 ≤ 2 ∧ a.fabric.holder = a.node ∧ h.src = h.origin ∧ a.inCluster h.src = true ∧ h.src ∉ a.memb.removed ∧ (a.cohHome h.key h.offset).isSome = true) →
      (st ≠ stOk → Gives p.2 s fun b => answers h b st 0 [] ∧
        (if st = stKey then counts O.KEY_FAIL_COUNT b else b.dict = a.dict) ∧ b = { a with dict := b.dict, ports := b.ports }) ∧
      (st = stOk → p.1 = opAtomic → ∀ x, (a.fabric.atomics.find? fun y => y.1 == h.origin && y.2.1 == h.tag) = some x → Gives p.2 s fun b =>
        let r : FaHdr := { FaHdr.ofNat x.2.2.1 with dst := h.src }
        Sends b { kind := 1, vc := m.vc, version := 1, typ := r.op, src := a.node, dst := r.dst, route := 0, memb := 0, args := r.word, payload := [] } ∧
        b = { a with ports := b.ports }) ∧
      ∀ i seg, st = stOk → quiet → seg.migrate = false → (∀ r ∈ faRuns h.offset n, a.segOf r.1 = some (i, seg) ∧
          a.tierPage? (seg.pageKey ((r.1 - seg.base) / pageBytes)) = none) →
        let runs := faRuns h.offset n
        let loc (r : Nat × Nat) : Nat := seg.homeBase + (r.1 - seg.base)
        let old (r : Nat × Nat) : Bytes := if seg.homeTier = 0 then a.rd (loc r) r.2 else a.mem1.read (loc r) r.2
        let put (d : Nat × Nat → Bytes) (b : Alesh) : Prop :=
          if seg.homeTier = 0 then b.mem1 = a.mem1 ∧ b.mem0 = (runs.foldl (fun (c : Alesh) r => c.wr (loc r) (d r)) a).mem0
          else b.mem0 = a.mem0 ∧ b.mem1 = runs.foldl (fun (c : Memory) r => c.write (loc r) (d r)) a.mem1
        let bad := if seg.homeTier = 0 then a.errs.bad else a.errs.bad1
        (seg.homeTier ≤ 1 → (∀ r ∈ runs, loc r / pageBytes ∉ bad) →
          (p.1 = opLoad ∨ p.1 = opBulkRead → Gives p.2 s fun b =>
            answers h b stOk 0 (runs.flatMap old) ∧ b.mem0 = a.mem0 ∧ b.mem1 = a.mem1 ∧ b.dict = a.dict ∧ b.fabric.atomics = a.fabric.atomics ∧ done b) ∧
          (p.1 = opStore ∨ p.1 = opBulkWrite → Gives p.2 s fun b =>
            answers h b stOk 0 [] ∧ put (fun r => slice m.payload (r.1 - h.offset) r.2) b ∧ b.dict = a.dict ∧ b.fabric.atomics = a.fabric.atomics ∧ done b) ∧
          (p.1 = opAtomic → (∀ x ∈ a.fabric.atomics, ¬(x.1 = h.origin ∧ x.2.1 = h.tag)) → Gives p.2 s fun b =>
            let was := leNat (old (h.offset, n))
            let full := a.fabric.atomics.length ≥ 1024
            answers h b stOk was [] ∧ put (fun _ => leBytes n (atomicNew h.aop n was (bf h.operand 0 (8 * n)) (leNat m.payload))) b ∧
            b.fabric.atomics = (if full then a.fabric.atomics.drop 1 else a.fabric.atomics) ++
              [(h.origin, h.tag, (h.response a.node stOk was).word, a.now + 4 * a.num O.FABRIC_TIMEOUT_NS)] ∧
            (if full then counts O.FA_DUP_EVICT_COUNT b else b.dict = a.dict) ∧ done b)) ∧
        (seg.homeTier ≤ 1 → runs = [(h.offset, n)] → loc (h.offset, n) / pageBytes ∈ bad → h.rewrites n = false →
          (p.1 = opAtomic → ∀ x ∈ a.fabric.atomics, ¬(x.1 = h.origin ∧ x.2.1 = h.tag)) → Gives p.2 s fun b =>
            answers h b stBusErr 0 [] ∧ b.num O.BUSERR_COUNT = satAdd (widthOf O.BUSERR_COUNT) (a.num O.BUSERR_COUNT) 1 ∧
            b.mem0 = a.mem0 ∧ b.mem1 = a.mem1 ∧ SameBut [O.BUSERR_COUNT] [O.LAST_UE] a b) ∧
        (seg.homeTier = 2 → p.1 = opLoad → Gives p.2 s fun b =>
          let lo := loc (h.offset, n) / 32 * 32
          Asks b 7 (FaHdr.request opBulkRead (a.num O.GATEWAY_NODE) lo (a.num O.GATEWAY_KEY) (roundUp (loc (h.offset, n) + n) 32 - lo)) []
            (.job a.fabric.nextJob) ∧ b.mem0 = a.mem0 ∧ b.mem1 = a.mem1 ∧ b = { a with fabric := b.fabric, ports := b.ports })) ∧
    ((hd opInval).requestOk m.vc m.payload = true → (hd opInval).dst = a.node →
      let h := hd opInval
      (a.faTest h 0 = stOk → Gives (.invalRx now m) s fun b => answers h b stOk 0 [] ∧
        b.fabric.lines = a.fabric.lines.filter (fun l => l.1 != lineKey (bf h.operand 0 18) h.offset) ∧
        b = { a with fabric := { a.fabric with lines := b.fabric.lines, reqs := b.fabric.reqs }, ports := b.ports }) ∧
      (a.faTest h 0 ≠ stOk → Gives (.invalRx now m) s fun b => answers h b (a.faTest h 0) 0 [] ∧
        (a.faTest h 0 = stRemoved ∨ a.faTest h 0 = stDomain) ∧ b = { a with ports := b.ports })) ∧
    ((hd opCheckPut).requestOk m.vc m.payload = true → (hd opCheckPut).dst = a.node → a.faTest (hd opCheckPut) 0 = stOk →
      let h := hd opCheckPut
      let e := bf (leAt m.payload 0 8) 0 48
      let n := leAt m.payload 8 4
      let all := a.fabric.checks ++ [(e, n, slice m.payload 32 32)]
      let here := all.filter fun c => c.1 == e
      let complete : Prop := ∀ x ∈ a.cluster, a.isMember x = true → ∃ c ∈ all, c.1 = e ∧ c.2.1 = x
      (e < a.num O.STEP_EPOCH → Gives (.checkPutRx now m) s fun b => answers h b stOk 0 [] ∧ b = { a with ports := b.ports }) ∧
      (a.num O.STEP_EPOCH ≤ e → (∀ c ∈ a.fabric.checks, ¬(c.1 = e ∧ c.2.1 = n)) →
        (¬complete → Gives (.checkPutRx now m) s fun b => answers h b stOk 0 [] ∧
          b = { a with fabric := { a.fabric with checks := all }, ports := b.ports }) ∧
        (complete → ∀ own, (e, a.node, own) ∈ all → (∀ c ∈ here, c.2.1 = a.node → c.2.2 = own) → Gives (.checkPutRx now m) s fun b =>
          let votes (d : Bytes) : Nat := (here.filter fun c => c.2.2 == d).length
          answers h b stOk 0 [] ∧ b.fabric.checks = all.filter (fun c => c.1 != e) ∧
          ((∀ c ∈ here, c.2.2 = own) → b.num O.HDR_CHECK_STATE = 0 ∧ b.evts = a.evts) ∧
          ((∃ c ∈ here, c.2.2 ≠ own ∧ here.length < 2 * votes c.2.2) → b.num O.HDR_CHECK_STATE = 1 ∧ b.evts.pending.testBit 0 = true ∧
            b.num O.HDR_CHECK_FAIL_COUNT = satAdd (widthOf O.HDR_CHECK_FAIL_COUNT) (a.num O.HDR_CHECK_FAIL_COUNT) 1 ∧ b.fabric.minority = true) ∧
          ((∀ c ∈ here, ¬ here.length < 2 * votes c.2.2) → b.num O.HDR_CHECK_STATE = 2 ∧ b.evts.pending.testBit 0 = true ∧
            b.num O.HDR_CHECK_FAIL_COUNT = satAdd (widthOf O.HDR_CHECK_FAIL_COUNT) (a.num O.HDR_CHECK_FAIL_COUNT) 1) ∧
          SameBut [O.HDR_CHECK_STATE, O.HDR_CHECK_FAIL_COUNT] [] a b)))

/-- The requester and the tier manager: FA_SUBMIT sends its descriptor, through the directory where the home is coherent and through the
gateway where the target is far, or answers at once (R316, R319, R321); a response is matched, and gives its result to what asked for
it (R311, R264, R265); without one the request is resent with its tag, and after RETRY_LIMIT resends given up as a bus error (R311). A
page's move ends (R305), and TIER_FLUSH writes dirty pages back (R307). -/
def Obligations.RequestersAwaitResponses : Prop :=
  let calm (a : Alesh) : Prop := ∀ r ∈ a.fabric.reqs, r.tag ≠ 1024
  (∀ (s : State) (via : Via) (now : Nat), Admits s.alesh via → s.alesh.idleToJob = true →
    let a := s.alesh.at now
    let h := (a.faDesc (a.dom O.FA_DESC)).1
    let d := (a.faDesc (a.dom O.FA_DESC)).2
    let n := h.length d
    let gw := a.num O.GATEWAY_NODE
    let lo (x : Nat) : Nat := h.offset / x * x
    let len (x : Nat) : Nat := roundUp (h.offset + n) x - lo x
    let coh : Bool := decide (h.op ≤ 2) && a.inCluster h.dst && a.cohHome h.key h.offset == some h.dst
    let asks (vc : Nat) (g : FaHdr) (p : Bytes) : Prop := Ends (.faSubmit via now) s via O.FA_SUBMIT false .ok fun b =>
      Asks b vc g p .submit ∧ SameBut [O.DICT_INBAND_COUNT] [] a b ∧
      b = { a with dict := b.dict, win := b.win, mgmt := b.mgmt, ports := b.ports
                   fabric := { a.fabric with desc := a.dom O.FA_DESC, descCoh := coh, reqs := b.fabric.reqs, nextTag := b.fabric.nextTag } }
    let answered (st : Nat) (p : Bytes) : Prop := Ends (.faSubmit via now) s via O.FA_SUBMIT false .ok fun b =>
      b.dom O.FA_RESULT = leBytes 32 (h.response h.dst st 0).word ++ p ∧ SameBut [O.DICT_INBAND_COUNT] [O.FA_RESULT] a b ∧
      b = { a with dict := b.dict, win := b.win, mgmt := b.mgmt, ports := b.ports, fabric := { a.fabric with desc := a.dom O.FA_DESC, descCoh := coh } }
    ((∃ r ∈ a.fabric.reqs, r.why = .submit) → Ends (.faSubmit via now) s via O.FA_SUBMIT false .busy fun b => b.fabric = a.fabric) ∧
    let sendable : Prop := 32 ≤ (a.dom O.FA_DESC).length ∧ h.version = 1 ∧ h.op ≤ 6 ∧ h.status ≤ 6 ∧ h.aop ≤ 8 ∧ h.size ≤ 1
    ((∀ r ∈ a.fabric.reqs, r.why ≠ .submit) → ¬ sendable →
      Ends (.faSubmit via now) s via O.FA_SUBMIT false .range fun b => b.fabric = a.fabric ∧ SameBut [O.DICT_INBAND_COUNT] [] a b) ∧
    ((∀ r ∈ a.fabric.reqs, r.why ≠ .submit) → sendable →
      (a.isFar h.dst = false → coh = false → asks (if h.op = opBulkRead ∨ h.op = opBulkWrite then 7 else 6) h d) ∧
      (a.isFar h.dst = false → coh = true → h.op = opLoad →
        (∀ x, a.cached h.dst h.offset n = some x → answered stOk x) ∧
        (a.cached h.dst h.offset n = none → asks 6 { h with dst := a.fabric.holder, offset := lo 64, operand := len 64 } [])) ∧
      (a.isFar h.dst = false → coh = true → h.op ≠ opLoad → asks 6 { h with dst := a.fabric.holder } d) ∧
      (a.isFar h.dst = true → h.op = opLoad → coh = false → asks 7 (FaHdr.request opBulkRead gw (lo 32) h.key (packBits [(46, 18, h.dst), (0, 23, len 32)])) []) ∧
      (a.isFar h.dst = true → h.op = opStore → coh = false → h.offset % 32 = 0 → n % 32 = 0 →
        asks 7 (FaHdr.request opBulkWrite gw h.offset h.key (packBits [(46, 18, h.dst)])) d) ∧
      (a.isFar h.dst = true → h.op = opBulkRead → asks 7 { h with dst := gw, operand := packBits [(46, 18, h.dst), (0, 23, n)] } []) ∧
      (a.isFar h.dst = true → h.op = opBulkWrite → asks 7 { h with dst := gw, operand := packBits [(46, 18, h.dst)] } d) ∧
      (a.isFar h.dst = true → coh = true ∨ h.op = opAtomic ∨ h.op = opStore ∧ ¬(h.offset % 32 = 0 ∧ n % 32 = 0) → answered stFar []))) ∧
  (∀ (s : State) (now : Nat) (m : Pkt), s.alesh.idleToJob = true →
    let a0 := s.alesh.at now
    let h := FaHdr.ofNat m.args
    let a := s.alesh.heard now h.src
    let bad : Prop := h.version ≠ 1 ∨ 6 < h.status ∨ 1 < h.size ∨ 8 < h.aop ∨ h.dst ≠ a0.node ∨ ∀ r, a0.faMatch h = some r → r.vc ≠ m.vc
    (bad → Gives (.fabricResponseRx now m) s fun b => b.num O.FA_MALFORMED_COUNT = satAdd (widthOf O.FA_MALFORMED_COUNT) (a0.num O.FA_MALFORMED_COUNT) 1 ∧
      SameBut [O.FA_MALFORMED_COUNT] [] a0 b ∧ b = { a0 with dict := b.dict }) ∧
    ∀ r, ¬bad → a0.faMatch h = some r → calm a →
      let rest : Alesh := { a with fabric := { a.fabric with reqs := a.fabric.reqs.erase r } }
      let q := FaHdr.ofNat r.header
      let d := (a.faDesc a.fabric.desc).1
      (r.why = .submit → a.fabric.descCoh = false → q.dst = d.dst → Gives (.fabricResponseRx now m) s fun b =>
        b.dom O.FA_RESULT = leBytes 32 h.word ++ m.payload ∧ SameBut [] [O.FA_RESULT] a b ∧ b = { rest with dict := b.dict }) ∧
      (r.why = .submit → a.fabric.descCoh = true → d.op = opLoad → q.op = opLoad → h.status = stOk → Gives (.fabricResponseRx now m) s fun b =>
        b.dom O.FA_RESULT = leBytes 32 { d.response d.dst stOk h.operand with tag := h.tag }.word ++
          slice m.payload (d.offset - q.offset) (d.length (a.faDesc a.fabric.desc).2) ∧
        (r.noCache = true ∨ d.dst = a.node → b.fabric.lines = a.fabric.lines) ∧ SameBut [] [O.FA_RESULT] a b ∧
        b = { rest with dict := b.dict, fabric := { rest.fabric with lines := b.fabric.lines } }) ∧
      (r.why = .check → Gives (.fabricResponseRx now m) s fun b => b = rest) ∧
      (∀ e g x, r.why = .extent e g → a.plate.cut.map (·.1) = some e → (∀ q ∈ rest.fabric.reqs, q.why ≠ .extent e g) →
        a.plate.extents.find? (fun y => y.gsid == g) = some x →
        (h.status = stOk → x.failed = false → Gives (.fabricResponseRx now m) s fun b => ∃ c : Alesh, b = c.checkDrained ∧
          (∀ y ∈ c.plate.extents, y.gsid = g → y.done = true) ∧ (∀ y ∈ a.plate.extents, y.gsid ≠ g → y ∈ c.plate.extents) ∧
          (x.spilled = false → x.slot ∉ c.slots.pins ∧ x.slot ∉ c.slots.releasing) ∧ (x.spilled = true → x.slot ∉ c.plate.spills) ∧
          SameBut [O.PLATE_PINNED_SLOTS, O.PLATE_EXTENTS_LEFT] [] a c ∧
          c = { rest with dict := c.dict, slots := { a.slots with pins := c.slots.pins, releasing := c.slots.releasing }
                          plate := { a.plate with extents := c.plate.extents, spills := c.plate.spills } } ∧
          (a.num O.PLATE_STATE = 2 → a.plate.frozen = true → (∀ y ∈ c.plate.extents, y.done = true) → b.num O.PLATE_STATE = 3)) ∧
        (h.status ≠ stOk → Gives (.fabricResponseRx now m) s fun b =>
          b.num O.PLATE_DRAIN_ERROR_COUNT = satAdd (widthOf O.PLATE_DRAIN_ERROR_COUNT) (a.num O.PLATE_DRAIN_ERROR_COUNT) 1 ∧
          (∃ y ∈ b.plate.extents, y.gsid = g ∧ y.started = false ∧ y.errors = x.errors + 1 ∧ y.retry = some (a.now + a.num O.PLATE_RETRY_NS)) ∧
          (x.errors + 1 = a.num O.RETRY_LIMIT → (b.num O.HEALTH_FLAGS).testBit 11 = true) ∧
          (x.errors + 1 ≠ a.num O.RETRY_LIMIT → b.health = a.health) ∧
          SameBut [O.PLATE_DRAIN_ERROR_COUNT, O.HEALTH_FLAGS] [] a b ∧ b.slots = a.slots ∧ b.mem0 = a.mem0))) ∧
  (∀ (s : State) (now tag : Nat) (r : FaReq), s.alesh.idleToJob = true → s.alesh.clock.valid = true → tag < 1024 →
    let a := s.alesh.at now
    (a.fabric.reqs.find? fun q => q.tag == tag && decide (q.due ≤ a.now)) = some r →
    (r.tries < a.num O.RETRY_LIMIT → Gives (.fabricTimeout now tag) s fun b =>
      Sends b { kind := 1, vc := r.vc, version := 1, typ := (FaHdr.ofNat r.header).op, src := a.node, dst := (FaHdr.ofNat r.header).dst, route := 0, memb := 0
                args := (FaHdr.ofNat r.header).word, payload := r.payload } ∧
      { r with tries := r.tries + 1, due := a.now + a.num O.FABRIC_TIMEOUT_NS, lastSend := a.now } ∈ b.fabric.reqs ∧
      (∀ q ∈ a.fabric.reqs, q ≠ r → q ∈ b.fabric.reqs) ∧
      b.num O.FA_RESEND_COUNT = wrapAdd (widthOf O.FA_RESEND_COUNT) (a.num O.FA_RESEND_COUNT) 1 ∧ SameBut [O.FA_RESEND_COUNT] [] a b ∧
      b = { a with fabric := { a.fabric with reqs := b.fabric.reqs }, dict := b.dict, ports := b.ports }) ∧
    (a.num O.RETRY_LIMIT ≤ r.tries → r.why = .check → calm a → Gives (.fabricTimeout now tag) s fun b =>
      b.fabric = { a.fabric with reqs := a.fabric.reqs.erase r, restTags := a.fabric.restTags ++ [(tag, r.lastSend)] } ∧
      b.num O.BUSERR_COUNT = satAdd (widthOf O.BUSERR_COUNT) (a.num O.BUSERR_COUNT) 1 ∧
      (b.num O.HEALTH_FLAGS).testBit 11 = true ∧ b.health.now.lk = a.health.now.lk + 1 ∧ SameBut [O.BUSERR_COUNT, O.HEALTH_FLAGS] [] a b)) ∧
  (∀ (s : State) (now src tag : Nat), s.alesh.clock.valid = true →
    let a := s.alesh.at now
    (∀ t, (tag, t) ∈ a.fabric.restTags → t + 4 * a.num O.FABRIC_TIMEOUT_NS ≤ a.now → calm a → Gives (.tagReuseExpiry now tag) s fun b =>
      b = { a with fabric := { a.fabric with restTags := a.fabric.restTags.filter fun r => r.1 != tag } }) ∧
    Gives (.atomicTableExpiry now src tag) s fun b =>
      (∀ x ∈ a.fabric.atomics, x ∈ b.fabric.atomics ↔ ¬(x.1 = src ∧ x.2.1 = tag ∧ x.2.2.2 ≤ a.now)) ∧
      b = { a with fabric := { a.fabric with atomics := b.fabric.atomics } }) ∧
  (∀ (s : State) (k : Nat) (t : TierPage),
    let a := s.alesh
    let seg := a.segAt t
    let home := seg.homeBase + t.page * pageBytes
    let frame (b : Alesh) (keys : List Nat) : Prop := SameBut keys [] a b ∧
      b = { a with fabric := { a.fabric with pages := b.fabric.pages, flushing := b.fabric.flushing }, mem0 := b.mem0, mem1 := b.mem1, dict := b.dict
                   errs := { a.errs with bad := b.errs.bad, bad1 := b.errs.bad1 } }
    let within : Prop := (∀ x ∈ a.fabric.pages, ¬(x.busy = true ∧ x.move = 0 ∧ x.toFrame = none)) ∧ ∀ tn tier, tn < 16 → tier < 2 →
      (a.tenantFrames tn tier).length ≤ a.quota tn tier + ((a.tenantFrames tn tier).filter fun x => x.2.busy && x.2.move == 1).length
    let others (b : Alesh) : Prop := ∀ x ∈ a.fabric.pages, x.entry ≠ k → x ∈ b.fabric.pages
    let badHome : Prop := seg.homeTier = 1 ∧ home / pageBytes ∈ a.errs.bad1
    let badFrame : Prop := t.frame / pageBytes ∈ (if t.tier = 0 then a.errs.bad else a.errs.bad1)
    let failed (b : Alesh) : Prop := b.num O.BUSERR_COUNT = satAdd (widthOf O.BUSERR_COUNT) (a.num O.BUSERR_COUNT) 1 ∧ others b ∧
      b.mem1 = a.mem1 ∧ SameBut [O.BUSERR_COUNT] [O.LAST_UE] a b
    let back (b : Alesh) : Prop := b.mem1 = if seg.homeTier = 1 then a.mem1.write home (a.rd t.frame pageBytes) else a.mem1
    let writeBytes (b : Alesh) : Prop := b.num O.WRITEBACK_BYTES = wrapAdd (widthOf O.WRITEBACK_BYTES) (a.num O.WRITEBACK_BYTES) 65536
    a.tierPage? k = some t → t.busy = true → t.waiting = [] →
    ((∃ r ∈ a.fabric.reqs, r.why = .tier k) → Gives (.migrationComplete k) s fun b => b = a) ∧
    ((∀ r ∈ a.fabric.reqs, r.why ≠ .tier k) → within →
      (t.move = 0 → badHome → Gives (.migrationComplete k) s fun b =>
        failed b ∧ b.tierPage? k = none ∧ b.mem0 = (a.putMap k (seg.homeWord t.page)).mem0) ∧
      (t.move = 1 ∨ t.move = 2 → badFrame → Gives (.migrationComplete k) s fun b =>
        let u : TierPage := { t with busy := false, waiting := [] }
        failed b ∧ b.tierPage? k = some u ∧ b.mem0 = (a.putMap k u.word).mem0) ∧
      (∀ f, t.move = 0 → t.toFrame = some f → ¬ badHome → Gives (.migrationComplete k) s fun b =>
        let u : TierPage := { t with tier := t.toTier, frame := f, busy := false, ref := true, waiting := [] }
        b.tierPage? k = some u ∧ others b ∧ b.num O.PROMOTE_COUNT = wrapAdd (widthOf O.PROMOTE_COUNT) (a.num O.PROMOTE_COUNT) 1 ∧
        b.mem0 = ((if seg.homeTier = 1 then a.wr f (a.mem1.read home pageBytes) else a).putMap k u.word).mem0 ∧ b.mem1 = a.mem1 ∧ frame b [O.PROMOTE_COUNT]) ∧
      (t.move = 1 → ¬ badFrame → Gives (.migrationComplete k) s fun b =>
        b.tierPage? k = none ∧ others b ∧ back b ∧ b.mem0 = (a.putMap k (seg.homeWord t.page)).mem0 ∧ writeBytes b ∧
        b.num O.EVICT_COUNT = wrapAdd (widthOf O.EVICT_COUNT) (a.num O.EVICT_COUNT) 1 ∧ frame b [O.EVICT_COUNT, O.WRITEBACK_BYTES]) ∧
      (t.move = 2 → ¬ badFrame → Gives (.migrationComplete k) s fun b =>
        let u : TierPage := { t with busy := false, dirty := false, waiting := [] }
        b.tierPage? k = some u ∧ others b ∧ back b ∧ b.mem0 = (a.putMap k u.word).mem0 ∧ writeBytes b ∧ frame b [O.WRITEBACK_BYTES]))) ∧
  ∀ (s : State) (via : Via) (tenant : Nat), Admits s.alesh via → s.alesh.idleToJob = true → tenant < 16 ∨ tenant = 0xFF →
    let a := s.alesh
    let goes (t : TierPage) : Prop := t.dirty = true ∧ t.busy = false ∧ (tenant = 0xFF ∨ (a.segAt t).tenant = tenant)
    (a.fabric.flushing = true → Ends (.tierFlush via tenant) s via O.TIER_FLUSH false .busy fun b => b.fabric = a.fabric ∧ b.mem0 = a.mem0) ∧
    (a.fabric.flushing = false → Ends (.tierFlush via tenant) s via O.TIER_FLUSH false .ok fun b =>
      (∀ t ∈ a.fabric.pages, goes t → (∃ u ∈ b.fabric.pages, u.entry = t.entry ∧ u.busy = true ∧ u.move = 2) ∧
        ((a.segAt t).homeTier = 2 → t.tier = 1 → t.frame / pageBytes ∉ a.errs.bad1 → Asks b 7 (FaHdr.request opBulkWrite (a.num O.GATEWAY_NODE) ((a.segAt t).homeBase + t.page * pageBytes)
          (a.num O.GATEWAY_KEY) 0) (a.mem1.read t.frame pageBytes) (.tier t.entry))) ∧
      (∀ t ∈ a.fabric.pages, (∀ u ∈ a.fabric.pages, goes u → u.entry ≠ t.entry) → t ∈ b.fabric.pages) ∧
      (b.fabric.flushing = true ↔ ∃ t ∈ a.fabric.pages, goes t) ∧ b.mem1 = a.mem1 ∧ SameBut [O.DICT_INBAND_COUNT] [] a b ∧
      b = { a with fabric := { a.fabric with pages := b.fabric.pages, flushing := b.fabric.flushing, reqs := b.fabric.reqs, nextTag := b.fabric.nextTag }
                   mem0 := b.mem0, dict := b.dict, win := b.win, mgmt := b.mgmt, ports := b.ports })

/-! ### Commencement (R388 to R399) -/

/-- COMMENCE_START at the root, and a COMMENCE whose certificate verifies, open a commencement in one cclk: the COMMENCE goes to the
children, the core adopts the certificate if it can, and the first reason that applies is its outcome; where none does, its group is asked
(R390 to R392). COMMENCE_ABANDON closes the epoch (R396); a COMMENCE of another header version is answered VERSION (R399). -/
def Obligations.CommencementsOpenAndClose : Prop :=
  let opened (a b : Alesh) (src : Nat) (block cert : Bytes) : Prop :=
    let e := certEpoch cert
    let ms := a.commMembers cert
    let kids := ((ms.findIdx? (· == a.node)).map fun i => treeChildren (leAt block 5 1) ms i).getD []
    let able := a.commAdoptable cert
    let idle : Bool := a.ctl.core == .idle || a.ctl.core == .joined
    let r := a.commReason block (!able) (!idle)
    let asked := (a.geo.members.map (·.2)).filter fun n => n != a.node && ms.contains n
    b.num O.COMMENCE_EPOCH = e ∧ b.comm.cert = cert ∧ b.comm.block = block ∧ b.comm.sender = src ∧ b.comm.acks = [] ∧
    (∀ n ∈ kids, Sends b (a.cresol tHello n (helloArgs hCommence (leAt block 8 6)) (block ++ cert))) ∧
    (able = true → idle = true → b.num O.MEMBERSHIP_EPOCH = e ∧ b.num O.ROUTE_EPOCH = 0 ∧ b.memb = { Memb.reset with members := ms, history := [cert] }) ∧
    (able = false ∨ idle = false → b.num O.MEMBERSHIP_EPOCH = a.num O.MEMBERSHIP_EPOCH ∧
      b.num O.ROUTE_EPOCH = a.num O.ROUTE_EPOCH ∧ b.memb = a.memb ∧ b.ctl = a.ctl) ∧
    (r ≠ 0 → b.comm.outcome = some r ∧ b.num O.COMMENCE_FAIL = r ∧ b.comm.groupAsked = []) ∧
    (r = 0 → b.comm.groupAsked = asked ∧ ∀ n ∈ asked, Sends b { a.cresol tHello n (helloArgs hCommAck (leAt block 8 6))
      (commAck e 1 0 0 0 0 a.groupDigest) with route := 0, memb := e % 16 }) ∧
    b.mem0 = a.mem0 ∧ b.mem1 = a.mem1 ∧ b.coding = a.coding ∧ b.slots = a.slots ∧ b.red = a.red ∧
    SameBut [O.COMMENCE_EPOCH, O.COMMENCE_STATE, O.COMMENCE_FAIL, O.COMMENCE_FAIL_NODE, O.MEMBERSHIP_EPOCH, O.ROUTE_EPOCH,
      O.SWITCH_STATE, O.DICT_INBAND_COUNT] [O.LOSS_SUSPECT, O.WATCH_LIST] a b
  (∀ (s : State) (via : Via) (now : Nat), Admits s.alesh via → s.alesh.joining = false →
    s.alesh.ctl.core = .idle ∨ s.alesh.ctl.core = .joined →
    let a := s.alesh.at now
    let cert := a.dom O.CERT_MAILBOX
    let step := if a.num O.RESTORE_STATE = 2 then a.num O.STEP_EPOCH else 0
    let block := leBytes 4 (certEpoch cert) ++ leBytes 1 1 ++ leBytes 1 (a.num O.COMMENCE_FANOUT) ++ leBytes 1 (if step = 0 then 0 else 1) ++ [0] ++
      leBytes 8 step ++ leBytes 8 (a.num O.COMMENCE_JOB_SEED) ++ leBytes 8 (a.num O.COMMENCE_DATA_SEED) ++ leBytes 4 (a.num O.TURKAI_VERSION) ++
      List.replicate 28 0 ++ a.fingerprint ++ a.dom O.PLAN_DIGEST ++ a.dom O.CONFIG_DIGEST
    (a.certVerified cert = true → a.commAdoptable cert = true → (a.commMembers cert).head? = some a.node → a.comm.closed < certEpoch cert →
      Ends (.commenceStart via now) s via O.COMMENCE_START false .ok fun b => opened a b a.node block cert ∧
        b.comm.timeoutAt = some (a.now + a.num O.COMMENCE_TIMEOUT_NS)) ∧
    (a.certVerified cert = false ∨ a.commAdoptable cert = false → Ends (.commenceStart via now) s via O.COMMENCE_START false .access fun b =>
      b.comm = a.comm ∧ b.memb = a.memb ∧ b.ctl = a.ctl)) ∧
  (∀ (s : State) (via : Via), Admits s.alesh via → s.alesh.ctl.core = .idle ∨ s.alesh.ctl.core = .joined →
    Ends (.commenceAbandon via) s via O.COMMENCE_ABANDON false .ok fun b =>
      let a := s.alesh
      b.ctl = { a.ctl with core := .idle } ∧ b.num O.COMMENCE_STATE = 0 ∧ b.num O.COMMENCE_EPOCH = a.num O.COMMENCE_EPOCH ∧
      b.comm = { Comm.reset with closed := a.commEpoch, groupAcks := b.comm.groupAcks } ∧
      (∀ k, k ∈ b.comm.groupAcks ↔ k ∈ a.comm.groupAcks ∧ a.commEpoch < k.1) ∧ SameBut [O.COMMENCE_STATE, O.DICT_INBAND_COUNT] [] a b ∧
      b = { a with ctl := b.ctl, comm := b.comm, dict := b.dict, win := b.win, mgmt := b.mgmt, ports := b.ports }) ∧
  (∀ (s : State) (now : Nat) (m : Pkt), s.alesh.idleToJob = true → s.alesh.joining = false → m.dst = s.alesh.node → m.vc = 0 → m.version ≠ 1 →
    Gives (.foreignVersionCommenceRx now m) s fun b =>
      let a := s.alesh.at now
      Sends b (a.cresol tHello m.src (helloArgs hCommAck 0) (commAck 0 0 3 0 1 a.node (List.replicate 32 0))) ∧ b = { a with ports := b.ports }) ∧
  ∀ (s : State) (now : Nat) (m : Pkt), s.alesh.idleToJob = true → s.alesh.joining = false → m.dst = s.alesh.node → m.vc = 0 → m.version = 1 →
    m.route = s.alesh.num O.ROUTE_EPOCH →
    let a := s.alesh.heard now m.src
    let cert := m.payload.drop 160
    let e := certEpoch cert
    (commenceOk m = false → Gives (.commenceRx now m) s fun b => ∃ c : Alesh, c = s.alesh.at now ∧
      b.num O.CRESOL_MALFORMED_COUNT = satAdd (widthOf O.CRESOL_MALFORMED_COUNT) (c.num O.CRESOL_MALFORMED_COUNT) 1 ∧
      SameBut [O.CRESOL_MALFORMED_COUNT] [] c b ∧ b = { c with dict := b.dict }) ∧
    (commenceOk m = true →
      (e ≤ a.comm.closed → Gives (.commenceRx now m) s fun b => b = a) ∧
      (a.comm.closed < e → e = a.commEpoch → a.comm.cert ≠ [] →
        (a.comm.sentTree = false → Gives (.commenceRx now m) s fun b => b = a) ∧
        (∀ p, a.comm.sentTree = true → a.commParent = some p → Gives (.commenceRx now m) s fun b =>
          Sends b (a.cresol tHello p (helloArgs hCommAck a.commStep) a.treeAck) ∧
          b = { a with comm := { a.comm with treeDue := a.ackDue }, ports := b.ports })) ∧
      (e < a.commEpoch → Gives (.commenceRx now m) s fun b => b = a) ∧
      (a.comm.closed < e → a.commEpoch < e → a.num O.MEMBERSHIP_EPOCH < e →
        (a.certVerified cert = true → Gives (.commenceRx now m) s fun b => opened a b m.src (m.payload.take 160) cert) ∧
        (a.certVerified cert = false → Gives (.commenceRx now m) s fun b => b = a)))

/-- Acknowledgements of a commencement: the first TREE ack of each child is kept; with the last, the core sends its own with the sums and
enters JOINED (R393), and the root starts the job at T + COMMENCE_LEAD_NS or reports the failing member of lowest node id (R394). A GROUP
ack is kept until the outcome, and answered once after the TREE ack (R392). What is owed is resent, and without the full acknowledgement
COMMENCE_STATE becomes TIMEOUT. -/
def Obligations.CommencementAcksAreGathered : Prop :=
  let hello (a : Alesh) (sub dst : Nat) (p : Bytes) : Pkt := a.cresol tHello dst (helloArgs sub a.commStep) p
  let start (a b : Alesh) (c : Nat) (ns : List Nat) : Prop := ∀ n ∈ ns, Sends b (hello a hRelease n (leBytes 8 c ++ leBytes 8 0))
  (∀ (s : State) (now : Nat) (m : Pkt), s.alesh.idleToJob = true → s.alesh.joining = false → m.dst = s.alesh.node → m.vc = 0 → m.version = 1 →
    m.route = s.alesh.num O.ROUTE_EPOCH → m.payload.length = 64 → leAt m.payload 5 1 ≤ 11 →
    let a := s.alesh.heard now m.src
    let p := m.payload
    let e := leAt p 0 4
    let ack := (m.src, leAt p 5 1, leAt p 8 4, leAt p 12 4, bf (leAt p 16 4) 0 18)
    a.comm.closed < e → e = a.commEpoch → a.comm.cert ≠ [] →
    (leAt p 4 1 = 0 →
      (m.src ∉ a.commChildren → Gives (.commenceAckTreeRx now m) s fun b => b = a) ∧
      (m.src ∈ a.commChildren → (∃ k ∈ a.comm.acks, k.1 = m.src) →
        (a.inJob = true → a.num O.COMMENCE_STATE = 6 → Gives (.commenceAckTreeRx now m) s fun b =>
          start a b (a.num O.COMMENCE_TIME) [m.src] ∧ b = { a with ports := b.ports }) ∧
        (a.inJob = false → Gives (.commenceAckTreeRx now m) s fun b => b = a)) ∧
      (∀ o, m.src ∈ a.commChildren → (∀ k ∈ a.comm.acks, k.1 ≠ m.src) → a.comm.outcome = some o → a.comm.sentTree = false →
        let c : Alesh := { a with comm := { a.comm with acks := a.comm.acks ++ [ack] } }
        ((∃ n ∈ c.commPending, True) → a.commRoot = false → Gives (.commenceAckTreeRx now m) s fun b => b = c) ∧
        (c.commPending = [] → a.ctl.initJob = 0 → a.ctl.initCoding = 0 →
          (∀ q, a.commParent = some q → a.commRoot = false → Gives (.commenceAckTreeRx now m) s fun b =>
            let own := if o = 0 then 1 else 0
            let f := c.commFailed.getD (0, 0)
            Sends b (hello a hCommAck q (commAck e 0 f.1 (sumNat (c.comm.acks.map fun k => k.2.2.1) + own)
              (sumNat (c.comm.acks.map fun k => k.2.2.2.1) + (1 - own)) f.2 (List.replicate 32 0))) ∧
            b.comm = { c.comm with sentTree := true, treeDue := a.ackDue } ∧
            b.ctl = (if o = 0 ∧ a.ctl.core = .idle then { a.ctl with core := .joined } else a.ctl) ∧
            SameBut [O.COMMENCE_STATE] [] a b ∧ b = { a with comm := b.comm, ctl := b.ctl, dict := b.dict, ports := b.ports }) ∧
          (a.commRoot = true → a.memb.pending = none → a.comm.rootC = none → a.num O.COMMENCE_STATE = 1 → a.clock.valid = true → c.commFailed = none →
            sumNat (c.comm.acks.map fun k => k.2.2.1) + 1 = c.commTree.length → (∀ k ∈ c.comm.acks, k.2.2.2.1 = 0) →
            Gives (.commenceAckTreeRx now m) s fun b =>
              let t := a.now + a.num O.COMMENCE_LEAD_NS
              b.num O.COMMENCE_STATE = 3 ∧ b.comm.rootC = some t ∧ start a b t a.commTree ∧
              b.ctl = (if a.ctl.core = .idle then { a.ctl with core := .joined } else a.ctl) ∧ SameBut [O.COMMENCE_STATE] [] a b) ∧
          (∀ f, a.commRoot = true → a.comm.rootC = none → a.num O.COMMENCE_STATE = 1 → c.commFailed = some f → Gives (.commenceAckTreeRx now m) s fun b =>
            b.num O.COMMENCE_STATE = 4 ∧ b.num O.COMMENCE_FAIL = f.1 ∧ b.num O.COMMENCE_FAIL_NODE = f.2 ∧ b.evts.pending.testBit 1 = true ∧
            b.comm.rootC = none ∧ SameBut [O.COMMENCE_STATE, O.COMMENCE_FAIL, O.COMMENCE_FAIL_NODE] [] a b)))) ∧
    (leAt p 4 1 = 1 →
      let held (k : Nat × Nat × Bytes) : Prop := k.1 = e ∧ k.2.1 = m.src
      let c : Alesh := { a with comm := { a.comm with groupAcks := a.comm.groupAcks ++ [(e, m.src, slice p 32 32)] } }
      (a.comm.sentTree = false →
        ((∃ k ∈ a.comm.groupAcks, held k) → Gives (.commenceAckGroupRx now m) s fun b => b = a) ∧
        ((∀ k ∈ a.comm.groupAcks, ¬held k) → a.comm.outcome = none → a.commRoot = false →
          ((∃ n ∈ a.comm.groupAsked, ∀ k ∈ c.groupHeld, k.1 ≠ n) → Gives (.commenceAckGroupRx now m) s fun b => b = c) ∧
          ((∀ n ∈ a.comm.groupAsked, ∃ k ∈ c.groupHeld, k.1 = n) → (∃ n ∈ a.commPending, True) → Gives (.commenceAckGroupRx now m) s fun b =>
            let same : Prop := ∀ k ∈ c.groupHeld, k.1 ∈ a.comm.groupAsked → k.2 = a.groupDigest
            (same → b.comm = { c.comm with outcome := some 0 } ∧ b.num O.COMMENCE_FAIL = 0) ∧
            (¬same → b.comm = { c.comm with outcome := some 11 } ∧ b.num O.COMMENCE_FAIL = 11) ∧
            SameBut [O.COMMENCE_FAIL] [] a b ∧ b = { a with comm := b.comm, dict := b.dict }))) ∧
      (a.comm.sentTree = true →
        (m.src ∉ a.comm.groupAnswered → a.comm.outcome = some 0 ∨ a.comm.outcome = some 11 → Gives (.commenceAckGroupRx now m) s fun b =>
          Sends b (hello a hCommAck m.src (commAck e 1 0 0 0 0 a.groupDigest)) ∧
          b = { a with comm := { a.comm with groupAnswered := a.comm.groupAnswered ++ [m.src] }, ports := b.ports }) ∧
        (m.src ∈ a.comm.groupAnswered → Gives (.commenceAckGroupRx now m) s fun b => b = a)))) ∧
  ∀ (s : State) (now : Nat), s.alesh.idleToJob = true → s.alesh.joining = false → s.alesh.clock.valid = true →
    let a := s.alesh.at now
    (a.comm.cert ≠ [] → a.comm.sentTree = false → a.comm.resendDue ≤ a.now → Gives (.commenceResend now) s fun b =>
      (∀ n ∈ a.commPending, Sends b (hello a hCommence n (a.comm.block ++ a.comm.cert))) ∧
      b = { a with comm := { a.comm with resendDue := a.ackDue }, ports := b.ports }) ∧
    (let lack := a.comm.groupAsked.filter fun n => !a.groupHeld.any fun k => k.1 == n
     lack ≠ [] → a.comm.groupDue ≤ a.now → Gives (.groupAckResend now) s fun b =>
      (∀ n ∈ lack, Sends b (hello a hCommAck n (commAck a.commEpoch 1 0 0 0 0 a.groupDigest))) ∧
      b = { a with comm := { a.comm with groupDue := a.ackDue }, ports := b.ports }) ∧
    (∀ p, a.comm.sentTree = true → a.comm.start = none → a.comm.treeDue ≤ a.now → a.commParent = some p → Gives (.treeAckResend now) s fun b =>
      Sends b (hello a hCommAck p a.treeAck) ∧ b = { a with comm := { a.comm with treeDue := a.ackDue }, ports := b.ports }) ∧
    (∀ c, a.comm.rootC = some c →
      let lack := a.commTree.filter fun n => a.isMember n && !a.comm.arrived.contains n
      lack ≠ [] → a.comm.startDue ≤ a.now → Gives (.startReleaseResend now) s fun b =>
        start a b c lack ∧ b = { a with comm := { a.comm with startDue := a.ackDue }, ports := b.ports }) ∧
    ∀ t, a.comm.timeoutAt = some t → t ≤ a.now → a.comm.rootC = none → a.num O.COMMENCE_STATE = 1 ∨ a.num O.COMMENCE_STATE = 2 →
      (a.commFull = false → Gives (.commenceTimeout now) s fun b => b.num O.COMMENCE_STATE = 5 ∧
        b.evts = { a.evts with pending := a.evts.pending ||| 2 } ∧ SameBut [O.COMMENCE_STATE] [] a b ∧ b = { a with dict := b.dict, evts := b.evts }) ∧
      (a.commFull = true → Gives (.commenceTimeout now) s fun b => b = a)

/-! ### Fenmal and the work reports (R446 to R460) -/

/-- Fenmal measures, logs and apportions: a sample pair's energy is added without loss outside MOD_FAULT and CLOCK_FAULT, and each
condition is set, or cleared, and logged at its start (R449, R451, R453, R454); a snapshot closes after 8,000 pairs (R455); a period divides
exactly the energy that it imported (R460); calibration and the clearing of the log advance the seal counter or are refused (R452, R454). -/
def Obligations.FenmalMeasuresAndSeals : Prop :=
  let logs (f b : Fenmal) (ev : Nat) : Prop :=
    let merges : Prop := f.free = 0 ∨ f.free < 32 ∧ evVRange ≤ ev ∧ ev ≤ evClockFault
    let none_ : Prop := ∀ x ∈ f.log, x.event ≠ ev
    let appended : Prop := b.log = f.log ++ [f.entry ev] ∧ b.nextSeq = wrapAdd 32 f.nextSeq 1
    (¬merges ∨ (none_ ∧ f.free ≠ 0) → appended ∧ b.status = f.status) ∧
    (merges → ∀ l x r, f.log = l ++ x :: r → x.event = ev → (∀ y ∈ r, y.event ≠ ev) →
      b.log = l ++ { x with count := x.count + 1 } :: r ∧ b.nextSeq = f.nextSeq ∧ b.status = f.status) ∧
    (f.free = 0 → none_ → b.log = f.log ∧ b.nextSeq = f.nextSeq ∧ b.status = f.status ||| 64)
  let condition (f b : Fenmal) (bit ev : Nat) (on : Bool) : Prop :=
    (on = true → b.status.testBit bit = true ∧ (f.status.testBit bit = true → b = f) ∧
      (f.status.testBit bit = false → logs { f with status := f.status ||| 2 ^ bit } b ev ∧ b = { f with status := b.status, log := b.log, nextSeq := b.nextSeq })) ∧
    (on = false → b.status.testBit bit = false ∧ (∀ i, i ≠ bit → b.status.testBit i = f.status.testBit i) ∧ b = { f with status := b.status })
  ∀ s : State,
    let f := s.fenmal
    (f.powered = false → ∀ c ∈ [Instr.fmModStuck 0, .fmSnapshotClose, .fmPeriodClose, .fmAuxFall, .fmSealChange true, .fmClearLog, .fmReadLog 0,
      .fmReadSnapshot 0, .fmWriteCal 0 0 0 0, .fmWorkReportTake 0 1, .fmClockFault true, .fmSample ⟨0, 0⟩], GivesFm c s fun b => b = f) ∧
    (f.powered = false → GivesFm .fmAuxRise s fun b =>
      ∃ g : Fenmal, g.regs = f.saved ∧ g.log = f.log ∧ g.nextSeq = f.nextSeq ∧ g.status = f.status &&& 64 ∧ g.snapshot = f.snapshot ∧ g.sealOpen = f.sealOpen ∧
        g.powered = true ∧ g.pairs = 0 ∧ g.snaps = 0 ∧ g.work = List.replicate 16 0 ∧ g.readEntries = f.readEntries ∧
        logs g b evPowerUp ∧ b = { g with log := b.log, nextSeq := b.nextSeq, status := b.status }) ∧
    (f.powered = true →
      GivesFm .fmAuxFall s (fun b => logs f b evPowerDown ∧ b = { f with powered := false, saved := f.regs, log := b.log, nextSeq := b.nextSeq, status := b.status }) ∧
      (∀ channel, GivesFm (.fmModStuck channel) s fun b => ∃ g : Fenmal, condition g b 2 evModFault true ∧
        g = { f with stuckV := if channel = 0 then true else f.stuckV, stuckI := if channel = 0 then f.stuckI else true }) ∧
      (∀ departs, GivesFm (.fmClockFault departs) s fun b => condition f b 3 evClockFault departs) ∧
      (∀ opened, GivesFm (.fmSealChange opened) s fun b => (f.sealOpen = opened → b = f) ∧
        (f.sealOpen ≠ opened → logs { f with sealOpen := opened } b (if opened then evSealOpened else evSealClosed) ∧
          b = { f with sealOpen := opened, log := b.log, nextSeq := b.nextSeq, status := b.status })) ∧
      (∀ x : Sample, GivesFm (.fmSample x) s fun b =>
        let v := (x.v - f.regs.vOffset) * f.regs.vGain
        let i := (x.i - f.regs.iOffset) * f.regs.iGain
        let n := 25 * (v * i).natAbs
        let stuck : Bool := (f.stuckV && x.v == f.lastV) || (f.stuckI && x.i == f.lastI)
        (∃ g1 g2 g3 : Fenmal,
          condition { f with stuckV := f.stuckV && x.v == f.lastV, stuckI := f.stuckI && x.i == f.lastI, lastV := x.v, lastI := x.i } g1 2 evModFault stuck ∧
          condition g1 g2 0 evVRange (decide (v < 40 * voltUnits) || decide (60 * voltUnits < v)) ∧
          condition g2 g3 1 evIRange (decide (150 * ampUnits < i.natAbs)) ∧
          b = { g3 with regs := b.regs, subPairs := b.subPairs, pairs := f.pairs + 1, sumV := f.sumV + v, sumI := f.sumI + i, sumP := f.sumP + v * i }) ∧
        (stuck = true ∨ f.status.testBit 3 = true → b.regs = { f.regs with seconds := b.regs.seconds }) ∧
        (stuck = false → f.status.testBit 3 = false →
          (0 ≤ v * i → b.regs = { f.regs with imported := b.regs.imported, restImport := b.regs.restImport, seconds := b.regs.seconds } ∧ b.regs.restImport < jouleUnits ∧
            (f.regs.imported + (f.regs.restImport + n) / jouleUnits < 2 ^ 64 →
              b.regs.imported * jouleUnits + b.regs.restImport = f.regs.imported * jouleUnits + f.regs.restImport + n)) ∧
          (v * i < 0 → b.regs = { f.regs with exported := b.regs.exported, restExport := b.regs.restExport, seconds := b.regs.seconds } ∧ b.regs.restExport < jouleUnits ∧
            (f.regs.exported + (f.regs.restExport + n) / jouleUnits < 2 ^ 64 →
              b.regs.exported * jouleUnits + b.regs.restExport = f.regs.exported * jouleUnits + f.regs.restExport + n))) ∧
        (f.subPairs + 1 < 80000 → b.regs.seconds = f.regs.seconds ∧ b.subPairs = f.subPairs + 1) ∧
        (80000 ≤ f.subPairs + 1 → b.regs.seconds = f.regs.seconds + 1 ∧ b.subPairs = 0)) ∧
      GivesFm .fmSnapshotClose s (fun b => (f.pairs < 8000 → b = f) ∧
        (8000 ≤ f.pairs → b.regs = { f.regs with snapSeq := wrapAdd 64 f.regs.snapSeq 1 } ∧ b.saved = b.regs ∧ b.snaps = f.snaps + 1 ∧ b.pairs = 0 ∧
          b.snapshot.length = 96 ∧ b.snapshot[0]? = some b.regs.snapSeq ∧ b.snapshot[1]? = some f.regs.imported ∧ b.snapshot[2]? = some f.regs.exported ∧
          b.snapshot[7]? = some f.regs.seconds ∧ (∀ t, t < 16 → b.snapshot[8 + t]? = some (f.regs.tenants.getD t 0)) ∧
          b = { f with regs := b.regs, saved := b.saved, snapshot := b.snapshot, snaps := b.snaps, pairs := 0, sumV := 0, sumI := 0, sumP := 0 })) ∧
      GivesFm .fmPeriodClose s (fun b => (f.snaps < 10 → b = f) ∧
        (10 ≤ f.snaps → f.regs.tenants.length = 16 → f.work.length = 16 →
          let e := f.regs.imported - f.regs.periodStart
          (∀ t, t < 16 → b.regs.tenants.getD t 0 = f.regs.tenants.getD t 0 + (if sumNat f.work = 0 then 0 else e * f.work.getD t 0 / sumNat f.work)) ∧
          sumNat b.regs.tenants + b.regs.unapportioned = sumNat f.regs.tenants + f.regs.unapportioned + e ∧
          b.regs.periodStart = f.regs.imported ∧ b.regs.periods = wrapAdd 64 f.regs.periods 1 ∧ b.work = List.replicate 16 0 ∧
          b = { f with regs := { f.regs with tenants := b.regs.tenants, unapportioned := b.regs.unapportioned, periods := b.regs.periods
                                             periodStart := b.regs.periodStart }
                       work := b.work, snaps := 0 })) ∧
      (∀ t u, t < 16 → u < 65536 → f.work.length = 16 → GivesFm (.fmWorkReportTake t u) s fun b =>
        b.work.getD t 0 = f.work.getD t 0 + u ∧ (∀ k, k ≠ t → b.work.getD k 0 = f.work.getD k 0) ∧ b = { f with work := b.work, ack := !f.ack }) ∧
      (∀ w x, f.snapshot[w]? = some x → GivesFm (.fmReadSnapshot w) s fun b => b = { f with response := beBytes 8 x }) ∧
      (∀ k x, f.log[k]? = some x → GivesFm (.fmReadLog k) s fun b => b.response = x.bytes ∧ k ∈ b.readEntries ∧ (∀ y ∈ f.readEntries, y ∈ b.readEntries) ∧
        b = { f with response := b.response, readEntries := b.readEntries }) ∧
      (∀ vo vg io ig : Int, GivesFm (.fmWriteCal vo vg io ig) s fun b =>
        (f.sealOpen = true → 8 ≤ f.free → f.regs.sealCount < 0xFFFFFFFF → ∃ g : Fenmal,
          g = { f with regs := { f.regs with vOffset := signed32 vo, vGain := signed32 vg, iOffset := signed32 io, iGain := signed32 ig
                                             sealCount := f.regs.sealCount + 1 } } ∧
          b = { g with log := f.log ++ [g.entry evCalChanged], nextSeq := wrapAdd 32 f.nextSeq 1, response := [0] }) ∧
        (f.sealOpen = false ∨ f.free < 8 ∨ f.regs.sealCount = 0xFFFFFFFF → b = { f with response := [1] })) ∧
      GivesFm .fmClearLog s fun b =>
        (f.sealOpen = true → (∀ i, i < f.log.length → i ∈ f.readEntries) → f.regs.sealCount < 0xFFFFFFFF →
          b.regs = { f.regs with sealCount := f.regs.sealCount + 1 } ∧ b.status.testBit 6 = false ∧ b.response = [0] ∧ b.readEntries = [] ∧
          b.log = [{ seq := f.nextSeq, sealCount := f.regs.sealCount + 1, event := evLogCleared, count := 1, imported := f.regs.imported
                     seconds := f.regs.seconds }] ∧
          b = { f with regs := b.regs, status := b.status, response := b.response, readEntries := b.readEntries, log := b.log, nextSeq := wrapAdd 32 f.nextSeq 1 }) ∧
        (f.sealOpen = false ∨ (∃ i, i < f.log.length ∧ i ∉ f.readEntries) ∨ f.regs.sealCount = 0xFFFFFFFF → b = { f with response := [1] }))

/-- The core's side: work is reported one report at a time, tenants in turn, and leaves the accumulator when Fenmal has taken it (R459); the
mirror takes a whole snapshot at once, and is stale after one second without a new number (R456, R457). The test port acts on scan,
MBIST and the repair shadow in RESET and MAINT alone, and reads identity and shadow anywhere (R446, R447). -/
def Obligations.CoresReportMirrorAndTest : Prop :=
  ∀ s : State,
    let a := s.alesh
    (a.ctl.core ≠ .reset → a.work.flight = none →
      ((∀ t, t < 16 → a.work.acc.getD t 0 = 0) → Gives .workReportSend s fun b => b = a) ∧
      (∀ i, i < 16 → a.work.acc.getD ((a.work.nextTenant + i) % 16) 0 ≠ 0 → (∀ j, j < i → a.work.acc.getD ((a.work.nextTenant + j) % 16) 0 = 0) →
        Gives .workReportSend s fun b =>
          let t := (a.work.nextTenant + i) % 16
          let u := min (a.work.acc.getD t 0) 65535
          b.work = { a.work with flight := some (t, u), req := !a.work.req, nextTenant := (t + 1) % 16 } ∧
          b.num O.WORK_REPORTED = wrapAdd (widthOf O.WORK_REPORTED) (a.num O.WORK_REPORTED) u ∧ SameBut [O.WORK_REPORTED] [] a b ∧
          b = { a with work := b.work, dict := b.dict })) ∧
    (∀ t u, a.work.flight = some (t, u) →
      (Gives .workReportSend s fun b => b = a) ∧
      Gives .workReportAck s fun b => b.work.flight = none ∧ (t < a.work.acc.length → b.work.acc.getD t 0 = a.work.acc.getD t 0 - u) ∧
        (∀ k, k ≠ t → b.work.acc.getD k 0 = a.work.acc.getD k 0) ∧ b = { a with work := { a.work with flight := none, acc := b.work.acc } }) ∧
    (∀ now, a.ctl.core ≠ .reset → s.fenmal.powered = true → Gives (.fmReadout now) s fun b =>
      let w (i : Nat) : Nat := s.fenmal.snapshot.getD i 0
      let c := a.at now
      b.num O.FM_SNAP_SEQ = w 0 ∧ b.num O.FM_E_IMPORT = w 1 ∧ b.num O.FM_E_EXPORT = w 2 ∧ b.num O.FM_V_MEAN = bf (w 3) 0 32 ∧ b.num O.FM_I_MEAN = bf (w 3) 32 32 ∧
      b.num O.FM_P_MEAN = bf (w 4) 0 32 ∧ b.num O.FM_STATUS = bf (w 4) 32 16 ∧ b.num O.FM_SEAL_COUNT = bf (w 5) 0 32 ∧ b.num O.FM_VERSION = bf (w 5) 32 32 ∧
      b.num O.FM_LEGAL_ID = bf (w 6) 0 32 ∧ b.num O.FM_LOG_COUNT = bf (w 6) 32 16 ∧ b.num O.FM_OPERATING_S = w 7 ∧
      (∀ t, t < 16 → b.num (O.FM_E_TENANT + t) = w (8 + t)) ∧ b.num O.FM_E_UNAPPORTIONED = w 24 ∧ b.num O.FM_PERIODS = w 25 ∧
      b.dom O.FM_LOG_TAIL = (s.fenmal.snapshot.drop 32).flatMap (leBytes 8) ∧
      (c.num O.FM_SNAP_SEQ ≠ w 0 → b.num O.FM_MIRROR_STALE = 0 ∧ b.work = { c.work with installed := c.now }) ∧
      (c.num O.FM_SNAP_SEQ = w 0 → b.num O.FM_MIRROR_STALE = c.num O.FM_MIRROR_STALE ∧ b.work = c.work) ∧
      (∀ k, k < O.FM_SNAP_SEQ → b.num k = c.num k) ∧ b = { c with dict := b.dict, work := b.work }) ∧
    (∀ now, a.ctl.core ≠ .reset → a.clock.valid = true →
      let c := a.at now
      (c.work.installed + 1000000000 ≤ c.now → Gives (.fmMirrorStaleTimeout now) s fun b =>
        b.num O.FM_MIRROR_STALE = 1 ∧ SameBut [O.FM_MIRROR_STALE] [] c b ∧ b = { c with dict := b.dict }) ∧
      (c.now < c.work.installed + 1000000000 → Gives (.fmMirrorStaleTimeout now) s fun b => b = c)) ∧
    (Gives (.testPortAccess .identity) s fun b =>
      b.test.out = leBytes 4 (packBits [(0, 16, a.num O.BLOCK_VERSION), (16, 8, a.num O.GENERATION)]) ++ a.fingerprintInput ∧
      b = { a with test := { a.test with out := b.test.out } }) ∧
    (Gives (.testPortAccess .shadowRead) s fun b => b = { a with test := { a.test with out := a.shadowBytes } }) ∧
    (∀ r t c, a.ctl.core = .reset ∨ a.ctl.core = .maint → Gives (.testPortAccess (.shadowWrite r t c)) s fun b =>
      b.test.rows = r ∧ (∀ x, x ∈ b.test.tiles ↔ x ∈ t) ∧ (∀ x, x ∈ b.test.cols ↔ x ∈ c) ∧
      b = { a with test := { a.test with rows := r, tiles := b.test.tiles, cols := b.test.cols } }) ∧
    ∀ r t c v, a.ctl.core ≠ .reset → a.ctl.core ≠ .maint → ∀ op ∈ [TestOp.shadowWrite r t c, .extest v, .intest v, .scan v, .mbist],
      Gives (.testPortAccess op) s fun b => b = a

/-! ### The whole block -/

/-- A command is accepted only in its core states: elsewhere it returns STATE_CONFLICT, which is counted, flagged and recorded, and changes
nothing else (R350, R353, R366, R396, R406, R439). In RESET no path answers (R361). -/
def Obligations.CommandsKeepToTheirStates : Prop :=
  ∀ (s : State) (via : Via) (x now : Nat),
    let job : List CoreState := [.running, .degraded]
    let table : List (Instr × Nat × Bool × List CoreState) :=
      [(.unitArm via x, O.UNIT_ARM, false, [.idle]), (.unitDisarm via x, O.UNIT_DISARM, false, [.idle]), (.unitClear via x, O.UNIT_CLEAR, false, [.idle]),
       (.jobStop via x, O.JOB_STOP, true, job), (.maintEnter via, O.MAINT_ENTER, false, [.idle]), (.overlaySwitch via x now, O.OVERLAY_SWITCH, true, job),
       (.membInstall via now, O.MEMB_INSTALL, false, .idle :: .joined :: job), (.routeChange via now, O.ROUTE_CHANGE, false, .joined :: job),
       (.watchClear via x, O.WATCH_CLEAR, false, .joined :: job), (.tileRetire via x, O.TILE_RETIRE, false, .idle :: .joined :: job),
       (.pcColRetire via x, O.PC_COL_RETIRE, false, .idle :: .joined :: job), (.tierFlush via x, O.TIER_FLUSH, false, .idle :: .joined :: job),
       (.faSubmit via now, O.FA_SUBMIT, false, .idle :: .joined :: job), (.restoreStart via now, O.RESTORE_START, false, [.idle]),
       (.plateReturn via now, O.PLATE_RETURN, false, job), (.commenceStart via now, O.COMMENCE_START, false, [.idle, .joined]),
       (.commenceAbandon via, O.COMMENCE_ABANDON, false, [.idle, .joined]), (.calLoad via, O.CAL_LOAD, false, [.init, .maint]),
       (.scrubStart via now, O.SCRUB_START, false, .idle :: .joined :: .maint :: job), (.evtAck via x, O.EVT_ACK, false, .init :: .idle :: .joined :: job)]
    ∀ p ∈ table,
      (Admits s.alesh via → s.alesh.ctl.core ∉ p.2.2.2 → Ends p.1 s via p.2.1 p.2.2.1 .stateConflict fun b =>
        b.num O.STATE_CONFLICT_COUNT = satAdd (widthOf O.STATE_CONFLICT_COUNT) (s.alesh.num O.STATE_CONFLICT_COUNT) 1 ∧
        (b.num O.CTRL_FLAGS).testBit fStateConflict = true ∧
        b.dom O.LAST_REFUSED = leBytes 2 (p.2.1 / 256) ++ leBytes 1 p.2.1 ++ leBytes 1 (viaPath via) ++ leBytes 2 5 ++ leBytes 2 0 ∧
        SameBut [O.CTRL_FLAGS, O.STATE_CONFLICT_COUNT, O.DICT_INBAND_COUNT] [O.LAST_REFUSED] s.alesh b ∧
        b = { s.alesh with dict := b.dict, evts := b.evts, win := b.win, mgmt := b.mgmt, ports := b.ports, clock := b.clock }) ∧
      (s.alesh.ctl.core = .reset → exec p.1 s = .next s)

/-- While the captured value is not valid, no Ephemeris timer expires, no lease is taken and no Meridian releases (R438): the command of
each such timer leaves the whole machine as it is. -/
def Obligations.TimersWaitForValidTime : Prop :=
  ∀ (s : State) (now x y z : Nat), s.alesh.clock.valid = false →
    ∀ c ∈ [Instr.thermStaleTimeout now, .dictResend now x y, .dictStoreExpiry now x y, .peerCreditVoid now x, .peerCreditWait now x y,
      .rxPacketGapTimeout now x y, .rxPseqLost now x y z, .creditLeaseExpiry now x, .ownerAckTimeout now x y, .adoptReportResend now,
      .meridianRelease now, .jobStart now, .beaconPeriod now, .beaconMissExpiry now x, .occultResend now x, .leaseTakeDue now x, .leaseActStart now x,
      .leaseReportResend now, .grantAnnounceResend now, .fragReqTimeout now x, .degradedRetry now x, .cutResend now, .plateExtentRetry now x y,
      .drainedResend now, .plateAbortResend now, .fabricTimeout now x, .tagReuseExpiry now x, .atomicTableExpiry now x y, .commenceResend now,
      .groupAckResend now, .treeAckResend now, .startReleaseResend now, .commenceTimeout now, .switchOrderResend now, .fmMirrorStaleTimeout now],
      exec c s = .next s

/-- Fenmal stands apart (R381, R461): no command of the core, its resets and test operations among them, changes Fenmal; none of Fenmal's
changes the core, and what it leaves in Fenmal depends on Fenmal alone. -/
def Obligations.FenmalStandsApart : Prop :=
  (∀ (c : Instr) (s t : State), exec c s = .next t →
    (isFenmal c = true → t.alesh = s.alesh) ∧ (isFenmal c = false → t.fenmal = s.fenmal) ∧ t.pending = s.pending) ∧
  ∀ (c : Instr) (s t s' t' : State), isFenmal c = true → s.fenmal = s'.fenmal → exec c s = .next t → exec c s' = .next t' → t.fenmal = t'.fenmal

/-- Every step keeps Fenmal sound, whatever the command: E_IMPORT is divided without loss or gain, the log is never overfull. -/
def Obligations.FenmalStaysSound : Prop :=
  ∀ s t : State, s.fenmal.Sound → Steps s t → t.fenmal.Sound

/-- CRC64 (R46): polynomial 0x42F0_E1EB_A9EA_3693 from an initial value of zero, bytes in address order, most significant bit first, and no
final XOR; its check value. -/
def Obligations.CrcFollowsEcma : Prop :=
  let shift (c : BitVec 64) : BitVec 64 := if c.msb then (c <<< 1) ^^^ 0x42F0E1EBA9EA3693#64 else c <<< 1
  let take (c : BitVec 64) (x : Byte) : BitVec 64 :=
    shift (shift (shift (shift (shift (shift (shift (shift (c ^^^ (x.zeroExtend 64 <<< 56)))))))))
  (∀ b : Bytes, crc64 b = (b.foldl take 0#64).toNat) ∧
  crc64 [0x31#8, 0x32#8, 0x33#8, 0x34#8, 0x35#8, 0x36#8, 0x37#8, 0x38#8, 0x39#8] = 0x6C40DF5F0B497347

/-- Epochs on the wire (R179): EPOCH_LO is the low 8 bits, and the receiver restores the one epoch congruent to it in the range P − 128 to
P + 127 about its epoch in progress (where a release falls due in this cclk, the one that it makes: R25); MEMB_LO in the same way modulo
16, from M − 8 to M + 7. -/
def Obligations.EpochsAreRestored : Prop :=
  (∀ (seq band col row mid e low : Nat) (adopt : Bool), (TxArgs.ofNat (txArgs seq band col row adopt mid e low)).epochLo = e % 256) ∧
  (∀ (a : Alesh) (p : Part), (PartArgs.ofNat (a.partArgsOf p)).epochLo = p.epoch % 256) ∧
  (∀ (sub group tag e : Nat) (x : ExtEntry), (GrantArgs.ofNat (extArgs sub x e)).epochLo = e % 256 ∧
    (GrantArgs.ofNat (restripeArgs sub group tag e)).epochLo = e % 256) ∧
  (∀ (a : Alesh) (typ dst args : Nat) (b : Bytes), (a.cresol typ dst args b).memb = a.num O.MEMBERSHIP_EPOCH % 16) ∧
  ∀ (a : Alesh) (lo : Nat),
    let p := a.num O.STEP_EPOCH + 1 + if a.releaseDue then 1 else 0
    let m := a.num O.MEMBERSHIP_EPOCH
    (a.ctl.core ≠ .joined →
      (∀ e, p ≤ e + 128 → e ≤ p + 127 → e % 256 = lo % 256 → a.epochOf lo = e) ∧
      (128 ≤ p → p ≤ a.epochOf lo + 128 ∧ a.epochOf lo ≤ p + 127 ∧ a.epochOf lo % 256 = lo % 256)) ∧
    (∀ e, m ≤ e + 8 → e ≤ m + 7 → e % 16 = lo % 16 → a.membOf lo = e) ∧
    (8 ≤ m → m ≤ a.membOf lo + 8 ∧ a.membOf lo ≤ m + 7 ∧ a.membOf lo % 16 = lo % 16)

/-- Encodings give back what they took: a coded delta page decodes to the page, compressed or not, and what decodes has 65,536 bytes (R103 to
R106); the ARGS of DELTA, HOLD_ACK and COMMIT, of PLATE_MARK, and the fabric header give back every field at every value that its bits
admit (R182 to R184, R257, R308). -/
def Obligations.EncodingsRoundTrip : Prop :=
  (∀ (compress : Bool) (d : Bytes), d.length = 65536 → deltaDecode (deltaEncode compress d) = some d) ∧
  (∀ (b d : Bytes), deltaDecode b = some d → d.length = 65536) ∧
  (∀ t : TxArgs, t.seq < 65536 → t.band < 65536 → t.col < 32 → t.row < 4 → t.mid < 256 → t.epochLo < 256 → t.low < 256 →
    TxArgs.ofNat (txArgs t.seq t.band t.col t.row t.adopt t.mid t.epochLo t.low) = t) ∧
  (∀ x : MarkArgs, x.sub < 16 → x.place < 8 → x.index < 16 → x.last < 16 → x.epoch < 2 ^ 48 →
    MarkArgs.ofNat (markArgs x.sub x.place x.index x.last x.epoch) = x) ∧
  ∀ h : FaHdr, h.version < 16 → h.op < 16 → h.status < 16 → h.aop < 16 → h.src < 2 ^ 18 → h.dst < 2 ^ 18 → h.origin < 2 ^ 18 → h.tag < 1024 →
    h.size < 4 → h.offset < 2 ^ 46 → h.key < 2 ^ 64 → h.operand < 2 ^ 64 → FaHdr.ofNat h.word = h

/-- The field is GF(2^8) with polynomial 0x11D (R151): addition is XOR, and multiplication is polynomial multiplication reduced
modulo 0x11D, bit i of a byte being the coefficient of x^i. The code is linear: multiplication distributes over addition, every
coefficient of a used row and column is the inverse of x_i ⊕ y_j and not zero, and adding c(i, j) times the change of one data page to
the parity of a stripe gives the parity of the changed stripe. Folds of two columns commute. -/
def Obligations.ParityFollowsTheData : Prop :=
  let product (a b : Byte) : BitVec 15 :=
    (List.range 8).foldl (fun (r : BitVec 15) i => if b.getLsbD i then r ^^^ (a.zeroExtend 15 <<< i) else r) 0#15
  let reduced (p : BitVec 15) : BitVec 15 :=
    [6, 5, 4, 3, 2, 1, 0].foldl (fun (r : BitVec 15) i => if r.getLsbD (8 + i) then r ^^^ (0x11D#15 <<< i) else r) p
  (∀ a b : Byte, gfMul a b = (reduced (product a b)).setWidth 8 ∧ (a ^^^ b) = BitVec.ofNat 8 (a.toNat ^^^ b.toNat)) ∧
  (∀ x y : Bytes, x.length = y.length → ∀ i (h : i < x.length) (k : i < y.length), (xorBytes x y)[i]? = some (x[i] ^^^ y[i])) ∧
  (∀ a b c : Byte, gfMul a (b ^^^ c) = gfMul a b ^^^ gfMul a c ∧ gfMul a b = gfMul b a) ∧
  (∀ i j, i < 4 → j < 30 → coef i j ≠ 0 ∧ gfMul (coef i j) (BitVec.ofNat 8 i ^^^ BitVec.ofNat 8 (4 + j)) = 1) ∧
  (∀ (i j n : Nat) (data : List Bytes) (old new : Bytes), (∀ d ∈ data, d.length = n) → data[j]? = some old → new.length = n →
    encodeParity i (data.set j new) = xorBytes (encodeParity i data) (gfScale (coef i j) (xorBytes old new))) ∧
  ∀ p x y : Bytes, xorBytes (xorBytes p x) y = xorBytes (xorBytes p y) x
end

