-- ==== Sys2Proof/Laws/State.lean ====
section
/-! SUPPORT. What the named operations leave as it is: one lemma per part of the core and per operation. -/
namespace Sys2Proof.Machine

@[simp] theorem Alesh.setNum_ctl (a : Alesh) (k : Nat) (v : Nat) : (a.setNum k v).ctl = a.ctl := rfl
@[simp] theorem Alesh.setNum_win (a : Alesh) (k : Nat) (v : Nat) : (a.setNum k v).win = a.win := rfl
@[simp] theorem Alesh.setNum_staged (a : Alesh) (k : Nat) (v : Nat) : (a.setNum k v).staged = a.staged := rfl
@[simp] theorem Alesh.setNum_evts (a : Alesh) (k : Nat) (v : Nat) : (a.setNum k v).evts = a.evts := rfl
@[simp] theorem Alesh.setNum_clock (a : Alesh) (k : Nat) (v : Nat) : (a.setNum k v).clock = a.clock := rfl
@[simp] theorem Alesh.setNum_slots (a : Alesh) (k : Nat) (v : Nat) : (a.setNum k v).slots = a.slots := rfl
@[simp] theorem Alesh.setNum_progs (a : Alesh) (k : Nat) (v : Nat) : (a.setNum k v).progs = a.progs := rfl
@[simp] theorem Alesh.setNum_red (a : Alesh) (k : Nat) (v : Nat) : (a.setNum k v).red = a.red := rfl
@[simp] theorem Alesh.setNum_pub (a : Alesh) (k : Nat) (v : Nat) : (a.setNum k v).pub = a.pub := rfl
@[simp] theorem Alesh.setNum_coding (a : Alesh) (k : Nat) (v : Nat) : (a.setNum k v).coding = a.coding := rfl
@[simp] theorem Alesh.setNum_ports (a : Alesh) (k : Nat) (v : Nat) : (a.setNum k v).ports = a.ports := rfl
@[simp] theorem Alesh.setNum_mgmt (a : Alesh) (k : Nat) (v : Nat) : (a.setNum k v).mgmt = a.mgmt := rfl
@[simp] theorem Alesh.setNum_pm (a : Alesh) (k : Nat) (v : Nat) : (a.setNum k v).pm = a.pm := rfl
@[simp] theorem Alesh.setNum_errs (a : Alesh) (k : Nat) (v : Nat) : (a.setNum k v).errs = a.errs := rfl
@[simp] theorem Alesh.setNum_memb (a : Alesh) (k : Nat) (v : Nat) : (a.setNum k v).memb = a.memb := rfl
@[simp] theorem Alesh.setNum_leases (a : Alesh) (k : Nat) (v : Nat) : (a.setNum k v).leases = a.leases := rfl
@[simp] theorem Alesh.setNum_take (a : Alesh) (k : Nat) (v : Nat) : (a.setNum k v).take = a.take := rfl
@[simp] theorem Alesh.setNum_plate (a : Alesh) (k : Nat) (v : Nat) : (a.setNum k v).plate = a.plate := rfl
@[simp] theorem Alesh.setNum_fabric (a : Alesh) (k : Nat) (v : Nat) : (a.setNum k v).fabric = a.fabric := rfl
@[simp] theorem Alesh.setNum_merid (a : Alesh) (k : Nat) (v : Nat) : (a.setNum k v).merid = a.merid := rfl
@[simp] theorem Alesh.setNum_comm (a : Alesh) (k : Nat) (v : Nat) : (a.setNum k v).comm = a.comm := rfl
@[simp] theorem Alesh.setNum_work (a : Alesh) (k : Nat) (v : Nat) : (a.setNum k v).work = a.work := rfl
@[simp] theorem Alesh.setNum_chrono (a : Alesh) (k : Nat) (v : Nat) : (a.setNum k v).chrono = a.chrono := rfl
@[simp] theorem Alesh.setNum_health (a : Alesh) (k : Nat) (v : Nat) : (a.setNum k v).health = a.health := rfl
@[simp] theorem Alesh.setNum_cep (a : Alesh) (k : Nat) (v : Nat) : (a.setNum k v).cep = a.cep := rfl
@[simp] theorem Alesh.setNum_test (a : Alesh) (k : Nat) (v : Nat) : (a.setNum k v).test = a.test := rfl
@[simp] theorem Alesh.setNum_mem0 (a : Alesh) (k : Nat) (v : Nat) : (a.setNum k v).mem0 = a.mem0 := rfl
@[simp] theorem Alesh.setNum_mem1 (a : Alesh) (k : Nat) (v : Nat) : (a.setNum k v).mem1 = a.mem1 := rfl
@[simp] theorem Alesh.setDom_ctl (a : Alesh) (k : Nat) (v : Bytes) : (a.setDom k v).ctl = a.ctl := rfl
@[simp] theorem Alesh.setDom_win (a : Alesh) (k : Nat) (v : Bytes) : (a.setDom k v).win = a.win := rfl
@[simp] theorem Alesh.setDom_staged (a : Alesh) (k : Nat) (v : Bytes) : (a.setDom k v).staged = a.staged := rfl
@[simp] theorem Alesh.setDom_evts (a : Alesh) (k : Nat) (v : Bytes) : (a.setDom k v).evts = a.evts := rfl
@[simp] theorem Alesh.setDom_clock (a : Alesh) (k : Nat) (v : Bytes) : (a.setDom k v).clock = a.clock := rfl
@[simp] theorem Alesh.setDom_slots (a : Alesh) (k : Nat) (v : Bytes) : (a.setDom k v).slots = a.slots := rfl
@[simp] theorem Alesh.setDom_progs (a : Alesh) (k : Nat) (v : Bytes) : (a.setDom k v).progs = a.progs := rfl
@[simp] theorem Alesh.setDom_red (a : Alesh) (k : Nat) (v : Bytes) : (a.setDom k v).red = a.red := rfl
@[simp] theorem Alesh.setDom_pub (a : Alesh) (k : Nat) (v : Bytes) : (a.setDom k v).pub = a.pub := rfl
@[simp] theorem Alesh.setDom_coding (a : Alesh) (k : Nat) (v : Bytes) : (a.setDom k v).coding = a.coding := rfl
@[simp] theorem Alesh.setDom_ports (a : Alesh) (k : Nat) (v : Bytes) : (a.setDom k v).ports = a.ports := rfl
@[simp] theorem Alesh.setDom_mgmt (a : Alesh) (k : Nat) (v : Bytes) : (a.setDom k v).mgmt = a.mgmt := rfl
@[simp] theorem Alesh.setDom_pm (a : Alesh) (k : Nat) (v : Bytes) : (a.setDom k v).pm = a.pm := rfl
@[simp] theorem Alesh.setDom_errs (a : Alesh) (k : Nat) (v : Bytes) : (a.setDom k v).errs = a.errs := rfl
@[simp] theorem Alesh.setDom_memb (a : Alesh) (k : Nat) (v : Bytes) : (a.setDom k v).memb = a.memb := rfl
@[simp] theorem Alesh.setDom_leases (a : Alesh) (k : Nat) (v : Bytes) : (a.setDom k v).leases = a.leases := rfl
@[simp] theorem Alesh.setDom_take (a : Alesh) (k : Nat) (v : Bytes) : (a.setDom k v).take = a.take := rfl
@[simp] theorem Alesh.setDom_plate (a : Alesh) (k : Nat) (v : Bytes) : (a.setDom k v).plate = a.plate := rfl
@[simp] theorem Alesh.setDom_fabric (a : Alesh) (k : Nat) (v : Bytes) : (a.setDom k v).fabric = a.fabric := rfl
@[simp] theorem Alesh.setDom_merid (a : Alesh) (k : Nat) (v : Bytes) : (a.setDom k v).merid = a.merid := rfl
@[simp] theorem Alesh.setDom_comm (a : Alesh) (k : Nat) (v : Bytes) : (a.setDom k v).comm = a.comm := rfl
@[simp] theorem Alesh.setDom_work (a : Alesh) (k : Nat) (v : Bytes) : (a.setDom k v).work = a.work := rfl
@[simp] theorem Alesh.setDom_chrono (a : Alesh) (k : Nat) (v : Bytes) : (a.setDom k v).chrono = a.chrono := rfl
@[simp] theorem Alesh.setDom_health (a : Alesh) (k : Nat) (v : Bytes) : (a.setDom k v).health = a.health := rfl
@[simp] theorem Alesh.setDom_cep (a : Alesh) (k : Nat) (v : Bytes) : (a.setDom k v).cep = a.cep := rfl
@[simp] theorem Alesh.setDom_test (a : Alesh) (k : Nat) (v : Bytes) : (a.setDom k v).test = a.test := rfl
@[simp] theorem Alesh.setDom_mem0 (a : Alesh) (k : Nat) (v : Bytes) : (a.setDom k v).mem0 = a.mem0 := rfl
@[simp] theorem Alesh.setDom_mem1 (a : Alesh) (k : Nat) (v : Bytes) : (a.setDom k v).mem1 = a.mem1 := rfl
@[simp] theorem Alesh.forceNum_ctl (a : Alesh) (k : Nat) (v : Nat) : (a.forceNum k v).ctl = a.ctl := rfl
@[simp] theorem Alesh.forceNum_win (a : Alesh) (k : Nat) (v : Nat) : (a.forceNum k v).win = a.win := rfl
@[simp] theorem Alesh.forceNum_staged (a : Alesh) (k : Nat) (v : Nat) : (a.forceNum k v).staged = a.staged := rfl
@[simp] theorem Alesh.forceNum_evts (a : Alesh) (k : Nat) (v : Nat) : (a.forceNum k v).evts = a.evts := rfl
@[simp] theorem Alesh.forceNum_clock (a : Alesh) (k : Nat) (v : Nat) : (a.forceNum k v).clock = a.clock := rfl
@[simp] theorem Alesh.forceNum_slots (a : Alesh) (k : Nat) (v : Nat) : (a.forceNum k v).slots = a.slots := rfl
@[simp] theorem Alesh.forceNum_progs (a : Alesh) (k : Nat) (v : Nat) : (a.forceNum k v).progs = a.progs := rfl
@[simp] theorem Alesh.forceNum_red (a : Alesh) (k : Nat) (v : Nat) : (a.forceNum k v).red = a.red := rfl
@[simp] theorem Alesh.forceNum_pub (a : Alesh) (k : Nat) (v : Nat) : (a.forceNum k v).pub = a.pub := rfl
@[simp] theorem Alesh.forceNum_coding (a : Alesh) (k : Nat) (v : Nat) : (a.forceNum k v).coding = a.coding := rfl
@[simp] theorem Alesh.forceNum_ports (a : Alesh) (k : Nat) (v : Nat) : (a.forceNum k v).ports = a.ports := rfl
@[simp] theorem Alesh.forceNum_mgmt (a : Alesh) (k : Nat) (v : Nat) : (a.forceNum k v).mgmt = a.mgmt := rfl
@[simp] theorem Alesh.forceNum_pm (a : Alesh) (k : Nat) (v : Nat) : (a.forceNum k v).pm = a.pm := rfl
@[simp] theorem Alesh.forceNum_errs (a : Alesh) (k : Nat) (v : Nat) : (a.forceNum k v).errs = a.errs := rfl
@[simp] theorem Alesh.forceNum_memb (a : Alesh) (k : Nat) (v : Nat) : (a.forceNum k v).memb = a.memb := rfl
@[simp] theorem Alesh.forceNum_leases (a : Alesh) (k : Nat) (v : Nat) : (a.forceNum k v).leases = a.leases := rfl
@[simp] theorem Alesh.forceNum_take (a : Alesh) (k : Nat) (v : Nat) : (a.forceNum k v).take = a.take := rfl
@[simp] theorem Alesh.forceNum_plate (a : Alesh) (k : Nat) (v : Nat) : (a.forceNum k v).plate = a.plate := rfl
@[simp] theorem Alesh.forceNum_fabric (a : Alesh) (k : Nat) (v : Nat) : (a.forceNum k v).fabric = a.fabric := rfl
@[simp] theorem Alesh.forceNum_merid (a : Alesh) (k : Nat) (v : Nat) : (a.forceNum k v).merid = a.merid := rfl
@[simp] theorem Alesh.forceNum_comm (a : Alesh) (k : Nat) (v : Nat) : (a.forceNum k v).comm = a.comm := rfl
@[simp] theorem Alesh.forceNum_work (a : Alesh) (k : Nat) (v : Nat) : (a.forceNum k v).work = a.work := rfl
@[simp] theorem Alesh.forceNum_chrono (a : Alesh) (k : Nat) (v : Nat) : (a.forceNum k v).chrono = a.chrono := rfl
@[simp] theorem Alesh.forceNum_health (a : Alesh) (k : Nat) (v : Nat) : (a.forceNum k v).health = a.health := rfl
@[simp] theorem Alesh.forceNum_cep (a : Alesh) (k : Nat) (v : Nat) : (a.forceNum k v).cep = a.cep := rfl
@[simp] theorem Alesh.forceNum_test (a : Alesh) (k : Nat) (v : Nat) : (a.forceNum k v).test = a.test := rfl
@[simp] theorem Alesh.forceNum_mem0 (a : Alesh) (k : Nat) (v : Nat) : (a.forceNum k v).mem0 = a.mem0 := rfl
@[simp] theorem Alesh.forceNum_mem1 (a : Alesh) (k : Nat) (v : Nat) : (a.forceNum k v).mem1 = a.mem1 := rfl
@[simp] theorem Alesh.forceDom_ctl (a : Alesh) (k : Nat) (v : Bytes) : (a.forceDom k v).ctl = a.ctl := rfl
@[simp] theorem Alesh.forceDom_win (a : Alesh) (k : Nat) (v : Bytes) : (a.forceDom k v).win = a.win := rfl
@[simp] theorem Alesh.forceDom_staged (a : Alesh) (k : Nat) (v : Bytes) : (a.forceDom k v).staged = a.staged := rfl
@[simp] theorem Alesh.forceDom_evts (a : Alesh) (k : Nat) (v : Bytes) : (a.forceDom k v).evts = a.evts := rfl
@[simp] theorem Alesh.forceDom_clock (a : Alesh) (k : Nat) (v : Bytes) : (a.forceDom k v).clock = a.clock := rfl
@[simp] theorem Alesh.forceDom_slots (a : Alesh) (k : Nat) (v : Bytes) : (a.forceDom k v).slots = a.slots := rfl
@[simp] theorem Alesh.forceDom_progs (a : Alesh) (k : Nat) (v : Bytes) : (a.forceDom k v).progs = a.progs := rfl
@[simp] theorem Alesh.forceDom_red (a : Alesh) (k : Nat) (v : Bytes) : (a.forceDom k v).red = a.red := rfl
@[simp] theorem Alesh.forceDom_pub (a : Alesh) (k : Nat) (v : Bytes) : (a.forceDom k v).pub = a.pub := rfl
@[simp] theorem Alesh.forceDom_coding (a : Alesh) (k : Nat) (v : Bytes) : (a.forceDom k v).coding = a.coding := rfl
@[simp] theorem Alesh.forceDom_ports (a : Alesh) (k : Nat) (v : Bytes) : (a.forceDom k v).ports = a.ports := rfl
@[simp] theorem Alesh.forceDom_mgmt (a : Alesh) (k : Nat) (v : Bytes) : (a.forceDom k v).mgmt = a.mgmt := rfl
@[simp] theorem Alesh.forceDom_pm (a : Alesh) (k : Nat) (v : Bytes) : (a.forceDom k v).pm = a.pm := rfl
@[simp] theorem Alesh.forceDom_errs (a : Alesh) (k : Nat) (v : Bytes) : (a.forceDom k v).errs = a.errs := rfl
@[simp] theorem Alesh.forceDom_memb (a : Alesh) (k : Nat) (v : Bytes) : (a.forceDom k v).memb = a.memb := rfl
@[simp] theorem Alesh.forceDom_leases (a : Alesh) (k : Nat) (v : Bytes) : (a.forceDom k v).leases = a.leases := rfl
@[simp] theorem Alesh.forceDom_take (a : Alesh) (k : Nat) (v : Bytes) : (a.forceDom k v).take = a.take := rfl
@[simp] theorem Alesh.forceDom_plate (a : Alesh) (k : Nat) (v : Bytes) : (a.forceDom k v).plate = a.plate := rfl
@[simp] theorem Alesh.forceDom_fabric (a : Alesh) (k : Nat) (v : Bytes) : (a.forceDom k v).fabric = a.fabric := rfl
@[simp] theorem Alesh.forceDom_merid (a : Alesh) (k : Nat) (v : Bytes) : (a.forceDom k v).merid = a.merid := rfl
@[simp] theorem Alesh.forceDom_comm (a : Alesh) (k : Nat) (v : Bytes) : (a.forceDom k v).comm = a.comm := rfl
@[simp] theorem Alesh.forceDom_work (a : Alesh) (k : Nat) (v : Bytes) : (a.forceDom k v).work = a.work := rfl
@[simp] theorem Alesh.forceDom_chrono (a : Alesh) (k : Nat) (v : Bytes) : (a.forceDom k v).chrono = a.chrono := rfl
@[simp] theorem Alesh.forceDom_health (a : Alesh) (k : Nat) (v : Bytes) : (a.forceDom k v).health = a.health := rfl
@[simp] theorem Alesh.forceDom_cep (a : Alesh) (k : Nat) (v : Bytes) : (a.forceDom k v).cep = a.cep := rfl
@[simp] theorem Alesh.forceDom_test (a : Alesh) (k : Nat) (v : Bytes) : (a.forceDom k v).test = a.test := rfl
@[simp] theorem Alesh.forceDom_mem0 (a : Alesh) (k : Nat) (v : Bytes) : (a.forceDom k v).mem0 = a.mem0 := rfl
@[simp] theorem Alesh.forceDom_mem1 (a : Alesh) (k : Nat) (v : Bytes) : (a.forceDom k v).mem1 = a.mem1 := rfl
@[simp] theorem Alesh.countN_ctl (a : Alesh) (k : Nat) (n : Nat) : (a.countN k n).ctl = a.ctl := rfl
@[simp] theorem Alesh.countN_win (a : Alesh) (k : Nat) (n : Nat) : (a.countN k n).win = a.win := rfl
@[simp] theorem Alesh.countN_staged (a : Alesh) (k : Nat) (n : Nat) : (a.countN k n).staged = a.staged := rfl
@[simp] theorem Alesh.countN_evts (a : Alesh) (k : Nat) (n : Nat) : (a.countN k n).evts = a.evts := rfl
@[simp] theorem Alesh.countN_clock (a : Alesh) (k : Nat) (n : Nat) : (a.countN k n).clock = a.clock := rfl
@[simp] theorem Alesh.countN_slots (a : Alesh) (k : Nat) (n : Nat) : (a.countN k n).slots = a.slots := rfl
@[simp] theorem Alesh.countN_progs (a : Alesh) (k : Nat) (n : Nat) : (a.countN k n).progs = a.progs := rfl
@[simp] theorem Alesh.countN_red (a : Alesh) (k : Nat) (n : Nat) : (a.countN k n).red = a.red := rfl
@[simp] theorem Alesh.countN_pub (a : Alesh) (k : Nat) (n : Nat) : (a.countN k n).pub = a.pub := rfl
@[simp] theorem Alesh.countN_coding (a : Alesh) (k : Nat) (n : Nat) : (a.countN k n).coding = a.coding := rfl
@[simp] theorem Alesh.countN_ports (a : Alesh) (k : Nat) (n : Nat) : (a.countN k n).ports = a.ports := rfl
@[simp] theorem Alesh.countN_mgmt (a : Alesh) (k : Nat) (n : Nat) : (a.countN k n).mgmt = a.mgmt := rfl
@[simp] theorem Alesh.countN_pm (a : Alesh) (k : Nat) (n : Nat) : (a.countN k n).pm = a.pm := rfl
@[simp] theorem Alesh.countN_errs (a : Alesh) (k : Nat) (n : Nat) : (a.countN k n).errs = a.errs := rfl
@[simp] theorem Alesh.countN_memb (a : Alesh) (k : Nat) (n : Nat) : (a.countN k n).memb = a.memb := rfl
@[simp] theorem Alesh.countN_leases (a : Alesh) (k : Nat) (n : Nat) : (a.countN k n).leases = a.leases := rfl
@[simp] theorem Alesh.countN_take (a : Alesh) (k : Nat) (n : Nat) : (a.countN k n).take = a.take := rfl
@[simp] theorem Alesh.countN_plate (a : Alesh) (k : Nat) (n : Nat) : (a.countN k n).plate = a.plate := rfl
@[simp] theorem Alesh.countN_fabric (a : Alesh) (k : Nat) (n : Nat) : (a.countN k n).fabric = a.fabric := rfl
@[simp] theorem Alesh.countN_merid (a : Alesh) (k : Nat) (n : Nat) : (a.countN k n).merid = a.merid := rfl
@[simp] theorem Alesh.countN_comm (a : Alesh) (k : Nat) (n : Nat) : (a.countN k n).comm = a.comm := rfl
@[simp] theorem Alesh.countN_work (a : Alesh) (k : Nat) (n : Nat) : (a.countN k n).work = a.work := rfl
@[simp] theorem Alesh.countN_chrono (a : Alesh) (k : Nat) (n : Nat) : (a.countN k n).chrono = a.chrono := rfl
@[simp] theorem Alesh.countN_health (a : Alesh) (k : Nat) (n : Nat) : (a.countN k n).health = a.health := rfl
@[simp] theorem Alesh.countN_cep (a : Alesh) (k : Nat) (n : Nat) : (a.countN k n).cep = a.cep := rfl
@[simp] theorem Alesh.countN_test (a : Alesh) (k : Nat) (n : Nat) : (a.countN k n).test = a.test := rfl
@[simp] theorem Alesh.countN_mem0 (a : Alesh) (k : Nat) (n : Nat) : (a.countN k n).mem0 = a.mem0 := rfl
@[simp] theorem Alesh.countN_mem1 (a : Alesh) (k : Nat) (n : Nat) : (a.countN k n).mem1 = a.mem1 := rfl
@[simp] theorem Alesh.count_ctl (a : Alesh) (k : Nat) : (a.count k).ctl = a.ctl := rfl
@[simp] theorem Alesh.count_win (a : Alesh) (k : Nat) : (a.count k).win = a.win := rfl
@[simp] theorem Alesh.count_staged (a : Alesh) (k : Nat) : (a.count k).staged = a.staged := rfl
@[simp] theorem Alesh.count_evts (a : Alesh) (k : Nat) : (a.count k).evts = a.evts := rfl
@[simp] theorem Alesh.count_clock (a : Alesh) (k : Nat) : (a.count k).clock = a.clock := rfl
@[simp] theorem Alesh.count_slots (a : Alesh) (k : Nat) : (a.count k).slots = a.slots := rfl
@[simp] theorem Alesh.count_progs (a : Alesh) (k : Nat) : (a.count k).progs = a.progs := rfl
@[simp] theorem Alesh.count_red (a : Alesh) (k : Nat) : (a.count k).red = a.red := rfl
@[simp] theorem Alesh.count_pub (a : Alesh) (k : Nat) : (a.count k).pub = a.pub := rfl
@[simp] theorem Alesh.count_coding (a : Alesh) (k : Nat) : (a.count k).coding = a.coding := rfl
@[simp] theorem Alesh.count_ports (a : Alesh) (k : Nat) : (a.count k).ports = a.ports := rfl
@[simp] theorem Alesh.count_mgmt (a : Alesh) (k : Nat) : (a.count k).mgmt = a.mgmt := rfl
@[simp] theorem Alesh.count_pm (a : Alesh) (k : Nat) : (a.count k).pm = a.pm := rfl
@[simp] theorem Alesh.count_errs (a : Alesh) (k : Nat) : (a.count k).errs = a.errs := rfl
@[simp] theorem Alesh.count_memb (a : Alesh) (k : Nat) : (a.count k).memb = a.memb := rfl
@[simp] theorem Alesh.count_leases (a : Alesh) (k : Nat) : (a.count k).leases = a.leases := rfl
@[simp] theorem Alesh.count_take (a : Alesh) (k : Nat) : (a.count k).take = a.take := rfl
@[simp] theorem Alesh.count_plate (a : Alesh) (k : Nat) : (a.count k).plate = a.plate := rfl
@[simp] theorem Alesh.count_fabric (a : Alesh) (k : Nat) : (a.count k).fabric = a.fabric := rfl
@[simp] theorem Alesh.count_merid (a : Alesh) (k : Nat) : (a.count k).merid = a.merid := rfl
@[simp] theorem Alesh.count_comm (a : Alesh) (k : Nat) : (a.count k).comm = a.comm := rfl
@[simp] theorem Alesh.count_work (a : Alesh) (k : Nat) : (a.count k).work = a.work := rfl
@[simp] theorem Alesh.count_chrono (a : Alesh) (k : Nat) : (a.count k).chrono = a.chrono := rfl
@[simp] theorem Alesh.count_health (a : Alesh) (k : Nat) : (a.count k).health = a.health := rfl
@[simp] theorem Alesh.count_cep (a : Alesh) (k : Nat) : (a.count k).cep = a.cep := rfl
@[simp] theorem Alesh.count_test (a : Alesh) (k : Nat) : (a.count k).test = a.test := rfl
@[simp] theorem Alesh.count_mem0 (a : Alesh) (k : Nat) : (a.count k).mem0 = a.mem0 := rfl
@[simp] theorem Alesh.count_mem1 (a : Alesh) (k : Nat) : (a.count k).mem1 = a.mem1 := rfl
@[simp] theorem Alesh.wrapN_ctl (a : Alesh) (k : Nat) (n : Nat) : (a.wrapN k n).ctl = a.ctl := rfl
@[simp] theorem Alesh.wrapN_win (a : Alesh) (k : Nat) (n : Nat) : (a.wrapN k n).win = a.win := rfl
@[simp] theorem Alesh.wrapN_staged (a : Alesh) (k : Nat) (n : Nat) : (a.wrapN k n).staged = a.staged := rfl
@[simp] theorem Alesh.wrapN_evts (a : Alesh) (k : Nat) (n : Nat) : (a.wrapN k n).evts = a.evts := rfl
@[simp] theorem Alesh.wrapN_clock (a : Alesh) (k : Nat) (n : Nat) : (a.wrapN k n).clock = a.clock := rfl
@[simp] theorem Alesh.wrapN_slots (a : Alesh) (k : Nat) (n : Nat) : (a.wrapN k n).slots = a.slots := rfl
@[simp] theorem Alesh.wrapN_progs (a : Alesh) (k : Nat) (n : Nat) : (a.wrapN k n).progs = a.progs := rfl
@[simp] theorem Alesh.wrapN_red (a : Alesh) (k : Nat) (n : Nat) : (a.wrapN k n).red = a.red := rfl
@[simp] theorem Alesh.wrapN_pub (a : Alesh) (k : Nat) (n : Nat) : (a.wrapN k n).pub = a.pub := rfl
@[simp] theorem Alesh.wrapN_coding (a : Alesh) (k : Nat) (n : Nat) : (a.wrapN k n).coding = a.coding := rfl
@[simp] theorem Alesh.wrapN_ports (a : Alesh) (k : Nat) (n : Nat) : (a.wrapN k n).ports = a.ports := rfl
@[simp] theorem Alesh.wrapN_mgmt (a : Alesh) (k : Nat) (n : Nat) : (a.wrapN k n).mgmt = a.mgmt := rfl
@[simp] theorem Alesh.wrapN_pm (a : Alesh) (k : Nat) (n : Nat) : (a.wrapN k n).pm = a.pm := rfl
@[simp] theorem Alesh.wrapN_errs (a : Alesh) (k : Nat) (n : Nat) : (a.wrapN k n).errs = a.errs := rfl
@[simp] theorem Alesh.wrapN_memb (a : Alesh) (k : Nat) (n : Nat) : (a.wrapN k n).memb = a.memb := rfl
@[simp] theorem Alesh.wrapN_leases (a : Alesh) (k : Nat) (n : Nat) : (a.wrapN k n).leases = a.leases := rfl
@[simp] theorem Alesh.wrapN_take (a : Alesh) (k : Nat) (n : Nat) : (a.wrapN k n).take = a.take := rfl
@[simp] theorem Alesh.wrapN_plate (a : Alesh) (k : Nat) (n : Nat) : (a.wrapN k n).plate = a.plate := rfl
@[simp] theorem Alesh.wrapN_fabric (a : Alesh) (k : Nat) (n : Nat) : (a.wrapN k n).fabric = a.fabric := rfl
@[simp] theorem Alesh.wrapN_merid (a : Alesh) (k : Nat) (n : Nat) : (a.wrapN k n).merid = a.merid := rfl
@[simp] theorem Alesh.wrapN_comm (a : Alesh) (k : Nat) (n : Nat) : (a.wrapN k n).comm = a.comm := rfl
@[simp] theorem Alesh.wrapN_work (a : Alesh) (k : Nat) (n : Nat) : (a.wrapN k n).work = a.work := rfl
@[simp] theorem Alesh.wrapN_chrono (a : Alesh) (k : Nat) (n : Nat) : (a.wrapN k n).chrono = a.chrono := rfl
@[simp] theorem Alesh.wrapN_health (a : Alesh) (k : Nat) (n : Nat) : (a.wrapN k n).health = a.health := rfl
@[simp] theorem Alesh.wrapN_cep (a : Alesh) (k : Nat) (n : Nat) : (a.wrapN k n).cep = a.cep := rfl
@[simp] theorem Alesh.wrapN_test (a : Alesh) (k : Nat) (n : Nat) : (a.wrapN k n).test = a.test := rfl
@[simp] theorem Alesh.wrapN_mem0 (a : Alesh) (k : Nat) (n : Nat) : (a.wrapN k n).mem0 = a.mem0 := rfl
@[simp] theorem Alesh.wrapN_mem1 (a : Alesh) (k : Nat) (n : Nat) : (a.wrapN k n).mem1 = a.mem1 := rfl
@[simp] theorem Alesh.wrap_ctl (a : Alesh) (k : Nat) : (a.wrap k).ctl = a.ctl := rfl
@[simp] theorem Alesh.wrap_win (a : Alesh) (k : Nat) : (a.wrap k).win = a.win := rfl
@[simp] theorem Alesh.wrap_staged (a : Alesh) (k : Nat) : (a.wrap k).staged = a.staged := rfl
@[simp] theorem Alesh.wrap_evts (a : Alesh) (k : Nat) : (a.wrap k).evts = a.evts := rfl
@[simp] theorem Alesh.wrap_clock (a : Alesh) (k : Nat) : (a.wrap k).clock = a.clock := rfl
@[simp] theorem Alesh.wrap_slots (a : Alesh) (k : Nat) : (a.wrap k).slots = a.slots := rfl
@[simp] theorem Alesh.wrap_progs (a : Alesh) (k : Nat) : (a.wrap k).progs = a.progs := rfl
@[simp] theorem Alesh.wrap_red (a : Alesh) (k : Nat) : (a.wrap k).red = a.red := rfl
@[simp] theorem Alesh.wrap_pub (a : Alesh) (k : Nat) : (a.wrap k).pub = a.pub := rfl
@[simp] theorem Alesh.wrap_coding (a : Alesh) (k : Nat) : (a.wrap k).coding = a.coding := rfl
@[simp] theorem Alesh.wrap_ports (a : Alesh) (k : Nat) : (a.wrap k).ports = a.ports := rfl
@[simp] theorem Alesh.wrap_mgmt (a : Alesh) (k : Nat) : (a.wrap k).mgmt = a.mgmt := rfl
@[simp] theorem Alesh.wrap_pm (a : Alesh) (k : Nat) : (a.wrap k).pm = a.pm := rfl
@[simp] theorem Alesh.wrap_errs (a : Alesh) (k : Nat) : (a.wrap k).errs = a.errs := rfl
@[simp] theorem Alesh.wrap_memb (a : Alesh) (k : Nat) : (a.wrap k).memb = a.memb := rfl
@[simp] theorem Alesh.wrap_leases (a : Alesh) (k : Nat) : (a.wrap k).leases = a.leases := rfl
@[simp] theorem Alesh.wrap_take (a : Alesh) (k : Nat) : (a.wrap k).take = a.take := rfl
@[simp] theorem Alesh.wrap_plate (a : Alesh) (k : Nat) : (a.wrap k).plate = a.plate := rfl
@[simp] theorem Alesh.wrap_fabric (a : Alesh) (k : Nat) : (a.wrap k).fabric = a.fabric := rfl
@[simp] theorem Alesh.wrap_merid (a : Alesh) (k : Nat) : (a.wrap k).merid = a.merid := rfl
@[simp] theorem Alesh.wrap_comm (a : Alesh) (k : Nat) : (a.wrap k).comm = a.comm := rfl
@[simp] theorem Alesh.wrap_work (a : Alesh) (k : Nat) : (a.wrap k).work = a.work := rfl
@[simp] theorem Alesh.wrap_chrono (a : Alesh) (k : Nat) : (a.wrap k).chrono = a.chrono := rfl
@[simp] theorem Alesh.wrap_health (a : Alesh) (k : Nat) : (a.wrap k).health = a.health := rfl
@[simp] theorem Alesh.wrap_cep (a : Alesh) (k : Nat) : (a.wrap k).cep = a.cep := rfl
@[simp] theorem Alesh.wrap_test (a : Alesh) (k : Nat) : (a.wrap k).test = a.test := rfl
@[simp] theorem Alesh.wrap_mem0 (a : Alesh) (k : Nat) : (a.wrap k).mem0 = a.mem0 := rfl
@[simp] theorem Alesh.wrap_mem1 (a : Alesh) (k : Nat) : (a.wrap k).mem1 = a.mem1 := rfl
@[simp] theorem Alesh.clearFlags_ctl (a : Alesh) (k : Nat) (v : Nat) : (a.clearFlags k v).ctl = a.ctl := rfl
@[simp] theorem Alesh.clearFlags_win (a : Alesh) (k : Nat) (v : Nat) : (a.clearFlags k v).win = a.win := rfl
@[simp] theorem Alesh.clearFlags_staged (a : Alesh) (k : Nat) (v : Nat) : (a.clearFlags k v).staged = a.staged := rfl
@[simp] theorem Alesh.clearFlags_evts (a : Alesh) (k : Nat) (v : Nat) : (a.clearFlags k v).evts = a.evts := rfl
@[simp] theorem Alesh.clearFlags_clock (a : Alesh) (k : Nat) (v : Nat) : (a.clearFlags k v).clock = a.clock := rfl
@[simp] theorem Alesh.clearFlags_slots (a : Alesh) (k : Nat) (v : Nat) : (a.clearFlags k v).slots = a.slots := rfl
@[simp] theorem Alesh.clearFlags_progs (a : Alesh) (k : Nat) (v : Nat) : (a.clearFlags k v).progs = a.progs := rfl
@[simp] theorem Alesh.clearFlags_red (a : Alesh) (k : Nat) (v : Nat) : (a.clearFlags k v).red = a.red := rfl
@[simp] theorem Alesh.clearFlags_pub (a : Alesh) (k : Nat) (v : Nat) : (a.clearFlags k v).pub = a.pub := rfl
@[simp] theorem Alesh.clearFlags_coding (a : Alesh) (k : Nat) (v : Nat) : (a.clearFlags k v).coding = a.coding := rfl
@[simp] theorem Alesh.clearFlags_ports (a : Alesh) (k : Nat) (v : Nat) : (a.clearFlags k v).ports = a.ports := rfl
@[simp] theorem Alesh.clearFlags_mgmt (a : Alesh) (k : Nat) (v : Nat) : (a.clearFlags k v).mgmt = a.mgmt := rfl
@[simp] theorem Alesh.clearFlags_pm (a : Alesh) (k : Nat) (v : Nat) : (a.clearFlags k v).pm = a.pm := rfl
@[simp] theorem Alesh.clearFlags_errs (a : Alesh) (k : Nat) (v : Nat) : (a.clearFlags k v).errs = a.errs := rfl
@[simp] theorem Alesh.clearFlags_memb (a : Alesh) (k : Nat) (v : Nat) : (a.clearFlags k v).memb = a.memb := rfl
@[simp] theorem Alesh.clearFlags_leases (a : Alesh) (k : Nat) (v : Nat) : (a.clearFlags k v).leases = a.leases := rfl
@[simp] theorem Alesh.clearFlags_take (a : Alesh) (k : Nat) (v : Nat) : (a.clearFlags k v).take = a.take := rfl
@[simp] theorem Alesh.clearFlags_plate (a : Alesh) (k : Nat) (v : Nat) : (a.clearFlags k v).plate = a.plate := rfl
@[simp] theorem Alesh.clearFlags_fabric (a : Alesh) (k : Nat) (v : Nat) : (a.clearFlags k v).fabric = a.fabric := rfl
@[simp] theorem Alesh.clearFlags_merid (a : Alesh) (k : Nat) (v : Nat) : (a.clearFlags k v).merid = a.merid := rfl
@[simp] theorem Alesh.clearFlags_comm (a : Alesh) (k : Nat) (v : Nat) : (a.clearFlags k v).comm = a.comm := rfl
@[simp] theorem Alesh.clearFlags_work (a : Alesh) (k : Nat) (v : Nat) : (a.clearFlags k v).work = a.work := rfl
@[simp] theorem Alesh.clearFlags_chrono (a : Alesh) (k : Nat) (v : Nat) : (a.clearFlags k v).chrono = a.chrono := rfl
@[simp] theorem Alesh.clearFlags_health (a : Alesh) (k : Nat) (v : Nat) : (a.clearFlags k v).health = a.health := rfl
@[simp] theorem Alesh.clearFlags_cep (a : Alesh) (k : Nat) (v : Nat) : (a.clearFlags k v).cep = a.cep := rfl
@[simp] theorem Alesh.clearFlags_test (a : Alesh) (k : Nat) (v : Nat) : (a.clearFlags k v).test = a.test := rfl
@[simp] theorem Alesh.clearFlags_mem0 (a : Alesh) (k : Nat) (v : Nat) : (a.clearFlags k v).mem0 = a.mem0 := rfl
@[simp] theorem Alesh.clearFlags_mem1 (a : Alesh) (k : Nat) (v : Nat) : (a.clearFlags k v).mem1 = a.mem1 := rfl
@[simp] theorem Alesh.raise_ctl (a : Alesh) (b : Nat) : (a.raise b).ctl = a.ctl := rfl
@[simp] theorem Alesh.raise_dict (a : Alesh) (b : Nat) : (a.raise b).dict = a.dict := rfl
@[simp] theorem Alesh.raise_win (a : Alesh) (b : Nat) : (a.raise b).win = a.win := rfl
@[simp] theorem Alesh.raise_staged (a : Alesh) (b : Nat) : (a.raise b).staged = a.staged := rfl
@[simp] theorem Alesh.raise_clock (a : Alesh) (b : Nat) : (a.raise b).clock = a.clock := rfl
@[simp] theorem Alesh.raise_slots (a : Alesh) (b : Nat) : (a.raise b).slots = a.slots := rfl
@[simp] theorem Alesh.raise_progs (a : Alesh) (b : Nat) : (a.raise b).progs = a.progs := rfl
@[simp] theorem Alesh.raise_red (a : Alesh) (b : Nat) : (a.raise b).red = a.red := rfl
@[simp] theorem Alesh.raise_pub (a : Alesh) (b : Nat) : (a.raise b).pub = a.pub := rfl
@[simp] theorem Alesh.raise_coding (a : Alesh) (b : Nat) : (a.raise b).coding = a.coding := rfl
@[simp] theorem Alesh.raise_ports (a : Alesh) (b : Nat) : (a.raise b).ports = a.ports := rfl
@[simp] theorem Alesh.raise_mgmt (a : Alesh) (b : Nat) : (a.raise b).mgmt = a.mgmt := rfl
@[simp] theorem Alesh.raise_pm (a : Alesh) (b : Nat) : (a.raise b).pm = a.pm := rfl
@[simp] theorem Alesh.raise_errs (a : Alesh) (b : Nat) : (a.raise b).errs = a.errs := rfl
@[simp] theorem Alesh.raise_memb (a : Alesh) (b : Nat) : (a.raise b).memb = a.memb := rfl
@[simp] theorem Alesh.raise_leases (a : Alesh) (b : Nat) : (a.raise b).leases = a.leases := rfl
@[simp] theorem Alesh.raise_take (a : Alesh) (b : Nat) : (a.raise b).take = a.take := rfl
@[simp] theorem Alesh.raise_plate (a : Alesh) (b : Nat) : (a.raise b).plate = a.plate := rfl
@[simp] theorem Alesh.raise_fabric (a : Alesh) (b : Nat) : (a.raise b).fabric = a.fabric := rfl
@[simp] theorem Alesh.raise_merid (a : Alesh) (b : Nat) : (a.raise b).merid = a.merid := rfl
@[simp] theorem Alesh.raise_comm (a : Alesh) (b : Nat) : (a.raise b).comm = a.comm := rfl
@[simp] theorem Alesh.raise_work (a : Alesh) (b : Nat) : (a.raise b).work = a.work := rfl
@[simp] theorem Alesh.raise_chrono (a : Alesh) (b : Nat) : (a.raise b).chrono = a.chrono := rfl
@[simp] theorem Alesh.raise_health (a : Alesh) (b : Nat) : (a.raise b).health = a.health := rfl
@[simp] theorem Alesh.raise_cep (a : Alesh) (b : Nat) : (a.raise b).cep = a.cep := rfl
@[simp] theorem Alesh.raise_test (a : Alesh) (b : Nat) : (a.raise b).test = a.test := rfl
@[simp] theorem Alesh.raise_mem0 (a : Alesh) (b : Nat) : (a.raise b).mem0 = a.mem0 := rfl
@[simp] theorem Alesh.raise_mem1 (a : Alesh) (b : Nat) : (a.raise b).mem1 = a.mem1 := rfl
@[simp] theorem Alesh.raiseFault_ctl (a : Alesh) : (a.raiseFault).ctl = a.ctl := rfl
@[simp] theorem Alesh.raiseFault_dict (a : Alesh) : (a.raiseFault).dict = a.dict := rfl
@[simp] theorem Alesh.raiseFault_win (a : Alesh) : (a.raiseFault).win = a.win := rfl
@[simp] theorem Alesh.raiseFault_staged (a : Alesh) : (a.raiseFault).staged = a.staged := rfl
@[simp] theorem Alesh.raiseFault_clock (a : Alesh) : (a.raiseFault).clock = a.clock := rfl
@[simp] theorem Alesh.raiseFault_slots (a : Alesh) : (a.raiseFault).slots = a.slots := rfl
@[simp] theorem Alesh.raiseFault_progs (a : Alesh) : (a.raiseFault).progs = a.progs := rfl
@[simp] theorem Alesh.raiseFault_red (a : Alesh) : (a.raiseFault).red = a.red := rfl
@[simp] theorem Alesh.raiseFault_pub (a : Alesh) : (a.raiseFault).pub = a.pub := rfl
@[simp] theorem Alesh.raiseFault_coding (a : Alesh) : (a.raiseFault).coding = a.coding := rfl
@[simp] theorem Alesh.raiseFault_ports (a : Alesh) : (a.raiseFault).ports = a.ports := rfl
@[simp] theorem Alesh.raiseFault_mgmt (a : Alesh) : (a.raiseFault).mgmt = a.mgmt := rfl
@[simp] theorem Alesh.raiseFault_pm (a : Alesh) : (a.raiseFault).pm = a.pm := rfl
@[simp] theorem Alesh.raiseFault_errs (a : Alesh) : (a.raiseFault).errs = a.errs := rfl
@[simp] theorem Alesh.raiseFault_memb (a : Alesh) : (a.raiseFault).memb = a.memb := rfl
@[simp] theorem Alesh.raiseFault_leases (a : Alesh) : (a.raiseFault).leases = a.leases := rfl
@[simp] theorem Alesh.raiseFault_take (a : Alesh) : (a.raiseFault).take = a.take := rfl
@[simp] theorem Alesh.raiseFault_plate (a : Alesh) : (a.raiseFault).plate = a.plate := rfl
@[simp] theorem Alesh.raiseFault_fabric (a : Alesh) : (a.raiseFault).fabric = a.fabric := rfl
@[simp] theorem Alesh.raiseFault_merid (a : Alesh) : (a.raiseFault).merid = a.merid := rfl
@[simp] theorem Alesh.raiseFault_comm (a : Alesh) : (a.raiseFault).comm = a.comm := rfl
@[simp] theorem Alesh.raiseFault_work (a : Alesh) : (a.raiseFault).work = a.work := rfl
@[simp] theorem Alesh.raiseFault_chrono (a : Alesh) : (a.raiseFault).chrono = a.chrono := rfl
@[simp] theorem Alesh.raiseFault_health (a : Alesh) : (a.raiseFault).health = a.health := rfl
@[simp] theorem Alesh.raiseFault_cep (a : Alesh) : (a.raiseFault).cep = a.cep := rfl
@[simp] theorem Alesh.raiseFault_test (a : Alesh) : (a.raiseFault).test = a.test := rfl
@[simp] theorem Alesh.raiseFault_mem0 (a : Alesh) : (a.raiseFault).mem0 = a.mem0 := rfl
@[simp] theorem Alesh.raiseFault_mem1 (a : Alesh) : (a.raiseFault).mem1 = a.mem1 := rfl
@[simp] theorem Alesh.raiseAttention_ctl (a : Alesh) : (a.raiseAttention).ctl = a.ctl := rfl
@[simp] theorem Alesh.raiseAttention_dict (a : Alesh) : (a.raiseAttention).dict = a.dict := rfl
@[simp] theorem Alesh.raiseAttention_win (a : Alesh) : (a.raiseAttention).win = a.win := rfl
@[simp] theorem Alesh.raiseAttention_staged (a : Alesh) : (a.raiseAttention).staged = a.staged := rfl
@[simp] theorem Alesh.raiseAttention_clock (a : Alesh) : (a.raiseAttention).clock = a.clock := rfl
@[simp] theorem Alesh.raiseAttention_slots (a : Alesh) : (a.raiseAttention).slots = a.slots := rfl
@[simp] theorem Alesh.raiseAttention_progs (a : Alesh) : (a.raiseAttention).progs = a.progs := rfl
@[simp] theorem Alesh.raiseAttention_red (a : Alesh) : (a.raiseAttention).red = a.red := rfl
@[simp] theorem Alesh.raiseAttention_pub (a : Alesh) : (a.raiseAttention).pub = a.pub := rfl
@[simp] theorem Alesh.raiseAttention_coding (a : Alesh) : (a.raiseAttention).coding = a.coding := rfl
@[simp] theorem Alesh.raiseAttention_ports (a : Alesh) : (a.raiseAttention).ports = a.ports := rfl
@[simp] theorem Alesh.raiseAttention_mgmt (a : Alesh) : (a.raiseAttention).mgmt = a.mgmt := rfl
@[simp] theorem Alesh.raiseAttention_pm (a : Alesh) : (a.raiseAttention).pm = a.pm := rfl
@[simp] theorem Alesh.raiseAttention_errs (a : Alesh) : (a.raiseAttention).errs = a.errs := rfl
@[simp] theorem Alesh.raiseAttention_memb (a : Alesh) : (a.raiseAttention).memb = a.memb := rfl
@[simp] theorem Alesh.raiseAttention_leases (a : Alesh) : (a.raiseAttention).leases = a.leases := rfl
@[simp] theorem Alesh.raiseAttention_take (a : Alesh) : (a.raiseAttention).take = a.take := rfl
@[simp] theorem Alesh.raiseAttention_plate (a : Alesh) : (a.raiseAttention).plate = a.plate := rfl
@[simp] theorem Alesh.raiseAttention_fabric (a : Alesh) : (a.raiseAttention).fabric = a.fabric := rfl
@[simp] theorem Alesh.raiseAttention_merid (a : Alesh) : (a.raiseAttention).merid = a.merid := rfl
@[simp] theorem Alesh.raiseAttention_comm (a : Alesh) : (a.raiseAttention).comm = a.comm := rfl
@[simp] theorem Alesh.raiseAttention_work (a : Alesh) : (a.raiseAttention).work = a.work := rfl
@[simp] theorem Alesh.raiseAttention_chrono (a : Alesh) : (a.raiseAttention).chrono = a.chrono := rfl
@[simp] theorem Alesh.raiseAttention_health (a : Alesh) : (a.raiseAttention).health = a.health := rfl
@[simp] theorem Alesh.raiseAttention_cep (a : Alesh) : (a.raiseAttention).cep = a.cep := rfl
@[simp] theorem Alesh.raiseAttention_test (a : Alesh) : (a.raiseAttention).test = a.test := rfl
@[simp] theorem Alesh.raiseAttention_mem0 (a : Alesh) : (a.raiseAttention).mem0 = a.mem0 := rfl
@[simp] theorem Alesh.raiseAttention_mem1 (a : Alesh) : (a.raiseAttention).mem1 = a.mem1 := rfl
@[simp] theorem Alesh.toggleMeridian_ctl (a : Alesh) : (a.toggleMeridian).ctl = a.ctl := rfl
@[simp] theorem Alesh.toggleMeridian_dict (a : Alesh) : (a.toggleMeridian).dict = a.dict := rfl
@[simp] theorem Alesh.toggleMeridian_win (a : Alesh) : (a.toggleMeridian).win = a.win := rfl
@[simp] theorem Alesh.toggleMeridian_staged (a : Alesh) : (a.toggleMeridian).staged = a.staged := rfl
@[simp] theorem Alesh.toggleMeridian_clock (a : Alesh) : (a.toggleMeridian).clock = a.clock := rfl
@[simp] theorem Alesh.toggleMeridian_slots (a : Alesh) : (a.toggleMeridian).slots = a.slots := rfl
@[simp] theorem Alesh.toggleMeridian_progs (a : Alesh) : (a.toggleMeridian).progs = a.progs := rfl
@[simp] theorem Alesh.toggleMeridian_red (a : Alesh) : (a.toggleMeridian).red = a.red := rfl
@[simp] theorem Alesh.toggleMeridian_pub (a : Alesh) : (a.toggleMeridian).pub = a.pub := rfl
@[simp] theorem Alesh.toggleMeridian_coding (a : Alesh) : (a.toggleMeridian).coding = a.coding := rfl
@[simp] theorem Alesh.toggleMeridian_ports (a : Alesh) : (a.toggleMeridian).ports = a.ports := rfl
@[simp] theorem Alesh.toggleMeridian_mgmt (a : Alesh) : (a.toggleMeridian).mgmt = a.mgmt := rfl
@[simp] theorem Alesh.toggleMeridian_pm (a : Alesh) : (a.toggleMeridian).pm = a.pm := rfl
@[simp] theorem Alesh.toggleMeridian_errs (a : Alesh) : (a.toggleMeridian).errs = a.errs := rfl
@[simp] theorem Alesh.toggleMeridian_memb (a : Alesh) : (a.toggleMeridian).memb = a.memb := rfl
@[simp] theorem Alesh.toggleMeridian_leases (a : Alesh) : (a.toggleMeridian).leases = a.leases := rfl
@[simp] theorem Alesh.toggleMeridian_take (a : Alesh) : (a.toggleMeridian).take = a.take := rfl
@[simp] theorem Alesh.toggleMeridian_plate (a : Alesh) : (a.toggleMeridian).plate = a.plate := rfl
@[simp] theorem Alesh.toggleMeridian_fabric (a : Alesh) : (a.toggleMeridian).fabric = a.fabric := rfl
@[simp] theorem Alesh.toggleMeridian_merid (a : Alesh) : (a.toggleMeridian).merid = a.merid := rfl
@[simp] theorem Alesh.toggleMeridian_comm (a : Alesh) : (a.toggleMeridian).comm = a.comm := rfl
@[simp] theorem Alesh.toggleMeridian_work (a : Alesh) : (a.toggleMeridian).work = a.work := rfl
@[simp] theorem Alesh.toggleMeridian_chrono (a : Alesh) : (a.toggleMeridian).chrono = a.chrono := rfl
@[simp] theorem Alesh.toggleMeridian_health (a : Alesh) : (a.toggleMeridian).health = a.health := rfl
@[simp] theorem Alesh.toggleMeridian_cep (a : Alesh) : (a.toggleMeridian).cep = a.cep := rfl
@[simp] theorem Alesh.toggleMeridian_test (a : Alesh) : (a.toggleMeridian).test = a.test := rfl
@[simp] theorem Alesh.toggleMeridian_mem0 (a : Alesh) : (a.toggleMeridian).mem0 = a.mem0 := rfl
@[simp] theorem Alesh.toggleMeridian_mem1 (a : Alesh) : (a.toggleMeridian).mem1 = a.mem1 := rfl
@[simp] theorem Alesh.flag_ctl (a : Alesh) (k : Nat) (b : Nat) : (a.flag k b).ctl = a.ctl := rfl
@[simp] theorem Alesh.flag_win (a : Alesh) (k : Nat) (b : Nat) : (a.flag k b).win = a.win := rfl
@[simp] theorem Alesh.flag_staged (a : Alesh) (k : Nat) (b : Nat) : (a.flag k b).staged = a.staged := rfl
@[simp] theorem Alesh.flag_clock (a : Alesh) (k : Nat) (b : Nat) : (a.flag k b).clock = a.clock := rfl
@[simp] theorem Alesh.flag_slots (a : Alesh) (k : Nat) (b : Nat) : (a.flag k b).slots = a.slots := rfl
@[simp] theorem Alesh.flag_progs (a : Alesh) (k : Nat) (b : Nat) : (a.flag k b).progs = a.progs := rfl
@[simp] theorem Alesh.flag_red (a : Alesh) (k : Nat) (b : Nat) : (a.flag k b).red = a.red := rfl
@[simp] theorem Alesh.flag_pub (a : Alesh) (k : Nat) (b : Nat) : (a.flag k b).pub = a.pub := rfl
@[simp] theorem Alesh.flag_coding (a : Alesh) (k : Nat) (b : Nat) : (a.flag k b).coding = a.coding := rfl
@[simp] theorem Alesh.flag_ports (a : Alesh) (k : Nat) (b : Nat) : (a.flag k b).ports = a.ports := rfl
@[simp] theorem Alesh.flag_mgmt (a : Alesh) (k : Nat) (b : Nat) : (a.flag k b).mgmt = a.mgmt := rfl
@[simp] theorem Alesh.flag_pm (a : Alesh) (k : Nat) (b : Nat) : (a.flag k b).pm = a.pm := rfl
@[simp] theorem Alesh.flag_errs (a : Alesh) (k : Nat) (b : Nat) : (a.flag k b).errs = a.errs := rfl
@[simp] theorem Alesh.flag_memb (a : Alesh) (k : Nat) (b : Nat) : (a.flag k b).memb = a.memb := rfl
@[simp] theorem Alesh.flag_leases (a : Alesh) (k : Nat) (b : Nat) : (a.flag k b).leases = a.leases := rfl
@[simp] theorem Alesh.flag_take (a : Alesh) (k : Nat) (b : Nat) : (a.flag k b).take = a.take := rfl
@[simp] theorem Alesh.flag_plate (a : Alesh) (k : Nat) (b : Nat) : (a.flag k b).plate = a.plate := rfl
@[simp] theorem Alesh.flag_fabric (a : Alesh) (k : Nat) (b : Nat) : (a.flag k b).fabric = a.fabric := rfl
@[simp] theorem Alesh.flag_merid (a : Alesh) (k : Nat) (b : Nat) : (a.flag k b).merid = a.merid := rfl
@[simp] theorem Alesh.flag_comm (a : Alesh) (k : Nat) (b : Nat) : (a.flag k b).comm = a.comm := rfl
@[simp] theorem Alesh.flag_work (a : Alesh) (k : Nat) (b : Nat) : (a.flag k b).work = a.work := rfl
@[simp] theorem Alesh.flag_chrono (a : Alesh) (k : Nat) (b : Nat) : (a.flag k b).chrono = a.chrono := rfl
@[simp] theorem Alesh.flag_health (a : Alesh) (k : Nat) (b : Nat) : (a.flag k b).health = a.health := rfl
@[simp] theorem Alesh.flag_cep (a : Alesh) (k : Nat) (b : Nat) : (a.flag k b).cep = a.cep := rfl
@[simp] theorem Alesh.flag_test (a : Alesh) (k : Nat) (b : Nat) : (a.flag k b).test = a.test := rfl
@[simp] theorem Alesh.flag_mem0 (a : Alesh) (k : Nat) (b : Nat) : (a.flag k b).mem0 = a.mem0 := rfl
@[simp] theorem Alesh.flag_mem1 (a : Alesh) (k : Nat) (b : Nat) : (a.flag k b).mem1 = a.mem1 := rfl
@[simp] theorem Alesh.ctrl_ctl (a : Alesh) (b : Nat) : (a.ctrl b).ctl = a.ctl := rfl
@[simp] theorem Alesh.ctrl_win (a : Alesh) (b : Nat) : (a.ctrl b).win = a.win := rfl
@[simp] theorem Alesh.ctrl_staged (a : Alesh) (b : Nat) : (a.ctrl b).staged = a.staged := rfl
@[simp] theorem Alesh.ctrl_clock (a : Alesh) (b : Nat) : (a.ctrl b).clock = a.clock := rfl
@[simp] theorem Alesh.ctrl_slots (a : Alesh) (b : Nat) : (a.ctrl b).slots = a.slots := rfl
@[simp] theorem Alesh.ctrl_progs (a : Alesh) (b : Nat) : (a.ctrl b).progs = a.progs := rfl
@[simp] theorem Alesh.ctrl_red (a : Alesh) (b : Nat) : (a.ctrl b).red = a.red := rfl
@[simp] theorem Alesh.ctrl_pub (a : Alesh) (b : Nat) : (a.ctrl b).pub = a.pub := rfl
@[simp] theorem Alesh.ctrl_coding (a : Alesh) (b : Nat) : (a.ctrl b).coding = a.coding := rfl
@[simp] theorem Alesh.ctrl_ports (a : Alesh) (b : Nat) : (a.ctrl b).ports = a.ports := rfl
@[simp] theorem Alesh.ctrl_mgmt (a : Alesh) (b : Nat) : (a.ctrl b).mgmt = a.mgmt := rfl
@[simp] theorem Alesh.ctrl_pm (a : Alesh) (b : Nat) : (a.ctrl b).pm = a.pm := rfl
@[simp] theorem Alesh.ctrl_errs (a : Alesh) (b : Nat) : (a.ctrl b).errs = a.errs := rfl
@[simp] theorem Alesh.ctrl_memb (a : Alesh) (b : Nat) : (a.ctrl b).memb = a.memb := rfl
@[simp] theorem Alesh.ctrl_leases (a : Alesh) (b : Nat) : (a.ctrl b).leases = a.leases := rfl
@[simp] theorem Alesh.ctrl_take (a : Alesh) (b : Nat) : (a.ctrl b).take = a.take := rfl
@[simp] theorem Alesh.ctrl_plate (a : Alesh) (b : Nat) : (a.ctrl b).plate = a.plate := rfl
@[simp] theorem Alesh.ctrl_fabric (a : Alesh) (b : Nat) : (a.ctrl b).fabric = a.fabric := rfl
@[simp] theorem Alesh.ctrl_merid (a : Alesh) (b : Nat) : (a.ctrl b).merid = a.merid := rfl
@[simp] theorem Alesh.ctrl_comm (a : Alesh) (b : Nat) : (a.ctrl b).comm = a.comm := rfl
@[simp] theorem Alesh.ctrl_work (a : Alesh) (b : Nat) : (a.ctrl b).work = a.work := rfl
@[simp] theorem Alesh.ctrl_chrono (a : Alesh) (b : Nat) : (a.ctrl b).chrono = a.chrono := rfl
@[simp] theorem Alesh.ctrl_health (a : Alesh) (b : Nat) : (a.ctrl b).health = a.health := rfl
@[simp] theorem Alesh.ctrl_cep (a : Alesh) (b : Nat) : (a.ctrl b).cep = a.cep := rfl
@[simp] theorem Alesh.ctrl_test (a : Alesh) (b : Nat) : (a.ctrl b).test = a.test := rfl
@[simp] theorem Alesh.ctrl_mem0 (a : Alesh) (b : Nat) : (a.ctrl b).mem0 = a.mem0 := rfl
@[simp] theorem Alesh.ctrl_mem1 (a : Alesh) (b : Nat) : (a.ctrl b).mem1 = a.mem1 := rfl
@[simp] theorem Alesh.healthFlag_ctl (a : Alesh) (b : Nat) : (a.healthFlag b).ctl = a.ctl := rfl
@[simp] theorem Alesh.healthFlag_win (a : Alesh) (b : Nat) : (a.healthFlag b).win = a.win := rfl
@[simp] theorem Alesh.healthFlag_staged (a : Alesh) (b : Nat) : (a.healthFlag b).staged = a.staged := rfl
@[simp] theorem Alesh.healthFlag_clock (a : Alesh) (b : Nat) : (a.healthFlag b).clock = a.clock := rfl
@[simp] theorem Alesh.healthFlag_slots (a : Alesh) (b : Nat) : (a.healthFlag b).slots = a.slots := rfl
@[simp] theorem Alesh.healthFlag_progs (a : Alesh) (b : Nat) : (a.healthFlag b).progs = a.progs := rfl
@[simp] theorem Alesh.healthFlag_red (a : Alesh) (b : Nat) : (a.healthFlag b).red = a.red := rfl
@[simp] theorem Alesh.healthFlag_pub (a : Alesh) (b : Nat) : (a.healthFlag b).pub = a.pub := rfl
@[simp] theorem Alesh.healthFlag_coding (a : Alesh) (b : Nat) : (a.healthFlag b).coding = a.coding := rfl
@[simp] theorem Alesh.healthFlag_ports (a : Alesh) (b : Nat) : (a.healthFlag b).ports = a.ports := rfl
@[simp] theorem Alesh.healthFlag_mgmt (a : Alesh) (b : Nat) : (a.healthFlag b).mgmt = a.mgmt := rfl
@[simp] theorem Alesh.healthFlag_pm (a : Alesh) (b : Nat) : (a.healthFlag b).pm = a.pm := rfl
@[simp] theorem Alesh.healthFlag_errs (a : Alesh) (b : Nat) : (a.healthFlag b).errs = a.errs := rfl
@[simp] theorem Alesh.healthFlag_memb (a : Alesh) (b : Nat) : (a.healthFlag b).memb = a.memb := rfl
@[simp] theorem Alesh.healthFlag_leases (a : Alesh) (b : Nat) : (a.healthFlag b).leases = a.leases := rfl
@[simp] theorem Alesh.healthFlag_take (a : Alesh) (b : Nat) : (a.healthFlag b).take = a.take := rfl
@[simp] theorem Alesh.healthFlag_plate (a : Alesh) (b : Nat) : (a.healthFlag b).plate = a.plate := rfl
@[simp] theorem Alesh.healthFlag_fabric (a : Alesh) (b : Nat) : (a.healthFlag b).fabric = a.fabric := rfl
@[simp] theorem Alesh.healthFlag_merid (a : Alesh) (b : Nat) : (a.healthFlag b).merid = a.merid := rfl
@[simp] theorem Alesh.healthFlag_comm (a : Alesh) (b : Nat) : (a.healthFlag b).comm = a.comm := rfl
@[simp] theorem Alesh.healthFlag_work (a : Alesh) (b : Nat) : (a.healthFlag b).work = a.work := rfl
@[simp] theorem Alesh.healthFlag_chrono (a : Alesh) (b : Nat) : (a.healthFlag b).chrono = a.chrono := rfl
@[simp] theorem Alesh.healthFlag_health (a : Alesh) (b : Nat) : (a.healthFlag b).health = a.health := rfl
@[simp] theorem Alesh.healthFlag_cep (a : Alesh) (b : Nat) : (a.healthFlag b).cep = a.cep := rfl
@[simp] theorem Alesh.healthFlag_test (a : Alesh) (b : Nat) : (a.healthFlag b).test = a.test := rfl
@[simp] theorem Alesh.healthFlag_mem0 (a : Alesh) (b : Nat) : (a.healthFlag b).mem0 = a.mem0 := rfl
@[simp] theorem Alesh.healthFlag_mem1 (a : Alesh) (b : Nat) : (a.healthFlag b).mem1 = a.mem1 := rfl
@[simp] theorem Alesh.condition_ctl (a : Alesh) (b : Nat) : (a.condition b).ctl = a.ctl := rfl
@[simp] theorem Alesh.condition_dict (a : Alesh) (b : Nat) : (a.condition b).dict = a.dict := rfl
@[simp] theorem Alesh.condition_win (a : Alesh) (b : Nat) : (a.condition b).win = a.win := rfl
@[simp] theorem Alesh.condition_staged (a : Alesh) (b : Nat) : (a.condition b).staged = a.staged := rfl
@[simp] theorem Alesh.condition_evts (a : Alesh) (b : Nat) : (a.condition b).evts = a.evts := rfl
@[simp] theorem Alesh.condition_clock (a : Alesh) (b : Nat) : (a.condition b).clock = a.clock := rfl
@[simp] theorem Alesh.condition_slots (a : Alesh) (b : Nat) : (a.condition b).slots = a.slots := rfl
@[simp] theorem Alesh.condition_progs (a : Alesh) (b : Nat) : (a.condition b).progs = a.progs := rfl
@[simp] theorem Alesh.condition_red (a : Alesh) (b : Nat) : (a.condition b).red = a.red := rfl
@[simp] theorem Alesh.condition_pub (a : Alesh) (b : Nat) : (a.condition b).pub = a.pub := rfl
@[simp] theorem Alesh.condition_coding (a : Alesh) (b : Nat) : (a.condition b).coding = a.coding := rfl
@[simp] theorem Alesh.condition_ports (a : Alesh) (b : Nat) : (a.condition b).ports = a.ports := rfl
@[simp] theorem Alesh.condition_mgmt (a : Alesh) (b : Nat) : (a.condition b).mgmt = a.mgmt := rfl
@[simp] theorem Alesh.condition_pm (a : Alesh) (b : Nat) : (a.condition b).pm = a.pm := rfl
@[simp] theorem Alesh.condition_errs (a : Alesh) (b : Nat) : (a.condition b).errs = a.errs := rfl
@[simp] theorem Alesh.condition_memb (a : Alesh) (b : Nat) : (a.condition b).memb = a.memb := rfl
@[simp] theorem Alesh.condition_leases (a : Alesh) (b : Nat) : (a.condition b).leases = a.leases := rfl
@[simp] theorem Alesh.condition_take (a : Alesh) (b : Nat) : (a.condition b).take = a.take := rfl
@[simp] theorem Alesh.condition_plate (a : Alesh) (b : Nat) : (a.condition b).plate = a.plate := rfl
@[simp] theorem Alesh.condition_fabric (a : Alesh) (b : Nat) : (a.condition b).fabric = a.fabric := rfl
@[simp] theorem Alesh.condition_merid (a : Alesh) (b : Nat) : (a.condition b).merid = a.merid := rfl
@[simp] theorem Alesh.condition_comm (a : Alesh) (b : Nat) : (a.condition b).comm = a.comm := rfl
@[simp] theorem Alesh.condition_work (a : Alesh) (b : Nat) : (a.condition b).work = a.work := rfl
@[simp] theorem Alesh.condition_chrono (a : Alesh) (b : Nat) : (a.condition b).chrono = a.chrono := rfl
@[simp] theorem Alesh.condition_cep (a : Alesh) (b : Nat) : (a.condition b).cep = a.cep := rfl
@[simp] theorem Alesh.condition_test (a : Alesh) (b : Nat) : (a.condition b).test = a.test := rfl
@[simp] theorem Alesh.condition_mem0 (a : Alesh) (b : Nat) : (a.condition b).mem0 = a.mem0 := rfl
@[simp] theorem Alesh.condition_mem1 (a : Alesh) (b : Nat) : (a.condition b).mem1 = a.mem1 := rfl
@[simp] theorem Alesh.repairEvent_ctl (a : Alesh) : (a.repairEvent).ctl = a.ctl := rfl
@[simp] theorem Alesh.repairEvent_dict (a : Alesh) : (a.repairEvent).dict = a.dict := rfl
@[simp] theorem Alesh.repairEvent_win (a : Alesh) : (a.repairEvent).win = a.win := rfl
@[simp] theorem Alesh.repairEvent_staged (a : Alesh) : (a.repairEvent).staged = a.staged := rfl
@[simp] theorem Alesh.repairEvent_evts (a : Alesh) : (a.repairEvent).evts = a.evts := rfl
@[simp] theorem Alesh.repairEvent_clock (a : Alesh) : (a.repairEvent).clock = a.clock := rfl
@[simp] theorem Alesh.repairEvent_slots (a : Alesh) : (a.repairEvent).slots = a.slots := rfl
@[simp] theorem Alesh.repairEvent_progs (a : Alesh) : (a.repairEvent).progs = a.progs := rfl
@[simp] theorem Alesh.repairEvent_red (a : Alesh) : (a.repairEvent).red = a.red := rfl
@[simp] theorem Alesh.repairEvent_pub (a : Alesh) : (a.repairEvent).pub = a.pub := rfl
@[simp] theorem Alesh.repairEvent_coding (a : Alesh) : (a.repairEvent).coding = a.coding := rfl
@[simp] theorem Alesh.repairEvent_ports (a : Alesh) : (a.repairEvent).ports = a.ports := rfl
@[simp] theorem Alesh.repairEvent_mgmt (a : Alesh) : (a.repairEvent).mgmt = a.mgmt := rfl
@[simp] theorem Alesh.repairEvent_pm (a : Alesh) : (a.repairEvent).pm = a.pm := rfl
@[simp] theorem Alesh.repairEvent_errs (a : Alesh) : (a.repairEvent).errs = a.errs := rfl
@[simp] theorem Alesh.repairEvent_memb (a : Alesh) : (a.repairEvent).memb = a.memb := rfl
@[simp] theorem Alesh.repairEvent_leases (a : Alesh) : (a.repairEvent).leases = a.leases := rfl
@[simp] theorem Alesh.repairEvent_take (a : Alesh) : (a.repairEvent).take = a.take := rfl
@[simp] theorem Alesh.repairEvent_plate (a : Alesh) : (a.repairEvent).plate = a.plate := rfl
@[simp] theorem Alesh.repairEvent_fabric (a : Alesh) : (a.repairEvent).fabric = a.fabric := rfl
@[simp] theorem Alesh.repairEvent_merid (a : Alesh) : (a.repairEvent).merid = a.merid := rfl
@[simp] theorem Alesh.repairEvent_comm (a : Alesh) : (a.repairEvent).comm = a.comm := rfl
@[simp] theorem Alesh.repairEvent_work (a : Alesh) : (a.repairEvent).work = a.work := rfl
@[simp] theorem Alesh.repairEvent_chrono (a : Alesh) : (a.repairEvent).chrono = a.chrono := rfl
@[simp] theorem Alesh.repairEvent_cep (a : Alesh) : (a.repairEvent).cep = a.cep := rfl
@[simp] theorem Alesh.repairEvent_test (a : Alesh) : (a.repairEvent).test = a.test := rfl
@[simp] theorem Alesh.repairEvent_mem0 (a : Alesh) : (a.repairEvent).mem0 = a.mem0 := rfl
@[simp] theorem Alesh.repairEvent_mem1 (a : Alesh) : (a.repairEvent).mem1 = a.mem1 := rfl
@[simp] theorem Alesh.linkEvent_ctl (a : Alesh) : (a.linkEvent).ctl = a.ctl := rfl
@[simp] theorem Alesh.linkEvent_win (a : Alesh) : (a.linkEvent).win = a.win := rfl
@[simp] theorem Alesh.linkEvent_staged (a : Alesh) : (a.linkEvent).staged = a.staged := rfl
@[simp] theorem Alesh.linkEvent_clock (a : Alesh) : (a.linkEvent).clock = a.clock := rfl
@[simp] theorem Alesh.linkEvent_slots (a : Alesh) : (a.linkEvent).slots = a.slots := rfl
@[simp] theorem Alesh.linkEvent_progs (a : Alesh) : (a.linkEvent).progs = a.progs := rfl
@[simp] theorem Alesh.linkEvent_red (a : Alesh) : (a.linkEvent).red = a.red := rfl
@[simp] theorem Alesh.linkEvent_pub (a : Alesh) : (a.linkEvent).pub = a.pub := rfl
@[simp] theorem Alesh.linkEvent_coding (a : Alesh) : (a.linkEvent).coding = a.coding := rfl
@[simp] theorem Alesh.linkEvent_ports (a : Alesh) : (a.linkEvent).ports = a.ports := rfl
@[simp] theorem Alesh.linkEvent_mgmt (a : Alesh) : (a.linkEvent).mgmt = a.mgmt := rfl
@[simp] theorem Alesh.linkEvent_pm (a : Alesh) : (a.linkEvent).pm = a.pm := rfl
@[simp] theorem Alesh.linkEvent_errs (a : Alesh) : (a.linkEvent).errs = a.errs := rfl
@[simp] theorem Alesh.linkEvent_memb (a : Alesh) : (a.linkEvent).memb = a.memb := rfl
@[simp] theorem Alesh.linkEvent_leases (a : Alesh) : (a.linkEvent).leases = a.leases := rfl
@[simp] theorem Alesh.linkEvent_take (a : Alesh) : (a.linkEvent).take = a.take := rfl
@[simp] theorem Alesh.linkEvent_plate (a : Alesh) : (a.linkEvent).plate = a.plate := rfl
@[simp] theorem Alesh.linkEvent_fabric (a : Alesh) : (a.linkEvent).fabric = a.fabric := rfl
@[simp] theorem Alesh.linkEvent_merid (a : Alesh) : (a.linkEvent).merid = a.merid := rfl
@[simp] theorem Alesh.linkEvent_comm (a : Alesh) : (a.linkEvent).comm = a.comm := rfl
@[simp] theorem Alesh.linkEvent_work (a : Alesh) : (a.linkEvent).work = a.work := rfl
@[simp] theorem Alesh.linkEvent_chrono (a : Alesh) : (a.linkEvent).chrono = a.chrono := rfl
@[simp] theorem Alesh.linkEvent_cep (a : Alesh) : (a.linkEvent).cep = a.cep := rfl
@[simp] theorem Alesh.linkEvent_test (a : Alesh) : (a.linkEvent).test = a.test := rfl
@[simp] theorem Alesh.linkEvent_mem0 (a : Alesh) : (a.linkEvent).mem0 = a.mem0 := rfl
@[simp] theorem Alesh.linkEvent_mem1 (a : Alesh) : (a.linkEvent).mem1 = a.mem1 := rfl
@[simp] theorem Alesh.corrected_ctl (a : Alesh) (n : Nat) : (a.corrected n).ctl = a.ctl := rfl
@[simp] theorem Alesh.corrected_win (a : Alesh) (n : Nat) : (a.corrected n).win = a.win := rfl
@[simp] theorem Alesh.corrected_staged (a : Alesh) (n : Nat) : (a.corrected n).staged = a.staged := rfl
@[simp] theorem Alesh.corrected_evts (a : Alesh) (n : Nat) : (a.corrected n).evts = a.evts := rfl
@[simp] theorem Alesh.corrected_clock (a : Alesh) (n : Nat) : (a.corrected n).clock = a.clock := rfl
@[simp] theorem Alesh.corrected_slots (a : Alesh) (n : Nat) : (a.corrected n).slots = a.slots := rfl
@[simp] theorem Alesh.corrected_progs (a : Alesh) (n : Nat) : (a.corrected n).progs = a.progs := rfl
@[simp] theorem Alesh.corrected_red (a : Alesh) (n : Nat) : (a.corrected n).red = a.red := rfl
@[simp] theorem Alesh.corrected_pub (a : Alesh) (n : Nat) : (a.corrected n).pub = a.pub := rfl
@[simp] theorem Alesh.corrected_coding (a : Alesh) (n : Nat) : (a.corrected n).coding = a.coding := rfl
@[simp] theorem Alesh.corrected_ports (a : Alesh) (n : Nat) : (a.corrected n).ports = a.ports := rfl
@[simp] theorem Alesh.corrected_mgmt (a : Alesh) (n : Nat) : (a.corrected n).mgmt = a.mgmt := rfl
@[simp] theorem Alesh.corrected_pm (a : Alesh) (n : Nat) : (a.corrected n).pm = a.pm := rfl
@[simp] theorem Alesh.corrected_errs (a : Alesh) (n : Nat) : (a.corrected n).errs = a.errs := rfl
@[simp] theorem Alesh.corrected_memb (a : Alesh) (n : Nat) : (a.corrected n).memb = a.memb := rfl
@[simp] theorem Alesh.corrected_leases (a : Alesh) (n : Nat) : (a.corrected n).leases = a.leases := rfl
@[simp] theorem Alesh.corrected_take (a : Alesh) (n : Nat) : (a.corrected n).take = a.take := rfl
@[simp] theorem Alesh.corrected_plate (a : Alesh) (n : Nat) : (a.corrected n).plate = a.plate := rfl
@[simp] theorem Alesh.corrected_fabric (a : Alesh) (n : Nat) : (a.corrected n).fabric = a.fabric := rfl
@[simp] theorem Alesh.corrected_merid (a : Alesh) (n : Nat) : (a.corrected n).merid = a.merid := rfl
@[simp] theorem Alesh.corrected_comm (a : Alesh) (n : Nat) : (a.corrected n).comm = a.comm := rfl
@[simp] theorem Alesh.corrected_work (a : Alesh) (n : Nat) : (a.corrected n).work = a.work := rfl
@[simp] theorem Alesh.corrected_chrono (a : Alesh) (n : Nat) : (a.corrected n).chrono = a.chrono := rfl
@[simp] theorem Alesh.corrected_cep (a : Alesh) (n : Nat) : (a.corrected n).cep = a.cep := rfl
@[simp] theorem Alesh.corrected_test (a : Alesh) (n : Nat) : (a.corrected n).test = a.test := rfl
@[simp] theorem Alesh.corrected_mem0 (a : Alesh) (n : Nat) : (a.corrected n).mem0 = a.mem0 := rfl
@[simp] theorem Alesh.corrected_mem1 (a : Alesh) (n : Nat) : (a.corrected n).mem1 = a.mem1 := rfl
@[simp] theorem Alesh.setCore_dict (a : Alesh) (c : CoreState) : (a.setCore c).dict = a.dict := rfl
@[simp] theorem Alesh.setCore_win (a : Alesh) (c : CoreState) : (a.setCore c).win = a.win := rfl
@[simp] theorem Alesh.setCore_staged (a : Alesh) (c : CoreState) : (a.setCore c).staged = a.staged := rfl
@[simp] theorem Alesh.setCore_evts (a : Alesh) (c : CoreState) : (a.setCore c).evts = a.evts := rfl
@[simp] theorem Alesh.setCore_clock (a : Alesh) (c : CoreState) : (a.setCore c).clock = a.clock := rfl
@[simp] theorem Alesh.setCore_slots (a : Alesh) (c : CoreState) : (a.setCore c).slots = a.slots := rfl
@[simp] theorem Alesh.setCore_progs (a : Alesh) (c : CoreState) : (a.setCore c).progs = a.progs := rfl
@[simp] theorem Alesh.setCore_red (a : Alesh) (c : CoreState) : (a.setCore c).red = a.red := rfl
@[simp] theorem Alesh.setCore_pub (a : Alesh) (c : CoreState) : (a.setCore c).pub = a.pub := rfl
@[simp] theorem Alesh.setCore_coding (a : Alesh) (c : CoreState) : (a.setCore c).coding = a.coding := rfl
@[simp] theorem Alesh.setCore_ports (a : Alesh) (c : CoreState) : (a.setCore c).ports = a.ports := rfl
@[simp] theorem Alesh.setCore_mgmt (a : Alesh) (c : CoreState) : (a.setCore c).mgmt = a.mgmt := rfl
@[simp] theorem Alesh.setCore_pm (a : Alesh) (c : CoreState) : (a.setCore c).pm = a.pm := rfl
@[simp] theorem Alesh.setCore_errs (a : Alesh) (c : CoreState) : (a.setCore c).errs = a.errs := rfl
@[simp] theorem Alesh.setCore_memb (a : Alesh) (c : CoreState) : (a.setCore c).memb = a.memb := rfl
@[simp] theorem Alesh.setCore_leases (a : Alesh) (c : CoreState) : (a.setCore c).leases = a.leases := rfl
@[simp] theorem Alesh.setCore_take (a : Alesh) (c : CoreState) : (a.setCore c).take = a.take := rfl
@[simp] theorem Alesh.setCore_plate (a : Alesh) (c : CoreState) : (a.setCore c).plate = a.plate := rfl
@[simp] theorem Alesh.setCore_fabric (a : Alesh) (c : CoreState) : (a.setCore c).fabric = a.fabric := rfl
@[simp] theorem Alesh.setCore_merid (a : Alesh) (c : CoreState) : (a.setCore c).merid = a.merid := rfl
@[simp] theorem Alesh.setCore_comm (a : Alesh) (c : CoreState) : (a.setCore c).comm = a.comm := rfl
@[simp] theorem Alesh.setCore_work (a : Alesh) (c : CoreState) : (a.setCore c).work = a.work := rfl
@[simp] theorem Alesh.setCore_chrono (a : Alesh) (c : CoreState) : (a.setCore c).chrono = a.chrono := rfl
@[simp] theorem Alesh.setCore_health (a : Alesh) (c : CoreState) : (a.setCore c).health = a.health := rfl
@[simp] theorem Alesh.setCore_cep (a : Alesh) (c : CoreState) : (a.setCore c).cep = a.cep := rfl
@[simp] theorem Alesh.setCore_test (a : Alesh) (c : CoreState) : (a.setCore c).test = a.test := rfl
@[simp] theorem Alesh.setCore_mem0 (a : Alesh) (c : CoreState) : (a.setCore c).mem0 = a.mem0 := rfl
@[simp] theorem Alesh.setCore_mem1 (a : Alesh) (c : CoreState) : (a.setCore c).mem1 = a.mem1 := rfl
@[simp] theorem Alesh.setUnit_dict (a : Alesh) (u : Nat) (x : UState) : (a.setUnit u x).dict = a.dict := rfl
@[simp] theorem Alesh.setUnit_win (a : Alesh) (u : Nat) (x : UState) : (a.setUnit u x).win = a.win := rfl
@[simp] theorem Alesh.setUnit_staged (a : Alesh) (u : Nat) (x : UState) : (a.setUnit u x).staged = a.staged := rfl
@[simp] theorem Alesh.setUnit_evts (a : Alesh) (u : Nat) (x : UState) : (a.setUnit u x).evts = a.evts := rfl
@[simp] theorem Alesh.setUnit_clock (a : Alesh) (u : Nat) (x : UState) : (a.setUnit u x).clock = a.clock := rfl
@[simp] theorem Alesh.setUnit_slots (a : Alesh) (u : Nat) (x : UState) : (a.setUnit u x).slots = a.slots := rfl
@[simp] theorem Alesh.setUnit_progs (a : Alesh) (u : Nat) (x : UState) : (a.setUnit u x).progs = a.progs := rfl
@[simp] theorem Alesh.setUnit_red (a : Alesh) (u : Nat) (x : UState) : (a.setUnit u x).red = a.red := rfl
@[simp] theorem Alesh.setUnit_pub (a : Alesh) (u : Nat) (x : UState) : (a.setUnit u x).pub = a.pub := rfl
@[simp] theorem Alesh.setUnit_coding (a : Alesh) (u : Nat) (x : UState) : (a.setUnit u x).coding = a.coding := rfl
@[simp] theorem Alesh.setUnit_ports (a : Alesh) (u : Nat) (x : UState) : (a.setUnit u x).ports = a.ports := rfl
@[simp] theorem Alesh.setUnit_mgmt (a : Alesh) (u : Nat) (x : UState) : (a.setUnit u x).mgmt = a.mgmt := rfl
@[simp] theorem Alesh.setUnit_pm (a : Alesh) (u : Nat) (x : UState) : (a.setUnit u x).pm = a.pm := rfl
@[simp] theorem Alesh.setUnit_errs (a : Alesh) (u : Nat) (x : UState) : (a.setUnit u x).errs = a.errs := rfl
@[simp] theorem Alesh.setUnit_memb (a : Alesh) (u : Nat) (x : UState) : (a.setUnit u x).memb = a.memb := rfl
@[simp] theorem Alesh.setUnit_leases (a : Alesh) (u : Nat) (x : UState) : (a.setUnit u x).leases = a.leases := rfl
@[simp] theorem Alesh.setUnit_take (a : Alesh) (u : Nat) (x : UState) : (a.setUnit u x).take = a.take := rfl
@[simp] theorem Alesh.setUnit_plate (a : Alesh) (u : Nat) (x : UState) : (a.setUnit u x).plate = a.plate := rfl
@[simp] theorem Alesh.setUnit_fabric (a : Alesh) (u : Nat) (x : UState) : (a.setUnit u x).fabric = a.fabric := rfl
@[simp] theorem Alesh.setUnit_merid (a : Alesh) (u : Nat) (x : UState) : (a.setUnit u x).merid = a.merid := rfl
@[simp] theorem Alesh.setUnit_comm (a : Alesh) (u : Nat) (x : UState) : (a.setUnit u x).comm = a.comm := rfl
@[simp] theorem Alesh.setUnit_work (a : Alesh) (u : Nat) (x : UState) : (a.setUnit u x).work = a.work := rfl
@[simp] theorem Alesh.setUnit_chrono (a : Alesh) (u : Nat) (x : UState) : (a.setUnit u x).chrono = a.chrono := rfl
@[simp] theorem Alesh.setUnit_health (a : Alesh) (u : Nat) (x : UState) : (a.setUnit u x).health = a.health := rfl
@[simp] theorem Alesh.setUnit_cep (a : Alesh) (u : Nat) (x : UState) : (a.setUnit u x).cep = a.cep := rfl
@[simp] theorem Alesh.setUnit_test (a : Alesh) (u : Nat) (x : UState) : (a.setUnit u x).test = a.test := rfl
@[simp] theorem Alesh.setUnit_mem0 (a : Alesh) (u : Nat) (x : UState) : (a.setUnit u x).mem0 = a.mem0 := rfl
@[simp] theorem Alesh.setUnit_mem1 (a : Alesh) (u : Nat) (x : UState) : (a.setUnit u x).mem1 = a.mem1 := rfl
@[simp] theorem Alesh.storeResponse_ctl (a : Alesh) (src : Nat) (reqId : Nat) (body : Bytes) : (a.storeResponse src reqId body).ctl = a.ctl := by simp only [Alesh.storeResponse]
@[simp] theorem Alesh.storeResponse_dict (a : Alesh) (src : Nat) (reqId : Nat) (body : Bytes) : (a.storeResponse src reqId body).dict = a.dict := by simp only [Alesh.storeResponse]
@[simp] theorem Alesh.storeResponse_win (a : Alesh) (src : Nat) (reqId : Nat) (body : Bytes) : (a.storeResponse src reqId body).win = a.win := by simp only [Alesh.storeResponse]
@[simp] theorem Alesh.storeResponse_staged (a : Alesh) (src : Nat) (reqId : Nat) (body : Bytes) : (a.storeResponse src reqId body).staged = a.staged := by simp only [Alesh.storeResponse]
@[simp] theorem Alesh.storeResponse_evts (a : Alesh) (src : Nat) (reqId : Nat) (body : Bytes) : (a.storeResponse src reqId body).evts = a.evts := by simp only [Alesh.storeResponse]
@[simp] theorem Alesh.storeResponse_clock (a : Alesh) (src : Nat) (reqId : Nat) (body : Bytes) : (a.storeResponse src reqId body).clock = a.clock := by simp only [Alesh.storeResponse]
@[simp] theorem Alesh.storeResponse_slots (a : Alesh) (src : Nat) (reqId : Nat) (body : Bytes) : (a.storeResponse src reqId body).slots = a.slots := by simp only [Alesh.storeResponse]
@[simp] theorem Alesh.storeResponse_progs (a : Alesh) (src : Nat) (reqId : Nat) (body : Bytes) : (a.storeResponse src reqId body).progs = a.progs := by simp only [Alesh.storeResponse]
@[simp] theorem Alesh.storeResponse_red (a : Alesh) (src : Nat) (reqId : Nat) (body : Bytes) : (a.storeResponse src reqId body).red = a.red := by simp only [Alesh.storeResponse]
@[simp] theorem Alesh.storeResponse_pub (a : Alesh) (src : Nat) (reqId : Nat) (body : Bytes) : (a.storeResponse src reqId body).pub = a.pub := by simp only [Alesh.storeResponse]
@[simp] theorem Alesh.storeResponse_coding (a : Alesh) (src : Nat) (reqId : Nat) (body : Bytes) : (a.storeResponse src reqId body).coding = a.coding := by simp only [Alesh.storeResponse]
@[simp] theorem Alesh.storeResponse_ports (a : Alesh) (src : Nat) (reqId : Nat) (body : Bytes) : (a.storeResponse src reqId body).ports = a.ports := by simp only [Alesh.storeResponse]
@[simp] theorem Alesh.storeResponse_pm (a : Alesh) (src : Nat) (reqId : Nat) (body : Bytes) : (a.storeResponse src reqId body).pm = a.pm := by simp only [Alesh.storeResponse]
@[simp] theorem Alesh.storeResponse_errs (a : Alesh) (src : Nat) (reqId : Nat) (body : Bytes) : (a.storeResponse src reqId body).errs = a.errs := by simp only [Alesh.storeResponse]
@[simp] theorem Alesh.storeResponse_memb (a : Alesh) (src : Nat) (reqId : Nat) (body : Bytes) : (a.storeResponse src reqId body).memb = a.memb := by simp only [Alesh.storeResponse]
@[simp] theorem Alesh.storeResponse_leases (a : Alesh) (src : Nat) (reqId : Nat) (body : Bytes) : (a.storeResponse src reqId body).leases = a.leases := by simp only [Alesh.storeResponse]
@[simp] theorem Alesh.storeResponse_take (a : Alesh) (src : Nat) (reqId : Nat) (body : Bytes) : (a.storeResponse src reqId body).take = a.take := by simp only [Alesh.storeResponse]
@[simp] theorem Alesh.storeResponse_plate (a : Alesh) (src : Nat) (reqId : Nat) (body : Bytes) : (a.storeResponse src reqId body).plate = a.plate := by simp only [Alesh.storeResponse]
@[simp] theorem Alesh.storeResponse_fabric (a : Alesh) (src : Nat) (reqId : Nat) (body : Bytes) : (a.storeResponse src reqId body).fabric = a.fabric := by simp only [Alesh.storeResponse]
@[simp] theorem Alesh.storeResponse_merid (a : Alesh) (src : Nat) (reqId : Nat) (body : Bytes) : (a.storeResponse src reqId body).merid = a.merid := by simp only [Alesh.storeResponse]
@[simp] theorem Alesh.storeResponse_comm (a : Alesh) (src : Nat) (reqId : Nat) (body : Bytes) : (a.storeResponse src reqId body).comm = a.comm := by simp only [Alesh.storeResponse]
@[simp] theorem Alesh.storeResponse_work (a : Alesh) (src : Nat) (reqId : Nat) (body : Bytes) : (a.storeResponse src reqId body).work = a.work := by simp only [Alesh.storeResponse]
@[simp] theorem Alesh.storeResponse_chrono (a : Alesh) (src : Nat) (reqId : Nat) (body : Bytes) : (a.storeResponse src reqId body).chrono = a.chrono := by simp only [Alesh.storeResponse]
@[simp] theorem Alesh.storeResponse_health (a : Alesh) (src : Nat) (reqId : Nat) (body : Bytes) : (a.storeResponse src reqId body).health = a.health := by simp only [Alesh.storeResponse]
@[simp] theorem Alesh.storeResponse_cep (a : Alesh) (src : Nat) (reqId : Nat) (body : Bytes) : (a.storeResponse src reqId body).cep = a.cep := by simp only [Alesh.storeResponse]
@[simp] theorem Alesh.storeResponse_test (a : Alesh) (src : Nat) (reqId : Nat) (body : Bytes) : (a.storeResponse src reqId body).test = a.test := by simp only [Alesh.storeResponse]
@[simp] theorem Alesh.storeResponse_mem0 (a : Alesh) (src : Nat) (reqId : Nat) (body : Bytes) : (a.storeResponse src reqId body).mem0 = a.mem0 := by simp only [Alesh.storeResponse]
@[simp] theorem Alesh.storeResponse_mem1 (a : Alesh) (src : Nat) (reqId : Nat) (body : Bytes) : (a.storeResponse src reqId body).mem1 = a.mem1 := by simp only [Alesh.storeResponse]

/-- All that `at` does: the captured value. -/
theorem Alesh.at_frame (a : Alesh) (now : Nat) : a.at now = { a with clock := (a.at now).clock } := by
  unfold Alesh.at; split <;> rfl
/-- All that `post` does: the outbound tokens. -/
theorem Alesh.post_frame (a : Alesh) (u t : Nat) : a.post u t = { a with cep := (a.post u t).cep } := by
  unfold Alesh.post; split <;> first | rfl | (split <;> rfl)
/-- All that `emit` does: the fabric ports. -/
theorem Alesh.emit_frame (a : Alesh) (p : Pkt) : a.emit p = { a with ports := (a.emit p).ports } := by
  unfold Alesh.emit
  split
  · rfl
  · split <;> rfl
@[simp] theorem Alesh.at_ctl (a : Alesh) (now : Nat) : (a.at now).ctl = a.ctl := by rw [Alesh.at_frame]
@[simp] theorem Alesh.at_dict (a : Alesh) (now : Nat) : (a.at now).dict = a.dict := by rw [Alesh.at_frame]
@[simp] theorem Alesh.at_win (a : Alesh) (now : Nat) : (a.at now).win = a.win := by rw [Alesh.at_frame]
@[simp] theorem Alesh.at_staged (a : Alesh) (now : Nat) : (a.at now).staged = a.staged := by rw [Alesh.at_frame]
@[simp] theorem Alesh.at_evts (a : Alesh) (now : Nat) : (a.at now).evts = a.evts := by rw [Alesh.at_frame]
@[simp] theorem Alesh.at_slots (a : Alesh) (now : Nat) : (a.at now).slots = a.slots := by rw [Alesh.at_frame]
@[simp] theorem Alesh.at_progs (a : Alesh) (now : Nat) : (a.at now).progs = a.progs := by rw [Alesh.at_frame]
@[simp] theorem Alesh.at_red (a : Alesh) (now : Nat) : (a.at now).red = a.red := by rw [Alesh.at_frame]
@[simp] theorem Alesh.at_pub (a : Alesh) (now : Nat) : (a.at now).pub = a.pub := by rw [Alesh.at_frame]
@[simp] theorem Alesh.at_coding (a : Alesh) (now : Nat) : (a.at now).coding = a.coding := by rw [Alesh.at_frame]
@[simp] theorem Alesh.at_ports (a : Alesh) (now : Nat) : (a.at now).ports = a.ports := by rw [Alesh.at_frame]
@[simp] theorem Alesh.at_mgmt (a : Alesh) (now : Nat) : (a.at now).mgmt = a.mgmt := by rw [Alesh.at_frame]
@[simp] theorem Alesh.at_pm (a : Alesh) (now : Nat) : (a.at now).pm = a.pm := by rw [Alesh.at_frame]
@[simp] theorem Alesh.at_errs (a : Alesh) (now : Nat) : (a.at now).errs = a.errs := by rw [Alesh.at_frame]
@[simp] theorem Alesh.at_memb (a : Alesh) (now : Nat) : (a.at now).memb = a.memb := by rw [Alesh.at_frame]
@[simp] theorem Alesh.at_leases (a : Alesh) (now : Nat) : (a.at now).leases = a.leases := by rw [Alesh.at_frame]
@[simp] theorem Alesh.at_take (a : Alesh) (now : Nat) : (a.at now).take = a.take := by rw [Alesh.at_frame]
@[simp] theorem Alesh.at_plate (a : Alesh) (now : Nat) : (a.at now).plate = a.plate := by rw [Alesh.at_frame]
@[simp] theorem Alesh.at_fabric (a : Alesh) (now : Nat) : (a.at now).fabric = a.fabric := by rw [Alesh.at_frame]
@[simp] theorem Alesh.at_merid (a : Alesh) (now : Nat) : (a.at now).merid = a.merid := by rw [Alesh.at_frame]
@[simp] theorem Alesh.at_comm (a : Alesh) (now : Nat) : (a.at now).comm = a.comm := by rw [Alesh.at_frame]
@[simp] theorem Alesh.at_work (a : Alesh) (now : Nat) : (a.at now).work = a.work := by rw [Alesh.at_frame]
@[simp] theorem Alesh.at_chrono (a : Alesh) (now : Nat) : (a.at now).chrono = a.chrono := by rw [Alesh.at_frame]
@[simp] theorem Alesh.at_health (a : Alesh) (now : Nat) : (a.at now).health = a.health := by rw [Alesh.at_frame]
@[simp] theorem Alesh.at_cep (a : Alesh) (now : Nat) : (a.at now).cep = a.cep := by rw [Alesh.at_frame]
@[simp] theorem Alesh.at_test (a : Alesh) (now : Nat) : (a.at now).test = a.test := by rw [Alesh.at_frame]
@[simp] theorem Alesh.at_mem0 (a : Alesh) (now : Nat) : (a.at now).mem0 = a.mem0 := by rw [Alesh.at_frame]
@[simp] theorem Alesh.at_mem1 (a : Alesh) (now : Nat) : (a.at now).mem1 = a.mem1 := by rw [Alesh.at_frame]
@[simp] theorem Alesh.post_ctl (a : Alesh) (u : Nat) (t : Nat) : (a.post u t).ctl = a.ctl := by rw [Alesh.post_frame]
@[simp] theorem Alesh.post_dict (a : Alesh) (u : Nat) (t : Nat) : (a.post u t).dict = a.dict := by rw [Alesh.post_frame]
@[simp] theorem Alesh.post_win (a : Alesh) (u : Nat) (t : Nat) : (a.post u t).win = a.win := by rw [Alesh.post_frame]
@[simp] theorem Alesh.post_staged (a : Alesh) (u : Nat) (t : Nat) : (a.post u t).staged = a.staged := by rw [Alesh.post_frame]
@[simp] theorem Alesh.post_evts (a : Alesh) (u : Nat) (t : Nat) : (a.post u t).evts = a.evts := by rw [Alesh.post_frame]
@[simp] theorem Alesh.post_clock (a : Alesh) (u : Nat) (t : Nat) : (a.post u t).clock = a.clock := by rw [Alesh.post_frame]
@[simp] theorem Alesh.post_slots (a : Alesh) (u : Nat) (t : Nat) : (a.post u t).slots = a.slots := by rw [Alesh.post_frame]
@[simp] theorem Alesh.post_progs (a : Alesh) (u : Nat) (t : Nat) : (a.post u t).progs = a.progs := by rw [Alesh.post_frame]
@[simp] theorem Alesh.post_red (a : Alesh) (u : Nat) (t : Nat) : (a.post u t).red = a.red := by rw [Alesh.post_frame]
@[simp] theorem Alesh.post_pub (a : Alesh) (u : Nat) (t : Nat) : (a.post u t).pub = a.pub := by rw [Alesh.post_frame]
@[simp] theorem Alesh.post_coding (a : Alesh) (u : Nat) (t : Nat) : (a.post u t).coding = a.coding := by rw [Alesh.post_frame]
@[simp] theorem Alesh.post_ports (a : Alesh) (u : Nat) (t : Nat) : (a.post u t).ports = a.ports := by rw [Alesh.post_frame]
@[simp] theorem Alesh.post_mgmt (a : Alesh) (u : Nat) (t : Nat) : (a.post u t).mgmt = a.mgmt := by rw [Alesh.post_frame]
@[simp] theorem Alesh.post_pm (a : Alesh) (u : Nat) (t : Nat) : (a.post u t).pm = a.pm := by rw [Alesh.post_frame]
@[simp] theorem Alesh.post_errs (a : Alesh) (u : Nat) (t : Nat) : (a.post u t).errs = a.errs := by rw [Alesh.post_frame]
@[simp] theorem Alesh.post_memb (a : Alesh) (u : Nat) (t : Nat) : (a.post u t).memb = a.memb := by rw [Alesh.post_frame]
@[simp] theorem Alesh.post_leases (a : Alesh) (u : Nat) (t : Nat) : (a.post u t).leases = a.leases := by rw [Alesh.post_frame]
@[simp] theorem Alesh.post_take (a : Alesh) (u : Nat) (t : Nat) : (a.post u t).take = a.take := by rw [Alesh.post_frame]
@[simp] theorem Alesh.post_plate (a : Alesh) (u : Nat) (t : Nat) : (a.post u t).plate = a.plate := by rw [Alesh.post_frame]
@[simp] theorem Alesh.post_fabric (a : Alesh) (u : Nat) (t : Nat) : (a.post u t).fabric = a.fabric := by rw [Alesh.post_frame]
@[simp] theorem Alesh.post_merid (a : Alesh) (u : Nat) (t : Nat) : (a.post u t).merid = a.merid := by rw [Alesh.post_frame]
@[simp] theorem Alesh.post_comm (a : Alesh) (u : Nat) (t : Nat) : (a.post u t).comm = a.comm := by rw [Alesh.post_frame]
@[simp] theorem Alesh.post_work (a : Alesh) (u : Nat) (t : Nat) : (a.post u t).work = a.work := by rw [Alesh.post_frame]
@[simp] theorem Alesh.post_chrono (a : Alesh) (u : Nat) (t : Nat) : (a.post u t).chrono = a.chrono := by rw [Alesh.post_frame]
@[simp] theorem Alesh.post_health (a : Alesh) (u : Nat) (t : Nat) : (a.post u t).health = a.health := by rw [Alesh.post_frame]
@[simp] theorem Alesh.post_test (a : Alesh) (u : Nat) (t : Nat) : (a.post u t).test = a.test := by rw [Alesh.post_frame]
@[simp] theorem Alesh.post_mem0 (a : Alesh) (u : Nat) (t : Nat) : (a.post u t).mem0 = a.mem0 := by rw [Alesh.post_frame]
@[simp] theorem Alesh.post_mem1 (a : Alesh) (u : Nat) (t : Nat) : (a.post u t).mem1 = a.mem1 := by rw [Alesh.post_frame]
@[simp] theorem Alesh.emit_ctl (a : Alesh) (p : Pkt) : (a.emit p).ctl = a.ctl := by rw [Alesh.emit_frame]
@[simp] theorem Alesh.emit_dict (a : Alesh) (p : Pkt) : (a.emit p).dict = a.dict := by rw [Alesh.emit_frame]
@[simp] theorem Alesh.emit_win (a : Alesh) (p : Pkt) : (a.emit p).win = a.win := by rw [Alesh.emit_frame]
@[simp] theorem Alesh.emit_staged (a : Alesh) (p : Pkt) : (a.emit p).staged = a.staged := by rw [Alesh.emit_frame]
@[simp] theorem Alesh.emit_evts (a : Alesh) (p : Pkt) : (a.emit p).evts = a.evts := by rw [Alesh.emit_frame]
@[simp] theorem Alesh.emit_clock (a : Alesh) (p : Pkt) : (a.emit p).clock = a.clock := by rw [Alesh.emit_frame]
@[simp] theorem Alesh.emit_slots (a : Alesh) (p : Pkt) : (a.emit p).slots = a.slots := by rw [Alesh.emit_frame]
@[simp] theorem Alesh.emit_progs (a : Alesh) (p : Pkt) : (a.emit p).progs = a.progs := by rw [Alesh.emit_frame]
@[simp] theorem Alesh.emit_red (a : Alesh) (p : Pkt) : (a.emit p).red = a.red := by rw [Alesh.emit_frame]
@[simp] theorem Alesh.emit_pub (a : Alesh) (p : Pkt) : (a.emit p).pub = a.pub := by rw [Alesh.emit_frame]
@[simp] theorem Alesh.emit_coding (a : Alesh) (p : Pkt) : (a.emit p).coding = a.coding := by rw [Alesh.emit_frame]
@[simp] theorem Alesh.emit_mgmt (a : Alesh) (p : Pkt) : (a.emit p).mgmt = a.mgmt := by rw [Alesh.emit_frame]
@[simp] theorem Alesh.emit_pm (a : Alesh) (p : Pkt) : (a.emit p).pm = a.pm := by rw [Alesh.emit_frame]
@[simp] theorem Alesh.emit_errs (a : Alesh) (p : Pkt) : (a.emit p).errs = a.errs := by rw [Alesh.emit_frame]
@[simp] theorem Alesh.emit_memb (a : Alesh) (p : Pkt) : (a.emit p).memb = a.memb := by rw [Alesh.emit_frame]
@[simp] theorem Alesh.emit_leases (a : Alesh) (p : Pkt) : (a.emit p).leases = a.leases := by rw [Alesh.emit_frame]
@[simp] theorem Alesh.emit_take (a : Alesh) (p : Pkt) : (a.emit p).take = a.take := by rw [Alesh.emit_frame]
@[simp] theorem Alesh.emit_plate (a : Alesh) (p : Pkt) : (a.emit p).plate = a.plate := by rw [Alesh.emit_frame]
@[simp] theorem Alesh.emit_fabric (a : Alesh) (p : Pkt) : (a.emit p).fabric = a.fabric := by rw [Alesh.emit_frame]
@[simp] theorem Alesh.emit_merid (a : Alesh) (p : Pkt) : (a.emit p).merid = a.merid := by rw [Alesh.emit_frame]
@[simp] theorem Alesh.emit_comm (a : Alesh) (p : Pkt) : (a.emit p).comm = a.comm := by rw [Alesh.emit_frame]
@[simp] theorem Alesh.emit_work (a : Alesh) (p : Pkt) : (a.emit p).work = a.work := by rw [Alesh.emit_frame]
@[simp] theorem Alesh.emit_chrono (a : Alesh) (p : Pkt) : (a.emit p).chrono = a.chrono := by rw [Alesh.emit_frame]
@[simp] theorem Alesh.emit_health (a : Alesh) (p : Pkt) : (a.emit p).health = a.health := by rw [Alesh.emit_frame]
@[simp] theorem Alesh.emit_cep (a : Alesh) (p : Pkt) : (a.emit p).cep = a.cep := by rw [Alesh.emit_frame]
@[simp] theorem Alesh.emit_test (a : Alesh) (p : Pkt) : (a.emit p).test = a.test := by rw [Alesh.emit_frame]
@[simp] theorem Alesh.emit_mem0 (a : Alesh) (p : Pkt) : (a.emit p).mem0 = a.mem0 := by rw [Alesh.emit_frame]
@[simp] theorem Alesh.emit_mem1 (a : Alesh) (p : Pkt) : (a.emit p).mem1 = a.mem1 := by rw [Alesh.emit_frame]
@[simp] theorem Alesh.send_ctl (a : Alesh) (typ : Nat) (dst : Nat) (args : Nat) (b : Bytes) : (a.send typ dst args b).ctl = a.ctl := Alesh.emit_ctl a _
@[simp] theorem Alesh.send_dict (a : Alesh) (typ : Nat) (dst : Nat) (args : Nat) (b : Bytes) : (a.send typ dst args b).dict = a.dict := Alesh.emit_dict a _
@[simp] theorem Alesh.send_win (a : Alesh) (typ : Nat) (dst : Nat) (args : Nat) (b : Bytes) : (a.send typ dst args b).win = a.win := Alesh.emit_win a _
@[simp] theorem Alesh.send_staged (a : Alesh) (typ : Nat) (dst : Nat) (args : Nat) (b : Bytes) : (a.send typ dst args b).staged = a.staged := Alesh.emit_staged a _
@[simp] theorem Alesh.send_evts (a : Alesh) (typ : Nat) (dst : Nat) (args : Nat) (b : Bytes) : (a.send typ dst args b).evts = a.evts := Alesh.emit_evts a _
@[simp] theorem Alesh.send_clock (a : Alesh) (typ : Nat) (dst : Nat) (args : Nat) (b : Bytes) : (a.send typ dst args b).clock = a.clock := Alesh.emit_clock a _
@[simp] theorem Alesh.send_slots (a : Alesh) (typ : Nat) (dst : Nat) (args : Nat) (b : Bytes) : (a.send typ dst args b).slots = a.slots := Alesh.emit_slots a _
@[simp] theorem Alesh.send_progs (a : Alesh) (typ : Nat) (dst : Nat) (args : Nat) (b : Bytes) : (a.send typ dst args b).progs = a.progs := Alesh.emit_progs a _
@[simp] theorem Alesh.send_red (a : Alesh) (typ : Nat) (dst : Nat) (args : Nat) (b : Bytes) : (a.send typ dst args b).red = a.red := Alesh.emit_red a _
@[simp] theorem Alesh.send_pub (a : Alesh) (typ : Nat) (dst : Nat) (args : Nat) (b : Bytes) : (a.send typ dst args b).pub = a.pub := Alesh.emit_pub a _
@[simp] theorem Alesh.send_coding (a : Alesh) (typ : Nat) (dst : Nat) (args : Nat) (b : Bytes) : (a.send typ dst args b).coding = a.coding := Alesh.emit_coding a _
@[simp] theorem Alesh.send_mgmt (a : Alesh) (typ : Nat) (dst : Nat) (args : Nat) (b : Bytes) : (a.send typ dst args b).mgmt = a.mgmt := Alesh.emit_mgmt a _
@[simp] theorem Alesh.send_pm (a : Alesh) (typ : Nat) (dst : Nat) (args : Nat) (b : Bytes) : (a.send typ dst args b).pm = a.pm := Alesh.emit_pm a _
@[simp] theorem Alesh.send_errs (a : Alesh) (typ : Nat) (dst : Nat) (args : Nat) (b : Bytes) : (a.send typ dst args b).errs = a.errs := Alesh.emit_errs a _
@[simp] theorem Alesh.send_memb (a : Alesh) (typ : Nat) (dst : Nat) (args : Nat) (b : Bytes) : (a.send typ dst args b).memb = a.memb := Alesh.emit_memb a _
@[simp] theorem Alesh.send_leases (a : Alesh) (typ : Nat) (dst : Nat) (args : Nat) (b : Bytes) : (a.send typ dst args b).leases = a.leases := Alesh.emit_leases a _
@[simp] theorem Alesh.send_take (a : Alesh) (typ : Nat) (dst : Nat) (args : Nat) (b : Bytes) : (a.send typ dst args b).take = a.take := Alesh.emit_take a _
@[simp] theorem Alesh.send_plate (a : Alesh) (typ : Nat) (dst : Nat) (args : Nat) (b : Bytes) : (a.send typ dst args b).plate = a.plate := Alesh.emit_plate a _
@[simp] theorem Alesh.send_fabric (a : Alesh) (typ : Nat) (dst : Nat) (args : Nat) (b : Bytes) : (a.send typ dst args b).fabric = a.fabric := Alesh.emit_fabric a _
@[simp] theorem Alesh.send_merid (a : Alesh) (typ : Nat) (dst : Nat) (args : Nat) (b : Bytes) : (a.send typ dst args b).merid = a.merid := Alesh.emit_merid a _
@[simp] theorem Alesh.send_comm (a : Alesh) (typ : Nat) (dst : Nat) (args : Nat) (b : Bytes) : (a.send typ dst args b).comm = a.comm := Alesh.emit_comm a _
@[simp] theorem Alesh.send_work (a : Alesh) (typ : Nat) (dst : Nat) (args : Nat) (b : Bytes) : (a.send typ dst args b).work = a.work := Alesh.emit_work a _
@[simp] theorem Alesh.send_chrono (a : Alesh) (typ : Nat) (dst : Nat) (args : Nat) (b : Bytes) : (a.send typ dst args b).chrono = a.chrono := Alesh.emit_chrono a _
@[simp] theorem Alesh.send_health (a : Alesh) (typ : Nat) (dst : Nat) (args : Nat) (b : Bytes) : (a.send typ dst args b).health = a.health := Alesh.emit_health a _
@[simp] theorem Alesh.send_cep (a : Alesh) (typ : Nat) (dst : Nat) (args : Nat) (b : Bytes) : (a.send typ dst args b).cep = a.cep := Alesh.emit_cep a _
@[simp] theorem Alesh.send_test (a : Alesh) (typ : Nat) (dst : Nat) (args : Nat) (b : Bytes) : (a.send typ dst args b).test = a.test := Alesh.emit_test a _
@[simp] theorem Alesh.send_mem0 (a : Alesh) (typ : Nat) (dst : Nat) (args : Nat) (b : Bytes) : (a.send typ dst args b).mem0 = a.mem0 := Alesh.emit_mem0 a _
@[simp] theorem Alesh.send_mem1 (a : Alesh) (typ : Nat) (dst : Nat) (args : Nat) (b : Bytes) : (a.send typ dst args b).mem1 = a.mem1 := Alesh.emit_mem1 a _
@[simp] theorem Alesh.refuse_ctl (a : Alesh) (via : Via) (key : Nat) (r : Res) : (a.refuse via key r).ctl = a.ctl := by cases r <;> rfl
@[simp] theorem Alesh.refuse_win (a : Alesh) (via : Via) (key : Nat) (r : Res) : (a.refuse via key r).win = a.win := by cases r <;> rfl
@[simp] theorem Alesh.refuse_staged (a : Alesh) (via : Via) (key : Nat) (r : Res) : (a.refuse via key r).staged = a.staged := by cases r <;> rfl
@[simp] theorem Alesh.refuse_clock (a : Alesh) (via : Via) (key : Nat) (r : Res) : (a.refuse via key r).clock = a.clock := by cases r <;> rfl
@[simp] theorem Alesh.refuse_slots (a : Alesh) (via : Via) (key : Nat) (r : Res) : (a.refuse via key r).slots = a.slots := by cases r <;> rfl
@[simp] theorem Alesh.refuse_progs (a : Alesh) (via : Via) (key : Nat) (r : Res) : (a.refuse via key r).progs = a.progs := by cases r <;> rfl
@[simp] theorem Alesh.refuse_red (a : Alesh) (via : Via) (key : Nat) (r : Res) : (a.refuse via key r).red = a.red := by cases r <;> rfl
@[simp] theorem Alesh.refuse_pub (a : Alesh) (via : Via) (key : Nat) (r : Res) : (a.refuse via key r).pub = a.pub := by cases r <;> rfl
@[simp] theorem Alesh.refuse_coding (a : Alesh) (via : Via) (key : Nat) (r : Res) : (a.refuse via key r).coding = a.coding := by cases r <;> rfl
@[simp] theorem Alesh.refuse_ports (a : Alesh) (via : Via) (key : Nat) (r : Res) : (a.refuse via key r).ports = a.ports := by cases r <;> rfl
@[simp] theorem Alesh.refuse_mgmt (a : Alesh) (via : Via) (key : Nat) (r : Res) : (a.refuse via key r).mgmt = a.mgmt := by cases r <;> rfl
@[simp] theorem Alesh.refuse_pm (a : Alesh) (via : Via) (key : Nat) (r : Res) : (a.refuse via key r).pm = a.pm := by cases r <;> rfl
@[simp] theorem Alesh.refuse_errs (a : Alesh) (via : Via) (key : Nat) (r : Res) : (a.refuse via key r).errs = a.errs := by cases r <;> rfl
@[simp] theorem Alesh.refuse_memb (a : Alesh) (via : Via) (key : Nat) (r : Res) : (a.refuse via key r).memb = a.memb := by cases r <;> rfl
@[simp] theorem Alesh.refuse_leases (a : Alesh) (via : Via) (key : Nat) (r : Res) : (a.refuse via key r).leases = a.leases := by cases r <;> rfl
@[simp] theorem Alesh.refuse_take (a : Alesh) (via : Via) (key : Nat) (r : Res) : (a.refuse via key r).take = a.take := by cases r <;> rfl
@[simp] theorem Alesh.refuse_plate (a : Alesh) (via : Via) (key : Nat) (r : Res) : (a.refuse via key r).plate = a.plate := by cases r <;> rfl
@[simp] theorem Alesh.refuse_fabric (a : Alesh) (via : Via) (key : Nat) (r : Res) : (a.refuse via key r).fabric = a.fabric := by cases r <;> rfl
@[simp] theorem Alesh.refuse_merid (a : Alesh) (via : Via) (key : Nat) (r : Res) : (a.refuse via key r).merid = a.merid := by cases r <;> rfl
@[simp] theorem Alesh.refuse_comm (a : Alesh) (via : Via) (key : Nat) (r : Res) : (a.refuse via key r).comm = a.comm := by cases r <;> rfl
@[simp] theorem Alesh.refuse_work (a : Alesh) (via : Via) (key : Nat) (r : Res) : (a.refuse via key r).work = a.work := by cases r <;> rfl
@[simp] theorem Alesh.refuse_chrono (a : Alesh) (via : Via) (key : Nat) (r : Res) : (a.refuse via key r).chrono = a.chrono := by cases r <;> rfl
@[simp] theorem Alesh.refuse_health (a : Alesh) (via : Via) (key : Nat) (r : Res) : (a.refuse via key r).health = a.health := by cases r <;> rfl
@[simp] theorem Alesh.refuse_cep (a : Alesh) (via : Via) (key : Nat) (r : Res) : (a.refuse via key r).cep = a.cep := by cases r <;> rfl
@[simp] theorem Alesh.refuse_test (a : Alesh) (via : Via) (key : Nat) (r : Res) : (a.refuse via key r).test = a.test := by cases r <;> rfl
@[simp] theorem Alesh.refuse_mem0 (a : Alesh) (via : Via) (key : Nat) (r : Res) : (a.refuse via key r).mem0 = a.mem0 := by cases r <;> rfl
@[simp] theorem Alesh.refuse_mem1 (a : Alesh) (via : Via) (key : Nat) (r : Res) : (a.refuse via key r).mem1 = a.mem1 := by cases r <;> rfl
@[simp] theorem Alesh.respond_ctl (a : Alesh) (via : Via) (body : Bytes) : (a.respond via body).ctl = a.ctl := by cases via <;> first | rfl | exact Alesh.emit_ctl _ _
@[simp] theorem Alesh.respond_dict (a : Alesh) (via : Via) (body : Bytes) : (a.respond via body).dict = a.dict := by cases via <;> first | rfl | exact Alesh.emit_dict _ _
@[simp] theorem Alesh.respond_win (a : Alesh) (via : Via) (body : Bytes) : (a.respond via body).win = a.win := by cases via <;> first | rfl | exact Alesh.emit_win _ _
@[simp] theorem Alesh.respond_staged (a : Alesh) (via : Via) (body : Bytes) : (a.respond via body).staged = a.staged := by cases via <;> first | rfl | exact Alesh.emit_staged _ _
@[simp] theorem Alesh.respond_evts (a : Alesh) (via : Via) (body : Bytes) : (a.respond via body).evts = a.evts := by cases via <;> first | rfl | exact Alesh.emit_evts _ _
@[simp] theorem Alesh.respond_clock (a : Alesh) (via : Via) (body : Bytes) : (a.respond via body).clock = a.clock := by cases via <;> first | rfl | exact Alesh.emit_clock _ _
@[simp] theorem Alesh.respond_slots (a : Alesh) (via : Via) (body : Bytes) : (a.respond via body).slots = a.slots := by cases via <;> first | rfl | exact Alesh.emit_slots _ _
@[simp] theorem Alesh.respond_progs (a : Alesh) (via : Via) (body : Bytes) : (a.respond via body).progs = a.progs := by cases via <;> first | rfl | exact Alesh.emit_progs _ _
@[simp] theorem Alesh.respond_red (a : Alesh) (via : Via) (body : Bytes) : (a.respond via body).red = a.red := by cases via <;> first | rfl | exact Alesh.emit_red _ _
@[simp] theorem Alesh.respond_pub (a : Alesh) (via : Via) (body : Bytes) : (a.respond via body).pub = a.pub := by cases via <;> first | rfl | exact Alesh.emit_pub _ _
@[simp] theorem Alesh.respond_coding (a : Alesh) (via : Via) (body : Bytes) : (a.respond via body).coding = a.coding := by cases via <;> first | rfl | exact Alesh.emit_coding _ _
@[simp] theorem Alesh.respond_pm (a : Alesh) (via : Via) (body : Bytes) : (a.respond via body).pm = a.pm := by cases via <;> first | rfl | exact Alesh.emit_pm _ _
@[simp] theorem Alesh.respond_errs (a : Alesh) (via : Via) (body : Bytes) : (a.respond via body).errs = a.errs := by cases via <;> first | rfl | exact Alesh.emit_errs _ _
@[simp] theorem Alesh.respond_memb (a : Alesh) (via : Via) (body : Bytes) : (a.respond via body).memb = a.memb := by cases via <;> first | rfl | exact Alesh.emit_memb _ _
@[simp] theorem Alesh.respond_leases (a : Alesh) (via : Via) (body : Bytes) : (a.respond via body).leases = a.leases := by cases via <;> first | rfl | exact Alesh.emit_leases _ _
@[simp] theorem Alesh.respond_take (a : Alesh) (via : Via) (body : Bytes) : (a.respond via body).take = a.take := by cases via <;> first | rfl | exact Alesh.emit_take _ _
@[simp] theorem Alesh.respond_plate (a : Alesh) (via : Via) (body : Bytes) : (a.respond via body).plate = a.plate := by cases via <;> first | rfl | exact Alesh.emit_plate _ _
@[simp] theorem Alesh.respond_fabric (a : Alesh) (via : Via) (body : Bytes) : (a.respond via body).fabric = a.fabric := by cases via <;> first | rfl | exact Alesh.emit_fabric _ _
@[simp] theorem Alesh.respond_merid (a : Alesh) (via : Via) (body : Bytes) : (a.respond via body).merid = a.merid := by cases via <;> first | rfl | exact Alesh.emit_merid _ _
@[simp] theorem Alesh.respond_comm (a : Alesh) (via : Via) (body : Bytes) : (a.respond via body).comm = a.comm := by cases via <;> first | rfl | exact Alesh.emit_comm _ _
@[simp] theorem Alesh.respond_work (a : Alesh) (via : Via) (body : Bytes) : (a.respond via body).work = a.work := by cases via <;> first | rfl | exact Alesh.emit_work _ _
@[simp] theorem Alesh.respond_chrono (a : Alesh) (via : Via) (body : Bytes) : (a.respond via body).chrono = a.chrono := by cases via <;> first | rfl | exact Alesh.emit_chrono _ _
@[simp] theorem Alesh.respond_health (a : Alesh) (via : Via) (body : Bytes) : (a.respond via body).health = a.health := by cases via <;> first | rfl | exact Alesh.emit_health _ _
@[simp] theorem Alesh.respond_cep (a : Alesh) (via : Via) (body : Bytes) : (a.respond via body).cep = a.cep := by cases via <;> first | rfl | exact Alesh.emit_cep _ _
@[simp] theorem Alesh.respond_test (a : Alesh) (via : Via) (body : Bytes) : (a.respond via body).test = a.test := by cases via <;> first | rfl | exact Alesh.emit_test _ _
@[simp] theorem Alesh.respond_mem0 (a : Alesh) (via : Via) (body : Bytes) : (a.respond via body).mem0 = a.mem0 := by cases via <;> first | rfl | exact Alesh.emit_mem0 _ _
@[simp] theorem Alesh.respond_mem1 (a : Alesh) (via : Via) (body : Bytes) : (a.respond via body).mem1 = a.mem1 := by cases via <;> first | rfl | exact Alesh.emit_mem1 _ _
@[simp] theorem Alesh.reply_ctl (a : Alesh) (via : Via) (key : Nat) (wide : Bool) (r : Res) : (a.reply via key wide r).ctl = a.ctl := by cases via <;> cases wide <;> first | rfl | exact Alesh.respond_ctl _ _ _
@[simp] theorem Alesh.reply_dict (a : Alesh) (via : Via) (key : Nat) (wide : Bool) (r : Res) : (a.reply via key wide r).dict = a.dict := by cases via <;> cases wide <;> first | rfl | exact Alesh.respond_dict _ _ _
@[simp] theorem Alesh.reply_staged (a : Alesh) (via : Via) (key : Nat) (wide : Bool) (r : Res) : (a.reply via key wide r).staged = a.staged := by cases via <;> cases wide <;> first | rfl | exact Alesh.respond_staged _ _ _
@[simp] theorem Alesh.reply_evts (a : Alesh) (via : Via) (key : Nat) (wide : Bool) (r : Res) : (a.reply via key wide r).evts = a.evts := by cases via <;> cases wide <;> first | rfl | exact Alesh.respond_evts _ _ _
@[simp] theorem Alesh.reply_clock (a : Alesh) (via : Via) (key : Nat) (wide : Bool) (r : Res) : (a.reply via key wide r).clock = a.clock := by cases via <;> cases wide <;> first | rfl | exact Alesh.respond_clock _ _ _
@[simp] theorem Alesh.reply_slots (a : Alesh) (via : Via) (key : Nat) (wide : Bool) (r : Res) : (a.reply via key wide r).slots = a.slots := by cases via <;> cases wide <;> first | rfl | exact Alesh.respond_slots _ _ _
@[simp] theorem Alesh.reply_progs (a : Alesh) (via : Via) (key : Nat) (wide : Bool) (r : Res) : (a.reply via key wide r).progs = a.progs := by cases via <;> cases wide <;> first | rfl | exact Alesh.respond_progs _ _ _
@[simp] theorem Alesh.reply_red (a : Alesh) (via : Via) (key : Nat) (wide : Bool) (r : Res) : (a.reply via key wide r).red = a.red := by cases via <;> cases wide <;> first | rfl | exact Alesh.respond_red _ _ _
@[simp] theorem Alesh.reply_pub (a : Alesh) (via : Via) (key : Nat) (wide : Bool) (r : Res) : (a.reply via key wide r).pub = a.pub := by cases via <;> cases wide <;> first | rfl | exact Alesh.respond_pub _ _ _
@[simp] theorem Alesh.reply_coding (a : Alesh) (via : Via) (key : Nat) (wide : Bool) (r : Res) : (a.reply via key wide r).coding = a.coding := by cases via <;> cases wide <;> first | rfl | exact Alesh.respond_coding _ _ _
@[simp] theorem Alesh.reply_pm (a : Alesh) (via : Via) (key : Nat) (wide : Bool) (r : Res) : (a.reply via key wide r).pm = a.pm := by cases via <;> cases wide <;> first | rfl | exact Alesh.respond_pm _ _ _
@[simp] theorem Alesh.reply_errs (a : Alesh) (via : Via) (key : Nat) (wide : Bool) (r : Res) : (a.reply via key wide r).errs = a.errs := by cases via <;> cases wide <;> first | rfl | exact Alesh.respond_errs _ _ _
@[simp] theorem Alesh.reply_memb (a : Alesh) (via : Via) (key : Nat) (wide : Bool) (r : Res) : (a.reply via key wide r).memb = a.memb := by cases via <;> cases wide <;> first | rfl | exact Alesh.respond_memb _ _ _
@[simp] theorem Alesh.reply_leases (a : Alesh) (via : Via) (key : Nat) (wide : Bool) (r : Res) : (a.reply via key wide r).leases = a.leases := by cases via <;> cases wide <;> first | rfl | exact Alesh.respond_leases _ _ _
@[simp] theorem Alesh.reply_take (a : Alesh) (via : Via) (key : Nat) (wide : Bool) (r : Res) : (a.reply via key wide r).take = a.take := by cases via <;> cases wide <;> first | rfl | exact Alesh.respond_take _ _ _
@[simp] theorem Alesh.reply_plate (a : Alesh) (via : Via) (key : Nat) (wide : Bool) (r : Res) : (a.reply via key wide r).plate = a.plate := by cases via <;> cases wide <;> first | rfl | exact Alesh.respond_plate _ _ _
@[simp] theorem Alesh.reply_fabric (a : Alesh) (via : Via) (key : Nat) (wide : Bool) (r : Res) : (a.reply via key wide r).fabric = a.fabric := by cases via <;> cases wide <;> first | rfl | exact Alesh.respond_fabric _ _ _
@[simp] theorem Alesh.reply_merid (a : Alesh) (via : Via) (key : Nat) (wide : Bool) (r : Res) : (a.reply via key wide r).merid = a.merid := by cases via <;> cases wide <;> first | rfl | exact Alesh.respond_merid _ _ _
@[simp] theorem Alesh.reply_comm (a : Alesh) (via : Via) (key : Nat) (wide : Bool) (r : Res) : (a.reply via key wide r).comm = a.comm := by cases via <;> cases wide <;> first | rfl | exact Alesh.respond_comm _ _ _
@[simp] theorem Alesh.reply_work (a : Alesh) (via : Via) (key : Nat) (wide : Bool) (r : Res) : (a.reply via key wide r).work = a.work := by cases via <;> cases wide <;> first | rfl | exact Alesh.respond_work _ _ _
@[simp] theorem Alesh.reply_chrono (a : Alesh) (via : Via) (key : Nat) (wide : Bool) (r : Res) : (a.reply via key wide r).chrono = a.chrono := by cases via <;> cases wide <;> first | rfl | exact Alesh.respond_chrono _ _ _
@[simp] theorem Alesh.reply_health (a : Alesh) (via : Via) (key : Nat) (wide : Bool) (r : Res) : (a.reply via key wide r).health = a.health := by cases via <;> cases wide <;> first | rfl | exact Alesh.respond_health _ _ _
@[simp] theorem Alesh.reply_cep (a : Alesh) (via : Via) (key : Nat) (wide : Bool) (r : Res) : (a.reply via key wide r).cep = a.cep := by cases via <;> cases wide <;> first | rfl | exact Alesh.respond_cep _ _ _
@[simp] theorem Alesh.reply_test (a : Alesh) (via : Via) (key : Nat) (wide : Bool) (r : Res) : (a.reply via key wide r).test = a.test := by cases via <;> cases wide <;> first | rfl | exact Alesh.respond_test _ _ _
@[simp] theorem Alesh.reply_mem0 (a : Alesh) (via : Via) (key : Nat) (wide : Bool) (r : Res) : (a.reply via key wide r).mem0 = a.mem0 := by cases via <;> cases wide <;> first | rfl | exact Alesh.respond_mem0 _ _ _
@[simp] theorem Alesh.reply_mem1 (a : Alesh) (via : Via) (key : Nat) (wide : Bool) (r : Res) : (a.reply via key wide r).mem1 = a.mem1 := by cases via <;> cases wide <;> first | rfl | exact Alesh.respond_mem1 _ _ _

end Sys2Proof.Machine
end

