-- ==== Sys2Proof/Laws/Values.lean ====
section
/-! SUPPORT. What a write of an object does to the reading of every object; the length of a digest, and the parts of joined bytes. -/
namespace Sys2Proof.Machine

theorem lookup?_assign {β : Type} (l : List (Nat × β)) (k v : _) (j : Nat) :
    lookup? (assign l k v) j = if k = j then some v else lookup? l j := by
  induction l with
  | nil => simp [assign, lookup?]
  | cons p r ih =>
    obtain ⟨k', v'⟩ := p
    by_cases h : k' = k
    · subst h; by_cases hj : k' = j <;> simp [assign, lookup?, hj]
    · by_cases hj : k' = j
      · subst hj; simp [assign, lookup?, h, Ne.symm h]
      · simp [assign, lookup?, h, hj, ih]

theorem lookup?_filter {β : Type} (l : List (Nat × β)) (k j : Nat) :
    lookup? (l.filter fun p => p.1 != k) j = if k = j then none else lookup? l j := by
  induction l with
  | nil => simp [lookup?]
  | cons p r ih =>
    obtain ⟨k', v'⟩ := p
    by_cases h : k' = k
    · subst h
      simp only [List.filter_cons, bne_self_eq_false, Bool.false_eq_true, if_false, ih, lookup?]
      by_cases hj : k' = j <;> simp [hj]
    · by_cases hj : k' = j
      · subst hj; simp [lookup?, h, Ne.symm h]
      · simp [lookup?, h, hj, ih]

theorem lookup?_filterKeys {β : Type} (l : List (Nat × β)) (ks : List Nat) (k : Nat) :
    lookup? (l.filter fun p => ks.contains p.1) k = if ks.contains k then lookup? l k else none := by
  induction l with
  | nil => simp [lookup?]
  | cons p r ih =>
    obtain ⟨k', v⟩ := p
    by_cases h : ks.contains k' = true
    · rw [List.filter_cons_of_pos (by exact h)]
      by_cases hk : k' = k
      · subst hk; rw [if_pos h]; simp [lookup?]
      · simp only [lookup?, hk, if_false, ih]
    · rw [List.filter_cons_of_neg (by exact h), ih]
      by_cases hk : k' = k
      · subst hk; rw [if_neg h, if_neg h]
      · simp only [lookup?, hk, if_false]

/-- A written number reads as written, and every other as before. -/
theorem Alesh.num_setNum (a : Alesh) (k v j : Nat) : (a.setNum k v).num j = if k = j then v else a.num j := by
  unfold Alesh.num Alesh.setNum
  simp only [lookup?_assign, lookup?_filter]
  by_cases h : k = j <;> simp [h]
@[simp] theorem Alesh.num_setNum_same (a : Alesh) (k v : Nat) : (a.setNum k v).num k = v := by simp [Alesh.num_setNum]
theorem Alesh.num_setNum_ne (a : Alesh) (v : Nat) {k j : Nat} (h : k ≠ j) : (a.setNum k v).num j = a.num j := by
  simp [Alesh.num_setNum, h]
@[simp] theorem Alesh.dom_setNum (a : Alesh) (k v j : Nat) : (a.setNum k v).dom j = a.dom j := rfl

theorem Alesh.dom_setDom (a : Alesh) (k j : Nat) (v : Bytes) : (a.setDom k v).dom j = if k = j then v else a.dom j := by
  unfold Alesh.dom Alesh.setDom
  simp only [lookup?_assign, lookup?_filter]
  by_cases h : k = j <;> simp [h]
@[simp] theorem Alesh.dom_setDom_same (a : Alesh) (k : Nat) (v : Bytes) : (a.setDom k v).dom k = v := by
  simp [Alesh.dom_setDom]
@[simp] theorem Alesh.num_setDom (a : Alesh) (k j : Nat) (v : Bytes) : (a.setDom k v).num j = a.num j := rfl

theorem Alesh.num_forceNum (a : Alesh) (k v j : Nat) : (a.forceNum k v).num j = if k = j then v else a.num j := by
  unfold Alesh.num Alesh.forceNum
  simp only [lookup?_assign]
  by_cases h : k = j <;> simp [h]

theorem Alesh.num_countN (a : Alesh) (k n j : Nat) :
    (a.countN k n).num j = if k = j then satAdd (widthOf k) (a.num k) n else a.num j := Alesh.num_setNum _ _ _ _
theorem Alesh.num_count (a : Alesh) (k j : Nat) :
    (a.count k).num j = if k = j then satAdd (widthOf k) (a.num k) 1 else a.num j := Alesh.num_setNum _ _ _ _
theorem Alesh.num_wrapN (a : Alesh) (k n j : Nat) :
    (a.wrapN k n).num j = if k = j then wrapAdd (widthOf k) (a.num k) n else a.num j := Alesh.num_setNum _ _ _ _
theorem Alesh.num_wrap (a : Alesh) (k j : Nat) :
    (a.wrap k).num j = if k = j then wrapAdd (widthOf k) (a.num k) 1 else a.num j := Alesh.num_setNum _ _ _ _
theorem Alesh.num_flag (a : Alesh) (k b j : Nat) :
    (a.flag k b).num j = if k = j then a.num k ||| 2 ^ b else a.num j := Alesh.num_setNum _ _ _ _
theorem Alesh.num_clearFlags (a : Alesh) (k v j : Nat) :
    (a.clearFlags k v).num j = if k = j then a.num k - (a.num k &&& v) else a.num j := Alesh.num_setNum _ _ _ _
@[simp] theorem Alesh.dom_countN (a : Alesh) (k n j : Nat) : (a.countN k n).dom j = a.dom j := rfl
@[simp] theorem Alesh.dom_count (a : Alesh) (k j : Nat) : (a.count k).dom j = a.dom j := rfl
@[simp] theorem Alesh.dom_wrapN (a : Alesh) (k n j : Nat) : (a.wrapN k n).dom j = a.dom j := rfl
@[simp] theorem Alesh.dom_wrap (a : Alesh) (k j : Nat) : (a.wrap k).dom j = a.dom j := rfl
@[simp] theorem Alesh.dom_flag (a : Alesh) (k b j : Nat) : (a.flag k b).dom j = a.dom j := rfl

/-- Two cores with one dictionary read every number alike. -/
theorem Alesh.num_of_dict {a b : Alesh} (h : a.dict = b.dict) (k : Nat) : a.num k = b.num k := by
  unfold Alesh.num; rw [h]
theorem Alesh.dom_of_dict {a b : Alesh} (h : a.dict = b.dict) (k : Nat) : a.dom k = b.dom k := by
  unfold Alesh.dom; rw [h]
@[simp] theorem Alesh.num_at (a : Alesh) (now k : Nat) : (a.at now).num k = a.num k := Alesh.num_of_dict (by simp) k
@[simp] theorem Alesh.dom_at (a : Alesh) (now k : Nat) : (a.at now).dom k = a.dom k := Alesh.dom_of_dict (by simp) k
@[simp] theorem Alesh.num_emit (a : Alesh) (p : Pkt) (k : Nat) : (a.emit p).num k = a.num k := Alesh.num_of_dict (by simp) k
@[simp] theorem Alesh.num_send (a : Alesh) (typ dst args : Nat) (b : Bytes) (k : Nat) :
    (a.send typ dst args b).num k = a.num k := Alesh.num_of_dict (by simp) k
@[simp] theorem Alesh.num_post (a : Alesh) (u t k : Nat) : (a.post u t).num k = a.num k := Alesh.num_of_dict (by simp) k
@[simp] theorem Alesh.dom_emit (a : Alesh) (p : Pkt) (k : Nat) : (a.emit p).dom k = a.dom k := Alesh.dom_of_dict (by simp) k
@[simp] theorem Alesh.dom_post (a : Alesh) (u t k : Nat) : (a.post u t).dom k = a.dom k := Alesh.dom_of_dict (by simp) k

/-- A captured value never decreases (R438), and follows an operand that is above it while it is valid. -/
theorem Alesh.now_at (a : Alesh) (now : Nat) : (a.at now).now = if a.clock.valid then max a.now now else a.now := by
  unfold Alesh.at Alesh.now
  cases hv : a.clock.valid <;> by_cases hn : a.clock.captured < now <;> simp [hv, hn] <;> omega
@[simp] theorem Alesh.valid_at (a : Alesh) (now : Nat) : (a.at now).clock.valid = a.clock.valid := by
  unfold Alesh.at; split <;> rfl
/-- While the captured value is not valid no time passes for the core. -/
theorem Alesh.at_invalid (a : Alesh) (now : Nat) (h : a.clock.valid = false) : a.at now = a := by
  unfold Alesh.at; simp [h]

theorem sha_round_length (v : List (BitVec 32)) (kw : BitVec 32 × BitVec 32) : (shaRound v kw).length = v.length := by
  unfold shaRound; split <;> simp
theorem sha_rounds_length (l : List (BitVec 32 × BitVec 32)) (v : List (BitVec 32)) : (l.foldl shaRound v).length = v.length := by
  induction l generalizing v with
  | nil => rfl
  | cons x l ih => rw [List.foldl_cons, ih, sha_round_length]
theorem sha_blocks_length (l : List Bytes) (v : List (BitVec 32)) : (l.foldl shaBlock v).length = v.length := by
  induction l generalizing v with
  | nil => rfl
  | cons x l ih => rw [List.foldl_cons, ih]; simp [shaBlock, sha_rounds_length]
/-- A digest has 32 bytes. -/
theorem sha_length (m : Bytes) : (sha256 m).length = 32 := by
  have h (l : List (BitVec 32)) : ((l.map fun w => beBytes 4 w.toNat).flatten).length = 4 * l.length := by
    induction l with
    | nil => rfl
    | cons x l ih => rw [List.map_cons, List.flatten_cons, List.length_append, ih, List.length_cons]; simp [beBytes, leBytes]; omega
  simp only [sha256, h, sha_blocks_length]; rfl
theorem slice_left (x y : Bytes) (o n : Nat) (h : o + n ≤ x.length) : slice (x ++ y) o n = slice x o n := by
  have : n - (x.length - o) = 0 := by omega
  have h2 : o - x.length = 0 := by omega
  simp only [slice, List.drop_append, List.take_append, List.length_drop, List.length_take, this, List.take_zero, List.append_nil]
theorem slice_right (x y : Bytes) (o n : Nat) : slice (x ++ y) (x.length + o) n = slice y o n := by
  have : (x ++ y).drop (x.length + o) = y.drop o := by rw [List.drop_append, List.drop_of_length_le (by omega), List.nil_append]; congr 1; omega
  rw [slice, this, slice]


end Sys2Proof.Machine
end

