-- ==== Sys2Proof/Laws/Command.lean ====
section
/-! SUPPORT. Serving an access, concluding a command and reporting its result: everything that the shared operations do. -/
namespace Sys2Proof.Machine

theorem idleToJob_not_reset {a : Alesh} (h : a.idleToJob = true) : a.ctl.core ≠ .reset := by
  intro e; simp [Alesh.idleToJob, Alesh.joinedOrJob, Alesh.inJob, e] at h

theorem Admits.not_reset {a : Alesh} {via : Via} (h : Admits a via) : a.ctl.core ≠ .reset := by
  cases via with
  | control k => exact h
  | mgmt e q => exact h.1
  | inBand src q => exact idleToJob_not_reset h.1

theorem serve_admits {a : Alesh} {via : Via} (h : Admits a via) (f : Alesh → Alesh) : a.serve via f = f (a.taken via) := by
  have hr := h.not_reset
  have hb : (a.ctl.core == CoreState.reset) = false := by simpa using hr
  unfold Alesh.serve
  rw [if_neg (by simp [hb])]
  cases via with
  | control k => rfl
  | mgmt e q => simp [Alesh.taken, h.2]
  | inBand src q => obtain ⟨h1, h2, h3⟩ := h; simp [Alesh.taken, h1, h2, h3]

/-- In RESET no path answers (R361). -/
theorem serve_reset {a : Alesh} (h : a.ctl.core = .reset) (via : Via) (f : Alesh → Alesh) : a.serve via f = a := by
  simp [Alesh.serve, h]

@[simp] theorem taken_num (a : Alesh) (via : Via) (k : Nat) (h : k ≠ O.DICT_INBAND_COUNT) : (a.taken via).num k = a.num k := by
  cases via <;> simp [Alesh.taken, Alesh.num_wrap, h.symm]
@[simp] theorem taken_dom (a : Alesh) (via : Via) (k : Nat) : (a.taken via).dom k = a.dom k := by cases via <;> simp [Alesh.taken]
theorem taken_frame (a : Alesh) (via : Via) : a.taken via = { a with dict := (a.taken via).dict } := by cases via <;> rfl

/-- A command that its path admits, with what it answers and the core that it leaves. -/
theorem command_admits {s : State} {via : Via} (h : Admits s.alesh via) (key : Nat) (wide : Bool) (f : Alesh → Res × Alesh) :
    command via key wide f s =
      .next { s with alesh := conclude via key wide ((s.alesh.taken via).unlessStaged key (f (s.alesh.taken via))) } := by
  unfold command; rw [serve_admits h]

/-- A staged write is not touched by the count of an access in band. -/
@[simp] theorem taken_stageHolds (a : Alesh) (via : Via) (key : Nat) : (a.taken via).stageHolds key = a.stageHolds key := by
  unfold Alesh.stageHolds; rw [taken_frame]
/-- Test 9 turns away what would be done where a staged write holds the object (R351, R360). -/
theorem unlessStaged_held {a : Alesh} {key : Nat} (h : a.stageHolds key = true) {r : Res × Alesh} (hr : r.1 = .ok ∨ r.1 = .awaited) :
    a.unlessStaged key r = (.busy, a) := by
  unfold Alesh.unlessStaged; rcases hr with hr | hr <;> simp [h, hr]
/-- Test 9 lets everything else be. -/
theorem unlessStaged_free {a : Alesh} {key : Nat} {r : Res × Alesh} (h : ¬(a.stageHolds key = true ∧ (r.1 = .ok ∨ r.1 = .awaited))) :
    a.unlessStaged key r = r := by
  unfold Alesh.unlessStaged
  rw [if_neg]
  simpa using h

theorem storeResponse_mem (a : Alesh) (src q : Nat) (body : Bytes) :
    ∃ x ∈ (a.storeResponse src q body).mgmt.stored, x.src = src ∧ x.reqId = q ∧ x.response = body := by
  refine ⟨{ src := src, reqId := q, response := body, due := a.now + 4 * a.num O.ACK_TIMEOUT_NS }, ?_, rfl, rfl, rfl⟩
  unfold Alesh.storeResponse
  simp only
  generalize (a.mgmt.stored.filter _) = l
  rw [List.drop_append, List.mem_append]
  right
  rw [List.length_append]
  have : l.length + [({ src := src, reqId := q, response := body, due := a.now + 4 * a.num O.ACK_TIMEOUT_NS } : Stored)].length - 32 - l.length = 0 := by
    simp
  rw [this]; simp

theorem answered_of {a b : Alesh} (_ : b.ctl = a.ctl) (_ : b.dict = a.dict) (_ : b.staged = a.staged) (_ : b.evts = a.evts) (_ : b.clock = a.clock) (_ : b.slots = a.slots) (_ : b.progs = a.progs) (_ : b.red = a.red) (_ : b.pub = a.pub) (_ : b.coding = a.coding) (_ : b.pm = a.pm) (_ : b.errs = a.errs) (_ : b.memb = a.memb) (_ : b.leases = a.leases) (_ : b.take = a.take) (_ : b.plate = a.plate) (_ : b.fabric = a.fabric) (_ : b.merid = a.merid) (_ : b.comm = a.comm) (_ : b.work = a.work) (_ : b.chrono = a.chrono) (_ : b.health = a.health) (_ : b.cep = a.cep) (_ : b.test = a.test) (_ : b.mem0 = a.mem0) (_ : b.mem1 = a.mem1) : Answered a b := by
  cases a; cases b; simp_all [Answered]

theorem reply_frame (a : Alesh) (via : Via) (key : Nat) (wide : Bool) (r : Res) : Answered a (a.reply via key wide r) := by
  apply answered_of <;> simp

theorem reply_reports (a : Alesh) (via : Via) (key : Nat) (wide : Bool) (r : Res) : Reports (a.reply via key wide r) via key wide r := by
  cases via with
  | control k => cases wide <;> first | exact ⟨rfl, rfl⟩ | exact ⟨rfl, rfl, rfl⟩
  | mgmt e q =>
    show List.getLast? (_ ++ [_]) = _
    rw [List.getLast?_append]; rfl
  | inBand src q =>
    obtain ⟨x, hx, h⟩ := storeResponse_mem a src q (accBody 0x82 q key true 0 0 r.code 0 [])
    refine ⟨x, ?_, h⟩
    show x ∈ ((a.storeResponse src q _).send _ _ _ _).mgmt.stored
    rw [Alesh.send_mgmt]; exact hx

/-- A command that ends with a result reports it and leaves the core that it made but for what a refusal notes and the answer. -/
theorem conclude_reports (via : Via) (key : Nat) (wide : Bool) {r : Res} (h : r ≠ .awaited) (b : Alesh) :
    Reports (conclude via key wide (r, b)) via key wide r ∧ Answered (b.refuse via key r) (conclude via key wide (r, b)) := by
  unfold conclude
  rw [if_neg h]
  exact ⟨reply_reports _ _ _ _ _, reply_frame _ _ _ _ _⟩
/-- A command that ends OK reports it and leaves the core that it made but for the answer. -/
theorem conclude_ok (via : Via) (key : Nat) (wide : Bool) (b : Alesh) :
    Reports (conclude via key wide (.ok, b)) via key wide .ok ∧ Answered b (conclude via key wide (.ok, b)) :=
  conclude_reports via key wide (r := .ok) (by decide) b

theorem require_pos {t : Bool} (h : t = true) (r : Res) (a : Alesh) (k : Res × Alesh) : require t r a k = k := by simp [require, h]
theorem require_neg {t : Bool} (h : t = false) (r : Res) (a : Alesh) (k : Res × Alesh) : require t r a k = (r, a) := by simp [require, h]

/-- The whole of a command that ends OK, BUSY where a staged write holds its object. -/
theorem ends_of_ok {c : Instr} {s : State} {via : Via} {key : Nat} {wide : Bool} {f : Alesh → Res × Alesh} {b : Alesh}
    (hc : exec c s = command via key wide f s) (ha : Admits s.alesh via) (hf : f (s.alesh.taken via) = (.ok, b))
    {p : Alesh → Prop} (hp : ∀ d, Answered b d → p d) : Ends c s via key wide .ok p := by
  have hx := command_admits ha key wide f
  unfold Ends
  split
  · rename_i h
    rw [unlessStaged_held (by simpa using h.1) (Or.inl (by rw [hf]))] at hx
    exact ⟨_, by rw [hc, hx], conclude_reports via key wide (r := .busy) (by decide) (s.alesh.taken via)⟩
  · rename_i h
    rw [unlessStaged_free (by rw [hf]; simpa using h), hf] at hx
    exact ⟨_, by rw [hc, hx], (conclude_ok ..).1, hp _ (conclude_ok ..).2⟩
/-- The whole of a command that is refused. -/
theorem ends_of_refused {c : Instr} {s : State} {via : Via} {key : Nat} {wide : Bool} {f : Alesh → Res × Alesh} {r : Res} {b : Alesh}
    (hc : exec c s = command via key wide f s) (ha : Admits s.alesh via) (hf : f (s.alesh.taken via) = (r, b)) (hr : r ≠ .ok)
    (hw : r ≠ .awaited) {p : Alesh → Prop} (hp : ∀ d, Answered (b.refuse via key r) d → p d) : Ends c s via key wide r p := by
  have hx := command_admits ha key wide f
  unfold Ends
  rw [if_neg fun h => hr h.2]
  rw [unlessStaged_free (by rw [hf]; simp [hr, hw]), hf] at hx
  exact ⟨_, by rw [hc, hx], (conclude_reports via key wide hw b).1, hp _ (conclude_reports via key wide hw b).2⟩

theorem Answered.num {a b : Alesh} (h : Answered a b) (k : Nat) : b.num k = a.num k := Alesh.num_of_dict (by rw [h]) k
theorem Answered.dom {a b : Alesh} (h : Answered a b) (k : Nat) : b.dom k = a.dom k := Alesh.dom_of_dict (by rw [h]) k

end Sys2Proof.Machine
end

