-- ==== Sys2Proof/Laws/Memory.lean ====
section
/-! SUPPORT. Memory keeps its canonical form, and reads give what was written. -/
namespace Sys2Proof.Machine

theorem Memory.wfFrom_iff (lo : Nat) (m : Memory) : Memory.wfFrom lo m = true ↔
    (∀ c ∈ m, lo ≤ c.1 ∧ c.2 ≠ 0) ∧ m.Pairwise (fun c d => c.1 < d.1) := by
  induction m generalizing lo with
  | nil => simp [Memory.wfFrom]
  | cons c r ih =>
    obtain ⟨k, v⟩ := c
    simp only [Memory.wfFrom, Bool.and_eq_true, decide_eq_true_eq, bne_iff_ne, ih, List.pairwise_cons, List.mem_cons,
      forall_eq_or_imp]
    constructor
    · rintro ⟨⟨h1, h2⟩, h3, h4⟩
      exact ⟨⟨⟨h1, h2⟩, fun d hd => ⟨by have := (h3 d hd).1; omega, (h3 d hd).2⟩⟩,
        fun d hd => by have := (h3 d hd).1; show k < d.1; omega, h4⟩
    · rintro ⟨⟨⟨h1, h2⟩, h3⟩, h4, h5⟩
      exact ⟨⟨h1, h2⟩, fun d hd => ⟨by have : k < d.1 := h4 d hd; omega, (h3 d hd).2⟩, h5⟩

theorem Memory.wf_iff (m : Memory) : m.wf = true ↔ (∀ c ∈ m, c.2 ≠ 0) ∧ m.Pairwise (fun c d => c.1 < d.1) := by
  simp [Memory.wf, Memory.wfFrom_iff]

theorem Memory.mem_cells (a : Nat) (bs : Bytes) (c : Host.Cell) :
    c ∈ Memory.cells a bs ↔ a ≤ c.1 ∧ c.1 < a + bs.length ∧ bs[c.1 - a]? = some c.2 ∧ c.2 ≠ 0 := by
  induction bs generalizing a with
  | nil => simp [Memory.cells]
  | cons b r ih =>
    have key : c ∈ Memory.cells (a + 1) r ↔
        a + 1 ≤ c.1 ∧ c.1 < a + (b :: r).length ∧ (b :: r)[c.1 - a]? = some c.2 ∧ c.2 ≠ 0 := by
      rw [ih]
      constructor
      · rintro ⟨h1, h2, h3, h4⟩
        refine ⟨h1, by simp; omega, ?_, h4⟩
        rw [show c.1 - a = (c.1 - (a + 1)) + 1 by omega, List.getElem?_cons_succ]; exact h3
      · rintro ⟨h1, h2, h3, h4⟩
        refine ⟨h1, by simp at h2; omega, ?_, h4⟩
        rw [show c.1 - a = (c.1 - (a + 1)) + 1 by omega, List.getElem?_cons_succ] at h3; exact h3
    unfold Memory.cells
    by_cases hb : b = 0
    · rw [if_pos hb, key]
      constructor
      · rintro ⟨h1, h2⟩; exact ⟨by omega, h2⟩
      · rintro ⟨h1, h2, h3, h4⟩
        refine ⟨?_, h2, h3, h4⟩
        rcases Nat.lt_or_ge a c.1 with h | h
        · omega
        · have : c.1 - a = 0 := by omega
          rw [this] at h3; simp at h3; exact absurd (h3 ▸ hb) h4
    · rw [if_neg hb, List.mem_cons, key]
      constructor
      · rintro (rfl | ⟨h1, h2⟩)
        · exact ⟨Nat.le_refl _, by simp, by simp, hb⟩
        · exact ⟨by omega, h2⟩
      · rintro ⟨h1, h2, h3, h4⟩
        rcases Nat.lt_or_ge a c.1 with h | h
        · exact .inr ⟨by omega, h2, h3, h4⟩
        · left
          have hc : c.1 = a := by omega
          rw [hc] at h3; simp at h3
          ext1
          · exact hc
          · exact h3.symm

theorem Memory.cells_pairwise (a : Nat) (bs : Bytes) : (Memory.cells a bs).Pairwise (fun c d => c.1 < d.1) := by
  induction bs generalizing a with
  | nil => simp [Memory.cells]
  | cons b r ih =>
    unfold Memory.cells
    split
    · exact ih _
    · refine List.pairwise_cons.2 ⟨fun d hd => ?_, ih _⟩
      have := ((Memory.mem_cells _ _ _).1 hd).1
      show a < d.1
      omega

/-- A write keeps the canonical form. -/
theorem Memory.wf_write (m : Memory) (a : Nat) (bs : Bytes) (h : m.wf = true) : (m.write a bs).wf = true := by
  rw [Memory.wf_iff] at h ⊢
  obtain ⟨hz, hp⟩ := h
  unfold Memory.write
  refine ⟨fun c hc => ?_, ?_⟩
  · simp only [List.mem_append, List.mem_filter] at hc
    rcases hc with (hc | hc) | hc
    · exact hz c hc.1
    · exact ((Memory.mem_cells _ _ _).1 hc).2.2.2
    · exact hz c hc.1
  · rw [List.pairwise_append, List.pairwise_append]
    refine ⟨⟨hp.filter _, Memory.cells_pairwise _ _, ?_⟩, hp.filter _, ?_⟩
    · intro c hc d hd
      have h1 : c.1 < a := by simpa using (List.mem_filter.1 hc).2
      have h2 := ((Memory.mem_cells _ _ _).1 hd).1
      omega
    · intro c hc d hd
      have h2 : a + bs.length ≤ d.1 := by simpa using (List.mem_filter.1 hd).2
      rcases List.mem_append.1 hc with hc | hc
      · have h1 : c.1 < a := by simpa using (List.mem_filter.1 hc).2
        omega
      · have := ((Memory.mem_cells _ _ _).1 hc).2.1
        omega

/-- In the canonical form a byte reads as its cell says, and as zero where there is none. -/
theorem Memory.get_of_mem (m : Memory) (h : m.Pairwise (fun c d => c.1 < d.1)) (c : Host.Cell) (hc : c ∈ m) :
    m.get c.1 = c.2 := by
  induction m with
  | nil => simp at hc
  | cons d r ih =>
    obtain ⟨k, v⟩ := d
    rw [List.pairwise_cons] at h
    rcases List.mem_cons.1 hc with rfl | hc
    · simp [Memory.get]
    · have : k ≠ c.1 := by have := h.1 c hc; simp at this; omega
      simp [Memory.get, this, ih h.2 hc]
theorem Memory.get_of_not_mem (m : Memory) (x : Nat) (h : ∀ c ∈ m, c.1 ≠ x) : m.get x = 0 := by
  induction m with
  | nil => rfl
  | cons d r ih =>
    obtain ⟨k, v⟩ := d
    have hk : k ≠ x := h (k, v) (by simp)
    simp [Memory.get, hk, ih (fun c hc => h c (by simp [hc]))]

theorem Memory.get_filter (m : Memory) (p : Host.Cell → Bool) (x : Nat) (h : ∀ v, p (x, v) = true) :
    Memory.get (m.filter p) x = Memory.get m x := by
  induction m with
  | nil => rfl
  | cons d r ih =>
    obtain ⟨k, v⟩ := d
    by_cases hk : k = x
    · subst hk; simp [h v, Memory.get]
    · by_cases hp : p (k, v) = true
      · simp [hp, Memory.get, hk, ih]
      · simp [hp, Memory.get, hk, ih]

theorem Memory.get_append (m n : Memory) (x : Nat) :
    Memory.get (m ++ n) x = if m.any (fun c => c.1 == x) then m.get x else n.get x := by
  induction m with
  | nil => rfl
  | cons d r ih =>
    obtain ⟨k, v⟩ := d
    by_cases hk : k = x
    · simp [Memory.get, hk]
    · simp [Memory.get, hk, ih]

theorem Memory.get_cells (a : Nat) (bs : Bytes) (x : Nat) :
    (Memory.cells a bs).get x = if a ≤ x ∧ x < a + bs.length then bs.getD (x - a) 0 else 0 := by
  induction bs generalizing a with
  | nil => simp [Memory.cells, Memory.get]
  | cons b r ih =>
    have key : (Memory.cells (a + 1) r).get x = if a + 1 ≤ x ∧ x < a + (b :: r).length then (b :: r).getD (x - a) 0 else 0 := by
      rw [ih]
      by_cases h : a + 1 ≤ x ∧ x < a + 1 + r.length
      · rw [if_pos h, if_pos (by simp; omega), show x - a = (x - (a + 1)) + 1 by omega]; rfl
      · rw [if_neg h, if_neg (by simp; omega)]
    unfold Memory.cells
    by_cases hx : a = x
    · subst hx
      by_cases hb : b = 0
      · rw [if_pos hb, key, if_neg (by omega), if_pos (by simp)]; simp [hb]
      · rw [if_neg hb, if_pos (by simp)]; simp [Memory.get]
    · have e : (if a ≤ x ∧ x < a + (b :: r).length then (b :: r).getD (x - a) 0 else 0)
          = if a + 1 ≤ x ∧ x < a + (b :: r).length then (b :: r).getD (x - a) 0 else 0 := by
        by_cases h : a ≤ x ∧ x < a + (b :: r).length
        · rw [if_pos h, if_pos (by omega)]
        · rw [if_neg h, if_neg (by omega)]
      rw [e]
      split
      · exact key
      · simp [Memory.get, hx, key]

/-- After a write, the bytes written read as written and every other byte as before. -/
theorem Memory.get_write (m : Memory) (a : Nat) (bs : Bytes) (x : Nat) :
    (m.write a bs).get x = if a ≤ x ∧ x < a + bs.length then bs.getD (x - a) 0 else m.get x := by
  unfold Memory.write
  by_cases hlo : x < a
  · rw [if_neg (by omega), List.append_assoc, Memory.get_append]
    have hf : Memory.get (m.filter fun c => decide (c.1 < a)) x = m.get x := Memory.get_filter _ _ _ (fun v => by simpa using hlo)
    split
    · exact hf
    · next h =>
      have h0 : m.get x = 0 := Memory.get_of_not_mem _ _ fun c hc e => h (by
        simp only [List.any_eq_true, List.mem_filter, decide_eq_true_eq, beq_iff_eq]
        exact ⟨c, ⟨hc, by omega⟩, e⟩)
      rw [h0]
      refine Memory.get_of_not_mem _ _ fun c hc e => ?_
      rcases List.mem_append.1 hc with hc | hc
      · have := ((Memory.mem_cells _ _ _).1 hc).1; omega
      · have : a + bs.length ≤ c.1 := by simpa using (List.mem_filter.1 hc).2
        omega
  · have h1 : ((m.filter fun c => decide (c.1 < a)).any fun c => c.1 == x) = false := by
      simp only [List.any_eq_false, List.mem_filter, decide_eq_true_eq, beq_iff_eq]
      intro c hc e; omega
    rw [List.append_assoc, Memory.get_append, h1, if_neg Bool.false_ne_true, Memory.get_append]
    by_cases hhi : a + bs.length ≤ x
    · have h2 : ((Memory.cells a bs).any fun c => c.1 == x) = false := by
        simp only [List.any_eq_false, beq_iff_eq]
        intro c hc e; have := ((Memory.mem_cells _ _ _).1 hc).2.1; omega
      rw [h2, if_neg Bool.false_ne_true, if_neg (by omega)]
      exact Memory.get_filter _ _ _ (fun v => by simpa using hhi)
    · rw [if_pos (show a ≤ x ∧ x < a + bs.length by omega)]
      have hc := Memory.get_cells a bs x
      rw [if_pos (by omega)] at hc
      split
      · exact hc
      · next h =>
        rw [← hc, Memory.get_of_not_mem (Memory.cells a bs) x (fun c hc e => h (by
          simp only [List.any_eq_true, beq_iff_eq]; exact ⟨c, hc, e⟩))]
        exact Memory.get_of_not_mem _ _ fun c hc e => by
          have : a + bs.length ≤ c.1 := by simpa using (List.mem_filter.1 hc).2
          omega

/-- A read gives the bytes one by one. -/
theorem Memory.read_eq (m : Memory) (a n : Nat) : m.read a n = (List.range n).map fun i => m.get (a + i) := by
  unfold Memory.read
  have key : ∀ i, i < n → Memory.get (m.filter fun c => decide (a ≤ c.1) && decide (c.1 < a + n)) (a + i) = m.get (a + i) :=
    fun i hi => Memory.get_filter _ _ _ (fun v => by simp; omega)
  simp only
  split
  · next he =>
    apply List.ext_getElem
    · simp
    · intro i h1 h2
      simp at h1
      simp only [List.getElem_replicate, List.getElem_map, List.getElem_range]
      rw [← key i h1, List.isEmpty_iff.1 he]; rfl
  · exact List.map_congr_left fun i hi => key i (List.mem_range.1 hi)

@[simp] theorem Memory.length_read (m : Memory) (a n : Nat) : (m.read a n).length = n := by simp [Memory.read_eq]

/-- A read of the bytes just written gives them. -/
theorem Memory.read_write_same (m : Memory) (a : Nat) (bs : Bytes) :
    (m.write a bs).read a bs.length = bs := by
  rw [Memory.read_eq]
  apply List.ext_getElem
  · simp
  · intro i h1 h2
    simp only [List.getElem_map, List.getElem_range, Memory.get_write]
    rw [if_pos (by omega)]
    simp [List.getD_eq_getElem?_getD, h2]

/-- A read of bytes away from those written gives what it gave before. -/
theorem Memory.read_write_ne (m : Memory) (a : Nat) (bs : Bytes) (x n : Nat)
    (hd : x + n ≤ a ∨ a + bs.length ≤ x) : (m.write a bs).read x n = m.read x n := by
  rw [Memory.read_eq, Memory.read_eq]
  refine List.map_congr_left fun i hi => ?_
  rw [Memory.get_write, if_neg]
  have := List.mem_range.1 hi
  omega

end Sys2Proof.Machine
end

