-- ==== Sys2Proof/WellFormed.lean ====
section
/-! DEFINITION. Well-formed commands: every operand lies in the width or range that the spec gives the field it comes from. -/
namespace Sys2Proof

/-- A number of at most `w` bits. -/
def fit (w n : Nat) : Bool := decide (n < 2 ^ w)
/-- A unit number (R363). -/
def unitOk (u : Nat) : Bool := decide (u < 9)
/-- A path: endpoint ids of 8 bits, node ids of 18, REQ_IDs of 16 (R176, R442, R443). -/
def viaOk : Via → Bool
  | .control _ => true
  | .mgmt eid q => fit 8 eid && fit 16 q
  | .inBand src q => fit 18 src && fit 16 q
/-- The fields of a packet (R176, R308, R416, R420). -/
def pktOk (p : Pkt) : Bool :=
  fit 3 p.vc && fit 4 p.version && fit 4 p.typ && fit 18 p.src && fit 18 p.dst && fit 16 p.route && fit 4 p.memb
    && fit (if p.kind = 0 then 64 else if p.kind = 1 then 256 else 1024) p.args && decide (p.kind ≤ 2) && fit 26 p.payload.length
/-- A control-port request (R435). -/
def cpOk (r : CpReq) : Bool := fit 16 r.offset && fit 4 r.be && fit 32 r.data
/-- An access message: its fields, at most 4,096 data bytes (R443). -/
def accOk (m : AccMsg) : Bool :=
  viaOk m.via && fit 8 m.version && fit 16 m.index && fit 8 m.sub && fit 32 m.offset && fit 16 m.length && decide (m.data.length ≤ 4096)
/-- A flit of 128 bytes with its sideband (R415). -/
def flitOk (f : Flit) : Bool := fit 3 f.vc && fit 26 f.len && fit 2 f.kind && fit 16 f.pseq && f.bytes.length == 128
/-- An MCTP packet of at most the transmission unit (R442). -/
def mctpOk (p : MctpPkt) : Bool := fit 8 p.src && fit 8 p.dst && fit 2 p.seq && fit 3 p.tag && decide (p.payload.length ≤ 248)
/-- A burst of 1 to 64 beats of 64 bytes: it stays inside 4 KiB of its space of 2^40 bytes, on the sub-port that bits 14:12 of its
address give, under one of 64 tags (R410, R411). -/
def burstOk (subport tag addr beats : Nat) : Bool :=
  fit 40 addr && addr % 64 == 0 && decide (1 ≤ beats) && decide (addr % 4096 + 64 * beats ≤ 4096) && subport == addr / 4096 % 8 && fit 6 tag
/-- A read burst, with two outcomes for each beat, and the response to a write burst (R413, R414). -/
def readOk (b : ReadBurst) : Bool := burstOk b.subport b.tag b.addr b.beats.length && b.beats.all fun x => fit 2 x.1 && fit 2 x.2
def writeOk (b : WriteBurst) : Bool := burstOk b.subport b.tag b.addr b.beats && fit 2 b.status
/-- Tiles 0 to 33 and columns 0 to 65 (R59, R107). -/
def placeOk : SramPlace → Bool
  | .tile t => decide (t < 34)
  | .column c => decide (c < 66)
  | .control => true
  | .unit u => unitOk u
def selfOk (t : SelfTest) : Bool :=
  (t.tilesBad.all fun n => decide (n < 34)) && (t.colsBad.all fun n => decide (n < 66)) && t.rowsFixed.all fun x => placeOk x.1
/-- What the repair shadow may name (R447). -/
def testOpOk : TestOp → Bool
  | .shadowWrite rows tiles cols =>
    (rows.all fun x => placeOk x.1) && (tiles.all fun n => decide (n < 34)) && cols.all fun n => decide (n < 66)
  | _ => true
/-- A signed number of 32 bits. -/
def intOk (i : Int) : Bool := decide (-(2 ^ 31) ≤ i) && decide (i < 2 ^ 31)
/-- Signed samples of 24 bits (R449). -/
def sampleOk (x : Sample) : Bool := decide (-(2 ^ 23) ≤ x.v) && decide (x.v < 2 ^ 23) && decide (-(2 ^ 23) ≤ x.i) && decide (x.i < 2 ^ 23)
/-- A DOMAIN value: at most 4 MiB (R360). -/
def bytesOk (b : Bytes) : Bool := decide (b.length ≤ 4194304)

/-- A command is well-formed. -/
def wellFormed (i : Instr) : Bool :=
  match i with
  | .resetAssert _ torn => torn.all (fit 24)
  | .tclkResetAssert => true
  | .resetRelease _ => true
  | .initSequence t => selfOk t
  | .calLoad via => viaOk via
  | .unitArm via mask => viaOk via && fit 32 mask
  | .armInitComplete => true
  | .unitDisarm via mask => viaOk via && fit 32 mask
  | .unitClear via mask => viaOk via && fit 32 mask
  | .jobStop via epoch => viaOk via && fit 64 epoch
  | .maintEnter via => viaOk via
  | .unitDrainComplete u => unitOk u
  | .tileRetire via tile => viaOk via && fit 32 tile
  | .pcColRetire via col => viaOk via && fit 32 col
  | .sramUncorrectableError p => placeOk p
  | .routeChange via now => viaOk via && fit 64 now
  | .membInstall via now => viaOk via && fit 64 now
  | .restoreStart via now => viaOk via && fit 64 now
  | .plateReturn via now => viaOk via && fit 64 now
  | .plateReturnDiscardsDone => true
  | .tierFlush via tenant => viaOk via && fit 32 tenant
  | .faSubmit via now => viaOk via && fit 64 now
  | .watchClear via node => viaOk via && fit 32 node
  | .overlaySwitch via arg now => viaOk via && fit 64 arg && fit 64 now
  | .commenceStart via now => viaOk via && fit 64 now
  | .commenceAbandon via => viaOk via
  | .scrubStart via now => viaOk via && fit 64 now
  | .scrubPage now => fit 64 now
  | .evtAck via mask => viaOk via && fit 32 mask
  | .dictWrite r now => cpOk r && fit 64 now
  | .accDataRead r => cpOk r
  | .mbRead _ => true
  | .mbWrite _ _ now => fit 64 now
  | .mbAbort _ => true
  | .flagClear via key bits => viaOk via && fit 24 key && fit 64 bits
  | .chronoTailWrite via tail => viaOk via && fit 32 tail
  | .overlayImageWrite via slot image => viaOk via && fit 3 slot && bytesOk image
  | .regionEntryWrite via value => viaOk via && bytesOk value
  | .takeoverSetWrite via value => viaOk via && bytesOk value
  | .thermMarginWrite via value now => viaOk via && fit 32 value && fit 64 now
  | .thermStaleTimeout now => fit 64 now
  | .plateEnableWrite via value now => viaOk via && fit 32 value && fit 64 now
  | .tierQuotaWrite via value => viaOk via && bytesOk value
  | .retireListWrite via value => viaOk via && bytesOk value
  | .joinSnapshotWrite via value => viaOk via && bytesOk value
  | .switchOrderWrite src reqId now value => fit 18 src && fit 16 reqId && fit 64 now && bytesOk value
  | .switchCancel src reqId now value => fit 18 src && fit 16 reqId && fit 64 now && bytesOk value
  | .accMsgRead m => accOk m
  | .accMsgWrite m now => accOk m && fit 64 now
  | .accMsgAbort m => accOk m
  | .dictResponseRx now m => fit 64 now && pktOk m
  | .dictResend now dst reqId => fit 64 now && fit 18 dst && fit 16 reqId
  | .dictStoreExpiry now src reqId => fit 64 now && fit 18 src && fit 16 reqId
  | .mctpPacketRx now p => fit 64 now && mctpOk p
  | .setEndpointId src op eid => fit 8 src && fit 2 op && fit 8 eid
  | .getEndpointId src => fit 8 src
  | .getMctpVersionSupport src typ => fit 8 src && fit 8 typ
  | .getMessageTypeSupport src => fit 8 src
  | .getVendorDefinedMessageSupport src selector => fit 8 src && fit 8 selector
  | .enec mask => fit 8 mask
  | .disec mask => fit 8 mask
  | .rstdaa => true
  | .entdaa addr => fit 7 addr
  | .setdasa stat addr => fit 7 stat && fit 7 addr
  | .setnewda addr => fit 7 addr
  | .getpid => true
  | .getbcr => true
  | .getdcr => true
  | .getstatus => true
  | .getmwl => true
  | .getmrl => true
  | .setmwl v => fit 16 v
  | .setmrl v => fit 16 v
  | .pmVoltageAck => true
  | .pmFrequencyAck => true
  | .timeBecomesValid count => fit 64 count
  | .timeBecomesInvalid now => fit 64 now
  | .timeStep now count => fit 64 now && fit 64 count
  | .linkUp port => fit 1 port
  | .linkDown port => fit 1 port
  | .linkRetrain port => fit 1 port
  | .linkCreditReturn port vc count => fit 1 port && fit 3 vc && fit 4 count
  | .packetTransmit now port => fit 64 now && fit 1 port
  | .creditPacketRx now m => fit 64 now && pktOk m
  | .peerCreditWait now node vc => fit 64 now && fit 18 node && fit 3 vc
  | .peerCreditVoid now node => fit 64 now && fit 18 node
  | .rxPacketGapTimeout now port vc => fit 64 now && fit 1 port && fit 3 vc
  | .rxPseqLost now src vc pseq => fit 64 now && fit 18 src && fit 3 vc && fit 16 pseq
  | .creditLeaseExpiry now node => fit 64 now && fit 18 node
  | .mspReadReturn now b => fit 64 now && readOk b
  | .mspWriteResponse b => writeOk b
  | .pageRetireCopyComplete page => fit 24 page
  | .contrib token => fit 64 token
  | .releaseToken token => fit 64 token
  | .lsePart token => fit 64 token
  | .cepTokenOut => true
  | .localPartial now item epoch level index => fit 64 now && fit 18 item && fit 48 epoch && fit 5 level && fit 17 index
  | .bundleSend bundle epoch dst => fit 16 bundle && fit 48 epoch && fit 18 dst
  | .skipMark gsid => fit 32 gsid
  | .normPass now => fit 64 now
  | .pcStatIncrement entry => fit 8 entry
  | .pcRoot entry => fit 8 entry
  | .pcTargetS0 entry => fit 8 entry
  | .updateStart gsid => fit 32 gsid
  | .skipUnitComplete gsid page tile _ => fit 32 gsid && fit 8 page && fit 6 tile
  | .refRecheckComplete gsid page tile agree => fit 32 gsid && fit 8 page && fit 6 tile && fit 6 agree
  | .deltaSend now gsid page => fit 64 now && fit 32 gsid && fit 8 page
  | .deltaRx now m => fit 64 now && pktOk m
  | .holdAckRx now m => fit 64 now && pktOk m
  | .adoptReportRx now m => fit 64 now && pktOk m
  | .commitRx now m => fit 64 now && pktOk m
  | .abandonRx now m => fit 64 now && pktOk m
  | .parityFoldComplete src seq => fit 18 src && fit 16 seq
  | .ownerAckTimeout now holder seq => fit 64 now && fit 18 holder && fit 16 seq
  | .adoptReportResend now => fit 64 now
  | .partRx now m => fit 64 now && pktOk m
  | .headerRootRx now m => fit 64 now && pktOk m
  | .normRx now m => fit 64 now && pktOk m
  | .normRootRx now m => fit 64 now && pktOk m
  | .lseRx now m => fit 64 now && pktOk m
  | .lseLocalPartial now merge qblock epoch level index => fit 64 now && fit 16 merge && fit 16 qblock && fit 48 epoch && fit 5 level && fit 17 index
  | .lseMergeComplete merge qblock epoch => fit 16 merge && fit 16 qblock && fit 48 epoch
  | .bundleRx now m => fit 64 now && pktOk m
  | .retainRelRx now m => fit 64 now && pktOk m
  | .publishBlock now layer block => fit 64 now && fit 16 layer && fit 32 block
  | .helloArriveRx now m => fit 64 now && pktOk m
  | .helloReleaseRx now m => fit 64 now && pktOk m
  | .meridianRelease now => fit 64 now
  | .jobStart now => fit 64 now
  | .helloBeaconRx now m => fit 64 now && pktOk m
  | .beaconPeriod now => fit 64 now
  | .beaconMissExpiry now node => fit 64 now && fit 18 node
  | .grantMembershipRx now m => fit 64 now && pktOk m
  | .membPullRx now m => fit 64 now && pktOk m
  | .occultRx now m => fit 64 now && pktOk m
  | .occultResend now node => fit 64 now && fit 18 node
  | .leaseRenewRx now m => fit 64 now && pktOk m
  | .leaseTakeRx now m => fit 64 now && pktOk m
  | .leaseReleaseRx now m => fit 64 now && pktOk m
  | .leaseReportRx now m => fit 64 now && pktOk m
  | .leaseRenewDue now kind => fit 64 now && fit 4 kind
  | .leaseTakeDue now kind => fit 64 now && fit 4 kind
  | .leaseActStart now kind => fit 64 now && fit 4 kind
  | .leaseReportResend now => fit 64 now
  | .extBuildRx now m => fit 64 now && pktOk m
  | .extActivateRx now m => fit 64 now && pktOk m
  | .extWithdrawRx now m => fit 64 now && pktOk m
  | .extCancelRx now m => fit 64 now && pktOk m
  | .grantAnnounceResend now => fit 64 now
  | .extSlotCopySend now entry slot => fit 64 now && fit 7 entry && fit 16 slot
  | .basePageSend now gsid page dst row => fit 64 now && fit 32 gsid && fit 8 page && fit 18 dst && fit 2 row
  | .basePageRx now m => fit 64 now && pktOk m
  | .restripeReadySend now => fit 64 now
  | .restripeBuildRx now m => fit 64 now && pktOk m
  | .restripeDoneSend now => fit 64 now
  | .restripeSwitchRx now m => fit 64 now && pktOk m
  | .fragReqRx now m => fit 64 now && pktOk m
  | .fragDataRx now m => fit 64 now && pktOk m
  | .rebuildRequest now => fit 64 now
  | .fragReqTimeout now id => fit 64 now && fit 32 id
  | .degradedRetry now id => fit 64 now && fit 32 id
  | .retainTakeResend now gsid => fit 64 now && fit 32 gsid
  | .plateCutAnnounce now => fit 64 now
  | .plateManifestZeroComplete now => fit 64 now
  | .cutRx now m => fit 64 now && pktOk m
  | .cutAckRx now m => fit 64 now && pktOk m
  | .cutResend now => fit 64 now
  | .plateSpill slot => fit 16 slot
  | .plateDrainExtent now gsid extent => fit 64 now && fit 32 gsid && fit 32 extent
  | .plateExtentRetry now gsid extent => fit 64 now && fit 32 gsid && fit 32 extent
  | .drainedRx now m => fit 64 now && pktOk m
  | .drainedResend now => fit 64 now
  | .plateManifestWriteComplete now => fit 64 now
  | .sealedRx now m => fit 64 now && pktOk m
  | .plateAbortRx now m => fit 64 now && pktOk m
  | .plateAbortResend now => fit 64 now
  | .fabricLoadRx now m => fit 64 now && pktOk m
  | .fabricStoreRx now m => fit 64 now && pktOk m
  | .fabricAtomicRx now m => fit 64 now && pktOk m
  | .bulkReadRx now m => fit 64 now && pktOk m
  | .bulkWriteRx now m => fit 64 now && pktOk m
  | .invalRx now m => fit 64 now && pktOk m
  | .checkPutRx now m => fit 64 now && pktOk m
  | .fabricResponseRx now m => fit 64 now && pktOk m
  | .fabricTimeout now tag => fit 64 now && fit 10 tag
  | .tagReuseExpiry now tag => fit 64 now && fit 10 tag
  | .atomicTableExpiry now src tag => fit 64 now && fit 18 src && fit 10 tag
  | .migrationComplete page => fit 32 page
  | .commenceRx now m => fit 64 now && pktOk m
  | .commenceAckTreeRx now m => fit 64 now && pktOk m
  | .commenceAckGroupRx now m => fit 64 now && pktOk m
  | .foreignVersionCommenceRx now m => fit 64 now && pktOk m
  | .commenceResend now => fit 64 now
  | .groupAckResend now => fit 64 now
  | .treeAckResend now => fit 64 now
  | .startReleaseResend now => fit 64 now
  | .commenceTimeout now => fit 64 now
  | .switchOrderResend now => fit 64 now
  | .fmSample x => sampleOk x
  | .fmModStuck channel => fit 1 channel
  | .fmSnapshotClose => true
  | .fmPeriodClose => true
  | .fmAuxFall => true
  | .fmAuxRise => true
  | .fmSealChange _ => true
  | .fmReadSnapshot word => fit 8 word
  | .fmReadLog entry => fit 16 entry
  | .fmWriteCal vOffset vGain iOffset iGain => intOk vOffset && intOk vGain && intOk iOffset && intOk iGain
  | .fmClearLog => true
  | .fmWorkReportTake tenant work => fit 4 tenant && fit 64 work
  | .workReportSend => true
  | .workReportAck => true
  | .fmReadout now => fit 64 now
  | .fmMirrorStaleTimeout now => fit 64 now
  | .fabricFlitRx now port f => fit 64 now && fit 1 port && flitOk f
  | .malformedCepToken token => fit 64 token
  | .testPortAccess op => testOpOk op
  | .fmClockFault _ => true

end Sys2Proof
end

