-- ==== Sys2Proof/Tests/Slice0.lean ====
section
/-! SUPPORT. Tests: ill-formed commands that WellFormed refuses, values that the spec gives, and witnesses that the hypotheses of
the statements can be met together. -/
namespace Sys2Proof.Tests
open Sys2Proof Sys2Proof.Machine

/-! ### Ill-formed commands: one for each check of WellFormed -/

/-- A packet of the Cresol kind from node 1 to node 0. -/
def pkt (typ args : Nat) (payload : Bytes) : Pkt :=
  { kind := 0, vc := typeVc typ, version := 1, typ := typ, src := 1, dst := 0, route := 0, memb := 0, args := args, payload := payload }
def msg : AccMsg := { via := .mgmt 8 1, version := 1, index := 0x1000, sub := 0, final := true, offset := 0, length := 4, data := [] }

theorem test_wf_unit : wellFormed (.unitDrainComplete 9) = false := by decide
theorem test_wf_fit : wellFormed (.contrib (2 ^ 64)) = false := by decide
theorem test_wf_endpoint : wellFormed (.maintEnter (.mgmt 256 0)) = false := by decide
theorem test_wf_source : wellFormed (.maintEnter (.inBand (2 ^ 18) 0)) = false := by decide
theorem test_wf_packet : wellFormed (.commitRx 0 { pkt 3 0 [] with src := 2 ^ 18 }) = false := by decide +kernel
theorem test_wf_packet_kind : wellFormed (.commitRx 0 { pkt 3 0 [] with kind := 3 }) = false := by decide +kernel
theorem test_wf_port_request : wellFormed (.dictWrite { offset := 0x14, be := 16, data := 0, keeper := false } 0) = false := by decide
theorem test_wf_message : wellFormed (.accMsgRead { msg with index := 65536 }) = false := by decide
theorem test_wf_message_ok : wellFormed (.accMsgRead msg) = true := by decide
theorem test_wf_flit : wellFormed (.fabricFlitRx 0 0 { vc := 0, sop := true, eop := true, err := false, len := 128, kind := 0, pseq := 0, bytes := [] }) = false := by
  decide
theorem test_wf_tile : wellFormed (.initSequence { tilesBad := [34], colsBad := [], controlSramBad := false, rowsFixed := [] }) = false := by decide
theorem test_wf_column : wellFormed (.initSequence { tilesBad := [], colsBad := [66], controlSramBad := false, rowsFixed := [] }) = false := by decide
theorem test_wf_place : wellFormed (.sramUncorrectableError (.column 66)) = false := by decide
theorem test_wf_sample : wellFormed (.fmSample ⟨2 ^ 23, 0⟩) = false := by decide
theorem test_wf_signed : wellFormed (.fmWriteCal (2 ^ 31) 0 0 0) = false := by decide
theorem test_wf_burst_tag : wellFormed (.mspWriteResponse { subport := 0, tag := 64, tier1 := false, addr := 0, beats := 1, status := 0, reader := .scrub }) = false := by
  decide
theorem test_wf_burst_crosses : wellFormed (.mspWriteResponse { subport := 0, tag := 0, tier1 := false, addr := 64, beats := 64, status := 0, reader := .scrub }) = false := by
  decide
theorem test_wf_burst_beat : wellFormed (.mspReadReturn 0 { subport := 0, tag := 0, tier1 := false, addr := 0, beats := [(4, 0)], reader := .scrub }) = false := by
  decide
theorem test_wf_burst_ok : wellFormed (.mspReadReturn 0 { subport := 1, tag := 63, tier1 := false, addr := 4096, beats := List.replicate 64 (0, 0), reader := .scrub }) = true := by
  decide
theorem test_wf_mctp : wellFormed (.mctpPacketRx 0 { src := 8, dst := 8, som := true, eom := true, seq := 4, tag := 0, pecOk := true, payload := [] }) = false := by
  decide

/-! ### Values from the spec -/

/-- The check value of CRC-64 (R46). -/
theorem test_crc_check : crc64 [0x31, 0x32, 0x33, 0x34, 0x35, 0x36, 0x37, 0x38, 0x39] = 0x6C40DF5F0B497347 := by decide +kernel
/-- x^8 = x^4 + x^3 + x^2 + 1 in the field (R151). -/
theorem test_gf_reduces : gfMul 0x80 2 = 0x1D := by decide +kernel

/-! ### States that meet the hypotheses of the statements -/

def on (a : Alesh) : State := { State.reset with alesh := a }
/-- The core after reset, in a given core state. -/
def inState (c : CoreState) : Alesh := { State.reset.alesh with ctl := { State.reset.alesh.ctl with core := c, upK := true, upT := true, upM := true, upF := true } }
def idle : Alesh := inState .idle
def port : Via := .control true
theorem admits_port (a : Alesh) (h : a.ctl.core ≠ .reset) : Admits a port := h
def setNums (a : Alesh) (l : List (Nat × Nat)) : Alesh := { a with dict := { a.dict with nums := l } }
/-- Node 0 of a group of three in a running job at step epoch 7: two data columns, one row of parity, the valid time 1,000. It owns the
first slice of shard 0, in slot 0. -/
def job : Alesh :=
  let a := inState .running
  { a with
    ctl := { a.ctl with units := List.replicate 9 .running }
    clock := { captured := 1000, port := 1000, valid := true }
    memb := { a.memb with members := [0, 1, 2], heard := [(1, 900)] }
    dict := { a.dict with
      nums := [(O.STEP_EPOCH, 7), (O.STRIPE_K, 2), (O.STRIPE_M, 1), (O.STRIPE_M_ACTIVE, 1), (O.PADDED_PAGES, 257), (O.SHARD_PAGES, 257), (O.PROTECTION_STATE, 0)]
      doms := [(O.GROUP_MEMBERS, leBytes 8 0 ++ leBytes 8 1 ++ leBytes 8 2)] }
    slots := { a.slots with map := [(1, 0)] }
    take := { a.take with owned := [1], seqs := [(0, [1]), (1, [65537]), (2, [131073])], owners := [(1, 0), (65537, 1), (131073, 2)] }
    progs := [Prog.fresh 1 7] }
def Run (a : Alesh) : Prop := a.inJob = true ∧ a.clock.valid = true
theorem job_runs : job.inJob = true ∧ job.clock.valid = true ∧ job.idleToJob = true ∧ job.joinedOrJob = true := by decide +kernel
theorem arrives_pkt (typ args : Nat) (p : Bytes) : Arrives job typ (pkt typ args p) := by
  have h : job.node = 0 ∧ job.isMember 1 = true ∧ job.memb.removed.contains 1 = false ∧ 0 = job.num O.MEMBERSHIP_EPOCH % 16 ∧
      0 = job.num O.ROUTE_EPOCH := by decide +kernel
  exact ⟨job_runs.2.2.1, rfl, h.1.symm, rfl, h.2.1, h.2.2.1, h.2.2.2.1, h.2.2.2.2⟩

/-- In a step's queue, a command and the rest. -/
theorem witness_StepTakesFrontOfQueue :
    (({ State.reset with pending := [.tclkResetAssert, .linkUp 0] } : State).pending = .tclkResetAssert :: [.linkUp 0]) ∧ State.reset.pending = [] := ⟨rfl, rfl⟩
theorem witness_CoreEntersAndLeavesReset : Domain.power ≠ .t ∧ (∀ p ∈ [3], ¬(p * 65536 ≤ 65536 ∧ 65536 < (p + 1) * 65536)) := by decide
/-- INIT with good and with bad control SRAM, and an empty and a wrong calibration image. -/
theorem witness_InitRunsAndCalibrationLoads :
    (inState .init).ctl.initStep < 4 ∧ (inState .init).num O.INIT_FAIL = 0 ∧ (inState .init).test.tiles = [] ∧ (inState .init).test.cols = [] ∧
      16 ≤ (inState .init).num O.TILE_ACTIVE_COUNT ∧ 16 ≤ (inState .init).num O.PC_WIDTH ∧ Admits (inState .init) port ∧
      (inState .init).dom O.CAL_IMAGE = [] ∧
      (let a := { inState .maint with dict := { (inState .maint).dict with doms := [(O.CAL_IMAGE, [1])] } }
       a.dom O.CAL_IMAGE ≠ [] ∧ a.calOk (a.dom O.CAL_IMAGE) = false) := by
  simp only [Admits, port]; decide +kernel
/-- Areas of Tier 0 that lie apart, in a core that is idle. -/
def placed : Alesh := setNums idle [(O.OVERLAY_BASE, 2 ^ 39), (O.STAGE_BASE, 2 ^ 38), (O.META_BASE, 2 ^ 37), (O.SHARD_PAGES, 1), (O.PADDED_PAGES, 1)]
/-- Units 0 to 8 disabled, armed, faulted; one that is not in the From state. -/
theorem witness_UnitCommandsMoveTheNamedUnits :
    let armed := { idle with ctl := { idle.ctl with units := List.replicate 9 .armed } }
    let faulted := { idle with ctl := { idle.ctl with units := List.replicate 9 .faulted } }
    Admits idle port ∧ idle.ctl.units.length = 9 ∧ (∀ u, u < 9 → Nat.testBit 0x1FF u = true → idle.unit u = .disabled) ∧
      (∀ u, u < 9 → Nat.testBit 0x1FF u = true → armed.unit u = .armed) ∧ (∀ u, u < 9 → Nat.testBit 1 u = true → faulted.unit u = .faulted) ∧
      ¬(∀ u, u < 9 → Nat.testBit 1 u = true → idle.unit u = .armed) ∧ placed.armOk 0x10F = true := by
  simp only [Admits, port]; decide +kernel
theorem witness_ArmingInitialisesTheMetadata :
    let a := { idle with ctl := { idle.ctl with initJob := 1 } }
    a.ctl.core ≠ .occulted ∧ a.ctl.initJob ≠ 0 ∧ a.ctl.initCoding = 0 ∧ a.errs.retired = [] ∧ a.comm = Comm.reset := by decide +kernel
theorem witness_UnitsAndTheCoreLeaveTheirJob :
    Admits job port ∧ job.inJob = true ∧ job.inProgress < 9 ∧ Admits idle port ∧ (∀ u ∈ idle.ctl.units, u = UState.disabled ∨ u = .faulted) ∧
      ({ job with ctl := { job.ctl with units := job.ctl.units.set 8 .draining } } : Alesh).unit 8 = .draining ∧
      ({ job with ctl := { job.ctl with discarding := true } } : Alesh).ctl.discarding = true := by
  simp only [Admits, port]; decide +kernel
/-- Tile 0 and column 3 with spares at hand; the last tile that may go; a place with a word and one without. -/
theorem witness_SparesAndSramErrors :
    let few := setNums idle [(O.TILE_ACTIVE_MAP, 0xFFFF), (O.TILE_ACTIVE_COUNT, 16)]
    let bare := { few with ctl := { few.ctl with spares := [] } }
    let spare := { setNums idle [(O.TILE_ACTIVE_MAP, 0xFFFFFFFF), (O.TILE_ACTIVE_COUNT, 32)] with ctl := { idle.ctl with spares := [32, 33] } }
    Admits idle port ∧ spare.idleToJob = true ∧ (spare.num O.TILE_ACTIVE_MAP).testBit 0 = true ∧ (spare.num O.TILE_ACTIVE_MAP).testBit 32 = false ∧
      16 ≤ ((List.range 34).filter fun i => (spare.num O.TILE_ACTIVE_MAP - 2 ^ 0 + 2 ^ 32).testBit i).length ∧
      (bare.num O.TILE_ACTIVE_MAP).testBit 0 = true ∧ bare.num O.TILE_ACTIVE_COUNT ≤ 16 ∧ colGood idle 3 = true ∧
      idle.num O.PC_MIN_WIDTH ≤ min 64 ((List.range 66).filter fun i => colGood idle i && i != 3).length ∧
      (let a := { idle with ctl := { idle.ctl with sramValid := [.control, .unit 4, .tile 0, .column 3] } }
       a.ctl.sramValid.contains .control = true ∧ a.ctl.sramValid.contains (.unit 0) = false ∧ a.unit 4 ≠ .faulted) := by
  simp only [Admits, port]; decide +kernel
/-- Writes and reads of an RW object of 32 bits, in range and out of it, of an RO object, of a reserved index and of a DOMAIN. -/
theorem witness_WindowWritesAndReads :
    objOf? O.PLATE_INTERVAL ≠ none ∧ objOf? 0xFFFF00 = none ∧ ((objOf? O.STEP_EPOCH).map (·.cls)) = some .ro ∧
      ((objOf? O.STRIPE_K).map fun o => (o.cls, o.ty.bits, idle.inRange o 4, idle.inRange o 200)) = some (.rwd, 8, true, false) ∧
      idle.rwdOpen O.STRIPE_K = true ∧ job.rwdOpen O.STRIPE_K = false ∧ ((objOf? O.PLATE_INTERVAL).map (·.cls)) = some .rw ∧
      ((objOf? O.GATEWAY_KEY).map (·.cls)) = some .rwk ∧
      ownRow O.STRIPE_K = false ∧ idle.stageHolds O.STRIPE_K = false ∧ idle.pairOk O.STRIPE_K 4 = true ∧ idle.win.accDone = true ∧
      ((objOf? O.UNIT_ARM).map (·.cls)) = some .cmd ∧ ((objOf? O.CERT_MAILBOX).map (·.ty)) = some .dom := by decide +kernel
theorem witness_MailboxMovesWholeValues :
    let a := { placed with win := { placed.win with mbAddr := O.GROUP_MEMBERS, mbLen := 4096 } }
    a.ctl.core ≠ .reset ∧ a.win.mbBusy = false ∧ a.win.mbOffset = 0 ∧ ((objOf? O.GROUP_MEMBERS).map fun o => (o.cls, o.ty)) = some (.rwd, .dom) ∧
      ownRow O.GROUP_MEMBERS = false ∧ a.rwdOpen O.GROUP_MEMBERS = true ∧ a.staged = none ∧ a.fenced (a.num O.STAGE_BASE) 8 = false ∧ 8 ≤ a.longest O.GROUP_MEMBERS ∧
      ((objOf? O.GROUP_MEMBERS).map fun o => a.typeOk o (leBytes 8 1)) = some true ∧ contentOk O.GROUP_MEMBERS (leBytes 8 1) = true ∧
      ({ a with staged := some ⟨0, O.GROUP_MEMBERS, 8⟩ } : Alesh).staged.map (·.path) = some 0 := by decide +kernel
theorem witness_FlagsAndEventsClearAsNamed :
    ((objOf? O.CTRL_FLAGS).map fun o => (o.cls, o.ty.bits)) = some (.w1c, 32) ∧ Admits job port ∧ job.joinedOrJob = true ∧
      ({ job with health := { job.health with watch := [(2, 0)] } } : Alesh).health.watch.any (fun w => w.1 == 2) = true ∧
      job.health.watch.any (fun w => w.1 == 2) = false := by
  simp only [Admits, port]; decide +kernel
theorem witness_WritesWithRowsOfTheirOwn :
    Admits idle port ∧ idle.isKeeper port = true ∧ idle.isKeeper (.control false) = false ∧ (∀ u, u < 9 → idle.unit u = .disabled) ∧
      idle.inJob = false ∧ sumNat ((takeBlocks 1 []).map fun t => t.raw.length) = 0 ∧ idle.rwdOpen O.RETIRE_LIST = true ∧
      idle.rwdOpen O.JOIN_SNAPSHOT = true := by
  simp only [Admits, port]; decide +kernel
theorem witness_tail_moves :
    let bounds := idle.chronoBounds (idle.chronoSize / 64 + 1) (idle.num O.CHRONO_TAIL)
    bounds.contains 0 = true ∧ bounds.contains 64 = false := by decide +kernel
theorem witness_region_installs :
    let a : Alesh := { idle with dict := { idle.dict with doms := [(O.REGION_TABLE, [])] } }
    regionsOk (regionsOf (overlay (a.dom O.REGION_TABLE) 0 ((keptBytes O.REGION_ENTRY (List.replicate 33 0)).drop 1))) = true := by decide +kernel
theorem witness_margin_goes_stale :
    let a := { setNums job [(O.THERM_STALE_NS, 5)] with health := { job.health with thermStale := false, thermAt := 990 } }
    a.num O.THERM_STALE_NS ≠ 0 ∧ a.clock.valid = true ∧ a.health.thermAt + a.num O.THERM_STALE_NS ≤ a.clock.captured := by decide +kernel
theorem witness_AccessMessagesReadWriteAbort :
    Admits job (.mgmt 8 1) ∧ Admits job (.inBand 1 7) ∧ (Via.mgmt 8 1 ≠ .control true) ∧
      ((objOf? O.STEP_EPOCH).map fun o => (o.cls, o.ty.bits)) = some (.ro, 64) ∧ viaPath (.mgmt 8 1) ≠ viaPath (.inBand 1 7) := by
  simp only [Admits]; decide +kernel
theorem witness_InBandRequestsAreKept :
    let body := accBody 0x82 5 O.SWITCH_ORDER true 0 0 0 0 []
    let q : Asked := { dst := 1, reqId := 5, body := accBody 2 5 O.STRIPE_K true 0 1 0 0 [3], due := 900, tries := 0 }
    let a := { job with mgmt := { job.mgmt with asked := [q], stored := [⟨1, 7, [], 990⟩] } }
    24 ≤ body.length ∧ body.length ≤ 4120 ∧ 0x81 ≤ leAt body 1 1 ∧ leAt body 1 1 ≤ 0x83 ∧ leAt body 14 2 ≤ 9 ∧ leAt body 2 2 = 5 ∧ q.isOrder = false ∧
      (a.mgmt.asked.find? fun x => x.dst == 1 && x.reqId == 5) = some q ∧ q.due ≤ a.clock.captured ∧ q.tries + 1 ≠ a.num O.RETRY_LIMIT := by decide +kernel
theorem witness_ManagementBusAnswers :
    let p : MctpPkt := { src := 8, dst := 0, som := true, eom := true, seq := 0, tag := 0, pecOk := true, payload := [0x00, 0x9F, 0x02] }
    idle.ctl.upK = true ∧ idle.ctl.core ≠ .reset ∧ p.dst = idle.num O.MCTP_EID ∧ p.payload = [0x00, BitVec.ofNat 8 (0x80 + 31), 0x02] ∧
      idle.num O.I3C_DYN_ADDR = 0 ∧ ({ idle with mgmt := { idle.mgmt with staticAddr := 9 } } : Alesh).mgmt.staticAddr ≠ 0 ∧
      (inState .init).ctl.upK = true ∧ ({ idle with ctl := { idle.ctl with upK := false } } : Alesh).ctl.upK = false ∧ (setNums idle [(O.I3C_DYN_ADDR, 8)]).num O.I3C_DYN_ADDR ≠ 0 := by decide +kernel
theorem witness_TimeAndPowerMove :
    let a := { idle with clock := { captured := 0, port := 0, valid := false } }
    a.ctl.upT = true ∧ a.clock.valid = false ∧ job.clock.valid = true ∧ a.memb = Memb.reset ∧ a.leases = [] ∧ a.ports.opened = [] ∧ a.ports.queue = [] ∧
      a.coding = Coding.reset ∧ a.take = Take.reset ∧ a.plate = Plate.reset ∧ a.comm = Comm.reset ∧ a.merid = Merid.reset ∧ a.mgmt.asked = [] ∧
      a.mgmt.stored = [] ∧ a.fabric.reqs = [] ∧ a.fabric.restTags = [] ∧ a.fabric.atomics = [] ∧
      (setNums idle [(O.PM_STATE, 2)]).num O.PM_STATE = 2 ∧ ({ idle with pm := { idle.pm with target := some (500, 0) } } : Alesh).pm.target = some (500, 0) := by
  decide +kernel
theorem witness_LinksCarryPackets :
    let up := { job with ports := { job.ports with up0 := true, queue := [pkt 0 0 []], txCredit := [(lane 0 0, 1)] } }
    job.linkIsUp 0 = false ∧ up.linkIsUp 0 = true ∧ up.maySend = true ∧ up.ctl.upF = true ∧ up.sendingOn 0 0 = none ∧
      (up.ports.queue.find? fun x => x.vc == 0) = some (pkt 0 0 []) ∧ 0 < up.txCredit 0 0 ∧ pktFlits (pkt 0 0 []) = 1 ∧
      (∀ v, v < 8 → ({ up with ports := { up.ports with txCredit := [] } } : Alesh).readyOn up.ports.queue 0 v = none) ∧
      (let x : Sending := { port := 0, vc := 0, pkt := pkt 0 0 (List.replicate 200 0), pseq := 0, next := 1 }
       ({ up with ports := { up.ports with sending := [x] } } : Alesh).sendingOn 0 0 = some x ∧ x.next < pktFlits x.pkt) := by decide +kernel
theorem witness_PeerCreditPacesAndReturns :
    let p := { pkt 1 0 [] with src := 0, dst := 1 }
    let t : PeerTx := { node := 1, vc := p.vc, next := 0, limit := 0, oldLimit := 0, since := 0, void := true, asked := false, due := 0, last := 0 }
    let o : OpenRx := { port := 0, vc := 2, kind := 0, len := 200, pseq := 5, bytes := [], flits := 1, since := 0, bad := false }
    let a := { setNums job [(O.FP_GAP_NS, 10), (O.LEASE_TERM_NS, 20), (O.LEASE_GUARD_NS, 1)] with ports := { job.ports with queue := [p], opened := [o] } }
    let args := packBits [(0, 18, 1), (64, 8, 1), (128, 16, 9)]
    a.idleToJob = true ∧ bf args 0 18 = 1 ∧ bf args 32 18 = a.node ∧ bf args 64 8 = 1 ∧ bf args 72 1 = 0 ∧ a.isMember 1 = true ∧
      (∀ v ∈ [2, 3, 4], (a.peerTx 1 v).last + (a.num O.LEASE_TERM_NS - a.num O.LEASE_GUARD_NS) ≤ a.clock.captured) ∧
      max (a.num O.COMMENCE_TIME) (lookupD 0 a.ports.heardAt 1) + a.num O.LEASE_TERM_NS ≤ a.clock.captured ∧
      off16 o.pseq (a.peerRx 0 2).base < 32768 ∧ newer16 o.pseq (a.peerRx 0 2).base = true ∧ (a.peerRx 0 2).done = [] ∧ o.src = 0 ∧
      (({ a with ports := { a.ports with tx := [t] } } : Alesh).peerTx p.dst p.vc).mayStart = false ∧ p.vc ∈ [2, 3, 4] ∧ p.dst ≠ a.node ∧ a.maySend = true ∧
      (a.ports.opened.find? fun x => x.port == 0 && x.vc == 2) = some o ∧ o.since + a.num O.FP_GAP_NS ≤ a.clock.captured := by decide +kernel
theorem witness_FlitsMakePacketsThatAct :
    let a := { setNums job [(O.FP_GAP_NS, 10), (O.FP_RX_CREDITS, 4)] with ports := { job.ports with up0 := true } }
    a.ctl.upF = true ∧ a.linkIsUp 0 = true ∧ (a.ports.opened.find? fun o => o.port == 0 && o.vc == 0) = none ∧ a.withheld 0 = false ∧
      0 < a.num (O.FP_RX_CREDITS + 0) ∧ 0 < a.num O.FP_GAP_NS := by decide +kernel
theorem witness_MemorySideOutcomes :
    let bad : ReadBurst := { subport := 1, tag := 3, tier1 := true, addr := 4096, beats := [(0, 0), (3, 0)], reader := .unit 4 }
    idle.ctl.core ≠ .reset ∧ idle.ctl.upM = true ∧ (∃ p ∈ bad.beats, p.1 = 3 ∨ p.2 = 2 ∨ p.2 = 3) ∧ idle.ctl.units.length = 9 ∧ idle.errs.retired = [] ∧
      wellFormed (.mspReadReturn 0 bad) = true := by decide +kernel
theorem witness_RetiredPagesAndScrubs :
    let at_ := 99990 * 65536
    let range := leBytes 8 at_ ++ leBytes 8 65536
    let x : Scan := { addr := at_, stop := at_ + 65536, start := 0, pages := 0, sectors := 0, fixed := 0, buserr := 0, retired := 0, firstBad := none, waits := [] }
    let a := { idle with errs := { idle.errs with copying := [(99999, 0)], scan := some x }
                         dict := { idle.dict with nums := [(O.SCRUB_PAGES_PER_MS, 1)], doms := [(O.SCRUB_RANGE, range)] } }
    lookup? a.errs.copying 99999 = some 0 ∧ inArea (a.num O.STATE_BASE) (a.slotCount * 16777216) (99999 * 65536) = false ∧
      inArea (a.parityBase false) (a.num O.PARITY_SLOTS * 16777216) (99999 * 65536) = false ∧
      inArea (a.parityBase true) (a.num O.PARITY_ALT_SLOTS * 16777216) (99999 * 65536) = false ∧ Admits a port ∧
      leAt range 0 8 % 65536 = 0 ∧ at_ < 2 ^ 40 ∧ 0 < leAt range 8 8 ∧ leAt range 0 8 + leAt range 8 8 ≤ 2 ^ 40 ∧ a.errs.scan = some x ∧ a.errs.bad = [] ∧
      a.slotAt at_ = none ∧ a.slotAt (at_ + 65535) = none ∧ a.parityAt false (at_ + 65535) = none ∧ a.parityAt true (at_ + 65535) = none ∧
      x.pages < ((a.clock.captured - x.start) / 1000000 + 1) * a.num O.SCRUB_PAGES_PER_MS ∧ x.stop ≤ x.addr + 65536 := by
  simp only [Admits, port]; decide +kernel

/-- A step plan of two dense items of node 1's slice, the second in bundle 0, and one attention merge at node 1. -/
def plan : Bytes :=
  leBytes 1 1 ++ leBytes 1 0 ++ leBytes 2 1 ++ leBytes 4 2 ++ leBytes 8 0 ++ leBytes 4 65536 ++ leBytes 2 4 ++ List.replicate 42 0 ++
    leBytes 16 (packBits [(112, 16, 1), (96, 16, 1), (88, 4, 1), (64, 16, 0xFFFF)]) ++ leBytes 16 (packBits [(112, 16, 1), (96, 16, 1), (88, 4, 1)]) ++
    leBytes 32 (packBits [(198, 18, 1), (165, 17, 1), (149, 16, 1), (125, 24, 1), (116, 9, 1), (106, 4, 1)])
/-- The job reduces one replica: its null contribution to both items of the plan is there. -/
def reducing : Alesh :=
  { job with
    dict := { job.dict with nums := (O.VREPLICA_COUNT, 1) :: (O.RETAIN_PAGES, 8) :: (O.REDUCE_PAGES, 8) :: job.dict.nums, doms := (O.STEP_PLAN, plan) :: job.dict.doms }
    red := { job.red with contribs := [⟨0, 0, 8, 0, true, false⟩, ⟨0, 1, 8, 0, true, false⟩] } }
theorem witness_TokensAreTakenOnce :
    reducing.joinedOrJob = true ∧ restore 4 reducing.classEpoch 8 = 8 ∧ reducing.classEpoch = 8 ∧ 0 < reducing.plan.itemCount ∧ 0 < reducing.plan.slots ∧
      reducing.hosts 0 = true ∧ reducing.hosts 1 = false ∧ (∀ c ∈ job.red.contribs, ¬(c.replica = 0 ∧ c.item = 0 ∧ c.epoch = 8)) ∧
      restore 4 reducing.classEpoch 3 ≠ 8 ∧ restore 4 reducing.classEpoch 3 ≠ 9 ∧ (reducing.plan.merges[0]?).isSome = true ∧
      ((reducing.plan.merges[0]?).map fun m => (m.first, m.count, m.qblocks)) = some (0, 1, 1) ∧ bf (packBits [(60, 4, 15)]) 60 4 = 15 := by decide +kernel
theorem witness_LocalPartialsAreSentAndRetained :
    let part : Part := { kind := kDense, epoch := 8, gsid := 65537, level := 0, index := 0, val := .null, peer := 1 }
    reducing.reducing = true ∧ ((reducing.plan.items[0]?).map fun i => (i.kind, i.gsid, i.bundle)) = some (kDense, 65537, 0xFFFF) ∧
      reducing.ownerOf 65537 = 1 ∧ reducing.node = 0 ∧ (0, 0) ∈ alignedCut (2 ^ 17) 0 0 ∧
      reducing.formNode kDense 8 65537 0 0 0 ((reducing.red.contribs.filter fun c => c.item == 0).map fun c => (c.replica, NodeVal.null)) = some .null ∧
      reducing.poolStopped = false ∧ reducing.poolUsed + reducing.partPages part ≤ reducing.num O.REDUCE_PAGES - reducing.num O.REDUCE_OWNER_PAGES ∧
      reducing.retainUsed + reducing.partPages part ≤ reducing.num O.RETAIN_PAGES ∧
      (let a := { reducing with red := { reducing.red with waiting := [part] } }
       a.bundleMembers 0 8 1 ≠ [] ∧ (∀ x ∈ a.bundleMembers 0 8 1, x.isSome = true)) := by decide +kernel
theorem witness_CoversAndCutsAreCanonical :
    let leaf (_ : Nat) : NodeVal := .null
    (∀ p ∈ [(((1, 0) : Nat × Nat), NodeVal.null)], p.2 = canonNode 0 leaf p.1.1 p.1.2) ∧
      (∀ r, r < 2 → ∃ p ∈ [(((1, 0) : Nat × Nat), NodeVal.null)], p.1.1 ≤ 1 ∧ r / 2 ^ p.1.1 = p.1.2) ∧ (3 ≤ 65535 ∧ 65535 < 65536) := by decide +kernel
/-- A null dense partial of replica 0 from node 1, the header's root, one NORM entry and one for a merge that ends here. -/
theorem witness_PartsAreHeldByTheirEpoch :
    let a := { setNums job [(O.STEP_EPOCH, 7), (O.VREPLICA_LOG2, 1), (O.STRIPE_K, 2), (O.STRIPE_M, 1), (O.SHARD_PAGES, 1), (O.REDUCE_PAGES, 8)] with
               take := { job.take with owned := [0, 1], owners := (0, 0) :: job.take.owners } }
    let w := partArgs kDense 8 2 1
    let norm := leBytes 8 0 ++ leBytes 8 0
    a.joinedOrJob = true ∧ a.epochOf (PartArgs.ofNat w).epochLo = 8 ∧ a.classEpoch = 8 ∧ (PartArgs.ofNat w).kind = kDense ∧
      a.partOk (PartArgs.ofNat w) [] = true ∧ (∃ g ∈ a.take.owned, isHeader g = true ∧ a.grad? g 8 = none) ∧
      (a.take.owned.filter isHeader).length * gradPages (a.gradCount 0) ≤ ((List.range (a.num O.REDUCE_PAGES)).filter fun i =>
        !((a.progs.flatMap fun p => p.gradPages.flatMap fun q => q.2.map (·.1)).contains i)).length ∧
      (let p : Part := { kind := kLse, epoch := 8, gsid := 0, level := 0, index := 0, val := .lse (List.replicate 20 0), peer := 1 }
       (p.epoch = reducing.partEpoch p.kind p.gsid ∨ p.epoch = reducing.partEpoch p.kind p.gsid + 1) ∧ reducing.red.held = []) ∧
      (normEntries 8 norm).length = 1 ∧ (∀ n ∈ normEntries 8 norm, ∀ q ∈ normEntries 8 norm, q.key = n.key → q.op = n.op) := by decide +kernel
theorem witness_BundlesAndRetentionRelease :
    let w := packBits [(56, 8, 8), (16, 16, 1), (0, 16, 1)]
    bf w 16 16 ≠ 0xFFFF ∧ bf w 0 32 = 65537 ∧ job.epochOf (bf w 56 8) = 8 ∧ job.ownerOf 65537 = 1 ∧ job.red.waiting = [] := by decide +kernel
/-- Records of 20 bytes whose list begins with a head, in a partial from a node. -/
def lsePart (head : Byte) (index peer : Nat) : Part :=
  { kind := kLse, epoch := 8, gsid := 0, level := 0, index := index, val := .lse ([0, 0, 0, 0, head] ++ List.replicate 15 0), peer := peer }
theorem witness_AttentionMergesComplete :
    let a := { reducing with red := { reducing.red with lse := [⟨0, 0, 0, 8, 0, false⟩] } }
    let c : LsePart := ⟨0, 0, 0, 8, 0, false⟩
    let raw := List.replicate 20 (0 : Byte)
    a.reducing = true ∧ ((a.plan.merges[0]?).map fun m => (m.dest, m.first, m.count)) = some (1, 0, 1) ∧ a.node ≠ 1 ∧ (0, 0) ∈ alignedCut (2 ^ 17) 0 0 ∧
      a.poolStopped = false ∧ a.poolUsed + a.partPages (lsePart 0 0 1) ≤ a.num O.REDUCE_PAGES - a.num O.REDUCE_OWNER_PAGES ∧
      a.formNode kLse 8 0 1 0 0 [(c.chunk, .lse raw)] = some (.lse raw) ∧ alike 1 [lsePart 0 0 1] = true ∧
      alike 1 [lsePart 0 0 1, lsePart 1 1 2] = false ∧
      (let b := { a with red := { a.red with held := [lsePart 0 0 1] } }
       b.rootOf (· == kLse) 0 8 0 1 = some (lsePart 0 0 1).val ∧ b.red.held.head? = some (lsePart 0 0 1) ∧ b.errs.retired = [] ∧
         b.fenced 0 20 = false) ∧
      (let b := { a with red := { a.red with held := [lsePart 0 0 1, lsePart 1 1 2] } }
       (b.rootOf (· == kLse) 0 8 1 1).isSome = true ∧
         lseKeys (lseParse 1 ([0, 0, 0, 0, 1] ++ List.replicate 15 0)) ≠ lseKeys (lseParse 1 raw)) := by decide +kernel
theorem witness_MarksAndNormsOncePerEpoch :
    job.inJob = true ∧ job.unit uUpdate = .running ∧ job.owns 1 = true ∧ job.prog? 1 = some (Prog.fresh 1 7) ∧ (Prog.fresh 1 7).undecided = false ∧
      job.marks? 1 8 = none ∧ job.inProgress < 2 ^ 48 ∧ job.sound = true ∧ isHeader 1 = false ∧ job.red.normSent ≠ job.inProgress ∧
      ({ job with take := { job.take with owned := [] } } : Alesh).normBadExps = [] := by decide +kernel
/-- A DIAGONAL entry whose phases are due in turn. -/
theorem witness_PreconditionerPhases :
    let en : PcEntry := { (PcEntry.ofWord 0) with mode := 1 }
    let done : Pub := { job.pub with phases := [(0, 8, 1), (0, 8, 2)] }
    job.pcRunning = true ∧ job.phaseDone 0 8 1 = false ∧ en.mode ≠ 0 ∧ ({ job with pub := done } : Alesh).phaseDone 0 8 1 = true ∧
      ({ job with pub := done } : Alesh).phaseDone 0 8 2 = true ∧ ({ job with pub := done } : Alesh).phaseDone 0 8 4 = false := by decide +kernel
/-- The record of a page as arming leaves it. -/
def blankRec : Bytes := [0x01, 0x00, 0x00, 0x01] ++ List.replicate 60 0
/-- Page 0 of slots 0 and 1 with such a record. -/
def recorded (a : Alesh) : Alesh := (a.wr (job.metaAddr 0 0) blankRec).wr (job.metaAddr 1 0) blankRec
/-- An update of slice 1 from slot 0 into slot 1, with its first unit still to do. -/
def up : Upd := { epoch := 8, slot := 1, old := 0, todo := [0], recheck := [], redeal := [], sent := [] }
def updating : Alesh := { job with slots := { job.slots with pend := [(1, 1)] }, progs := [{ Prog.fresh 1 7 with upd := some up, marks := [(8, [])] }] }
theorem witness_UpdatesAndTheirChecks :
    let again : Upd := { up with recheck := [(0, 3)] }
    ({ job with progs := [{ Prog.fresh 1 7 with marks := [(8, [])] }] } : Alesh).marks? 1 8 = some [] ∧ job.claimable.head? = some 1 ∧ job.liveSlot 1 = some 0 ∧ job.badExps 1 = [] ∧ job.errs.retired = [] ∧
      (updating.prog? 1).bind (·.upd) = some up ∧ 0 ∈ up.todo ∧ (updating.unitOf 1 0).1 = 0 ∧ (updating.num O.TILE_ACTIVE_MAP).testBit 0 = true ∧
      updating.unit uUpdate = .running ∧ updating.sampledUnit 1 8 ≠ some 0 ∧ (∀ q ∈ updating.unitReads 1 (updating.unitOf 1 0), (recorded updating).pageReady q.1 q.2 = true) ∧
      (∀ q ∈ job.updatePages 1, (recorded job).pageReady q.1 q.2 = true) ∧ (∀ p ∈ updating.unitPages 1 (updating.unitOf 1 0), p < 256) ∧
      (again.recheck.find? fun x => x.1 == 0) = some (0, 3) ∧ 0 ≠ (0, 3).2 ∧ updating.ctl.units.length = 9 := by decide +kernel
/-- The target of slice 1's delta, its transaction at node 2, and the packets that answer it. -/
def own : OwnTx :=
  { holder := 2, seq := 0, gsid := 1, band := 2, col := 0, row := 0, epoch := 8, state := .awaitHeld, count := 1, pages := [(0, [1])], due := 900
    tries := 0, stalled := false, adopt := false, extra := false, lastAt := 0, alt := false }
theorem witness_OwnersSendAndCommit :
    let a := updating.at 1000
    let sent : Upd := { up with todo := [], sent := [0] }
    let c : Alesh := { updating with coding := { updating.coding with own := [{ own with state := .held }] }
                                     progs := [{ Prog.fresh 1 7 with upd := some sent }] }
    a.inJob = true ∧ a.unit uCoding = .running ∧ 0 ∈ a.writtenPages 1 8 ∧ 0 ∉ up.sent ∧ (a.unitOf 1 0).1 ∉ ({ up with todo := [] } : Upd).todo ∧
      ((recorded a).freshPending 1 1 0).coding = a.coding ∧ (recorded a).pageReady 1 0 = true ∧
      ((recorded a).freshPending 1 1 0).pageGood 1 1 0 = true ∧
      (∀ x ∈ a.targets 1, a.holdRoom 1 x.node = true ∧ a.seqRoom x.node 1 = true) ∧ (a.targets 1).length = 1 ∧ a.codes = true ∧ own.real = true ∧
      c.sound = true ∧ c.allSent 1 sent = true ∧ (∀ y ∈ c.targets 1, own.matches 1 8 y = true) ∧ own.due ≤ a.now ∧ own.tries + 1 < a.num O.RETRY_LIMIT := by
  decide +kernel
/-- The holder of node 1's column 0 of band 0: DELTA of 1 and of 2 pages, COMMIT and ABANDON, below the base and inside the window. -/
def hold : HoldTx :=
  { src := 1, seq := 0, band := 0, col := 0, row := 0, epoch := 8, state := .held, count := 1, pages := [(0, [])], adopt := false, commit := false
    adopted := false, bad := [], alt := false, old := false }
def holding : Alesh := { job with coding := { job.coding with hold := [hold] } }
theorem witness_HoldersHoldAndAnswer :
    let w := txArgs 0 0 0 0 false 0 8 0
    job.codes = true ∧ (TxArgs.ofNat w).adopt = false ∧ (TxArgs.ofNat w).low = 0 ∧ job.epochOf (TxArgs.ofNat w).epochLo = 8 ∧ off16 0 0 < 64 ∧
      32768 ≤ off16 0 1 ∧ job.holdTx? 1 0 = none ∧ job.take.building = false ∧ job.groupFor 0 0 1 = some 0 ∧ job.ownsColumn false 0 0 0 1 = true ∧
      (job.rowSlot job.geo 0 0 0).isSome = true ∧ job.keepsRow 0 0 0 8 = true ∧ job.overrun hold [0, 0, 0, 0] = false ∧ holding.holdTx? 1 0 = some hold ∧ (job.txSlot hold).isSome = true ∧ holding.lowerOpen hold = false ∧
      (deltaDecode [0, 0, 0, 0]).isSome = true := by decide +kernel
theorem crc_zeros (n : Nat) : crc64 (List.replicate n 0#8) = 0 := by
  have h : ∀ n, (List.replicate n 0#8).foldl crcByte 0#64 = 0#64 := by
    intro n
    induction n with
    | zero => rfl
    | succ n ih => rw [List.replicate_succ, List.foldl_cons, show crcByte 0#64 0#8 = 0#64 from by decide, ih]
  rw [crc64, show ((List.replicate n 0#8).foldl crcByte 0).toNat = (0#64).toNat from congrArg BitVec.toNat (h n)]
  rfl
/-- A page epoch table that nothing has written is sound: its CRC-64 is zero. -/
theorem table_good_empty (a : Alesh) (alt : Bool) (s : Nat) (h : a.mem0 = []) (hr : a.errs.retired = []) : a.tableGood alt s = true := by
  have hz : ∀ x n, a.rd x n = List.replicate n 0#8 := by
    intro x n
    simp [Alesh.rd, hr, h, Memory.read]
  simp only [Alesh.tableGood, Alesh.rdLe, hz, crc_zeros]
  decide
def committed : HoldTx := { hold with commit := true, pages := [] }
def committing : Alesh := { holding with coding := { holding.coding with hold := [committed] } }
theorem witness_CommittedDeltasFoldIntoParity :
    (committing.inJob = true ∧ committing.holdTx? 1 0 = some committed ∧ committed.old = false ∧ committing.txSlot committed = some (0, 0) ∧
      committed.commit = true ∧ committing.lowerOpen committed = false ∧ (∀ f ∈ committing.coding.frozen, ¬(f.1 = 0 ∧ f.2 < committed.epoch)) ∧
      committing.baseReady committed 0 0 = true ∧ committing.colEpoch committed.alt 0 committed.col < committed.epoch ∧ committed.bad = [] ∧
      committing.errs.retired = [] ∧ committed.epoch < 2 ^ 48) ∧ committing.tableGood committed.alt 0 = true :=
  ⟨by decide +kernel, table_good_empty _ _ _ rfl rfl⟩
theorem witness_AdoptionsAreDecidedOnce :
    let w := txArgs 0 2 0 0 true (sHeld * 16) 8 0
    let a := { job with progs := [{ Prog.fresh 1 7 with undecided := true }] }
    let c := { a with coding := { a.coding with answers := [⟨1, 2, 0, 8, sHeld, 0⟩] } }
    a.codes = true ∧ a.inJob = true ∧ (TxArgs.ofNat w).adopt = true ∧ (TxArgs.ofNat w).mid / 16 = sHeld ∧ a.epochOf (TxArgs.ofNat w).epochLo = a.inProgress ∧
      a.colSlice a.geo 2 0 = some 1 ∧ a.ownerOf 1 = a.node ∧ (0, 2) ∈ a.heldFor 1 ∧ ((a.prog? 1).map (·.undecided)) = some true ∧ a.decision 1 = none ∧
      a.coding.own = [] ∧ a.bandCol a.geo 1 = some (2, 0) ∧ c.decision 1 = some true ∧ a.sound = true ∧
      ({ c with ctl := { c.ctl with core := .degraded } } : Alesh).inJob = true ∧
      ({ a with coding := { a.coding with answers := [⟨1, 2, 0, 8, sNone, 0⟩] } } : Alesh).decision 1 = some false := by decide +kernel
theorem witness_PublishWritesABlockOnce :
    let entry := leBytes 32 (packBits [(68, 36, 1024), (36, 4, 1)])
    let a := { job with dict := { job.dict with nums := (O.PUB_COUNT, 1) :: job.dict.nums, doms := (O.PUB_TABLE, entry) :: job.dict.doms }
                        pub := { job.pub with tokens := [(0, 8)] } }
    a.inJob = true ∧ a.unit uPublish = .running ∧ ((a.pubTable.find? fun p => p.layer == 0).map fun p => decide (0 < p.blockCount)) = some true ∧ (0, a.inProgress) ∈ a.pub.tokens ∧
      (0, 0, a.inProgress) ∉ a.pub.written ∧ a.inProgress < 2 ^ 48 ∧ a.errs.retired = [] ∧
      a.cepWaits uPublish = false ∧ a.layerRecs 0 = [] ∧ a.blockExps [] = [] := by decide +kernel
/-- The combiner, which is this core, lacks the ARRIVE of nodes 1 and 2, or of node 1 alone. -/
theorem witness_MeridianReleasesOnce :
    let all := { job with merid := { job.merid with sent := (7, 0), arrivals := [(0, 8), (2, 8)] } }
    let set := { all with merid := { all.merid with release := some (8, 990) } }
    let joined := { inState .joined with clock := { captured := 1000, port := 1000, valid := true }, comm := { (inState .joined).comm with start := some (0, 990) } }
    all.inJob = true ∧ all.combiner = all.node ∧ all.nextRelease = 8 ∧ (1, 8) ∉ all.merid.arrivals ∧ all.activeMembers = [0, 1, 2] ∧ all.cutReady 8 = true ∧
      all.orderHolds 8 = false ∧ all.num O.STEP_EPOCH < 8 ∧ all.openRelease = 8 ∧
      ({ all with merid := { all.merid with again := true } } : Alesh).openRelease = 8 ∧ all.inProgress = 8 ∧ all.merid.release = none ∧ 990 ≤ set.now ∧ set.memb.pending = none ∧
      set.merid.order = none ∧ set.ctl.jobStop = none ∧ set.coding.extPlan = [] ∧ set.take.buildAt = none ∧ set.take.switchAt = none ∧ set.plate.cut = none ∧
      set.cluster.length < 2 ∧ joined.ctl.core = .joined ∧ joined.comm.start = some (0, 990) ∧ 990 ≤ joined.now := by decide +kernel
theorem witness_OverlaysSwitchByOrder :
    let base := bf 0xFF 0 8
    let order := leBytes 1 0 ++ leBytes 1 0xFF ++ List.replicate 6 0 ++ leBytes 8 9
    let cancel := leBytes 1 1 ++ leBytes 1 0xFF ++ List.replicate 6 0 ++ leBytes 8 9
    let a := { job with merid := { job.merid with sent := (7, 0), order := some (0xFF, 9, 0), ordersOut := true, orderDue := 900 } }
    Admits a port ∧ Admits a (.inBand 0 3) ∧ a.inJob = true ∧ a.combiner = a.node ∧ base = 0xFF ∧ bf 0xFF 8 48 = 0 ∧ a.num O.SWITCH_STATE ≠ 1 ∧ a.nextRelease < 9 ∧
      order.length = 16 ∧ leAt order 0 1 = 0 ∧ leAt order 1 1 = 0xFF ∧ a.num O.STEP_EPOCH < bf (leAt order 8 8) 0 48 ∧ leAt cancel 0 1 = 1 ∧
      a.merid.order = some (0xFF, 9, 0) ∧ bf (leAt cancel 8 8) 0 48 = 9 ∧ a.isMember 0 = true ∧ a.imageGood 3 = false ∧ a.merid.orderDue ≤ a.now ∧
      ¬(a.nextRelease < bf (0xFF + 5 * 256) 8 48) ∧ (setNums a ((O.SWITCH_STATE, 1) :: a.dict.nums)).num O.SWITCH_STATE = 1 ∧ job.merid.order = none ∧
      bf (leAt cancel 8 8) 0 48 ≠ 10 ∧ a.mgmt.asked = [] := by
  simp only [Admits, port]; decide +kernel
theorem witness_RoutesBeaconsAndOccults :
    let a := { job with memb := { job.memb with beaconDue := 900, occults := [(1, 0, [], 2, 950)] } }
    Admits a port ∧ a.joinedOrJob = true ∧ a.coding.own = [] ∧ a.memb.beaconDue ≤ a.now ∧ lookup? a.memb.heard 1 = some 900 ∧ 900 ≤ a.now ∧
      1 ∉ a.memb.suspects ∧ (a.memb.occults.find? fun o => o.1 == 1) = some (1, 0, [], 2, 950) ∧ 2 < a.num O.RETRY_LIMIT := by
  simp only [Admits, port]; decide +kernel
/-- A certificate of a kind and an epoch that names node 2, between memberships of the digests given. -/
def certHead (kind epoch : Nat) : Bytes := [1, BitVec.ofNat 8 kind, 1, 0, 0, 0, 0, 0] ++ leBytes 4 epoch ++ [1] ++ List.replicate 19 0
def certTail : Bytes := leBytes 8 2 ++ List.replicate 104 0
def cert (kind epoch : Nat) (d n : Bytes) : Bytes := certHead kind epoch ++ (d ++ (n ++ certTail))
/-- An idle core that asks for no signature and knows no member. -/
def noQuorum : Alesh := setNums idle [(O.QUORUM_Q, 0), (O.QUORUM_KEY_MASK, 0), (O.JOB_MAP_ENTRIES, 0), (O.NODE_ID, 2)]
/-- A LOSS and a LEAVE of the next epoch are adopted, a LOSS of a later one is held. -/
theorem cert_judged (a : Alesh) (q : a.num O.QUORUM_Q = 0 ∧ a.num O.JOB_ID = 0 ∧ a.jobMap = [] ∧ a.num O.MEMBERSHIP_EPOCH = 0) (m : a.memb = Memb.reset)
    (kind epoch : Nat) (h : (kind, epoch) ∈ [(cLoss, 1), (cLeave, 1), (cLoss, 3), (cJoin, 3)]) :
    let c := cert kind epoch (memberDigest [] []) (memberDigest [] (if kind = cLoss then [] else [2]))
    a.judge c = (if epoch = 3 then .hold else .adopt) ∧ certKind c = kind ∧ certNodes c = [2] := by
  intro c
  rw [show c = cert kind epoch (memberDigest [] []) (memberDigest [] (if kind = cLoss then [] else [2])) from rfl]
  have hd : (memberDigest [] []).length = 32 := sha_length _
  have hn : (memberDigest [] (if kind = cLoss then [] else [2])).length = 32 := sha_length _
  generalize hg : memberDigest [] [] = d at hd
  generalize hm : memberDigest [] (if kind = cLoss then [] else [2]) = n at hn
  have hl : (certHead kind epoch).length = 32 := by simp [certHead, leBytes]
  have left (o k : Nat) (h : o + k ≤ 32) : leAt (cert kind epoch d n) o k = leAt (certHead kind epoch) o k := by
    rw [leAt, cert, slice_left _ _ _ _ (by omega), leAt]
  have prev : certPrev (cert kind epoch d n) = d := by
    have := slice_right (certHead kind epoch) (d ++ (n ++ certTail)) 0 32
    rw [hl] at this
    rw [certPrev, cert, this, slice_left _ _ _ _ (by omega), slice]; simp [← hd]
  have at64 (k o : Nat) : slice (cert kind epoch d n) (64 + o) k = slice (n ++ certTail) o k := by
    have h1 := slice_right (certHead kind epoch) (d ++ (n ++ certTail)) (32 + o) k
    have h2 := slice_right d (n ++ certTail) o k
    rw [hl] at h1
    rw [hd] at h2
    rw [cert, show 64 + o = 32 + (32 + o) by omega, h1, h2]
  have new : certNew (cert kind epoch d n) = n := by
    rw [certNew, at64 32 0, slice_left _ _ _ _ (by omega), slice]; simp [← hn]
  have change : leAt (cert kind epoch d n) 96 8 = 2 := by
    rw [leAt, at64 8 32, ← hn, ← Nat.add_zero n.length, slice_right]; decide
  have len : (cert kind epoch d n).length = 208 := by simp [cert, hl, hd, hn, certTail, leBytes]
  have field : leAt (cert kind epoch d n) 2 2 = 1 ∧ leAt (cert kind epoch d n) 12 1 = 1 ∧ leAt (cert kind epoch d n) 0 1 = 1 ∧
      leAt (cert kind epoch d n) 4 4 = 0 ∧ leAt (cert kind epoch d n) 1 1 = kind ∧ leAt (cert kind epoch d n) 8 4 = epoch := by
    simp only [left 2 2 (by omega), left 12 1 (by omega), left 0 1 (by omega), left 4 4 (by omega), left 1 1 (by omega), left 8 4 (by omega)]
    rcases h with _ | ⟨_, _ | ⟨_, _ | ⟨_, _ | ⟨_, h⟩⟩⟩⟩ <;> first | decide | cases h
  obtain ⟨n1, n2, n3, n4, n5, n6⟩ := field
  have nodes : certNodes (cert kind epoch d n) = [2] := by simp [certNodes, certChanges, n1, change]; decide
  have range : 1 ≤ kind ∧ kind ≤ 5 ∧ kind ≠ cExpel ∧ (epoch = 1 ∨ epoch = 3) := by
    rcases h with _ | ⟨_, _ | ⟨_, _ | ⟨_, _ | ⟨_, h⟩⟩⟩⟩ <;> first | decide | cases h
  have ap (one : epoch = 1) : applyChange (cert kind epoch d n) ([], []) = ([], if kind = cLoss then [] else [2]) := by
    rcases h with _ | ⟨_, _ | ⟨_, _ | ⟨_, _ | ⟨_, h⟩⟩⟩⟩ <;> first | (simp [applyChange, certRemoves, certKind, n5, nodes]; decide) | cases h | cases one
  have verified : a.certVerified (cert kind epoch d n) = true := by simp [Alesh.certVerified, certShape, n1, certSigs, n2, len, q.1]
  have digest (one : epoch = 1) : a.certDigestOk (cert kind epoch d n) = true := by
    simp [Alesh.certDigestOk, Alesh.bitmapsNow, m, Memb.reset, ap one, prev, new, hg, hm]
  have rest : a.certFormOk (cert kind epoch d n) = true ∧ a.certMapOk (cert kind epoch d n) = true ∧
      a.certIssuedOk (cert kind epoch d n) = true ∧ a.certWhole (cert kind epoch d n) = true := by
    refine ⟨?_, by simp [Alesh.certMapOk, Alesh.mapNow, m, Memb.reset, q.2.2.1], by simp [Alesh.certIssuedOk, m, Memb.reset],
      by simp [Alesh.certWhole, Alesh.mapNow, m, Memb.reset, q.2.2.1]⟩
    simp [Alesh.certFormOk, n3, certKind, n5, certJob, n4, q.2.1, range.1, range.2.1]
  refine ⟨?_, n5, nodes⟩
  rcases range.2.2.2 with e | e
  · subst e
    simp [Alesh.judge, verified, m, Memb.reset, n6, certEpoch, Alesh.lastEpoch, q.2.2.2, rest.1, rest.2.1, rest.2.2.1, rest.2.2.2, digest,
      certKind, n5, range.2.2.1]
  · subst e
    simp [Alesh.judge, verified, m, Memb.reset, n6, certEpoch, Alesh.lastEpoch, q.2.2.2, rest.1, rest.2.1, rest.2.2.1]
/-- That core, which is node 2, with a certificate in its CERT_MAILBOX. -/
def mailed (kind epoch : Nat) : Alesh :=
  { noQuorum with dict := { noQuorum.dict with doms := [(O.CERT_MAILBOX, cert kind epoch (memberDigest [] []) (memberDigest [] (if kind = cLoss then [] else [2])))] } }
theorem mailed_judged (kind epoch : Nat) (h : (kind, epoch) ∈ [(cLoss, 1), (cLeave, 1), (cLoss, 3), (cJoin, 3)]) :
    let c := (mailed kind epoch).dom O.CERT_MAILBOX
    (mailed kind epoch).judge c = (if epoch = 3 then .hold else .adopt) ∧ certKind c = kind ∧ certNodes c = [2] :=
  cert_judged (mailed kind epoch) ⟨rfl, rfl, rfl, rfl⟩ rfl kind epoch h
theorem verified_alone (a : Alesh) (c : Bytes) (h : a.num O.QUORUM_Q = 0) : a.certVerified c = certShape c := by simp [Alesh.certVerified, h]
theorem mailed_refused : (mailed cJoin 3).joinRefused ((mailed cJoin 3).dom O.CERT_MAILBOX) = true := by
  have h := mailed_judged cJoin 3 (by decide)
  have hn : (mailed cJoin 3).node = 2 := rfl
  have hf : slice ((mailed cJoin 3).dom O.JOIN_SNAPSHOT) 16 32 ≠ (mailed cJoin 3).fingerprint := by decide +kernel
  simp [Alesh.joinRefused, h.2.1, h.2.2, hn, hf]
theorem witness_CertificatesChangeMembership :
    let m := { pkt tGrant (grantArgs 5 0) [] with vc := 0 }
    let a (kind epoch : Nat) := (mailed kind epoch).at 5
    let c (kind epoch : Nat) := (a kind epoch).dom O.CERT_MAILBOX
    let had := { a cLoss 3 with memb := { (a cLoss 3).memb with history := [c cLoss 3] } }
    let joined := { mailed cLoss 1 with ctl := { (mailed cLoss 1).ctl with core := .joined } }
    job.idleToJob = true ∧ job.memb.pending = none ∧ job.memb.held = [] ∧ job.memb.waitTime = none ∧ m.version = 1 ∧ m.dst = job.node ∧
      m.route = job.num O.ROUTE_EPOCH ∧ m.payload = [] ∧ Admits (mailed cLoss 1) port ∧ (a cLoss 1).memb = Memb.reset ∧ (a cLoss 1).ctl.core = .idle ∧
      ((a cLoss 1).judge (c cLoss 1) = .adopt ∧ certKind (c cLoss 1) = cLoss) ∧ ((a cLeave 1).judge (c cLeave 1) = .adopt ∧ certKind (c cLeave 1) = cLeave) ∧
      (a cLoss 3).judge (c cLoss 3) = .hold ∧ (a cLoss 3).joinRefused (c cLoss 3) = false ∧
      ((a cJoin 3).judge (c cJoin 3) = .hold ∧ (a cJoin 3).joinRefused (c cJoin 3) = true) ∧
      had.judge (c cLoss 3) = .same ∧ noQuorum.judge [] = .unverified ∧
      (joined.judge (joined.dom O.CERT_MAILBOX) = .adopt ∧ certRemoves (joined.dom O.CERT_MAILBOX) = true ∧ joined.joining = false ∧ joined.comm.start = none ∧
        joined.clock.valid = false ∧ joined.memb.waitVia = none ∧ joined.stageHolds O.MEMB_INSTALL = false ∧ Admits joined port ∧ joined.idleToJob = true) := by
  intro m a c had joined
  have same (kind epoch : Nat) : a kind epoch = mailed kind epoch := Alesh.at_invalid _ _ rfl
  have q : (mailed cLoss 3).num O.QUORUM_Q = 0 ∧ had.num O.QUORUM_Q = 0 := ⟨rfl, rfl⟩
  have held : certShape ((mailed cLoss 3).dom O.CERT_MAILBOX) = true := by
    have h := (mailed_judged cLoss 3 (by decide)).1
    unfold Alesh.judge at h
    rw [verified_alone _ _ q.1] at h
    cases hs : certShape ((mailed cLoss 3).dom O.CERT_MAILBOX) with
    | true => rfl
    | false => rw [hs] at h; exact absurd h (by simp)
  have j := cert_judged joined (by decide +kernel) rfl cLoss 1 (by decide)
  have known : had.judge (c cLoss 3) = .same := by
    rw [Alesh.judge, verified_alone _ _ q.2, show c cLoss 3 = (mailed cLoss 3).dom O.CERT_MAILBOX from congrArg (Alesh.dom · O.CERT_MAILBOX) (same cLoss 3), held]
    simp [had, c, same]
  simp only [c, same]
  refine ⟨by decide +kernel, by decide +kernel, by decide +kernel, by decide +kernel, rfl, by decide +kernel, by decide +kernel, rfl, admits_port _ (by decide), rfl, rfl,
    ⟨(mailed_judged cLoss 1 (by decide)).1, (mailed_judged cLoss 1 (by decide)).2.1⟩, ⟨(mailed_judged cLeave 1 (by decide)).1, (mailed_judged cLeave 1 (by decide)).2.1⟩,
    (mailed_judged cLoss 3 (by decide)).1, ?_, ⟨(mailed_judged cJoin 3 (by decide)).1, mailed_refused⟩, (by simpa only [c, same] using known), by decide +kernel,
    ⟨j.1, ?_, rfl, rfl, rfl, rfl, by decide +kernel, admits_port _ (by decide), by decide +kernel⟩⟩
  · rw [Alesh.joinRefused, (mailed_judged cLoss 3 (by decide)).2.1]; rfl
  · rw [certRemoves, show certKind (joined.dom O.CERT_MAILBOX) = cLoss from j.2.1]; rfl
/-- The lease of kind 0 held by node 1 and by this core, in its term and past it. -/
theorem witness_LeasesPassInOrder :
    let l : Lease := { kind := 0, id := 0, gen := 4, holder := 1, prev := 2, expiry := 100, actFrom := 0, acting := false }
    let far := { setNums job ((O.LEASE_TERM_NS, 200) :: (O.LEASE_GUARD_NS, 10) :: (O.LEASE_STEP_NS, 5) :: job.dict.nums) with leases := [l] }
    let mine := { far with leases := [{ l with holder := 0, acting := true, expiry := 1050 }] }
    far.lease? 0 = some l ∧ newer16 5 4 = true ∧ (far.successors 0 1).findIdx? (· == far.node) ≠ none ∧ l.expiry + 10 + 2 * 5 ≤ far.now ∧
      mine.acts 0 = true ∧ 1050 < mine.now + mine.num O.LEASE_TERM_NS / 2 ∧
      (let n := { mine with leases := [{ l with holder := 0 }] }
       n.isDraining n.node = false ∧ ({ l with holder := 0 } : Lease).actFrom ≤ n.now) ∧ far.ownerOf 65537 = 1 ∧
      (0, 5) ∉ far.take.got ∧
      (let dark := { far with clock := { far.clock with valid := false } }
       (dark.successors 0 2).head? = some dark.node ∧ dark.inJob = true) ∧ newer16 4 4 = false ∧ (0, 5) ∈ [(0, 5)] ∧ mine.acts lCoord = true ∧ reportWhat 0 ≤ 2 := by decide +kernel
/-- An external entry of this group: row 0 of rotation 2, held at node 0. -/
def ext : ExtEntry := { group := 0, first := 1, version := 1, kind := 1, row := 0, rotation := 2, node := 0, package := 0 }
def extBytes1 : Bytes := leBytes 16 (packBits [(60, 4, 1), (58, 2, 1), (64, 32, 1), (51, 5, 2)])
def hosting : Alesh :=
  { job with dict := { job.dict with nums := (O.EXT_COUNT, 1) :: job.dict.nums, doms := (O.EXT_TABLE, extBytes1) :: job.dict.doms } }
theorem witness_ExternalEntriesMoveAsAnnounced :
    let w := extArgs gBuild ext 9
    let a := { hosting with take := { hosting.take with announces := [(w, 9, [1, 2], 990)] }
                            leases := [{ kind := 0, id := 0, gen := 4, holder := 0, prev := 2, expiry := 2 ^ 40, actFrom := 0, acting := true }] }
    hosting.exts[0]? = some ext ∧ hosting.findExt (GrantArgs.ofNat w) = some (0, ext) ∧ hosting.epochOf (GrantArgs.ofNat w).epochLo = 9 ∧
      hosting.num O.STEP_EPOCH < 9 ∧ hosting.extState 0 = 0 ∧ (hosting.setExt 0 1).extState 0 = 1 ∧ (hosting.setExt 0 2).extState 0 = 2 ∧
      hosting.epochOf (GrantArgs.ofNat (extArgs gBuild ext 7)).epochLo = 7 ∧ 7 ≤ hosting.num O.STEP_EPOCH ∧ hosting.coding.extPlan = [] ∧
      a.acts lCoord = true ∧ 990 ≤ a.now ∧
      (let r := (setNums hosting ((O.EXT_COUNT, 1) :: job.dict.nums)).setExt 0 2
       let moved : ExtEntry := { ext with kind := 0 }
       r.returning 0 moved = false ∧ ({ r with coding := { r.coding with returns := [(0, 9)] } } : Alesh).returning 0 moved = true) := by decide +kernel
theorem witness_BasePagesFillNewSlots :
    let a : Alesh := job.wr (job.parityRecAddr false 0 0) blankRec
    let b : Alesh := { a with coding := { a.coding with restoring := true } }
    a.parityGood false 0 0 0 = true ∧ (b.groupFor 0 0 1).getD 9 = 0 ∧ b.rowSlot b.geo 0 0 0 = some 0 ∧ b.coding.restoring = true ∧
      b.ownsColumn false 0 0 0 1 = true ∧ b.errs.retired = [] ∧ b.coding.basePages = [] ∧ (hosting.setExt 0 1).exts[0]? = some ext ∧
      lookup? ({ a with coding := { a.coding with frozen := [(0, 9)] } } : Alesh).coding.frozen 0 = some 9 ∧ a.coding.lost = [] ∧
      a.coding.hold = [] ∧ (job.sourceSlots { ext with kind := 0, rotation := 0, node := 1 }).any (·.1 == 0) = true ∧ hosting.owns 1 = true ∧ hosting.liveSlot 1 = some 0 ∧ hosting.slicePages 1 = 1 := by decide +kernel
theorem witness_RestripingRunsInFourSteps :
    let w := restripeArgs 6 0 5 9
    let a := { job with dict := { job.dict with nums := (O.RESTRIPE_STATE, 1) :: job.dict.nums, doms := (O.RESTRIPE_STAGE, leBytes 2 5) :: job.dict.doms } }
    let built := { a with dict := { a.dict with nums := (O.RESTRIPE_STATE, 3) :: job.dict.nums } }
    (GrantArgs.ofNat w).group = a.num O.GROUP_NUMBER ∧ (GrantArgs.ofNat w).tag = a.stageTag ∧ a.epochOf (GrantArgs.ofNat w).epochLo = 9 ∧
      a.num O.STEP_EPOCH < 9 ∧ a.num O.RESTRIPE_STATE = 1 ∧ a.take.buildAt = none ∧ built.num O.RESTRIPE_STATE = 3 ∧ built.take.switchAt = none ∧
      (GrantArgs.ofNat (restripeArgs 6 0 4 9)).tag ≠ a.stageTag ∧ job.num O.RESTRIPE_STATE = 0 ∧ job.take.unmapped = [] ∧
      (let far := setNums hosting ((O.GROUP_NUMBER, 1) :: (O.EXT_COUNT, 1) :: job.dict.nums)
       (GrantArgs.ofNat w).group ≠ far.num O.GROUP_NUMBER ∧ (far.exts.any fun y => y.node == far.node && y.group == (GrantArgs.ofNat w).group) = true) ∧
      (GrantArgs.ofNat w).group ≠ (setNums job ((O.GROUP_NUMBER, 1) :: job.dict.nums)).num O.GROUP_NUMBER ∧ job.exts = [] ∧
      (setNums job ((O.STEP_EPOCH, 9) :: job.dict.nums)).epochOf (GrantArgs.ofNat w).epochLo = 9 := by decide +kernel
theorem witness_FragmentsRebuildPages :
    let w := ({ id := 3, layout := 0, band := 2, parity := false, index := 0, page := 0, first := 0, countM1 := 1023, status := 0 } : FragArgs).word
    let x := FragArgs.ofNat w
    let a : Alesh := job.wr (job.metaAddr 0 0) blankRec
    let q := (3, false, 0, 1, 900, 0)
    let r : Rebuild := { Rebuild.fresh 1 0 2 0 1 with asked := [q], retry := some 950 }
    let b := { job with take := { job.take with rebuilds := [r], retainTakes := [(1, 1, 8, 990)] } }
    x.first + x.countM1 ≤ 1023 ∧ x.layout = a.num O.LAYOUT_GEN % 4 ∧ x.parity = false ∧ a.keptData x.band x.index = some (1, 0) ∧
      a.isAbsent 1 x.page = false ∧ a.pageGood 1 0 x.page = true ∧ a.keptData 2 1 = none ∧ a.keptParity 0 0 1 = some 0 ∧ a.coding.lost = [] ∧
      (b.take.rebuilds.find? fun r => r.asked.any fun q => q.1 == 3 && b.due q.2.2.2.2.1) = some r ∧ b.take.rebuilds[0]? = some r ∧ 950 ≤ b.now ∧
      r.direct = false ∧ (b.take.retainTakes.find? fun r => r.1 == 1) = some (1, 1, 8, 990) ∧ (b.grad? 1 8) = none ∧ ¬(8 ≤ b.num O.STEP_EPOCH) ∧
      isHeader 0 = true ∧
      ({ job with fabric := { job.fabric with minority := true } } : Alesh).keptData 0 0 = none ∧
      1 * 256 + 3 ∈ ({ job with take := { job.take with frozenAbsent := [259] } } : Alesh).take.frozenAbsent ∧
      (b.take.rebuilds.filter fun x => x.why == 1 && !x.urgent).length < b.num O.REBUILD_DEPTH + 2 := by decide +kernel
/-- The cut of epoch 9 at place 1: announced here, kept by a member, drained and resent. -/
def cutting : Alesh :=
  { setNums job ((O.PLATE_PLACES, 4) :: (O.PLATE_ENABLE, 1) :: job.dict.nums) with
    plate := { job.plate with cut := some (9, 1, 0), announced := some (9, 1), cutDue := 900, drainedDue := some 900, aborts := [(8, 0, 1, 900)] } }
theorem witness_PlatesAreCutAndDrained :
    let w := markArgs pCut 1 0 0 9
    let x : Extent := { gsid := 1, slot := 0, spilled := false, started := false, done := false, failed := false, errors := 0, retry := none, root := [] }
    let a : Alesh := { cutting.wr (cutting.metaAddr 0 0) blankRec with plate := { cutting.plate with extents := [x] } }
    job.unit uRecord = .running ∧ job.combiner = job.node ∧ job.plate.announced = none ∧ job.plate.zeroing = none ∧ job.plate.cut = none ∧
      (MarkArgs.ofNat w).place < cutting.num O.PLATE_PLACES ∧ (MarkArgs.ofNat w).epoch ∉ cutting.plate.decided ∧ cutting.num O.STEP_EPOCH < 9 ∧
      cutting.plate.cutDue ≤ cutting.now ∧ a.plate.extents[0]? = some x ∧ a.liveSlot 1 = some 0 ∧ a.drainTurn = some x ∧
      (∀ p, p < a.slicePages 1 → (a.extentPage x p).2.2 = true ∧ a.isAbsent 1 p = false) ∧ cutting.plate.drainedDue = some 900 ∧
      (let s : Alesh := { setNums a ((O.PLATE_SPILL_SLOTS, 1) :: (O.PLATE_SPILL_LOW, 1000) :: cutting.dict.nums) with
                          slots := { a.slots with pins := [0], releasing := [0] } }
       (s.plate.extents.find? fun y => !y.spilled && !y.done && y.slot == 0) = some x ∧ 0 < s.num O.PLATE_SPILL_SLOTS ∧ 0 ∉ s.plate.spills ∧
         0 ∈ s.slots.pins ∧ 0 ∈ s.slots.releasing ∧ s.ringFree < s.num O.PLATE_SPILL_LOW ∧ (s.num O.PLATE_SPILL_LOW < 1 ∨ a.num O.PLATE_SPILL_LOW ≤ a.ringFree)) := by decide +kernel
theorem witness_PlatesAreSealedOrAborted :
    cutting.plate.announced = some (9, 1) ∧ (MarkArgs.ofNat (markArgs pSealed 1 0 0 9)).epoch = 9 ∧ cutting.plate.cut = some (9, 1, 0) ∧
      drainedOk (MarkArgs.ofNat (markArgs pDrained 1 0 0 9)) (cutting.groupEntry) = true ∧ (∀ r ∈ cutting.fabric.reqs, r.why ≠ .manifest) ∧
      (8, 0, 1, 900) ∈ cutting.plate.aborts ∧ 900 ≤ cutting.now ∧ 1 < cutting.num O.RETRY_LIMIT ∧ Admits cutting port ∧
      (let i := { idle with ctl := { idle.ctl with units := List.replicate 9 .armed } }
       Admits i port ∧ i.unit uUpdate = .armed ∧ i.unit uCoding = .armed ∧ i.ctl.initJob = 0 ∧ i.ctl.initCoding = 0 ∧ i.plate.restore = none ∧
         ({ i with ctl := { i.ctl with initJob := 1 } } : Alesh).ctl.initJob ≠ 0) ∧ idle.unit uUpdate ≠ .armed ∧
      (cutting.plate.announced = some (9, 1) ∧ cutting.plate.cut ≠ none) := by
  simp only [Admits, port]; decide +kernel
/-- A core of node 0 whose segment 0 is 64 KiB of its own Tier 0, and a LOAD of 8 bytes at its start from member 1. -/
def serving : Alesh :=
  let seg := packBits [(164, 46, 65536), (68, 4, 1)]
  let region := packBits [(164, 46, 65536), (100, 64, 5), (96, 1, 1), (92, 4, 1), (73, 1, 1)]
  { job with dict := { job.dict with nums := (O.SEG_COUNT, 1) :: (O.JOB_RANGE_BYTES, 65536) :: job.dict.nums
                                     doms := (O.SEG_TABLE, leBytes 32 seg) :: (O.REGION_TABLE, leBytes 32 region) :: job.dict.doms } }
def load : FaHdr := FaHdr.request opLoad 0 0 5 8
theorem witness_TargetsPerformRequests :
    let h : FaHdr := { load with src := 1, origin := 1 }
    let bad : FaHdr := { h with version := 2 }
    serving.idleToJob = true ∧ h.requestOk 6 [] = true ∧ h.dst = serving.node ∧ bad.requestOk 6 [] = false ∧ serving.faTest h 8 = stOk ∧ h.length [] = 8 ∧
      serving.faTest { h with key := 4 } 8 = stKey ∧ serving.fabric.jobs = [] ∧ serving.fabric.ops = [] ∧ faRuns h.offset 8 = [(0, 8)] ∧
      ((serving.segOf 0).map fun x => (x.1, x.2.migrate, x.2.homeTier)) = some (0, false, 0) ∧ serving.errs.bad = [] ∧
      (let i : FaHdr := { h with op := opInval, operand := 1 }
       i.requestOk 6 [] = true ∧ serving.faTest { i with src := 9, origin := 9 } 0 ≠ stOk) := by decide +kernel
theorem witness_RequestersAwaitResponses :
    let h : FaHdr := { FaHdr.request opLoad 1 0 0 8 with src := 0, origin := 0, tag := 5 }
    let r : FaReq := { tag := 5, dst := 1, vc := 6, header := h.word, payload := [], due := 900, tries := 0, lastSend := 0, why := .submit, noCache := true }
    let a := { job with fabric := { job.fabric with reqs := [r], restTags := [(7, 0)] } }
    let answer := { h with op := opLoad + 8, src := 1, dst := 0 }
    a.idleToJob = true ∧ Admits job port ∧ job.isFar 1 = false ∧ (∀ r ∈ job.fabric.reqs, r.why ≠ .submit) ∧ a.faMatch answer = some r ∧
      (∀ r ∈ a.fabric.reqs, r.tag ≠ 1024) ∧ a.fabric.descCoh = false ∧ (a.fabric.reqs.find? fun q => q.tag == 5 && decide (q.due ≤ a.now)) = some r ∧
      r.tries < a.num O.RETRY_LIMIT ∧ (7, 0) ∈ a.fabric.restTags ∧ a.fabric.flushing = false ∧
      (let d (x : FaHdr) : Alesh := { job with dict := { job.dict with doms := (O.FA_DESC, leBytes 40 x.word) :: job.dict.doms } }
       let x := FaHdr.ofNat (leNat (slice ((d load).dom O.FA_DESC) 0 32))
       x.version = 1 ∧ x.op ≤ 6 ∧ x.status ≤ 6 ∧ x.aop ≤ 8 ∧ x.size ≤ 1 ∧ 32 ≤ ((d load).dom O.FA_DESC).length ∧
         (FaHdr.ofNat (leNat (slice ((d { load with version := 2 }).dom O.FA_DESC) 0 32))).version ≠ 1) := by
  simp only [Admits, port]; decide +kernel
theorem witness_CommencementsOpenAndClose :
    let i := { idle with clock := { captured := 1000, port := 1000, valid := true } }
    let m := { pkt tHello (helloArgs hCommence 0) (List.replicate 160 0) with vc := 0 }
    Admits i port ∧ i.joining = false ∧ i.ctl.core = .idle ∧ i.idleToJob = true ∧ m.dst = i.node ∧ m.version = 1 ∧ m.route = i.num O.ROUTE_EPOCH ∧
      commenceOk m = false ∧ ({ m with version := 2 } : Pkt).version ≠ 1 := by
  simp only [Admits, port]; decide +kernel
theorem witness_CommencementAcksAreGathered :
    let ack := commAck 0 0 0 1 0 0 (List.replicate 32 0)
    let group := commAck 0 1 0 0 0 0 (List.replicate 32 0)
    let a := { inState .joined with clock := { captured := 1000, port := 1000, valid := true }
                                    comm := { (inState .joined).comm with rootC := some 990, timeoutAt := some 900, resendDue := 900, startDue := 900 } }
    ack.length = 64 ∧ leAt ack 5 1 ≤ 11 ∧ leAt ack 4 1 = 0 ∧ leAt group 4 1 = 1 ∧ a.idleToJob = true ∧ a.joining = false ∧ a.comm.rootC = some 990 ∧
      a.comm.timeoutAt = some 900 ∧ a.comm.startDue ≤ a.now := by decide +kernel
/-- Fenmal with and without auxiliary power, with its log full, at the end of a snapshot and of a period. -/
theorem witness_FenmalMeasuresAndSeals :
    let f := State.reset.fenmal
    let dark := { f with powered := false }
    let open_ := { f with sealOpen := true }
    f.powered = true ∧ dark.powered = false ∧ 8 ≤ f.free ∧ f.regs.sealCount < 0xFFFFFFFF ∧ open_.sealOpen = true ∧ f.sealOpen = false ∧
      f.regs.tenants.length = 16 ∧ f.work.length = 16 ∧ ({ f with pairs := 8000 } : Fenmal).pairs = 8000 ∧ ({ f with snaps := 10 } : Fenmal).snaps = 10 ∧
      f.snapshot[95]? = some 0 ∧ f.snapshot[96]? = none ∧ f.status.testBit 3 = false ∧ f.log[0]? = none := by decide +kernel
theorem witness_FenmalStaysSound : State.reset.fenmal.Sound := by
  unfold Fenmal.Sound FmRegs.Sound; decide +kernel
theorem witness_CoresReportMirrorAndTest :
    let a := { job with work := { job.work with acc := [0, 70000] ++ List.replicate 14 0, nextTenant := 15 } }
    a.ctl.core ≠ .reset ∧ a.work.flight = none ∧ 2 < 16 ∧ a.work.acc.getD ((a.work.nextTenant + 2) % 16) 0 ≠ 0 ∧
      (∀ j, j < 2 → a.work.acc.getD ((a.work.nextTenant + j) % 16) 0 = 0) ∧ State.reset.fenmal.powered = true ∧ a.clock.valid = true ∧
      ({ a with work := { a.work with flight := some (1, 65535) } } : Alesh).work.flight = some (1, 65535) ∧ (inState .maint).ctl.core = .maint := by decide +kernel
theorem witness_CommandsKeepToTheirStates :
    Admits (inState .maint) port ∧ (inState .maint).ctl.core ∉ [CoreState.idle] ∧ (inState .reset).ctl.core = .reset := by
  simp only [Admits, port]; decide +kernel
theorem witness_TimersWaitForValidTime : idle.clock.valid = false := by decide +kernel
theorem witness_FenmalStandsApart : isFenmal .fmAuxFall = true ∧ isFenmal (.linkUp 0) = false := by decide
/-- The ends of the range about epoch 8 that EPOCH_LO tells apart, and of the one about membership epoch 0. -/
theorem witness_EpochsAreRestored :
    let a := setNums job [(O.STEP_EPOCH, 999)]
    a.epochOf (872 % 256) = 872 ∧ a.epochOf (1127 % 256) = 1127 ∧ 1000 ≤ 872 + 128 ∧ 1127 ≤ 1000 + 127 ∧ a.releaseDue = false ∧ a.membOf 7 = 7 ∧
      a.ctl.core ≠ .joined := by decide +kernel
theorem witness_EncodingsRoundTrip :
    let t := TxArgs.ofNat (txArgs 65535 65535 31 3 true 255 255 255)
    t.seq < 65536 ∧ t.band < 65536 ∧ t.col < 32 ∧ t.row < 4 ∧ t.mid < 256 ∧ t.epochLo < 256 ∧ t.low < 256 ∧ t.seq = 65535 ∧ t.col = 31 ∧ t.adopt = true ∧
      (MarkArgs.ofNat (markArgs 15 7 15 15 (2 ^ 48 - 1))).epoch = 2 ^ 48 - 1 ∧ load.version < 16 ∧ load.tag ≤ 1024 := by decide +kernel
theorem witness_ParityFollowsTheData :
    (∀ d ∈ [([1, 2] : Bytes), [3, 4]], d.length = 2) ∧ [([1, 2] : Bytes), [3, 4]][1]? = some [3, 4] ∧ ([5, 6] : Bytes).length = 2 ∧ coef 3 29 ≠ 0 := by
  decide +kernel

end Sys2Proof.Tests
end

section
/-! SUPPORT. Bit fields of ARGS words, and the restoring of epochs (R179, R182, R185, R188). -/
namespace Sys2Proof.Machine

/-- The number behind `restore`: it lies in the window of 2^w numbers about p, raised by 2^w, and is congruent to the low bits. -/
theorem restore_eq_sub (w p lo : Nat) : ∃ r, restore w p lo = r - 2 ^ w ∧ p + 2 ^ w ≤ r + 2 ^ (w - 1) ∧
    r + 2 ^ (w - 1) < p + 2 ^ w + 2 ^ w ∧ r % 2 ^ w = lo % 2 ^ w := by
  have hpos : 0 < 2 ^ w := Nat.two_pow_pos w
  have hle : 2 ^ (w - 1) ≤ 2 ^ w := Nat.pow_le_pow_right (by decide) (Nat.sub_le w 1)
  let base := p + 2 ^ w - 2 ^ (w - 1)
  let k := lo + 2 ^ w * (base / 2 ^ w + 1) - base
  have hk : base + k = lo + 2 ^ w * (base / 2 ^ w + 1) :=
    Nat.add_sub_cancel' (by have := Nat.lt_mul_div_succ base hpos; omega)
  have hmod : (base + k % 2 ^ w) % 2 ^ w = lo % 2 ^ w := by rw [Nat.add_mod_mod, hk, Nat.add_mul_mod_self_left]
  have hlt : k % 2 ^ w < 2 ^ w := Nat.mod_lt k hpos
  exact ⟨base + k % 2 ^ w, rfl, by omega, by omega, hmod⟩

/-- Where the window about p starts at zero or above, the restored number lies in it and has the low bits. -/
theorem restore_mem_window {w p : Nat} (lo : Nat) (h : 2 ^ (w - 1) ≤ p) : p ≤ restore w p lo + 2 ^ (w - 1) ∧
    restore w p lo + 2 ^ (w - 1) < p + 2 ^ w ∧ restore w p lo % 2 ^ w = lo % 2 ^ w := by
  obtain ⟨r, hr, hlow, hhigh, hmod⟩ := restore_eq_sub w p lo
  have hge : 2 ^ w ≤ r := by omega
  exact ⟨by omega, by omega, by rw [hr, ← Nat.mod_eq_sub_mod hge, hmod]⟩

/-- A number of the window about p that has the low bits is the restored one. -/
theorem restore_eq_of_mem_window {w p lo e : Nat} (hlow : p ≤ e + 2 ^ (w - 1)) (hhigh : e + 2 ^ (w - 1) < p + 2 ^ w)
    (hmod : e % 2 ^ w = lo % 2 ^ w) : restore w p lo = e := by
  obtain ⟨r, hr, hrlow, hrhigh, hrmod⟩ := restore_eq_sub w p lo
  have hcong : e + 2 ^ w ≡ r [MOD 2 ^ w] := by rw [Nat.ModEq, Nat.add_mod_right, hmod, hrmod]
  have heq : e + 2 ^ w = r := hcong.eq_of_abs_lt (by rw [abs_lt]; omega)
  omega

theorem txArgs_epochLo (seq band col row mid e low : Nat) (adopt : Bool) :
    (TxArgs.ofNat (txArgs seq band col row adopt mid e low)).epochLo = e % 256 := by
  simp only [TxArgs.ofNat, txArgs, packBits, bf]; omega

theorem partArgs_epochLo (kind e node gsid : Nat) : (PartArgs.ofNat (partArgs kind e node gsid)).epochLo = e % 256 := by
  simp only [PartArgs.ofNat, partArgs, packBits, bf]; omega

theorem extArgs_epochLo (sub e : Nat) (x : ExtEntry) : (GrantArgs.ofNat (extArgs sub x e)).epochLo = e % 256 := by
  simp only [GrantArgs.ofNat, extArgs, packBits, bf]; omega

theorem restripeArgs_epochLo (sub group tag e : Nat) : (GrantArgs.ofNat (restripeArgs sub group tag e)).epochLo = e % 256 := by
  simp only [GrantArgs.ofNat, restripeArgs, packBits, bf]; omega

/-- In a core that is not JOINED the classifying epoch counts from STEP_EPOCH (R25, R426). -/
theorem Alesh.classEpoch_of_not_joined {a : Alesh} (h : a.ctl.core ≠ .joined) :
    a.classEpoch = a.num O.STEP_EPOCH + 1 + if a.releaseDue then 1 else 0 := by
  simp [Alesh.classEpoch, Alesh.inProgress, h]

/-- Settles O58: the encoders put the low 8 bits at EPOCH_LO, and both restorations are the window lemmas of `restore`. -/
theorem epochsAreRestored : Obligations.EpochsAreRestored := by
  unfold Obligations.EpochsAreRestored
  refine ⟨txArgs_epochLo, fun a p => partArgs_epochLo .., fun sub group tag e x => ⟨extArgs_epochLo .., restripeArgs_epochLo ..⟩,
    fun _ _ _ _ _ => rfl, fun a lo => ⟨fun hj => ?_, fun e hlow hhigh hmod => ?_, fun hm => ?_⟩⟩
  · rw [Alesh.epochOf, Alesh.classEpoch_of_not_joined hj]
    refine ⟨fun e hlow hhigh hmod => restore_eq_of_mem_window (w := 8) hlow (by omega) hmod, fun hp => ?_⟩
    obtain ⟨hlow, hhigh, hmod⟩ := restore_mem_window (w := 8) lo hp
    exact ⟨hlow, by omega, hmod⟩
  · exact restore_eq_of_mem_window (w := 4) hlow (by omega) hmod
  · obtain ⟨hlow, hhigh, hmod⟩ := restore_mem_window (w := 4) lo hm
    exact ⟨hlow, by unfold Alesh.membOf; omega, hmod⟩

end Sys2Proof.Machine
end

section
/-! SUPPORT. What an inbound token can do to a core that takes tokens, and how outbound tokens leave (R424 to R427). -/
namespace Sys2Proof.Machine

/-- A command that is a function of the core gives the core that the function makes. -/
theorem gives_onCore {c : Instr} {f : Alesh → Alesh} {s : State} {p : Alesh → Prop} (hc : exec c s = onCore f s)
    (h : p (f s.alesh)) : Gives c s p := ⟨f s.alesh, hc, h⟩

theorem sameBut_setNum (a : Alesh) (k v : Nat) : SameBut [k] [] a (a.setNum k v) :=
  ⟨fun j hj => Alesh.num_setNum_ne a v (by simpa [eq_comm] using hj), fun _ _ => rfl⟩

theorem SameBut.of_dict {nums doms : List Nat} {a b c : Alesh} (h : SameBut nums doms a b) (hd : c.dict = b.dict) :
    SameBut nums doms a c :=
  ⟨fun k hk => (Alesh.num_of_dict hd k).trans (h.1 k hk), fun k hk => (Alesh.dom_of_dict hd k).trans (h.2 k hk)⟩

theorem joinedOrJob_not_occulted {a : Alesh} (h : a.joinedOrJob = true) : a.ctl.core ≠ .occulted := by
  intro e; simp [Alesh.joinedOrJob, Alesh.inJob, e] at h

theorem Alesh.epochStale_eq_false_iff {a : Alesh} {e : Nat} :
    a.epochStale e = false ↔ e = a.classEpoch ∨ e = a.classEpoch + 1 := by
  simp [Alesh.epochStale, Decidable.or_iff_not_imp_left]

/-! ### The outcomes of a token, in the order in which they are tested -/

section
variable {a : Alesh} (hin : a.joinedOrJob = true) (w : Nat) (hasSlot : Bool) (f : Alesh → Alesh)
include hin

theorem Alesh.token_malformed (stale dup : Bool) :
    a.token w hasSlot true stale dup f = a.cepMalformed.bounce hasSlot (bf w 0 16) := by
  simp [Alesh.token, Alesh.cepInReady, hin]

theorem Alesh.token_stale (dup : Bool) :
    a.token w hasSlot false true dup f = (a.count O.CEP_STALE_COUNT).bounce hasSlot (bf w 0 16) := by
  simp [Alesh.token, Alesh.cepInReady, hin]

theorem Alesh.token_new : a.token w hasSlot false false false f = f a := by
  simp [Alesh.token, Alesh.cepInReady, hin]

end

/-! ### Slots given back, and outbound tokens -/

theorem Alesh.bounce_frame (a : Alesh) (hasSlot : Bool) (slot : Nat) :
    a.bounce hasSlot slot = { a with cep := (a.bounce hasSlot slot).cep } := by
  unfold Alesh.bounce
  split
  · exact Alesh.post_frame ..
  · rfl

@[simp] theorem Alesh.bounce_dict (a : Alesh) (hasSlot : Bool) (slot : Nat) : (a.bounce hasSlot slot).dict = a.dict := by
  rw [Alesh.bounce_frame]

@[simp] theorem Alesh.bounce_evts (a : Alesh) (hasSlot : Bool) (slot : Nat) : (a.bounce hasSlot slot).evts = a.evts := by
  rw [Alesh.bounce_frame]

theorem Alesh.bounce_of_slot {a : Alesh} {slot : Nat} (h : slot < a.plan.slots) :
    a.bounce true slot = a.post uReduce (tokConsumed slot) := by
  simp [Alesh.bounce, h]

/-- A token of a unit goes into the queue of 256, and waits where another waits or the queue is full (R427). -/
theorem Alesh.post_cep {a : Alesh} (h : a.ctl.core ≠ .occulted) (u t : Nat) : (a.post u t).cep =
    if a.cep.held = [] ∧ a.cep.out.length < 256 then { a.cep with out := a.cep.out ++ [t] }
    else { a.cep with held := a.cep.held ++ [(u, t)] } := by
  have hcore : (a.ctl.core == CoreState.occulted) = false := by simpa using h
  simp only [Alesh.post, hcore, Bool.false_eq_true, if_false, Bool.and_eq_true, List.isEmpty_iff, decide_eq_true_eq]
  split <;> rfl

theorem Cep.taken_of_held_nil {c : Cep} {t : Nat} {r : List Nat} (ho : c.out = t :: r) (hh : c.held = []) :
    c.taken = { c with out := r } := by
  simp [Cep.taken, ho, hh]

theorem Cep.taken_of_held_cons {c : Cep} {t u x : Nat} {r : List Nat} {h : List (Nat × Nat)} (ho : c.out = t :: r)
    (hh : c.held = (u, x) :: h) :
    c.taken = if r.length < 256 then { c with out := r ++ [x], held := h } else { c with out := r } := by
  simp [Cep.taken, ho, hh]

/-! ### The rows -/

theorem raiseAttention_pending (a : Alesh) : a.raiseAttention.evts.pending.testBit 1 = true := by
  have h : (2 ^ 1).testBit 1 = true := Nat.testBit_two_pow_self
  exact (Nat.testBit_or ..).trans (by rw [h, Bool.or_true])

/-- Giving back the slot of a dropped token keeps what its count changed, and changes nothing beside the token port. -/
theorem bounce_counted {a c : Alesh} {k : Nat} (hdict : c.dict = (a.count k).dict)
    (hc : c = { a with dict := c.dict, evts := c.evts }) (hasSlot : Bool) (slot : Nat) :
    let b := c.bounce hasSlot slot
    b.num k = satAdd (widthOf k) (a.num k) 1 ∧ SameBut [k] [] a b ∧ b = { a with dict := b.dict, evts := b.evts, cep := b.cep } := by
  have hd : (c.bounce hasSlot slot).dict = (a.count k).dict := (Alesh.bounce_dict ..).trans hdict
  refine ⟨?_, (sameBut_setNum a k _).of_dict hd, ?_⟩
  · rw [Alesh.num_of_dict hd, Alesh.num_count, if_pos rfl]
  · rw [Alesh.bounce_frame, hc]

theorem contrib_takes {s : State} {w : Nat} (hin : s.alesh.joinedOrJob = true)
    (hitem : bf w 18 18 < s.alesh.plan.itemCount) (hslot : (bf w 55 1 == 1) = true ∨ bf w 0 16 < s.alesh.plan.slots)
    (hlive : s.alesh.epochStale (s.alesh.tokenEpoch w) = false) (hhost : s.alesh.hosts (bf w 36 16) = true)
    (hnew : ∀ c ∈ s.alesh.red.contribs,
      ¬(c.replica = bf w 36 16 ∧ c.item = bf w 18 18 ∧ c.epoch = s.alesh.tokenEpoch w)) :
    Gives (.contrib w) s fun b => b = { s.alesh with red := { s.alesh.red with contribs := s.alesh.red.contribs ++
      [{ replica := bf w 36 16, item := bf w 18 18, epoch := s.alesh.tokenEpoch w, slot := bf w 0 16
         null := bf w 55 1 == 1, read := false }] } } := by
  refine gives_onCore (f := Alesh.contribToken w) rfl ?_
  have hbad : (decide (s.alesh.plan.itemCount ≤ bf w 18 18) ||
      !(bf w 55 1 == 1) && decide (s.alesh.plan.slots ≤ bf w 0 16)) = false := by
    rcases hslot with h | h
    · simp [hitem, h]
    · simp [hitem, h]
  have hdup : (s.alesh.red.contribs.any fun c =>
      c.replica == bf w 36 16 && c.item == bf w 18 18 && c.epoch == s.alesh.tokenEpoch w) = false := by
    simpa [and_assoc] using hnew
  simp only [Alesh.contribToken, hbad, hlive, hhost, hdup, Bool.not_true, Bool.or_false, Alesh.token_new hin]

theorem contrib_stale {s : State} {w : Nat} (hin : s.alesh.joinedOrJob = true)
    (hitem : bf w 18 18 < s.alesh.plan.itemCount) (hslot : bf w 0 16 < s.alesh.plan.slots) (hnull : (bf w 55 1 == 1) = false)
    (hstale : s.alesh.epochStale (s.alesh.tokenEpoch w) = true) :
    Gives (.contrib w) s fun b => b = (s.alesh.count O.CEP_STALE_COUNT).bounce true (bf w 0 16) := by
  refine gives_onCore (f := Alesh.contribToken w) rfl ?_
  have hbad : (decide (s.alesh.plan.itemCount ≤ bf w 18 18) || decide (s.alesh.plan.slots ≤ bf w 0 16)) = false := by
    simp [hitem, hslot]
  simp only [Alesh.contribToken, hnull, hbad, hstale, Bool.not_false, Bool.true_and, Bool.true_or, Alesh.token_stale hin]

theorem releaseToken_takes {s : State} {w : Nat} (hin : s.alesh.joinedOrJob = true)
    (hlive : s.alesh.epochStale (s.alesh.tokenEpoch w) = false) (hnew : (bf w 0 16, s.alesh.tokenEpoch w) ∉ s.alesh.pub.tokens) :
    Gives (.releaseToken w) s fun b =>
      b = { s.alesh with pub := { s.alesh.pub with tokens := s.alesh.pub.tokens ++ [(bf w 0 16, s.alesh.tokenEpoch w)] } } := by
  refine gives_onCore (f := Alesh.releaseToken w) rfl ?_
  have hnot : s.alesh.pub.tokens.contains (bf w 0 16, s.alesh.tokenEpoch w) = false := by simpa using hnew
  simp only [Alesh.releaseToken, hlive, Alesh.token_new hin, hnot, Bool.false_eq_true, if_false]

theorem lsePart_takes {s : State} {w : Nat} {m : PlanMerge} (hin : s.alesh.joinedOrJob = true)
    (hm : s.alesh.plan.merges[bf w 48 8]? = some m) (hslot : bf w 0 16 < s.alesh.plan.slots) (hfirst : m.first ≤ bf w 32 16)
    (hlast : bf w 32 16 < m.first + m.count) (hq : bf w 16 16 < m.qblocks)
    (hlive : s.alesh.epochStale (s.alesh.tokenEpoch w) = false)
    (hnew : ∀ c ∈ s.alesh.red.lse,
      ¬(c.merge = bf w 48 8 ∧ c.chunk = bf w 32 16 ∧ c.qblock = bf w 16 16 ∧ c.epoch = s.alesh.tokenEpoch w)) :
    Gives (.lsePart w) s fun b => b = { s.alesh with red := { s.alesh.red with lse := s.alesh.red.lse ++
      [{ merge := bf w 48 8, chunk := bf w 32 16, qblock := bf w 16 16, epoch := s.alesh.tokenEpoch w
         slot := bf w 0 16, read := false }] } } := by
  refine gives_onCore (f := Alesh.lseToken w) rfl ?_
  have hbad : (decide (s.alesh.plan.slots ≤ bf w 0 16) || decide (bf w 32 16 < m.first) ||
      decide (m.first + m.count ≤ bf w 32 16) || decide (m.qblocks ≤ bf w 16 16)) = false := by
    simp [hslot, hfirst, hlast, hq]
  have hdup : (s.alesh.red.lse.any fun c =>
      c.merge == bf w 48 8 && c.chunk == bf w 32 16 && c.qblock == bf w 16 16 && c.epoch == s.alesh.tokenEpoch w) = false := by
    simpa [and_assoc] using hnew
  simp only [Alesh.lseToken, hm, hbad, hlive, hdup, Alesh.token_new hin]

theorem malformedCepToken_counts {s : State} {w : Nat} (hin : s.alesh.joinedOrJob = true)
    (h1 : bf w 60 4 ≠ 1) (h2 : bf w 60 4 ≠ 2) (h3 : bf w 60 4 ≠ 3) :
    Gives (.malformedCepToken w) s fun b => b = s.alesh.cepMalformed.bounce (bf w 60 4 == 8) (bf w 0 16) := by
  refine gives_onCore (f := Alesh.badToken w) rfl ?_
  simp only [Alesh.badToken, h1, h2, h3, or_self, if_false, Alesh.token_malformed hin]

theorem Alesh.tokenOut_of_nil {a : Alesh} (h : a.cep.out = []) : a.tokenOut = a := by
  simp [Alesh.tokenOut, h]

theorem Alesh.tokenOut_of_cons {a : Alesh} {t : Nat} {r : List Nat} (h : a.cep.out = t :: r) : a.tokenOut =
    ({ a with cep := a.cep.taken, ctl := { a.ctl with draws := a.ctl.draws + 1 } }).wrapN O.CEP_OUT_STALL_COUNT
      (Config.freeStall a.ctl.draws) := by
  simp [Alesh.tokenOut, h]

/-- Settles O22: the tests of R426 in their order decide what a token does, and the queue's head leaves for the oldest that waits. -/
theorem tokensAreTakenOnce : Obligations.TokensAreTakenOnce := by
  unfold Obligations.TokensAreTakenOnce
  intro s w hin
  refine ⟨fun hitem hslot => ⟨fun hlive hhost hnew => ?_, fun hdead hnull => ?_⟩, fun hlive hnew => ?_,
    fun m hm hslot hfirst hlast hq hlive hnew => ?_, fun h1 h2 h3 => ?_, fun hout => ?_, fun t r hout => ?_⟩
  · exact contrib_takes hin hitem hslot (Alesh.epochStale_eq_false_iff.2 hlive) hhost hnew
  · have hslot : bf w 0 16 < s.alesh.plan.slots := hslot.resolve_left (by simp [hnull])
    have hstale : s.alesh.epochStale (s.alesh.tokenEpoch w) = true :=
      Bool.eq_true_of_not_eq_false fun h => hdead (Alesh.epochStale_eq_false_iff.1 h)
    obtain ⟨b, hb, rfl⟩ := contrib_stale hin hitem hslot hnull hstale
    obtain ⟨hnum, hsame, hframe⟩ := bounce_counted (a := s.alesh) (k := O.CEP_STALE_COUNT) rfl rfl true (bf w 0 16)
    have hplan : bf w 0 16 < (s.alesh.count O.CEP_STALE_COUNT).plan.slots := hslot
    refine ⟨_, hb, hnum, ?_, hsame, hframe⟩
    rw [Alesh.bounce_of_slot hplan]
    exact Alesh.post_cep (a := s.alesh.count O.CEP_STALE_COUNT) (joinedOrJob_not_occulted hin) ..
  · exact releaseToken_takes hin (Alesh.epochStale_eq_false_iff.2 hlive) hnew
  · exact lsePart_takes hin hm hslot hfirst hlast hq (Alesh.epochStale_eq_false_iff.2 hlive) hnew
  · obtain ⟨b, hb, rfl⟩ := malformedCepToken_counts hin h1 h2 h3
    obtain ⟨hnum, hsame, hframe⟩ := bounce_counted (a := s.alesh) (c := s.alesh.cepMalformed) (k := O.CEP_MALFORMED_COUNT) rfl rfl
      (bf w 60 4 == 8) (bf w 0 16)
    refine ⟨_, hb, hnum, ?_, hsame, hframe⟩
    rw [Alesh.bounce_evts]
    exact raiseAttention_pending ..
  · exact gives_onCore (f := Alesh.tokenOut) rfl (Alesh.tokenOut_of_nil hout)
  · refine gives_onCore (f := Alesh.tokenOut) rfl ?_
    rw [Alesh.tokenOut_of_cons hout]
    exact ⟨Cep.taken_of_held_nil hout, fun _ _ _ => Cep.taken_of_held_cons hout, sameBut_setNum .., rfl⟩

end Sys2Proof.Machine
end

section
/-! SUPPORT. Where a slice stands (its marks and its last committed epoch), and what marking it and carrying it to its epoch may
change (R18, R81 to R83, R131, R134, R198). -/
namespace Sys2Proof.Machine

/-! ### Where a slice stands -/

/-- The marks of a slice and the last epoch at which it committed. -/
def Alesh.standing (a : Alesh) (g : Nat) : Option (List (Nat × List Nat) × Nat) := (a.prog? g).map fun p => (p.marks, p.last)

theorem Alesh.marks?_eq_standing (a : Alesh) (g e : Nat) : a.marks? g e = (a.standing g).bind fun x => lookup? x.1 e := by
  simp [Alesh.marks?, Alesh.standing, Option.bind_map]

theorem Alesh.committed_eq_standing (a : Alesh) (g e : Nat) :
    a.committed g e = ((a.standing g).map fun x => decide (e ≤ x.2)).getD false := by
  simp [Alesh.committed, Alesh.standing, Option.map_map, Function.comp_def]

/-- A change of one slice's progress is seen at that slice alone. -/
theorem Alesh.prog?_modProg (a : Alesh) (g h : Nat) {f : Prog → Prog} (hf : ∀ p, (f p).gsid = p.gsid) :
    (a.modProg g f).prog? h = if h = g then (a.prog? g).map f else a.prog? h := by
  have hkey : ((fun p : Prog => p.gsid == h) ∘ fun p => if p.gsid == g then f p else p) = fun p => p.gsid == h := by
    funext p
    by_cases hp : p.gsid = g <;> simp [hp, hf]
  unfold Alesh.prog? Alesh.modProg modWhere
  rw [List.find?_map, hkey]
  cases hfind : a.progs.find? fun p => p.gsid == h with
  | none =>
    by_cases hh : h = g
    · subst hh; simp [hfind]
    · simp [hh]
  | some p =>
    have hp : p.gsid = h := by simpa using List.find?_some hfind
    by_cases hh : h = g
    · subst hh; simp [hfind, hp]
    · simp [hp, hh]

theorem Alesh.standing_modProg_same (a : Alesh) (g : Nat) {f : Prog → Prog} (hf : ∀ p, (f p).gsid = p.gsid) :
    (a.modProg g f).standing g = (a.prog? g).map fun p => ((f p).marks, (f p).last) := by
  simp [Alesh.standing, Alesh.prog?_modProg a g g hf, Function.comp_def]

/-! ### What may change -/

/-- Nothing has changed but what marking a slice and carrying it to its epoch may change. -/
def MarkFrame (a b : Alesh) : Prop :=
  b = { a with progs := b.progs, red := b.red, take := b.take, mem0 := b.mem0, ports := b.ports, merid := b.merid, health := b.health
               comm := b.comm, mgmt := b.mgmt }

theorem MarkFrame.trans {a b c : Alesh} (hab : MarkFrame a b) (hbc : MarkFrame b c) : MarkFrame a c := by
  unfold MarkFrame at hab
  refine Eq.trans hbc ?_
  rw [hab]

theorem MarkFrame.modProg (a : Alesh) (g : Nat) (f : Prog → Prog) : MarkFrame a (a.modProg g f) := rfl

theorem MarkFrame.ctl {a b : Alesh} (h : MarkFrame a b) : b.ctl = a.ctl := by rw [h]
theorem MarkFrame.dict {a b : Alesh} (h : MarkFrame a b) : b.dict = a.dict := by rw [h]
theorem MarkFrame.inJob {a b : Alesh} (h : MarkFrame a b) : b.inJob = a.inJob := by rw [Alesh.inJob, h.ctl, Alesh.inJob]

/-- In a job the epoch in progress counts from STEP_EPOCH. -/
theorem Alesh.inProgress_of_inJob {a : Alesh} (h : a.inJob = true) : a.inProgress = a.num O.STEP_EPOCH + 1 := by
  have hcore : a.ctl.core ≠ .joined := fun e => by simp [Alesh.inJob, e] at h
  simp [Alesh.inProgress, hcore]

theorem MarkFrame.inProgress {a b : Alesh} (h : MarkFrame a b) (hj : a.inJob = true) : b.inProgress = a.inProgress := by
  rw [Alesh.inProgress_of_inJob (h.inJob.trans hj), Alesh.inProgress_of_inJob hj, Alesh.num_of_dict h.dict]

/-- Within `MarkFrame`, every slice stands where it stood. -/
structure KeepsStanding (a b : Alesh) : Prop where
  frame : MarkFrame a b
  standing : ∀ g, b.standing g = a.standing g

namespace KeepsStanding

theorem refl (a : Alesh) : KeepsStanding a a := ⟨rfl, fun _ => rfl⟩

theorem trans {a b c : Alesh} (hab : KeepsStanding a b) (hbc : KeepsStanding b c) : KeepsStanding a c :=
  ⟨hab.frame.trans hbc.frame, fun g => (hbc.standing g).trans (hab.standing g)⟩

theorem foldl {ι : Type} {f : Alesh → ι → Alesh} (hf : ∀ a x, KeepsStanding a (f a x)) (l : List ι) (a : Alesh) :
    KeepsStanding a (l.foldl f a) := by
  induction l generalizing a with
  | nil => exact refl a
  | cons x l ih => exact (hf a x).trans (ih (f a x))

theorem of_progs {a b : Alesh} (hf : MarkFrame a b) (hp : b.progs = a.progs) : KeepsStanding a b :=
  ⟨hf, fun g => by unfold Alesh.standing Alesh.prog?; rw [hp]⟩

/-- The parts of the frame in which no slice stands. -/
theorem parts (a : Alesh) (red : Red) (take : Take) (mem0 : Memory) (ports : Ports) (merid : Merid) (health : Health) (comm : Comm)
    (mgmt : Mgmt) : KeepsStanding a { a with red := red, take := take, mem0 := mem0, ports := ports, merid := merid
                                             health := health, comm := comm, mgmt := mgmt } := of_progs rfl rfl

theorem modProg (a : Alesh) (g : Nat) {f : Prog → Prog} (hg : ∀ p, (f p).gsid = p.gsid) (hm : ∀ p, (f p).marks = p.marks)
    (hl : ∀ p, (f p).last = p.last) : KeepsStanding a (a.modProg g f) := by
  refine ⟨MarkFrame.modProg a g f, fun h => ?_⟩
  unfold Alesh.standing
  rw [Alesh.prog?_modProg a g h hg]
  by_cases hh : h = g
  · simp [hh, hm, hl, Function.comp_def]
  · simp [hh]

/-! ### Packets and memory -/

theorem emit (a : Alesh) (p : Pkt) : KeepsStanding a (a.emit p) :=
  of_progs (by unfold MarkFrame; rw [Alesh.emit_frame]) (Alesh.emit_progs a p)

theorem send (a : Alesh) (typ dst args : Nat) (b : Bytes) : KeepsStanding a (a.send typ dst args b) := emit a _

theorem sendHello (a : Alesh) (sub step dst : Nat) (b : Bytes) : KeepsStanding a (a.sendHello sub step dst b) := send a ..

theorem sendAll (a : Alesh) (typ : Nat) (dsts : List Nat) (args : Nat) (b : Bytes) :
    KeepsStanding a (a.sendAll typ dsts args b) := foldl (fun a d => send a typ d args b) dsts a

theorem wr (a : Alesh) (addr : Nat) (b : Bytes) : KeepsStanding a (a.wr addr b) := by
  unfold Alesh.wr
  split
  · exact refl a
  · split
    · exact parts ..
    · exact foldl (fun _ _ => parts ..) _ a

/-! ### Owner combine -/

theorem setGrad (a : Alesh) (g e : Nat) (v : List F32) : KeepsStanding a (a.setGrad g e v) := by
  unfold Alesh.setGrad
  split
  · exact refl a
  · exact (foldl (fun c q => wr c _ _) _ a).trans (modProg _ g (fun _ => rfl) (fun _ => rfl) fun _ => rfl)

theorem ownerCombine (a : Alesh) (g e : Nat) : KeepsStanding a (a.ownerCombine g e) := by
  unfold Alesh.ownerCombine
  split
  · split
    · exact (setGrad a g e _).trans (parts ..)
    · exact refl a
  · exact refl a

theorem setHeaderGrad (a : Alesh) (e : Nat) (v : List F32) : KeepsStanding a (a.setHeaderGrad e v) := by
  refine foldl (fun b g => ?_) _ a
  split
  · exact setGrad b g e v
  · exact refl b

theorem combineWaiting (a : Alesh) : KeepsStanding a a.combineWaiting := by
  refine (foldl (fun b p => ?_) _ a).trans (foldl (fun b p => ?_) _ _)
  · split
    · exact ownerCombine b ..
    · exact refl b
  · split
    · split
      · exact setHeaderGrad b ..
      · exact refl b
    · exact refl b

theorem freeGrad (a : Alesh) (g e : Nat) : KeepsStanding a (a.freeGrad g e) := by
  refine trans ?_ (combineWaiting _)
  exact modProg a g (fun _ => rfl) (fun _ => rfl) fun _ => rfl

theorem retainRel (a : Alesh) (g e : Nat) : KeepsStanding a (a.retainRel g e) :=
  (sendAll a ..).trans (parts ..)

/-! ### Arrival -/

theorem askInBand (a : Alesh) (dst key : Nat) (data : Bytes) : KeepsStanding a (a.askInBand dst key data) := by
  unfold Alesh.askInBand
  exact trans (parts ..) (send ..)

theorem writeOrder (a : Alesh) (dsts : List Nat) : KeepsStanding a (a.writeOrder dsts) := by
  unfold Alesh.writeOrder
  split
  · exact foldl (fun b d => askInBand b ..) dsts a
  · exact refl a

theorem startOrders (a : Alesh) : KeepsStanding a a.startOrders := by
  unfold Alesh.startOrders
  split
  · split
    · refine trans ?_ (writeOrder ..)
      exact parts ..
    · exact refl a
  · exact refl a

theorem tryRelease (a : Alesh) : KeepsStanding a a.tryRelease := by
  unfold Alesh.tryRelease
  extract_lets e before r src b
  have hb : KeepsStanding a b := parts ..
  split
  · exact (hb.trans (foldl (fun c n => sendHello c ..) _ b)).trans (startOrders _)
  · exact refl a

theorem noteArrive (a : Alesh) (n e : Nat) : KeepsStanding a (a.noteArrive n e) := by
  unfold Alesh.noteArrive
  extract_lets start src b
  have hb : KeepsStanding a b := by
    unfold b
    split
    · exact parts ..
    · exact refl a
  split
  · exact hb
  · refine hb.trans (trans ?_ (tryRelease _))
    exact parts ..

theorem noteOwn (a : Alesh) (e : Nat) : KeepsStanding a (a.noteOwn e) := by
  unfold Alesh.noteOwn
  split
  · exact noteArrive a ..
  · exact refl a

/-- An arrival below the last step epoch (R51) leaves every slice where it stands. -/
theorem tryArrive {a : Alesh} (h : a.inProgress < 2 ^ 48) : KeepsStanding a a.tryArrive := by
  have hno : decide (2 ^ 48 ≤ a.inProgress) = false := decide_eq_false (Nat.not_le.2 h)
  unfold Alesh.tryArrive
  extract_lets e key first src src' b
  have hb : KeepsStanding a b := parts ..
  rw [hno, Bool.and_false, if_neg Bool.false_ne_true]
  split
  · exact (hb.trans (sendHello b ..)).trans (noteOwn ..)
  · exact refl a

end KeepsStanding

/-! ### Marking a slice, and carrying one whose units are all null to its epoch -/

theorem Alesh.prog?_setMarks {a : Alesh} {g : Nat} {p : Prog} (hp : a.prog? g = some p) (e : Nat) (nulls : List Nat) :
    (a.setMarks g e nulls).prog? g = some { p with marks := assign p.marks e nulls } := by
  unfold Alesh.setMarks
  rw [Alesh.prog?_modProg, if_pos rfl, hp]
  · rfl
  · exact fun _ => rfl

theorem Alesh.marks?_setMarks {a : Alesh} {g : Nat} {p : Prog} (hp : a.prog? g = some p) (e : Nat) (nulls : List Nat) :
    (a.setMarks g e nulls).marks? g e = some nulls := by
  simp [Alesh.marks?, Alesh.prog?_setMarks hp, lookup?_assign]

/-- A slice counts as committed at an epoch (R18): its partials are released and its reduced gradient freed; then the core may have
arrived. -/
def Alesh.carryTo (a : Alesh) (g e : Nat) : Alesh :=
  (((a.retainRel g e).modProg g fun q => { q with last := e, fence := e }).freeGrad g e).tryArrive

section
variable {a : Alesh} (hj : a.inJob = true) (hlast : a.inProgress < 2 ^ 48) (g e : Nat)
include hj hlast

/-- Once the slice's progress says e, what remains leaves every slice where it stands. -/
theorem Alesh.carryTo_keepsStanding :
    KeepsStanding ((a.retainRel g e).modProg g fun q => { q with last := e, fence := e }) (a.carryTo g e) := by
  unfold Alesh.carryTo
  set b := (a.retainRel g e).modProg g fun q => { q with last := e, fence := e }
  have hframe : MarkFrame a b := (KeepsStanding.retainRel a g e).frame.trans (MarkFrame.modProg ..)
  have hfree := KeepsStanding.freeGrad b g e
  exact hfree.trans (KeepsStanding.tryArrive (by rw [(hframe.trans hfree.frame).inProgress hj]; exact hlast))

theorem Alesh.carryTo_frame : MarkFrame a (a.carryTo g e) :=
  ((KeepsStanding.retainRel a g e).frame.trans (MarkFrame.modProg ..)).trans (Alesh.carryTo_keepsStanding hj hlast g e).frame

/-- A slice carried to an epoch keeps its marks and has committed there. -/
theorem Alesh.carryTo_standing : (a.carryTo g e).standing g = (a.standing g).map fun x => (x.1, e) := by
  rw [(Alesh.carryTo_keepsStanding hj hlast g e).standing, Alesh.standing_modProg_same,
    ← (KeepsStanding.retainRel a g e).standing]
  · simp [Alesh.standing, Function.comp_def]
  · exact fun _ => rfl

theorem Alesh.carryTo_marks? (e' : Nat) : (a.carryTo g e).marks? g e' = a.marks? g e' := by
  rw [Alesh.marks?_eq_standing, Alesh.carryTo_standing hj hlast, Alesh.marks?_eq_standing]
  simp [Option.bind_map]

theorem Alesh.carryTo_committed {p : Prog} (hp : a.prog? g = some p) : (a.carryTo g e).committed g e = true := by
  rw [Alesh.committed_eq_standing, Alesh.carryTo_standing hj hlast]
  simp [Alesh.standing, hp]

end

theorem Alesh.settleNull_of_epoch_ne {a : Alesh} {g : Nat} {p : Prog} (hp : a.prog? g = some p) (he : p.epoch ≠ a.inProgress) :
    a.settleNull g = a := by
  unfold Alesh.settleNull
  simp only [hp]
  split
  · next hq _ => cases hq; simp [he]
  · rfl

/-- A slice marked at the job's epoch in progress is carried to it where all its units are null and the core may commit. -/
theorem Alesh.settleNull_of_epoch_eq {a : Alesh} {g : Nat} {p : Prog} {nulls : List Nat} (hp : a.prog? g = some p)
    (he : p.epoch = a.inProgress) (hm : a.marks? g p.epoch = some nulls) (hu : p.undecided = false) :
    a.settleNull g =
      if a.sound = true ∧ p.upd = none ∧ ∀ u ∈ a.units g, u.1 ∈ nulls then a.carryTo g p.epoch else a := by
  unfold Alesh.settleNull
  rw [he] at hm ⊢
  simp only [hp, hm]
  refine if_congr ?_ rfl rfl
  simp [he, hu, and_assoc]

/-- With every gradient there, a slice that has no marks yet is marked with its null units, and then settled. -/
theorem Alesh.skipMark_marks {a : Alesh} {g : Nat} {p : Prog} (hp : a.prog? g = some p) (hj : a.inJob = true)
    (hu : a.unit uUpdate = .running) (ho : a.owns g = true) (hd : p.undecided = false) (hnew : a.marks? g p.epoch = none)
    (he : p.epoch ≤ a.inProgress + 1) (hhead : isHeader g = true → (a.grad? g p.epoch).isSome = true)
    (hall : ∀ u ∈ a.units g, (a.unitNull g p.epoch u).isSome = true) :
    a.skipMark g =
      (a.setMarks g p.epoch (((a.units g).filter fun u => a.unitNull g p.epoch u == some true).map (·.1))).settleNull g := by
  have hgrad : (!isHeader g || (a.grad? g p.epoch).isSome) = true := by
    cases hg : isHeader g with
    | false => rfl
    | true => simp [hhead hg]
  have hms : (((a.units g).map fun u => (u.1, a.unitNull g p.epoch u)).all fun m => m.2.isSome) = true := by
    simpa [List.all_map] using hall
  unfold Alesh.skipMark
  simp only [hp, hj, hu, ho, hd, hnew, he, hgrad, hms, Option.isNone_none, Bool.not_false, decide_true, beq_self_eq_true,
    Bool.and_true, if_true, List.filter_map, List.map_map]
  rfl

/-! ### The norm pass -/

theorem Alesh.withPages_of_ready {a : Alesh} {ps : List (Nat × Nat)} (h : ∀ q ∈ ps, a.pageReady q.1 q.2 = true) (u : Nat) (k : Alesh) :
    a.withPages u ps k = k := by
  have hnone : a.unready ps = none := by simpa [Alesh.unready] using h
  simp [Alesh.withPages, hnone]

theorem Alesh.emit_ports (a : Alesh) (p : Pkt) : (a.emit p).ports =
    if !a.maySend || (a.joining && p.kind == 0 && !isPull p) then a.ports
    else if p.dst = a.node then { a.ports with loop := a.ports.loop ++ [p] }
    else a.ports.enqueue (a.now + a.num O.FP_GAP_NS) p := by
  unfold Alesh.emit
  split
  · rfl
  · split <;> rfl

/-- What goes to the ports depends on nothing that the reduction holds. -/
theorem Alesh.emit_ports_of_red (a : Alesh) (r : Red) (p : Pkt) : ({ a with red := r }.emit p).ports = (a.emit p).ports :=
  (Alesh.emit_ports ..).trans (Alesh.emit_ports a p).symm

/-- The results of every owned slice at an epoch. -/
def Alesh.ownNorms (a : Alesh) (e : Nat) : List NormEnt := a.take.owned.flatMap fun g => a.sliceNorms g e

theorem Alesh.normPass_sends {s : Alesh} {now : Nat} {a : Alesh} (ha : s.at now = a) (hj : a.inJob = true)
    (hu : a.unit uUpdate = .running) (hnew : a.red.normSent ≠ a.inProgress)
    (hready : ∀ g ∈ a.take.owned, a.normReady g a.inProgress = true)
    (hpages : ∀ q ∈ a.normPages a.inProgress, a.pageReady q.1 q.2 = true) (hexp : a.normBadExps = []) :
    s.normPass now =
      let es := a.ownNorms a.inProgress
      let b := { a with red := { a.red with normSent := a.inProgress, ownNorms := es } }
      if es = [] then b else b.emit (a.cresol tPart a.combiner (partArgs kNorm a.inProgress 0 0) (es.flatMap fun n => n.bytes false)) := by
  have hall : (a.take.owned.all fun g => a.normReady g a.inProgress) = true := by simpa using hready
  have hsent : (a.red.normSent != a.inProgress) = true := by simpa using hnew
  unfold Alesh.normPass
  simp only [ha, hj, hu, hsent, hall, hexp, Alesh.withPages_of_ready hpages, beq_self_eq_true, Bool.and_true, if_true,
    List.isEmpty_nil, Bool.not_true, Bool.false_eq_true, if_false, List.isEmpty_iff]
  rfl

/-! ### The two clauses -/

theorem skipMark_gives {s : State} {g : Nat} {p : Prog} (hj : s.alesh.inJob = true) (hu : s.alesh.unit uUpdate = .running)
    (ho : s.alesh.owns g = true) (hp : s.alesh.prog? g = some p) (hd : p.undecided = false)
    (hnew : s.alesh.marks? g p.epoch = none) (hlast : s.alesh.inProgress < 2 ^ 48) (he : p.epoch ≤ s.alesh.inProgress + 1)
    (hhead : isHeader g = true → (s.alesh.grad? g p.epoch).isSome = true)
    (hall : ∀ u ∈ s.alesh.units g, (s.alesh.unitNull g p.epoch u).isSome = true) :
    let a := s.alesh
    let nulls := ((a.units g).filter fun u => a.unitNull g p.epoch u == some true).map (·.1)
    Gives (.skipMark g) s fun b => b.marks? g p.epoch = some nulls ∧
      (p.epoch = a.inProgress → a.sound = true → p.upd = none → (∀ u ∈ a.units g, a.unitNull g p.epoch u = some true) →
        b.committed g p.epoch = true) ∧
      ((∃ u ∈ a.units g, u.1 ∉ nulls) → b = { a with progs := b.progs }) ∧ MarkFrame a b := by
  intro a nulls
  let c := a.setMarks g p.epoch nulls
  let q : Prog := { p with marks := assign p.marks p.epoch nulls }
  have hq : c.prog? g = some q := Alesh.prog?_setMarks hp p.epoch nulls
  have hm : c.marks? g p.epoch = some nulls := Alesh.marks?_setMarks hp p.epoch nulls
  have hc : MarkFrame a c := MarkFrame.modProg ..
  have hcj : c.inJob = true := hj
  have hstep : a.skipMark g = c.settleNull g := Alesh.skipMark_marks hp hj hu ho hd hnew he hhead hall
  have hin : (∀ u ∈ a.units g, a.unitNull g p.epoch u = some true) → ∀ u ∈ a.units g, u.1 ∈ nulls := fun h u hu =>
    List.mem_map_of_mem (List.mem_filter.2 ⟨hu, by simp [h u hu]⟩)
  refine ⟨a.skipMark g, rfl, ?_⟩
  rw [hstep]
  by_cases hep : p.epoch = a.inProgress
  · rw [Alesh.settleNull_of_epoch_eq hq hep hm hd]
    split
    · next hset =>
      exact ⟨(Alesh.carryTo_marks? hcj hlast g p.epoch p.epoch).trans hm, fun _ _ _ _ => Alesh.carryTo_committed hcj hlast g p.epoch hq,
        fun ⟨u, hu, hnot⟩ => absurd (hset.2.2 u hu) hnot, hc.trans (Alesh.carryTo_frame hcj hlast g p.epoch)⟩
    · next hset =>
      exact ⟨hm, fun _ hs hupd hnull => absurd ⟨hs, hupd, hin hnull⟩ hset, fun _ => rfl, hc⟩
  · rw [Alesh.settleNull_of_epoch_ne hq hep]
    exact ⟨hm, fun h => absurd h hep, fun _ => rfl, hc⟩

theorem normPass_gives {s : State} {now : Nat} {a : Alesh} (ha : s.alesh.at now = a) (hj : a.inJob = true)
    (hu : a.unit uUpdate = .running) (hnew : a.red.normSent ≠ a.inProgress)
    (hready : ∀ g ∈ a.take.owned, a.normReady g a.inProgress = true)
    (hpages : ∀ q ∈ a.normPages a.inProgress, a.pageReady q.1 q.2 = true) (hexp : a.normBadExps = []) :
    Gives (.normPass now) s fun b =>
      let es := a.ownNorms a.inProgress
      b.red = { a.red with normSent := a.inProgress, ownNorms := es } ∧
      b.ports = (if es = [] then a.ports else
        (a.emit (a.cresol tPart a.combiner (partArgs kNorm a.inProgress 0 0) (es.flatMap fun n => n.bytes false))).ports) ∧
      b = { a with red := b.red, ports := b.ports } := by
  refine gives_onCore (f := Alesh.normPass now) rfl ?_
  rw [Alesh.normPass_sends ha hj hu hnew hready hpages hexp]
  dsimp only
  by_cases hes : a.ownNorms a.inProgress = []
  · rw [if_pos hes, if_pos hes]
    exact ⟨rfl, rfl, rfl⟩
  · rw [if_neg hes, if_neg hes]
    refine ⟨Alesh.emit_red .., Alesh.emit_ports_of_red .., ?_⟩
    rw [Alesh.emit_frame]

/-- Settles O28: marking a slice leads to `settleNull`, whose carrying keeps the marks; the norm pass sends once its guards hold. -/
theorem marksAndNormsOncePerEpoch : Obligations.MarksAndNormsOncePerEpoch := by
  unfold Obligations.MarksAndNormsOncePerEpoch
  refine ⟨fun s g p hj hu ho hp hd hnew hlast he hhead hall => ?_, fun s now hj hu hnew hready hpages hexp => ?_⟩
  · exact skipMark_gives hj hu ho hp hd hnew hlast he hhead hall
  · refine normPass_gives (s := s) rfl ?_ ?_ hnew hready hpages hexp
    · rw [Alesh.inJob, Alesh.at_ctl]; exact hj
    · rw [Alesh.unit, Alesh.at_ctl]; exact hu

end Sys2Proof.Machine
end

section
/-! SUPPORT. CRC-64 as R46 states it. -/
namespace Sys2Proof.Machine

/-- The register takes a byte at its top and shifts eight times. -/
theorem crcByte_eq (c : BitVec 64) (x : Byte) : crcByte c x = crcShift 8 (c ^^^ (x.zeroExtend 64 <<< 56)) := rfl

/-- Settles O57: a byte of the statement is `crcByte` with its eight shifts written out; the check value is computed. -/
theorem crcFollowsEcma : Obligations.CrcFollowsEcma := by
  unfold Obligations.CrcFollowsEcma
  intro shift take
  have hbyte : crcByte = take := funext fun c => funext fun x => crcByte_eq c x
  refine ⟨fun b => ?_, by decide +kernel⟩
  rw [crc64, hbyte]
  rfl

end Sys2Proof.Machine
end

section
/-! SUPPORT. Writes of Tier 0 one after another, and what an arrival may change (R28, R29, R198, R225). -/
namespace Sys2Proof.Machine

/-! ### Writes of Tier 0 -/

/-- All that a write does: the bytes of Tier 0. -/
theorem Alesh.wr_frame (a : Alesh) (addr : Nat) (b : Bytes) : a.wr addr b = { a with mem0 := (a.wr addr b).mem0 } := by
  have hfold (rs : List (Nat × Nat)) : ∀ c : Alesh,
      rs.foldl (fun c r => { c with mem0 := c.mem0.write (a.place r.1) ((b.drop (r.1 - addr)).take r.2) }) c =
        { c with mem0 := (rs.foldl (fun c r =>
          { c with mem0 := c.mem0.write (a.place r.1) ((b.drop (r.1 - addr)).take r.2) }) c).mem0 } := by
    induction rs with
    | nil => exact fun _ => rfl
    | cons r rs ih => exact fun c => (ih _).trans rfl
  unfold Alesh.wr
  split
  · rfl
  · split
    · rfl
    · exact hfold _ a

/-- Where no page is retired, a write reaches no byte beside its run. -/
theorem Alesh.wr_mem0_get_of_outside {a : Alesh} (hr : a.errs.retired = []) {addr : Nat} {b : Bytes} {x : Nat}
    (hx : ¬(addr ≤ x ∧ x < addr + b.length)) : (a.wr addr b).mem0.get x = a.mem0.get x := by
  unfold Alesh.wr
  split
  · rfl
  · simp only [hr, List.isEmpty_nil, if_true, Memory.get_write, if_neg hx]

/-- Where no page is retired, a core that is not occulted writes the run where it is asked to. -/
theorem Alesh.wr_of_not_occulted {a : Alesh} (hr : a.errs.retired = []) (hc : a.ctl.core ≠ .occulted) (addr : Nat) (b : Bytes) :
    a.wr addr b = { a with mem0 := a.mem0.write addr b } := by
  have hf : a.fenced addr b.length = false := by simp [Alesh.fenced, hc]
  simp [Alesh.wr, hf, hr]

/-- A memory after writes of runs one after another. -/
def Memory.writes (m : Memory) (ws : List (Nat × Bytes)) : Memory := ws.foldl (fun m w => m.write w.1 w.2) m

theorem Memory.writes_cons (m : Memory) (w : Nat × Bytes) (ws : List (Nat × Bytes)) :
    m.writes (w :: ws) = (m.write w.1 w.2).writes ws := rfl

theorem Alesh.foldl_wr {a : Alesh} (hr : a.errs.retired = []) (hc : a.ctl.core ≠ .occulted) (ws : List (Nat × Bytes)) :
    ws.foldl (fun (d : Alesh) (w : Nat × Bytes) => d.wr w.1 w.2) a = { a with mem0 := a.mem0.writes ws } := by
  induction ws generalizing a with
  | nil => rfl
  | cons w ws ih =>
    rw [List.foldl_cons, Alesh.wr_of_not_occulted hr hc]
    exact ih (a := { a with mem0 := a.mem0.write w.1 w.2 }) hr hc

theorem Memory.writes_get_of_outside {ws : List (Nat × Bytes)} {x : Nat} (m : Memory)
    (h : ∀ w ∈ ws, ¬(w.1 ≤ x ∧ x < w.1 + w.2.length)) : (m.writes ws).get x = m.get x := by
  induction ws generalizing m with
  | nil => rfl
  | cons w ws ih =>
    rw [Memory.writes_cons, ih _ fun v hv => h v (List.mem_cons_of_mem _ hv), Memory.get_write, if_neg (h w List.mem_cons_self)]

/-- Two runs that do not meet have no byte in common. -/
theorem not_mem_both_of_runsMeet_eq_false {a n b m x : Nat} (h : runsMeet a n b m = false) (ha : a ≤ x ∧ x < a + n) :
    ¬(b ≤ x ∧ x < b + m) := by
  intro hb
  simp only [runsMeet, Bool.and_eq_false_iff, decide_eq_false_iff_not] at h
  omega

/-- Of runs that lie apart, each reads as written once all are. -/
theorem Memory.writes_read {ws : List (Nat × Bytes)} (m : Memory) (h : runsApart (ws.map fun w => (w.1, w.2.length)) = true) :
    ∀ w ∈ ws, (m.writes ws).read w.1 w.2.length = w.2 := by
  induction ws generalizing m with
  | nil => exact fun w hw => absurd hw List.not_mem_nil
  | cons v vs ih =>
    simp only [List.map_cons, runsApart, Bool.and_eq_true, List.all_map, List.all_eq_true, Function.comp_apply,
      Bool.not_eq_true'] at h
    obtain ⟨hv, hvs⟩ := h
    intro w hw
    rcases List.mem_cons.1 hw with rfl | hw
    · rw [Memory.writes_cons]
      refine Eq.trans ?_ (Memory.read_write_same m w.1 w.2)
      rw [Memory.read_eq, Memory.read_eq]
      refine List.map_congr_left fun i hi => Memory.writes_get_of_outside _ fun u hu => ?_
      exact not_mem_both_of_runsMeet_eq_false (hv u hu) ⟨Nat.le_add_right .., by simpa using List.mem_range.1 hi⟩
    · exact ih _ hvs w hw

/-! ### Packets -/

theorem Ports.enqueue_queue (q : Ports) (due : Nat) (p : Pkt) : (q.enqueue due p).queue = q.queue ++ [p] := rfl

/-- A packet given to the ports is sent, and what was sent before is so still. -/
theorem Sends.emit {a : Alesh} {q : Pkt} (h : Sends a q) (p : Pkt) : Sends (a.emit p) q := by
  unfold Alesh.emit
  split
  · exact h
  · split
    · exact h.imp_right (List.mem_append_left _)
    · exact h.imp_left (List.mem_append_left _)

theorem Sends.send {a : Alesh} {q : Pkt} (h : Sends a q) (typ dst args : Nat) (b : Bytes) : Sends (a.send typ dst args b) q :=
  Sends.emit h _

theorem Sends.of_ports {a b : Alesh} {q : Pkt} (h : Sends a q) (hp : b.ports = a.ports) : Sends b q := by
  unfold Sends at *; rw [hp]; exact h

theorem maySend_of_inJob {a : Alesh} (h : a.inJob = true) : a.maySend = true ∧ a.joining = false := by
  rcases (by simpa [Alesh.inJob] using h : a.ctl.core = .running ∨ a.ctl.core = .degraded) with hc | hc <;>
    simp [Alesh.maySend, Alesh.joining, hc]

/-- In a job every packet goes out. -/
theorem sends_emit_self {a : Alesh} (h : a.inJob = true) (p : Pkt) : Sends (a.emit p) p := by
  obtain ⟨hm, hj⟩ := maySend_of_inJob h
  simp only [Alesh.emit, hm, hj, Bool.not_true, Bool.false_and, Bool.or_false, Bool.false_eq_true, if_false]
  split
  · exact .inr (by simp)
  · exact .inl (by simp [Ports.enqueue_queue])

/-! ### Arrival -/

/-- From one core to another by what an arrival may do: packets, the combiner's arrivals and releases, orders and their requests. -/
structure Arriving (a b : Alesh) : Prop where
  frame : b = { a with ports := b.ports, merid := b.merid, health := b.health, comm := b.comm, mgmt := b.mgmt }
  sends : ∀ p, Sends a p → Sends b p

namespace Arriving

theorem refl (a : Alesh) : Arriving a a := ⟨rfl, fun _ h => h⟩

theorem trans {a b c : Alesh} (hab : Arriving a b) (hbc : Arriving b c) : Arriving a c := by
  refine ⟨hbc.frame.trans ?_, fun p h => hbc.sends p (hab.sends p h)⟩
  rw [hab.frame]

theorem foldl {ι : Type} {f : Alesh → ι → Alesh} (hf : ∀ a x, Arriving a (f a x)) (l : List ι) (a : Alesh) :
    Arriving a (l.foldl f a) := by
  induction l generalizing a with
  | nil => exact refl a
  | cons x l ih => exact (hf a x).trans (ih (f a x))

/-- The parts of the frame beside the ports. -/
theorem parts (a : Alesh) (merid : Merid) (health : Health) (comm : Comm) (mgmt : Mgmt) :
    Arriving a { a with merid := merid, health := health, comm := comm, mgmt := mgmt } := ⟨rfl, fun _ h => h⟩

theorem emit (a : Alesh) (p : Pkt) : Arriving a (a.emit p) := ⟨by rw [Alesh.emit_frame], fun _ h => h.emit p⟩

theorem send (a : Alesh) (typ dst args : Nat) (b : Bytes) : Arriving a (a.send typ dst args b) := emit a _

theorem sendHello (a : Alesh) (sub step dst : Nat) (b : Bytes) : Arriving a (a.sendHello sub step dst b) := send a ..

theorem askInBand (a : Alesh) (dst key : Nat) (data : Bytes) : Arriving a (a.askInBand dst key data) := by
  unfold Alesh.askInBand
  exact trans (parts ..) (send ..)

theorem writeOrder (a : Alesh) (dsts : List Nat) : Arriving a (a.writeOrder dsts) := by
  unfold Alesh.writeOrder
  split
  · exact foldl (fun b d => askInBand b ..) dsts a
  · exact refl a

theorem startOrders (a : Alesh) : Arriving a a.startOrders := by
  unfold Alesh.startOrders
  split
  · split
    · exact trans (parts ..) (writeOrder ..)
    · exact refl a
  · exact refl a

theorem tryRelease (a : Alesh) : Arriving a a.tryRelease := by
  unfold Alesh.tryRelease
  extract_lets e before r src b
  have hb : Arriving a b := parts ..
  split
  · exact (hb.trans (foldl (fun c n => sendHello c ..) _ b)).trans (startOrders _)
  · exact refl a

theorem noteArrive (a : Alesh) (n e : Nat) : Arriving a (a.noteArrive n e) := by
  unfold Alesh.noteArrive
  extract_lets start src b
  have hb : Arriving a b := by
    unfold b
    split
    · exact parts ..
    · exact refl a
  split
  · exact hb
  · exact hb.trans (trans (parts ..) (tryRelease _))

theorem noteOwn (a : Alesh) (e : Nat) : Arriving a (a.noteOwn e) := by
  unfold Alesh.noteOwn
  split
  · exact noteArrive a ..
  · exact refl a

/-- An arrival below the last step epoch (R51) makes no unit FAULTED. -/
theorem tryArrive {a : Alesh} (h : a.inProgress < 2 ^ 48) : Arriving a a.tryArrive := by
  have hno : decide (2 ^ 48 ≤ a.inProgress) = false := decide_eq_false (Nat.not_le.2 h)
  unfold Alesh.tryArrive
  extract_lets e key first src src' b
  have hb : Arriving a b := parts ..
  rw [hno, Bool.and_false, if_neg Bool.false_ne_true]
  split
  · exact (hb.trans (sendHello b ..)).trans (noteOwn ..)
  · exact refl a

end Arriving

end Sys2Proof.Machine
end

section
/-! SUPPORT. What publishing a block does: its bytes, its counts, and the layer's readiness (R96, R99 to R101). -/
namespace Sys2Proof.Machine

theorem not_occulted_of_inJob {a : Alesh} (h : a.inJob = true) : a.ctl.core ≠ .occulted :=
  joinedOrJob_not_occulted (by simp [Alesh.joinedOrJob, h])

theorem Alesh.inJob_at {a : Alesh} (now : Nat) : (a.at now).inJob = a.inJob := by rw [Alesh.inJob, Alesh.at_ctl, Alesh.inJob]

theorem Alesh.unit_at {a : Alesh} (now u : Nat) : (a.at now).unit u = a.unit u := by rw [Alesh.unit, Alesh.at_ctl, Alesh.unit]

/-- What the block comes to at an epoch: the runs to write and its counts. -/
def Alesh.outOf (a : Alesh) (p : PubEntry) (layer blk : Nat) : BlockOut :=
  a.blockOut p (a.blockRecs p (a.layerRecs layer) blk) blk a.inProgress

/-- The records of a block of a layer. -/
def Alesh.recsOf (a : Alesh) (p : PubEntry) (layer blk : Nat) : List (Nat × Nat) :=
  (a.blockRecs p (a.layerRecs layer) blk).filterMap id

/-- The core once a block that stands has been passed over. -/
def Alesh.passedBlock (a : Alesh) (layer : Nat) (o : BlockOut) : Alesh := (a.count O.PUB_SKIPPED).countBlock layer o

/-- The core once a block's bytes have been written and its values counted. -/
def Alesh.wroteBlock (a : Alesh) (layer : Nat) (o : BlockOut) : Alesh :=
  (((o.writes.foldl (fun (d : Alesh) (w : Nat × Bytes) => d.wr w.1 w.2) a).countN O.PUB_SAT_COUNT o.sat).countN
    O.PUB_NONFINITE_COUNT (if o.bad = 0 then 0 else 1)).countBlock layer o

/-- The block counts as written for the epoch, and stands. -/
def Alesh.noteBlock (c : Alesh) (layer blk e : Nat) : Alesh :=
  { c with pub := { c.pub with
      written := (layer, blk, e) :: c.pub.written
      standing := if c.pub.standing.contains (layer, blk) then c.pub.standing else (layer, blk) :: c.pub.standing } }

/-- With every guard met a block is written, or passed over where it stands, and then the layer may be ready. -/
theorem Alesh.publishBlock_of_guards {s a : Alesh} {now layer blk : Nat} {p : PubEntry} (ha : s.at now = a)
    (hj : a.inJob = true) (hu : a.unit uPublish = .running) (hp : (a.pubTable.find? fun p => p.layer == layer) = some p)
    (hblk : blk < p.blockCount) (htok : (layer, a.inProgress) ∈ a.pub.tokens)
    (hnew : (layer, blk, a.inProgress) ∉ a.pub.written) (hcep : a.cepWaits uPublish = false)
    (hfence : ∀ x ∈ a.recsOf p layer blk, ∃ q, a.prog? x.1 = some q ∧ a.inProgress ≤ q.fence)
    (hpages : ∀ q ∈ a.blockPages (a.recsOf p layer blk), a.pageReady q.1 q.2 = true)
    (hexp : a.blockExps (a.recsOf p layer blk) = []) :
    s.publishBlock now layer blk =
      ((if a.blockStands layer blk a.inProgress (a.recsOf p layer blk) then a.passedBlock layer (a.outOf p layer blk)
        else a.wroteBlock layer (a.outOf p layer blk)).noteBlock layer blk a.inProgress).publishDone p a.inProgress := by
  have hf : ((a.recsOf p layer blk).all fun x => ((a.prog? x.1).map fun q => decide (a.inProgress ≤ q.fence)).getD false) = true := by
    refine List.all_eq_true.2 fun x hx => ?_
    obtain ⟨q, hq, he⟩ := hfence x hx
    simp [hq, he]
  have hw : a.pub.written.contains (layer, blk, a.inProgress) = false := by simpa using hnew
  unfold Alesh.recsOf at *
  unfold Alesh.publishBlock
  simp only [ha, hp, hj, hu, hcep, hblk, hw, hf, hexp, List.contains_iff_mem.2 htok, Alesh.withPages_of_ready hpages, beq_self_eq_true,
    Bool.not_false, decide_true, Bool.and_true, if_true, List.isEmpty_nil, Bool.not_true, Bool.false_eq_true, if_false]
  split <;> rfl

theorem Alesh.publishDone_of_some_left {d : Alesh} {p : PubEntry} {e : Nat}
    (h : ∃ i, i < p.blockCount ∧ (p.layer, i, e) ∉ d.pub.written) : d.publishDone p e = d := by
  obtain ⟨i, hi, hn⟩ := h
  refine if_neg fun hall => hn ?_
  simpa using List.all_eq_true.1 hall i (List.mem_range.2 hi)

theorem Alesh.publishDone_of_all {d : Alesh} {p : PubEntry} {e : Nat}
    (h : ∀ i, i < p.blockCount → (p.layer, i, e) ∈ d.pub.written) : d.publishDone p e =
      ({ d with pub := { d.pub with ready := (p.layer, e) :: d.pub.ready } }.post uPublish
        (tokPublishReady (e % 16) p.layer)).tryArrive :=
  if_pos (List.all_eq_true.2 fun i hi => by simpa using h i (List.mem_range.1 hi))

/-- What `publishDone` leaves: the blocks written and standing stay; a layer with none left is ready and its token posted, and one with
a block left is as it was. -/
structure Readied (d b : Alesh) (p : PubEntry) (e : Nat) : Prop where
  frame : b = { d with pub := b.pub, cep := b.cep, ports := b.ports, merid := b.merid, health := b.health, comm := b.comm
                       mgmt := b.mgmt }
  written : b.pub.written = d.pub.written
  standing : b.pub.standing = d.pub.standing
  whole : (∀ i, i < p.blockCount → (p.layer, i, e) ∈ d.pub.written) →
    (p.layer, e) ∈ b.pub.ready ∧ b.cep = (d.post uPublish (tokPublishReady (e % 16) p.layer)).cep
  left : (∃ i, i < p.blockCount ∧ (p.layer, i, e) ∉ d.pub.written) → b = d

/-- The queue of tokens after a post depends on the queue before it and on whether the core is occulted alone. -/
theorem Alesh.post_cep_congr {a b : Alesh} (hc : a.ctl = b.ctl) (hq : a.cep = b.cep) (u t : Nat) :
    (a.post u t).cep = (b.post u t).cep := by
  unfold Alesh.post
  rw [hc, hq]
  split
  · exact hq
  · split <;> rfl

theorem Alesh.publishDone_readied {d : Alesh} (hlast : d.inProgress < 2 ^ 48) (p : PubEntry) (e : Nat) :
    Readied d (d.publishDone p e) p e := by
  by_cases hall : ∀ i, i < p.blockCount → (p.layer, i, e) ∈ d.pub.written
  · rw [Alesh.publishDone_of_all hall]
    set c : Alesh := { d with pub := { d.pub with ready := (p.layer, e) :: d.pub.ready } }
    set t := tokPublishReady (e % 16) p.layer
    have hin : (c.post uPublish t).inProgress < 2 ^ 48 := by
      rw [Alesh.post_frame]; exact hlast
    have harr := (Arriving.tryArrive hin).frame
    have hpub : ((c.post uPublish t).tryArrive).pub = c.pub := by rw [harr]; exact Alesh.post_pub ..
    refine ⟨?_, by rw [hpub], by rw [hpub], fun _ => ⟨by rw [hpub]; exact List.mem_cons_self, ?_⟩,
      fun ⟨i, hi, hn⟩ => absurd (hall i hi) hn⟩
    · rw [harr, Alesh.post_frame]
    · have hcep : ((c.post uPublish t).tryArrive).cep = (c.post uPublish t).cep := by rw [harr]
      exact hcep.trans (Alesh.post_cep_congr (a := c) (b := d) rfl rfl ..)
  · have hleft : ∃ i, i < p.blockCount ∧ (p.layer, i, e) ∉ d.pub.written := by simpa using hall
    rw [Alesh.publishDone_of_some_left hleft]
    exact ⟨rfl, rfl, rfl, fun h => absurd h hall, fun _ => rfl⟩

/-! ### A block written or passed over -/

/-- Of the core only Tier 0, counters and the health unit's counts change as a block is written or passed over. -/
def BlockFrame (a c : Alesh) : Prop :=
  ∃ (m : Memory) (d : Dict) (h : Health), c = { a with mem0 := m, dict := d, health := h }

theorem Alesh.passedBlock_frame (a : Alesh) (layer : Nat) (o : BlockOut) : BlockFrame a (a.passedBlock layer o) := ⟨_, _, _, rfl⟩

section
variable {a : Alesh} (hr : a.errs.retired = []) (hc : a.ctl.core ≠ .occulted) (layer : Nat) (o : BlockOut)
include hr hc

theorem Alesh.wroteBlock_eq : a.wroteBlock layer o =
    (((({ a with mem0 := a.mem0.writes o.writes } : Alesh).countN O.PUB_SAT_COUNT o.sat).countN
      O.PUB_NONFINITE_COUNT (if o.bad = 0 then 0 else 1)).countBlock layer o) := by
  rw [Alesh.wroteBlock, Alesh.foldl_wr hr hc]

theorem Alesh.wroteBlock_frame : BlockFrame a (a.wroteBlock layer o) := by
  rw [Alesh.wroteBlock_eq hr hc]; exact ⟨_, _, _, rfl⟩

theorem Alesh.wroteBlock_mem0 : (a.wroteBlock layer o).mem0 = a.mem0.writes o.writes := by
  rw [Alesh.wroteBlock_eq hr hc]; rfl

theorem Alesh.wroteBlock_num (k : Nat) : (a.wroteBlock layer o).num k =
    if O.PUB_NONFINITE_COUNT = k then satAdd (widthOf O.PUB_NONFINITE_COUNT) (a.num O.PUB_NONFINITE_COUNT) (if o.bad = 0 then 0 else 1)
    else if O.PUB_SAT_COUNT = k then satAdd (widthOf O.PUB_SAT_COUNT) (a.num O.PUB_SAT_COUNT) o.sat else a.num k := by
  have hne : (O.PUB_SAT_COUNT = O.PUB_NONFINITE_COUNT) = False := by decide
  rw [Alesh.wroteBlock_eq hr hc]
  refine (Alesh.num_countN ..).trans ?_
  simp only [Alesh.num_countN, hne, if_false]
  rfl

end

/-- What the two outcomes of a block have in common: the block is noted, and the layer readied where none is left. -/
theorem Readied.of_noteBlock {a b c : Alesh} {p : PubEntry} {blk e : Nat} (hc : BlockFrame a c)
    (h : Readied (c.noteBlock p.layer blk e) b p e) :
    b.pub.written = (p.layer, blk, e) :: a.pub.written ∧ (p.layer, blk) ∈ b.pub.standing ∧
      ((∀ i, i < p.blockCount → (p.layer, i, e) ∈ b.pub.written) → (p.layer, e) ∈ b.pub.ready ∧
        b.cep = (a.post uPublish (tokPublishReady (e % 16) p.layer)).cep) ∧
      ((∃ i, i < p.blockCount ∧ (p.layer, i, e) ∉ b.pub.written) →
        b.pub.ready = a.pub.ready ∧ b.cep = a.cep ∧ b.ports = a.ports ∧ b.merid = a.merid) ∧
      b = { a with mem0 := b.mem0, dict := b.dict, pub := b.pub, cep := b.cep, health := b.health, merid := b.merid
                   comm := b.comm, mgmt := b.mgmt, ports := b.ports } := by
  obtain ⟨m, d, g, rfl⟩ := hc
  obtain ⟨hframe, hwritten, hstanding, hwhole, hleft⟩ := h
  refine ⟨hwritten, ?_, fun hall => ?_, fun hsome => ?_, ?_⟩
  · rw [hstanding]
    show (p.layer, blk) ∈ if a.pub.standing.contains (p.layer, blk) then a.pub.standing else (p.layer, blk) :: a.pub.standing
    split
    · next hin => exact List.contains_iff_mem.1 hin
    · exact List.mem_cons_self
  · rw [hwritten] at hall
    obtain ⟨hready, htoken⟩ := hwhole hall
    refine ⟨hready, htoken.trans ?_⟩
    apply Alesh.post_cep_congr <;> rfl
  · rw [hwritten] at hsome
    rw [hleft hsome]
    exact ⟨rfl, rfl, rfl, rfl⟩
  · rw [hframe]; rfl

theorem Readied.dict {d b : Alesh} {p : PubEntry} {e : Nat} (h : Readied d b p e) : b.dict = d.dict := by rw [h.frame]
theorem Readied.mem0 {d b : Alesh} {p : PubEntry} {e : Nat} (h : Readied d b p e) : b.mem0 = d.mem0 := by rw [h.frame]

/-- With STEP_EPOCH as it was, noting a block readies its layer in the same step epoch. -/
theorem Alesh.noteBlock_readied {a c : Alesh} (hj : a.inJob = true) (hlast : a.inProgress < 2 ^ 48) (hc : BlockFrame a c)
    (hstep : c.num O.STEP_EPOCH = a.num O.STEP_EPOCH) (p : PubEntry) (blk e : Nat) :
    Readied (c.noteBlock p.layer blk e) ((c.noteBlock p.layer blk e).publishDone p e) p e := by
  refine Alesh.publishDone_readied ?_ p e
  have hjob : (c.noteBlock p.layer blk e).inJob = true := by obtain ⟨m, d, g, rfl⟩ := hc; exact hj
  rw [Alesh.inProgress_of_inJob hj] at hlast
  rw [Alesh.inProgress_of_inJob hjob]
  exact hstep ▸ hlast

/-- Settles O35: with its guards met a block is written or passed over, then noted; the layer's last block readies the layer. -/
theorem publishWritesABlockOnce : Obligations.PublishWritesABlockOnce := by
  unfold Obligations.PublishWritesABlockOnce
  intro s now layer blk p hj hu a e hp hblk htok hnew hlayer hlast hcep ps recs o hfence hpages hexp hr
  subst hlayer
  have hj : a.inJob = true := (Alesh.inJob_at now).trans hj
  have hc : a.ctl.core ≠ .occulted := not_occulted_of_inJob hj
  refine gives_onCore (f := Alesh.publishBlock now p.layer blk) rfl ?_
  rw [Alesh.publishBlock_of_guards (a := a) rfl hj ((Alesh.unit_at now _).trans hu) hp hblk htok hnew hcep hfence hpages hexp]
  by_cases hstand : a.blockStands p.layer blk a.inProgress (a.recsOf p p.layer blk) = true
  · rw [if_pos hstand]
    have hframe := Alesh.passedBlock_frame a p.layer (a.outOf p p.layer blk)
    have hready := Alesh.noteBlock_readied hj hlast hframe ((Alesh.num_count ..).trans (if_neg (by decide))) p blk e
    refine ⟨fun _ => ⟨hready.mem0, ?_, ?_⟩, fun h => absurd (h.symm.trans hstand) Bool.false_ne_true, hready.of_noteBlock hframe⟩
    · exact (Alesh.num_of_dict hready.dict _).trans ((Alesh.num_count ..).trans (if_pos rfl))
    · exact (sameBut_setNum a O.PUB_SKIPPED _).of_dict hready.dict
  · rw [if_neg hstand]
    have hframe := Alesh.wroteBlock_frame hr hc p.layer (a.outOf p p.layer blk)
    have hnum := Alesh.wroteBlock_num hr hc p.layer (a.outOf p p.layer blk)
    have hready := Alesh.noteBlock_readied hj hlast hframe ((hnum _).trans (by rw [if_neg (by decide), if_neg (by decide)])) p blk e
    have hmem := hready.mem0.trans (Alesh.wroteBlock_mem0 hr hc p.layer (a.outOf p p.layer blk))
    have hb (k : Nat) := (Alesh.num_of_dict hready.dict k).trans (hnum k)
    refine ⟨fun h => absurd h hstand, fun _ => ⟨fun hapart w hw => ?_, fun x hx => ?_, ?_, ?_, fun k hk => ?_, fun k _ => ?_⟩,
      hready.of_noteBlock hframe⟩
    · exact (congrArg (Memory.read · _ _) hmem).trans (Memory.writes_read _ hapart w hw)
    · exact (congrArg (Memory.get · _) hmem).trans (Memory.writes_get_of_outside _ hx)
    · exact (hb _).trans ((if_neg (by decide)).trans (if_pos rfl))
    · exact (hb _).trans (if_pos rfl)
    · simp only [List.mem_cons, List.not_mem_nil, or_false, not_or] at hk
      exact (hb k).trans ((if_neg (Ne.symm hk.2)).trans (if_neg (Ne.symm hk.1)))
    · refine (Alesh.dom_of_dict hready.dict k).trans ?_
      rw [Alesh.wroteBlock_eq hr hc]; rfl

end Sys2Proof.Machine
end

section
/-! SUPPORT. Packets that go out one after another, and an owner's resends after a late acknowledgement (R176, R181, R193). -/
namespace Sys2Proof.Machine

/-! ### Packets one after another -/

theorem Alesh.cresol_of_dict {a b : Alesh} (h : b.dict = a.dict) (typ dst args : Nat) (x : Bytes) :
    b.cresol typ dst args x = a.cresol typ dst args x := by
  simp [Alesh.cresol, Alesh.node, Alesh.num_of_dict h]

/-- Packets given to the ports one after another. -/
def Alesh.emitEach (a : Alesh) (l : List Pkt) : Alesh := l.foldl Alesh.emit a

theorem Alesh.emitEach_frame (a : Alesh) (l : List Pkt) : ∃ ps : Ports, a.emitEach l = { a with ports := ps } := by
  induction l generalizing a with
  | nil => exact ⟨a.ports, rfl⟩
  | cons q l ih =>
    obtain ⟨ps, h⟩ := ih (a.emit q)
    refine ⟨ps, h.trans ?_⟩
    rw [Alesh.emit_frame]

theorem Sends.emitEach {p : Pkt} (l : List Pkt) {a : Alesh} (h : Sends a p) : Sends (a.emitEach l) p := by
  induction l generalizing a with
  | nil => exact h
  | cons q l ih => exact ih (h.emit q)

/-- In a job every packet of a list goes out. -/
theorem sends_emitEach {a : Alesh} (hj : a.inJob = true) {l : List Pkt} : ∀ q ∈ l, Sends (a.emitEach l) q := by
  induction l generalizing a with
  | nil => exact fun q hq => absurd hq List.not_mem_nil
  | cons r l ih =>
    intro q hq
    rcases List.mem_cons.1 hq with rfl | hq
    · exact Sends.emitEach l (sends_emit_self hj _)
    · exact ih (by rw [Alesh.inJob, Alesh.emit_ctl]; exact hj) q hq

/-- Sending changes none of the fields that this core's packets carry. -/
theorem Alesh.foldl_send {ι : Type} (typ : Nat) (dst args : ι → Nat) (b : ι → Bytes) (l : List ι) (a : Alesh) :
    l.foldl (fun (c : Alesh) x => c.send typ (dst x) (args x) (b x)) a =
      a.emitEach (l.map fun x => a.cresol typ (dst x) (args x) (b x)) := by
  induction l generalizing a with
  | nil => rfl
  | cons x l ih =>
    have hsame (y : ι) := Alesh.cresol_of_dict (Alesh.send_dict a typ (dst x) (args x) (b x)) typ (dst y) (args y) (b y)
    rw [List.foldl_cons, ih, List.map_cons]
    simp only [hsame]
    rfl

/-! ### A transaction's resend (R181, R193) -/

/-- The packets that a resend of a transaction repeats. -/
def Alesh.repeats (a : Alesh) (t : OwnTx) : List Pkt :=
  match t.state with
  | .sending | .awaitHeld => t.pages.map fun p => a.cresol tDelta t.holder (t.deltaArgs p.1) p.2
  | .awaitFolded => [a.cresol tCommit t.holder (t.commitArgs 0) []]
  | _ => []

theorem Alesh.repeats_of_awaitFolded {a : Alesh} {t : OwnTx} (h : t.state = .awaitFolded) :
    a.repeats t = [a.cresol tCommit t.holder (t.commitArgs 0) []] := by rw [Alesh.repeats, h]

/-- The entry of a transaction in the list: those of one holder and SEQ differ by slice, or by whose transaction they close. -/
def OwnTx.isEntry (t x : OwnTx) : Bool := x.holder == t.holder && x.seq == t.seq && x.gsid == t.gsid && x.real == t.real

/-- An acknowledgement is awaited. -/
def OwnState.awaits (s : OwnState) : Bool := s == .sending || s == .awaitHeld || s == .awaitFolded

theorem Alesh.repeats_of_deltas {a : Alesh} {t : OwnTx} (hw : t.state.awaits = true) (h : t.state ≠ .awaitFolded) :
    a.repeats t = t.pages.map fun p => a.cresol tDelta t.holder (t.deltaArgs p.1) p.2 := by
  unfold Alesh.repeats
  cases hs : t.state with
  | sending => rfl
  | awaitHeld => rfl
  | awaitFolded => exact absurd hs h
  | held => exact absurd hw (by rw [hs]; decide)
  | done => exact absurd hw (by rw [hs]; decide)

theorem Alesh.resendTx_eq {a : Alesh} {t : OwnTx} (h : t.state.awaits = true) : a.resendTx t =
    ((a.emitEach (a.repeats t)).wrapN O.RESEND_COUNT (a.repeats t).length).modOwn t.isEntry fun x => { x with due := a.ackDue } := by
  have hdeltas := Alesh.foldl_send tDelta (fun _ => t.holder) (fun p => t.deltaArgs p.1) (fun p => p.2) t.pages a
  unfold Alesh.resendTx Alesh.repeats
  cases hs : t.state with
  | sending => rw [hdeltas, List.length_map]; rfl
  | awaitHeld => rw [hdeltas, List.length_map]; rfl
  | awaitFolded => rfl
  | held => exact absurd h (by rw [hs]; decide)
  | done => exact absurd h (by rw [hs]; decide)

/-- The transaction counts as stalled at this timeout (R193). -/
def Alesh.stalls (a : Alesh) (t : OwnTx) : Bool := decide (a.num O.RETRY_LIMIT ≤ t.tries + 1) && !t.stalled

/-- A late acknowledgement: what awaits it is sent again, and its entry says so. -/
def Alesh.retried (a : Alesh) (t : OwnTx) : Alesh :=
  (a.resendTx t).modOwn t.isEntry fun x => { x with tries := t.tries + 1, stalled := x.stalled || a.stalls t }

/-- A stall is counted, flagged, and a link event (R193). -/
def Alesh.stalled (c : Alesh) : Alesh := ((c.count O.COMMIT_STALL_COUNT).healthFlag hCommitStall).linkEvent

theorem Alesh.lateAck_eq (a : Alesh) (t : OwnTx) :
    a.lateAck t = if a.stalls t = true then (a.retried t).stalled else a.retried t := rfl

/-- What one retry leaves: the packets repeated, RESEND_COUNT, and the transaction's entry. -/
structure Retried (a b : Alesh) (t : OwnTx) : Prop where
  frame : ∃ (own : List OwnTx) (ps : Ports) (d : Dict),
    b = { a with coding := { a.coding with own := own }, ports := ps, dict := d }
  num : ∀ k, b.num k = if O.RESEND_COUNT = k then wrapAdd (widthOf O.RESEND_COUNT) (a.num O.RESEND_COUNT) (a.repeats t).length else a.num k
  dom : ∀ k, b.dom k = a.dom k
  sends : ∀ q ∈ a.repeats t, Sends b q
  entry : t ∈ a.coding.own → { t with due := a.ackDue, tries := t.tries + 1, stalled := t.stalled || a.stalls t } ∈ b.coding.own

theorem mem_modWhere {α : Type} {p : α → Bool} {f : α → α} {l : List α} {x : α} (hx : x ∈ l) (hp : p x = true) : f x ∈ modWhere p f l :=
  List.mem_map.2 ⟨x, hx, by simp [hp]⟩

theorem OwnTx.isEntry_self (t : OwnTx) : t.isEntry t = true := by simp [OwnTx.isEntry]

theorem Alesh.retried_retried {a : Alesh} {t : OwnTx} (hj : a.inJob = true) (h : t.state.awaits = true) : Retried a (a.retried t) t := by
  obtain ⟨ps, hframe⟩ := Alesh.emitEach_frame a (a.repeats t)
  have hsends := sends_emitEach hj (l := a.repeats t)
  unfold Alesh.retried
  rw [Alesh.resendTx_eq h]
  rw [hframe] at hsends ⊢
  refine ⟨⟨_, _, _, rfl⟩, fun k => ?_, fun _ => rfl, hsends, fun ht => ?_⟩
  · exact Alesh.num_wrapN { a with ports := ps } O.RESEND_COUNT _ k
  · have hdue : { t with due := a.ackDue } ∈ modWhere t.isEntry (fun x => { x with due := a.ackDue }) a.coding.own :=
      mem_modWhere (f := fun x : OwnTx => { x with due := a.ackDue }) ht t.isEntry_self
    exact mem_modWhere (f := fun x : OwnTx => { x with tries := t.tries + 1, stalled := x.stalled || a.stalls t }) hdue t.isEntry_self

theorem Alesh.ackTimeout_of_one {s a : Alesh} {now holder seq : Nat} {t : OwnTx} (ha : s.at now = a)
    (h : (a.coding.own.filter fun y => y.holder == holder && y.seq == seq &&
      (y.state == .sending || y.state == .awaitHeld || y.state == .awaitFolded)) = [t]) (hdue : a.due t.due = true) :
    s.ackTimeout now holder seq = a.lateAck t := by
  unfold Alesh.ackTimeout
  simp only [ha]
  have hone : [t].filter (fun y => a.due y.due) = [t] := List.filter_cons_of_pos hdue
  rw [← List.filter_filter, List.filter_comm, h, hone]
  rfl

theorem Alesh.num_stalled (c : Alesh) (k : Nat) : c.stalled.num k =
    if O.HEALTH_FLAGS = k then (c.num O.HEALTH_FLAGS ||| 2 ^ hCommitStall) ||| 2 ^ hLinkEvent
    else if O.COMMIT_STALL_COUNT = k then satAdd (widthOf O.COMMIT_STALL_COUNT) (c.num O.COMMIT_STALL_COUNT) 1 else c.num k := by
  have hne : (O.COMMIT_STALL_COUNT = O.HEALTH_FLAGS) = False := by decide
  show (((c.count O.COMMIT_STALL_COUNT).healthFlag hCommitStall).healthFlag hLinkEvent).num k = _
  simp only [Alesh.healthFlag, Alesh.num_flag, Alesh.num_count, hne, if_true, if_false]
  split <;> rfl

theorem Alesh.stalled_healthFlags_testBit (c : Alesh) : (c.stalled.num O.HEALTH_FLAGS).testBit 12 = true := by
  rw [Alesh.num_stalled, if_pos rfl]
  simp only [Nat.testBit_or, hCommitStall, Nat.testBit_two_pow_self, Bool.or_true, Bool.true_or]

/-- The third clause of O31 (R193). -/
theorem ackTimeout_gives {s : State} {now holder seq : Nat} {a : Alesh} {t : OwnTx} (ha : s.alesh.at now = a) (hj : a.inJob = true)
    (hone : (a.coding.own.filter fun y => y.holder == holder && y.seq == seq &&
      (y.state == .sending || y.state == .awaitHeld || y.state == .awaitFolded)) = [t]) (hdue : a.due t.due = true) :
    Gives (.ownerAckTimeout now holder seq) s fun b =>
      let stall : Prop := a.num O.RETRY_LIMIT ≤ t.tries + 1 ∧ t.stalled = false
      (t.state = .awaitFolded → Sends b (a.cresol tCommit holder (t.commitArgs 0) []) ∧
        b.num O.RESEND_COUNT = wrapAdd (widthOf O.RESEND_COUNT) (a.num O.RESEND_COUNT) 1) ∧
      (t.state ≠ .awaitFolded → (∀ p ∈ t.pages, Sends b (a.cresol tDelta holder (t.deltaArgs p.1) p.2)) ∧
        b.num O.RESEND_COUNT = wrapAdd (widthOf O.RESEND_COUNT) (a.num O.RESEND_COUNT) t.pages.length) ∧
      (∃ y ∈ b.coding.own, y.holder = holder ∧ y.seq = seq ∧ y.state = t.state ∧ y.tries = t.tries + 1 ∧ y.due = a.ackDue) ∧
      (stall → b.num O.COMMIT_STALL_COUNT = satAdd (widthOf O.COMMIT_STALL_COUNT) (a.num O.COMMIT_STALL_COUNT) 1 ∧
        (b.num O.HEALTH_FLAGS).testBit 12 = true ∧ b.health.now.lk = a.health.now.lk + 1) ∧
      (¬stall → b.num O.COMMIT_STALL_COUNT = a.num O.COMMIT_STALL_COUNT ∧ b.health = a.health) ∧
      SameBut [O.RESEND_COUNT, O.COMMIT_STALL_COUNT, O.HEALTH_FLAGS] [] a b ∧
      b = { a with coding := { a.coding with own := b.coding.own }, ports := b.ports, dict := b.dict, evts := b.evts
                   health := b.health } := by
  refine gives_onCore (f := Alesh.ackTimeout now holder seq) rfl ?_
  rw [Alesh.ackTimeout_of_one ha hone hdue, Alesh.lateAck_eq]
  obtain ⟨hmem, hkey⟩ := List.mem_filter.1 (hone ▸ List.mem_singleton_self t)
  simp only [Bool.and_eq_true, beq_iff_eq] at hkey
  obtain ⟨⟨rfl, rfl⟩, hawaits⟩ := hkey
  have hstall : a.stalls t = true ↔ a.num O.RETRY_LIMIT ≤ t.tries + 1 ∧ t.stalled = false := by simp [Alesh.stalls]
  obtain ⟨⟨own, ps, d, hframe⟩, hnum, hdom, hsends, hentry⟩ := Alesh.retried_retried (t := t) hj hawaits
  generalize a.retried t = c at *
  have hcount : O.RESEND_COUNT ≠ O.COMMIT_STALL_COUNT ∧ O.RESEND_COUNT ≠ O.HEALTH_FLAGS ∧ O.COMMIT_STALL_COUNT ≠ O.HEALTH_FLAGS := by
    decide
  obtain ⟨hrs, hrh, hsh⟩ := hcount
  have hresent := (hnum O.RESEND_COUNT).trans (if_pos rfl)
  have hstalls := (hnum O.COMMIT_STALL_COUNT).trans (if_neg hrs)
  set b := if a.stalls t = true then c.stalled else c with hb
  have hports : b.ports = c.ports := by rw [hb]; split <;> rfl
  have hcoding : b.coding = c.coding := by rw [hb]; split <;> rfl
  have hown := hentry hmem
  rw [← hcoding] at hown
  have hbnum : b.num O.RESEND_COUNT = wrapAdd (widthOf O.RESEND_COUNT) (a.num O.RESEND_COUNT) (a.repeats t).length := by
    rw [hb]
    split
    · rw [Alesh.num_stalled, if_neg hrh.symm, if_neg hrs.symm]; exact hresent
    · exact hresent
  refine ⟨fun hf => ?_, fun hf => ?_, ⟨_, hown, rfl, rfl, rfl, rfl, rfl⟩, fun hst => ?_, fun hst => ?_, ⟨fun k hk => ?_, fun k _ => ?_⟩, ?_⟩
  · rw [Alesh.repeats_of_awaitFolded hf] at hsends hbnum
    exact ⟨(hsends _ (List.mem_singleton_self _)).of_ports hports, hbnum⟩
  · rw [Alesh.repeats_of_deltas hawaits hf] at hsends hbnum
    exact ⟨fun p hp => (hsends _ (List.mem_map_of_mem hp)).of_ports hports, by rw [hbnum, List.length_map]⟩
  · rw [hb, if_pos (hstall.2 hst)]
    refine ⟨?_, c.stalled_healthFlags_testBit, ?_⟩
    · rw [Alesh.num_stalled, if_neg hsh.symm, if_pos rfl, hstalls]
    · rw [hframe]; rfl
  · rw [hb, if_neg (mt hstall.1 hst)]
    exact ⟨hstalls, by rw [hframe]⟩
  · simp only [List.mem_cons, List.not_mem_nil, or_false, not_or] at hk
    obtain ⟨hk1, hk2, hk3⟩ := hk
    have hc := (hnum k).trans (if_neg (Ne.symm hk1))
    rw [hb]
    split
    · rw [Alesh.num_stalled, if_neg (Ne.symm hk3), if_neg (Ne.symm hk2)]; exact hc
    · exact hc
  · rw [hb]; split <;> exact hdom k
  · rw [hb, hframe]
    split <;> rfl

end Sys2Proof.Machine
end

section
/-! SUPPORT. The receipt of a packet that passes R178 to R181, and an acknowledgement at the owner (R192, R194). -/
namespace Sys2Proof.Machine

/-! ### Receipt -/

/-- Hearing a source touches the ports, the membership's timers and LOSS_SUSPECT alone (R220, R228). -/
theorem Alesh.hear_frame (a : Alesh) (src : Nat) : a.hear src =
    { a with ports := (a.hear src).ports, dict := (a.hear src).dict
             memb := { a.memb with suspects := (a.hear src).memb.suspects, heard := (a.hear src).memb.heard } } := by
  unfold Alesh.hear Alesh.beaconFrom
  dsimp only
  split <;> split <;> rfl

theorem Alesh.num_hear (a : Alesh) (src k : Nat) : (a.hear src).num k = a.num k := by
  unfold Alesh.hear Alesh.beaconFrom
  dsimp only
  split <;> split <;> rfl

theorem Alesh.num_heard (a : Alesh) (now src k : Nat) : (a.heard now src).num k = a.num k :=
  (Alesh.num_hear ..).trans (Alesh.num_at ..)

theorem Alesh.heard_ctl (a : Alesh) (now src : Nat) : (a.heard now src).ctl = a.ctl := by
  rw [Alesh.heard, Alesh.hear_frame]; exact Alesh.at_ctl ..

theorem Alesh.heard_members (a : Alesh) (now src : Nat) : (a.heard now src).memb.members = a.memb.members := by
  rw [Alesh.heard, Alesh.hear_frame]
  show (a.at now).memb.members = _
  rw [Alesh.at_memb]

theorem newer16_self (a : Nat) : newer16 a a = false := by
  have h : (a + 65536 - a % 65536) % 65536 = 0 := by omega
  simp [newer16, h]

/-- The low four bits restore the membership epoch itself (R179). -/
theorem Alesh.membOf_self (a : Alesh) : a.membOf (a.num O.MEMBERSHIP_EPOCH % 16) = a.num O.MEMBERSHIP_EPOCH :=
  restore_eq_of_mem_window (w := 4) (by omega) (by omega) (by omega)

/-- A packet that passes every test of receipt has its effect on the core that has heard its source. -/
theorem Alesh.receive_of_arrives {a : Alesh} {typ now : Nat} {m : Pkt} (h : Arrives a typ m) (ht : needsEpoch typ = true)
    {ok : Bool} (hok : ok = true) (f : Alesh → Alesh) : a.receive now typ m ok false f = f (a.heard now m.src) := by
  obtain ⟨hlisten, hversion, hdst, hvc, hmember, -, hmemb, hroute⟩ := h
  have hlisten' : (a.at now).listens = true := by
    simpa [Alesh.listens, Alesh.idleToJob, Alesh.joinedOrJob, Alesh.inJob] using hlisten
  have hlearn : (a.at now).learnRoute m = a.at now := by
    simp [Alesh.learnRoute, hroute, newer16_self]
  have hin : (a.heard now m.src).isMember m.src = true := by
    rw [Alesh.isMember, Alesh.heard_members]; exact hmember
  have hme : (a.heard now m.src).membOf m.memb = (a.heard now m.src).num O.MEMBERSHIP_EPOCH := by
    rw [hmemb, ← Alesh.num_heard a now m.src]; exact Alesh.membOf_self _
  unfold Alesh.receive Alesh.receiveFrom
  simp only [hlisten', hversion, hdst, hvc, hok, hlearn, ht, Bool.not_true, Bool.not_false, Bool.false_eq_true, if_false, bne_self_eq_false,
    Alesh.node, Alesh.num_at, Bool.or_false, Bool.and_true, if_true]
  rw [← Alesh.heard, hme, hin]
  simp

/-! ### An acknowledgement of one of the owner's transactions -/

/-- The transactions that an acknowledgement of a source and SEQ is about. -/
def OwnTx.isFrom (src seq : Nat) (y : OwnTx) : Bool := y.holder == src && y.seq == seq && y.real

/-- A sample of a holder's latency goes into the health unit's samples alone (R334). -/
theorem Alesh.sampleHold_frame (a : Alesh) (h lat : Nat) : a.sampleHold h lat =
    { a with health := { a.health with samples := (a.sampleHold h lat).health.samples } } := by
  unfold Alesh.sampleHold
  split
  · split <;> rfl
  · rfl

section
variable {a : Alesh} {src : Nat} {x : TxArgs} {t : OwnTx} (hfind : a.coding.own.find? (OwnTx.isFrom src x.seq) = some t)
  (hadopt : t.adopt = false)
include hfind hadopt

theorem Alesh.ackIn_of_folded (hst : x.mid / 16 = sFolded) (hwait : t.state = .awaitFolded) :
    a.ackIn src x = a.dropOwn (OwnTx.isFrom src x.seq) := by
  have hfind' : (a.coding.own.find? fun t => t.holder == src && t.seq == x.seq && t.real) = some t := hfind
  unfold Alesh.ackIn
  simp only [hfind', hst, hwait, hadopt]
  rfl

/-- The core once a holder has answered HELD. -/
def Alesh.ackedHeld (a : Alesh) (src : Nat) (x : TxArgs) (t : OwnTx) : Alesh :=
  (a.modOwn (OwnTx.isFrom src x.seq) fun y => { y with state := .held, tries := 0 }).sampleHold src (a.now - t.lastAt)

omit hfind hadopt in
theorem Alesh.ackedHeld_frame : ∃ l, a.ackedHeld src x t =
    { a with coding := { a.coding with own := modWhere (OwnTx.isFrom src x.seq) (fun y => { y with state := .held, tries := 0 }) a.coding.own }
             health := { a.health with samples := l } } := by
  rw [Alesh.ackedHeld, Alesh.sampleHold_frame]
  exact ⟨_, rfl⟩

theorem Alesh.ackIn_of_held (hst : x.mid / 16 = sHeld) (hwait : t.state = .sending ∨ t.state = .awaitHeld)
    (hopen : ∀ p, a.prog? t.gsid = some p → p.last < t.epoch) : a.ackIn src x = (a.ackedHeld src x t).evalFence t.gsid := by
  have hfind' : (a.coding.own.find? fun t => t.holder == src && t.seq == x.seq && t.real) = some t := hfind
  have hwait' : (t.state == .sending || t.state == .awaitHeld) = true := by simpa using hwait
  have hnew : ((a.prog? t.gsid).map fun p => decide (t.epoch ≤ p.last)).getD false = false := by
    cases hp : a.prog? t.gsid with
    | none => rfl
    | some p => simpa using hopen p hp
  unfold Alesh.ackIn
  simp only [hfind', hst, hwait', hadopt, hnew, beq_self_eq_true, Bool.and_self, Bool.or_false, if_true, Bool.false_eq_true, if_false]
  rfl

end

/-- An acknowledgement of an own transaction that arrives reaches `ackIn`. -/
theorem Alesh.holdAckRx_of_arrives {a : Alesh} {now : Nat} {m : Pkt} (h : Arrives a tHoldAck m) (hp : m.payload = [])
    (hcodes : a.codes = true) (hadopt : (TxArgs.ofNat m.args).adopt = false) (hst : (TxArgs.ofNat m.args).mid / 16 ≤ 2) :
    a.holdAckRx now m = (a.heard now m.src).ackIn m.src (TxArgs.ofNat m.args) := by
  have hok : (m.payload.isEmpty && decide ((TxArgs.ofNat m.args).mid / 16 ≤ 4) &&
      ((TxArgs.ofNat m.args).adopt || decide ((TxArgs.ofNat m.args).mid / 16 ≤ 2))) = true := by
    simp [hp, hst, show (TxArgs.ofNat m.args).mid / 16 ≤ 4 by omega]
  have hcodes' : (a.heard now m.src).codes = true := by
    simpa [Alesh.codes, Alesh.joinedOrJob, Alesh.inJob, Alesh.works, Alesh.unit, Alesh.heard_ctl] using hcodes
  unfold Alesh.holdAckRx
  rw [Alesh.receive_of_arrives h rfl hok]
  simp only [hcodes', hadopt, Bool.not_true, Bool.false_eq_true, if_false]

end Sys2Proof.Machine
end

section
/-! SUPPORT. What a commit of a slice changes: the slots, the slice's progress, the pages of the reduction pool, and the COMMITs (R131, R192,
R194). -/
namespace Sys2Proof.Machine

/-! ### The reduction pool -/

/-- A slice's progress without its reduced gradients. -/
def Prog.bare (p : Prog) : Prog := { p with grads := [], gradPages := [] }

/-- An address in the reduction pool (R131). -/
def Alesh.InPool (a : Alesh) (x : Nat) : Prop := a.num O.REDUCE_BASE ≤ x ∧ x < a.num O.REDUCE_BASE + a.num O.REDUCE_PAGES * 65536

theorem Alesh.InPool.of_dict {a b : Alesh} {x : Nat} (hd : b.dict = a.dict) (h : b.InPool x) : a.InPool x := by
  unfold Alesh.InPool at *
  rwa [Alesh.num_of_dict hd, Alesh.num_of_dict hd] at h

/-- What reduced gradients that come or go may change: gradients, what waits to be retained, and the pages of the pool. -/
structure Pooled (a b : Alesh) : Prop where
  frame : b = { a with progs := b.progs, take := b.take, mem0 := b.mem0 }
  bare : ∀ h, (b.prog? h).map Prog.bare = (a.prog? h).map Prog.bare
  mem0 : a.errs.retired = [] → ∀ x, ¬a.InPool x → b.mem0.get x = a.mem0.get x

namespace Pooled

theorem dict {a b : Alesh} (h : Pooled a b) : b.dict = a.dict := by rw [h.frame]

theorem errs {a b : Alesh} (h : Pooled a b) : b.errs = a.errs := by rw [h.frame]

theorem refl (a : Alesh) : Pooled a a := ⟨rfl, fun _ => rfl, fun _ _ _ => rfl⟩

theorem trans {a b c : Alesh} (hab : Pooled a b) (hbc : Pooled b c) : Pooled a c := by
  refine ⟨hbc.frame.trans ?_, fun h => (hbc.bare h).trans (hab.bare h), fun hr x hx => ?_⟩
  · rw [hab.frame]
  · exact (hbc.mem0 (hab.errs ▸ hr) x fun hin => hx (hin.of_dict hab.dict)).trans (hab.mem0 hr x hx)

theorem foldl {ι : Type} {f : Alesh → ι → Alesh} (hf : ∀ a x, Pooled a (f a x)) (l : List ι) (a : Alesh) : Pooled a (l.foldl f a) := by
  induction l generalizing a with
  | nil => exact refl a
  | cons x l ih => exact (hf a x).trans (ih (f a x))

theorem modProg (a : Alesh) (g : Nat) {f : Prog → Prog} (hg : ∀ p, (f p).gsid = p.gsid) (hf : ∀ p, (f p).bare = p.bare) :
    Pooled a (a.modProg g f) := by
  refine ⟨rfl, fun h => ?_, fun _ _ _ => rfl⟩
  rw [Alesh.prog?_modProg a g h hg]
  by_cases hh : h = g
  · simp [hh, hf, Function.comp_def]
  · simp [hh]

theorem take (a : Alesh) (t : Take) : Pooled a { a with take := t } := ⟨rfl, fun _ => rfl, fun _ _ _ => rfl⟩

/-- A page of the pool written. -/
theorem wrPage {a : Alesh} {i : Nat} (hi : i < a.num O.REDUCE_PAGES) {b : Bytes} (hb : b.length = pageBytes) :
    Pooled a (a.wr (a.poolPage i) b) := by
  refine ⟨by rw [Alesh.wr_frame], fun _ => by rw [Alesh.wr_frame]; rfl, fun hr x hx => ?_⟩
  refine Alesh.wr_mem0_get_of_outside hr fun ⟨hlo, hhi⟩ => hx ?_
  have hend : i * 65536 + 65536 ≤ a.num O.REDUCE_PAGES * 65536 := by omega
  simp only [Alesh.poolPage, pageBytes] at hlo hhi hb
  constructor <;> omega

theorem wrPages {cut : Nat → Bytes} (hcut : ∀ i, (cut i).length = pageBytes) (ps : List (Nat × Nat)) {a : Alesh}
    (hps : ∀ q ∈ ps, q.1 < a.num O.REDUCE_PAGES) :
    Pooled a (ps.foldl (fun (c : Alesh) (q : Nat × Nat) => c.wr (c.poolPage q.1) (cut q.2)) a) := by
  induction ps generalizing a with
  | nil => exact refl a
  | cons q ps ih =>
    have hw := wrPage (hps q List.mem_cons_self) (hcut q.2)
    exact hw.trans (ih fun r hr => by rw [Alesh.num_of_dict hw.dict]; exact hps r (List.mem_cons_of_mem _ hr))

theorem setGrad (a : Alesh) (g e : Nat) (v : List F32) : Pooled a (a.setGrad g e v) := by
  unfold Alesh.setGrad
  split
  · exact refl a
  · have hcut (i : Nat) : (slice (sliceBytesOf v) (i * pageBytes) pageBytes).length = pageBytes := by
      simp only [slice, List.length_append, List.length_replicate]
      have := List.length_take_le pageBytes ((sliceBytesOf v).drop (i * pageBytes))
      omega
    have hpages : ∀ q ∈ (a.freePool g e (gradPages v.length)).zipIdx, q.1 < a.num O.REDUCE_PAGES := fun q hq =>
      of_decide_eq_true (List.mem_filter.1 (List.fst_mem_of_mem_zipIdx hq)).2
    exact (wrPages hcut _ hpages).trans (modProg _ g (fun _ => rfl) fun _ => rfl)

theorem ownerCombine (a : Alesh) (g e : Nat) : Pooled a (a.ownerCombine g e) := by
  unfold Alesh.ownerCombine
  split
  · split
    · exact (setGrad a g e _).trans (take ..)
    · exact refl a
  · exact refl a

theorem setHeaderGrad (a : Alesh) (e : Nat) (v : List F32) : Pooled a (a.setHeaderGrad e v) := by
  refine foldl (fun b g => ?_) _ a
  split
  · exact setGrad b g e v
  · exact refl b

theorem combineWaiting (a : Alesh) : Pooled a a.combineWaiting := by
  refine (foldl (fun b p => ?_) _ a).trans (foldl (fun b p => ?_) _ _)
  · split
    · exact ownerCombine b ..
    · exact refl b
  · split
    · split
      · exact setHeaderGrad b ..
      · exact refl b
    · exact refl b

theorem freeGrad (a : Alesh) (g e : Nat) : Pooled a (a.freeGrad g e) :=
  trans (modProg a g (f := fun p => { p with gradPages := p.gradPages.filter fun (x : Nat × List (Nat × Nat)) => x.1 != e })
    (fun _ => rfl) fun _ => rfl) (combineWaiting _)

end Pooled

/-! ### The remap and the COMMITs -/

/-- The slots and the slice's progress once its pending slot is live (R38). -/
def Alesh.remapped (a : Alesh) (g : Nat) (up : Upd) : Alesh :=
  let b := ((a.mapSlice g up.slot).dropPending g).releaseSlot up.old
  let c := { b with slots := { b.slots with
    opened := if decide (a.ringEnd ≤ up.old) then insertNat b.slots.opened up.old else b.slots.opened } }
  c.modProg g fun p => { p with last := up.epoch, fence := up.epoch, upd := none }

/-- The transactions that a commit of a slice at an epoch closes. -/
def OwnTx.isHeldOf (g e : Nat) (t : OwnTx) : Bool := t.gsid == g && t.epoch == e && t.real && t.state == .held

/-- A COMMIT to every transaction of a slice and epoch that is HELD (R194). -/
def Alesh.sendCommits (a : Alesh) (g e : Nat) : Alesh :=
  let f := (a.coding.own.filter (OwnTx.isHeldOf g e)).foldl (fun (c : Alesh) (t : OwnTx) => c.sendCommit t) a
  f.modOwn (OwnTx.isHeldOf g e) fun t => { t with state := .awaitFolded, due := f.ackDue }

theorem Alesh.commitSlice_eq (a : Alesh) (g : Nat) (up : Upd) : a.commitSlice g up =
    ((((a.remapped g up).retainRel g up.epoch).freeGrad g up.epoch).sendCommits g up.epoch).tryArrive := rfl

theorem Alesh.releaseSlot_frame (a : Alesh) (j : Nat) : ∃ l, a.releaseSlot j = { a with slots := { a.slots with releasing := l } } := by
  unfold Alesh.releaseSlot
  split
  · exact ⟨_, rfl⟩
  · exact ⟨a.slots.releasing, rfl⟩

/-- The remap in full: the slice's slot is live, none is pending, and the slice has committed. -/
theorem Alesh.remapped_eq (a : Alesh) (g : Nat) (up : Upd) : ∃ l o, a.remapped g up =
    { a with slots := { a.slots with map := assign a.slots.map g up.slot, pend := a.slots.pend.filter fun p => p.1 != g
                                     releasing := l, opened := o }
             progs := modWhere (fun p => p.gsid == g) (fun p => { p with last := up.epoch, fence := up.epoch, upd := none }) a.progs } := by
  obtain ⟨l, h⟩ := Alesh.releaseSlot_frame ((a.mapSlice g up.slot).dropPending g) up.old
  unfold Alesh.remapped
  rw [h]
  exact ⟨_, _, rfl⟩

theorem Alesh.remapped_prog? {a : Alesh} {g : Nat} {p : Prog} (hp : a.prog? g = some p) (up : Upd) :
    (a.remapped g up).prog? g = some { p with last := up.epoch, fence := up.epoch, upd := none } := by
  have h := Alesh.prog?_modProg a g g (f := fun p => { p with last := up.epoch, fence := up.epoch, upd := none }) fun _ => rfl
  rw [if_pos rfl, hp] at h
  obtain ⟨l, o, hr⟩ := Alesh.remapped_eq a g up
  rw [hr]
  exact h

theorem Alesh.remapped_liveSlot (a : Alesh) (g : Nat) (up : Upd) : (a.remapped g up).liveSlot g = some up.slot := by
  obtain ⟨l, o, hr⟩ := Alesh.remapped_eq a g up
  rw [hr]
  exact (lookup?_assign ..).trans (if_pos rfl)

theorem Alesh.remapped_pendSlot (a : Alesh) (g : Nat) (up : Upd) : (a.remapped g up).pendSlot g = none := by
  obtain ⟨l, o, hr⟩ := Alesh.remapped_eq a g up
  rw [hr]
  exact (lookup?_filter ..).trans (if_pos rfl)

theorem Alesh.sendAll_eq (a : Alesh) (typ : Nat) (dsts : List Nat) (args : Nat) (b : Bytes) :
    a.sendAll typ dsts args b = a.emitEach (dsts.map fun d => a.cresol typ d args b) :=
  Alesh.foldl_send typ (fun d => d) (fun _ => args) (fun _ => b) dsts a

/-- Releasing retained partials touches the packets and the reduction unit's lists alone. -/
theorem Alesh.retainRel_frame (a : Alesh) (g e : Nat) : ∃ (ps : Ports) (r : Red), a.retainRel g e = { a with ports := ps, red := r } := by
  unfold Alesh.retainRel
  simp only [Alesh.sendAll_eq]
  generalize List.map _ _ = l
  obtain ⟨ps, h⟩ := Alesh.emitEach_frame a l
  rw [h]
  exact ⟨ps, _, rfl⟩

section
variable (a : Alesh) (g e : Nat)

/-- The COMMITs of a slice at an epoch. -/
def Alesh.commits : List Pkt :=
  (a.coding.own.filter (OwnTx.isHeldOf g e)).map fun t => a.cresol tCommit t.holder (t.commitArgs 0) []

theorem Alesh.sendCommits_eq : a.sendCommits g e =
    (a.emitEach (a.commits g e)).modOwn (OwnTx.isHeldOf g e) fun t =>
      { t with state := .awaitFolded, due := (a.emitEach (a.commits g e)).ackDue } := by
  have hfold : (a.coding.own.filter (OwnTx.isHeldOf g e)).foldl (fun (c : Alesh) (t : OwnTx) => c.sendCommit t) a =
      a.emitEach (a.commits g e) :=
    Alesh.foldl_send tCommit (fun t : OwnTx => t.holder) (fun t => t.commitArgs 0) (fun _ => []) _ a
  unfold Alesh.sendCommits
  rw [hfold]

theorem Alesh.sendCommits_frame : ∃ ps : Ports, a.sendCommits g e =
    { a with ports := ps, coding := { a.coding with
        own := modWhere (OwnTx.isHeldOf g e) (fun t => { t with state := .awaitFolded, due := a.ackDue }) a.coding.own } } := by
  obtain ⟨ps, h⟩ := Alesh.emitEach_frame a (a.commits g e)
  rw [Alesh.sendCommits_eq, h]
  exact ⟨ps, rfl⟩

variable {a}

theorem Alesh.sendCommits_sends (hj : a.inJob = true) {u : OwnTx} (hu : u ∈ a.coding.own) (hh : u.isHeldOf g e = true) :
    Sends (a.sendCommits g e) (a.cresol tCommit u.holder (u.commitArgs 0) []) := by
  rw [Alesh.sendCommits_eq]
  exact (sends_emitEach hj _ (List.mem_map_of_mem (List.mem_filter.2 ⟨hu, hh⟩))).of_ports rfl

end

/-- What a commit of a slice leaves (R38, R131, R192, R194). -/
structure Committed (c b : Alesh) (g : Nat) (up : Upd) : Prop where
  live : b.liveSlot g = some up.slot
  pend : b.pendSlot g = none
  prog : ∃ p, b.prog? g = some p ∧ p.last = up.epoch ∧ p.fence = up.epoch ∧ p.upd = none
  sends : ∀ u ∈ c.coding.own, u.isHeldOf g up.epoch = true → Sends b (c.cresol tCommit u.holder (u.commitArgs 0) [])
  entry : ∀ u ∈ c.coding.own, u.isHeldOf g up.epoch = true → { u with state := .awaitFolded, due := c.ackDue } ∈ b.coding.own
  mem0 : c.errs.retired = [] → ∀ x, ¬c.InPool x → b.mem0.get x = c.mem0.get x
  dict : b.dict = c.dict

theorem OwnTx.isHeldOf_iff {g e : Nat} {u : OwnTx} :
    u.isHeldOf g e = true ↔ u.gsid = g ∧ u.epoch = e ∧ u.count ≠ 0 ∧ u.state = .held := by
  simp [OwnTx.isHeldOf, OwnTx.real, and_assoc]

/-- The core of a commit after the remap: the pool's pages freed and the COMMITs sent. -/
structure Closed (r d : Alesh) (g e : Nat) : Prop where
  bare : (d.prog? g).map Prog.bare = (r.prog? g).map Prog.bare
  sends : ∀ u ∈ r.coding.own, u.isHeldOf g e = true → Sends d (r.cresol tCommit u.holder (u.commitArgs 0) [])
  entry : ∀ u ∈ r.coding.own, u.isHeldOf g e = true → { u with state := .awaitFolded, due := r.ackDue } ∈ d.coding.own
  mem0 : r.errs.retired = [] → ∀ x, ¬r.InPool x → d.mem0.get x = r.mem0.get x
  ctl : d.ctl = r.ctl
  dict : d.dict = r.dict
  slots : d.slots = r.slots

theorem Alesh.closed_of_remap {r : Alesh} (hj : r.inJob = true) (g e : Nat) :
    Closed r (((r.retainRel g e).freeGrad g e).sendCommits g e) g e := by
  obtain ⟨ps, red, hrel⟩ := Alesh.retainRel_frame r g e
  rw [hrel]
  obtain ⟨hframe, hbare, hmem⟩ := Pooled.freeGrad { r with ports := ps, red := red } g e
  generalize ({ r with ports := ps, red := red } : Alesh).freeGrad g e = f at *
  have hdict : f.dict = r.dict := by rw [hframe]
  have hown : f.coding.own = r.coding.own := by rw [hframe]
  have hdue : f.ackDue = r.ackDue := by rw [hframe]; rfl
  have hjob : f.inJob = true := by rw [hframe]; exact hj
  have hsends := fun u (hu : u ∈ f.coding.own) hh => Alesh.sendCommits_sends g e hjob (u := u) hu hh
  obtain ⟨qs, hcommits⟩ := Alesh.sendCommits_frame f g e
  generalize f.sendCommits g e = d at *
  refine ⟨?_, fun u hu hh => ?_, fun u hu hh => ?_, ?_, ?_, ?_, ?_⟩
  · rw [hcommits]; exact hbare g
  · rw [← Alesh.cresol_of_dict hdict]
    exact hsends u (hown ▸ hu) hh
  · rw [hcommits, ← hdue]
    exact mem_modWhere (f := fun t : OwnTx => { t with state := .awaitFolded, due := f.ackDue }) (hown ▸ hu) hh
  · rw [hcommits]; exact hmem
  all_goals rw [hcommits, hframe]

theorem Alesh.commitSlice_committed {c : Alesh} (hj : c.inJob = true) (hlast : c.inProgress < 2 ^ 48) {g : Nat} {p : Prog}
    (hp : c.prog? g = some p) (up : Upd) : Committed c (c.commitSlice g up) g up := by
  rw [Alesh.commitSlice_eq]
  have hprog := Alesh.remapped_prog? hp up
  have hlive := Alesh.remapped_liveSlot c g up
  have hpend := Alesh.remapped_pendSlot c g up
  obtain ⟨l, o, hremap⟩ := Alesh.remapped_eq c g up
  have hjob : (c.remapped g up).inJob = true := by rw [hremap]; exact hj
  have hcoding : (c.remapped g up).coding = c.coding := by rw [hremap]
  have hdict : (c.remapped g up).dict = c.dict := by rw [hremap]
  have hdue : (c.remapped g up).ackDue = c.ackDue := by rw [hremap]; rfl
  have hmem0 : (c.remapped g up).mem0 = c.mem0 := by rw [hremap]
  have herrs : (c.remapped g up).errs = c.errs := by rw [hremap]
  generalize c.remapped g up = r at *
  have hclosed := Alesh.closed_of_remap hjob g up.epoch
  generalize ((r.retainRel g up.epoch).freeGrad g up.epoch).sendCommits g up.epoch = d at *
  have hdj : d.inJob = true := by rw [Alesh.inJob, hclosed.ctl]; exact hjob
  have hin : d.inProgress < 2 ^ 48 := by
    rw [Alesh.inProgress_of_inJob hj] at hlast
    rw [Alesh.inProgress_of_inJob hdj, Alesh.num_of_dict (hclosed.dict.trans hdict)]
    exact hlast
  obtain ⟨hframe, hkeep⟩ := Arriving.tryArrive hin
  generalize d.tryArrive = b at *
  have hbslots : b.slots = r.slots := by rw [hframe]; exact hclosed.slots
  refine ⟨?_, ?_, ?_, fun u hu hh => ?_, fun u hu hh => ?_, fun hr x hx => ?_, ?_⟩
  · rw [← hlive, Alesh.liveSlot, hbslots, Alesh.liveSlot]
  · rw [← hpend, Alesh.pendSlot, hbslots, Alesh.pendSlot]
  · have hbare : (b.prog? g).map Prog.bare = some ({ p with last := up.epoch, fence := up.epoch, upd := none } : Prog).bare := by
      have := hclosed.bare
      rw [hprog] at this
      rw [hframe]; exact this
    obtain ⟨q, hq, hqp⟩ := Option.map_eq_some_iff.1 hbare
    simp only [Prog.bare, Prog.mk.injEq] at hqp
    obtain ⟨-, hlast, hfence, -, -, -, hupd, -⟩ := hqp
    exact ⟨q, hq, hlast, hfence, hupd⟩
  · rw [← Alesh.cresol_of_dict hdict]
    exact hkeep _ (hclosed.sends u (hcoding ▸ hu) hh)
  · rw [hframe, ← hdue]
    exact hclosed.entry u (hcoding ▸ hu) hh
  · rw [hframe, ← hmem0]
    exact hclosed.mem0 (herrs ▸ hr) x fun h => hx (h.of_dict hdict)
  · rw [hframe]; exact hclosed.dict.trans hdict

/-- A fence over every holder in force leads to the remap. -/
theorem Alesh.evalFence_of_complete {c : Alesh} {g : Nat} {up : Upd} (hup : (c.prog? g).bind (·.upd) = some up) (hsound : c.sound = true)
    (hsent : c.allSent g up = true)
    (hall : ∀ y ∈ c.targets g, y.extra = false → ∃ u ∈ c.coding.own, u.matches g up.epoch y = true ∧ u.state.fenced = true) :
    c.evalFence g = c.commitSlice g up := by
  have hfence : ((c.targets g).filter fun x => !x.extra).all (fun x => c.coding.own.any fun t => t.matches g up.epoch x && t.state.fenced)
      = true := by
    refine List.all_eq_true.2 fun y hy => ?_
    obtain ⟨hmem, hextra⟩ := List.mem_filter.1 hy
    obtain ⟨u, hu, hmatch, hst⟩ := hall y hmem (by simpa using hextra)
    exact List.any_eq_true.2 ⟨u, hu, by simp [hmatch, hst]⟩
  unfold Alesh.evalFence
  simp only [hup, hsound, hsent, hfence, Bool.and_self, if_true]

theorem Alesh.sound_inJob {a : Alesh} (h : a.sound = true) : a.inJob = true := by
  simp only [Alesh.sound, Bool.and_eq_true] at h
  exact h.1.1

/-- The second clause of O31: an acknowledgement of an own transaction (R192, R194). -/
theorem holdAckRx_gives {s : State} {now : Nat} {m : Pkt} (h : Arrives s.alesh tHoldAck m) (hpay : m.payload = [])
    (hcodes : s.alesh.codes = true) {a : Alesh} (ha : s.alesh.heard now m.src = a) {x : TxArgs} (hx : TxArgs.ofNat m.args = x) {t : OwnTx}
    (hadopt : x.adopt = false) (hlast : a.inProgress < 2 ^ 48) (hfind : a.coding.own.find? (OwnTx.isFrom m.src x.seq) = some t)
    (hown : t.adopt = false) :
    (x.mid / 16 = sFolded → t.state = .awaitFolded → Gives (.holdAckRx now m) s fun b =>
      b = { a with coding := { a.coding with own := a.coding.own.filter fun y => !y.isFrom m.src x.seq } }) ∧
    (x.mid / 16 = sHeld → t.state = .sending ∨ t.state = .awaitHeld → (∀ p, a.prog? t.gsid = some p → p.last < t.epoch) →
      Gives (.holdAckRx now m) s fun b => ∃ c : Alesh, b = c.evalFence t.gsid ∧
        c.coding = { a.coding with own := modWhere (OwnTx.isFrom m.src x.seq) (fun y => { y with state := .held, tries := 0 }) a.coding.own } ∧
        c = { a with coding := c.coding, health := { a.health with samples := c.health.samples } } ∧
        ∀ up : Upd, (c.prog? t.gsid).bind (·.upd) = some up → c.sound = true → c.allSent t.gsid up = true →
          (∀ y ∈ c.targets t.gsid, y.extra = false → ∃ u ∈ c.coding.own, u.matches t.gsid up.epoch y = true ∧ u.state.fenced = true) →
          Committed c b t.gsid up) := by
  subst hx
  refine ⟨fun hst hwait => ?_, fun hst hwait hopen => ?_⟩
  · refine gives_onCore (f := Alesh.holdAckRx now m) rfl ?_
    rw [Alesh.holdAckRx_of_arrives h hpay hcodes hadopt (by rw [hst]; decide), ha, Alesh.ackIn_of_folded hfind hown hst hwait]
    rfl
  · refine gives_onCore (f := Alesh.holdAckRx now m) rfl ?_
    rw [Alesh.holdAckRx_of_arrives h hpay hcodes hadopt (by rw [hst]; decide), ha, Alesh.ackIn_of_held hfind hown hst hwait hopen]
    obtain ⟨l, hframe⟩ := Alesh.ackedHeld_frame (a := a) (src := m.src) (x := TxArgs.ofNat m.args) (t := t)
    generalize a.ackedHeld m.src (TxArgs.ofNat m.args) t = c at *
    refine ⟨c, rfl, by rw [hframe], by rw [hframe], fun up hup hsound hsent hall => ?_⟩
    rw [Alesh.evalFence_of_complete hup hsound hsent hall]
    have hin : c.inProgress < 2 ^ 48 := by rw [hframe]; exact hlast
    cases hp : c.prog? t.gsid with
    | none => rw [hp] at hup; exact absurd hup (by simp)
    | some p => exact Alesh.commitSlice_committed (Alesh.sound_inJob hsound) hin hp up

end Sys2Proof.Machine
end

section
/-! SUPPORT. Repairing a pending page leaves the control unit's state and DELTA_COMPRESS as they were (R401, R405). -/
namespace Sys2Proof.Machine

/-- The control unit's state and the coding of DELTAs are as before. -/
structure Mending (a b : Alesh) : Prop where
  ctl : b.ctl = a.ctl
  compress : b.num O.DELTA_COMPRESS = a.num O.DELTA_COMPRESS

namespace Mending

theorem refl (a : Alesh) : Mending a a := ⟨rfl, rfl⟩

theorem trans {a b c : Alesh} (hab : Mending a b) (hbc : Mending b c) : Mending a c :=
  ⟨hbc.ctl.trans hab.ctl, hbc.compress.trans hab.compress⟩

theorem foldl {ι : Type} {f : Alesh → ι → Alesh} (hf : ∀ a x, Mending a (f a x)) (l : List ι) (a : Alesh) : Mending a (l.foldl f a) := by
  induction l generalizing a with
  | nil => exact refl a
  | cons x l ih => exact (hf a x).trans (ih (f a x))

/-! ### Counts and writes -/

theorem setNum (a : Alesh) {k : Nat} (hk : k ≠ O.DELTA_COMPRESS) (v : Nat) : Mending a (a.setNum k v) :=
  ⟨rfl, (Alesh.num_setNum ..).trans (if_neg hk)⟩

theorem count (a : Alesh) {k : Nat} (hk : k ≠ O.DELTA_COMPRESS) : Mending a (a.count k) := setNum a hk _

theorem setDom (a : Alesh) (k : Nat) (v : Bytes) : Mending a (a.setDom k v) := ⟨rfl, rfl⟩

theorem wr (a : Alesh) (addr : Nat) (b : Bytes) : Mending a (a.wr addr b) := by
  rw [Alesh.wr_frame]; exact ⟨rfl, rfl⟩

theorem noteUe (a : Alesh) (addr outcome : Nat) : Mending a (a.noteUe addr outcome) :=
  trans (b := a.repairEvent) ⟨rfl, rfl⟩ (setDom ..)

/-! ### Pages rewritten -/

theorem setRec (a : Alesh) (slot page : Nat) (r : PageRec) : Mending a (a.setRec slot page r) := wr a ..

theorem copyPage (a : Alesh) (old slot page : Nat) : Mending a (a.copyPage old slot page) := by
  unfold Alesh.copyPage
  extract_lets r b
  have hb : Mending a b := setRec ..
  split
  · exact hb.trans (wr ..)
  · exact hb

theorem writePage (a : Alesh) (g slot page e : Nat) (b : Bytes) : Mending a (a.writePage g slot page e b) :=
  (wr a ..).trans (setRec ..)

theorem writeUnit (a : Alesh) (g slot e : Nat) (u : Nat × Nat) : Mending a (a.writeUnit g slot e u) :=
  foldl (fun c p => writePage c g slot p e _) _ a

/-! ### Pages asked for, and pages retired -/

theorem addRebuild (a : Alesh) (r : Rebuild) : Mending a (a.addRebuild r) := by
  unfold Alesh.addRebuild
  extract_lets
  split <;> exact ⟨rfl, rfl⟩

theorem want (a : Alesh) (u g page : Nat) : Mending a (a.want u g page) := by
  unfold Alesh.want
  split <;> exact ⟨rfl, rfl⟩

theorem damageLive (a : Alesh) (g page : Nat) : Mending a (a.damageLive g page) := by
  unfold Alesh.damageLive
  split
  · split
    · exact refl a
    · exact (noteUe a ..).trans (addRebuild ..)
  · exact refl a

theorem needPage (a : Alesh) (u g page : Nat) : Mending a (a.needPage u g page) := by
  unfold Alesh.needPage
  split
  · exact refl a
  · split
    · exact want a ..
    · exact (want a ..).trans (damageLive ..)

theorem withPages {a k : Alesh} (u : Nat) (ps : List (Nat × Nat)) (hk : Mending a k) : Mending a (a.withPages u ps k) := by
  unfold Alesh.withPages
  split
  · exact hk
  · exact foldl (fun b p => needPage b ..) _ a

theorem clearBad (a : Alesh) (page : Nat) : Mending a (a.clearBad page) := ⟨rfl, rfl⟩

theorem retirePage (a : Alesh) (page : Nat) : Mending a (a.retirePage page) := by
  unfold Alesh.retirePage
  split
  · exact refl a
  · dsimp only
    split
    · exact ⟨rfl, rfl⟩
    · exact count a (by decide)

theorem healed (a : Alesh) (page record : Nat) : Mending a (a.healed page record) := by
  unfold Alesh.healed
  extract_lets b
  have hb : Mending a b := by
    unfold b
    split
    · exact refl a
    · exact (clearBad a _).trans (retirePage ..)
  split
  · exact hb.trans ((clearBad ..).trans (retirePage ..))
  · exact hb

theorem scanEnd (a : Alesh) : Mending a a.scanEnd := by
  unfold Alesh.scanEnd
  split
  · split
    · exact trans (b := { a with errs := { a.errs with scan := none } }) ⟨rfl, rfl⟩ ((setNum _ (by decide) _).trans (setDom ..))
    · exact refl a
  · exact refl a

theorem scanSettle (a : Alesh) (key : Repair) (fixed : Bool) : Mending a (a.scanSettle key fixed) :=
  trans (b := { a with errs := { a.errs with scan := a.errs.scan.map fun (s : Scan) => s.settle key fixed } }) ⟨rfl, rfl⟩ (scanEnd _)

/-! ### A pending page made fresh -/

theorem recomputePending (a : Alesh) (g page : Nat) : Mending a (a.recomputePending g page) := by
  unfold Alesh.recomputePending
  split
  · exact refl a
  · extract_lets u written b at_
    have hb : Mending a b := by
      unfold b
      split
      · exact copyPage a ..
      · split
        · exact refl a
        · exact writeUnit a ..
    exact withPages _ _ ((((hb.trans (noteUe ..)).trans (count _ (by decide))).trans (healed ..)).trans (scanSettle ..))

theorem freshPending (a : Alesh) (g slot page : Nat) : Mending a (a.freshPending g slot page) := by
  unfold Alesh.freshPending
  split
  · exact refl a
  · exact recomputePending a ..

end Mending

end Sys2Proof.Machine
end

section
/-! SUPPORT. DELTA_SEND: the transactions opened, the page sent in each, and what is counted (R105, R164, R189). -/
namespace Sys2Proof.Machine

/-! ### Transactions opened -/

/-- The transactions of a list of targets opened. -/
def Alesh.openEach (a : Alesh) (g e n : Nat) (xs : List Target) : Alesh := xs.foldl (fun c x => c.openTx g e n x false) a

theorem Alesh.openEach_frame (a : Alesh) (g e n : Nat) (xs : List Target) : ∃ own seqs, a.openEach g e n xs =
    { a with coding := { a.coding with own := own, nextSeq := seqs } } := by
  induction xs generalizing a with
  | nil => exact ⟨a.coding.own, a.coding.nextSeq, rfl⟩
  | cons x xs ih =>
    obtain ⟨own, seqs, h⟩ := ih (a.openTx g e n x false)
    exact ⟨own, seqs, h.trans rfl⟩

/-- What is open stays open. -/
theorem Alesh.openEach_keeps {a : Alesh} {t : OwnTx} (g e n : Nat) (xs : List Target) (h : t ∈ a.coding.own) :
    t ∈ (a.openEach g e n xs).coding.own := by
  induction xs generalizing a with
  | nil => exact h
  | cons x xs ih => exact ih (a := a.openTx g e n x false) (List.mem_append_left _ h)

/-- Every target of the list has its transaction. -/
theorem Alesh.openEach_opens (a : Alesh) (g e : Nat) {n : Nat} (hn : n ≠ 0) (xs : List Target) :
    ∀ x ∈ xs, ∃ t ∈ (a.openEach g e n xs).coding.own, t.matches g e x = true := by
  induction xs generalizing a with
  | nil => exact fun x hx => absurd hx List.not_mem_nil
  | cons y xs ih =>
    intro x hx
    rcases List.mem_cons.1 hx with rfl | hx
    · refine ⟨_, Alesh.openEach_keeps (a := a.openTx g e n x false) g e n xs
        (List.mem_append_right _ (List.mem_singleton_self _)), ?_⟩
      simp [OwnTx.matches, OwnTx.real, hn]
    · exact ih (a.openTx g e n y false) x hx

/-! ### One page of many transactions -/

/-- A transaction with more of its pages sent. -/
structure OwnTx.Evolves (u v : OwnTx) : Prop where
  frame : v = { u with state := v.state, pages := v.pages, due := v.due, lastAt := v.lastAt }
  pages : ∀ q ∈ u.pages, q ∈ v.pages

namespace OwnTx.Evolves

theorem refl (u : OwnTx) : u.Evolves u := ⟨rfl, fun _ h => h⟩

theorem trans {u v w : OwnTx} (huv : u.Evolves v) (hvw : v.Evolves w) : u.Evolves w := by
  refine ⟨hvw.frame.trans ?_, fun q h => hvw.pages q (huv.pages q h)⟩
  rw [huv.frame]

theorem matches_eq {u v : OwnTx} (h : u.Evolves v) (g e : Nat) (x : Target) : v.matches g e x = u.matches g e x := by
  rw [h.frame]; rfl

theorem deltaArgs_eq {u v : OwnTx} (h : u.Evolves v) (page : Nat) : v.deltaArgs page = u.deltaArgs page := by
  rw [h.frame]; rfl

theorem coef_eq {u v : OwnTx} (h : u.Evolves v) : coef v.row v.col = coef u.row u.col := by rw [h.frame]

end OwnTx.Evolves

/-- What sending pages of transactions may change: their entries, which evolve, and the packets, which stay. -/
structure Paging (c r : Alesh) : Prop where
  frame : r = { c with coding := { c.coding with own := r.coding.own }, ports := r.ports }
  own : ∀ u ∈ c.coding.own, ∃ v ∈ r.coding.own, u.Evolves v
  sends : ∀ p, Sends c p → Sends r p

namespace Paging

theorem refl (c : Alesh) : Paging c c := ⟨rfl, fun u hu => ⟨u, hu, .refl u⟩, fun _ h => h⟩

theorem trans {a b c : Alesh} (hab : Paging a b) (hbc : Paging b c) : Paging a c := by
  refine ⟨hbc.frame.trans ?_, fun u hu => ?_, fun p h => hbc.sends p (hab.sends p h)⟩
  · rw [hab.frame]
  · obtain ⟨v, hv, huv⟩ := hab.own u hu
    obtain ⟨w, hw, hvw⟩ := hbc.own v hv
    exact ⟨w, hw, huv.trans hvw⟩

theorem foldl {ι : Type} {f : Alesh → ι → Alesh} (hf : ∀ a x, Paging a (f a x)) (l : List ι) (a : Alesh) : Paging a (l.foldl f a) := by
  induction l generalizing a with
  | nil => exact refl a
  | cons x l ih => exact (hf a x).trans (ih (f a x))

theorem dict {c r : Alesh} (h : Paging c r) : r.dict = c.dict := by rw [h.frame]
theorem inJob {c r : Alesh} (h : Paging c r) : r.inJob = c.inJob := by rw [h.frame]; rfl

end Paging

/-- The payload of a page's DELTA in a transaction: the page's delta scaled by the transaction's coefficient, coded (R105, R164). -/
def Alesh.payloadOf (a : Alesh) (t : OwnTx) (d : Bytes) : Bytes :=
  deltaEncode (a.num O.DELTA_COMPRESS == 1) (gfScale (coef t.row t.col) d)

/-- A transaction's entry once a page of it has been sent. -/
def Alesh.paged (a : Alesh) (t : OwnTx) (page : Nat) (d : Bytes) (x : OwnTx) : OwnTx :=
  { x with pages := x.pages ++ [(page, a.payloadOf t d)], due := a.ackDue, lastAt := a.now
           state := if t.pages.length + 1 == t.count && x.state == .sending then .awaitHeld else x.state }

theorem Alesh.sendPage_eq (a : Alesh) (t : OwnTx) (page : Nat) (d : Bytes) : a.sendPage t page d =
    (a.modOwn (OwnTx.isFrom t.holder t.seq) (a.paged t page d)).emit (a.cresol tDelta t.holder (t.deltaArgs page) (a.payloadOf t d)) := rfl

theorem Alesh.paged_evolves (a : Alesh) (t : OwnTx) (page : Nat) (d : Bytes) (x : OwnTx) : x.Evolves (a.paged t page d x) :=
  ⟨rfl, fun _ h => List.mem_append_left _ h⟩

theorem Alesh.sendPage_paging (a : Alesh) (t : OwnTx) (page : Nat) (d : Bytes) : Paging a (a.sendPage t page d) := by
  rw [Alesh.sendPage_eq]
  set b := a.modOwn (OwnTx.isFrom t.holder t.seq) (a.paged t page d) with hb
  refine ⟨?_, fun u hu => ?_, fun p h => (h.of_ports (b := b) rfl).emit _⟩
  · rw [Alesh.emit_frame, hb]; rfl
  · have hmem : (if OwnTx.isFrom t.holder t.seq u then a.paged t page d u else u) ∈ b.coding.own := List.mem_map_of_mem hu
    refine ⟨_, (Alesh.emit_coding ..).symm ▸ hmem, ?_⟩
    split
    · exact Alesh.paged_evolves ..
    · exact .refl u

/-- The page is sent, and the transaction keeps its payload. -/
theorem Alesh.sendPage_sends {a : Alesh} (hj : a.inJob = true) {t u : OwnTx} (hu : u ∈ a.coding.own) (htu : t.Evolves u)
    (hreal : t.real = true) (page : Nat) (d : Bytes) :
    (∃ v ∈ (a.sendPage t page d).coding.own, u.Evolves v ∧ (page, a.payloadOf t d) ∈ v.pages) ∧
      Sends (a.sendPage t page d) (a.cresol tDelta t.holder (t.deltaArgs page) (a.payloadOf t d)) := by
  rw [Alesh.sendPage_eq]
  set b := a.modOwn (OwnTx.isFrom t.holder t.seq) (a.paged t page d)
  have hfrom : OwnTx.isFrom t.holder t.seq u = true := by
    have : OwnTx.isFrom t.holder t.seq u = OwnTx.isFrom t.holder t.seq t := by rw [htu.frame]; rfl
    rw [this]
    simp [OwnTx.isFrom, hreal]
  have hmem : a.paged t page d u ∈ b.coding.own := mem_modWhere hu hfrom
  refine ⟨⟨_, (Alesh.emit_coding ..).symm ▸ hmem, Alesh.paged_evolves .., ?_⟩, sends_emit_self (a := b) hj _⟩
  exact List.mem_append_right _ (List.mem_singleton_self _)

/-- A page sent in a transaction that is one of a list of targets. -/
def Alesh.sendStep (g e : Nat) (xs : List Target) (page : Nat) (d : Bytes) (c : Alesh) (t : OwnTx) : Alesh :=
  if xs.any fun x => t.matches g e x then c.sendPage t page d else c

/-- A page sent in every open transaction of a list of targets. -/
def Alesh.sendTo (a : Alesh) (g e : Nat) (xs : List Target) (page : Nat) (d : Bytes) : Alesh :=
  a.coding.own.foldl (Alesh.sendStep g e xs page d) a

theorem Alesh.sendStep_paging (g e : Nat) (xs : List Target) (page : Nat) (d : Bytes) (c : Alesh) (t : OwnTx) :
    Paging c (Alesh.sendStep g e xs page d c t) := by
  unfold Alesh.sendStep
  split
  · exact Alesh.sendPage_paging ..
  · exact .refl c

theorem Alesh.sendTo_paging (a : Alesh) (g e : Nat) (xs : List Target) (page : Nat) (d : Bytes) : Paging a (a.sendTo g e xs page d) :=
  Paging.foldl (Alesh.sendStep_paging g e xs page d) _ a

theorem OwnTx.matches_real {t : OwnTx} {g e : Nat} {x : Target} (h : t.matches g e x = true) : t.real = true ∧ t.holder = x.node := by
  simp only [OwnTx.matches, Bool.and_eq_true, beq_iff_eq] at h
  exact ⟨h.2, h.1.1.1.1.2⟩

/-- A target with an open transaction gets the page, and the transaction keeps the payload. -/
theorem Alesh.sendTo_sends {a : Alesh} (hj : a.inJob = true) {g e : Nat} {xs : List Target} (page : Nat) (d : Bytes) {x : Target}
    (hx : x ∈ xs) {t : OwnTx} (ht : t ∈ a.coding.own) (hm : t.matches g e x = true) :
    ∃ v ∈ (a.sendTo g e xs page d).coding.own, t.Evolves v ∧ (page, a.payloadOf v d) ∈ v.pages ∧
      Sends (a.sendTo g e xs page d) (a.cresol tDelta x.node (v.deltaArgs page) (a.payloadOf v d)) := by
  obtain ⟨hreal, hholder⟩ := OwnTx.matches_real hm
  obtain ⟨l, r, hsplit⟩ := List.append_of_mem ht
  have hstep := Alesh.sendStep_paging g e xs page d
  have hhit (c : Alesh) : Alesh.sendStep g e xs page d c t = c.sendPage t page d := if_pos (List.any_eq_true.2 ⟨x, hx, hm⟩)
  have hbefore := Paging.foldl hstep l a
  have hafter := Paging.foldl hstep r ((l.foldl (Alesh.sendStep g e xs page d) a).sendPage t page d)
  have hall : a.sendTo g e xs page d = r.foldl (Alesh.sendStep g e xs page d)
      ((l.foldl (Alesh.sendStep g e xs page d) a).sendPage t page d) := by
    rw [Alesh.sendTo, hsplit, List.foldl_append, List.foldl_cons, hhit]
  rw [← hall] at hafter
  generalize l.foldl (Alesh.sendStep g e xs page d) a = c at *
  obtain ⟨u, hu, htu⟩ := hbefore.own t ht
  obtain ⟨⟨v, hv, huv, hpage⟩, hsend⟩ := Alesh.sendPage_sends (hbefore.inJob.trans hj) hu htu hreal page d
  obtain ⟨w, hw, hvw⟩ := hafter.own v hv
  have htw := (htu.trans huv).trans hvw
  have hpay : c.payloadOf t d = a.payloadOf w d := by
    rw [Alesh.payloadOf, Alesh.payloadOf, Alesh.num_of_dict hbefore.dict, htw.coef_eq]
  rw [hpay] at hpage hsend
  refine ⟨w, hw, htw, hvw.pages _ hpage, ?_⟩
  rw [htw.deltaArgs_eq, ← hholder, ← Alesh.cresol_of_dict hbefore.dict]
  exact hafter.sends _ hsend

/-! ### The command -/

/-- Transactions opened to the targets that have none, with the condition on a window that they fill (R339). -/
def Alesh.openFresh (a : Alesh) (g e n : Nat) (fresh : List Target) : Alesh :=
  let b := a.openEach g e n fresh
  if fresh.any fun x => !b.holdRoom (2 ^ 32) x.node then b.condition hHoldLimit else b

/-- A page sent to every target, and the update's counts and progress. -/
def Alesh.sentPage (a : Alesh) (g page : Nat) (up : Upd) (xs : List Target) (n : Nat) (d : Bytes) : Alesh :=
  (((a.sendTo g up.epoch xs page d).wrapN O.DELTA_RAW_BYTES pageBytes).wrapN O.DELTA_SENT_BYTES n).modProg g fun p =>
    { p with upd := p.upd.map fun u => { u with sent := u.sent ++ [page] } }

theorem Alesh.openFresh_frame (a : Alesh) (g e n : Nat) (fresh : List Target) : ∃ own seqs h, a.openFresh g e n fresh =
    { a with coding := { a.coding with own := own, nextSeq := seqs }, health := h } := by
  obtain ⟨own, seqs, hopen⟩ := Alesh.openEach_frame a g e n fresh
  unfold Alesh.openFresh
  rw [hopen]
  dsimp only
  split
  · exact ⟨own, seqs, _, rfl⟩
  · exact ⟨own, seqs, a.health, rfl⟩

theorem Alesh.openFresh_own (a : Alesh) (g e n : Nat) (fresh : List Target) :
    (a.openFresh g e n fresh).coding.own = (a.openEach g e n fresh).coding.own := by
  unfold Alesh.openFresh
  dsimp only
  split <;> rfl

end Sys2Proof.Machine
end

section
/-! SUPPORT. DELTA_SEND with its guards met, and what an owner sends and commits (R47, R48, R164, R189 to R194). -/
namespace Sys2Proof.Machine

/-- With every guard met the page goes to every target, and then the fence is evaluated. -/
theorem Alesh.deltaSend_of_guards {s a : Alesh} {now g page : Nat} {up : Upd} (ha : s.at now = a)
    (hup : (a.prog? g).bind (·.upd) = some up) (hj : a.inJob = true) (hu : a.unit uCoding = .running)
    {fresh : List Target} (hfresh : ((a.targets g).filter fun x => !a.coding.own.any fun t => t.matches g up.epoch x) = fresh)
    (hwritten : page ∈ a.writtenPages g up.epoch) (hnew : page ∉ up.sent) (hdone : (a.unitOf g page).1 ∉ up.todo)
    (hready : a.pageReady g page = true) (hgood : (a.freshPending g up.slot page).pageGood g up.slot page = true)
    (hroom : ∀ x ∈ fresh, a.holdRoom g x.node = true ∧ a.seqRoom x.node (fresh.filter fun y => y.node == x.node).length = true) :
    let b := (a.freshPending g up.slot page).openFresh g up.epoch (a.writtenPages g up.epoch).length fresh
    let d := (a.freshPending g up.slot page).dataDelta g page up
    s.deltaSend now g page =
      (b.sentPage g page up (a.targets g) (deltaEncode (a.num O.DELTA_COMPRESS == 1) d).length d).evalFence g := by
  have hhold : (fresh.any fun x => !a.holdRoom g x.node) = false := by
    simpa using fun x hx => (hroom x hx).1
  have hseq : (fresh.any fun x => !a.seqRoom x.node (fresh.filter fun y => y.node == x.node).length) = false := by
    simpa using fun x hx => (hroom x hx).2
  have hpages : ∀ q ∈ [(g, page)], a.pageReady q.1 q.2 = true := by simpa using hready
  have hdelta : ((a.freshPending g up.slot page).openEach g up.epoch (a.writtenPages g up.epoch).length fresh).dataDelta g page up =
      (a.freshPending g up.slot page).dataDelta g page up := by
    obtain ⟨own, seqs, h⟩ := Alesh.openEach_frame (a.freshPending g up.slot page) g up.epoch (a.writtenPages g up.epoch).length fresh
    rw [h]; rfl
  intro b d
  unfold Alesh.deltaSend
  simp only [ha, hup, hj, hu, hfresh, hhold, hseq, Alesh.withPages_of_ready hpages, hgood, beq_self_eq_true, Bool.true_and,
    List.contains_iff_mem.2 hwritten, List.contains_eq_mem, hnew, hdone, decide_false, Bool.not_false, Bool.not_true, Bool.false_eq_true,
    if_false]
  rw [← Alesh.openEach, hdelta]
  rfl

/-- What DELTA_SEND leaves before it evaluates the fence: the page at every target, and what is counted and noted. -/
structure PageSent (a c : Alesh) (g page : Nat) (up : Upd) (xs : List Target) (n : Nat) (d : Bytes) : Prop where
  sent : ∀ x ∈ xs, ∃ t ∈ c.coding.own, t.matches g up.epoch x = true ∧ (page, a.payloadOf t d) ∈ t.pages ∧
    Sends c (a.cresol tDelta x.node (t.deltaArgs page) (a.payloadOf t d))
  progs : c.progs =
    modWhere (fun (p : Prog) => p.gsid == g) (fun p => { p with upd := p.upd.map fun u => { u with sent := u.sent ++ [page] } }) a.progs
  raw : c.num O.DELTA_RAW_BYTES = wrapAdd (widthOf O.DELTA_RAW_BYTES) (a.num O.DELTA_RAW_BYTES) 65536
  coded : c.num O.DELTA_SENT_BYTES = wrapAdd (widthOf O.DELTA_SENT_BYTES) (a.num O.DELTA_SENT_BYTES) n
  same : SameBut [O.DELTA_RAW_BYTES, O.DELTA_SENT_BYTES] [] a c
  frame : c = { a with coding := c.coding, ports := c.ports, dict := c.dict, progs := c.progs, health := c.health }

theorem Alesh.num_modProg (a : Alesh) (g : Nat) (f : Prog → Prog) (k : Nat) : (a.modProg g f).num k = a.num k := rfl

theorem Alesh.sentPage_num (a : Alesh) (g page : Nat) (up : Upd) (xs : List Target) (n : Nat) (d : Bytes) (k : Nat) :
    (a.sentPage g page up xs n d).num k =
      if O.DELTA_SENT_BYTES = k then wrapAdd (widthOf O.DELTA_SENT_BYTES) (a.num O.DELTA_SENT_BYTES) n
      else if O.DELTA_RAW_BYTES = k then wrapAdd (widthOf O.DELTA_RAW_BYTES) (a.num O.DELTA_RAW_BYTES) pageBytes else a.num k := by
  have hne : O.DELTA_RAW_BYTES ≠ O.DELTA_SENT_BYTES := by decide
  have hdict := (Alesh.sendTo_paging a g up.epoch xs page d).dict
  unfold Alesh.sentPage
  generalize a.sendTo g up.epoch xs page d = c at *
  rw [Alesh.num_modProg, Alesh.num_wrapN, Alesh.num_wrapN, Alesh.num_wrapN, if_neg hne, Alesh.num_of_dict hdict, Alesh.num_of_dict hdict,
    Alesh.num_of_dict hdict]

theorem Alesh.openFresh_pageSent {a : Alesh} (hj : a.inJob = true) {g e m : Nat} (hm : m ≠ 0) {xs fresh : List Target}
    (hfresh : (xs.filter fun x => !a.coding.own.any fun t => t.matches g e x) = fresh) {up : Upd} (he : up.epoch = e)
    (page n : Nat) (d : Bytes) : PageSent a ((a.openFresh g e m fresh).sentPage g page up xs n d) g page up xs n d := by
  subst he
  have hopen : ∀ x ∈ xs, ∃ t ∈ (a.openFresh g up.epoch m fresh).coding.own, t.matches g up.epoch x = true := by
    intro x hx
    rw [Alesh.openFresh_own]
    by_cases hold : (a.coding.own.any fun t => t.matches g up.epoch x) = true
    · obtain ⟨t, ht, hmatch⟩ := List.any_eq_true.1 hold
      exact ⟨t, Alesh.openEach_keeps g up.epoch m fresh ht, hmatch⟩
    · exact Alesh.openEach_opens a g up.epoch hm fresh x (hfresh ▸ List.mem_filter.2 ⟨hx, by simp [hold]⟩)
  obtain ⟨own, seqs, h, hframe⟩ := Alesh.openFresh_frame a g up.epoch m fresh
  have hdict : (a.openFresh g up.epoch m fresh).dict = a.dict := by rw [hframe]
  have hjob : (a.openFresh g up.epoch m fresh).inJob = true := by rw [hframe]; exact hj
  have hprogs : (a.openFresh g up.epoch m fresh).progs = a.progs := by rw [hframe]
  have hrest (o : Coding) (ps : Ports) (w : Dict) (l : List Prog) :
      ({ a.openFresh g up.epoch m fresh with coding := o, ports := ps, dict := w, progs := l } : Alesh) =
        { a with coding := o, ports := ps, dict := w, progs := l, health := h } := by rw [hframe]
  generalize a.openFresh g up.epoch m fresh = b at *
  have hpaging := Alesh.sendTo_paging b g up.epoch xs page d
  have hnum := Alesh.sentPage_num b g page up xs n d
  simp only [Alesh.num_of_dict hdict] at hnum
  refine ⟨fun x hx => ?_, ?_, ?_, hnum _, ⟨fun k hk => ?_, fun k _ => ?_⟩, ?_⟩
  · obtain ⟨t, ht, hmatch⟩ := hopen x hx
    obtain ⟨v, hv, htv, hpage, hsend⟩ := Alesh.sendTo_sends hjob page d hx ht hmatch
    have hpay : b.payloadOf v d = a.payloadOf v d := by rw [Alesh.payloadOf, Alesh.num_of_dict hdict, Alesh.payloadOf]
    rw [hpay] at hpage hsend
    rw [Alesh.cresol_of_dict hdict] at hsend
    exact ⟨v, hv, (htv.matches_eq ..).trans hmatch, hpage, hsend.of_ports rfl⟩
  · rw [← hprogs, ← (show (b.sendTo g up.epoch xs page d).progs = b.progs by rw [hpaging.frame])]
    rfl
  · exact (hnum _).trans ((if_neg (by decide)).trans (if_pos rfl))
  · simp only [List.mem_cons, List.not_mem_nil, or_false, not_or] at hk
    exact (hnum k).trans ((if_neg (Ne.symm hk.2)).trans (if_neg (Ne.symm hk.1)))
  · exact Alesh.dom_of_dict (hpaging.dict.trans hdict) k
  · unfold Alesh.sentPage
    rw [hpaging.frame]
    generalize b.sendTo g up.epoch xs page d = r
    have hhealth : b.health = h := by rw [hframe]
    refine Eq.trans (hrest _ _ _ _) ?_
    simp only [Alesh.modProg, Alesh.wrapN_health, hhealth]

/-- The first clause of O31 (R164, R189). -/
theorem deltaSend_gives {s : State} {now g page : Nat} {up : Upd} {a a1 : Alesh} (ha : s.alesh.at now = a)
    (ha1 : a.freshPending g up.slot page = a1) (hj : a.inJob = true) (hu : a.unit uCoding = .running)
    (hup : (a.prog? g).bind (·.upd) = some up) {fresh : List Target}
    (hfresh : ((a.targets g).filter fun x => !a.coding.own.any fun t => t.matches g up.epoch x) = fresh)
    (hwritten : page ∈ a.writtenPages g up.epoch) (hnew : page ∉ up.sent) (hdone : (a.unitOf g page).1 ∉ up.todo)
    (hready : a.pageReady g page = true) (hgood : a1.pageGood g up.slot page = true) (hcoding : a1.coding = a.coding)
    (hroom : ∀ x ∈ fresh, a.holdRoom g x.node = true ∧ a.seqRoom x.node (fresh.filter fun y => y.node == x.node).length = true) :
    let d := a1.dataDelta g page up
    Gives (.deltaSend now g page) s fun b => ∃ c : Alesh, b = c.evalFence g ∧
      PageSent a1 c g page up (a.targets g) (deltaEncode (a.num O.DELTA_COMPRESS == 1) d).length d := by
  intro d
  subst ha1
  have hjob : (a.freshPending g up.slot page).inJob = true := by rw [Alesh.inJob, (Mending.freshPending ..).ctl]; exact hj
  refine gives_onCore (f := Alesh.deltaSend now g page) rfl ⟨_, ?_, Alesh.openFresh_pageSent hjob (e := up.epoch)
    (m := (a.writtenPages g up.epoch).length) ?_ (hcoding ▸ hfresh) rfl page _ d⟩
  · exact Alesh.deltaSend_of_guards ha hup hj hu hfresh hwritten hnew hdone hready hgood hroom
  · exact (List.length_pos_of_mem hwritten).ne'

/-- Settles O31: a page sent to every target, an acknowledgement that completes a fence, and a late one, each by its own lemma. -/
theorem ownersSendAndCommit : Obligations.OwnersSendAndCommit := by
  unfold Obligations.OwnersSendAndCommit
  refine ⟨fun s now g page up hj hu hup => ?_, fun s now m harr hpay hcodes => ?_, fun s now holder seq t hj hvalid => ?_⟩
  · intro a a1 d code fresh hwritten hnew hdone hready hgood hcoding hroom
    have hnow : (a.prog? g).bind (·.upd) = some up := by rw [Alesh.prog?, Alesh.at_progs]; exact hup
    obtain ⟨b, hexec, c, hb, hsent, hprogs, hraw, hcoded, hsame, hframe⟩ := deltaSend_gives (s := s) (now := now) rfl rfl
      ((Alesh.inJob_at now).trans hj) ((Alesh.unit_at now _).trans hu) hnow rfl hwritten hnew hdone hready hgood hcoding hroom
    refine ⟨b, hexec, c, hb, fun x hx => ?_, hprogs, hraw, hcoded, hsame, hframe⟩
    have hpay (t : OwnTx) : a1.payloadOf t d = code (gfScale (coef t.row t.col) d) := by
      rw [Alesh.payloadOf, (Mending.freshPending a g up.slot page).compress]
    obtain ⟨t, ht, hmatch, hpage, hsend⟩ := hsent x hx
    exact ⟨t, ht, hmatch, hpay t ▸ hpage, hpay t ▸ hsend⟩
  · intro a x mine t hadopt hlast hfind hown
    obtain ⟨hfolded, hheld⟩ := holdAckRx_gives (s := s) harr hpay hcodes rfl rfl hadopt hlast hfind hown
    refine ⟨hfolded, fun hst hwait hopen => ?_⟩
    obtain ⟨b, hexec, c, hb, hcoding, hframe, hcommit⟩ := hheld hst hwait hopen
    refine ⟨b, hexec, c, hb, hcoding, hframe, fun up hup hsound hsent hall => ?_⟩
    obtain ⟨hlive, hpend, hprog, hsends, hentry, hmem, hdict⟩ := hcommit up hup hsound hsent hall
    have hcdict : c.dict = a.dict := by rw [hframe]
    have hcdue : c.ackDue = a.ackDue := by rw [hframe]; rfl
    have hmem0 : c.mem0 = a.mem0 := by rw [hframe]
    have herrs : c.errs = a.errs := by rw [hframe]
    refine ⟨hlive, hpend, hprog, fun u hu hg he hcount hheld => ?_, fun hr x hx => ?_, fun k _ => ?_, fun k _ => ?_⟩
    · have hh : u.isHeldOf t.gsid up.epoch = true := OwnTx.isHeldOf_iff.2 ⟨hg, he, hcount, hheld⟩
      exact ⟨Alesh.cresol_of_dict hcdict .. ▸ hsends u hu hh, _, hentry u hu hh, by rw [hcdue]⟩
    · rw [← hmem0]
      exact hmem (herrs ▸ hr) x fun h => hx (h.of_dict hcdict)
    · exact Alesh.num_of_dict (hdict.trans hcdict) k
    · exact Alesh.dom_of_dict (hdict.trans hcdict) k
  · intro a hone hdue
    refine ackTimeout_gives (s := s) rfl ((Alesh.inJob_at now).trans hj) hone ?_
    have hvalid' : a.clock.valid = true := (Alesh.valid_at ..).trans hvalid
    rw [Alesh.due, hvalid', Bool.true_and]
    exact decide_eq_true hdue

end Sys2Proof.Machine
end

section
/-! SUPPORT. Units that enter FAULTED, and commands that are refused with STATE_CONFLICT (R353, R364, R365). -/
namespace Sys2Proof.Machine

/-- What two changes in turn leave alike, the later one first. -/
theorem SameBut.after {n1 d1 n2 d2 : List Nat} {a b c : Alesh} (hbc : SameBut n2 d2 b c) (hab : SameBut n1 d1 a b) :
    SameBut (n2 ++ n1) (d2 ++ d1) a c := by
  refine ⟨fun k hk => ?_, fun k hk => ?_⟩
  · rw [List.mem_append, not_or] at hk
    exact (hbc.1 k hk.1).trans (hab.1 k hk.2)
  · rw [List.mem_append, not_or] at hk
    exact (hbc.2 k hk.1).trans (hab.2 k hk.2)

/-! ### Units -/

theorem setAt_eq_set {α : Type} (l : List α) (i : Nat) (v : α) : setAt l i v = l.set i v := by
  induction l generalizing i with
  | nil => rfl
  | cons x r ih =>
    cases i with
    | zero => rfl
    | succ n => exact congrArg (x :: ·) (ih n)

/-- The units named, put into FAULTED one after another. -/
def Alesh.markFaulted (a : Alesh) (us : List Nat) : Alesh := us.foldl (fun b u => b.setUnit u .faulted) a

theorem Alesh.unit_setUnit {a : Alesh} {k : Nat} (hk : k < a.ctl.units.length) (u : Nat) (x : UState) :
    (a.setUnit u x).unit k = if u = k then x else a.unit k := by
  rw [Alesh.unit, Alesh.unit, Alesh.setUnit, setAt_eq_set, List.getD_eq_getElem?_getD, List.getElem?_set, List.getD_eq_getElem?_getD]
  by_cases hu : u = k
  · simp [hu, hk]
  · simp [hu]

theorem Alesh.markFaulted_frame (us : List Nat) (a : Alesh) :
    a.markFaulted us = { a with ctl := { a.ctl with units := (a.markFaulted us).ctl.units } } := by
  induction us generalizing a with
  | nil => rfl
  | cons u us ih => exact ih (a.setUnit u .faulted)

theorem Alesh.unit_markFaulted {k : Nat} (us : List Nat) {a : Alesh} (hk : k < a.ctl.units.length) :
    (a.markFaulted us).unit k = if k ∈ us then .faulted else a.unit k := by
  induction us generalizing a with
  | nil => rfl
  | cons u us ih =>
    have hlen : k < (a.setUnit u .faulted).ctl.units.length := by simpa [Alesh.setUnit, setAt_eq_set] using hk
    refine (ih hlen).trans ?_
    rw [Alesh.unit_setUnit hk]
    by_cases hu : u = k
    · simp [hu]
    · simp [hu, Ne.symm hu]

/-! ### Entry into FAULTED -/

/-- Units have entered FAULTED, with UNIT_FAULT and evt_fault, and nothing else has changed (R365). -/
def UnitsFault (a b : Alesh) (us : List Nat) : Prop :=
  (∀ u, u < 9 → b.unit u = if u ∈ us then .faulted else a.unit u) ∧
  (b.num O.CTRL_FLAGS).testBit 3 = true ∧ b.evts.pending.testBit 0 = true ∧ b.ctl = { a.ctl with units := b.ctl.units } ∧
  SameBut [O.CTRL_FLAGS] [] a b ∧ b = { a with ctl := b.ctl, dict := b.dict, evts := b.evts }

theorem Alesh.faultUnits_of_entry {a : Alesh} {us : List Nat} (h : ∃ u ∈ us, a.unit u ≠ .faulted) :
    a.faultUnits us = ((a.markFaulted us).ctrl fUnitFault).raiseFault := by
  have hany : (us.any fun u => a.unit u != .faulted) = true := by simpa using h
  rw [Alesh.faultUnits, if_pos hany]
  rfl

theorem Alesh.faultUnits_of_all {a : Alesh} {us : List Nat} (h : ¬ ∃ u ∈ us, a.unit u ≠ .faulted) : a.faultUnits us = a := by
  have hany : ¬ (us.any fun u => a.unit u != .faulted) = true := by simpa using h
  rw [Alesh.faultUnits, if_neg hany]

/-- Whether any unit enters FAULTED or none does, only CTRL_FLAGS of the dictionary can change. -/
theorem Alesh.faultUnits_sameBut (a : Alesh) (us : List Nat) : SameBut [O.CTRL_FLAGS] [] a (a.faultUnits us) := by
  by_cases h : ∃ u ∈ us, a.unit u ≠ .faulted
  · rw [Alesh.faultUnits_of_entry h, Alesh.markFaulted_frame]
    exact sameBut_setNum ..
  · rw [Alesh.faultUnits_of_all h]
    exact ⟨fun _ _ => rfl, fun _ _ => rfl⟩

theorem Alesh.faultUnits_frame (a : Alesh) (us : List Nat) :
    a.faultUnits us = { a with ctl := (a.faultUnits us).ctl, dict := (a.faultUnits us).dict, evts := (a.faultUnits us).evts } := by
  by_cases h : ∃ u ∈ us, a.unit u ≠ .faulted
  · rw [Alesh.faultUnits_of_entry h, Alesh.markFaulted_frame]
    rfl
  · rw [Alesh.faultUnits_of_all h]

@[simp] theorem Alesh.faultUnits_mem0 (a : Alesh) (us : List Nat) : (a.faultUnits us).mem0 = a.mem0 := by
  rw [Alesh.faultUnits_frame]

@[simp] theorem Alesh.faultUnits_mem1 (a : Alesh) (us : List Nat) : (a.faultUnits us).mem1 = a.mem1 := by
  rw [Alesh.faultUnits_frame]

theorem raiseFault_pending (a : Alesh) : a.raiseFault.evts.pending.testBit 0 = true := by
  have h : (2 ^ 0).testBit 0 = true := Nat.testBit_two_pow_self
  exact (Nat.testBit_or ..).trans (by rw [h, Bool.or_true])

theorem ctrl_unitFault_testBit (a : Alesh) : ((a.ctrl fUnitFault).num O.CTRL_FLAGS).testBit 3 = true := by
  rw [Alesh.ctrl, Alesh.num_flag, if_pos rfl, fUnitFault, Nat.testBit_or, Nat.testBit_two_pow_self, Bool.or_true]

theorem Alesh.faultUnits_unitsFault {a : Alesh} {us : List Nat} (hlen : a.ctl.units.length = 9)
    (h : ∃ u ∈ us, a.unit u ≠ .faulted) : UnitsFault a (a.faultUnits us) us := by
  refine ⟨fun u hu => ?_, ?_, ?_, ?_, a.faultUnits_sameBut us, a.faultUnits_frame us⟩
  · rw [Alesh.faultUnits_of_entry h]
    exact Alesh.unit_markFaulted us (hlen ▸ hu)
  · rw [Alesh.faultUnits_of_entry h]
    exact ctrl_unitFault_testBit _
  · rw [Alesh.faultUnits_of_entry h]
    exact raiseFault_pending _
  · rw [Alesh.faultUnits_of_entry h, Alesh.markFaulted_frame]
    rfl

/-! ### Commands as their path takes them -/

theorem taken_ctl (a : Alesh) (via : Via) : (a.taken via).ctl = a.ctl := by rw [taken_frame]

theorem taken_idleToJob (a : Alesh) (via : Via) : (a.taken via).idleToJob = a.idleToJob := by rw [taken_frame]; rfl

theorem taken_sameBut (a : Alesh) (via : Via) : SameBut [O.DICT_INBAND_COUNT] [] a (a.taken via) :=
  ⟨fun k hk => taken_num a via k (by simpa using hk), fun k _ => taken_dom a via k⟩

theorem refuse_stateConflict_sameBut (a : Alesh) (via : Via) (key : Nat) :
    SameBut [O.STATE_CONFLICT_COUNT, O.CTRL_FLAGS] [O.LAST_REFUSED] a (a.refuse via key .stateConflict) := by
  refine ⟨fun k hk => ?_, fun k hk => ?_⟩
  · simp only [List.mem_cons, List.not_mem_nil, or_false, not_or] at hk
    exact (Alesh.num_count ..).trans ((if_neg (Ne.symm hk.1)).trans ((Alesh.num_flag ..).trans (if_neg (Ne.symm hk.2))))
  · exact (Alesh.dom_setDom ..).trans (if_neg (by simpa [eq_comm] using hk))

/-- A command refused with STATE_CONFLICT leaves the control unit's state, and of the dictionary all but what notes the refusal. -/
theorem ends_of_stateConflict {c : Instr} {s : State} {via : Via} {key : Nat} {wide : Bool} {f : Alesh → Res × Alesh}
    (hc : exec c s = command via key wide f s) (ha : Admits s.alesh via)
    (hf : f (s.alesh.taken via) = (.stateConflict, s.alesh.taken via)) {p : Alesh → Prop}
    (hp : ∀ b, b.ctl = s.alesh.ctl →
      SameBut [O.STATE_CONFLICT_COUNT, O.CTRL_FLAGS, O.DICT_INBAND_COUNT] [O.LAST_REFUSED] s.alesh b → p b) :
    Ends c s via key wide .stateConflict p := by
  refine ends_of_refused hc ha hf (by decide) (by decide) fun b hb => hp b ?_ ?_
  · rw [hb]
    exact (Alesh.refuse_ctl ..).trans (taken_ctl ..)
  · exact ((refuse_stateConflict_sameBut ..).after (taken_sameBut ..)).of_dict (by rw [hb])

end Sys2Proof.Machine
end

section
/-! SUPPORT. Tiles retired and columns that fail (R59, R62, R120, R121). -/
namespace Sys2Proof.Machine

theorem testBit_sub_two_pow_self {m i : Nat} (h : m.testBit i = true) : (m - 2 ^ i).testBit i = false := by
  have hflip := Nat.testBit_two_pow_add_eq (m - 2 ^ i) i
  rw [Nat.add_sub_cancel' (Nat.ge_two_pow_of_testBit h), h] at hflip
  simpa using hflip.symm

/-! ### Tiles -/

section
variable (a : Alesh) (map : Nat)

theorem Alesh.setTiles_map : (a.setTiles map).num O.TILE_ACTIVE_MAP = map :=
  (Alesh.num_setNum_ne _ _ (by decide)).trans (Alesh.num_setNum_same ..)

theorem Alesh.setTiles_count : (a.setTiles map).num O.TILE_ACTIVE_COUNT = ((List.range 34).filter fun i => map.testBit i).length :=
  Alesh.num_setNum_same ..

theorem Alesh.setTiles_sameBut : SameBut [O.TILE_ACTIVE_MAP, O.TILE_ACTIVE_COUNT] [] a (a.setTiles map) := by
  refine ⟨fun k hk => ?_, fun _ _ => rfl⟩
  simp only [List.mem_cons, List.not_mem_nil, or_false, not_or] at hk
  exact (Alesh.num_setNum_ne _ _ (Ne.symm hk.2)).trans (Alesh.num_setNum_ne _ _ (Ne.symm hk.1))

end

/-- The updates under way, each without the tile: the checks that it had begun start again (R62, R345). -/
def Alesh.redealt (a : Alesh) (t : Nat) : Alesh :=
  { a with progs := a.progs.map fun p => { p with upd := p.upd.map fun u => u.tileGone t } }

/-- Where a spare takes the tile's place and 16 tiles stay active, no unit becomes FAULTED. -/
theorem Alesh.retireTile_of_spare {a : Alesh} {t sp : Nat} {r : List Nat} (hgood : tileGood a t = true) (hsp : a.ctl.spares = sp :: r)
    (hcount : 16 ≤ ((List.range 34).filter fun i => (a.num O.TILE_ACTIVE_MAP - 2 ^ t + 2 ^ sp).testBit i).length) :
    a.retireTile t =
      (({ a with ctl := { a.ctl with spares := r } } : Alesh).setTiles (a.num O.TILE_ACTIVE_MAP - 2 ^ t + 2 ^ sp)).redealt t := by
  unfold Alesh.retireTile
  rw [if_pos hgood]
  simp only [hsp]
  refine if_neg (Nat.not_lt.2 ?_)
  exact hcount.trans_eq (Alesh.setTiles_count ..).symm

theorem Alesh.retireTile_of_no_spare {a : Alesh} {t : Nat} (hgood : tileGood a t = true) (hsp : a.ctl.spares = []) :
    a.retireTile t =
      let c := (a.setTiles (a.num O.TILE_ACTIVE_MAP - 2 ^ t)).redealt t
      if c.num O.TILE_ACTIVE_COUNT < 16 then c.faultUnits [uUpdate] else c := by
  unfold Alesh.retireTile
  rw [if_pos hgood]
  simp only [hsp]
  rfl

theorem Alesh.retireTile_map_of_no_spare {a : Alesh} {t : Nat} (hgood : tileGood a t = true) (hsp : a.ctl.spares = []) :
    (a.retireTile t).num O.TILE_ACTIVE_MAP = a.num O.TILE_ACTIVE_MAP - 2 ^ t := by
  have hmap := a.setTiles_map (a.num O.TILE_ACTIVE_MAP - 2 ^ t)
  rw [Alesh.retireTile_of_no_spare hgood hsp]
  dsimp only
  split
  · exact ((Alesh.faultUnits_sameBut ..).1 _ (by decide)).trans hmap
  · exact hmap

theorem Alesh.retireTile_mem (a : Alesh) (t : Nat) : (a.retireTile t).mem0 = a.mem0 ∧ (a.retireTile t).mem1 = a.mem1 := by
  unfold Alesh.retireTile
  split
  · cases a.ctl.spares with
    | nil => dsimp only; split <;> simp [Alesh.setTiles]
    | cons sp r => dsimp only; split <;> simp [Alesh.setTiles]
  · exact ⟨rfl, rfl⟩

/-! ### Columns -/

theorem colGood_of_sameBut {nums doms : List Nat} {a b : Alesh} (h : SameBut nums doms a b) (hcol : O.PC_COL_GOOD ∉ nums)
    (hspare : O.PC_SPARE_GOOD ∉ nums) (c : Nat) : colGood b c = colGood a c := by
  rw [colGood, colGood, h.1 _ hcol, h.1 _ hspare]

theorem widthWithout_singleton (a : Alesh) (c : Nat) :
    widthWithout a [c] = min 64 ((List.range 66).filter fun i => colGood a i && i != c).length := by
  have hin (i : Nat) : [c].contains i = (i == c) := by rw [Bool.eq_iff_iff]; simp
  simp only [widthWithout, hin, bne]

/-- A column that fails is gone from the good ones as one that INIT finds bad, and a width too low makes the preconditioner FAULTED. -/
theorem Alesh.failColumn_of_good {a : Alesh} {c : Nat} (h : colGood a c = true) :
    a.failColumn c = if widthWithout a [c] < (a.initColumn c).num O.PC_MIN_WIDTH then (a.initColumn c).faultUnits [uPrecond]
      else a.initColumn c := by
  unfold Alesh.failColumn Alesh.initColumn
  simp only [if_pos h]

section
variable {a : Alesh} {c : Nat}

theorem Alesh.initColumn_frame : a.initColumn c = { a with dict := (a.initColumn c).dict } := by
  unfold Alesh.initColumn
  split
  · dsimp only; split <;> rfl
  · rfl

theorem Alesh.initColumn_sameBut : SameBut [O.PC_COL_GOOD, O.PC_SPARE_GOOD, O.PC_WIDTH] [] a (a.initColumn c) := by
  refine ⟨fun k hk => ?_, fun k _ => ?_⟩
  · simp only [List.mem_cons, List.not_mem_nil, or_false, not_or] at hk
    obtain ⟨hcol, hspare, hwidth⟩ := hk
    unfold Alesh.initColumn
    split
    · refine (Alesh.num_setNum_ne _ _ (Ne.symm hwidth)).trans ?_
      split
      · exact Alesh.num_setNum_ne _ _ (Ne.symm hcol)
      · exact Alesh.num_setNum_ne _ _ (Ne.symm hspare)
    · rfl
  · unfold Alesh.initColumn
    split
    · dsimp only; split <;> rfl
    · rfl

theorem Alesh.initColumn_width (h : colGood a c = true) : (a.initColumn c).num O.PC_WIDTH = widthWithout a [c] := by
  unfold Alesh.initColumn
  rw [if_pos h]
  exact Alesh.num_setNum_same ..

theorem Alesh.initColumn_colGood (h : colGood a c = true) : colGood (a.initColumn c) c = false := by
  have hset (b : Alesh) (w : Nat) : colGood (b.setNum O.PC_WIDTH w) c = colGood b c :=
    colGood_of_sameBut (sameBut_setNum ..) (by decide) (by decide) c
  unfold Alesh.initColumn
  rw [if_pos h]
  refine (hset ..).trans ?_
  unfold colGood at h ⊢
  split
  · next hc =>
    rw [if_pos hc] at h
    rw [Alesh.num_setNum_same]
    exact testBit_sub_two_pow_self h
  · next hc =>
    rw [if_neg hc] at h
    split
    · next hc' =>
      rw [if_pos hc'] at h
      rw [Alesh.num_setNum_same]
      exact testBit_sub_two_pow_self h
    · rfl

end

theorem Alesh.failColumn_of_width {a : Alesh} {c : Nat} (h : colGood a c = true) (hw : a.num O.PC_MIN_WIDTH ≤ widthWithout a [c]) :
    a.failColumn c = a.initColumn c := by
  rw [Alesh.failColumn_of_good h, Alesh.initColumn_sameBut.1 _ (by decide), if_neg (Nat.not_lt.2 hw)]

theorem Alesh.failColumn_colGood {a : Alesh} {c : Nat} (h : colGood a c = true) : colGood (a.failColumn c) c = false := by
  rw [Alesh.failColumn_of_good h]
  split
  · exact (colGood_of_sameBut (Alesh.faultUnits_sameBut ..) (by decide) (by decide) c).trans (Alesh.initColumn_colGood h)
  · exact Alesh.initColumn_colGood h

theorem Alesh.failColumn_mem (a : Alesh) (c : Nat) : (a.failColumn c).mem0 = a.mem0 ∧ (a.failColumn c).mem1 = a.mem1 := by
  have hinit : (a.initColumn c).mem0 = a.mem0 ∧ (a.initColumn c).mem1 = a.mem1 := by rw [Alesh.initColumn_frame]; exact ⟨rfl, rfl⟩
  by_cases h : colGood a c = true
  · rw [Alesh.failColumn_of_good h]
    split
    · rwa [Alesh.faultUnits_mem0, Alesh.faultUnits_mem1]
    · exact hinit
  · rw [Alesh.failColumn, if_neg h]
    exact ⟨rfl, rfl⟩

end Sys2Proof.Machine
end

section
/-! SUPPORT. Commands that retire tiles and columns, and uncorrectable errors of SRAM (R62, R121, R365, R384, R403). -/
namespace Sys2Proof.Machine

/-! ### TILE_RETIRE -/

theorem tileRetire_of_good {a : Alesh} {t : Nat} (hjob : a.idleToJob = true) (ht : t ≤ 33) (hgood : tileGood a t = true)
    (hsp : a.ctl.spares ≠ []) : tileRetire t a = (.ok, a.retireTile t) := by
  have hspare : a.ctl.spares.isEmpty = false := by simpa using hsp
  rw [tileRetire, require_pos (by simp [hjob, hspare]), require_pos (by simp [ht, hgood])]

theorem tileRetire_of_few {a : Alesh} {t : Nat} (hgood : tileGood a t = true) (hsp : a.ctl.spares = [])
    (hcount : a.num O.TILE_ACTIVE_COUNT ≤ 16) : tileRetire t a = (.stateConflict, a) := by
  rw [tileRetire, require_neg (by simp [hgood, hsp, hcount])]

section
variable {s : State} {via : Via} {t : Nat} (hadm : Admits s.alesh via) (hgood : (s.alesh.num O.TILE_ACTIVE_MAP).testBit t = true)
include hadm hgood

theorem tileRetire_takes_spare (hjob : s.alesh.idleToJob = true) (ht : t ≤ 33) {sp : Nat} {r : List Nat}
    (hsp : s.alesh.ctl.spares = sp :: r)
    (hcount : 16 ≤ ((List.range 34).filter fun i => (s.alesh.num O.TILE_ACTIVE_MAP - 2 ^ t + 2 ^ sp).testBit i).length) :
    Ends (.tileRetire via t) s via O.TILE_RETIRE false .ok fun b =>
      b.num O.TILE_ACTIVE_MAP = s.alesh.num O.TILE_ACTIVE_MAP - 2 ^ t + 2 ^ sp ∧ b.ctl = { s.alesh.ctl with spares := r } ∧
      SameBut [O.TILE_ACTIVE_MAP, O.TILE_ACTIVE_COUNT, O.DICT_INBAND_COUNT] [] s.alesh b ∧
      b = { s.alesh with ctl := b.ctl, progs := b.progs, dict := b.dict, win := b.win, mgmt := b.mgmt, ports := b.ports } := by
  have hmap : (s.alesh.taken via).num O.TILE_ACTIVE_MAP = s.alesh.num O.TILE_ACTIVE_MAP := taken_num _ _ _ (by decide)
  have hspare : (s.alesh.taken via).ctl.spares = sp :: r := (congrArg Ctl.spares (taken_ctl ..)).trans hsp
  have hactive : tileGood (s.alesh.taken via) t = true := by rwa [tileGood, hmap]
  refine ends_of_ok rfl hadm (tileRetire_of_good ((taken_idleToJob ..).trans hjob) ht hactive (by simp [hspare])) fun b hb => ?_
  rw [Alesh.retireTile_of_spare hactive hspare (by rwa [hmap]), hmap] at hb
  have hsame := (Alesh.setTiles_sameBut ({ s.alesh.taken via with ctl := { (s.alesh.taken via).ctl with spares := r } } : Alesh)
    (s.alesh.num O.TILE_ACTIVE_MAP - 2 ^ t + 2 ^ sp)).after (taken_sameBut s.alesh via)
  refine ⟨(hb.num _).trans (Alesh.setTiles_map ..), ?_, hsame.of_dict (by rw [hb]; rfl), ?_⟩
  · rw [hb, taken_frame]; rfl
  · rw [hb, taken_frame]; rfl

theorem tileRetire_refused (hsp : s.alesh.ctl.spares = []) (hcount : s.alesh.num O.TILE_ACTIVE_COUNT ≤ 16) :
    Ends (.tileRetire via t) s via O.TILE_RETIRE false .stateConflict fun b =>
      b.num O.TILE_ACTIVE_MAP = s.alesh.num O.TILE_ACTIVE_MAP ∧ b.ctl = s.alesh.ctl := by
  have hnum := (taken_sameBut s.alesh via).1
  refine ends_of_stateConflict rfl hadm (tileRetire_of_few ?_ ((congrArg Ctl.spares (taken_ctl ..)).trans hsp) ?_)
    fun b hctl hsame => ⟨hsame.1 _ (by decide), hctl⟩
  · rwa [tileGood, hnum _ (by decide)]
  · rwa [hnum _ (by decide)]

end

/-! ### PC_COL_RETIRE -/

theorem pcColRetire_of_width {a : Alesh} {c : Nat} (hjob : a.idleToJob = true) (hgood : colGood a c = true)
    (hw : a.num O.PC_MIN_WIDTH ≤ widthWithout a [c]) : pcColRetire c a = (.ok, a.initColumn c) := by
  rw [pcColRetire, require_pos (by simp [hjob, hw]), require_pos hgood, Alesh.failColumn_of_width hgood hw]

theorem pcColRetire_of_narrow {a : Alesh} {c : Nat} (hgood : colGood a c = true)
    (hw : widthWithout a [c] < a.num O.PC_MIN_WIDTH) : pcColRetire c a = (.stateConflict, a) := by
  rw [pcColRetire, require_neg (by simp [hgood, hw])]

theorem taken_colGood (a : Alesh) (via : Via) (c : Nat) : colGood (a.taken via) c = colGood a c :=
  colGood_of_sameBut (taken_sameBut ..) (by decide) (by decide) c

theorem taken_widthWithout (a : Alesh) (via : Via) (cs : List Nat) : widthWithout (a.taken via) cs = widthWithout a cs := by
  simp only [widthWithout, taken_colGood]

section
variable {s : State} {via : Via} {c : Nat} (hadm : Admits s.alesh via) (hgood : colGood s.alesh c = true)
include hadm hgood

theorem pcColRetire_retires (hjob : s.alesh.idleToJob = true) (hw : s.alesh.num O.PC_MIN_WIDTH ≤ widthWithout s.alesh [c]) :
    Ends (.pcColRetire via c) s via O.PC_COL_RETIRE false .ok fun b =>
      b.num O.PC_WIDTH = widthWithout s.alesh [c] ∧ colGood b c = false ∧ b.ctl = s.alesh.ctl ∧
      SameBut [O.PC_COL_GOOD, O.PC_SPARE_GOOD, O.PC_WIDTH, O.DICT_INBAND_COUNT] [] s.alesh b ∧
      b = { s.alesh with dict := b.dict, win := b.win, mgmt := b.mgmt, ports := b.ports } := by
  have hcol : colGood (s.alesh.taken via) c = true := (taken_colGood ..).trans hgood
  have hwide : (s.alesh.taken via).num O.PC_MIN_WIDTH ≤ widthWithout (s.alesh.taken via) [c] := by
    rwa [taken_widthWithout, taken_num _ _ _ (by decide)]
  refine ends_of_ok rfl hadm (pcColRetire_of_width ((taken_idleToJob ..).trans hjob) hcol hwide) fun b hb => ?_
  have hsame := (Alesh.initColumn_sameBut (a := s.alesh.taken via) (c := c)).after (taken_sameBut s.alesh via)
  refine ⟨?_, ?_, ?_, hsame.of_dict (by rw [hb]), ?_⟩
  · rw [hb.num, Alesh.initColumn_width hcol, taken_widthWithout]
  · rw [colGood, hb.num, hb.num]
    exact Alesh.initColumn_colGood hcol
  · rw [hb, Alesh.initColumn_frame, taken_frame]
  · rw [hb, Alesh.initColumn_frame, taken_frame]

theorem pcColRetire_refused (hw : widthWithout s.alesh [c] < s.alesh.num O.PC_MIN_WIDTH) :
    Ends (.pcColRetire via c) s via O.PC_COL_RETIRE false .stateConflict fun b =>
      colGood b c = true ∧ b.num O.PC_WIDTH = s.alesh.num O.PC_WIDTH := by
  refine ends_of_stateConflict rfl hadm (pcColRetire_of_narrow ((taken_colGood ..).trans hgood) ?_) fun b _ hsame =>
    ⟨(colGood_of_sameBut hsame (by decide) (by decide) c).trans hgood, hsame.1 _ (by decide)⟩
  rwa [taken_widthWithout, taken_num _ _ _ (by decide)]

end

/-! ### Uncorrectable errors of SRAM -/

/-- A place that holds no word makes no ECC check (R384). -/
theorem Alesh.sramError_of_unwritten {a : Alesh} {p : SramPlace} (h : a.ctl.sramValid.contains p = false) : a.sramError p = a := by
  unfold Alesh.sramError
  rw [h, Bool.not_false, Bool.or_true, if_pos rfl]

/-- What an error does where words were written, by the place (R403). -/
def Alesh.placeFails (a : Alesh) : SramPlace → Alesh
  | .tile t => a.retireTile t
  | .column c => a.failColumn c
  | .control => a.faultAll
  | .unit u => a.faultUnits [u]

theorem Alesh.sramError_of_written {a : Alesh} {p : SramPlace} (hcore : a.ctl.core ≠ .reset) (h : a.ctl.sramValid.contains p = true) :
    a.sramError p = a.placeFails p := by
  have hup : (a.ctl.core == CoreState.reset) = false := by simpa using hcore
  unfold Alesh.sramError
  rw [h, hup, Bool.not_true, Bool.or_false, if_neg Bool.false_ne_true]
  cases p <;> rfl

theorem Alesh.placeFails_mem (a : Alesh) (p : SramPlace) : (a.placeFails p).mem0 = a.mem0 ∧ (a.placeFails p).mem1 = a.mem1 := by
  cases p with
  | tile t => exact a.retireTile_mem t
  | column c => exact a.failColumn_mem c
  | control => exact ⟨a.faultUnits_mem0 _, a.faultUnits_mem1 _⟩
  | unit u => exact ⟨a.faultUnits_mem0 _, a.faultUnits_mem1 _⟩

/-- Settles O8: each command with its guards met or not, and an SRAM error by the place where it lies. -/
theorem sparesAndSramErrors : Obligations.SparesAndSramErrors := by
  unfold Obligations.SparesAndSramErrors
  refine ⟨⟨fun s via t hadm hjob ht hgood => ⟨fun sp r hsp _ _ _ hcount => ?_, fun hsp hcount => ?_⟩,
    fun s via c hadm hjob hgood => ?_⟩, fun s p hclear => ?_, fun s p hcore hlen hvalid => ?_⟩
  · exact tileRetire_takes_spare hadm hgood hjob ht hsp hcount
  · exact tileRetire_refused hadm hgood hsp hcount
  · rw [← widthWithout_singleton]
    exact ⟨pcColRetire_retires hadm hgood hjob, pcColRetire_refused hadm hgood⟩
  · exact gives_onCore (f := Alesh.sramError p) rfl (Alesh.sramError_of_unwritten hclear)
  · refine gives_onCore (f := Alesh.sramError p) rfl ?_
    rw [Alesh.sramError_of_written hcore hvalid]
    refine ⟨?_, ?_, ?_, ?_, Alesh.placeFails_mem _ _⟩
    · rintro rfl ⟨u, hu, hentry⟩
      exact Alesh.faultUnits_unitsFault hlen ⟨u, List.mem_range.2 hu, hentry⟩
    · rintro u rfl - hentry
      exact Alesh.faultUnits_unitsFault hlen ⟨u, List.mem_singleton_self u, hentry⟩
    · rintro t rfl hgood - hsp
      exact Alesh.retireTile_map_of_no_spare hgood hsp
    · rintro c rfl hgood
      exact Alesh.failColumn_colGood hgood

end Sys2Proof.Machine
end

section
/-! SUPPORT. Packed fields and little-endian integers read back (R3, R9). -/
namespace Sys2Proof.Machine

/-- Fields listed from the highest down, without overlap and below bit `top`. -/
def fieldsDescend : Nat → List (Nat × Nat × Nat) → Bool
  | _, [] => true
  | top, (lo, w, _) :: r => decide (lo + w ≤ top) && fieldsDescend lo r

theorem fieldsDescend_cons {top lo w v : Nat} {r : List (Nat × Nat × Nat)} :
    fieldsDescend top ((lo, w, v) :: r) = true ↔ lo + w ≤ top ∧ fieldsDescend lo r = true := by
  rw [fieldsDescend, Bool.and_eq_true, decide_eq_true_iff]

theorem fieldsDescend_end {top : Nat} {l : List (Nat × Nat × Nat)} (h : fieldsDescend top l = true) : ∀ f ∈ l, f.1 + f.2.1 ≤ top := by
  induction l generalizing top with
  | nil => exact fun f hf => absurd hf List.not_mem_nil
  | cons x r ih =>
    obtain ⟨hx, hr⟩ := fieldsDescend_cons.1 h
    exact List.forall_mem_cons.2 ⟨hx, fun f hf => (ih hr f hf).trans ((Nat.le_add_right ..).trans hx)⟩

theorem packBits_lt {top : Nat} {l : List (Nat × Nat × Nat)} (h : fieldsDescend top l = true) : packBits l < 2 ^ top := by
  induction l generalizing top with
  | nil => exact Nat.two_pow_pos top
  | cons x r ih =>
    obtain ⟨lo, w, v⟩ := x
    obtain ⟨hx, hr⟩ := fieldsDescend_cons.1 h
    have hrest : packBits r < 2 ^ lo := ih hr
    have hv : v % 2 ^ w < 2 ^ w := Nat.mod_lt _ (Nat.two_pow_pos w)
    calc v % 2 ^ w * 2 ^ lo + packBits r < (v % 2 ^ w + 1) * 2 ^ lo := by rw [Nat.succ_mul]; omega
      _ ≤ 2 ^ w * 2 ^ lo := Nat.mul_le_mul_right _ hv
      _ = 2 ^ (lo + w) := by rw [Nat.pow_add, Nat.mul_comm]
      _ ≤ 2 ^ top := Nat.pow_le_pow_right (by decide) hx

theorem bf_head {lo w v rest : Nat} (h : rest < 2 ^ lo) : bf (v % 2 ^ w * 2 ^ lo + rest) lo w = v % 2 ^ w := by
  rw [bf, Nat.mul_comm, Nat.mul_add_div (Nat.two_pow_pos lo), Nat.div_eq_of_lt h, Nat.add_zero, Nat.mod_mod]

/-- What stands from bit `hi` up does not reach a field that ends there or below. -/
theorem bf_below {lo w hi : Nat} (h : lo + w ≤ hi) (v rest : Nat) : bf (v * 2 ^ hi + rest) lo w = bf rest lo w := by
  obtain ⟨k, rfl⟩ := Nat.exists_eq_add_of_le h
  have hsplit : v * 2 ^ (lo + w + k) + rest = 2 ^ lo * (2 ^ w * (v * 2 ^ k)) + rest := by rw [Nat.pow_add, Nat.pow_add]; ring
  rw [bf, hsplit, Nat.mul_add_div (Nat.two_pow_pos lo), Nat.mul_add_mod, bf]

/-- Every packed field reads back, at each value that its width admits. -/
theorem bf_packBits {x top : Nat} {l : List (Nat × Nat × Nat)} (hx : x = packBits l) (h : fieldsDescend top l = true) :
    ∀ f ∈ l, f.2.2 < 2 ^ f.2.1 → bf x f.1 f.2.1 = f.2.2 := by
  subst hx
  induction l generalizing top with
  | nil => exact fun f hf => absurd hf List.not_mem_nil
  | cons x r ih =>
    obtain ⟨lo, w, v⟩ := x
    obtain ⟨-, hr⟩ := fieldsDescend_cons.1 h
    intro f hf hlt
    rcases List.mem_cons.1 hf with rfl | hmem
    · exact (bf_head (packBits_lt hr)).trans (Nat.mod_eq_of_lt hlt)
    · exact (bf_below (fieldsDescend_end hr f hmem) ..).trans (ih hr f hmem hlt)

theorem leBytes_length (n x : Nat) : (leBytes n x).length = n := by
  induction n generalizing x with
  | zero => rfl
  | succ n ih => rw [leBytes, List.length_cons, ih]

theorem leNat_leBytes (n x : Nat) : leNat (leBytes n x) = x % 2 ^ (8 * n) := by
  induction n generalizing x with
  | zero => rw [leBytes, leNat, Nat.mul_zero, Nat.pow_zero, Nat.mod_one]
  | succ n ih =>
    have hpow : 2 ^ (8 * (n + 1)) = 256 * 2 ^ (8 * n) := by rw [Nat.mul_succ, Nat.add_comm, Nat.pow_add]
    rw [hpow, Nat.mod_mul, leBytes, leNat, ih, BitVec.toNat_ofNat]

theorem leAt_leBytes_append {n x : Nat} (h : x < 2 ^ (8 * n)) (y : Bytes) : leAt (leBytes n x ++ y) 0 n = x := by
  have hlen := leBytes_length n x
  have hslice : slice (leBytes n x) 0 n = leBytes n x := by
    simp only [slice, List.drop_zero, List.take_of_length_le hlen.le, hlen, Nat.sub_self, List.replicate_zero, List.append_nil]
  rw [leAt, slice_left _ _ _ _ (by omega), hslice, leNat_leBytes, Nat.mod_eq_of_lt h]

theorem drop_leBytes_append (n x : Nat) (y : Bytes) : (leBytes n x ++ y).drop n = y :=
  List.drop_left' (leBytes_length n x)

theorem flatten_chunks {α : Type} {n fuel : Nat} {l : List α} (h : l.length ≤ n * fuel) : (chunks n fuel l).flatten = l := by
  induction fuel generalizing l with
  | zero => rw [chunks, List.length_eq_zero_iff.1 (Nat.le_zero.1 h), List.flatten_nil]
  | succ fuel ih =>
    rw [chunks]
    split
    next he => rw [List.isEmpty_iff.1 he, List.flatten_nil]
    next =>
      rw [List.flatten_cons, ih (by rw [List.length_drop]; rw [Nat.mul_succ] at h; omega), List.take_append_drop]

/-- A list of `n * count` elements is cut into `count` whole pieces. -/
theorem chunks_whole {α : Type} {n count : Nat} {l : List α} (hn : 0 < n) (h : l.length = n * count) :
    (chunks n count l).length = count ∧ ∀ c ∈ chunks n count l, c.length = n := by
  induction count generalizing l with
  | zero => exact ⟨rfl, fun c hc => absurd hc List.not_mem_nil⟩
  | succ count ih =>
    rw [Nat.mul_succ] at h
    have hne : l.isEmpty = false := by rw [List.isEmpty_eq_false_iff]; rintro rfl; simp at h; omega
    obtain ⟨hcount, hwhole⟩ := ih (l := l.drop n) (by rw [List.length_drop]; omega)
    rw [chunks, hne, if_neg Bool.false_ne_true, List.length_cons, hcount]
    exact ⟨rfl, List.forall_mem_cons.2 ⟨List.length_take_of_le (by omega), hwhole⟩⟩

end Sys2Proof.Machine
end

section
/-! SUPPORT. The delta compressor, and the headers of packets (R103 to R106, R182 to R184, R257, R308). -/
namespace Sys2Proof.Machine

/-! ### Occupancy words -/

theorem occupancy_eq_mul (i : Nat) (b : Bytes) : occupancy i b = 2 ^ i * occupancy 0 b := by
  induction b generalizing i with
  | nil => rfl
  | cons x r ih => rw [occupancy, occupancy, ih (i + 1), ih (0 + 1)]; split <;> ring

theorem occupancy_cons (x : Byte) (r : Bytes) : occupancy 0 (x :: r) = Nat.bit (x != 0) (occupancy 0 r) := by
  rw [occupancy, occupancy_eq_mul, Nat.bit_val]
  by_cases hx : x = 0
  · simp [hx]
  · rw [if_neg hx, bne_iff_ne.2 hx, Bool.toNat_true, Nat.pow_zero, Nat.zero_add, Nat.pow_one, Nat.add_comm]

/-- Bit j marks whether byte j is not zero. -/
theorem testBit_occupancy (b : Bytes) (j : Nat) : (occupancy 0 b).testBit j = (b.getD j 0 != 0) := by
  induction b generalizing j with
  | nil => simp [occupancy]
  | cons x r ih =>
    rw [occupancy_cons]
    cases j with
    | zero => exact Nat.testBit_bit_zero ..
    | succ j => rw [Nat.testBit_bit_succ, ih, List.getD_cons_succ]

theorem occupancy_lt (b : Bytes) : occupancy 0 b < 2 ^ b.length :=
  Nat.lt_pow_two_of_testBit _ fun j hj => by rw [testBit_occupancy, List.getD_eq_default _ _ hj]; rfl

theorem nonZeroBytes_cons (x : Byte) (r : Bytes) : nonZeroBytes (x :: r) = if x != 0 then x :: nonZeroBytes r else nonZeroBytes r :=
  List.filter_cons

/-- An occupancy word counts the bytes that follow it. -/
theorem countP_testBit_occupancy (b : Bytes) :
    ((List.range b.length).countP fun j => (occupancy 0 b).testBit j) = (nonZeroBytes b).length := by
  induction b with
  | nil => rfl
  | cons x r ih =>
    have htail : ((fun j => (occupancy 0 (x :: r)).testBit j) ∘ Nat.succ) = fun j => (occupancy 0 r).testBit j :=
      funext fun j => by rw [Function.comp, occupancy_cons, Nat.testBit_bit_succ]
    rw [List.length_cons, List.range_succ_eq_map, List.countP_cons, List.countP_map, htail, ih, occupancy_cons, Nat.testBit_bit_zero,
      nonZeroBytes_cons]
    split <;> rfl

theorem occupancy_ne_zero {b : Bytes} (h : nonZeroBytes b ≠ []) : occupancy 0 b ≠ 0 := fun hz =>
  h (List.length_eq_zero_iff.1 (by rw [← countP_testBit_occupancy, hz]; simp))

theorem eq_zeros_of_nonZeroBytes {b : Bytes} (h : nonZeroBytes b = []) : b = List.replicate b.length 0 :=
  List.eq_replicate_iff.2 ⟨rfl, fun x hx => by simpa using List.filter_eq_nil_iff.1 h x hx⟩

/-- The non-zero bytes of a block, spread to the places that are marked, give the block. -/
theorem spread_nonZeroBytes {occ i : Nat} {b : Bytes} (h : ∀ j, j < b.length → occ.testBit (i + j) = (b.getD j 0 != 0)) :
    spread occ b.length i (nonZeroBytes b) = b := by
  induction b generalizing i with
  | nil => rfl
  | cons x r ih =>
    have hhead : occ.testBit i = (x != 0) := h 0 (Nat.succ_pos _)
    have htail : spread occ r.length (i + 1) (nonZeroBytes r) = r := ih fun j hj => by
      rw [Nat.add_assoc, Nat.add_comm 1]; exact h (j + 1) (Nat.succ_lt_succ hj)
    rw [List.length_cons, spread, hhead, nonZeroBytes_cons]
    cases hx : x != 0 with
    | false => rw [if_neg Bool.false_ne_true, if_neg Bool.false_ne_true, htail, bne_eq_false_iff_eq.1 hx]
    | true => rw [if_pos rfl, if_pos rfl, List.headD_cons, List.tail_cons, htail]

theorem spread_length (occ n i : Nat) (b : Bytes) : (spread occ n i b).length = n := by
  induction n generalizing i b with
  | zero => rfl
  | succ n ih => rw [spread]; split <;> rw [List.length_cons, ih]

/-! ### SPARSE payloads -/

/-- The code of one block: nothing where all its bytes are zero. -/
def blockCode (b : Bytes) : Bytes := if (nonZeroBytes b).isEmpty then [] else leBytes 8 (occupancy 0 b) ++ nonZeroBytes b

/-- The block map of a page. -/
def blockMap (bl : List Bytes) : Nat := occupancy 0 (bl.map fun b => if (nonZeroBytes b).isEmpty then 0 else 1)

theorem sparsePayload_eq (d : Bytes) :
    sparsePayload d = leBytes 128 (blockMap (pageBlocks d)) ++ (pageBlocks d).flatMap blockCode := rfl

theorem testBit_blockMap {bl : List Bytes} {j : Nat} (h : j < bl.length) : (blockMap bl).testBit j = !(nonZeroBytes bl[j]).isEmpty := by
  rw [blockMap, testBit_occupancy, List.getD_eq_getElem _ _ (by rwa [List.length_map]), List.getElem_map]
  cases (nonZeroBytes bl[j]).isEmpty <;> rfl

theorem sparseBlocks_of_unmarked {map i : Nat} (h : map.testBit i = false) (n : Nat) (rest : Bytes) :
    sparseBlocks map (n + 1) i rest = (sparseBlocks map n (i + 1) rest).map fun t => List.replicate 64 0 ++ t := by
  rw [sparseBlocks, h, if_neg Bool.false_ne_true]

/-- A marked block reads back from its occupancy word and its non-zero bytes. -/
theorem sparseBlocks_of_marked {map i : Nat} (h : map.testBit i = true) {b : Bytes} (hlen : b.length = 64) (hne : nonZeroBytes b ≠ [])
    (n : Nat) (rest : Bytes) : sparseBlocks map (n + 1) i (leBytes 8 (occupancy 0 b) ++ nonZeroBytes b ++ rest) =
      (sparseBlocks map n (i + 1) rest).map fun t => b ++ t := by
  have hocc : leAt (leBytes 8 (occupancy 0 b) ++ (nonZeroBytes b ++ rest)) 0 8 = occupancy 0 b :=
    leAt_leBytes_append ((occupancy_lt b).trans_eq (by rw [hlen])) _
  have hcount : ((List.range 64).countP fun j => (occupancy 0 b).testBit j) = (nonZeroBytes b).length := hlen ▸ countP_testBit_occupancy b
  have hspread : spread (occupancy 0 b) 64 0 (nonZeroBytes b) = b :=
    hlen ▸ spread_nonZeroBytes fun j _ => by rw [Nat.zero_add, testBit_occupancy]
  have hroom : (leBytes 8 (occupancy 0 b) ++ (nonZeroBytes b ++ rest)).length = 8 + (nonZeroBytes b).length + rest.length := by
    rw [List.length_append, List.length_append, leBytes_length, Nat.add_assoc]
  rw [sparseBlocks, h, if_pos rfl, List.append_assoc]
  simp only [hocc, hcount, hroom, ← List.drop_drop, drop_leBytes_append, List.drop_left, List.take_left, hspread]
  rw [if_neg (by omega), if_neg (by rw [not_or]; exact ⟨occupancy_ne_zero hne, by omega⟩)]

theorem sparseBlocks_flatMap_blockCode {map i : Nat} {bl : List Bytes} (hlen : ∀ b ∈ bl, b.length = 64)
    (hmap : ∀ j (h : j < bl.length), map.testBit (i + j) = !(nonZeroBytes bl[j]).isEmpty) :
    sparseBlocks map bl.length i (bl.flatMap blockCode) = some bl.flatten := by
  induction bl generalizing i with
  | nil => rfl
  | cons b r ih =>
    obtain ⟨hb, hr⟩ := List.forall_mem_cons.1 hlen
    have hhead : map.testBit i = !(nonZeroBytes b).isEmpty := hmap 0 (Nat.succ_pos _)
    have htail : sparseBlocks map r.length (i + 1) (r.flatMap blockCode) = some r.flatten := ih hr fun j hj => by
      rw [Nat.add_assoc, Nat.add_comm 1]; exact hmap (j + 1) (Nat.succ_lt_succ hj)
    rw [List.length_cons, List.flatMap_cons, List.flatten_cons]
    by_cases hz : nonZeroBytes b = []
    · rw [blockCode, hz, List.isEmpty_nil, if_pos rfl, List.nil_append, sparseBlocks_of_unmarked (by rw [hhead, hz]; rfl), htail,
        Option.map_some, ← hb, ← eq_zeros_of_nonZeroBytes hz]
    · have hfull : (nonZeroBytes b).isEmpty = false := List.isEmpty_eq_false_iff.2 hz
      rw [blockCode, hfull, if_neg Bool.false_ne_true, sparseBlocks_of_marked (by rw [hhead, hfull]; rfl) hb hz, htail, Option.map_some]

theorem sparseBlocks_length {map n i : Nat} {rest d : Bytes} (h : sparseBlocks map n i rest = some d) : d.length = 64 * n := by
  induction n generalizing i rest d with
  | zero =>
    rw [sparseBlocks] at h
    split at h
    · rw [← Option.some.inj h, List.length_nil]
    · cases h
  | succ n ih =>
    have hblock {front : Bytes} {rest : Bytes} (hf : front.length = 64)
        (h : (sparseBlocks map n (i + 1) rest).map (fun t => front ++ t) = some d) : d.length = 64 * (n + 1) := by
      obtain ⟨t, ht, rfl⟩ := Option.map_eq_some_iff.1 h
      rw [List.length_append, hf, ih ht]; omega
    rw [sparseBlocks] at h
    split at h
    · split at h
      · cases h
      · dsimp only at h
        split at h
        · cases h
        · exact hblock (spread_length ..) h
    · exact hblock List.length_replicate h

/-! ### Coded pages -/

/-- What the decoder reads from a page header and the payload that follows it (R103). -/
theorem deltaHeader_reads {mode : Nat} {p : Bytes} (hmode : mode < 4) (hp : p.length < 2 ^ 17) :
    ¬ (deltaHeader mode p.length ++ p).length < 4 ∧ (deltaHeader mode p.length ++ p).drop 4 = p ∧
      bf (leAt (deltaHeader mode p.length ++ p) 0 4) 30 2 = mode ∧ bf (leAt (deltaHeader mode p.length ++ p) 0 4) 0 17 = p.length := by
  have hdesc : fieldsDescend (8 * 4) [(30, 2, mode), (0, 17, p.length)] = true := rfl
  have hword : leAt (deltaHeader mode p.length ++ p) 0 4 = packBits [(30, 2, mode), (0, 17, p.length)] :=
    leAt_leBytes_append (packBits_lt hdesc) p
  have hread := bf_packBits hword hdesc
  rw [List.forall_mem_cons, List.forall_mem_singleton] at hread
  exact ⟨by rw [List.length_append, deltaHeader, leBytes_length]; omega, drop_leBytes_append .., hread.1 hmode, hread.2 hp⟩

theorem deltaDecode_zero : deltaDecode (deltaHeader 0 0) = some (List.replicate 65536 0) := by
  obtain ⟨hlen, hdrop, hmode, hcount⟩ := deltaHeader_reads (mode := 0) (p := []) (by decide) (by decide)
  rw [List.append_nil, List.length_nil] at hlen hdrop hmode hcount
  rw [deltaDecode, if_neg hlen]
  simp only [hdrop, hmode, hcount, List.length_nil, ne_eq, not_true_eq_false, if_false, if_true]

theorem deltaDecode_raw {d : Bytes} (h : d.length = 65536) : deltaDecode (deltaHeader 2 d.length ++ d) = some d := by
  obtain ⟨hlen, hdrop, hmode, hcount⟩ := deltaHeader_reads (mode := 2) (p := d) (by decide) (by rw [h]; decide)
  rw [deltaDecode, if_neg hlen]
  simp only [hdrop, hmode, hcount, ne_eq, not_true_eq_false, if_false, if_pos h]

theorem deltaDecode_sparse {d : Bytes} (h : d.length = 65536) (hshort : (sparsePayload d).length < 65536) :
    deltaDecode (deltaHeader 1 (sparsePayload d).length ++ sparsePayload d) = some d := by
  obtain ⟨hblocks, hwhole⟩ := chunks_whole (n := 64) (count := 1024) (l := d) (by decide) h
  have hmap : leAt (sparsePayload d) 0 128 = blockMap (pageBlocks d) :=
    leAt_leBytes_append ((occupancy_lt _).trans_eq (by rw [List.length_map, pageBlocks, hblocks])) _
  have hrest : (sparsePayload d).drop 128 = (pageBlocks d).flatMap blockCode := drop_leBytes_append ..
  have hroom : ¬ (sparsePayload d).length < 128 := by rw [sparsePayload_eq, List.length_append, leBytes_length]; omega
  have hdecoded : sparseBlocks (blockMap (pageBlocks d)) 1024 0 ((pageBlocks d).flatMap blockCode) = some d :=
    calc _ = sparseBlocks (blockMap (pageBlocks d)) (pageBlocks d).length 0 ((pageBlocks d).flatMap blockCode) := by
          rw [pageBlocks, hblocks]
      _ = some (pageBlocks d).flatten := sparseBlocks_flatMap_blockCode hwhole fun j hj => by rw [Nat.zero_add, testBit_blockMap hj]
      _ = some d := congrArg some (flatten_chunks h.le)
  obtain ⟨hlen, hdrop, hmode, hcount⟩ := deltaHeader_reads (mode := 1) (p := sparsePayload d) (by decide) (hshort.trans (by decide))
  rw [deltaDecode, if_neg hlen]
  simp only [hdrop, hmode, hcount, ne_eq, not_true_eq_false, if_false, hroom, hmap, hrest, hdecoded]

theorem deltaDecode_deltaEncode (compress : Bool) {d : Bytes} (h : d.length = 65536) : deltaDecode (deltaEncode compress d) = some d := by
  rw [deltaEncode]
  cases compress with
  | false => exact deltaDecode_raw h
  | true =>
    rw [if_neg (by decide)]
    split
    next hz => rw [deltaDecode_zero, ← h, ← eq_zeros_of_nonZeroBytes (List.isEmpty_iff.1 hz)]
    next =>
      dsimp only
      split
      next hshort => exact deltaDecode_sparse h hshort
      next => exact deltaDecode_raw h

theorem deltaDecode_length {b d : Bytes} (h : deltaDecode b = some d) : d.length = 65536 := by
  rw [deltaDecode] at h
  split at h
  · cases h
  dsimp only at h
  split at h
  · cases h
  split at h
  case h_1 =>
    split at h
    · rw [← Option.some.inj h, List.length_replicate]
    · cases h
  case h_2 =>
    split at h
    · cases h
    · exact sparseBlocks_length h
  case h_3 =>
    split at h
    · rw [← Option.some.inj h]; omega
    · cases h
  case h_4 => cases h

/-! ### Packet headers -/

theorem TxArgs.ofNat_txArgs (t : TxArgs) (hseq : t.seq < 65536) (hband : t.band < 65536) (hcol : t.col < 32) (hrow : t.row < 4)
    (hmid : t.mid < 256) (hepoch : t.epochLo < 256) (hlow : t.low < 256) :
    TxArgs.ofNat (txArgs t.seq t.band t.col t.row t.adopt t.mid t.epochLo t.low) = t := by
  have hread := bf_packBits (x := txArgs t.seq t.band t.col t.row t.adopt t.mid t.epochLo t.low) (top := 64) rfl rfl
  simp only [List.forall_mem_cons] at hread
  obtain ⟨rseq, rband, rcol, rrow, radopt, rmid, repoch, rlow, -⟩ := hread
  have hadopt : (bf (txArgs t.seq t.band t.col t.row t.adopt t.mid t.epochLo t.low) 24 1 == 1) = t.adopt := by
    rw [radopt (by cases t.adopt <;> decide)]; cases t.adopt <;> rfl
  rw [TxArgs.ofNat, rseq hseq, rband hband, rcol hcol, rrow hrow, hadopt, rmid hmid, repoch hepoch, rlow hlow]

theorem MarkArgs.ofNat_markArgs (x : MarkArgs) (hsub : x.sub < 16) (hplace : x.place < 8) (hindex : x.index < 16) (hlast : x.last < 16)
    (hepoch : x.epoch < 2 ^ 48) : MarkArgs.ofNat (markArgs x.sub x.place x.index x.last x.epoch) = x := by
  have hread := bf_packBits (x := markArgs x.sub x.place x.index x.last x.epoch) (top := 64) rfl rfl
  simp only [List.forall_mem_cons] at hread
  obtain ⟨rsub, rplace, rindex, rlast, repoch, -⟩ := hread
  rw [MarkArgs.ofNat, rsub hsub, rplace hplace, rindex hindex, rlast hlast, repoch hepoch]

theorem FaHdr.ofNat_word (h : FaHdr) (hversion : h.version < 16) (hop : h.op < 16) (hstatus : h.status < 16) (haop : h.aop < 16)
    (hsrc : h.src < 2 ^ 18) (hdst : h.dst < 2 ^ 18) (horigin : h.origin < 2 ^ 18) (htag : h.tag < 1024) (hsize : h.size < 4)
    (hoffset : h.offset < 2 ^ 46) (hkey : h.key < 2 ^ 64) (hoperand : h.operand < 2 ^ 64) : FaHdr.ofNat h.word = h := by
  have hread := bf_packBits (x := h.word) (top := 256) rfl rfl
  simp only [List.forall_mem_cons] at hread
  obtain ⟨rversion, rop, rstatus, raop, rsrc, rdst, rorigin, rtag, rsize, roffset, rkey, roperand, -⟩ := hread
  rw [FaHdr.ofNat, rversion hversion, rop hop, rstatus hstatus, raop haop, rsrc hsrc, rdst hdst, rorigin horigin, rtag htag, rsize hsize,
    roffset hoffset, rkey hkey, roperand hoperand]

/-- Settles O59: a coded page by its mode, and the packed words by their fields. -/
theorem encodingsRoundTrip : Obligations.EncodingsRoundTrip := by
  unfold Obligations.EncodingsRoundTrip
  exact ⟨fun compress _ h => deltaDecode_deltaEncode compress h, fun _ _ h => deltaDecode_length h, TxArgs.ofNat_txArgs,
    MarkArgs.ofNat_markArgs, FaHdr.ofNat_word⟩

end Sys2Proof.Machine
end

section
/-! SUPPORT. The phases of the preconditioner: what a run of the array counts and what it delivers (R109, R113 to R118, R323). -/
namespace Sys2Proof.Machine

/-! ### Deliveries and phases -/

/-- A delivery stands for its entry, epoch and kind, and the entry's others at that epoch stay. -/
theorem Alesh.pcOut?_addPc (a : Alesh) (k e w w' : Nat) (v : List F32) :
    (a.addPc k e w v).pcOut? k e w' = if w = w' then some v else a.pcOut? k e w' := by
  unfold Alesh.pcOut? Alesh.addPc
  rw [List.find?_append]
  by_cases h : w = w'
  · subst h
    have hgone : ((a.pub.pc.filter fun o => !(o.entry == k && o.epoch == e && o.which == w)).find? fun o =>
        o.entry == k && o.epoch == e && o.which == w) = none :=
      List.find?_eq_none.2 fun o ho => by rw [Bool.not_eq_true, ← Bool.not_eq_true']; exact (List.mem_filter.1 ho).2
    rw [hgone, if_pos rfl]
    simp
  · have hkept (o : PcOut) : (decide ((!(o.entry == k && o.epoch == e && o.which == w)) = true ∧
        (o.entry == k && o.epoch == e && o.which == w') = true)) = (o.entry == k && o.epoch == e && o.which == w') := by
      by_cases ho : o.which = w'
      · have hw : (o.which == w) = false := by rw [ho]; exact beq_false_of_ne (Ne.symm h)
        rw [hw, Bool.and_false, Bool.not_false]
        simp only [true_and, Bool.decide_eq_true]
      · simp [ho]
    rw [List.find?_filter, funext hkept, if_neg h]
    simp [h]

@[simp] theorem Alesh.pcOut?_setPhase (a : Alesh) (k e ph j f w : Nat) : (a.setPhase k e ph).pcOut? j f w = a.pcOut? j f w := rfl
@[simp] theorem Alesh.pcOut?_arrayRan (a : Alesh) (k e w : Nat) : a.arrayRan.pcOut? k e w = a.pcOut? k e w := rfl

@[simp] theorem Alesh.phaseDone_setPhase_same (a : Alesh) (k e ph : Nat) : (a.setPhase k e ph).phaseDone k e ph = true := by
  simp [Alesh.phaseDone, Alesh.setPhase]

/-! ### A run of the array -/

/-- The array has run once: its frozen cycles and corrected SRAM words are counted (R109, R323), and beside them only deliveries, phases
and the numbers listed can change. -/
def Alesh.RanArray (a : Alesh) (more : List Nat) (b : Alesh) : Prop :=
  b.num O.PC_FREEZE_COUNT = wrapAdd (widthOf O.PC_FREEZE_COUNT) (a.num O.PC_FREEZE_COUNT) (Config.freeFrozen a.ctl.draws) ∧
  b.health = { a.health with now := { a.health.now with ce := a.health.now.ce + Config.freeCorrected a.ctl.draws } } ∧
  SameBut (O.PC_FREEZE_COUNT :: more) [] a b ∧
  b = { a with ctl := { a.ctl with draws := a.ctl.draws + 1 }, pub := b.pub, dict := b.dict, health := b.health }

namespace Alesh.RanArray

variable {a b : Alesh} {more : List Nat}

theorem arrayRan (a : Alesh) : a.RanArray [] a.arrayRan :=
  ⟨(Alesh.num_wrapN ..).trans (if_pos rfl), rfl, sameBut_setNum { a with ctl := { a.ctl with draws := a.ctl.draws + 1 } } .., rfl⟩

theorem of_pub (h : a.RanArray more b) (p : Pub) : a.RanArray more { b with pub := p } := by
  obtain ⟨hfreeze, hhealth, hsame, hframe⟩ := h
  exact ⟨hfreeze, hhealth, hsame.of_dict rfl, congrArg (fun c : Alesh => { c with pub := p }) hframe⟩

theorem addPc (h : a.RanArray more b) (k e w : Nat) (v : List F32) : a.RanArray more (b.addPc k e w v) := h.of_pub _

theorem setPhase (h : a.RanArray more b) (k e ph : Nat) : a.RanArray more (b.setPhase k e ph) := h.of_pub _

/-- A further counter that the run advances is one of the numbers that can change. -/
theorem countN (h : a.RanArray [] b) {c : Nat} (hc : c ≠ O.PC_FREEZE_COUNT) (n : Nat) : a.RanArray [c] (b.countN c n) := by
  obtain ⟨hfreeze, hhealth, ⟨hnums, hdoms⟩, hframe⟩ := h
  refine ⟨?_, hhealth, ⟨fun k hk => ?_, hdoms⟩, congrArg (fun d : Alesh => { d with dict := (b.countN c n).dict }) hframe⟩
  · rw [Alesh.num_countN, if_neg hc, hfreeze]
  · rw [List.mem_cons, not_or, List.mem_singleton] at hk
    rw [Alesh.num_countN, if_neg (Ne.symm hk.2), hnums k (by simpa using hk.1)]

theorem num_of_ne (h : a.RanArray more b) {c : Nat} (hc : c ∉ O.PC_FREEZE_COUNT :: more) : b.num c = a.num c := by
  obtain ⟨-, -, ⟨hnums, -⟩, -⟩ := h
  exact hnums c hc

end Alesh.RanArray

/-! ### The statistic pages -/

/-- The pages of an entry's statistic layers can be read, and their exponents lie in range (R47, R70). -/
def Alesh.StatsReadable (a : Alesh) (en : PcEntry) : Prop :=
  (∀ q ∈ a.statPages en, a.pageReady q.1 q.2 = true) ∧ a.statBadExps en = []

theorem Alesh.withStats_of_readable {a : Alesh} {en : PcEntry} (h : a.StatsReadable en) (k : Alesh) : a.withStats en k = k := by
  obtain ⟨hpages, hexps⟩ := h
  rw [Alesh.withStats, Alesh.withPages_of_ready hpages, hexps]
  rfl

/-- The statistic pages written in pending slots are sound, so that phase 4 can read them (R401). -/
def Alesh.PendingStatsGood (a : Alesh) (en : PcEntry) : Prop :=
  ∀ q ∈ a.statPages en, ∀ u, (a.prog? q.1).bind (·.upd) = some u → q.2 ∈ a.writtenPages q.1 u.epoch →
    a.pageGood q.1 u.slot q.2 = true

theorem Alesh.freshStats_of_good {a : Alesh} {en : PcEntry} (h : a.PendingStatsGood en) : a.freshStats en = a := by
  unfold Alesh.freshStats
  refine List.foldlRecOn (motive := (· = a)) _ _ rfl fun b hb q hq => ?_
  subst hb
  split
  · next u hu =>
    split
    · next hw => rw [Alesh.freshPending, if_pos (h q hq u hu (List.contains_iff_mem.1 hw))]
    · rfl
  · rfl

theorem Alesh.freshReady_of_good {a : Alesh} {en : PcEntry} (h : a.PendingStatsGood en) : a.freshReady en = true := by
  refine List.all_eq_true.2 fun q hq => ?_
  split
  · next u hu =>
    by_cases hw : q.2 ∈ a.writtenPages q.1 u.epoch
    · rw [h q hq u hu hw, Bool.or_true]
    · simp [hw]
  · rfl

/-! ### What the phases leave -/

/-- The core once phase 1 has delivered the increments of both statistics; where there are roots, it notes those held (R113, R115, R118). -/
def Alesh.incremented (a : Alesh) (k : Nat) (en : PcEntry) : Alesh :=
  let e := a.inProgress
  let inc := pcIncrements en (a.targetGrad en e)
  let b := (a.arrayRan.addPc k e 0 inc.1).addPc k e 1 inc.2
  if en.mode = 0 then b
  else (b.addPc k e 7 ((List.range en.statCounts.1).map (a.layerVal en.statL 1 (e - 1)))).addPc k e 8
    ((List.range en.statCounts.2).map (a.layerVal en.statR 1 (e - 1)))

theorem Alesh.incremented_pcOut? (a : Alesh) (k : Nat) (en : PcEntry) :
    let inc := pcIncrements en (a.targetGrad en a.inProgress)
    (a.incremented k en).pcOut? k a.inProgress 0 = some inc.1 ∧ (a.incremented k en).pcOut? k a.inProgress 1 = some inc.2 := by
  unfold Alesh.incremented
  dsimp only
  split <;> simp [Alesh.pcOut?_addPc]

theorem Alesh.RanArray.incremented (a : Alesh) (k : Nat) (en : PcEntry) : a.RanArray [] (a.incremented k en) := by
  unfold Alesh.incremented
  extract_lets e inc b
  have hb : a.RanArray [] b := ((arrayRan a).addPc ..).addPc ..
  split
  · exact hb
  · exact (hb.addPc ..).addPc ..

/-- The blocks that fail on a refresh epoch: under BLOCK both sides of each are inverted (R116). -/
def Alesh.rootFails (a : Alesh) (en : PcEntry) : Nat :=
  let l := a.rootsOf en en.statL a.inProgress
  if en.mode = 1 then l.2.2 + (a.rootsOf en en.statR a.inProgress).2.2 else l.2.2

/-- The core once phase 2 has delivered the roots of the left statistic, and under BLOCK those of the right one (R116). -/
def Alesh.rooted (a : Alesh) (k : Nat) (en : PcEntry) : Alesh :=
  let e := a.inProgress
  let l := a.rootsOf en en.statL e
  let r := a.rootsOf en en.statR e
  let b := (a.arrayRan.addPc k e 2 l.1).addPc k e 3 l.2.1
  if en.mode = 1 then (b.addPc k e 4 r.1).addPc k e 5 r.2.1 else b

theorem Alesh.rooted_pcOut? (a : Alesh) (k : Nat) (en : PcEntry) :
    let l := a.rootsOf en en.statL a.inProgress
    (a.rooted k en).pcOut? k a.inProgress 2 = some l.1 ∧ (a.rooted k en).pcOut? k a.inProgress 3 = some l.2.1 ∧
      (en.mode = 1 → (a.rooted k en).pcOut? k a.inProgress 4 = some (a.rootsOf en en.statR a.inProgress).1) := by
  unfold Alesh.rooted
  dsimp only
  split
  · simp [Alesh.pcOut?_addPc]
  · next hmode => simp [Alesh.pcOut?_addPc, hmode]

theorem Alesh.RanArray.rooted (a : Alesh) (k : Nat) (en : PcEntry) : a.RanArray [] (a.rooted k en) := by
  unfold Alesh.rooted
  extract_lets e l r b
  have hb : a.RanArray [] b := ((arrayRan a).addPc ..).addPc ..
  split
  · exact (hb.addPc ..).addPc ..
  · exact hb

/-! ### The phases once their guards are met -/

section
variable {a : Alesh} {k : Nat} {en : PcEntry} (hrun : a.pcRunning = true) (hen : a.pcTable[k]? = some en)
include hrun hen

theorem Alesh.statIncrement_of_guards (htarget : a.targetReady en a.inProgress = true) (hnew : a.phaseDone k a.inProgress 1 = false)
    (hread : en.mode ≠ 0 → a.StatsReadable en) : a.statIncrement k = (a.incremented k en).setPhase k a.inProgress 1 := by
  unfold Alesh.statIncrement Alesh.incremented
  simp only [hen, hrun, htarget, hnew, Bool.not_false, Bool.and_true, if_true]
  by_cases hmode : en.mode = 0
  · rw [if_pos hmode, if_pos hmode]
  · rw [if_neg hmode, if_neg hmode, Alesh.withStats_of_readable (hread hmode)]

theorem Alesh.root_of_guards (hmode : en.mode ≠ 0) (hrefresh : en.isRefresh a.inProgress = true)
    (hprev : a.phaseDone k a.inProgress 1 = true) (hnew : a.phaseDone k a.inProgress 2 = false) (hread : a.StatsReadable en) :
    a.root k = ((a.rooted k en).countN O.PC_ROOT_FAIL (a.rootFails en)).setPhase k a.inProgress 2 := by
  unfold Alesh.root Alesh.rooted Alesh.rootFails
  simp only [hen, hrun, bne_iff_ne.2 hmode, hrefresh, hprev, hnew, Bool.not_false, Bool.and_true, if_true,
    Alesh.withStats_of_readable hread]
  split <;> rfl

/-- Phase 4 delivers the target's S0. -/
theorem Alesh.targetS0_of_guards (hprev : a.phaseDone k a.inProgress 1 = true)
    (hroots : en.mode ≠ 0 → en.isRefresh a.inProgress = true → a.phaseDone k a.inProgress 2 = true)
    (hnew : a.phaseDone k a.inProgress 4 = false) (hleft : a.layerUpdated en.statL a.inProgress = true)
    (hright : en.mode = 2 ∨ a.layerUpdated en.statR a.inProgress = true) (hread : a.StatsReadable en) (hgood : a.PendingStatsGood en) :
    ∃ v, a.targetS0 k = (a.arrayRan.addPc k a.inProgress 6 v).setPhase k a.inProgress 4 := by
  have hrooted : (en.mode == 0 || !en.isRefresh a.inProgress || a.phaseDone k a.inProgress 2) = true := by
    by_cases hmode : en.mode = 0
    · simp [hmode]
    · cases href : en.isRefresh a.inProgress with
      | false => simp
      | true => simp [hroots hmode href]
  have hupdated : (en.mode == 2 || a.layerUpdated en.statR a.inProgress) = true := by simpa using hright
  unfold Alesh.targetS0
  simp only [hen, hrun, hprev, hrooted, hnew, hleft, hupdated, Bool.not_false, Bool.and_true, Bool.not_true, Bool.false_eq_true, if_true,
    if_false, Alesh.freshStats_of_good hgood, Alesh.freshReady_of_good hgood, Alesh.withStats_of_readable hread]
  exact ⟨_, rfl⟩

end

/-- Settles O29: each phase, its guards met, is a run of the array followed by its deliveries, its counts and its phase mark. -/
theorem preconditionerPhases : Obligations.PreconditionerPhases := by
  unfold Obligations.PreconditionerPhases
  intro s k en hrun hen a e ran readable
  refine ⟨fun htarget hnew hread => gives_onCore (f := Alesh.statIncrement k) rfl ?_,
    fun hmode hrefresh hprev hnew hread => gives_onCore (f := Alesh.root k) rfl ?_,
    fun hprev hroots hnew hleft hright hread hgood => gives_onCore (f := Alesh.targetS0 k) rfl ?_⟩
  · rw [Alesh.statIncrement_of_guards hrun hen htarget hnew hread]
    obtain ⟨hinc0, hinc1⟩ := a.incremented_pcOut? k en
    exact ⟨hinc0, hinc1, Alesh.phaseDone_setPhase_same .., (Alesh.RanArray.incremented a k en).setPhase ..⟩
  · rw [Alesh.root_of_guards hrun hen hmode hrefresh hprev hnew hread]
    obtain ⟨hroot, hok, hright⟩ := a.rooted_pcOut? k en
    have hran := Alesh.RanArray.rooted a k en
    refine ⟨hroot, hok, fun hblock => ⟨hright hblock, ?_⟩, Alesh.phaseDone_setPhase_same ..,
      (hran.countN (by decide) _).setPhase ..⟩
    have hfails : a.rootFails en = (a.rootsOf en en.statL e).2.2 + (a.rootsOf en en.statR e).2.2 := if_pos hblock
    rw [← hfails, ← hran.num_of_ne (c := O.PC_ROOT_FAIL) (by decide)]
    exact (Alesh.num_countN ..).trans (if_pos rfl)
  · obtain ⟨v, hv⟩ := Alesh.targetS0_of_guards hrun hen hprev hroots hnew hleft hright hread hgood
    rw [hv]
    refine ⟨?_, Alesh.phaseDone_setPhase_same .., fun w hw => ?_, ((Alesh.RanArray.arrayRan a).addPc ..).setPhase ..⟩
    · rw [Alesh.pcOut?_setPhase, Alesh.pcOut?_addPc, if_pos rfl, Option.isSome_some]
    · rw [Alesh.pcOut?_setPhase, Alesh.pcOut?_addPc, if_neg (Ne.symm hw), Alesh.pcOut?_arrayRan]

end Sys2Proof.Machine
end

section
/-! SUPPORT. Owner combine on any cover, and the cut of a hosting range into aligned subtrees (R122 to R125). -/
namespace Sys2Proof.Machine

/-! ### Owner combine (R125) -/

/-- The value that is held for a node: the first node of that level and index. -/
def heldAt (held : List ((Nat × Nat) × NodeVal)) (l i : Nat) : Option NodeVal := (held.find? fun p => p.1 == (l, i)).map (·.2)

theorem combineNode_zero (d : Nat) (held : List ((Nat × Nat) × NodeVal)) (i : Nat) : combineNode d held 0 i = heldAt held 0 i := rfl

theorem combineNode_of_heldAt {d : Nat} {held : List ((Nat × Nat) × NodeVal)} {l i : Nat} {v : NodeVal} (h : heldAt held l i = some v) :
    combineNode d held l i = some v := by
  cases l with
  | zero => exact h
  | succ l =>
    obtain ⟨p, hp, rfl⟩ := Option.map_eq_some_iff.mp h
    simp only [combineNode, hp]

theorem combineNode_of_not_heldAt {d : Nat} {held : List ((Nat × Nat) × NodeVal)} {l i : Nat} (h : heldAt held (l + 1) i = none) :
    combineNode d held (l + 1) i =
      (combineNode d held l (2 * i)).bind fun x => (combineNode d held l (2 * i + 1)).map fun y => nodeAdd d x y := by
  rw [heldAt, Option.map_eq_none_iff] at h
  simp only [combineNode, h]
  cases combineNode d held l (2 * i) <;> cases combineNode d held l (2 * i + 1) <;> rfl

theorem heldAt_ne_none {held : List ((Nat × Nat) × NodeVal)} {p : (Nat × Nat) × NodeVal} (hp : p ∈ held) :
    heldAt held p.1.1 p.1.2 ≠ none := by
  rw [heldAt, ne_eq, Option.map_eq_none_iff, List.find?_eq_none]
  exact fun h => h p hp (beq_self_eq_true _)

/-- Node (ℓ, i) is covered: every leaf below it lies below a node held at its level or lower. -/
def Covered (held : List ((Nat × Nat) × NodeVal)) (l i : Nat) : Prop :=
  ∀ r, r / 2 ^ l = i → ∃ p ∈ held, p.1.1 ≤ l ∧ r / 2 ^ p.1.1 = p.1.2

/-- A node that is covered, and is not held itself, has both its children covered. -/
theorem Covered.child {held : List ((Nat × Nat) × NodeVal)} {l i j : Nat} (h : Covered held (l + 1) i)
    (hnone : heldAt held (l + 1) i = none) (hj : j / 2 = i) : Covered held l j := by
  intro r hr
  have hri : r / 2 ^ (l + 1) = i := by rw [pow_succ, ← Nat.div_div_eq_div_mul, hr, hj]
  obtain ⟨p, hp, hle, hpr⟩ := h r hri
  refine ⟨p, hp, Nat.le_of_lt_succ (lt_of_le_of_ne hle fun heq => ?_), hpr⟩
  rw [heq, hri] at hpr
  exact heldAt_ne_none hp (by rw [heq, ← hpr, hnone])

section
variable {d : Nat} {leaf : Nat → NodeVal} {held : List ((Nat × Nat) × NodeVal)}
  (hheld : ∀ p ∈ held, p.2 = canonNode d leaf p.1.1 p.1.2)
include hheld

theorem heldAt_canonical {l i : Nat} {v : NodeVal} (h : heldAt held l i = some v) : v = canonNode d leaf l i := by
  obtain ⟨p, hp, rfl⟩ := Option.map_eq_some_iff.mp h
  have hpos : p.1 = (l, i) := by simpa using List.find?_some hp
  rw [hheld p (List.mem_of_find?_eq_some hp), hpos]

/-- Whatever owner combine forms is canonical. -/
theorem combineNode_canonical (l i : Nat) : ∀ v, combineNode d held l i = some v → v = canonNode d leaf l i := by
  induction l generalizing i with
  | zero => exact fun v hv => heldAt_canonical hheld hv
  | succ l ih =>
    intro v hv
    cases hat : heldAt held (l + 1) i with
    | some w =>
      rw [combineNode_of_heldAt hat] at hv
      exact Option.some.inj hv ▸ heldAt_canonical hheld hat
    | none =>
      rw [combineNode_of_not_heldAt hat] at hv
      obtain ⟨x, hx, hv⟩ := Option.bind_eq_some_iff.mp hv
      obtain ⟨y, hy, rfl⟩ := Option.map_eq_some_iff.mp hv
      rw [ih _ x hx, ih _ y hy, canonNode]

/-- Owner combine forms a node that is covered. -/
theorem combineNode_of_covered (l i : Nat) (hcov : Covered held l i) : combineNode d held l i = some (canonNode d leaf l i) := by
  induction l generalizing i with
  | zero =>
    obtain ⟨p, hp, hle, hpr⟩ := hcov i (by simp)
    have hlevel : p.1.1 = 0 := by omega
    rw [hlevel, pow_zero, Nat.div_one] at hpr
    obtain ⟨v, hv⟩ := Option.ne_none_iff_exists'.mp (heldAt_ne_none hp)
    rw [hlevel, ← hpr] at hv
    rw [combineNode_zero, hv, heldAt_canonical hheld hv]
  | succ l ih =>
    cases hat : heldAt held (l + 1) i with
    | some v => rw [combineNode_of_heldAt hat, heldAt_canonical hheld hat]
    | none =>
      rw [combineNode_of_not_heldAt hat, ih (2 * i) (hcov.child hat (by omega)), ih (2 * i + 1) (hcov.child hat (by omega))]
      rfl

end

/-! ### The cut (R124) -/

/-- The level of the first node of a cut: its subtree starts at the range's first replica and ends within the range. -/
theorem largestLevel_fits {a b : Nat} (hab : a ≤ b) (l : Nat) :
    largestLevel a b l ≤ l ∧ a % 2 ^ largestLevel a b l = 0 ∧ a + 2 ^ largestLevel a b l ≤ b + 1 := by
  induction l with
  | zero => simp [largestLevel, Nat.mod_one, hab]
  | succ l ih =>
    have hpos : 0 < 2 ^ (l + 1) := Nat.two_pow_pos _
    rw [largestLevel]
    split
    · next hfit => exact ⟨le_refl _, hfit.1, by omega⟩
    · exact ⟨by omega, ih.2⟩

/-- The nodes of a cut lie in the range, at levels of at most 16. -/
theorem alignedCut_inside (fuel a b : Nat) :
    ∀ n ∈ alignedCut fuel a b, n.1 ≤ 16 ∧ a ≤ n.2 * 2 ^ n.1 ∧ (n.2 + 1) * 2 ^ n.1 ≤ b + 1 := by
  induction fuel generalizing a with
  | zero => simp [alignedCut]
  | succ fuel ih =>
    intro n hn
    rw [alignedCut] at hn
    split at hn
    · simp at hn
    · next hab =>
      obtain ⟨hlevel, halign, hfit⟩ := largestLevel_fits (Nat.le_of_not_lt hab) 16
      obtain rfl | htail := List.mem_cons.mp hn
      · have hstart : a / 2 ^ largestLevel a b 16 * 2 ^ largestLevel a b 16 = a := Nat.div_mul_cancel (Nat.dvd_of_mod_eq_zero halign)
        exact ⟨hlevel, hstart.ge, by rw [Nat.add_mul, hstart, one_mul]; exact hfit⟩
      · obtain ⟨hl, hlow, hhigh⟩ := ih _ n htail
        exact ⟨hl, by omega, hhigh⟩

/-- A replica lies below a node exactly where it lies among the node's leaves. -/
theorem div_pow_eq_iff (r l i : Nat) : r / 2 ^ l = i ↔ i * 2 ^ l ≤ r ∧ r < (i + 1) * 2 ^ l := by
  have hpos := Nat.two_pow_pos l
  rw [Nat.div_eq_iff hpos, Nat.add_mul]
  omega

/-- Each replica of the range lies below one node of the cut. -/
theorem alignedCut_covers_once (fuel a b r : Nat) (hfuel : b + 1 ≤ a + fuel) (har : a ≤ r) (hrb : r ≤ b) :
    ((alignedCut fuel a b).filter fun n => decide (r / 2 ^ n.1 = n.2)).length = 1 := by
  induction fuel generalizing a with
  | zero => omega
  | succ fuel ih =>
    obtain ⟨-, halign, -⟩ := largestLevel_fits (har.trans hrb) 16
    set l := largestLevel a b 16 with hl
    have hpos : 0 < 2 ^ l := Nat.two_pow_pos l
    have hstart : a / 2 ^ l * 2 ^ l = a := Nat.div_mul_cancel (Nat.dvd_of_mod_eq_zero halign)
    have hhead : r / 2 ^ l = a / 2 ^ l ↔ r < a + 2 ^ l := by
      rw [div_pow_eq_iff, Nat.add_mul, hstart, one_mul]
      exact and_iff_right har
    rw [alignedCut, if_neg (by omega), ← hl]
    by_cases hin : r < a + 2 ^ l
    · have htail : (alignedCut fuel (a + 2 ^ l) b).filter (fun n => decide (r / 2 ^ n.1 = n.2)) = [] := by
        refine List.filter_eq_nil_iff.mpr fun n hn => ?_
        obtain ⟨-, hlow, -⟩ := alignedCut_inside fuel _ b n hn
        rw [decide_eq_true_iff, div_pow_eq_iff]
        omega
      simp [hhead.mpr hin, htail]
    · simp only [List.filter_cons, hhead, hin, decide_false, Bool.false_eq_true, if_false]
      exact ih (a + 2 ^ l) (by omega) (by omega)

/-- Settles O24: what is combined is canonical by induction on the level, and the cut peels one aligned subtree off the range's start. -/
theorem coversAndCutsAreCanonical : Obligations.CoversAndCutsAreCanonical := by
  unfold Obligations.CoversAndCutsAreCanonical
  exact ⟨fun d leaf held hheld l i => ⟨combineNode_canonical hheld l i, combineNode_of_covered hheld l i⟩,
    fun a b hab hb => ⟨alignedCut_inside _ a b, fun r har hrb => alignedCut_covers_once _ a b r (by omega) har hrb⟩⟩

end Sys2Proof.Machine
end

section
/-! SUPPORT. Reduced gradients in the reduction pool: what storing one changes, the pages that are free, and the header gradient (R16, R128,
R131). -/
namespace Sys2Proof.Machine

/-! ### Storing a reduced gradient (R16) -/

theorem Alesh.foldl_wrPages_frame (cut : Nat → Bytes) (ps : List (Nat × Nat)) (a : Alesh) : ∃ m : Memory,
    ps.foldl (fun (c : Alesh) (q : Nat × Nat) => c.wr (c.poolPage q.1) (cut q.2)) a = { a with mem0 := m } := by
  induction ps generalizing a with
  | nil => exact ⟨a.mem0, rfl⟩
  | cons q ps ih =>
    obtain ⟨m, h⟩ := ih (a.wr (a.poolPage q.1) (cut q.2))
    refine ⟨m, h.trans ?_⟩
    rw [Alesh.wr_frame]

theorem Alesh.setGrad_of_none {a : Alesh} {g : Nat} (h : a.prog? g = none) (e : Nat) (v : List F32) : a.setGrad g e v = a := by
  simp [Alesh.setGrad, h]

/-- A slice's progress with a reduced gradient and its pages. -/
def Prog.withGrad (e : Nat) (v : List F32) (ps : List (Nat × Nat)) (p : Prog) : Prog :=
  { p with grads := assign p.grads e v, gradPages := assign p.gradPages e ps }

/-- All that storing a gradient does: the pool's bytes, and the slice's gradient with at most as many pages as it needs. -/
theorem Alesh.setGrad_of_some {a : Alesh} {g : Nat} {p : Prog} (h : a.prog? g = some p) (e : Nat) (v : List F32) :
    ∃ (m : Memory) (ps : List (Nat × Nat)), ps.length ≤ gradPages v.length ∧
      a.setGrad g e v = ({ a with mem0 := m }).modProg g (Prog.withGrad e v ps) := by
  let cut (i : Nat) : Bytes := slice (sliceBytesOf v) (i * pageBytes) pageBytes
  obtain ⟨m, hm⟩ := Alesh.foldl_wrPages_frame cut (a.freePool g e (gradPages v.length)).zipIdx a
  refine ⟨m, (a.freePool g e (gradPages v.length)).zipIdx.map fun q => (q.1, crc64 (cut q.2)), ?_, ?_⟩
  · rw [List.length_map, List.length_zipIdx]
    exact (List.length_filter_le ..).trans (List.length_take_le ..)
  · have hset : a.setGrad g e v = ((a.freePool g e (gradPages v.length)).zipIdx.foldl
        (fun (c : Alesh) (q : Nat × Nat) => c.wr (c.poolPage q.1) (cut q.2)) a).modProg g
          (Prog.withGrad e v ((a.freePool g e (gradPages v.length)).zipIdx.map fun q => (q.1, crc64 (cut q.2)))) := by
      simp only [Alesh.setGrad, h, Option.isNone_some, Bool.false_eq_true, if_false]
      rfl
    rw [hset, hm]

theorem Alesh.setGrad_frame (a : Alesh) (g e : Nat) (v : List F32) :
    a.setGrad g e v = { a with progs := (a.setGrad g e v).progs, mem0 := (a.setGrad g e v).mem0 } := by
  cases hp : a.prog? g with
  | none => rw [Alesh.setGrad_of_none hp]
  | some p =>
    obtain ⟨m, ps, -, h⟩ := Alesh.setGrad_of_some hp e v
    rw [h]
    rfl

theorem Alesh.setGrad_prog? (a : Alesh) (g e : Nat) (v : List F32) (h : Nat) :
    ∃ ps, (a.setGrad g e v).prog? h = if h = g then (a.prog? g).map (Prog.withGrad e v ps) else a.prog? h := by
  cases hp : a.prog? g with
  | none =>
    refine ⟨[], ?_⟩
    rw [Alesh.setGrad_of_none hp]
    split
    · next hh => rw [hh, hp]; rfl
    · rfl
  | some p =>
    obtain ⟨m, ps, -, hset⟩ := Alesh.setGrad_of_some hp e v
    refine ⟨ps, ?_⟩
    rw [hset, ← hp]
    exact Alesh.prog?_modProg { a with mem0 := m } g h fun _ => rfl

theorem Alesh.setGrad_isSome (a : Alesh) (g e : Nat) (v : List F32) (h : Nat) :
    ((a.setGrad g e v).prog? h).isSome = (a.prog? h).isSome := by
  obtain ⟨ps, hp⟩ := Alesh.setGrad_prog? a g e v h
  rw [hp]
  split
  · next hh => rw [Option.isSome_map, hh]
  · rfl

theorem Alesh.setGrad_grad?_same {a : Alesh} {g : Nat} (hp : (a.prog? g).isSome = true) (e : Nat) (v : List F32) :
    (a.setGrad g e v).grad? g e = some v := by
  obtain ⟨p, hp⟩ := Option.isSome_iff_exists.1 hp
  obtain ⟨ps, h⟩ := Alesh.setGrad_prog? a g e v g
  rw [if_pos rfl, hp] at h
  rw [Alesh.grad?, h]
  exact (lookup?_assign ..).trans (if_pos rfl)

theorem Alesh.setGrad_grad?_of_ne {a : Alesh} {g h : Nat} (hne : h ≠ g) (e : Nat) (v : List F32) (e' : Nat) :
    (a.setGrad g e v).grad? h e' = a.grad? h e' := by
  obtain ⟨ps, hp⟩ := Alesh.setGrad_prog? a g e v h
  rw [Alesh.grad?, hp, if_neg hne, Alesh.grad?]

/-- Owner combine forms the slice's reduced gradient from the root of the partials held. -/
theorem Alesh.ownerCombine_grad? {a : Alesh} {g e : Nat} {r : NodeVal} (ho : a.ownerOf g = a.node) (hnew : a.grad? g e = none)
    (hp : (a.prog? g).isSome = true) (hroom : a.gradRoom g e (gradPages (a.gradCount g)) = true)
    (hroot : a.rootOf (fun k => k == kDense || k == kSparse) g e a.depth 0 = some r) :
    (a.ownerCombine g e).grad? g e = some (a.denseOf g r) := by
  have hset := Alesh.setGrad_grad?_same hp e (a.denseOf g r)
  simp only [Alesh.ownerCombine, ho, hnew, hroom, hroot, decide_true, Option.isNone_none, Bool.and_self, if_true]
  exact hset

/-! ### Free pages (R131, log entry 60) -/

/-- The pages of the pool that hold reduced gradients. -/
def Alesh.poolUses (a : Alesh) : List Nat := a.progs.flatMap fun p => p.gradPages.flatMap fun q => q.2.map (·.1)
/-- The pages of the pool that hold none. -/
def Alesh.poolFree (a : Alesh) : List Nat := (List.range (a.num O.REDUCE_PAGES)).filter fun i => !a.poolUses.contains i

/-- The lowest numbers that meet a test do not depend on how far the search runs, once it finds enough. -/
theorem take_filter_range_of_le {ok : Nat → Bool} {n m m' : Nat} (hle : m ≤ m') (hn : n ≤ ((List.range m).filter ok).length) :
    ((List.range m').filter ok).take n = ((List.range m).filter ok).take n := by
  obtain ⟨k, rfl⟩ := Nat.exists_eq_add_of_le hle
  rw [List.range_add, List.filter_append, List.take_append_of_le_length hn]

/-- Past the numbers of a list there are as many more as the search goes on. -/
theorem le_length_filter_range_not_mem (l : List Nat) (n : Nat) :
    n ≤ ((List.range (l.length + n)).filter fun i => !l.contains i).length := by
  have hsplit := List.length_eq_length_filter_add (l := List.range (l.length + n)) fun i => l.contains i
  have hin : ((List.range (l.length + n)).filter fun i => l.contains i).length ≤ l.length := by
    refine (List.Nodup.subperm (List.nodup_range.filter _) fun i hi => ?_).length_le
    exact List.contains_iff_mem.1 (List.mem_filter.1 hi).2
  rw [List.length_range] at hsplit
  omega

/-- A pool with enough free pages has room. -/
theorem Alesh.gradRoom_of_poolFree {a : Alesh} {n : Nat} (h : n ≤ a.poolFree.length) (g e : Nat) : a.gradRoom g e n = true := by
  let others := a.progs.flatMap fun p => p.gradPages.flatMap fun x => if p.gsid == g && x.1 == e then [] else x.2.map (·.1)
  have hsub : ∀ i, i ∈ others → i ∈ a.poolUses := fun i hi => by
    obtain ⟨p, hp, hi⟩ := List.mem_flatMap.1 hi
    obtain ⟨q, hq, hi⟩ := List.mem_flatMap.1 hi
    refine List.mem_flatMap.2 ⟨p, hp, List.mem_flatMap.2 ⟨q, hq, ?_⟩⟩
    split at hi
    · exact absurd hi List.not_mem_nil
    · exact hi
  have hpool : n ≤ ((List.range (a.num O.REDUCE_PAGES)).filter fun i => !others.contains i).length := by
    refine h.trans (List.Sublist.length_le ?_)
    refine List.monotone_filter_right _ fun i hi => ?_
    simp only [List.contains_eq_mem, Bool.not_eq_true', decide_eq_false_iff_not] at hi ⊢
    exact fun hin => hi (hsub i hin)
  have hfar := le_length_filter_range_not_mem others n
  have htake : ((List.range (others.length + n)).filter fun i => !others.contains i).take n =
      ((List.range (a.num O.REDUCE_PAGES)).filter fun i => !others.contains i).take n := by
    rcases Nat.le_total (others.length + n) (a.num O.REDUCE_PAGES) with hle | hle
    · exact (take_filter_range_of_le hle hfar).symm
    · exact take_filter_range_of_le hle hpool
  have hlow : ∀ i ∈ ((List.range (a.num O.REDUCE_PAGES)).filter fun i => !others.contains i).take n,
      decide (i < a.num O.REDUCE_PAGES) = true := fun i hi =>
    decide_eq_true (List.mem_range.1 (List.mem_filter.1 (List.mem_of_mem_take hi)).1)
  have hfree : a.freePool g e n = ((List.range (a.num O.REDUCE_PAGES)).filter fun i => !others.contains i).take n := by
    rw [← List.filter_eq_self.2 hlow, ← htake]
    rfl
  rw [Alesh.gradRoom, hfree, List.length_take_of_le hpool, beq_self_eq_true]

theorem mem_assign {β : Type} {l : List (Nat × β)} {k : Nat} {v : β} {x : Nat × β} (h : x ∈ assign l k v) : x ∈ l ∨ x = (k, v) := by
  induction l with
  | nil => exact .inr (List.mem_singleton.1 h)
  | cons y r ih =>
    rw [assign] at h
    split at h
    · exact (List.mem_cons.1 h).elim .inr fun hr => .inl (List.mem_cons_of_mem _ hr)
    · rcases List.mem_cons.1 h with rfl | hr
      · exact .inl List.mem_cons_self
      · exact (ih hr).imp_left (List.mem_cons_of_mem _)

/-- Storing a gradient uses at most the pages that the gradient needs. -/
theorem Alesh.setGrad_poolFree (a : Alesh) (g e : Nat) (v : List F32) :
    a.poolFree.length ≤ (a.setGrad g e v).poolFree.length + gradPages v.length := by
  cases hp : a.prog? g with
  | none => rw [Alesh.setGrad_of_none hp]; omega
  | some p =>
    obtain ⟨m, ps, hlen, hset⟩ := Alesh.setGrad_of_some hp e v
    rw [hset]
    set c := ({ a with mem0 := m }).modProg g (Prog.withGrad e v ps)
    have huses : ∀ i ∈ c.poolUses, i ∈ a.poolUses ∨ i ∈ ps.map (·.1) := fun i hi => by
      obtain ⟨q, hq, hi⟩ := List.mem_flatMap.1 hi
      obtain ⟨r, hr, rfl⟩ := List.mem_map.1 hq
      split at hi
      · obtain ⟨x, hx, hi⟩ := List.mem_flatMap.1 hi
        rcases mem_assign hx with hold | rfl
        · exact .inl (List.mem_flatMap.2 ⟨r, hr, List.mem_flatMap.2 ⟨x, hold, hi⟩⟩)
        · exact .inr hi
      · exact .inl (List.mem_flatMap.2 ⟨r, hr, hi⟩)
    have hcover : a.poolFree ⊆ c.poolFree ++ ps.map (·.1) := fun i hi => by
      obtain ⟨hrange, hfree⟩ := List.mem_filter.1 hi
      simp only [List.contains_eq_mem, Bool.not_eq_true', decide_eq_false_iff_not] at hfree
      refine List.mem_append.2 (or_iff_not_imp_right.2 fun hnew => List.mem_filter.2 ⟨hrange, ?_⟩)
      simp only [List.contains_eq_mem, Bool.not_eq_true', decide_eq_false_iff_not]
      exact fun hin => (huses i hin).elim hfree hnew
    have hle := (List.Nodup.subperm (List.nodup_range.filter _) hcover).length_le
    rw [List.length_append, List.length_map] at hle
    exact hle.trans (Nat.add_le_add_left hlen _)

/-! ### The header gradient (R128, R129) -/

/-- The header gradient goes to one header slice, where it has none and the pool has room. -/
def Alesh.headerStep (e : Nat) (v : List F32) (a : Alesh) (g : Nat) : Alesh :=
  if (a.grad? g e).isNone && a.gradRoom g e (gradPages v.length) then a.setGrad g e v else a

theorem Alesh.setHeaderGrad_eq (a : Alesh) (e : Nat) (v : List F32) :
    a.setHeaderGrad e v = (a.take.owned.filter isHeader).foldl (Alesh.headerStep e v) a := rfl

section
variable (e : Nat) (v : List F32)

theorem Alesh.headerStep_frame (a : Alesh) (g : Nat) : ∃ (ps : List Prog) (m : Memory),
    a.headerStep e v g = { a with progs := ps, mem0 := m } := by
  unfold Alesh.headerStep
  split
  · exact ⟨_, _, Alesh.setGrad_frame a g e v⟩
  · exact ⟨a.progs, a.mem0, rfl⟩

theorem Alesh.foldl_headerStep_frame (gs : List Nat) (a : Alesh) : ∃ (ps : List Prog) (m : Memory),
    gs.foldl (Alesh.headerStep e v) a = { a with progs := ps, mem0 := m } := by
  induction gs generalizing a with
  | nil => exact ⟨a.progs, a.mem0, rfl⟩
  | cons g gs ih =>
    obtain ⟨ps, m, hstep⟩ := Alesh.headerStep_frame e v a g
    obtain ⟨ps', m', hrest⟩ := ih (a.headerStep e v g)
    refine ⟨ps', m', hrest.trans ?_⟩
    rw [hstep]

theorem Alesh.headerStep_grad?_of_ne {a : Alesh} {g h : Nat} (hne : h ≠ g) : (a.headerStep e v g).grad? h e = a.grad? h e := by
  unfold Alesh.headerStep
  split
  · exact Alesh.setGrad_grad?_of_ne hne e v e
  · rfl

theorem Alesh.headerStep_isSome (a : Alesh) (g h : Nat) : ((a.headerStep e v g).prog? h).isSome = (a.prog? h).isSome := by
  unfold Alesh.headerStep
  split
  · exact Alesh.setGrad_isSome a g e v h
  · rfl

theorem Alesh.headerStep_poolFree (a : Alesh) (g : Nat) :
    a.poolFree.length ≤ (a.headerStep e v g).poolFree.length + gradPages v.length := by
  unfold Alesh.headerStep
  split
  · exact Alesh.setGrad_poolFree a g e v
  · omega

/-- A gradient that stands is kept. -/
theorem Alesh.headerStep_grad?_of_some {a : Alesh} {h : Nat} {w : List F32} (hw : a.grad? h e = some w) (g : Nat) :
    (a.headerStep e v g).grad? h e = some w := by
  by_cases hne : h = g
  · subst hne
    simp [Alesh.headerStep, hw]
  · rw [Alesh.headerStep_grad?_of_ne e v hne, hw]

theorem Alesh.headerStep_grad?_same {a : Alesh} {g : Nat} (hp : (a.prog? g).isSome = true) (hnew : a.grad? g e = none)
    (hroom : gradPages v.length ≤ a.poolFree.length) : (a.headerStep e v g).grad? g e = some v := by
  simp only [Alesh.headerStep, hnew, Alesh.gradRoom_of_poolFree hroom, Option.isNone_none, Bool.and_self, if_true]
  exact Alesh.setGrad_grad?_same hp e v

theorem Alesh.foldl_headerStep_grad?_of_some {h : Nat} {w : List F32} (gs : List Nat) {a : Alesh} (hw : a.grad? h e = some w) :
    (gs.foldl (Alesh.headerStep e v) a).grad? h e = some w := by
  induction gs generalizing a with
  | nil => exact hw
  | cons g gs ih => exact ih (Alesh.headerStep_grad?_of_some e v hw g)

/-- With room for all, every slice listed that has no gradient takes it. -/
theorem Alesh.foldl_headerStep_grad? (gs : List Nat) {a : Alesh} (hroom : gs.length * gradPages v.length ≤ a.poolFree.length) {h : Nat}
    (hh : h ∈ gs) (hp : (a.prog? h).isSome = true) (hnew : a.grad? h e = none) :
    (gs.foldl (Alesh.headerStep e v) a).grad? h e = some v := by
  induction gs generalizing a with
  | nil => exact absurd hh List.not_mem_nil
  | cons g gs ih =>
    rw [List.length_cons, Nat.succ_mul] at hroom
    by_cases hg : h = g
    · subst hg
      exact Alesh.foldl_headerStep_grad?_of_some e v gs (Alesh.headerStep_grad?_same e v hp hnew (by omega))
    · have hfree := Alesh.headerStep_poolFree e v a g
      exact ih (by omega) ((List.mem_cons.1 hh).resolve_left hg) ((Alesh.headerStep_isSome e v a g h).trans hp)
        ((Alesh.headerStep_grad?_of_ne e v hg).trans hnew)

end

theorem length_sliceValues {e : Nat} {b : Bytes} (h : 4 * e ≤ b.length) : (sliceValues e (b.take (4 * e))).length = e := by
  rw [sliceValues, List.length_map]
  exact (chunks_whole (by decide) (List.length_take_of_le h)).1

/-- The pages of a gradient hold its values. -/
theorem le_gradPages_mul (e : Nat) : 4 * e ≤ gradPages e * pageBytes := by
  unfold gradPages ceilDiv pageBytes
  omega

end Sys2Proof.Machine
end

section
/-! SUPPORT. The receipt of PART packets: their fields, what holding a partial changes, norm entries, and the members of a bundle (R125,
R130, R132, R145, R146, R185, R186). -/
namespace Sys2Proof.Machine

/-! ### Receipt of a packet that R180 does not test -/

theorem Alesh.heard_removed (a : Alesh) (now src : Nat) : (a.heard now src).memb.removed = a.memb.removed := by
  rw [Alesh.heard, Alesh.hear_frame]
  show (a.at now).memb.removed = _
  rw [Alesh.at_memb]

theorem Alesh.heard_joinedOrJob (a : Alesh) (now src : Nat) : (a.heard now src).joinedOrJob = a.joinedOrJob := by
  simp [Alesh.joinedOrJob, Alesh.inJob, Alesh.heard_ctl]

/-- A packet that passes every test but that of its membership epoch has its effect on the core that has heard its source. -/
theorem Alesh.receive_open_of_arrives {a : Alesh} {typ now : Nat} {m : Pkt} (h : Arrives a typ m) {ok : Bool} (hok : ok = true)
    (f : Alesh → Alesh) : a.receive now typ m ok true f = f (a.heard now m.src) := by
  obtain ⟨hlisten, hversion, hdst, hvc, -, hremoved, -, hroute⟩ := h
  have hlisten' : (a.at now).listens = true := by
    simpa [Alesh.listens, Alesh.idleToJob, Alesh.joinedOrJob, Alesh.inJob] using hlisten
  have hlearn : (a.at now).learnRoute m = a.at now := by
    simp [Alesh.learnRoute, hroute, newer16_self]
  have hstay : (a.heard now m.src).memb.removed.contains m.src = false := by rw [Alesh.heard_removed]; exact hremoved
  unfold Alesh.receive Alesh.receiveFrom
  simp only [hlisten', hversion, hdst, hvc, hok, hlearn, Bool.not_true, Bool.false_eq_true, if_false, bne_self_eq_false, Alesh.node,
    Alesh.num_at, Bool.or_false, Bool.and_false]
  rw [← Alesh.heard, hstay]
  rfl

/-! ### The fields of a PART (R185) -/

/-- A row that names its kind changes that field alone. -/
theorem PartArgs.ofNat_asKind {k : Nat} (hk : k < 16) (w : Nat) :
    PartArgs.ofNat (w % 2 ^ 60 + k * 2 ^ 60) = { PartArgs.ofNat w with kind := k } := by
  simp only [PartArgs.ofNat, bf, PartArgs.mk.injEq]
  omega

/-- A well-formed PART that is no BUNDLE takes effect; `w` is its ARGS as the row reads it. -/
theorem Alesh.partRx_of_arrives {a : Alesh} {now w : Nat} {m : Pkt} {x : PartArgs} (hw : PartArgs.ofNat w = x) (h : Arrives a tPart m)
    (hj : a.joinedOrJob = true) (hok : a.partOk x m.payload = true) (hk : x.kind ≠ kBundle) :
    a.partRx now { m with args := w } = (a.heard now m.src).partIn m.src x m.payload := by
  have hwhole : (a.partOk x m.payload && (x.kind != kBundle || bundleOk m.payload)) = true := by simp [hok, hk]
  unfold Alesh.partRx
  simp only [hw]
  rw [Alesh.receive_open_of_arrives (m := { m with args := w }) h hwhole]
  simp only [Alesh.heard_joinedOrJob, hj, hk, Bool.not_true, Bool.false_eq_true, if_false]

/-- A row that names its kind reads every other field of ARGS. -/
theorem Alesh.partRx_asKind {a : Alesh} {now k : Nat} {m : Pkt} (h : Arrives a tPart m) (hj : a.joinedOrJob = true) (hk : k < kBundle)
    (hok : a.partOk (PartArgs.ofNat (m.args % 2 ^ 60 + k * 2 ^ 60)) m.payload = true) :
    a.partRx now (asKind k m) = (a.heard now m.src).partIn m.src { PartArgs.ofNat m.args with kind := k } m.payload := by
  have hargs := PartArgs.ofNat_asKind (k := k) (hk.trans (by decide)) m.args
  rw [hargs] at hok
  rw [asKind]
  exact Alesh.partRx_of_arrives hargs h hj hok (Nat.ne_of_lt hk)

/-! ### Holding a partial (R125, R131, R132, R134) -/

/-- A refused request for pages is noted and counted; nothing that is held changes. -/
theorem Alesh.stopPool_red (a : Alesh) : ∃ st, a.stopPool.red = { a.red with stall := st } := ⟨_, rfl⟩

theorem Alesh.pooled_red (a : Alesh) (p : Part) : ∃ st, (a.pooled p).red = { a.red with stall := st } := by
  unfold Alesh.pooled
  split
  · exact ⟨a.red.stall, rfl⟩
  · exact a.stopPool_red

theorem Alesh.pooled_node (a : Alesh) (p : Part) : (a.pooled p).node = a.node := by
  unfold Alesh.pooled
  split
  · rfl
  · exact (Alesh.num_wrap ..).trans (if_neg (by decide))

/-- The partials held that a partial does not stand for. -/
def Alesh.heldBeside (a : Alesh) (p : Part) : List Part :=
  a.red.held.filter fun q => !(q.kind == p.kind && q.gsid == p.gsid && q.epoch == p.epoch && nodeInside q.level q.index p.level p.index)
/-- The sources known once a partial is held. -/
def Alesh.sourcesWith (a : Alesh) (p : Part) : List (Nat × Nat × Nat) :=
  if (p.kind == kDense || p.kind == kSparse) && p.peer != a.node && !a.red.sources.contains (p.gsid, p.epoch, p.peer) then
    a.red.sources ++ [(p.gsid, p.epoch, p.peer)]
  else a.red.sources
/-- The core once a partial is held, before any combine. -/
def Alesh.holding (a : Alesh) (p : Part) : Alesh :=
  { a.pooled p with red := { (a.pooled p).red with held := a.heldBeside p ++ [p], sources := a.sourcesWith p } }

/-- A partial that the table of R132 admits is held; then the core tries to combine. -/
theorem Alesh.takePart_of_takes {a : Alesh} {p : Part} (h : a.takes p) : a.takePart p =
    if p.kind = kHdr then (a.holding p).headerCombine p.epoch
    else if p.kind = kLse then a.holding p
    else (a.holding p).ownerCombine p.gsid p.epoch := by
  obtain ⟨hepoch, hnew⟩ := h
  have hlive : ¬(p.epoch < a.partEpoch p.kind p.gsid ∨ a.partEpoch p.kind p.gsid + 1 < p.epoch) := by omega
  have hdup : ¬(a.red.held.any fun q => q.kind == p.kind && q.gsid == p.gsid && q.epoch == p.epoch
      && nodeInside p.level p.index q.level q.index) = true := by
    simpa [and_assoc] using hnew
  have hpool : (if !a.inReserve p && !a.poolRoom (a.partPages p) then a.stopPool else a) = a.pooled p := by
    unfold Alesh.pooled
    cases a.inReserve p <;> cases a.poolRoom (a.partPages p) <;> rfl
  have hheld : (a.pooled p).red.held = a.red.held := by obtain ⟨st, h⟩ := a.pooled_red p; rw [h]
  have hsources : (a.pooled p).red.sources = a.red.sources := by obtain ⟨st, h⟩ := a.pooled_red p; rw [h]
  unfold Alesh.takePart
  simp only [hlive, hdup, if_false, hpool, hheld, hsources]
  rfl

/-- A dense partial that is held leads to owner combine. -/
theorem Alesh.tookDense_takePart {a : Alesh} {p : Part} (hk : p.kind = kDense) (h : a.takes p) : a.tookDense p (a.takePart p) := by
  have htake : a.takePart p = (a.holding p).ownerCombine p.gsid p.epoch := by
    rw [Alesh.takePart_of_takes h, if_neg (by rw [hk]; decide), if_neg (by rw [hk]; decide)]
  have hsources : a.sourcesWith p = if p.peer = a.node ∨ (p.gsid, p.epoch, p.peer) ∈ a.red.sources then a.red.sources
      else a.red.sources ++ [(p.gsid, p.epoch, p.peer)] := by
    by_cases hpeer : p.peer = a.node <;> by_cases hmem : (p.gsid, p.epoch, p.peer) ∈ a.red.sources <;>
      simp [Alesh.sourcesWith, hk, hpeer, hmem]
  have hpooled := Pooled.ownerCombine (a.holding p) p.gsid p.epoch
  obtain ⟨st, hst⟩ := a.pooled_red p
  have hred : (a.takePart p).red = { (a.pooled p).red with held := a.heldBeside p ++ [p], sources := a.sourcesWith p } := by
    rw [htake, hpooled.frame]
    rfl
  unfold Alesh.tookDense
  refine ⟨?_, fun r ho hnew hp hroom hroot => ?_, fun hr x hx => ?_, ?_⟩
  · rw [hred, hsources, Alesh.pooled_node]
    simp only [hst]
    rfl
  · have hroot' : (a.holding p).rootOf (fun k => k == kDense || k == kSparse) p.gsid p.epoch (a.holding p).depth 0 = some r := by
      rw [← hroot, Alesh.rootOf, Alesh.rootOf, hred]
      rfl
    rw [htake]
    exact Alesh.ownerCombine_grad? (a := a.holding p) ho hnew hp hroom hroot'
  · rw [htake]
    exact hpooled.mem0 hr x hx
  · rw [htake, hpooled.frame]
    rfl

/-- Only a dense partial's fields make a dense partial. -/
theorem Alesh.partIn_of_dense (a : Alesh) (src : Nat) {x : PartArgs} (hk : x.kind = kDense) (b : Bytes) :
    a.partIn src x b = a.takePart (a.densePart src x b) := by
  simp [Alesh.partIn, Alesh.densePart, hk, kDense, kSparse, kHdr, kHdrRoot, kNorm, kNormRoot, kLse]

/-- The first clause of O25. -/
theorem partRx_dense {s : State} {now : Nat} {m : Pkt} (h : Arrives s.alesh tPart m) (hj : s.alesh.joinedOrJob = true) {a : Alesh}
    (ha : s.alesh.heard now m.src = a) {x : PartArgs} (hx : PartArgs.ofNat m.args = x) (hk : x.kind = kDense)
    (hok : s.alesh.partOk x m.payload = true) (htakes : a.takes (a.densePart m.src x m.payload)) :
    Gives (.partRx now m) s (a.tookDense (a.densePart m.src x m.payload)) := by
  have hrx : Alesh.partRx now m s.alesh = (s.alesh.heard now m.src).partIn m.src x m.payload :=
    Alesh.partRx_of_arrives hx h hj hok (by rw [hk]; decide)
  refine gives_onCore (f := Alesh.partRx now m) rfl ?_
  rw [hrx, ha, Alesh.partIn_of_dense _ _ hk]
  exact Alesh.tookDense_takePart rfl htakes

/-! ### The header root (R128, R132) -/

/-- A live HEADER_ROOT that some header slice still lacks is marked as held, once, and goes to every header slice. -/
theorem Alesh.takeHeaderRoot_of_live {a : Alesh} {e : Nat} {b : Bytes} (hlive : a.epochStale e = false)
    (hlack : ∃ g ∈ a.take.owned.filter isHeader, a.grad? g e = none) : ∃ l : List Part, (∀ q ∈ a.red.held, q ∈ l) ∧
      a.takeHeaderRoot e b = ({ a with red := { a.red with held := l } }).setHeaderGrad e
        (sliceValues (a.gradCount 0) (b.take (4 * a.gradCount 0))) := by
  obtain ⟨g, hg, hnone⟩ := hlack
  have hall : ((a.take.owned.filter isHeader).all fun g => (a.grad? g e).isSome) = false :=
    List.all_eq_false.2 ⟨g, hg, by simp [hnone]⟩
  unfold Alesh.takeHeaderRoot
  simp only [hlive, hall, Bool.false_and, Bool.false_eq_true, if_false]
  split
  · exact ⟨a.red.held, fun q hq => hq, rfl⟩
  · exact ⟨_, fun q hq => List.mem_append_left _ hq, rfl⟩

/-- The second clause of O25. -/
theorem headerRootRx_gives {s : State} {now : Nat} {m : Pkt} (h : Arrives s.alesh tPart m) (hj : s.alesh.joinedOrJob = true) {a : Alesh}
    (ha : s.alesh.heard now m.src = a) {e : Nat} (he : a.epochOf (PartArgs.ofNat m.args).epochLo = e)
    (hok : s.alesh.partOk (PartArgs.ofNat (m.args % 2 ^ 60 + kHdrRoot * 2 ^ 60)) m.payload = true)
    (hlive : e = a.classEpoch ∨ e = a.classEpoch + 1) {heads : List Nat} (hheads : a.take.owned.filter isHeader = heads)
    (hroom : heads.length * gradPages (a.gradCount 0) ≤ a.poolFree.length) (hlack : ∃ g ∈ heads, a.grad? g e = none) :
    Gives (.headerRootRx now m) s fun b =>
      (∀ g ∈ heads, (a.prog? g).isSome = true → a.grad? g e = none →
        b.grad? g e = some (sliceValues (a.gradCount 0) (m.payload.take (4 * a.gradCount 0)))) ∧
      (∀ q ∈ a.red.held, q ∈ b.red.held) ∧
      b = { a with progs := b.progs, red := { a.red with held := b.red.held }, mem0 := b.mem0 } := by
  subst hheads
  refine gives_onCore (f := Alesh.partRx now (asKind kHdrRoot m)) rfl ?_
  have hlen : 4 * a.gradCount 0 ≤ m.payload.length := by
    have hcount : s.alesh.gradCount 0 = a.gradCount 0 := by
      rw [← ha]; exact (Alesh.num_heard ..).symm
    rw [PartArgs.ofNat_asKind (by decide)] at hok
    have hbytes : m.payload.length = gradPages (s.alesh.gradCount 0) * pageBytes := by
      simp only [Alesh.partOk, kDense, kSparse, kHdr, kHdrRoot, Nat.reduceEqDiff, if_false, if_true, Bool.and_eq_true, beq_iff_eq] at hok
      exact hok.2
    rw [hbytes, hcount]
    exact le_gradPages_mul _
  have hin : a.partIn m.src { PartArgs.ofNat m.args with kind := kHdrRoot } m.payload = a.takeHeaderRoot e m.payload := by
    simp [Alesh.partIn, he, kHdrRoot, kNorm, kNormRoot]
  obtain ⟨l, hkept, htake⟩ := Alesh.takeHeaderRoot_of_live (b := m.payload) (Alesh.epochStale_eq_false_iff.2 hlive) hlack
  rw [Alesh.partRx_asKind h hj (by decide) hok, ha, hin, htake, Alesh.setHeaderGrad_eq]
  set v := sliceValues (a.gradCount 0) (m.payload.take (4 * a.gradCount 0))
  have hv : v.length = a.gradCount 0 := length_sliceValues hlen
  have hgrad (g : Nat) := Alesh.foldl_headerStep_grad? e v (a.take.owned.filter isHeader)
    (a := { a with red := { a.red with held := l } }) (by rw [hv]; exact hroom) (h := g)
  obtain ⟨ps, mem, hframe⟩ := Alesh.foldl_headerStep_frame e v (a.take.owned.filter isHeader) { a with red := { a.red with held := l } }
  refine ⟨fun g hg hp hnone => hgrad g hg hp hnone, ?_, ?_⟩
  · rw [hframe]; exact hkept
  · rw [hframe]

/-! ### Norm entries and roots (R130) -/

/-- An entry is held at an epoch, unless one like it is held. -/
def addEntry (same : NormEnt → NormEnt → Bool) (e : Nat) (l : List NormEnt) (n : NormEnt) : List NormEnt :=
  if l.any (same n) then l else l ++ [{ n with epoch := e }]
/-- Entries are held one by one. -/
def addEntries (same : NormEnt → NormEnt → Bool) (e : Nat) (es l : List NormEnt) : List NormEnt := es.foldl (addEntry same e) l

theorem mem_addEntry (same : NormEnt → NormEnt → Bool) (e : Nat) (n : NormEnt) {l : List NormEnt} {q : NormEnt} (hq : q ∈ l) :
    q ∈ addEntry same e l n := by
  unfold addEntry
  split
  · exact hq
  · exact List.mem_append_left _ hq

theorem mem_addEntries (same : NormEnt → NormEnt → Bool) (e : Nat) (es : List NormEnt) {l : List NormEnt} {q : NormEnt} (hq : q ∈ l) :
    q ∈ addEntries same e es l := by
  induction es generalizing l with
  | nil => exact hq
  | cons n es ih => exact ih (mem_addEntry same e n hq)

/-- An entry is held then, or one like it. -/
theorem exists_mem_addEntry {same : NormEnt → NormEnt → Bool} {e : Nat} {n : NormEnt} (hself : same n { n with epoch := e } = true)
    (l : List NormEnt) : ∃ q ∈ addEntry same e l n, same n q = true := by
  unfold addEntry
  split
  · next hany => exact List.any_eq_true.1 hany
  · exact ⟨_, List.mem_append_right _ (List.mem_singleton_self _), hself⟩

theorem exists_mem_addEntries {same : NormEnt → NormEnt → Bool} {e : Nat} (hself : ∀ n : NormEnt, same n { n with epoch := e } = true)
    {es : List NormEnt} {n : NormEnt} (hn : n ∈ es) (l : List NormEnt) : ∃ q ∈ addEntries same e es l, same n q = true := by
  induction es generalizing l with
  | nil => exact absurd hn List.not_mem_nil
  | cons x es ih =>
    rcases List.mem_cons.1 hn with rfl | hn
    · obtain ⟨q, hq, hsame⟩ := exists_mem_addEntry (hself n) l
      exact ⟨q, mem_addEntries same e es hq, hsame⟩
    · exact ih hn _

/-- One entry like another for a combiner: of one epoch, key and slice. -/
def sameNorm (e : Nat) (n q : NormEnt) : Bool := q.epoch == e && q.key == n.key && q.gsid == n.gsid
/-- One root like another: of one epoch and key. -/
def sameRoot (e : Nat) (n q : NormEnt) : Bool := q.epoch == e && q.key == n.key

/-- The core with other norm entries. -/
def Alesh.withNorms (a : Alesh) (l : List NormEnt) : Alesh := { a with red := { a.red with norms := l } }
/-- The core with other norm roots. -/
def Alesh.withRoots (a : Alesh) (l : List NormEnt) : Alesh := { a with red := { a.red with roots := l } }

theorem Alesh.foldl_addNorms (e : Nat) (es : List NormEnt) (a : Alesh) :
    es.foldl (fun (c : Alesh) (n : NormEnt) =>
      if c.red.norms.any fun q => q.epoch == e && q.key == n.key && q.gsid == n.gsid then c
      else { c with red := { c.red with norms := c.red.norms ++ [{ n with epoch := e }] } }) a =
    a.withNorms (addEntries (sameNorm e) e es a.red.norms) := by
  induction es generalizing a with
  | nil => rfl
  | cons n es ih =>
    have hstep : (if a.red.norms.any fun q => q.epoch == e && q.key == n.key && q.gsid == n.gsid then a
        else { a with red := { a.red with norms := a.red.norms ++ [{ n with epoch := e }] } }) =
        a.withNorms (addEntry (sameNorm e) e a.red.norms n) := by
      have hany : (a.red.norms.any fun q => q.epoch == e && q.key == n.key && q.gsid == n.gsid) = a.red.norms.any (sameNorm e n) := rfl
      rw [hany, addEntry]
      split <;> rfl
    rw [List.foldl_cons, hstep, ih]
    rfl

theorem Alesh.foldl_addRoots (e : Nat) (es : List NormEnt) (a : Alesh) :
    es.foldl (fun (c : Alesh) (n : NormEnt) =>
      if c.red.roots.any fun q => q.epoch == e && q.key == n.key then c
      else { c with red := { c.red with roots := c.red.roots ++ [{ n with epoch := e }] } }) a =
    a.withRoots (addEntries (sameRoot e) e es a.red.roots) := by
  induction es generalizing a with
  | nil => rfl
  | cons n es ih =>
    have hstep : (if a.red.roots.any fun q => q.epoch == e && q.key == n.key then a
        else { a with red := { a.red with roots := a.red.roots ++ [{ n with epoch := e }] } }) =
        a.withRoots (addEntry (sameRoot e) e a.red.roots n) := by
      have hany : (a.red.roots.any fun q => q.epoch == e && q.key == n.key) = a.red.roots.any (sameRoot e n) := rfl
      rw [hany, addEntry]
      split <;> rfl
    rw [List.foldl_cons, hstep, ih]
    rfl

/-- No entry of a packet differs in OPCODE from another of its key, held or of the packet. -/
def OpsAgree (e : Nat) (es l : List NormEnt) : Prop := ∀ n ∈ es, ∀ q, (q ∈ l ∧ q.epoch = e ∨ q ∈ es) → q.key = n.key → q.op = n.op

theorem opsAgree_any {e : Nat} {es l : List NormEnt} (h : OpsAgree e es l) :
    (es.any fun n => ((es.map fun m => ({ m with epoch := e } : NormEnt)) ++ l).any fun q =>
      q.epoch == e && q.key == n.key && q.op != n.op) = false := by
  rw [List.any_eq_false]
  intro n hn
  rw [Bool.not_eq_true, List.any_eq_false]
  intro q hq hbad
  simp only [Bool.and_eq_true, beq_iff_eq, bne_iff_ne, ne_eq] at hbad
  obtain ⟨⟨hepoch, hkey⟩, hop⟩ := hbad
  rcases List.mem_append.1 hq with hq | hq
  · obtain ⟨m, hm, rfl⟩ := List.mem_map.1 hq
    exact hop (h n hn m (.inr hm) hkey)
  · exact hop (h n hn q (.inl ⟨hq, hepoch⟩) hkey)

/-- From one core to another by packets alone. -/
def OnlySends (a b : Alesh) : Prop := b = { a with ports := b.ports }

theorem OnlySends.refl (a : Alesh) : OnlySends a a := rfl

theorem OnlySends.trans {a b c : Alesh} (hab : OnlySends a b) (hbc : OnlySends b c) : OnlySends a c := by
  unfold OnlySends at *
  refine hbc.trans ?_
  rw [hab]

theorem OnlySends.foldl {ι : Type} {f : Alesh → ι → Alesh} (hf : ∀ a x, OnlySends a (f a x)) (l : List ι) (a : Alesh) :
    OnlySends a (l.foldl f a) := by
  induction l generalizing a with
  | nil => exact refl a
  | cons x l ih => exact (hf a x).trans (ih (f a x))

theorem OnlySends.send (a : Alesh) (typ dst args : Nat) (b : Bytes) : OnlySends a (a.send typ dst args b) := Alesh.emit_frame a _

/-- Live entries of agreeing OPCODEs are held at the combiner, which then sends the roots that they complete. -/
theorem Alesh.takeNorms_of_live {a : Alesh} {e : Nat} {es : List NormEnt} (hlive : a.epochStale e = false)
    (hops : OpsAgree e es a.red.norms) :
    OnlySends (a.withNorms (addEntries (sameNorm e) e es a.red.norms)) (a.takeNorms e es) := by
  unfold Alesh.takeNorms
  simp only [hlive, opsAgree_any hops, Bool.false_eq_true, if_false, Alesh.foldl_addNorms]
  split
  · exact .refl _
  · refine OnlySends.foldl (fun c k => ?_) _ _
    split
    · split
      · exact OnlySends.foldl (fun d n => .send d ..) _ c
      · exact .refl c
    · exact .refl c

/-- Live roots of agreeing OPCODEs are held. -/
theorem Alesh.takeRoots_of_live {a : Alesh} {e : Nat} {es : List NormEnt} (hlive : a.epochStale e = false)
    (hops : OpsAgree e es a.red.roots) :
    a.takeRoots e es = a.withRoots (addEntries (sameRoot e) e es a.red.roots) := by
  unfold Alesh.takeRoots
  simp only [hlive, opsAgree_any hops, Bool.false_eq_true, if_false, Alesh.foldl_addRoots]

section
variable {s : State} {now : Nat} {m : Pkt} (h : Arrives s.alesh tPart m) (hj : s.alesh.joinedOrJob = true) {a : Alesh}
  (ha : s.alesh.heard now m.src = a) {e : Nat} (he : a.epochOf (PartArgs.ofNat m.args).epochLo = e)
  (hlive : e = a.classEpoch ∨ e = a.classEpoch + 1)
include h hj ha he hlive

/-- The third clause of O25. -/
theorem normRx_gives (hok : s.alesh.partOk (PartArgs.ofNat (m.args % 2 ^ 60 + kNorm * 2 ^ 60)) m.payload = true)
    (hops : OpsAgree e (normEntries e m.payload) a.red.norms) : Gives (.normRx now m) s fun b =>
      (∀ n ∈ normEntries e m.payload, ∃ q ∈ b.red.norms, q.epoch = e ∧ q.key = n.key ∧ q.gsid = n.gsid) ∧
      (∀ q ∈ a.red.norms, q ∈ b.red.norms) ∧ b = { a with red := { a.red with norms := b.red.norms }, ports := b.ports } := by
  refine gives_onCore (f := Alesh.partRx now (asKind kNorm m)) rfl ?_
  have hin : a.partIn m.src { PartArgs.ofNat m.args with kind := kNorm } m.payload = a.takeNorms e (normEntries e m.payload) := by
    simp [Alesh.partIn, he]
  have htake := Alesh.takeNorms_of_live (Alesh.epochStale_eq_false_iff.2 hlive) hops
  rw [Alesh.partRx_asKind h hj (by decide) hok, ha, hin]
  generalize a.takeNorms e (normEntries e m.payload) = b at *
  have hred : b.red = (a.withNorms (addEntries (sameNorm e) e (normEntries e m.payload) a.red.norms)).red := by rw [htake]
  rw [hred]
  refine ⟨fun n hn => ?_, fun q hq => mem_addEntries _ e _ hq, htake⟩
  obtain ⟨q, hq, hsame⟩ := exists_mem_addEntries (same := sameNorm e) (e := e) (fun n => by simp [sameNorm]) hn a.red.norms
  simp only [sameNorm, Bool.and_eq_true, beq_iff_eq] at hsame
  obtain ⟨⟨hepoch, hkey⟩, hgsid⟩ := hsame
  exact ⟨q, hq, hepoch, hkey, hgsid⟩

/-- The fourth clause of O25. -/
theorem normRootRx_gives (hok : s.alesh.partOk (PartArgs.ofNat (m.args % 2 ^ 60 + kNormRoot * 2 ^ 60)) m.payload = true)
    (hops : OpsAgree e (normEntries e m.payload) a.red.roots) : Gives (.normRootRx now m) s fun b =>
      (∀ n ∈ normEntries e m.payload, ∃ q ∈ b.red.roots, q.epoch = e ∧ q.key = n.key) ∧ (∀ q ∈ a.red.roots, q ∈ b.red.roots) ∧
      b = { a with red := { a.red with roots := b.red.roots } } := by
  refine gives_onCore (f := Alesh.partRx now (asKind kNormRoot m)) rfl ?_
  have hin : a.partIn m.src { PartArgs.ofNat m.args with kind := kNormRoot } m.payload = a.takeRoots e (normEntries e m.payload) := by
    simp [Alesh.partIn, he, kNorm, kNormRoot]
  rw [Alesh.partRx_asKind h hj (by decide) hok, ha, hin, Alesh.takeRoots_of_live (Alesh.epochStale_eq_false_iff.2 hlive) hops]
  refine ⟨fun n hn => ?_, fun q hq => mem_addEntries _ e _ hq, rfl⟩
  obtain ⟨q, hq, hsame⟩ := exists_mem_addEntries (same := sameRoot e) (e := e) (fun n => by simp [sameRoot]) hn a.red.roots
  simp only [sameRoot, Bool.and_eq_true, beq_iff_eq] at hsame
  exact ⟨q, hq, hsame⟩

end

/-! ### Attention partials (R144) -/

/-- The last clause of O25: an attention partial is held, and nothing is combined. -/
theorem lseRx_holds {s : State} {now : Nat} {m : Pkt} (h : Arrives s.alesh tPart m) (hj : s.alesh.joinedOrJob = true) {a : Alesh}
    (ha : s.alesh.heard now m.src = a) {x : PartArgs} (hx : PartArgs.ofNat m.args = x) {mg : PlanMerge}
    (hm : a.plan.merges[x.shard]? = some mg) {e : Nat} (he : a.epochOf x.epochLo = e) {n : Nat × Nat} (hn : treeLevel mg.log2 x.node = n)
    (hok : s.alesh.partOk (PartArgs.ofNat (m.args % 2 ^ 60 + kLse * 2 ^ 60)) m.payload = true) {p : Part}
    (hp : p = { kind := kLse, epoch := e, gsid := x.gsid, level := n.1, index := n.2, val := .lse m.payload, peer := m.src })
    {c : Alesh} (hc : a.pooled p = c) (htakes : a.takes p) : Gives (.lseRx now m) s fun b => b = { c with red := { c.red with
      held := a.red.held.filter (fun q =>
        !(q.kind == kLse && q.gsid == x.gsid && q.epoch == e && nodeInside q.level q.index n.1 n.2)) ++ [p] } } := by
  subst hx hc
  refine gives_onCore (f := Alesh.partRx now (asKind kLse m)) rfl ?_
  have hin : a.partIn m.src { PartArgs.ofNat m.args with kind := kLse } m.payload = a.takePart p := by
    simp [Alesh.partIn, PartArgs.gsid, hm, hp, he, hn, kHdrRoot, kNorm, kNormRoot, kLse]
  have hkind : p.kind = kLse := by rw [hp]
  have hsources : a.sourcesWith p = (a.pooled p).red.sources := by
    obtain ⟨st, hst⟩ := a.pooled_red p
    rw [hst, Alesh.sourcesWith, hkind]
    rfl
  have hheld : a.heldBeside p =
      a.red.held.filter fun q =>
        !(q.kind == kLse && q.gsid == (PartArgs.ofNat m.args).gsid && q.epoch == e && nodeInside q.level q.index n.1 n.2) := by
    rw [Alesh.heldBeside, hp]
  rw [Alesh.partRx_asKind h hj (by decide) hok, ha, hin, Alesh.takePart_of_takes htakes, if_neg (by rw [hkind]; decide), if_pos hkind,
    Alesh.holding, hsources, hheld]

/-- Settles O25: a PART that arrives reaches `partIn`, and each kind is held by its own operation. -/
theorem partsAreHeldByTheirEpoch : Obligations.PartsAreHeldByTheirEpoch := by
  unfold Obligations.PartsAreHeldByTheirEpoch
  intro s now m h hj a args x e live heads used room
  refine ⟨fun hk hok htakes => partRx_dense h hj rfl rfl hk hok htakes,
    fun hok hlive hroom hlack => headerRootRx_gives h hj rfl rfl hok hlive rfl hroom hlack,
    fun hok hlive hops => normRx_gives h hj rfl rfl hlive hok hops,
    fun hok hlive hops => normRootRx_gives h hj rfl rfl hlive hok hops,
    fun mg hm hok hlive => ?_⟩
  intro n p c htakes
  exact lseRx_holds h hj rfl rfl hm rfl rfl hok rfl rfl htakes

end Sys2Proof.Machine
end

section
/-! SUPPORT. Bundles of one member, and RETAIN_REL (R133, R145, R146, R186). -/
namespace Sys2Proof.Machine

/-! ### A bundle's member (R145, R146) -/

/-- A core that has heard a packet at a time stands at that time. -/
theorem Alesh.heard_at (a : Alesh) (now src : Nat) : (a.heard now src).at now = a.heard now src := by
  have hclock : (a.heard now src).clock = (a.at now).clock := by rw [Alesh.heard, Alesh.hear_frame]
  have hlate : ¬((a.at now).clock.valid = true ∧ (a.at now).clock.captured < now) := by
    intro ⟨hvalid, hlt⟩
    have hmax := Alesh.now_at a now
    rw [Alesh.valid_at] at hvalid
    rw [hvalid, if_pos rfl] at hmax
    unfold Alesh.now at hmax
    omega
  rw [Alesh.at, hclock, if_neg (by simpa using hlate)]

theorem Alesh.at_now (a : Alesh) : a.at a.now = a := by
  simp [Alesh.at, Alesh.now]

/-- Receipt at two times at which the core stands alike is the same. -/
theorem Alesh.receive_of_at_eq {a : Alesh} {t u : Nat} (h : a.at t = a.at u) (typ : Nat) (m : Pkt) (ok open_ : Bool)
    (f : Alesh → Alesh) : a.receive t typ m ok open_ f = a.receive u typ m ok open_ f := by
  unfold Alesh.receive Alesh.receiveFrom
  rw [h]

/-- The kind that a member's header names. -/
theorem memberPkt_kind (b : Bytes) (d : DirEntry) : (PartArgs.ofNat (memberPkt b d).args).kind = bf d.header 60 4 := by
  simp only [memberPkt, PartArgs.ofNat, bf]
  omega

theorem bundleOk_member {b : Bytes} (hok : bundleOk b = true) {d : DirEntry} (hd : d ∈ bundleOf b) :
    (PartArgs.ofNat (memberPkt b d).args).kind ≠ kBundle := by
  unfold bundleOk at hok
  simp only [Bool.and_eq_true, List.all_eq_true] at hok
  obtain ⟨⟨-, hall⟩, -⟩ := hok
  obtain ⟨⟨-, hkind⟩, -⟩ := hall d hd
  rw [memberPkt_kind]
  exact bne_iff_ne.1 hkind

/-- A PART that is no BUNDLE comes as a member does. -/
theorem Alesh.partOne_eq_partRx {a : Alesh} {now : Nat} (hnow : a.at now = a) {m : Pkt} (htyp : m.typ = tPart)
    (hk : (PartArgs.ofNat m.args).kind ≠ kBundle) : a.partOne a.now m = a.partRx now m := by
  have hok : (m.typ == tPart && a.partOk (PartArgs.ofNat m.args) m.payload && (PartArgs.ofNat m.args).kind != kBundle) =
      (a.partOk (PartArgs.ofNat m.args) m.payload && ((PartArgs.ofNat m.args).kind != kBundle || bundleOk m.payload)) := by
    rw [htyp, bne_iff_ne.2 hk, beq_self_eq_true, Bool.true_and, Bool.and_true, Bool.true_or, Bool.and_true]
  have heffect : (fun b : Alesh => if b.joinedOrJob then b.partIn m.src (PartArgs.ofNat m.args) m.payload else b) =
      fun b : Alesh => if !b.joinedOrJob then b
        else if (PartArgs.ofNat m.args).kind = kBundle then b.bundleIn m.payload
        else b.partIn m.src (PartArgs.ofNat m.args) m.payload := by
    funext b
    cases b.joinedOrJob <;> simp [hk]
  unfold Alesh.partOne Alesh.partRx
  rw [Alesh.receive_of_at_eq (a.at_now.trans hnow.symm), hok, heffect]

/-- A BUNDLE whose ARGS name no node is well-formed as a PART. -/
theorem Alesh.partOk_bundle (a : Alesh) {w : Nat} (hw : bf w 0 52 = 0) (b : Bytes) :
    a.partOk { PartArgs.ofNat w with kind := kBundle } b = true := by
  have hfields : (PartArgs.ofNat w).node = 0 ∧ (PartArgs.ofNat w).shard = 0 ∧ (PartArgs.ofNat w).slice = 0 := by
    simp only [PartArgs.ofNat, bf] at hw ⊢
    omega
  obtain ⟨hnode, hshard, hslice⟩ := hfields
  simp [Alesh.partOk, hnode, hshard, hslice, kDense, kSparse, kHdr, kHdrRoot, kNorm, kNormRoot, kLse, kBundle]

/-- A well-formed bundle of one member has that member's effect. -/
theorem bundleRx_of_single {a : Alesh} {now : Nat} {m : Pkt} {d : DirEntry} (h : Arrives a tPart m) (hj : a.joinedOrJob = true)
    (hone : bundleOf m.payload = [d]) (hok : bundleOk m.payload = true) (hargs : bf m.args 0 52 = 0)
    (htyp : (memberPkt m.payload d).typ = tPart) :
    a.partRx now (asKind kBundle m) = (a.heard now m.src).partRx now (memberPkt m.payload d) := by
  have hx : PartArgs.ofNat (m.args % 2 ^ 60 + kBundle * 2 ^ 60) = { PartArgs.ofNat m.args with kind := kBundle } :=
    PartArgs.ofNat_asKind (by decide) m.args
  have hwhole : (a.partOk { PartArgs.ofNat m.args with kind := kBundle } m.payload &&
      (({ PartArgs.ofNat m.args with kind := kBundle } : PartArgs).kind != kBundle || bundleOk m.payload)) = true := by
    simp [a.partOk_bundle hargs, hok]
  rw [asKind]
  generalize m.args % 2 ^ 60 + kBundle * 2 ^ 60 = w at hx
  have hmember := Alesh.partOne_eq_partRx (Alesh.heard_at a now m.src) htyp (bundleOk_member hok (hone ▸ List.mem_singleton_self d))
  rw [Alesh.partRx]
  simp only [hx]
  rw [Alesh.receive_open_of_arrives (m := { m with args := w }) h hwhole]
  simp only [Alesh.heard_joinedOrJob, hj, Bool.not_true, Bool.false_eq_true, if_false, if_true, Alesh.bundleIn, hone, List.foldl_cons,
    List.foldl_nil]
  exact hmember

/-- The first clause of O26: the member comes to the core that has heard the bundle's source. -/
theorem bundleRx_eq {s : State} {now : Nat} {m : Pkt} {d : DirEntry} (h : Arrives s.alesh tPart m) (hj : s.alesh.joinedOrJob = true)
    (hone : bundleOf m.payload = [d]) (hok : bundleOk m.payload = true) (hargs : bf m.args 0 52 = 0)
    (htyp : (memberPkt m.payload d).typ = tPart) :
    exec (.bundleRx now m) s = exec (.partRx now (memberPkt m.payload d)) { s with alesh := s.alesh.heard now m.src } := by
  have hcore := bundleRx_of_single (now := now) h hj hone hok hargs htyp
  show onCore (Alesh.partRx now (asKind kBundle m)) s =
    onCore (Alesh.partRx now (memberPkt m.payload d)) { s with alesh := s.alesh.heard now m.src }
  rw [onCore, hcore]
  rfl

/-! ### RETAIN_REL (R133, R186) -/

theorem Alesh.sendWaiting_of_nil {a : Alesh} (h : a.red.waiting = []) : a.sendWaiting = a := by
  unfold Alesh.sendWaiting
  simp only [h, List.filter_nil, List.foldl_nil]
  rw [← h]

theorem retainRelRx_gives {s : State} {now : Nat} {m : Pkt} (h : Arrives s.alesh tRetainRel m) (hpay : m.payload = [])
    (hshard : bf m.args 16 16 ≠ 0xFFFF) {a : Alesh} (ha : s.alesh.heard now m.src = a) {g e : Nat} (hg : bf m.args 0 32 = g)
    (he : a.epochOf (bf m.args 56 8) = e) (howner : a.ownerOf g = m.src) (hwait : a.red.waiting = []) :
    Gives (.retainRelRx now m) s fun b =>
      b.red = { a.red with retained := a.red.retained.filter fun p => !(p.gsid == g && p.epoch == e && p.kind != kHdr) } ∧
      b.num O.RETAIN_USED = sumNat (b.red.retained.map a.partPages) ∧ SameBut [O.RETAIN_USED] [] a b ∧
      b = { a with red := b.red, dict := b.dict } := by
  subst hg he
  refine gives_onCore (f := Alesh.retainRelRx now m) rfl ?_
  have hok : (m.payload.isEmpty && bf m.args 16 16 != 0xFFFF) = true := by simp [hpay, hshard]
  unfold Alesh.retainRelRx
  rw [Alesh.receive_open_of_arrives h hok, ha, if_pos howner]
  rw [Alesh.sendWaiting_of_nil (by exact hwait)]
  refine ⟨rfl, ?_, sameBut_setNum .., rfl⟩
  exact Alesh.num_setNum_same ..

/-- Settles O26: a member's header makes the PART that `partOne` takes, and RETAIN_REL filters what is retained. -/
theorem bundlesAndRetentionRelease : Obligations.BundlesAndRetentionRelease := by
  unfold Obligations.BundlesAndRetentionRelease
  refine ⟨fun s now m d h hj hone hok hargs => ?_, fun s now m h hpay hshard => ?_⟩
  · intro p t htyp
    have hexec := bundleRx_eq (now := now) h hj hone hok hargs htyp
    refine ⟨hexec, fun harr hk hpart htakes => ?_⟩
    obtain ⟨b, hb, htook⟩ := partRx_dense (s := t) (now := now) harr ((Alesh.heard_joinedOrJob ..).trans hj) rfl rfl hk hpart htakes
    exact ⟨b, hexec.trans hb, htook⟩
  · intro a g e howner hwait
    exact retainRelRx_gives h hpay hshard rfl rfl rfl howner hwait

end Sys2Proof.Machine
end

section
/-! SUPPORT. Nodes formed here: what counting, giving slots back and sending leave as it is, and the sending of a node (R124, R126, R127,
R131, R133, R136, R140, R144). -/
namespace Sys2Proof.Machine

/-! ### What forming and sending a node may change -/

theorem lookupD_assign_ne {β : Type} (d : β) (l : List (Nat × β)) {k j : Nat} (h : k ≠ j) (v : β) :
    lookupD d (assign l k v) j = lookupD d l j := by
  induction l with
  | nil => simp [assign, lookupD, h]
  | cons p r ih =>
    obtain ⟨k', v'⟩ := p
    by_cases hk : k' = k
    · subst hk; simp [assign, lookupD, h]
    · by_cases hj : k' = j
      · subst hj; simp [assign, lookupD, hk]
      · simp [assign, lookupD, hk, hj, ih]

/-- The counters of forming and sending a node. -/
def nodeCounts : List Nat := [O.SPARSE_DROP_COUNT, O.SPARSE_MALFORMED_COUNT, O.RETAIN_USED, O.BUNDLE_SMALL_COUNT]

/-- From one core to another by what forming and sending a node may change. -/
structure Forming (a c : Alesh) : Prop where
  frame : c = { a with red := c.red, chrono := c.chrono, dict := c.dict, cep := c.cep, ports := c.ports }
  same : SameBut nodeCounts [] a c
  layers : c.ownLayers = a.ownLayers

namespace Forming
variable {a b c : Alesh}

theorem refl (a : Alesh) : Forming a a := ⟨rfl, ⟨fun _ _ => rfl, fun _ _ => rfl⟩, rfl⟩

theorem trans (hab : Forming a b) (hbc : Forming b c) : Forming a c := by
  refine ⟨hbc.frame.trans ?_, ⟨fun k hk => (hbc.same.1 k hk).trans (hab.same.1 k hk), fun k hk => (hbc.same.2 k hk).trans (hab.same.2 k hk)⟩,
    hbc.layers.trans hab.layers⟩
  rw [hab.frame]

theorem parts (a : Alesh) (red : Red) (chrono : Chrono) (cep : Cep) (ports : Ports) :
    Forming a { a with red := red, chrono := chrono, cep := cep, ports := ports } := ⟨rfl, ⟨fun _ _ => rfl, fun _ _ => rfl⟩, rfl⟩

theorem setNum (a : Alesh) {k : Nat} (hk : k ∈ nodeCounts) (v : Nat) : Forming a (a.setNum k v) := by
  have hne (j : Nat) (hj : j ∉ nodeCounts) : k ≠ j := fun h => hj (h ▸ hk)
  refine ⟨rfl, ⟨fun j hj => Alesh.num_setNum_ne a v (hne j hj), fun _ _ => rfl⟩, ?_⟩
  show layerEntries (lookupD 0 (assign a.dict.nums k v) O.LAYER_COUNT) _ = _
  rw [lookupD_assign_ne 0 _ (hne O.LAYER_COUNT (by decide))]
  rfl

theorem emit (a : Alesh) (p : Pkt) : Forming a (a.emit p) := by
  rw [Alesh.emit_frame]
  exact parts a a.red a.chrono a.cep _

theorem send (a : Alesh) (typ dst args : Nat) (b : Bytes) : Forming a (a.send typ dst args b) := emit a _

/-! What a node's payload, its pages and its packet are made of stays as it is. -/

section
variable (h : Forming a c)
include h

theorem num {k : Nat} (hk : k ∉ nodeCounts) : c.num k = a.num k := h.same.1 k hk
theorem dom (k : Nat) : c.dom k = a.dom k := h.same.2 k List.not_mem_nil
theorem ctl : c.ctl = a.ctl := by rw [h.frame]
theorem take : c.take = a.take := by rw [h.frame]
theorem node : c.node = a.node := h.num (by decide)
theorem plan : c.plan = a.plan := congrArg Plan.parse (h.dom _)
theorem inJob : c.inJob = a.inJob := by rw [Alesh.inJob, h.ctl, Alesh.inJob]

theorem ownShard : c.ownShard = a.ownShard := h.num (by decide)
theorem recBytes : c.recBytes = a.recBytes := h.num (by decide)

theorem shardPages (n : Nat) : c.shardPages n = a.shardPages n := by
  unfold Alesh.shardPages
  rw [h.ownShard, h.take, h.num (by decide)]

theorem recBytesOf (n : Nat) : c.recBytesOf n = a.recBytesOf n := by
  unfold Alesh.recBytesOf
  rw [h.ownShard, h.take, h.recBytes]

theorem gradCount (g : Nat) : c.gradCount g = a.gradCount g := by
  unfold Alesh.gradCount Alesh.slicePages
  rw [h.recBytesOf, h.shardPages, h.num (by decide)]

theorem shardFirst (n : Nat) : c.shardFirst n = a.shardFirst n := by
  unfold Alesh.shardFirst
  rw [h.ownShard, h.take, h.layers, h.num (by decide)]

theorem elementBase (g : Nat) : c.elementBase g = a.elementBase g := by
  unfold Alesh.elementBase Alesh.perSlice
  rw [h.shardFirst, h.recBytes]

theorem sparseOf (g : Nat) : c.sparseOf g = a.sparseOf g := by
  have htable : c.sparseTable = a.sparseTable := by rw [Alesh.sparseTable, h.dom, h.num (by decide), Alesh.sparseTable]
  have hlayers : Alesh.layers c = a.layers := by rw [Alesh.layers, h.dom, h.num (by decide), Alesh.layers]
  unfold Alesh.sparseOf
  rw [h.ownShard, h.elementBase, htable, hlayers]

theorem nodePayload (g level : Nat) (v : NodeVal) : c.nodePayload g level v = a.nodePayload g level v := by
  have hspan : c.rowSpan g = a.rowSpan g := by
    funext s
    rw [Alesh.rowSpan, h.elementBase, h.gradCount, Alesh.rowSpan]
  unfold Alesh.nodePayload Alesh.sparseRows Alesh.sparseVals
  rw [h.sparseOf, h.gradCount, hspan]

theorem partPages : c.partPages = a.partPages := by
  funext p
  simp only [Alesh.partPages, h.nodePayload]

theorem partArgsOf (p : Part) : c.partArgsOf p = a.partArgsOf p := by
  unfold Alesh.partArgsOf Alesh.depth
  rw [h.plan, h.num (by decide)]

theorem cresol (typ dst args : Nat) (b : Bytes) : c.cresol typ dst args b = a.cresol typ dst args b := by
  unfold Alesh.cresol
  rw [h.node, h.num (k := O.ROUTE_EPOCH) (by decide), h.num (by decide)]

/-- A packet goes to the ports alike. -/
theorem emit_ports (hp : c.ports = a.ports) (p : Pkt) : (c.emit p).ports = (a.emit p).ports := by
  have hmemb : c.memb = a.memb := by rw [h.frame]
  have hclock : c.clock = a.clock := by rw [h.frame]
  have hgate : c.maySend = a.maySend ∧ c.joining = a.joining := by
    unfold Alesh.maySend Alesh.joining
    rw [h.ctl, hmemb, h.node]
    exact ⟨rfl, rfl⟩
  obtain ⟨hsend, hjoin⟩ := hgate
  rw [Alesh.emit_ports, Alesh.emit_ports, hsend, hjoin, h.node, hp, Alesh.now, hclock, h.num (by decide), Alesh.now]

end

end Forming

/-! ### Slots given back (R127, R425) -/

/-- Tokens that a unit posts one after another. -/
def Alesh.postEach (a : Alesh) (u : Nat) (ts : List Nat) : Alesh := ts.foldl (fun (d : Alesh) (t : Nat) => d.post u t) a

theorem Alesh.postEach_frame (u : Nat) (ts : List Nat) (a : Alesh) : a.postEach u ts = { a with cep := (a.postEach u ts).cep } := by
  induction ts generalizing a with
  | nil => rfl
  | cons t ts ih =>
    show (a.post u t).postEach u ts = { a with cep := ((a.post u t).postEach u ts).cep }
    rw [ih, Alesh.post_frame]

theorem Alesh.postEach_cep_congr {a c : Alesh} (hcep : c.cep = a.cep) (hctl : c.ctl = a.ctl) (u : Nat) (ts : List Nat) :
    (c.postEach u ts).cep = (a.postEach u ts).cep := by
  induction ts generalizing a c with
  | nil => exact hcep
  | cons t ts ih => exact ih (Alesh.post_cep_congr hctl hcep u t) (by rw [Alesh.post_ctl, Alesh.post_ctl, hctl])

/-- Where none waits and the queue has room, every token goes into it. -/
theorem Alesh.postEach_cep {a : Alesh} (hc : a.ctl.core ≠ .occulted) (hheld : a.cep.held = []) (u : Nat) (ts : List Nat)
    (hroom : a.cep.out.length + ts.length ≤ 256) : (a.postEach u ts).cep = { a.cep with out := a.cep.out ++ ts } := by
  induction ts generalizing a with
  | nil => rw [List.append_nil]; rfl
  | cons t ts ih =>
    rw [List.length_cons] at hroom
    have hpost : (a.post u t).cep = { a.cep with out := a.cep.out ++ [t] } :=
      (Alesh.post_cep hc u t).trans (if_pos ⟨hheld, by omega⟩)
    have hrest := ih (a := a.post u t) (by rw [Alesh.post_ctl]; exact hc) (by rw [hpost]; exact hheld)
      (by rw [hpost, List.length_append, List.length_singleton]; omega)
    rw [hpost, List.append_assoc] at hrest
    exact hrest

theorem Forming.postEach (a : Alesh) (u : Nat) (ts : List Nat) : Forming a (a.postEach u ts) := by
  rw [Alesh.postEach_frame]
  exact parts a a.red a.chrono _ a.ports

/-! ### Room in the pool (R131) -/

theorem sumNat_eq_sum (l : List Nat) : sumNat l = l.sum := List.sum_eq_foldl_nat.symm

theorem sumNat_le_of_sublist {l l' : List Nat} (h : l.Sublist l') : sumNat l ≤ sumNat l' := by
  rw [sumNat_eq_sum, sumNat_eq_sum]
  exact h.sum_le_sum fun _ _ => Nat.zero_le _

/-- Nodes that give way to a new one free their pages. -/
theorem Alesh.poolUsed_clearInner_le (a : Alesh) (p : Part) : (a.clearInner p).poolUsed ≤ a.poolUsed := by
  refine sumNat_le_of_sublist (List.Sublist.append ?_ (List.Sublist.refl _))
  exact (List.Sublist.append List.filter_sublist (List.Sublist.refl _)).map _

/-- A request for pages that fits is met, with the nodes inside the new one given way. -/
theorem Alesh.poolRoom_clearInner {a : Alesh} {p : Part} {n : Nat}
    (h : a.poolUsed + n ≤ a.num O.REDUCE_PAGES - a.num O.REDUCE_OWNER_PAGES) : (a.clearInner p).poolRoom n = true := by
  have hle := a.poolUsed_clearInner_le p
  refine decide_eq_true ?_
  show (a.clearInner p).poolUsed + n ≤ a.num O.REDUCE_PAGES - a.num O.REDUCE_OWNER_PAGES
  omega

/-- The node of a maximal aligned subtree is one of the cut's nodes. -/
theorem cut_any_nodeInside {cut : List (Nat × Nat)} {level index : Nat} (h : (level, index) ∈ cut) :
    (cut.any fun n => nodeInside level index n.1 n.2) = true :=
  List.any_eq_true.2 ⟨_, h, by simp [nodeInside]⟩

/-- Elements changed where a test holds pass it no more unless they bear the change. -/
theorem exists_or_mem_of_mem_modWhere {α : Type} {p : α → Bool} {f : α → α} {l : List α} {x : α} (hx : x ∈ modWhere p f l) :
    (∃ y, f y = x) ∨ (x ∈ l ∧ p x = false) := by
  obtain ⟨y, hy, rfl⟩ := List.mem_map.1 hx
  by_cases hp : p y = true
  · exact .inl ⟨y, by rw [if_pos hp]⟩
  · rw [if_neg hp]; exact .inr ⟨hy, Bool.eq_false_iff.2 hp⟩

/-! ### Sending a node (R133, R136) -/

/-- The PART that carries a node formed here to its destination. -/
def Alesh.partPkt (a : Alesh) (p : Part) : Pkt := a.cresol tPart p.peer (a.partArgsOf p) (a.nodePayload p.gsid p.level p.val)

theorem Forming.partPkt {a c : Alesh} (h : Forming a c) (p : Part) : c.partPkt p = a.partPkt p := by
  rw [Alesh.partPkt, h.cresol, h.partArgsOf, h.nodePayload, Alesh.partPkt]

/-- A small payload is counted. -/
def Alesh.noteSmall (a : Alesh) (b : Bytes) : Alesh := if b.length < 262144 then a.count O.BUNDLE_SMALL_COUNT else a

theorem Alesh.noteSmall_frame (a : Alesh) (b : Bytes) : a.noteSmall b = { a with dict := (a.noteSmall b).dict } := by
  unfold Alesh.noteSmall
  split <;> rfl

theorem Alesh.noteSmall_sameBut (a : Alesh) (b : Bytes) : SameBut [O.BUNDLE_SMALL_COUNT] [] a (a.noteSmall b) := by
  unfold Alesh.noteSmall
  split
  · exact sameBut_setNum ..
  · exact ⟨fun _ _ => rfl, fun _ _ => rfl⟩

theorem Forming.noteSmall (a : Alesh) (b : Bytes) : Forming a (a.noteSmall b) := by
  unfold Alesh.noteSmall
  split
  · exact setNum a (by decide) _
  · exact refl a

/-- A node is retained. -/
def Alesh.retain (a : Alesh) (p : Part) : Alesh :=
  ({ a with red := { a.red with retained := a.red.retained ++ [p] } }).setRetainUsed

theorem Forming.retain (a : Alesh) (p : Part) : Forming a (a.retain p) :=
  (parts a _ a.chrono a.cep a.ports).trans (setNum _ (by decide) _)

/-- An attention partial is sent, and not retained. -/
theorem Alesh.sendNode_of_lse {a : Alesh} {p : Part} (hk : p.kind = kLse) :
    a.sendNode p = (a.noteSmall (a.nodePayload p.gsid p.level p.val)).emit (a.partPkt p) := by
  have hsmall := Forming.noteSmall a (a.nodePayload p.gsid p.level p.val)
  have hnot : (p.kind != kLse && !a.retainRoom (a.partPages p)) = false := by simp [hk]
  rw [Alesh.partPkt, ← hsmall.cresol]
  unfold Alesh.sendNode
  simp only [hnot, Bool.false_eq_true, if_false, if_pos hk]
  rfl

/-- Any other node is retained too, where retention has room. -/
theorem Alesh.sendNode_of_room {a : Alesh} {p : Part} (hk : p.kind ≠ kLse) (hroom : a.retainUsed + a.partPages p ≤ a.num O.RETAIN_PAGES) :
    a.sendNode p = ((a.retain p).noteSmall (a.nodePayload p.gsid p.level p.val)).emit (a.partPkt p) := by
  have hsmall := (Forming.retain a p).trans (Forming.noteSmall _ (a.nodePayload p.gsid p.level p.val))
  have hnot : (p.kind != kLse && !a.retainRoom (a.partPages p)) = false := by simp [Alesh.retainRoom, hroom]
  rw [Alesh.partPkt, ← hsmall.cresol]
  unfold Alesh.sendNode
  simp only [hnot, Bool.false_eq_true, if_false, if_neg hk]
  rfl

/-- What sending a node that is retained leaves. -/
theorem Alesh.sendNode_sent {a : Alesh} {p : Part} (hk : p.kind ≠ kLse) (hroom : a.retainUsed + a.partPages p ≤ a.num O.RETAIN_PAGES) :
    Forming a (a.sendNode p) ∧ (a.sendNode p).red = { a.red with retained := a.red.retained ++ [p] } ∧ (a.sendNode p).cep = a.cep ∧
      (a.sendNode p).ports = (a.emit (a.partPkt p)).ports := by
  have hform := (Forming.retain a p).trans (Forming.noteSmall _ (a.nodePayload p.gsid p.level p.val))
  rw [Alesh.sendNode_of_room hk hroom]
  refine ⟨hform.trans (Forming.emit ..), ?_, ?_, hform.emit_ports ?_ _⟩
  · rw [Alesh.emit_red, Alesh.noteSmall_frame]; rfl
  · rw [Alesh.emit_cep, Alesh.noteSmall_frame]; rfl
  · rw [Alesh.noteSmall_frame]; rfl

end Sys2Proof.Machine
end

section
/-! SUPPORT. Local partials of the hosting range, and bundles that go once every member is there (R124, R127, R133, R431). -/
namespace Sys2Proof.Machine

/-! ### A local partial (R124, R127) -/

/-- The core once the leaves of a node are consumed: the node's place in the pool is free, its contributions count as read, and their
slots are given back. -/
structure Consumed (a c : Alesh) (red : Red) (toks : List Nat) : Prop where
  forming : Forming a c
  red : c.red = red
  cep : c.cep = (a.postEach uReduce toks).cep
  ports : c.ports = a.ports

/-- The state of the reduction once the contributions of a node are consumed. -/
def Alesh.redConsumed (a : Alesh) (p : Part) (mine : Contrib → Bool) : Red :=
  { (a.clearInner p).red with stall := none, contribs := modWhere mine (fun c => { c with read := true }) a.red.contribs }

/-- The tokens that give the slots of contributions back. -/
def slotTokens (cs : List Contrib) : List Nat := (cs.filter fun c => !c.null).map fun c => tokConsumed c.slot

theorem foldl_post_slots (a : Alesh) (cs : List Contrib) :
    (cs.filter fun c => !c.null).foldl (fun (d : Alesh) c => d.post uReduce (tokConsumed c.slot)) a =
      a.postEach uReduce (slotTokens cs) := by
  rw [Alesh.postEach, slotTokens, List.foldl_map]

/-- Rows dropped and malformed are counted (R138). -/
def Alesh.countRows (a : Alesh) (n m : Nat) : Alesh := (a.wrapN O.SPARSE_DROP_COUNT n).countN O.SPARSE_MALFORMED_COUNT m

theorem Forming.countRows (a : Alesh) (n m : Nat) : Forming a (a.countRows n m) :=
  (setNum a (by decide) _).trans (setNum _ (by decide) _)

theorem consumed_postEach (a : Alesh) (red : Red) (chrono : Chrono) (n m : Nat) (toks : List Nat) :
    Consumed a ((({ a with red := red, chrono := chrono } : Alesh).countRows n m).postEach uReduce toks) red toks := by
  refine ⟨?_, ?_, ?_, ?_⟩
  · exact ((Forming.parts a red chrono a.cep a.ports).trans (Forming.countRows ..)).trans (Forming.postEach ..)
  · rw [Alesh.postEach_frame]; rfl
  · exact Alesh.postEach_cep_congr (a := a) (c := ({ a with red := red, chrono := chrono } : Alesh).countRows n m) rfl rfl ..
  · rw [Alesh.postEach_frame]; rfl

/-- The core once the contributions of a node are consumed. -/
def Alesh.consumed (a : Alesh) (it : PlanItem) (e : Nat) (p : Part) (mine : Contrib → Bool) : Alesh :=
  let cs := a.red.contribs.filter mine
  let leaves := cs.map fun c => (c, a.leaf it c)
  let chrono : Chrono := { a.chrono with
    terms := a.chrono.terms ++ cs.map fun c => (e, c.replica, a.contribTerm it c)
    drops := a.chrono.drops ++ (leaves.filter fun q => q.2.2.1 != 0).map fun q => (e, q.1.replica, q.2.2.1) }
  (cs.filter fun c => !c.null).foldl (fun (d : Alesh) c => d.post uReduce (tokConsumed c.slot))
    (({ a with red := a.redConsumed p mine, chrono := chrono } : Alesh).countRows (sumNat (leaves.map fun l => l.2.2.1))
      (sumNat (leaves.map fun l => l.2.2.2)))

theorem Alesh.consumed_consumed (a : Alesh) (it : PlanItem) (e : Nat) (p : Part) (mine : Contrib → Bool) :
    Consumed a (a.consumed it e p mine) (a.redConsumed p mine) (slotTokens (a.red.contribs.filter mine)) := by
  unfold Alesh.consumed
  rw [foldl_post_slots]
  exact consumed_postEach ..

section
variable {s a : Alesh} {now item e level index g dst : Nat} {it : PlanItem} {v : NodeVal} {p : Part} {mine : Contrib → Bool}

/-- A node of the cut that another core combines: its leaves are consumed, and it is sent, or waits for its bundle. -/
theorem Alesh.localPartial_of_guards (ha : s.at now = a) (hred : a.reducing = true) (hit : a.plan.items[item]? = some it)
    (hmine : mine = fun c => c.item == item && c.epoch == e && c.replica / 2 ^ level == index && !c.read)
    (hg : (if it.kind = kHdr then headerGsid else it.gsid) = g)
    (hdst : (if it.kind = kHdr then a.combiner else a.ownerOf g) = dst) (hne : dst ≠ a.node)
    (hp : p = { kind := it.kind, epoch := e, gsid := g, level := level, index := index, val := v, peer := dst })
    (hcut : (level, index) ∈ alignedCut (2 ^ 17) (a.num O.VREPLICA_FIRST) (a.num O.VREPLICA_FIRST + a.num O.VREPLICA_COUNT - 1))
    (hform : a.formNode it.kind e g 0 level index ((a.red.contribs.filter mine).map fun c => (c.replica, (a.leaf it c).1)) = some v)
    (hstop : a.poolStopped = false)
    (hroom : a.poolUsed + a.partPages p ≤ a.num O.REDUCE_PAGES - a.num O.REDUCE_OWNER_PAGES) :
    s.localPartial now item e level index =
      let c := a.consumed it e p mine
      if it.bundle != 0xFFFF then { c with red := { c.red with waiting := c.red.waiting ++ [p] } } else c.sendNode p := by
  have hform' : a.formNode it.kind e g 0 level index (((a.red.contribs.filter mine).map
      fun c => (c, a.leaf it c)).map fun (l : Contrib × NodeVal × Nat × Nat) => (l.1.replica, l.2.1)) = some v := by
    rw [List.map_map]; exact hform
  have hpool := Alesh.poolRoom_clearInner (p := p) hroom
  have hany := cut_any_nodeInside hcut
  have hwhole := List.contains_iff_mem.2 hcut
  subst hmine
  unfold Alesh.localPartial
  simp only [ha, hit, hg, hdst, hform', hred, hany, hwhole, ← hp, hstop, hpool, hne, Bool.true_and, if_true, if_false,
    Bool.false_and, Bool.not_true, Bool.false_or, Bool.and_false, Bool.false_eq_true]
  rfl

end

theorem Consumed.retainUsed {a c : Alesh} {p : Part} {mine : Contrib → Bool} {toks : List Nat}
    (hc : Consumed a c (a.redConsumed p mine) toks) : c.retainUsed = a.retainUsed := by
  rw [Alesh.retainUsed, hc.red, hc.forming.partPages]
  rfl

/-- A core that reduces is in a job, and so not occulted. -/
theorem Alesh.reducing_inJob {a : Alesh} (h : a.reducing = true) : a.inJob = true := by
  simp only [Alesh.reducing, Bool.and_eq_true] at h
  exact h.1.1

theorem Alesh.inJob_not_occulted {a : Alesh} (h : a.inJob = true) : a.ctl.core ≠ .occulted :=
  joinedOrJob_not_occulted (by simp [Alesh.joinedOrJob, h])

theorem Alesh.reducing_at (a : Alesh) (now : Nat) : (a.at now).reducing = a.reducing := by
  simp [Alesh.reducing, Alesh.inJob, Alesh.unit, Alesh.cepWaits]

/-- Every contribution below a node counts as read once the node is formed. -/
theorem redConsumed_read {a : Alesh} {p : Part} {item e level index : Nat} {mine : Contrib → Bool}
    (hmine : mine = fun c => c.item == item && c.epoch == e && c.replica / 2 ^ level == index && !c.read) :
    ∀ c ∈ (a.redConsumed p mine).contribs, c.item = item → c.epoch = e → c.replica / 2 ^ level = index → c.read = true := by
  intro c hc hitem hepoch hindex
  rcases exists_or_mem_of_mem_modWhere hc with ⟨y, rfl⟩ | ⟨-, hnot⟩
  · rfl
  · simpa [hmine, hitem, hepoch, hindex] using hnot

/-- The first clause of O23. -/
theorem localPartial_gives {s : State} {a : Alesh} {now item e level index g dst : Nat} {it : PlanItem} {v : NodeVal} {p : Part}
    {mine : Contrib → Bool} (ha : s.alesh.at now = a) (hred : a.reducing = true) (hit : a.plan.items[item]? = some it)
    (hmine : mine = fun c => c.item == item && c.epoch == e && c.replica / 2 ^ level == index && !c.read)
    (hg : (if it.kind = kHdr then headerGsid else it.gsid) = g)
    (hdst : (if it.kind = kHdr then a.combiner else a.ownerOf g) = dst) (hk : it.kind ≠ kLse) (hne : dst ≠ a.node)
    (hp : p = { kind := it.kind, epoch := e, gsid := g, level := level, index := index, val := v, peer := dst })
    (hcut : (level, index) ∈ alignedCut (2 ^ 17) (a.num O.VREPLICA_FIRST) (a.num O.VREPLICA_FIRST + a.num O.VREPLICA_COUNT - 1))
    (hform : a.formNode it.kind e g 0 level index ((a.red.contribs.filter mine).map fun c => (c.replica, (a.leaf it c).1)) = some v)
    (hstop : a.poolStopped = false)
    (hroom : a.poolUsed + a.partPages p ≤ a.num O.REDUCE_PAGES - a.num O.REDUCE_OWNER_PAGES)
    (hretain : a.retainUsed + a.partPages p ≤ a.num O.RETAIN_PAGES) {toks : List Nat}
    (htoks : slotTokens (a.red.contribs.filter mine) = toks) :
    Gives (.localPartial now item e level index) s fun b =>
      (∀ c ∈ b.red.contribs, c.item = item → c.epoch = e → c.replica / 2 ^ level = index → c.read = true) ∧
      b.cep = (a.postEach uReduce toks).cep ∧
      (a.cep.held = [] → a.cep.out.length + toks.length ≤ 256 → b.cep = { a.cep with out := a.cep.out ++ toks }) ∧
      (it.bundle = 0xFFFF → b.red.retained = a.red.retained ++ [p] ∧ b.red.waiting = a.red.waiting ∧
        b.ports = (a.emit (a.partPkt p)).ports) ∧
      (it.bundle ≠ 0xFFFF → b.red.waiting = a.red.waiting ++ [p] ∧ b.red.retained = a.red.retained ∧ b.ports = a.ports) ∧
      Forming a b := by
  refine gives_onCore (f := Alesh.localPartial now item e level index) rfl ?_
  have hcore := Alesh.inJob_not_occulted (Alesh.reducing_inJob hred)
  rw [Alesh.localPartial_of_guards ha hred hit hmine hg hdst hne hp hcut hform hstop hroom]
  have hc := a.consumed_consumed it e p mine
  rw [htoks] at hc
  generalize a.consumed it e p mine = c at hc
  have hread := redConsumed_read (a := a) (p := p) hmine
  have hcep : c.cep = (a.postEach uReduce toks).cep := hc.cep
  have hposted (hheld : a.cep.held = []) (hfit : a.cep.out.length + toks.length ≤ 256) :
      c.cep = { a.cep with out := a.cep.out ++ toks } := hcep.trans (Alesh.postEach_cep hcore hheld uReduce toks hfit)
  by_cases hbundle : it.bundle = 0xFFFF
  · have hsend : c.retainUsed + c.partPages p ≤ c.num O.RETAIN_PAGES := by
      rw [hc.retainUsed, hc.forming.partPages, hc.forming.num (by decide)]
      exact hretain
    have hkind : p.kind ≠ kLse := by rw [hp]; exact hk
    obtain ⟨hforming, hsred, hscep, hsports⟩ := Alesh.sendNode_sent hkind hsend
    dsimp only
    rw [if_neg (by simp [hbundle])]
    refine ⟨?_, hscep.trans hcep, fun hheld hfit => hscep.trans (hposted hheld hfit), fun _ => ⟨?_, ?_, ?_⟩, fun h => absurd hbundle h,
      hc.forming.trans hforming⟩
    · rw [hsred, hc.red]; exact hread
    · rw [hsred, hc.red]; rfl
    · rw [hsred, hc.red]; rfl
    · rw [hsports, hc.forming.partPkt]
      exact hc.forming.emit_ports hc.ports _
  · dsimp only
    rw [if_pos (by simp [hbundle]), hc.red]
    exact ⟨hread, hcep, hposted, fun h => absurd h hbundle, fun _ => ⟨rfl, rfl, hc.ports⟩,
      hc.forming.trans (Forming.parts c _ c.chrono c.cep c.ports)⟩

/-! ### A bundle that is complete (R431) -/

/-- The core whose bundle leaves: its members wait no more, and are retained. -/
def Alesh.bundled (a : Alesh) (ps : List Part) : Alesh :=
  ({ a with red := { a.red with waiting := a.red.waiting.filter (fun p => !ps.contains p)
                                retained := a.red.retained ++ ps } }).setRetainUsed

/-- The second clause of O23. -/
theorem bundleSend_gives {s : State} {a : Alesh} {bundle e dst : Nat} {ms : List (Option Part)} {ps : List Part} (ha : s.alesh = a)
    (hred : a.reducing = true) (hb : bundle ≠ 0xFFFF) (hms : a.bundleMembers bundle e dst = ms) (hps : ms.filterMap id = ps)
    (hne : ms ≠ []) (hall : ∀ x ∈ ms, x.isSome = true) (hroom : a.retainUsed + sumNat (ps.map a.partPages) ≤ a.num O.RETAIN_PAGES) :
    Gives (.bundleSend bundle e dst) s fun b => OnlySends (a.bundled ps) b := by
  subst ha
  refine gives_onCore (f := Alesh.bundleSend bundle e dst) rfl ?_
  have hguard : (s.alesh.reducing && bundle != 0xFFFF && !ms.isEmpty && ms.all Option.isSome) = true := by
    simp [hred, hb, hne, List.all_eq_true.2 hall]
  have hfits : s.alesh.retainRoom (sumNat (ps.map s.alesh.partPages)) = true := decide_eq_true hroom
  unfold Alesh.bundleSend
  simp only [hms, hps, hguard, hfits, if_true, Bool.not_true, Bool.false_eq_true, if_false]
  refine OnlySends.foldl (fun c l => ?_) _ (s.alesh.bundled ps)
  split
  · exact OnlySends.send ..
  · exact OnlySends.foldl (fun d p => OnlySends.send d ..) l c

/-- Settles O23: the guards lead to the node's leaves being consumed, and the node is sent, or waits for its bundle. -/
theorem localPartialsAreSentAndRetained : Obligations.LocalPartialsAreSentAndRetained := by
  unfold Obligations.LocalPartialsAreSentAndRetained
  refine ⟨fun s now item e level index it v hred => ?_, fun s bundle e dst hred hb => ?_⟩
  · intro a g mine first dst p hit hk hne hcut hform hstop hroom hretain toks
    obtain ⟨b, hb, hread, hcep, hposted, hsent, hwaits, hforming⟩ := localPartial_gives (s := s) (a := a) (now := now) (mine := mine) rfl
      ((Alesh.reducing_at ..).trans hred) hit rfl rfl rfl hk hne rfl hcut hform hstop hroom hretain rfl
    exact ⟨b, hb, hread, hcep, hposted, hsent, hwaits, hforming.same, hforming.frame⟩
  · intro a ms ps hne hall hroom
    obtain ⟨b, hb, hsends⟩ := bundleSend_gives (s := s) (a := a) rfl hred hb rfl rfl hne hall hroom
    refine ⟨b, hb, ?_⟩
    rw [hsends]
    exact ⟨rfl, Alesh.num_setNum_same .., sameBut_setNum .., rfl⟩

end Sys2Proof.Machine
end

section
/-! SUPPORT. Attention merges: partials of the chunks hosted, and their completion at the destination (R142 to R144). -/
namespace Sys2Proof.Machine

/-! ### Partials whose lists differ go one by one (R143, log entry 136) -/

/-- From one core to another by attention partials sent. -/
structure Pieced (a b : Alesh) : Prop where
  frame : b = { a with red := { a.red with inner := b.red.inner }, dict := b.dict, ports := b.ports }
  same : SameBut [O.BUNDLE_SMALL_COUNT] [] a b
  forming : Forming a b
  sends : ∀ p, Sends a p → Sends b p

theorem Pieced.refl (a : Alesh) : Pieced a a := ⟨rfl, ⟨fun _ _ => rfl, fun _ _ => rfl⟩, .refl a, fun _ h => h⟩

theorem Pieced.trans {a b c : Alesh} (hab : Pieced a b) (hbc : Pieced b c) : Pieced a c := by
  refine ⟨hbc.frame.trans ?_, ⟨fun k hk => (hbc.same.1 k hk).trans (hab.same.1 k hk), fun k hk => (hbc.same.2 k hk).trans (hab.same.2 k hk)⟩,
    hab.forming.trans hbc.forming, fun p h => hbc.sends p (hab.sends p h)⟩
  rw [hab.frame]

/-- Sending an attention partial. -/
theorem Pieced.sendNode (a : Alesh) {p : Part} (hk : p.kind = kLse) : Pieced a (a.sendNode p) := by
  rw [Alesh.sendNode_of_lse hk]
  refine ⟨?_, ?_, (Forming.noteSmall ..).trans (Forming.emit ..), fun r h => Sends.emit (h.of_ports ?_) _⟩
  · rw [Alesh.emit_frame, Alesh.noteSmall_frame]
  · exact (Alesh.noteSmall_sameBut a _).of_dict (Alesh.emit_dict ..)
  · rw [Alesh.noteSmall_frame]

/-- One part goes to the merge's destination, and waits in the pool no more. -/
def Alesh.sendPiece (dst : Nat) (a : Alesh) (p : Part) : Alesh :=
  ({ a with red := { a.red with inner := a.red.inner.filter (· != p) } } : Alesh).sendNode { p with peer := dst }

theorem Pieced.sendPiece (dst : Nat) (a : Alesh) {p : Part} (hk : p.kind = kLse) : Pieced a (a.sendPiece dst p) :=
  trans (b := { a with red := { a.red with inner := a.red.inner.filter (· != p) } })
    ⟨rfl, ⟨fun _ _ => rfl, fun _ _ => rfl⟩, Forming.parts a _ a.chrono a.cep a.ports, fun _ h => h⟩
    (Pieced.sendNode _ (p := { p with peer := dst }) hk)

theorem Alesh.sendPiece_sends {a : Alesh} (hj : a.inJob = true) (dst : Nat) {p : Part} (hk : p.kind = kLse) :
    Sends (a.sendPiece dst p) (a.partPkt { p with peer := dst }) := by
  rw [Alesh.sendPiece, Alesh.sendNode_of_lse (p := { p with peer := dst }) hk]
  have hjob := (Forming.noteSmall { a with red := { a.red with inner := a.red.inner.filter (· != p) } }
    (a.nodePayload p.gsid p.level p.val)).inJob
  exact sends_emit_self (hjob.trans hj) _

theorem Alesh.sendUnlike_eq {a : Alesh} {dst : Nat} (hne : dst ≠ a.node) (ps : List Part) :
    a.sendUnlike dst ps = ps.foldl (Alesh.sendPiece dst) a := by
  unfold Alesh.sendUnlike
  simp only [hne, if_false]
  rfl

/-- In a job each of the parts goes. -/
theorem foldl_sendPiece {a : Alesh} (hj : a.inJob = true) (dst : Nat) {ps : List Part} (hk : ∀ p ∈ ps, p.kind = kLse) :
    Pieced a (ps.foldl (Alesh.sendPiece dst) a) ∧ ∀ p ∈ ps, Sends (ps.foldl (Alesh.sendPiece dst) a) (a.partPkt { p with peer := dst }) := by
  induction ps generalizing a with
  | nil => exact ⟨.refl a, fun p hp => absurd hp List.not_mem_nil⟩
  | cons x ps ih =>
    have hx := hk x List.mem_cons_self
    have hstep := Pieced.sendPiece dst a hx
    obtain ⟨hrest, hsends⟩ := ih (hstep.forming.inJob.trans hj) fun p hp => hk p (List.mem_cons_of_mem _ hp)
    refine ⟨hstep.trans hrest, fun p hp => ?_⟩
    rcases List.mem_cons.1 hp with rfl | hp
    · exact hrest.sends _ (Alesh.sendPiece_sends hj dst hx)
    · rw [← hstep.forming.partPkt]
      exact hsends p hp

/-! ### A partial of the chunks hosted (R124, R144) -/

/-- The core once the attention partials below a node are consumed. -/
def Alesh.lseConsumed (a : Alesh) (p : Part) (mine : LsePart → Bool) : Alesh :=
  (a.red.lse.filter mine).foldl (fun (d : Alesh) c => d.post uReduce (tokConsumed c.slot))
    { a with red := { (a.clearInner p).red with stall := none, lse := modWhere mine (fun c => { c with read := true }) a.red.lse } }

theorem Alesh.lseConsumed_eq (a : Alesh) (p : Part) (mine : LsePart → Bool) : a.lseConsumed p mine =
    { a with red := { (a.clearInner p).red with stall := none, lse := modWhere mine (fun c => { c with read := true }) a.red.lse }
             cep := (a.postEach uReduce ((a.red.lse.filter mine).map fun c => tokConsumed c.slot)).cep } := by
  have hcep := Alesh.postEach_cep_congr (a := a) (c := { a with red := { (a.clearInner p).red with
    stall := none, lse := modWhere mine (fun c => { c with read := true }) a.red.lse } }) rfl rfl uReduce
    ((a.red.lse.filter mine).map fun c => tokConsumed c.slot)
  have hfold := Alesh.postEach_frame uReduce ((a.red.lse.filter mine).map fun c => tokConsumed c.slot) { a with red := { (a.clearInner p).red with
    stall := none, lse := modWhere mine (fun c => { c with read := true }) a.red.lse } }
  rw [hcep, Alesh.postEach, List.foldl_map] at hfold
  exact hfold

section
variable {s a : Alesh} {now mg q e level index g : Nat} {mr : PlanMerge} {v : NodeVal} {p : Part} {mine : LsePart → Bool}
  {leaf : LsePart → NodeVal} {pieces : List Part}

theorem Alesh.lseLocal_of_guards (ha : s.at now = a) (hred : a.reducing = true) (hm : a.plan.merges[mg]? = some mr)
    (hg : mg * 65536 + q = g)
    (hmine : mine = fun c => c.merge == mg && c.qblock == q && c.epoch == e && c.chunk / 2 ^ level == index && !c.read)
    (hleaf : leaf = fun c => .lse (a.rd (a.plan.base + c.slot * a.plan.slotBytes) mr.blockBytes))
    (hpieces : pieces = (a.red.inner.filter fun p => p.kind == kLse && p.epoch == e && p.gsid == g && nodeInside p.level p.index level index) ++
      (a.red.lse.filter mine).map fun c =>
        { kind := kLse, epoch := e, gsid := g, level := 0, index := c.chunk, val := leaf c, peer := a.node })
    (hp : p = { kind := kLse, epoch := e, gsid := g, level := level, index := index, val := v, peer := mr.dest })
    (hcut : (level, index) ∈ alignedCut (2 ^ 17) mr.first (mr.first + mr.count - 1)) (hne : mr.dest ≠ a.node)
    (hstop : a.poolStopped = false)
    (hroom : a.poolUsed + a.partPages p ≤ a.num O.REDUCE_PAGES - a.num O.REDUCE_OWNER_PAGES)
    (hform : a.formNode kLse e g mr.d level index ((a.red.lse.filter mine).map fun c => (c.chunk, leaf c)) = some v) :
    s.lseLocal now mg q e level index =
      if alike mr.d pieces then (a.lseConsumed p mine).sendNode p else (a.lseConsumed p mine).sendUnlike mr.dest pieces := by
  have hpool := Alesh.poolRoom_clearInner (p := p) hroom
  have hany := cut_any_nodeInside hcut
  have hwhole := List.contains_iff_mem.2 hcut
  subst hmine hleaf hg
  unfold Alesh.lseLocal
  simp only [ha, hm, hform, hred, hany, hwhole, ← hp, ← hpieces, hstop, hpool, hne, Bool.true_and, if_true, if_false, Bool.false_and,
    Bool.not_true, Bool.false_or, Bool.and_false, Bool.false_eq_true]
  cases alike mr.d pieces <;> rfl

end


/-- The first clause of O27. -/
theorem lseLocal_gives {s : State} {a : Alesh} {now mg q e level index g : Nat} {mr : PlanMerge} {v : NodeVal} {p : Part} {mine : LsePart → Bool}
    {leaf : LsePart → NodeVal} {pieces : List Part} {toks : List Nat} (ha : s.alesh.at now = a) (hred : a.reducing = true)
    (hm : a.plan.merges[mg]? = some mr) (hg : mg * 65536 + q = g)
    (hmine : mine = fun c => c.merge == mg && c.qblock == q && c.epoch == e && c.chunk / 2 ^ level == index && !c.read)
    (hleaf : leaf = fun c => .lse (a.rd (a.plan.base + c.slot * a.plan.slotBytes) mr.blockBytes))
    (hpieces : pieces = (a.red.inner.filter fun p => p.kind == kLse && p.epoch == e && p.gsid == g && nodeInside p.level p.index level index) ++
      (a.red.lse.filter mine).map fun c =>
        { kind := kLse, epoch := e, gsid := g, level := 0, index := c.chunk, val := leaf c, peer := a.node })
    (hp : p = { kind := kLse, epoch := e, gsid := g, level := level, index := index, val := v, peer := mr.dest })
    (htoks : ((a.red.lse.filter mine).map fun c => tokConsumed c.slot) = toks)
    (hcut : (level, index) ∈ alignedCut (2 ^ 17) mr.first (mr.first + mr.count - 1)) (hne : mr.dest ≠ a.node)
    (hstop : a.poolStopped = false)
    (hroom : a.poolUsed + a.partPages p ≤ a.num O.REDUCE_PAGES - a.num O.REDUCE_OWNER_PAGES)
    (hform : a.formNode kLse e g mr.d level index ((a.red.lse.filter mine).map fun c => (c.chunk, leaf c)) = some v) :
    Gives (.lseLocalPartial now mg q e level index) s fun b =>
      (∀ c ∈ b.red.lse, c.merge = mg → c.qblock = q → c.epoch = e → c.chunk / 2 ^ level = index → c.read = true) ∧
      b.cep = (a.postEach uReduce toks).cep ∧
      (a.cep.held = [] → a.cep.out.length + toks.length ≤ 256 → b.cep = { a.cep with out := a.cep.out ++ toks }) ∧
      (alike mr.d pieces = true → b.ports = (a.emit (a.partPkt p)).ports) ∧
      (alike mr.d pieces = false → ∀ x ∈ pieces, Sends b (a.cresol tPart mr.dest (a.partArgsOf x) (a.nodePayload g x.level x.val))) ∧
      SameBut [O.BUNDLE_SMALL_COUNT] [] a b ∧ b = { a with red := b.red, dict := b.dict, cep := b.cep, ports := b.ports } := by
  refine gives_onCore (f := Alesh.lseLocal now mg q e level index) rfl ?_
  have hjob := Alesh.reducing_inJob hred
  have hcore := Alesh.inJob_not_occulted hjob
  have hpiece : ∀ x ∈ pieces, x.kind = kLse ∧ x.gsid = g := by
    intro x hx
    rw [hpieces, List.mem_append] at hx
    rcases hx with hx | hx
    · have hpass := (List.mem_filter.1 hx).2
      simp only [Bool.and_eq_true, beq_iff_eq] at hpass
      exact ⟨hpass.1.1.1, hpass.1.2⟩
    · obtain ⟨c, -, rfl⟩ := List.mem_map.1 hx
      exact ⟨rfl, rfl⟩
  have hpk : p.kind = kLse := by rw [hp]
  rw [Alesh.lseLocal_of_guards ha hred hm hg hmine hleaf hpieces hp hcut hne hstop hroom hform]
  have hc := a.lseConsumed_eq p mine
  have hcnode : (a.lseConsumed p mine).node = a.node := by rw [hc]; rfl
  rw [Alesh.sendUnlike_eq (by rw [hcnode]; exact hne), hc, htoks]
  -- the core once the leaves are consumed
  have hread : ∀ c ∈ modWhere mine (fun c => { c with read := true }) a.red.lse,
      c.merge = mg → c.qblock = q → c.epoch = e → c.chunk / 2 ^ level = index → c.read = true := by
    intro c hmem hmerge hqblock hepoch hindex
    rcases exists_or_mem_of_mem_modWhere hmem with ⟨y, rfl⟩ | ⟨-, hnot⟩
    · rfl
    · simpa [hmine, hmerge, hqblock, hepoch, hindex] using hnot
  generalize hred' : ({ (a.clearInner p).red with
    stall := none, lse := modWhere mine (fun c => { c with read := true }) a.red.lse } : Red) = red
  have hlse : red.lse = modWhere mine (fun c => { c with read := true }) a.red.lse := by rw [← hred']
  rw [← hlse] at hread
  generalize hcep : (a.postEach uReduce toks).cep = cep
  have hposted (hheld : a.cep.held = []) (hfit : a.cep.out.length + toks.length ≤ 256) : cep = { a.cep with out := a.cep.out ++ toks } :=
    hcep.symm.trans (Alesh.postEach_cep hcore hheld uReduce toks hfit)
  have hforming : Forming a { a with red := red, cep := cep } := Forming.parts a red a.chrono cep a.ports
  -- what sending leaves, however the parts go
  have hleaves {b : Alesh} (hb : Pieced { a with red := red, cep := cep } b) : b.red.lse = red.lse ∧ b.cep = cep ∧
      SameBut [O.BUNDLE_SMALL_COUNT] [] a b ∧ b = { a with red := b.red, dict := b.dict, cep := b.cep, ports := b.ports } := by
    refine ⟨?_, ?_, hb.same, ?_⟩
    all_goals rw [hb.frame]
  have hjob' : ({ a with red := red, cep := cep } : Alesh).inJob = true := hjob
  cases halike : alike mr.d pieces with
  | true =>
    obtain ⟨hblse, hbcep, hsame, hframe⟩ := hleaves (Pieced.sendNode _ hpk)
    rw [if_pos rfl]
    refine ⟨by rw [hblse]; exact hread, hbcep, fun hheld hfit => hbcep.trans (hposted hheld hfit), fun _ => ?_, nofun, hsame, hframe⟩
    rw [Alesh.sendNode_of_lse hpk, hforming.partPkt]
    exact (hforming.trans (Forming.noteSmall ..)).emit_ports (by rw [Alesh.noteSmall_frame]) _
  | false =>
    obtain ⟨hpieced, hsends⟩ := foldl_sendPiece hjob' mr.dest fun x hx => (hpiece x hx).1
    obtain ⟨hblse, hbcep, hsame, hframe⟩ := hleaves hpieced
    rw [if_neg Bool.false_ne_true]
    refine ⟨by rw [hblse]; exact hread, hbcep, fun hheld hfit => hbcep.trans (hposted hheld hfit), nofun, fun _ x hx => ?_, hsame, hframe⟩
    have hx' : a.cresol tPart mr.dest (a.partArgsOf x) (a.nodePayload g x.level x.val) = a.partPkt { x with peer := mr.dest } := by
      rw [← (hpiece x hx).2]; rfl
    rw [hx', ← hforming.partPkt]
    exact hsends x hx

/-! ### The destination completes a merge (R143, R144) -/

/-- The records of an attention partial. -/
def lseRecs (d : Nat) (p : Part) : List LseRec := match p.val with | .lse b => lseParse d b | _ => []

/-- The partials held of a merge's block at an epoch. -/
def Alesh.lseHeld (a : Alesh) (g e : Nat) : List Part := a.red.held.filter fun p => p.kind == kLse && p.gsid == g && p.epoch == e

/-- The reduction once a merge's block is done: its partials are held no more, and it is noted as merged. -/
def Alesh.redMerged (a : Alesh) (mg q e : Nat) : Red :=
  { a.red with held := a.red.held.filter (fun p => !(p.kind == kLse && p.gsid == mg * 65536 + q && p.epoch == e))
               merged := (e, mg, q) :: a.red.merged }

/-- The merge is counted, and as malformed where its partials' lists differ. -/
def Alesh.countMerge (a : Alesh) (bad : Bool) : Alesh := (if bad then a.count O.LSE_MALFORMED_COUNT else a).wrap O.LSE_MERGE_COUNT

/-- The core once the result of a merge's block is written. -/
def Alesh.mergeDone (a : Alesh) (mg q e addr : Nat) (out : Bytes) (bad : Bool) : Alesh :=
  let d := ({ a with mem0 := a.mem0.write addr out } : Alesh).countMerge bad
  ({ d with red := d.redMerged mg q e }).post uReduce (tokMergeDone e mg q)

/-- What the completion of a merge's block leaves (R143, R144). -/
structure Merged (a : Alesh) (mg q e addr : Nat) (out : Bytes) (more : List Nat) (b : Alesh) : Prop where
  written : b.mem0.read addr out.length = out
  elsewhere : ∀ x, ¬(addr ≤ x ∧ x < addr + out.length) → b.mem0.get x = a.mem0.get x
  cep : b.cep = (a.post uReduce (tokMergeDone e mg q)).cep
  red : b.red = a.redMerged mg q e
  counted : b.num O.LSE_MERGE_COUNT = wrapAdd (widthOf O.LSE_MERGE_COUNT) (a.num O.LSE_MERGE_COUNT) 1
  same : SameBut (O.LSE_MERGE_COUNT :: more) [] a b
  frame : b = { a with mem0 := b.mem0, cep := b.cep, red := b.red, dict := b.dict }

theorem Alesh.countMerge_frame (a : Alesh) (bad : Bool) : a.countMerge bad = { a with dict := (a.countMerge bad).dict } := by
  cases bad <;> rfl

theorem Alesh.countMerge_merges (a : Alesh) (bad : Bool) :
    (a.countMerge bad).num O.LSE_MERGE_COUNT = wrapAdd (widthOf O.LSE_MERGE_COUNT) (a.num O.LSE_MERGE_COUNT) 1 := by
  cases bad
  · exact (Alesh.num_wrap ..).trans (if_pos rfl)
  · refine ((Alesh.num_wrap ..).trans (if_pos rfl)).trans ?_
    rw [if_pos rfl, Alesh.num_count, if_neg (by decide)]

theorem Alesh.countMerge_malformed (a : Alesh) : (a.countMerge true).num O.LSE_MALFORMED_COUNT =
    satAdd (widthOf O.LSE_MALFORMED_COUNT) (a.num O.LSE_MALFORMED_COUNT) 1 := by
  refine ((Alesh.num_wrap ..).trans (if_neg (by decide))).trans ?_
  exact (Alesh.num_count ..).trans (if_pos rfl)

theorem Alesh.countMerge_sameBut (a : Alesh) (bad : Bool) :
    SameBut (O.LSE_MERGE_COUNT :: if bad then [O.LSE_MALFORMED_COUNT] else []) [] a (a.countMerge bad) := by
  cases bad
  · exact sameBut_setNum ..
  · exact (sameBut_setNum (a.count O.LSE_MALFORMED_COUNT) O.LSE_MERGE_COUNT _).after (sameBut_setNum a O.LSE_MALFORMED_COUNT _)

theorem Alesh.mergeDone_merged (a : Alesh) (mg q e addr : Nat) (out : Bytes) (bad : Bool) :
    Merged a mg q e addr out (if bad then [O.LSE_MALFORMED_COUNT] else []) (a.mergeDone mg q e addr out bad) := by
  have hframe := ({ a with mem0 := a.mem0.write addr out } : Alesh).countMerge_frame bad
  have hdict : (a.mergeDone mg q e addr out bad).dict = (({ a with mem0 := a.mem0.write addr out } : Alesh).countMerge bad).dict :=
    Alesh.post_dict ..
  have hmem : (a.mergeDone mg q e addr out bad).mem0 = a.mem0.write addr out := by
    rw [Alesh.mergeDone, Alesh.post_mem0, hframe]
  refine ⟨?_, fun x hx => ?_, ?_, ?_, ?_, ?_, ?_⟩
  · rw [hmem]; exact Memory.read_write_same ..
  · rw [hmem, Memory.get_write, if_neg hx]
  · exact Alesh.post_cep_congr (by rw [hframe]) (by rw [hframe]) ..
  · rw [Alesh.mergeDone, Alesh.post_red, hframe]; rfl
  · rw [Alesh.num_of_dict hdict]; exact Alesh.countMerge_merges ..
  · exact SameBut.of_dict (Alesh.countMerge_sameBut { a with mem0 := a.mem0.write addr out } bad) hdict
  · rw [Alesh.mergeDone, Alesh.post_frame, hframe]

section
variable {a : Alesh} {mg q e g : Nat} {mr : PlanMerge} {raw : Bytes} {h : Part} {bad : Bool} {out : Bytes}

theorem Alesh.lseComplete_of_guards (hred : a.reducing = true) (hm : a.plan.merges[mg]? = some mr) (hdest : mr.dest = a.node)
    (hretired : a.errs.retired = []) (hg : mg * 65536 + q = g) (hroot : a.rootOf (· == kLse) g e mr.log2 mr.d = some (.lse raw))
    (hhead : (a.lseHeld g e).head? = some h)
    (hbad : ((a.lseHeld g e).any fun p => lseKeys (lseRecs mr.d p) != lseKeys (lseRecs mr.d h)) = bad)
    (hout : (let root := if bad then (lseRecs mr.d h).map LseRec.poison else lseParse mr.d raw
      lseEmit (if mr.normalise && !bad then root.map LseRec.normalise else root)) = out) :
    a.lseComplete mg q e = a.mergeDone mg q e (mr.out + q * mr.blockBytes) out bad := by
  have hcore := Alesh.inJob_not_occulted (Alesh.reducing_inJob hred)
  rw [Alesh.mergeDone, ← Alesh.wr_of_not_occulted hretired hcore, ← hout, ← hbad]
  subst hg
  rw [Alesh.lseHeld] at hhead
  unfold Alesh.lseComplete
  simp only [hm, hroot, hhead, hred, hdest, beq_self_eq_true, Bool.and_self, if_true]
  rfl

end

/-- The lists of a merge's partials differ where one differs from the first. -/
theorem any_keys_ne_iff (d : Nat) (ps : List Part) (h : Part) :
    (ps.any fun p => lseKeys (lseRecs d p) != lseKeys (lseRecs d h)) = true ↔ ∃ p ∈ ps, lseKeys (lseRecs d p) ≠ lseKeys (lseRecs d h) := by
  simp

/-- The second clause of O27: the merge completes, with its lists alike or not. -/
theorem lseComplete_gives {s : State} {mg q e : Nat} {mr : PlanMerge} {raw : Bytes} {h : Part} (bad : Bool) (out : Bytes)
    (hred : s.alesh.reducing = true) (hm : s.alesh.plan.merges[mg]? = some mr) (hdest : mr.dest = s.alesh.node)
    (hretired : s.alesh.errs.retired = []) (hroot : s.alesh.rootOf (· == kLse) (mg * 65536 + q) e mr.log2 mr.d = some (.lse raw))
    (hhead : (s.alesh.lseHeld (mg * 65536 + q) e).head? = some h)
    (hbad : ((s.alesh.lseHeld (mg * 65536 + q) e).any fun p => lseKeys (lseRecs mr.d p) != lseKeys (lseRecs mr.d h)) = bad)
    (hout : (let root := if bad then (lseRecs mr.d h).map LseRec.poison else lseParse mr.d raw
      lseEmit (if mr.normalise && !bad then root.map LseRec.normalise else root)) = out) :
    Gives (.lseMergeComplete mg q e) s fun b => b = s.alesh.mergeDone mg q e (mr.out + q * mr.blockBytes) out bad :=
  gives_onCore (f := Alesh.lseComplete mg q e) rfl (Alesh.lseComplete_of_guards hred hm hdest hretired rfl hroot hhead hbad hout)

/-- Settles O27: the guards lead to the node's leaves being consumed and sent, and to the merge's records being written. -/
theorem attentionMergesComplete : Obligations.AttentionMergesComplete := by
  unfold Obligations.AttentionMergesComplete
  refine ⟨fun s now mg q e level index mr v hred => ?_, fun s mg q e mr raw h hred hm => ?_⟩
  · intro a g mine leaf inner pieces p toks hm hcut hne hstop hroom hform
    exact lseLocal_gives (s := s) (a := a) (p := p) (leaf := leaf) (pieces := pieces) (toks := toks) rfl
      ((Alesh.reducing_at ..).trans hred) hm rfl rfl rfl rfl rfl rfl hcut hne hstop hroom hform
  · intro a g ps recs bad addr done hdest hretired hroot hhead
    have hbadIff := any_keys_ne_iff mr.d ps h
    constructor
    · intro hnot root out _
      have hany := Bool.eq_false_iff.2 (mt hbadIff.1 hnot)
      obtain ⟨b, hb, rfl⟩ := lseComplete_gives false out hred hm hdest hretired hroot hhead hany
        (by simp only [Bool.false_eq_true, if_false, Bool.not_false, Bool.and_true]; rfl)
      obtain ⟨hw, helse, hcep, hredb, hcount, hsame, hframe⟩ := a.mergeDone_merged mg q e addr out false
      exact ⟨_, hb, hw, helse, hcep, hredb, hcount, hsame, hframe⟩
    · intro hdiffer out _
      obtain ⟨b, hb, rfl⟩ := lseComplete_gives true out hred hm hdest hretired hroot hhead (hbadIff.2 hdiffer)
        (by simp only [if_true, Bool.not_true, Bool.and_false, Bool.false_eq_true, if_false]; rfl)
      obtain ⟨hw, helse, hcep, hredb, hcount, hsame, hframe⟩ := a.mergeDone_merged mg q e addr out true
      refine ⟨_, hb, ⟨hw, helse, hcep, hredb, hcount, hsame, hframe⟩, ?_⟩
      exact (Alesh.num_of_dict (Alesh.post_dict ..) _).trans (Alesh.countMerge_malformed _)

end Sys2Proof.Machine
end

section
/-! SUPPORT. Links that come up, fall, retrain and return credit (R380, R417, R418). -/
namespace Sys2Proof.Machine

/-! ### Lists by port and channel -/

@[simp] theorem lookupD_assign_same {β : Type} (d : β) (l : List (Nat × β)) (k : Nat) (v : β) : lookupD d (assign l k v) k = v := by
  induction l with
  | nil => simp [assign, lookupD]
  | cons p r ih =>
    obtain ⟨k', v'⟩ := p
    by_cases hk : k' = k
    · simp [assign, lookupD, hk]
    · simp [assign, lookupD, hk, ih]

/-- Nothing is kept of a port whose entries are dropped. -/
theorem lookupD_notOnPort {β : Type} (d : β) (l : List (Nat × β)) (port : Nat) {v : Nat} (hv : v < 8) :
    lookupD d (notOnPort port l) (lane port v) = d := by
  have hdiv : lane port v / 8 = port := by unfold lane; omega
  induction l with
  | nil => rfl
  | cons p r ih =>
    obtain ⟨k, w⟩ := p
    by_cases hk : k / 8 = port
    · rw [notOnPort, List.filter_cons_of_neg (by simp [hk])]; exact ih
    · rw [notOnPort, List.filter_cons_of_pos (by simp [hk]), lookupD, if_neg (by rintro rfl; exact hk hdiv)]; exact ih

/-- An entry set for every channel of a port. -/
theorem lookupD_foldl_assign_lane {β : Type} (d : β) (port : Nat) (f : Nat → β) {v : Nat} :
    ∀ (vs : List Nat) (l : List (Nat × β)), lookupD d (vs.foldl (fun l u => assign l (lane port u) (f u)) l) (lane port v) =
      if v ∈ vs then f v else lookupD d l (lane port v)
  | [], _ => by simp
  | u :: vs, l => by
    rw [List.foldl_cons, lookupD_foldl_assign_lane d port f vs]
    by_cases hvs : v ∈ vs
    · rw [if_pos hvs, if_pos (List.mem_cons_of_mem _ hvs)]
    · by_cases hu : v = u
      · subst hu; simp [hvs]
      · have hlane : lane port u ≠ lane port v := by unfold lane; omega
        rw [if_neg hvs, if_neg (by simp [hvs, hu]), lookupD_assign_ne d l hlane]

/-! ### A link's state and the credits that it grants -/

theorem SameBut.mono {n1 n2 : List Nat} {a b : Alesh} (h : SameBut n1 [] a b) (hn : ∀ k ∈ n1, k ∈ n2) : SameBut n2 [] a b :=
  ⟨fun k hk => h.1 k fun hk' => hk (hn k hk'), h.2⟩

section
variable (a : Alesh) {port : Nat} (hp : port ≤ 1) (on : Bool)

theorem Alesh.setLink_frame : a.setLink port on =
    { a with ports := { a.ports with up0 := (a.setLink port on).ports.up0, up1 := (a.setLink port on).ports.up1 }
             dict := (a.setLink port on).dict } := by
  unfold Alesh.setLink
  by_cases h0 : port = 0
  · simp only [h0, if_true]; rfl
  · by_cases h1 : port = 1
    · simp only [h1, Nat.one_ne_zero, if_true, if_false]; rfl
    · simp only [h0, h1, if_false]; rfl

theorem Alesh.setLink_sameBut : SameBut [O.FP_LINK_STATE] [] a (a.setLink port on) := sameBut_setNum ..

theorem Alesh.setLink_state : (a.setLink port on).num O.FP_LINK_STATE =
    (if (a.setLink port on).ports.up0 then 1 else 0) + (if (a.setLink port on).ports.up1 then 2 else 0) := Alesh.num_setNum_same ..

include hp

theorem Alesh.setLink_linkIsUp : (a.setLink port on).linkIsUp port = on := by
  interval_cases port <;> rfl

theorem Alesh.setLink_linkIsUp_other : (a.setLink port on).linkIsUp (1 - port) = a.linkIsUp (1 - port) := by
  interval_cases port <;> rfl

end

theorem Alesh.grantCredits_frame (a : Alesh) (port : Nat) : a.grantCredits port =
    { a with ports := { a.ports with rxCredit := (a.grantCredits port).ports.rxCredit, crOut := (a.grantCredits port).ports.crOut
                                     kept := (a.grantCredits port).ports.kept } } := by
  unfold Alesh.grantCredits
  split <;> rfl

/-- Once fclk has left reset, a link that is up grants FP_RX_CREDITS on every channel. -/
theorem Alesh.grantCredits_rxCredit {a : Alesh} {port v : Nat} (hf : a.ctl.upF = true) (hup : a.ports.isUp port = true) (hv : v < 8) :
    (a.grantCredits port).rxCredit port v = a.num (O.FP_RX_CREDITS + v) := by
  have hguard : (!a.ctl.upF || !a.ports.isUp port) = false := by rw [hf, hup]; rfl
  unfold Alesh.rxCredit Alesh.grantCredits
  rw [if_neg (by rw [hguard]; exact Bool.false_ne_true)]
  exact (lookupD_foldl_assign_lane ..).trans (if_pos (List.mem_range.2 hv))

/-- A link that comes up: no credit to send with, and credits granted. -/
theorem Alesh.linkUp_of_down {a : Alesh} {port : Nat} (hp : port ≤ 1) (hdown : a.linkIsUp port = false) :
    a.linkUp port = Alesh.grantCredits
      { a.setLink port true with ports := { (a.setLink port true).ports with txCredit := notOnPort port (a.setLink port true).ports.txCredit } } port := by
  unfold Alesh.linkUp
  rw [if_neg (by simp [hdown, hp])]

theorem linkUp_gives {s : State} {port : Nat} (hp : port ≤ 1) (hdown : s.alesh.linkIsUp port = false) : Gives (.linkUp port) s fun b =>
    b.linkIsUp port = true ∧ b.linkIsUp (1 - port) = s.alesh.linkIsUp (1 - port) ∧
    b.num O.FP_LINK_STATE = (if b.ports.up0 then 1 else 0) + (if b.ports.up1 then 2 else 0) ∧
    (∀ v, v < 8 → b.txCredit port v = 0 ∧ (s.alesh.ctl.upF = true → b.rxCredit port v = s.alesh.num (O.FP_RX_CREDITS + v))) ∧
    SameBut [O.FP_LINK_STATE] [] s.alesh b ∧ b = { s.alesh with ports := b.ports, dict := b.dict } := by
  refine gives_onCore (f := Alesh.linkUp port) rfl ?_
  rw [Alesh.linkUp_of_down hp hdown]
  generalize s.alesh = a
  have hframe := a.setLink_frame (port := port) true
  have hup := a.setLink_linkIsUp hp true
  have hother := a.setLink_linkIsUp_other hp true
  have hstate := a.setLink_state (port := port) true
  have hsame := a.setLink_sameBut (port := port) true
  generalize a.setLink port true = c at hframe hup hother hstate hsame
  generalize hd : ({ c with ports := { c.ports with txCredit := notOnPort port c.ports.txCredit } } : Alesh) = d
  have hgrant := d.grantCredits_frame port
  have hctl : d.ctl = a.ctl := by rw [← hd, hframe]
  have hupd : d.ports.isUp port = true := by rw [← hd]; exact hup
  have hdict : (d.grantCredits port).dict = c.dict := by rw [hgrant, ← hd]
  refine ⟨?_, ?_, ?_, fun v hv => ⟨?_, fun hf => ?_⟩, hsame.of_dict hdict, ?_⟩
  · rw [hgrant]; exact hupd
  · rw [hgrant, ← hd]; exact hother
  · rw [Alesh.num_of_dict hdict, hgrant, ← hd]; exact hstate
  · rw [hgrant, ← hd]; exact lookupD_notOnPort _ c.ports.txCredit port hv
  · rw [Alesh.grantCredits_rxCredit (by rw [hctl]; exact hf) hupd hv, ← hd]
    refine hsame.1 _ fun hmem => ?_
    have heq : O.FP_RX_CREDITS + v = O.FP_LINK_STATE := List.mem_singleton.1 hmem
    simp only [O.FP_RX_CREDITS, O.FP_LINK_STATE] at heq
    omega
  · rw [hgrant, ← hd, hframe]

/-! ### A retrain -/

theorem Alesh.retrain_frame (a : Alesh) :
    a.retrain = { a with dict := a.retrain.dict, evts := a.retrain.evts, health := a.retrain.health } := rfl

@[simp] theorem Alesh.retrain_ports (a : Alesh) : a.retrain.ports = a.ports := rfl

theorem Alesh.retrain_health (a : Alesh) :
    a.retrain.health = { a.health with now := { a.health.now with lk := a.health.now.lk + 1 } } := rfl

theorem Alesh.retrain_dict (a : Alesh) : a.retrain.dict = ((a.count O.FP_RETRAIN_COUNT).flag O.HEALTH_FLAGS hLinkEvent).dict := rfl

theorem Alesh.retrain_counts (a : Alesh) :
    a.retrain.num O.FP_RETRAIN_COUNT = satAdd (widthOf O.FP_RETRAIN_COUNT) (a.num O.FP_RETRAIN_COUNT) 1 := by
  rw [Alesh.num_of_dict a.retrain_dict, Alesh.num_flag, if_neg (by decide), Alesh.num_count, if_pos rfl]

theorem Alesh.retrain_flags (a : Alesh) : (a.retrain.num O.HEALTH_FLAGS).testBit 11 = true := by
  rw [Alesh.num_of_dict a.retrain_dict, Alesh.num_flag, if_pos rfl, Nat.testBit_or, hLinkEvent, Nat.testBit_two_pow_self, Bool.or_true]

theorem Alesh.retrain_sameBut (a : Alesh) : SameBut [O.FP_RETRAIN_COUNT, O.HEALTH_FLAGS] [] a a.retrain := by
  refine SameBut.mono (n1 := [O.HEALTH_FLAGS] ++ [O.FP_RETRAIN_COUNT]) ?_ (by decide)
  have hflag : SameBut [O.HEALTH_FLAGS] [] (a.count O.FP_RETRAIN_COUNT) ((a.count O.FP_RETRAIN_COUNT).flag O.HEALTH_FLAGS hLinkEvent) :=
    (sameBut_setNum ..).of_dict rfl
  exact (hflag.after (sameBut_setNum a O.FP_RETRAIN_COUNT _)).of_dict a.retrain_dict

theorem linkRetrain_gives {s : State} {port : Nat} (hp : port ≤ 1) (hcore : s.alesh.ctl.core ≠ .reset) :
    Gives (.linkRetrain port) s fun b => b = s.alesh.retrain := by
  refine gives_onCore (f := fun a => if a.ctl.core == .reset || decide (1 < port) then a else a.retrain) rfl ?_
  exact if_neg (by simp [hcore, hp])

/-! ### A fall: the packets being received are discarded (R418) -/

/-- From one core to another by what completed sequences and the packets that tell of them change. -/
def Queued (a b : Alesh) : Prop :=
  b = { a with ports := { a.ports with rx := b.ports.rx, queue := b.ports.queue, tx := b.ports.tx, loop := b.ports.loop } }

theorem Queued.refl (a : Alesh) : Queued a a := rfl

theorem Queued.trans {a b c : Alesh} (hab : Queued a b) (hbc : Queued b c) : Queued a c := by
  unfold Queued
  rw [Queued] at hab hbc
  rw [hbc, hab]

theorem Queued.emit (a : Alesh) (p : Pkt) : Queued a (a.emit p) := by
  unfold Queued Alesh.emit
  split
  · rfl
  · split <;> rfl

theorem Queued.complete (a : Alesh) (src vc : Nat) (pseqs : List Nat) : Queued a (a.complete src vc pseqs) := by
  unfold Alesh.complete
  split
  · exact .refl a
  · dsimp only
    split
    · exact Queued.trans (b := a.setPeerRx _) rfl (Queued.emit ..)
    · rfl

/-- From one core to another by packets discarded that were being received. -/
structure Discarded (a b : Alesh) : Prop where
  frame : b = { a with ports := { a.ports with opened := b.ports.opened, rx := b.ports.rx, queue := b.ports.queue
                                               tx := b.ports.tx, loop := b.ports.loop }
                       dict := b.dict }
  same : SameBut [O.FP_RX_DISCARD_COUNT] [] a b

theorem Discarded.refl (a : Alesh) : Discarded a a := ⟨rfl, fun _ _ => rfl, fun _ _ => rfl⟩

theorem Discarded.trans {a b c : Alesh} (hab : Discarded a b) (hbc : Discarded b c) : Discarded a c := by
  refine ⟨?_, (hbc.same.after hab.same).mono (by simp)⟩
  rw [hbc.frame, hab.frame]

/-- One packet is discarded: it is open no more. -/
theorem Discarded.discardOpen (a : Alesh) (o : OpenRx) (more : List Nat) : Discarded a (a.discardOpen o more) ∧
    (a.discardOpen o more).ports.opened = a.ports.opened.filter fun x => !(x.port == o.port && x.vc == o.vc) := by
  unfold Alesh.discardOpen
  dsimp only
  generalize hc : Alesh.count _ O.FP_RX_DISCARD_COUNT = c
  have hopened : c.ports.opened = a.ports.opened.filter fun x => !(x.port == o.port && x.vc == o.vc) := by rw [← hc]; rfl
  have hcount : Discarded a c := by rw [← hc]; exact ⟨rfl, sameBut_setNum { a with ports := _ } ..⟩
  split
  · have hq := Queued.complete c o.src o.vc (more ++ [o.pseq])
    rw [Queued] at hq
    refine ⟨hcount.trans ⟨?_, ?_, ?_⟩, ?_⟩
    all_goals rw [hq]
    · exact fun _ _ => rfl
    · exact fun _ _ => rfl
    · exact hopened
  · exact ⟨hcount, hopened⟩

/-- Packets discarded one after another: those of their ports and channels are open no more, and the others stay. -/
theorem Discarded.foldl (os : List OpenRx) (a : Alesh) : Discarded a (os.foldl (fun (b : Alesh) o => b.discardOpen o []) a) ∧
    ∀ x, x ∈ (os.foldl (fun (b : Alesh) o => b.discardOpen o []) a).ports.opened ↔
      x ∈ a.ports.opened ∧ ∀ o ∈ os, ¬(x.port = o.port ∧ x.vc = o.vc) := by
  induction os generalizing a with
  | nil => exact ⟨.refl a, by simp⟩
  | cons o os ih =>
    obtain ⟨hstep, hopened⟩ := Discarded.discardOpen a o []
    obtain ⟨hrest, hmem⟩ := ih (a.discardOpen o [])
    refine ⟨hstep.trans hrest, fun x => (hmem x).trans ?_⟩
    have hchannel : (!(x.port == o.port && x.vc == o.vc)) = true ↔ ¬(x.port = o.port ∧ x.vc = o.vc) := by simp [imp_iff_not_or]
    rw [hopened, List.mem_filter, List.forall_mem_cons, hchannel, and_assoc]

/-- The core whose link falls: what was being received on it is discarded, and its credits and what was being sent on it are gone. -/
theorem Alesh.linkDown_of_up {a : Alesh} {port : Nat} (hup : a.linkIsUp port = true) :
    let b := (a.ports.opened.filter fun o => o.port == port).foldl (fun (b : Alesh) (o : OpenRx) => b.discardOpen o []) a
    let c := b.setLink port false
    a.linkDown port = ({ c with ports := { c.ports with
      txCredit := notOnPort port c.ports.txCredit, rxCredit := notOnPort port c.ports.rxCredit, kept := notOnPort port c.ports.kept
      crOut := notOnPort port c.ports.crOut, sending := c.ports.sending.filter fun x => x.port != port } }).retrain := by
  unfold Alesh.linkDown
  simp only [hup, Bool.not_true, Bool.false_eq_true, if_false]

theorem linkDown_gives {s : State} {port : Nat} (hp : port ≤ 1) (hup : s.alesh.linkIsUp port = true) : Gives (.linkDown port) s fun b =>
    b.linkIsUp port = false ∧ (∀ v, v < 8 → b.txCredit port v = 0 ∧ b.rxCredit port v = 0) ∧ (∀ o ∈ b.ports.opened, o.port ≠ port) ∧
    (∀ o ∈ s.alesh.ports.opened, o.port ≠ port → o ∈ b.ports.opened) ∧
    b.ports.sending = s.alesh.ports.sending.filter (fun x => x.port != port) ∧
    b.num O.FP_RETRAIN_COUNT = satAdd (widthOf O.FP_RETRAIN_COUNT) (s.alesh.num O.FP_RETRAIN_COUNT) 1 ∧ b.health.now.lk = s.alesh.health.now.lk + 1 ∧
    SameBut [O.FP_LINK_STATE, O.FP_RETRAIN_COUNT, O.FP_RX_DISCARD_COUNT, O.HEALTH_FLAGS] [] s.alesh b ∧
    b = { s.alesh with ports := b.ports, dict := b.dict, evts := b.evts, health := b.health } := by
  refine gives_onCore (f := Alesh.linkDown port) rfl ?_
  have hlink := Alesh.linkDown_of_up hup
  dsimp only at hlink
  rw [hlink]
  clear hlink hup
  generalize s.alesh = a
  -- the packets open on the port are discarded
  obtain ⟨hdis, hopened⟩ := Discarded.foldl (a.ports.opened.filter fun o => o.port == port) a
  generalize (a.ports.opened.filter fun o => o.port == port).foldl (fun (b : Alesh) (o : OpenRx) => b.discardOpen o []) a = b at hdis hopened
  obtain ⟨hbframe, hbsame⟩ := hdis
  have hgone : ∀ o ∈ b.ports.opened, o.port ≠ port := fun o ho hport => by
    obtain ⟨hmem, hnot⟩ := (hopened o).1 ho
    exact hnot o (List.mem_filter.2 ⟨hmem, by simp [hport]⟩) ⟨rfl, rfl⟩
  have hstays : ∀ o ∈ a.ports.opened, o.port ≠ port → o ∈ b.ports.opened := fun o ho hport => by
    refine (hopened o).2 ⟨ho, fun x hx hsame => hport ?_⟩
    have hxport := (List.mem_filter.1 hx).2
    rw [hsame.1]
    exact beq_iff_eq.1 hxport
  have hsending : b.ports.sending = a.ports.sending := by rw [hbframe]
  -- its link falls
  have hframe := b.setLink_frame (port := port) false
  have hdown := b.setLink_linkIsUp hp false
  have hsame := (b.setLink_sameBut (port := port) false).after hbsame
  generalize b.setLink port false = c at hframe hdown hsame
  have hcopened : c.ports.opened = b.ports.opened := by rw [hframe]
  have hcsending : c.ports.sending = a.ports.sending := by rw [hframe]; exact hsending
  have hcframe : c = { a with ports := c.ports, dict := c.dict } := by rw [hframe, hbframe]
  generalize hd : ({ c with ports := { c.ports with
      txCredit := notOnPort port c.ports.txCredit, rxCredit := notOnPort port c.ports.rxCredit, kept := notOnPort port c.ports.kept
      crOut := notOnPort port c.ports.crOut, sending := c.ports.sending.filter fun x => x.port != port } } : Alesh) = d
  have hdsame : SameBut ([O.FP_LINK_STATE] ++ [O.FP_RX_DISCARD_COUNT]) [] a d := by rw [← hd]; exact hsame.of_dict rfl
  refine ⟨?_, fun v hv => ⟨?_, ?_⟩, ?_, ?_, ?_, ?_, ?_, ?_, ?_⟩
  · rw [← hd]; exact hdown
  · rw [← hd]; exact lookupD_notOnPort _ c.ports.txCredit port hv
  · rw [← hd]; exact lookupD_notOnPort _ c.ports.rxCredit port hv
  · rw [d.retrain_ports, ← hd]; exact hcopened ▸ hgone
  · rw [d.retrain_ports, ← hd]; exact hcopened ▸ hstays
  · rw [d.retrain_ports, ← hd, ← hcsending]
  · rw [d.retrain_counts, hdsame.1 _ (by decide)]
  · rw [d.retrain_health, ← hd, hcframe]
  · exact (d.retrain_sameBut.after hdsame).mono (by decide)
  · rw [d.retrain_frame, ← hd, hcframe]

/-! ### Credit returned (R417) -/

theorem linkCreditReturn_gives {s : State} {port v c : Nat} (hf : s.alesh.ctl.upF = true) (hup : s.alesh.linkIsUp port = true) (hv : v ≤ 7) :
    Gives (.linkCreditReturn port v c) s fun b => b.txCredit port v = s.alesh.txCredit port v + (c % 16 + 1) ∧
      (∀ q u, u ≤ 7 → (q, u) ≠ (port, v) → b.txCredit q u = s.alesh.txCredit q u) ∧
      b = { s.alesh with ports := { s.alesh.ports with txCredit := b.ports.txCredit } } := by
  refine gives_onCore (f := Alesh.creditReturn port v c) rfl ?_
  unfold Alesh.creditReturn
  rw [if_neg (by simp [hf, hup, hv])]
  refine ⟨lookupD_assign_same .., fun q u hu hne => lookupD_assign_ne _ _ ?_ _, rfl⟩
  intro hlane
  unfold lane at hlane
  exact hne (by rw [show q = port by omega, show u = v by omega])

end Sys2Proof.Machine
end

section
/-! SUPPORT. A flit slot of FP0: a flit of VC0 leaves before any other, and a slot without a flit to send leaves none (R149, R416, R417,
R419, R420). -/
namespace Sys2Proof.Machine

/-! ### A flit that leaves -/

theorem Alesh.addWork_frame (a : Alesh) (tenant n : Nat) : a.addWork tenant n = { a with work := (a.addWork tenant n).work } := by
  unfold Alesh.addWork
  split <;> rfl

/-- The ports once a flit has left: its packet waits for its next flit, or is sent whole, and the credit is spent. -/
def Alesh.flitPorts (a : Alesh) (x : Sending) : Ports :=
  let rest := a.ports.sending.filter fun y => !(y.port == x.port && y.vc == x.vc)
  let whole := decide (pktFlits x.pkt ≤ x.next + 1)
  { a.ports with
    sending := if whole then rest else rest ++ [{ x with next := x.next + 1 }]
    sent := if whole then some (x.pkt, x.port, x.pseq) else a.ports.sent
    txCredit := assign a.ports.txCredit (lane x.port x.vc) (a.txCredit x.port x.vc - 1) }

theorem Alesh.sendFlit_frame (a : Alesh) (x : Sending) : a.sendFlit x =
    { a with ports := { a.flitPorts x with tx := (a.sendFlit x).ports.tx }, dict := (a.wrap (O.VC_FLITS + lane x.port x.vc)).dict
             work := (a.sendFlit x).work } := by
  unfold Alesh.sendFlit
  dsimp only
  rw [Alesh.addWork_frame]
  rfl

/-- A channel's packet among those begun once the channel's are taken out. -/
theorem find?_sending_filter (l : List Sending) (port vc : Nat) :
    (l.filter fun y => !(y.port == port && y.vc == vc)).find? (fun y => y.port == port && y.vc == vc) = none := by
  refine List.find?_eq_none.2 fun y hy => ?_
  simpa [imp_iff_not_or] using (List.mem_filter.1 hy).2

section
variable {a b : Alesh} {x : Sending} (hb : b.ports.sending = (a.flitPorts x).sending)
include hb

theorem Alesh.sendingOn_flitPorts_of_whole (h : pktFlits x.pkt ≤ x.next + 1) : b.sendingOn x.port x.vc = none := by
  rw [Alesh.sendingOn, hb, Alesh.flitPorts]
  simp only [h, decide_true, if_true]
  exact find?_sending_filter ..

theorem Alesh.sendingOn_flitPorts_of_more (h : x.next + 1 < pktFlits x.pkt) :
    b.sendingOn x.port x.vc = some { x with next := x.next + 1 } := by
  rw [Alesh.sendingOn, hb, Alesh.flitPorts]
  simp only [Nat.not_le.2 h, decide_false, Bool.false_eq_true, if_false]
  rw [List.find?_append, find?_sending_filter, Option.none_or]
  exact List.find?_cons_of_pos (by simp)

end

/-! ### A slot of FP0 -/

theorem Alesh.slotPassed_frame (a : Alesh) (port vc : Nat) (out : Option TxFlit) : a.slotPassed port vc out =
    { a with health := (a.slotPassed port vc out).health
             ports := { a.ports with recent0 := (a.slotPassed port vc out).ports.recent0, recent1 := (a.slotPassed port vc out).ports.recent1
                                     out0 := (a.slotPassed port vc out).ports.out0, out1 := (a.slotPassed port vc out).ports.out1 }
             dict := (a.wrapN O.CREDIT_WAIT_COUNT (a.ports.queue.filter fun x => !a.peerOk x).length).dict } := rfl

theorem Alesh.slotPassed_out0 (a : Alesh) (vc : Nat) (out : Option TxFlit) : (a.slotPassed 0 vc out).ports.out0 = out := rfl

/-- The ports of FP0's slot once its packet has begun and the round robin stands. -/
def Ports.begun (q b : Ports) (ptr : Nat) (d : List (Nat × Int)) : Ports :=
  { q with queue := b.queue, sending := b.sending, tx := b.tx, ptr0 := ptr
           deficit := d.foldl (fun (l : List (Nat × Int)) (y : Nat × Int) => assign l (lane 0 y.1) y.2) q.deficit }

theorem Alesh.transmit_eq {a b : Alesh} {p : Pkt} {x : Sending} (hb : (if (a.sendingOn 0 p.vc).isSome then a else a.startOn 0 p) = b)
    (hx : b.sendingOn 0 p.vc = some x) (ptr : Nat) (d : List (Nat × Int)) :
    a.transmit 0 p ptr d = Alesh.sendFlit
      { a.slotPassed 0 p.vc (some (flitOf x.pkt x.pseq x.next)) with
        ports := (a.slotPassed 0 p.vc (some (flitOf x.pkt x.pseq x.next))).ports.begun b.ports ptr d } x := by
  unfold Alesh.transmit
  simp only [hb, hx, Option.getD_some, if_true]
  rfl

/-- What a flit slot of FP0 leaves in which a flit of VC0 left. -/
structure FlitLeft (a : Alesh) (queue : List Pkt) (x : Sending) (b : Alesh) : Prop where
  queue : b.ports.queue = queue
  out : b.ports.out0 = some (flitOf x.pkt x.pseq x.next)
  credit : b.txCredit 0 0 = a.txCredit 0 0 - 1
  whole : pktFlits x.pkt ≤ x.next + 1 → b.ports.sent = some (x.pkt, 0, x.pseq) ∧ b.sendingOn 0 0 = none
  more : x.next + 1 < pktFlits x.pkt → b.ports.sent = a.ports.sent ∧ b.sendingOn 0 0 = some { x with next := x.next + 1 }
  counted : b.num O.VC_FLITS = wrapAdd (widthOf O.VC_FLITS) (a.num O.VC_FLITS) 1
  same : SameBut [O.VC_FLITS, O.CREDIT_WAIT_COUNT] [] a b
  waits : b.num O.CREDIT_WAIT_COUNT =
    wrapAdd (widthOf O.CREDIT_WAIT_COUNT) (a.num O.CREDIT_WAIT_COUNT) (a.ports.queue.filter fun x => !a.peerOk x).length
  frame : b = { a with ports := b.ports, dict := b.dict, health := b.health, work := b.work }

theorem Alesh.transmit_flitLeft {a b : Alesh} {p : Pkt} {x : Sending}
    (hb : (if (a.sendingOn 0 p.vc).isSome then a else a.startOn 0 p) = b) (hp : p.vc = 0) (hx : b.sendingOn 0 0 = some x)
    (ptr : Nat) (d : List (Nat × Int)) : FlitLeft a b.ports.queue x (a.transmit 0 p ptr d) := by
  have hchannel := List.find?_some hx
  simp only [Bool.and_eq_true, beq_iff_eq] at hchannel
  obtain ⟨hport, hvc⟩ := hchannel
  rw [Alesh.transmit_eq (x := x) hb (by rw [hp]; exact hx)]
  have hslot := a.slotPassed_frame 0 p.vc (some (flitOf x.pkt x.pseq x.next))
  have hout := a.slotPassed_out0 p.vc (some (flitOf x.pkt x.pseq x.next))
  generalize a.slotPassed 0 p.vc (some (flitOf x.pkt x.pseq x.next)) = c at hslot hout
  -- the core in whose slot the flit leaves
  generalize hc : ({ c with ports := c.ports.begun b.ports ptr d } : Alesh) = e
  have hframe := e.sendFlit_frame x
  have hdict : (e.sendFlit x).dict = (e.wrap O.VC_FLITS).dict := by rw [hframe, hport, hvc]; rfl
  have hedict : e.dict = (a.wrapN O.CREDIT_WAIT_COUNT (a.ports.queue.filter fun x => !a.peerOk x).length).dict := by rw [← hc, hslot]
  have hcredit : e.ports.txCredit = a.ports.txCredit := by rw [← hc, Ports.begun, hslot]
  have hsent : e.ports.sent = a.ports.sent := by rw [← hc, Ports.begun, hslot]
  have hsending : (e.sendFlit x).ports.sending = (e.flitPorts x).sending := by rw [hframe]
  have hchannel : (e.sendFlit x).sendingOn 0 0 = (e.sendFlit x).sendingOn x.port x.vc := by rw [hport, hvc]
  have hnum (k : Nat) : (e.sendFlit x).num k = (e.wrap O.VC_FLITS).num k := Alesh.num_of_dict hdict k
  have henum (k : Nat) := Alesh.num_of_dict hedict k
  refine ⟨?_, ?_, ?_, fun h => ⟨?_, ?_⟩, fun h => ⟨?_, ?_⟩, ?_, ?_, ?_, ?_⟩
  · rw [hframe, Alesh.flitPorts, ← hc, Ports.begun]
  · rw [hframe, Alesh.flitPorts, ← hc, Ports.begun]; exact hout
  · rw [hframe, Alesh.flitPorts, hport, hvc]
    refine (lookupD_assign_same ..).trans ?_
    rw [Alesh.txCredit, hcredit, Alesh.txCredit]
  · rw [hframe, Alesh.flitPorts, hport]
    simp only [h, decide_true, if_true]
  · exact hchannel.trans (Alesh.sendingOn_flitPorts_of_whole hsending h)
  · rw [hframe, Alesh.flitPorts]
    simp only [Nat.not_le.2 h, decide_false, Bool.false_eq_true, if_false]
    exact hsent
  · exact hchannel.trans (Alesh.sendingOn_flitPorts_of_more hsending h)
  · rw [hnum, Alesh.num_wrap, if_pos rfl, henum, Alesh.num_wrapN, if_neg (by decide)]
  · refine SameBut.mono (n1 := [O.VC_FLITS] ++ [O.CREDIT_WAIT_COUNT]) ?_ (by decide)
    exact SameBut.after ((sameBut_setNum e O.VC_FLITS _).of_dict hdict) ((sameBut_setNum a O.CREDIT_WAIT_COUNT _).of_dict hedict)
  · rw [hnum, Alesh.num_wrap, if_neg (by decide), henum, Alesh.num_wrapN, if_pos rfl]
  · rw [hframe, ← hc, hslot]

/-- A packet without peer credit to need begins as the last of those begun. -/
theorem Alesh.startOn_of_vc0 (a : Alesh) (port : Nat) {p : Pkt} (hp : p.vc = 0) : a.startOn port p =
    { a with ports := { a.ports with
        queue := a.ports.queue.erase p, sending := a.ports.sending ++ [{ port := port, vc := 0, pkt := p, pseq := 0, next := 0 }] } } := by
  have hneeds : needsPeer p = false := by simp [needsPeer, hp, isPeerVc]
  unfold Alesh.startOn
  simp only [hneeds, Bool.false_eq_true, if_false, hp]

theorem Alesh.peerOk_of_vc0 (a : Alesh) {p : Pkt} (hp : p.vc = 0) : a.peerOk p = true := by
  simp [Alesh.peerOk, needsPeer, hp, isPeerVc]

/-! ### What FP0 chooses (R149) -/

theorem Alesh.packetTransmit_of_ready {s a : Alesh} {now : Nat} {p : Pkt} (ha : s.at now = a) (hsend : a.maySend = true)
    (hf : a.ctl.upF = true) (hready : a.readyOn a.ports.queue 0 0 = some p) : ∃ ptr d, s.packetTransmit now 0 = a.transmit 0 p ptr d := by
  refine ⟨a.pointer 0, [2, 3, 4, 5, 6, 7].map fun v => (v, a.deficit 0 v), ?_⟩
  have harb : a.arbitrate a.ports.queue 0 = some (0, a.pointer 0, [2, 3, 4, 5, 6, 7].map fun v => (v, a.deficit 0 v)) := by
    unfold Alesh.arbitrate
    simp only [hready, Option.isSome_some, if_true]
  unfold Alesh.packetTransmit
  simp [ha, hsend, hf, harb, hready]

/-- The round robin chooses no channel where none has a flit ready. -/
theorem robin_of_none {ok : Nat → Bool} (hok : ∀ v, v < 8 → ok v = false) (weight : Nat → Nat) (n p : Nat) (d : List (Nat × Int)) :
    (robin ok weight n p d).1 = none := by
  induction n generalizing p d with
  | zero => rfl
  | succ n ih =>
    have hc : ok (p % 6 + 2) = false := hok _ (by omega)
    rw [robin]
    simp only [hc, Bool.false_and, Bool.false_eq_true, if_false]
    exact ih ..

theorem Alesh.arbitrate_of_none {a : Alesh} {q : List Pkt} {port : Nat} (hnone : ∀ v, v < 8 → a.readyOn q port v = none) :
    a.arbitrate q port = none := by
  have hok (v : Nat) (hv : v < 8) : (a.readyOn q port v).isSome = false := by rw [hnone v hv]; rfl
  have hrobin := robin_of_none hok (fun v => a.num (O.VC_WEIGHT + (v - 2)))
  unfold Alesh.arbitrate
  simp only [hok 0 (by decide), hok 1 (by decide), hok 2 (by decide), Bool.false_eq_true, if_false, Bool.false_and]
  split
  next hsome =>
    have hchosen := congrArg Prod.fst hsome
    rw [hrobin] at hchosen
    exact absurd hchosen nofun
  · rfl

theorem Alesh.packetTransmit_of_none {s a : Alesh} {now : Nat} (ha : s.at now = a) (hsend : a.maySend = true) (hf : a.ctl.upF = true)
    (hnone : ∀ v, v < 8 → a.readyOn a.ports.queue 0 v = none) : s.packetTransmit now 0 = a.idleSlot 0 := by
  unfold Alesh.packetTransmit
  simp [ha, hsend, hf, Alesh.arbitrate_of_none hnone]

/-- No channel that is eligible for none counts in its D_c. -/
theorem Alesh.slotPassed_health_of_none {a : Alesh} {port : Nat} (hnone : ∀ v, v < 8 → a.readyOn a.ports.queue port v = none) (vc : Nat)
    (out : Option TxFlit) : (a.slotPassed port vc out).health = a.health := by
  have helig : ([2, 3, 4, 5, 6, 7].filter fun v => (a.readyOn a.ports.queue port v).isSome) = [] := by
    refine List.filter_eq_nil_iff.2 fun v hv => ?_
    rw [hnone v (by simp only [List.mem_cons, List.not_mem_nil, or_false] at hv; omega)]
    simp
  unfold Alesh.slotPassed
  rw [helig]
  rfl

/-! ### The slot (log entry 134) -/

theorem Alesh.maySend_at (a : Alesh) (now : Nat) : (a.at now).maySend = a.maySend := by simp [Alesh.maySend]

/-- What a slot leaves alike, whenever it passes. -/
theorem SameBut.of_at {nums : List Nat} {a b : Alesh} {now : Nat} (h : SameBut nums [] (a.at now) b) : SameBut nums [] a b :=
  ⟨fun k hk => (h.1 k hk).trans (Alesh.num_at ..), fun k hk => (h.2 k hk).trans (Alesh.dom_at ..)⟩

theorem slotFrame_of_at {a b : Alesh} {now : Nat}
    (h : b = { a.at now with ports := b.ports, dict := b.dict, health := b.health, work := b.work }) :
    b = { a with clock := b.clock, ports := b.ports, dict := b.dict, health := b.health, work := b.work } := by
  rw [h, Alesh.at_frame]

theorem FlitLeft.of_at {a b : Alesh} {now : Nat} {queue : List Pkt} {x : Sending} (h : FlitLeft (a.at now) queue x b) :
    b.ports.queue = queue ∧ b.ports.out0 = some (flitOf x.pkt x.pseq x.next) ∧ b.txCredit 0 0 = a.txCredit 0 0 - 1 ∧
      (pktFlits x.pkt ≤ x.next + 1 → b.ports.sent = some (x.pkt, 0, x.pseq) ∧ b.sendingOn 0 0 = none) ∧
      (x.next + 1 < pktFlits x.pkt → b.ports.sent = a.ports.sent ∧ b.sendingOn 0 0 = some { x with next := x.next + 1 }) ∧
      b.num O.VC_FLITS = wrapAdd (widthOf O.VC_FLITS) (a.num O.VC_FLITS) 1 ∧ SameBut [O.VC_FLITS, O.CREDIT_WAIT_COUNT] [] a b ∧
      b.num O.CREDIT_WAIT_COUNT = wrapAdd (widthOf O.CREDIT_WAIT_COUNT) (a.num O.CREDIT_WAIT_COUNT)
        (a.ports.queue.filter fun x => !(a.at now).peerOk x).length ∧
      b = { a with clock := b.clock, ports := b.ports, dict := b.dict, health := b.health, work := b.work } := by
  obtain ⟨hqueue, hout, hcredit, hwhole, hmore, hcounted, hsame, hwaits, hframe⟩ := h
  have htx : (a.at now).txCredit 0 0 = a.txCredit 0 0 := by rw [Alesh.txCredit, Alesh.at_ports, Alesh.txCredit]
  rw [Alesh.at_ports] at hmore hwaits
  rw [Alesh.num_at] at hcounted hwaits
  exact ⟨hqueue, hout, hcredit.trans (congrArg (· - 1) htx), hwhole, hmore, hcounted, hsame.of_at, hwaits, slotFrame_of_at hframe⟩

section
variable {s : State} {a : Alesh} {now : Nat} (ha : s.alesh.at now = a) (hsend : s.alesh.maySend = true) (hf : s.alesh.ctl.upF = true)
  (hup : s.alesh.ports.up0 = true)
include ha hsend hf

/-- A slot without a flit to send. -/
theorem packetTransmit_gives_idle (hnone : ∀ v, v < 8 → a.readyOn s.alesh.ports.queue 0 v = none) :
    Gives (.packetTransmit now 0) s fun b => b = a.idleSlot 0 := by
  refine gives_onCore (f := Alesh.packetTransmit now 0) rfl (Alesh.packetTransmit_of_none ha ?_ ?_ ?_)
  · rw [← ha, Alesh.maySend_at]; exact hsend
  · rw [← ha, Alesh.at_ctl]; exact hf
  · rw [← ha, Alesh.at_ports, ha]; exact hnone

include hup

theorem packetTransmit_gives_transmit {p : Pkt} (hcredit : 0 < s.alesh.txCredit 0 0)
    (hp : (match a.sendingOn 0 0 with | some x => some x.pkt | none => a.ports.queue.find? fun p => p.vc == 0 && a.peerOk p) = some p) :
    Gives (.packetTransmit now 0) s fun b => ∃ ptr d, b = a.transmit 0 p ptr d := by
  refine gives_onCore (f := Alesh.packetTransmit now 0) rfl (Alesh.packetTransmit_of_ready ha ?_ ?_ ?_)
  · rw [← ha, Alesh.maySend_at]; exact hsend
  · rw [← ha, Alesh.at_ctl]; exact hf
  · have hguard : (a.linkIsUp 0 && decide (0 < a.txCredit 0 0)) = true := by
      rw [← ha, Alesh.linkIsUp, Alesh.txCredit, Alesh.at_ports, Bool.and_eq_true]
      exact ⟨hup, decide_eq_true hcredit⟩
    rw [Alesh.readyOn, if_pos hguard]
    exact hp

/-- A packet of VC0 that has begun sends its next flit. -/
theorem packetTransmit_gives_next {x : Sending} (hcredit : 0 < s.alesh.txCredit 0 0) (hx : s.alesh.sendingOn 0 0 = some x)
    (hvc : x.pkt.vc = 0) : Gives (.packetTransmit now 0) s fun b => FlitLeft a s.alesh.ports.queue x b := by
  have hxa : a.sendingOn 0 0 = some x := by rw [← ha, Alesh.sendingOn, Alesh.at_ports]; exact hx
  obtain ⟨b, hb, ptr, d, rfl⟩ := packetTransmit_gives_transmit ha hsend hf hup (p := x.pkt) hcredit (by rw [hxa])
  have hbegun : (if (a.sendingOn 0 x.pkt.vc).isSome then a else a.startOn 0 x.pkt) = a := by rw [hvc, hxa]; rfl
  have hqueue : s.alesh.ports.queue = a.ports.queue := by rw [← ha, Alesh.at_ports]
  exact ⟨_, hb, hqueue ▸ Alesh.transmit_flitLeft hbegun hvc hxa ptr d⟩

/-- The first packet that waits on VC0 begins. -/
theorem packetTransmit_gives_first {p : Pkt} (hcredit : 0 < s.alesh.txCredit 0 0) (hx : s.alesh.sendingOn 0 0 = none)
    (hp : (s.alesh.ports.queue.find? fun x => x.vc == 0) = some p) : Gives (.packetTransmit now 0) s fun b =>
      FlitLeft a (s.alesh.ports.queue.erase p) { port := 0, vc := 0, pkt := p, pseq := 0, next := 0 } b := by
  have hports : a.ports = s.alesh.ports := by rw [← ha, Alesh.at_ports]
  have hxa : a.sendingOn 0 0 = none := by rw [Alesh.sendingOn, hports]; exact hx
  have hvc : p.vc = 0 := by simpa using List.find?_some hp
  have hok : (fun p : Pkt => p.vc == 0 && a.peerOk p) = fun p => p.vc == 0 := by
    funext p
    by_cases h : p.vc = 0
    · rw [Alesh.peerOk_of_vc0 a h, Bool.and_true]
    · simp [h]
  obtain ⟨b, hb, ptr, d, rfl⟩ := packetTransmit_gives_transmit ha hsend hf hup (p := p) hcredit (by rw [hxa, hok, hports]; exact hp)
  have hbegins : (if (a.sendingOn 0 p.vc).isSome then a else a.startOn 0 p) = a.startOn 0 p := by rw [hvc, hxa]; rfl
  have hstart := a.startOn_of_vc0 0 hvc
  have hsends : (a.startOn 0 p).sendingOn 0 0 = some { port := 0, vc := 0, pkt := p, pseq := 0, next := 0 } := by
    rw [Alesh.sendingOn] at hxa
    rw [hstart, Alesh.sendingOn, List.find?_append, hxa, Option.none_or]
    rfl
  have hqueue : s.alesh.ports.queue.erase p = (a.startOn 0 p).ports.queue := by rw [hstart, hports]
  exact ⟨_, hb, hqueue ▸ Alesh.transmit_flitLeft hbegins hvc hsends ptr d⟩

end

/-- What an idle slot leaves. -/
theorem Alesh.idleSlot_waits (a : Alesh) : (a.idleSlot 0).num O.CREDIT_WAIT_COUNT =
    wrapAdd (widthOf O.CREDIT_WAIT_COUNT) (a.num O.CREDIT_WAIT_COUNT) (a.ports.queue.filter fun x => !a.peerOk x).length :=
  (Alesh.num_wrapN { a with health := _, ports := _ } ..).trans (if_pos rfl)

theorem Alesh.idleSlot_sameBut (a : Alesh) : SameBut [O.CREDIT_WAIT_COUNT] [] a (a.idleSlot 0) :=
  (sameBut_setNum a O.CREDIT_WAIT_COUNT _).of_dict (by rw [Alesh.idleSlot, Alesh.slotPassed_frame]; rfl)

/-- Settles O17: each command's core is its link's or its slot's new state, of which the lemmas above say what it keeps. -/
theorem linksCarryPackets : Obligations.LinksCarryPackets := by
  unfold Obligations.LinksCarryPackets
  refine ⟨⟨fun s port hp hdown => linkUp_gives hp hdown, fun s port hp hup => linkDown_gives hp hup, fun s port hp hcore => ?_,
    fun s port v c hf hup hv => linkCreditReturn_gives hf hup hv⟩, fun s now hsend hf hup => ?_⟩
  · obtain ⟨b, hb, rfl⟩ := linkRetrain_gives hp hcore
    exact ⟨_, hb, Alesh.retrain_counts _, Alesh.retrain_health _, Alesh.retrain_flags _, Alesh.retrain_sameBut _, Alesh.retrain_frame _⟩
  · intro a wait frame flit
    refine ⟨fun x hcredit hx hvc _ => ?_, fun p hcredit hx hp => ?_, fun hnone => ?_⟩
    · obtain ⟨b, hb, hleft⟩ := packetTransmit_gives_next (now := now) rfl hsend hf hup hcredit hx hvc
      exact ⟨b, hb, hleft.of_at⟩
    · obtain ⟨b, hb, hleft⟩ := packetTransmit_gives_first (now := now) rfl hsend hf hup hcredit hx hp
      exact ⟨b, hb, hleft.of_at⟩
    · obtain ⟨b, hb, rfl⟩ := packetTransmit_gives_idle (now := now) rfl hsend hf hnone
      have hports : a.ports = s.alesh.ports := Alesh.at_ports ..
      have hslot := a.slotPassed_frame 0 8 none
      have hhealth : (a.idleSlot 0).health = a.health := Alesh.slotPassed_health_of_none (by rw [hports]; exact hnone) 8 none
      have hwaits := a.idleSlot_waits
      rw [hports, Alesh.num_at] at hwaits
      refine ⟨_, hb, rfl, ?_, ?_, ?_, ?_, hhealth.trans (Alesh.at_health ..), a.idleSlot_sameBut.of_at, hwaits,
        slotFrame_of_at (now := now) hslot⟩
      all_goals rw [Alesh.idleSlot, hslot, hports]

end Sys2Proof.Machine
end

section
/-! SUPPORT. Arithmetic of GF(2^8) modulo 0x11D, and the linearity of parity (R151, R152, R164). -/
namespace Sys2Proof.Machine

/-! ### Additive maps of bytes -/

theorem xor_left_comm {w : Nat} (a b c : BitVec w) : a ^^^ (b ^^^ c) = b ^^^ (a ^^^ c) := by
  rw [← BitVec.xor_assoc, BitVec.xor_comm a, BitVec.xor_assoc]

/-- A step that adds a value where a bit is set adds up: the bit and the sums on both sides. -/
theorem ite_xor_of_bits {w : Nat} (p q : Bool) (r r' x : BitVec w) : (if (p ^^ q) = true then r ^^^ r' ^^^ x else r ^^^ r') =
    (if p then r ^^^ x else r) ^^^ if q then r' ^^^ x else r' := by
  cases p <;> cases q <;> simp [BitVec.xor_assoc, xor_left_comm x, BitVec.xor_comm x]

/-- A step that adds a value where a bit is set adds up: the values and the sums on both sides. -/
theorem ite_xor_of_values {w : Nat} (p : Bool) (r r' x x' : BitVec w) : (if p then r ^^^ r' ^^^ (x ^^^ x') else r ^^^ r') =
    (if p then r ^^^ x else r) ^^^ if p then r' ^^^ x' else r' := by
  cases p
  · rfl
  · simp only [if_true, BitVec.xor_assoc, xor_left_comm x]

/-- A fold whose steps add up adds up. -/
theorem foldl_xor_of_step {w : Nat} {ι : Type} {f g h : BitVec w → ι → BitVec w}
    (hs : ∀ r r' i, f (r ^^^ r') i = g r i ^^^ h r' i) (l : List ι) (r r' : BitVec w) :
    l.foldl f (r ^^^ r') = l.foldl g r ^^^ l.foldl h r' := by
  induction l generalizing r r' with
  | nil => rfl
  | cons i l ih => rw [List.foldl_cons, List.foldl_cons, List.foldl_cons, hs, ih]

theorem gfX_xor (a b : Byte) : gfX (a ^^^ b) = gfX a ^^^ gfX b := by
  unfold gfX
  rw [BitVec.msb_xor, BitVec.shiftLeft_xor_distrib]
  exact ite_xor_of_bits ..

/-- A byte is the sum of the powers x^i of its set bits (R151). -/
theorem byte_eq_xor_powers (a : Byte) :
    a = (List.range 8).foldl (fun r i => if a.getLsbD i then r ^^^ gfX^[i] 1#8 else r) 0#8 := by
  revert a; decide +kernel

/-- What holds of the powers x^i of a byte, and with two bytes of their sum, holds of every byte. -/
theorem byte_sum_induction {P : Byte → Prop} (hpow : ∀ i < 8, P (gfX^[i] 1#8)) (hadd : ∀ a b, P a → P b → P (a ^^^ b))
    (a : Byte) : P a := by
  have hsum (l : List Nat) (hl : ∀ i ∈ l, i < 8) (r : Byte) (hr : P r) :
      P (l.foldl (fun r i => if a.getLsbD i then r ^^^ gfX^[i] 1#8 else r) r) := by
    induction l generalizing r with
    | nil => exact hr
    | cons i l ih =>
      rw [List.foldl_cons]
      refine ih (fun j hj => hl j (List.mem_cons_of_mem _ hj)) _ ?_
      split
      · exact hadd _ _ hr (hpow i (hl i List.mem_cons_self))
      · exact hr
  rw [byte_eq_xor_powers a]
  exact hsum _ (fun i hi => List.mem_range.1 hi) _ (hadd _ _ (hpow 0 (by decide)) (hpow 0 (by decide)))

/-- What holds of 1, and with a byte of its product with x and with two bytes of their sum, holds of every byte. -/
theorem byte_induction {P : Byte → Prop} (hone : P 1#8) (hX : ∀ a, P a → P (gfX a)) (hadd : ∀ a b, P a → P b → P (a ^^^ b))
    (a : Byte) : P a := by
  refine byte_sum_induction (fun i _ => ?_) hadd a
  induction i with
  | zero => exact hone
  | succ i ih => rw [Function.iterate_succ_apply']; exact hX _ (ih (by omega))

/-! ### Multiplication (R151) -/

theorem gfMulGo_xor_right (n : Nat) (a b b' r r' : Byte) :
    gfMulGo n a (b ^^^ b') (r ^^^ r') = gfMulGo n a b r ^^^ gfMulGo n a b' r' := by
  induction n generalizing a b b' r r' with
  | zero => rfl
  | succ n ih => rw [gfMulGo, gfMulGo, gfMulGo, BitVec.ushiftRight_xor_distrib, BitVec.getLsbD_xor, ite_xor_of_bits, ih]

theorem gfMulGo_xor_left (n : Nat) (a a' b r r' : Byte) :
    gfMulGo n (a ^^^ a') b (r ^^^ r') = gfMulGo n a b r ^^^ gfMulGo n a' b r' := by
  induction n generalizing a a' b r r' with
  | zero => rfl
  | succ n ih => rw [gfMulGo, gfMulGo, gfMulGo, gfX_xor, ite_xor_of_values, ih]

theorem gfMulGo_gfX_left (n : Nat) (a b r : Byte) : gfMulGo n (gfX a) b (gfX r) = gfX (gfMulGo n a b r) := by
  induction n generalizing a b r with
  | zero => rfl
  | succ n ih => rw [gfMulGo, gfMulGo, ← ih, apply_ite gfX, gfX_xor]

theorem gfMul_xor_right (a b b' : Byte) : gfMul a (b ^^^ b') = gfMul a b ^^^ gfMul a b' := gfMulGo_xor_right 8 a b b' 0 0

theorem gfMul_xor_left (a a' b : Byte) : gfMul (a ^^^ a') b = gfMul a b ^^^ gfMul a' b := gfMulGo_xor_left 8 a a' b 0 0

theorem gfMul_gfX_left (a b : Byte) : gfMul (gfX a) b = gfX (gfMul a b) := gfMulGo_gfX_left 8 a b 0

theorem gfMul_one_left : ∀ b : Byte, gfMul 1#8 b = b := by decide +kernel

theorem gfMul_gfX_right (a b : Byte) : gfMul a (gfX b) = gfX (gfMul a b) :=
  byte_induction (P := fun a => gfMul a (gfX b) = gfX (gfMul a b)) (by rw [gfMul_one_left, gfMul_one_left])
    (fun a h => by rw [gfMul_gfX_left, gfMul_gfX_left, h])
    (fun a a' h h' => by rw [gfMul_xor_left, gfMul_xor_left, gfX_xor, h, h']) a

theorem gfMul_one_right (a : Byte) : gfMul a 1#8 = a :=
  byte_induction (P := fun a => gfMul a 1#8 = a) (gfMul_one_left 1#8) (fun a h => by rw [gfMul_gfX_left, h])
    (fun a a' h h' => by rw [gfMul_xor_left, h, h']) a

theorem gfMul_comm (a b : Byte) : gfMul a b = gfMul b a :=
  byte_induction (P := fun a => gfMul a b = gfMul b a) (by rw [gfMul_one_left, gfMul_one_right])
    (fun a h => by rw [gfMul_gfX_left, gfMul_gfX_right, h])
    (fun a a' h h' => by rw [gfMul_xor_left, gfMul_xor_right, h, h']) a

theorem gfMul_assoc (a b c : Byte) : gfMul (gfMul a b) c = gfMul a (gfMul b c) :=
  byte_induction (P := fun a => gfMul (gfMul a b) c = gfMul a (gfMul b c)) (by rw [gfMul_one_left, gfMul_one_left])
    (fun a h => by rw [gfMul_gfX_left, gfMul_gfX_left, gfMul_gfX_left, h])
    (fun a a' h h' => by rw [gfMul_xor_left, gfMul_xor_left, gfMul_xor_left, h, h']) a

/-! ### Multiplication as R151 states it -/

/-- The polynomial product of two bytes, not reduced. -/
def polyMul (a b : Byte) : BitVec 15 :=
  (List.range 8).foldl (fun (r : BitVec 15) i => if b.getLsbD i then r ^^^ (a.zeroExtend 15 <<< i) else r) 0#15

/-- A product reduced modulo 0x11D, highest power first. -/
def polyReduce (p : BitVec 15) : BitVec 15 :=
  [6, 5, 4, 3, 2, 1, 0].foldl (fun (r : BitVec 15) i => if r.getLsbD (8 + i) then r ^^^ (0x11D#15 <<< i) else r) p

theorem polyMul_xor_left (a a' b : Byte) : polyMul (a ^^^ a') b = polyMul a b ^^^ polyMul a' b := by
  refine foldl_xor_of_step (r := 0#15) (r' := 0#15) (fun r r' i => ?_) (List.range 8)
  rw [BitVec.zeroExtend, BitVec.setWidth_xor, BitVec.shiftLeft_xor_distrib]
  exact ite_xor_of_values ..

theorem polyMul_xor_right (a b b' : Byte) : polyMul a (b ^^^ b') = polyMul a b ^^^ polyMul a b' := by
  refine foldl_xor_of_step (r := 0#15) (r' := 0#15) (fun r r' i => ?_) (List.range 8)
  rw [BitVec.getLsbD_xor]
  exact ite_xor_of_bits ..

theorem polyReduce_xor (p q : BitVec 15) : polyReduce (p ^^^ q) = polyReduce p ^^^ polyReduce q := by
  refine foldl_xor_of_step (fun r r' i => ?_) _ p q
  rw [BitVec.getLsbD_xor]
  exact ite_xor_of_bits ..

/-- Both products are additive in each factor, so they agree where they agree on the powers of x. -/
theorem gfMul_eq_polyReduce (a b : Byte) : gfMul a b = (polyReduce (polyMul a b)).setWidth 8 := by
  have hpow : ∀ i < 8, ∀ j < 8, gfMul (gfX^[i] 1#8) (gfX^[j] 1#8) =
      (polyReduce (polyMul (gfX^[i] 1#8) (gfX^[j] 1#8))).setWidth 8 := by decide +kernel
  refine byte_sum_induction (P := fun a => gfMul a b = (polyReduce (polyMul a b)).setWidth 8) (fun i hi => ?_) (fun a a' h h' => ?_) a
  · refine byte_sum_induction (P := fun b => gfMul _ b = (polyReduce (polyMul _ b)).setWidth 8) (hpow i hi) (fun b b' h h' => ?_) b
    rw [gfMul_xor_right, polyMul_xor_right, polyReduce_xor, BitVec.setWidth_xor, h, h']
  · rw [gfMul_xor_left, polyMul_xor_left, polyReduce_xor, BitVec.setWidth_xor, h, h']

/-! ### Inverses and coefficients (R152) -/

theorem gfPow_add (m n : Nat) (a : Byte) : gfPow (m + n) a = gfMul (gfPow m a) (gfPow n a) := by
  induction m with
  | zero => rw [Nat.zero_add, gfPow]; exact (gfMul_one_left _).symm
  | succ m ih => rw [Nat.add_right_comm, gfPow, gfPow, ih, gfMul_assoc]

theorem gfPow_mul (m n : Nat) (a : Byte) : gfPow (m * n) a = gfPow m (gfPow n a) := by
  induction m with
  | zero => rw [Nat.zero_mul]; rfl
  | succ m ih => rw [Nat.succ_mul, Nat.add_comm, gfPow_add, ih]; rfl

/-- The coefficient of a used row and column is the inverse of x_i ⊕ y_j (R152): a byte's power 255 = 3 · 5 · 17 is one. -/
theorem gfMul_coef {i j : Nat} (hi : i < 4) (hj : j < 30) :
    gfMul (coef i j) (BitVec.ofNat 8 i ^^^ BitVec.ofNat 8 (4 + j)) = 1 := by
  have hsum : ∀ i < 4, ∀ j < 30, ∃ n < 38, n ≠ 0 ∧ BitVec.ofNat 8 i ^^^ BitVec.ofNat 8 (4 + j) = BitVec.ofNat 8 n := by decide
  have hunit : ∀ n < 38, n ≠ 0 → gfPow 3 (gfPow 5 (gfPow 17 (BitVec.ofNat 8 n))) = 1 := by decide +kernel
  obtain ⟨n, hn, hne, heq⟩ := hsum i hi j hj
  rw [coef, heq, gfMul_comm]
  show gfPow (3 * 5 * 17) _ = 1
  rw [gfPow_mul, gfPow_mul, hunit n hn hne]

theorem coef_ne_zero {i j : Nat} (hi : i < 4) (hj : j < 30) : coef i j ≠ 0 := by
  intro h
  have hone := gfMul_coef hi hj
  have hzero (x : Byte) : gfMul 0#8 x = 0#8 := by simpa using gfMul_xor_left 0#8 0#8 x
  rw [h, show (0 : Byte) = 0#8 from rfl, hzero] at hone
  exact absurd hone (by decide)

/-! ### Byte strings under XOR -/

@[simp] theorem xorBytes_nil_left (b : Bytes) : xorBytes [] b = b := by simp [xorBytes]

@[simp] theorem xorBytes_nil_right (b : Bytes) : xorBytes b [] = b := by cases b <;> rfl

theorem xorBytes_comm (x y : Bytes) : xorBytes x y = xorBytes y x := by
  induction x generalizing y with
  | nil => simp
  | cons a x ih =>
    cases y with
    | nil => rfl
    | cons b y => rw [xorBytes, xorBytes, ih, BitVec.xor_comm]

theorem xorBytes_assoc (x y z : Bytes) : xorBytes (xorBytes x y) z = xorBytes x (xorBytes y z) := by
  induction x generalizing y z with
  | nil => simp
  | cons a x ih =>
    cases y with
    | nil => simp
    | cons b y =>
      cases z with
      | nil => simp
      | cons c z => simp [xorBytes, ih, BitVec.xor_assoc]

theorem xorBytes_right_comm (p x y : Bytes) : xorBytes (xorBytes p x) y = xorBytes (xorBytes p y) x := by
  rw [xorBytes_assoc, xorBytes_comm x, ← xorBytes_assoc]

/-- A string added twice to one of its length leaves it. -/
theorem xorBytes_cancel_left {x y : Bytes} (h : x.length = y.length) : xorBytes x (xorBytes x y) = y := by
  induction x generalizing y with
  | nil => simp
  | cons a x ih =>
    cases y with
    | nil => cases h
    | cons b y => rw [xorBytes, xorBytes, ih (Nat.succ.inj h), ← BitVec.xor_assoc, BitVec.xor_self, BitVec.zero_xor]

theorem length_xorBytes (x y : Bytes) : (xorBytes x y).length = max x.length y.length := by
  induction x generalizing y with
  | nil => simp
  | cons a x ih =>
    cases y with
    | nil => simp
    | cons b y => simp only [xorBytes, List.length_cons, ih]; omega

theorem getElem?_xorBytes {x y : Bytes} {i : Nat} (hx : i < x.length) (hy : i < y.length) :
    (xorBytes x y)[i]? = some (x[i] ^^^ y[i]) := by
  induction x generalizing y i with
  | nil => cases hx
  | cons a x ih =>
    cases y with
    | nil => cases hy
    | cons b y =>
      cases i with
      | zero => rfl
      | succ i => exact ih (Nat.lt_of_succ_lt_succ hx) (Nat.lt_of_succ_lt_succ hy)

theorem length_gfScale (c : Byte) (b : Bytes) : (gfScale c b).length = b.length := List.length_map ..

theorem gfScale_xorBytes (c : Byte) (x y : Bytes) : gfScale c (xorBytes x y) = xorBytes (gfScale c x) (gfScale c y) := by
  induction x generalizing y with
  | nil => simp [gfScale]
  | cons a x ih =>
    cases y with
    | nil => simp [gfScale]
    | cons b y => exact congrArg₂ _ (gfMul_xor_right c a b) (ih y)

/-! ### Parity (R152, R164) -/

/-- The parity of data fragments whose columns count from `k` on. -/
def parityFrom (i k : Nat) (data : List Bytes) : Bytes :=
  ((data.zipIdx k).map fun d => gfScale (coef i d.2) d.1).foldl xorBytes []

theorem foldl_xorBytes (p : Bytes) (l : List Bytes) : l.foldl xorBytes p = xorBytes p (l.foldl xorBytes []) := by
  induction l generalizing p with
  | nil => simp
  | cons x l ih => rw [List.foldl_cons, List.foldl_cons, ih, ih (xorBytes [] x), xorBytes_nil_left, xorBytes_assoc]

theorem parityFrom_cons (i k : Nat) (d : Bytes) (data : List Bytes) :
    parityFrom i k (d :: data) = xorBytes (gfScale (coef i k) d) (parityFrom i (k + 1) data) := by
  rw [parityFrom, List.zipIdx_cons, List.map_cons, List.foldl_cons, xorBytes_nil_left, foldl_xorBytes]
  rfl

/-- A data fragment that changes changes the parity by its scaled change (R164). -/
theorem parityFrom_set {i : Nat} (k : Nat) {data : List Bytes} {j : Nat} {old new : Bytes} (hold : data[j]? = some old)
    (hlen : old.length = new.length) :
    parityFrom i k (data.set j new) = xorBytes (parityFrom i k data) (gfScale (coef i (k + j)) (xorBytes old new)) := by
  induction data generalizing k j with
  | nil => cases hold
  | cons d data ih =>
    cases j with
    | zero =>
      obtain rfl : d = old := Option.some.inj hold
      have hscaled : (gfScale (coef i k) d).length = (gfScale (coef i k) new).length := by
        rw [length_gfScale, length_gfScale, hlen]
      rw [List.set_cons_zero, parityFrom_cons, parityFrom_cons, gfScale_xorBytes, xorBytes_right_comm, Nat.add_zero k,
        xorBytes_cancel_left hscaled]
    | succ j =>
      rw [List.set_cons_succ, parityFrom_cons, parityFrom_cons, ih (k + 1) hold, xorBytes_assoc, Nat.add_right_comm, Nat.add_assoc]

/-- Settles O60: both products are additive in each factor and agree on the powers of x; parity is a sum of scaled fragments. -/
theorem parityFollowsTheData : Obligations.ParityFollowsTheData := by
  unfold Obligations.ParityFollowsTheData
  intro product reduced
  refine ⟨fun a b => ⟨gfMul_eq_polyReduce a b, ?_⟩, fun x y _ i hx hy => getElem?_xorBytes hx hy,
    fun a b c => ⟨gfMul_xor_right a b c, gfMul_comm a b⟩, fun i j hi hj => ⟨coef_ne_zero hi hj, gfMul_coef hi hj⟩,
    fun i j n data old new hdata hold hnew => ?_, xorBytes_right_comm⟩
  · rw [← BitVec.toNat_xor, BitVec.ofNat_toNat, BitVec.setWidth_eq]
  · have hlen : old.length = new.length := (hdata old (List.mem_of_getElem? hold)).trans hnew.symm
    have h := parityFrom_set (i := i) 0 hold hlen
    rwa [Nat.zero_add] at h

end Sys2Proof.Machine
end

section
/-! SUPPORT. Parity pages, their records, column epochs and page epoch tables under writes of Tier 0 (R160 to R162, R164, R238). -/
namespace Sys2Proof.Machine

/-! ### What lies beside an area is left alone -/

/-- An address of a run of Tier 0. -/
def InRun (lo n x : Nat) : Prop := lo ≤ x ∧ x < lo + n

/-- From one core to another by writes of Tier 0 inside an area alone. -/
structure Rewrites (area : Nat → Prop) (a b : Alesh) : Prop where
  frame : b = { a with mem0 := b.mem0 }
  get : ∀ x, ¬area x → b.mem0.get x = a.mem0.get x

namespace Rewrites
variable {area : Nat → Prop} {a b c : Alesh}

theorem refl (area : Nat → Prop) (a : Alesh) : Rewrites area a a := ⟨rfl, fun _ _ => rfl⟩

theorem trans (hab : Rewrites area a b) (hbc : Rewrites area b c) : Rewrites area a c := by
  refine ⟨hbc.frame.trans ?_, fun x hx => (hbc.get x hx).trans (hab.get x hx)⟩
  rw [hab.frame]

theorem mono {area' : Nat → Prop} (h : Rewrites area a b) (hsub : ∀ x, area x → area' x) : Rewrites area' a b :=
  ⟨h.frame, fun x hx => h.get x fun hin => hx (hsub x hin)⟩

theorem dict (h : Rewrites area a b) : b.dict = a.dict := by rw [h.frame]
theorem errs (h : Rewrites area a b) : b.errs = a.errs := by rw [h.frame]
theorem ctl (h : Rewrites area a b) : b.ctl = a.ctl := by rw [h.frame]
theorem coding (h : Rewrites area a b) : b.coding = a.coding := by rw [h.frame]

/-- A run away from the area reads as before. -/
theorem read (h : Rewrites area a b) {x n : Nat} (hout : ∀ y, InRun x n y → ¬area y) : b.mem0.read x n = a.mem0.read x n := by
  rw [Memory.read_eq, Memory.read_eq]
  exact List.map_congr_left fun i hi => h.get _ (hout _ ⟨Nat.le_add_right .., by have := List.mem_range.1 hi; omega⟩)

theorem wr (hr : a.errs.retired = []) {addr : Nat} {d : Bytes} (hin : ∀ y, InRun addr d.length y → area y) :
    Rewrites area a (a.wr addr d) :=
  ⟨Alesh.wr_frame .., fun _ hx => Alesh.wr_mem0_get_of_outside hr fun h => hx (hin _ h)⟩

theorem wrLe (hr : a.errs.retired = []) {addr n : Nat} (v : Nat) (hin : ∀ y, InRun addr n y → area y) :
    Rewrites area a (a.wrLe addr n v) := wr hr (by rwa [leBytes_length])

theorem foldl {ι : Type} {f : Alesh → ι → Alesh} (l : List ι) (a : Alesh)
    (hf : ∀ x ∈ l, ∀ b, Rewrites area a b → Rewrites area b (f b x)) : Rewrites area a (l.foldl f a) := by
  have hall (l' : List ι) (hl : ∀ x ∈ l', x ∈ l) (b : Alesh) (hb : Rewrites area a b) : Rewrites area a (l'.foldl f b) := by
    induction l' generalizing b with
    | nil => exact hb
    | cons x l' ih =>
      exact ih (fun y hy => hl y (List.mem_cons_of_mem _ hy)) _ (hb.trans (hf x (hl x List.mem_cons_self) b hb))
  exact hall l (fun _ h => h) a (refl area a)

end Rewrites

/-! ### Reads where no page is retired -/

theorem Alesh.rd_of_retired_nil {a : Alesh} (hr : a.errs.retired = []) (addr n : Nat) : a.rd addr n = a.mem0.read addr n := by
  simp [Alesh.rd, hr]

theorem Alesh.rdLe_of_retired_nil {a : Alesh} (hr : a.errs.retired = []) (addr n : Nat) : a.rdLe addr n = leNat (a.mem0.read addr n) := by
  rw [Alesh.rdLe, Alesh.rd_of_retired_nil hr]

theorem Alesh.wr_errs (a : Alesh) (addr : Nat) (b : Bytes) : (a.wr addr b).errs = a.errs := by rw [Alesh.wr_frame]
theorem Alesh.wr_ctl (a : Alesh) (addr : Nat) (b : Bytes) : (a.wr addr b).ctl = a.ctl := by rw [Alesh.wr_frame]
theorem Alesh.wr_dict (a : Alesh) (addr : Nat) (b : Bytes) : (a.wr addr b).dict = a.dict := by rw [Alesh.wr_frame]

section
variable {a : Alesh} (hr : a.errs.retired = []) (hc : a.ctl.core ≠ .occulted)
include hr hc

theorem Alesh.wr_mem0_read (addr : Nat) (b : Bytes) : (a.wr addr b).mem0.read addr b.length = b := by
  rw [Alesh.wr_of_not_occulted hr hc]
  exact Memory.read_write_same ..

/-- A number written in whole reads back. -/
theorem Alesh.rdLe_wrLe_same (addr n : Nat) {v : Nat} (hv : v < 2 ^ (8 * n)) : (a.wrLe addr n v).rdLe addr n = v := by
  have hread := Alesh.wr_mem0_read hr hc addr (leBytes n v)
  rw [leBytes_length] at hread
  rw [Alesh.wrLe, Alesh.rdLe_of_retired_nil (by rw [Alesh.wr_errs]; exact hr), hread, leNat_leBytes, Nat.mod_eq_of_lt hv]

end

/-! ### The areas of a parity slot -/

/-- The pages, the records with the column record, and the page epoch table of a slot (R160). -/
def Alesh.inSlotPages (a : Alesh) (alt : Bool) (s x : Nat) : Prop := InRun (a.parityBase alt + s * 16777216) 16777216 x
def Alesh.inSlotMeta (a : Alesh) (alt : Bool) (s x : Nat) : Prop := InRun (a.parityMeta alt + s * 16640) 16640 x
def Alesh.inSlotTable (a : Alesh) (alt : Bool) (s x : Nat) : Prop := InRun (a.epochTable alt + s * 65536) 65536 x
/-- Whatever a slot holds. -/
def Alesh.inSlot (a : Alesh) (alt : Bool) (s x : Nat) : Prop := a.inSlotPages alt s x ∨ a.inSlotMeta alt s x ∨ a.inSlotTable alt s x

section
variable {a b : Alesh} (hd : b.dict = a.dict) (alt : Bool) (s : Nat)
include hd

theorem Alesh.parityBase_of_dict : b.parityBase alt = a.parityBase alt := Alesh.num_of_dict hd _
theorem Alesh.parityMeta_of_dict : b.parityMeta alt = a.parityMeta alt := Alesh.num_of_dict hd _
theorem Alesh.epochTable_of_dict : b.epochTable alt = a.epochTable alt := Alesh.num_of_dict hd _
theorem Alesh.parityAddr_of_dict (p : Nat) : b.parityAddr alt s p = a.parityAddr alt s p := by
  rw [Alesh.parityAddr, Alesh.parityBase_of_dict hd, Alesh.parityAddr]
theorem Alesh.parityRecAddr_of_dict (p : Nat) : b.parityRecAddr alt s p = a.parityRecAddr alt s p := by
  rw [Alesh.parityRecAddr, Alesh.parityMeta_of_dict hd, Alesh.parityRecAddr]
theorem Alesh.columnAddr_of_dict : b.columnAddr alt s = a.columnAddr alt s := by
  rw [Alesh.columnAddr, Alesh.parityMeta_of_dict hd, Alesh.columnAddr]
theorem Alesh.tableAddr_of_dict : b.tableAddr alt s = a.tableAddr alt s := by
  rw [Alesh.tableAddr, Alesh.epochTable_of_dict hd, Alesh.tableAddr]

end

section
variable (a : Alesh) (alt : Bool) (s : Nat) {x : Nat}

theorem Alesh.inSlotPages_of_page {p : Nat} (hp : p < 256) (hx : InRun (a.parityAddr alt s p) 65536 x) : a.inSlotPages alt s x := by
  simp only [InRun, Alesh.parityAddr, Alesh.inSlotPages, sliceBytes, pageBytes] at hx ⊢; omega

theorem Alesh.inSlotMeta_of_record {p : Nat} (hp : p < 256) (hx : InRun (a.parityRecAddr alt s p) 64 x) : a.inSlotMeta alt s x := by
  simp only [InRun, Alesh.parityRecAddr, Alesh.inSlotMeta, paritySlotMeta] at hx ⊢; omega

theorem Alesh.inSlotMeta_of_column {col : Nat} (hcol : col < 32) (hx : InRun (a.columnAddr alt s + 8 * col) 8 x) : a.inSlotMeta alt s x := by
  simp only [InRun, Alesh.columnAddr, Alesh.inSlotMeta, paritySlotMeta] at hx ⊢; omega

theorem Alesh.inSlotTable_of_entry {col p : Nat} (hcol : col < 32) (hp : p < 256)
    (hx : InRun (a.tableAddr alt s + (256 * col + p) * 8) 8 x) : a.inSlotTable alt s x := by
  simp only [InRun, Alesh.tableAddr, Alesh.inSlotTable, pageBytes] at hx ⊢; omega

theorem Alesh.inSlotTable_of_seal (hx : InRun (a.tableAddr alt s + 65528) 8 x) : a.inSlotTable alt s x := by
  simp only [InRun, Alesh.tableAddr, Alesh.inSlotTable, pageBytes] at hx ⊢; omega

end

/-! ### Records, pages and epochs read back -/

theorem PageRec.bytes_length (r : PageRec) : r.bytes.length = 64 := leBytes_length ..

/-- The VALID bit of a record reads back from its bytes (R43, R44). -/
theorem PageRec.valid_ofWord_bytes {r : PageRec} (hf : r.flags < 2 ^ 16) : (PageRec.ofWord (leNat r.bytes)).valid = r.valid := by
  have hfields : fieldsDescend 512 [(336, 5, r.frag), (304, 32, r.job), (272, 32, r.memb), (256, 8, r.page), (240, 16, r.slice),
    (224, 16, r.shard), (192, 18, r.owner), (128, 64, r.crc), (80, 48, r.base), (32, 48, r.step), (24, 4, r.version),
    (8, 16, r.flags), (0, 4, r.kind)] = true := rfl
  have hword : (PageRec.ofWord (leNat r.bytes)).flags = r.flags := by
    rw [PageRec.bytes, leNat_leBytes, Nat.mod_eq_of_lt (packBits_lt hfields)]
    exact bf_packBits rfl hfields (8, 16, r.flags) (by simp) hf
  rw [PageRec.valid, PageRec.has, hword, PageRec.valid, PageRec.has]

theorem Alesh.length_parityPage {a : Alesh} (hr : a.errs.retired = []) (alt : Bool) (s p : Nat) : (a.parityPage alt s p).length = 65536 := by
  unfold Alesh.parityPage
  split
  · rw [Alesh.rd_of_retired_nil hr, Memory.length_read]; rfl
  · exact List.length_replicate

section
variable {a b : Alesh} (hd : b.dict = a.dict) (hr : a.errs.retired = []) (he : b.errs = a.errs) (alt : Bool) (s p : Nat)
include hd hr he

/-- A parity page reads alike where its bytes and its record's are alike. -/
theorem Alesh.parityPage_of_read (hpage : b.mem0.read (a.parityAddr alt s p) 65536 = a.mem0.read (a.parityAddr alt s p) 65536)
    (hrec : b.mem0.read (a.parityRecAddr alt s p) 64 = a.mem0.read (a.parityRecAddr alt s p) 64) :
    b.parityPage alt s p = a.parityPage alt s p ∧ b.parityRec alt s p = a.parityRec alt s p := by
  have hrb : b.errs.retired = [] := by rw [he]; exact hr
  have hr' : b.parityRec alt s p = a.parityRec alt s p := by
    rw [Alesh.parityRec, Alesh.parityRec, Alesh.rdLe_of_retired_nil hrb, Alesh.rdLe_of_retired_nil hr, Alesh.parityRecAddr_of_dict hd, hrec]
  refine ⟨?_, hr'⟩
  unfold Alesh.parityPage
  rw [hr', Alesh.rd_of_retired_nil hrb, Alesh.rd_of_retired_nil hr, Alesh.parityAddr_of_dict hd, pageBytes, hpage]

end

section
variable {a : Alesh} (hr : a.errs.retired = []) (alt : Bool) (s band row page step group : Nat) (d : Bytes)

/-- The record under which a parity page is written (R161). -/
def Alesh.newParityRec (a : Alesh) (alt : Bool) (s band row page step group : Nat) (d : Bytes) : PageRec :=
  { PageRec.blank kParity with
    frag := row, job := a.num O.JOB_ID, memb := a.num O.MEMBERSHIP_EPOCH, page := page, slice := band, shard := group
    owner := a.node, crc := crc64 d, step := step
    flags := ((a.parityRec alt s page).flags % 64 ||| 1) ||| (if a.onSpare (a.parityAddr alt s page) then 2 else 0) }

theorem Alesh.putParity_eq (a : Alesh) : a.putParity alt s band row page step group d =
    (a.wr (a.parityAddr alt s page) d).wr (a.parityRecAddr alt s page) (a.newParityRec alt s band row page step group d).bytes := rfl

theorem Alesh.newParityRec_flags_lt (a : Alesh) : (a.newParityRec alt s band row page step group d).flags < 2 ^ 16 := by
  refine Nat.or_lt_two_pow (Nat.or_lt_two_pow ?_ (by decide)) ?_
  · have := Nat.mod_lt (a.parityRec alt s page).flags (show 64 > 0 by decide); omega
  · split <;> decide

theorem Alesh.newParityRec_valid (a : Alesh) : (a.newParityRec alt s band row page step group d).valid = true := by
  have hone : ∀ x y : Nat, ((x ||| 1) ||| y).testBit 0 = true := fun x y => by simp
  exact hone ..

include hr

theorem Rewrites.putParity {area : Nat → Prop} (hpage : ∀ y, InRun (a.parityAddr alt s page) d.length y → area y)
    (hrec : ∀ y, InRun (a.parityRecAddr alt s page) 64 y → area y) : Rewrites area a (a.putParity alt s band row page step group d) := by
  rw [Alesh.putParity_eq]
  exact (wr hr hpage).trans (wr (by rw [Alesh.wr_errs]; exact hr) (by rwa [PageRec.bytes_length]))

/-- A parity page written reads back VALID, whatever is written beside it and its record afterwards. -/
theorem Alesh.parityPage_of_putParity (hc : a.ctl.core ≠ .occulted) (hlen : d.length = 65536)
    (hapart : a.parityRecAddr alt s page + 64 ≤ a.parityAddr alt s page ∨ a.parityAddr alt s page + 65536 ≤ a.parityRecAddr alt s page)
    {b : Alesh} {area : Nat → Prop} (hb : Rewrites area (a.putParity alt s band row page step group d) b)
    (hpage : ∀ y, InRun (a.parityAddr alt s page) 65536 y → ¬area y)
    (hrec : ∀ y, InRun (a.parityRecAddr alt s page) 64 y → ¬area y) :
    b.parityPage alt s page = d ∧ (b.parityRec alt s page).valid = true := by
  set r := a.newParityRec alt s band row page step group d
  have hput := Alesh.putParity_eq alt s band row page step group d a
  have hall : Rewrites (fun _ => True) a b :=
    (Rewrites.putParity hr alt s band row page step group d (fun _ _ => trivial) fun _ _ => trivial).trans (hb.mono fun _ _ => trivial)
  have hr1 : (a.wr (a.parityAddr alt s page) d).errs.retired = [] := by rw [Alesh.wr_errs]; exact hr
  have hc1 : (a.wr (a.parityAddr alt s page) d).ctl.core ≠ .occulted := by rw [Alesh.wr_ctl]; exact hc
  have hrb : b.errs.retired = [] := by rw [hall.errs]; exact hr
  have hrecBytes : b.mem0.read (a.parityRecAddr alt s page) 64 = r.bytes := by
    have hread := Alesh.wr_mem0_read hr1 hc1 (a.parityRecAddr alt s page) r.bytes
    rw [PageRec.bytes_length] at hread
    rw [hb.read hrec, hput, hread]
  have hpageBytes : b.mem0.read (a.parityAddr alt s page) 65536 = d := by
    have hread := Alesh.wr_mem0_read hr hc (a.parityAddr alt s page) d
    rw [hlen] at hread
    rw [hb.read hpage, hput, Alesh.wr_of_not_occulted hr1 hc1]
    exact (Memory.read_write_ne _ _ _ _ _ (by rw [PageRec.bytes_length]; omega)).trans hread
  have hvalid : (b.parityRec alt s page).valid = true := by
    rw [Alesh.parityRec, Alesh.rdLe_of_retired_nil hrb, Alesh.parityRecAddr_of_dict hall.dict, hrecBytes,
      PageRec.valid_ofWord_bytes (Alesh.newParityRec_flags_lt ..)]
    exact Alesh.newParityRec_valid ..
  refine ⟨?_, hvalid⟩
  unfold Alesh.parityPage
  rw [hvalid, if_pos rfl, Alesh.rd_of_retired_nil hrb, Alesh.parityAddr_of_dict hall.dict]
  exact hpageBytes

end

section
variable {a : Alesh} (hr : a.errs.retired = []) (hc : a.ctl.core ≠ .occulted) (alt : Bool) (s col : Nat)
include hr hc

theorem Alesh.colEpoch_setColEpoch {e : Nat} (he : e < 2 ^ 48) : (a.setColEpoch alt s col e).colEpoch alt s col = e := by
  have hread := Alesh.rdLe_wrLe_same hr hc (a.columnAddr alt s + 8 * col) 8 (show e < 2 ^ (8 * 8) by omega)
  have hd : (a.setColEpoch alt s col e).dict = a.dict := Alesh.wr_dict ..
  rw [Alesh.colEpoch, Alesh.columnAddr_of_dict hd, Alesh.setColEpoch, hread]
  simp only [bf]; omega

theorem Alesh.pageEpoch_setPageEpoch {page e : Nat} (hne : (col, page) ≠ (31, 255)) (he : e < 2 ^ 48) :
    (a.setPageEpoch alt s col page e).pageEpoch alt s col page = e := by
  have hread := Alesh.rdLe_wrLe_same hr hc (a.tableAddr alt s + (256 * col + page) * 8) 8 (show e < 2 ^ (8 * 8) by omega)
  have hnot : ¬(col = 31 ∧ page = 255) := fun h => hne (by rw [h.1, h.2])
  have hd : (a.setPageEpoch alt s col page e).dict = a.dict := Alesh.wr_dict ..
  rw [Alesh.pageEpoch, if_neg hnot, Alesh.tableAddr_of_dict hd, Alesh.setPageEpoch, hread]
  simp only [bf]; omega

end

end Sys2Proof.Machine
end

section
/-! SUPPORT. A committed transaction folded into its parity slot (R164, R190, R195, R196, R238, R402). -/
namespace Sys2Proof.Machine

/-! ### Pages folded -/

/-- What the fold of one page writes: the parity page, its record and its entry of the page epoch table. -/
def Alesh.inFold (a : Alesh) (alt : Bool) (s col page x : Nat) : Prop :=
  InRun (a.parityAddr alt s page) 65536 x ∨ InRun (a.parityRecAddr alt s page) 64 x ∨ InRun (a.tableAddr alt s + (256 * col + page) * 8) 8 x

theorem Alesh.inSlot_of_inFold (a : Alesh) (alt : Bool) (s : Nat) {col page x : Nat} (hcol : col < 32) (hp : page < 256)
    (hx : a.inFold alt s col page x) : a.inSlot alt s x := by
  rcases hx with hx | hx | hx
  · exact .inl (a.inSlotPages_of_page alt s hp hx)
  · exact .inr (.inl (a.inSlotMeta_of_record alt s hp hx))
  · exact .inr (.inr (a.inSlotTable_of_entry alt s hcol hp hx))

theorem Alesh.inFold_of_dict {a b : Alesh} (hd : b.dict = a.dict) (alt : Bool) (s col page : Nat) :
    b.inFold alt s col page = a.inFold alt s col page := by
  funext x
  simp only [Alesh.inFold, Alesh.parityAddr_of_dict hd, Alesh.parityRecAddr_of_dict hd, Alesh.tableAddr_of_dict hd]

theorem Rewrites.foldPage {area : Nat → Prop} {a : Alesh} (hr : a.errs.retired = []) (alt : Bool) (s band row : Nat) {col page : Nat} (e gr : Nat)
    {d : Bytes} (hlen : d.length = 65536) (hin : ∀ y, a.inFold alt s col page y → area y) :
    Rewrites area a (a.foldPage alt s band row col page e gr d) := by
  unfold Alesh.foldPage
  set step := Nat.max e (a.parityRec alt s page).step
  set x := xorBytes (a.parityPage alt s page) d
  have hx : x.length = 65536 := by rw [length_xorBytes, Alesh.length_parityPage hr, hlen, Nat.max_self]
  have hput : Rewrites area a (a.putParity alt s band row page step gr x) :=
    putParity hr alt s band row page step gr x (fun y hy => hin y (.inl (by rwa [hx] at hy))) fun y hy => hin y (.inr (.inl hy))
  refine hput.trans (wrLe (by rw [hput.errs]; exact hr) e fun y hy => hin y (.inr (.inr ?_)))
  rwa [Alesh.tableAddr_of_dict hput.dict] at hy

/-- One page of a transaction is decoded and folded (R164). -/
def Alesh.foldOne (t : HoldTx) (s gr : Nat) (c : Alesh) (p : Nat × Bytes) : Alesh :=
  match deltaDecode p.2 with
  | some d => c.foldPage t.alt s t.band t.row t.col p.1 t.epoch gr d
  | none => c

/-- The pages of a transaction that no base page holds already (log entry 20). -/
def Alesh.newPages (a : Alesh) (t : HoldTx) (s : Nat) : List (Nat × Bytes) :=
  t.pages.filter fun p => decide (a.baseEpoch t.alt s t.col p.1 < t.epoch)

/-- The slot once every page of a transaction is folded: its table sealed, and the column's epoch that of the transaction. -/
def Alesh.foldSlot (a : Alesh) (t : HoldTx) (s gr : Nat) : Alesh :=
  (((a.newPages t s).foldl (Alesh.foldOne t s gr) a).sealTable t.alt s).setColEpoch t.alt s t.col t.epoch

section
variable {a : Alesh} (hr : a.errs.retired = []) (t : HoldTx) (s gr : Nat)
include hr

theorem Rewrites.foldOne {area : Nat → Prop} {p : Nat × Bytes} (hin : ∀ y, a.inFold t.alt s t.col p.1 y → area y) :
    Rewrites area a (a.foldOne t s gr p) := by
  unfold Alesh.foldOne
  split
  · next d hdec => exact foldPage hr _ _ _ _ _ _ (deltaDecode_length hdec) hin
  · exact refl _ a

theorem Rewrites.foldOnes {area : Nat → Prop} {ps : List (Nat × Bytes)} (hps : ∀ p ∈ ps, ∀ y, a.inFold t.alt s t.col p.1 y → area y) :
    Rewrites area a (ps.foldl (Alesh.foldOne t s gr) a) := by
  have hall : Rewrites (fun y => ∃ p ∈ ps, a.inFold t.alt s t.col p.1 y) a (ps.foldl (Alesh.foldOne t s gr) a) :=
    foldl ps a fun p hp b hb => foldOne (by rw [hb.errs]; exact hr) t s gr fun y hy =>
      ⟨p, hp, by rwa [Alesh.inFold_of_dict hb.dict] at hy⟩
  exact hall.mono fun y ⟨p, hp, hy⟩ => hps p hp y hy

theorem Rewrites.sealTable (alt : Bool) : Rewrites (InRun (a.tableAddr alt s + 65528) 8) a (a.sealTable alt s) :=
  wrLe hr _ fun _ hy => hy

theorem Rewrites.setColEpoch (alt : Bool) (col e : Nat) :
    Rewrites (InRun (a.columnAddr alt s + 8 * col) 8) a (a.setColEpoch alt s col e) := wrLe hr _ fun _ hy => hy

theorem Rewrites.setPageEpoch (alt : Bool) (col page e : Nat) :
    Rewrites (InRun (a.tableAddr alt s + (256 * col + page) * 8) 8) a (a.setPageEpoch alt s col page e) := wrLe hr _ fun _ hy => hy

/-- The seal of a slot's table and the column's epoch, after the folds. -/
def Alesh.inClose (a : Alesh) (alt : Bool) (s col x : Nat) : Prop :=
  InRun (a.tableAddr alt s + 65528) 8 x ∨ InRun (a.columnAddr alt s + 8 * col) 8 x

theorem Rewrites.close (alt : Bool) (col e : Nat) : Rewrites (a.inClose alt s col) a ((a.sealTable alt s).setColEpoch alt s col e) := by
  have hseal := sealTable hr s alt
  refine (hseal.mono fun _ => .inl).trans ((setColEpoch (by rw [hseal.errs]; exact hr) s alt col e).mono fun y hy => .inr ?_)
  rwa [Alesh.columnAddr_of_dict hseal.dict] at hy

omit hr in
theorem Alesh.inClose_of_dict {b : Alesh} (hd : b.dict = a.dict) (alt : Bool) (col : Nat) : b.inClose alt s col = a.inClose alt s col := by
  funext x
  simp only [Alesh.inClose, Alesh.tableAddr_of_dict hd, Alesh.columnAddr_of_dict hd]

theorem Rewrites.foldSlot {area : Nat → Prop} (hps : ∀ p ∈ t.pages, ∀ y, a.inFold t.alt s t.col p.1 y → area y)
    (hclose : ∀ y, a.inClose t.alt s t.col y → area y) : Rewrites area a (a.foldSlot t s gr) := by
  have hpages := foldOnes hr t s gr (ps := a.newPages t s) fun p hp => hps p (List.mem_filter.1 hp).1
  exact hpages.trans ((close (by rw [hpages.errs]; exact hr) s t.alt t.col t.epoch).mono fun y hy =>
    hclose y (by rwa [Alesh.inClose_of_dict s hpages.dict] at hy))

/-- Nothing of Tier 0 changes outside the parity slot. -/
theorem Rewrites.foldSlot_inSlot (hcol : t.col < 32) (hps : ∀ p ∈ t.pages, p.1 < 256) :
    Rewrites (a.inSlot t.alt s) a (a.foldSlot t s gr) := by
  refine foldSlot hr t s gr (fun p hp y hy => a.inSlot_of_inFold t.alt s hcol (hps p hp) hy) fun y hy => ?_
  rcases hy with hy | hy
  · exact .inr (.inr (a.inSlotTable_of_seal t.alt s hy))
  · exact .inr (.inl (a.inSlotMeta_of_column t.alt s hcol hy))

theorem Rewrites.foldSlot_any : Rewrites (fun _ => True) a (a.foldSlot t s gr) :=
  foldSlot hr t s gr (fun _ _ _ _ => trivial) fun _ _ => trivial

theorem Alesh.colEpoch_foldSlot (hc : a.ctl.core ≠ .occulted) (he : t.epoch < 2 ^ 48) :
    (a.foldSlot t s gr).colEpoch t.alt s t.col = t.epoch := by
  have hpages := Rewrites.foldOnes hr t s gr (ps := a.newPages t s) (area := fun _ => True) fun _ _ _ _ => trivial
  have hseal := Rewrites.sealTable (by rw [hpages.errs]; exact hr) s t.alt
  exact Alesh.colEpoch_setColEpoch (by rw [hseal.errs, hpages.errs]; exact hr) (by rw [hseal.ctl, hpages.ctl]; exact hc) _ _ _ he

/-- The page of a transaction that holds one alone is added to its parity page, which is VALID then. -/
theorem Alesh.parityPage_foldSlot (hc : a.ctl.core ≠ .occulted) {p : Nat} {y d : Bytes} (hone : t.pages = [(p, y)])
    (hdec : deltaDecode y = some d) (hbase : a.baseEpoch t.alt s t.col p < t.epoch) (hp : p < 256) (hcol : t.col < 32)
    (hpm : a.parityMeta t.alt + s * 16640 + 16640 ≤ a.parityBase t.alt + s * 16777216 ∨
      a.parityBase t.alt + s * 16777216 + 16777216 ≤ a.parityMeta t.alt + s * 16640)
    (hpt : a.epochTable t.alt + s * 65536 + 65536 ≤ a.parityBase t.alt + s * 16777216 ∨
      a.parityBase t.alt + s * 16777216 + 16777216 ≤ a.epochTable t.alt + s * 65536)
    (hmt : a.parityMeta t.alt + s * 16640 + 16640 ≤ a.epochTable t.alt + s * 65536 ∨
      a.epochTable t.alt + s * 65536 + 65536 ≤ a.parityMeta t.alt + s * 16640) :
    (a.foldSlot t s gr).parityPage t.alt s p = xorBytes (a.parityPage t.alt s p) d ∧ ((a.foldSlot t s gr).parityRec t.alt s p).valid = true := by
  have hnew : a.newPages t s = [(p, y)] := by simp [Alesh.newPages, hone, hbase]
  have hfold : (a.newPages t s).foldl (Alesh.foldOne t s gr) a = a.foldPage t.alt s t.band t.row t.col p t.epoch gr d := by
    simp [hnew, Alesh.foldOne, hdec]
  have hlen : (xorBytes (a.parityPage t.alt s p) d).length = 65536 := by
    rw [length_xorBytes, Alesh.length_parityPage hr, deltaDecode_length hdec, Nat.max_self]
  set put := a.putParity t.alt s t.band t.row p (Nat.max t.epoch (a.parityRec t.alt s p).step) gr (xorBytes (a.parityPage t.alt s p) d)
    with hputDef
  have hput : Rewrites (fun _ => True) a put := Rewrites.putParity hr _ _ _ _ _ _ _ _ (fun _ _ => trivial) fun _ _ => trivial
  have hrput : put.errs.retired = [] := by rw [hput.errs]; exact hr
  have hentry := Rewrites.setPageEpoch hrput s t.alt t.col p t.epoch
  have hclose := Rewrites.close (by rw [hentry.errs]; exact hrput) s t.alt t.col t.epoch
  rw [Alesh.inClose_of_dict s (hentry.dict.trans hput.dict)] at hclose
  rw [Alesh.tableAddr_of_dict hput.dict] at hentry
  have hlater : Rewrites (fun x => InRun (a.tableAddr t.alt s + (256 * t.col + p) * 8) 8 x ∨ a.inClose t.alt s t.col x) put (a.foldSlot t s gr) := by
    rw [Alesh.foldSlot, hfold]
    exact (hentry.mono fun _ => .inl).trans (hclose.mono fun _ => .inr)
  have haddr : a.parityAddr t.alt s p = a.parityBase t.alt + s * 16777216 + p * 65536 := rfl
  have hrec : a.parityRecAddr t.alt s p = a.parityMeta t.alt + s * 16640 + p * 64 := rfl
  have htable : a.tableAddr t.alt s = a.epochTable t.alt + s * 65536 := rfl
  have hcolumn : a.columnAddr t.alt s = a.parityMeta t.alt + s * 16640 + 16384 := rfl
  refine Alesh.parityPage_of_putParity hr t.alt s t.band t.row p _ gr _ hc hlen ?_ hlater ?_ ?_
  · rw [haddr, hrec]; omega
  · rintro x hx (h | h | h) <;> simp only [InRun, haddr, htable, hcolumn] at hx h <;> omega
  · rintro x hx (h | h | h) <;> simp only [InRun, hrec, htable, hcolumn] at hx h <;> omega

end

/-! ### What follows the fold -/

/-- The transaction is FOLDED and its room given back (R190). -/
def Alesh.foldedOf (a : Alesh) (t : HoldTx) : Alesh :=
  a.modHold (fun x => x.src == t.src && x.seq == t.seq) fun x => { x with state := .folded, pages := [] }

theorem Alesh.retire_frame (a : Alesh) (src seq : Nat) : a.retire src seq =
    { a with coding := { a.coding with hold := (a.retire src seq).coding.hold, base := (a.retire src seq).coding.base
                                       retired := (a.retire src seq).coding.retired } } := by
  unfold Alesh.retire; split <;> rfl

theorem Alesh.mem_of_mem_hold_retire {a : Alesh} {src seq : Nat} {y : HoldTx} (hy : y ∈ (a.retire src seq).coding.hold) : y ∈ a.coding.hold := by
  unfold Alesh.retire at hy
  split at hy
  · exact hy
  · exact (List.mem_filter.1 hy).1

section
variable {a b : Alesh} (hn : ∀ k, k ≠ O.HOLD_USED → b.num k = a.num k) (hm : b.mem0 = a.mem0) (he : b.errs = a.errs) (alt : Bool) (s : Nat)
include hn hm he

theorem Alesh.rd_of_num : b.rd = a.rd := by
  have hspare : b.num O.SPARE_BASE = a.num O.SPARE_BASE := hn _ (by decide)
  funext addr n
  simp only [Alesh.rd, Alesh.place, hspare, hm, he]

/-- The room given back is no part of a slot. -/
theorem Alesh.colEpoch_of_num (col : Nat) : b.colEpoch alt s col = a.colEpoch alt s col := by
  have hmeta : b.parityMeta alt = a.parityMeta alt := hn _ (by cases alt <;> decide)
  simp only [Alesh.colEpoch, Alesh.columnAddr, Alesh.rdLe, Alesh.rd_of_num hn hm he, hmeta]

theorem Alesh.parityRec_of_num (p : Nat) : b.parityRec alt s p = a.parityRec alt s p := by
  have hmeta : b.parityMeta alt = a.parityMeta alt := hn _ (by cases alt <;> decide)
  simp only [Alesh.parityRec, Alesh.parityRecAddr, Alesh.rdLe, Alesh.rd_of_num hn hm he, hmeta]

theorem Alesh.parityPage_of_num (p : Nat) : b.parityPage alt s p = a.parityPage alt s p := by
  have hbase : b.parityBase alt = a.parityBase alt := hn _ (by cases alt <;> decide)
  simp only [Alesh.parityPage, Alesh.parityRec_of_num hn hm he, Alesh.parityAddr, Alesh.rd_of_num hn hm he, hbase]

end

/-- What the end of a fold leaves of the core: the transaction FOLDED, its room given back, HOLD_ACK FOLDED sent (R190, R196). -/
def Alesh.closeFold (c : Alesh) (t : HoldTx) : Alesh := ((c.foldedOf t).ackTx t sFolded).retire t.src t.seq

/-- With its table and every parity page sound, a newer transaction does no more than fold. -/
theorem Alesh.foldTx_of_good {a : Alesh} {t : HoldTx} {s gr : Nat} (hold : t.old = false) (htable : a.tableGood t.alt s = true)
    (hepoch : a.colEpoch t.alt s t.col < t.epoch) (hbad : t.bad = []) (hgood : ∀ p ∈ t.pages, a.parityGood t.alt s t.band p.1 = true) :
    a.foldTx t s gr = (a.foldSlot t s gr).closeFold t := by
  have hcheck : a.checkTable t.alt s t.band t.row = a := by rw [Alesh.checkTable, if_pos htable]
  have hfailed : (t.pages.map (·.1)).filter (fun p => !a.parityGood t.alt s t.band p) = [] := by
    rw [List.filter_eq_nil_iff]
    rintro p hp
    obtain ⟨q, hq, rfl⟩ := List.mem_map.1 hp
    simp [hgood q hq]
  unfold Alesh.foldTx
  simp only [hold, hcheck, hbad, hfailed, Bool.false_eq_true, if_false, Bool.false_or, decide_eq_true_eq, Nat.not_le.2 hepoch,
    List.contains_nil, Bool.not_false, Bool.true_and, List.append_nil, List.foldl_nil]
  rfl

section
variable (c : Alesh) (t : HoldTx)

theorem Alesh.ackTx_frame (b : Alesh) (status : Nat) : b.ackTx t status = { b with ports := (b.ackTx t status).ports } := Alesh.emit_frame ..

theorem Alesh.closeFold_frame : c.closeFold t =
    { c with coding := { c.coding with hold := (c.closeFold t).coding.hold, base := (c.closeFold t).coding.base
                                       retired := (c.closeFold t).coding.retired }
             dict := (c.setNum O.HOLD_USED (c.foldedOf t).holdUsed).dict, ports := (c.closeFold t).ports } := by
  unfold Alesh.closeFold
  rw [Alesh.retire_frame, Alesh.ackTx_frame]
  rfl

theorem Alesh.frame_of_closing {a b c : Alesh} {d : Dict} (hc : c = { a with mem0 := c.mem0 })
    (hb : b = { c with coding := { c.coding with hold := b.coding.hold, base := b.coding.base, retired := b.coding.retired }
                       dict := d, ports := b.ports }) (hm : b.mem0 = c.mem0) :
    b = { a with mem0 := b.mem0, coding := { a.coding with hold := b.coding.hold, base := b.coding.base, retired := b.coding.retired }
                 dict := b.dict, ports := b.ports } := by
  have hd : b.dict = d := by rw [hb]
  refine hb.trans ?_
  rw [hm, hd, hc]

theorem Alesh.hold_closeFold : ∀ y ∈ (c.closeFold t).coding.hold, y.src = t.src → y.seq = t.seq → y.state = .folded ∧ y.pages = [] := by
  intro y hy hsrc hseq
  have hmem : y ∈ modWhere (fun x => x.src == t.src && x.seq == t.seq) (fun x => { x with state := .folded, pages := [] }) c.coding.hold := by
    have := Alesh.mem_of_mem_hold_retire hy
    rw [Alesh.ackTx_frame] at this
    exact this
  rcases exists_or_mem_of_mem_modWhere hmem with ⟨z, rfl⟩ | ⟨-, hnot⟩
  · exact ⟨rfl, rfl⟩
  · simp [hsrc, hseq] at hnot

theorem Alesh.num_closeFold {k : Nat} (hk : k ≠ O.HOLD_USED) : (c.closeFold t).num k = c.num k := by
  rw [Alesh.closeFold_frame]
  exact Alesh.num_setNum_ne c _ (Ne.symm hk)

theorem Alesh.ownerOfColumn_closeFold : (c.closeFold t).ownerOfColumn t = (c.foldedOf t).ownerOfColumn t := by
  rw [Alesh.closeFold_frame]
  rfl

theorem Alesh.sends_closeFold (hj : c.inJob = true) : Sends (c.closeFold t)
    (c.cresol tHoldAck ((c.closeFold t).ownerOfColumn t) (txArgs t.seq t.band t.col t.row t.adopted (sFolded * 16) t.epoch 0) []) := by
  have hsend : Sends ((c.foldedOf t).ackTx t sFolded) ((c.foldedOf t).cresol tHoldAck ((c.foldedOf t).ownerOfColumn t)
      (txArgs t.seq t.band t.col t.row t.adopted (sFolded * 16) t.epoch 0) []) := sends_emit_self (a := c.foldedOf t) hj _
  have hcres : (c.foldedOf t).cresol tHoldAck = c.cresol tHoldAck := by
    funext dst args p
    have hn (k : Nat) (hk : k ≠ O.HOLD_USED) : (c.foldedOf t).num k = c.num k := Alesh.num_setNum_ne _ _ (Ne.symm hk)
    simp only [Alesh.cresol, Alesh.node, hn O.NODE_ID (by decide), hn O.ROUTE_EPOCH (by decide), hn O.MEMBERSHIP_EPOCH (by decide)]
  rw [Alesh.ownerOfColumn_closeFold, ← hcres]
  exact hsend.of_ports (by rw [Alesh.closeFold, Alesh.retire_frame])

end

/-! ### The obligation -/

/-- Under the guards that O33 states, the unit folds (R190, R195). -/
theorem Alesh.foldComplete_of_ready {a : Alesh} {src seq slot gr : Nat} {t : HoldTx} (hj : a.inJob = true) (ht : a.holdTx? src seq = some t)
    (hold : t.old = false) (hslot : a.txSlot t = some (slot, gr)) (hcommit : t.commit = true) (hstate : t.state = .held ∨ t.state = .foldWait)
    (hlower : a.lowerOpen t = false) (hfrozen : ∀ f ∈ a.coding.frozen, ¬(f.1 = slot ∧ f.2 < t.epoch)) (hready : a.baseReady t slot gr = true) :
    a.foldComplete src seq = a.foldTx t slot gr := by
  have hworks : a.works uCoding = true := by simp [Alesh.works, hj]
  have hst : (t.state == .held || t.state == .foldWait) = true := by rcases hstate with h | h <;> simp [h]
  have hfr : (a.coding.frozen.any fun f => f.1 == slot && decide (f.2 < t.epoch)) = false := by
    rw [List.any_eq_false]
    simpa using hfrozen
  simp [Alesh.foldComplete, ht, hold, hslot, hworks, hcommit, hst, hlower, hfr, hready]

/-- Settles O33: the fold is a run of writes inside the slot; the hold book and the acknowledgement follow it. -/
theorem committedDeltasFoldIntoParity : Obligations.CommittedDeltasFoldIntoParity := by
  unfold Obligations.CommittedDeltasFoldIntoParity
  intro s src seq t slot gr a hj ht hold hslot hcommit hstate hlower hfrozen hready htable hepoch hbad hgood hr page meta_ table
  refine gives_onCore rfl ?_
  have hc : a.ctl.core ≠ .occulted := not_occulted_of_inJob hj
  have hkey : t.src = src ∧ t.seq = seq := by
    have := List.find?_some ht
    simpa using this
  rw [Alesh.foldComplete_of_ready hj ht hold hslot hcommit hstate hlower hfrozen hready, Alesh.foldTx_of_good hold htable hepoch hbad hgood]
  set c := a.foldSlot t slot gr
  have hac : Rewrites (fun _ => True) a c := .foldSlot_any hr t slot gr
  have hframe := c.closeFold_frame t
  have hmem : (c.closeFold t).mem0 = c.mem0 := by rw [hframe]
  have herrs : (c.closeFold t).errs = c.errs := by rw [hframe]
  have hn (k : Nat) (hk : k ≠ O.HOLD_USED) : (c.closeFold t).num k = c.num k := c.num_closeFold t hk
  refine ⟨?_, ?_, ?_, ?_, ?_, ?_, ?_⟩
  · rw [← hkey.1, ← hkey.2]; exact c.hold_closeFold t
  · rw [← Alesh.cresol_of_dict hac.dict]
    exact c.sends_closeFold t (by rw [Alesh.inJob, hac.ctl]; exact hj)
  · intro hpages hcol x hp hm ht
    refine hmem ▸ (Rewrites.foldSlot_inSlot hr t slot gr hcol hpages).get x ?_
    rintro (h | h | h)
    exacts [hp h, hm h, ht h]
  · intro he
    exact (Alesh.colEpoch_of_num hn hmem herrs ..).trans (Alesh.colEpoch_foldSlot hr t slot gr hc he)
  · intro p y d hone hdec _ hbase hp hcol hpm hpt hmt
    have hpage := Alesh.parityPage_foldSlot hr t slot gr hc hone hdec hbase hp hcol hpm hpt hmt
    exact ⟨(Alesh.parityPage_of_num hn hmem herrs ..).trans hpage.1,
      (congrArg PageRec.valid (Alesh.parityRec_of_num hn hmem herrs ..)).trans hpage.2⟩
  · exact ⟨fun k hk => (hn k (by simpa using hk)).trans (Alesh.num_of_dict hac.dict k), fun k _ => by
      rw [hframe]; exact Alesh.dom_of_dict hac.dict k⟩
  · exact Alesh.frame_of_closing hac.frame hframe hmem

end Sys2Proof.Machine
end

section
/-! SUPPORT. Copies and base pages of a new parity slot (R170, R172, R246). -/
namespace Sys2Proof.Machine

theorem bf_lt (x lo w : Nat) : bf x lo w < 2 ^ w := Nat.mod_lt _ (Nat.two_pow_pos w)

theorem slice_length (b : Bytes) (o n : Nat) : (slice b o n).length = n := by
  simp only [slice, List.length_append, List.length_take, List.length_drop, List.length_replicate]; omega

theorem Alesh.codes_heard {a : Alesh} (now src : Nat) : (a.heard now src).codes = a.codes := by
  simp [Alesh.codes, Alesh.joinedOrJob, Alesh.inJob, Alesh.works, Alesh.unit, Alesh.heard_ctl]

theorem Alesh.not_occulted_of_idleToJob {a : Alesh} (h : a.idleToJob = true) : a.ctl.core ≠ .occulted := by
  intro hc; simp [Alesh.idleToJob, Alesh.joinedOrJob, Alesh.inJob, hc] at h

theorem Arrives.not_occulted {a : Alesh} {typ now : Nat} {m : Pkt} (h : Arrives a typ m) : (a.heard now m.src).ctl.core ≠ .occulted := by
  rw [Alesh.heard_ctl]; exact Alesh.not_occulted_of_idleToJob h.1

/-! ### What the senders do -/

theorem Alesh.sendBase_frame (a : Alesh) (dst args : Nat) (payload : Bytes) :
    a.sendBase dst args payload = { a with ports := (a.sendBase dst args payload).ports } := Alesh.emit_frame ..

theorem Alesh.sends_sendBase {a : Alesh} (hj : a.inJob = true) (dst args : Nat) (payload : Bytes) :
    Sends (a.sendBase dst args payload) { a.cresol tDelta dst args payload with vc := 3 } := sends_emit_self hj _

theorem Alesh.restoredSlots_frame (a : Alesh) :
    a.restoredSlots = { a with coding := { a.coding with restoring := a.restoredSlots.coding.restoring } } := by
  unfold Alesh.restoredSlots
  dsimp only
  split <;> rfl

/-- A frozen slot with nothing open below its epoch and every page good goes out whole, and is open to folds again (R170). -/
theorem Alesh.slotCopySend_of_ready {a0 a : Alesh} {now entry slot e : Nat} {x : ExtEntry} {out : Option (Nat × Nat)} (ha : a0.at now = a)
    (hj : a.inJob = true) (hout : (if a.extState entry == 1 then (a.sourceSlots x).find? fun p => p.1 == slot else none) = out)
    (hx : a.exts[entry]? = some x) (hfrozen : lookup? a.coding.frozen slot = some e)
    (hway : out.isSome = true ∨ (a.returning entry x = true ∧ x.node = a.node ∧ slot ∈ a.extSlots x)) (hlost : slot ∉ a.coding.lost)
    {band : Nat} (hband : (match (generalizing := false) out with | some p => p.2 | none => slot - x.first) * a.geo.n + x.rotation = band)
    (hopen : ∀ t ∈ a.coding.hold, t.row = x.row → t.band = band → t.alt = false → t.old = false → t.epoch ≤ e → t.state.open_ = false)
    (htable : a.tableGood false slot = true) (hgood : ∀ p, p < 256 → a.parityGood false slot band p = true) :
    let b := a.sendBase (if out.isSome then x.node else a.geo.defaultNode x) (copyArgs true false band x.row 0 0 0) (a.slotCopy slot)
    a0.slotCopySend now entry slot = { b with coding := { b.coding with frozen := b.coding.frozen.filter fun f => f.1 != slot } } := by
  have hway' : (out.isSome || (a.returning entry x && x.node == a.node && (a.extSlots x).contains slot)) = true := by
    simpa [and_assoc] using hway
  have hwaits : (a.coding.hold.any fun t => t.row == x.row && t.band == band && !t.alt && !t.old && decide (t.epoch ≤ e) && t.state.open_)
      = false := by
    simpa using hopen
  have hlost' : a.coding.lost.contains slot = false := by simpa using hlost
  have hbad : ((List.range 256).find? fun p => !a.parityGood false slot band p) = none := by
    simpa [List.find?_eq_none] using hgood
  unfold Alesh.slotCopySend
  simp only [ha, hout, hx, hfrozen]
  cases out <;>
  · dsimp only at hband
    simp only [hband, hj, hway', hwaits, hlost', htable, hbad, Bool.not_true, Bool.or_false, Bool.false_eq_true, if_false]

/-- The base page of a live page: its slice's epoch, its step and its bytes scaled to the row and column (R170). -/
def Alesh.sentBase (a : Alesh) (g page dst sl : Nat) (t : Target) (p : Prog) : Alesh :=
  a.sendBase dst (copyArgs false t.alt t.band t.row t.col page (a.slicePages g - 1))
    (leBytes 8 p.last ++ leBytes 8 (if (a.pageRec sl page).valid then (a.pageRec sl page).step else 0) ++
      gfScale (coef t.row t.col) (a.livePage g page))

/-- While the core restores its slots the base pages sent are entered. -/
def Alesh.enterBase (a : Alesh) (key : Nat × Nat × Nat × Nat) : Alesh :=
  if !a.coding.restoring || a.coding.basesOut.contains key then a
  else ({ a with coding := { a.coding with basesOut := a.coding.basesOut ++ [key] } }).restoredSlots

theorem Alesh.enterBase_frame (a : Alesh) (key : Nat × Nat × Nat × Nat) : a.enterBase key = { a with coding := (a.enterBase key).coding } := by
  unfold Alesh.enterBase
  split
  · rfl
  · rw [Alesh.restoredSlots_frame]

theorem Alesh.mem_basesOut_enterBase {a : Alesh} (h : a.coding.restoring = true) (key : Nat × Nat × Nat × Nat) :
    key ∈ (a.enterBase key).coding.basesOut := by
  unfold Alesh.enterBase
  split
  · next hin => simpa [h] using hin
  · rw [Alesh.restoredSlots_frame]
    exact List.mem_append_right _ (List.mem_singleton.2 rfl)

theorem Alesh.basePageSend_of_ready {a0 a : Alesh} {now g page dst row sl : Nat} {t : Target} {p : Prog} (ha : a0.at now = a)
    (hj : a.inJob = true) (howns : a.owns g = true)
    (hfind : ((a.targets g).find? fun t => t.node == dst && t.row == row && (t.alt || (!t.extra && a.num O.RESTORE_STATE == 2) ||
      (a.extsIn 1).any fun e => e.2.node == dst && e.2.row == row && e.2.kind == 1 && e.2.rotation == t.band % a.geo.n)) = some t)
    (hlive : a.liveSlot g = some sl) (hprog : a.prog? g = some p) (hpage : page < a.slicePages g) (hready : a.pageReady g page = true) :
    a0.basePageSend now g page dst row = (a.sentBase g page dst sl t p).enterBase (g, page, dst, row) := by
  unfold Alesh.basePageSend
  simp only [ha, Alesh.restored, hfind, hlive, hprog, hj, howns, Nat.not_le.2 hpage, Bool.not_true, Bool.or_false, decide_false,
    Bool.false_eq_true, if_false]
  rw [Alesh.withPages_of_ready (by simpa using hready)]
  rfl

/-! ### A base page that comes in -/

/-- What a new base page makes of its slot: the page added, where it has a step, and its epoch entered. -/
def Alesh.basedPage (a : Alesh) (s gr band row col page step : Nat) (d : Bytes) : Alesh :=
  (if step = 0 then a else
    a.putParity false s band row page (max step (a.parityRec false s page).step) gr (xorBytes (a.parityPage false s page) d)).setPageEpoch
    false s col page step

theorem Alesh.baseIn_dup {a : Alesh} {s gr band row col page n : Nat} {p : Bytes} (htable : a.tableGood false s = true)
    (hdup : ∃ b ∈ a.coding.basePages.filter (fun b => b.1 == s * 32 + col), b.2.1 = page) :
    a.baseIn false s gr band row col page n p = a.count O.CRESOL_DUP_COUNT := by
  obtain ⟨b, hb, hpage⟩ := hdup
  have hany : ((a.coding.basePages.filter fun b => b.1 == s * 32 + col).any fun b => b.2.1 == page) = true :=
    List.any_eq_true.2 ⟨b, hb, beq_iff_eq.2 hpage⟩
  simp only [Alesh.baseIn, Alesh.checkTable, htable, if_true, Bool.false_eq_true, if_false, hany]

theorem Alesh.baseIn_new {a : Alesh} {s gr band row col page n : Nat} {p : Bytes} (htable : a.tableGood false s = true)
    (hgood : a.parityGood false s band page = true)
    (hnew : ∀ b ∈ a.coding.basePages.filter (fun b => b.1 == s * 32 + col), b.2.1 ≠ page)
    (hmore : (a.coding.basePages.filter fun b => b.1 == s * 32 + col).length + 1 < n) :
    let c := a.basedPage s gr band row col page (leAt p 8 8) (slice p 16 65536)
    a.baseIn false s gr band row col page n p =
      { c with coding := { c.coding with basePages := c.coding.basePages ++ [(s * 32 + col, page, leAt p 0 8)] } } := by
  have hany : ((a.coding.basePages.filter fun b => b.1 == s * 32 + col).any fun b => b.2.1 == page) = false := by
    simpa using hnew
  simp only [Alesh.baseIn, Alesh.checkTable, htable, if_true, Bool.false_eq_true, if_false, hany, hgood, Bool.not_true,
    List.length_append, List.length_singleton, hmore]
  rfl

section
variable {a : Alesh} (hr : a.errs.retired = []) (s gr band row col page : Nat) {step : Nat} {d : Bytes} (hlen : d.length = 65536)
include hr

theorem Rewrites.basedPage : Rewrites (fun _ => True) a (a.basedPage s gr band row col page step d) := by
  unfold Alesh.basedPage
  split
  · exact (setPageEpoch hr ..).mono fun _ _ => trivial
  · have hput := putParity hr false s band row page (max step (a.parityRec false s page).step) gr
      (xorBytes (a.parityPage false s page) d) (area := fun _ => True) (fun _ _ => trivial) fun _ _ => trivial
    exact hput.trans ((setPageEpoch (by rw [hput.errs]; exact hr) ..).mono fun _ _ => trivial)

variable (hc : a.ctl.core ≠ .occulted)
include hc

theorem Alesh.pageEpoch_basedPage (hne : (col, page) ≠ (31, 255)) (hstep : step < 2 ^ 48) :
    (a.basedPage s gr band row col page step d).pageEpoch false s col page = step := by
  unfold Alesh.basedPage
  split
  · exact Alesh.pageEpoch_setPageEpoch hr hc _ _ _ hne hstep
  · have hput := Rewrites.putParity hr false s band row page (max step (a.parityRec false s page).step) gr
      (xorBytes (a.parityPage false s page) d) (area := fun _ => True) (fun _ _ => trivial) fun _ _ => trivial
    exact Alesh.pageEpoch_setPageEpoch (by rw [hput.errs]; exact hr) (by rw [hput.ctl]; exact hc) _ _ _ hne hstep

variable (hcol : col < 32) (hp : page < 256)
  (hpt : a.parityAddr false s page + 65536 ≤ a.tableAddr false s ∨ a.tableAddr false s + 65536 ≤ a.parityAddr false s page)
  (hmt : a.parityRecAddr false s page + 64 ≤ a.tableAddr false s ∨ a.tableAddr false s + 65536 ≤ a.parityRecAddr false s page)
include hcol hp hpt hmt

omit hc in
theorem Alesh.parityPage_basedPage_zero (hstep : step = 0) :
    (a.basedPage s gr band row col page step d).parityPage false s page = a.parityPage false s page := by
  have hset := Rewrites.setPageEpoch hr s false col page step
  rw [Alesh.basedPage, if_pos hstep]
  refine (Alesh.parityPage_of_read hset.dict hr hset.errs false s page (hset.read ?_) (hset.read ?_)).1
  all_goals intro y hy h; simp only [InRun] at hy h; omega

include hlen

/-- The page is added into the slot. -/
theorem Alesh.parityPage_basedPage
    (hmp : a.parityRecAddr false s page + 64 ≤ a.parityAddr false s page ∨ a.parityAddr false s page + 65536 ≤ a.parityRecAddr false s page)
    (hstep : step ≠ 0) :
    (a.basedPage s gr band row col page step d).parityPage false s page = xorBytes (a.parityPage false s page) d := by
  have hx : (xorBytes (a.parityPage false s page) d).length = 65536 := by
    rw [length_xorBytes, Alesh.length_parityPage hr, hlen, Nat.max_self]
  have hput := Rewrites.putParity hr false s band row page (max step (a.parityRec false s page).step) gr
    (xorBytes (a.parityPage false s page) d) (area := fun _ => True) (fun _ _ => trivial) fun _ _ => trivial
  have hset := Rewrites.setPageEpoch (by rw [hput.errs]; exact hr) s false col page step
  rw [Alesh.tableAddr_of_dict hput.dict] at hset
  rw [Alesh.basedPage, if_neg hstep]
  refine (Alesh.parityPage_of_putParity hr false s band row page _ gr _ hc hx hmp hset ?_ ?_).1
  all_goals intro y hy h; simp only [InRun] at hy h; omega

end

/-- A base page of the layout in force reaches its slot (R170, R172, R246). -/
theorem Alesh.basePageRx_of_arrives {a : Alesh} {now slot gr : Nat} {m : Pkt} (h : Arrives a tDelta m) (hcodes : a.codes = true)
    (hlen : m.payload.length = 65552) (hcopy : m.args.testBit 63 = false) (halt : m.args.testBit 62 = false)
    (hgroup : ((a.heard now m.src).groupFor (bf m.args 32 16) (bf m.args 25 2) m.src).getD ((a.heard now m.src).num O.GROUP_NUMBER) = gr)
    (hslot : (a.heard now m.src).rowSlot (a.heard now m.src).geo gr (bf m.args 32 16) (bf m.args 25 2) = some slot)
    (hbuild : (a.heard now m.src).buildingRow gr (bf m.args 32 16) (bf m.args 25 2) = true ∨ (a.heard now m.src).coding.restoring = true)
    (howns : (a.heard now m.src).ownsColumn false gr (bf m.args 32 16) (bf m.args 27 5) m.src = true) :
    a.basePageRx now m = (a.heard now m.src).baseIn false slot gr (bf m.args 32 16) (bf m.args 25 2) (bf m.args 27 5) (bf m.args 16 8)
      (bf m.args 0 8 + 1) m.payload := by
  have hok : (m.payload.length == (if m.args.testBit 63 then copyBytes else 16 + pageBytes)) = true := by
    simp [hlen, hcopy, pageBytes]
  have hb : ((a.heard now m.src).buildingRow gr (bf m.args 32 16) (bf m.args 25 2) || (a.heard now m.src).coding.restoring) = true := by
    simpa using hbuild
  unfold Alesh.basePageRx
  rw [Alesh.receive_of_arrives h rfl hok, if_pos (by rwa [Alesh.codes_heard])]
  unfold Alesh.basePageIn
  simp only [hcopy, halt, hgroup, Alesh.geoOf, Bool.false_eq_true, if_false, hslot, hb, howns, Bool.not_true, Bool.false_and, Bool.or_false]

/-- Settles O42, one receipt or send at a time. -/
theorem basePagesFillNewSlots : Obligations.BasePagesFillNewSlots := by
  unfold Obligations.BasePagesFillNewSlots
  refine ⟨?_, ?_, ?_⟩
  · intro s now entry slot e x hj a out back band hx hfrozen hway hlost hopen htable hgood
    refine gives_onCore (f := Alesh.slotCopySend now entry slot) rfl ?_
    have hja : a.inJob = true := by rw [Alesh.inJob_at]; exact hj
    rw [Alesh.slotCopySend_of_ready rfl hja (by simp [out, a]) hx hfrozen hway hlost rfl hopen htable hgood]
    exact ⟨by rw [Alesh.sendBase_frame], Alesh.sends_sendBase hja .., by rw [Alesh.sendBase_frame]⟩
  · intro s now g page dst row sl t p hj howns a r widen hfind hlive hprog hpage hready
    refine gives_onCore (f := Alesh.basePageSend now g page dst row) rfl ?_
    have hja : a.inJob = true := by rw [Alesh.inJob_at]; exact hj
    have howna : a.owns g = true := by rw [Alesh.owns, Alesh.at_take]; exact howns
    have hrow : t.row = row := by
      have := List.find?_some hfind
      simp only [Bool.and_eq_true, beq_iff_eq] at this
      exact this.1.2
    subst hrow
    rw [Alesh.basePageSend_of_ready rfl hja howna hfind hlive hprog hpage hready]
    set c := a.sentBase g page dst sl t p
    have hframe : c = { a with ports := c.ports } := Alesh.sendBase_frame ..
    have hcoding : c.coding = a.coding := by rw [hframe]
    have henter := c.enterBase_frame (g, page, dst, t.row)
    refine ⟨(Alesh.sends_sendBase (a := a) hja ..).of_ports (by rw [henter]; rfl), fun hres => ?_, fun hres => ?_, ?_⟩
    · exact Alesh.mem_basesOut_enterBase (by rw [hcoding]; exact hres) _
    · rw [Alesh.enterBase, hcoding, hres]
      exact hcoding
    · obtain ⟨coding, hentered⟩ : ∃ x, c.enterBase (g, page, dst, t.row) = { c with coding := x } := ⟨_, henter⟩
      obtain ⟨ports, hsent⟩ : ∃ x, c = { a with ports := x } := ⟨_, hframe⟩
      rw [hentered, hsent]
  · intro s now m slot gr h hcodes hlen a w band col row page key step had halt hcopy hgroup hslot hbuild howns htable hgood hr
    have hrx := Alesh.basePageRx_of_arrives (now := now) h hcodes hlen hcopy halt hgroup hslot hbuild howns
    have hc : a.ctl.core ≠ .occulted := h.not_occulted
    refine ⟨fun hdup => ?_, fun hnew hmore hstep hne hpt hmt hmp => ?_⟩
    all_goals refine gives_onCore (f := Alesh.basePageRx now m) rfl ?_
    · rw [hrx, Alesh.baseIn_dup htable hdup]
      exact ⟨Alesh.num_setNum_same .., rfl⟩
    · rw [hrx, Alesh.baseIn_new htable hgood hnew hmore]
      set d := slice m.payload 16 65536
      have hlen : d.length = 65536 := slice_length ..
      have hcol : col < 32 := bf_lt ..
      have hp : page < 256 := bf_lt ..
      have hrw : Rewrites (fun _ => True) a (a.basedPage slot gr band row col page step d) := Rewrites.basedPage hr ..
      have hepoch := Alesh.pageEpoch_basedPage hr slot gr band row col page (d := d) hc hne hstep
      have hadd := Alesh.parityPage_basedPage hr slot gr band row col page hlen hc hcol hp hpt hmt hmp (step := step)
      have hkeep := Alesh.parityPage_basedPage_zero hr slot gr band row col page (d := d) hcol hp hpt hmt (step := step)
      generalize a.basedPage slot gr band row col page step d = b at *
      refine ⟨?_, hepoch, hadd, hkeep, ?_, ?_⟩
      · exact congrArg (fun x : Coding => { x with basePages := x.basePages ++ [(key, page, leAt m.payload 0 8)] }) hrw.coding
      · exact (show SameBut [] [] a a from ⟨fun _ _ => rfl, fun _ _ => rfl⟩).of_dict hrw.dict
      · rw [hrw.frame]

end Sys2Proof.Machine
end

section
/-! SUPPORT. Builds and returns that end: what the end leaves of the core (R170, R172, R246). -/
namespace Sys2Proof.Machine

/-- From one core to another by its coding state, its takeover state and the named numbers alone. -/
structure Recodes (nums : List Nat) (a b : Alesh) : Prop where
  frame : b = { a with coding := b.coding, dict := b.dict, take := b.take }
  same : SameBut nums [] a b

namespace Recodes
variable {nums : List Nat} {a b c : Alesh}

theorem refl (nums : List Nat) (a : Alesh) : Recodes nums a a := ⟨rfl, fun _ _ => rfl, fun _ _ => rfl⟩

theorem trans (hab : Recodes nums a b) (hbc : Recodes nums b c) : Recodes nums a c := by
  refine ⟨hbc.frame.trans ?_, fun k hk => (hbc.same.1 k hk).trans (hab.same.1 k hk), fun k hk => (hbc.same.2 k hk).trans (hab.same.2 k hk)⟩
  obtain ⟨x, y, z, hb⟩ : ∃ x y z, b = { a with coding := x, dict := y, take := z } := ⟨_, _, _, hab.frame⟩
  rw [hb]

theorem mem0 (h : Recodes nums a b) : b.mem0 = a.mem0 := by rw [h.frame]

theorem of_dict (hf : b = { a with coding := b.coding, take := b.take }) : Recodes nums a b := by
  have hd : b.dict = a.dict := by rw [hf]
  refine ⟨?_, fun k _ => Alesh.num_of_dict hd k, fun k _ => Alesh.dom_of_dict hd k⟩
  obtain ⟨x, z, hb⟩ : ∃ x z, b = { a with coding := x, take := z } := ⟨_, _, hf⟩
  rw [hb]

theorem setNum {k : Nat} (hk : k ∈ nums) (v : Nat) : Recodes nums a (a.setNum k v) :=
  ⟨rfl, fun _ hj => Alesh.num_setNum_ne a v (fun h => absurd hk (h ▸ hj)), fun _ _ => rfl⟩

theorem foldl {ι : Type} {f : Alesh → ι → Alesh} (hf : ∀ b x, Recodes nums b (f b x)) (l : List ι) (a : Alesh) :
    Recodes nums a (l.foldl f a) := by
  induction l generalizing a with
  | nil => exact refl nums a
  | cons x l ih => exact (hf a x).trans (ih _)

theorem retire (src seq : Nat) : Recodes nums a (a.retire src seq) := of_dict (by rw [Alesh.retire_frame])

theorem modHold (hk : O.HOLD_USED ∈ nums) (p : HoldTx → Bool) (f : HoldTx → HoldTx) : Recodes nums a (a.modHold p f) :=
  (of_dict (a := a) (b := { a with coding := { a.coding with hold := modWhere p f a.coding.hold } }) rfl).trans (setNum hk _)

theorem endTxs (hk : O.HOLD_USED ∈ nums) (p : HoldTx → Bool) : Recodes nums a (a.endTxs p) :=
  (modHold hk p _).trans (foldl (fun _ _ => retire _ _) _ _)

theorem dropOwn (p : OwnTx → Bool) : Recodes nums a (a.dropOwn p) := of_dict rfl

theorem endReports (p : Nat → Nat → Bool) : Recodes nums a (a.endReports p) := of_dict rfl

theorem setExt (e st : Nat) : Recodes nums a (a.setExt e st) := of_dict rfl

theorem dropEntry (hk : O.HOLD_USED ∈ nums) (i : Nat) (x : ExtEntry) : Recodes nums a (a.dropEntry i x) :=
  (((dropOwn _).trans (endTxs hk _)).trans (setExt i 0)).trans ((endReports _).trans (of_dict rfl))

theorem endReturn (hk : O.HOLD_USED ∈ nums) (i : Nat) (x : ExtEntry) : Recodes nums a (a.endReturn i x) := by
  unfold Alesh.endReturn
  split
  · exact refl nums a
  · exact ((dropOwn _).trans (endTxs hk _)).trans (of_dict rfl)

theorem cancelEntry (hk : O.HOLD_USED ∈ nums) (i : Nat) (x : ExtEntry) : Recodes nums a (a.cancelEntry i x) := by
  unfold Alesh.cancelEntry
  split
  · exact dropEntry hk i x
  · exact (endReturn hk i x).trans (of_dict rfl)

theorem cancelBuilds (hk : O.HOLD_USED ∈ nums) (p : ExtEntry → Bool) : Recodes nums a (a.cancelBuilds p) := by
  unfold Alesh.cancelBuilds
  refine foldl (fun b q => ?_) _ a
  split
  · exact cancelEntry hk _ _
  · exact refl nums b

theorem unstage (hk : O.RESTRIPE_STATE ∈ nums) : Recodes nums a a.unstage := (setNum hk 0).trans (endReports _)

end Recodes

/-! ### The transactions that end -/

/-- A transaction ended: DISCARDED where it was open, and its room given back (R190). -/
def HoldTx.ended (t : HoldTx) : HoldTx := { t with state := if t.state.open_ then .discarded else t.state, pages := [] }

theorem HoldTx.open_ended (t : HoldTx) : t.ended.state.open_ = false := by
  unfold HoldTx.ended
  dsimp only
  split
  · rfl
  · next h => exact Bool.eq_false_iff.2 h

/-- What ends of the hold: its transactions, and the marks of those that retire. -/
theorem Alesh.endTxs_frame (a : Alesh) (p : HoldTx → Bool) : ∃ hold base retired,
    a.endTxs p = { a with coding := { a.coding with hold := hold, base := base, retired := retired }
                          dict := (a.modHold p HoldTx.ended).dict } ∧
    ∀ t ∈ hold, t ∈ modWhere p HoldTx.ended a.coding.hold := by
  have hfold (l : List HoldTx) (b : Alesh) : ∃ hold base retired, l.foldl (fun (c : Alesh) (t : HoldTx) => c.retire t.src t.seq) b =
      { b with coding := { b.coding with hold := hold, base := base, retired := retired } } ∧ ∀ t ∈ hold, t ∈ b.coding.hold := by
    induction l generalizing b with
    | nil => exact ⟨_, _, _, rfl, fun _ h => h⟩
    | cons x l ih =>
      obtain ⟨hold, base, retired, heq, hsub⟩ := ih (b.retire x.src x.seq)
      refine ⟨hold, base, retired, ?_, fun t ht => Alesh.mem_of_mem_hold_retire (hsub t ht)⟩
      rw [List.foldl_cons, heq, Alesh.retire_frame]
  exact hfold (a.coding.hold.filter p) (a.modHold p HoldTx.ended)

theorem Alesh.own_endTxs (a : Alesh) (p : HoldTx → Bool) : (a.endTxs p).coding.own = a.coding.own := by
  obtain ⟨_, _, _, heq, -⟩ := a.endTxs_frame p
  rw [heq]

/-- No transaction of those that end stays open. -/
theorem Alesh.closed_endTxs {a : Alesh} {p : HoldTx → Bool} {t : HoldTx} (ht : t ∈ (a.endTxs p).coding.hold) (hp : p t = true) :
    t.state.open_ = false := by
  obtain ⟨_, _, _, heq, hsub⟩ := a.endTxs_frame p
  rw [heq] at ht
  rcases exists_or_mem_of_mem_modWhere (hsub t ht) with ⟨u, rfl⟩ | ⟨-, hnot⟩
  · exact u.open_ended
  · rw [hp] at hnot; contradiction

end Sys2Proof.Machine
end

section
/-! SUPPORT. Restriping (R245 to R248). -/
namespace Sys2Proof.Machine

/-! ### Reports -/

theorem Alesh.sendReportWord_frame (a : Alesh) (group word : Nat) :
    a.sendReportWord group word = { a with ports := (a.sendReportWord group word).ports } := by
  unfold Alesh.sendReportWord
  dsimp only
  split
  · exact Alesh.emit_frame ..
  · rfl

/-- A report stands in the list, and nothing of it leaves. -/
theorem Alesh.addReport_frame (a : Alesh) (group word : Nat) : ∃ reports ports,
    a.addReport group word = { a with take := { a.take with reports := reports }, ports := ports } ∧
    (∃ r ∈ reports, r.1 = group ∧ r.2.1 = word) ∧ ∀ r ∈ a.take.reports, r ∈ reports := by
  unfold Alesh.addReport
  split
  · next h =>
    obtain ⟨r, hr, hkey⟩ := List.any_eq_true.1 h
    exact ⟨_, _, rfl, ⟨r, hr, by simpa using hkey⟩, fun _ h => h⟩
  · refine ⟨a.take.reports ++ [(group, word, a.ackDue)], _, Alesh.sendReportWord_frame .., ⟨_, List.mem_append_right _ (List.mem_singleton.2 rfl), rfl, rfl⟩, ?_⟩
    exact fun r hr => List.mem_append_left _ hr

/-- A step of the restriping reached and reported (R245, R246). -/
def Alesh.reportStep (a : Alesh) (st word : Nat) : Alesh := (a.setNum O.RESTRIPE_STATE st).addReport (a.num O.GROUP_NUMBER) word

theorem Alesh.reportStep_reports (a : Alesh) (st word : Nat) :
    let b := a.reportStep st word
    b.num O.RESTRIPE_STATE = st ∧ ((∃ r ∈ b.take.reports, r.1 = a.num O.GROUP_NUMBER ∧ r.2.1 = word) ∧ (∀ r ∈ a.take.reports, r ∈ b.take.reports) ∧
      SameBut [O.RESTRIPE_STATE] [] a b ∧ b = { a with dict := b.dict, take := { a.take with reports := b.take.reports }, ports := b.ports }) := by
  obtain ⟨reports, ports, heq, hmem, hkeep⟩ := (a.setNum O.RESTRIPE_STATE st).addReport_frame (a.num O.GROUP_NUMBER) word
  intro b
  have hb : b = { a.setNum O.RESTRIPE_STATE st with take := { a.take with reports := reports }, ports := ports } := heq
  rw [hb]
  exact ⟨Alesh.num_setNum_same .., hmem, hkeep, sameBut_setNum .., rfl⟩

/-! ### The build -/

theorem Alesh.blankSlot_frame (a : Alesh) (alt : Bool) (s : Nat) : a.blankSlot alt s = { a with mem0 := (a.blankSlot alt s).mem0 } := by
  have hwrites (l : List Nat) (a : Alesh) : ∃ m, l.foldl (fun (c : Alesh) (p : Nat) => c.wr (c.parityRecAddr alt s p) (PageRec.blank kParity).bytes) a =
      { a with mem0 := m } := by
    induction l generalizing a with
    | nil => exact ⟨_, rfl⟩
    | cons p l ih =>
      obtain ⟨m, hm⟩ := ih (a.wr (a.parityRecAddr alt s p) (PageRec.blank kParity).bytes)
      exact ⟨m, by rw [List.foldl_cons, hm, Alesh.wr_frame]⟩
  obtain ⟨m, hm⟩ := hwrites (List.range 256) a
  unfold Alesh.blankSlot Alesh.sealTable Alesh.wrLe
  rw [hm, Alesh.wr_frame, Alesh.wr_frame, Alesh.wr_frame]

theorem Alesh.foldl_blankSlot_frame (alt : Bool) (l : List Nat) (a : Alesh) :
    ∃ m, l.foldl (fun (c : Alesh) (s : Nat) => c.blankSlot alt s) a = { a with mem0 := m } := by
  induction l generalizing a with
  | nil => exact ⟨_, rfl⟩
  | cons s l ih =>
    obtain ⟨m, hm⟩ := ih (a.blankSlot alt s)
    exact ⟨m, by rw [List.foldl_cons, hm, Alesh.blankSlot_frame]⟩

/-- The core as its build begins: builds of the group's entries have ended. -/
def Alesh.clearedForBuild (a : Alesh) : Alesh := (a.cancelBuilds fun x => x.group == a.num O.GROUP_NUMBER).setNum O.RESTRIPE_STATE 2

theorem Alesh.clearedForBuild_recodes (a : Alesh) : Recodes [O.RESTRIPE_STATE, O.HOLD_USED] a a.clearedForBuild :=
  (Recodes.cancelBuilds (by simp) _).trans (.setNum (by simp) 2)

theorem Alesh.startRestripe_frame (a : Alesh) : ∃ m, a.startRestripe = { a.clearedForBuild with
    mem0 := m, take := { a.clearedForBuild.take with building := true, altBased := [], altPages := [], buildAt := none } } := by
  obtain ⟨m, hm⟩ := Alesh.foldl_blankSlot_frame true
    (List.range (a.stagedGeo.rounds * a.stagedGeo.m)) a.clearedForBuild
  refine ⟨m, ?_⟩
  exact congrArg (fun c : Alesh => { c with take := { c.take with building := true, altBased := [], altPages := [], buildAt := none } }) hm

/-- The build begins: builds of the group's entries end, the new slots are blank (R246). -/
theorem Alesh.startRestripe_builds (a : Alesh) :
    let b := a.startRestripe
    b.num O.RESTRIPE_STATE = 2 ∧ b.take.building = true ∧ b.take.altBased = [] ∧ b.take.buildAt = none ∧
      SameBut [O.RESTRIPE_STATE, O.HOLD_USED] [] a b ∧ b = { a with coding := b.coding, dict := b.dict, mem0 := b.mem0, take := b.take } := by
  obtain ⟨m, hm⟩ := a.startRestripe_frame
  have hclear := a.clearedForBuild_recodes
  obtain ⟨coding, dict, take, hframe⟩ : ∃ x y z, a.clearedForBuild = { a with coding := x, dict := y, take := z } := ⟨_, _, _, hclear.frame⟩
  have hstate : a.clearedForBuild.num O.RESTRIPE_STATE = 2 := Alesh.num_setNum_same ..
  intro b
  have hb : b = { a.clearedForBuild with
    mem0 := m, take := { a.clearedForBuild.take with building := true, altBased := [], altPages := [], buildAt := none } } := hm
  rw [hb]
  refine ⟨hstate, rfl, rfl, rfl, hclear.same.of_dict rfl, ?_⟩
  rw [hframe]

/-! ### The cancellation -/

/-- An announcement under another TAG cancels (R248). -/
theorem Alesh.cancelRestripe_clears (a : Alesh) :
    let b := a.cancelRestripe
    b.num O.RESTRIPE_STATE = 0 ∧ b.take.building = false ∧ b.take.buildAt = none ∧ b.take.switchAt = none ∧ (∀ t ∈ b.coding.own, t.alt = false) ∧
      (∀ t ∈ b.coding.hold, t.alt = true → t.state.open_ = false) ∧ b.mem0 = a.mem0 ∧ SameBut [O.RESTRIPE_STATE, O.HOLD_USED] [] a b := by
  have hends : Recodes [O.RESTRIPE_STATE, O.HOLD_USED] a (((a.dropOwn fun t => t.alt).endTxs fun t => t.alt).unstage) :=
    ((Recodes.dropOwn _).trans (.endTxs (by simp) _)).trans (.unstage (by simp))
  refine ⟨Alesh.num_setNum_same .., rfl, rfl, rfl, fun t ht => ?_, fun t ht halt => ?_, hends.mem0, hends.same.of_dict rfl⟩
  · change t ∈ ((a.dropOwn fun t => t.alt).endTxs fun t => t.alt).coding.own at ht
    rw [Alesh.own_endTxs] at ht
    simpa using (List.mem_filter.1 ht).2
  · exact Alesh.closed_endTxs (a := a.dropOwn fun t => t.alt) (p := fun t => t.alt) ht halt

/-! ### The switch -/

/-- Damaged parity enters the list of the damaged and a rebuild: nothing else of the core moves. -/
theorem Alesh.damageParity_frame (a : Alesh) (alt : Bool) (slot band row page : Nat) : ∃ damaged rebuilds,
    a.damageParity alt slot band row page = { a with coding := { a.coding with damaged := damaged }, take := { a.take with rebuilds := rebuilds } } := by
  unfold Alesh.damageParity
  dsimp only
  split
  · exact ⟨_, _, rfl⟩
  · split
    · exact ⟨_, _, rfl⟩
    · unfold Alesh.addRebuild
      dsimp only
      split <;> exact ⟨_, _, rfl⟩

theorem Alesh.foldl_damageParity_frame {ι : Type} (alt : Bool) (slot band row page : ι → Nat) (l : List ι) (a : Alesh) : ∃ damaged rebuilds,
    l.foldl (fun (c : Alesh) (k : ι) => c.damageParity alt (slot k) (band k) (row k) (page k)) a =
      { a with coding := { a.coding with damaged := damaged }, take := { a.take with rebuilds := rebuilds } } := by
  induction l generalizing a with
  | nil => exact ⟨_, _, rfl⟩
  | cons k l ih =>
    obtain ⟨damaged, rebuilds, heq⟩ := ih (a.damageParity alt (slot k) (band k) (row k) (page k))
    obtain ⟨damaged', rebuilds', heq'⟩ := a.damageParity_frame alt (slot k) (band k) (row k) (page k)
    exact ⟨damaged, rebuilds, by rw [List.foldl_cons, heq, heq']⟩

theorem Alesh.setDegraded_frame (a : Alesh) : a.setDegraded = { a with
    ctl := a.setDegraded.ctl
    dict := (a.setNum O.ABSENT_PAGES (a.take.absent.length + sumNat (a.waitsBlock.map a.slicePages))).dict } := by
  unfold Alesh.setDegraded
  dsimp only
  split <;> rfl

/-- The room and the state of the core are derived again: nothing else of the core moves. -/
theorem Alesh.rederived_frame (a : Alesh) : ∃ ctl dict, a.setHoldUsed.setDegraded = { a with ctl := ctl, dict := dict } ∧
    ∀ k, k ≠ O.HOLD_USED → k ≠ O.ABSENT_PAGES → (a.setHoldUsed.setDegraded).num k = a.num k := by
  refine ⟨_, _, a.setHoldUsed.setDegraded_frame, fun k hhold habsent => ?_⟩
  rw [Alesh.setDegraded_frame]
  exact (Alesh.num_setNum_ne _ _ (Ne.symm habsent)).trans (Alesh.num_setNum_ne _ _ (Ne.symm hhold))

/-- The numbers of the new layout that the stage gives (R247). -/
def Alesh.stagedNums (a : Alesh) : Alesh :=
  let g := a.stagedGeo
  let b := a.dom O.RESTRIPE_STAGE
  ((((((((a.setNum O.STRIPE_K g.k).setNum O.STRIPE_M g.m).setNum O.GROUP_RANK g.rank).setDom O.GROUP_MEMBERS
    (slice b 32 (8 * g.members.length))).setNum O.PADDED_PAGES g.padded).setNum O.EXT_COUNT (leAt b 7 1)).setDom O.EXT_TABLE
    (slice b (32 + 8 * g.members.length) (16 * leAt b 7 1))).setNum O.STRIPE_M_ACTIVE g.m).setNum O.STRIPE_ROUNDS g.rounds

/-- The areas of the parity exchanged with those of the new layout (R247). -/
def Alesh.exchanged (a : Alesh) : Alesh :=
  ((a.exchange O.PARITY_BASE O.PARITY_ALT_BASE).exchange O.PARITY_META_BASE O.PARITY_ALT_META_BASE).exchange
    O.EPOCH_TABLE_BASE O.EPOCH_TABLE_ALT_BASE

/-- The next layout generation, with no stage and no window open (R247). -/
def Alesh.nextLayout (a : Alesh) : Alesh := ((a.setNum O.LAYOUT_GEN (a.num O.LAYOUT_GEN + 1)).setNum O.RESTRIPE_STATE 0).closeWindow

/-- What the switch makes of the numbers (R247). -/
def Alesh.layoutNums (a : Alesh) : Alesh := a.stagedNums.exchanged.nextLayout

theorem Alesh.num_exchange (a : Alesh) (x y k : Nat) :
    (a.exchange x y).num k = if y = k then a.num x else if x = k then a.num y else a.num k := by
  simp only [Alesh.exchange, Alesh.num_setNum]

theorem Alesh.num_closeWindow (a : Alesh) {k : Nat} (hk : k ≠ O.PROTECTION_STATE) (hl : k ≠ O.WINDOW_LOSSES) :
    a.closeWindow.num k = if O.WINDOW_OPEN_EPOCH = k then 0 else a.num k := by
  have hinner : ((a.setNum O.WINDOW_OPEN_EPOCH 0).setNum O.WINDOW_LOSSES 0).num k = if O.WINDOW_OPEN_EPOCH = k then 0 else a.num k := by
    rw [Alesh.num_setNum_ne _ _ (Ne.symm hl), Alesh.num_setNum]
  unfold Alesh.closeWindow
  dsimp only
  split
  · exact (Alesh.num_setNum_ne _ _ (Ne.symm hk)).trans hinner
  · exact hinner

theorem Alesh.closeWindow_frame (a : Alesh) : a.closeWindow = { a with dict := a.closeWindow.dict, take := { a.take with windowM := 0 } } := by
  unfold Alesh.closeWindow
  dsimp only
  split <;> rfl

theorem Alesh.stagedNums_frame (a : Alesh) : a.stagedNums = { a with dict := a.stagedNums.dict } := rfl

theorem Alesh.exchanged_frame (a : Alesh) : a.exchanged = { a with dict := a.exchanged.dict } := rfl

theorem Alesh.nextLayout_frame (a : Alesh) : a.nextLayout = { a with dict := a.nextLayout.dict, take := { a.take with windowM := 0 } } := by
  unfold Alesh.nextLayout
  rw [Alesh.closeWindow_frame]
  rfl

theorem Alesh.layoutNums_frame (a : Alesh) : ∃ dict, a.layoutNums = { a with dict := dict, take := { a.take with windowM := 0 } } := by
  refine ⟨a.layoutNums.dict, ?_⟩
  unfold Alesh.layoutNums
  rw [Alesh.nextLayout_frame, Alesh.exchanged_frame, Alesh.stagedNums_frame]

theorem Alesh.layoutNums_nums (a : Alesh) :
    let b := a.layoutNums
    b.num O.STRIPE_K = a.stagedGeo.k ∧ b.num O.STRIPE_M = a.stagedGeo.m ∧ b.num O.GROUP_RANK = a.stagedGeo.rank ∧
      b.num O.STRIPE_M_ACTIVE = a.stagedGeo.m ∧ b.num O.PARITY_BASE = a.num O.PARITY_ALT_BASE ∧ b.num O.PARITY_ALT_BASE = a.num O.PARITY_BASE ∧
      b.num O.LAYOUT_GEN = a.num O.LAYOUT_GEN + 1 ∧ b.num O.RESTRIPE_STATE = 0 ∧ b.num O.WINDOW_OPEN_EPOCH = 0 := by
  dsimp only [Alesh.layoutNums, Alesh.nextLayout]
  refine ⟨?_, ?_, ?_, ?_, ?_, ?_, ?_, ?_, ?_⟩ <;> rw [Alesh.num_closeWindow _ (by decide) (by decide)]
  all_goals simp +decide only [Alesh.num_setNum, Alesh.exchanged, Alesh.stagedNums, Alesh.num_exchange, Alesh.num_setDom, if_true, if_false]

/-- The switch: the numbers of the new layout, what the core keeps renumbered to it, and the damage that stays (R247). -/
theorem Alesh.switchLayout_eq (a : Alesh) : ∃ (coding : Coding) (take : Take) (health : Health) (f : Nat → Nat) (g : Nat → Nat) (bad : List Nat),
    a.switchLayout = (bad.foldl (fun (c : Alesh) (k : Nat) => c.damageParity false (k / 256) (f k) (g k) (k % 256))
      { a.layoutNums with coding := coding, take := take, health := health }).setHoldUsed.setDegraded ∧
    take.building = false ∧ take.switchAt = none ∧ coding.ext = renumber (a.keptExts a.stagedExts) a.coding.ext := by
  unfold Alesh.switchLayout
  extract_lets g b kept old slots mine seqs c d e coding0 take0 health0 f again bad take1 layout
  have he : e = layout.endReports fun _ _ => true := rfl
  have hext : layout.coding.ext = a.coding.ext := by
    obtain ⟨dict, hframe⟩ := a.layoutNums_frame
    rw [show layout = _ from hframe]
  clear_value e layout
  subst he
  have hfields : f.take.building = false ∧ f.take.switchAt = none ∧ f.coding.ext = renumber kept layout.coding.ext := ⟨rfl, rfl, rfl⟩
  rw [hext] at hfields
  have hf : f = { layout with coding := f.coding, take := f.take, health := f.health } := rfl
  clear_value f
  exact ⟨f.coding, { f.take with rebuilds := again }, f.health, _, _, bad, by rw [hf], hfields⟩

theorem lookupD_of_not_mem {β : Type} {d : β} {l : List (Nat × β)} {k : Nat} (h : ∀ p ∈ l, p.1 ≠ k) : lookupD d l k = d := by
  induction l with
  | nil => rfl
  | cons p l ih =>
    rw [lookupD, if_neg (by simpa using h p List.mem_cons_self)]
    exact ih fun q hq => h q (List.mem_cons_of_mem _ hq)

theorem mem_of_lookup? {β : Type} {l : List (Nat × β)} {k : Nat} {v : β} (h : lookup? l k = some v) : (k, v) ∈ l := by
  induction l with
  | nil => simp [lookup?] at h
  | cons p l ih =>
    rw [lookup?] at h
    split at h
    · next hk => exact List.mem_cons.2 (.inl (by rw [← Option.some.inj h, ← hk]))
    · exact List.mem_cons_of_mem _ (ih h)

/-- An entry of the group's own in the new list has none that it is the number of. -/
theorem Alesh.ext_renumber {a : Alesh} {i : Nat} {y : ExtEntry} {l : List (Nat × Nat)} (hy : a.stagedExts[i]? = some y)
    (hown : y.group = a.num O.GROUP_NUMBER) : lookupD 0 (renumber (a.keptExts a.stagedExts) l) i = 0 := by
  refine lookupD_of_not_mem fun p hp hpi => ?_
  obtain ⟨x, hx, hmap⟩ := List.mem_filterMap.1 hp
  obtain ⟨n, hn, rfl⟩ := Option.map_eq_some_iff.1 hmap
  obtain ⟨p, hp, hpair⟩ := List.mem_filterMap.1 (mem_of_lookup? hn)
  obtain ⟨q, hq, hpair'⟩ := Option.map_eq_some_iff.1 hpair
  have hforeign : p.1.group ≠ a.num O.GROUP_NUMBER := by simpa using (List.mem_filter.1 hp).2
  have hsame : q.1 = p.1 := by simpa using List.find?_some hq
  have hplace : a.stagedExts[q.2]? = some q.1 := List.mem_zipIdx_iff_getElem?.1 (List.mem_of_find?_eq_some hq)
  have hnum : q.2 = i := (congrArg Prod.snd hpair').trans hpi
  rw [hnum, hy] at hplace
  exact hforeign (by rw [← hsame, ← Option.some.inj hplace]; exact hown)

theorem Alesh.switchLayout_switches (a : Alesh) :
    let b := a.switchLayout
    b.num O.STRIPE_K = a.stagedGeo.k ∧ b.num O.STRIPE_M = a.stagedGeo.m ∧ b.num O.GROUP_RANK = a.stagedGeo.rank ∧
      b.num O.STRIPE_M_ACTIVE = a.stagedGeo.m ∧ b.num O.PARITY_BASE = a.num O.PARITY_ALT_BASE ∧ b.num O.PARITY_ALT_BASE = a.num O.PARITY_BASE ∧
      b.num O.LAYOUT_GEN = a.num O.LAYOUT_GEN + 1 ∧ b.num O.RESTRIPE_STATE = 0 ∧ b.num O.WINDOW_OPEN_EPOCH = 0 ∧
      b.take.building = false ∧ b.take.switchAt = none ∧
      (∀ i y, a.stagedExts[i]? = some y → y.group = a.num O.GROUP_NUMBER → b.extState i = 0) ∧ b.mem0 = a.mem0 ∧ b.slots = a.slots := by
  obtain ⟨coding, take, health, f, g, bad, hswitch, hbuilding, hat, hext⟩ := a.switchLayout_eq
  obtain ⟨dict, hlayout⟩ := a.layoutNums_frame
  obtain ⟨damaged, rebuilds, hdamage⟩ := Alesh.foldl_damageParity_frame false (· / 256) f g (· % 256) bad
    { a.layoutNums with coding := coding, take := take, health := health }
  have hnums := a.layoutNums_nums
  generalize a.layoutNums = layout at hswitch hlayout hdamage hnums
  generalize bad.foldl _ _ = c at hswitch hdamage
  obtain ⟨ctl, dict', hderived, hnum⟩ := c.rederived_frame
  rw [← hswitch] at hderived hnum
  intro b
  have hc : c.num = layout.num := by rw [hdamage]; rfl
  have hn (k : Nat) (hhold : k ≠ O.HOLD_USED) (habsent : k ≠ O.ABSENT_PAGES) : b.num k = layout.num k :=
    (hnum k hhold habsent).trans (congrFun hc k)
  have hb : b = { a with coding := { coding with damaged := damaged }, take := { take with rebuilds := rebuilds }, health := health
                         ctl := ctl, dict := dict' } := by
    refine hderived.trans ?_
    rw [hdamage, hlayout]
  obtain ⟨h1, h2, h3, h4, h5, h6, h7, h8, h9⟩ := hnums
  refine ⟨(hn _ (by decide) (by decide)).trans h1, (hn _ (by decide) (by decide)).trans h2, (hn _ (by decide) (by decide)).trans h3,
    (hn _ (by decide) (by decide)).trans h4, (hn _ (by decide) (by decide)).trans h5, (hn _ (by decide) (by decide)).trans h6,
    (hn _ (by decide) (by decide)).trans h7, (hn _ (by decide) (by decide)).trans h8, (hn _ (by decide) (by decide)).trans h9, ?_⟩
  rw [hb]
  refine ⟨hbuilding, hat, fun i y hy hown => ?_, rfl, rfl⟩
  show lookupD 0 coding.ext i = 0
  rw [hext]
  exact Alesh.ext_renumber hy hown

/-! ### The packets -/

/-- An announcement of a restriping reaches the member (R245 to R248). -/
theorem Alesh.restripeRx_of_arrives {a : Alesh} {now : Nat} {m : Pkt} (h : Arrives a tGrant m) (hp : m.payload = []) (hj : a.inJob = true)
    (sub : Nat) : a.restripeRx now sub m = (a.heard now m.src).restripeIn sub (GrantArgs.ofNat m.args) := by
  unfold Alesh.restripeRx
  rw [Alesh.receive_of_arrives h rfl (by rw [hp]; rfl), if_pos (by rw [Alesh.inJob, Alesh.heard_ctl]; exact hj)]

section
variable {a : Alesh} {x : GrantArgs}

/-- Under another group's number an announcement is no more than malformed where no entry of it is hosted (R169). -/
theorem Alesh.restripeIn_foreign_malformed (sub : Nat) (hgroup : x.group ≠ a.num O.GROUP_NUMBER)
    (hhost : ¬∃ y ∈ a.exts, y.node = a.node ∧ y.group = x.group) : a.restripeIn sub x = a.malformed := by
  have hnone : (a.exts.any fun y => y.node == a.node && y.group == x.group) = false := by
    rw [Bool.eq_false_iff]
    intro hany
    obtain ⟨y, hy, hkey⟩ := List.any_eq_true.1 hany
    exact hhost ⟨y, hy, by simpa using hkey⟩
  simp [Alesh.restripeIn, Alesh.foreignIn, hgroup, hnone]

/-- One of a group that an entry here is hosted for is kept for its Meridian (log entry 143). -/
theorem Alesh.restripeIn_foreign_kept (hgroup : x.group ≠ a.num O.GROUP_NUMBER)
    (hhost : ∃ y ∈ a.exts, y.node = a.node ∧ y.group = x.group) (he : a.num O.STEP_EPOCH < a.epochOf x.epochLo) :
    a.restripeIn gRestripeBuild x = { a with coding := { a.coding with
      restripes := (a.coding.restripes.filter fun p => p.1 != x.group) ++ [(x.group, false, a.epochOf x.epochLo)] } } := by
  obtain ⟨y, hy, hkey⟩ := hhost
  have hany : (a.exts.any fun y => y.node == a.node && y.group == x.group) = true := List.any_eq_true.2 ⟨y, hy, by simpa using hkey⟩
  simp [Alesh.restripeIn, Alesh.foreignIn, hgroup, hany, Nat.not_le.2 he, gRestripeBuild, gRestripeSwitch]

variable (hgroup : x.group = a.num O.GROUP_NUMBER)
include hgroup

theorem Alesh.restripeIn_other_tag (sub : Nat) (htag : x.tag ≠ a.stageTag) : a.restripeIn sub x = a.cancelRestripe := by
  simp [Alesh.restripeIn, hgroup, htag]

/-- The build announced, with its report ended (R246). -/
def Alesh.buildAnnounced (a : Alesh) (x : GrantArgs) : Alesh :=
  { a with take := { a.take with buildAt := some (x.tag, a.epochOf x.epochLo)
                                 reports := a.take.reports.filter fun r => !(r.2.1 == restripeWord 1 x.tag) } }

theorem Alesh.restripeIn_build (htag : x.tag = a.stageTag) (hst : a.num O.RESTRIPE_STATE = 1) (hat : a.take.buildAt = none) :
    a.restripeIn gRestripeBuild x =
      if a.epochOf x.epochLo ≤ a.num O.STEP_EPOCH then (a.buildAnnounced x).startRestripe else a.buildAnnounced x := by
  simp [Alesh.restripeIn, hgroup, htag, hst, hat, Alesh.endReports, Alesh.buildAnnounced]

theorem Alesh.restripeIn_switch (htag : x.tag = a.stageTag) (hst : a.num O.RESTRIPE_STATE = 3) (hat : a.take.switchAt = none) :
    let b := a.endReports fun _ w => w == restripeWord 2 x.tag
    a.restripeIn gRestripeSwitch x =
      if a.epochOf x.epochLo ≤ a.num O.STEP_EPOCH then b.switchLayout
      else { b with take := { b.take with switchAt := some (x.tag, a.epochOf x.epochLo) } } := by
  simp [Alesh.restripeIn, hgroup, htag, hst, hat, Alesh.endReports, gRestripeBuild, gRestripeSwitch]

end

/-- Settles O43, one step of the restriping at a time. -/
theorem restripingRunsInFourSteps : Obligations.RestripingRunsInFourSteps := by
  unfold Obligations.RestripingRunsInFourSteps
  intro reported
  constructor
  · intro s now hj a
    have hja : a.inJob = true := by rw [Alesh.inJob_at]; exact hj
    constructor
    · intro hst hvalid hmap
      refine gives_onCore (f := Alesh.restripeReady now) rfl ?_
      have hready : s.alesh.restripeReady now = a.reportStep 1 (restripeWord 1 a.stageTag) := by
        have hguard : (a.inJob && a.num O.RESTRIPE_STATE == 0 && a.stageValid && a.take.unmapped.isEmpty) = true := by
          simp [hja, hst, hvalid, hmap]
        exact if_pos hguard
      rw [hready]
      exact a.reportStep_reports 1 _
    · intro hst hbuild habsent hcomplete
      refine gives_onCore (f := Alesh.restripeDone now) rfl ?_
      have hdone : s.alesh.restripeDone now = a.reportStep 3 (restripeWord 2 a.stageTag) := by
        have hguard : (a.inJob && a.take.building && a.num O.RESTRIPE_STATE == 2 && !a.ownsAbsent && a.altComplete) = true := by
          simp [hja, hst, hbuild, habsent, hcomplete]
        exact if_pos hguard
      rw [hdone]
      exact a.reportStep_reports 3 _
  · intro s now m h hp hj a x e ended hosts
    have hbuildRx (p : Alesh → Prop) (hin : p (a.restripeIn gRestripeBuild x)) : Gives (.restripeBuildRx now m) s p :=
      gives_onCore (f := Alesh.restripeRx now gRestripeBuild m) rfl (by rw [Alesh.restripeRx_of_arrives h hp hj]; exact hin)
    have hswitchRx (p : Alesh → Prop) (hin : p (a.restripeIn gRestripeSwitch x)) : Gives (.restripeSwitchRx now m) s p :=
      gives_onCore (f := Alesh.restripeRx now gRestripeSwitch m) rfl (by rw [Alesh.restripeRx_of_arrives h hp hj]; exact hin)
    refine ⟨fun hgroup hhost => hbuildRx _ ?_, fun hgroup hhost he => hbuildRx _ ?_, fun hgroup => ⟨fun htag =>
      ⟨fun hst hat => ⟨fun he => hbuildRx _ ?_, fun he => hbuildRx _ ?_⟩, fun hst hat => ⟨fun he => hswitchRx _ ?_, fun he => hswitchRx _ ?_⟩⟩,
      fun htag => hbuildRx _ ?_⟩⟩
    · rw [Alesh.restripeIn_foreign_malformed _ hgroup hhost]
      exact ⟨Alesh.num_setNum_same .., rfl⟩
    · exact Alesh.restripeIn_foreign_kept hgroup hhost he
    · rw [Alesh.restripeIn_build hgroup htag hst hat, if_neg (Nat.not_le.2 he)]
      rfl
    · rw [Alesh.restripeIn_build hgroup htag hst hat, if_pos he]
      exact (a.buildAnnounced x).startRestripe_builds
    · rw [Alesh.restripeIn_switch hgroup htag hst hat, if_neg (Nat.not_le.2 he)]
      rfl
    · rw [Alesh.restripeIn_switch hgroup htag hst hat, if_pos he]
      exact (a.endReports fun _ w => w == restripeWord 2 x.tag).switchLayout_switches
    · rw [Alesh.restripeIn_other_tag hgroup _ htag]
      exact a.cancelRestripe_clears

end Sys2Proof.Machine
end

section
/-! SUPPORT. External entries (R169, R170, R172). -/
namespace Sys2Proof.Machine

/-! ### What an announcement does at its Meridian -/

/-- One entry moves to a state, and beside it no more than the coding state, the rows in force and Tier 0. -/
structure MovesEntry (i st : Nat) (c b : Alesh) : Prop where
  state : b.extState i = st
  others : ∀ j, j ≠ i → b.extState j = c.extState j
  coord : b.coding.extCoord = c.coding.extCoord
  same : SameBut [O.STRIPE_M_ACTIVE] [] c b
  frame : b = { c with coding := b.coding, dict := b.dict, mem0 := b.mem0 }

/-- The coding state alone moves. -/
theorem MovesEntry.of_coding {i st : Nat} {c : Alesh} (k : Coding) (hst : lookupD 0 k.ext i = st)
    (hothers : ∀ j, j ≠ i → lookupD 0 k.ext j = c.extState j) (hcoord : k.extCoord = c.coding.extCoord) :
    MovesEntry i st c { c with coding := k } :=
  ⟨hst, hothers, hcoord, ⟨fun _ _ => rfl, fun _ _ => rfl⟩, rfl⟩

theorem MovesEntry.setNum {i st : Nat} {c b : Alesh} (h : MovesEntry i st c b) (v : Nat) :
    MovesEntry i st c (b.setNum O.STRIPE_M_ACTIVE v) := by
  refine ⟨h.state, h.others, h.coord, ?_, ?_⟩
  · exact ((sameBut_setNum b O.STRIPE_M_ACTIVE v).after h.same).mono (by simp)
  · obtain ⟨k, dict, m, hb⟩ : ∃ k dict m, b = { c with coding := k, dict := dict, mem0 := m } := ⟨_, _, _, h.frame⟩
    rw [hb]
    rfl

section
variable {c : Alesh} {i e : Nat} {y : ExtEntry} (hy : c.exts[i]? = some y)
include hy

/-- A build blanks the entry's slots where they are the core's own, and freezes those that are copied (R170). -/
theorem Alesh.extApply_build (hst : c.extState i = 0) :
    let b := c.extApply i gBuild e
    MovesEntry i 1 c b ∧ (y.node ≠ c.node → b.mem0 = c.mem0) ∧ b.dict = c.dict ∧
      b.coding.frozen = c.coding.frozen ++ (c.sourceSlots y).map fun q => (q.1, e) := by
  set d := { c with coding := { c.coding with ext := assign c.coding.ext i 1, extBuilt := assign c.coding.extBuilt i e } } with hd
  have hfrozen (b : Alesh) : MovesEntry i 1 c { d with mem0 := b.mem0, coding := { d.coding with frozen := b.coding.frozen } } :=
    ⟨lookupD_assign_same .., fun j hj => lookupD_assign_ne _ _ (Ne.symm hj) _, rfl, ⟨fun _ _ => rfl, fun _ _ => rfl⟩, rfl⟩
  have hbuild : c.extApply i gBuild e =
      let d' := if y.node == c.node then (c.extSlots y).foldl (fun (c : Alesh) (s : Nat) => c.blankSlot false s) d else d
      { d' with coding := { d'.coding with frozen := d'.coding.frozen ++ (c.sourceSlots y).map fun q => (q.1, e) } } := by
    unfold Alesh.extApply
    simp only [hy, hst, decide_true, Nat.reduceBEq, Bool.and_false, beq_self_eq_true, Bool.and_self, Bool.false_eq_true, if_false, if_true]
    rfl
  rw [hbuild]
  by_cases hhere : y.node = c.node
  · obtain ⟨m, hm⟩ := Alesh.foldl_blankSlot_frame false (c.extSlots y) d
    rw [if_pos (beq_iff_eq.2 hhere), hm]
    exact ⟨hfrozen { d with mem0 := m, coding := { d.coding with frozen := c.coding.frozen ++ (c.sourceSlots y).map fun q => (q.1, e) } },
      fun hne => absurd hhere hne, rfl, rfl⟩
  · rw [if_neg (by simpa using hhere)]
    exact ⟨hfrozen { d with coding := { d.coding with frozen := c.coding.frozen ++ (c.sourceSlots y).map fun q => (q.1, e) } },
      fun _ => rfl, rfl, rfl⟩

/-- An entry of a RELOCATE that is ACTIVE starts its row's return (log entry 55). -/
theorem Alesh.extApply_return (hkind : y.kind = 0) (hst : c.extState i = 2) :
    let b := c.extApply i gBuild e
    MovesEntry i 2 c b ∧ b.mem0 = c.mem0 ∧ b.dict = c.dict ∧ lookup? b.coding.returns i = some e ∧
      (y.node = c.node → ∀ q ∈ c.extSlots y, (q, e) ∈ b.coding.frozen) ∧
      (c.isDefault y = true → ∀ q ∈ c.defaultSlots y, q ∈ b.coding.awaiting) := by
  set d := { c with coding := { c.coding with returns := assign c.coding.returns i e } } with hd
  have hstart : c.extApply i gBuild e =
      let b := if y.node != c.node then d else { d with coding := { d.coding with frozen := d.coding.frozen ++ (c.extSlots y).map fun s => (s, e) } }
      if c.isDefault y then { b with coding := { b.coding with awaiting := b.coding.awaiting ++ c.defaultSlots y } } else b := by
    unfold Alesh.extApply
    simp only [hy, hkind, hst, decide_true, beq_self_eq_true, Bool.and_self, if_true]
    rfl
  have hret : lookup? (assign c.coding.returns i e) i = some e := by rw [lookup?_assign, if_pos rfl]
  set k : Coding := { d.coding with
    frozen := if y.node != c.node then c.coding.frozen else c.coding.frozen ++ (c.extSlots y).map fun s => (s, e)
    awaiting := if c.isDefault y then c.coding.awaiting ++ c.defaultSlots y else c.coding.awaiting } with hk
  have hcoding : c.extApply i gBuild e = { c with coding := k } := by
    rw [hstart, hk]
    cases hhere : y.node != c.node <;> cases hdef : c.isDefault y <;> rfl
  rw [hcoding]
  refine ⟨.of_coding k hst (fun _ _ => rfl) rfl, rfl, rfl, hret, fun hhere q hq => ?_, fun hdef q hq => ?_⟩
  · show (q, e) ∈ (if y.node != c.node then c.coding.frozen else c.coding.frozen ++ (c.extSlots y).map fun s => (s, e))
    rw [if_neg (by simp [hhere])]
    exact List.mem_append_right _ (List.mem_map.2 ⟨q, hq, rfl⟩)
  · show q ∈ (if c.isDefault y then c.coding.awaiting ++ c.defaultSlots y else c.coding.awaiting)
    rw [if_pos hdef]
    exact List.mem_append_right _ hq

/-- An activation puts the row in force (R170). -/
theorem Alesh.extApply_activate (hst : c.extState i = 1) :
    let b := c.extApply i gActivate e
    MovesEntry i 2 c b ∧ b.mem0 = c.mem0 ∧ b.num O.STRIPE_M_ACTIVE =
      (if y.group = c.num O.GROUP_NUMBER ∧ y.kind = 1 then y.row + 1 else c.num O.STRIPE_M_ACTIVE) := by
  set k : Coding := { c.coding with ext := assign c.coding.ext i 2, extAt := assign c.coding.extAt i e }
  have hmoves : MovesEntry i 2 c { c with coding := k } :=
    .of_coding k (lookupD_assign_same ..) (fun j hj => lookupD_assign_ne _ _ (Ne.symm hj) _) rfl
  have hact : c.extApply i gActivate e =
      if y.group = c.num O.GROUP_NUMBER ∧ y.kind = 1 then ({ c with coding := k } : Alesh).setNum O.STRIPE_M_ACTIVE (y.row + 1) else { c with coding := k } := by
    simp [Alesh.extApply, hy, hst, gActivate, gBuild, Alesh.setExtAt, Alesh.setExt, k]
  rw [hact]
  split
  · exact ⟨hmoves.setNum _, rfl, Alesh.num_setNum_same ..⟩
  · exact ⟨hmoves, rfl, rfl⟩

/-- A withdrawal takes the row out of force (R172). -/
theorem Alesh.extApply_withdraw (hst : c.extState i = 2) :
    let b := c.extApply i gWithdraw e
    MovesEntry i 3 c b ∧ b.mem0 = c.mem0 ∧ b.num O.STRIPE_M_ACTIVE =
      (if y.group = c.num O.GROUP_NUMBER ∧ y.kind = 1 then y.row else c.num O.STRIPE_M_ACTIVE) := by
  set k : Coding := { c.coding with
    ext := assign c.coding.ext i 3, extAt := assign c.coding.extAt i e, returns := c.coding.returns.filter fun p => p.1 != i }
  have hmoves : MovesEntry i 3 c { c with coding := k } :=
    .of_coding k (lookupD_assign_same ..) (fun j hj => lookupD_assign_ne _ _ (Ne.symm hj) _) rfl
  have hwithdraw : c.extApply i gWithdraw e =
      if y.group = c.num O.GROUP_NUMBER ∧ y.kind = 1 then ({ c with coding := k } : Alesh).setNum O.STRIPE_M_ACTIVE y.row else { c with coding := k } := by
    simp [Alesh.extApply, hy, hst, gWithdraw, gActivate, gBuild, Alesh.setExtAt, Alesh.setExt, k, and_comm]
  rw [hwithdraw]
  split
  · exact ⟨hmoves.setNum _, rfl, Alesh.num_setNum_same ..⟩
  · exact ⟨hmoves, rfl, rfl⟩

end

/-! ### Announcements -/

/-- The acting coordinator is known, and the report that the announcement answers has ended (R169). -/
def Alesh.told (a : Alesh) (src sub : Nat) (y : ExtEntry) : Alesh :=
  let b := { a with coding := { a.coding with extCoord := assign a.coding.extCoord y.group src } }
  if sub = gActivate || sub = gWithdraw then b.endReports fun g w => g == y.group && w == extDoneWord y else b

theorem Alesh.told_frame (a : Alesh) (src sub : Nat) (y : ExtEntry) : ∃ reports, a.told src sub y = { a with
    coding := { a.coding with extCoord := assign a.coding.extCoord y.group src }, take := { a.take with reports := reports } } := by
  unfold Alesh.told
  dsimp only
  split <;> exact ⟨_, rfl⟩

/-- The state from which an announcement takes its entry (R169). -/
def extFrom (sub : Nat) : Nat := if sub = gBuild then 0 else if sub = gActivate then 1 else 2

/-- The first announcement that names an entry is kept until its Meridian, or acts where that has released. -/
theorem Alesh.extIn_of_first {a : Alesh} {src sub i : Nat} {x : GrantArgs} {y : ExtEntry} (hfind : a.findExt x = some (i, y))
    (hsub : sub ≠ gCancel) (hfirst : ∀ p ∈ a.coding.extPlan, p.1 ≠ i)
    (hpre : a.extState i = extFrom sub ∨ (sub = gBuild ∧ y.kind = 0 ∧ a.extState i = 2 ∧ a.returning i y = false)) :
    let c := a.told src sub y
    let e := a.epochOf x.epochLo
    a.extIn src sub x = if e ≤ a.num O.STEP_EPOCH then c.extApply i sub e
      else { c with coding := { c.coding with extPlan := c.coding.extPlan ++ [(i, sub, e)] } } := by
  obtain ⟨reports, hc⟩ := a.told_frame src sub y
  intro c e
  have hwas : (c.coding.extPlan.any fun p => p.1 == i && p.2.1 == sub && p.2.2 == e) = false := by
    rw [show c = _ from hc, List.any_eq_false]
    intro p hp
    simp [hfirst p hp]
  have hready : (c.extState i == extFrom sub || (sub = gBuild && y.kind = 0 && c.extState i == 2 && !c.returning i y)) = true := by
    rw [show c = _ from hc]
    show (a.extState i == extFrom sub || (sub = gBuild && y.kind = 0 && a.extState i == 2 && !a.returning i y)) = true
    rcases hpre with h | ⟨h, hkind, hst, hret⟩
    · simp [h]
    · simp [h, hkind, hst, hret]
  have hstep : c.num O.STEP_EPOCH = a.num O.STEP_EPOCH := by rw [show c = _ from hc]; rfl
  have hunfold : a.extIn src sub x =
      if !((c.extState i == extFrom sub || (sub = gBuild && y.kind = 0 && c.extState i == 2 && !c.returning i y))
          || (sub = gActivate && c.coding.extPlan.any fun p => p.1 == i && p.2.1 == gBuild))
        || (c.coding.extPlan.any fun p => p.1 == i && p.2.1 == sub && p.2.2 == e) then c
      else if e ≤ c.num O.STEP_EPOCH then c.extApply i sub e
      else { c with coding := { c.coding with extPlan := c.coding.extPlan ++ [(i, sub, e)] } } := by
    unfold Alesh.extIn
    simp only [hfind, hsub, if_false]
    rfl
  simp only [hunfold, hready, hwas, Bool.true_or, Bool.not_true, Bool.or_false, Bool.false_eq_true, if_false, hstep]

/-! ### Cancellation -/

theorem Alesh.dropEntry_clears (a : Alesh) (i : Nat) (x : ExtEntry) :
    (a.dropEntry i x).coding.ext = assign a.coding.ext i 0 ∧ (a.dropEntry i x).coding.extCoord = a.coding.extCoord ∧
      (a.dropEntry i x).coding.own = a.coding.own.filter fun t => !(a.entryOwn x t && t.extra) := by
  obtain ⟨_, _, _, hends, -⟩ := (a.dropOwn fun t => a.entryOwn x t && t.extra).endTxs_frame (a.entryTx x)
  unfold Alesh.dropEntry
  dsimp only
  rw [hends]
  exact ⟨rfl, rfl, rfl⟩

/-- A return cancelled leaves the entries' states as they are (R172). -/
theorem Alesh.endReturn_clears {a : Alesh} {i : Nat} {x : ExtEntry} (hret : a.returning i x = true) :
    (a.endReturn i x).coding.ext = a.coding.ext ∧ (a.endReturn i x).coding.extCoord = a.coding.extCoord ∧
      lookup? (a.endReturn i x).coding.returns i = none := by
  obtain ⟨_, _, _, hends, -⟩ := (a.dropOwn fun t => t.extra && !t.alt && t.holder == a.geo.defaultNode x && t.row == x.row &&
    t.band % a.geo.n == x.rotation && x.group == a.num O.GROUP_NUMBER).endTxs_frame (a.returnTx x)
  unfold Alesh.endReturn
  rw [hret, Bool.not_true, if_neg Bool.false_ne_true]
  dsimp only
  rw [hends]
  exact ⟨rfl, rfl, (lookup?_filter _ i i).trans (if_pos rfl)⟩

theorem Alesh.extIn_cancel {a : Alesh} {src i : Nat} {x : GrantArgs} {y : ExtEntry} (hfind : a.findExt x = some (i, y)) :
    a.extIn src gCancel x = (a.told src gCancel y).cancelEntry i y := by
  unfold Alesh.extIn
  simp only [hfind, if_true]
  rfl

/-! ### Announcements sent again -/

theorem Alesh.foldl_sendAll {ι : Type} (typ : Nat) (dsts : ι → List Nat) (args : ι → Nat) (b : Bytes) (l : List ι) (a : Alesh) :
    l.foldl (fun (c : Alesh) x => c.sendAll typ (dsts x) (args x) b) a =
      a.emitEach (l.flatMap fun x => (dsts x).map fun d => a.cresol typ d (args x) b) := by
  induction l generalizing a with
  | nil => rfl
  | cons x l ih =>
    obtain ⟨ports, hsent⟩ := Alesh.emitEach_frame a ((dsts x).map fun d => a.cresol typ d (args x) b)
    have hsame (d : Nat) (y : ι) := Alesh.cresol_of_dict (a := a) (b := a.sendAll typ (dsts x) (args x) b)
      (by rw [Alesh.sendAll_eq, hsent]) typ d (args y) b
    rw [List.foldl_cons, ih, List.flatMap_cons]
    simp only [hsame]
    rw [Alesh.sendAll_eq]
    exact (List.foldl_append ..).symm

theorem Alesh.valid_of_acts {a : Alesh} {k : Nat} (h : a.acts k = true) : a.clock.valid = true := by
  unfold Alesh.acts at h
  split at h
  · simp only [Bool.and_eq_true] at h
    exact h.1.1.1
  · exact absurd h Bool.false_ne_true

theorem mem_modWhere_of_false {α : Type} {p : α → Bool} {f : α → α} {l : List α} {x : α} (hx : x ∈ l) (hp : p x = false) : x ∈ modWhere p f l :=
  List.mem_map.2 ⟨x, hx, by simp [hp]⟩

/-- What the acting coordinator has announced goes out again when its time has come (R169). -/
theorem Alesh.announceResend_sends {a0 a : Alesh} {now : Nat} (ha : a0.at now = a) (hj : a.inJob = true) (hacts : a.acts lCoord = true) :
    let b := a0.announceResend now
    (∀ x ∈ a.take.announces, x.2.2.2 ≤ a.now → (∀ n ∈ x.2.2.1, Sends b (a.cresol tGrant n x.1 [])) ∧
      (x.1, x.2.1, x.2.2.1, a.ackDue) ∈ b.take.announces) ∧
    (∀ x ∈ a.take.announces, a.now < x.2.2.2 → x ∈ b.take.announces) ∧
    b = { a with take := { a.take with announces := b.take.announces }, ports := b.ports } := by
  set go := a.take.announces.filter fun x => a.due x.2.2.2
  set kept := modWhere (fun (x : Nat × Nat × List Nat × Nat) => go.contains x) (fun x => (x.1, x.2.1, x.2.2.1, a.ackDue)) a.take.announces
  set packets := go.flatMap fun x => x.2.2.1.map fun d => a.cresol tGrant d x.1 []
  set c := { a with take := { a.take with announces := kept } }
  have hresend : a0.announceResend now = c.emitEach packets := by
    unfold Alesh.announceResend
    simp only [ha, hacts, if_true]
    exact Alesh.foldl_sendAll ..
  obtain ⟨ports, hsent⟩ := c.emitEach_frame packets
  have hdue (x : Nat × Nat × List Nat × Nat) : a.due x.2.2.2 = decide (x.2.2.2 ≤ a.now) := by
    rw [Alesh.due, Alesh.valid_of_acts hacts, Bool.true_and]; rfl
  intro b
  have hb : b = c.emitEach packets := hresend
  refine ⟨fun x hx hlate => ⟨fun n hn => ?_, ?_⟩, fun x hx hearly => ?_, ?_⟩
  · rw [hb]
    refine sends_emitEach (a := c) hj _ (List.mem_flatMap.2 ⟨x, List.mem_filter.2 ⟨hx, ?_⟩, List.mem_map.2 ⟨n, hn, rfl⟩⟩)
    rw [hdue]; exact decide_eq_true hlate
  · rw [hb, hsent]
    refine mem_modWhere hx (List.contains_iff_mem.2 (List.mem_filter.2 ⟨hx, ?_⟩))
    rw [hdue]; exact decide_eq_true hlate
  · rw [hb, hsent]
    refine mem_modWhere_of_false hx (Bool.eq_false_iff.2 fun hin => ?_)
    have hlate := (List.mem_filter.1 (List.contains_iff_mem.1 hin)).2
    rw [hdue] at hlate
    exact absurd (of_decide_eq_true hlate) (Nat.not_le.2 hearly)
  · rw [hb, hsent]

/-! ### The packets -/

/-- An announcement of an entry reaches the core (R169). -/
theorem Alesh.extRx_of_arrives {a : Alesh} {now : Nat} {m : Pkt} (h : Arrives a tGrant m) (hp : m.payload = []) (hj : a.inJob = true)
    (sub : Nat) : a.extRx now sub m = (a.heard now m.src).extIn m.src sub (GrantArgs.ofNat m.args) := by
  unfold Alesh.extRx
  rw [Alesh.receive_of_arrives h rfl (by rw [hp]; rfl), if_pos (by rw [Alesh.inJob, Alesh.heard_ctl]; exact hj)]

section
variable (a : Alesh) (src sub i e : Nat) (y : ExtEntry)

/-- The coordinator that a group's announcements come from. -/
def Alesh.knows (b : Alesh) (group src : Nat) : Prop := lookup? b.coding.extCoord group = some src

theorem Alesh.knows_told : (a.told src sub y).knows y.group src := by
  obtain ⟨reports, hc⟩ := a.told_frame src sub y
  rw [hc]
  exact (lookup?_assign ..).trans (if_pos rfl)

theorem Alesh.told_waits :
    let c := a.told src sub y
    let b := { c with coding := { c.coding with extPlan := c.coding.extPlan ++ [(i, sub, e)] } }
    b.coding.extPlan = a.coding.extPlan ++ [(i, sub, e)] ∧ b.coding.ext = a.coding.ext ∧ b.knows y.group src ∧ SameBut [] [] a b ∧
      b = { a with coding := b.coding, take := { a.take with reports := b.take.reports } } := by
  have hknows := a.knows_told src sub y
  obtain ⟨reports, hc⟩ := a.told_frame src sub y
  rw [hc] at hknows ⊢
  exact ⟨rfl, rfl, hknows, ⟨fun _ _ => rfl, fun _ _ => rfl⟩, rfl⟩

variable {a src sub i y}

theorem Alesh.told_acts {st : Nat} {b : Alesh} (h : MovesEntry i st (a.told src sub y) b) :
    b.extState i = st ∧ (∀ j, j ≠ i → b.extState j = a.extState j) ∧ b.knows y.group src ∧ SameBut [O.STRIPE_M_ACTIVE] [] a b ∧
      b = { a with coding := b.coding, take := { a.take with reports := b.take.reports }, dict := b.dict, mem0 := b.mem0 } := by
  have hknows := a.knows_told src sub y
  obtain ⟨reports, hc⟩ := a.told_frame src sub y
  obtain ⟨hst, hothers, hcoord, hsame, hframe⟩ := h
  rw [hc] at hothers hcoord hsame hframe hknows
  refine ⟨hst, hothers, ?_, hsame, ?_⟩
  · rw [Alesh.knows, hcoord]; exact hknows
  · obtain ⟨k, dict, m, hb⟩ : ∃ k dict m, b = { a with coding := k, take := { a.take with reports := reports }, dict := dict, mem0 := m } :=
      ⟨_, _, _, hframe⟩
    rw [hb]

section
variable {e : Nat} (hy : a.exts[i]? = some y)
include hy

theorem Alesh.told_build (hst : a.extState i = 0) :
    let c := a.told src gBuild y
    let b := c.extApply i gBuild e
    MovesEntry i 1 c b ∧ (y.node ≠ a.node → b.mem0 = a.mem0) ∧ b.num O.STRIPE_M_ACTIVE = a.num O.STRIPE_M_ACTIVE ∧
      b.coding.frozen = a.coding.frozen ++ (a.sourceSlots y).map fun q => (q.1, e) := by
  obtain ⟨reports, hc⟩ := a.told_frame src gBuild y
  rw [hc]
  obtain ⟨hmoves, hmem, hdict, hfrozen⟩ := Alesh.extApply_build (c := { a with
    coding := { a.coding with extCoord := assign a.coding.extCoord y.group src }, take := { a.take with reports := reports } }) (e := e) hy hst
  exact ⟨hmoves, hmem, Alesh.num_of_dict hdict _, hfrozen⟩

theorem Alesh.told_return (hkind : y.kind = 0) (hst : a.extState i = 2) :
    let c := a.told src gBuild y
    let b := c.extApply i gBuild e
    MovesEntry i 2 c b ∧ b.mem0 = a.mem0 ∧ b.num O.STRIPE_M_ACTIVE = a.num O.STRIPE_M_ACTIVE ∧ lookup? b.coding.returns i = some e ∧
      (y.node = a.node → ∀ q ∈ a.extSlots y, (q, e) ∈ b.coding.frozen) ∧ (a.isDefault y = true → ∀ q ∈ a.defaultSlots y, q ∈ b.coding.awaiting) := by
  obtain ⟨reports, hc⟩ := a.told_frame src gBuild y
  rw [hc]
  obtain ⟨hmoves, hmem, hdict, hreturns⟩ := Alesh.extApply_return (c := { a with
    coding := { a.coding with extCoord := assign a.coding.extCoord y.group src }, take := { a.take with reports := reports } })
    (e := e) hy hkind hst
  exact ⟨hmoves, hmem, Alesh.num_of_dict hdict _, hreturns⟩

theorem Alesh.told_activate (hst : a.extState i = 1) :
    let c := a.told src gActivate y
    let b := c.extApply i gActivate e
    MovesEntry i 2 c b ∧ b.mem0 = a.mem0 ∧ b.num O.STRIPE_M_ACTIVE =
      (if y.group = a.num O.GROUP_NUMBER ∧ y.kind = 1 then y.row + 1 else a.num O.STRIPE_M_ACTIVE) := by
  obtain ⟨reports, hc⟩ := a.told_frame src gActivate y
  rw [hc]
  exact Alesh.extApply_activate (c := { a with
    coding := { a.coding with extCoord := assign a.coding.extCoord y.group src }, take := { a.take with reports := reports } }) hy hst

theorem Alesh.told_withdraw (hst : a.extState i = 2) :
    let c := a.told src gWithdraw y
    let b := c.extApply i gWithdraw e
    MovesEntry i 3 c b ∧ b.mem0 = a.mem0 ∧ b.num O.STRIPE_M_ACTIVE =
      (if y.group = a.num O.GROUP_NUMBER ∧ y.kind = 1 then y.row else a.num O.STRIPE_M_ACTIVE) := by
  obtain ⟨reports, hc⟩ := a.told_frame src gWithdraw y
  rw [hc]
  exact Alesh.extApply_withdraw (c := { a with
    coding := { a.coding with extCoord := assign a.coding.extCoord y.group src }, take := { a.take with reports := reports } }) hy hst

end

theorem Alesh.told_recodes : Recodes [O.HOLD_USED] a (a.told src sub y) := by
  obtain ⟨reports, hc⟩ := a.told_frame src sub y
  exact .of_dict (by rw [hc])

/-- The cancellation of a return. -/
theorem Alesh.cancelEntry_return (hst : a.extState i = 2) (hret : a.returning i y = true) :
    let b := (a.told src sub y).cancelEntry i y
    (∀ j, b.extState j = a.extState j) ∧ b.returning i y = false ∧ b.knows y.group src ∧ b.mem0 = a.mem0 ∧ SameBut [O.HOLD_USED] [] a b := by
  have hrecodes := (Alesh.told_recodes (a := a) (src := src) (sub := sub) (y := y)).trans (.cancelEntry (by simp) i y)
  have hknows := a.knows_told src sub y
  obtain ⟨reports, hc⟩ := a.told_frame src sub y
  have hstate : (a.told src sub y).extState i = 2 := by rw [hc]; exact hst
  have hreturning : (a.told src sub y).returning i y = true := by rw [hc]; exact hret
  obtain ⟨hext, hcoord, hnone⟩ := Alesh.endReturn_clears hreturning
  have hcancel : (a.told src sub y).cancelEntry i y =
      let b := (a.told src sub y).endReturn i y
      { b with coding := { b.coding with extPlan := b.coding.extPlan.filter fun p => p.1 != i } } := by
    rw [Alesh.cancelEntry, hstate]; rfl
  intro b
  refine ⟨fun j => ?_, ?_, ?_, hrecodes.mem0, hrecodes.same⟩
  · have hj : b.coding.ext = (a.told src sub y).coding.ext := (congrArg (fun c : Alesh => c.coding.ext) hcancel).trans hext
    rw [Alesh.extState, hj, hc]
    rfl
  · have hj : lookup? b.coding.returns i = none := (congrArg (fun c : Alesh => lookup? c.coding.returns i) hcancel).trans hnone
    rw [Alesh.returning, hj, Option.isSome_none, Bool.and_false]
  · have hj : b.coding.extCoord = (a.told src sub y).coding.extCoord := (congrArg (fun c : Alesh => c.coding.extCoord) hcancel).trans hcoord
    rw [Alesh.knows, hj]; exact hknows

/-- The cancellation of a build. -/
theorem Alesh.cancelEntry_build (hst : a.extState i = 1) :
    let b := (a.told src sub y).cancelEntry i y
    b.extState i = 0 ∧ (∀ j, j ≠ i → b.extState j = a.extState j) ∧ b.knows y.group src ∧ b.mem0 = a.mem0 ∧
      (∀ t ∈ b.coding.own, ¬(a.entryOwn y t = true ∧ t.extra = true)) ∧ SameBut [O.HOLD_USED] [] a b := by
  have hrecodes := (Alesh.told_recodes (a := a) (src := src) (sub := sub) (y := y)).trans (.cancelEntry (by simp) i y)
  have hknows := a.knows_told src sub y
  obtain ⟨reports, hc⟩ := a.told_frame src sub y
  have hstate : (a.told src sub y).extState i = 1 := by rw [hc]; exact hst
  have hcancel : (a.told src sub y).cancelEntry i y = (a.told src sub y).dropEntry i y := by rw [Alesh.cancelEntry, hstate]; rfl
  obtain ⟨hext, hcoord, hown⟩ := (a.told src sub y).dropEntry_clears i y
  rw [← hcancel] at hext hcoord hown
  intro b
  refine ⟨?_, fun j hj => ?_, ?_, hrecodes.mem0, fun t ht => ?_, hrecodes.same⟩
  · rw [Alesh.extState, hext]; exact lookupD_assign_same ..
  · rw [Alesh.extState, hext, lookupD_assign_ne _ _ (Ne.symm hj), hc]; rfl
  · rw [Alesh.knows, hcoord]; exact hknows
  · rw [hown, hc] at ht
    have hnot : (!(a.entryOwn y t && t.extra)) = true := (List.mem_filter.1 ht).2
    rintro ⟨hentry, hextra⟩
    simp [hentry, hextra] at hnot

end

/-- Settles O41, one kind of announcement at a time. -/
theorem externalEntriesMoveAsAnnounced : Obligations.ExternalEntriesMoveAsAnnounced := by
  unfold Obligations.ExternalEntriesMoveAsAnnounced
  constructor
  · intro s now m i y h hp hj a x e known waits acts hfind hfirst hy
    have hrx (c : Instr) (sub : Nat) (hc : exec c s = onCore (Alesh.extRx now sub m) s) (p : Alesh → Prop) (hin : p (a.extIn m.src sub x)) :
        Gives c s p := gives_onCore hc (by rw [Alesh.extRx_of_arrives h hp hj]; exact hin)
    have hwaits (c : Instr) (sub : Nat) (hc : exec c s = onCore (Alesh.extRx now sub m) s) (hsub : sub ≠ gCancel)
        (hpre : a.extState i = extFrom sub ∨ (sub = gBuild ∧ y.kind = 0 ∧ a.extState i = 2 ∧ a.returning i y = false)) : waits c sub := by
      intro he
      refine hrx c sub hc _ ?_
      rw [Alesh.extIn_of_first hfind hsub hfirst hpre, if_neg (Nat.not_le.2 he)]
      exact a.told_waits m.src sub i e y
    have hacts (c : Instr) (sub st : Nat) (hc : exec c s = onCore (Alesh.extRx now sub m) s) (hsub : sub ≠ gCancel)
        (hpre : a.extState i = extFrom sub ∨ (sub = gBuild ∧ y.kind = 0 ∧ a.extState i = 2 ∧ a.returning i y = false))
        (p : Alesh → Prop) (hmoves : MovesEntry i st (a.told m.src sub y) ((a.told m.src sub y).extApply i sub e))
        (hp : p ((a.told m.src sub y).extApply i sub e)) : acts c st p := by
      intro he
      refine hrx c sub hc _ ?_
      rw [Alesh.extIn_of_first hfind hsub hfirst hpre, if_pos he]
      obtain ⟨hst, hothers, hknows, hsame, hframe⟩ := Alesh.told_acts hmoves
      exact ⟨hst, hothers, hknows, hp, hsame, hframe⟩
    refine ⟨fun hst => ?_, fun hst hkind hret => ?_, fun hst => ?_, fun hst => ?_, fun hst hret => ?_, fun hst => ?_⟩
    · obtain ⟨hmoves, hrest⟩ := Alesh.told_build (src := m.src) (e := e) hy hst
      exact ⟨hwaits _ _ rfl (by decide) (.inl hst), hacts _ gBuild 1 rfl (by decide) (.inl hst) _ hmoves hrest⟩
    · obtain ⟨hmoves, hrest⟩ := Alesh.told_return (src := m.src) (e := e) hy hkind hst
      have hpre : a.extState i = extFrom gBuild ∨ (gBuild = gBuild ∧ y.kind = 0 ∧ a.extState i = 2 ∧ a.returning i y = false) :=
        .inr ⟨rfl, hkind, hst, hret⟩
      exact ⟨hwaits _ _ rfl (by decide) hpre, hacts _ gBuild 2 rfl (by decide) hpre _ hmoves hrest⟩
    · obtain ⟨hmoves, hrest⟩ := Alesh.told_activate (src := m.src) (e := e) hy hst
      exact ⟨hwaits _ _ rfl (by decide) (.inl hst), hacts _ gActivate 2 rfl (by decide) (.inl hst) _ hmoves hrest⟩
    · obtain ⟨hmoves, hrest⟩ := Alesh.told_withdraw (src := m.src) (e := e) hy hst
      exact ⟨hwaits _ _ rfl (by decide) (.inl hst), hacts _ gWithdraw 3 rfl (by decide) (.inl hst) _ hmoves hrest⟩
    · refine hrx _ gCancel rfl _ ?_
      rw [Alesh.extIn_cancel hfind]
      exact Alesh.cancelEntry_return hst hret
    · refine hrx _ gCancel rfl _ ?_
      rw [Alesh.extIn_cancel hfind]
      exact Alesh.cancelEntry_build hst
  · intro s now hj hacts
    exact gives_onCore (f := Alesh.announceResend now) rfl (Alesh.announceResend_sends rfl (by rw [Alesh.inJob_at]; exact hj) hacts)

end Sys2Proof.Machine
end

section
/-! SUPPORT. Fragments answered, and RETAIN TAKE repeated (R236, R240, R322). -/
namespace Sys2Proof.Machine

/-! ### A fragment answered -/

/-- A fragment asked for is answered by what the core makes of the request (R240). -/
theorem Alesh.fragReqRx_of_arrives {a : Alesh} {now : Nat} {m : Pkt} (h : Arrives a tFragReq m) (hp : m.payload = [])
    (hj : a.joinedOrJob = true) (hrange : (FragArgs.ofNat m.args).first + (FragArgs.ofNat m.args).countM1 ≤ 1023) :
    let x := FragArgs.ofNat m.args
    let r := (a.heard now m.src).fragment x m.src
    a.fragReqRx now m = r.2.2.send tFragData m.src ({ x with status := r.1 } : FragArgs).word r.2.1 := by
  have hok : (m.payload.isEmpty && decide ((FragArgs.ofNat m.args).first + (FragArgs.ofNat m.args).countM1 ≤ 1023)) = true := by
    simp [hp, hrange]
  unfold Alesh.fragReqRx
  dsimp only
  rw [Alesh.receive_of_arrives h rfl hok, Alesh.heard_joinedOrJob, hj]
  rfl

section
variable {a : Alesh} {x : FragArgs} (src : Nat)

theorem Alesh.fragment_of_layout (h : x.layout ≠ a.num O.LAYOUT_GEN % 4) : a.fragment x src = (fAbsent, [], a) := by
  simp [Alesh.fragment, h]

section
variable (hlayout : x.layout = a.num O.LAYOUT_GEN % 4) (hdata : x.parity = false)
include hlayout hdata

theorem Alesh.fragment_of_not_kept (hkept : a.keptData x.band x.index = none) : a.fragment x src = (fAbsent, [], a) := by
  simp [Alesh.fragment, hlayout, hdata, hkept]

variable {g sl : Nat} (hkept : a.keptData x.band x.index = some (g, sl))
include hkept

theorem Alesh.fragment_of_minority (hhead : isHeader g = true) (hminor : a.fabric.minority = true) :
    a.fragment x src = (fDamaged, [], a) := by
  simp [Alesh.fragment, hlayout, hdata, hkept, hhead, hminor]

variable (hhost : ¬(isHeader g = true ∧ a.fabric.minority = true))
include hhost

theorem Alesh.fragment_of_absent (hlost : a.isAbsent g x.page = true ∨ g * 256 + x.page ∈ a.take.frozenAbsent) :
    a.fragment x src = (fAbsent, [], a) := by
  have hminor : (isHeader g && a.fabric.minority) = false := by simpa using hhost
  have hlost' : (a.isAbsent g x.page || a.take.frozenAbsent.contains (g * 256 + x.page)) = true := by simpa using hlost
  simp only [Alesh.fragment, hlayout, hdata, hkept, hminor, hlost', bne_self_eq_false, Bool.not_false, Bool.false_eq_true, if_false, if_true]

theorem Alesh.fragment_of_data (hlost : ¬(a.isAbsent g x.page = true ∨ g * 256 + x.page ∈ a.take.frozenAbsent))
    (hgood : a.slicePages g ≤ x.page ∨ a.pageGood g sl x.page = true) :
    a.fragment x src = (fOk, a.dataHead g sl x.index x.page ++ slice (a.slotPage g sl x.page) (64 * x.first) (64 * (x.countM1 + 1)), a) := by
  have hminor : (isHeader g && a.fabric.minority) = false := by simpa using hhost
  have hlost' : (a.isAbsent g x.page || a.take.frozenAbsent.contains (g * 256 + x.page)) = false := by simpa using hlost
  have hgood' : (decide (x.page < a.slicePages g) && !a.pageGood g sl x.page) = false := by
    rcases hgood with h | h
    · simp [Nat.not_lt.2 h]
    · simp [h]
  simp only [Alesh.fragment, hlayout, hdata, hkept, hminor, hlost', hgood', bne_self_eq_false, Bool.not_false, Bool.false_eq_true, if_false,
    if_true]

end

section
variable (hlayout : x.layout = a.num O.LAYOUT_GEN % 4) (hparity : x.parity = true)
include hlayout hparity

theorem Alesh.fragment_of_no_parity (hkept : a.keptParity x.band x.index src = none) : a.fragment x src = (fAbsent, [], a) := by
  simp [Alesh.fragment, hlayout, hparity, hkept]

theorem Alesh.fragment_of_parity {sl : Nat} (hkept : a.keptParity x.band x.index src = some sl) (hlost : sl ∉ a.coding.lost)
    (htable : a.tableGood false sl = true) (hgood : a.parityGood false sl x.band x.page = true) :
    a.fragment x src = (fOk, a.parityHead sl x.band x.index x.page ++
      slice (a.parityPage false sl x.page) (64 * x.first) (64 * (x.countM1 + 1)), a) := by
  have hlost' : a.coding.lost.contains sl = false := by simpa using hlost
  simp only [Alesh.fragment, hlayout, hparity, hkept, hlost', htable, hgood, bne_self_eq_false, Bool.not_true, Bool.or_false,
    Bool.false_eq_true, if_false]

end
end

/-! ### RETAIN TAKE repeated -/

theorem Alesh.sendRetainTake_eq (a : Alesh) (g gen : Nat) : a.sendRetainTake g gen =
    a.emitEach (a.memb.members.map fun n => a.cresol tLease n (leaseArgs 3 g 1 gen) (leBytes 8 0 ++ leBytes 8 0)) := Alesh.sendAll_eq ..

/-- A RETAIN TAKE is repeated until the slice's combine is complete (R236). -/
theorem Alesh.retainTakeResend_repeats {a0 a : Alesh} {now g gen e due : Nat} (ha : a0.at now = a) (hj : a.inJob = true)
    (hvalid : a.clock.valid = true) (hfind : (a.take.retainTakes.find? fun r => r.1 == g) = some (g, gen, e, due)) :
    let b := a0.retainTakeResend now g
    let go : Prop := (a.grad? g e).isSome = true ∨ a.owns g = false ∨ e ≤ a.num O.STEP_EPOCH
    (go → (∀ r ∈ b.take.retainTakes, r.1 ≠ g) ∧ b.ports = a.ports) ∧
      (¬go → due ≤ a.now → (g, gen, e, a.ackDue) ∈ b.take.retainTakes ∧ ∀ n ∈ a.memb.members,
        Sends b (a.cresol tLease n (leaseArgs 3 g 1 gen) (leBytes 8 0 ++ leBytes 8 0))) ∧
      (¬go → a.now < due → b = a) ∧ b = { a with take := { a.take with retainTakes := b.take.retainTakes }, ports := b.ports } := by
  set keep := a.take.retainTakes.filter fun r => r.1 != g
  set ends := (a.grad? g e).isSome || !a.owns g || decide (e ≤ a.num O.STEP_EPOCH)
  set c := { a with take := { a.take with retainTakes := keep ++ [(g, gen, e, a.ackDue)] } }
  have hresend : a0.retainTakeResend now g = if ends then { a with take := { a.take with retainTakes := keep } }
      else if a.due due then c.sendRetainTake g gen else a := by
    unfold Alesh.retainTakeResend
    simp only [ha, hfind]
    rfl
  have hdue : a.due due = decide (due ≤ a.now) := by rw [Alesh.due, hvalid, Bool.true_and]; rfl
  have hends : ends = true ↔ (a.grad? g e).isSome = true ∨ a.owns g = false ∨ e ≤ a.num O.STEP_EPOCH := by
    simp [ends, or_assoc]
  intro b go
  have hb : b = _ := hresend
  by_cases hgo : ends = true
  · rw [if_pos hgo] at hb
    rw [hb]
    refine ⟨fun _ => ⟨fun r hr => by simpa using (List.mem_filter.1 hr).2, rfl⟩, fun hnot => absurd (hends.1 hgo) hnot,
      fun hnot => absurd (hends.1 hgo) hnot, rfl⟩
  · rw [if_neg hgo, hdue] at hb
    by_cases hlate : due ≤ a.now
    · rw [if_pos (decide_eq_true hlate), Alesh.sendRetainTake_eq] at hb
      refine ⟨fun h => absurd (hends.2 h) hgo, fun _ _ => ⟨?_, fun n hn => ?_⟩, fun _ h => absurd h (Nat.not_lt.2 hlate), ?_⟩
      all_goals rw [hb]
      · obtain ⟨ports, hsent⟩ := c.emitEach_frame (c.memb.members.map fun n =>
          c.cresol tLease n (leaseArgs 3 g 1 gen) (leBytes 8 0 ++ leBytes 8 0))
        rw [hsent]
        exact List.mem_append_right _ (List.mem_singleton.2 rfl)
      · exact sends_emitEach (a := c) hj _ (List.mem_map.2 ⟨n, hn, rfl⟩)
      · obtain ⟨ports, hsent⟩ := c.emitEach_frame (c.memb.members.map fun n =>
          c.cresol tLease n (leaseArgs 3 g 1 gen) (leBytes 8 0 ++ leBytes 8 0))
        rw [hsent]
    · rw [if_neg (by simpa using hlate)] at hb
      rw [hb]
      exact ⟨fun h => absurd (hends.2 h) hgo, fun _ h => absurd h hlate, fun _ _ => rfl, rfl⟩

end Sys2Proof.Machine
end

section
/-! SUPPORT. Fragments asked for (R239, R241, R243). -/
namespace Sys2Proof.Machine

/-! ### The rebuild of a page -/

/-- An entry of the rebuilds that is for the same page and purpose. -/
def Rebuild.isFor (r q : Rebuild) : Bool := q.gsid == r.gsid && q.page == r.page && q.why == r.why

theorem Rebuild.isFor_iff {r q : Rebuild} : r.isFor q = true ↔ q.gsid = r.gsid ∧ q.page = r.page ∧ q.why = r.why := by
  simp [Rebuild.isFor, and_assoc]

theorem Rebuild.isFor_self (r : Rebuild) : r.isFor r = true := Rebuild.isFor_iff.2 ⟨rfl, rfl, rfl⟩

theorem Rebuild.isFor_eq {r q : Rebuild} (h : r.isFor q = true) : q.isFor = r.isFor := by
  obtain ⟨hg, hp, hw⟩ := Rebuild.isFor_iff.1 h
  funext x
  simp only [Rebuild.isFor, hg, hp, hw]

theorem find?_modWhere {α : Type} {p : α → Bool} {new : α} {l : List α} (hnew : p new = true) (h : ∃ x ∈ l, p x = true) :
    (modWhere p (fun _ => new) l).find? p = some new := by
  induction l with
  | nil => obtain ⟨x, hx, -⟩ := h; exact absurd hx List.not_mem_nil
  | cons y l ih =>
    by_cases hy : p y = true
    · simp [modWhere, hy, hnew]
    · obtain ⟨x, hx, hpx⟩ := h
      have htail : ∃ x ∈ l, p x = true := by
        rcases List.mem_cons.1 hx with rfl | hx
        · exact absurd hpx hy
        · exact ⟨x, hx, hpx⟩
      have hcons : modWhere p (fun _ => new) (y :: l) = y :: modWhere p (fun _ => new) l := by simp [modWhere, hy]
      rw [hcons, List.find?_cons_of_neg hy, ih htail]

theorem Alesh.setRebuild_eq (a : Alesh) (r new : Rebuild) : a.setRebuild r new =
    { a with take := { a.take with rebuilds := modWhere r.isFor (fun _ => new) a.take.rebuilds } } := rfl

theorem Alesh.rebuild?_eq (a : Alesh) (r : Rebuild) : a.rebuild? r = a.take.rebuilds.find? r.isFor := rfl

theorem Alesh.rebuild?_setRebuild {a : Alesh} {r0 r new : Rebuild} (hr : ∃ x ∈ a.take.rebuilds, r0.isFor x = true) (hfor : r0.isFor r = true)
    (hnew : r0.isFor new = true) : (a.setRebuild r new).rebuild? r0 = some new := by
  rw [Alesh.rebuild?_eq, Alesh.setRebuild_eq, Rebuild.isFor_eq hfor]
  exact find?_modWhere hnew hr

/-! ### Requests -/

/-- Requests of a rebuild sent, one entry of the asked for each: nothing else of the core moves. -/
structure AsksFragments (r0 r : Rebuild) (new : List (Nat × Bool × Nat × Nat × Nat × Nat)) (b c : Alesh) : Prop where
  frame : c = { b with take := { b.take with rebuilds := c.take.rebuilds, nextReq := c.take.nextReq }, ports := c.ports }
  entry : c.rebuild? r0 = some { r with asked := r.asked ++ new }
  others : ∀ x ∈ b.take.rebuilds, r0.isFor x = false → x ∈ c.take.rebuilds
  sends : ∀ y ∈ new, Sends c (b.cresol tFragReq y.2.2.2.1 (b.fragWord r y.1 y.2.1 y.2.2.1) [])
  keeps : ∀ p, Sends b p → Sends c p

theorem AsksFragments.refl {r0 r : Rebuild} {b : Alesh} (h : b.rebuild? r0 = some r) : AsksFragments r0 r [] b b :=
  ⟨rfl, by rw [List.append_nil, h], fun _ hx _ => hx, fun _ hy => absurd hy List.not_mem_nil, fun _ h => h⟩

theorem AsksFragments.trans {r0 r : Rebuild} {new new' : List (Nat × Bool × Nat × Nat × Nat × Nat)} {b c d : Alesh} (hbc : AsksFragments r0 r new b c)
    (hcd : AsksFragments r0 { r with asked := r.asked ++ new } new' c d) : AsksFragments r0 r (new ++ new') b d := by
  have hd : c.dict = b.dict := by rw [hbc.frame]
  refine ⟨?_, ?_, fun x hx hne => hcd.others x (hbc.others x hx hne) hne, fun y hy => ?_, fun p h => hcd.keeps p (hbc.keeps p h)⟩
  · obtain ⟨rb, nr, ports, hc⟩ : ∃ rb nr ports, c = { b with take := { b.take with rebuilds := rb, nextReq := nr }, ports := ports } :=
      ⟨_, _, _, hbc.frame⟩
    refine hcd.frame.trans ?_
    rw [hc]
  · rw [hcd.entry, List.append_assoc]
  · rcases List.mem_append.1 hy with hy | hy
    · exact hcd.keeps _ (hbc.sends y hy)
    · have hsent := hcd.sends y hy
      have hword (r : Rebuild) (id : Nat) (parity : Bool) (index : Nat) : c.fragWord r id parity index = b.fragWord r id parity index := by
        rw [Alesh.fragWord, Alesh.num_of_dict hd, Alesh.fragWord]
      rw [Alesh.cresol_of_dict hd, hword] at hsent
      exact hsent

theorem Alesh.rebuild?_for {a : Alesh} {r0 r : Rebuild} (h : a.rebuild? r0 = some r) : r ∈ a.take.rebuilds ∧ r0.isFor r = true :=
  ⟨List.mem_of_find?_eq_some h, List.find?_some h⟩

/-- One request goes out. -/
theorem Alesh.askOne_asks {b : Alesh} {r0 r : Rebuild} (hj : b.inJob = true) (h : b.rebuild? r0 = some r) (x : Bool × Nat × Nat) :
    AsksFragments r0 r [(b.freeReq, x.1, x.2.1, x.2.2, b.ackDue, 0)] b (b.askOne r0 x) := by
  obtain ⟨hmem, hfor⟩ := Alesh.rebuild?_for h
  set entry := (b.freeReq, x.1, x.2.1, x.2.2, b.ackDue, 0)
  set new : Rebuild := { r with asked := r.asked ++ [entry] }
  have hnew : r0.isFor new = true := hfor
  have hentry : (b.setRebuild r new).rebuild? r0 = some new := Alesh.rebuild?_setRebuild ⟨r, hmem, hfor⟩ hfor hnew
  set c := b.setRebuild r new
  set d := { c with take := { c.take with nextReq := (b.freeReq + 1) % 1024 } }
  have hask : b.askOne r0 x = d.send tFragReq x.2.2 (b.fragWord r b.freeReq x.1 x.2.1) [] := by
    unfold Alesh.askOne
    rw [h]
  obtain ⟨ports, hsend⟩ : ∃ ports, d.emit (d.cresol tFragReq x.2.2 (b.fragWord r b.freeReq x.1 x.2.1) []) = { d with ports := ports } :=
    ⟨_, Alesh.emit_frame ..⟩
  rw [hask, Alesh.send]
  refine ⟨?_, ?_, fun y hy hne => ?_, fun y hy => ?_, fun p hp => (hp.of_ports (b := d) rfl).emit _⟩
  · rw [hsend]
    rfl
  · rw [hsend]
    exact hentry
  · rw [hsend]
    exact mem_modWhere_of_false hy (show r.isFor y = false by rw [Rebuild.isFor_eq hfor]; exact hne)
  · rw [List.mem_singleton.1 hy, ← Alesh.cresol_of_dict (show d.dict = b.dict from rfl)]
    dsimp only [entry]
    exact sends_emit_self (a := d) hj _

theorem Alesh.foldl_askOne_asks {r0 : Rebuild} (l : List (Bool × Nat × Nat)) {b : Alesh} {r : Rebuild} (hj : b.inJob = true)
    (h : b.rebuild? r0 = some r) : ∃ new, new.length = l.length ∧ AsksFragments r0 r new b (l.foldl (fun (c : Alesh) x => c.askOne r0 x) b) := by
  induction l generalizing b r with
  | nil => exact ⟨[], rfl, .refl h⟩
  | cons x l ih =>
    have hone := Alesh.askOne_asks hj h x
    obtain ⟨new, hlen, hrest⟩ := ih (b := b.askOne r0 x) (by rw [hone.frame]; exact hj) hone.entry
    exact ⟨_, by rw [List.length_append, hlen, List.length_singleton, List.length_cons, Nat.add_comm], hone.trans hrest⟩

/-- The fragments that a rebuild may still ask for. -/
def Alesh.askable (a : Alesh) (r : Rebuild) : List (Bool × Nat × Nat) :=
  (a.fragOrder r).filter fun x => !(r.frags.any fun f => f.1 == x.1 && f.2.1 == x.2.1) &&
    !(r.asked.any fun q => q.2.1 == x.1 && q.2.2.1 == x.2.1) && !(r.skipped.any fun q => q.1 == x.1 && q.2 == x.2.1)

/-- What a rebuild has or has asked for. -/
def Alesh.having (a : Alesh) (r : Rebuild) : Nat := (a.zeroCols r).length + r.frags.length + r.asked.length

theorem Alesh.askMore_eq {b : Alesh} {r0 r : Rebuild} (h : b.rebuild? r0 = some r) (hdirect : r.direct = false) :
    b.askMore r0 = ((b.askable r).take (b.geo.k - b.having r)).foldl (fun (c : Alesh) x => c.askOne r x) b := by
  unfold Alesh.askMore
  rw [h]
  simp only [hdirect, Bool.false_eq_true, if_false]
  rfl

theorem Alesh.rebuild?_self {b : Alesh} {r0 r : Rebuild} (h : b.rebuild? r0 = some r) : b.rebuild? r = some r := by
  rw [Alesh.rebuild?_eq, Rebuild.isFor_eq (Alesh.rebuild?_for h).2]; exact h

/-- A rebuild by fragments asks for as many as it lacks (R241). -/
theorem Alesh.askMore_asks {b : Alesh} {r0 r : Rebuild} (hj : b.inJob = true) (h : b.rebuild? r0 = some r) (hdirect : r.direct = false) :
    ∃ new, new.length = min (b.geo.k - b.having r) (b.askable r).length ∧ AsksFragments r0 r new b (b.askMore r0) := by
  have hfor := Rebuild.isFor_eq (Alesh.rebuild?_for h).2
  obtain ⟨new, hlen, hasks⟩ := Alesh.foldl_askOne_asks ((b.askable r).take (b.geo.k - b.having r)) hj (Alesh.rebuild?_self h)
  refine ⟨new, by rw [hlen, List.length_take], ?_⟩
  rw [Alesh.askMore_eq h hdirect]
  exact ⟨hasks.frame, by rw [Alesh.rebuild?_eq, ← hfor]; exact hasks.entry,
    fun x hx hne => hasks.others x hx (by rw [hfor]; exact hne), hasks.sends, hasks.keeps⟩

/-- A rebuild that lacks fragments and has asked for all of them waits (R241). -/
theorem Alesh.advance_of_full {c : Alesh} {r0 r : Rebuild} (h : c.rebuild? r0 = some r) (hdirect : r.direct = false)
    (hlack : (c.zeroCols r).length + r.frags.length < c.geo.k) (hfull : c.geo.k ≤ c.having r) : c.advance r0 = c := by
  have hself := Alesh.rebuild?_self h
  have hask : c.askMore r = c := by
    rw [Alesh.askMore_eq hself hdirect, Nat.sub_eq_zero_of_le hfull]
    rfl
  have hleft : ¬r.asked.length + r.frags.length + (c.zeroCols r).length < c.geo.k := by
    rw [Alesh.having] at hfull; omega
  unfold Alesh.advance
  rw [h]
  simp only [hdirect, List.length_map, Nat.not_le.2 hlack, decide_false, Bool.false_eq_true, if_false, hask, hself, Option.map_some,
    Option.getD_some, hleft, Bool.false_and]

/-- The core that a rebuild's requests leave looks at its fragments as before. -/
theorem AsksFragments.having {r0 r : Rebuild} {new : List (Nat × Bool × Nat × Nat × Nat × Nat)} {b c : Alesh} (h : AsksFragments r0 r new b c) :
    c.geo = b.geo ∧ c.zeroCols { r with asked := r.asked ++ new } = b.zeroCols r ∧
      c.having { r with asked := r.asked ++ new } = b.having r + new.length := by
  obtain ⟨rebuilds, next, ports, hc⟩ : ∃ x y z, c = { b with take := { b.take with rebuilds := x, nextReq := y }, ports := z } := ⟨_, _, _, h.frame⟩
  have hzero : c.zeroCols { r with asked := r.asked ++ new } = b.zeroCols r := by rw [hc]; rfl
  refine ⟨by rw [hc]; rfl, hzero, ?_⟩
  rw [Alesh.having, hzero, List.length_append, Alesh.having]
  exact (Nat.add_assoc ..).symm

/-- A rebuild that lacks fragments asks for them, and waits where there are enough to ask for (R241). -/
theorem Alesh.askMore_advance_asks {b : Alesh} {r0 r : Rebuild} (hj : b.inJob = true) (h : b.rebuild? r0 = some r) (hdirect : r.direct = false)
    (hlack : (b.zeroCols r).length + r.frags.length < b.geo.k) (henough : b.geo.k ≤ b.having r + (b.askable r).length) :
    ∃ new, new.length = b.geo.k - b.having r ∧ AsksFragments r0 r new b ((b.askMore r0).advance r0) := by
  obtain ⟨new, hlen, hasks⟩ := Alesh.askMore_asks hj h hdirect
  have hnew : new.length = b.geo.k - b.having r := by omega
  obtain ⟨hgeo, hzero, hhaving⟩ := hasks.having
  refine ⟨new, hnew, ?_⟩
  rw [Alesh.advance_of_full hasks.entry hdirect (by rw [hzero, hgeo]; exact hlack) (by rw [hhaving, hgeo]; omega)]
  exact hasks

/-! ### The next absent page -/

theorem mem_of_minBy? {α : Type} {key : α → Nat} {l : List α} {x : α} (h : minBy? key l = some x) : x ∈ l := by
  induction l generalizing x with
  | nil => simp [minBy?] at h
  | cons y l ih =>
    rw [minBy?] at h
    cases hl : minBy? key l with
    | none =>
      rw [hl] at h
      exact List.mem_cons.2 (.inl (Option.some.inj h).symm)
    | some z =>
      rw [hl] at h
      dsimp only at h
      split at h
      · exact List.mem_cons_of_mem _ (Option.some.inj h ▸ ih hl)
      · exact List.mem_cons.2 (.inl (Option.some.inj h).symm)

/-- The next absent page is not being rebuilt. -/
theorem Alesh.nextAbsent_idle {a : Alesh} {g page : Nat} (h : a.nextAbsent = some (g, page)) :
    ∀ r ∈ a.take.rebuilds, ¬(r.gsid = g ∧ r.page = page ∧ r.why = 1) := by
  obtain ⟨x, hx, hkey⟩ := Option.map_eq_some_iff.1 h
  have hmem : x ∈ a.take.absent.filter fun x => a.rebuildable (x / 256) &&
      !(a.take.rebuilds.any fun r => r.why == 1 && r.gsid * 256 + r.page == x) := by
    have := mem_of_minBy? hx
    split at this
    · exact this
    · exact (List.mem_filter.1 this).1
  have hfree := (List.mem_filter.1 hmem).2
  simp only [Prod.mk.injEq] at hkey
  rintro r hr ⟨hg, hp, hw⟩
  have hany : (a.take.rebuilds.any fun r => r.why == 1 && r.gsid * 256 + r.page == x) = true := by
    refine List.any_eq_true.2 ⟨r, hr, ?_⟩
    have hsplit : r.gsid * 256 + r.page = x := by omega
    simp [hw, hsplit]
  simp [hany] at hfree

theorem Alesh.rebuild?_append {a : Alesh} {r : Rebuild} (h : ∀ q ∈ a.take.rebuilds, r.isFor q = false) :
    a.addRebuild r = { a with take := { a.take with rebuilds := a.take.rebuilds ++ [r] } } ∧ (a.addRebuild r).rebuild? r = some r := by
  have hnone : a.take.rebuilds.any r.isFor = false := by
    rw [List.any_eq_false]
    exact fun q hq => Bool.eq_false_iff.1 (h q hq)
  have hadd : a.addRebuild r = { a with take := { a.take with rebuilds := a.take.rebuilds ++ [r] } } := by
    unfold Alesh.addRebuild
    exact if_neg (Bool.eq_false_iff.1 hnone)
  refine ⟨hadd, ?_⟩
  rw [hadd, Alesh.rebuild?_eq, List.find?_append, List.find?_eq_none.2 fun q hq => Bool.eq_false_iff.1 (h q hq)]
  simp [Rebuild.isFor_self]

/-- The background asks for the next absent page's fragments (R241, R243). -/
theorem Alesh.rebuildRequest_asks {a0 a : Alesh} {now g page bnd col : Nat} (ha : a0.at now = a) (hj : a.inJob = true)
    (hbusy : ∀ x ∈ a.take.rebuilds, x.waits = false)
    (hdepth : (a.take.rebuilds.filter fun x => x.why == 1 && !x.urgent).length < a.num O.REBUILD_DEPTH)
    (hnext : a.nextAbsent = some (g, page)) (hcol : a.bandCol a.geo g = some (bnd, col)) (hgiven : lookup? a.take.given g = none)
    (hzeros : (a.zeroCols (Rebuild.fresh g page bnd col 1)).length < a.geo.k)
    (henough : a.geo.k ≤ (a.zeroCols (Rebuild.fresh g page bnd col 1)).length + (a.fragOrder (Rebuild.fresh g page bnd col 1)).length) :
    let r := Rebuild.fresh g page bnd col 1
    let b := a0.rebuildRequest now
    (∃ x ∈ b.take.rebuilds, x.gsid = g ∧ x.page = page ∧ x.why = 1 ∧ x.asked.length = a.geo.k - (a.zeroCols r).length ∧
        ∀ y ∈ x.asked, Sends b (a.cresol tFragReq y.2.2.2.1 (a.fragWord r y.1 y.2.1 y.2.2.1) [])) ∧
      (∀ x ∈ a.take.rebuilds, x ∈ b.take.rebuilds) ∧
      b = { a with take := { a.take with rebuilds := b.take.rebuilds, nextReq := b.take.nextReq }, ports := b.ports } := by
  set urgent := a.take.wanted.any fun w => w.1 == g * 256 + page
  set r : Rebuild := { Rebuild.fresh g page bnd col 1 with urgent := urgent } with hr
  have hidle : (a.take.rebuilds.filter fun r => r.waits && !a.filling r) = [] := by
    rw [List.filter_eq_nil_iff]
    intro x hx
    simp [hbusy x hx]
  have hrequest : a0.rebuildRequest now = ((a.addRebuild r).askMore r).advance r := by
    unfold Alesh.rebuildRequest
    simp only [ha, hj, hidle, hnext, hcol, hgiven, hdepth, Bool.not_true, Bool.false_eq_true, if_false, List.filter_nil, List.head?_nil,
      decide_true, Bool.or_true, if_true, Option.map_none, Option.getD_none, Bool.false_and]
    rfl
  have hfree : ∀ q ∈ a.take.rebuilds, r.isFor q = false := fun q hq =>
    Bool.eq_false_iff.2 fun h => a.nextAbsent_idle hnext q hq (Rebuild.isFor_iff.1 h)
  obtain ⟨hadd, hentry⟩ := Alesh.rebuild?_append hfree
  have hzero : (a.addRebuild r).zeroCols r = a.zeroCols (Rebuild.fresh g page bnd col 1) := by rw [hadd]; rfl
  have horder : (a.addRebuild r).askable r = a.fragOrder (Rebuild.fresh g page bnd col 1) := by
    rw [hadd]
    exact List.filter_eq_self.2 fun _ _ => rfl
  have hgeo : (a.addRebuild r).geo = a.geo := by rw [hadd]; rfl
  have hhaving : (a.addRebuild r).having r = (a.zeroCols (Rebuild.fresh g page bnd col 1)).length := by
    rw [Alesh.having, hzero]; rfl
  obtain ⟨new, hlen, hasks⟩ := Alesh.askMore_advance_asks (b := a.addRebuild r) (by rw [hadd]; exact hj) hentry rfl
    (by rw [hzero, hgeo]; exact hzeros) (by rw [hhaving, horder, hgeo]; exact henough)
  rw [hhaving, hgeo] at hlen
  obtain ⟨hframe, hin, hothers, hsends, -⟩ := hasks
  rw [← hrequest] at hframe hin hothers hsends
  intro r' b
  refine ⟨⟨_, (Alesh.rebuild?_for hin).1, rfl, rfl, rfl, hlen, fun y hy => ?_⟩, fun x hx => ?_, ?_⟩
  · have hsent := hsends y hy
    rw [Alesh.cresol_of_dict (show (a.addRebuild r).dict = a.dict by rw [hadd])] at hsent
    have hword : (a.addRebuild r).fragWord r y.1 y.2.1 y.2.2.1 = a.fragWord r' y.1 y.2.1 y.2.2.1 := by rw [hadd]; rfl
    rw [hword] at hsent
    exact hsent
  · refine hothers x ?_ (hfree x hx)
    rw [hadd]
    exact List.mem_append_left _ hx
  · rw [hadd] at hframe
    exact hframe

/-- A request unanswered goes out again (R241). -/
theorem Alesh.fragTimeout_resends {a0 a : Alesh} {now id : Nat} {r : Rebuild} {q : Nat × Bool × Nat × Nat × Nat × Nat} (ha : a0.at now = a)
    (hj : a.inJob = true) (hfind : (a.take.rebuilds.find? fun r => r.asked.any fun q => q.1 == id && a.due q.2.2.2.2.1) = some r)
    (hq : (r.asked.find? fun q => q.1 == id && a.due q.2.2.2.2.1) = some q) (htries : q.2.2.2.2.2 < a.num O.RETRY_LIMIT) :
    let b := a0.fragTimeout now id
    Sends b (a.cresol tFragReq q.2.2.2.1 (a.fragWord r id q.2.1 q.2.2.1) []) ∧
      (∃ x ∈ b.take.rebuilds, (q.1, q.2.1, q.2.2.1, q.2.2.2.1, a.ackDue, q.2.2.2.2.2 + 1) ∈ x.asked ∧ x.gsid = r.gsid ∧ x.page = r.page ∧
        x.frags = r.frags) ∧
      b = { a with take := { a.take with rebuilds := b.take.rebuilds }, ports := b.ports } := by
  set new : Rebuild := { r with asked := modWhere (fun q => q.1 == id && a.due q.2.2.2.2.1) (fun q =>
    (q.1, q.2.1, q.2.2.1, q.2.2.2.1, a.ackDue, q.2.2.2.2.2 + 1)) r.asked }
  set c := a.setRebuild r new
  have htimeout : a0.fragTimeout now id = c.send tFragReq q.2.2.2.1 (a.fragWord r id q.2.1 q.2.2.1) [] := by
    unfold Alesh.fragTimeout
    simp only [ha, hfind, hq, htries, if_true]
    rfl
  have hmem : new ∈ c.take.rebuilds := mem_modWhere (f := fun _ => new) (List.mem_of_find?_eq_some hfind) r.isFor_self
  obtain ⟨ports, hsent⟩ : ∃ ports, c.send tFragReq q.2.2.2.1 (a.fragWord r id q.2.1 q.2.2.1) [] = { c with ports := ports } :=
    ⟨_, Alesh.emit_frame ..⟩
  have hhit : (q.1 == id && a.due q.2.2.2.2.1) = true := List.find?_some (p := fun q : Nat × Bool × Nat × Nat × Nat × Nat => q.1 == id && a.due q.2.2.2.2.1) hq
  intro b
  have hb : b = _ := htimeout
  refine ⟨?_, ⟨new, ?_, mem_modWhere (List.mem_of_find?_eq_some hq) hhit, rfl, rfl, rfl⟩, ?_⟩
  · rw [hb, ← Alesh.cresol_of_dict (show c.dict = a.dict from rfl)]
    exact sends_emit_self (a := c) hj _
  · rw [hb, hsent]; exact hmem
  · rw [hb, hsent]; rfl

/-- A rebuild that lacks fragments asks for them and waits, where there are enough to ask for (R241). -/
theorem Alesh.advance_asks {c : Alesh} {r0 r : Rebuild} (hj : c.inJob = true) (h : c.rebuild? r0 = some r) (hdirect : r.direct = false)
    (hlack : (c.zeroCols r).length + r.frags.length < c.geo.k) (henough : c.geo.k ≤ c.having r + (c.askable r).length) :
    ∃ new, c.geo.k ≤ c.having r + new.length ∧ AsksFragments r0 r new c (c.advance r0) := by
  have hfor := Rebuild.isFor_eq (Alesh.rebuild?_for h).2
  obtain ⟨new, hlen, hasks⟩ := Alesh.askMore_asks hj (Alesh.rebuild?_self h) hdirect
  have hfull : c.geo.k ≤ c.having r + new.length := by omega
  have hleft : ¬(r.asked ++ new).length + r.frags.length + (c.zeroCols r).length < c.geo.k := by
    rw [List.length_append]
    rw [Alesh.having] at hfull
    omega
  have hadvance : c.advance r0 = c.askMore r := by
    unfold Alesh.advance
    rw [h]
    simp only [hdirect, List.length_map, Nat.not_le.2 hlack, decide_false, Bool.false_eq_true, if_false, hasks.entry, Option.map_some,
      Option.getD_some, hleft, Bool.false_and]
  rw [hadvance]
  exact ⟨new, hfull, hasks.frame, by rw [Alesh.rebuild?_eq, ← hfor]; exact hasks.entry,
    fun x hx hne => hasks.others x hx (by rw [hfor]; exact hne), hasks.sends, hasks.keeps⟩

/-- After DEGRADED_RETRY_NS the fragments that were dropped are asked for again (R241). -/
theorem Alesh.degradedRetry_asks {a0 a : Alesh} {now id t : Nat} {r : Rebuild} (ha : a0.at now = a) (hj : a.inJob = true)
    (hvalid : a.clock.valid = true) (hget : a.take.rebuilds[id]? = some r) (hretry : r.retry = some t) (hlate : t ≤ a.now)
    (hdirect : r.direct = false) (hlack : (a.zeroCols r).length + r.frags.length < a.geo.k)
    (henough : a.geo.k ≤ (a.zeroCols r).length + r.frags.length + r.asked.length + (a.askable r).length) :
    let b := a0.degradedRetry now id
    (∃ x ∈ b.take.rebuilds, x.gsid = r.gsid ∧ x.page = r.page ∧ x.why = r.why ∧ x.retry = none ∧ x.frags = r.frags ∧
        a.geo.k ≤ (a.zeroCols r).length + r.frags.length + x.asked.length ∧
        ∀ y ∈ x.asked, y ∈ r.asked ∨ Sends b (a.cresol tFragReq y.2.2.2.1 (a.fragWord r y.1 y.2.1 y.2.2.1) [])) ∧
      b = { a with take := { a.take with rebuilds := b.take.rebuilds, nextReq := b.take.nextReq }, ports := b.ports } := by
  set r1 : Rebuild := { r with retry := none }
  set c := a.setRebuild r r1 with hc
  have hdue : a.due t = true := by
    rw [Alesh.due, hvalid, Bool.true_and]; exact decide_eq_true hlate
  have hagain : a0.degradedRetry now id = c.advance r1 := by
    unfold Alesh.degradedRetry
    simp only [ha, hget, hretry, Option.map_some, Option.getD_some, hdue, if_true]
    rfl
  have hentry : c.rebuild? r1 = some r1 :=
    Alesh.rebuild?_setRebuild ⟨r, List.mem_of_getElem? hget, r.isFor_self⟩ r.isFor_self r.isFor_self
  obtain ⟨new, hfull, hasks⟩ := Alesh.advance_asks (c := c) hj hentry hdirect hlack henough
  rw [← hagain] at hasks
  obtain ⟨hframe, hin, -, hsends, -⟩ := hasks
  have hhaving : c.having r1 = (a.zeroCols r).length + r.frags.length + r.asked.length := rfl
  intro b
  refine ⟨⟨_, (Alesh.rebuild?_for hin).1, rfl, rfl, rfl, rfl, rfl, ?_, fun y hy => ?_⟩, hframe⟩
  · rw [hhaving] at hfull
    rw [List.length_append, ← Nat.add_assoc]
    exact hfull
  · refine (List.mem_append.1 hy).imp_right fun hy => ?_
    have hsent := hsends y hy
    rw [Alesh.cresol_of_dict (show c.dict = a.dict from rfl)] at hsent
    exact hsent

end Sys2Proof.Machine
end

section
/-! SUPPORT. Fragments decoded into a page (R242). -/
namespace Sys2Proof.Machine

/-! ### Pages and their records read as before -/

/-- A core that differs in what it rebuilds and in its count of decoded pages alone. -/
structure SamePages (a c : Alesh) : Prop where
  frame : c = { a with dict := c.dict, take := { a.take with rebuilds := c.take.rebuilds } }
  num : ∀ k, k ≠ O.DECODE_PAGES → c.num k = a.num k
  dom : ∀ k, c.dom k = a.dom k
  layers : c.ownLayers = a.ownLayers

namespace SamePages
variable {a c : Alesh} (h : SamePages a c)
include h

theorem errs : c.errs = a.errs := by rw [h.frame]
theorem mem0 : c.mem0 = a.mem0 := by rw [h.frame]
theorem slots : c.slots = a.slots := by rw [h.frame]
theorem shards : c.take.shards = a.take.shards := by rw [h.frame]
theorem node : c.node = a.node := h.num _ (by decide)
theorem ownShard : c.ownShard = a.ownShard := h.num _ (by decide)
theorem recBytes : c.recBytes = a.recBytes := h.num _ (by decide)

theorem rd : c.rd = a.rd := by
  funext addr n
  simp only [Alesh.rd, Alesh.place, h.errs, h.mem0, h.num O.SPARE_BASE (by decide)]

theorem pageAddr (sl page : Nat) : c.pageAddr sl page = a.pageAddr sl page := by
  rw [Alesh.pageAddr, h.num _ (by decide), Alesh.pageAddr]

theorem metaAddr (sl page : Nat) : c.metaAddr sl page = a.metaAddr sl page := by
  rw [Alesh.metaAddr, h.num _ (by decide), Alesh.metaAddr]

theorem pageRec (sl page : Nat) : c.pageRec sl page = a.pageRec sl page := by
  rw [Alesh.pageRec, h.metaAddr, Alesh.rdLe, h.rd, Alesh.pageRec, Alesh.rdLe]

theorem recordGood (g sl page : Nat) : c.recordGood g sl page = a.recordGood g sl page := by
  simp only [Alesh.recordGood, h.pageRec, h.errs, h.metaAddr, h.num O.JOB_ID (by decide)]

theorem shardFirst (n : Nat) : c.shardFirst n = a.shardFirst n := by
  unfold Alesh.shardFirst
  rw [h.ownShard, h.shards, h.layers, h.num _ (by decide)]

theorem shardPages (n : Nat) : c.shardPages n = a.shardPages n := by
  unfold Alesh.shardPages
  rw [h.ownShard, h.shards, h.num _ (by decide)]

theorem elementBase (g : Nat) : c.elementBase g = a.elementBase g := by
  simp only [Alesh.elementBase, Alesh.perSlice, h.shardFirst, h.recBytes]

theorem records (g : Nat) : c.records g = a.records g := by
  simp only [Alesh.records, Alesh.perSlice, Alesh.slicePages, h.shardPages, h.recBytes, h.num O.REPL_RECORDS (by decide)]

theorem masked : c.masked = a.masked := by
  funext layer
  simp only [Alesh.masked, Alesh.pubTable, h.num O.PUB_COUNT (by decide), h.dom]

theorem holdsMasked (g page : Nat) : c.holdsMasked g page = a.holdsMasked g page := by
  have hlayers : c.layers = a.layers := by rw [Alesh.layers, h.num _ (by decide), h.dom, Alesh.layers]
  have hbyte : c.recordByte = a.recordByte := by
    funext g j
    rw [Alesh.recordByte, h.recBytes, Alesh.recordByte]
  unfold Alesh.holdsMasked
  rw [h.records, hbyte, h.recBytes, hlayers, h.elementBase, h.masked]

theorem pageGroups (g page : Nat) : c.pageGroups g page = a.pageGroups g page := by
  simp only [Alesh.pageGroups, Alesh.liveSlot, Alesh.groupsAt, h.slots, h.recordGood, h.pageRec, h.holdsMasked]

theorem pageFlags (g sl page : Nat) (valid absent : Bool) : c.pageFlags g sl page valid absent = a.pageFlags g sl page valid absent := by
  have hspare : c.onSpare (c.pageAddr sl page) = a.onSpare (a.pageAddr sl page) := by rw [Alesh.onSpare, h.errs, h.pageAddr, Alesh.onSpare]
  have htaken : c.takenSlice g = a.takenSlice g := by rw [Alesh.takenSlice, h.ownShard, Alesh.takenSlice]
  rw [Alesh.pageFlags, hspare, htaken, h.slots, h.pageGroups, Alesh.pageFlags]

/-- The record under which a rebuilt page is written is the same. -/
theorem rebuiltRec (g sl col page step : Nat) (repair valid : Bool) (b : Bytes) :
    c.rebuiltRec g sl col page step repair valid b = a.rebuiltRec g sl col page step repair valid b := by
  simp only [Alesh.rebuiltRec, h.recordGood, h.pageRec, h.node, h.elementBase, h.pageFlags, h.num O.JOB_ID (by decide),
    h.num O.MEMBERSHIP_EPOCH (by decide)]

end SamePages

/-! ### What follows the write -/

/-- Errors, numbers and the core's state settled after a rebuilt page: nothing else of the core moves, nor the count of decoded pages. -/
structure Settles (c b : Alesh) : Prop where
  frame : b = { c with ctl := b.ctl, dict := b.dict, errs := b.errs }
  decoded : b.num O.DECODE_PAGES = c.num O.DECODE_PAGES

namespace Settles
variable {a b c : Alesh}

theorem refl (c : Alesh) : Settles c c := ⟨rfl, rfl⟩

theorem trans (hab : Settles a b) (hbc : Settles b c) : Settles a c := by
  refine ⟨hbc.frame.trans ?_, hbc.decoded.trans hab.decoded⟩
  obtain ⟨x, y, z, hb⟩ : ∃ x y z, b = { a with ctl := x, dict := y, errs := z } := ⟨_, _, _, hab.frame⟩
  rw [hb]

theorem setNum {k : Nat} (hk : k ≠ O.DECODE_PAGES) (v : Nat) : Settles c (c.setNum k v) := ⟨rfl, Alesh.num_setNum_ne c v hk⟩

theorem setDom (k : Nat) (v : Bytes) : Settles c (c.setDom k v) := ⟨rfl, rfl⟩

theorem setErrs (errs : Errs) : Settles c { c with errs := errs } := ⟨rfl, rfl⟩

theorem clearBad (page : Nat) : Settles c (c.clearBad page) := setErrs _

theorem retirePage (page : Nat) : Settles c (c.retirePage page) := by
  unfold Alesh.retirePage
  split
  · exact refl c
  · dsimp only
    split
    · exact setErrs _
    · exact setNum (by decide) _

theorem healed (page record : Nat) : Settles c (c.healed page record) := by
  have hone (d : Alesh) (p : Nat) : Settles d ((d.clearBad p).retirePage p) := (clearBad p).trans (retirePage p)
  unfold Alesh.healed
  extract_lets b
  have hb : Settles c b := by
    unfold b
    split
    · exact refl c
    · exact hone c _
  split
  · exact hb.trans (hone ..)
  · exact hb

theorem scanEnd : Settles c c.scanEnd := by
  unfold Alesh.scanEnd
  split
  · split
    · exact ((setErrs _).trans (setNum (by decide) 2)).trans (setDom ..)
    · exact refl c
  · exact refl c

theorem scanSettle (key : Repair) (fixed : Bool) : Settles c (c.scanSettle key fixed) := (setErrs _).trans scanEnd

theorem setDegraded : Settles c c.setDegraded := by
  have hframe := c.setDegraded_frame
  refine ⟨hframe.trans ?_, ?_⟩
  · rw [hframe]
  · rw [hframe]; exact Alesh.num_setNum_ne c _ (by decide)

end Settles

theorem Alesh.chronoFlush_of_empty {a : Alesh} (h : a.chrono.buffer = []) : a.chronoFlush = a := by
  unfold Alesh.chronoFlush Alesh.chronoDrain
  rw [h]
  rfl

/-! ### The write -/

/-- A page and its record written. -/
def Alesh.wrPage (c : Alesh) (sl page : Nat) (b rec_ : Bytes) : Alesh := (c.wr (c.pageAddr sl page) b).wr (c.metaAddr sl page) rec_

theorem Alesh.wrPage_frame (c : Alesh) (sl page : Nat) (b rec_ : Bytes) :
    c.wrPage sl page b rec_ = { c with mem0 := (c.wrPage sl page b rec_).mem0 } := by
  unfold Alesh.wrPage
  rw [Alesh.wr_frame, Alesh.wr_frame]

/-- The record of a rebuilt page: VALID where its step is not zero, or where it repairs a page that is (R50, R242). -/
def Alesh.rebuiltOf (c : Alesh) (r : Rebuild) (sl step : Nat) (b : Bytes) : PageRec :=
  c.rebuiltRec r.gsid sl r.col r.page step (r.why == 0) (step != 0 || (r.why == 0 && (c.pageRec sl r.page).valid)) b

/-- A decoded page is written with its record; a page that was ABSENT is so no longer (R242). -/
theorem Alesh.writeRebuilt_writes {c : Alesh} {r : Rebuild} {sl : Nat} (step : Nat) (bytes : Bytes) (hlive : c.liveSlot r.gsid = some sl)
    (hchrono : c.chrono.buffer = []) :
    let w := c.wrPage sl r.page bytes (c.rebuiltOf r sl step bytes).bytes
    ∃ absent wanted, Settles { w with take := { w.take with absent := absent, wanted := wanted } } (c.writeRebuilt r step false bytes) ∧
      (r.why = 1 → r.gsid * 256 + r.page ∉ absent) := by
  set w := c.wrPage sl r.page bytes (c.rebuiltOf r sl step bytes).bytes with hw
  have hframe := c.wrPage_frame sl r.page bytes (c.rebuiltOf r sl step bytes).bytes
  set d := w.unwant r.gsid r.page
  have hmeta : (c.wr (c.pageAddr sl r.page) bytes).metaAddr sl r.page = c.metaAddr sl r.page :=
    congrArg (· + (256 * sl + r.page) * 64) (Alesh.num_of_dict (Alesh.wr_dict ..) _)
  have hwrite : c.writeRebuilt r step false bytes =
      if r.why = 1 then
        ({ d with take := { d.take with absent := d.take.absent.filter (· != r.gsid * 256 + r.page) } }).wrap O.DEGRADED_READ_COUNT
          |>.setDegraded.chronoFlush
      else ((d.healed (d.pageAddr sl r.page / pageBytes) (d.metaAddr sl r.page / pageBytes)).count O.UE_REPAIRED_COUNT).scanSettle
        (.live r.gsid r.page) true := by
    unfold Alesh.writeRebuilt
    simp only [hlive, Bool.or_false, Alesh.setRec, hmeta]
    rfl
  rw [hwrite]
  split
  · set e := { d with take := { d.take with absent := d.take.absent.filter (· != r.gsid * 256 + r.page) } }
    have hsettles : Settles e (e.wrap O.DEGRADED_READ_COUNT).setDegraded := (Settles.setNum (by decide) _).trans .setDegraded
    have hempty : (e.wrap O.DEGRADED_READ_COUNT).setDegraded.chrono.buffer = [] := by
      rw [hsettles.frame]
      show w.chrono.buffer = []
      rw [hw, hframe]
      exact hchrono
    rw [Alesh.chronoFlush_of_empty hempty]
    exact ⟨_, _, hsettles, fun _ hin => by simpa using (List.mem_filter.1 hin).2⟩
  · next hne =>
    exact ⟨_, _, ((Settles.healed ..).trans (.setNum (by decide) _)).trans (.scanSettle ..), fun h => absurd h hne⟩

section
variable {c : Alesh} (hr : c.errs.retired = []) (hc : c.ctl.core ≠ .occulted) {sl page : Nat} {b rec_ : Bytes} (hb : b.length = 65536)
  (hrec : rec_.length = 64)
include hr hb hrec

theorem Alesh.wrPage_get {y : Nat} (hpage : ¬(c.pageAddr sl page ≤ y ∧ y < c.pageAddr sl page + 65536))
    (hmeta : ¬(c.metaAddr sl page ≤ y ∧ y < c.metaAddr sl page + 64)) : (c.wrPage sl page b rec_).mem0.get y = c.mem0.get y := by
  unfold Alesh.wrPage
  rw [Alesh.wr_mem0_get_of_outside (by rw [Alesh.wr_errs]; exact hr) (by rwa [hrec]), Alesh.wr_mem0_get_of_outside hr (by rwa [hb])]

include hc

theorem Alesh.wrPage_read (hapart : c.pageAddr sl page + 65536 ≤ c.metaAddr sl page ∨ c.metaAddr sl page + 64 ≤ c.pageAddr sl page) :
    (c.wrPage sl page b rec_).mem0.read (c.pageAddr sl page) 65536 = b ∧
      (c.wrPage sl page b rec_).mem0.read (c.metaAddr sl page) 64 = rec_ := by
  have hr1 : (c.wr (c.pageAddr sl page) b).errs.retired = [] := by rw [Alesh.wr_errs]; exact hr
  have hc1 : (c.wr (c.pageAddr sl page) b).ctl.core ≠ .occulted := by rw [Alesh.wr_ctl]; exact hc
  have hpage := Alesh.wr_mem0_read hr hc (c.pageAddr sl page) b
  have hmeta := Alesh.wr_mem0_read hr1 hc1 (c.metaAddr sl page) rec_
  rw [hb] at hpage
  rw [hrec] at hmeta
  refine ⟨?_, hmeta⟩
  rw [Alesh.wrPage, Alesh.wr_of_not_occulted hr1 hc1]
  exact (Memory.read_write_ne _ _ _ _ _ (by rw [hrec]; omega)).trans hpage

end

/-! ### The last fragment -/

/-- A rebuild with one more fragment, its request answered. -/
def Rebuild.gains (r : Rebuild) (src : Nat) (x : FragArgs) (p : Bytes) : Rebuild :=
  { r with asked := r.asked.filter fun q => !(q.1 == x.id && q.2.1 == x.parity && q.2.2.1 == x.index && q.2.2.2.1 == src)
           frags := r.frags ++ [(x.parity, x.index, p)] }

/-- A page decoded: counted, and its rebuild at an end. -/
def Alesh.decoded (a : Alesh) (r new : Rebuild) : Alesh := ((a.setRebuild r new).wrap O.DECODE_PAGES).dropRebuild new

theorem Alesh.decoded_samePages (a : Alesh) (r new : Rebuild) : SamePages a (a.decoded r new) := by
  refine ⟨rfl, fun k hk => Alesh.num_setNum_ne (a.setRebuild r new) _ (Ne.symm hk), fun _ => rfl, ?_⟩
  show layerEntries (lookupD 0 (assign a.dict.nums O.DECODE_PAGES _) O.LAYER_COUNT) _ = _
  rw [lookupD_assign_ne 0 _ (by decide)]
  rfl

theorem Alesh.rebuilds_decoded {a : Alesh} {r new : Rebuild} : ∀ y ∈ (a.decoded r new).take.rebuilds, new.isFor y = false := by
  intro y hy
  exact Bool.not_eq_true' _ ▸ (List.mem_filter.1 hy).2

/-- The step epoch under which a page is decoded: that of its column in the parity fragment (R242). -/
def Rebuild.stepOf (r : Rebuild) : Nat := ((r.frags.find? fun f => f.1).map fun f => headPage f.2.2 r.col).getD 0

/-- The last fragment decodes the page (R242). -/
theorem Alesh.fragDataIn_decodes {a : Alesh} {src : Nat} {x : FragArgs} {p bytes : Bytes} {r : Rebuild} (hst : x.status = fOk)
    (hfirst : x.first = 0) (hcount : x.countM1 = 1023)
    (hfind : (a.take.rebuilds.find? fun r => r.band == x.band && r.page == x.page && r.asked.any fun q =>
      q.1 == x.id && q.2.1 == x.parity && q.2.2.1 == x.index && q.2.2.2.1 == src) = some r)
    (hdirect : r.direct = false) (hwhy : r.why ≤ 1) (hgood : a.fragGood r x.parity x.index p = true)
    (henough : a.geo.k ≤ (a.zeroCols r).length + (r.gains src x p).frags.length) (hagree : allAgree a.geo.k (r.gains src x p).frags = true)
    (hbehind : ∀ f ∈ (r.gains src x p).frags, a.behind r f = false)
    (hdecode : decodeFragment a.geo.k (((a.zeroCols r).map fun j => (false, j, List.replicate 65536 (0 : Byte))) ++
      (r.gains src x p).frags.map fun f => (f.1, f.2.1, f.2.2.drop headBytes)) false r.col = some bytes) :
    let new := r.gains src x p
    a.fragDataIn src x p = ((a.decoded r new).writeRebuilt new new.stepOf false bytes).bringUp r.gsid := by
  set new := r.gains src x p
  have hmem : r ∈ a.take.rebuilds := List.mem_of_find?_eq_some hfind
  have hentry : (a.setRebuild r new).rebuild? { new with frags := r.frags } = some new :=
    Alesh.rebuild?_setRebuild ⟨r, hmem, r.isFor_self⟩ r.isFor_self r.isFor_self
  have hin : a.fragDataIn src x p = (a.setRebuild r new).advance { new with frags := r.frags } := by
    unfold Alesh.fragDataIn
    simp only [hfind]
    rw [if_neg (by simp [hdirect]), if_pos (by simp [hst, hfirst, hcount, hgood])]
    rfl
  have hparity : ¬r.why = 2 := by omega
  have hup : ¬r.why = 3 := by omega
  have hbehind' : (r.gains src x p).frags.any (a.behind r) = false := by
    rw [List.any_eq_false]
    exact fun f hf => Bool.eq_false_iff.1 (hbehind f hf)
  rw [hin]
  unfold Alesh.advance
  rw [hentry]
  have hzero : (a.setRebuild r new).zeroCols new = a.zeroCols r := rfl
  have hgeo : (a.setRebuild r new).geo = a.geo := rfl
  have hlate : new.frags.any ((a.setRebuild r new).behind new) = false := hbehind'
  have hnot : (new.why == 2) = false := beq_eq_false_iff_ne.2 hparity
  have hown : ¬(new.why = 2) := hparity
  have hthree : ¬(new.why = 3) := hup
  have hnew : new.direct = false := hdirect
  simp only [hzero, hgeo, hnew, hown, hthree, hnot, hlate, List.length_map, henough, decide_true, decide_false, Bool.false_and, Bool.false_eq_true,
    if_false, if_true, List.append_nil, hagree, Bool.not_false, Bool.and_self, pageBytes]
  rw [show decodeFragment a.geo.k _ false new.col = some bytes from hdecode]
  rfl

/-- Nothing of a slice whose transactions are decided is brought up (R206). -/
theorem Alesh.bringUp_of_decided {a : Alesh} {g : Nat} (h : ∀ p, a.prog? g = some p → p.undecided = false) : a.bringUp g = a := by
  have hund : ((a.prog? g).map (·.undecided)).getD false = false := by
    cases hp : a.prog? g with
    | none => rfl
    | some p => exact h p hp
  have hlacking : a.lacking g = [] := by simp [Alesh.lacking, hund]
  simp [Alesh.bringUp, hlacking]

/-- What the last fragment makes of the core: the page and its record written, nothing else of Tier 0 changed, its rebuild at an end
(R242). -/
theorem Alesh.decoded_writes {a : Alesh} {r new : Rebuild} {sl step : Nat} {bytes : Bytes} (hsame : new.gsid = r.gsid ∧ new.page = r.page ∧
    new.why = r.why ∧ new.col = r.col) (hlive : a.liveSlot r.gsid = some sl) (hund : ∀ p, a.prog? r.gsid = some p → p.undecided = false)
    (hr : a.errs.retired = []) (hc : a.ctl.core ≠ .occulted) (hchrono : a.chrono.buffer = []) (hlen : bytes.length = 65536)
    (hapart : a.pageAddr sl r.page + 65536 ≤ a.metaAddr sl r.page ∨ a.metaAddr sl r.page + 64 ≤ a.pageAddr sl r.page) :
    let b := ((a.decoded r new).writeRebuilt new step false bytes).bringUp r.gsid
    b.mem0.read (a.pageAddr sl r.page) 65536 = bytes ∧
      b.mem0.read (a.metaAddr sl r.page) 64 = (a.rebuiltRec r.gsid sl r.col r.page step (r.why == 0)
        (step != 0 || (r.why == 0 && (a.pageRec sl r.page).valid)) bytes).bytes ∧
      (∀ y, ¬(a.pageAddr sl r.page ≤ y ∧ y < a.pageAddr sl r.page + 65536) → ¬(a.metaAddr sl r.page ≤ y ∧ y < a.metaAddr sl r.page + 64) →
        b.mem0.get y = a.mem0.get y) ∧
      (∀ y ∈ b.take.rebuilds, ¬(y.gsid = r.gsid ∧ y.page = r.page ∧ y.why = r.why)) ∧ (r.why = 1 → r.gsid * 256 + r.page ∉ b.take.absent) ∧
      b.num O.DECODE_PAGES = wrapAdd (widthOf O.DECODE_PAGES) (a.num O.DECODE_PAGES) 1 ∧ b.slots = a.slots ∧ b.red = a.red := by
  obtain ⟨hg, hp, hw, hcol⟩ := hsame
  have hpages := a.decoded_samePages r new
  have hdrop := Alesh.rebuilds_decoded (a := a) (r := r) (new := new)
  have hcount : (a.decoded r new).num O.DECODE_PAGES = wrapAdd (widthOf O.DECODE_PAGES) (a.num O.DECODE_PAGES) 1 := Alesh.num_setNum_same ..
  generalize a.decoded r new = c at hpages hdrop hcount
  have hrec : c.rebuiltOf new sl step bytes = a.rebuiltRec r.gsid sl r.col r.page step (r.why == 0)
      (step != 0 || (r.why == 0 && (a.pageRec sl r.page).valid)) bytes := by
    rw [Alesh.rebuiltOf, hg, hp, hw, hcol, hpages.pageRec, hpages.rebuiltRec]
  have hlive' : c.liveSlot new.gsid = some sl := by rw [hg, Alesh.liveSlot, hpages.slots]; exact hlive
  have hchrono' : c.chrono.buffer = [] := by rw [hpages.frame]; exact hchrono
  have hr' : c.errs.retired = [] := by rw [hpages.errs]; exact hr
  have hc' : c.ctl.core ≠ .occulted := by rw [hpages.frame]; exact hc
  obtain ⟨absent, wanted, hsettles, hgone⟩ := Alesh.writeRebuilt_writes step bytes hlive' hchrono'
  rw [hrec, hp] at hsettles
  set rec_ := (a.rebuiltRec r.gsid sl r.col r.page step (r.why == 0) (step != 0 || (r.why == 0 && (a.pageRec sl r.page).valid)) bytes).bytes
  have hlenRec : rec_.length = 64 := PageRec.bytes_length _
  obtain ⟨hreadPage, hreadRec⟩ := Alesh.wrPage_read hr' hc' (sl := sl) (page := r.page) hlen hlenRec
    (by rw [hpages.pageAddr, hpages.metaAddr]; exact hapart)
  have hget (y : Nat) := Alesh.wrPage_get hr' (sl := sl) (page := r.page) hlen hlenRec (y := y)
  rw [hpages.pageAddr] at hreadPage
  rw [hpages.metaAddr] at hreadRec
  rw [hpages.pageAddr, hpages.metaAddr, hpages.mem0] at hget
  have hwframe := c.wrPage_frame sl r.page bytes rec_
  generalize c.wrPage sl r.page bytes rec_ = w at hsettles hreadPage hreadRec hget hwframe
  generalize c.writeRebuilt new step false bytes = d at hsettles
  obtain ⟨hframe, hdecoded⟩ := hsettles
  have hprogs : d.progs = a.progs := by rw [hframe, hwframe, hpages.frame]
  have hstays : d.bringUp r.gsid = d := Alesh.bringUp_of_decided fun p hprog => hund p (by rw [Alesh.prog?, ← hprogs]; exact hprog)
  have hmem : d.mem0 = w.mem0 := by rw [hframe]
  have htake : d.take.rebuilds = c.take.rebuilds ∧ d.take.absent = absent := by
    rw [hframe, hwframe]
    exact ⟨rfl, rfl⟩
  have hnum : d.num O.DECODE_PAGES = c.num O.DECODE_PAGES := hdecoded.trans (by rw [hwframe]; rfl)
  rw [hstays]
  dsimp only
  rw [hmem, htake.1, htake.2, hnum]
  refine ⟨hreadPage, hreadRec, hget, fun y hy hkey => ?_, fun hone => ?_, hcount, ?_, ?_⟩
  · have hnot := hdrop y hy
    rw [Rebuild.isFor_iff.2 (by rw [hg, hp, hw]; exact hkey)] at hnot
    contradiction
  · rw [← hg, ← hp]; exact hgone (hw.trans hone)
  · rw [hframe, hwframe, hpages.frame]
  · rw [hframe, hwframe, hpages.frame]

/-- A fragment that comes in reaches the rebuild (R241). -/
theorem Alesh.fragDataRx_of_arrives {a : Alesh} {now : Nat} {m : Pkt} (h : Arrives a tFragData m) (hj : a.joinedOrJob = true)
    (hlen : m.payload.length = 66368) (hst : (FragArgs.ofNat m.args).status = fOk) (hfirst : (FragArgs.ofNat m.args).first = 0)
    (hcount : (FragArgs.ofNat m.args).countM1 = 1023) :
    a.fragDataRx now m = (a.heard now m.src).fragDataIn m.src (FragArgs.ofNat m.args) m.payload := by
  unfold Alesh.fragDataRx
  dsimp only
  rw [Alesh.receive_of_arrives h rfl (by rw [hst, hfirst, hcount, if_pos rfl, hlen]; decide), Alesh.heard_joinedOrJob, hj, if_pos rfl]

/-- Settles O44, one kind of step at a time. -/
theorem fragmentsRebuildPages : Obligations.FragmentsRebuildPages := by
  unfold Obligations.FragmentsRebuildPages
  refine ⟨?_, ?_, ?_, ?_, ?_, ?_⟩
  · intro s now m h hp hj a x answer cut hrange
    have hanswer {st : Nat} {p : Bytes} (hfrag : a.fragment x m.src = (st, p, a)) : Gives (.fragReqRx now m) s (answer st p) := by
      refine gives_onCore (f := Alesh.fragReqRx now m) rfl ?_
      rw [Alesh.fragReqRx_of_arrives h hp hj hrange, show (s.alesh.heard now m.src).fragment _ m.src = _ from hfrag]
      exact Alesh.emit_frame ..
    refine ⟨fun hlayout => hanswer (Alesh.fragment_of_layout _ hlayout), fun hlayout hdata => ⟨fun hkept => ?_, ?_⟩,
      fun hlayout hparity => ⟨fun hkept => ?_, fun sl hkept hlost htable hgood => ?_⟩⟩
    · exact hanswer (Alesh.fragment_of_not_kept _ hlayout hdata hkept)
    · intro g sl hkept minor lost
      exact ⟨fun hminor => hanswer (Alesh.fragment_of_minority _ hlayout hdata hkept hminor.1 hminor.2),
        fun hhost hlost => hanswer (Alesh.fragment_of_absent _ hlayout hdata hkept hhost hlost),
        fun hhost hlost hgood => hanswer (Alesh.fragment_of_data _ hlayout hdata hkept hhost hlost hgood)⟩
    · exact hanswer (Alesh.fragment_of_no_parity _ hlayout hparity hkept)
    · exact hanswer (Alesh.fragment_of_parity _ hlayout hparity hkept hlost htable hgood)
  · intro s now m r sl q bytes h hj hlenP a x k hit frags zeros step at_ rec_ valid hst hfirst hcount hfind _ hdirect hwhy hgood henough hagree
      hbehind hdecode hlen hlive hund hr hchrono hapart
    refine gives_onCore (f := Alesh.fragDataRx now m) rfl ?_
    have hzeros : zeros.length = (a.zeroCols r).length := List.length_map ..
    have hin := Alesh.fragDataIn_decodes (a := a) (src := m.src) (p := m.payload) hst hfirst hcount hfind hdirect hwhy hgood
      (hzeros ▸ henough) hagree hbehind hdecode
    rw [Alesh.fragDataRx_of_arrives h hj hlenP hst hfirst hcount, show (s.alesh.heard now m.src).fragDataIn _ _ _ = _ from hin]
    exact Alesh.decoded_writes ⟨rfl, rfl, rfl, rfl⟩ hlive hund hr h.not_occulted hchrono hlen hapart
  · intro s now g page bnd col hj a r zeros hbusy hdepth hnext hcol hgiven hzeros henough
    refine gives_onCore (f := Alesh.rebuildRequest now) rfl ?_
    exact Alesh.rebuildRequest_asks rfl (by rw [Alesh.inJob_at]; exact hj) hbusy hdepth hnext hcol hgiven hzeros henough
  · intro s now id r q hj hvalid a hit hfind hq htries
    refine gives_onCore (f := Alesh.fragTimeout now id) rfl ?_
    exact Alesh.fragTimeout_resends rfl (by rw [Alesh.inJob_at]; exact hj) hfind hq htries
  · intro s now id r t hj hvalid a have_ open_ hget hretry hlate hdirect hlack henough
    refine gives_onCore (f := Alesh.degradedRetry now id) rfl ?_
    exact Alesh.degradedRetry_asks rfl (by rw [Alesh.inJob_at]; exact hj) (by rw [Alesh.valid_at]; exact hvalid) hget hretry hlate hdirect hlack
      henough
  · intro s now g gen e due hj hvalid a hfind
    refine gives_onCore (f := Alesh.retainTakeResend now g) rfl ?_
    exact Alesh.retainTakeResend_repeats rfl (by rw [Alesh.inJob_at]; exact hj) (by rw [Alesh.valid_at]; exact hvalid) hfind

end Sys2Proof.Machine
end

section
/-! SUPPORT. Route epochs, beacons and fencing (R181, R220, R224, R225, R323). -/
namespace Sys2Proof.Machine

/-! ### Packets and deadlines -/

theorem Alesh.ports_emit (a : Alesh) (p : Pkt) : (a.emit p).ports =
    if !a.maySend || (a.joining && p.kind == 0 && !isPull p) then a.ports
    else if p.dst = a.node then { a.ports with loop := a.ports.loop ++ [p] } else a.ports.enqueue (a.now + a.num O.FP_GAP_NS) p := by
  unfold Alesh.emit
  split
  · rfl
  · split <;> rfl

/-- What a packet makes of the ports depends on the core's state, its time, its name and its ports alone. -/
theorem Alesh.emit_ports_congr {a b : Alesh} (hctl : b.ctl = a.ctl) (hpending : b.memb.pending = a.memb.pending) (hclock : b.clock = a.clock)
    (hports : b.ports = a.ports) (hnode : b.num O.NODE_ID = a.num O.NODE_ID) (hgap : b.num O.FP_GAP_NS = a.num O.FP_GAP_NS) (p : Pkt) :
    (b.emit p).ports = (a.emit p).ports := by
  have hmay : b.maySend = a.maySend := by rw [Alesh.maySend, hctl, Alesh.maySend]
  have hjoin : b.joining = a.joining := by rw [Alesh.joining, hctl, hpending, Alesh.node, hnode]; rfl
  have hnow : b.now = a.now := by rw [Alesh.now, hclock, Alesh.now]
  rw [Alesh.ports_emit, Alesh.ports_emit, hmay, hjoin, hnow, hports, hgap, Alesh.node, Alesh.node, hnode]

theorem Alesh.due_of_valid {a : Alesh} (h : a.clock.valid = true) (t : Nat) : a.due t = decide (t ≤ a.now) := by
  rw [Alesh.due, h, Bool.true_and]; rfl

/-! ### Route epochs -/

theorem Alesh.linkEvent_num (a : Alesh) (k : Nat) :
    a.linkEvent.num k = if O.HEALTH_FLAGS = k then a.num O.HEALTH_FLAGS ||| 2 ^ hLinkEvent else a.num k := Alesh.num_flag ..

/-- A core with no transaction open has nothing to send again at a new route epoch (R181). -/
theorem routeChange_of_quiet {a : Alesh} (now : Nat) (hj : a.joinedOrJob = true) (hown : a.coding.own = []) :
    routeChange now a = (.ok, ((a.at now).setNum O.ROUTE_EPOCH ((a.num O.ROUTE_EPOCH + 1) % 65536)).linkEvent) := by
  have hja : (a.at now).joinedOrJob = true := by rw [Alesh.joinedOrJob, Alesh.inJob, Alesh.at_ctl]; exact hj
  rw [routeChange, require_pos hja]
  simp [Alesh.setRoute, Alesh.resendAll, hown]

/-- A resend touches transactions, packets and RESEND_COUNT alone. -/
theorem Alesh.resendTx_frame (a : Alesh) (t : OwnTx) : ∃ coding ports dict,
    a.resendTx t = { a with coding := coding, ports := ports, dict := dict } := by
  by_cases h : t.state.awaits = true
  · obtain ⟨ports, hsent⟩ := a.emitEach_frame (a.repeats t)
    rw [Alesh.resendTx_eq h, hsent]
    exact ⟨_, _, _, rfl⟩
  · unfold Alesh.resendTx
    cases hs : t.state with
    | held => exact ⟨_, _, _, rfl⟩
    | done => exact ⟨_, _, _, rfl⟩
    | _ => exact absurd (by rw [hs]; rfl) h

theorem Alesh.learnRoute_frame (a : Alesh) (m : Pkt) : ∃ coding ports dict,
    a.learnRoute m = { a with coding := coding, ports := ports, dict := dict } := by
  have hfold (l : List OwnTx) : ∀ b : Alesh, ∃ coding ports dict,
      l.foldl (fun b t => b.resendTx t) b = { b with coding := coding, ports := ports, dict := dict } := by
    induction l with
    | nil => exact fun b => ⟨_, _, _, rfl⟩
    | cons t l ih =>
      intro b
      obtain ⟨coding, ports, dict, hone⟩ := b.resendTx_frame t
      obtain ⟨coding', ports', dict', hrest⟩ := ih (b.resendTx t)
      exact ⟨coding', ports', dict', by rw [List.foldl_cons, hrest, hone]⟩
  unfold Alesh.learnRoute
  split
  · obtain ⟨coding, ports, dict, h⟩ := hfold a.coding.own (a.setNum O.ROUTE_EPOCH (m.route % 65536))
    exact ⟨coding, ports, dict, h⟩
  · exact ⟨_, _, _, rfl⟩

/-! ### Beacons -/

section
variable (a : Alesh) (src : Nat)

/-- A source that is heard is no suspect any more, and where it is watched its silence counts from now on. -/
theorem Alesh.hear_memb : (a.hear src).memb = { a.memb with
    suspects := a.memb.suspects.filter (· != src)
    heard := if (lookup? a.memb.heard src).isSome then assign a.memb.heard src (a.now + a.num O.BEACON_PERIOD_NS * a.num O.BEACON_MISS)
      else a.memb.heard } := by
  have hout (h : ¬a.memb.suspects.contains src = true) : a.memb.suspects.filter (· != src) = a.memb.suspects := by
    rw [List.filter_eq_self]
    intro n hn
    rw [bne_iff_ne]
    rintro rfl
    exact h (List.contains_iff_mem.2 hn)
  unfold Alesh.hear Alesh.beaconFrom
  by_cases hsus : a.memb.suspects.contains src = true <;> by_cases hwatch : (lookup? a.memb.heard src).isSome = true <;>
    simp only [Alesh.flitFrom, Alesh.setSuspects, hsus, hwatch, Bool.false_eq_true, if_true, if_false, Alesh.setDom_memb]
  · rfl
  · rw [hout hsus]; rfl
  · rw [hout hsus]

theorem Alesh.dom_hear {k : Nat} (hk : k ≠ O.LOSS_SUSPECT) : (a.hear src).dom k = a.dom k := by
  unfold Alesh.hear Alesh.beaconFrom
  dsimp only
  split
  · have h : ∀ (c : Alesh) l, (c.setSuspects l).dom k = c.dom k := fun c l => (Alesh.dom_setDom ..).trans (if_neg (Ne.symm hk))
    split <;> exact h ..
  · split <;> rfl

end

/-- Beacons go out one after another, each with the step epoch (R220). -/
theorem Alesh.foldl_beacon (l : List Nat) (b : Alesh) :
    l.foldl (fun (b : Alesh) (n : Nat) => b.sendHello hBeacon (b.num O.STEP_EPOCH) n []) b =
      b.emitEach (l.map fun n => b.cresol tHello n (helloArgs hBeacon (b.num O.STEP_EPOCH)) []) := by
  induction l generalizing b with
  | nil => rfl
  | cons n l ih =>
    have hdict : (b.sendHello hBeacon (b.num O.STEP_EPOCH) n []).dict = b.dict := Alesh.emit_dict ..
    rw [List.foldl_cons, ih, List.map_cons]
    simp only [Alesh.num_of_dict hdict, Alesh.cresol_of_dict hdict]
    rfl

/-- A period of the beacons of a core in a job (R220). -/
theorem Alesh.beacons_sends {a0 a : Alesh} {now : Nat} (ha : a0.at now = a) (hj : a.inJob = true) (hdue : a.due a.memb.beaconDue = true) :
    let b := a0.beacons now
    (∀ n ∈ a.watched, Sends b (a.cresol tHello n (helloArgs hBeacon (a.num O.STEP_EPOCH)) [])) ∧
      b.memb = { a.memb with beaconDue := a.now + a.num O.BEACON_PERIOD_NS } ∧ b = { a with memb := b.memb, ports := b.ports } := by
  set c : Alesh := { a with memb := { a.memb with beaconDue := a.now + a.num O.BEACON_PERIOD_NS } }
  set packets := a.watched.map fun n => a.cresol tHello n (helloArgs hBeacon (a.num O.STEP_EPOCH)) []
  have hsent : a0.beacons now = c.emitEach packets := by
    unfold Alesh.beacons
    simp only [ha, hj, hdue, Bool.and_self, if_true]
    exact Alesh.foldl_beacon ..
  obtain ⟨ports, hframe⟩ := c.emitEach_frame packets
  intro b
  have hb : b = c.emitEach packets := hsent
  refine ⟨fun n hn => ?_, ?_, ?_⟩
  · rw [hb]
    exact sends_emitEach (a := c) hj _ (List.mem_map.2 ⟨n, hn, rfl⟩)
  · rw [hb, hframe]
  · rw [hb, hframe]

/-- The flags of the peers that a core suspects: its place in the group, and in the cluster (R220). -/
def Alesh.peerFlags (a : Alesh) (n : Nat) (b : Alesh) : Alesh :=
  let c := match a.geo.members.findIdx? fun p => p.2 == n with
    | some r => b.flag O.PEER_FLAGS r
    | none => b
  match a.cluster.findIdx? (· == n) with
  | some i => c.flag O.PEER_FLAGS (32 + i)
  | none => c

theorem flag_testBit_mono {b : Alesh} {k i : Nat} (h : (b.num k).testBit i = true) (j : Nat) : ((b.flag k j).num k).testBit i = true := by
  rw [Alesh.num_flag, if_pos rfl, Nat.testBit_or, h, Bool.true_or]

theorem flag_testBit_self (b : Alesh) (k i : Nat) : ((b.flag k i).num k).testBit i = true := by
  rw [Alesh.num_flag, if_pos rfl, Nat.testBit_or, Nat.testBit_two_pow_self, Bool.or_true]

theorem flag_sameBut (b : Alesh) (k i : Nat) : SameBut [k] [] b (b.flag k i) := sameBut_setNum ..

theorem Alesh.peerFlags_frame (a : Alesh) (n : Nat) (b : Alesh) :
    a.peerFlags n b = { b with dict := (a.peerFlags n b).dict, evts := { b.evts with occ := (a.peerFlags n b).evts.occ } } := by
  unfold Alesh.peerFlags
  dsimp only
  split <;> split <;> rfl

theorem Alesh.peerFlags_sameBut (a : Alesh) (n : Nat) (b : Alesh) : SameBut [O.PEER_FLAGS] [] b (a.peerFlags n b) := by
  have hrefl : SameBut [O.PEER_FLAGS] [] b b := ⟨fun _ _ => rfl, fun _ _ => rfl⟩
  have hflag (c : Alesh) (i : Nat) (h : SameBut [O.PEER_FLAGS] [] b c) : SameBut [O.PEER_FLAGS] [] b (c.flag O.PEER_FLAGS i) :=
    ⟨fun k hk => ((flag_sameBut c _ i).1 k hk).trans (h.1 k hk), fun k hk => ((flag_sameBut c _ i).2 k hk).trans (h.2 k hk)⟩
  unfold Alesh.peerFlags
  dsimp only
  split <;> split
  · exact hflag _ _ (hflag _ _ hrefl)
  · exact hflag _ _ hrefl
  · exact hflag _ _ hrefl
  · exact hrefl

theorem Alesh.peerFlags_testBit {a : Alesh} {n i : Nat} (hi : (a.geo.members.findIdx? fun p => p.2 == n) = some i) (b : Alesh) :
    ((a.peerFlags n b).num O.PEER_FLAGS).testBit i = true := by
  unfold Alesh.peerFlags
  simp only [hi]
  split
  · exact flag_testBit_mono (flag_testBit_self ..) _
  · exact flag_testBit_self ..

/-- A watched member that stays silent becomes a suspect (R220). -/
theorem Alesh.beaconMiss_of_silent {a0 a : Alesh} {now n t : Nat} (ha : a0.at now = a) (hj : a.inJob = true)
    (ht : lookup? a.memb.heard n = some t) (hdue : a.due t = true) (hn : n ∉ a.memb.suspects) :
    a0.beaconMiss now n = (a.peerFlags n (a.setSuspects (a.memb.suspects ++ [n]))).raiseAttention := by
  unfold Alesh.beaconMiss
  simp only [ha, ht, hj, hdue, List.contains_eq_mem, hn, decide_false, Bool.not_false, Bool.and_self, if_true]
  rfl

/-! ### Fencing -/

/-- What a fence leaves of a core (R225). -/
def Alesh.fencedOff (b : Alesh) : Alesh :=
  (({ b with ports := { b.ports with queue := [], sending := [], loop := [] }, cep := { out := [], held := [] } }).setCore .occulted).ctrl fOcculted

/-- A packet that R180 does not test takes effect whatever its source (R218, R225). -/
theorem Alesh.receiveAny_of_accepted {a : Alesh} {now typ : Nat} {m : Pkt} {ok : Bool} (hlisten : a.idleToJob = true) (hversion : m.version = 1)
    (hdst : m.dst = a.node) (hvc : m.vc = typeVc typ) (hok : ok = true) (f : Alesh → Alesh) :
    a.receiveAny now typ m ok f = f (((a.at now).learnRoute m).hear m.src) := by
  have hlisten' : (a.at now).listens = true := by
    simpa [Alesh.listens, Alesh.idleToJob, Alesh.joinedOrJob, Alesh.inJob] using hlisten
  unfold Alesh.receiveAny Alesh.receiveFrom
  simp [hlisten', hversion, hdst, hvc, hok, Alesh.node]

theorem Alesh.occult_of_valid {a : Alesh} {now : Nat} {m : Pkt} (hlisten : a.idleToJob = true) (hversion : m.version = 1)
    (hdst : m.dst = a.node) (hvc : m.vc = 0) (hok : (a.at now).occultOk m = true) :
    a.occult now m = (((a.at now).learnRoute m).hear m.src).fencedOff :=
  Alesh.receiveAny_of_accepted hlisten hversion hdst (hvc.trans (by decide)) (by rw [Alesh.at_frame] at hok; exact hok) _

/-- OCCULT is sent again while its tries last (R224). -/
theorem Alesh.occultResend_of_due {a0 a : Alesh} {now n args tries due : Nat} {c : Bytes} (ha : a0.at now = a)
    (hfind : (a.memb.occults.find? fun o => o.1 == n) = some (n, args, c, tries, due)) (hdue : a.due due = true) :
    let b : Alesh := { a with memb := { a.memb with occults := a.memb.occults.filter (fun o => o.1 != n) ++
      (if tries + 1 < a.num O.RETRY_LIMIT then [(n, args, c, tries + 1, a.ackDue)] else []) } }
    a0.occultResend now n = if tries < a.num O.RETRY_LIMIT then b.send tOccult n args c else b := by
  unfold Alesh.occultResend
  simp only [ha, hfind, hdue, Bool.not_true, Bool.false_eq_true, if_false]

/-- Settles O38, one command at a time. -/
theorem routesBeaconsAndOccults : Obligations.RoutesBeaconsAndOccults := by
  unfold Obligations.RoutesBeaconsAndOccults
  refine ⟨?_, ?_, ?_, ?_, ?_, ?_⟩
  · intro s via now hadm hj hown
    have hroute : (s.alesh.taken via).num O.ROUTE_EPOCH = s.alesh.num O.ROUTE_EPOCH := taken_num _ _ _ (by decide)
    have hjt : (s.alesh.taken via).joinedOrJob = true := by rw [taken_frame]; exact hj
    have hownt : (s.alesh.taken via).coding.own = [] := by rw [taken_frame]; exact hown
    refine ends_of_ok rfl hadm (routeChange_of_quiet now hjt hownt) fun b hb => ?_
    rw [hroute] at hb
    set c := ((s.alesh.taken via).at now).setNum O.ROUTE_EPOCH ((s.alesh.num O.ROUTE_EPOCH + 1) % 65536)
    have hsame : SameBut [O.ROUTE_EPOCH, O.HEALTH_FLAGS, O.DICT_INBAND_COUNT] [] s.alesh c.linkEvent := by
      refine ⟨fun k hk => ?_, fun k _ => ?_⟩
      · simp only [List.mem_cons, List.not_mem_nil, or_false, not_or] at hk
        rw [Alesh.linkEvent_num, if_neg (Ne.symm hk.2.1)]
        exact (Alesh.num_setNum_ne _ _ (Ne.symm hk.1)).trans ((Alesh.num_at ..).trans (taken_num _ _ _ hk.2.2))
      · exact (Alesh.dom_at ..).trans (taken_dom ..)
    refine ⟨(hb.num _).trans ?_, ?_, ?_, hsame.of_dict (by rw [hb]), ?_⟩
    · rw [Alesh.linkEvent_num, if_neg (by decide)]
      exact Alesh.num_setNum_same ..
    · rw [hb.num]
      exact flag_testBit_self ..
    · rw [hb]
      show ((s.alesh.taken via).at now).health.now.lk + 1 = _
      rw [Alesh.at_health, taken_frame]
    · obtain ⟨clock, hat⟩ : ∃ x, (s.alesh.taken via).at now = { s.alesh.taken via with clock := x } := ⟨_, Alesh.at_frame ..⟩
      obtain ⟨dict, htaken⟩ : ∃ x, s.alesh.taken via = { s.alesh with dict := x } := ⟨_, taken_frame ..⟩
      have hc : c.linkEvent = { s.alesh with clock := clock, dict := c.linkEvent.dict, evts := c.linkEvent.evts, health := c.linkEvent.health } := by
        simp only [c]
        rw [hat, htaken]
        rfl
      rw [hb, hc]
  · intro s now m h hp
    refine gives_onCore (f := Alesh.helloRx now m m.payload.isEmpty id) rfl ?_
    rw [Alesh.helloRx, Alesh.receive_of_arrives h rfl (by rw [hp]; rfl)]
    have hmemb := (s.alesh.at now).hear_memb m.src
    rw [Alesh.at_memb] at hmemb
    refine ⟨rfl, ?_, fun t ht => ?_, fun n hn => ?_, fun k _ => Alesh.num_heard .., fun k hk => ?_⟩
    · show m.src ∉ (s.alesh.heard now m.src).memb.suspects
      rw [Alesh.heard, hmemb]
      simp
    · show lookup? (s.alesh.heard now m.src).memb.heard m.src = some ((s.alesh.heard now m.src).now + _)
      have hnow : (s.alesh.heard now m.src).now = (s.alesh.at now).now := by rw [Alesh.heard, Alesh.hear_frame]; rfl
      simp only [id, Alesh.num_heard, hnow]
      rw [Alesh.heard, hmemb]
      simp [ht, lookup?_assign]
    · show lookup? (s.alesh.heard now m.src).memb.heard n = _
      rw [Alesh.heard, hmemb]
      dsimp only
      split
      · rw [lookup?_assign, if_neg (Ne.symm hn)]
      · rfl
    · exact ((s.alesh.at now).dom_hear m.src (by simpa using hk)).trans (Alesh.dom_at ..)
  · intro s now hj hvalid a hdue
    refine gives_onCore (f := Alesh.beacons now) rfl ?_
    refine Alesh.beacons_sends rfl (by rw [Alesh.inJob_at]; exact hj) ?_
    rw [Alesh.due_of_valid (by rw [Alesh.valid_at]; exact hvalid)]
    exact decide_eq_true hdue
  · intro s now n t hj hvalid ht a hdue hn
    refine gives_onCore (f := Alesh.beaconMiss now n) rfl ?_
    have hdue' : a.due t = true := by
      rw [Alesh.due_of_valid (by rw [Alesh.valid_at]; exact hvalid)]
      exact decide_eq_true hdue
    rw [Alesh.beaconMiss_of_silent (a := a) rfl (by rw [Alesh.inJob_at]; exact hj) (by rw [Alesh.at_memb]; exact ht) hdue' hn]
    set c := a.setSuspects (a.memb.suspects ++ [n])
    have hframe := a.peerFlags_frame n c
    have hsame := a.peerFlags_sameBut n c
    have hbit := fun i hi => Alesh.peerFlags_testBit (a := a) (n := n) (i := i) hi c
    generalize a.peerFlags n c = d at *
    refine ⟨by rw [hframe]; rfl, ?_, ?_, fun i hi => hbit i hi, ⟨fun k hk => hsame.1 k hk, fun k hk => ?_⟩, ?_⟩
    · refine (hsame.2 _ (by simp)).trans ((Alesh.dom_setDom_same ..).trans ?_)
      rw [hframe]; rfl
    · show (d.evts.pending ||| 2 ^ 1).testBit 1 = true
      rw [Nat.testBit_or, Nat.testBit_two_pow_self, Bool.or_true]
    · exact (hsame.2 k (by simp)).trans ((Alesh.dom_setDom ..).trans (if_neg (by simpa [eq_comm] using hk)))
    · rw [hframe]; rfl
  · intro s now m hlisten hversion hdst hvc hok
    refine gives_onCore (f := Alesh.occult now m) rfl ?_
    rw [Alesh.occult_of_valid hlisten hversion hdst hvc hok, Alesh.hear_frame]
    obtain ⟨coding, ports, dict, hlearn⟩ := (s.alesh.at now).learnRoute_frame m
    rw [hlearn, Alesh.at_frame]
    exact ⟨rfl, flag_testBit_self .., rfl, rfl, rfl, rfl, rfl, rfl, rfl, rfl⟩
  · intro s now n args tries due c hvalid hj a hfind hdue
    refine gives_onCore (f := Alesh.occultResend now n) rfl ?_
    have hdue' : a.due due = true := by
      rw [Alesh.due_of_valid (by rw [Alesh.valid_at]; exact hvalid)]
      exact decide_eq_true hdue
    rw [Alesh.occultResend_of_due (a := a) rfl hfind hdue']
    split
    · next hlt =>
      refine ⟨fun _ => by apply Alesh.emit_ports_congr <;> rfl, fun h => absurd hlt (Nat.not_lt.2 h), ?_, ?_⟩
      · rw [Alesh.send_memb]
      · exact (Alesh.emit_frame ..).trans (by rw [Alesh.send_memb]; rfl)
    · next hge => exact ⟨fun h => absurd h hge, fun _ => rfl, rfl, rfl⟩

end Sys2Proof.Machine
end

section
/-! SUPPORT. Adopted slices: the reports of their holders, and what their new owner decides (R134, R203 to R207, R236). -/
namespace Sys2Proof.Machine

/-! ### What a decision may change -/

/-- From one core to another by what a decision may do: packets, transactions, reports and progress, the pages of the reduction pool, the
arrival at the Meridian. -/
structure Adopting (a b : Alesh) : Prop where
  frame : b = { a with coding := b.coding, ports := b.ports, red := b.red, progs := b.progs, take := b.take, mem0 := b.mem0, merid := b.merid
                       health := b.health, comm := b.comm, mgmt := b.mgmt, chrono := b.chrono }
  sends : ∀ p, Sends a p → Sends b p
  mem0 : a.errs.retired = [] → ∀ x, ¬a.InPool x → b.mem0.get x = a.mem0.get x

namespace Adopting

theorem dict {a b : Alesh} (h : Adopting a b) : b.dict = a.dict := by rw [h.frame]
theorem ctl {a b : Alesh} (h : Adopting a b) : b.ctl = a.ctl := by rw [h.frame]
theorem errs {a b : Alesh} (h : Adopting a b) : b.errs = a.errs := by rw [h.frame]
theorem slots {a b : Alesh} (h : Adopting a b) : b.slots = a.slots := by rw [h.frame]

theorem inJob {a b : Alesh} (h : Adopting a b) : b.inJob = a.inJob := by rw [Alesh.inJob, h.ctl, Alesh.inJob]

theorem inProgress {a b : Alesh} (h : Adopting a b) (hj : a.inJob = true) : b.inProgress = a.inProgress := by
  rw [Alesh.inProgress_of_inJob (h.inJob.trans hj), Alesh.inProgress_of_inJob hj, Alesh.num_of_dict h.dict]

theorem refl (a : Alesh) : Adopting a a := ⟨rfl, fun _ h => h, fun _ _ _ => rfl⟩

theorem trans {a b c : Alesh} (hab : Adopting a b) (hbc : Adopting b c) : Adopting a c := by
  refine ⟨hbc.frame.trans ?_, fun p h => hbc.sends p (hab.sends p h), fun hr x hx => ?_⟩
  · rw [hab.frame]
  · exact (hbc.mem0 (hab.errs ▸ hr) x fun hin => hx (hin.of_dict hab.dict)).trans (hab.mem0 hr x hx)

theorem foldl {ι : Type} {f : Alesh → ι → Alesh} (hf : ∀ a x, Adopting a (f a x)) (l : List ι) (a : Alesh) : Adopting a (l.foldl f a) := by
  induction l generalizing a with
  | nil => exact refl a
  | cons x l ih => exact (hf a x).trans (ih (f a x))

/-- The parts of the frame beside the ports and Tier 0. -/
theorem parts (a : Alesh) (coding : Coding) (red : Red) (progs : List Prog) (take : Take) (chrono : Chrono) :
    Adopting a { a with coding := coding, red := red, progs := progs, take := take, chrono := chrono } :=
  ⟨rfl, fun _ h => h, fun _ _ _ => rfl⟩

theorem emit (a : Alesh) (p : Pkt) : Adopting a (a.emit p) :=
  ⟨by rw [Alesh.emit_frame], fun _ h => h.emit p, fun _ _ _ => by rw [Alesh.emit_mem0]⟩

theorem send (a : Alesh) (typ dst args : Nat) (b : Bytes) : Adopting a (a.send typ dst args b) := emit a _

theorem sendAll (a : Alesh) (typ : Nat) (dsts : List Nat) (args : Nat) (b : Bytes) : Adopting a (a.sendAll typ dsts args b) :=
  foldl (fun a d => send a typ d args b) dsts a

theorem of_pooled {a b : Alesh} (h : Pooled a b) : Adopting a b :=
  ⟨by rw [h.frame], fun _ hp => hp.of_ports (by rw [h.frame]), h.mem0⟩

theorem of_arriving {a b : Alesh} (h : Arriving a b) : Adopting a b :=
  ⟨by rw [h.frame], h.sends, fun _ _ _ => by rw [h.frame]⟩

theorem adoptCommit (a : Alesh) (g holder seq band col row e : Nat) : Adopting a (a.adoptCommit g holder seq band col row e) := by
  unfold Alesh.adoptCommit
  split
  · exact refl a
  · exact (parts a _ a.red a.progs a.take a.chrono).trans (send ..)

theorem adoptAbandon (a : Alesh) (holder seq band col row e : Nat) : Adopting a (a.adoptAbandon holder seq band col row e) := send ..

theorem retainRel (a : Alesh) (g e : Nat) : Adopting a (a.retainRel g e) :=
  (sendAll a ..).trans (parts _ _ _ _ _ _)

theorem relForward (a : Alesh) (g : Nat) : Adopting a (a.relForward g) := by
  unfold Alesh.relForward
  dsimp only
  split
  · exact retainRel ..
  · exact refl a

theorem settleForward {a : Alesh} (hlast : a.inProgress < 2 ^ 48) (g : Nat) : Adopting a (a.settleForward g) := by
  unfold Alesh.settleForward
  dsimp only
  split
  · next hgo =>
    simp only [Bool.and_eq_true] at hgo
    have hj : a.inJob = true := Alesh.sound_inJob hgo.1.1.1
    have hfreed := (parts a _ a.red _ a.take a.chrono).trans (of_pooled (Pooled.freeGrad (({ a with coding := { a.coding with
      answers := a.coding.answers.filter fun x => x.gsid != g } } : Alesh).modProg g
        fun p => { p with last := a.inProgress, fence := a.inProgress, undecided := false, upd := none }) g a.inProgress))
    exact hfreed.trans (of_arriving (Arriving.tryArrive (by rw [hfreed.inProgress hj]; exact hlast)))
  · exact refl a

theorem startRetain (a : Alesh) (g e : Nat) : Adopting a (a.startRetain g e) :=
  (parts a a.coding a.red a.progs _ a.chrono).trans (sendAll ..)

end Adopting

/-! ### What the new owner tells a holder (R205) -/

/-- The answer to a holder under roll forward: COMMIT where it has the delta, ABANDON else. -/
def Alesh.answerForward (g e band col : Nat) (c : Alesh) (x : Answer) : Alesh :=
  if x.status == sHeld || x.status == sFolded then c.adoptCommit g x.holder x.seq band col x.row e
  else c.adoptAbandon x.holder x.seq band col x.row e

/-- The packet that a holder is answered with, for an action. -/
def Alesh.adoptPacket (a : Alesh) (band col e action : Nat) (x : Answer) : Pkt :=
  a.cresol tCommit x.holder (txArgs x.seq band col x.row true action e 0) []

theorem Alesh.adoptPacket_of_dict {a b : Alesh} (h : b.dict = a.dict) (band col e action : Nat) (x : Answer) :
    b.adoptPacket band col e action x = a.adoptPacket band col e action x := Alesh.cresol_of_dict h ..

theorem Adopting.answerForward (g e band col : Nat) (c : Alesh) (x : Answer) : Adopting c (c.answerForward g e band col x) := by
  unfold Alesh.answerForward
  split
  · exact adoptCommit ..
  · exact adoptAbandon ..

section
variable {a : Alesh} (g e band col : Nat)

/-- A core that may commit sends COMMIT with ADOPT = 1, and keeps the transaction (R205, R206). -/
theorem Alesh.adoptCommit_of_sound (hs : a.sound = true) (holder seq row : Nat) : ∃ own, a.adoptCommit g holder seq band col row e =
    ({ a with coding := { a.coding with own := own } } : Alesh).emit
      (a.cresol tCommit holder (txArgs seq band col row true 0 e 0) []) := by
  rw [Alesh.adoptCommit, if_neg (by simp [hs])]
  exact ⟨_, rfl⟩

theorem Alesh.sends_answerForward (hs : a.sound = true) (x : Answer) : Sends (a.answerForward g e band col x)
    (a.adoptPacket band col e (if x.status = sHeld ∨ x.status = sFolded then 0 else 1) x) := by
  have hj := Alesh.sound_inJob hs
  unfold Alesh.answerForward
  by_cases hst : x.status = sHeld ∨ x.status = sFolded
  · obtain ⟨own, hsent⟩ := Alesh.adoptCommit_of_sound g e band col hs x.holder x.seq x.row
    rw [if_pos (by simpa using hst), if_pos hst, hsent]
    exact sends_emit_self (a := { a with coding := { a.coding with own := own } }) hj _
  · rw [if_neg (by simpa using hst), if_neg hst]
    exact sends_emit_self hj _

/-- Sending keeps a core able to commit. -/
theorem Alesh.sound_answerForward (hs : a.sound = true) (x : Answer) : (a.answerForward g e band col x).sound = true := by
  unfold Alesh.answerForward
  split
  · obtain ⟨own, hsent⟩ := Alesh.adoptCommit_of_sound g e band col hs x.holder x.seq x.row
    rw [hsent, Alesh.emit_frame]
    exact hs
  · rw [Alesh.adoptAbandon, Alesh.send, Alesh.emit_frame]
    exact hs

/-- Under roll forward every holder of the list is answered. -/
theorem Alesh.sends_foldl_answerForward (l : List Answer) (hs : a.sound = true) : ∀ x ∈ l, Sends (l.foldl (Alesh.answerForward g e band col) a)
    (a.adoptPacket band col e (if x.status = sHeld ∨ x.status = sFolded then 0 else 1) x) := by
  induction l generalizing a with
  | nil => exact fun x hx => absurd hx List.not_mem_nil
  | cons y l ih =>
    intro x hx
    rcases List.mem_cons.1 hx with rfl | hx
    · exact (Adopting.foldl (Adopting.answerForward g e band col) l _).sends _ (Alesh.sends_answerForward g e band col hs x)
    · rw [← Alesh.adoptPacket_of_dict (Adopting.answerForward g e band col a y).dict]
      exact ih (Alesh.sound_answerForward g e band col hs y) x hx

end

/-! ### The decision (R205, R206) -/

/-- The answers of a slice's holders in force. -/
def Alesh.inForce (a : Alesh) (g : Nat) : List Answer :=
  (a.answersOf g).filter fun x => (a.heldFor g).any fun h => x.row == h.1 && x.holder == h.2

theorem Alesh.mem_inForce {a : Alesh} {g : Nat} {y : Answer} :
    y ∈ a.inForce g ↔ y ∈ a.coding.answers ∧ y.gsid = g ∧ (y.row, y.holder) ∈ a.heldFor g := by
  have hany : ((a.heldFor g).any fun h => y.row == h.1 && y.holder == h.2) = true ↔ (y.row, y.holder) ∈ a.heldFor g := by
    rw [List.any_eq_true]
    constructor
    · rintro ⟨h, hh, heq⟩
      simp only [Bool.and_eq_true, beq_iff_eq] at heq
      rwa [heq.1, heq.2]
    · exact fun h => ⟨_, h, by simp⟩
  rw [Alesh.inForce, List.mem_filter, hany, Alesh.answersOf, List.mem_filter, beq_iff_eq, and_assoc]

/-- The core with the decision of a slice noted for the record of its release (R279). -/
def Alesh.noteDecision (a : Alesh) (g : Nat) (fwd : Bool) : Alesh :=
  { a with chrono := { a.chrono with flags := assign a.chrono.flags g (if fwd then 4 else 8) } }

theorem Adopting.noteDecision (a : Alesh) (g : Nat) (fwd : Bool) : Adopting a (a.noteDecision g fwd) :=
  parts a a.coding a.red a.progs a.take _

section
variable {c : Alesh} {g band col : Nat} {p : Prog} (hplace : c.bandCol c.geo g = some (band, col)) (hprog : c.prog? g = some p)
  (hopen : p.undecided = true)

theorem Alesh.decide_of_none (hd : c.decision g = none) : c.decide_ g = c := by
  unfold Alesh.decide_
  rw [hd]

include hplace hprog hopen

theorem Alesh.decide_of_unsound (hd : c.decision g = some true) (hs : c.sound = false) : c.decide_ g = c.noteDecision g true := by
  unfold Alesh.decide_
  rw [hd, hplace, hprog]
  simp only [hopen, hs, Bool.not_true, Bool.not_false, Bool.false_eq_true, if_false, if_true]
  rfl

theorem Alesh.decide_of_forward (hd : c.decision g = some true) (hs : c.sound = true) : c.decide_ g =
    (((c.inForce g).foldl (Alesh.answerForward g c.inProgress band col) (c.noteDecision g true)).relForward g).settleForward g := by
  unfold Alesh.decide_
  rw [hd, hplace, hprog]
  simp only [hopen, hs, Bool.not_true, Bool.false_eq_true, if_false, if_true]
  rfl

theorem Alesh.decide_of_back (hd : c.decision g = some false) : c.decide_ g =
    ((((c.noteDecision g false).emitEach ((c.inForce g).map (c.adoptPacket band col c.inProgress 1))).modProg g
      fun p => { p with undecided := false }).startRetain g c.inProgress) := by
  have hfold := Alesh.foldl_send tCommit (fun x : Answer => x.holder) (fun x => txArgs x.seq band col x.row true 1 c.inProgress 0)
    (fun _ => []) (c.inForce g) (c.noteDecision g false)
  unfold Alesh.decide_
  rw [hd, hplace, hprog]
  simp only [hopen, Bool.not_true, Bool.false_eq_true, if_false]
  exact congrArg (fun b : Alesh => (b.modProg g fun p => { p with undecided := false }).startRetain g c.inProgress) hfold

end

/-- A decision to roll forward answers every holder in force. -/
theorem Alesh.forward_sends {c : Alesh} (hlast : c.inProgress < 2 ^ 48) (hs : c.sound = true) (g band col : Nat) :
    let b := (((c.inForce g).foldl (Alesh.answerForward g c.inProgress band col) (c.noteDecision g true)).relForward g).settleForward g
    Adopting c b ∧ ∀ y ∈ c.inForce g, Sends b (c.adoptPacket band col c.inProgress (if y.status = sHeld ∨ y.status = sFolded then 0 else 1) y) := by
  intro b
  have hfold : Adopting (c.noteDecision g true) _ :=
    Adopting.foldl (Adopting.answerForward g c.inProgress band col) (c.inForce g) (c.noteDecision g true)
  have hsends := Alesh.sends_foldl_answerForward (a := c.noteDecision g true) g c.inProgress band col (c.inForce g) hs
  have hrel := hfold.trans (.relForward _ g)
  have hin := hrel.inProgress (Alesh.sound_inJob (a := c.noteDecision g true) hs)
  have hsettle := Adopting.settleForward (by rw [hin]; exact hlast) g
  exact ⟨(Adopting.noteDecision c g true).trans (hrel.trans hsettle), fun y hy => hsettle.sends _ ((Adopting.relForward _ g).sends _ (hsends y hy))⟩

/-- A slice asks for its retained partials: the request is kept, and goes to every member (R236). -/
theorem Alesh.startRetain_frame (a : Alesh) (g e : Nat) : ∃ gens gen ports, a.startRetain g e = { a with
    take := { a.take with retainGen := gens, retainTakes := a.take.retainTakes.filter (fun r => r.1 != g) ++ [(g, gen, e, a.ackDue)] }
    ports := ports } := by
  unfold Alesh.startRetain
  simp only [Alesh.sendRetainTake_eq]
  generalize List.map _ _ = l
  exact ⟨_, lookupD 0 a.take.retainGen g + 1, (Alesh.emitEach_frame _ l).imp fun ports h => h⟩

/-- A decision to roll back abandons what every holder has, and asks for the slice's retained partials (R205, R236). -/
theorem Alesh.back_sends {c : Alesh} (hj : c.inJob = true) {g : Nat} {p : Prog} (hprog : c.prog? g = some p) (l : List Pkt) (e : Nat) :
    let b := (((c.noteDecision g false).emitEach l).modProg g fun p => { p with undecided := false }).startRetain g e
    Adopting c b ∧ (∀ q ∈ l, Sends b q) ∧ b.prog? g = some { p with undecided := false } ∧ ∃ r ∈ b.take.retainTakes, r.1 = g ∧ r.2.2.1 = e := by
  intro b
  set d := (c.noteDecision g false).emitEach l with hd
  set f := d.modProg g fun p => { p with undecided := false }
  have hemit : Adopting (c.noteDecision g false) d := .foldl .emit l _
  have hstart : Adopting f b := .startRetain ..
  have hprogs : d.progs = c.progs := by
    obtain ⟨ports, hsent⟩ := (c.noteDecision g false).emitEach_frame l
    rw [hd, hsent]
    rfl
  obtain ⟨gens, gen, ports, hframe⟩ := f.startRetain_frame g e
  have hb : b = _ := hframe
  refine ⟨((Adopting.noteDecision ..).trans hemit).trans ((Adopting.parts d d.coding d.red _ d.take d.chrono).trans hstart), fun q hq => ?_, ?_, ?_⟩
  · exact hstart.sends _ ((sends_emitEach (a := c.noteDecision g false) hj q hq).of_ports rfl)
  · have hmod := Alesh.prog?_modProg d g g (f := fun p => { p with undecided := false }) fun _ => rfl
    have hold : d.prog? g = some p := by rw [Alesh.prog?, hprogs]; exact hprog
    rw [if_pos rfl, hold] at hmod
    rw [hb]
    exact hmod
  · rw [hb]
    exact ⟨_, List.mem_append_right _ (List.mem_singleton_self _), rfl, rfl⟩

/-- What a decision does with each holder in force, by its outcome. -/
theorem Alesh.decide_decides {c : Alesh} {g band col : Nat} {p : Prog} (hj : c.inJob = true) (hlast : c.inProgress < 2 ^ 48)
    (hplace : c.bandCol c.geo g = some (band, col)) (hprog : c.prog? g = some p) (hopen : p.undecided = true) :
    (c.decision g = none → c.decide_ g = c) ∧
    (c.decision g = some false → (c.decide_ g).prog? g = some { p with undecided := false } ∧
      (∃ r ∈ (c.decide_ g).take.retainTakes, r.1 = g ∧ r.2.2.1 = c.inProgress) ∧
      ∀ y ∈ c.inForce g, Sends (c.decide_ g) (c.adoptPacket band col c.inProgress 1 y)) ∧
    (c.decision g = some true → c.sound = true → ∀ y ∈ c.inForce g,
      Sends (c.decide_ g) (c.adoptPacket band col c.inProgress (if y.status = sHeld ∨ y.status = sFolded then 0 else 1) y)) ∧
    (c.decision g = some true → c.sound = false → c.decide_ g = c.noteDecision g true) ∧
    Adopting c (c.decide_ g) := by
  have hback := Alesh.back_sends hj hprog ((c.inForce g).map (c.adoptPacket band col c.inProgress 1)) c.inProgress
  refine ⟨Alesh.decide_of_none, fun hd => ?_, fun hd hs => ?_, Alesh.decide_of_unsound hplace hprog hopen, ?_⟩
  · rw [Alesh.decide_of_back hplace hprog hopen hd]
    obtain ⟨-, hsends, hdecided, hasks⟩ := hback
    exact ⟨hdecided, hasks, fun y hy => hsends _ (List.mem_map_of_mem hy)⟩
  · rw [Alesh.decide_of_forward hplace hprog hopen hd hs]
    exact (Alesh.forward_sends hlast hs g band col).2
  · cases hd : c.decision g with
    | none => rw [Alesh.decide_of_none hd]; exact .refl c
    | some fwd =>
      cases fwd with
      | false => rw [Alesh.decide_of_back hplace hprog hopen hd]; exact hback.1
      | true =>
        cases hs : c.sound with
        | false => rw [Alesh.decide_of_unsound hplace hprog hopen hd hs]; exact .noteDecision ..
        | true => rw [Alesh.decide_of_forward hplace hprog hopen hd hs]; exact (Alesh.forward_sends hlast hs g band col).1

/-! ### Reports -/

/-- The core with a report kept in place of an earlier one of the same holder and row (R205). -/
def Alesh.keepAnswer (a : Alesh) (y : Answer) : Alesh :=
  { a with coding := { a.coding with
    answers := a.coding.answers.filter (fun z => !(z.gsid == y.gsid && z.holder == y.holder && z.row == y.row)) ++ [y] } }

/-- A report that arrives at the new owner reaches `adoptIn`. -/
theorem Alesh.adoptRx_of_arrives {a : Alesh} {now : Nat} {m : Pkt} (h : Arrives a tHoldAck m) (hp : m.payload = []) (hcodes : a.codes = true)
    (hadopt : (TxArgs.ofNat m.args).adopt = true) (hst : (TxArgs.ofNat m.args).mid / 16 ≤ 4) :
    a.holdAckRx now m = (a.heard now m.src).adoptIn m.src (TxArgs.ofNat m.args) := by
  unfold Alesh.holdAckRx
  rw [Alesh.receive_of_arrives h rfl (by simp [hp, hst, hadopt])]
  simp only [Alesh.codes_heard, hcodes, hadopt, Bool.not_true, Bool.false_eq_true, if_false, if_true]

/-- A holder in force of a slice that is not decided yet: its report is kept, and the decision is tried (R205). -/
theorem Alesh.adoptIn_of_open {a : Alesh} {src g : Nat} {x : TxArgs} {p : Prog} (hst : x.mid / 16 ≠ sDiscarded)
    (hepoch : a.epochOf x.epochLo = a.inProgress ∨ x.mid / 16 = sNone) (hcol : a.colSlice a.geo x.band x.col = some g) (hown : a.ownerOf g = a.node)
    (hheld : (x.row, src) ∈ a.heldFor g) (hprog : a.prog? g = some p) (hopen : p.undecided = true) (hd : a.decision g = none)
    (hreal : ∀ y ∈ a.coding.own, ¬(y.gsid = g ∧ y.real = false)) :
    a.adoptIn src x = (a.keepAnswer
      { gsid := g, holder := src, row := x.row, epoch := a.epochOf x.epochLo, status := x.mid / 16, seq := x.seq }).decide_ g := by
  have hany : ((a.heldFor g).any fun h => h.1 == x.row && h.2 == src) = true := List.any_eq_true.2 ⟨_, hheld, by simp⟩
  have hdrop : (a.dropOwn fun t => t.gsid == g && t.holder == src && t.row == x.row && t.epoch == a.epochOf x.epochLo && !t.real) = a := by
    have hall : (a.coding.own.filter fun t => !(t.gsid == g && t.holder == src && t.row == x.row && t.epoch == a.epochOf x.epochLo && !t.real)) =
        a.coding.own := by
      rw [List.filter_eq_self]
      intro t ht
      have := hreal t ht
      simp only [not_and, Bool.not_eq_false] at this
      by_cases hg : t.gsid = g <;> simp [hg, this]
    rw [Alesh.dropOwn, hall]
  have hlower : (x.mid / 16 == sHeld && decide (a.epochOf x.epochLo < a.inProgress)) = false := by
    rcases hepoch with h | h <;> simp [h, sHeld, sNone]
  have hother : (a.epochOf x.epochLo != a.inProgress && x.mid / 16 != sNone) = false := by
    rcases hepoch with h | h <;> simp [h]
  unfold Alesh.adoptIn
  simp only [hcol, hown, hany, hdrop, hlower, hother, hprog, hopen, hd, bne_self_eq_false, Bool.not_true, Bool.or_false, beq_eq_false_iff_ne.2 hst,
    ite_self, Bool.false_eq_true, if_false, Option.isSome_none, Bool.false_and]
  rfl

/-- Every report whose time has come goes out again, and waits anew (R204). -/
theorem Alesh.reportResend_sends {a0 a : Alesh} {now : Nat} (ha : a0.at now = a) (hj : a.inJob = true) (hvalid : a.clock.valid = true) :
    let b := a0.reportResend now
    (∀ r ∈ a.coding.reports, r.due ≤ a.now →
      Sends b (a.cresol tHoldAck r.dst (txArgs r.seq r.band r.col r.row true (r.status * 16) r.shown 0) []) ∧
      { r with due := a.ackDue } ∈ b.coding.reports) ∧
    (∀ r ∈ a.coding.reports, a.now < r.due → r ∈ b.coding.reports) ∧
    b = { a with coding := { a.coding with reports := b.coding.reports }, ports := b.ports } := by
  have hdue (t : Nat) : a.due t = decide (t ≤ a.now) := Alesh.due_of_valid hvalid t
  set go := a.coding.reports.filter fun r => a.due r.due
  set packets := go.map fun r => a.cresol tHoldAck r.dst (txArgs r.seq r.band r.col r.row true (r.status * 16) r.shown 0) []
  set c := a.emitEach packets with hc
  have hresend : a0.reportResend now = { c with coding := { c.coding with
      reports := modWhere (fun r => a.due r.due) (fun r => { r with due := a.ackDue }) c.coding.reports } } := by
    have hfold := Alesh.foldl_send tHoldAck (fun r : Report => r.dst) (fun r => txArgs r.seq r.band r.col r.row true (r.status * 16) r.shown 0)
      (fun _ => []) go a
    unfold Alesh.reportResend
    simp only [ha]
    exact congrArg (fun b : Alesh => { b with coding := { b.coding with
      reports := modWhere (fun r => a.due r.due) (fun r => { r with due := a.ackDue }) b.coding.reports } }) hfold
  obtain ⟨ports, hsent⟩ := a.emitEach_frame packets
  have hreports : c.coding.reports = a.coding.reports := by rw [hc, hsent]
  intro b
  have hb : b = _ := hresend
  refine ⟨fun r hr hlate => ⟨?_, ?_⟩, fun r hr hearly => ?_, ?_⟩
  · have hgo : r ∈ go := List.mem_filter.2 ⟨hr, by rw [hdue]; exact decide_eq_true hlate⟩
    rw [hb]
    exact (sends_emitEach hj _ (List.mem_map.2 ⟨r, hgo, rfl⟩)).of_ports rfl
  · rw [hb]
    exact mem_modWhere (f := fun r : Report => { r with due := a.ackDue }) (hreports ▸ hr) (by rw [hdue]; exact decide_eq_true hlate)
  · rw [hb]
    exact mem_modWhere_of_false (hreports ▸ hr) (by rw [hdue]; exact decide_eq_false (Nat.not_le.2 hearly))
  · rw [hb, hc, hsent]

/-- Settles O34: the report is kept, and each decision is its own lemma. -/
theorem adoptionsAreDecidedOnce : Obligations.AdoptionsAreDecidedOnce := by
  unfold Obligations.AdoptionsAreDecidedOnce
  refine ⟨?_, ?_⟩
  · intro s now m g p h hp hcodes hj a x st e ans c inForce hadopt hst hdiscard hlast hepoch hcol hown hheld hprog hopen hd hreal hplace
    refine gives_onCore (f := Alesh.holdAckRx now m) rfl ?_
    have hja : a.inJob = true := by rw [Alesh.inJob, Alesh.heard_ctl]; exact hj
    have hin : s.alesh.holdAckRx now m = c.decide_ g := by
      rw [Alesh.adoptRx_of_arrives h hp hcodes hadopt hst]
      exact Alesh.adoptIn_of_open hdiscard hepoch hcol hown hheld hprog hopen hd hreal
    rw [hin]
    clear_value a
    have hforce (y : Answer) (hy : y ∈ c.coding.answers) (hy' : inForce y) : y ∈ c.inForce g := Alesh.mem_inForce.2 ⟨hy, hy'⟩
    have hkept : Adopting a c := .parts a _ a.red a.progs a.take a.chrono
    obtain ⟨hwaits, hback, hforward, hunsound, hadopting⟩ := Alesh.decide_decides (c := c) (p := p) hja hlast hplace hprog hopen
    have hall := hkept.trans hadopting
    refine ⟨hwaits, fun hdec => ?_, fun hdec hs y hy hy' => hforward hdec hs y (hforce y hy hy'), fun hdec hs => ?_, hall.mem0, hall.slots,
      fun k _ => Alesh.num_of_dict hall.dict k, fun k _ => Alesh.dom_of_dict hall.dict k⟩
    · obtain ⟨hdecided, hasks, hsends⟩ := hback hdec
      exact ⟨⟨_, hdecided, rfl⟩, hasks, fun y hy hy' => hsends y (hforce y hy hy')⟩
    · rw [hunsound hdec hs]
      rfl
  · intro s now hj hvalid
    refine gives_onCore (f := Alesh.reportResend now) rfl ?_
    exact Alesh.reportResend_sends rfl (by rw [Alesh.inJob_at]; exact hj) (by rw [Alesh.valid_at]; exact hvalid)

end Sys2Proof.Machine
end

section
/-! SUPPORT. The hold book: transactions looked up and changed, and what does not depend on it (R166, R183, R190, R195). -/
namespace Sys2Proof.Machine

/-! ### Looking up a transaction -/

theorem find?_modWhere_map {α : Type} {p : α → Bool} {f : α → α} (hf : ∀ x, p x = true → p (f x) = true) (l : List α) :
    (modWhere p f l).find? p = (l.find? p).map f := by
  induction l with
  | nil => rfl
  | cons x l ih =>
    by_cases hx : p x = true
    · simp [modWhere, hx, hf x hx]
    · simp only [Bool.not_eq_true] at hx
      simp only [modWhere, List.map_cons, hx, Bool.false_eq_true, if_false, List.find?_cons]
      exact ih

theorem Alesh.key_of_holdTx? {a : Alesh} {src seq : Nat} {t : HoldTx} (h : a.holdTx? src seq = some t) : t.src = src ∧ t.seq = seq := by
  simpa using List.find?_some h

/-- A change of the one transaction of a source and SEQ is what the book then holds for them. -/
theorem Alesh.holdTx?_modHold {a : Alesh} {src seq : Nat} {t : HoldTx} (h : a.holdTx? src seq = some t) {f : HoldTx → HoldTx}
    (hf : ∀ y : HoldTx, y.src = src → y.seq = seq → (f y).src = src ∧ (f y).seq = seq) :
    (a.modHold (fun y => y.src == src && y.seq == seq) f).holdTx? src seq = some (f t) := by
  have hmap := find?_modWhere_map (p := fun y : HoldTx => y.src == src && y.seq == seq) (f := f) (fun y hy => by
    simp only [Bool.and_eq_true, beq_iff_eq] at hy ⊢
    exact hf y hy.1 hy.2) a.coding.hold
  exact hmap.trans (congrArg (Option.map f) h)

theorem Alesh.mem_hold_modHold {a : Alesh} {p : HoldTx → Bool} {y : HoldTx} (hy : y ∈ a.coding.hold) (hp : p y = false) (f : HoldTx → HoldTx) :
    y ∈ (a.modHold p f).coding.hold := mem_modWhere_of_false hy hp

/-- A transaction enters the book (R190). -/
def Alesh.enterHold (a : Alesh) (t : HoldTx) : Alesh := ({ a with coding := { a.coding with hold := a.coding.hold ++ [t] } }).setHoldUsed

theorem Alesh.holdTx?_enterHold {a : Alesh} {t : HoldTx} (h : a.holdTx? t.src t.seq = none) : (a.enterHold t).holdTx? t.src t.seq = some t := by
  have hfind : (a.coding.hold ++ [t]).find? (fun y => y.src == t.src && y.seq == t.seq) = some t := by
    rw [List.find?_append, show a.coding.hold.find? (fun y => y.src == t.src && y.seq == t.seq) = none from h]
    simp
  exact hfind

/-! ### What does not depend on the book -/

/-- Only the coding state and the room of the hold area in use have changed, and of the coding state no external entry. -/
structure Rebooked (a b : Alesh) : Prop where
  frame : b = { a with coding := b.coding, dict := b.dict }
  ext : b.coding.ext = a.coding.ext
  same : SameBut [O.HOLD_USED] [] a b

namespace Rebooked
variable {a b c : Alesh} (h : Rebooked a b)

theorem of_coding {coding : Coding} (hext : coding.ext = a.coding.ext) : Rebooked a { a with coding := coding } :=
  ⟨rfl, hext, fun _ _ => rfl, fun _ _ => rfl⟩

theorem setHoldUsed (a : Alesh) : Rebooked a a.setHoldUsed := ⟨rfl, rfl, sameBut_setNum ..⟩

include h

theorem trans (hbc : Rebooked b c) : Rebooked a c := by
  refine ⟨hbc.frame.trans ?_, hbc.ext.trans h.ext, fun k hk => (hbc.same.1 k hk).trans (h.same.1 k hk),
    fun k hk => (hbc.same.2 k hk).trans (h.same.2 k hk)⟩
  obtain ⟨x, y, hb⟩ : ∃ x y, b = { a with coding := x, dict := y } := ⟨_, _, h.frame⟩
  rw [hb]

theorem num {k : Nat} (hk : k ≠ O.HOLD_USED) : b.num k = a.num k := h.same.1 k (by simpa using hk)
theorem dom (k : Nat) : b.dom k = a.dom k := h.same.2 k (by simp)
theorem take : b.take = a.take := by rw [h.frame]
theorem memb : b.memb = a.memb := by rw [h.frame]
theorem node : b.node = a.node := h.num (by decide)
theorem ownShard : b.ownShard = a.ownShard := h.num (by decide)
theorem rd : b.rd = a.rd := Alesh.rd_of_num (fun _ hk => h.num hk) (by rw [h.frame]) (by rw [h.frame])

theorem ownerOf (g : Nat) : b.ownerOf g = a.ownerOf g := by
  simp only [Alesh.ownerOf, Alesh.homeOf, h.take, h.memb, h.node, h.ownShard]

theorem jobMap : b.jobMap = a.jobMap := by
  simp only [Alesh.jobMap, Alesh.rdLe, h.rd, h.num (k := O.JOB_MAP_ENTRIES) (by decide), h.num (k := O.JOB_MAP_BASE) (by decide)]

theorem geo : b.geo = a.geo := by
  simp only [Alesh.geo, h.dom, h.num (k := O.STRIPE_K) (by decide), h.num (k := O.STRIPE_M) (by decide), h.num (k := O.GROUP_NUMBER) (by decide),
    h.num (k := O.GROUP_RANK) (by decide), h.num (k := O.PADDED_PAGES) (by decide)]

theorem stagedGeo : b.stagedGeo = a.stagedGeo := by
  simp only [Alesh.stagedGeo, h.dom, h.num (k := O.GROUP_NUMBER) (by decide)]

theorem exts : b.exts = a.exts := by
  simp only [Alesh.exts, h.dom, h.num (k := O.EXT_COUNT) (by decide)]

theorem shardSlices (shard : Nat) : b.shardSlices shard = a.shardSlices shard := by
  rw [Alesh.shardSlices, Alesh.shardPages, h.ownShard, h.take, h.num (k := O.SHARD_PAGES) (by decide), Alesh.shardSlices, Alesh.shardPages]

theorem nodeShard (n : Nat) : b.nodeShard n = a.nodeShard n := by
  rw [Alesh.nodeShard, h.node, h.ownShard, Alesh.nodeShard]

theorem codedSeq (n : Nat) : b.codedSeq n = a.codedSeq n := by
  simp only [Alesh.codedSeq, h.nodeShard, h.shardSlices, h.take, h.memb, h.ownerOf]

theorem colSlice (g : Geo) (band col : Nat) : b.colSlice g band col = a.colSlice g band col := by
  rw [Alesh.colSlice, Alesh.seqSlice, h.codedSeq, h.take, h.geo]
  simp only [h.nodeShard, h.shardSlices]
  rfl

theorem groupOf : b.groupOf = a.groupOf := by
  funext n
  rw [Alesh.groupOf, Alesh.mapEntry?, h.jobMap, Alesh.groupOf, Alesh.mapEntry?]

theorem extState : b.extState = a.extState := by
  funext e
  rw [Alesh.extState, h.ext, Alesh.extState]

theorem groupFor (band row src : Nat) : b.groupFor band row src = a.groupFor band row src := by
  unfold Alesh.groupFor
  rw [h.groupOf, h.geo, h.exts, h.extState, h.node, h.num (k := O.GROUP_NUMBER) (by decide)]

theorem geoFor (alt : Bool) (group : Nat) : b.geoFor alt group = a.geoFor alt group := by
  rw [Alesh.geoFor, Alesh.geoOf, h.geo, h.stagedGeo, h.num (k := O.GROUP_NUMBER) (by decide), Alesh.geoFor, Alesh.geoOf]

theorem txGroup (t : HoldTx) : b.txGroup t = a.txGroup t := by
  rw [Alesh.txGroup, h.groupFor, h.num (k := O.GROUP_NUMBER) (by decide), Alesh.txGroup]

theorem ownerOfColumn (t : HoldTx) : b.ownerOfColumn t = a.ownerOfColumn t := by
  rw [Alesh.ownerOfColumn, h.txGroup, h.geoFor, h.colSlice, show b.ownerOf = a.ownerOf from funext h.ownerOf, Alesh.ownerOfColumn]

theorem cresol (typ dst args : Nat) (x : Bytes) : b.cresol typ dst args x = a.cresol typ dst args x := by
  simp only [Alesh.cresol, h.node, h.num (k := O.ROUTE_EPOCH) (by decide), h.num (k := O.MEMBERSHIP_EPOCH) (by decide)]

theorem emit_ports (p : Pkt) : (b.emit p).ports = (a.emit p).ports :=
  Alesh.emit_ports_congr (by rw [h.frame]) (by rw [h.frame]) (by rw [h.frame]) (by rw [h.frame]) (h.num (by decide)) (h.num (by decide)) p

/-- An acknowledgement sends what it sent before the book changed. -/
theorem ackTx (t : HoldTx) (status : Nat) : b.ackTx t status = { b with ports := (a.ackTx t status).ports } := by
  rw [Alesh.ackTx_frame]
  simp only [Alesh.ackTx, Alesh.holdAck, Alesh.send, h.ownerOfColumn, h.cresol, h.emit_ports]

end Rebooked

end Sys2Proof.Machine
end

section
/-! SUPPORT. The holder takes DELTAs and answers COMMIT and ABANDON (R190, R191, R195). -/
namespace Sys2Proof.Machine

/-! ### Packets that reach the holder -/

theorem Alesh.deltaRx_of_arrives {a : Alesh} {now : Nat} {m : Pkt} (h : Arrives a tDelta m) (hcodes : a.codes = true)
    (hdec : (deltaDecode m.payload).isSome = true) : a.deltaRx now m = (a.heard now m.src).deltaIn m.src (TxArgs.ofNat m.args) m.payload := by
  unfold Alesh.deltaRx
  rw [Alesh.receive_of_arrives h rfl hdec, if_pos (by rwa [Alesh.codes_heard])]

theorem Alesh.commitRx_of_arrives {a : Alesh} {now : Nat} {m : Pkt} {abandon : Bool} (h : Arrives a tCommit m) (hp : m.payload = [])
    (hcodes : a.codes = true) (hmid : (TxArgs.ofNat m.args).mid = if abandon then 1 else 0) :
    a.commitRx now m abandon = (a.heard now m.src).commitIn m.src (TxArgs.ofNat m.args) abandon := by
  unfold Alesh.commitRx
  dsimp only
  rw [Alesh.receive_of_arrives h rfl (by simp [hp, hmid]), if_pos (by rwa [Alesh.codes_heard])]

/-- A counter that rises leaves everything else. -/
theorem Alesh.count_counts (a : Alesh) (k : Nat) :
    ((a.count k).num k = satAdd (widthOf k) (a.num k) 1 ∧ SameBut [k] [] a (a.count k)) ∧ a.count k = { a with dict := (a.count k).dict } :=
  ⟨⟨Alesh.num_setNum_same .., sameBut_setNum ..⟩, rfl⟩

/-! ### DELTA -/

section
variable {a : Alesh} {src : Nat} {x : TxArgs} {p : Bytes}

theorem Alesh.deltaIn_below (ho : 32768 ≤ off16 x.seq (lookupD 0 a.coding.base src)) : a.deltaIn src x p = a.count O.CRESOL_DUP_COUNT := by
  rw [Alesh.deltaIn, if_pos ho]

theorem Alesh.deltaIn_inside (ho : off16 x.seq (lookupD 0 a.coding.base src) < 64) : a.deltaIn src x p = a.takeDelta src x p := by
  rw [Alesh.deltaIn, if_neg (by omega), if_neg (by omega)]

/-- A page held already, or one of a transaction that takes no more, is counted; the latter is answered with its state (R191). -/
theorem Alesh.takeDelta_again {t : HoldTx} (ht : a.holdTx? src x.seq = some t) (hdup : t.state ≠ .receiving ∨ ∃ q ∈ t.pages, q.1 = x.mid) :
    a.takeDelta src x p =
      if t.state = .receiving then a.count O.CRESOL_DUP_COUNT else (a.count O.CRESOL_DUP_COUNT).ackTx t t.state.status := by
  have hany : (t.pages.any (fun q => q.1 == x.mid) || !(t.state == .receiving)) = true := by
    rcases hdup with h | ⟨q, hq, hmid⟩
    · simp [h]
    · rw [Bool.or_eq_true]
      exact .inl (List.any_eq_true.2 ⟨q, hq, beq_iff_eq.2 hmid⟩)
  unfold Alesh.takeDelta
  simp only [ht, hany, if_true, beq_iff_eq]

/-- The transaction with one more page, HELD where that is its last (R191). -/
def HoldTx.withPage (t : HoldTx) (page : Nat) (p : Bytes) : HoldTx :=
  { t with pages := t.pages ++ [(page, p)], state := if t.pages.length + 1 = t.count then .held else .receiving }

/-- A further page of a transaction that is RECEIVING is kept, and the last is acknowledged (R191). -/
theorem Alesh.takeDelta_further {t : HoldTx} (ht : a.holdTx? src x.seq = some t) (hdec : (deltaDecode p).isSome = true)
    (hst : t.state = .receiving) (hnew : ∀ q ∈ t.pages, q.1 ≠ x.mid) (hcount : t.count = x.low + 1) (hband : t.band = x.band) (hcol : t.col = x.col)
    (hrow : t.row = x.row) (hepoch : t.epoch = a.epochOf x.epochLo)
    (hfits : t.old = true ∨ (a.ownsColumn t.alt (a.txGroup t) t.band t.col src = true ∧ (a.txSlot t).isSome = true ∧
      (t.alt = true ∨ a.keepsRow (a.txGroup t) t.band t.row (a.epochOf x.epochLo) = true)))
    (hroom : a.overrun t p = false) :
    let b := a.modHold (fun y => y.src == src && y.seq == x.seq) fun _ => t.withPage x.mid p
    a.takeDelta src x p = if t.pages.length + 1 = t.count then b.ackTx t sHeld else b := by
  have hany : (t.pages.any (fun q => q.1 == x.mid) || !(t.state == .receiving)) = false := by
    simp only [hst, beq_self_eq_true, Bool.not_true, Bool.or_false, List.any_eq_false, beq_iff_eq]
    exact hnew
  have hdecode : (deltaDecode p).isNone = false := by simpa using hdec
  have hgood : (!t.old && !(a.ownsColumn t.alt (a.txGroup t) t.band t.col src && (a.txSlot t).isSome
      && (t.alt || a.keepsRow (a.txGroup t) t.band t.row (a.epochOf x.epochLo)))) = false := by
    rcases hfits with h | ⟨h1, h2, h3⟩
    · simp [h]
    · rw [h1, h2]
      rcases h3 with h3 | h3 <;> simp [h3]
  have hbad : (t.count != x.low + 1 || (deltaDecode p).isNone || t.band != x.band || t.col != x.col || t.row != x.row
      || t.epoch != a.epochOf x.epochLo || (!t.old && !(a.ownsColumn t.alt (a.txGroup t) t.band t.col src && (a.txSlot t).isSome
      && (t.alt || a.keepsRow (a.txGroup t) t.band t.row (a.epochOf x.epochLo))))) = false := by
    rw [hgood, hdecode, hcount, hband, hcol, hrow, hepoch]
    simp
  unfold Alesh.takeDelta
  simp only [ht, hany, hbad, hroom, Bool.false_eq_true, if_false, List.length_append, List.length_singleton, beq_iff_eq]
  rfl

/-- The transaction that the first page of a DELTA opens, before it holds that page. -/
def TxArgs.opens (x : TxArgs) (src e : Nat) : HoldTx :=
  { src := src, seq := x.seq, band := x.band, col := x.col, row := x.row, epoch := e, state := .receiving, count := x.low + 1, pages := []
    adopt := x.adopt, commit := false, adopted := false, bad := [], alt := false, old := false }

/-- The reports that a bring-up DELTA of a row ends (R204). -/
def TxArgs.ends (x : TxArgs) (n : Nat) (r : Report) : Bool := r.group == n && r.band == x.band && r.col == x.col && r.row == x.row

/-- The core with a transaction opened: it is in the book, and a bring-up DELTA has ended the reports of its row (R190, R204). -/
def Alesh.opened (a : Alesh) (x : TxArgs) (n : Nat) (t : HoldTx) : Alesh :=
  if x.adopt then (a.enterHold t).endReport (x.ends n) else a.enterHold t

/-- The first page of a transaction opens it, and where it is the only one it is acknowledged (R190, R191). -/
theorem Alesh.takeDelta_first {n : Nat} (hnone : a.holdTx? src x.seq = none) (hdec : (deltaDecode p).isSome = true) (hbuild : a.take.building = false)
    (hgroup : a.groupFor x.band x.row src = some n) (howns : a.ownsColumn false n x.band x.col src = true)
    (hslot : (a.rowSlot a.geo n x.band x.row).isSome = true) (hkeeps : a.keepsRow n x.band x.row (a.epochOf x.epochLo) = true)
    (hroom : a.overrun (x.opens src (a.epochOf x.epochLo)) p = false) :
    let t := x.opens src (a.epochOf x.epochLo)
    let b := a.opened x n (t.withPage x.mid p)
    a.takeDelta src x p = if x.low = 0 then b.ackTx t sHeld else b := by
  have hdecode : (deltaDecode p).isNone = false := by simpa using hdec
  have hslot' : (a.rowSlot (a.geoOf false) n x.band x.row).isSome = true := hslot
  have htx : a.txGroup (x.opens src (a.epochOf x.epochLo)) = n := by
    rw [Alesh.txGroup, show a.groupFor (x.opens src _).band (x.opens src _).row (x.opens src _).src = some n from hgroup, Option.getD_some]
  have hends : (fun r : Report => r.group == a.txGroup (x.opens src (a.epochOf x.epochLo)) && r.band == x.band && r.col == x.col && r.row == x.row)
      = x.ends n := by rw [htx]; rfl
  intro t b
  unfold Alesh.takeDelta
  simp only [hnone, hgroup, hbuild, howns, hslot', hkeeps, hdecode, Bool.false_and, Bool.and_self, Bool.or_true, Bool.not_true, Bool.or_false,
    Bool.false_eq_true, if_false]
  refine (if_neg (Bool.eq_false_iff.1 hroom)).trans ?_
  have hb : b = if x.adopt then (a.enterHold (t.withPage x.mid p)).endReport (fun r : Report =>
    r.group == a.txGroup (x.opens src (a.epochOf x.epochLo)) && r.band == x.band && r.col == x.col && r.row == x.row)
      else a.enterHold (t.withPage x.mid p) := by rw [hends]; rfl
  rw [hb]
  by_cases hl : x.low = 0
  · rw [if_pos hl, if_pos (by simp [hl])]
    simp only [hl, t, HoldTx.withPage, TxArgs.opens]
    rfl
  · have hne : ¬(([] : List (Nat × Bytes)).length + 1 = x.low + 1) := fun h => hl (by simpa using h.symm)
    have hone : ¬((x.low + 1 == 1) = true) := by simpa using hl
    rw [if_neg hl, if_neg hone]
    simp only [t, HoldTx.withPage, TxArgs.opens, if_neg hone, if_neg hne]
    rfl

/-! ### The core once a transaction is kept -/

theorem Rebooked.modHold (a : Alesh) (p : HoldTx → Bool) (f : HoldTx → HoldTx) : Rebooked a (a.modHold p f) :=
  .trans (b := { a with coding := { a.coding with hold := modWhere p f a.coding.hold } }) (.of_coding rfl) (.setHoldUsed _)

/-- A core that acknowledges a transaction only where it is to. -/
theorem Rebooked.ackTx_ite {a b : Alesh} (h : Rebooked a b) (c : Prop) [Decidable c] (t : HoldTx) (status : Nat) :
    (if c then b.ackTx t status else b) = { b with ports := if c then (a.ackTx t status).ports else a.ports } := by
  split
  · exact h.ackTx t status
  · obtain ⟨x, y, rfl⟩ : ∃ x y, b = { a with coding := x, dict := y } := ⟨_, _, h.frame⟩
    rfl

theorem Rebooked.opened (a : Alesh) (x : TxArgs) (n : Nat) (t : HoldTx) : Rebooked a (a.opened x n t) := by
  have henter : Rebooked a (a.enterHold t) :=
    .trans (b := { a with coding := { a.coding with hold := a.coding.hold ++ [t] } }) (.of_coding rfl) (.setHoldUsed _)
  unfold Alesh.opened
  split
  · exact henter.trans (.of_coding rfl)
  · exact henter

/-- The book after a change agrees with the room that HOLD_USED shows, and every other transaction stays (R166). -/
def Kept (a b : Alesh) (src seq : Nat) : Prop :=
  b.num O.HOLD_USED = b.holdUsed ∧ SameBut [O.HOLD_USED] [] a b ∧ ∀ y ∈ a.coding.hold, ¬(y.src = src ∧ y.seq = seq) → y ∈ b.coding.hold

theorem Kept.modHold (a : Alesh) (src seq : Nat) (f : HoldTx → HoldTx) : Kept a (a.modHold (fun y => y.src == src && y.seq == seq) f) src seq := by
  refine ⟨Alesh.num_setNum_same .., (Rebooked.modHold a _ f).same, fun y hy hne => Alesh.mem_hold_modHold hy ?_ f⟩
  simpa using hne

theorem Alesh.opened_coding (a : Alesh) (x : TxArgs) (n : Nat) (t : HoldTx) :
    (a.opened x n t).coding.hold = a.coding.hold ++ [t] ∧ (a.opened x n t).dict = (a.enterHold t).dict := by
  unfold Alesh.opened
  split <;> exact ⟨rfl, rfl⟩

theorem Kept.opened (a : Alesh) (x : TxArgs) (n : Nat) (t : HoldTx) : Kept a (a.opened x n t) src seq := by
  obtain ⟨hhold, hdict⟩ := a.opened_coding x n t
  have hused : (a.opened x n t).holdUsed = (a.enterHold t).holdUsed := by rw [Alesh.holdUsed, hhold]; rfl
  refine ⟨?_, (Rebooked.opened a x n t).same, fun y hy _ => by rw [hhold]; exact List.mem_append_left _ hy⟩
  rw [hused, Alesh.num_of_dict hdict]
  exact Alesh.num_setNum_same ..

theorem Alesh.opened_frame (a : Alesh) (x : TxArgs) (n : Nat) (t : HoldTx) : a.opened x n t =
    { a with coding := { a.coding with hold := (a.opened x n t).coding.hold, reports := (a.opened x n t).coding.reports }
             dict := (a.opened x n t).dict } := by
  unfold Alesh.opened
  split <;> rfl

theorem Alesh.holdTx?_opened {t : HoldTx} (h : a.holdTx? t.src t.seq = none) (x : TxArgs) (n : Nat) :
    (a.opened x n t).holdTx? t.src t.seq = some t := by
  unfold Alesh.opened
  split <;> exact Alesh.holdTx?_enterHold h

theorem TxArgs.opens_withPage (x : TxArgs) (src e : Nat) (p : Bytes) : (x.opens src e).withPage x.mid p =
    { x.opens src e with pages := [(x.mid, p)], state := if x.low = 0 then .held else .receiving } := by
  simp [HoldTx.withPage, TxArgs.opens]

theorem Alesh.reports_opened (a : Alesh) (x : TxArgs) (n : Nat) (t : HoldTx) :
    (x.adopt = true → ∀ r ∈ (a.opened x n t).coding.reports, ¬(r.group = n ∧ r.band = x.band ∧ r.col = x.col ∧ r.row = x.row)) ∧
    (x.adopt = false → (a.opened x n t).coding.reports = a.coding.reports) := by
  constructor <;> intro hadopt <;> simp only [Alesh.opened, hadopt, if_true, Bool.false_eq_true, if_false]
  · rintro r hr ⟨hg, hb, hc, hrow⟩
    obtain ⟨-, hends⟩ := List.mem_filter.1 hr
    simp [TxArgs.ends, hg, hb, hc, hrow] at hends
  · rfl

/-! ### COMMIT and ABANDON -/

theorem Alesh.commitIn_below {abandon : Bool} (hadopt : x.adopt = false) (ho : 32768 ≤ off16 x.seq (lookupD 0 a.coding.base src)) :
    a.commitIn src x abandon = a.holdAck src x.seq x.band x.col x.row (if abandon then sDiscarded else sFolded) (a.epochOf x.epochLo) false := by
  unfold Alesh.commitIn
  simp only [hadopt, Bool.false_eq_true, if_false, if_pos ho]

section
variable (hadopt : x.adopt = false) (ho : off16 x.seq (lookupD 0 a.coding.base src) < 64)
include hadopt ho

theorem Alesh.commitIn_open {abandon : Bool} {t : HoldTx} (ht : a.holdTx? src x.seq = some t) :
    a.commitIn src x abandon = if abandon then a.abandonTx t false else a.commitTx t false := by
  have hwindow : ¬32768 ≤ off16 x.seq (lookupD 0 a.coding.base src) := by omega
  unfold Alesh.commitIn
  simp only [hadopt, Bool.false_eq_true, if_false, hwindow, Nat.not_le.2 ho, ht]

theorem Alesh.commitIn_orphan (ht : a.holdTx? src x.seq = none) : a.commitIn src x false = a.count O.COMMIT_ORPHAN_COUNT := by
  have hwindow : ¬32768 ≤ off16 x.seq (lookupD 0 a.coding.base src) := by omega
  unfold Alesh.commitIn
  simp only [hadopt, Bool.false_eq_true, if_false, hwindow, Nat.not_le.2 ho, ht]

/-- The transaction that an ABANDON opens where no DELTA did: it stands DISCARDED (R190). -/
def TxArgs.discards (x : TxArgs) (src e : Nat) : HoldTx := { x.opens src e with state := .discarded, count := 0, adopt := false }

/-- ABANDON for a transaction that no DELTA opened is answered DISCARDED, and the window passes it (R190, R195). -/
theorem Alesh.commitIn_abandon_none (ht : a.holdTx? src x.seq = none) :
    a.commitIn src x true =
      ({ a with
        coding := { a.coding with hold := a.coding.hold ++ [x.discards src (a.epochOf x.epochLo)] }
        ports := (a.holdAck src x.seq x.band x.col x.row sDiscarded (a.epochOf x.epochLo) false).ports }).retire src x.seq := by
  have hwindow : ¬32768 ≤ off16 x.seq (lookupD 0 a.coding.base src) := by omega
  unfold Alesh.commitIn
  simp only [hadopt, Bool.false_eq_true, if_false, hwindow, Nat.not_le.2 ho, ht, if_true]
  rw [show a.holdAck src x.seq x.band x.col x.row sDiscarded (a.epochOf x.epochLo) false = { a with ports := _ } from Alesh.emit_frame ..]
  rfl

end

/-- A transaction that holds every page is marked, to be folded once no lower epoch of its column is open (R195). -/
theorem Alesh.commitTx_held {t : HoldTx} (hst : t.state = .held ∨ t.state = .foldWait) (hkey : t.src = src ∧ t.seq = x.seq) :
    a.commitTx t false = a.modHold (fun y => y.src == src && y.seq == x.seq) fun y =>
      { y with commit := true, adopted := y.adopted || false, state := if a.lowerOpen t then .foldWait else y.state } := by
  obtain ⟨rfl, hseq⟩ := hkey
  rw [← hseq]
  unfold Alesh.commitTx
  rcases hst with h | h <;> simp only [h]

theorem Alesh.abandonTx_open {t : HoldTx} (hst : t.state.open_ = true) : a.abandonTx t false = a.discardTx { t with adopted := false } := by
  unfold Alesh.abandonTx
  cases h : t.state <;> simp_all [HoldState.open_]

/-! ### Retired transactions -/

theorem Alesh.retired_of_eq {b : Alesh} {src seq : Nat} (hmemb : b.memb = a.memb) (hbase : b.coding.base = a.coding.base)
    (hretired : b.coding.retired = a.coding.retired) :
    (b.retire src seq).coding.base = (a.retire src seq).coding.base ∧ (b.retire src seq).coding.retired = (a.retire src seq).coding.retired := by
  unfold Alesh.retire
  rw [show b.isMember src = a.isMember src by rw [Alesh.isMember, hmemb, Alesh.isMember], hbase, hretired]
  split
  · exact ⟨hbase, hretired⟩
  · exact ⟨rfl, rfl⟩

/-- What a retired SEQ leaves in the book: every transaction of another source, and every open one (R190). -/
theorem Alesh.mem_hold_retire {y : HoldTx} (hy : y ∈ a.coding.hold) {src : Nat} (hkeep : y.src ≠ src ∨ y.state.open_ = true) (seq : Nat) :
    y ∈ (a.retire src seq).coding.hold := by
  unfold Alesh.retire
  split
  · exact hy
  · refine List.mem_filter.2 ⟨hy, ?_⟩
    rcases hkeep with h | h <;> simp [h]

theorem Alesh.maySend_of_idleToJob (h : a.idleToJob = true) : a.maySend = true := by
  have hcore : a.ctl.core = .idle ∨ a.ctl.core = .joined ∨ a.ctl.core = .running ∨ a.ctl.core = .degraded := by
    simpa [Alesh.idleToJob, Alesh.joinedOrJob, Alesh.inJob] using h
  rcases hcore with hc | hc | hc | hc <;> simp [Alesh.maySend, hc]

/-- Outside a join every packet of a core that takes packets goes out. -/
theorem sends_emit_of_idleToJob (h : a.idleToJob = true) (hj : a.joining = false) (q : Pkt) : Sends (a.emit q) q := by
  simp only [Alesh.emit, Alesh.maySend_of_idleToJob h, hj, Bool.not_true, Bool.false_and, Bool.or_false, Bool.false_eq_true, if_false]
  split
  · exact .inr (by simp)
  · exact .inl (by simp [Ports.enqueue_queue])

/-- An open transaction that is dropped: the core before its answer. -/
def Alesh.dropped (a : Alesh) (src seq : Nat) : Alesh :=
  a.modHold (fun y => y.src == src && y.seq == seq) fun y => { y with state := .discarded, pages := [] }

section
variable {t : HoldTx} {seq : Nat} (hsrc : t.src = src) (hseq : t.seq = seq)
include hsrc hseq

theorem Alesh.discardTx_eq : a.discardTx t = ({ a.dropped src seq with ports := (a.ackTx t sDiscarded).ports }).retire src seq := by
  subst hsrc hseq
  exact congrArg (fun b => b.retire t.src t.seq) ((Rebooked.modHold a _ _).ackTx t sDiscarded)

theorem Alesh.dict_discardTx : (a.discardTx t).dict = (a.dropped src seq).dict := by
  rw [Alesh.discardTx_eq hsrc hseq, Alesh.retire_frame]

theorem Alesh.ports_discardTx : (a.discardTx t).ports = (a.ackTx t sDiscarded).ports := by
  rw [Alesh.discardTx_eq hsrc hseq, Alesh.retire_frame]

theorem Alesh.discardTx_frame : a.discardTx t =
    { a with coding := { a.coding with hold := (a.discardTx t).coding.hold, base := (a.discardTx t).coding.base
                                       retired := (a.discardTx t).coding.retired }
             dict := (a.discardTx t).dict, ports := (a.discardTx t).ports } := by
  rw [Alesh.dict_discardTx hsrc hseq, Alesh.ports_discardTx hsrc hseq, Alesh.discardTx_eq hsrc hseq, Alesh.retire_frame]
  rfl

theorem Alesh.hold_discardTx : ∀ y ∈ (a.discardTx t).coding.hold, y.src = src → y.seq = seq → y.state = .discarded ∧ y.pages = [] := by
  intro y hy hsrc' hseq'
  rw [Alesh.discardTx_eq hsrc hseq] at hy
  rcases exists_or_mem_of_mem_modWhere (Alesh.mem_of_mem_hold_retire hy) with ⟨z, rfl⟩ | ⟨-, hnot⟩
  · exact ⟨rfl, rfl⟩
  · simp [hsrc', hseq'] at hnot

theorem Alesh.retired_discardTx : (a.discardTx t).coding.base = (a.retire src seq).coding.base ∧
    (a.discardTx t).coding.retired = (a.retire src seq).coding.retired := by
  rw [Alesh.discardTx_eq hsrc hseq]
  exact Alesh.retired_of_eq rfl rfl rfl

theorem Alesh.sameBut_discardTx : SameBut [O.HOLD_USED] [] a (a.discardTx t) :=
  SameBut.of_dict (Rebooked.modHold a (fun y => y.src == src && y.seq == seq) _).same (Alesh.dict_discardTx hsrc hseq)

/-- The owner of the column hears that the transaction is DISCARDED (R195). -/
theorem Alesh.sends_discardTx (h : a.idleToJob = true) (hj : a.joining = false) : Sends (a.discardTx t)
    (a.cresol tHoldAck (a.ownerOfColumn t) (txArgs seq t.band t.col t.row t.adopted (sDiscarded * 16) t.epoch 0) []) := by
  have hack : Sends (a.ackTx t sDiscarded)
      (a.cresol tHoldAck (a.ownerOfColumn t) (txArgs t.seq t.band t.col t.row t.adopted (sDiscarded * 16) t.epoch 0) []) :=
    sends_emit_of_idleToJob h hj _
  rw [hseq] at hack
  exact hack.of_ports (Alesh.ports_discardTx hsrc hseq)

end

end

/-! ### The obligation -/

/-- Settles O32, one lemma per place of the SEQ in the window and per state of the transaction. -/
theorem holdersHoldAndAnswer : Obligations.HoldersHoldAndAnswer := by
  unfold Obligations.HoldersHoldAndAnswer
  intro s now m hcodes a x e o answer counts held sameTx
  have hanswer (st : Nat) (t : HoldTx) (hseq : t.seq = x.seq) (h : sameTx t) :
      (a.ackTx t st).ports = answer (a.ownerOfColumn t) st t.adopted := by
    obtain ⟨hband, hcol, hrow, hepoch⟩ := h
    simp only [answer, ← hband, ← hcol, ← hrow, ← hepoch, ← hseq]
    rfl
  refine ⟨fun h hdec => ?_, fun h hp hadopt hmid => ?_, fun h hp hadopt hmid => ?_⟩
  · have hin : s.alesh.deltaRx now m = a.deltaIn m.src x m.payload := Alesh.deltaRx_of_arrives h hcodes hdec
    refine ⟨fun ho => ?_, ?_, fun t ho ht => ⟨?_, fun hdup => ?_⟩⟩
    · refine gives_onCore (f := Alesh.deltaRx now m) rfl ?_
      rw [hin, Alesh.deltaIn_below ho]
      exact Alesh.count_counts ..
    · intro ho hnone hbuild n hgroup howns hslot hkeeps t hroom
      refine gives_onCore (f := Alesh.deltaRx now m) rfl ?_
      rw [hin, Alesh.deltaIn_inside ho, Alesh.takeDelta_first hnone hdec hbuild hgroup howns hslot hkeeps hroom, (Rebooked.opened ..).ackTx_ite]
      refine ⟨?_, ?_, Kept.opened .., ?_, a.reports_opened ..⟩
      · refine (Alesh.holdTx?_opened (t := t.withPage x.mid m.payload) hnone x n).trans ?_
        exact congrArg some (x.opens_withPage m.src e m.payload)
      · exact congrArg (fun p => if x.low = 0 then p else a.ports) (hanswer sHeld t rfl ⟨rfl, rfl, rfl, rfl⟩)
      · rw [Alesh.opened_frame]
    · intro hst hnew hcount hsame hfits hroom
      obtain ⟨hband, hcol, hrow, hepoch⟩ := hsame
      refine gives_onCore (f := Alesh.deltaRx now m) rfl ?_
      rw [hin, Alesh.deltaIn_inside ho, Alesh.takeDelta_further ht hdec hst hnew hcount hband hcol hrow hepoch hfits hroom, (Rebooked.modHold ..).ackTx_ite]
      have hbook := Alesh.holdTx?_modHold ht (f := fun _ => t.withPage x.mid m.payload)
        fun _ _ _ => show t.src = _ ∧ t.seq = _ from Alesh.key_of_holdTx? ht
      refine ⟨fun hfull => ⟨hbook.trans ?_, ?_⟩, fun hmore => ⟨hbook.trans ?_, if_neg hmore⟩, Kept.modHold .., rfl⟩
      · rw [HoldTx.withPage, if_pos hfull]
      · exact (if_pos hfull).trans (hanswer sHeld t (Alesh.key_of_holdTx? ht).2 ⟨hband, hcol, hrow, hepoch⟩)
      · rw [HoldTx.withPage, if_neg hmore, hst]
    · refine gives_onCore (f := Alesh.deltaRx now m) rfl ?_
      rw [hin, Alesh.deltaIn_inside ho, Alesh.takeDelta_again ht hdup]
      obtain ⟨hcounts, hframe⟩ := a.count_counts O.CRESOL_DUP_COUNT
      split
      · exact ⟨hcounts, fun _ => rfl, rfl⟩
      · rw [Alesh.ackTx_frame]
        exact ⟨hcounts, fun hr => absurd hr ‹_›, rfl⟩
  · have hin : s.alesh.commitRx now m false = a.commitIn m.src x false := Alesh.commitRx_of_arrives h hp hcodes hmid
    refine ⟨fun ho => ?_, fun ho hnone => ?_, fun t ho ht => ?_⟩
    · refine gives_onCore (f := fun b => Alesh.commitRx now m false b) rfl ?_
      rw [hin, Alesh.commitIn_below hadopt ho]
      exact Alesh.emit_frame ..
    · refine gives_onCore (f := fun b => Alesh.commitRx now m false b) rfl ?_
      rw [hin, Alesh.commitIn_orphan hadopt ho hnone]
      exact Alesh.count_counts ..
    · have hcommit : s.alesh.commitRx now m false = a.commitTx t false := hin.trans (Alesh.commitIn_open hadopt ho ht)
      refine ⟨fun hst => ?_, fun hst => ?_, fun hst => ?_, fun hst => ?_⟩ <;>
        refine gives_onCore (f := fun b => Alesh.commitRx now m false b) rfl ?_ <;> rw [hcommit]
      · rw [show a.commitTx t false = a.count O.COMMIT_ORPHAN_COUNT by simp only [Alesh.commitTx, hst]]
        exact Alesh.count_counts ..
      · rw [Alesh.commitTx_held hst (Alesh.key_of_holdTx? ht)]
        refine ⟨?_, Kept.modHold .., rfl⟩
        refine (Alesh.holdTx?_modHold ht ?_).trans (by rw [Bool.or_false])
        exact fun _ hs hq => ⟨hs, hq⟩
      · simp only [Alesh.commitTx, hst]
      · simp only [Alesh.commitTx, hst]
  · have hidle : a.idleToJob = true := by rw [Alesh.idleToJob, Alesh.heard_ctl, Alesh.heard_joinedOrJob]; exact h.1
    have hin : s.alesh.commitRx now m true = a.commitIn m.src x true := Alesh.commitRx_of_arrives h hp hcodes hmid
    refine ⟨fun ho => ?_, fun ho hnone => ?_, fun t ho ht hst => ?_, fun t ho ht hst => ?_⟩ <;>
      refine gives_onCore (f := fun b => Alesh.commitRx now m true b) rfl ?_
    · rw [hin, Alesh.commitIn_below hadopt ho]
      exact Alesh.emit_frame ..
    · rw [hin, Alesh.commitIn_abandon_none hadopt ho hnone]
      refine ⟨?_, Alesh.retired_of_eq rfl rfl rfl, fun y hy hkeep => Alesh.mem_hold_retire (List.mem_append_left _ hy) hkeep _, ?_⟩
      · rw [Alesh.retire_frame]
        rfl
      · rw [Alesh.retire_frame]
    · have hdrop : s.alesh.commitRx now m true = a.discardTx { t with adopted := false } := by
        rw [hin, Alesh.commitIn_open hadopt ho ht, if_pos rfl, Alesh.abandonTx_open hst]
      obtain ⟨hsrc, hseq⟩ := Alesh.key_of_holdTx? ht
      rw [hdrop]
      exact ⟨Alesh.hold_discardTx hsrc hseq, Alesh.retired_discardTx hsrc hseq, Alesh.sends_discardTx hsrc hseq hidle,
        Alesh.sameBut_discardTx hsrc hseq, Alesh.discardTx_frame hsrc hseq⟩
    · rw [hin, Alesh.commitIn_open hadopt ho ht, if_pos rfl]
      simp only [Alesh.abandonTx, hst]

end Sys2Proof.Machine
end

section
/-! SUPPORT. ARRIVE at the combiner: what is kept, and the RELEASE that the last one sends (R198, R199). -/
namespace Sys2Proof.Machine

/-! ### Stable order -/

theorem mem_insertBy {α : Type} (key : α → Nat) {l : List α} {x y : α} : y ∈ insertBy key l x ↔ y = x ∨ y ∈ l := by
  induction l with
  | nil => simp [insertBy]
  | cons z l ih =>
    unfold insertBy
    split
    · simp
    · rw [List.mem_cons, ih, List.mem_cons]
      exact or_left_comm

theorem mem_sortBy {α : Type} (key : α → Nat) {l : List α} {y : α} : y ∈ sortBy key l ↔ y ∈ l := by
  have hfold : ∀ acc : List α, y ∈ l.foldl (insertBy key) acc ↔ y ∈ acc ∨ y ∈ l := by
    induction l with
    | nil => simp
    | cons x l ih =>
      intro acc
      rw [List.foldl_cons, ih, mem_insertBy, List.mem_cons, or_comm (a := y = x), or_assoc]
  exact (hfold []).trans (by simp)

/-! ### The arrivals held -/

theorem Alesh.mem_arriveIn {a : Alesh} {n e : Nat} {y : Nat × Nat} : y ∈ (a.arriveIn n e).arrivals ↔ y = (n, e) ∨ y ∈ a.merid.arrivals := by
  simp only [Alesh.arriveIn, List.mem_append, mem_sortBy, List.mem_singleton]
  rw [or_comm (a := y ∈ List.drop _ _), or_left_comm, ← List.mem_append, List.take_append_drop]

/-- The core that holds one ARRIVE more; the root's list of those that have arrived may have grown too (R394). -/
def Alesh.arrived (a : Alesh) (n e : Nat) (l : List Nat) : Alesh := { a with merid := a.arriveIn n e, comm := { a.comm with arrived := l } }

/-- The combiner keeps an ARRIVE that is new and not for an epoch released (R198). -/
theorem Alesh.noteArrive_kept {a : Alesh} {n e : Nat} (hcomb : a.combiner = a.node) (hj : a.inJob = true) (hopen : a.openRelease ≤ e)
    (hnew : (n, e) ∉ a.merid.arrivals) : ∃ l, a.noteArrive n e = (a.arrived n e l).tryRelease := by
  have hstale : (decide (e < a.openRelease)) = false := decide_eq_false (Nat.not_lt.2 hopen)
  have hkeep : (a.combiner != a.node || !a.inJob || a.merid.arrivals.contains (n, e) || decide (e < a.openRelease)) = false := by
    simp [hcomb, hj, hstale, hnew]
  unfold Alesh.noteArrive
  dsimp only
  split
  · refine ⟨_, if_neg (Bool.eq_false_iff.1 ?_)⟩
    exact hkeep
  · exact ⟨a.comm.arrived, if_neg (Bool.eq_false_iff.1 hkeep)⟩

/-! ### RELEASE -/

/-- The member has arrived for the epoch that is open. -/
def Alesh.came (a : Alesh) (n : Nat) : Prop := ∃ y ∈ a.merid.arrivals, y.1 = n ∧ a.openRelease ≤ y.2

theorem Alesh.came_iff {a : Alesh} {n : Nat} :
    (a.merid.arrivals.any fun x => x.1 == n && decide (a.openRelease ≤ x.2)) = true ↔ a.came n := by
  simp [Alesh.came]

theorem Alesh.tryRelease_of_missing {a : Alesh} (h : ∃ n ∈ a.activeMembers, ¬a.came n) : a.tryRelease = a := by
  obtain ⟨n, hn, hmissing⟩ := h
  refine if_neg fun hall => hmissing ?_
  rw [Bool.and_eq_true] at hall
  exact Alesh.came_iff.1 (List.all_eq_true.1 hall.2 n hn)

/-- The value of the RELEASE of the open epoch (R198). -/
def Alesh.releaseAt (a : Alesh) : Nat :=
  max ((if a.merid.again then a.merid.last else a.merid.sent.2) + a.num O.MERIDIAN_PERIOD_NS) (a.now + a.num O.MERIDIAN_LEAD_NS)

/-- The core that has sent RELEASE of an epoch at a value. -/
def Alesh.released (a : Alesh) (x r : Nat) : Alesh :=
  ({ a with merid := { a.merid with sent := (x, r), again := false } }).emitEach
    ((a.releaseTo x).map fun n => a.cresol tHello n (helloArgs hRelease x) (leBytes 8 r ++ leBytes 8 0))

theorem Alesh.tryRelease_of_all {a : Alesh} (hj : a.inJob = true) (hcomb : a.combiner = a.node) (hcut : a.cutReady a.openRelease = true)
    (horder : a.orderHolds a.openRelease = false) (hstep : a.num O.STEP_EPOCH < a.openRelease) (hall : ∀ n ∈ a.activeMembers, a.came n) :
    a.tryRelease = (a.released a.openRelease a.releaseAt).startOrders := by
  refine (if_pos ?_).trans (congrArg Alesh.startOrders ?_)
  · simp only [hj, hcomb, hcut, horder, hstep, beq_self_eq_true, Bool.and_self, Bool.not_false, decide_true, Bool.true_and, List.all_eq_true]
    exact fun n hn => Alesh.came_iff.2 (hall n hn)
  · exact Alesh.foldl_send tHello id (fun _ => helloArgs hRelease a.openRelease) (fun _ => leBytes 8 a.releaseAt ++ leBytes 8 0) _ _

theorem Alesh.released_frame (a : Alesh) (x r : Nat) :
    ∃ ports, a.released x r = { a with merid := { a.merid with sent := (x, r), again := false }, ports := ports } :=
  Alesh.emitEach_frame { a with merid := { a.merid with sent := (x, r), again := false } } _

theorem Alesh.sends_released {a : Alesh} (hj : a.inJob = true) (x r : Nat) : ∀ n ∈ a.releaseTo x,
    Sends (a.released x r) (a.cresol tHello n (helloArgs hRelease x) (leBytes 8 r ++ leBytes 8 0)) := fun n hn =>
  sends_emitEach (a := { a with merid := { a.merid with sent := (x, r), again := false } }) hj _ (List.mem_map.2 ⟨n, hn, rfl⟩)

/-! ### Orders that leave -/

/-- Only the order in force, its requests and the ports have moved. -/
structure Ordered (a b : Alesh) : Prop where
  frame : b = { a with merid := { a.merid with ordersOut := b.merid.ordersOut, orderDue := b.merid.orderDue }, mgmt := b.mgmt, ports := b.ports }

namespace Ordered

theorem refl (a : Alesh) : Ordered a a := ⟨rfl⟩

theorem trans {a b c : Alesh} (hab : Ordered a b) (hbc : Ordered b c) : Ordered a c := by
  refine ⟨hbc.frame.trans ?_⟩
  rw [hab.frame]

theorem foldl {ι : Type} {f : Alesh → ι → Alesh} (hf : ∀ a x, Ordered a (f a x)) (l : List ι) (a : Alesh) : Ordered a (l.foldl f a) := by
  induction l generalizing a with
  | nil => exact refl a
  | cons x l ih => exact (hf a x).trans (ih (f a x))

theorem askInBand (a : Alesh) (dst key : Nat) (data : Bytes) : Ordered a (a.askInBand dst key data) := by
  unfold Alesh.askInBand Alesh.send
  rw [Alesh.emit_frame]
  exact ⟨rfl⟩

theorem writeOrder (a : Alesh) (dsts : List Nat) : Ordered a (a.writeOrder dsts) := by
  unfold Alesh.writeOrder
  split
  · exact foldl (fun b d => askInBand b ..) dsts a
  · exact refl a

theorem startOrders (a : Alesh) : Ordered a a.startOrders := by
  unfold Alesh.startOrders
  split
  · split
    · exact trans (b := { a with merid := { a.merid with ordersOut := true, orderDue := a.ackDue } }) ⟨rfl⟩ (writeOrder ..)
    · exact refl a
  · exact refl a

end Ordered

/-! ### The first two clauses of O36 -/

/-- An ARRIVE that leaves a member to come is kept, and nothing goes out (R198). -/
theorem Alesh.noteArrive_of_missing {a : Alesh} {n e : Nat} (hcomb : a.combiner = a.node) (hj : a.inJob = true) (hopen : a.openRelease ≤ e)
    (hnew : (n, e) ∉ a.merid.arrivals) (hmissing : ∃ k ∈ a.activeMembers, ¬(k = n ∨ a.came k)) :
    ∃ l, a.noteArrive n e = a.arrived n e l := by
  obtain ⟨l, hnote⟩ := Alesh.noteArrive_kept hcomb hj hopen hnew
  obtain ⟨k, hk, hnot⟩ := hmissing
  refine ⟨l, hnote.trans (Alesh.tryRelease_of_missing ⟨k, hk, ?_⟩)⟩
  rintro ⟨y, hy, rfl, hle⟩
  rcases Alesh.mem_arriveIn.1 hy with rfl | hy
  · exact hnot (.inl rfl)
  · exact hnot (.inr ⟨y, hy, rfl, hle⟩)

/-- The last ARRIVE that the open epoch lacks sends RELEASE to every member (R198). -/
theorem Alesh.noteArrive_of_all {a : Alesh} {n e : Nat} (hcomb : a.combiner = a.node) (hj : a.inJob = true) (hopen : a.openRelease ≤ e)
    (hnew : (n, e) ∉ a.merid.arrivals) (hcut : a.cutReady a.openRelease = true) (horder : a.orderHolds a.openRelease = false)
    (hstep : a.num O.STEP_EPOCH < a.openRelease) (hall : ∀ k ∈ a.activeMembers, k = n ∨ a.came k) :
    ∃ l, a.noteArrive n e = ((a.arrived n e l).released a.openRelease a.releaseAt).startOrders := by
  obtain ⟨l, hnote⟩ := Alesh.noteArrive_kept hcomb hj hopen hnew
  refine ⟨l, hnote.trans (Alesh.tryRelease_of_all (a := a.arrived n e l) hj hcomb hcut horder hstep fun k hk => ?_)⟩
  rcases hall k hk with rfl | ⟨y, hy, hkey⟩
  · exact ⟨(k, e), Alesh.mem_arriveIn.2 (.inl rfl), rfl, hopen⟩
  · exact ⟨y, Alesh.mem_arriveIn.2 (.inr hy), hkey⟩

/-- What the RELEASE that an ARRIVE lets go leaves (R198). -/
theorem Alesh.released_startOrders {a : Alesh} (hj : a.inJob = true) (n e : Nat) (l : List Nat) (x r : Nat) :
    let b := ((a.arrived n e l).released x r).startOrders
    b.merid.sent = (x, r) ∧ (∀ k ∈ a.releaseTo x, Sends b (a.cresol tHello k (helloArgs hRelease x) (leBytes 8 r ++ leBytes 8 0))) ∧
      b = { a with merid := b.merid, comm := { a.comm with arrived := b.comm.arrived }, mgmt := b.mgmt, ports := b.ports } := by
  obtain ⟨ports, hreleased⟩ := (a.arrived n e l).released_frame x r
  have hsent := Alesh.sends_released (a := a.arrived n e l) hj x r
  have hsends := (Arriving.startOrders ((a.arrived n e l).released x r)).sends
  obtain ⟨hframe⟩ := Ordered.startOrders ((a.arrived n e l).released x r)
  generalize ((a.arrived n e l).released x r).startOrders = b at hframe hsends
  rw [hreleased] at hframe
  obtain ⟨out, due, mgmt, ps, rfl⟩ : ∃ out due mgmt ps, b = { a.arrived n e l with
    merid := { a.arriveIn n e with sent := (x, r), again := false, ordersOut := out, orderDue := due }, mgmt := mgmt, ports := ps } :=
    ⟨_, _, _, _, hframe⟩
  exact ⟨rfl, fun k hk => hsends _ (hsent k hk), rfl⟩

/-- A RELEASE for the epoch in progress is kept until its value (R199). -/
theorem Alesh.releaseIn_kept {a : Alesh} {e r : Nat} (hj : a.inJob = true) (he : e = a.inProgress) (hnone : a.merid.release = none)
    (hahead : a.clock.valid = true → a.now ≤ r) :
    a.releaseIn e r = ({ a with merid := { a.merid with release := some (e, r) } }).setNum O.MERIDIAN_SCHEDULED r := by
  obtain ⟨-, hjoining⟩ := maySend_of_inJob hj
  have hcore : (a.ctl.core == .joined) = false := by
    rcases (by simpa [Alesh.inJob] using hj : a.ctl.core = .running ∨ a.ctl.core = .degraded) with hc | hc <;> simp [hc]
  have hpassed : (a.clock.valid && decide (r < a.now)) = false := by
    simpa using hahead
  unfold Alesh.releaseIn
  simp only [hjoining, hcore, hj, hnone, hpassed, ← he, bne_self_eq_false, Bool.not_true, Option.isSome_none, Bool.or_self, Bool.false_eq_true, if_false]

end Sys2Proof.Machine
end

section
/-! SUPPORT. What the parts of a release leave alone (R200): the tokens, the schedule, the changes that wait, and the work of later
epochs. -/
namespace Sys2Proof.Machine

/-! ### The Chronograph -/

def chronoNums : List Nat := [O.CHRONO_SEQ, O.CHRONO_HEAD, O.CHRONO_TAIL, O.CHRONO_OVERRUN_COUNT]

/-- Only Tier 0, the Chronograph's own state and its registers have moved. -/
structure Recorded (a b : Alesh) : Prop where
  frame : b = { a with dict := b.dict, chrono := b.chrono, mem0 := b.mem0 }
  same : SameBut chronoNums [] a b

namespace Recorded
variable {a b c : Alesh}

theorem refl (a : Alesh) : Recorded a a := ⟨rfl, fun _ _ => rfl, fun _ _ => rfl⟩

theorem trans (hab : Recorded a b) (hbc : Recorded b c) : Recorded a c where
  frame := by
    refine hbc.frame.trans ?_
    rw [hab.frame]
  same := ⟨fun k hk => (hbc.same.1 k hk).trans (hab.same.1 k hk), fun k hk => (hbc.same.2 k hk).trans (hab.same.2 k hk)⟩

theorem ite {p : Prop} [Decidable p] (hb : Recorded a b) (hc : Recorded a c) : Recorded a (if p then b else c) := by
  split
  · exact hb
  · exact hc

theorem foldl {ι : Type} {f : Alesh → ι → Alesh} (hf : ∀ a x, Recorded a (f a x)) (l : List ι) (a : Alesh) : Recorded a (l.foldl f a) := by
  induction l generalizing a with
  | nil => exact refl a
  | cons x l ih => exact (hf a x).trans (ih (f a x))

theorem setNum (a : Alesh) {k : Nat} (hk : k ∈ chronoNums) (v : Nat) : Recorded a (a.setNum k v) where
  frame := rfl
  same := ⟨fun _ hj => Alesh.num_setNum_ne a v fun h => hj (h ▸ hk), fun _ _ => rfl⟩

theorem wr (a : Alesh) (addr : Nat) (b : Bytes) : Recorded a (a.wr addr b) := by
  rw [Alesh.wr_frame]
  exact ⟨rfl, fun _ _ => rfl, fun _ _ => rfl⟩

theorem chronoRoom (need fuel : Nat) (a : Alesh) : Recorded a (a.chronoRoom need fuel) := by
  induction fuel generalizing a with
  | zero => exact refl a
  | succ fuel ih => exact ite (refl a) (((setNum a (by decide) _).trans (setNum _ (by decide) _)).trans (ih _))

theorem chronoPut (a : Alesh) (b : Bytes) : Recorded a (a.chronoPut b) := (wr a _ b).trans (setNum _ (by decide) _)

theorem chronoFit (a : Alesh) : Recorded a a.chronoFit := ite (refl a) ((setNum a (by decide) _).trans (setNum _ (by decide) _))

theorem chronoWrite (a : Alesh) (r : ChronoRec) : Recorded a (a.chronoWrite r) := by
  unfold Alesh.chronoWrite
  extract_lets len b rest pad c d
  have hc : Recorded a c := (chronoFit a).trans (chronoRoom ..)
  have hd : Recorded c d := ite (refl c) (chronoPut ..)
  exact ite (refl a) ((hc.trans hd).trans (chronoPut ..))

theorem chronoFix (a : Alesh) (typ step : Nat) (body : Bytes) (holes : List (Nat × Nat × Nat)) : Recorded a (a.chronoFix typ step body holes) := by
  unfold Alesh.chronoFix
  extract_lets r b
  have hb : Recorded a b := setNum a (by decide) _
  exact ite (refl a) (ite (hb.trans (chronoWrite ..)) (ite (hb.trans ⟨rfl, fun _ _ => rfl, fun _ _ => rfl⟩) (hb.trans (setNum _ (by decide) _))))

end Recorded

/-! ### What stands over a release -/

/-- What no part of a release touches: the core state and the job's end, tokens and Tier 1, evt_meridian, what waits for a Meridian,
and the schedule. -/
structure ReleaseView where
  core : CoreState
  jobStop : Option Nat
  cep : Cep
  mem1 : Memory
  meridian : Bool
  pending : Option Bytes
  buildAt : Option (Nat × Nat)
  switchAt : Option (Nat × Nat)
  cut : Option (Nat × Nat × Nat)
  release : Option (Nat × Nat)
  last : Nat
  order : Option (Nat × Nat × Nat)

def Alesh.releaseView (a : Alesh) : ReleaseView :=
  { core := a.ctl.core, jobStop := a.ctl.jobStop, cep := a.cep, mem1 := a.mem1, meridian := a.evts.meridian, pending := a.memb.pending
    buildAt := a.take.buildAt, switchAt := a.take.switchAt, cut := a.plate.cut, release := a.merid.release, last := a.merid.last
    order := a.merid.order }

/-- The numbers that a release sets and none of its parts touches. -/
def releaseNums : List Nat := [O.STEP_EPOCH, O.MERIDIAN_LAST_RELEASE, O.MERIDIAN_SCHEDULED]

/-- From one core to another by what a part of a release may do: the view stands, no work is taken, no change announced, and an
ARRIVE that is new is for an epoch above the one released. -/
structure Releasing (a b : Alesh) : Prop where
  view : b.releaseView = a.releaseView
  nums : ∀ k ∈ releaseNums, b.num k = a.num k
  cluster : b.dom O.CLUSTER_NODES = a.dom O.CLUSTER_NODES
  plan : a.coding.extPlan = [] → b.coding.extPlan = []
  contribs : ∀ c ∈ b.red.contribs, c ∈ a.red.contribs
  held : ∀ q ∈ b.red.held, q ∈ a.red.held
  tokens : ∀ t ∈ b.pub.tokens, t ∈ a.pub.tokens
  arrivals : a.inJob = true → ∀ y ∈ b.merid.arrivals, y ∈ a.merid.arrivals ∨ a.num O.STEP_EPOCH < y.2

/-- All of the core that `Releasing` speaks of, as one value: a part that leaves it is a part of a release. -/
def Alesh.releaseState (a : Alesh) :
    ReleaseView × Dict × List (Nat × Nat × Nat) × List Contrib × List Part × List (Nat × Nat) × List (Nat × Nat) :=
  (a.releaseView, a.dict, a.coding.extPlan, a.red.contribs, a.red.held, a.pub.tokens, a.merid.arrivals)

namespace Releasing
variable {a b c : Alesh}

/-- A part that sets no register and takes only from what waits. -/
theorem of_dict (hview : b.releaseView = a.releaseView) (hdict : b.dict = a.dict) (hplan : a.coding.extPlan = [] → b.coding.extPlan = [])
    (hcontribs : ∀ c ∈ b.red.contribs, c ∈ a.red.contribs) (hheld : ∀ q ∈ b.red.held, q ∈ a.red.held)
    (htokens : ∀ t ∈ b.pub.tokens, t ∈ a.pub.tokens) (harrivals : ∀ y ∈ b.merid.arrivals, y ∈ a.merid.arrivals) : Releasing a b :=
  ⟨hview, fun k _ => Alesh.num_of_dict hdict k, Alesh.dom_of_dict hdict _, hplan, hcontribs, hheld, htokens, fun _ y hy => .inl (harrivals y hy)⟩

theorem of_state (h : b.releaseState = a.releaseState) : Releasing a b := by
  simp only [Alesh.releaseState, Prod.mk.injEq] at h
  obtain ⟨hview, hdict, hplan, hcontribs, hheld, htokens, harrivals⟩ := h
  exact of_dict hview hdict (hplan ▸ id) (fun _ h => hcontribs ▸ h) (fun _ h => hheld ▸ h) (fun _ h => htokens ▸ h) fun _ h => harrivals ▸ h

/-- A part of the coding state that announces nothing. -/
theorem of_plan (hstate : { a with coding := b.coding }.releaseState = b.releaseState) (hplan : a.coding.extPlan = [] → b.coding.extPlan = []) :
    Releasing a b := by
  simp only [Alesh.releaseState, Prod.mk.injEq] at hstate
  obtain ⟨hview, hdict, -, hcontribs, hheld, htokens, harrivals⟩ := hstate
  exact of_dict hview.symm hdict.symm hplan (fun _ h => hcontribs ▸ h) (fun _ h => hheld ▸ h) (fun _ h => htokens ▸ h) fun _ h => harrivals ▸ h

theorem refl (a : Alesh) : Releasing a a := of_state rfl

theorem inJob (h : Releasing a b) : b.inJob = a.inJob := by
  have hcore : b.ctl.core = a.ctl.core := congrArg ReleaseView.core h.view
  rw [Alesh.inJob, hcore, Alesh.inJob]

theorem step (h : Releasing a b) : b.num O.STEP_EPOCH = a.num O.STEP_EPOCH := h.nums _ (by decide)

theorem trans (hab : Releasing a b) (hbc : Releasing b c) : Releasing a c where
  view := hbc.view.trans hab.view
  nums k hk := (hbc.nums k hk).trans (hab.nums k hk)
  cluster := hbc.cluster.trans hab.cluster
  plan h := hbc.plan (hab.plan h)
  contribs x hx := hab.contribs x (hbc.contribs x hx)
  held x hx := hab.held x (hbc.held x hx)
  tokens x hx := hab.tokens x (hbc.tokens x hx)
  arrivals hj y hy := by
    rcases hbc.arrivals (hab.inJob.trans hj) y hy with h | h
    · exact hab.arrivals hj y h
    · exact .inr (hab.step ▸ h)

/-- A part of a release after one that leaves its state. -/
theorem after (hbc : Releasing b c) (h : b.releaseState = a.releaseState) : Releasing a c := (of_state h).trans hbc

theorem foldl {ι : Type} {f : Alesh → ι → Alesh} (hf : ∀ a x, Releasing a (f a x)) (l : List ι) (a : Alesh) : Releasing a (l.foldl f a) := by
  induction l generalizing a with
  | nil => exact refl a
  | cons x l ih => exact (hf a x).trans (ih (f a x))

/-- A choice between two parts is a part. -/
theorem ite {p : Prop} [Decidable p] (hb : Releasing a b) (hc : Releasing a c) : Releasing a (if p then b else c) := by
  split
  · exact hb
  · exact hc

/-! ### Registers, flags, packets and memory -/

theorem setNum (a : Alesh) {k : Nat} (hk : k ∉ releaseNums) (v : Nat) : Releasing a (a.setNum k v) :=
  ⟨rfl, fun _ hj => Alesh.num_setNum_ne a v fun h => hk (h ▸ hj), rfl, id, fun _ h => h, fun _ h => h, fun _ h => h, fun _ _ h => .inl h⟩

theorem setDom (a : Alesh) {k : Nat} (hk : k ≠ O.CLUSTER_NODES) (v : Bytes) : Releasing a (a.setDom k v) :=
  ⟨rfl, fun _ _ => rfl, (Alesh.dom_setDom a k _ v).trans (if_neg hk), id, fun _ h => h, fun _ h => h, fun _ h => h, fun _ _ h => .inl h⟩

theorem count (a : Alesh) {k : Nat} (hk : k ∉ releaseNums) : Releasing a (a.count k) := setNum a hk _

theorem countN (a : Alesh) {k : Nat} (hk : k ∉ releaseNums) (n : Nat) : Releasing a (a.countN k n) := setNum a hk _

theorem wrap (a : Alesh) {k : Nat} (hk : k ∉ releaseNums) : Releasing a (a.wrap k) := setNum a hk _

theorem healthFlag (a : Alesh) (bit : Nat) : Releasing a (a.healthFlag bit) :=
  (setNum a (k := O.HEALTH_FLAGS) (by decide) _).trans (of_state rfl)

theorem raiseAttention (a : Alesh) : Releasing a a.raiseAttention := of_state rfl

theorem condition (a : Alesh) (bit : Nat) : Releasing a (a.condition bit) := of_state rfl

theorem emit (a : Alesh) (p : Pkt) : Releasing a (a.emit p) := by
  rw [Alesh.emit_frame]
  exact of_state rfl

theorem send (a : Alesh) (typ dst args : Nat) (b : Bytes) : Releasing a (a.send typ dst args b) := emit a _

theorem sendAll (a : Alesh) (typ : Nat) (dsts : List Nat) (args : Nat) (b : Bytes) : Releasing a (a.sendAll typ dsts args b) :=
  foldl (fun c d => send c typ d args b) dsts a

theorem wr (a : Alesh) (addr : Nat) (b : Bytes) : Releasing a (a.wr addr b) := by
  rw [Alesh.wr_frame]
  exact of_state rfl

theorem setHoldUsed (a : Alesh) : Releasing a a.setHoldUsed := setNum a (by decide) _

theorem setRetainUsed (a : Alesh) : Releasing a a.setRetainUsed := setNum a (by decide) _

/-- Faulted units leave the core as it is (R365). -/
theorem faultUnits (a : Alesh) (us : List Nat) : Releasing a (a.faultUnits us) := by
  unfold Alesh.faultUnits
  refine ite ?_ (refl a)
  have hset : Releasing a (us.foldl (fun b u => b.setUnit u .faulted) a) := foldl (fun b u => (of_state rfl : Releasing b (b.setUnit u .faulted))) us a
  exact (hset.trans ((setNum _ (k := O.CTRL_FLAGS) (by decide) _).trans (of_state rfl))).trans (of_state rfl)

/-! ### Orders and ARRIVEs -/

theorem of_ordered (h : Ordered a b) : Releasing a b := by
  rw [h.frame]
  exact of_state rfl

theorem startOrders (a : Alesh) : Releasing a a.startOrders := of_ordered (.startOrders a)

theorem tryRelease (a : Alesh) : Releasing a a.tryRelease := by
  unfold Alesh.tryRelease
  extract_lets e before r src b
  have hb : Releasing a b := of_state rfl
  exact ite ((hb.trans (foldl (fun c n => send c ..) _ b)).trans (startOrders _)) (refl a)

/-- An ARRIVE for an epoch not yet released. -/
theorem noteArrive (a : Alesh) (n : Nat) {e : Nat} (he : a.inJob = true → a.num O.STEP_EPOCH < e) : Releasing a (a.noteArrive n e) := by
  unfold Alesh.noteArrive
  extract_lets start src b
  have hb : Releasing a b := ite (of_state rfl) (refl a)
  have hkept : Releasing b { b with merid := b.arriveIn n e } := by
    refine ⟨rfl, fun _ _ => rfl, rfl, id, fun _ h => h, fun _ h => h, fun _ h => h, fun hj y hy => ?_⟩
    rcases Alesh.mem_arriveIn.1 hy with rfl | hy
    · exact .inr (hb.step ▸ he (hb.inJob ▸ hj))
    · exact .inl hy
  exact ite hb (hb.trans (hkept.trans (tryRelease _)))

theorem tryArrive (a : Alesh) : Releasing a a.tryArrive := by
  unfold Alesh.tryArrive
  extract_lets e key first src src' b
  have hb : Releasing a b := of_state rfl
  have hsent : Releasing a (b.sendHello hArrive e b.combiner []) := hb.trans (send b ..)
  refine ite (faultUnits a _) (ite (hsent.trans (ite (noteArrive _ _ fun hj => ?_) (refl _))) (refl a))
  rw [hsent.step, show e = _ from Alesh.inProgress_of_inJob (hsent.inJob ▸ hj)]
  exact Nat.lt_succ_self _

theorem of_recorded (h : Recorded a b) : Releasing a b := by
  have hnums : ∀ k ∈ releaseNums, b.num k = a.num k := fun k hk => h.same.1 k (by revert k; decide)
  have hcluster : b.dom O.CLUSTER_NODES = a.dom O.CLUSTER_NODES := h.same.2 _ List.not_mem_nil
  obtain ⟨d, ch, m, rfl⟩ : ∃ d ch m, b = { a with dict := d, chrono := ch, mem0 := m } := ⟨_, _, _, h.frame⟩
  exact ⟨rfl, hnums, hcluster, id, fun _ h => h, fun _ h => h, fun _ h => h, fun _ _ h => .inl h⟩

/-! ### Damaged pages and the record (R292, R400) -/

theorem damageLive (a : Alesh) (g page : Nat) : Releasing a (a.damageLive g page) := by
  unfold Alesh.damageLive
  split
  · next s bc _ _ =>
    refine ite (refl a) (trans (b := a.noteUe (a.pageAddr s page) 0) (trans (b := a.repairEvent) (of_state rfl) (setDom _ (by decide) _)) ?_)
    unfold Alesh.addRebuild
    exact ite (of_state rfl) (of_state rfl)
  · exact refl a

theorem chronoRelease (a : Alesh) (e : Nat) : Releasing a (a.chronoRelease e) := by
  unfold Alesh.chronoRelease
  extract_lets b detail ds late slices reps all c
  have hb : Releasing a b := foldl (fun c g => damageLive c g _) _ a
  have hc : Releasing b c := foldl (fun c r => of_recorded (.chronoFix c ..)) all b
  exact (hb.trans hc).trans (of_state rfl)

/-! ### Slices and their gradients (R18, R134) -/

theorem setGrad (a : Alesh) (g e : Nat) (v : List F32) : Releasing a (a.setGrad g e v) := by
  rw [Alesh.setGrad_frame]
  exact of_state rfl

theorem ownerCombine (a : Alesh) (g e : Nat) : Releasing a (a.ownerCombine g e) := by
  unfold Alesh.ownerCombine
  refine ite ?_ (refl a)
  split
  · exact (setGrad a ..).trans (of_state rfl)
  · exact refl a

theorem setHeaderGrad (a : Alesh) (e : Nat) (v : List F32) : Releasing a (a.setHeaderGrad e v) :=
  foldl (fun b _ => ite (setGrad b ..) (refl b)) _ a

theorem combineWaiting (a : Alesh) : Releasing a a.combineWaiting := by
  unfold Alesh.combineWaiting
  refine (foldl (fun b _ => ite (ownerCombine b ..) (refl b)) _ a).trans (foldl (fun b p => ?_) _ _)
  split
  · exact ite (setHeaderGrad b ..) (refl b)
  · exact refl b

theorem modProg (a : Alesh) (g : Nat) (f : Prog → Prog) : Releasing a (a.modProg g f) := of_state rfl

theorem freeGrad (a : Alesh) (g e : Nat) : Releasing a (a.freeGrad g e) := (modProg a ..).trans (combineWaiting _)

theorem retainRel (a : Alesh) (g e : Nat) : Releasing a (a.retainRel g e) :=
  (sendAll a ..).trans (of_dict rfl rfl id (fun _ h => h) (fun _ h => (List.mem_filter.1 h).1) (fun _ h => h) fun _ h => h)

theorem settleNull (a : Alesh) (g : Nat) : Releasing a (a.settleNull g) := by
  unfold Alesh.settleNull
  extract_lets e
  split
  · exact ite ((((retainRel a g e).trans (modProg _ ..)).trans (freeGrad ..)).trans (tryArrive _)) (refl a)
  · exact refl a

theorem adoptCommit (a : Alesh) (g holder seq band col row e : Nat) : Releasing a (a.adoptCommit g holder seq band col row e) := by
  unfold Alesh.adoptCommit
  extract_lets t same
  exact ite (refl a) (trans (b := { a with coding := { a.coding with own := a.coding.own.filter (fun x => !same x) ++ [t] } }) (of_state rfl) (send ..))

theorem carrySlice (a : Alesh) (e : Nat) (p : Prog) : Releasing a (a.carrySlice e p) := by
  unfold Alesh.carrySlice
  extract_lets g b haves c nulls
  have hb : Releasing a b := ite (of_state rfl) (refl a)
  have hc : Releasing b c := by
    unfold c
    split
    · exact ite (foldl (fun c x => adoptCommit c ..) _ b) (refl b)
    · exact refl b
  exact (((hb.trans hc).trans (retainRel c g e)).trans (modProg _ ..)).trans (freeGrad ..)

theorem carryTaken (a : Alesh) (e : Nat) : Releasing a (a.carryTaken e) :=
  (foldl (fun b p => carrySlice b e p) _ a).trans (of_state rfl)

theorem endAdoptReports (a : Alesh) (e : Nat) : Releasing a (a.endAdoptReports e) := of_state rfl

/-! ### External entries (R169) -/

theorem endTxs (a : Alesh) (p : HoldTx → Bool) : Releasing a (a.endTxs p) := by
  have hmod : Releasing a (a.modHold p HoldTx.ended) :=
    trans (b := { a with coding := { a.coding with hold := modWhere p HoldTx.ended a.coding.hold } }) (of_state rfl) (setHoldUsed _)
  refine hmod.trans (foldl (fun b t => ?_) _ _)
  rw [Alesh.retire_frame]
  exact of_state rfl

theorem dropEntry (a : Alesh) (i : Nat) (x : ExtEntry) : Releasing a (a.dropEntry i x) := by
  have hended : Releasing a ((a.dropOwn fun t => a.entryOwn x t && t.extra).endTxs (a.entryTx x)) := trans (b := a.dropOwn _) (of_state rfl) (endTxs ..)
  exact hended.trans (of_plan rfl fun h => congrArg (List.filter _) h)

theorem endReturn (a : Alesh) (i : Nat) (x : ExtEntry) : Releasing a (a.endReturn i x) := by
  unfold Alesh.endReturn
  extract_lets g b slots back
  have hb : Releasing a b := trans (b := a.dropOwn _) (of_state rfl) (endTxs ..)
  exact ite (refl a) (hb.trans (of_state rfl))

theorem settleReleasing (a : Alesh) : Releasing a a.settleReleasing := foldl (fun b _ => ite (refl b) (dropEntry b ..)) _ a

theorem cancelEntry (a : Alesh) (i : Nat) (x : ExtEntry) : Releasing a (a.cancelEntry i x) :=
  ite (dropEntry a i x) ((endReturn a i x).trans (of_plan rfl fun h => congrArg (List.filter _) h))

theorem switchEntry (a : Alesh) (i : Nat) (x : ExtEntry) : Releasing a (a.switchEntry i x) := by
  unfold Alesh.switchEntry
  extract_lets b later
  have hb : Releasing a b := endReturn a i x
  have hlater : Releasing b { b with coding := { b.coding with hold := b.coding.hold.map later } } := of_state rfl
  exact (hb.trans hlater).trans (dropEntry ..)

theorem foreignRestripe (a : Alesh) (group : Nat) (switch : Bool) : Releasing a (a.foreignRestripe group switch) :=
  foldl (fun b _ => ite (switchEntry b ..) (cancelEntry b ..)) _ a

theorem foreignRelease (a : Alesh) (e : Nat) : Releasing a (a.foreignRelease e) :=
  trans (b := { a with coding := { a.coding with restripes := a.coding.restripes.filter fun (p : Nat × Bool × Nat) => decide (e < p.2.2) } }) (of_state rfl)
    (foldl (fun b _ => foreignRestripe b ..) _ _)

/-- With no change announced, a release only ends what is left of entries (R169, R188). -/
theorem extRelease (h : a.coding.extPlan = []) (e : Nat) : Releasing a (a.extRelease e) := by
  unfold Alesh.extRelease
  extract_lets go src src' b
  have hgo : go = [] := by simp only [go, h, List.filter_nil]
  have hb : Releasing a b := of_plan rfl fun h => congrArg (List.filter _) h
  rw [hgo, List.foldl_nil]
  exact (hb.trans (settleReleasing b)).trans (foreignRelease ..)

theorem announce (a : Alesh) (args e : Nat) (dsts : List Nat) : Releasing a (a.announce args e dsts) :=
  trans (b := { a with take := { a.take with announces := a.take.announces ++ [(args, e, dsts, a.ackDue)] } }) (of_state rfl) (sendAll ..)

theorem announceExt (a : Alesh) (sub e : Nat) (x : ExtEntry) : Releasing a (a.announceExt sub e x) := by
  unfold Alesh.announceExt
  extract_lets b
  have hb : Releasing a b := ite (of_state rfl) (refl a)
  exact hb.trans (announce ..)

end Releasing

end Sys2Proof.Machine
end

section
/-! SUPPORT. The health unit's part of a release, and the Meridian's release as a whole (R25, R200, R329, R339). -/
namespace Sys2Proof.Machine

namespace Releasing
variable {a b c : Alesh}

theorem foldl_of_mem {ι : Type} {f : Alesh → ι → Alesh} {l : List ι} (hf : ∀ x ∈ l, ∀ a, Releasing a (f a x)) (a : Alesh) :
    Releasing a (l.foldl f a) := by
  induction l generalizing a with
  | nil => exact refl a
  | cons x l ih => exact (hf x List.mem_cons_self a).trans (ih (fun y hy => hf y (List.mem_cons_of_mem x hy)) (f a x))

/-- A part that collects values beside the core. -/
theorem foldl_snd {ι α : Type} {f : α × Alesh → ι → α × Alesh} (hf : ∀ p x, Releasing p.2 (f p x).2) (l : List ι) (p : α × Alesh) :
    Releasing p.2 (l.foldl f p).2 := by
  induction l generalizing p with
  | nil => exact refl p.2
  | cons x l ih => exact (hf p x).trans (ih (f p x))

/-! ### The health unit (R323 to R343) -/

theorem thermCheck (a : Alesh) : Releasing a a.thermCheck := by
  unfold Alesh.thermCheck
  extract_lets src b
  have hb : Releasing a b := ite (of_state rfl) (refl a)
  exact ite (hb.trans (healthFlag b _)) hb

theorem closeRing (a : Alesh) : Releasing a a.closeRing := of_state rfl

theorem retireTile (a : Alesh) (t : Nat) : Releasing a (a.retireTile t) := by
  unfold Alesh.retireTile
  refine ite ?_ (of_state rfl)
  extract_lets map src b c
  have hset (d : Alesh) (m : Nat) : Releasing d (d.setTiles m) := (setNum d (by decide) _).trans (setNum _ (by decide) _)
  have hb : Releasing a b := by
    unfold b
    split
    · exact hset a _
    · exact (hset _ _).after rfl
  have hc : Releasing a c := hb.trans (of_state rfl)
  exact ite (hc.trans (faultUnits c _)) hc

theorem tileLimit (a : Alesh) : Releasing a a.tileLimit := foldl (fun b t => retireTile b t) _ a

theorem shiftLate (a : Alesh) (e : Nat) : Releasing a (a.shiftLate e) := foldl (fun b _ => wr b ..) _ a

theorem judgeLate (a : Alesh) : Releasing a a.judgeLate := by
  unfold Alesh.judgeLate
  extract_lets bits ms kept new b
  have hb : Releasing a b := trans (b := { a with health := { a.health with suspects := kept ++ new } }) (of_state rfl) (setDom _ (by decide) _)
  exact hb.trans (foldl (fun c _ => (healthFlag c _).trans (raiseAttention _)) new b)

theorem lateness (a : Alesh) (e : Nat) : Releasing a (a.lateness e) :=
  ite (refl a) (trans (ite (refl a) (shiftLate a e)) (judgeLate _))

theorem formSeeing (a : Alesh) : Releasing a a.formSeeing :=
  ((setDom a (by decide) _).trans (setNum _ (by decide) _)).trans (setNum _ (by decide) _)

theorem plateCadence (a : Alesh) : Releasing a a.plateCadence := setNum a (by decide) _

theorem withdraw (a : Alesh) (l : List (Nat × ExtEntry)) : Releasing a (a.withdraw l) := foldl (fun c _ => announceExt c ..) _ a

theorem widen (a : Alesh) : Releasing a a.widen := by
  unfold Alesh.widen
  extract_lets s hi lo src b m e pick picks cancelled c
  have hb : Releasing a b := of_state rfl
  have hc : Releasing a c := ite (hb.trans (foldl (fun c _ => announceExt c ..) _ b))
    (ite (hb.trans (foldl (fun c _ => announceExt c ..) _ b)) hb)
  exact ite hb (ite (hc.trans (withdraw c _)) hc)

theorem updateLat (a : Alesh) : Releasing a a.updateLat := by
  unfold Alesh.updateLat
  extract_lets h lat
  exact trans (b := { a with health := { h with lat := lat, samples := [] } }) (of_state rfl) (setDom _ (by decide) _)

theorem place_ (a : Alesh) : Releasing a a.place_ := by
  unfold Alesh.place_
  extract_lets b n e hot back c
  have hb : Releasing a b := (updateLat a).trans (of_state rfl)
  have hc : Releasing b c := by
    unfold c
    split
    · exact ite (announceExt b ..) (refl b)
    · exact refl b
  exact ite hb (ite hb ((hb.trans hc).trans (withdraw c _)))

theorem coordinate (a : Alesh) : Releasing a a.coordinate := by
  unfold Alesh.coordinate
  extract_lets
  exact ite (announce a ..) (ite (announce a ..) (ite (foldl (fun b _ => announceExt b ..) _ a)
    (ite (foldl (fun b _ => announceExt b ..) _ a) (refl a))))

theorem linkShare (a : Alesh) : Releasing a a.linkShare := by
  unfold Alesh.linkShare
  extract_lets d cs top b
  have hb : Releasing a b := by
    have hkeys : ∀ x ∈ cs, O.VC_WEIGHT + (x - 2) ∉ releaseNums := by decide
    exact ite (refl a) (foldl_of_mem (fun x hx b => setNum b (hkeys x hx) _) a)
  exact hb.trans (of_state rfl)

theorem startMove (a : Alesh) (mhz mv : Nat) (raising : Bool) : Releasing a (a.startMove mhz mv raising) := by
  unfold Alesh.startMove
  refine ite (refl a) ?_
  extract_lets src b
  exact ite (trans (b := { b with pm := { b.pm with vReq := !b.pm.vReq, vMv := mv } }) (of_state rfl) (setNum _ (by decide) _))
    (trans (b := { b with pm := { b.pm with fReq := !b.pm.fReq, fMhz := mhz } }) (of_state rfl) (setNum _ (by decide) _))

theorem govMove (a : Alesh) (p : Option (Nat × Nat)) (raising : Bool) : Releasing a (a.govMove p raising) := by
  unfold Alesh.govMove
  split
  · exact (startMove ..).after rfl
  · exact refl a

theorem governor (a : Alesh) (slack : Nat) : Releasing a (a.governor slack) := by
  unfold Alesh.governor
  extract_lets f ps up down lead calm src b
  have hb : Releasing a b := of_state rfl
  have hmove (p : Option (Nat × Nat)) (raising : Bool) : Releasing a (b.govMove p raising) := hb.trans (govMove b p raising)
  exact ite (ite (hmove _ _) hb) (ite (hmove _ _) (ite (ite (hmove _ _) hb) (ite (hmove _ _) hb)))

theorem layerCodes (a : Alesh) (e : Nat) : Releasing a (a.layerCodes e).2 := by
  unfold Alesh.layerCodes
  refine foldl_snd (fun p g => ?_) _ ([], a)
  extract_lets n d q base nulls new
  show Releasing p.2 q.2
  unfold q
  split
  · exact refl p.2
  · exact of_state rfl

theorem monitorEntry (a : Alesh) (e i layer : Nat) (codes : List Nat) : Releasing a (a.monitorEntry e i layer codes) := by
  unfold Alesh.monitorEntry
  extract_lets large count gn gl gx pc rs galarm palarm w b c d h
  have halarm (x : Alesh) (bit : Nat) : Releasing x ((x.healthFlag bit).setNum O.NUM_ALARM_LAYER layer).raiseAttention :=
    ((healthFlag x bit).trans (setNum _ (by decide) _)).trans (raiseAttention _)
  have hb : Releasing a b := wr a ..
  have hc : Releasing a c := ite (hb.trans (halarm b _)) hb
  have hd : Releasing a d := ite (hc.trans (halarm c _)) hc
  exact ite (hd.trans (of_state rfl)) hd

theorem monitor (a : Alesh) (e : Nat) : Releasing a (a.monitor e) :=
  (layerCodes a e).trans (foldl (fun b _ => monitorEntry b ..) _ _)

theorem saturated (a : Alesh) : Releasing a a.saturated :=
  (foldl (fun c k => (healthFlag c k).trans (raiseAttention _)) _ a).trans (of_state rfl)

theorem healthRelease (a : Alesh) (e r : Nat) (late : Bool) : Releasing a (a.healthRelease e r late) := by
  unfold Alesh.healthRelease
  extract_lets f slack b c d
  have hf : Releasing a f := of_state rfl
  have hsram : Releasing f f.sramCorrected := of_state rfl
  have hring : Releasing f f.sramCorrected.thermCheck.closeRing := (hsram.trans (thermCheck _)).trans (closeRing _)
  have hb : Releasing f b := (((hring.trans (tileLimit _)).trans (lateness _ e)).trans (formSeeing _)).trans (plateCadence _)
  have hc : Releasing f c := ite (((hb.trans (widen b)).trans (place_ _)).trans (coordinate _)) hb
  have hd : Releasing f d := (((hc.trans (linkShare c)).trans (governor _ slack)).trans (monitor _ e)).trans (saturated _)
  exact ite hf (hf.trans (hd.trans (of_state rfl)))

theorem startLevels (a : Alesh) : Releasing a a.startLevels := by
  have hring : Releasing a a.noteRing := ite (condition a _) (refl a)
  refine ite (hring.trans ?_) (refl a)
  unfold Alesh.noteLevels
  extract_lets b c
  have hb : Releasing (a.noteRing) b := ite (condition _ _) (refl _)
  have hc : Releasing (a.noteRing) c := ite (hb.trans (condition b _)) hb
  exact ite (hc.trans (condition c _)) hc

/-! ### The end of a step (R132, R133, R136) -/

theorem sendNode (a : Alesh) (p : Part) : Releasing a (a.sendNode p) := by
  unfold Alesh.sendNode
  extract_lets b src c d
  have hfull : Releasing a { a with red := { src with waiting := a.red.waiting ++ [p] } } := of_state rfl
  have hkept : Releasing a { a with red := { src with retained := a.red.retained ++ [p] } } := of_state rfl
  have hc : Releasing a c := ite (refl a) (hkept.trans (setRetainUsed _))
  have hd : Releasing a d := ite (hc.trans (count c (by decide))) hc
  exact ite ((hfull.trans (wrap _ (by decide))).trans (condition ..)) (hd.trans (send ..))

theorem sendWaiting (a : Alesh) : Releasing a a.sendWaiting := by
  unfold Alesh.sendWaiting
  extract_lets
  exact (foldl (fun c p => sendNode c p) _ _).after rfl

/-- A step's work without what its release ends: of that nothing is for the epoch released or one below (R132, R133, R136). -/
theorem endStep (a : Alesh) (e : Nat) : Releasing a (a.endStep e) ∧ (∀ c ∈ (a.endStep e).red.contribs, e < c.epoch) ∧
    (∀ q ∈ (a.endStep e).red.held, e < q.epoch) ∧ ∀ t ∈ (a.endStep e).pub.tokens, e < t.2 := by
  unfold Alesh.endStep
  extract_lets later stale src red src' pub progs b
  have hsent : Releasing b ((b.countN O.PART_STALE_COUNT stale).setRetainUsed).sendWaiting :=
    ((countN b (by decide) _).trans (setRetainUsed _)).trans (sendWaiting _)
  have hb : Releasing a b := of_dict rfl rfl id (fun _ h => (List.mem_filter.1 h).1) (fun _ h => (List.mem_filter.1 h).1)
    (fun _ h => (List.mem_filter.1 h).1) fun _ h => h
  refine ⟨hb.trans hsent, fun c hc => ?_, fun q hq => ?_, fun t ht => ?_⟩
  · exact of_decide_eq_true (List.mem_filter.1 (hsent.contribs c hc)).2
  · exact of_decide_eq_true (List.mem_filter.1 (hsent.held q hq)).2
  · exact of_decide_eq_true (List.mem_filter.1 (hsent.tokens t ht)).2

end Releasing

/-! ### The release -/

/-- A token posted depends on the core's state and on the tokens that wait. -/
theorem Releasing.post {a b : Alesh} (h : Releasing a b) (u t : Nat) : (b.post u t).cep = (a.post u t).cep := by
  have hcore : b.ctl.core = a.ctl.core := congrArg ReleaseView.core h.view
  have hcep : b.cep = a.cep := congrArg ReleaseView.cep h.view
  unfold Alesh.post
  rw [hcore, hcep]
  split
  · exact hcep
  · split <;> rfl

/-- Nothing waits for the Meridian: no change of the membership, the overlay, the layout or the entries, no Plate's cut and no end of
the job, and the cluster has no other member. -/
structure Quiet (a : Alesh) : Prop where
  pending : a.memb.pending = none
  order : a.merid.order = none
  stop : a.ctl.jobStop = none
  plan : a.coding.extPlan = []
  build : a.take.buildAt = none
  switch : a.take.switchAt = none
  cut : a.plate.cut = none
  cluster : a.cluster.length < 2

theorem Quiet.of_releasing {a b : Alesh} (hq : Quiet a) (h : Releasing a b) : Quiet b where
  pending := (congrArg ReleaseView.pending h.view).trans hq.pending
  order := (congrArg ReleaseView.order h.view).trans hq.order
  stop := (congrArg ReleaseView.jobStop h.view).trans hq.stop
  plan := h.plan hq.plan
  build := (congrArg ReleaseView.buildAt h.view).trans hq.build
  switch := (congrArg ReleaseView.switchAt h.view).trans hq.switch
  cut := (congrArg ReleaseView.cut h.view).trans hq.cut
  cluster := by
    have hsame : b.cluster = a.cluster := by rw [Alesh.cluster, h.cluster, Alesh.cluster]
    exact hsame ▸ hq.cluster

theorem Alesh.restripeRelease_of_quiet {a : Alesh} (hq : Quiet a) (e : Nat) : a.restripeRelease e = a := by
  simp only [Alesh.restripeRelease, hq.build, hq.switch]

theorem Alesh.plateFreeze_of_quiet {a : Alesh} (hq : Quiet a) (e : Nat) : a.plateFreeze e = a := by
  simp only [Alesh.plateFreeze, hq.cut]

theorem Alesh.switchOverlay_of_quiet {a : Alesh} (hq : Quiet a) (e : Nat) : a.switchOverlay e = a := by
  simp only [Alesh.switchOverlay, hq.order]

theorem Alesh.headerCheck_of_quiet {a : Alesh} (hq : Quiet a) (e : Nat) : a.headerCheck e = a := if_pos hq.cluster

/-- The core as a release begins: the epoch has advanced, and its RELEASE is done with (R200). -/
def Alesh.advanced (a : Alesh) (e r : Nat) : Alesh :=
  ((({ a with merid := { a.merid with
    release := none, last := r, again := false, sent := if a.merid.sent.1 < e then (e, r) else a.merid.sent } }).setNum O.STEP_EPOCH e).setNum
      O.MERIDIAN_LAST_RELEASE a.now).setNum O.MERIDIAN_SCHEDULED 0

theorem Alesh.num_advanced (a : Alesh) (e r : Nat) : (a.advanced e r).num O.STEP_EPOCH = e ∧
    (a.advanced e r).num O.MERIDIAN_LAST_RELEASE = a.now ∧ (a.advanced e r).num O.MERIDIAN_SCHEDULED = 0 := by
  refine ⟨?_, ?_, Alesh.num_setNum_same ..⟩
  · exact (Alesh.num_setNum_ne _ _ (by decide)).trans ((Alesh.num_setNum_ne _ _ (by decide)).trans (Alesh.num_setNum_same ..))
  · exact (Alesh.num_setNum_ne _ _ (by decide)).trans (Alesh.num_setNum_same ..)

/-- What a release ends, before the health unit and the step's work: with nothing that waits, no change takes effect. -/
def Alesh.settled (a : Alesh) (e : Nat) : Alesh := (((a.carryTaken e).endAdoptReports e).chronoRelease e).extRelease e

theorem Releasing.settled {a : Alesh} (hq : Quiet a) (e : Nat) : Releasing a (a.settled e) := by
  have hc : Releasing a (((a.carryTaken e).endAdoptReports e).chronoRelease e) := ((carryTaken a e).trans (endAdoptReports _ e)).trans (chronoRelease _ e)
  exact hc.trans (extRelease (hq.of_releasing hc).plan e)

/-- The step's work ended, and ARRIVEs for the epoch and below forgotten. -/
def Alesh.cleared (a : Alesh) (e : Nat) : Alesh :=
  let i := (a.progs.map (·.gsid)).foldl Alesh.settleNull a
  { i with merid := { i.merid with arrivals := i.merid.arrivals.filter fun (x : Nat × Nat) => decide (e < x.2), tied := none } }

theorem Releasing.cleared (a : Alesh) (e : Nat) : Releasing a (a.cleared e) ∧ ∀ y ∈ (a.cleared e).merid.arrivals, e < y.2 := by
  have hi : Releasing a ((a.progs.map (·.gsid)).foldl Alesh.settleNull a) := foldl (fun b g => settleNull b g) _ a
  exact ⟨hi.trans (of_dict rfl rfl id (fun _ h => h) (fun _ h => h) (fun _ h => h) fun _ h => (List.mem_filter.1 h).1), fun y hy => of_decide_eq_true (List.mem_filter.1 hy).2⟩

theorem Quiet.advanced {a : Alesh} (hq : Quiet a) (e r : Nat) : Quiet (a.advanced e r) :=
  ⟨hq.pending, hq.order, hq.stop, hq.plan, hq.build, hq.switch, hq.cut, hq.cluster⟩

/-- What a release comes to before its token: the step's work done and ended, a new step begun (R200, R329). -/
def Alesh.stepped (a : Alesh) (e r : Nat) : Alesh :=
  ((((a.advanced e r).settled e).healthRelease e r false).endStep e).cleared e |>.startLevels

theorem Releasing.stepped {a : Alesh} (hq : Quiet a) (e r : Nat) : Releasing (a.advanced e r) (a.stepped e r) :=
  (((settled (hq.advanced e r) e).trans (healthRelease _ e r false)).trans (endStep _ e).1).trans ((cleared _ e).1.trans (startLevels _))

/-- The core tells of a release: the token and the toggle of evt_meridian (R200, R440). -/
def Alesh.tellRelease (a : Alesh) (e : Nat) : Alesh := (a.post uControl (tokStepReleased e)).toggleMeridian

theorem Alesh.tellRelease_frame (a : Alesh) (e : Nat) : a.tellRelease e =
    { a with cep := (a.post uControl (tokStepReleased e)).cep, evts := { a.evts with meridian := !a.evts.meridian } } := by
  unfold Alesh.tellRelease
  rw [Alesh.post_frame]
  rfl

theorem Alesh.tellRelease_ctl (a : Alesh) (e : Nat) : (a.tellRelease e).ctl = a.ctl := by rw [Alesh.tellRelease_frame]

/-- A release with nothing that waits, part by part. -/
theorem Alesh.releaseStep_of_quiet {a : Alesh} (hq : Quiet a) (e r : Nat) :
    a.releaseStep e r false =
      (if ((a.stepped e r).tellRelease e).combiner = ((a.stepped e r).tellRelease e).node then ((a.stepped e r).tellRelease e).startOrders
        else (a.stepped e r).tellRelease e).tryArrive := by
  have hc : Releasing (a.advanced e r) ((((a.advanced e r).carryTaken e).endAdoptReports e).chronoRelease e) :=
    ((Releasing.carryTaken _ e).trans (.endAdoptReports _ e)).trans (.chronoRelease _ e)
  have hqc := (hq.advanced e r).of_releasing hc
  have hqf : Quiet ((a.advanced e r).settled e) := (hq.advanced e r).of_releasing (.settled (hq.advanced e r) e)
  have hqs := (hq.advanced e r).of_releasing (.stepped hq e r)
  have hstop : ((a.stepped e r).tellRelease e).ctl.jobStop = none := by
    rw [Alesh.tellRelease_ctl]
    exact hqs.stop
  unfold Alesh.releaseStep
  extract_lets sent src m b c d f g h i src' j k
  have hb : (if false = true then b.count O.MERIDIAN_LATE_COUNT else b) = a.advanced e r := if_neg Bool.false_ne_true
  have hcq : c = (((a.advanced e r).carryTaken e).endAdoptReports e).chronoRelease e :=
    congrArg (fun x => ((Alesh.carryTaken x e).endAdoptReports e).chronoRelease e) hb
  rw [← hcq] at hqc
  have hd : d = c := by
    unfold d
    rw [hqc.pending]
  have hf : f = (a.advanced e r).settled e := by
    have hext : d.extRelease e = (a.advanced e r).settled e := by rw [hd, hcq, Alesh.settled]
    unfold f
    rw [hext, Alesh.restripeRelease_of_quiet hqf, Alesh.plateFreeze_of_quiet hqf]
  have hg : g = ((a.advanced e r).settled e).healthRelease e r false := by
    unfold g
    rw [hf, Alesh.switchOverlay_of_quiet hqf, Alesh.headerCheck_of_quiet hqf]
  have hh : h = g.endStep e := rfl
  clear_value h
  have hj : j = h.cleared e := rfl
  have hk : k = (a.stepped e r).tellRelease e := by
    unfold k
    rw [hj, hh, hg, Alesh.tellRelease, Alesh.stepped]
  rw [hk]
  exact if_neg (by rw [hstop]; exact Bool.false_ne_true)

/-- What a core shows once it has told of a release, whatever its last parts do. -/
structure Told (a b : Alesh) (e : Nat) : Prop where
  nums : ∀ k ∈ releaseNums, b.num k = a.num k
  release : b.merid.release = a.merid.release
  last : b.merid.last = a.merid.last
  meridian : b.evts.meridian = !a.evts.meridian
  cep : b.cep = (a.post uControl (tokStepReleased e)).cep
  mem1 : b.mem1 = a.mem1

theorem Told.of_releasing {a b c : Alesh} {e : Nat} (hac : Releasing a c) (hcb : Releasing (c.tellRelease e) b) : Told a b e := by
  have htell := c.tellRelease_frame e
  refine ⟨fun k hk => (hcb.nums k hk).trans ?_, (congrArg ReleaseView.release hcb.view).trans ?_, (congrArg ReleaseView.last hcb.view).trans ?_,
    (congrArg ReleaseView.meridian hcb.view).trans ?_, (congrArg ReleaseView.cep hcb.view).trans ?_, (congrArg ReleaseView.mem1 hcb.view).trans ?_⟩ <;>
    rw [htell]
  · exact hac.nums k hk
  · exact congrArg ReleaseView.release hac.view
  · exact congrArg ReleaseView.last hac.view
  · exact congrArg (fun v => !v.meridian) hac.view
  · exact hac.post ..
  · exact congrArg ReleaseView.mem1 hac.view

/-- A core of whose work nothing is for the epoch released or one below (R132, R133, R136). -/
structure Ended (a : Alesh) (e : Nat) : Prop where
  contribs : ∀ c ∈ a.red.contribs, e < c.epoch
  held : ∀ q ∈ a.red.held, e < q.epoch
  tokens : ∀ t ∈ a.pub.tokens, e < t.2
  arrivals : ∀ y ∈ a.merid.arrivals, e < y.2

theorem Ended.of_releasing {a b : Alesh} {e : Nat} (hd : Ended a e) (h : Releasing a b) (hj : a.inJob = true) (he : a.num O.STEP_EPOCH = e) :
    Ended b e where
  contribs c hc := hd.contribs c (h.contribs c hc)
  held q hq := hd.held q (h.held q hq)
  tokens t ht := hd.tokens t (h.tokens t ht)
  arrivals y hy := (h.arrivals hj y hy).elim (hd.arrivals y) fun hlt => he ▸ hlt

theorem Ended.tellRelease {a : Alesh} {e : Nat} (h : Ended a e) : Ended (a.tellRelease e) e := by
  rw [Alesh.tellRelease_frame]
  exact ⟨h.contribs, h.held, h.tokens, h.arrivals⟩

theorem Ended.stepped {a : Alesh} {e r : Nat} (hq : Quiet a) (hj : a.inJob = true) : Ended (a.stepped e r) e := by
  have hA : Releasing (a.advanced e r) (((a.advanced e r).settled e).healthRelease e r false) :=
    (Releasing.settled (hq.advanced e r) e).trans (.healthRelease _ e r false)
  obtain ⟨hstep, -⟩ := a.num_advanced e r
  unfold Alesh.stepped
  generalize ((a.advanced e r).settled e).healthRelease e r false = g at hA ⊢
  obtain ⟨hgh, hcontribs, hheld, htokens⟩ := Releasing.endStep g e
  generalize g.endStep e = h at hgh hcontribs hheld htokens ⊢
  obtain ⟨hhj, harrivals⟩ := Releasing.cleared h e
  have hend : Ended (h.cleared e) e := ⟨fun c hc => hcontribs c (hhj.contribs c hc), fun q hq => hheld q (hhj.held q hq),
    fun t ht => htokens t (hhj.tokens t ht), harrivals⟩
  have hAj := (hA.trans hgh).trans hhj
  exact hend.of_releasing (.startLevels _) (hAj.inJob.trans hj) (hAj.step.trans hstep)

/-- A release with nothing that waits (R200): the epoch advances, the core tells of it, and nothing of the epoch stays. -/
theorem Alesh.releaseStep_releases {a : Alesh} (hq : Quiet a) (hj : a.inJob = true) (e r : Nat) :
    Told (a.advanced e r) (a.releaseStep e r false) e ∧ Ended (a.releaseStep e r false) e := by
  rw [Alesh.releaseStep_of_quiet hq]
  have hstepped := Releasing.stepped hq e r
  have hended : Ended (a.stepped e r) e := .stepped hq hj
  have hinJob : (a.stepped e r).inJob = true := hstepped.inJob.trans hj
  have hlast (d : Alesh) : Releasing d (if d.combiner = d.node then d.startOrders else d).tryArrive :=
    (Releasing.ite (.startOrders d) (.refl d)).trans (.tryArrive _)
  generalize a.stepped e r = c at hstepped hended hinJob ⊢
  refine ⟨.of_releasing hstepped (hlast _), (Ended.tellRelease hended).of_releasing (hlast _) ?_ ?_⟩
  · rw [Alesh.inJob, Alesh.tellRelease_ctl]
    exact hinJob
  · rw [Alesh.tellRelease_frame]
    exact hstepped.step.trans (a.num_advanced e r).1

/-- At the value of the RELEASE for the epoch in progress, the core releases it (R199, R200). -/
theorem Alesh.meridianRelease_of_due {a : Alesh} {e r : Nat} (hrel : a.merid.release = some (e, r)) (hvalid : a.clock.valid = true)
    (hnow : r ≤ a.now) (hj : a.inJob = true) (he : e = a.inProgress) : a.meridianRelease = a.releaseStep e r false := by
  have hdue : a.due r = true := by
    rw [Alesh.due, hvalid, Bool.true_and]
    exact decide_eq_true hnow
  unfold Alesh.meridianRelease
  simp only [hrel, hdue, hj, ← he, beq_self_eq_true, Bool.not_true, Bool.and_self, Bool.false_eq_true, if_false, if_true]

end Sys2Proof.Machine
end

section
/-! SUPPORT. The start of the job (R394, R395). -/
namespace Sys2Proof.Machine

/-! ### What the start of the job leaves of what it has set -/

/-- The registers that the start sets and nothing after touches. -/
def startNums : List Nat :=
  [O.STEP_EPOCH, O.CONFIG_EPOCH, O.ACTIVE_OVERLAY, O.MERIDIAN_LAST_RELEASE, O.COMMENCE_TIME, O.COMMENCE_STATE, O.PROTECTION_STATE]

/-- What the start leaves beside the registers: the core and its units, the slices and their slots, evt_meridian, the members, Tier 1
and the errors. -/
structure StartView where
  ctl : Ctl
  meridian : Bool
  progs : List Prog
  owned : List Nat
  rebuilds : List Rebuild
  slots : Slots
  members : List Nat
  errs : Errs
  mem1 : Memory

def Alesh.startView (a : Alesh) : StartView :=
  { ctl := a.ctl, meridian := a.evts.meridian, progs := a.progs, owned := a.take.owned, rebuilds := a.take.rebuilds, slots := a.slots
    members := a.memb.members, errs := a.errs, mem1 := a.mem1 }

/-- From one core to another by what the start does once its state is set. -/
structure Starting (a b : Alesh) : Prop where
  view : b.startView = a.startView
  nums : ∀ k ∈ startNums, b.num k = a.num k

namespace Starting
variable {a b c : Alesh}

theorem of_dict (hview : b.startView = a.startView) (hdict : b.dict = a.dict) : Starting a b := ⟨hview, fun k _ => Alesh.num_of_dict hdict k⟩

theorem refl (a : Alesh) : Starting a a := of_dict rfl rfl

theorem trans (hab : Starting a b) (hbc : Starting b c) : Starting a c :=
  ⟨hbc.view.trans hab.view, fun k hk => (hbc.nums k hk).trans (hab.nums k hk)⟩

/-- A part of the start after one that leaves what it has set. -/
theorem after (hbc : Starting b c) (hview : b.startView = a.startView) (hdict : b.dict = a.dict) : Starting a c :=
  (of_dict hview hdict).trans hbc

theorem ite {p : Prop} [Decidable p] (hb : Starting a b) (hc : Starting a c) : Starting a (if p then b else c) := by
  split
  · exact hb
  · exact hc

theorem foldl {ι : Type} {f : Alesh → ι → Alesh} (hf : ∀ a x, Starting a (f a x)) (l : List ι) (a : Alesh) : Starting a (l.foldl f a) := by
  induction l generalizing a with
  | nil => exact refl a
  | cons x l ih => exact (hf a x).trans (ih (f a x))

theorem setNum (a : Alesh) {k : Nat} (hk : k ∉ startNums) (v : Nat) : Starting a (a.setNum k v) :=
  ⟨rfl, fun _ hj => Alesh.num_setNum_ne a v fun h => hk (h ▸ hj)⟩

theorem of_recorded (h : Recorded a b) : Starting a b := by
  have hnums : ∀ k ∈ startNums, b.num k = a.num k := fun k hk => h.same.1 k (by revert k; decide)
  obtain ⟨d, ch, m, rfl⟩ : ∃ d ch m, b = { a with dict := d, chrono := ch, mem0 := m } := ⟨_, _, _, h.frame⟩
  exact ⟨rfl, hnums⟩

theorem of_arriving (h : Arriving a b) : Starting a b := by
  rw [h.frame]
  exact of_dict rfl rfl

theorem faRedirect (a : Alesh) (p : FaReq → Bool) (dst : Nat) : Starting a (a.faRedirect p dst) := by
  unfold Alesh.faRedirect
  extract_lets moved
  have hreqs : Starting a (a.setReqs ((a.fabric.reqs.filter fun r => !p r) ++ moved)) := of_dict rfl rfl
  refine hreqs.trans (foldl (fun b r => ?_) _ _)
  exact (of_arriving (.emit b _)).trans (setNum _ (by decide) _)

theorem startLeases (a : Alesh) (c : Nat) : Starting a (a.startLeases c) := by
  have hdir (b : Alesh) (holder : Nat) : Starting b (b.newDirectory holder) := by
    unfold Alesh.newDirectory
    extract_lets old coh d src
    have hreqs : Starting b (b.setReqs (b.fabric.reqs.map fun r => { r with noCache := true })) := of_dict rfl rfl
    have hd : Starting b d := hreqs.trans (setNum _ (by decide) _)
    exact hd.trans ((faRedirect ..).after rfl rfl)
  exact (hdir ..).after rfl rfl

theorem plateCounts (a : Alesh) : Starting a a.plateCounts := (setNum a (by decide) _).trans (setNum _ (by decide) _)

theorem initParity (alt : Bool) (slots : Nat) (a : Alesh) : Starting a (a.initParity alt slots) :=
  foldl (fun b _ => of_recorded ((Recorded.wr b ..).trans (.wr ..))) _ a

theorem emptyParity (a : Alesh) : Starting a a.emptyParity := (initParity false _ a).trans (initParity true _ _)

theorem chronoStart (a : Alesh) : Starting a a.chronoStart := of_recorded ((Recorded.chronoFix a ..).trans (.chronoFix ..))

end Starting

/-! ### The registers set one after another -/

theorem Alesh.num_foldl_setNum_of_notMem {k : Nat} (l : List (Nat × Nat)) (a : Alesh) (hk : k ∉ l.map Prod.fst) :
    (l.foldl (fun (x : Alesh) p => x.setNum p.1 p.2) a).num k = a.num k := by
  induction l generalizing a with
  | nil => rfl
  | cons p l ih =>
    simp only [List.map_cons, List.mem_cons, not_or] at hk
    exact (ih _ hk.2).trans (Alesh.num_setNum_ne a _ (Ne.symm hk.1))

theorem Alesh.num_foldl_setNum {k v : Nat} {l : List (Nat × Nat)} (a : Alesh) (hl : (l.map Prod.fst).Nodup) (h : (k, v) ∈ l) :
    (l.foldl (fun (x : Alesh) p => x.setNum p.1 p.2) a).num k = v := by
  induction l generalizing a with
  | nil => exact absurd h List.not_mem_nil
  | cons p l ih =>
    obtain ⟨hp, hl⟩ := List.nodup_cons.1 hl
    rcases List.mem_cons.1 h with rfl | h
    · exact (Alesh.num_foldl_setNum_of_notMem l _ hp).trans (Alesh.num_setNum_same ..)
    · exact ih _ hl h

theorem startView_foldl_setNum (l : List (Nat × Nat)) (a : Alesh) :
    (l.foldl (fun (x : Alesh) p => x.setNum p.1 p.2) a).startView = a.startView := by
  induction l generalizing a with
  | nil => rfl
  | cons p l ih => exact ih _

/-! ### The start -/

/-- The registers as a job starts (R395). -/
def enteringNums (start c : Nat) : List (Nat × Nat) :=
  [(O.STEP_EPOCH, start), (O.CONFIG_EPOCH, 1), (O.ACTIVE_OVERLAY, 0xFF), (O.MERIDIAN_LAST_RELEASE, c), (O.COMMENCE_TIME, c),
    (O.COMMENCE_STATE, 6), (O.WINDOW_OPEN_EPOCH, 0), (O.WINDOW_LOSSES, 0), (O.PROTECTION_STATE, 0), (O.RESTRIPE_STATE, 0),
    (O.MERIDIAN_SCHEDULED, 0), (O.HOLD_USED, 0), (O.RETAIN_USED, 0)]

theorem nodup_enteringNums (start c : Nat) : ((enteringNums start c).map Prod.fst).Nodup := by
  show ((enteringNums 0 0).map Prod.fst).Nodup
  decide

/-- The view of a core as it starts: it runs with its armed units, its slices at the start epoch (R395). -/
def Alesh.entering (a : Alesh) (start : Nat) : StartView :=
  { ctl := { a.ctl with core := .running, jobStop := none, discarding := false
                        units := a.ctl.units.map fun u => if u == .armed then .running else u }
    meridian := !a.evts.meridian, progs := a.take.owned.map fun g => Prog.fresh g start, owned := a.take.owned, rebuilds := []
    slots := a.slots, members := a.memb.members, errs := a.errs, mem1 := a.mem1 }

/-- The rest of the start, up to evt_meridian: digest, peers, leases, counts, histories and, after a restore, parity (R275, R395). -/
def Alesh.begun (a : Alesh) (built : Bool) (c : Nat) : Alesh :=
  let e := ((a.capInterval.formConfigDigest.watchPeers).startLeases c).plateCounts
  let f := if e.combiner = e.node then e.clearLate else e
  if built then f.emptyParity else f

theorem Starting.begun (a : Alesh) (built : Bool) (c : Nat) : Starting a (a.begun built c) := by
  unfold Alesh.begun
  extract_lets e f
  have hcap : Starting a a.capInterval := setNum a (by decide) _
  have hdigest : Starting a.capInterval a.capInterval.formConfigDigest := ⟨rfl, fun _ _ => rfl⟩
  have hpeers : Starting a a.capInterval.formConfigDigest.watchPeers := (hcap.trans hdigest).trans (of_dict rfl rfl)
  have he : Starting a e := (hpeers.trans (startLeases _ c)).trans (plateCounts _)
  have hf : Starting a f := ite (he.trans (of_recorded (.wr ..))) he
  exact ite (hf.trans (emptyParity f)) hf

theorem Starting.toldStart (a : Alesh) : Starting a.toggleMeridian (a.toggleMeridian.noteRing).takeSampling :=
  (ite (of_dict rfl rfl) (refl _) : Starting a.toggleMeridian a.toggleMeridian.noteRing).trans (of_dict rfl rfl)

theorem Alesh.enterJob_enters (a : Alesh) (built : Bool) (start c : Nat) :
    (a.enterJob built start c).startView = a.entering start ∧
      ∀ k ∈ startNums, ∀ v, (k, v) ∈ enteringNums start c → (a.enterJob built start c).num k = v := by
  obtain ⟨b, hb, henter⟩ : ∃ b : Alesh, b.startView = { a.entering start with meridian := a.evts.meridian } ∧ a.enterJob built start c =
      ((((enteringNums start c).foldl (fun (x : Alesh) p => x.setNum p.1 p.2) b).begun built c).toggleMeridian.noteRing).takeSampling := by
    unfold Alesh.enterJob Alesh.begun
    refine ⟨?b, ?view, ?enter⟩
    case enter => rfl
    case view => rfl
  have hview := (startView_foldl_setNum (enteringNums start c) b).trans hb
  have hnum := fun k v h => Alesh.num_foldl_setNum (k := k) (v := v) b (nodup_enteringNums start c) h
  generalize (enteringNums start c).foldl (fun (x : Alesh) p => x.setNum p.1 p.2) b = x at hview hnum henter
  have hbegun := Starting.begun x built c
  generalize x.begun built c = y at hbegun henter
  have htold := Starting.toldStart y
  rw [henter]
  refine ⟨htold.view.trans ?_, fun k hk v hv => ((htold.nums k hk).trans (hbegun.nums k hk)).trans (hnum k v hv)⟩
  exact congrArg (fun w : StartView => { w with meridian := !w.meridian }) (hbegun.view.trans hview)

/-- The start of the job: what the core enters with stands, and its first ARRIVE may go out (R395). -/
theorem Alesh.startJob_starts {a : Alesh} {start c : Nat} (hstart : start + 1 < 2 ^ 48) :
    (a.startJob start c).startView = a.entering start ∧
      ∀ k ∈ startNums, ∀ v, (k, v) ∈ enteringNums start c → (a.startJob start c).num k = v := by
  obtain ⟨hview, hnum⟩ := a.enterJob_enters (a.num O.RESTORE_STATE == 2) start c
  unfold Alesh.startJob
  generalize a.enterJob (a.num O.RESTORE_STATE == 2) start c = b at hview hnum ⊢
  have hrec : Starting b b.chronoStart := .chronoStart b
  have hj : b.chronoStart.inJob = true := by
    have hcore : b.chronoStart.ctl.core = .running := congrArg (fun w : StartView => w.ctl.core) (hrec.view.trans hview)
    rw [Alesh.inJob, hcore]
    rfl
  have hnext : b.chronoStart.inProgress < 2 ^ 48 := by
    rw [Alesh.inProgress_of_inJob hj, hrec.nums _ (by decide), hnum _ (by decide) start (by simp [enteringNums])]
    exact hstart
  have hall := hrec.trans (.of_arriving (.tryArrive hnext))
  exact ⟨hall.view.trans hview, fun k hk v hv => (hall.nums k hk).trans (hnum k hk v hv)⟩

/-- A JOINED core that holds the start RELEASE starts once its value has come (R395). -/
theorem Alesh.tryJobStart_of_due {a : Alesh} {start c : Nat} (hcore : a.ctl.core = .joined) (hcomm : a.comm.start = some (start, c))
    (hvalid : a.clock.valid = true) (hnow : c ≤ a.now) : a.tryJobStart = a.startJob start c := by
  have hdue : a.due c = true := by
    rw [Alesh.due, hvalid, Bool.true_and]
    exact decide_eq_true hnow
  simp only [Alesh.tryJobStart, hcomm, hcore, hdue, beq_self_eq_true, Bool.and_self, if_true]

/-! ### The obligation -/

theorem Alesh.arriveRx_of_arrives {a : Alesh} {now : Nat} {m : Pkt} (h : Arrives a tHello m) (hp : m.payload = []) :
    a.helloRx now m m.payload.isEmpty (fun b => b.noteArrive m.src (bf m.args 0 48)) = (a.heard now m.src).noteArrive m.src (bf m.args 0 48) := by
  rw [Alesh.helloRx, Alesh.receive_of_arrives h rfl (by rw [hp]; rfl)]

theorem Alesh.releaseRx_of_arrives {a : Alesh} {now : Nat} {m : Pkt} (h : Arrives a tHello m) (hp : m.payload.length = 16) :
    a.releaseRx now m = (a.heard now m.src).releaseIn (bf m.args 0 48) (leAt m.payload 0 8) := by
  rw [Alesh.releaseRx, Alesh.helloRx, Alesh.receive_of_arrives h rfl (by rw [hp]; rfl)]

/-- Settles O36: the arrivals held, the RELEASE kept, the parts of a release, and the state with which a job starts. -/
theorem meridianReleasesOnce : Obligations.MeridianReleasesOnce := by
  unfold Obligations.MeridianReleasesOnce
  refine ⟨?_, ?_, ?_, ?_⟩
  · intro s now m h hp hj a e x came hcomb hopen hnew
    have hja : a.inJob = true := by rw [Alesh.inJob, Alesh.heard_ctl]; exact hj
    have hin : s.alesh.helloRx now m m.payload.isEmpty (fun b => b.noteArrive m.src (bf m.args 0 48)) = a.noteArrive m.src e :=
      Alesh.arriveRx_of_arrives h hp
    have hcame (n : Nat) : (n = m.src ∨ a.came n) ↔ came n := or_congr (by simp [hopen]) Iff.rfl
    refine ⟨fun hmissing => ?_, fun hall hcut horder hstep => ?_⟩ <;>
      refine gives_onCore (f := Alesh.helloRx now m m.payload.isEmpty fun b => b.noteArrive m.src (bf m.args 0 48)) rfl ?_ <;> rw [hin]
    · obtain ⟨n, hn, hnot⟩ := hmissing
      obtain ⟨l, hnote⟩ := Alesh.noteArrive_of_missing hcomb hja hopen hnew ⟨n, hn, fun hc => hnot ((hcame n).1 hc)⟩
      rw [hnote]
      rfl
    · obtain ⟨l, hnote⟩ := Alesh.noteArrive_of_all hcomb hja hopen hnew hcut horder hstep fun n hn => (hcame n).2 (hall n hn)
      rw [hnote]
      exact Alesh.released_startOrders hja m.src e l x a.releaseAt
  · intro s now m h hp hj a e r he hnone hahead
    have hja : a.inJob = true := by rw [Alesh.inJob, Alesh.heard_ctl]; exact hj
    have hin : s.alesh.releaseRx now m = a.releaseIn e r := Alesh.releaseRx_of_arrives h hp
    refine gives_onCore (f := Alesh.releaseRx now m) rfl ?_
    rw [hin, Alesh.releaseIn_kept hja he hnone hahead]
    exact ⟨rfl, Alesh.num_setNum_same .., sameBut_setNum .., rfl⟩
  · intro s now e r hj hvalid hrel a he hnow hpending horder hstop hplan hbuild hswitch hcut hcluster
    have hja : a.inJob = true := (Alesh.inJob_at now).trans hj
    refine gives_onCore (f := fun b => (b.at now).meridianRelease) rfl ?_
    have hin : a.meridianRelease = a.releaseStep e r false :=
      Alesh.meridianRelease_of_due ((Alesh.at_merid ..).symm ▸ hrel) ((Alesh.valid_at ..).trans hvalid) hnow hja he
    obtain ⟨htold, hended⟩ := Alesh.releaseStep_releases ⟨hpending, horder, hstop, hplan, hbuild, hswitch, hcut, hcluster⟩ hja e r
    obtain ⟨hstep, hlast, hscheduled⟩ := a.num_advanced e r
    have hcep := Alesh.post_cep_congr (a := a.advanced e r) (b := a) rfl rfl uControl (tokStepReleased e)
    show _ ∧ _
    rw [hin]
    exact ⟨(htold.nums _ (by decide)).trans hstep, (htold.nums _ (by decide)).trans hlast, (htold.nums _ (by decide)).trans hscheduled,
      htold.release, htold.last, htold.meridian, htold.cep.trans hcep, hended.contribs, hended.held, hended.tokens, hended.arrivals, htold.mem1⟩
  · intro s now st c hcore hvalid hcomm a hnow hst
    refine gives_onCore (f := fun b => (b.at now).tryJobStart) rfl ?_
    have hin : a.tryJobStart = a.startJob st c := Alesh.tryJobStart_of_due ((congrArg Ctl.core (Alesh.at_ctl ..)).trans hcore)
      ((congrArg Comm.start (Alesh.at_comm ..)).trans hcomm) ((Alesh.valid_at ..).trans hvalid) hnow
    obtain ⟨hview, hnum⟩ := a.startJob_starts (c := c) hst
    rw [hin]
    generalize a.startJob st c = b at hview hnum ⊢
    have hreg {k v : Nat} (hk : k ∈ startNums) (hv : (k, v) ∈ enteringNums st c) : b.num k = v := hnum k hk v hv
    have hfield {α : Type} (f : StartView → α) : f b.startView = f (a.entering st) := congrArg f hview
    exact ⟨hfield (·.ctl.core), hreg (by decide) (by simp [enteringNums]), hreg (by decide) (by simp [enteringNums]),
      hreg (by decide) (by simp [enteringNums]), hreg (by decide) (by simp [enteringNums]), hreg (by decide) (by simp [enteringNums]),
      hreg (by decide) (by simp [enteringNums]), hreg (by decide) (by simp [enteringNums]), hfield (·.ctl.units), hfield (·.meridian),
      hfield (·.progs), hfield (·.owned), hfield (·.slots), hfield (·.members), hfield (·.mem1), hfield (·.errs), hfield (·.rebuilds)⟩

end Sys2Proof.Machine
end

section
/-! SUPPORT. Initialisation at arming: the metadata region's records, and a commencement that has not opened (R387). -/
namespace Sys2Proof.Machine

/-- Of equal chunks one after another, each reads as the chunk. -/
theorem Memory.read_write_chunk (m : Memory) (base n i : Nat) (c : Bytes) (hi : i < n) :
    (m.write base ((List.replicate n c).flatMap id)).read (base + c.length * i) c.length = c := by
  have hlen : ((List.replicate n c).flatMap id).length = c.length * n := by simp [List.flatMap_id, Nat.mul_comm]
  have hend : c.length * i + c.length ≤ c.length * n := by rw [← Nat.mul_succ]; exact Nat.mul_le_mul_left _ hi
  rw [Memory.read_eq]
  refine List.ext_getElem (by simp) fun j hj hjc => ?_
  simp only [List.getElem_map, List.getElem_range, Memory.get_write, hlen]
  rw [if_pos (by omega), show base + c.length * i + j - base = c.length * i + j by omega]
  have hsplit : (List.replicate n c).flatMap id = (List.replicate i c).flatMap id ++ (c ++ (List.replicate (n - i - 1) c).flatMap id) := by
    rw [show n = i + ((n - i - 1) + 1) by omega, List.replicate_add, List.flatMap_append, List.replicate_succ, List.flatMap_cons]
    simp only [id, Nat.add_sub_cancel_left, Nat.add_sub_cancel]
  have hi : ((List.replicate i c).flatMap id).length = c.length * i := by simp [List.flatMap_id, Nat.mul_comm]
  rw [List.getD_eq_getElem?_getD, hsplit, List.getElem?_append_right (by omega), hi, Nat.add_sub_cancel_left, List.getElem?_append_left hjc,
    List.getElem?_eq_getElem hjc, Option.getD_some]

/-- A record that arming writes: VERSION 0x1, KIND STATE, all else zero (R43, R387). -/
theorem blankState_bytes : (PageRec.blank kState).bytes = [0x01, 0x00, 0x00, 0x01] ++ List.replicate 60 0 := by decide +kernel

/-- A commencement that has not opened does not go on. -/
theorem Alesh.commProgress_of_reset {a : Alesh} (h : a.comm = Comm.reset) : a.commProgress = a := by
  have hnone : a.comm.outcome = none := by rw [h]; rfl
  have hcert : a.comm.cert = [] := by rw [h]; rfl
  have hacks : a.comm.acks = [] := by rw [h]; rfl
  have hsent : a.comm.sentTree = false := by rw [h]; rfl
  have hfailed : a.commFailed = none := by simp [Alesh.commFailed, hnone, hacks, minBy?]
  have hjudge : a.commJudge = a := by simp [Alesh.commJudge, hfailed, Alesh.commLaunch, hsent]
  simp [Alesh.commProgress, hcert, hnone, hjudge]

/-- Arming the JOB unit alone, in a core with no commencement open, is one write of the metadata region. -/
theorem Alesh.armInit_of_job {a : Alesh} (hjob : a.ctl.initJob ≠ 0) (hcoding : a.ctl.initCoding = 0) (hcomm : a.comm = Comm.reset)
    (hretired : a.errs.retired = []) (hcore : a.ctl.core ≠ .occulted) : a.armInit = { a with
      ctl := { a.ctl with initJob := 0 }
      mem0 := a.mem0.write (a.num O.META_BASE) ((List.replicate (a.slotCount * 256) (PageRec.blank kState).bytes).flatMap id) } := by
  have hmeta := Alesh.wr_of_not_occulted hretired hcore (a.num O.META_BASE)
    ((List.replicate (a.slotCount * 256) (PageRec.blank kState).bytes).flatMap id)
  simp only [Alesh.armInit, if_neg hjob, if_pos hcoding, Alesh.initMeta, hmeta]
  rw [Alesh.commProgress_of_reset (by exact hcomm), ← hcoding]

/-- Settles O6: arming is one write of equal records, each of which reads back whole. -/
theorem armingInitialisesTheMetadata : Obligations.ArmingInitialisesTheMetadata := by
  unfold Obligations.ArmingInitialisesTheMetadata
  intro s hcore hjob hcoding hup hretired hcomm
  refine gives_onCore (f := fun a => if a.ctl.initJob + a.ctl.initCoding = 0 || !a.ctl.upM then a else a.armInit) rfl ?_
  rw [if_neg (by simp [hjob, hup]), Alesh.armInit_of_job hjob hcoding hcomm hretired hcore]
  set rec := (PageRec.blank kState).bytes
  have hlen : rec.length = 64 := PageRec.bytes_length _
  refine ⟨rfl, fun i hi => ?_, fun x hx => ?_, rfl⟩
  · have hread := Memory.read_write_chunk s.alesh.mem0 (s.alesh.num O.META_BASE) _ i rec hi
    rw [hlen] at hread
    exact hread.trans blankState_bytes
  · rw [Memory.get_write, if_neg]
    simpa [List.flatMap_id, hlen] using hx

end Sys2Proof.Machine
end

section
/-! SUPPORT. Writes of DOMAIN objects that have no row of their own, and the mailbox (R351, R352, R359, R360). -/
namespace Sys2Proof.Machine

/-- The objects with a row of their own are each another object than one that has none. -/
theorem ownRow_eq_false_iff {key : Nat} : ownRow key = false ↔ ¬(O.OVERLAY_IMAGE ≤ key ∧ key < O.OVERLAY_IMAGE + 8) ∧ key ≠ O.SWITCH_ORDER ∧
    key ≠ O.REGION_ENTRY ∧ key ≠ O.CHRONO_TAIL ∧ key ≠ O.TAKEOVER_SET ∧ key ≠ O.THERM_MARGIN ∧ key ≠ O.PLATE_ENABLE ∧ key ≠ O.TIER_QUOTA ∧
    key ≠ O.RETIRE_LIST ∧ key ≠ O.JOIN_SNAPSHOT ∧ key ≠ O.NEXT_HOSTING_EPOCH ∧ key ≠ O.RESTRIPE_STAGE := by
  simp only [ownRow, Bool.or_eq_false_iff, Bool.and_eq_false_iff, decide_eq_false_iff_not, List.contains_eq_mem, List.mem_cons,
    List.not_mem_nil, or_false, not_or, not_and_or, ne_eq]

section
variable {a : Alesh} {via : Via} {key : Nat} {o : Obj} {v : Bytes} (now : Nat) (hobj : objOf? key = some o)
  (hcls : o.cls = .rw ∨ o.cls = .rwd ∧ a.rwdOpen key = true) (hdom : o.ty = .dom) (hown : ownRow key = false) (hcontent : contentOk key v = true)
include hcls hdom hown hcontent

/-- A value that passes its tests is stored, its reserved bits left out. -/
theorem Alesh.put_dom : a.put via o key v now = (.ok, a.setDom key (keptBytes key v)) := by
  obtain ⟨himage, horder, hregion, htail, htakeover, hmargin, hplate, hquota, hretire, hjoin, hhosting, hstage⟩ := ownRow_eq_false_iff.1 hown
  have hclass : o.cls ≠ .cmd ∧ o.cls ≠ .w1c ∧ o.cls ≠ .rwk := by rcases hcls with h | ⟨h, -⟩ <;> simp [h]
  have hopen : (o.cls != .rwd || a.rwdOpen key) = true := by rcases hcls with h | ⟨-, h⟩ <;> simp [h]
  have hvalue : a.valueOk o key v = true := by rw [Alesh.valueOk, if_pos hdom, hcontent]
  have hset : a.setValue o key v = a.setDom key (keptBytes key v) := by rw [Alesh.setValue, if_pos hdom]
  simp only [Alesh.put, if_neg hclass.1, if_neg hclass.2.1, if_neg himage, if_neg horder, if_neg hregion, if_neg htail, if_neg htakeover,
    if_neg hmargin, if_neg hplate, if_neg hquota, if_neg hretire, if_neg hjoin, require_pos hopen, require_pos hvalue, hset, Alesh.afterWrite,
    if_neg hclass.2.2, if_neg hhosting, if_neg hstage]

include hobj
/-- A whole value of a DOMAIN object that is writable now is stored, where no staged write of it is open (R351). -/
theorem Alesh.writeValue_dom (htype : a.typeOk o v = true) (hfree : a.stageHolds key = false) :
    a.writeValue via key (some v) now = (.ok, a.setDom key (keptBytes key v)) := by
  have hclass : o.cls ≠ .ro ∧ o.cls ≠ .rwk := by rcases hcls with h | ⟨h, -⟩ <;> simp [h]
  have horder : key ≠ O.SWITCH_ORDER := (ownRow_eq_false_iff.1 hown).2.1
  simp only [Alesh.writeValue, hobj, hclass.1, hclass.2, horder, false_and, or_self, if_false, htype, if_true,
    Alesh.put_dom now hcls hdom hown hcontent]
  exact unlessStaged_free (by simp [hfree])

end

/-! ### The mailbox -/

theorem mailLength_iff {n : Nat} : mailLength n = true ↔ 1 ≤ n ∧ n ≤ 4096 := by simp [mailLength]

section
variable {a : Alesh} (hbusy : a.win.mbBusy = false) (hlen : mailLength a.win.mbLen = true)
include hbusy

theorem Alesh.mbWrite_of_length (h : ¬mailLength a.win.mbLen = true) (keeper final : Bool) (now : Nat) :
    a.mbWrite keeper final now = a.mailDone .range := by
  simp [Alesh.mbWrite, hbusy, h]

/-- An abort discards the control port's open write, with the flag MB_ABORT (R359). -/
theorem Alesh.mbAbort_of_open {keeper : Bool} {x : Staged} (hx : a.staged = some x) (hpath : x.path = 0) :
    a.mbAbort keeper = (({ a with staged := none }).ctrl fMbAbort).mailDone .ok := by
  simp [Alesh.mbAbort, hbusy, Alesh.mailAbort, hx, hpath, viaPath]

theorem Alesh.mbAbort_of_closed {keeper : Bool} (hx : ∀ x, a.staged = some x → x.path ≠ 0) : a.mbAbort keeper = a.mailDone .ok := by
  have hkeep : a.mailAbort (.control keeper) = a := by
    cases h : a.staged with
    | none => simp [Alesh.mailAbort, h]
    | some x => simp [Alesh.mailAbort, h, viaPath, hx x h]
  simp [Alesh.mbAbort, hbusy, hkeep]

include hlen

/-- A mailbox write ends with its result in the mailbox's status. -/
theorem Alesh.mbWrite_of_result {keeper final : Bool} {now : Nat} {r : Res} {b : Alesh} (hr : r ≠ .awaited)
    (h : a.mailWrite (.control keeper) a.win.mbAddr a.win.mbOffset final (a.win.mbBuf.read 0 a.win.mbLen) now = (r, b)) :
    a.mbWrite keeper final now = (b.refuse (.control keeper) a.win.mbAddr r).mailDone r := by
  simp [Alesh.mbWrite, hbusy, hlen, h, hr]

/-- A mailbox read of an object that can be read leaves the bytes in the buffer. -/
theorem Alesh.mbRead_of_readable {keeper : Bool} {v : Bytes} (h : a.readValue (.control keeper) a.win.mbAddr = (.ok, v)) :
    a.mbRead keeper = ({ a with win := { a.win with
      mbBuf := a.win.mbBuf.write 0 (slice v a.win.mbOffset a.win.mbLen), mbTotal := v.length } }).mailDone .ok := by
  simp [Alesh.mbRead, hbusy, hlen, Alesh.mailRead, h]

end

section
variable {a : Alesh} (hstaged : a.staged = none) (via : Via) (key : Nat) (data : Bytes) (now : Nat)
include hstaged

theorem Alesh.mailWrite_whole : a.mailWrite via key 0 true data now = a.writeValue via key (some data) now := by
  simp [Alesh.mailWrite, hstaged]

theorem Alesh.mailWrite_first : a.mailWrite via key 0 false data now = a.stageChunk via key 0 false data now := by
  simp [Alesh.mailWrite, hstaged]

variable (hlong : data.length ≤ a.longest key)
include hlong

/-- Where the staging area would pass the end of Tier 0 no chunk is taken (log entry 139). -/
theorem Alesh.stageChunk_of_far (hfar : 2 ^ 40 < a.num O.STAGE_BASE + stageBytes) :
    a.stageChunk via key 0 false data now = (.range, a) := by
  have hclosed : { a with staged := none } = a := by rw [← hstaged]
  have hshort : ¬a.longest key < 0 + data.length := by omega
  have hspace : spaceBytes < a.num O.STAGE_BASE + stageBytes := hfar
  simp only [Alesh.stageChunk, if_neg hshort, if_pos hspace, hclosed]

variable (hnear : a.num O.STAGE_BASE + stageBytes ≤ 2 ^ 40)
include hnear

omit hstaged in
/-- While the memory side is in reset the chunk waits (log entry 154). -/
theorem Alesh.stageChunk_of_down (hdown : a.ctl.upM = false) : a.stageChunk via key 0 false data now = (.busy, a) := by
  have hshort : ¬a.longest key < 0 + data.length := by omega
  have hspace : ¬spaceBytes < a.num O.STAGE_BASE + stageBytes := Nat.not_lt.2 hnear
  simp only [Alesh.stageChunk, if_neg hshort, if_neg hspace, hdown, Bool.not_false, if_true]

omit hstaged in
/-- A first chunk opens the staged write and lies at STAGE_BASE (R360). -/
theorem Alesh.stageChunk_of_up (hup : a.ctl.upM = true) (hretired : a.errs.retired = [])
    (hfenced : a.fenced (a.num O.STAGE_BASE) data.length = false) : a.stageChunk via key 0 false data now =
      (.ok, { a with mem0 := a.mem0.write (a.num O.STAGE_BASE) data, staged := some { path := viaPath via, key := key, len := data.length } }) := by
  have hshort : ¬a.longest key < data.length := Nat.not_lt.2 hlong
  have hspace : ¬spaceBytes < a.num O.STAGE_BASE + stageBytes := Nat.not_lt.2 hnear
  have hwr : a.wr (a.num O.STAGE_BASE) data = { a with mem0 := a.mem0.write (a.num O.STAGE_BASE) data } := by
    simp [Alesh.wr, hfenced, hretired]
  simp only [Alesh.stageChunk, Nat.add_zero, Nat.zero_add, if_neg hshort, if_neg hspace, hup, Bool.not_true, Bool.false_eq_true, if_false, hwr]

end

section
variable {a : Alesh} (hbusy : a.win.mbBusy = false) (hlen : mailLength a.win.mbLen = true) (hoff : a.win.mbOffset = 0) (hstaged : a.staged = none)
include hbusy hlen hoff hstaged

/-- A first chunk, with what becomes of it in the staging area. -/
theorem Alesh.mbWrite_of_chunk {keeper : Bool} {now : Nat} {r : Res} {b : Alesh} (hr : r ≠ .awaited)
    (h : a.stageChunk (.control keeper) a.win.mbAddr 0 false (a.win.mbBuf.read 0 a.win.mbLen) now = (r, b)) :
    a.mbWrite keeper false now = (b.refuse (.control keeper) a.win.mbAddr r).mailDone r :=
  Alesh.mbWrite_of_result hbusy hlen hr (by rw [hoff, Alesh.mailWrite_first hstaged]; exact h)

end

/-! ### The mailbox's commands -/

/-- The core as a mailbox write finds it: its clock moved on, the control port's response cleared (R435). -/
def Alesh.mailing (a : Alesh) (c : Clock) : Alesh := { a with clock := c, win := { a.win with rdata := 0 } }

section
variable {s : State} {keeper : Bool} (hcore : s.alesh.ctl.core ≠ .reset) {p : Alesh → Prop}
include hcore

theorem mbRead_gives (h : p (s.alesh.portWrite.mbRead keeper)) : Gives (.mbRead keeper) s p := by
  refine gives_onCore (f := fun a => a.serve (.control keeper) fun b => b.portWrite.mbRead keeper) rfl ?_
  rw [serve_admits (show Admits s.alesh (.control keeper) from hcore)]
  exact h

theorem mbAbort_gives (h : p (s.alesh.portWrite.mbAbort keeper)) : Gives (.mbAbort keeper) s p := by
  refine gives_onCore (f := fun a => a.serve (.control keeper) fun b => b.portWrite.mbAbort keeper) rfl ?_
  rw [serve_admits (show Admits s.alesh (.control keeper) from hcore)]
  exact h

theorem mbWrite_gives {final : Bool} {now : Nat}
    (h : ∀ c, p ((s.alesh.mailing c).mbWrite keeper final now)) :
    Gives (.mbWrite keeper final now) s p := by
  refine gives_onCore (f := fun a => (a.at now).serve (.control keeper) fun b => b.portWrite.mbWrite keeper final now) rfl ?_
  rw [serve_admits (show Admits (s.alesh.at now) (.control keeper) by rw [Admits, Alesh.at_ctl]; exact hcore), Alesh.at_frame]
  exact h _

end

/-- Settles O10: each command by what its transfer answers. -/
theorem mailboxMovesWholeValues : Obligations.MailboxMovesWholeValues := by
  unfold Obligations.MailboxMovesWholeValues
  intro s keeper hcore hbusy w key frame status
  refine ⟨fun o hobj hcmd hwo hlo hhi => ?_, fun hlen final now => ?_, fun o now hobj hcls hdom hown hlo hhi hoff hstaged => ⟨?_, ?_, ?_, ?_⟩,
    fun x hx hpath => ?_, fun hx => ?_⟩
  · refine mbRead_gives hcore ?_
    set v := (s.alesh.readValue (.control keeper) key).2
    have hread : s.alesh.portWrite.readValue (.control keeper) key = (.ok, v) := by
      have hok : (s.alesh.readValue (.control keeper) key).1 = .ok := by simp [Alesh.readValue, hobj, hcmd, hwo]
      exact (show s.alesh.readValue (.control keeper) key = _ from Prod.ext hok rfl)
    rw [Alesh.mbRead_of_readable (a := s.alesh.portWrite) hbusy (mailLength_iff.2 ⟨hlo, hhi⟩) hread]
    refine ⟨?_, rfl, ⟨rfl, rfl, rfl⟩, rfl⟩
    have hsame := Memory.read_write_same w.mbBuf 0 (slice v w.mbOffset w.mbLen)
    rwa [slice_length] at hsame
  · refine mbWrite_gives hcore fun c => ?_
    rw [Alesh.mbWrite_of_length (a := s.alesh.mailing c) hbusy (mailLength_iff.not.2 hlen)]
    exact ⟨⟨rfl, rfl, rfl⟩, ⟨fun _ _ => rfl, fun _ _ => rfl⟩, rfl⟩
  · intro v htype hcontent
    refine mbWrite_gives hcore fun c => ?_
    have hwrite : (s.alesh.mailing c).mailWrite (.control keeper) key w.mbOffset true v now = (.ok, (s.alesh.mailing c).setDom key (keptBytes key v)) := by
      rw [hoff, Alesh.mailWrite_whole (a := s.alesh.mailing c) hstaged]
      exact Alesh.writeValue_dom (a := s.alesh.mailing c) now hobj hcls hdom hown hcontent htype (by rw [Alesh.stageHolds, Alesh.mailing, hstaged])
    rw [Alesh.mbWrite_of_result (a := s.alesh.mailing c) hbusy (mailLength_iff.2 ⟨hlo, hhi⟩) (by decide) hwrite]
    refine ⟨Alesh.dom_setDom_same .., ⟨rfl, rfl, rfl⟩, ⟨fun _ _ => rfl, fun k hk => ?_⟩, rfl⟩
    exact (Alesh.dom_setDom ..).trans (if_neg (by simpa [eq_comm] using hk))
  · intro hlong hfar
    refine mbWrite_gives hcore fun c => ?_
    rw [Alesh.mbWrite_of_chunk (a := s.alesh.mailing c) hbusy (mailLength_iff.2 ⟨hlo, hhi⟩) hoff hstaged (by decide)
      (Alesh.stageChunk_of_far (a := s.alesh.mailing c) hstaged _ _ _ _ ((Memory.length_read ..).trans_le hlong) hfar)]
    exact ⟨⟨rfl, rfl, rfl⟩, ⟨fun _ _ => rfl, fun _ _ => rfl⟩, rfl⟩
  · intro hlong hnear hdown
    refine mbWrite_gives hcore fun c => ?_
    rw [Alesh.mbWrite_of_chunk (a := s.alesh.mailing c) hbusy (mailLength_iff.2 ⟨hlo, hhi⟩) hoff hstaged (by decide)
      (Alesh.stageChunk_of_down (a := s.alesh.mailing c) _ _ _ _ ((Memory.length_read ..).trans_le hlong) hnear hdown)]
    exact ⟨⟨rfl, rfl, rfl⟩, ⟨fun _ _ => rfl, fun _ _ => rfl⟩, rfl⟩
  · intro hlong hnear hup hretired hfenced
    refine mbWrite_gives hcore fun c => ?_
    have hread : (w.mbBuf.read 0 w.mbLen).length = w.mbLen := Memory.length_read ..
    rw [Alesh.mbWrite_of_chunk (a := s.alesh.mailing c) hbusy (mailLength_iff.2 ⟨hlo, hhi⟩) hoff hstaged (by decide)
      (Alesh.stageChunk_of_up (a := s.alesh.mailing c) _ _ _ _ (hread.trans_le hlong) hnear hup hretired ((congrArg (s.alesh.fenced _) hread).trans hfenced))]
    refine ⟨congrArg (fun n => some (Staged.mk 0 key n)) hread, ⟨rfl, rfl, rfl⟩, ⟨fun _ _ => rfl, fun _ _ => rfl⟩, ?_, fun x hx => ?_, rfl⟩
    · have hsame := Memory.read_write_same s.alesh.mem0 (s.alesh.num O.STAGE_BASE) (w.mbBuf.read 0 w.mbLen)
      rwa [hread] at hsame
    · exact (Memory.get_write ..).trans (if_neg (by rw [Memory.length_read]; exact hx))
  · refine mbAbort_gives hcore ?_
    rw [Alesh.mbAbort_of_open (a := s.alesh.portWrite) hbusy hx hpath]
    exact ⟨rfl, flag_testBit_self .., ⟨rfl, rfl, rfl⟩, flag_sameBut .., rfl⟩
  · refine mbAbort_gives hcore ?_
    rw [Alesh.mbAbort_of_closed (a := s.alesh.portWrite) hbusy hx]
    exact ⟨⟨rfl, rfl, rfl⟩, rfl⟩

end Sys2Proof.Machine
end

section
/-! SUPPORT. Writes of objects that have a row of their own (R233, R289, R304, R306, R315, R324, R327, R371, R398, R405). -/
namespace Sys2Proof.Machine

/-! ### A command as its path takes it -/

theorem taken_isKeeper (a : Alesh) (via v : Via) : (a.taken via).isKeeper v = a.isKeeper v := by
  cases v <;> simp only [Alesh.isKeeper, taken_num a via O.PRIV_MAP (by decide)]

theorem taken_rwdOpen (a : Alesh) (via : Via) (key : Nat) : (a.taken via).rwdOpen key = a.rwdOpen key := by
  simp only [Alesh.rwdOpen, Alesh.unit, taken_ctl]

theorem taken_inJob (a : Alesh) (via : Via) : (a.taken via).inJob = a.inJob := by simp only [Alesh.inJob, taken_ctl]

theorem sameBut_setDom (a : Alesh) (k : Nat) (v : Bytes) : SameBut [] [k] a (a.setDom k v) :=
  ⟨fun _ _ => rfl, fun j hj => (Alesh.dom_setDom ..).trans (if_neg (by simpa [eq_comm] using hj))⟩

theorem sameBut_at (a : Alesh) (now : Nat) : SameBut [] [] a (a.at now) := ⟨fun _ _ => Alesh.num_at .., fun _ _ => Alesh.dom_at ..⟩

theorem SameBut.widen {n1 n2 d1 d2 : List Nat} {a b : Alesh} (h : SameBut n1 d1 a b) (hn : ∀ k ∈ n1, k ∈ n2) (hd : ∀ k ∈ d1, k ∈ d2) :
    SameBut n2 d2 a b := ⟨fun k hk => h.1 k fun hk' => hk (hn k hk'), fun k hk => h.2 k fun hk' => hk (hd k hk')⟩

/-- An answer on an access's path leaves the dictionary. -/
theorem SameBut.answered {nums doms : List Nat} {a b c : Alesh} (h : SameBut nums doms a b) (hc : Answered b c) : SameBut nums doms a c :=
  ⟨fun k hk => (hc.num k).trans (h.1 k hk), fun k hk => (hc.dom k).trans (h.2 k hk)⟩

/-! ### CHRONO_TAIL -/

/-- Where a tail may stand follows from the ring and its place in Tier 0 alone (R289). -/
theorem taken_chronoBounds (a : Alesh) (via : Via) (fuel t : Nat) : (a.taken via).chronoBounds fuel t = a.chronoBounds fuel t := by
  have hhead : (a.taken via).num O.CHRONO_HEAD = a.num O.CHRONO_HEAD := taken_num _ _ _ (by decide)
  have hpages : (a.taken via).num O.CHRONO_PAGES = a.num O.CHRONO_PAGES := taken_num _ _ _ (by decide)
  have hbase : (a.taken via).num O.CHRONO_BASE = a.num O.CHRONO_BASE := taken_num _ _ _ (by decide)
  have hspare : (a.taken via).num O.SPARE_BASE = a.num O.SPARE_BASE := taken_num _ _ _ (by decide)
  have hmem : (a.taken via).mem0 = a.mem0 := by rw [taken_frame]
  have herrs : (a.taken via).errs = a.errs := by rw [taken_frame]
  have hsize : (a.taken via).chronoSize = a.chronoSize := by simp only [Alesh.chronoSize, hpages]
  have hlength : (a.taken via).chronoLength = a.chronoLength := by
    funext off
    simp only [Alesh.chronoLength, Alesh.rdLe, Alesh.rd, Alesh.place, hbase, hspare, hmem, herrs]
  induction fuel generalizing t with
  | zero => rfl
  | succ fuel ih => simp only [Alesh.chronoBounds, hhead, hsize, hlength, ih]

/-- The offsets at which the tail may stand now (R289). -/
def Alesh.tailStops (a : Alesh) : List Nat := a.chronoBounds (a.chronoSize / 64 + 1) (a.num O.CHRONO_TAIL)

theorem taken_tailStops (a : Alesh) (via : Via) : (a.taken via).tailStops = a.tailStops := by
  have hpages : (a.taken via).num O.CHRONO_PAGES = a.num O.CHRONO_PAGES := taken_num _ _ _ (by decide)
  have htail : (a.taken via).num O.CHRONO_TAIL = a.num O.CHRONO_TAIL := taken_num _ _ _ (by decide)
  simp only [Alesh.tailStops, taken_chronoBounds, htail, Alesh.chronoSize, hpages]

theorem chronoTailWrite_moves {s : State} {via : Via} {t : Nat} (hadm : Admits s.alesh via) (ht : s.alesh.tailStops.contains t = true) :
    Ends (.chronoTailWrite via t) s via O.CHRONO_TAIL false .ok fun b =>
      b.num O.CHRONO_TAIL = t ∧ SameBut [O.CHRONO_TAIL, O.DICT_INBAND_COUNT] [] s.alesh b ∧
      b = { s.alesh with dict := b.dict, win := b.win, mgmt := b.mgmt, ports := b.ports } := by
  have hmove : chronoTail t (s.alesh.taken via) = (.ok, (s.alesh.taken via).setNum O.CHRONO_TAIL t) := by
    rw [chronoTail, ← Alesh.tailStops, taken_tailStops, require_pos ht]
  refine ends_of_ok rfl hadm hmove fun b hb => ⟨?_, ?_, ?_⟩
  · exact (hb.num _).trans (Alesh.num_setNum_same ..)
  · exact ((sameBut_setNum ..).after (taken_sameBut ..)).answered hb
  · rw [hb, taken_frame]; rfl

theorem chronoTailWrite_refused {s : State} {via : Via} {t : Nat} (hadm : Admits s.alesh via) (ht : s.alesh.tailStops.contains t = false) :
    Ends (.chronoTailWrite via t) s via O.CHRONO_TAIL false .range fun b => b.num O.CHRONO_TAIL = s.alesh.num O.CHRONO_TAIL := by
  have hstay : chronoTail t (s.alesh.taken via) = (.range, s.alesh.taken via) := by
    rw [chronoTail, ← Alesh.tailStops, taken_tailStops, require_neg ht]
  exact ends_of_refused rfl hadm hstay (by decide) (by decide) fun b hb => (hb.num _).trans (taken_num _ _ _ (by decide))

/-! ### OVERLAY_IMAGE -/

/-- A core with the image of one slot gone. -/
def Alesh.withoutImage (a : Alesh) (slot : Nat) : Alesh :=
  { a with dict := { a.dict with images := a.dict.images.filter fun p => p.1 != slot } }

theorem overlayImage_empties {a : Alesh} {slot : Nat} (hslot : slot < 8) (hopen : a.rwdOpen O.OVERLAY_IMAGE = true) :
    overlayImage slot [] a = (.ok, (a.withoutImage slot).setNum O.OVERLAY_LOADED (packBits ((a.withoutImage slot).dict.images.map fun p => (p.1, 1, 1)))) := by
  simp only [overlayImage, decide_eq_true hslot, hopen, require, if_true, List.isEmpty_nil, Bool.true_or, List.length_nil, Nat.zero_le, decide_true]
  rfl

theorem rwdOpen_of_disabled {a : Alesh} (h : ∀ u, u < 9 → a.unit u = .disabled) : a.rwdOpen O.OVERLAY_IMAGE = true := by
  have hall : unitsFor O.OVERLAY_IMAGE = List.range 9 := by decide
  simpa [Alesh.rwdOpen, hall] using h

theorem overlayImageWrite_empties {s : State} {via : Via} {slot : Nat} (hadm : Admits s.alesh via) (hslot : slot < 8)
    (h : ∀ u, u < 9 → s.alesh.unit u = .disabled) :
    Ends (.overlayImageWrite via slot []) s via (O.OVERLAY_IMAGE + slot) true .ok fun b =>
      b.dict.images = s.alesh.dict.images.filter (fun p => p.1 != slot) ∧ SameBut [O.OVERLAY_LOADED, O.DICT_INBAND_COUNT] [] s.alesh b ∧
      b = { s.alesh with dict := b.dict, win := b.win, mgmt := b.mgmt, ports := b.ports } := by
  have hopen : (s.alesh.taken via).rwdOpen O.OVERLAY_IMAGE = true := (taken_rwdOpen ..).trans (rwdOpen_of_disabled h)
  have himages : (s.alesh.taken via).dict.images = s.alesh.dict.images := by cases via <;> rfl
  have hempty : SameBut [] [] (s.alesh.taken via) ((s.alesh.taken via).withoutImage slot) := ⟨fun _ _ => rfl, fun _ _ => rfl⟩
  refine ends_of_ok rfl hadm (overlayImage_empties hslot hopen) fun b hb => ⟨?_, ?_, ?_⟩
  · rw [hb, ← himages]; rfl
  · exact (((sameBut_setNum ..).after hempty).after (taken_sameBut ..)).answered hb
  · rw [hb, taken_frame]; rfl

/-! ### REGION_ENTRY -/

section
variable {s : State} {via : Via} {v : Bytes} (hadm : Admits s.alesh via)
include hadm

theorem regionEntryWrite_installs (hkeeper : s.alesh.isKeeper via = true) (hlen : v.length = 33)
    (hok : regionsOk (regionsOf (overlay (s.alesh.dom O.REGION_TABLE) (32 * leAt v 0 1) ((keptBytes O.REGION_ENTRY v).drop 1))) = true) :
    Ends (.regionEntryWrite via v) s via O.REGION_ENTRY true .ok fun b =>
      b.dom O.REGION_TABLE = overlay (s.alesh.dom O.REGION_TABLE) (32 * leAt v 0 1) ((keptBytes O.REGION_ENTRY v).drop 1) ∧
      (b.num O.CTRL_FLAGS).testBit 8 = true ∧ SameBut [O.CTRL_FLAGS, O.DICT_INBAND_COUNT] [O.REGION_TABLE, O.REGION_ENTRY] s.alesh b ∧
      b = { s.alesh with dict := b.dict, evts := b.evts, win := b.win, mgmt := b.mgmt, ports := b.ports } := by
  set t := overlay (s.alesh.dom O.REGION_TABLE) (32 * leAt v 0 1) ((keptBytes O.REGION_ENTRY v).drop 1) with ht
  have hentry : regionEntry via v (s.alesh.taken via) =
      (.ok, (((s.alesh.taken via).setDom O.REGION_TABLE t).setDom O.REGION_ENTRY (keptBytes O.REGION_ENTRY v)).ctrl fProtectionChange) := by
    simp only [regionEntry, taken_dom, ← ht, require_pos ((taken_isKeeper ..).trans hkeeper), require_pos (beq_iff_eq.2 hlen), require_pos hok]
  refine ends_of_ok rfl hadm hentry fun b hb => ⟨?_, ?_, ?_, ?_⟩
  · refine (hb.dom _).trans ((Alesh.dom_setDom ..).trans ((if_neg (by decide)).trans (Alesh.dom_setDom_same ..)))
  · rw [hb.num]; exact flag_testBit_self ..
  · have hsame := ((flag_sameBut _ O.CTRL_FLAGS fProtectionChange).after
      ((sameBut_setDom _ O.REGION_ENTRY (keptBytes O.REGION_ENTRY v)).after (sameBut_setDom _ O.REGION_TABLE t))).after (taken_sameBut s.alesh via)
    exact (hsame.widen (by simp) (by simp)).answered hb
  · rw [hb, taken_frame]; rfl

omit hadm in
theorem refuse_keeperOnly_sameBut (a : Alesh) (via : Via) (key : Nat) :
    SameBut [O.KEEPER_REFUSED_COUNT, O.CTRL_FLAGS] [O.LAST_REFUSED] a (a.refuse via key .keeperOnly) :=
  (sameBut_setDom ..).after ((sameBut_setNum ..).after (flag_sameBut ..))

theorem regionEntryWrite_refused (hkeeper : s.alesh.isKeeper via = false) :
    Ends (.regionEntryWrite via v) s via O.REGION_ENTRY true .keeperOnly fun b =>
      b.dom O.REGION_TABLE = s.alesh.dom O.REGION_TABLE ∧ (b.num O.CTRL_FLAGS).testBit 2 = true := by
  have hentry : regionEntry via v (s.alesh.taken via) = (.keeperOnly, s.alesh.taken via) := require_neg ((taken_isKeeper ..).trans hkeeper) ..
  refine ends_of_refused rfl hadm hentry (by decide) (by decide) fun b hb => ⟨?_, ?_⟩
  · exact (hb.dom _).trans (((refuse_keeperOnly_sameBut ..).2 _ (by decide)).trans (taken_dom ..))
  · rw [hb.num]
    have hflags : ((s.alesh.taken via).refuse via O.REGION_ENTRY .keeperOnly).num O.CTRL_FLAGS = ((s.alesh.taken via).ctrl fKeeperRefused).num O.CTRL_FLAGS :=
      Alesh.num_setNum_ne _ _ (by decide)
    rw [hflags]
    exact flag_testBit_self ..

/-! ### TAKEOVER_SET, RETIRE_LIST, JOIN_SNAPSHOT -/

theorem takeoverSetWrite_stores (hjob : s.alesh.inJob = false) (hlen : v.length ≤ 4194304)
    (hwhole : sumNat ((takeBlocks (v.length / 32 + 1) v).map fun t => t.raw.length) = v.length) :
    Ends (.takeoverSetWrite via v) s via O.TAKEOVER_SET true .ok fun b =>
      b.dom O.TAKEOVER_SET = keptBytes O.TAKEOVER_SET v ∧ SameBut [O.DICT_INBAND_COUNT] [O.TAKEOVER_SET] s.alesh b ∧
      b = { s.alesh with dict := b.dict, win := b.win, mgmt := b.mgmt, ports := b.ports } := by
  set c := (s.alesh.taken via).setDom O.TAKEOVER_SET (keptBytes O.TAKEOVER_SET v)
  have hidle : c.inJob = false := (taken_inJob ..).trans hjob
  have hset : takeoverSet v (s.alesh.taken via) = (.ok, c) := by
    rw [takeoverSet, require_pos (decide_eq_true hlen), require_pos (beq_iff_eq.2 hwhole)]
    exact congrArg (Prod.mk Res.ok) (if_neg (by rw [hidle]; decide))
  refine ends_of_ok rfl hadm hset fun b hb => ⟨(hb.dom _).trans (Alesh.dom_setDom_same ..), ?_, ?_⟩
  · exact ((sameBut_setDom ..).after (taken_sameBut ..)).answered hb
  · rw [hb]
    simp only [c]
    rw [taken_frame]; rfl

theorem retireListWrite_applies (hopen : s.alesh.rwdOpen O.RETIRE_LIST = true) (hmod : v.length % 8 = 0) (hlen : v.length ≤ 32768) :
    Ends (.retireListWrite via v) s via O.RETIRE_LIST true .ok fun b =>
      b.errs.retired = ((List.range (v.length / 8)).map fun i => (leAt v (8 * i) 8 % 2 ^ 24, bf (leAt v (8 * i) 8) 24 12)) ∧
      b.num O.RETIRED_COUNT = v.length / 8 ∧ SameBut [O.RETIRED_COUNT, O.DICT_INBAND_COUNT] [O.RETIRE_LIST] s.alesh b ∧
      b = { s.alesh with errs := b.errs, dict := b.dict, win := b.win, mgmt := b.mgmt, ports := b.ports } := by
  have hlength : (v.length % 8 == 0 && decide (v.length ≤ 32768)) = true := by simp [hmod, hlen]
  set c := (s.alesh.taken via).setDom O.RETIRE_LIST (keptBytes O.RETIRE_LIST v)
  set entries := (List.range (v.length / 8)).map fun i => (leAt v (8 * i) 8 % 2 ^ 24, bf (leAt v (8 * i) 8) 24 12)
  have hcount : entries.length = v.length / 8 := by rw [List.length_map, List.length_range]
  have hlist : retireList v (s.alesh.taken via) =
      (.ok, ({ c with errs := { (s.alesh.taken via).errs with retired := entries } } : Alesh).setNum O.RETIRED_COUNT entries.length) := by
    rw [retireList, require_pos hlength, require_pos ((taken_rwdOpen ..).trans hopen)]
  refine ends_of_ok rfl hadm hlist fun b hb => ⟨?_, ?_, ?_, ?_⟩
  · rw [hb]; rfl
  · exact (hb.num _).trans ((Alesh.num_setNum_same ..).trans hcount)
  · have hstored : SameBut [] [O.RETIRE_LIST] (s.alesh.taken via) { c with errs := { (s.alesh.taken via).errs with retired := entries } } :=
      (sameBut_setDom ..).of_dict rfl
    exact (((sameBut_setNum ..).after hstored).after (taken_sameBut ..)).answered hb
  · rw [hb]
    simp only [c]
    rw [taken_frame]; rfl

/-- The core that takes a JOIN_SNAPSHOT, before its WATCH marks are settled (R398). -/
def Alesh.joinedBy (a : Alesh) (v : Bytes) : Alesh :=
  ((({ (a.setDom O.JOIN_SNAPSHOT (keptBytes O.JOIN_SNAPSHOT v)) with memb :=
    { Memb.reset with members := bitmapNodes (slice v 48 32768), draining := bitmapNodes (slice v 32816 32768) } }).setNum
    O.MEMBERSHIP_EPOCH (leAt v 0 4)).setNum O.CONFIG_EPOCH (leAt v 4 4)).setNum O.ACTIVE_OVERLAY (leAt v 8 1)

omit hadm in
theorem Alesh.joinedBy_num (a : Alesh) : (a.joinedBy v).num O.MEMBERSHIP_EPOCH = leAt v 0 4 ∧ (a.joinedBy v).num O.CONFIG_EPOCH = leAt v 4 4 ∧
    (a.joinedBy v).num O.ACTIVE_OVERLAY = leAt v 8 1 := by
  simp [Alesh.joinedBy, Alesh.num_setNum]

omit hadm in
theorem Alesh.joinedBy_sameBut (a : Alesh) :
    SameBut [O.MEMBERSHIP_EPOCH, O.CONFIG_EPOCH, O.ACTIVE_OVERLAY] [O.JOIN_SNAPSHOT] a (a.joinedBy v) := by
  have hstored : SameBut [] [O.JOIN_SNAPSHOT] a (a.setDom O.JOIN_SNAPSHOT (keptBytes O.JOIN_SNAPSHOT v)) := sameBut_setDom ..
  exact ((sameBut_setNum ..).after ((sameBut_setNum ..).after ((sameBut_setNum ..).after (hstored.of_dict rfl)))).widen (by simp) (by simp)

theorem joinSnapshotWrite_adopts (hopen : s.alesh.rwdOpen O.JOIN_SNAPSHOT = true) (hlen : v.length = 65584) :
    Ends (.joinSnapshotWrite via v) s via O.JOIN_SNAPSHOT true .ok fun b =>
      b.num O.MEMBERSHIP_EPOCH = leAt v 0 4 ∧ b.num O.CONFIG_EPOCH = leAt v 4 4 ∧ b.num O.ACTIVE_OVERLAY = leAt v 8 1 ∧
      b.memb.members = bitmapNodes (slice v 48 32768) ∧
      b.health.watch = s.alesh.health.watch.filter (fun w => b.memb.members.contains w.1) ∧
      b.health = { s.alesh.health with watch := b.health.watch } ∧
      SameBut [O.MEMBERSHIP_EPOCH, O.CONFIG_EPOCH, O.ACTIVE_OVERLAY, O.DICT_INBAND_COUNT] [O.JOIN_SNAPSHOT, O.WATCH_LIST] s.alesh b ∧
      b = { s.alesh with memb := b.memb, health := b.health, dict := b.dict, win := b.win, mgmt := b.mgmt, ports := b.ports } := by
  set c := (s.alesh.taken via).joinedBy v with hc
  have hjoin : joinSnapshot v (s.alesh.taken via) = (.ok, c.watchMembers) := by
    rw [joinSnapshot, require_pos (beq_iff_eq.2 hlen), require_pos ((taken_rwdOpen ..).trans hopen)]
    rfl
  obtain ⟨hepoch, hconfig, hoverlay⟩ := (s.alesh.taken via).joinedBy_num (v := v)
  have hwatch : c.health = s.alesh.health := by rw [hc, taken_frame]; rfl
  refine ends_of_ok rfl hadm hjoin fun b hb => ⟨(hb.num _).trans hepoch, (hb.num _).trans hconfig, (hb.num _).trans hoverlay, ?_, ?_, ?_, ?_, ?_⟩
  · rw [hb]; rfl
  · rw [hb, ← hwatch]; rfl
  · rw [hb, ← hwatch]; rfl
  · have hsame : SameBut [] [O.WATCH_LIST] c c.watchMembers := sameBut_setDom ..
    exact (((hsame.after (Alesh.joinedBy_sameBut _)).after (taken_sameBut ..)).widen (by simp) (by simp)).answered hb
  · rw [hb, hc, taken_frame]; rfl

end

/-! ### THERM_MARGIN, PLATE_ENABLE, TIER_QUOTA -/

theorem signedOf_margin {v : Nat} (h : v ≤ 127 ∨ (2 ^ 32 - 128 ≤ v ∧ v < 2 ^ 32)) :
    (decide (v < 2 ^ 32) && decide (-128 ≤ signedOf 32 v) && decide (signedOf 32 v ≤ 127)) = true := by
  have hmod : v % 2 ^ 32 = v := Nat.mod_eq_of_lt (by omega)
  simp only [Bool.and_eq_true, decide_eq_true_eq, signedOf, hmod]
  rcases h with hsmall | ⟨hlow, hhigh⟩
  · rw [if_pos (by omega)]
    omega
  · rw [if_neg (by omega)]
    omega

theorem thermMarginWrite_restarts {s : State} {via : Via} {v now : Nat} (hadm : Admits s.alesh via) (hv : v ≤ 127 ∨ (2 ^ 32 - 128 ≤ v ∧ v < 2 ^ 32)) :
    Ends (.thermMarginWrite via v now) s via O.THERM_MARGIN false .ok fun b =>
      b.num O.THERM_MARGIN = v ∧ b.health.thermAt = b.clock.captured ∧ b.health.thermStale = false ∧
      SameBut [O.THERM_MARGIN, O.DICT_INBAND_COUNT] [] s.alesh b ∧
      b = { s.alesh with clock := b.clock, health := b.health, dict := b.dict, win := b.win, mgmt := b.mgmt, ports := b.ports } := by
  set c := (s.alesh.taken via).at now with hc
  have hwrite : thermWrite v now (s.alesh.taken via) =
      (.ok, { (c.setNum O.THERM_MARGIN v) with health := { c.health with thermAt := c.now, thermStale := false } }) :=
    require_pos (signedOf_margin hv) ..
  have hsame : SameBut [O.THERM_MARGIN, O.DICT_INBAND_COUNT] [] s.alesh (c.setNum O.THERM_MARGIN v) :=
    (sameBut_setNum ..).after ((sameBut_at ..).after (taken_sameBut ..))
  refine ends_of_ok rfl hadm hwrite fun b hb => ⟨(hb.num _).trans (Alesh.num_setNum_same ..), ?_, ?_, ?_, ?_⟩
  · rw [hb]; rfl
  · rw [hb]
  · exact hsame.of_dict (by rw [hb])
  · rw [hb, hc, Alesh.at_frame, taken_frame]; rfl

theorem plateEnableWrite_stores {s : State} {via : Via} {now : Nat} (hadm : Admits s.alesh via) :
    Ends (.plateEnableWrite via 1 now) s via O.PLATE_ENABLE false .ok fun b =>
      b.num O.PLATE_ENABLE = 1 ∧ SameBut [O.PLATE_ENABLE, O.DICT_INBAND_COUNT] [] s.alesh b ∧
      b = { s.alesh with clock := b.clock, dict := b.dict, win := b.win, mgmt := b.mgmt, ports := b.ports } := by
  set c := (s.alesh.taken via).at now with hc
  have hwrite : plateEnable 1 now (s.alesh.taken via) = (.ok, c.setNum O.PLATE_ENABLE 1) := require_pos (by decide) ..
  refine ends_of_ok rfl hadm hwrite fun b hb => ⟨(hb.num _).trans (Alesh.num_setNum_same ..), ?_, ?_⟩
  · exact ((sameBut_setNum ..).after ((sameBut_at ..).after (taken_sameBut ..))).answered hb
  · rw [hb, hc, Alesh.at_frame, taken_frame]; rfl

/-- With no page in the tiers nothing is evicted and no promotion waits for a frame (R306). -/
theorem Alesh.withinQuota_of_no_pages {a : Alesh} (h : a.fabric.pages = []) : a.withinQuota = a := by
  have hframes (tenant tier : Nat) : a.tenantFrames tenant tier = [] := by simp [Alesh.tenantFrames, Alesh.framesIn, h]
  have hshrink (tenant tier : Nat) : a.shrinkTo tenant tier ((a.tenantFrames tenant tier).length + 1) = a := by
    simp [Alesh.shrinkTo, hframes]
  have hfold (l : List Nat) : l.foldl (fun (c : Alesh) (i : Nat) => c.shrinkTo (i / 2) (i % 2) ((c.tenantFrames (i / 2) (i % 2)).length + 1)) a = a := by
    induction l with
    | nil => rfl
    | cons i l ih => rw [List.foldl_cons, hshrink, ih]
  rw [Alesh.withinQuota, hfold, Alesh.assignFrames, h, List.filter_nil, List.foldl_nil]

theorem tierQuotaWrite_stores {s : State} {via : Via} {v : Bytes} (hadm : Admits s.alesh via) (hlen : v.length = 192)
    (hpages : s.alesh.fabric.pages = []) :
    Ends (.tierQuotaWrite via v) s via O.TIER_QUOTA true .ok fun b => b.dom O.TIER_QUOTA = v := by
  have hnone : ((s.alesh.taken via).setDom O.TIER_QUOTA v).fabric.pages = [] := by rw [taken_frame]; exact hpages
  have hwrite : tierQuota v (s.alesh.taken via) = (.ok, (s.alesh.taken via).setDom O.TIER_QUOTA v) := by
    rw [tierQuota, require_pos (beq_iff_eq.2 hlen), Alesh.withinQuota_of_no_pages hnone]
  exact ends_of_ok rfl hadm hwrite fun b hb => (hb.dom _).trans (Alesh.dom_setDom_same ..)

/-! ### A margin that goes stale -/

theorem thermStaleTimeout_flags {s : State} {now : Nat} (hvalid : s.alesh.clock.valid = true) (hlimit : s.alesh.num O.THERM_STALE_NS ≠ 0)
    (hfresh : s.alesh.health.thermStale = false) (hdue : s.alesh.health.thermAt + s.alesh.num O.THERM_STALE_NS ≤ max s.alesh.clock.captured now) :
    Gives (.thermStaleTimeout now) s fun b =>
      b.health = { s.alesh.health with thermStale := true } ∧ (b.num O.HEALTH_FLAGS).testBit 10 = true ∧
      SameBut [O.HEALTH_FLAGS] [] s.alesh b ∧ b = { s.alesh with clock := b.clock, health := b.health, dict := b.dict, evts := b.evts } := by
  refine gives_onCore (f := fun a => (a.at now).thermCheck) rfl ?_
  have hnow : (s.alesh.at now).now = max s.alesh.clock.captured now := by rw [Alesh.now_at, hvalid]; rfl
  have hthermDue : (s.alesh.at now).thermDue = true := by
    rw [Alesh.thermDue, Alesh.num_at, Alesh.due_of_valid ((Alesh.valid_at ..).trans hvalid), Alesh.at_health, hnow, decide_eq_true hdue, bne_iff_ne.2 hlimit]
    rfl
  have hcheck : (s.alesh.at now).thermCheck =
      ({ s.alesh.at now with health := { (s.alesh.at now).health with thermStale := true } } : Alesh).healthFlag hThermStale := by
    simp only [Alesh.thermCheck, hthermDue, Alesh.valid_at, hvalid, Alesh.at_health, hfresh, Bool.not_false, Bool.and_self, if_true]
  rw [hcheck, Alesh.at_frame]
  exact ⟨rfl, flag_testBit_self .., flag_sameBut .., rfl⟩

/-- Settles O12, one object at a time. -/
theorem writesWithRowsOfTheirOwn : Obligations.WritesWithRowsOfTheirOwn := by
  unfold Obligations.WritesWithRowsOfTheirOwn
  refine ⟨⟨?_, ?_, ?_⟩, ?_, ?_, ?_, ?_, ?_, ?_, ?_⟩
  · exact fun s via t hadm => ⟨chronoTailWrite_moves hadm, chronoTailWrite_refused hadm⟩
  · exact fun s via slot hadm hslot hunits => overlayImageWrite_empties hadm hslot hunits
  · exact fun s via v hadm => ⟨regionEntryWrite_installs hadm, regionEntryWrite_refused hadm⟩
  · exact fun s via v hadm hjob hlen hwhole => takeoverSetWrite_stores hadm hjob hlen hwhole
  · exact fun s via v now hadm hv => thermMarginWrite_restarts hadm hv
  · exact fun s now hvalid hlimit hfresh hdue => thermStaleTimeout_flags hvalid hlimit hfresh hdue
  · exact fun s via now hadm => plateEnableWrite_stores hadm
  · exact fun s via v hadm hlen hpages => tierQuotaWrite_stores hadm hlen hpages
  · exact fun s via v hadm hopen hmod hlen => retireListWrite_applies hadm hopen hmod hlen
  · exact fun s via v hadm hopen hlen => joinSnapshotWrite_adopts hadm hopen hlen

end Sys2Proof.Machine
end

section
/-! SUPPORT. Certificates as they are judged, and what their adoption changes (R202, R211 to R219, R397, R398). -/
namespace Sys2Proof.Machine

/-! ### The core that a certificate reaches -/

/-- The same core but for the count of accesses in band, which an install on that path adds to (R445). -/
structure Counted (a t : Alesh) : Prop where
  frame : t = { a with dict := t.dict }
  same : SameBut [O.DICT_INBAND_COUNT] [] a t

namespace Counted
variable {a t : Alesh}

theorem refl (a : Alesh) : Counted a a := ⟨rfl, fun _ _ => rfl, fun _ _ => rfl⟩

theorem taken_at (a : Alesh) (via : Via) (now : Nat) : Counted (a.at now) ((a.taken via).at now) where
  frame := by
    rw [taken_frame]
    unfold Alesh.at
    split <;> rfl
  same := ⟨fun k hk => by rw [Alesh.num_at, Alesh.num_at, taken_num _ _ _ (by simpa using hk)], fun k _ => by rw [Alesh.dom_at, Alesh.dom_at, taken_dom]⟩

variable (h : Counted a t)
include h

theorem num {k : Nat} (hk : k ≠ O.DICT_INBAND_COUNT) : t.num k = a.num k := h.same.1 k (by simpa using hk)
theorem dom (k : Nat) : t.dom k = a.dom k := h.same.2 k List.not_mem_nil
theorem ctl : t.ctl = a.ctl := by rw [h.frame]
theorem memb : t.memb = a.memb := by rw [h.frame]
theorem clock : t.clock = a.clock := by rw [h.frame]
theorem comm : t.comm = a.comm := by rw [h.frame]
theorem slots : t.slots = a.slots := by rw [h.frame]
theorem mem0 : t.mem0 = a.mem0 := by rw [h.frame]
theorem mem1 : t.mem1 = a.mem1 := by rw [h.frame]
theorem errs : t.errs = a.errs := by rw [h.frame]

theorem inJob : t.inJob = a.inJob := by rw [Alesh.inJob, h.ctl, Alesh.inJob]
theorem node : t.node = a.node := h.num (by decide)

theorem jobMap : t.jobMap = a.jobMap := by
  simp only [Alesh.jobMap, Alesh.rdLe, Alesh.rd, Alesh.place, h.mem0, h.errs, h.num (k := O.JOB_MAP_ENTRIES) (by decide),
    h.num (k := O.JOB_MAP_BASE) (by decide), h.num (k := O.SPARE_BASE) (by decide)]

theorem mapNow : t.mapNow = a.mapNow := by simp only [Alesh.mapNow, Alesh.mapEntry?, h.jobMap, h.memb]

theorem bitmapsNow : t.bitmapsNow = a.bitmapsNow := by rw [Alesh.bitmapsNow, h.memb, Alesh.bitmapsNow]

theorem certVerified (c : Bytes) : t.certVerified c = a.certVerified c := by
  have hsigned : t.signedBy = a.signedBy := by
    funext c m
    rw [Alesh.signedBy, h.dom, Alesh.signedBy]
  rw [Alesh.certVerified, hsigned, h.num (k := O.QUORUM_Q) (by decide), h.num (k := O.QUORUM_KEY_MASK) (by decide), Alesh.certVerified]

theorem expelOk (c : Bytes) : t.expelOk c = a.expelOk c := by
  rw [Alesh.expelOk, h.bitmapsNow, h.mapNow, h.memb, h.num (k := O.EXPEL_WINDOW_NS) (by decide), h.num (k := O.EXPEL_BUDGET) (by decide),
    h.num (k := O.GROUP_FLOOR) (by decide), Alesh.expelOk]

/-- A certificate is judged alike. -/
theorem judge (c : Bytes) : t.judge c = a.judge c := by
  have hlast : t.lastEpoch = a.lastEpoch := by rw [Alesh.lastEpoch, h.memb, h.num (by decide), Alesh.lastEpoch]
  have hform : t.certFormOk c = a.certFormOk c := by rw [Alesh.certFormOk, h.num (by decide), Alesh.certFormOk]
  have hmap : t.certMapOk c = a.certMapOk c := by rw [Alesh.certMapOk, h.mapNow, Alesh.certMapOk]
  have hissued : t.certIssuedOk c = a.certIssuedOk c := by rw [Alesh.certIssuedOk, h.memb, Alesh.certIssuedOk]
  have hwhole : t.certWhole c = a.certWhole c := by rw [Alesh.certWhole, h.bitmapsNow, h.mapNow, Alesh.certWhole]
  have hdigest : t.certDigestOk c = a.certDigestOk c := by rw [Alesh.certDigestOk, h.bitmapsNow, Alesh.certDigestOk]
  rw [Alesh.judge, hlast, hform, hmap, hissued, hwhole, hdigest, h.certVerified, h.expelOk, h.memb, h.num (k := O.JOB_ID) (by decide), Alesh.judge]

theorem joinRefused (c : Bytes) : t.joinRefused c = a.joinRefused c := by
  have hprint : t.fingerprint = a.fingerprint := by
    simp only [Alesh.fingerprint, Alesh.fingerprintInput, h.num (k := O.BLOCK_VERSION) (by decide), h.num (k := O.GENERATION) (by decide),
      h.num (k := O.STEPPING) (by decide), h.num (k := O.NUMERIC_MODE) (by decide), h.num (k := O.GRADE) (by decide)]
  rw [Alesh.joinRefused, h.node, h.dom, hprint, Alesh.joinRefused]

theorem joining : t.joining = a.joining := by rw [Alesh.joining, h.ctl, h.memb, h.node, Alesh.joining]

end Counted

/-- The core that a certificate reaches in a packet, where `r`, or by its driver's install. -/
def certCore (s : State) (now : Nat) (m : Pkt) (r : Bool) : Alesh := if r then s.alesh.heard now m.src else s.alesh.at now
/-- The certificate that comes in. -/
def certIn (s : State) (m : Pkt) (r : Bool) : Bytes := if r then m.payload else s.alesh.dom O.CERT_MAILBOX

/-- What a certificate that comes in, either way, ends with. -/
def CertEnds (s : State) (via : Via) (now : Nat) (m : Pkt) (r : Bool) (res : Res) (p : Alesh → Prop) : Prop :=
  if r then
    (m.version = 1 → m.dst = s.alesh.node → m.vc = 0 → m.route = (certCore s now m r).num O.ROUTE_EPOCH → certShape (certIn s m r) = true →
      bf m.args 28 32 = certEpoch (certIn s m r) → Gives (.grantMembershipRx now m) s p)
  else (Admits s.alesh via → (certCore s now m r).memb.waitVia = none → Ends (.membInstall via now) s via O.MEMB_INSTALL false res p)

theorem Alesh.learnRoute_self {a : Alesh} {m : Pkt} (h : m.route = a.num O.ROUTE_EPOCH) : a.learnRoute m = a := by
  simp [Alesh.learnRoute, h, newer16_self]

/-- A packet of the core's own route epoch that R180 does not test takes effect on the core that has heard its source. -/
theorem Alesh.receiveAny_of_route {a : Alesh} {now typ : Nat} {m : Pkt} {ok : Bool} (hlisten : a.idleToJob = true) (hversion : m.version = 1)
    (hdst : m.dst = a.node) (hvc : m.vc = typeVc typ) (hok : ok = true) (hroute : m.route = a.num O.ROUTE_EPOCH) (f : Alesh → Alesh) :
    a.receiveAny now typ m ok f = f (a.heard now m.src) := by
  rw [Alesh.receiveAny_of_accepted hlisten hversion hdst hvc hok, Alesh.learnRoute_self (hroute.trans (Alesh.num_at ..).symm), Alesh.heard]

/-- A certificate in a packet is taken by the core that has heard its source (R218). -/
theorem grantMembershipRx_gives {s : State} {now : Nat} {m : Pkt} {p : Alesh → Prop} (hlisten : s.alesh.idleToJob = true) (hversion : m.version = 1)
    (hdst : m.dst = s.alesh.node) (hvc : m.vc = 0) (hroute : m.route = (s.alesh.heard now m.src).num O.ROUTE_EPOCH)
    (hshape : certShape m.payload = true) (hepoch : bf m.args 28 32 = certEpoch m.payload)
    (h : p ((s.alesh.heard now m.src).takeCert m.payload false).2) : Gives (.grantMembershipRx now m) s p := by
  refine gives_onCore (f := Alesh.grantMembership now m) rfl ?_
  have hok : (certShape m.payload && bf m.args 28 32 == certEpoch m.payload) = true := by
    rw [Bool.and_eq_true, beq_iff_eq]
    exact ⟨hshape, hepoch⟩
  rw [Alesh.grantMembership, Alesh.receiveAny_of_route hlisten hversion hdst (hvc.trans (by decide)) hok (hroute.trans (Alesh.num_heard ..))]
  exact h

/-- An install that no other holds back takes the certificate in CERT_MAILBOX. -/
theorem membInstall_takes {s : State} {via : Via} {now : Nat} (hlisten : s.alesh.idleToJob = true) (hwait : (s.alesh.at now).memb.waitVia = none) :
    membInstall now (s.alesh.taken via) = ((s.alesh.taken via).at now).takeCert (s.alesh.dom O.CERT_MAILBOX) true := by
  have hcore : ((s.alesh.taken via).at now).idleToJob = true := by
    simpa only [Alesh.idleToJob, Alesh.joinedOrJob, Alesh.inJob, Alesh.at_ctl, taken_ctl] using hlisten
  have hfree : ((s.alesh.taken via).at now).memb.waitVia.isNone = true := by rw [(Counted.taken_at ..).memb, hwait]; rfl
  rw [membInstall, require_pos hcore, require_pos hfree, Alesh.dom_at, taken_dom]

/-- A certificate that comes in ends as it is taken. -/
theorem certEnds_of_taken {s : State} {via : Via} {now : Nat} {m : Pkt} {r : Bool} {res : Res} {p : Alesh → Prop} (hlisten : s.alesh.idleToJob = true)
    (hres : res = .ok ∨ res = .access)
    (h : ∀ t, Counted (certCore s now m r) t → ∃ d, t.takeCert (certIn s m r) (!r) = (res, d) ∧ ∀ b, Answered d b → p b) :
    CertEnds s via now m r res p := by
  cases r with
  | true =>
    intro hversion hdst hvc hroute hshape hepoch
    obtain ⟨d, htake, hd⟩ := h _ (Counted.refl _)
    refine grantMembershipRx_gives hlisten hversion hdst hvc hroute hshape hepoch (hd _ ?_)
    rw [show (s.alesh.heard now m.src).takeCert m.payload false = (res, d) from htake]
    rfl
  | false =>
    intro hadm hwait
    obtain ⟨d, htake, hd⟩ := h _ (Counted.taken_at s.alesh via now)
    have hinstall := (membInstall_takes hlisten hwait).trans htake
    rcases hres with rfl | rfl
    · exact ends_of_ok rfl hadm hinstall hd
    · exact ends_of_refused rfl hadm hinstall (by decide) (by decide) hd

/-! ### Certificates that change nothing yet -/

section
variable {a : Alesh} {c : Bytes} (installed : Bool)

theorem Alesh.takeCert_of_same (h : a.judge c = .same) : a.takeCert c installed = (.ok, a) := by rw [Alesh.takeCert, h]

theorem Alesh.takeCert_of_unverified (h : a.judge c = .unverified) : a.takeCert c installed = (.access, a) := by rw [Alesh.takeCert, h]; rfl

theorem Alesh.takeCert_of_refused (h : a.judge c = .adopt ∨ a.judge c = .hold) (hr : a.joinRefused c = true) :
    a.takeCert c installed = (.access, a) := by
  rcases h with h | h <;> rw [Alesh.takeCert, h] <;> exact if_pos hr

/-- A certificate further ahead is held, one of at most four (R216). -/
theorem Alesh.takeCert_of_hold (h : a.judge c = .hold) (hr : a.joinRefused c = false) (hwait : a.memb.waitTime = none) (hroom : a.memb.held.length < 4)
    (hnew : ∀ x ∈ a.memb.held, x.1 ≠ c) :
    a.takeCert c installed = (.ok, { a with memb := { a.memb with held := a.memb.held ++ [(c, installed)] } }) := by
  have hnone : (a.memb.held.any fun x => x.1 == c) = false := by simpa using hnew
  rw [Alesh.takeCert, h]
  simp [hr, Alesh.holdCert, hwait, hnone, hroom]

/-- A certificate that is adopted finds none that waits for the time (R216, R397). -/
theorem Alesh.waitTime_of_adopt (h : a.judge c = .adopt) : a.memb.waitTime = none := by
  by_contra hwait
  have hsome : a.memb.waitTime.isSome = true := Option.isSome_iff_ne_none.2 hwait
  unfold Alesh.judge at h
  simp only [hsome, Bool.or_true, if_true] at h
  split_ifs at h

theorem joinRefused_of_kind (h : certKind c ≠ cJoin) : a.joinRefused c = false := by simp [Alesh.joinRefused, h]

theorem certRemoves_iff : certRemoves c = true ↔ certKind c = cLoss ∨ certKind c = cExpel := by simp [certRemoves]

theorem kind_of_removes (h : certRemoves c = true) : certKind c ≠ cLeave ∧ certKind c ≠ cRetire ∧ certKind c ≠ cJoin := by
  rcases certRemoves_iff.1 h with h | h <;> rw [h] <;> decide

/-- A removal that a JOINED core cannot date yet waits for the time, and its install for its result (R367, R397). -/
theorem Alesh.takeCert_of_wait (h : a.judge c = .adopt) (hcore : a.ctl.core = .joined) (hjoining : a.joining = false) (hrem : certRemoves c = true)
    (hstart : a.comm.start = none) (hvalid : a.clock.valid = false) :
    a.takeCert c installed =
      (if installed then .awaited else .ok, { a with memb := { a.memb with waitTime := some (c, installed) } }) := by
  have hadopt : a.adopt c installed = { a with memb := { a.memb with waitTime := some (c, installed) } } := by
    simp [Alesh.adopt, hcore, hrem, hjoining, hstart, hvalid]
  rw [Alesh.takeCert, h]
  simp [joinRefused_of_kind (kind_of_removes hrem).2.2, hadopt]

/-- With no certificate held back, adoption is all that a certificate of the next epoch does. -/
theorem Alesh.takeCert_of_adopt (h : a.judge c = .adopt) (hcore : a.ctl.core ≠ .joined) (hkind : certKind c ≠ cJoin)
    (hwait : (a.adoptNow c installed).memb.waitTime = none) (hheld : (a.adoptNow c installed).memb.held = []) :
    a.takeCert c installed = (.ok, a.adoptNow c installed) := by
  have hadopt : a.adopt c installed = a.adoptNow c installed := by simp [Alesh.adopt, hcore]
  rw [Alesh.takeCert, h]
  simp [joinRefused_of_kind hkind, hadopt, hwait, Alesh.drainHeld, hheld]

end

/-! ### Adoption -/

/-- A core with a certificate entered in its history (R216). -/
def Alesh.remembering (a : Alesh) (c : Bytes) : Alesh :=
  { a with memb := { a.memb with history := (a.memb.history ++ [c]).drop ((a.memb.history ++ [c]).length - 16) } }

theorem Alesh.mem_remembering (a : Alesh) (c : Bytes) : c ∈ (a.remembering c).memb.history := by
  have hlen : (a.memb.history ++ [c]).length - 16 ≤ a.memb.history.length := by rw [List.length_append, List.length_singleton]; omega
  show c ∈ (a.memb.history ++ [c]).drop _
  rw [List.drop_append_of_le_length hlen]
  exact List.mem_append_right _ List.mem_cons_self

theorem Alesh.length_remembering (a : Alesh) (c : Bytes) : (a.remembering c).memb.history.length ≤ 16 := by
  show ((a.memb.history ++ [c]).drop _).length ≤ 16
  rw [List.length_drop]; omega

/-- Forwarding a certificate touches the packets and the OCCULTs that go again alone (R218, R224). -/
theorem Alesh.forwardCert_frame (a : Alesh) (c : Bytes) (before : List Nat) : ∃ ports occults,
    a.forwardCert c before = { a with ports := ports, memb := { a.memb with occults := occults } } := by
  have hfold (args : Nat) (l : List Nat) : ∀ b : Alesh, ∃ ports occults, l.foldl (fun (x : Alesh) (n : Nat) =>
      ({ x with memb := { x.memb with occults := x.memb.occults ++ [(n, args, c, 0, x.ackDue)] } }).send tOccult n args c) b =
        { b with ports := ports, memb := { b.memb with occults := occults } } := by
    induction l with
    | nil => exact fun b => ⟨_, _, rfl⟩
    | cons n l ih =>
      intro b
      obtain ⟨ports, occults, hrest⟩ := ih (({ b with memb := { b.memb with occults := b.memb.occults ++ [(n, args, c, 0, b.ackDue)] } }).send tOccult n args c)
      refine ⟨ports, occults, ?_⟩
      rw [List.foldl_cons, hrest, Alesh.send, Alesh.emit_frame]
  unfold Alesh.forwardCert
  extract_lets ns all dsts b args
  obtain ⟨ports, hb⟩ : ∃ ports, b = { a with ports := ports } := by
    simp only [b, Alesh.sendAll_eq]
    exact Alesh.emitEach_frame ..
  rw [hb]
  split
  · obtain ⟨ports', occults, h⟩ := hfold args ns { a with ports := ports }
    exact ⟨ports', occults, h⟩
  · exact ⟨ports, _, rfl⟩

/-- A core with a certificate that waits for its Meridian (R214). -/
def Alesh.deferring (a : Alesh) (c : Bytes) : Alesh := { a with memb := { a.memb with pending := some c } }

/-- What is forwarded where the driver installed the certificate. -/
def Alesh.forwarding (a : Alesh) (c : Bytes) (before : List Nat) (installed : Bool) : Alesh := if installed then a.forwardCert c before else a

theorem Alesh.forwarding_frame (a : Alesh) (c : Bytes) (before : List Nat) (installed : Bool) : ∃ ports occults,
    a.forwarding c before installed = { a with ports := ports, memb := { a.memb with occults := occults } } := by
  unfold Alesh.forwarding
  split
  · exact a.forwardCert_frame c before
  · exact ⟨_, _, rfl⟩

section
variable {a : Alesh} {c : Bytes} (hpending : a.memb.pending = none) (installed : Bool)
include hpending

/-- With none pending, adoption enters the certificate in the history, and then it waits or takes effect (R216). -/
theorem Alesh.adoptNow_of_unpending (hkind : certKind c ≠ cJoin) : a.adoptNow c installed =
    (if certKind c = cLeave ∧ (a.inJob = false ∨ a.num O.STEP_EPOCH < certStep c) then (a.remembering c).deferring c
      else (a.remembering c).effect c).forwarding c a.bitmapsNow.1 installed := by
  unfold Alesh.adoptNow
  extract_lets a' h m b waits n d e
  have ha : a' = a := by simp only [a', hpending]
  have hb : b = a.remembering c := by simp only [b, m, h, ha, Alesh.remembering]
  have hjob : (a.remembering c).inJob = a.inJob := rfl
  have hstep : (a.remembering c).num O.STEP_EPOCH = a.num O.STEP_EPOCH := rfl
  have hwaits : waits = true ↔ certKind c = cLeave ∧ (a.inJob = false ∨ a.num O.STEP_EPOCH < certStep c) := by
    simp [waits, hb, hjob, hstep, hkind]
  have hd : d = if certKind c = cLeave ∧ (a.inJob = false ∨ a.num O.STEP_EPOCH < certStep c) then (a.remembering c).deferring c
      else (a.remembering c).effect c := by
    rw [← hb]
    exact if_congr hwaits rfl rfl
  have he : e = d := by simp only [e, decide_eq_false hkind, Bool.false_and, Bool.false_eq_true, if_false]
  rw [← hd, ← he]
  rfl

/-- A LEAVE waits for its Meridian (R214, R216). -/
theorem Alesh.adoptNow_of_leave (hkind : certKind c = cLeave) (hwait : a.inJob = false ∨ a.num O.STEP_EPOCH < certStep c) :
    a.adoptNow c installed =
      ((a.remembering c).deferring c).forwarding c a.bitmapsNow.1 installed := by
  rw [Alesh.adoptNow_of_unpending hpending installed (by rw [hkind]; decide), if_pos ⟨hkind, hwait⟩]

/-- A LOSS or EXPEL takes effect at once (R219). -/
theorem Alesh.adoptNow_of_removes (hrem : certRemoves c = true) :
    a.adoptNow c installed = ((a.remembering c).effect c).forwarding c a.bitmapsNow.1 installed := by
  obtain ⟨hleave, -, hjoin⟩ := kind_of_removes hrem
  rw [Alesh.adoptNow_of_unpending hpending installed hjoin, if_neg fun h => hleave h.1]

end

/-! ### A removal outside a job -/

/-- What the owners of a departed core's slices become, and where none is left the protection state (R231, R252). -/
structure Reassigned (a b : Alesh) : Prop where
  frame : b = { a with take := b.take, dict := b.dict, evts := b.evts }
  same : SameBut [O.PROTECTION_STATE] [] a b

theorem Alesh.beyondG0_reassigned (a : Alesh) : Reassigned a a.beyondG0 := by
  unfold Alesh.beyondG0
  split
  · exact ⟨rfl, fun _ _ => rfl, fun _ _ => rfl⟩
  · exact ⟨rfl, (sameBut_setNum a ..).of_dict rfl⟩

theorem Reassigned.trans {a b c : Alesh} (hab : Reassigned a b) (hbc : Reassigned b c) : Reassigned a c where
  frame := by
    refine hbc.frame.trans ?_
    rw [hab.frame]
  same := ⟨fun k hk => (hbc.same.1 k hk).trans (hab.same.1 k hk), fun k hk => (hbc.same.2 k hk).trans (hab.same.2 k hk)⟩

theorem Alesh.reassign_reassigned (a : Alesh) (gone : List Nat) : Reassigned a (a.reassign gone) := by
  unfold Alesh.reassign
  generalize sortNat gone = l
  induction l generalizing a with
  | nil => exact ⟨rfl, fun _ _ => rfl, fun _ _ => rfl⟩
  | cons n l ih =>
    rw [List.foldl_cons]
    refine Reassigned.trans ?_ (ih _)
    have howners (owners : List (Nat × Nat)) : Reassigned a { a with take := { a.take with owners := owners } } :=
      ⟨rfl, fun _ _ => rfl, fun _ _ => rfl⟩
    dsimp only
    split
    · exact (howners _).trans (Alesh.beyondG0_reassigned _)
    · exact howners _

/-- The credit granted to departed cores is taken back in the ports alone (R420). -/
theorem Alesh.foldl_reclaim_frame (a : Alesh) (l : List Nat) : ∃ ports,
    l.foldl (fun (x : Alesh) (n : Nat) => x.reclaim n) a = { a with ports := ports } := by
  have hone (b : Alesh) (n : Nat) : ∃ ports, b.reclaim n = { b with ports := ports } := by
    exact ⟨(b.reclaim n).ports, rfl⟩
  induction l generalizing a with
  | nil => exact ⟨_, rfl⟩
  | cons n l ih =>
    obtain ⟨ports, h⟩ := hone a n
    obtain ⟨ports', hrest⟩ := ih (a.reclaim n)
    exact ⟨ports', by rw [List.foldl_cons, hrest, h]⟩

/-- The core once epoch, bitmaps and removed sources have changed, before it gives the departed cores' slices away (R219). -/
def Alesh.membershipOf (a : Alesh) (c : Bytes) : Alesh :=
  let b := applyChange c (a.memb.members, a.memb.draining)
  { a with memb := { a.memb with members := b.1, draining := b.2, pending := none, removed := (certNodes c).foldl insertNat a.memb.removed } }

/-- From a core to the one whose epoch, bitmaps and removed sources a removal has changed, its marks and credits with them. -/
structure Departed (a x : Alesh) (c : Bytes) : Prop where
  frame : ∃ suspects, x = { a.membershipOf c with
    memb := { (a.membershipOf c).memb with suspects := suspects }, ports := x.ports, dict := x.dict, health := x.health }
  same : SameBut [O.MEMBERSHIP_EPOCH] [O.LOSS_SUSPECT, O.WATCH_LIST] a x
  epoch : x.num O.MEMBERSHIP_EPOCH = certEpoch c

/-- Outside a job a removal gives the departed cores' slices away and records itself (R219, R231, R291). -/
theorem Alesh.effect_of_removes {a : Alesh} {c : Bytes} (hcore : a.ctl.core = .idle) (hrem : certRemoves c = true) :
    ∃ x, Departed a x c ∧ a.effect c = (x.reassign ((certNodes c).filter a.isMember)).chronoMembership c := by
  obtain ⟨hleave, hretire, hjoin⟩ := kind_of_removes hrem
  unfold Alesh.effect
  extract_lets ns k gone leaving new was before mine b m0 m heard p0 p d x
  have hmine : mine = a := if_neg hjoin
  have hnew : new = [] := if_neg hjoin
  have hgone : gone = (certNodes c).filter a.isMember := if_pos hrem
  have hm : m = (a.membershipOf c).memb := by
    have hm0 : m0 = a.memb := congrArg Alesh.memb hmine
    simp only [m, hm0, hmine, hnew, hrem, if_true, List.foldl_nil]
    rfl
  obtain ⟨ports, hreclaim⟩ := d.foldl_reclaim_frame gone
  have hx : x = ({ d with ports := ports } : Alesh).setSuspects (d.memb.suspects.filter fun n => b.1.contains n) := by
    simp only [x, hreclaim]
  have hd : d = (({ a with memb := (a.membershipOf c).memb, ports := p } : Alesh).setNum O.MEMBERSHIP_EPOCH (certEpoch c)).watchMembers := by
    simp only [d, hm, hmine]
  have hdeparted : Departed a x c := by
    rw [hx, hd]
    refine ⟨⟨_, rfl⟩, ⟨fun k hk => Alesh.num_setNum_ne _ _ (by simpa [eq_comm] using hk), fun k hk => ?_⟩, Alesh.num_setNum_same ..⟩
    simp only [List.mem_cons, List.not_mem_nil, or_false, not_or] at hk
    exact (Alesh.dom_setDom ..).trans ((if_neg (Ne.symm hk.1)).trans ((Alesh.dom_setDom ..).trans (if_neg (Ne.symm hk.2))))
  refine ⟨x, hdeparted, ?_⟩
  have hjob : x.inJob = false := by
    obtain ⟨suspects, hframe⟩ := hdeparted.frame
    have hctl : x.ctl = a.ctl := by rw [hframe]; rfl
    simp [Alesh.inJob, hctl, hcore]
  have hk : (decide (k = cJoin) && new.contains a.node && x.ctl.core == CoreState.joined) = false := by
    rw [decide_eq_false hjoin, Bool.false_and, Bool.false_and]
  simp only [hk, hjob, Bool.false_eq_true, if_false, hrem, if_true, hgone]

/-! ### The record of a change (R288, R291) -/

theorem Alesh.chronoPut_seq (a : Alesh) (b : Bytes) : (a.chronoPut b).num O.CHRONO_SEQ = a.num O.CHRONO_SEQ :=
  (Alesh.num_setNum_ne _ _ (by decide)).trans (Alesh.num_of_dict (Alesh.wr_dict ..) _)

theorem Alesh.chronoFit_seq (a : Alesh) : a.chronoFit.num O.CHRONO_SEQ = a.num O.CHRONO_SEQ := by
  unfold Alesh.chronoFit
  split
  · rfl
  · exact (Alesh.num_setNum_ne _ _ (by decide)).trans (Alesh.num_setNum_ne _ _ (by decide))

theorem Alesh.chronoRoom_seq (need fuel : Nat) (a : Alesh) : (a.chronoRoom need fuel).num O.CHRONO_SEQ = a.num O.CHRONO_SEQ := by
  induction fuel generalizing a with
  | zero => rfl
  | succ fuel ih =>
    unfold Alesh.chronoRoom
    split
    · rfl
    · exact (ih _).trans ((Alesh.num_setNum_ne _ _ (by decide)).trans (Alesh.num_setNum_ne _ _ (by decide)))

theorem Alesh.chronoWrite_seq (a : Alesh) (r : ChronoRec) : (a.chronoWrite r).num O.CHRONO_SEQ = a.num O.CHRONO_SEQ := by
  unfold Alesh.chronoWrite
  extract_lets len b rest pad c d
  have hc : c.num O.CHRONO_SEQ = a.num O.CHRONO_SEQ := (Alesh.chronoRoom_seq ..).trans (Alesh.chronoFit_seq a)
  have hd : d.num O.CHRONO_SEQ = c.num O.CHRONO_SEQ := by
    simp only [d]
    split
    · rfl
    · exact Alesh.chronoPut_seq ..
  split
  · rfl
  · exact (Alesh.chronoPut_seq ..).trans (hd.trans hc)

/-- Every record takes the next sequence number, written now, later or not at all (R288). -/
theorem Alesh.chronoRecord_seq {a : Alesh} (h : a.num O.CHRONO_PAGES ≠ 0) (typ step : Nat) (body : Bytes) :
    (a.chronoRecord typ step body).num O.CHRONO_SEQ = wrapAdd (widthOf O.CHRONO_SEQ) (a.num O.CHRONO_SEQ) 1 := by
  unfold Alesh.chronoRecord Alesh.chronoFix
  rw [if_neg h]
  dsimp only
  split
  · exact (Alesh.chronoWrite_seq ..).trans (Alesh.num_setNum_same ..)
  · split
    · exact Alesh.num_setNum_same ..
    · exact (Alesh.num_setNum_ne _ _ (by decide)).trans (Alesh.num_setNum_same ..)

theorem Alesh.chronoRecord_of_no_pages {a : Alesh} (h : a.num O.CHRONO_PAGES = 0) (typ step : Nat) (body : Bytes) :
    a.chronoRecord typ step body = a := if_pos h

/-! ### What a removal leaves -/

theorem mem_insertNat {l : List Nat} {m n : Nat} : m ∈ insertNat l n ↔ m = n ∨ m ∈ l := by
  induction l with
  | nil => simp [insertNat]
  | cons k l ih =>
    unfold insertNat
    split
    · exact List.mem_cons
    · split
      · next h => simp [h]
      · simp only [List.mem_cons, ih]
        tauto

theorem mem_foldl_insertNat {ns l : List Nat} {m : Nat} : m ∈ ns.foldl insertNat l ↔ m ∈ ns ∨ m ∈ l := by
  induction ns generalizing l with
  | nil => simp
  | cons n ns ih =>
    rw [List.foldl_cons, ih, mem_insertNat, List.mem_cons]
    tauto

/-- What holds of a core that has applied a removal outside a job (R216, R219). -/
structure Removed (a : Alesh) (c : Bytes) (b : Alesh) : Prop where
  epoch : b.num O.MEMBERSHIP_EPOCH = certEpoch c
  bitmaps : (b.memb.members, b.memb.draining) = applyChange c (a.memb.members, a.memb.draining)
  pending : b.memb.pending = none
  removed : ∀ n ∈ certNodes c, n ∈ b.memb.removed
  history : b.memb.history = a.memb.history
  held : b.memb.held = a.memb.held
  waitTime : b.memb.waitTime = a.memb.waitTime
  mem0 : a.num O.CHRONO_PAGES = 0 → b.mem0 = a.mem0
  seq : a.num O.CHRONO_PAGES ≠ 0 → b.num O.CHRONO_SEQ = wrapAdd (widthOf O.CHRONO_SEQ) (a.num O.CHRONO_SEQ) 1
  mem1 : b.mem1 = a.mem1
  slots : b.slots = a.slots
  ctl : b.ctl = a.ctl

theorem Alesh.removed_effect {a : Alesh} {c : Bytes} (hcore : a.ctl.core = .idle) (hrem : certRemoves c = true) : Removed a c (a.effect c) := by
  obtain ⟨x, ⟨⟨suspects, hx⟩, hsame, hepoch⟩, heffect⟩ := Alesh.effect_of_removes hcore hrem
  set y := x.reassign ((certNodes c).filter a.isMember)
  have hgiven : Reassigned x y := x.reassign_reassigned _
  have hrecorded : Recorded y (a.effect c) := heffect ▸ Recorded.chronoFix y ..
  have hnum {k : Nat} (hk : k ≠ O.PROTECTION_STATE) (hm : k ≠ O.MEMBERSHIP_EPOCH) : y.num k = a.num k :=
    (hgiven.same.1 k (by simpa using hk)).trans (hsame.1 k (by simpa using hm))
  have hmemb : (a.effect c).memb = x.memb := by rw [hrecorded.frame, hgiven.frame]
  have hpages : y.num O.CHRONO_PAGES = a.num O.CHRONO_PAGES := hnum (by decide) (by decide)
  exact {
    epoch := (hrecorded.same.1 _ (by decide)).trans ((hgiven.same.1 _ (by decide)).trans hepoch)
    bitmaps := by rw [hmemb, hx]; rfl
    pending := by rw [hmemb, hx]; rfl
    removed := fun n hn => by rw [hmemb, hx]; exact mem_foldl_insertNat.2 (.inl hn)
    history := by rw [hmemb, hx]; rfl
    held := by rw [hmemb, hx]; rfl
    waitTime := by rw [hmemb, hx]; rfl
    mem0 := fun h => by
      rw [heffect, Alesh.chronoMembership, Alesh.chronoRecord_of_no_pages (hpages.trans h), hgiven.frame, hx]
      rfl
    seq := fun h => by
      rw [heffect, Alesh.chronoMembership, Alesh.chronoRecord_seq (by rw [hpages]; exact h), hnum (by decide) (by decide)]
    mem1 := by rw [hrecorded.frame, hgiven.frame, hx]; rfl
    slots := by rw [hrecorded.frame, hgiven.frame, hx]; rfl
    ctl := by rw [hrecorded.frame, hgiven.frame, hx]; rfl }

theorem not_mem_applyChange_of_removes {c : Bytes} (hrem : certRemoves c = true) {n : Nat} (hn : n ∈ certNodes c) (l : List Nat × List Nat) :
    n ∉ (applyChange c l).1 := by
  simp [applyChange, hrem, minus, hn]

/-- A core to which nothing but a forwarded certificate and an answer has happened. -/
theorem Answered.forwarding {y b : Alesh} {c : Bytes} {before : List Nat} {installed : Bool} (h : Answered (y.forwarding c before installed) b) :
    b = { y with memb := { y.memb with occults := b.memb.occults }, win := b.win, mgmt := b.mgmt, ports := b.ports } := by
  obtain ⟨ports, occults, hy⟩ := y.forwarding_frame c before installed
  rw [hy] at h
  rw [h]

/-! ### How a certificate that comes in ends -/

section
variable {s : State} {via : Via} {now : Nat} {m : Pkt} {r : Bool} (hlisten : s.alesh.idleToJob = true)
include hlisten

theorem certEnds_removal (hjudge : (certCore s now m r).judge (certIn s m r) = .adopt) (hpending : (certCore s now m r).memb.pending = none)
    (hheld : (certCore s now m r).memb.held = []) (hcore : (certCore s now m r).ctl.core = .idle) (hrem : certRemoves (certIn s m r) = true) :
    let c := certIn s m r
    let a := certCore s now m r
    CertEnds s via now m r .ok fun b =>
      b.num O.MEMBERSHIP_EPOCH = certEpoch c ∧ (b.memb.members, b.memb.draining) = applyChange c (a.memb.members, a.memb.draining) ∧
      b.memb.pending = none ∧ (∀ n ∈ certNodes c, n ∈ b.memb.removed ∧ n ∉ b.memb.members) ∧ c ∈ b.memb.history ∧
      b.memb.history.length ≤ 16 ∧ (a.num O.CHRONO_PAGES = 0 → b.mem0 = a.mem0) ∧
      (a.num O.CHRONO_PAGES ≠ 0 → b.num O.CHRONO_SEQ = wrapAdd (widthOf O.CHRONO_SEQ) (a.num O.CHRONO_SEQ) 1) ∧
      b.mem1 = a.mem1 ∧ b.slots = a.slots ∧ b.ctl = a.ctl := by
  intro c a
  refine certEnds_of_taken hlisten (.inl rfl) fun t ht => ⟨t.adoptNow c (!r), ?_, fun b hb => ?_⟩
  all_goals
    have hpend : t.memb.pending = none := by rw [ht.memb]; exact hpending
    have hempty : t.memb.held = [] := by rw [ht.memb]; exact hheld
    have hfree : t.memb.waitTime = none := Alesh.waitTime_of_adopt ((ht.judge c).trans hjudge)
    have hidle : t.ctl.core = .idle := by rw [ht.ctl]; exact hcore
    have hnow := Alesh.adoptNow_of_removes hpend (!r) hrem
    have hgone : Removed (t.remembering c) c ((t.remembering c).effect c) := Alesh.removed_effect hidle hrem
  · obtain ⟨ports, occults, hframe⟩ := ((t.remembering c).effect c).forwarding_frame c t.bitmapsNow.1 (!r)
    refine Alesh.takeCert_of_adopt _ ((ht.judge c).trans hjudge) (by rw [hidle]; decide) (kind_of_removes hrem).2.2 ?_ ?_ <;> rw [hnow, hframe]
    · exact hgone.waitTime.trans hfree
    · exact hgone.held.trans hempty
  · rw [hnow] at hb
    have hframe := hb.forwarding
    have hnum (k : Nat) : b.num k = ((t.remembering c).effect c).num k := Alesh.num_of_dict (by rw [hframe]) k
    have hhistory : b.memb.history = (t.remembering c).memb.history := by rw [hframe]; exact hgone.history
    have hmembers : b.memb.members = (applyChange c (a.memb.members, a.memb.draining)).1 := by
      rw [hframe, ← ht.memb]
      exact congrArg Prod.fst hgone.bitmaps
    refine ⟨(hnum _).trans hgone.epoch, ?_, ?_, fun n hn => ⟨?_, ?_⟩, ?_, ?_, fun h => ?_, fun h => ?_, ?_, ?_, ?_⟩
    · rw [hframe, ← ht.memb]; exact hgone.bitmaps
    · rw [hframe]; exact hgone.pending
    · rw [hframe]; exact hgone.removed n hn
    · rw [hmembers]; exact not_mem_applyChange_of_removes hrem hn _
    · rw [hhistory]; exact t.mem_remembering c
    · rw [hhistory]; exact t.length_remembering c
    · rw [hframe, ← ht.mem0]; exact hgone.mem0 ((ht.num (by decide)).trans h)
    · rw [hnum, ← ht.num (k := O.CHRONO_SEQ) (by decide)]; exact hgone.seq fun h' => h ((ht.num (by decide)).symm.trans h')
    · rw [hframe, ← ht.mem1]; exact hgone.mem1
    · rw [hframe, ← ht.slots]; exact hgone.slots
    · rw [hframe, ← ht.ctl]; exact hgone.ctl

/-- A certificate that leaves the core as it is but for its place among those that wait. -/
theorem certEnds_kept {res : Res} {memb : Bool → Memb → Memb} (hres : res = .ok ∨ res = .access)
    (h : ∀ t, Counted (certCore s now m r) t → t.takeCert (certIn s m r) (!r) = (res, { t with memb := memb (!r) t.memb })) :
    CertEnds s via now m r res fun b =>
      b.memb = memb (!r) (certCore s now m r).memb ∧ SameBut [O.DICT_INBAND_COUNT] [] (certCore s now m r) b := by
  refine certEnds_of_taken hlisten hres fun t ht => ⟨_, h t ht, fun b hb => ⟨?_, ?_⟩⟩
  · rw [hb, ← ht.memb]
  · exact ht.same.of_dict (by rw [hb])

theorem certEnds_leave (hjudge : (certCore s now m r).judge (certIn s m r) = .adopt) (hpending : (certCore s now m r).memb.pending = none)
    (hheld : (certCore s now m r).memb.held = []) (hkind : certKind (certIn s m r) = cLeave)
    (hcore : (certCore s now m r).ctl.core = .idle ∨
      (certCore s now m r).inJob = true ∧ (certCore s now m r).num O.STEP_EPOCH < certStep (certIn s m r)) :
    let c := certIn s m r
    let a := certCore s now m r
    CertEnds s via now m r .ok fun b =>
      b.memb.pending = some c ∧ b.memb.members = a.memb.members ∧ b.num O.MEMBERSHIP_EPOCH = a.num O.MEMBERSHIP_EPOCH ∧ c ∈ b.memb.history ∧
      SameBut [O.DICT_INBAND_COUNT] [] a b := by
  intro c a
  refine certEnds_of_taken hlisten (.inl rfl) fun t ht => ⟨t.adoptNow c (!r), ?_, fun b hb => ?_⟩
  all_goals
    have hpend : t.memb.pending = none := by rw [ht.memb]; exact hpending
    have hempty : t.memb.held = [] := by rw [ht.memb]; exact hheld
    have hfree : t.memb.waitTime = none := Alesh.waitTime_of_adopt ((ht.judge c).trans hjudge)
    have hwait : t.inJob = false ∨ t.num O.STEP_EPOCH < certStep c := by
      rcases hcore with hidle | ⟨-, hlater⟩
      · exact .inl (by rw [ht.inJob, Alesh.inJob, hidle]; rfl)
      · exact .inr (by rw [ht.num (by decide)]; exact hlater)
    have hnow := Alesh.adoptNow_of_leave hpend (!r) hkind hwait
  · have hjoined : t.ctl.core ≠ .joined := by
      rw [ht.ctl]
      rcases hcore with hidle | ⟨hjob, -⟩
      · rw [hidle]; decide
      · intro hjoined
        rw [Alesh.inJob, hjoined] at hjob
        exact absurd hjob (by decide)
    obtain ⟨ports, occults, hframe⟩ := ((t.remembering c).deferring c).forwarding_frame c t.bitmapsNow.1 (!r)
    refine Alesh.takeCert_of_adopt _ ((ht.judge c).trans hjudge) hjoined (by rw [hkind]; decide) ?_ ?_ <;> rw [hnow, hframe]
    · exact hfree
    · exact hempty
  · rw [hnow] at hb
    have hframe := hb.forwarding
    have hsame : SameBut [O.DICT_INBAND_COUNT] [] a b := ht.same.of_dict (by rw [hframe]; rfl)
    refine ⟨by rw [hframe]; rfl, ?_, hsame.1 _ (by decide), ?_, hsame⟩
    · rw [hframe, ← ht.memb]; rfl
    · rw [hframe]; exact t.mem_remembering c

end

/-- A removal that waits for the time keeps its install waiting for its result (R367, R397). -/
theorem membInstall_awaits {s : State} {via : Via} {now : Nat} (hlisten : s.alesh.idleToJob = true) (hadm : Admits s.alesh via)
    (hwait : (s.alesh.at now).memb.waitVia = none) (hfree : s.alesh.stageHolds O.MEMB_INSTALL = false)
    (h : ∀ t, Counted (s.alesh.at now) t → t.takeCert (s.alesh.dom O.CERT_MAILBOX) true =
      (.awaited, { t with memb := { t.memb with waitTime := some (s.alesh.dom O.CERT_MAILBOX, true) } })) :
    Gives (.membInstall via now) s fun b =>
      b.memb = { (s.alesh.at now).memb with waitTime := some (s.alesh.dom O.CERT_MAILBOX, true), waitVia := some (via, false) } ∧
      SameBut [O.DICT_INBAND_COUNT] [] (s.alesh.at now) b := by
  have hcount := Counted.taken_at s.alesh via now
  have hinstall := (membInstall_takes hlisten hwait).trans (h _ hcount)
  have hx := command_admits hadm O.MEMB_INSTALL false (membInstall now)
  rw [hinstall, unlessStaged_free (by simp [hfree])] at hx
  refine ⟨_, hx, ?_, ?_⟩
  · rw [← hcount.memb]; rfl
  · exact hcount.same.of_dict rfl

/-- While an install waits for its result another is BUSY (R367). -/
theorem membInstall_busy {s : State} {via : Via} {now : Nat} (hlisten : s.alesh.idleToJob = true) (hadm : Admits s.alesh via)
    (hwait : (s.alesh.at now).memb.waitVia ≠ none) :
    Ends (.membInstall via now) s via O.MEMB_INSTALL false .busy fun b =>
      b.memb = (s.alesh.at now).memb ∧ SameBut [O.DICT_INBAND_COUNT] [] (s.alesh.at now) b := by
  have hcount := Counted.taken_at s.alesh via now
  have hcore : ((s.alesh.taken via).at now).idleToJob = true := by
    simpa only [Alesh.idleToJob, Alesh.joinedOrJob, Alesh.inJob, Alesh.at_ctl, taken_ctl] using hlisten
  have hheld : ((s.alesh.taken via).at now).memb.waitVia.isNone = false := by
    rw [hcount.memb]
    exact Option.isNone_eq_false_iff.2 (Option.isSome_iff_ne_none.2 hwait)
  have hinstall : membInstall now (s.alesh.taken via) = (.busy, (s.alesh.taken via).at now) := by
    rw [membInstall, require_pos hcore, require_neg hheld]
  refine ends_of_refused rfl hadm hinstall (by decide) (by decide) fun b hb => ⟨?_, hcount.same.answered hb⟩
  rw [hb]
  exact hcount.memb

/-- A pull is answered with every certificate above the puller's epoch (R218). -/
theorem Alesh.membPull_sends {a0 a : Alesh} {now : Nat} {m : Pkt} (ha : a0.heard now m.src = a) (hj : a0.inJob = true) (hversion : m.version = 1)
    (hdst : m.dst = a0.node) (hvc : m.vc = 0) (hpayload : m.payload = []) (hroute : m.route = a0.num O.ROUTE_EPOCH) :
    (∀ c ∈ a.memb.history, bf m.args 28 32 < certEpoch c →
      Sends (a0.membPull now m) (a.cresol tGrant m.src (grantArgs 4 (certEpoch c)) c)) ∧
    a0.membPull now m = { a with ports := (a0.membPull now m).ports } := by
  have hlisten : a0.idleToJob = true := by simp [Alesh.idleToJob, Alesh.joinedOrJob, hj]
  have hja : a.inJob = true := by rw [← ha, Alesh.inJob, Alesh.heard_ctl]; exact hj
  set above := a.memb.history.filter fun c => decide (bf m.args 28 32 < certEpoch c)
  have hsent : a0.membPull now m = a.emitEach (above.map fun c => a.cresol tGrant m.src (grantArgs 4 (certEpoch c)) c) := by
    rw [Alesh.membPull, Alesh.receiveAny_of_route hlisten hversion hdst (hvc.trans (by decide)) (by rw [hpayload]; rfl) hroute, ha]
    exact Alesh.foldl_send tGrant (fun _ => m.src) (fun c => grantArgs 4 (certEpoch c)) id above a
  refine ⟨fun c hc habove => ?_, ?_⟩
  · rw [hsent]
    exact sends_emitEach hja _ (List.mem_map.2 ⟨c, List.mem_filter.2 ⟨hc, decide_eq_true habove⟩, rfl⟩)
  · obtain ⟨ports, hframe⟩ := a.emitEach_frame (above.map fun c => a.cresol tGrant m.src (grantArgs 4 (certEpoch c)) c)
    rw [hsent, hframe]

/-- Settles O39: a certificate by its verdict, and a pull. -/
theorem certificatesChangeMembership : Obligations.CertificatesChangeMembership := by
  unfold Obligations.CertificatesChangeMembership
  refine ⟨fun s via now m r hlisten => ?_, fun s now m hj hversion hdst hvc hpayload hroute => ?_⟩
  · intro c a before run
    refine ⟨fun hjudge hpending hheld hcore hkind => ?_, fun hjudge hpending hheld hcore hkind => ?_, fun hjudge => ?_, fun hjudge => ?_,
      fun hjudge hrefused => ?_, fun hjudge hcore hjoining hrem hstart hvalid => ?_, fun hr hadm hwait => ?_,
      fun hjudge hrefused hwait hroom hnew => ?_⟩
    · exact certEnds_removal hlisten hjudge hpending hheld hcore (certRemoves_iff.2 hkind)
    · exact certEnds_leave hlisten hjudge hpending hheld hkind hcore
    · exact certEnds_kept (memb := fun _ x => x) hlisten (.inl rfl) fun t ht => Alesh.takeCert_of_same _ ((ht.judge c).trans hjudge)
    · exact certEnds_kept (memb := fun _ x => x) hlisten (.inr rfl) fun t ht => Alesh.takeCert_of_unverified _ ((ht.judge c).trans hjudge)
    · refine certEnds_kept (memb := fun _ x => x) hlisten (.inr rfl) fun t ht => Alesh.takeCert_of_refused _ ?_ ((ht.joinRefused c).trans hrefused)
      rw [ht.judge]
      exact hjudge
    · have hwaits (t : Alesh) (ht : Counted a t) := Alesh.takeCert_of_wait (a := t) (c := c) (!r) ((ht.judge c).trans hjudge)
        ((congrArg Ctl.core ht.ctl).trans hcore) (ht.joining.trans hjoining) hrem ((congrArg Comm.start ht.comm).trans hstart)
        ((congrArg Clock.valid ht.clock).trans hvalid)
      cases r with
      | true =>
        intro hversion hdst hvc hroute hshape hepoch
        refine grantMembershipRx_gives hlisten hversion hdst hvc hroute hshape hepoch ?_
        rw [show (s.alesh.heard now m.src).takeCert m.payload false = _ from hwaits a (Counted.refl a)]
        exact ⟨rfl, fun _ _ => rfl, fun _ _ => rfl⟩
      | false => exact fun hadm hfree hstaged => membInstall_awaits hlisten hadm hfree hstaged hwaits
    · subst hr
      exact membInstall_busy hlisten hadm hwait
    · exact certEnds_kept (memb := fun i x => { x with held := x.held ++ [(c, i)] }) hlisten (.inl rfl) fun t ht =>
        Alesh.takeCert_of_hold _ ((ht.judge c).trans hjudge) ((ht.joinRefused c).trans hrefused) ((congrArg Memb.waitTime ht.memb).trans hwait)
          (by rw [ht.memb]; exact hroom) (by rw [ht.memb]; exact hnew)
  · exact gives_onCore (f := Alesh.membPull now m) rfl (Alesh.membPull_sends rfl hj hversion hdst hvc hpayload hroute)

end Sys2Proof.Machine
end

section
/-! SUPPORT. Leases as they change hands, and the reports to a coordinator (R226 to R230, R236, R336). -/
namespace Sys2Proof.Machine

/-! ### A lease among the leases -/

theorem Alesh.kind_of_lease? {a : Alesh} {k : Nat} {l : Lease} (h : a.lease? k = some l) : l.kind = k := by
  simpa using List.find?_some h

theorem Alesh.lease?_setLease_same {a : Alesh} {k : Nat} {l n : Lease} (h : a.lease? k = some l) (hn : n.kind = k) :
    (a.setLease n).lease? k = some n := by
  subst hn
  exact find?_modWhere (p := fun x => x.kind == n.kind) (beq_self_eq_true _) ⟨l, List.mem_of_find?_eq_some h, beq_iff_eq.2 (Alesh.kind_of_lease? h)⟩

theorem Alesh.lease?_setLease_ne (a : Alesh) {k : Nat} {n : Lease} (h : k ≠ n.kind) : (a.setLease n).lease? k = a.lease? k := by
  show (modWhere _ _ a.leases).find? _ = a.leases.find? _
  induction a.leases with
  | nil => rfl
  | cons x l ih =>
    by_cases hx : x.kind = n.kind
    · simpa [modWhere, hx, Ne.symm h] using ih
    · simp only [modWhere, List.map_cons, beq_eq_false_iff_ne.2 hx, Bool.false_eq_true, if_false, List.find?_cons]
      exact congrArg (fun o => match x.kind == k with | true => some x | false => o) ih

theorem Alesh.sends_sendAll {a : Alesh} (hj : a.inJob = true) (typ : Nat) {dsts : List Nat} (args : Nat) (b : Bytes) {d : Nat} (hd : d ∈ dsts) :
    Sends (a.sendAll typ dsts args b) (a.cresol typ d args b) := by
  rw [Alesh.sendAll_eq]
  exact sends_emitEach hj _ (List.mem_map.2 ⟨d, hd, rfl⟩)

theorem OnlySends.sendLease (a : Alesh) (l : Lease) (action : Nat) : OnlySends a (a.sendLease l action) :=
  foldl (fun c d => send c tLease d _ _) _ a

theorem Arriving.sendAll (a : Alesh) (typ : Nat) (dsts : List Nat) (args : Nat) (b : Bytes) : Arriving a (a.sendAll typ dsts args b) :=
  foldl (fun c d => send c typ d args b) dsts a

theorem Arriving.sendReportWord (a : Alesh) (group word : Nat) : Arriving a (a.sendReportWord group word) := by
  unfold Alesh.sendReportWord
  dsimp only
  split
  · exact send ..
  · exact refl a

/-! ### What goes with a change of holder -/

/-- From one core to another by what goes with a change of holder once the lease itself is written: packets, the directory started afresh,
the coordinator's part started afresh. -/
structure Handing (a b : Alesh) : Prop where
  leases : b.leases = a.leases
  mem0 : b.mem0 = a.mem0
  red : b.red = a.red
  slots : b.slots = a.slots
  taken : b.num O.LEASE_TAKE_COUNT = a.num O.LEASE_TAKE_COUNT
  sends : ∀ p, Sends a p → Sends b p

namespace Handing
variable {a b c : Alesh}

theorem refl (a : Alesh) : Handing a a := ⟨rfl, rfl, rfl, rfl, rfl, fun _ h => h⟩

theorem trans (hab : Handing a b) (hbc : Handing b c) : Handing a c where
  leases := hbc.leases.trans hab.leases
  mem0 := hbc.mem0.trans hab.mem0
  red := hbc.red.trans hab.red
  slots := hbc.slots.trans hab.slots
  taken := hbc.taken.trans hab.taken
  sends p h := hbc.sends p (hab.sends p h)

theorem ite {p : Prop} [Decidable p] (hb : Handing a b) (hc : Handing a c) : Handing a (if p then b else c) := by
  split
  · exact hb
  · exact hc

theorem foldl {ι : Type} {f : Alesh → ι → Alesh} (hf : ∀ a x, Handing a (f a x)) (l : List ι) (a : Alesh) : Handing a (l.foldl f a) := by
  induction l generalizing a with
  | nil => exact refl a
  | cons x l ih => exact (hf a x).trans (ih (f a x))

theorem of_arriving (h : Arriving a b) : Handing a b where
  leases := by rw [h.frame]
  mem0 := by rw [h.frame]
  red := by rw [h.frame]
  slots := by rw [h.frame]
  taken := Alesh.num_of_dict (by rw [h.frame]) _
  sends := h.sends

theorem setNum (a : Alesh) {k : Nat} (hk : k ≠ O.LEASE_TAKE_COUNT) (v : Nat) : Handing a (a.setNum k v) :=
  ⟨rfl, rfl, rfl, rfl, Alesh.num_setNum_ne a v hk, fun _ h => h⟩

/-- The parts of the core beside the leases that a new holder touches. -/
theorem parts (a : Alesh) (fabric : Fabric) (take : Take) (health : Health) :
    Handing a { a with fabric := fabric, take := take, health := health } := ⟨rfl, rfl, rfl, rfl, rfl, fun _ h => h⟩

theorem faRedirect (a : Alesh) (p : FaReq → Bool) (dst : Nat) : Handing a (a.faRedirect p dst) := by
  unfold Alesh.faRedirect
  extract_lets moved
  refine (parts a _ a.take a.health).trans (foldl (fun b r => ?_) _ _)
  exact (of_arriving (.emit b _)).trans (setNum _ (by decide) _)

theorem newDirectory (a : Alesh) (holder : Nat) : Handing a (a.newDirectory holder) := by
  unfold Alesh.newDirectory
  extract_lets old coh b
  have hb : Handing a b := (parts a _ a.take a.health).trans (setNum _ (by decide) _)
  exact (hb.trans (parts b _ b.take b.health)).trans (faRedirect ..)

theorem freshCoordinator (a : Alesh) : Handing a a.freshCoordinator := ⟨rfl, rfl, rfl, rfl, rfl, fun _ h => h⟩

theorem resendReports (a : Alesh) (p : Nat × Nat × Nat → Bool) : Handing a (a.resendReports p) :=
  (parts a a.fabric _ a.health).trans (foldl (fun b _ => of_arriving (.sendReportWord b ..)) _ _)

theorem sendLease (a : Alesh) (l : Lease) (action : Nat) : Handing a (a.sendLease l action) := of_arriving (.sendAll ..)

end Handing

/-- Once a lease is written it reads as written, and the others read as before. -/
theorem Alesh.lease?_of_written {a b : Alesh} {k : Nat} {l n : Lease} (hl : a.lease? k = some l) (hn : n.kind = k)
    (h : b.leases = (a.setLease n).leases) : b.lease? k = some n ∧ ∀ j, j ≠ k → b.lease? j = a.lease? j := by
  have hread (j : Nat) : b.lease? j = (a.setLease n).lease? j := by rw [Alesh.lease?, h, Alesh.lease?]
  refine ⟨?_, fun j hj => ?_⟩
  · rw [hread, Alesh.lease?_setLease_same hl hn]
  · rw [hread, Alesh.lease?_setLease_ne a (by rwa [hn])]

/-! ### This core takes a lease (R227) -/

/-- The lease as this core takes it. -/
def Alesh.takenFrom (a : Alesh) (l : Lease) : Lease :=
  { l with gen := (l.gen + 1) % 65536, holder := a.node, prev := l.holder, expiry := a.now + a.num O.LEASE_TERM_NS
           actFrom := a.now + a.num O.LEASE_STEP_NS, acting := false }

/-- A core has taken a lease: it is the holder in the next generation, says so and counts it. -/
def TakesLease (a b : Alesh) (l : Lease) : Prop :=
  b.lease? l.kind = some (a.takenFrom l) ∧
  b.num O.LEASE_TAKE_COUNT = satAdd (widthOf O.LEASE_TAKE_COUNT) (a.num O.LEASE_TAKE_COUNT) 1 ∧
  (∀ n ∈ a.leasePeers l.kind, Sends b (a.cresol tLease n (leaseArgs l.kind l.id 1 (a.takenFrom l).gen) (leBytes 8 (a.takenFrom l).expiry ++ leBytes 8 0))) ∧
  (∀ k, k ≠ l.kind → b.lease? k = a.lease? k) ∧ b.mem0 = a.mem0 ∧ b.red = a.red ∧ b.slots = a.slots

/-- After its TAKE is sent and counted, what follows leaves the lease as it is. -/
theorem Alesh.takeLease_handing (a : Alesh) (l : Lease) :
    Handing (((a.setLease (a.takenFrom l)).sendLease (a.takenFrom l) 1).count O.LEASE_TAKE_COUNT) (a.takeLease l) := by
  unfold Alesh.takeLease
  extract_lets n b c
  have hc : Handing b c := .ite (.sendLease b n 2) (.refl b)
  exact hc.trans (.ite ((Handing.freshCoordinator c).trans (.resendReports ..)) (.newDirectory c _))

theorem Alesh.takeLease_takes {a : Alesh} {k : Nat} {l : Lease} (hj : a.inJob = true) (hl : a.lease? k = some l) :
    TakesLease a (a.takeLease l) l := by
  obtain rfl := Alesh.kind_of_lease? hl
  set n := a.takenFrom l
  set b := (a.setLease n).sendLease n 1
  have hsent : Handing (a.setLease n) b := .sendLease ..
  have hrest := a.takeLease_handing l
  obtain ⟨hlease, hothers⟩ := Alesh.lease?_of_written (n := n) hl rfl (hrest.leases.trans hsent.leases)
  refine ⟨hlease, ?_, fun d hd => ?_, hothers, hrest.mem0.trans hsent.mem0, hrest.red.trans hsent.red, hrest.slots.trans hsent.slots⟩
  · rw [hrest.taken, Alesh.num_count, if_pos rfl, hsent.taken]; rfl
  · exact hrest.sends _ (Alesh.sends_sendAll (a := a.setLease n) hj tLease _ _ hd)

/-! ### Another core holds a lease -/

/-- The lease as another core holds it. -/
def Lease.passedTo (l : Lease) (holder gen expiry : Nat) : Lease :=
  { l with gen := gen, holder := holder, prev := if l.gen = gen then l.prev else l.holder, expiry := expiry, acting := false }

theorem Handing.noteHolder (a : Alesh) (l : Lease) (holder gen expiry : Nat) :
    Handing (a.setLease (l.passedTo holder gen expiry)) (a.noteHolder l holder gen expiry) := ite (refl _) (newDirectory ..)

theorem Handing.yieldLease (a : Alesh) (l : Lease) (holder gen expiry : Nat) :
    Handing (a.setLease (l.passedTo holder gen expiry)) (a.yieldLease l holder gen expiry) :=
  (noteHolder a l holder gen expiry).trans (ite (resendReports ..) (refl _))

/-- A lease has passed to another core. -/
def PassesLease (a b : Alesh) (k holder gen expiry : Nat) : Prop :=
  (∃ n, b.lease? k = some n ∧ n.holder = holder ∧ n.gen = gen ∧ n.expiry = expiry ∧ n.acting = false) ∧
  (∀ j, j ≠ k → b.lease? j = a.lease? j) ∧ b.mem0 = a.mem0 ∧ b.red = a.red ∧ b.slots = a.slots

theorem Handing.passes {a b : Alesh} {k holder gen expiry : Nat} {l : Lease} (hl : a.lease? k = some l)
    (h : Handing (a.setLease (l.passedTo holder gen expiry)) b) : PassesLease a b k holder gen expiry := by
  obtain ⟨hlease, hothers⟩ := Alesh.lease?_of_written (n := l.passedTo holder gen expiry) hl (Alesh.kind_of_lease? (l := l) hl) h.leases
  exact ⟨⟨_, hlease, rfl, rfl, rfl, rfl⟩, hothers, h.mem0, h.red, h.slots⟩

/-! ### LEASE packets (R226, R227) -/

theorem Alesh.inJob_heard (a : Alesh) (now src : Nat) : (a.heard now src).inJob = a.inJob := by rw [Alesh.inJob, Alesh.heard_ctl, Alesh.inJob]

/-- A well-formed LEASE packet acts on the core that has heard its source. -/
theorem Alesh.leaseRx_of_arrives {a : Alesh} {now action : Nat} {m : Pkt} (h : Arrives a tLease m) (hj : a.inJob = true)
    (hok : ({ LeaseArgs.ofNat m.args with action := action } : LeaseArgs).ok m.payload = true) (f : Alesh → LeaseArgs → Alesh) :
    a.leaseRx now action m f = f (a.heard now m.src) { LeaseArgs.ofNat m.args with action := action } := by
  rw [Alesh.leaseRx, Alesh.receive_of_arrives h rfl hok, if_pos ((Alesh.inJob_heard ..).trans hj)]

section
variable {s : State} {now : Nat} {m : Pkt} {p : Alesh → Prop} (h : Arrives s.alesh tLease m) (hj : s.alesh.inJob = true)
  (hkind : (LeaseArgs.ofNat m.args).kind ≤ 3)
include h hj hkind

theorem leaseReleaseRx_gives (hpayload : m.payload = []) (hp : p ((s.alesh.heard now m.src).leaseReleaseIn m.src (LeaseArgs.ofNat m.args))) :
    Gives (.leaseReleaseRx now m) s p := by
  have hok : ({ LeaseArgs.ofNat m.args with action := 2 } : LeaseArgs).ok m.payload = true := by simp [LeaseArgs.ok, hkind, hpayload]
  refine gives_onCore rfl ?_
  rw [Alesh.leaseRx_of_arrives h hj hok]
  exact hp

variable (hlen : m.payload.length = 16)
include hlen

/-- 16 bytes are the payload of every action but RELEASE. -/
theorem leaseRx_of_length {action : Nat} (ha : action ≤ 3 ∧ action ≠ 2) (f : Alesh → LeaseArgs → Alesh) :
    s.alesh.leaseRx now action m f = f (s.alesh.heard now m.src) { LeaseArgs.ofNat m.args with action := action } :=
  Alesh.leaseRx_of_arrives h hj (by simp [LeaseArgs.ok, hkind, ha, hlen]) f

theorem leaseRenewRx_gives (hp : p ((s.alesh.heard now m.src).leaseRenewIn m.src (LeaseArgs.ofNat m.args) m.payload)) :
    Gives (.leaseRenewRx now m) s p := by
  refine gives_onCore rfl ?_
  rw [leaseRx_of_length h hj hkind hlen (by decide)]
  exact hp

theorem leaseTakeRx_gives (hne : (LeaseArgs.ofNat m.args).kind ≠ 3)
    (hp : p ((s.alesh.heard now m.src).leaseTakeIn m.src (LeaseArgs.ofNat m.args) m.payload)) : Gives (.leaseTakeRx now m) s p := by
  refine gives_onCore rfl ?_
  rw [leaseRx_of_length h hj hkind hlen (by decide), if_neg hne]
  exact hp

theorem leaseTakeRx_gives_retained (heq : (LeaseArgs.ofNat m.args).kind = 3)
    (hp : p ((s.alesh.heard now m.src).retainTakeIn m.src (LeaseArgs.ofNat m.args))) : Gives (.leaseTakeRx now m) s p := by
  refine gives_onCore rfl ?_
  rw [leaseRx_of_length h hj hkind hlen (by decide), if_pos heq]
  exact hp

theorem leaseReportRx_gives (hp : p ((s.alesh.heard now m.src).reportIn m.src (LeaseArgs.ofNat m.args) m.payload)) :
    Gives (.leaseReportRx now m) s p := by
  refine gives_onCore rfl ?_
  rw [leaseRx_of_length h hj hkind hlen (by decide)]
  exact hp

end

section
variable {a : Alesh} {src : Nat} {x : LeaseArgs} {p : Bytes} {l : Lease} (hl : a.lease? x.kind = some l) (hid : l.id = x.id)
include hl hid

theorem Alesh.leaseRenewIn_holder (hgen : x.gen = l.gen) (hsrc : src = l.holder) :
    a.leaseRenewIn src x p = a.setLease { l with expiry := max l.expiry (leAt p 0 8) } := by
  simp [Alesh.leaseRenewIn, hl, hid, hgen, hsrc]

theorem Alesh.leaseRenewIn_newer (hnew : newer16 x.gen l.gen = true) :
    a.leaseRenewIn src x p = a.yieldLease l src x.gen (leAt p 0 8) := by
  have hne : x.gen ≠ l.gen := fun h => by rw [h, newer16_self] at hnew; exact absurd hnew Bool.false_ne_true
  simp [Alesh.leaseRenewIn, hl, hid, hnew, hne]

/-- A TAKE that names a new holder: of a later generation, or of this one by an earlier successor while the holder does not act here. -/
theorem Alesh.leaseTakeIn_handing (h : newer16 x.gen l.gen = true ∨ (x.gen = l.gen ∧ src ≠ l.holder ∧ (l.holder = a.node → l.acting = false) ∧
      ((a.successors x.kind l.prev).findIdx? (· == src)).getD (a.successors x.kind l.prev).length <
        ((a.successors x.kind l.prev).findIdx? (· == l.holder)).getD (a.successors x.kind l.prev).length)) :
    Handing (a.setLease (l.passedTo src x.gen (leAt p 0 8))) (a.leaseTakeIn src x p) := by
  have hin : a.leaseTakeIn src x p = (if x.kind = lCoord then (a.noteHolder l src x.gen (leAt p 0 8)).resendReports
      fun r => r.1 == a.num O.GROUP_NUMBER else a.noteHolder l src x.gen (leAt p 0 8)) := by
    rcases h with hnew | ⟨hgen, hsrc, hacting, hrank⟩
    · simp [Alesh.leaseTakeIn, hl, hid, hnew]
    · have hfree : (l.holder == a.node && l.acting) = false := by simpa using hacting
      simp [Alesh.leaseTakeIn, hl, hid, hgen, newer16_self, hsrc, hrank, hfree]
  rw [hin]
  exact (Handing.noteHolder ..).trans (.ite (.resendReports ..) (.refl _))

theorem Alesh.leaseReleaseIn_successor (hgen : l.gen = x.gen) (hsrc : l.holder = src) (hnext : (a.successors x.kind src).head? = some a.node) :
    a.leaseReleaseIn src x = if a.clock.valid then a.takeLease l else a.setLease { l with expiry := 0 } := by
  simp [Alesh.leaseReleaseIn, hl, hid, hgen, hsrc, hnext]

end

/-! ### TAKE of a RETAIN lease (R236) -/

/-- Nodes sent one after another are what they were before the first was sent. -/
theorem Alesh.foldl_sendParts {a : Alesh} (src : Nat) (l : List Part) : ∀ c, Forming a c →
    l.foldl (fun (c : Alesh) (p : Part) => c.send tPart src (c.partArgsOf p) (c.nodePayload p.gsid p.level p.val)) c =
      c.emitEach (l.map fun p => a.cresol tPart src (a.partArgsOf p) (a.nodePayload p.gsid p.level p.val)) := by
  induction l with
  | nil => exact fun c _ => rfl
  | cons p l ih =>
    intro c hc
    rw [List.foldl_cons, ih _ (hc.trans (.send ..)), Alesh.send, hc.partArgsOf, hc.nodePayload, hc.cresol]
    rfl

/-- The retained partials of a slice go to its new owner. -/
theorem Alesh.retainTakeIn_sends {a : Alesh} {src : Nat} {x : LeaseArgs} (hj : a.inJob = true) (hown : a.ownerOf x.id = src)
    {mine : Part → Bool} (hmine : mine = fun p => p.gsid == x.id && (p.kind == kDense || p.kind == kSparse)) :
    (a.retainTakeIn src x).red = { a.red with retained := modWhere mine (fun p => { p with peer := src }) a.red.retained } ∧
    (∀ p ∈ a.red.retained, mine p = true →
      Sends (a.retainTakeIn src x) (a.cresol tPart src (a.partArgsOf { p with peer := src }) (a.nodePayload p.gsid p.level p.val))) ∧
    a.retainTakeIn src x = { a with red := (a.retainTakeIn src x).red, ports := (a.retainTakeIn src x).ports } := by
  set moved := modWhere mine (fun p => { p with peer := src }) a.red.retained with hmoved
  set b := { a with red := { a.red with retained := moved } }
  set packets := (moved.filter mine).map fun p => a.cresol tPart src (a.partArgsOf p) (a.nodePayload p.gsid p.level p.val)
  have hsent : a.retainTakeIn src x = b.emitEach packets := by
    unfold Alesh.retainTakeIn
    rw [hown, bne_self_eq_false, if_neg Bool.false_ne_true, ← hmine]
    exact Alesh.foldl_sendParts src _ b (.parts a _ a.chrono a.cep a.ports)
  obtain ⟨ports, hframe⟩ := b.emitEach_frame packets
  refine ⟨by rw [hsent, hframe], fun p hp hm => ?_, by rw [hsent, hframe]⟩
  have hstill : mine { p with peer := src } = true := by rw [hmine] at hm ⊢; exact hm
  rw [hsent]
  have hmoved : { p with peer := src } ∈ moved := mem_modWhere (f := fun p : Part => { p with peer := src }) hp hm
  exact sends_emitEach (a := b) hj _ (List.mem_map.2 ⟨_, List.mem_filter.2 ⟨hmoved, hstill⟩, rfl⟩)

/-! ### Reports at the coordinator (R230) -/

/-- From one core to another by announcements: each stands and is sent. -/
def Announcing (a b : Alesh) : Prop := b = { a with take := { a.take with announces := b.take.announces }, ports := b.ports }

namespace Announcing
variable {a b c : Alesh}

theorem refl (a : Alesh) : Announcing a a := rfl

theorem trans (hab : Announcing a b) (hbc : Announcing b c) : Announcing a c := by
  unfold Announcing at *
  rw [hbc, hab]

theorem ite {p : Prop} [Decidable p] (hb : Announcing a b) (hc : Announcing a c) : Announcing a (if p then b else c) := by
  split
  · exact hb
  · exact hc

theorem foldl {ι : Type} {f : Alesh → ι → Alesh} (hf : ∀ a x, Announcing a (f a x)) (l : List ι) (a : Alesh) : Announcing a (l.foldl f a) := by
  induction l generalizing a with
  | nil => exact refl a
  | cons x l ih => exact (hf a x).trans (ih (f a x))

theorem announce (a : Alesh) (args e : Nat) (dsts : List Nat) : Announcing a (a.announce args e dsts) := by
  have hframe : _ = _ := OnlySends.foldl (fun c d => .send c tGrant d args []) dsts
    { a with take := { a.take with announces := a.take.announces ++ [(args, e, dsts, a.ackDue)] } }
  unfold Alesh.announce Alesh.sendAll
  rw [hframe]
  rfl

/-- An announcement that is no build forgets no report. -/
theorem announceExt (a : Alesh) {sub : Nat} (hsub : sub ≠ gBuild) (e : Nat) (x : ExtEntry) : Announcing a (a.announceExt sub e x) := by
  unfold Alesh.announceExt
  rw [if_neg hsub]
  exact announce ..

theorem coordinate (a : Alesh) : Announcing a a.coordinate := by
  unfold Alesh.coordinate
  extract_lets
  exact ite (announce ..) (ite (announce ..) (ite (foldl (fun b _ => announceExt b (by decide) ..) _ a)
    (ite (foldl (fun b _ => announceExt b (by decide) ..) _ a) (refl a))))

end Announcing

section
variable {a : Alesh} {src : Nat} {x : LeaseArgs} {p : Bytes} (hkind : x.kind = 0) (hwhat : reportWhat (leAt p 0 8) ≤ 2)
include hkind hwhat

theorem Alesh.reportIn_again (h : (src, leAt p 0 8) ∈ a.take.got) : a.reportIn src x p = a := by
  simp [Alesh.reportIn, hkind, lCoord, Nat.not_lt.2 hwhat, h]

theorem Alesh.reportIn_new (hgroup : x.id = a.num O.GROUP_NUMBER) (hacts : a.acts lCoord = true) (h : (src, leAt p 0 8) ∉ a.take.got) :
    a.reportIn src x p = ({ a with take := { a.take with got := a.take.got ++ [(src, leAt p 0 8)] } }).coordinate := by
  have hacts' : a.acts 0 = true := hacts
  simp [Alesh.reportIn, hkind, lCoord, Nat.not_lt.2 hwhat, hgroup, hacts', h]

end

/-! ### Lease timers (R227, R230) -/

section
variable {a0 a : Alesh} {now k : Nat} {l : Lease} (ha : a0.at now = a) (hj : a.inJob = true) (hl : a.lease? k = some l)
include ha hj hl

theorem Alesh.leaseRenewDue_renews (hacts : a.acts k = true) (hdue : l.expiry < a.now + a.num O.LEASE_TERM_NS / 2) :
    a0.leaseRenewDue now k =
      (a.setLease { l with expiry := a.now + a.num O.LEASE_TERM_NS }).sendLease { l with expiry := a.now + a.num O.LEASE_TERM_NS } 0 := by
  simp [Alesh.leaseRenewDue, ha, hl, hj, hacts, hdue]

theorem Alesh.leaseTakeDue_takes {i : Nat} (hi : (a.successors k l.holder).findIdx? (· == a.node) = some i) (hvalid : a.clock.valid = true)
    (hdue : l.expiry + a.num O.LEASE_GUARD_NS + i * a.num O.LEASE_STEP_NS ≤ a.now) : a0.leaseTakeDue now k = a.takeLease l := by
  simp [Alesh.leaseTakeDue, ha, hl, hi, hj, Alesh.due_of_valid hvalid, hdue]

theorem Alesh.leaseActStart_acts (hvalid : a.clock.valid = true) (hholder : l.holder = a.node) (hacting : l.acting = false)
    (hdraining : a.isDraining a.node = false) (hdue : l.actFrom ≤ a.now) : a0.leaseActStart now k = a.setLease { l with acting := true } := by
  simp [Alesh.leaseActStart, ha, hl, hj, hholder, hacting, hdraining, Alesh.due_of_valid hvalid, hdue]

end

/-- A report about the core's own group goes to its coordinator (R230). -/
theorem Alesh.sendReportWord_own {a : Alesh} {group : Nat} (h : group = a.num O.GROUP_NUMBER) (word : Nat) :
    a.sendReportWord group word = a.send tLease a.coordinator
      (leaseArgs lCoord group 3 (((a.lease? lCoord).map (·.gen)).getD 0)) (leBytes 8 word ++ leBytes 8 0) := by
  simp [Alesh.sendReportWord, h]

/-- Every report about the core's own group among those that go out is sent to its coordinator. -/
theorem Alesh.foldl_sendReportWord_sends {a : Alesh} (hj : a.inJob = true) {l : List (Nat × Nat × Nat)} {r : Nat × Nat × Nat} (hr : r ∈ l)
    (hown : r.1 = a.num O.GROUP_NUMBER) : ∀ c, OnlySends a c →
    Sends (l.foldl (fun (b : Alesh) (r : Nat × Nat × Nat) => b.sendReportWord r.1 r.2.1) c)
      (a.cresol tLease a.coordinator (leaseArgs lCoord r.1 3 (((a.lease? lCoord).map (·.gen)).getD 0)) (leBytes 8 r.2.1 ++ leBytes 8 0)) := by
  induction l with
  | nil => exact absurd hr List.not_mem_nil
  | cons q l ih =>
    intro c hc
    rw [List.foldl_cons]
    rcases List.mem_cons.1 hr with rfl | hr
    · refine (Handing.foldl (fun b _ => .of_arriving (.sendReportWord b ..)) l _).sends _ ?_
      obtain ⟨ports, rfl⟩ : ∃ ports, c = { a with ports := ports } := ⟨_, hc⟩
      rw [Alesh.sendReportWord_own (a := { a with ports := ports }) hown]
      exact sends_emit_self (a := { a with ports := ports }) hj _
    · exact ih hr _ (hc.trans (Alesh.sendReportWord_frame ..))

/-- Every standing report whose time has come goes out again, and waits anew (R230). -/
theorem Alesh.leaseReportResend_sends {a0 a : Alesh} {now : Nat} (ha : a0.at now = a) (hj : a.inJob = true) (hvalid : a.clock.valid = true) :
    let b := a0.leaseReportResend now
    (∀ r ∈ a.take.reports, (r.2.2 ≤ a.now → (r.1, r.2.1, a.ackDue) ∈ b.take.reports) ∧ (a.now < r.2.2 → r ∈ b.take.reports)) ∧
    (∀ r ∈ a.take.reports, r.2.2 ≤ a.now → r.1 = a.num O.GROUP_NUMBER → ∃ gen,
      Sends b (a.cresol tLease a.coordinator (leaseArgs lCoord r.1 3 gen) (leBytes 8 r.2.1 ++ leBytes 8 0))) ∧
    b = { a with take := { a.take with reports := b.take.reports }, ports := b.ports } := by
  have hdue (t : Nat) : a.due t = decide (t ≤ a.now) := Alesh.due_of_valid hvalid t
  set late : Nat × Nat × Nat → Bool := fun r => a.due r.2.2
  set kept := modWhere late (fun r => (r.1, r.2.1, a.ackDue)) a.take.reports
  set c := { a with take := { a.take with reports := kept } }
  intro b
  have hb : b = (a.take.reports.filter late).foldl (fun (b : Alesh) (r : Nat × Nat × Nat) => b.sendReportWord r.1 r.2.1) c := by
    simp only [b, Alesh.leaseReportResend, ha]
    rfl
  have hframe : OnlySends c b := hb ▸ OnlySends.foldl (fun d _ => Alesh.sendReportWord_frame d ..) _ c
  have hreports : b.take.reports = kept := by rw [hframe]
  refine ⟨fun r hr => ⟨fun hlate => ?_, fun hearly => ?_⟩, fun r hr hlate hown => ⟨((a.lease? lCoord).map (·.gen)).getD 0, ?_⟩, ?_⟩
  · rw [hreports]
    exact mem_modWhere (f := fun r : Nat × Nat × Nat => (r.1, r.2.1, a.ackDue)) hr ((hdue _).trans (decide_eq_true hlate))
  · rw [hreports]
    exact mem_modWhere_of_false hr ((hdue _).trans (decide_eq_false (Nat.not_le.2 hearly)))
  · rw [hb]
    exact Alesh.foldl_sendReportWord_sends (a := c) hj (List.mem_filter.2 ⟨hr, (hdue _).trans (decide_eq_true hlate)⟩) hown c (OnlySends.refl c)
  · rw [hframe]

/-- Settles O40: each packet and each timer by what it comes to. -/
theorem leasesPassInOrder : Obligations.LeasesPassInOrder := by
  unfold Obligations.LeasesPassInOrder
  intro taken
  refine ⟨fun s now m l h hlen hj => ?_, fun s now m h hlen hj => ?_, fun s now m l h hpayload hj => ?_, fun s now m h hlen hj => ?_,
    fun s now k hj hvalid => ?_⟩
  · intro a x e passes hkind hl hid
    have hknown : x.kind ≤ 3 := Nat.le_trans hkind (by decide)
    have hne : x.kind ≠ 3 := by omega
    refine ⟨fun hgen hsrc => ?_, fun hnew => ⟨?_, ?_⟩, fun hgen hsrc hacting i hi j hj' hij => ?_⟩
    · refine leaseRenewRx_gives h hj hknown hlen ?_
      rw [Alesh.leaseRenewIn_holder hl hid hgen hsrc]
      exact ⟨Alesh.lease?_setLease_same hl (Alesh.kind_of_lease? (l := l) hl), rfl⟩
    · refine leaseRenewRx_gives h hj hknown hlen ?_
      rw [Alesh.leaseRenewIn_newer hl hid hnew]
      exact (Handing.yieldLease ..).passes hl
    · exact leaseTakeRx_gives h hj hknown hlen hne ((Alesh.leaseTakeIn_handing hl hid (.inl hnew)).passes hl)
    · have hrank : ((a.successors x.kind l.prev).findIdx? (· == m.src)).getD (a.successors x.kind l.prev).length <
          ((a.successors x.kind l.prev).findIdx? (· == l.holder)).getD (a.successors x.kind l.prev).length := by rw [hi, hj']; exact hij
      exact leaseTakeRx_gives h hj hknown hlen hne ((Alesh.leaseTakeIn_handing hl hid (.inr ⟨hgen, hsrc, hacting, hrank⟩)).passes hl)
  · intro a g mine hkind hown
    exact leaseTakeRx_gives_retained h hj (Nat.le_of_eq hkind) hlen hkind
      (Alesh.retainTakeIn_sends ((Alesh.inJob_heard ..).trans hj) hown rfl)
  · intro a x hkind hl hid hgen hsrc hnext
    have hknown : x.kind ≤ 3 := Nat.le_trans hkind (by decide)
    refine ⟨fun hvalid => ?_, fun hvalid => ?_⟩ <;> refine leaseReleaseRx_gives h hj hknown hpayload ?_ <;>
      rw [Alesh.leaseReleaseIn_successor hl hid hgen hsrc hnext, hvalid]
    · exact Alesh.takeLease_takes ((Alesh.inJob_heard ..).trans hj) hl
    · exact ⟨Alesh.lease?_setLease_same hl (Alesh.kind_of_lease? (l := l) hl), rfl⟩
  · intro a x w hkind hwhat hgroup hacts
    have hknown : x.kind ≤ 3 := by omega
    refine ⟨fun hgot => leaseReportRx_gives h hj hknown hlen (Alesh.reportIn_again hkind hwhat hgot), fun hgot =>
      leaseReportRx_gives h hj hknown hlen ?_⟩
    have hframe : _ = _ := Announcing.coordinate { a with take := { a.take with got := a.take.got ++ [(m.src, w)] } }
    rw [Alesh.reportIn_new hkind hwhat hgroup hacts hgot]
    exact ⟨by rw [hframe], by rw [hframe]⟩
  · intro a
    have hja : a.inJob = true := by rw [Alesh.inJob_at]; exact hj
    have hva : a.clock.valid = true := (Alesh.valid_at ..).trans hvalid
    refine ⟨fun l hl => ⟨fun hacts hdue => gives_onCore rfl ?_, fun i hi hdue => gives_onCore rfl ?_,
      fun hholder hacting hdraining hdue => gives_onCore rfl ?_⟩, gives_onCore rfl (Alesh.leaseReportResend_sends rfl hja hva)⟩
    · rw [Alesh.leaseRenewDue_renews rfl hja hl hacts hdue]
      obtain rfl := Alesh.kind_of_lease? hl
      set n : Lease := { l with expiry := a.now + a.num O.LEASE_TERM_NS }
      refine ⟨?_, fun d hd => Alesh.sends_sendAll (a := a.setLease n) hja tLease _ _ hd, ?_⟩
      · exact (Alesh.lease?_of_written (n := n) hl rfl (Handing.sendLease _ n 0).leases).1
      · have hframe : _ = _ := OnlySends.sendLease (a.setLease n) n 0
        rw [hframe]
        rfl
    · rw [Alesh.leaseTakeDue_takes rfl hja hl hi hva hdue]
      exact Alesh.takeLease_takes hja hl
    · rw [Alesh.leaseActStart_acts rfl hja hl hva hholder hacting hdraining hdue]
      exact ⟨Alesh.lease?_setLease_same hl (Alesh.kind_of_lease? (l := l) hl), rfl⟩

end Sys2Proof.Machine
end
